-- ==== Sys2Proof/Word.lean ====
section
/-! DEFINITION. The word types of the machine and their plainest arithmetic (00_scope.md R2 to R5). -/

namespace Sys2Proof

/-- A byte of memory (R4). -/
abbrev Byte := BitVec 8
/-- A half: 16 bits (R4). -/
abbrev Half := BitVec 16
/-- A word: 32 bits, the width of a register and of an instruction word (R4). -/
abbrev Word := BitVec 32
/-- A dword: 64 bits (R4). -/
abbrev Dword := BitVec 64

end Sys2Proof
end

