-- ==== Sys2Proof/Syntax.lean ====
section
/-! DEFINITION. The instructions and events of the machine as syntax: one constructor of Instr for
each row of spec/opcode_table.json. Operands carry their literal words, and the effect of each prefix
stands in the fields of the instruction it precedes (07_encoding.md R163 to R172). -/

namespace Sys2Proof

/-- A 6-bit operand code (03_registers.md R68, Table 3.2); `v` is a main register named under XREG (R73). -/
inductive Operand where
  | w (n : Fin 32)
  | k (n : Fin 30)
  | z
  | lit (x : Word)
  | v (n : Fin 256)
  deriving DecidableEq, Repr

/-- The guard field G (R165): predicate [3:1], negated by [0]. -/
structure Guard where
  pred : Fin 8
  neg  : Bool
  deriving DecidableEq, Repr

/-- Rounding modes 0 to 5 (04_numbers.md Table 4.4). -/
inductive RMode where
  | rne | rtz | rdn | rup | rna | rto
  deriving DecidableEq, Repr

/-- The payload of an SMOD prefix (Table 7.5); all false where there is none. -/
structure SMod where
  sat  : Bool
  absB : Bool
  negB : Bool
  absA : Bool
  negA : Bool
  deriving DecidableEq, Repr

/-- The payload of a CACHE prefix (Table 7.5); all zero where there is none. -/
structure CacheP where
  noL2 : Bool
  pcls : Fin 4
  l1   : Fin 4
  deriving DecidableEq, Repr

/-- Memory semantics (06_ordering.md Table 6.2). -/
inductive Sem where
  | rlx | acq | rel | acqrel | sc
  deriving DecidableEq, Repr

/-- Scopes (06_ordering.md Table 6.1). -/
inductive Scope where
  | crew | core | die | dev | dom
  deriving DecidableEq, Repr

/-- The payload of an ORD prefix (Table 7.5). -/
structure Ord where
  sem   : Sem
  scope : Scope
  deriving DecidableEq, Repr

/-- Comparisons of ISETP (09_isa_integer.md R222). -/
inductive ICmp where
  | eq | ne | ltS | leS | ltN | leN
  deriving DecidableEq, Repr

/-- Modes of SHFL (R230). -/
inductive ShflMode where
  | idx | up | down | xor
  deriving DecidableEq, Repr

/-- Sizes of LD and LDS (Table 7.8). -/
inductive LdSize where
  | b8 | s8 | b16 | s16 | b32 | b64 | b128
  deriving DecidableEq, Repr

/-- Sizes of ST and STS (Table 7.8). -/
inductive StSize where
  | b8 | b16 | b32 | b64 | b128
  deriving DecidableEq, Repr

/-- Sizes of LDK (Table 7.8). -/
inductive LdkSize where
  | b32 | b64 | b128
  deriving DecidableEq, Repr

/-- Typed spaces of LDT (Table 5.3). -/
inductive TSpace where
  | W | A | C
  deriving DecidableEq, Repr

/-- Read-modify-write operations by offset (11_isa_memory.md Table 11.2). -/
inductive RmwOp where
  | addN32 | addN64 | minS | minN | maxS | maxN | and | or | xor
  | exchB32 | exchB64 | casB32 | casB64 | inc | dec | faddF32 | faddB2
  deriving DecidableEq, Repr

/-- Actions of CMAINT (R270). -/
inductive CmAction where
  | wb | inv | wbinv
  deriving DecidableEq, Repr

/-- What the patrol scrubber finds at the HBM line or L2 line it visits (19_platform.md R422, R423). -/
inductive ScrubResult where
  | clean
  | corrected
  | uncorrectable
  deriving DecidableEq, Repr

/-- Requests a fabric frame may carry in (05_memory.md R128; 17_trust.md R397). -/
inductive FrameBody where
  /-- A peer's read of local memory: address, bytes, and the tracker at the peer. -/
  | readReq (pa : Nat) (len : Nat) (tracker : Nat)
  /-- A peer's write of local memory. -/
  | writeReq (pa : Nat) (bytes : List Byte) (tracker : Nat)
  /-- A peer's read-modify-write, performed at the home L2 slice. -/
  | rmwReq (op : RmwOp) (pa : Nat) (v c : Dword) (tracker : Nat)
  /-- The reply to a read of this device. -/
  | readReply (tracker : Nat) (bytes : List Byte)
  /-- The acknowledgement of a write of this device. -/
  | writeAck (tracker : Nat)
  /-- The old value a remote read-modify-write of this device returns. -/
  | rmwReply (tracker : Nat) (old : Dword)
  /-- The peer refused or denied the access (R128, R399). -/
  | refusal (tracker : Nat)
  /-- The device asks a peer to write back and invalidate the lines it holds of the device's memory (15_translation.md
  R347). -/
  | flushReq (tracker : Nat)
  deriving DecidableEq, Repr

/-- A received fabric frame: the peer device and VF that sent it, the port it came in by, its length/type
value, its body and its class (16_partitions.md R372; 19_platform.md R421). -/
structure Frame where
  port   : Nat
  device : Nat
  vf     : Nat
  ftype  : Half
  body   : FrameBody
  /-- Whether it is of class H. -/
  h      : Bool := false
  deriving DecidableEq, Repr

/-- A group of flits on a link direction (17_trust.md R385, R388). -/
structure LinkGroup where
  counter : Dword
  phase   : Bool
  flits   : List (List Byte)
  tag     : Dword
  deriving DecidableEq, Repr

/-- A chiplet's SPDM response to BD, by the bring-up step it answers (17_trust.md R382). What a vendor-defined response carries is
its payload (Table 17.9). -/
inductive SpdmResponse where
  /-- Certificates: whether the algorithms are exactly those of R382, the two chains. -/
  | certificates (algsOk : Bool) (rsaChain slhChain : List Byte)
  /-- CHALLENGE_AUTH: its RSA signature, and the response to 0x0001. -/
  | challenge (rsaSig vendor : List Byte)
  /-- Measurements: the digest, the RSA signature, and the response to 0x0001. -/
  | measurements (digest rsaSig vendor : List Byte)
  /-- Key exchange: the chiplet's P-384 share, and the response to 0x0002. -/
  | keyExchange (share vendor : List Byte)
  /-- FINISH: its RSA signature, and the response to 0x0001. -/
  | finish (rsaSig vendor : List Byte)
  /-- What the chiplet itself answers, from its fuses and its firmware (R379, R380). -/
  | own
  /-- An SPDM ERROR in place of the response awaited. -/
  | error
  deriving DecidableEq, Repr

set_option maxRecDepth 4000 in
/-- Every row of spec/opcode_table.json. The first 177 are instruction words of the five clause classes;
the others are the device's events, each with the parameters that name what it acts on. -/
inductive Instr where
  -- V class: integer arithmetic (09_isa_integer.md R215, R216)
  | iadd (d a b : Operand) (g : Guard)
  | iaddSat (d a b : Operand) (g : Guard)
  | isub (d a b : Operand) (g : Guard)
  | isubSat (d a b : Operand) (g : Guard)
  | imul (d a b : Operand) (g : Guard)
  | imulhS (d a b : Operand) (g : Guard)
  | imulhN (d a b : Operand) (g : Guard)
  | imad (d a b : Operand) (g : Guard)
  | imadwN (d a b : Operand) (g : Guard)
  | imadwS (d a b : Operand) (g : Guard)
  | iadd64 (d a b : Operand) (g : Guard)
  | isub64 (d a b : Operand) (g : Guard)
  | iminS (d a b : Operand) (g : Guard)
  | iminN (d a b : Operand) (g : Guard)
  | imaxS (d a b : Operand) (g : Guard)
  | imaxN (d a b : Operand) (g : Guard)
  | iabs (d a : Operand) (g : Guard)
  | lea1 (d a b : Operand) (g : Guard)
  | lea2 (d a b : Operand) (g : Guard)
  | lea3 (d a b : Operand) (g : Guard)
  | lea4 (d a b : Operand) (g : Guard)
  | lea64 (d a b : Operand) (g : Guard)
  | idp4S (d a b : Operand) (g : Guard)
  | idp4N (d a b : Operand) (g : Guard)
  | idp2S (d a b : Operand) (g : Guard)
  -- V class: logic, shifts and bit fields (R217 to R221)
  | and (d a b : Operand) (g : Guard)
  | or (d a b : Operand) (g : Guard)
  | xor (d a b : Operand) (g : Guard)
  | andn (d a b : Operand) (g : Guard)
  | orn (d a b : Operand) (g : Guard)
  | not (d a : Operand) (g : Guard)
  | shl (d a b : Operand) (g : Guard)
  | shr (d a b : Operand) (g : Guard)
  | sar (d a b : Operand) (g : Guard)
  | fshl (d a b : Operand) (g : Guard)
  | fshr (d a b : Operand) (g : Guard)
  | bfeN (d a b : Operand) (g : Guard)
  | bfeS (d a b : Operand) (g : Guard)
  | bfi (d a b : Operand) (g : Guard)
  | brev (d a : Operand) (g : Guard)
  | popc (d a : Operand) (g : Guard)
  | clz (d a : Operand) (g : Guard)
  | ctz (d a : Operand) (g : Guard)
  | prmt (d a b : Operand) (g : Guard)
  -- V class: compares, predicates, selection and moves (R222 to R228)
  | isetp (cc : ICmp) (d : Fin 7) (a b : Operand) (g : Guard)
  | psetpAnd (d : Fin 7) (a b : Fin 8) (g : Guard)
  | psetpOr (d : Fin 7) (a b : Fin 8) (g : Guard)
  | psetpXor (d : Fin 7) (a b : Fin 8) (g : Guard)
  | psetpAndn (d : Fin 7) (a b : Fin 8) (g : Guard)
  | sel (d a b : Operand) (g : Guard)
  | mov (d a : Operand) (g : Guard)
  | prdw (d : Operand) (g : Guard)
  | pwrw (a : Operand) (g : Guard)
  | w2k (d : Fin 30) (a b : Operand) (g : Guard)
  | osq (d : Fin 30) (a : Operand ⊕ Fin 8) (g : Guard)
  -- V class: cross-lane (R229 to R233, R254)
  | shfl (m : ShflMode) (d a b : Operand) (g : Guard)
  | voteAll (d : Fin 7) (a : Fin 8) (g : Guard)
  | voteAny (d : Fin 7) (a : Fin 8) (g : Guard)
  | voteBal (d : Operand) (a : Fin 8) (g : Guard)
  | redaddS (d a : Operand) (g : Guard)
  | redminS (d a : Operand) (g : Guard)
  | redminN (d a : Operand) (g : Guard)
  | redmaxS (d a : Operand) (g : Guard)
  | redmaxN (d a : Operand) (g : Guard)
  | redminiN (d a b : Operand) (g : Guard)
  | redmaxiN (d a b : Operand) (g : Guard)
  | redaddF32 (d a : Operand) (g : Guard)
  | redminF32 (d a : Operand) (g : Guard)
  | redmaxF32 (d a : Operand) (g : Guard)
  -- V class: floating point (10_isa_float.md R242 to R248)
  | fadd (m : SMod) (r : Option RMode) (d a b : Operand) (g : Guard)
  | fsub (m : SMod) (r : Option RMode) (d a b : Operand) (g : Guard)
  | fmul (m : SMod) (r : Option RMode) (d a b : Operand) (g : Guard)
  | ffma (m : SMod) (r : Option RMode) (d a b : Operand) (g : Guard)
  | fmin (m : SMod) (d a b : Operand) (g : Guard)
  | fmax (m : SMod) (d a b : Operand) (g : Guard)
  | fsetpEq (m : SMod) (d : Fin 7) (a b : Operand) (g : Guard)
  | fsetpNe (m : SMod) (d : Fin 7) (a b : Operand) (g : Guard)
  | fsetpLt (m : SMod) (d : Fin 7) (a b : Operand) (g : Guard)
  | fsetpLe (m : SMod) (d : Fin 7) (a b : Operand) (g : Guard)
  | fsetpNan (m : SMod) (d : Fin 7) (a b : Operand) (g : Guard)
  | frnd (m : SMod) (r : Option RMode) (d a : Operand) (g : Guard)
  | fldexp (m : SMod) (r : Option RMode) (d a b : Operand) (g : Guard)
  | fldxa (m : SMod) (r : Option RMode) (d a b : Operand) (g : Guard)
  | faddH2 (m : SMod) (r : Option RMode) (d a b : Operand) (g : Guard)
  | fmulH2 (m : SMod) (r : Option RMode) (d a b : Operand) (g : Guard)
  | ffmaH2 (m : SMod) (r : Option RMode) (d a b : Operand) (g : Guard)
  | fminH2 (m : SMod) (d a b : Operand) (g : Guard)
  | fmaxH2 (m : SMod) (d a b : Operand) (g : Guard)
  | faddB2 (m : SMod) (r : Option RMode) (d a b : Operand) (g : Guard)
  | fmulB2 (m : SMod) (r : Option RMode) (d a b : Operand) (g : Guard)
  | ffmaB2 (m : SMod) (r : Option RMode) (d a b : Operand) (g : Guard)
  | fdp2H2 (m : SMod) (r : Option RMode) (d a b : Operand) (g : Guard)
  | fdp2B2 (m : SMod) (r : Option RMode) (d a b : Operand) (g : Guard)
  | frcp (m : SMod) (d a : Operand) (g : Guard)
  | frsq (m : SMod) (d a : Operand) (g : Guard)
  | fsqrt (m : SMod) (d a : Operand) (g : Guard)
  | fex2 (m : SMod) (d a : Operand) (g : Guard)
  | flg2 (m : SMod) (d a : Operand) (g : Guard)
  | fsin (m : SMod) (d a : Operand) (g : Guard)
  | fcos (m : SMod) (d a : Operand) (g : Guard)
  | ftanh (m : SMod) (d a : Operand) (g : Guard)
  -- V class: conversions (R249, R250)
  | cvtF32I32 (r : Option RMode) (d a : Operand) (g : Guard)
  | cvtF32N32 (r : Option RMode) (d a : Operand) (g : Guard)
  | cvtI32F32 (r : Option RMode) (d a : Operand) (g : Guard)
  | cvtN32F32 (r : Option RMode) (d a : Operand) (g : Guard)
  | cvtH2F32 (r : Option RMode) (d a b : Operand) (g : Guard)
  | cvtB2F32 (r : Option RMode) (d a b : Operand) (g : Guard)
  | cvtF32HL (d a : Operand) (g : Guard)
  | cvtF32HH (d a : Operand) (g : Guard)
  | cvtF32BL (d a : Operand) (g : Guard)
  | cvtF32BH (d a : Operand) (g : Guard)
  | cvtE4X2F32 (r : Option RMode) (d a b : Operand) (g : Guard)
  | cvtE5X2F32 (r : Option RMode) (d a b : Operand) (g : Guard)
  | cvtF32E4 (d a b : Operand) (g : Guard)
  | cvtF32E5 (d a b : Operand) (g : Guard)
  -- V class: blocks (R251 to R253); c is the width code, width minus 2
  | cvtb (c : Fin 7) (r : Option RMode) (d a : Operand) (b : Fin 30) (g : Guard)
  | dqb (d a b : Operand) (g : Guard)
  | bpack (c : Fin 7) (d a : Operand) (g : Guard)
  | bunpk (c : Fin 7) (d a : Operand) (g : Guard)
  -- M class (11_isa_memory.md)
  | ld (sz : LdSize) (c : CacheP) (o : Option Ord) (d a b : Operand) (g : Guard)
  | st (sz : StSize) (c : CacheP) (o : Option Ord) (d a b : Operand) (g : Guard)
  | lds (sz : LdSize) (d a b : Operand) (g : Guard)
  | sts (sz : StSize) (d a b : Operand) (g : Guard)
  | ldk (sz : LdkSize) (c : CacheP) (d : Fin 30) (a b : Operand) (g : Guard)
  | ldt (sp : TSpace) (wide : Bool) (d a b : Operand) (g : Guard)
  | stt (sp : TSpace) (wide : Bool) (d a b : Operand) (g : Guard)
  | atom (op : RmwOp) (o : Option Ord) (d a b : Operand) (g : Guard)
  | red (op : RmwOp) (o : Option Ord) (a b : Operand) (g : Guard)
  | atoms (op : RmwOp) (o : Option Ord) (d a b : Operand) (g : Guard)
  | fence (scope : Scope) (sem : Sem) (g : Guard)
  | pref (lvl : Fin 2) (c : CacheP) (a b : Operand) (g : Guard)
  | cmaint (act : CmAction) (scope : Scope) (g : Guard)
  | barpa (d a b : Operand) (g : Guard)
  | barpw (d a b : Operand) (g : Guard)
  -- X class (12_isa_matrix.md)
  | xmma (aq : Fin 128) (bs : Fin 256) (ct : Fin 16) (wa wb : Fin 7) (zero : Bool) (g : Guard)
  | xzero (t : Fin 16) (g : Guard)
  | xreq (r : Option RMode) (t : Fin 16) (aq : Fin 64) (c : Fin 7) (g : Guard)
  | xosq (d : Fin 30) (sp : TSpace) (b : Operand) (g : Guard)
  -- C class (11_isa_memory.md)
  | cpy (c : CacheP) (a : Operand) (g : Guard)
  | cpyg (c : CacheP) (a : Operand) (g : Guard)
  | cpys (c : CacheP) (a : Operand) (g : Guard)
  | cpyq (c : CacheP) (r : Option RMode) (a : Operand) (g : Guard)
  | rres (d : Operand) (ring : Fin 64) (g : Guard)
  | rpub (ring : Fin 64) (b : Operand) (g : Guard)
  | rclm (d : Operand) (ring : Fin 64) (g : Guard)
  | rrel (ring : Fin 64) (b : Operand) (g : Guard)
  | rctr (d : Operand) (ring : Fin 64) (g : Guard)
  | msgp (cap : Fin 32) (a b : Operand) (g : Guard)
  | msgs (len : Fin 64) (a b : Operand) (g : Guard)
  | msgc (d a : Operand) (g : Guard)
  | ptld (first : Fin 8) (a : Operand) (count : Fin 64) (g : Guard)
  -- S class (08_isa_control.md)
  | nop (g : Guard)
  | exit (g : Guard)
  | ret (g : Guard)
  | brx (a : Operand) (g : Guard)
  | yield (g : Guard)
  | trap (code : Fin 32) (g : Guard)
  | brk (g : Guard)
  | tretNext (g : Guard)
  | tretRetry (g : Guard)
  | rgn (base : Fin 32) (mask : Operand) (nra : Bool) (g : Guard)
  | rgnr (base : Fin 32) (mask : Operand) (nra : Bool) (g : Guard)
  | rgne (g : Guard)
  | waitf (flag : Fin 12) (thr : Fin 64) (g : Guard)
  | bars (b : Fin 16) (g : Guard)
  | bara (b : Fin 16) (g : Guard)
  | barw (b : Fin 16) (g : Guard)
  | bard (b : Fin 16) (g : Guard)
  | launch (d a b : Operand) (g : Guard)
  | joinc (g : Guard)
  | migr (a : Operand) (g : Guard)
  | rdsr (d : Operand) (n : Fin 33) (g : Guard)
  | wrsr (n : Fin 33) (b : Operand) (g : Guard)
  | mark (p : Fin 64) (g : Guard)
  | bra (off : BitVec 22) (g : Guard)
  | call (off : BitVec 22) (g : Guard)
  | brau (off : BitVec 22) (g : Guard)
  -- Events of the kernel's machine
  | clauseFetch (crew group : Nat) (addr : Dword)
  | clauseStart (crew role : Nat)
  | stallTimeout (crew group : Nat)
  | fastBufferAssign (core quad : Nat)
  | fastBufferRecall (core quad : Nat)
  | hSheafEviction (crew : Nat)
  | medlarSpillDone (crew : Nat)
  | crewResume (crew core : Nat)
  | runaheadStart (crew group : Nat)
  | runaheadInstructionLimit (crew group : Nat)
  | migrationMove (crew core : Nat)
  | loadDelivery (op : Nat)
  | storePerformed (core : Nat)
  -- Events of the memory system
  | l1FillLand (core line : Nat)
  | l1DirtyWriteback (core line : Nat)
  | l1LineExpiry (core line : Nat)
  | l2RequestAccept (slice : Nat)
  | hbmChannelServe (channel : Nat)
  | hbmTokenRefill (channel : Nat)
  | l2Fill (slice line : Nat)
  | patrolScrub (l2 : Bool) (line : Nat) (r : ScrubResult)
  | fabricFrameReceive (f : Frame)
  | peerTimeout (device : Nat)
  | copyComplete (op : Nat)
  | copyFault (op : Nat)
  | matrixPassDecision (cluster : Nat)
  | matrixRowsWritten (cluster : Nat)
  | matrixPassEnd (cluster : Nat)
  | writeBackAcknowledgement (die line : Nat)
  | xzeroDone (op : Nat)
  | xreqDone (op : Nat)
  | messageArrival (core : Nat)
  -- Events of queues and dispatch (14_scheduling.md)
  | queueDoorbell (vf q : Nat)
  | availEntryRead (vf q : Nat)
  | launchCommand (vf q : Nat)
  | waitCommand (vf q : Nat)
  | signalCommand (vf q : Nat)
  | writeCommand (vf q : Nat)
  | fenceCommand (vf q : Nat)
  | copyCommand (vf q : Nat)
  | commandCompletion (vf q cmd : Nat)
  | crewDispatch
  | timeSliceEnd
  | trialEnd (vf : Nat)
  | preemptionSaveDone (crew : Nat)
  | crewRetire (crew : Nat)
  | queueEnable (vf q : Nat) (ctl : Word)
  | queueDisable (vf q : Nat) (ctl : Word)
  | queueKill (vf q : Nat)
  | queueKillFinish (vf q : Nat)
  | eventWrite (vf e : Nat) (x : Dword)
  -- Events of translation and residency (15_translation.md)
  | tlbiRange (vf proc : Nat)
  | tlbiProcess (vf proc : Nat)
  | tlbiPartition (vf : Nat)
  | htlbiRange (vf : Nat)
  | htlbiVf (vf : Nat)
  | htlbiAllVfs
  | tlbiComplete (vf : Nat)
  | faultRecordWrite (vf : Nat)
  | fresume (vf : Nat) (x : Dword)
  | hresume (x : Dword)
  | fown (x : Dword)
  | reclaimSweep (n : Word)
  | reclaimSweepEnd
  | pageMoveFrame (src dst : Dword) (ctl : Word)
  | pageMoveToStore (src dst : Dword) (ctl : Word)
  | pageMoveFromStore (src dst : Dword) (ctl : Word)
  | pageMoveDone
  -- Events of partitions (16_partitions.md)
  | partitionCreate (vf : Nat)
  | partitionResize (vf : Nat)
  | partitionDestroy (vf : Nat)
  | partitionPromote (vf : Nat)
  | partitionCommandEnd
  | poolmaskWrite (x : Dword)
  -- Events of trust (17_trust.md)
  | chipletQuarantine (c : Nat)
  | chipletReset (c : Nat)
  | chipletSelfReset (c : Nat)
  | attestationRetry (c : Nat)
  | keyRoll (c : Nat)
  | spdmResponse (c : Nat) (r : SpdmResponse)
  | keyRolloverForced (link : Nat)
  | rolloverAckTimeout (link : Nat)
  | linkGroupReceive (link : Nat) (g : LinkGroup)
  | partialGroupClose (link : Nat)
  | principalBind
  | principalUnbind (pid : Word)
  | osetReclaim
  | osetRequest
  | policyInstall (ctl : Word)
  | policyRemove (ctl : Word)
  | getVersion (req : List Byte)
  | getCapabilities (req : List Byte)
  | negotiateAlgorithms (req : List Byte)
  | getDigests (req : List Byte)
  | getCertificate (req : List Byte)
  | challenge (req : List Byte)
  | getMeasurements (req : List Byte)
  | vendorDefinedRequest (req : List Byte)
  | keyExchange (req : List Byte)
  | pskExchange (req : List Byte)
  | spdmOtherRequest (req : List Byte)
  -- Events of observation (18_observation.md); fn is the VF, 0 for the PF
  | cselWrite (fn n : Nat) (x : Word)
  | counterClear (fn n : Nat)
  | cntloRead (fn n : Nat)
  | cnthiRead (fn n : Nat)
  | leaseRequest (fn : Nat) (x : Word)
  | leaseRelease (fn : Nat) (x : Word)
  | leaseRevoke (kind unit : Nat)
  | tracePcSample (cluster : Nat)
  | debugStop (vf : Nat) (ctl : Word)
  | debugResume (vf : Nat) (ctl : Word)
  | debugDump (vf : Nat) (ctl : Word)
  | replayOff (vf : Nat)
  | recordMode (vf : Nat)
  | replayMode (vf : Nat)
  | trialStart (vf : Nat) (ctl : Word)
  -- Events of the platform (19_platform.md)
  | vfFlr (vf : Nat)
  | pfFlr
  | packageReset
  | islandFreqWrite (i : Nat) (x : Word)
  | powerManagerStep
  | firmwareImageWrite (img rsaSig slhSig : List Byte)
  | registerWrite (fn off size : Nat) (x : Dword)
  | vectorUnmask (fn vec : Nat)
  | installAcknowledgement (link : Nat)
  | fabricPortLinkChange (port : Nat) (up : Bool)
  deriving DecidableEq, Repr

end Sys2Proof
end

