-- ==== Sys2Proof/Config.lean ====
section
/-! DEFINITION. What an implementation fixes and the spec leaves open: free values and uninterpreted functions,
each an opaque constant with no body. -/

namespace Sys2Proof.Config

/-- The time in ns that passes at the n-th step of the machine's own choice (assumption 4). -/
opaque elapsedNs : Nat → Dword

/-- The c-cycles of a core's island that pass at the n-th such step (assumption 4). -/
opaque elapsedCycles : Nat → Dword

/-- Special functions with bits of the implementation's own (10_isa_float.md R248, assumption 5). -/
inductive SFun where
  | rcp | rsq | ex2 | lg2 | sin | cos | tanh
  deriving DecidableEq, Repr

/-- The value the device's function tables return (R248): one value for a given x. -/
opaque specialFn : SFun → Word → Word

/-- SHA-384 (17_trust.md R380). -/
opaque sha384 : List Byte → List Byte

/-- Verification of an RSA-3072 PSS signature: key, message, signature (R379). -/
opaque rsaVerify : List Byte → List Byte → List Byte → Bool

/-- Verification of an SLH-DSA-SHA2-192s signature: key, message, signature (R379). -/
opaque slhVerify : List Byte → List Byte → List Byte → Bool

/-- RSA-3072 PSS signatures under a private key: key, message (R379). -/
opaque rsaSign : List Byte → List Byte → List Byte
/-- SLH-DSA-SHA2-192s signatures, 16,224 bytes, under a private key: key, message (R379, Table 17.9). -/
opaque slhSign : List Byte → List Byte → List Byte

/-- What the fuses of a chiplet hold (R379): its private key and the certificate chain of it, for RSA-3072 or for SLH-DSA. -/
opaque fusedKey : Bool → Nat → List Byte
opaque fusedCert : Bool → Nat → List Byte

/-- A chiplet's fuse configuration without its private keys, and its firmware image (R380). -/
opaque fuseConfig : Nat → List Byte
opaque chipFirmware : Nat → List Byte

/-- A chiplet's measurement: the SHA-384 digest of its firmware image followed by its fuse configuration (R380). -/
def measurement (c : Nat) : List Byte := sha384 (chipFirmware c ++ fuseConfig c)

/-- BD's two signatures over a message (R391): BD is chiplet 0. -/
def bdRsaSign (msg : List Byte) : List Byte := rsaSign (fusedKey true 0) msg
def bdSlhSign (msg : List Byte) : List Byte := slhSign (fusedKey false 0) msg

/-- The package root that BD's ROM holds: both CA public keys (R379). -/
opaque packageRoot : List Byte

/-- The public keys a certificate chain carries once it verifies to the package root; none where it does not
(R379, R382). -/
opaque chainKey : Bool → List Byte → Option (List Byte)

/-- HKDF with SHA-384: extract (R385). -/
opaque hkdfExtract : List Byte → List Byte → List Byte
/-- HKDF with SHA-384: the first 32 bytes of expand (R385). -/
opaque hkdfExpand32 : List Byte → List Byte → List Byte

/-- The P-384 share and the ML-KEM-1024 encapsulation key that go with a side's secrets (R382 step 3). -/
opaque exchangeShare : List Byte → List Byte
opaque encapsKey : List Byte → List Byte
/-- The ML-KEM-1024 ciphertext for an encapsulation key: key, secrets (R382 step 3). -/
opaque encapsulate : List Byte → List Byte → List Byte

/-- The P-384 shared secret (48 B) followed by the ML-KEM-1024 shared secret (32 B) of an exchange: BD's secrets, the chiplet's
share and its ciphertext (R382, R385). -/
opaque sharedSecret : List Byte → List Byte → List Byte → List Byte

/-- AES-256-GCM under a key, nonce and associated data: ciphertext and tag (R385, R400). -/
opaque gcmSeal : List Byte → List Byte → List Byte → List Byte → List Byte × List Byte
/-- Its inverse: the plaintext where the tag verifies (R400). -/
opaque gcmOpen : List Byte → List Byte → List Byte → List Byte → List Byte → Option (List Byte)

/-- Fresh random bytes, by the counter of free values (R400). -/
opaque random32 : Nat → List Byte

/-- The firmware manifest BD's firmware carries: accepted digests by chiplet (R380). -/
opaque manifest : List (Nat × List (List Byte))

/-- BD's DER-encoded RSA-3072 leaf certificate (R396). -/
opaque bdCertificate : List Byte

/-- Whether BD passes its own check from ROM (R381). -/
opaque bdSelfCheck : Bool

/-- BD's answers to the SPDM requests whose bytes DSP0274 gives, by request code and request (R391). -/
opaque spdmReply : Nat → List Byte → List Byte

/-- The hash of BD's SPDM transcript with a chiplet, by its selector (Table 17.9), over what the two have sent beside the messages
whose bytes DSP0274 gives (R382, R383). -/
opaque transcript : Nat → Nat → List Byte → List Byte

/-- BD's GET_MEASUREMENTS response to a request, with the blocks of R392 in index order. -/
opaque measurementsReply : List Byte → List (List Byte) → List Byte

/-- Nolvy's public keys for firmware images (R418). -/
opaque firmwareKeys : List Byte × List Byte

/-- Bytes of the opaque sections of save records (14_scheduling.md R336). -/
opaque opaqueByte : Nat → Nat → Byte

/-- Bytes of older data behind a lost line, by the counter of free values and the offset (19_platform.md R423, assumption
18). -/
opaque lostByte : Nat → Nat → Byte

/-- The dispatch weight of a process of a VF, less 1 and modulo 255 (14_scheduling.md R326 step 3, assumption 14). -/
opaque processWeight : Nat → Nat → Nat

/-- A free choice among allowed outcomes, by the counter of free values (assumption 3). -/
opaque choice : Nat → Nat

/-- Which of the usable fabric ports carries the n-th frame to a peer device (assumption 10). -/
opaque route : Nat → Nat → Nat

/-- The package's power in W as the power manager measures it (19_platform.md R426). -/
opaque power : Nat → Nat

end Sys2Proof.Config
end

