-- ==== Sys2Proof/Machine/State.lean ====
section
/-! DEFINITION. The state of the machine: plain data, holding every piece of state the spec gives it.
Collections keyed by a number are lists of (key, value) pairs, keys strictly rising; a key that is not
listed reads as the default its accessor names. -/

namespace Sys2Proof.Machine

/-- A sparse table: (key, value) pairs with strictly rising keys. -/
abbrev Map (α : Type) := List (Nat × α)

/-- An index into the origin-set table (03_registers.md R81); 0 is the empty set. -/
abbrev OSet := Nat

/-- One value per lane position 0 to 31. -/
abbrev Lanes (α : Type) := Vector α 32

/-- Bytes of one memory, in canonical form: addresses strictly rising and no listed byte is 0, what an
unlisted address reads as (assumption 2). -/
abbrev Memory := List Host.Cell

/-- Cause codes (15_translation.md Table 15.7). -/
inductive Cause where
  | illClauseCount | illClauseClass | illClauseResv | illFlag | illOpcode | illOperand | illLiteral
  | illPrefix | illBranchPos | illResvField | illAlignReg | illXregWrite
  | unmappedSlot | barOverarrive | barDropUnderflow | stallTimeout | launchDepth | launchDesc | migrCrew
  | stackOverflow | stackUnderflow | breakpoint | trapNested
  | pageAbsent | pageRights | stage2Absent | stage2InWalk | misaligned | scratchRange | typedRange
  | regwinRange | remoteUnreachable | faultBatch | launchRange
  | ringMisuse | slotState | matrixFormat | copyDesc | copyDims | msgOverflow | msgSize | permTable
  | osetEscalation | osetOverflow | egressDenied
  | queueKilled | preempted | guaranteeDeficit | evicted
  | dataUncorrectable | unitFenced | linkQuarantined
  | swTrap (code : Fin 32)
  deriving DecidableEq, Repr

/-- How a region was opened (R70, R194): base/8, mask, the mask operand's set, kind, `.NRA`. -/
structure RegionMap where
  base        : Nat
  mask        : Word
  maskSet     : OSet
  restartable : Bool
  nra         : Bool
  deriving DecidableEq, Repr

/-- A window slot of an open region (R66, R72): values and dirty bits per lane. -/
structure Slot where
  vals     : Lanes Word
  dirty    : Lanes Bool
  deriving DecidableEq, Repr

/-- The origin sets of one window slot (R81, R83): one per home sheaf, and the home sheaves whose last write in this
region was a replace. -/
structure SlotSets where
  sets     : Map OSet
  replaced : List Nat
  deriving DecidableEq, Repr

/-- The origin sets of the slots of an issue group's open region, shared by the parts of the group that have it open
(R81, R84): the group's family and the region's map name it. -/
structure RegionSets where
  family : Nat
  map    : RegionMap
  slots  : Map SlotSets
  deriving DecidableEq, Repr

/-- The space an access names (05_memory.md Table 5.1; the codes of R415). -/
inductive Space where
  | generic | shared | spW | spA | spC
  deriving DecidableEq, Repr

/-- One lane's access: lane position, home sheaf, the address named, where it lies (device 0 and a physical
address for local memory), the granule rule of its page, its size and its data; for an access that is recorded (R412)
the logical requester, and whether its slice has performed it. -/
structure Acc where
  lane  : Nat
  sheaf : Nat
  space : Space
  addr  : Nat
  dev   : Nat
  pa    : Nat
  mixed : Bool
  oset  : OSet
  pcls  : Nat
  n     : Nat
  data  : List Byte
  who   : Option Nat
  done  : Bool
  deriving DecidableEq, Repr

/-- Where an operation delivers its registers: the issuing instruction's D, its registers, how an 8- or 16-bit value is
extended, whether it is a commit instruction's result (R47), and the region maps at issue with their lanes. -/
structure Dest where
  d      : Operand
  regs   : Nat
  signed : Bool
  commit : Bool
  maps   : List (RegionMap × List Nat)
  deriving DecidableEq, Repr

/-- A store (ST, STS, STT) with its accesses, waiting in a region's hold or in the core store order (R48, R136). -/
structure StoreEntry where
  crew   : Nat
  grid   : Nat
  group  : Nat
  homes  : List Nat
  flag   : Option Nat
  accs   : List Acc
  set    : OSet
  sem    : Sem
  scope  : Scope
  cache  : CacheP
  clause : Dword
  index  : Nat
  /-- Place in program order: the count of the order at its issue. -/
  born   : Nat
  /-- Place in the core store order. -/
  seq    : Nat
  /-- The die's dirty lines whose write-back this release waits for; none before it has asked for them. -/
  flush  : Option (List Nat)
  /-- Its place among its crew's stores to the register window (R137). -/
  win    : Nat
  /-- The remote lines that a sequentially consistent store, its bytes written, waits to see acknowledged (R144). -/
  out    : Option (List Nat)
  deriving DecidableEq, Repr

/-- An open region of an issue group (R46, R71): its map, the lane positions it is open for, its mapped slots
and its held stores, oldest first. -/
structure Region where
  map   : RegionMap
  lanes : List Nat
  slots : Map Slot
  held  : List StoreEntry
  deriving DecidableEq, Repr

/-- A record of a divergence a thread took part in (R85): its number and the control set held before it. -/
structure DivRec where
  id    : Nat
  saved : OSet
  deriving DecidableEq, Repr

/-- What an H thread resumes with at its restart point (R51). -/
structure Checkpoint where
  clause  : Dword
  index   : Nat
  octx    : OSet
  divs    : List DivRec
  lost    : List Nat
  rmode   : RMode
  rmodeS  : OSet
  ptsel   : Fin 8
  ptselS  : OSet
  fpx     : BitVec 5
  fpxS    : OSet
  ret     : List Dword
  preds   : List Bool
  predS   : List OSet
  region  : Option RegionMap
  handler : Bool
  stamp   : Nat
  deriving DecidableEq, Repr

/-- A thread (R28, R60, R61, R66, R77, R78, R85). -/
structure Thread where
  exited    : Bool
  clause    : Dword
  index     : Nat
  reached   : Nat
  octx      : OSet
  divs      : List DivRec
  /-- The divergences whose record a 17th discarded (R85). -/
  lost      : List Nat
  rmode     : RMode
  rmodeS    : OSet
  ptsel     : Fin 8
  ptselS    : OSet
  fpx       : BitVec 5
  fpxS      : OSet
  cause     : BitVec 9
  tpc       : Word
  faddr     : Dword
  trapS     : OSet
  handler   : Bool
  trapPc    : Dword
  trapIx    : Nat
  /-- Where TRET resumes (R164): the first word of the group that holds the trap PC, and the instruction after it. -/
  trapRetry : Nat
  trapNext  : Dword × Nat
  trapMap   : Option RegionMap
  /-- The depth of its return stack at trap entry (R205). -/
  trapDepth : Nat
  /-- A BARS or BARW the thread stands at whose arrival or decision is made: the barrier and the completed phases its wait
  needs (R199, R43). -/
  barWait   : Option (Nat × Nat)
  /-- The same at its trap PC. -/
  trapBar   : Option (Nat × Nat)
  /-- The children that a JOINC it waits at began to wait for (R201), and those of one at its trap PC. -/
  joinWait  : Option (List Nat)
  trapJoin  : Option (List Nat)
  ret       : List Dword
  clockLat  : Option Word
  gtimeLat  : Option Word
  ck        : Option Checkpoint
  deriving DecidableEq, Repr

/-- A home sheaf (R66, R74 to R76, R415). -/
structure Sheaf where
  role    : Nat
  banks   : Nat
  main    : Map (Lanes Word)
  mainS   : Map OSet
  k       : Map Word
  kS      : Map OSet
  p       : Map (Lanes Bool)
  pS      : Map OSet
  flags   : Map Nat
  threads : List Thread
  hash    : Dword
  freed   : Bool
  /-- k0-k29 and their sets at the latest checkpoint of any issue group with threads of this sheaf (R51). -/
  ckK     : Map Word
  ckKS    : Map OSet
  ckHash  : Dword
  /-- How many of its crew's window stores came before the latest direct write of a main register's lane (32 v + l), and of all
  lanes of a main register together (R137). -/
  mainW   : Map Nat
  mainWS  : Map Nat
  deriving DecidableEq, Repr

/-- What blocks an issue group, or what it awaits (R30, R348). -/
inductive Wait where
  | none
  | waitf (flag thr : Nat)
  /-- Threads wait on barrier b, each for its own count of completed phases (`Thread.barWait`). -/
  | bar (b : Nat)
  /-- Lanes in BARPW whose word has not differed yet: lane position, scratchpad offset, the phase waited out. -/
  | barpw (pend : List (Nat × Nat × Bool))
  | ring (id : Nat) (claim : Bool)
  | msgp
  | copyq
  | joinc (grids : List Nat)
  | migr (va : Dword)
  | landing (die : Nat)
  | launch (grid : Nat)
  /-- A release that waits for the write-back of these lines once it has asked for it. -/
  | fence (flush : Option (List Nat))
  | rrel
  | table
  /-- A LAUNCH that waits for these lines of its descriptor, or for its turn to read it (R200, R311). -/
  | desc (lines : List Nat)
  | flagFull
  | regwin
  | engine
  | trk
  /-- Waits for a fast buffer (R71). -/
  | buffer
  /-- Waits for bytes an engine operation owns (R115, R150). -/
  | owned
  /-- Halted until the fault batch is served: not blocked under R30. -/
  | fault (batch : Nat)
  deriving DecidableEq, Repr

/-- A clause being issued: its address, header and words, the lane positions that issue it and the index of
the next word; and what a LAUNCH that waits has read: its index, the descriptor and the sets of its granules (R200). -/
structure ActiveClause where
  addr   : Dword
  hdr    : Word
  words  : List Word
  lanes  : List Nat
  index  : Nat
  launch : Option (Nat × List Byte × List OSet) := none
  deriving DecidableEq, Repr

/-- An origin-set entry (R395, Table 17.6). -/
structure OEntry where
  prins   : List Word
  retired : Bool
  deriving DecidableEq, Repr

/-- The part of a home sheaf an episode has a copy of (R53): k0-k29, p0-p6 and their sets. -/
structure SavedSheaf where
  k  : Map Word
  kS : Map OSet
  p  : Map (Lanes Bool)
  pS : Map OSet
  deriving DecidableEq, Repr

/-- The fault that opened a fault runahead (R57): its cause, record flags, GPA, the faulting addresses by lane and the
index of the faulting instruction. -/
structure FaultStart where
  cause : Cause
  flags : Nat
  gpa   : Dword
  fa    : List (Nat × Dword)
  index : Nat
  deriving DecidableEq, Repr

/-- A runahead episode (R52 to R57, R17): the copied state it runs on, the lanes still in it, the marks of invalid
data, the instruction count, the fault that opened it, if one did, and the pages a fault runahead collects. While an
instruction of the episode issues (`inUse`) the copy and the group's own state have changed places. -/
structure Episode where
  inUse   : Bool
  lanes   : List Nat
  regions : List Region
  reopen  : List (RegionMap × List Nat)
  fetched : Option (Dword × List Word)
  active  : Option ActiveClause
  wait    : Wait
  wHash   : Nat
  /-- The origin-set table as it stands outside the episode, while an instruction of it issues. -/
  table   : Map OEntry
  sheaves : Map SavedSheaf
  threads : List Thread
  /-- The crew's slot sets outside the episode, while an instruction of it issues, and the episode's own otherwise. -/
  slotS   : List RegionSets
  invSlot : List (Nat × Nat)
  /-- The 256-bit invalid mask of the main registers, as the numbers of its set bits (Table 2.3). -/
  invMain : List Nat
  invK    : List (Nat × Nat)
  invP    : List (Nat × Nat)
  /-- k registers that W2K or CVTB has made invalid for the rest of the episode (R235, R255): home sheaf and number. -/
  heldK   : List (Nat × Nat)
  /-- Special registers a WRSR has made invalid: the thread's lane position and the register's number (R54). -/
  invSpec : List (Nat × Nat)
  count   : Nat
  fault   : Option FaultStart
  pages   : List (Bool × Nat × Bool × Bool)
  deriving DecidableEq, Repr

/-- An issue group, or the part of one that stands at one PC (R29, R32, R71, R85): its members as (lane position, home
sheaf) pairs. Parts of one issue group share the `family` number; they join again where they meet. -/
structure Group where
  role    : Nat
  family  : Nat
  formed  : Bool
  members : List (Nat × Nat)
  regions : List Region
  /-- The map a commit instruction reopens at the next instruction, and the lanes it is for (R47). -/
  reopen  : List (RegionMap × List Nat)
  quad    : Option Nat
  fetched : Option (Dword × List Word)
  active  : Option ActiveClause
  wait    : Wait
  episode : Option Episode
  /-- An episode has been started in the present wait (R313). -/
  ranWait : Bool
  /-- Shadow found in use in this wait (R17). -/
  noShadow : Bool
  /-- Halted by a precise stop, a pre-emption or a kill. -/
  halted  : Bool
  /-- Hash of the register values written since the last backward branch (R33). -/
  wHash   : Nat
  /-- Where a breakpoint has stopped it, until it issues elsewhere (R411): clause address and index. -/
  brk     : Option (Dword × Nat)
  deriving DecidableEq, Repr

/-- A crew barrier (R41): phase, expected, arrived and pending-drop counts, arrived bit per home sheaf, the
threads that have arrived in this phase (sheaf, lane, by BARD), the home sheaves that have ever arrived with the
number of phases completed at that arrival, and that number. -/
structure Barrier where
  phase    : Bool
  expect   : Nat
  arrived  : Nat
  drops    : Nat
  sheaves  : List Nat
  threads  : List (Nat × Nat × Bool)
  last     : Map Nat
  phases   : Nat
  deriving DecidableEq, Repr

/-- States of a ring slot (Table 5.4). -/
inductive SlotSt where
  | free
  | reserved (crew : Nat)
  | done
  | filled
  | claimed
  | returned
  deriving DecidableEq, Repr

/-- A ring slot: its state, the crews recorded as holders, the releases counted, the crews that have claimed it. -/
structure RingSlot where
  st       : SlotSt
  holders  : List Nat
  releases : Nat
  deriving DecidableEq, Repr

/-- A ring (R116 to R118): its entry, counts and cursors; L and the claim cursor are per crew. -/
structure Ring where
  readers : Nat
  first   : Nat
  count   : Nat
  filled0 : Nat
  free    : Nat
  slots   : Map RingSlot
  rsvCur  : Nat
  pubCur  : Nat
  freeCur : Nat
  filled  : Map Nat
  claim   : Map Nat
  deriving DecidableEq, Repr

/-- A typed unit (R113, R114): content, origin set, physical number. -/
structure TUnit where
  mem  : Memory
  set  : OSet
  phys : Nat
  deriving DecidableEq, Repr

/-- Where a crew is (R19, R50, R334, R411). -/
inductive CrewSt where
  | ready
  | resident
  /-- Stopped for eviction, its banks being spilled (R50, R370). -/
  | spilling
  /-- Its image stands in the spill region (R370). -/
  | evicted
  /-- Halted for pre-emption, draining (R334). -/
  | draining
  /-- Its image stands in the context save area (R336). -/
  | saved
  /-- Halted for a precise stop, draining (R411). -/
  | stopping
  /-- Precisely stopped (R411). -/
  | stopped
  | retired
  | killed
  deriving DecidableEq, Repr

/-- A cause an engine operation or a dropped message left for threads (R281, R286): at their next clause start or WAITF
that names the flag, or, with no flag, at their next instruction boundary. -/
structure Posted where
  flag    : Option Nat
  cause   : Cause
  faddr   : Dword
  threads : List (Nat × Nat)
  deriving DecidableEq, Repr

/-- A crew (R19, R26, R41, R103, R112, R114, R116). -/
structure Crew where
  grid     : Nat
  index    : Nat
  core     : Nat
  st       : CrewSt
  requeued : Bool
  order    : Nat
  scratch  : Memory
  scratchS : Map OSet
  barriers : Map Barrier
  rings    : Map Ring
  unitsW   : Map TUnit
  unitsA   : Map TUnit
  unitsC   : Map TUnit
  ptab     : Map Nat
  sheaves  : List Sheaf
  groups   : Map Group
  /-- The origin sets of the slots of its issue groups' open regions (R81). -/
  slotS    : List RegionSets
  /-- Rotation pointer of each role group, and whether its last choice followed a switch point (R34). -/
  rotate   : Map (Nat × Bool)
  /-- Spin detector (R33): per (role, address), iterations in a row and the hash of the last; demoted entries. -/
  spin     : List (Nat × Nat × Nat × Nat)
  demoted  : List (Nat × Nat)
  children : List Nat
  posted   : List Posted
  /-- It has issued an instruction (Table 14.7). -/
  issued   : Bool
  /-- A precise stop holds it until a resume command (R411). -/
  stop     : Bool
  /-- It holds a landing slot (R59). -/
  landed   : Bool
  /-- Where its save record stands, and its length in bytes (R337, R370). -/
  saveAt   : Option (Nat × Nat)
  /-- The W units that stand in its save record (R336). -/
  savedW   : List Nat
  /-- How many stores to the register window its threads have issued (R137). -/
  winIss   : Nat
  deriving DecidableEq, Repr

/-- An extent of a grid (R329): pages of VA from base, their PA, rights, classes and stage-2 attributes. -/
structure Extent where
  va     : Nat
  pages  : Nat
  pa     : Nat
  rights : Nat
  cls    : Nat
  /-- The page class of each of its pages. -/
  pcls   : List Nat
  oset   : OSet
  mixed  : Bool
  dev    : Nat
  deriving DecidableEq, Repr

/-- Status of a grid or command (Table 14.7). -/
inductive Status where
  | complete | failed | rejected | killed
  deriving DecidableEq, Repr

/-- A launch descriptor as read (Table 2.2). -/
structure Desc where
  entry   : Dword
  params  : Dword
  gx : Nat
  gy : Nat
  gz : Nat
  cx : Nat
  cy : Nat
  cz : Nat
  flags   : Nat
  scratch : Nat
  roles   : List (Nat × Nat)
  rolesOk : Bool
  ringTab : Dword
  handler : Dword
  ranges  : Dword
  nRanges : Nat
  indirect : Dword
  record  : Dword
  prio    : Nat
  resvOk  : Bool
  /-- Its 128 bytes. -/
  raw     : List Byte
  deriving DecidableEq, Repr

/-- A grid (R21 to R25, R325, R331, R332). -/
structure Grid where
  vf       : Nat
  queue    : Nat
  proc     : Nat
  depth    : Nat
  desc     : Desc
  parent   : Option Nat
  hint     : Nat
  cmd      : Option Nat
  seq      : Nat
  octx     : OSet
  accepted : Nat
  built    : Bool
  extents  : List Extent
  pinned   : List Nat
  params   : List Word
  paramS   : List OSet
  ringE    : Map Ring
  crews    : Nat
  next     : Nat
  retired  : Nat
  children : List Nat
  indirect : Nat
  start    : Option Dword
  fin      : Dword
  crewsRun : Nat
  /-- The crews still to be dispatched that a debug command has stopped, by index (R410). -/
  stops    : List Nat
  faults   : Nat
  first    : Option Cause
  stopped  : Option Status
  done     : Bool
  hash     : Dword
  /-- The dies where crews of it were stopped, whose dirty bytes go back before it completes; and the lines on their way: die
  and line (R331, R154). -/
  dies     : List Nat
  due      : List (Nat × Nat)
  deriving DecidableEq, Repr

/-- Kinds of operation in flight. -/
inductive OpKind where
  | load (dst : Dest)
  | loadK (d : Nat) (n : Nat)
  | atom (op : RmwOp) (dst : Dest) (vals cmps : List Dword)
  | red (op : RmwOp) (vals : List Dword)
  | barpa (dst : Dest)
  | cmaint (act : CmAction) (remote : Bool)
  /-- Descriptor; index list; form 0 CPY, 1 CPYG, 2 CPYS, 3 CPYQ; mode and window; progress; whether every write has
  been made; the crew, ring and unit reserved. -/
  | copy (desc : List Byte) (idx : List Nat) (form : Nat) (mode : RMode) (window : Nat) (progress : Nat) (sent : Bool)
      (ring : Option (Nat × Nat × Nat))
  | xzero (tile : Nat)
  | xreq (tile aq width : Nat) (quarters : List Nat) (mode : RMode) (window : Nat)
  | recv (buf cap mtch : Nat)
  | send (dest tag : Nat) (payload : List Byte)
  deriving DecidableEq, Repr

/-- An operation in flight (R37, R258): who issued it, the flag it holds in which home sheaves, its accesses
and result set, the L1 lines it waits for, and its replay requester. -/
structure Op where
  kind   : OpKind
  crew   : Nat
  grid   : Nat
  group  : Nat
  lanes  : List (Nat × Nat)
  homes  : List Nat
  flag   : Option Nat
  accs   : List Acc
  set    : OSet
  sem    : Sem
  scope  : Scope
  cache  : CacheP
  clause : Dword
  index  : Nat
  need   : List Nat
  missed : Bool
  got    : List (Nat × Dword)
  seq    : Nat
  /-- Suspended on this fault batch (R281). -/
  batch  : Option Nat
  flush  : Option (List Nat)
  /-- The flag its instruction named, counted or not (R281). -/
  named  : Option Nat
  /-- A copy's accesses of its present step that their slices have accepted, by address, a write or not; and how many of the step's
  writes are made (R310, R412). -/
  passed : List (Nat × Bool) := []
  wrote  : Nat := 0
  deriving DecidableEq, Repr

/-- A fault record waiting to be written, or part of a batch (Table 15.4). -/
structure FRec where
  kind   : Nat
  flags  : Nat
  cause  : Nat
  vf     : Nat
  count  : Nat
  batch  : Nat
  grid   : Nat
  crew   : Nat
  sheaf  : Nat
  core   : Nat
  va     : Dword
  gpa    : Dword
  clause : Dword
  index  : Nat
  pages  : List Dword
  deriving DecidableEq, Repr

/-- Marks of an L1 line (Table 5.6). -/
inductive L1Mark where
  | none | evictFirst | keep
  deriving DecidableEq, Repr

/-- A 64 B line of an L1 (R121, R122): valid bytes by offset, a dirty bit per byte, class and page class of the
access that last wrote it, its mark and recency, the set of its granule. -/
structure L1Line where
  bytes : Map Byte
  dirty : BitVec 64
  h     : Bool
  pcls  : Nat
  vf    : Nat
  mark  : L1Mark
  used  : Nat
  set   : OSet
  noL2  : Bool
  /-- The store that last wrote it (R399). -/
  last  : FRec
  deriving DecidableEq, Repr

/-- What a request to an L2 slice is for: a fill of the core's L1, a prefetch into the slice alone, the line of a
read-modify-write performed there, a recorded access (R412) of an operation or of a store of the core's order, by its place
among that one's accesses; an access of a copy by its address, with the requester it is recorded for; or a peer's access. -/
inductive ReqFor where
  | l1
  | l2
  | rmw (op : Nat)
  | opAcc (op i : Nat)
  | storeAcc (seq i : Nat)
  | copy (op va : Nat) (write : Bool) (who : Option Nat)
  | peer (f : Frame)
  deriving DecidableEq, Repr

/-- A request to an L2 slice (R126, R310) for a 64 B line. -/
structure L2Req where
  core  : Nat
  line  : Nat
  vf    : Nat
  h     : Bool
  pcls  : Nat
  noL2  : Bool
  seq   : Nat
  /-- It missed in the slice. -/
  miss  : Bool
  /-- Its data is in the slice. -/
  back  : Bool
  /-- The slice has returned its data: its request entry is free (R310). -/
  served : Bool
  why   : ReqFor
  deriving DecidableEq, Repr

/-- A 256 B line in a way of a slice (R123): valid bytes by offset, a dirty bit per 64 B sector. -/
structure L2Line where
  way    : Nat
  line   : Nat
  bytes  : Map Byte
  dirty  : BitVec 4
  h      : Bool
  pcls   : Nat
  used   : Nat
  filling : Bool
  deriving DecidableEq, Repr

/-- An L2 slice (R123, R126): held requests, request entries, lines by set. -/
structure Slice where
  held    : List L2Req
  entries : List L2Req
  lines   : Map (List L2Line)
  /-- Misses whose data waits at the channel or has returned: line, class, whether served by HBM. -/
  misses  : List (Nat × Bool × Bool)
  deriving DecidableEq, Repr

/-- A queued request of an HBM channel (R371). -/
structure HbmReq where
  slice : Nat
  line  : Nat
  vf    : Nat
  h     : Bool
  seq   : Nat
  write : Bool
  deriving DecidableEq, Repr

/-- An HBM channel (R127, R371): queue, tokens per VF of class G and H. -/
structure Channel where
  queue : List HbmReq
  gTok  : Map Nat
  hTok  : Map Nat
  deriving DecidableEq, Repr

/-- Dirty bytes on their way from an L1 to their slice or peer (R121, R124). -/
structure WriteBack where
  die   : Nat
  line  : Nat
  bytes : Map Byte
  h     : Bool
  pcls  : Nat
  vf    : Nat
  set   : OSet
  last  : FRec
  /-- Its store asked the L2 not to allocate. -/
  noL2  : Bool
  /-- On the fabric, awaiting the peer's acknowledgement. -/
  sent  : Bool
  deriving DecidableEq, Repr

/-- A combined translation (R346). -/
structure TlbEntry where
  vf    : Nat
  proc  : Nat
  page  : Nat
  gpa   : Nat
  pa    : Nat
  w1    : Bool
  w2    : Bool
  pcls  : Nat
  oset  : OSet
  mixed : Bool
  dev   : Nat
  /-- Whether a demand access, and whether a write, has gone through it since it was filled (R345). -/
  used  : Bool
  wrote : Bool
  /-- Where the two leaves stand in memory. -/
  leaf1 : Nat
  leaf2 : Nat
  /-- The guest-physical addresses of the stage-1 entries behind it. -/
  gpas  : List Nat
  deriving DecidableEq, Repr

/-- An entry in BD's walk caches (R346): its stage, whose it is (VF; process at stage 1), the addresses it covers, the
guest-physical address of a stage-1 entry, its place in memory, its value. -/
structure WalkEntry where
  stage2 : Bool
  vf     : Nat
  proc   : Nat
  base   : Nat
  size   : Nat
  gpa    : Nat
  at_    : Nat
  val    : Nat
  deriving DecidableEq, Repr

/-- A message (R284 to R286). -/
structure Msg where
  grid    : Nat
  srcCore : Nat
  dstCore : Nat
  tag     : Nat
  payload : List Byte
  set     : OSet
  op      : Nat
  deriving DecidableEq, Repr

/-- A core's own state (R13, R121, R136, R274, R286): store order, L1, line fills awaited, TLB, overflow
queue, cycle count. -/
structure Core where
  storeQ  : List StoreEntry
  l1      : Map L1Line
  fills   : List Nat
  /-- The CACHE policy of the access that started a fill (Table 5.6). -/
  fillP   : Map Nat
  /-- Remote lines in flight whose data an acquire or a write has outdated: they are asked for anew when they arrive. -/
  stale   : List Nat
  tlb     : List TlbEntry
  msgIn   : List Msg
  msgQ    : List Msg
  recvs   : List Nat
  clock   : Dword
  buffers : Map (Nat × Nat)
  shadows : Map (Nat × Nat)
  /-- What has issued since time last passed (R409): crew, issue group, clause address and index. -/
  latest  : Option (Nat × Nat × Dword × Nat)
  deriving DecidableEq, Repr

/-- A matrix request (R294). -/
structure XReq where
  crew  : Nat
  core  : Nat
  h     : Bool
  qa    : Nat
  bslot : Nat
  bphys : Nat
  tile  : Nat
  rows  : Nat
  wa    : Nat
  wb    : Nat
  zero  : Bool
  set   : OSet
  homes : List Nat
  lanes : List (Nat × Nat)
  flag  : Nat
  group : Nat
  seq   : Nat
  /-- Whether its pass met an uncorrectable error, and the islands that hold the bad data (12_isa_matrix.md R309). -/
  bad     : Bool
  badAt   : List Nat
  srcSets : List OSet
  deriving DecidableEq, Repr

/-- A cluster's matrix engine (R291, R296, R297): table, running pass, the pass chosen next, passes ended with
the rows they write, the B slot last loaded. -/
structure Engine where
  table   : List XReq
  running : List XReq
  chosen  : List XReq
  ended   : List (List (XReq × List Word))
  loaded  : Option Nat
  deriving DecidableEq, Repr

/-- A trace unit (R408, R410). -/
structure Trace where
  holder  : Nat
  base    : Dword
  ctl     : Word
  core    : Half
  head    : Word
  tail    : Word
  dropped : Nat
  frozen  : Bool
  deriving DecidableEq, Repr

/-- A performance counter (R401 to R403). -/
structure Counter where
  sel    : Word
  count  : BitVec 48
  ovf    : Bool
  frozen : Bool
  deriving DecidableEq, Repr

/-- A counter bank (R401, R405): kind, physical unit, harvest bank or not, holder VF (256 is the PF), counters. -/
structure Bank where
  kind    : Nat
  unit    : Nat
  harvest : Bool
  holder  : Nat
  leased  : Bool
  ctrs    : Map Counter
  /-- The counts frozen at a revocation, by the VF whose lease it was, each until that VF releases it (R406). -/
  frozenC : Map (Map Counter)
  deriving DecidableEq, Repr

/-- Queue states (Table 14.3). -/
inductive QState where
  | disabled | running | killing | killed
  deriving DecidableEq, Repr

/-- Where a command of a queue is (R319, R321). -/
inductive CmdSt where
  | pending | begun | finished
  deriving DecidableEq, Repr

/-- A command read from an available ring (R316 to R321). -/
structure Cmd where
  head   : Nat
  opcode : Nat
  overlap : Bool
  event  : Nat
  value  : Dword
  addr   : Dword
  addr2  : Dword
  len    : Dword
  size   : Nat
  desc   : Option Desc
  /-- The status buffer's host address and length, when the chain has one. -/
  status : Option (Nat × Nat)
  st     : CmdSt
  result : Status
  first  : Option Cause
  grid   : Option Nat
  time   : Dword
  /-- Its place in the order in which commands began. -/
  born   : Nat
  /-- Blocks of a COPY performed, whether a peer has been asked for the next one, and its bytes once the peer has sent them. -/
  moved  : Nat := 0
  asked  : Bool := false
  got    : Option (List Byte) := none
  deriving DecidableEq, Repr

/-- A queue pair (Tables 14.1 to 14.3): registers, ring positions, commands in order, kill in progress. -/
structure Queue where
  ctl     : Word
  st      : QState
  cfgErr  : Bool
  desc    : Dword
  avail   : Dword
  used    : Dword
  bell    : Bool
  availIx : Nat
  usedIx  : Nat
  cmds    : List (Nat × Cmd)
  nextCmd : Nat
  /-- LAUNCH commands accepted since it was last enabled, the sequence of its grids (R413, R432). -/
  launched : Nat
  /-- When a crew of it was last dispatched (R326 step 4). -/
  turn    : Nat
  deriving DecidableEq, Repr

/-- A fault queue (Table 15.3, R351): registers and the parts that wait, oldest first. -/
structure FaultQ where
  base    : Dword
  ctl     : Word
  head    : Word
  tail    : Word
  written : Nat
  waiting : List (List FRec)
  deriving DecidableEq, Repr

/-- A fault batch (R349, R350, R353): what waits for it, and which parts are unanswered. -/
structure Batch where
  vf    : Nat
  grid  : Nat
  crew  : Nat
  group : Option Nat
  op    : Option Nat
  part1 : Bool
  part2 : Bool
  deriving DecidableEq, Repr

/-- An invalidation in progress (R347): the translations it covers and the operations that used one. -/
structure Tlbi where
  ctl   : Word
  addr  : Dword
  n     : Word
  busy  : Bool
  err   : Bool
  /-- What the command in progress covers: its scope, its process or VF, its first page and its pages. -/
  scope : Nat
  who   : Nat
  first : Nat
  pages : Nat
  /-- Operations in flight, and stores by their place in program order and in the core order, that used a translation it
  covers. -/
  ops   : List Nat
  born  : List Nat
  seqs  : List Nat
  /-- Commands of queues with a request at a peer, by VF, queue and number. -/
  cmds  : List (Nat × Nat × Nat) := []
  /-- Lines on their way to an L1 as it started, by core. -/
  fills : List (Nat × Nat) := []
  /-- The lines whose write-back it waits for, by die, once it has asked for it. -/
  flush : Option (List (Nat × Nat))
  deriving DecidableEq, Repr

/-- Replay registers and streams of a VF (Table 18.7, R413, R414). -/
structure Replay where
  mode    : Nat
  stat    : BitVec 3
  base    : Dword
  size    : Word
  rbase   : Map Dword
  rlen    : Map Word
  /-- Per slice index: offset of the next chunk, and the open chunk (requester, count). -/
  streams : Map (Nat × Nat × Nat)
  deriving DecidableEq, Repr

/-- Trial registers of a VF (Table 18.8). -/
structure Trial where
  lo    : Dword
  hi    : Dword
  ctl   : Word
  pts   : Dword
  busy  : Bool
  err   : Bool
  /-- When the trial in progress ends. -/
  due   : Dword
  deriving DecidableEq, Repr

/-- A partition's configuration (Table 16.7). -/
structure PartCfg where
  s       : Nat
  gWays   : Nat
  quotas  : List Nat
  harvest : Bool
  lend    : Bool
  floor   : Nat
  clusters : Dword
  donors  : Dword
  spill   : Dword
  spillN  : Nat
  gShare  : Nat
  hCap    : Nat
  gDepth  : Nat
  hDepth  : Nat
  dieW    : Nat
  fabW    : Nat
  quota   : Nat
  slice   : Nat
  wdog    : Nat
  guar    : Bool
  admitted   : List Byte
  slices  : List Nat
  deriving DecidableEq, Repr

/-- A VF and its partition (Tables 14.1, 15.3, 16.5, 18.2, 18.5, 18.7, 18.8). -/
structure Vf where
  state    : Nat
  changing : Bool
  /-- It has been demoted and not promoted since (R376). -/
  demoted  : Bool
  cfg      : PartCfg
  stamp    : Nat
  queues   : Map Queue
  events   : Map Dword
  s1root   : Map Dword
  tlbi     : Tlbi
  fq       : FaultQ
  batchId  : Word
  /-- Per-process deficit counters of dispatch (R326 step 3). -/
  deficit  : Map Nat
  bsel     : Word
  latch    : Option (Nat × Word × Word)
  lsreq    : Word
  trialHeld : Bool
  /-- For the PF: the VF whose trial the hypervisor has taken (R406). -/
  trialFor  : Nat
  /-- A function-level reset waits for the kills of its queues (19_platform.md R420). -/
  flr       : Bool
  marken   : Dword
  markc    : Map (BitVec 48)
  dbga     : Map Dword
  dbgctl   : Word
  dbggrid  : Dword
  dbgdump  : Dword
  dbgdlen  : Word
  dbgstat  : Word
  trace    : Option Nat
  replay   : Replay
  trial    : Trial
  s2root   : Dword
  gframe   : Word
  bframe   : Word
  csa      : Dword
  csalen   : Word
  swtrl    : Dword
  swtrlN   : Word
  swapKey  : List Byte
  swapCtr  : Nat
  hand     : Nat
  masked   : List Nat
  pendMsi  : List Nat
  principal : Option Word
  placeCore : Map Nat
  placeClu : Map Nat
  regs     : Map Dword
  deriving DecidableEq, Repr

/-- A bound principal (R393). -/
structure Prin where
  id   : Word
  vf   : Nat
  rsa  : List Byte
  slh  : List Byte
  /-- The record as bound. -/
  raw  : List Byte
  deriving DecidableEq, Repr

/-- A release policy in a gate's slot (R396, Tables 17.7, 17.8). -/
structure Policy where
  members : List Word
  kind    : Nat
  dest    : Word
  expiry  : Dword
  budget  : Nat
  nonce   : Dword
  deriving DecidableEq, Repr

/-- Chiplet states (Table 17.2). -/
inductive ChSt where
  | dark | identified | attested | keyed | live | quarantined
  deriving DecidableEq, Repr

/-- A chiplet (Table 17.5, R380, R382, R384). -/
structure Chiplet where
  st     : ChSt
  why    : Nat
  tries  : Nat
  /-- Its CHALLENGE_AUTH has been accepted (R382 step 2). -/
  challenged : Bool
  /-- The key exchange in progress (R382 step 3): BD's secrets, the chiplet's share and its response to 0x0002. -/
  exch   : Option (List Byte × List Byte × List Byte)
  digest : List Byte
  rsaKey : List Byte
  slhKey : List Byte
  /-- Attempts that start of themselves after a failed one (R384). -/
  auto   : Nat
  deriving DecidableEq, Repr

/-- A link direction between two chiplets (R385 to R388): its ends, key generations held, group counters,
phase, the partial group, the replay buffer and the rollover in progress. -/
structure Link where
  src      : Nat
  dst      : Nat
  prk      : List Byte
  gen      : Nat
  txKey    : List Byte
  txCtr    : Nat
  rxGen    : Nat
  rxKey    : List Byte
  /-- The receiver's next key and its generation, once installed. -/
  rxNext   : Option (Nat × List Byte)
  partialG : List (List Byte)
  /-- The last 64 groups sent. -/
  replay   : List LinkGroup
  /-- Phases and counters of the groups that have failed once and are asked for again. -/
  failed   : List (Bool × Dword)
  /-- A group of the next key's phase has arrived (R387 step 4). -/
  newSeen  : Bool
  rolling  : Bool
  acked    : Bool
  ackTries : Nat
  recvd    : List (List Byte)
  deriving DecidableEq, Repr

/-- The host's SPDM conversation with BD (R383, R391): how far it has come, its messages up to NEGOTIATE_ALGORITHMS and of
certificates, the two transcripts that signatures cover, and BD's last reply. -/
structure Spdm where
  version   : Bool
  caps      : Bool
  algs      : Bool
  vca       : List Byte
  certs     : List Byte
  challengeT : List Byte
  measT     : List Byte
  reply     : List Byte
  deriving DecidableEq, Repr

/-- A request on the fabric awaiting its reply (R128): peer, operation, access. -/
structure Tracker where
  device : Nat
  /-- The fabric port its request left by. -/
  port   : Nat
  op     : Option Nat
  line   : Option (Nat × Nat)
  acc    : Option Acc
  /-- The command it is of: VF, queue and number (14_scheduling.md R317). -/
  cmd    : Option (Nat × Nat × Nat) := none
  /-- The remote line that it is in flight for as a write, and the acknowledgements still to come (R128). -/
  wline  : Option Nat := none
  left   : Nat := 1
  vf     : Nat := 0
  deriving DecidableEq, Repr

/-- A page move in progress (R362, R400), and when it began among the copy engine's COPYs (R317). -/
structure PMove where
  src  : Dword
  dst  : Dword
  ctl  : Word
  born : Nat := 0
  deriving DecidableEq, Repr

/-- A physical frame's entry in the frame table (R357). -/
structure FrameInfo where
  owner    : Nat
  pin      : Bool
  pins     : Nat
  accessed : Bool
  deriving DecidableEq, Repr

/-- The unit states of the capability table (Table 16.4). -/
structure UnitSt where
  ret : Bool
  fen : Bool
  vf  : Nat
  lend : Bool
  deriving DecidableEq, Repr

/-- Partition command registers and the command in progress (Tables 16.6, 16.8). -/
structure PCmd where
  desc   : Dword
  go     : Bool
  status : Nat
  vf     : Nat
  op     : Nat
  /-- The status the command in progress ends with, and the configuration it installs. -/
  fin    : Nat
  next   : Option PartCfg
  /-- The clusters that a resize takes away. -/
  removed : List Nat
  /-- The PF has been reset meanwhile: the command goes on and its register reads as at reset (assumption 22). -/
  quiet   : Bool
  deriving DecidableEq, Repr

/-- What a crew takes of a core, its W slots being the cluster's (R19). -/
structure Res where
  banks   : Nat
  slots   : Nat
  scratch : Nat
  w : Nat
  a : Nat
  c : Nat
  deriving DecidableEq, Repr

/-- What Mulberry has reserved on a core for the next crew of a grid while H crews leave it (R327). -/
structure Booking where
  core : Nat
  need : Res
  deriving DecidableEq, Repr

/-- A voltage/frequency island (Table 19.5). -/
structure Island where
  cur  : Nat
  freq : Nat
  deriving DecidableEq, Repr

/-- A frame of this device (R421): port, peer device and VF, body, length/type value, MAC address; its class and its payload in units
of 256 bytes (R372). -/
structure Sent where
  port   : Nat
  device : Nat
  vf     : Nat
  body   : FrameBody
  ftype  : Half
  mac    : BitVec 48
  h      : Bool
  units  : Nat
  deriving DecidableEq, Repr

/-- A fabric port (Table 19.3). -/
structure Port where
  retx : Word
  fecu : Half
  fen  : Bool
  /-- Its chiplet is out of service (R375). -/
  ret  : Bool
  up   : Bool
  /-- The frames that wait to leave, oldest first, and its deficit round robin: the partition served, and the units that each has
  left (16_partitions.md R372). -/
  queue   : List Sent
  turn    : Nat
  deficit : Map Nat
  deriving DecidableEq, Repr

/-- An MSI-X message sent (R419): function (0 the PF) and vector. -/
abbrev Msi := Nat × Nat

/-- Where an array holds data with an uncorrectable error (19_platform.md R422, R423; 12_isa_matrix.md R309): a 256 B line
of HBM or of the L2, a line of a core's L1, a typed unit, 64 bytes of the scratchpad or a main register of a crew. -/
inductive Flaw where
  | hbm (line : Nat)
  | l2 (line : Nat)
  | unit (crew : Nat) (sp : TSpace) (unit : Nat)
  | l1 (core key : Nat)
  | shared (crew line : Nat)
  | main (crew home reg : Nat)
  deriving DecidableEq, Repr

/-- The error counter of a unit (19_platform.md R422): its corrections, and the times of the latest ones. -/
structure ErrCtr where
  count : Nat
  times : List Nat
  deriving DecidableEq, Repr

/-- What the schedule names next: an event, that an issue group issues its next instruction group, or that time passes. -/
inductive AgendaItem where
  | event (i : Instr)
  | issue (crew group : Nat)
  /-- Time passes. -/
  | time
  /-- The hypervisor fills or clears an entry of a partition's place tables: VF, logical cluster, the cluster (R131). -/
  | place (vf id : Nat) (cluster : Option Nat)
  /-- A fabric port sends the frame whose turn it is (16_partitions.md R372). -/
  | depart (port : Nat)
  /-- The transport of a port retransmits a frame, or meets an uncorrectable FEC codeword (Table 19.3). -/
  | retransmit (port : Nat)
  | fecError (port : Nat)
  /-- An error in an array of a unit is corrected where the unit reads it (19_platform.md R422). -/
  | corrected (unit : Nat)
  /-- Data in an array takes an error that cannot be corrected (19_platform.md R422). -/
  | spoil (f : Flaw)
  /-- The kills of a VF's function-level reset are over (19_platform.md R420). -/
  | flrEnd (vf : Nat)
  /-- BD enables the data of a Keyed chiplet (17_trust.md R382 step 4). -/
  | enable (chiplet : Nat)
  /-- The sender of a link direction has a further flit of 256 B for its group (17_trust.md R385). -/
  | flit (link : Nat) (bytes : List Byte)
  deriving DecidableEq, Repr

/-- The instruction group being issued: crew, issue group, the (lane, home sheaf) pairs of the threads that
issue, clause address, header, index of the first word of the group, index of its instruction word and the
number of words of the group. -/
structure Cur where
  crew   : Nat
  group  : Nat
  lanes  : List (Nat × Nat)
  addr   : Dword
  hdr    : Word
  first  : Nat
  index  : Nat
  len    : Nat
  deriving DecidableEq, Repr

/-- Data with an uncorrectable error that has been found, whose island is still to be fenced (R423): a 256 B line that an operation
consumed, an array of an island, or a line that a write-back of an island found, with no consumer; or a chiplet all of whose islands are
fenced, which is still to be Quarantined (17_trust.md R384). -/
inductive Found where
  | used (line : Nat)
  | array (island : Nat)
  | lost (island line : Nat)
  | whole (chiplet : Nat)
  deriving DecidableEq, Repr

/-- The machine. -/
structure State where
  /-- What happens next, in order (plain data that says which agent moves); when it is empty the machine's
  own default choice runs. -/
  agenda   : List AgendaItem
  /-- The model's own counter of free values (assumption 3). -/
  free     : Nat
  /-- A counter that orders what the spec calls earlier and later. -/
  seq      : Nat
  gtime    : Dword
  cur      : Option Cur
  grids    : Map Grid
  crews    : Map Crew
  nextGrid : Nat
  nextCrew : Nat
  ops      : Map Op
  nextOp   : Nat
  cores    : Map Core
  ctlb     : Map (List TlbEntry)
  engines  : Map Engine
  slices   : Map Slice
  channels : Map Channel
  wbufs    : List WriteBack
  hbm      : Memory
  lineS    : Map OSet
  frames   : Map FrameInfo
  host     : Memory
  store    : Memory
  vfs      : Map Vf
  bdCopy   : List (Nat × Nat × Nat)
  batches  : Map Batch
  hfq      : FaultQ
  htlbi    : Tlbi
  fstat    : Bool
  rcbuf    : Dword
  rcstat   : Word
  rcWanted : Nat
  rcVict   : List Nat
  pmove    : Option PMove
  pmstat   : BitVec 2
  pcmd     : PCmd
  poolmask : Dword
  poolTurn : Nat
  capGen   : Word
  nextStamp : Nat
  clusters : Map UnitSt
  sliceU   : Map UnitSt
  channelU : Map UnitSt
  routerU  : Map UnitSt
  chiplets : Map Chiplet
  /-- The links between chiplets, by number: the ends of each (assumption 19). -/
  topology : Map (Nat × Nat)
  links    : Map Link
  manifest : Map (List (List Byte))
  bdDer    : List Byte
  bdDown   : Bool
  pfReady  : Bool
  osets    : Map OEntry
  prins    : List Prin
  pbaddr   : Dword
  pbErr    : Bool
  osreq    : List Word
  osErr    : Bool
  osIndex  : Nat
  piaddr   : Dword
  piErr    : Bool
  pirErr   : Bool
  gates    : Map (Map Policy)
  eprin    : Map Word
  chErr    : Bool
  chCmd    : Word
  doe      : Spdm
  trackers : Map Tracker
  nextTrk  : Nat
  sent     : List Sent
  ports    : Map Port
  ftype    : Half
  fdev     : Map (BitVec 48)
  islands  : Map Island
  banks    : List Bank
  traces   : Map Trace
  pf       : Vf
  msix     : List Msi
  /-- What the last read of a register returned. -/
  readOut  : Dword
  firmware : List Byte
  errCtr   : Map ErrCtr
  /-- Peers' requests to invalidate their lines, whose dirty bytes are on their way: device, VF and tracker (R347). -/
  peerFlush : List (Nat × Nat × Nat)
  /-- Where data holds an uncorrectable error that nothing has found yet (R423). -/
  flaws    : List Flaw
  found    : List Found
  /-- Reservations for grids whose next crew waits for a core (R327). -/
  booked   : Map Booking
  /-- BD's walk caches (R346). -/
  walks    : List WalkEntry
  /-- The c-cycles that have passed on a core nothing has happened on yet (R77). -/
  cycles   : Dword
  deriving DecidableEq, Repr

/-- Why the machine stops. -/
inductive Fault where
  /-- A page-table walk of a memory instruction, a fetch or an engine reads a table entry at a physical address
  at or above 12,582,912 frames of 64 KiB, which the spec says does not exist (15_translation.md R358). Safe:
  the hardware may go on. -/
  | noSuchMemory
  deriving DecidableEq, Repr

/-- Why the machine gives no next state. -/
inductive Refusal where
  /-- An instruction without a meaning in this model. Safe. -/
  | notModelled (mnemonic : String)
  /-- An instruction word is executed though no issue group issues it (no `State.cur`, or one that names no
  resident issue group): no step does so. Safe. -/
  | noIssuer
  deriving DecidableEq, Repr

/-! Values at reset. Where the spec gives no reset value the field holds 0 (assumption 1). -/

/-- A queue at reset (Tables 14.2, 14.3). -/
def Queue.init : Queue :=
  { ctl := 0, st := .disabled, cfgErr := false, desc := 0, avail := 0, used := 0, bell := false, availIx := 0,
    usedIx := 0, cmds := [], nextCmd := 0, launched := 0, turn := 0 }

/-- A fault queue at reset (Table 15.3). -/
def FaultQ.init : FaultQ := { base := 0, ctl := 0, head := 0, tail := 0, written := 0, waiting := [] }

/-- Invalidation registers at reset (Table 15.5). -/
def Tlbi.init : Tlbi :=
  { ctl := 0, addr := 0, n := 0, busy := false, err := false, scope := 0, who := 0, first := 0, pages := 0, ops := [],
    born := [], seqs := [], flush := none }

/-- Replay registers at reset (Table 18.7). -/
def Replay.init : Replay :=
  { mode := 0, stat := 0, base := 0, size := 0, rbase := [], rlen := [], streams := [] }

/-- Trial registers at reset (Table 18.8). -/
def Trial.init : Trial := { lo := 0, hi := 0, ctl := 0, pts := 0, busy := false, err := false, due := 0 }

/-- No partition: the configuration that a VF in state 0 holds. -/
def PartCfg.init : PartCfg :=
  { s := 0, gWays := 12, quotas := [6, 3, 3], harvest := false, lend := false, floor := 0, clusters := 0,
    donors := 0, spill := 0, spillN := 0, gShare := 0, hCap := 0, gDepth := 0, hDepth := 0, dieW := 0, fabW := 0,
    quota := 0, slice := 0, wdog := 24, guar := false, admitted := [], slices := [] }

/-- A VF at reset: no partition, queues disabled, registers as their maps give. -/
def Vf.init : Vf :=
  { state := 0, changing := false, demoted := false, cfg := PartCfg.init, stamp := 0, queues := [], events := [], s1root := [],
    tlbi := Tlbi.init, fq := FaultQ.init, batchId := 0, deficit := [], bsel := 0, latch := none,
    lsreq := 0, trialHeld := false, trialFor := 0, flr := false, marken := 0, markc := [], dbga := [], dbgctl := 0, dbggrid := 0, dbgdump := 0,
    dbgdlen := 0, dbgstat := 0, trace := none, replay := Replay.init, trial := Trial.init, s2root := 0,
    gframe := 0, bframe := 0, csa := 0, csalen := 0, swtrl := 0, swtrlN := 0,
    swapKey := [], swapCtr := 0, hand := 0, masked := List.range 65, pendMsi := [], principal := none, placeCore := [],
    placeClu := [], regs := [] }

/-- A core at reset. -/
def Core.init : Core :=
  { storeQ := [], l1 := [], fills := [], fillP := [], stale := [], tlb := [], msgIn := [], msgQ := [], recvs := [], clock := 0,
    buffers := [], shadows := [], latest := none }

/-- A matrix engine at reset. -/
def Engine.init : Engine := { table := [], running := [], chosen := [], ended := [], loaded := none }

/-- An L2 slice at reset: every line invalid. -/
def Slice.init : Slice := { held := [], entries := [], lines := [], misses := [] }

/-- An HBM channel at reset. -/
def Channel.init : Channel := { queue := [], gTok := [], hTok := [] }

/-- An unowned unit in service (Table 16.4). -/
def UnitSt.init : UnitSt := { ret := false, fen := false, vf := 0, lend := false }

/-- A free frame (R357). -/
def FrameInfo.init : FrameInfo := { owner := 0, pin := false, pins := 0, accessed := false }

/-- An island at reset: 76, that is 1.9 GHz (Table 19.5). -/
def Island.init : Island := { cur := 76, freq := 76 }

/-- A fabric port at reset (Table 19.3). -/
def Port.init : Port := { retx := 0, fecu := 0, fen := false, ret := false, up := false, queue := [], turn := 0, deficit := [] }

/-- A chiplet after a package reset: Dark (Table 17.2). -/
def Chiplet.init : Chiplet :=
  { st := .dark, why := 0, tries := 0, challenged := false, exch := none, digest := [], rsaKey := [], slhKey := [], auto := 0 }

/-- The DOE conversation at reset (R391). -/
def Spdm.init : Spdm :=
  { version := false, caps := false, algs := false, vca := [], certs := [], challengeT := [], measT := [], reply := [] }

/-- A trace unit at reset (R410). -/
def Trace.init : Trace :=
  { holder := 0, base := 0, ctl := 0, core := 0, head := 0, tail := 0, dropped := 0, frozen := false }

/-- Partition command registers at reset (Table 16.8). -/
def PCmd.init : PCmd := { desc := 0, go := false, status := 0, vf := 0, op := 0, fin := 0, next := none, removed := [], quiet := false }

/-- The machine right after a package reset (R427, Table 17.2): every chiplet Dark, no partition, no grid, the
origin-set table holding entry 0 alone, every register at its map's reset value. -/
def State.reset : State :=
  { agenda := [], free := 0, seq := 0, gtime := 0, cur := none, grids := [], crews := [], nextGrid := 1,
    nextCrew := 1, ops := [], nextOp := 1, cores := [], ctlb := [], engines := [], slices := [], channels := [],
    wbufs := [], hbm := [], lineS := [], frames := [], host := [], store := [], vfs := [], bdCopy := [],
    batches := [], hfq := FaultQ.init, htlbi := Tlbi.init, fstat := false, rcbuf := 0, rcstat := 0,
    rcWanted := 0, rcVict := [], pmove := none, pmstat := 0, pcmd := PCmd.init, poolmask := 0, poolTurn := 0,
    capGen := 0, nextStamp := 1, clusters := [], sliceU := [], channelU := [], routerU := [], chiplets := [],
    topology := (List.range 24).map fun i => (i + 1, 0, i + 1), links := [], manifest := Config.manifest, bdDer := Config.bdCertificate, bdDown := !Config.bdSelfCheck,
    pfReady := false, osets := [(0, { prins := [], retired := false })], prins := [], pbaddr := 0,
    pbErr := false, osreq := [0, 0, 0, 0], osErr := false, osIndex := 0, piaddr := 0, piErr := false,
    pirErr := false, gates := [], eprin := [], chErr := false, chCmd := 0, doe := Spdm.init, trackers := [],
    nextTrk := 0, sent := [], ports := [], ftype := 0, fdev := [], islands := [], banks := [], traces := [],
    pf := Vf.init, msix := [], readOut := 0, firmware := [], errCtr := [], peerFlush := [], flaws := [], found := [],
    booked := [], walks := [], cycles := 0 }

end Sys2Proof.Machine
end

