-- ==== Sys2Proof/Decode.lean ====
section
/-! DEFINITION. The clause header, the instruction words of the five classes with their prefixes and literals,
and the encoder (07_encoding.md R157 to R177; 03_registers.md R68, R69, R73). Decoding is total: a group of
words gives an instruction, or the cause that Table 7.6 reports first with the word it is reported at. -/

namespace Sys2Proof

open Machine (Cause)

/-- Bits [hi:lo] of a word, as a number (00_scope.md Table 0.3). -/
def fieldOf (x : Word) (hi lo : Nat) : Nat := (x.toNat / 2 ^ lo) % 2 ^ (hi + 1 - lo)

/-- Clause classes (Table 7.1). -/
inductive Cls where
  | V | M | X | C | S
  deriving DecidableEq, Repr

/-- The class codes of Table 7.1. -/
def Cls.code : Cls → Nat
  | .V => 0 | .M => 1 | .X => 2 | .C => 3 | .S => 4

/-- A clause header (Table 7.1); a flag of `none` is 15. -/
structure Header where
  ser   : Bool
  yld   : Bool
  flagB : Option Nat
  flagA : Option Nat
  wait  : Nat
  cls   : Cls
  n     : Nat
  deriving DecidableEq, Repr

/-- A flag field: 15 names none (R157). -/
def flagOf (x : Nat) : Option Nat := if x < 12 then some x else none

/-- The class a class field names. -/
def clsOf (x : Nat) : Option Cls :=
  match x with
  | 0 => some .V | 1 => some .M | 2 => some .X | 3 => some .C | 4 => some .S | _ => none

/-- Decodes a header, with rows 2 to 5 of Table 7.6 in their order. -/
def decodeHeader (x : Word) : Except Cause Header :=
  if fieldOf x 31 29 ≠ 0 then .error .illClauseResv
  else match clsOf (fieldOf x 6 4) with
    | none => .error .illClauseClass
    | some c =>
      if fieldOf x 3 0 = 0 then .error .illClauseCount
      else if (12 ≤ fieldOf x 22 19 ∧ fieldOf x 22 19 ≤ 14) ∨ (12 ≤ fieldOf x 26 23 ∧ fieldOf x 26 23 ≤ 14) then
        .error .illFlag
      else .ok { ser := fieldOf x 28 28 = 1, yld := fieldOf x 27 27 = 1, flagB := flagOf (fieldOf x 26 23),
                 flagA := flagOf (fieldOf x 22 19), wait := fieldOf x 18 7, cls := c, n := fieldOf x 3 0 }

/-- A header word from its fields (Table 7.1). -/
def encodeHeader (h : Header) : Word :=
  BitVec.ofNat 32 ((if h.ser then 2 ^ 28 else 0) + (if h.yld then 2 ^ 27 else 0) +
    h.flagB.getD 15 * 2 ^ 23 + h.flagA.getD 15 * 2 ^ 19 + h.wait * 2 ^ 7 + h.cls.code * 2 ^ 4 + h.n)

/-! ## Prefixes -/

/-- Prefix kinds (Table 7.5). -/
inductive PKind where
  | xreg | rnd | smod | cache | ord
  deriving DecidableEq, Repr

/-- The prefixes read before one instruction word: kinds in word order, and their payloads. -/
structure Pfx where
  kinds : List PKind
  h     : Option (Nat × Nat × Nat)
  rnd   : Option RMode
  smod  : SMod
  cache : CacheP
  ord   : Option Ord
  deriving DecidableEq, Repr

/-- No SMOD prefix. -/
def SMod.none : SMod := { sat := false, absB := false, negB := false, absA := false, negA := false }

/-- No CACHE prefix. -/
def CacheP.none : CacheP := { noL2 := false, pcls := 0, l1 := 0 }

/-- No prefix. -/
def Pfx.none : Pfx :=
  { kinds := [], h := Option.none, rnd := Option.none, smod := SMod.none, cache := CacheP.none, ord := Option.none }

/-- The kind of a prefix word, by its opcode. -/
def pkindOf (x : Word) : Option PKind :=
  match fieldOf x 31 22 with
  | 0x3F8 => some .xreg | 0x3F9 => some .rnd | 0x3FA => some .smod | 0x3FB => some .cache | 0x3FC => some .ord
  | _ => Option.none

/-- Rounding-mode codes (Table 4.4). -/
def rmodeOf (x : Nat) : Option RMode :=
  match x with
  | 0 => some .rne | 1 => some .rtz | 2 => some .rdn | 3 => some .rup | 4 => some .rna | 5 => some .rto
  | _ => Option.none

/-- The code of a rounding mode. -/
def RMode.code : RMode → Nat
  | .rne => 0 | .rtz => 1 | .rdn => 2 | .rup => 3 | .rna => 4 | .rto => 5

/-- Semantics codes (Table 6.2). -/
def semOf (x : Nat) : Option Sem :=
  match x with
  | 0 => some .rlx | 1 => some .acq | 2 => some .rel | 3 => some .acqrel | 4 => some .sc | _ => Option.none

/-- The code of a semantics. -/
def Sem.code : Sem → Nat
  | .rlx => 0 | .acq => 1 | .rel => 2 | .acqrel => 3 | .sc => 4

/-- Scope codes (Table 6.1). -/
def scopeOf (x : Nat) : Option Scope :=
  match x with
  | 0 => some .crew | 1 => some .core | 2 => some .die | 3 => some .dev | 4 => some .dom | _ => Option.none

/-- The code of a scope. -/
def Scope.code : Scope → Nat
  | .crew => 0 | .core => 1 | .die => 2 | .dev => 3 | .dom => 4

/-- A number below a bound. -/
def fin? (n : Nat) (x : Nat) : Option (Fin n) := if h : x < n then some ⟨x, h⟩ else Option.none

/-- Reads a prefix word's payload (R169): none where a resv bit, [3:0] or a field value is not allowed. -/
def pfxPayload (k : PKind) (x : Word) (p : Pfx) : Option Pfx :=
  let p := { p with kinds := p.kinds ++ [k] }
  match k with
  | .xreg =>
    if fieldOf x 12 0 ≠ 0 then Option.none
    else some { p with h := some (fieldOf x 21 19, fieldOf x 18 16, fieldOf x 15 13) }
  | .rnd =>
    if fieldOf x 21 7 ≠ 0 ∨ fieldOf x 3 0 ≠ 0 then Option.none
    else (rmodeOf (fieldOf x 6 4)).map fun m => { p with rnd := some m }
  | .smod =>
    if fieldOf x 21 9 ≠ 0 ∨ fieldOf x 3 0 ≠ 0 then Option.none
    else some { p with smod := { sat := fieldOf x 8 8 = 1, absB := fieldOf x 7 7 = 1, negB := fieldOf x 6 6 = 1,
                                 absA := fieldOf x 5 5 = 1, negA := fieldOf x 4 4 = 1 } }
  | .cache =>
    if fieldOf x 21 9 ≠ 0 ∨ fieldOf x 3 0 ≠ 0 then Option.none
    else some { p with cache := { noL2 := fieldOf x 8 8 = 1, pcls := Fin.ofNat 4 (fieldOf x 7 6),
                                  l1 := Fin.ofNat 4 (fieldOf x 5 4) } }
  | .ord =>
    if fieldOf x 21 10 ≠ 0 ∨ fieldOf x 3 0 ≠ 0 then Option.none
    else match semOf (fieldOf x 9 7), scopeOf (fieldOf x 6 4) with
      | some sm, some sc => some { p with ord := some { sem := sm, scope := sc } }
      | _, _ => Option.none

/-- Reads the prefixes at the head of a group (Table 7.6 row 6): the prefixes and the words from the
instruction word on, or the first failing prefix. -/
def readPfx : List Word → Nat → Pfx → Except (Cause × Nat) (Pfx × Nat × List Word)
  | [], i, _ => .error (.illOpcode, i)
  | x :: rest, i, p =>
    match pkindOf x with
    | Option.none => .ok (p, i, x :: rest)
    | some k =>
      if rest = [] then .error (.illPrefix, i)
      else match pfxPayload k x p with
        | Option.none => .error (.illResvField, i)
        | some p' => if p.kinds.contains k then .error (.illPrefix, i) else readPfx rest (i + 1) p'

/-! ## Field uses -/

/-- The special registers WRSR may write: %rmode, %ptsel and %fpx (Table 3.3); another number is no operand of it (R77,
Table 7.6 row 11). -/
def specWritable (n : Nat) : Bool := n == 22 || n == 28 || n == 32

/-- How an instruction uses a field (R166, R212, R257): `regs` is 1, 2 or 4 registers. -/
inductive Use where
  | none
  /-- A source operand: w, k, z or literal. -/
  | src (regs : Nat)
  /-- A destination under the rule of R69: a k destination needs every source to be k, z or literal. -/
  | dst (regs : Nat)
  /-- A destination that is a w code or z. -/
  | dstW (regs : Nat)
  /-- A destination that may be w, k or z, whatever the sources. -/
  | dstWK (regs : Nat)
  /-- A k register. -/
  | dstK (regs : Nat)
  /-- A k code, z or a literal. -/
  | uni (regs : Nat)
  /-- A raw number from `lo` to `hi`. -/
  | raw (lo hi : Nat)
  /-- A block width code: 7 raises MATRIX_FORMAT (R299). -/
  | width
  deriving DecidableEq, Repr

/-- The decoded fields of a group. -/
structure Fields where
  d   : Nat
  a   : Nat
  b   : Nat
  oD  : Operand
  oA  : Operand
  oB  : Operand
  g   : Guard
  pfx : Pfx
  deriving DecidableEq, Repr

/-- Which bits an SMOD prefix may name (R171, Table 10.2). -/
inductive SmodUse where
  | no | two | one | cmp
  deriving DecidableEq, Repr

/-- What the encoding tables say of one opcode: field uses, prefixes permitted, whether it delivers under flag A
(R160), whether it ends its clause (R176), the semantics an ORD prefix may name, and the instruction it builds. -/
structure Form where
  d       : Use
  a       : Use
  b       : Use
  rnd     : Bool
  smod    : SmodUse
  cache   : Bool
  ord     : List Sem
  deliver : Bool
  last    : Bool
  build   : Fields → Option Instr

/-- A form without prefixes of its own. -/
def Form.of (d a b : Use) (mk : Fields → Option Instr) : Form :=
  { d := d, a := a, b := b, rnd := false, smod := .no, cache := false, ord := [], deliver := false, last := false,
    build := mk }

/-- Three 32-bit operands. -/
def Form.op3 (c : Operand → Operand → Operand → Guard → Instr) : Form :=
  Form.of (.dst 1) (.src 1) (.src 1) fun f => some (c f.oD f.oA f.oB f.g)

/-- A destination and one source. -/
def Form.op2 (c : Operand → Operand → Guard → Instr) : Form :=
  Form.of (.dst 1) (.src 1) .none fun f => some (c f.oD f.oA f.g)

/-- A destination that is w or z, and one source. -/
def Form.op2W (c : Operand → Operand → Guard → Instr) : Form :=
  Form.of (.dstW 1) (.src 1) .none fun f => some (c f.oD f.oA f.g)

/-- A predicate from two predicates. -/
def Form.pset (c : Fin 7 → Fin 8 → Fin 8 → Guard → Instr) : Form :=
  Form.of (.raw 0 6) (.raw 0 7) (.raw 0 7) fun f =>
    match fin? 7 f.d, fin? 8 f.a, fin? 8 f.b with
    | some d, some a, some b => some (c d a b f.g)
    | _, _, _ => Option.none

/-- A floating-point form of two sources under the mode. -/
def Form.fp3 (c : SMod → Option RMode → Operand → Operand → Operand → Guard → Instr) : Form :=
  { Form.of (.dst 1) (.src 1) (.src 1) (fun f => some (c f.pfx.smod f.pfx.rnd f.oD f.oA f.oB f.g)) with
    rnd := true, smod := .two }

/-- FLDEXP and FLDXA: B is an integer. -/
def Form.fpi (c : SMod → Option RMode → Operand → Operand → Operand → Guard → Instr) : Form :=
  { Form.fp3 c with smod := .one }

/-- FMIN and FMAX forms. -/
def Form.fmm (c : SMod → Operand → Operand → Operand → Guard → Instr) : Form :=
  { Form.of (.dst 1) (.src 1) (.src 1) (fun f => some (c f.pfx.smod f.oD f.oA f.oB f.g)) with smod := .two }

/-- FSETP forms. -/
def Form.fset (c : SMod → Fin 7 → Operand → Operand → Guard → Instr) : Form :=
  { Form.of (.raw 0 6) (.src 1) (.src 1) (fun f => (fin? 7 f.d).map fun d => c f.pfx.smod d f.oA f.oB f.g) with
    smod := .cmp }

/-- The special functions. -/
def Form.sfn (c : SMod → Operand → Operand → Guard → Instr) : Form :=
  { Form.of (.dst 1) (.src 1) .none (fun f => some (c f.pfx.smod f.oD f.oA f.g)) with smod := .one }

/-- Conversions of one source that round. -/
def Form.cv2 (c : Option RMode → Operand → Operand → Guard → Instr) : Form :=
  { Form.of (.dst 1) (.src 1) .none (fun f => some (c f.pfx.rnd f.oD f.oA f.g)) with rnd := true }

/-- Conversions of two sources that round. -/
def Form.cv3 (c : Option RMode → Operand → Operand → Operand → Guard → Instr) : Form :=
  { Form.of (.dst 1) (.src 1) (.src 1) (fun f => some (c f.pfx.rnd f.oD f.oA f.oB f.g)) with rnd := true }

/-- ISETP (R222). -/
def Form.icmp (cc : ICmp) : Form :=
  Form.of (.raw 0 6) (.src 1) (.src 1) fun f => (fin? 7 f.d).map fun d => Instr.isetp cc d f.oA f.oB f.g

/-- SHFL (R230). -/
def Form.shf (m : ShflMode) : Form :=
  Form.of (.dstW 1) (.src 1) (.src 1) fun f => some (.shfl m f.oD f.oA f.oB f.g)

/-- OSQ (R228): A is an operand when B is 0 and a predicate code when B is 1. -/
def Form.osqF (b : Nat) : Form :=
  if b = 1 then
    Form.of (.dstK 1) (.raw 0 7) (.raw 0 1) fun f =>
      match f.oD, fin? 8 f.a with
      | .k d, some p => some (.osq d (.inr p) f.g)
      | _, _ => Option.none
  else
    Form.of (.dstK 1) (.src 1) (.raw 0 1) fun f =>
      match f.oD with
      | .k d => some (.osq d (.inl f.oA) f.g)
      | _ => Option.none

/-- CVTB.(c + 2) (R251). D = z is taken and the mantissas are discarded (R68; DESIGN CHOICE, assumption 85). -/
def Form.cvtbF (c : Fin 7) : Form :=
  { Form.of (.dstW 1) (.src 1) (.dstK 1) (fun f =>
      match f.oB with
      | .k b => some (.cvtb c f.pfx.rnd f.oD f.oA b f.g)
      | _ => Option.none) with rnd := true }

/-- V-class opcodes (Table 7.7); `b` is the B field, which decides how OSQ reads A. -/
def formV (op b : Nat) : Option Form :=
  match op with
  | 0x000 => some (Form.op3 .iadd)
  | 0x001 => some (Form.op3 .iaddSat)
  | 0x002 => some (Form.op3 .isub)
  | 0x003 => some (Form.op3 .isubSat)
  | 0x004 => some (Form.op3 .imul)
  | 0x005 => some (Form.op3 .imulhS)
  | 0x006 => some (Form.op3 .imulhN)
  | 0x007 => some (Form.op3 .imad)
  | 0x008 => some (Form.of (.dst 2) (.src 1) (.src 1) fun f => some (.imadwN f.oD f.oA f.oB f.g))
  | 0x009 => some (Form.of (.dst 2) (.src 1) (.src 1) fun f => some (.imadwS f.oD f.oA f.oB f.g))
  | 0x00A => some (Form.of (.dst 2) (.src 2) (.src 2) fun f => some (.iadd64 f.oD f.oA f.oB f.g))
  | 0x00B => some (Form.of (.dst 2) (.src 2) (.src 2) fun f => some (.isub64 f.oD f.oA f.oB f.g))
  | 0x00C => some (Form.op3 .iminS)
  | 0x00D => some (Form.op3 .iminN)
  | 0x00E => some (Form.op3 .imaxS)
  | 0x00F => some (Form.op3 .imaxN)
  | 0x010 => some (Form.op2 .iabs)
  | 0x011 => some (Form.op3 .lea1)
  | 0x012 => some (Form.op3 .lea2)
  | 0x013 => some (Form.op3 .lea3)
  | 0x014 => some (Form.op3 .lea4)
  | 0x015 => some (Form.of (.dst 2) (.src 2) (.src 1) fun f => some (.lea64 f.oD f.oA f.oB f.g))
  | 0x016 => some (Form.op3 .idp4S)
  | 0x017 => some (Form.op3 .idp4N)
  | 0x018 => some (Form.op3 .idp2S)
  | 0x040 => some (Form.op3 .and)
  | 0x041 => some (Form.op3 .or)
  | 0x042 => some (Form.op3 .xor)
  | 0x043 => some (Form.op3 .andn)
  | 0x044 => some (Form.op3 .orn)
  | 0x045 => some (Form.op2 .not)
  | 0x046 => some (Form.op3 .shl)
  | 0x047 => some (Form.op3 .shr)
  | 0x048 => some (Form.op3 .sar)
  | 0x049 => some (Form.op3 .fshl)
  | 0x04A => some (Form.op3 .fshr)
  | 0x04B => some (Form.op3 .bfeN)
  | 0x04C => some (Form.op3 .bfeS)
  | 0x04D => some (Form.op3 .bfi)
  | 0x04E => some (Form.op2 .brev)
  | 0x04F => some (Form.op2 .popc)
  | 0x050 => some (Form.op2 .clz)
  | 0x051 => some (Form.op2 .ctz)
  | 0x052 => some (Form.op3 .prmt)
  | 0x080 => some (Form.icmp .eq)
  | 0x081 => some (Form.icmp .ne)
  | 0x082 => some (Form.icmp .ltS)
  | 0x083 => some (Form.icmp .leS)
  | 0x084 => some (Form.icmp .ltN)
  | 0x085 => some (Form.icmp .leN)
  | 0x086 => some (Form.pset .psetpAnd)
  | 0x087 => some (Form.pset .psetpOr)
  | 0x088 => some (Form.pset .psetpXor)
  | 0x089 => some (Form.pset .psetpAndn)
  | 0x08A => some (Form.op3 .sel)
  | 0x08B => some (Form.op2 .mov)
  | 0x08C => some (Form.of (.dstW 1) .none .none fun f => some (.prdw f.oD f.g))
  | 0x08D => some (Form.of .none (.src 1) .none fun f => some (.pwrw f.oA f.g))
  | 0x08E => some (Form.of (.dstK 1) (.src 1) (.uni 1) fun f => match f.oD with | .k d => some (.w2k d f.oA f.oB f.g) | _ => Option.none)
  | 0x08F => some (Form.osqF b)
  | 0x0C0 => some (Form.shf .idx)
  | 0x0C1 => some (Form.shf .up)
  | 0x0C2 => some (Form.shf .down)
  | 0x0C3 => some (Form.shf .xor)
  | 0x0C4 => some (Form.of (.raw 0 6) (.raw 0 7) .none fun f => match fin? 7 f.d, fin? 8 f.a with | some d, some a => some (.voteAll d a f.g) | _, _ => Option.none)
  | 0x0C5 => some (Form.of (.raw 0 6) (.raw 0 7) .none fun f => match fin? 7 f.d, fin? 8 f.a with | some d, some a => some (.voteAny d a f.g) | _, _ => Option.none)
  | 0x0C6 => some (Form.of (.dst 1) (.raw 0 7) .none fun f => (fin? 8 f.a).map fun a => .voteBal f.oD a f.g)
  | 0x0C7 => some (Form.op2W .redaddS)
  | 0x0C8 => some (Form.op2W .redminS)
  | 0x0C9 => some (Form.op2W .redminN)
  | 0x0CA => some (Form.op2W .redmaxS)
  | 0x0CB => some (Form.op2W .redmaxN)
  | 0x0CC => some (Form.of (.dstW 2) (.src 1) (.src 1) fun f => some (.redminiN f.oD f.oA f.oB f.g))
  | 0x0CD => some (Form.of (.dstW 2) (.src 1) (.src 1) fun f => some (.redmaxiN f.oD f.oA f.oB f.g))
  | 0x0CE => some (Form.op2W .redaddF32)
  | 0x0CF => some (Form.op2W .redminF32)
  | 0x0D0 => some (Form.op2W .redmaxF32)
  | 0x100 => some (Form.fp3 .fadd)
  | 0x101 => some (Form.fp3 .fsub)
  | 0x102 => some (Form.fp3 .fmul)
  | 0x103 => some (Form.fp3 .ffma)
  | 0x104 => some (Form.fmm .fmin)
  | 0x105 => some (Form.fmm .fmax)
  | 0x106 => some (Form.fset .fsetpEq)
  | 0x107 => some (Form.fset .fsetpNe)
  | 0x108 => some (Form.fset .fsetpLt)
  | 0x109 => some (Form.fset .fsetpLe)
  | 0x10A => some (Form.fset .fsetpNan)
  | 0x10B => some ({ Form.of (.dst 1) (.src 1) .none (fun f => some (.frnd f.pfx.smod f.pfx.rnd f.oD f.oA f.g)) with rnd := true, smod := .one })
  | 0x10C => some (Form.fpi .fldexp)
  | 0x10D => some (Form.fpi .fldxa)
  | 0x110 => some (Form.fp3 .faddH2)
  | 0x111 => some (Form.fp3 .fmulH2)
  | 0x112 => some (Form.fp3 .ffmaH2)
  | 0x113 => some (Form.fmm .fminH2)
  | 0x114 => some (Form.fmm .fmaxH2)
  | 0x115 => some (Form.fp3 .faddB2)
  | 0x116 => some (Form.fp3 .fmulB2)
  | 0x117 => some (Form.fp3 .ffmaB2)
  | 0x118 => some (Form.fp3 .fdp2H2)
  | 0x119 => some (Form.fp3 .fdp2B2)
  | 0x120 => some (Form.sfn .frcp)
  | 0x121 => some (Form.sfn .frsq)
  | 0x122 => some (Form.sfn .fsqrt)
  | 0x123 => some (Form.sfn .fex2)
  | 0x124 => some (Form.sfn .flg2)
  | 0x125 => some (Form.sfn .fsin)
  | 0x126 => some (Form.sfn .fcos)
  | 0x127 => some (Form.sfn .ftanh)
  | 0x140 => some (Form.cv2 .cvtF32I32)
  | 0x141 => some (Form.cv2 .cvtF32N32)
  | 0x142 => some (Form.cv2 .cvtI32F32)
  | 0x143 => some (Form.cv2 .cvtN32F32)
  | 0x144 => some (Form.cv3 .cvtH2F32)
  | 0x145 => some (Form.cv3 .cvtB2F32)
  | 0x146 => some (Form.op2 .cvtF32HL)
  | 0x147 => some (Form.op2 .cvtF32HH)
  | 0x148 => some (Form.op2 .cvtF32BL)
  | 0x149 => some (Form.op2 .cvtF32BH)
  | 0x14A => some (Form.cv3 .cvtE4X2F32)
  | 0x14B => some (Form.cv3 .cvtE5X2F32)
  | 0x14C => some (Form.op3 .cvtF32E4)
  | 0x14D => some (Form.op3 .cvtF32E5)
  | 0x160 => some (Form.cvtbF 0)
  | 0x161 => some (Form.cvtbF 1)
  | 0x162 => some (Form.cvtbF 2)
  | 0x163 => some (Form.cvtbF 3)
  | 0x164 => some (Form.cvtbF 4)
  | 0x165 => some (Form.cvtbF 5)
  | 0x166 => some (Form.cvtbF 6)
  | 0x167 => some (Form.op3 .dqb)
  | 0x168 => some (Form.op2W (.bpack 0))
  | 0x169 => some (Form.op2W (.bpack 1))
  | 0x16A => some (Form.op2W (.bpack 2))
  | 0x16B => some (Form.op2W (.bpack 3))
  | 0x16C => some (Form.op2W (.bpack 4))
  | 0x16D => some (Form.op2W (.bpack 5))
  | 0x16E => some (Form.op2W (.bpack 6))
  | 0x170 => some (Form.op2W (.bunpk 0))
  | 0x171 => some (Form.op2W (.bunpk 1))
  | 0x172 => some (Form.op2W (.bunpk 2))
  | 0x173 => some (Form.op2W (.bunpk 3))
  | 0x174 => some (Form.op2W (.bunpk 4))
  | 0x175 => some (Form.op2W (.bunpk 5))
  | 0x176 => some (Form.op2W (.bunpk 6))
  | _ => Option.none

/-- LD and LDS sizes in opcode order (Table 7.8). -/
def ldSizeOf (x : Nat) : Option LdSize :=
  match x with
  | 0 => some .b8 | 1 => some .s8 | 2 => some .b16 | 3 => some .s16 | 4 => some .b32 | 5 => some .b64
  | 6 => some .b128 | _ => Option.none

/-- ST and STS sizes in opcode order. -/
def stSizeOf (x : Nat) : Option StSize :=
  match x with
  | 0 => some .b8 | 1 => some .b16 | 2 => some .b32 | 3 => some .b64 | 4 => some .b128 | _ => Option.none

/-- Registers a load of this size writes. -/
def LdSize.regs : LdSize → Nat
  | .b64 => 2 | .b128 => 4 | _ => 1
/-- Registers a store of this size reads. -/
def StSize.regs : StSize → Nat
  | .b64 => 2 | .b128 => 4 | _ => 1
/-- Registers LDK writes. -/
def LdkSize.regs : LdkSize → Nat
  | .b32 => 1 | .b64 => 2 | .b128 => 4

/-- Read-modify-write operations by offset (Table 11.2). -/
def rmwOf (x : Nat) : Option RmwOp :=
  match x with
  | 0 => some .addN32 | 1 => some .addN64 | 2 => some .minS | 3 => some .minN | 4 => some .maxS | 5 => some .maxN
  | 6 => some .and | 7 => some .or | 8 => some .xor | 9 => some .exchB32 | 10 => some .exchB64
  | 11 => some .casB32 | 12 => some .casB64 | 13 => some .inc | 14 => some .dec | 15 => some .faddF32
  | 16 => some .faddB2 | _ => Option.none

/-- Registers an operation's value and destination take: pairs for the 64-bit forms (R265). -/
def RmwOp.regs : RmwOp → Nat
  | .addN64 | .exchB64 | .casB64 => 2
  | _ => 1

/-- The forms RED lacks (Table 7.8). -/
def RmwOp.exchCas : RmwOp → Bool
  | .exchB32 | .exchB64 | .casB32 | .casB64 => true
  | _ => false

/-- LD. -/
def Form.ldF (sz : LdSize) : Form :=
  { Form.of (.dstW sz.regs) (.src 2) (.src 1) (fun f => some (.ld sz f.pfx.cache f.pfx.ord f.oD f.oA f.oB f.g)) with
    cache := true, ord := [.rlx, .acq, .sc], deliver := true }
/-- ST. -/
def Form.stF (sz : StSize) : Form :=
  { Form.of (.src sz.regs) (.src 2) (.src 1) (fun f => some (.st sz f.pfx.cache f.pfx.ord f.oD f.oA f.oB f.g)) with
    cache := true, ord := [.rlx, .rel, .sc] }
/-- LDS. -/
def Form.ldsF (sz : LdSize) : Form :=
  { Form.of (.dstW sz.regs) (.src 2) (.src 1) (fun f => some (.lds sz f.oD f.oA f.oB f.g)) with deliver := true }
/-- STS. -/
def Form.stsF (sz : StSize) : Form :=
  Form.of (.src sz.regs) (.src 2) (.src 1) fun f => some (.sts sz f.oD f.oA f.oB f.g)
/-- LDK. -/
def Form.ldkF (sz : LdkSize) : Form :=
  { Form.of (.dstK sz.regs) (.uni 2) (.uni 1) (fun f =>
      match f.oD with
      | .k d => some (.ldk sz f.pfx.cache d f.oA f.oB f.g)
      | _ => Option.none) with cache := true, deliver := true }
/-- LDT. -/
def Form.ldtF (sp : TSpace) (wide : Bool) : Form :=
  { Form.of (.dstW (if wide then 4 else 1)) (.src 2) (.src 1) (fun f => some (.ldt sp wide f.oD f.oA f.oB f.g)) with
    deliver := true }
/-- STT. -/
def Form.sttF (sp : TSpace) (wide : Bool) : Form :=
  Form.of (.src (if wide then 4 else 1)) (.src 2) (.src 1) fun f => some (.stt sp wide f.oD f.oA f.oB f.g)
/-- ATOM: D is a destination, read by the CAS forms. -/
def Form.atomF (op : RmwOp) : Form :=
  { Form.of (.dstW op.regs) (.src 2) (.src op.regs) (fun f => some (.atom op f.pfx.ord f.oD f.oA f.oB f.g)) with
    ord := [.rlx, .acq, .rel, .acqrel, .sc], deliver := true }
/-- ATOMS. -/
def Form.atomsF (op : RmwOp) : Form :=
  { Form.of (.dstW op.regs) (.src 2) (.src op.regs) (fun f => some (.atoms op f.pfx.ord f.oD f.oA f.oB f.g)) with
    ord := [.rlx, .acq, .rel, .acqrel, .sc], deliver := true }
/-- RED. -/
def Form.redF (op : RmwOp) : Form :=
  { Form.of .none (.src 2) (.src op.regs) (fun f => some (.red op f.pfx.ord f.oA f.oB f.g)) with
    ord := [.rlx, .rel, .sc] }

/-- M-class opcodes (Table 7.8). -/
def formM (op : Nat) : Option Form :=
  if op < 0x010 then (ldSizeOf op).map Form.ldF
  else if op < 0x020 then (stSizeOf (op - 0x010)).map Form.stF
  else if op < 0x030 then (ldSizeOf (op - 0x020)).map Form.ldsF
  else if op < 0x040 then (stSizeOf (op - 0x030)).map Form.stsF
  else match op with
    | 0x040 => some (Form.ldkF .b32) | 0x041 => some (Form.ldkF .b64) | 0x042 => some (Form.ldkF .b128)
    | 0x050 => some (Form.ldtF .W false) | 0x051 => some (Form.ldtF .W true)
    | 0x052 => some (Form.ldtF .A false) | 0x053 => some (Form.ldtF .A true)
    | 0x054 => some (Form.ldtF .C false) | 0x055 => some (Form.ldtF .C true)
    | 0x058 => some (Form.sttF .A false) | 0x059 => some (Form.sttF .A true)
    | 0x05A => some (Form.sttF .C false) | 0x05B => some (Form.sttF .C true)
    | 0x100 => some (Form.of (.raw 0 4) (.raw 0 4) .none fun f =>
        match scopeOf f.d, semOf f.a with
        | some sc, some sm => some (.fence sc sm f.g)
        | _, _ => Option.none)
    | 0x110 => some { Form.of (.raw 0 1) (.src 2) (.src 1) (fun f =>
        (fin? 2 f.d).map fun l => .pref l f.pfx.cache f.oA f.oB f.g) with cache := true }
    | 0x118 => some (Form.of (.raw 0 2) (.raw 0 4) .none fun f =>
        match f.d, scopeOf f.a with
        | 0, some sc => some (.cmaint .wb sc f.g)
        | 1, some sc => some (.cmaint .inv sc f.g)
        | 2, some sc => some (.cmaint .wbinv sc f.g)
        | _, _ => Option.none)
    | 0x120 => some { Form.of (.dstW 1) (.src 2) (.src 1) (fun f => some (.barpa f.oD f.oA f.oB f.g)) with
        deliver := true }
    | 0x121 => some (Form.of (.src 1) (.src 2) (.src 1) fun f => some (.barpw f.oD f.oA f.oB f.g))
    | _ =>
      if 0x080 ≤ op ∧ op ≤ 0x090 then (rmwOf (op - 0x080)).map Form.atomF
      else if 0x0A0 ≤ op ∧ op ≤ 0x0B0 then
        (rmwOf (op - 0x0A0)).bind fun r => if r.exchCas then Option.none else some (Form.redF r)
      else if 0x0C0 ≤ op ∧ op ≤ 0x0D0 then (rmwOf (op - 0x0C0)).map Form.atomsF
      else Option.none

/-- Typed spaces by the raw code of XOSQ (R302). -/
def tspaceOf (x : Nat) : Option TSpace :=
  match x with
  | 0 => some .W | 1 => some .A | 2 => some .C | _ => Option.none

/-- X-class format A opcodes (Table 7.9, Table 12.4). -/
def formX (op : Nat) : Option Form :=
  match op with
  | 0x100 => some { Form.of (.raw 0 15) .none .none (fun f => (fin? 16 f.d).map fun t => .xzero t f.g) with
      deliver := true }
  | 0x101 => some { Form.of (.raw 0 15) (.raw 0 63) .width (fun f =>
      match fin? 16 f.d, fin? 64 f.a, fin? 7 f.b with
      | some t, some q, some c => some (.xreq f.pfx.rnd t q c f.g)
      | _, _, _ => Option.none) with rnd := true, deliver := true }
  | 0x102 => some (Form.of (.dstK 1) (.raw 0 2) (.uni 1) fun f =>
      match f.oD, tspaceOf f.a with
      | .k d, some sp => some (.xosq d sp f.oB f.g)
      | _, _ => Option.none)
  | _ => Option.none

/-- C-class opcodes (Table 7.10). -/
def formC (op : Nat) : Option Form :=
  match op with
  | 0x000 => some { Form.of .none (.uni 1) .none (fun f => some (.cpy f.pfx.cache f.oA f.g)) with cache := true }
  | 0x001 => some { Form.of .none (.uni 1) .none (fun f => some (.cpyg f.pfx.cache f.oA f.g)) with cache := true }
  | 0x002 => some { Form.of .none (.uni 1) .none (fun f => some (.cpys f.pfx.cache f.oA f.g)) with cache := true }
  | 0x003 => some { Form.of .none (.uni 1) .none (fun f => some (.cpyq f.pfx.cache f.pfx.rnd f.oA f.g)) with
      cache := true, rnd := true }
  | 0x010 => some (Form.of (.dstWK 1) (.raw 0 63) .none fun f => (fin? 64 f.a).map fun r => .rres f.oD r f.g)
  | 0x011 => some (Form.of .none (.raw 0 63) (.uni 1) fun f => (fin? 64 f.a).map fun r => .rpub r f.oB f.g)
  | 0x012 => some (Form.of (.dstWK 1) (.raw 0 63) .none fun f => (fin? 64 f.a).map fun r => .rclm f.oD r f.g)
  | 0x013 => some (Form.of .none (.raw 0 63) (.uni 1) fun f => (fin? 64 f.a).map fun r => .rrel r f.oB f.g)
  | 0x014 => some (Form.of (.dstWK 1) (.raw 0 63) .none fun f => (fin? 64 f.a).map fun r => .rctr f.oD r f.g)
  | 0x020 => some (Form.of (.raw 0 31) (.uni 1) (.uni 1) fun f => (fin? 32 f.d).map fun c => .msgp c f.oA f.oB f.g)
  | 0x021 => some (Form.of (.raw 0 63) (.uni 1) (.uni 1) fun f => (fin? 64 f.d).map fun c => .msgs c f.oA f.oB f.g)
  | 0x022 => some (Form.of (.dstWK 1) (.uni 1) .none fun f => some (.msgc f.oD f.oA f.g))
  | 0x030 => some (Form.of (.raw 0 7) (.uni 1) (.raw 1 8) fun f =>
      match fin? 8 f.d, fin? 64 f.b with
      | some p, some c => if f.d + f.b ≤ 8 then some (.ptld p f.oA c f.g) else Option.none
      | _, _ => Option.none)
  | _ => Option.none

/-- S-class format A opcodes (Tables 7.11 and 8.1). -/
def formS (op : Nat) : Option Form :=
  match op with
  | 0x000 => some (Form.of .none .none .none fun f => some (.nop f.g))
  | 0x001 => some { Form.of .none .none .none (fun f => some (.exit f.g)) with last := true }
  | 0x002 => some { Form.of .none .none .none (fun f => some (.ret f.g)) with last := true }
  | 0x003 => some { Form.of .none (.src 2) .none (fun f => some (.brx f.oA f.g)) with last := true }
  | 0x004 => some (Form.of .none .none .none fun f => some (.yield f.g))
  | 0x005 => some (Form.of .none .none (.raw 0 31) fun f => (fin? 32 f.b).map fun c => .trap c f.g)
  | 0x006 => some (Form.of .none .none .none fun f => some (.brk f.g))
  | 0x007 => some { Form.of .none .none (.raw 0 1) (fun f =>
      if f.b = 0 then some (.tretNext f.g) else some (.tretRetry f.g)) with last := true }
  | 0x010 => some (Form.of (.raw 0 31) (.uni 1) (.raw 0 1) fun f =>
      (fin? 32 f.d).map fun d => .rgn d f.oA (f.b = 1) f.g)
  | 0x011 => some (Form.of (.raw 0 31) (.uni 1) (.raw 0 1) fun f =>
      (fin? 32 f.d).map fun d => .rgnr d f.oA (f.b = 1) f.g)
  | 0x012 => some (Form.of .none .none .none fun f => some (.rgne f.g))
  | 0x018 => some (Form.of (.raw 0 11) (.raw 0 63) .none fun f =>
      match fin? 12 f.d, fin? 64 f.a with
      | some d, some t => some (.waitf d t f.g)
      | _, _ => Option.none)
  | 0x020 => some (Form.of (.raw 0 15) .none .none fun f => (fin? 16 f.d).map fun b => .bars b f.g)
  | 0x021 => some (Form.of (.raw 0 15) .none .none fun f => (fin? 16 f.d).map fun b => .bara b f.g)
  | 0x022 => some (Form.of (.raw 0 15) .none .none fun f => (fin? 16 f.d).map fun b => .barw b f.g)
  | 0x023 => some (Form.of (.raw 0 15) .none .none fun f => (fin? 16 f.d).map fun b => .bard b f.g)
  | 0x030 => some (Form.of (.dstWK 2) (.src 2) (.src 1) fun f => some (.launch f.oD f.oA f.oB f.g))
  | 0x031 => some (Form.of .none .none .none fun f => some (.joinc f.g))
  | 0x038 => some (Form.of .none (.src 2) .none fun f => some (.migr f.oA f.g))
  | 0x040 => some (Form.of (.dstWK 1) (.raw 0 32) .none fun f => (fin? 33 f.a).map fun n => .rdsr f.oD n f.g)
  | 0x041 => some (Form.of .none (.raw 0 32) (.src 1) fun f => (fin? 33 f.a).bind fun n => if specWritable n.val then some (.wrsr n f.oB f.g) else Option.none)
  | 0x048 => some (Form.of (.raw 0 63) .none .none fun f => (fin? 64 f.d).map fun p => .mark p f.g)
  | _ => Option.none

/-- The form an opcode has in a class (R175). -/
def formOf (c : Cls) (op b : Nat) : Option Form :=
  match c with
  | .V => formV op b
  | .M => formM op
  | .X => formX op
  | .C => formC op
  | .S => formS op

/-! ## The checks of a group -/

/-- Whether a use admits an XREG number (R172). -/
def Use.xregOk : Use → Bool
  | .src _ | .dst _ | .dstW _ | .dstWK _ => true
  | _ => false

/-- Whether a field is one that takes a literal (R68). -/
def Use.litOk : Use → Bool
  | .src _ | .uni _ => true
  | _ => false

/-- Registers a use names. -/
def Use.regs : Use → Nat
  | .src n | .dst n | .dstW n | .dstWK n | .dstK n | .uni n => n
  | _ => 1

/-- Row 9 for one XREG high part (R172): nonzero is allowed only for an operand field whose code is 0 to 31. -/
def xregFieldOk (u : Use) (code h : Nat) : Bool := h == 0 || (u.xregOk && decide (code < 32))

/-- Row 10: an unused field must hold 0. -/
def unusedOk (u : Use) (code : Nat) : Bool := u != .none || code == 0

/-- Row 11 for one field: the cause, if the code is not one the use admits. -/
def useCause (u : Use) (code : Nat) (xr : Bool) (h budget : Nat) : Option Cause :=
  let main := xr && decide (code < 32) && decide (budget ≤ 32 * h + code)
  match u with
  | .none => Option.none
  | .src n => if (n = 4 ∧ code = 63) ∨ main then some .illOperand else Option.none
  | .dst _ => if code = 63 ∨ main then some .illOperand else Option.none
  | .dstW _ => if code = 63 ∨ (32 ≤ code ∧ code ≤ 61) ∨ main then some .illOperand else Option.none
  | .dstWK _ => if code = 63 ∨ main then some .illOperand else Option.none
  | .dstK _ => if code < 32 ∨ 62 ≤ code then some .illOperand else Option.none
  | .uni n => if code < 32 ∨ (n = 4 ∧ code = 63) then some .illOperand else Option.none
  | .raw lo hi => if code < lo ∨ hi < code then some .illOperand else Option.none
  | .width => if code = 7 then some .matrixFormat else if 7 < code then some .illOperand else Option.none

/-- R69: a V instruction with a k destination takes no w source. -/
def kDestBad (f : Form) (d a b : Nat) : Bool :=
  match f.d with
  | .dst _ => decide (32 ≤ d ∧ d ≤ 61) &&
      ((match f.a with | .src _ => decide (a < 32) | _ => false) ||
       (match f.b with | .src _ => decide (b < 32) | _ => false))
  | _ => false

/-- Row 12 for one field: whether a pair or quad starts at a register it may start at (R69, R257). -/
def alignOk (u : Use) (code : Nat) : Bool :=
  match u.regs with
  | 2 => decide (62 ≤ code) || decide (code % 2 = 0)
  | 4 => decide (62 ≤ code) || (decide (code % 4 = 0) && decide (code ≠ 60))
  | _ => true

/-- A field's operand, its literal given (R68, R73). -/
def operandOf (code : Nat) (xr : Bool) (h : Nat) (l : Word) : Operand :=
  if code < 32 then (if xr then .v (Fin.ofNat 256 (32 * h + code)) else .w (Fin.ofNat 32 code))
  else if code < 62 then .k (Fin.ofNat 30 (code - 32))
  else if code = 62 then .z
  else .lit l

/-- The guard of a word (R165). -/
def guardOf (x : Word) : Guard := { pred := Fin.ofNat 8 (fieldOf x 3 1), neg := fieldOf x 0 0 = 1 }

/-- Row 8: whether a prefix kind may precede the opcode (Table 7.5). -/
def pfxOk (c : Cls) (f : Form) : PKind → Bool
  | .xreg => c == .V || c == .M
  | .rnd => f.rnd
  | .smod => f.smod != .no
  | .cache => f.cache
  | .ord => f.ord != []

/-- R171: the SMOD bits a form admits. -/
def smodOk (u : SmodUse) (m : SMod) : Bool :=
  match u with
  | .no => false
  | .two => true
  | .one => !m.absB && !m.negB
  | .cmp => !m.sat

/-- Row 9 for one prefix kind. -/
def pfxBitsOk (f : Form) (p : Pfx) (d a b : Nat) : PKind → Bool
  | .xreg => match p.h with
    | some (hd, ha, hb) => xregFieldOk f.d d hd && xregFieldOk f.a a ha && xregFieldOk f.b b hb
    | Option.none => true
  | .rnd => true
  | .smod => smodOk f.smod p.smod
  | .cache => true
  | .ord => match p.ord with
    | some o => f.ord.contains o.sem
    | Option.none => true

/-- The first prefix, in word order, that fails a check, by its number. -/
def firstBad (p : PKind → Bool) : List PKind → Nat → Option Nat
  | [], _ => Option.none
  | k :: ks, i => if p k then firstBad p ks (i + 1) else some i

/-- An instruction group decoded: the instruction, the index of its word from the group's first word, and the
words of the group. -/
structure InstrGroup where
  instr : Instr
  at_   : Nat
  len   : Nat
  deriving DecidableEq, Repr

/-- Decodes a format A word under its form: rows 8 to 13 of Table 7.6. `i` prefixes precede; `rest` are the
words after it. -/
def decodeA (c : Cls) (f : Form) (p : Pfx) (i : Nat) (x : Word) (rest : List Word) (budget : Nat) (noA : Bool) :
    Except (Cause × Nat) InstrGroup :=
  let d := fieldOf x 21 16
  let a := fieldOf x 15 10
  let b := fieldOf x 9 4
  let (hd, ha, hb) := p.h.getD (0, 0, 0)
  let xr := p.h.isSome
  let nA := if f.a.litOk && a == 63 then 1 else 0
  let nB := if f.b.litOk && b == 63 then 1 else 0
  let nD := if f.d.litOk && d == 63 then 1 else 0
  match firstBad (pfxOk c f) p.kinds 0 with
  | some j => .error (.illPrefix, j)
  | Option.none =>
  match firstBad (pfxBitsOk f p d a b) p.kinds 0 with
  | some j => .error (.illResvField, j)
  | Option.none =>
  if f.last && decide (nA + nB + nD < rest.length) then .error (.illBranchPos, i)
  else if !(unusedOk f.d d && unusedOk f.a a && unusedOk f.b b) then .error (.illResvField, i)
  else match (useCause f.d d (xr && f.d.xregOk) hd budget).or ((useCause f.a a (xr && f.a.xregOk) ha budget).or
      (useCause f.b b (xr && f.b.xregOk) hb budget)) with
  | some e => .error (e, i)
  | Option.none =>
  if kDestBad f d a b then .error (.illOperand, i)
  else
    let lits := rest.take (nA + nB + nD)
    let fs : Fields :=
      { d := d, a := a, b := b,
        oA := operandOf a (xr && f.a.xregOk) ha (lits.getD 0 0),
        oB := operandOf b (xr && f.b.xregOk) hb (lits.getD nA 0),
        oD := operandOf d (xr && f.d.xregOk) hd (lits.getD (nA + nB) 0),
        g := guardOf x, pfx := p }
    match f.build fs with
    | Option.none => .error (.illOperand, i)
    | some ins =>
      if !(alignOk f.d d && alignOk f.a a && alignOk f.b b) then .error (.illAlignReg, i)
      else if decide (rest.length < nA + nB + nD) then .error (.illLiteral, i)
      else if f.deliver && noA then .error (.illFlag, i)
      else .ok { instr := ins, at_ := i, len := i + 1 + (nA + nB + nD) }

/-- Decodes a format B word (R167): no prefix may precede it, and it ends its clause. -/
def decodeB (p : Pfx) (i : Nat) (x : Word) (rest : List Word) : Except (Cause × Nat) InstrGroup :=
  let off := BitVec.ofNat 22 (fieldOf x 25 4)
  let mk : Option Instr :=
    match fieldOf x 28 26 with
    | 0 => some (.bra off (guardOf x))
    | 1 => some (.call off (guardOf x))
    | 2 => some (.brau off (guardOf x))
    | _ => Option.none
  match mk with
  | Option.none => .error (.illOpcode, i)
  | some ins =>
    if p.kinds ≠ [] then .error (.illPrefix, 0)
    else if rest ≠ [] then .error (.illBranchPos, i)
    else .ok { instr := ins, at_ := i, len := i + 1 }

/-- Decodes a format X word (R168, R292). -/
def decodeXF (p : Pfx) (i : Nat) (x : Word) (noA : Bool) : Except (Cause × Nat) InstrGroup :=
  if p.kinds ≠ [] then .error (.illPrefix, 0)
  else match fin? 7 (fieldOf x 10 8), fin? 7 (fieldOf x 7 5) with
    | some wa, some wb =>
      if noA then .error (.illFlag, i)
      else .ok { instr := .xmma (Fin.ofNat 128 (fieldOf x 29 23)) (Fin.ofNat 256 (fieldOf x 22 15))
                   (Fin.ofNat 16 (fieldOf x 14 11)) wa wb (fieldOf x 4 4 = 1) (guardOf x),
                 at_ := i, len := i + 1 }
    | _, _ => .error (.matrixFormat, i)

/-- Decodes the instruction group at the head of a clause's remaining words (R163, R173): class, the words,
the register budget of the issuing group's role, and whether the header names no flag A. -/
def decodeGroup (c : Cls) (ws : List Word) (budget : Nat) (noA : Bool) : Except (Cause × Nat) InstrGroup :=
  match readPfx ws 0 Pfx.none with
  | .error e => .error e
  | .ok (_, i, []) => .error (.illOpcode, i)
  | .ok (p, i, x :: rest) =>
    if c = .S ∧ fieldOf x 31 29 = 4 then decodeB p i x rest
    else if c = .X ∧ fieldOf x 31 30 = 0 then decodeXF p i x noA
    else match formOf c (fieldOf x 31 22) (fieldOf x 9 4) with
      | Option.none => .error (.illOpcode, i)
      | some f => decodeA c f p i x rest budget noA

/-! ## The encoder -/

/-- A field of an instruction as syntax: unused, an operand under its use, or a raw number. -/
inductive FieldVal where
  | none
  | opnd (u : Use) (o : Operand)
  | raw (n : Nat)
  deriving DecidableEq, Repr

/-- An instruction word taken apart: class, opcode, fields, guard and prefix payloads. -/
structure Shape where
  cls   : Cls
  op    : Nat
  d     : FieldVal
  a     : FieldVal
  b     : FieldVal
  g     : Guard
  rnd   : Option RMode
  smod  : SMod
  cache : CacheP
  ord   : Option Ord
  deriving DecidableEq, Repr

/-- A shape without prefixes. -/
def Shape.of (c : Cls) (op : Nat) (d a b : FieldVal) (g : Guard) : Shape :=
  { cls := c, op := op, d := d, a := a, b := b, g := g, rnd := Option.none, smod := SMod.none,
    cache := CacheP.none, ord := Option.none }

/-- V-class op d, a, b. -/
def Shape.v3 (op : Nat) (d a b : Operand) (g : Guard) : Shape :=
  Shape.of .V op (.opnd (.dst 1) d) (.opnd (.src 1) a) (.opnd (.src 1) b) g
/-- V-class op d, a. -/
def Shape.v2 (op : Nat) (d a : Operand) (g : Guard) : Shape :=
  Shape.of .V op (.opnd (.dst 1) d) (.opnd (.src 1) a) .none g
/-- V-class op d, a with a d that is w or z. -/
def Shape.v2W (op : Nat) (d a : Operand) (g : Guard) : Shape :=
  Shape.of .V op (.opnd (.dstW 1) d) (.opnd (.src 1) a) .none g
/-- V-class op with a predicate destination and two operands. -/
def Shape.vp (op : Nat) (d : Fin 7) (a b : Operand) (g : Guard) : Shape :=
  Shape.of .V op (.raw d) (.opnd (.src 1) a) (.opnd (.src 1) b) g
/-- PSETP. -/
def Shape.vps (op : Nat) (d : Fin 7) (a b : Fin 8) (g : Guard) : Shape :=
  Shape.of .V op (.raw d) (.raw a) (.raw b) g

/-- ISETP opcodes. -/
def ICmp.op : ICmp → Nat
  | .eq => 0x080 | .ne => 0x081 | .ltS => 0x082 | .leS => 0x083 | .ltN => 0x084 | .leN => 0x085
/-- SHFL opcodes. -/
def ShflMode.op : ShflMode → Nat
  | .idx => 0x0C0 | .up => 0x0C1 | .down => 0x0C2 | .xor => 0x0C3
/-- LD size offsets. -/
def LdSize.code : LdSize → Nat
  | .b8 => 0 | .s8 => 1 | .b16 => 2 | .s16 => 3 | .b32 => 4 | .b64 => 5 | .b128 => 6
/-- ST size offsets. -/
def StSize.code : StSize → Nat
  | .b8 => 0 | .b16 => 1 | .b32 => 2 | .b64 => 3 | .b128 => 4
/-- LDK size offsets. -/
def LdkSize.code : LdkSize → Nat
  | .b32 => 0 | .b64 => 1 | .b128 => 2
/-- Typed space codes. -/
def TSpace.code : TSpace → Nat
  | .W => 0 | .A => 1 | .C => 2
/-- Read-modify-write offsets. -/
def RmwOp.code : RmwOp → Nat
  | .addN32 => 0 | .addN64 => 1 | .minS => 2 | .minN => 3 | .maxS => 4 | .maxN => 5 | .and => 6 | .or => 7
  | .xor => 8 | .exchB32 => 9 | .exchB64 => 10 | .casB32 => 11 | .casB64 => 12 | .inc => 13 | .dec => 14
  | .faddF32 => 15 | .faddB2 => 16
/-- CMAINT action codes. -/
def CmAction.code : CmAction → Nat
  | .wb => 0 | .inv => 1 | .wbinv => 2

/-- The shape of a format A instruction; none for format B, format X and events. -/
def Instr.shape : Instr → Option Shape
  | .iadd d a b g => some (Shape.v3 0x000 d a b g)
  | .iaddSat d a b g => some (Shape.v3 0x001 d a b g)
  | .isub d a b g => some (Shape.v3 0x002 d a b g)
  | .isubSat d a b g => some (Shape.v3 0x003 d a b g)
  | .imul d a b g => some (Shape.v3 0x004 d a b g)
  | .imulhS d a b g => some (Shape.v3 0x005 d a b g)
  | .imulhN d a b g => some (Shape.v3 0x006 d a b g)
  | .imad d a b g => some (Shape.v3 0x007 d a b g)
  | .imadwN d a b g => some (Shape.of .V 0x008 (.opnd (.dst 2) d) (.opnd (.src 1) a) (.opnd (.src 1) b) g)
  | .imadwS d a b g => some (Shape.of .V 0x009 (.opnd (.dst 2) d) (.opnd (.src 1) a) (.opnd (.src 1) b) g)
  | .iadd64 d a b g => some (Shape.of .V 0x00A (.opnd (.dst 2) d) (.opnd (.src 2) a) (.opnd (.src 2) b) g)
  | .isub64 d a b g => some (Shape.of .V 0x00B (.opnd (.dst 2) d) (.opnd (.src 2) a) (.opnd (.src 2) b) g)
  | .iminS d a b g => some (Shape.v3 0x00C d a b g)
  | .iminN d a b g => some (Shape.v3 0x00D d a b g)
  | .imaxS d a b g => some (Shape.v3 0x00E d a b g)
  | .imaxN d a b g => some (Shape.v3 0x00F d a b g)
  | .iabs d a g => some (Shape.v2 0x010 d a g)
  | .lea1 d a b g => some (Shape.v3 0x011 d a b g)
  | .lea2 d a b g => some (Shape.v3 0x012 d a b g)
  | .lea3 d a b g => some (Shape.v3 0x013 d a b g)
  | .lea4 d a b g => some (Shape.v3 0x014 d a b g)
  | .lea64 d a b g => some (Shape.of .V 0x015 (.opnd (.dst 2) d) (.opnd (.src 2) a) (.opnd (.src 1) b) g)
  | .idp4S d a b g => some (Shape.v3 0x016 d a b g)
  | .idp4N d a b g => some (Shape.v3 0x017 d a b g)
  | .idp2S d a b g => some (Shape.v3 0x018 d a b g)
  | .and d a b g => some (Shape.v3 0x040 d a b g)
  | .or d a b g => some (Shape.v3 0x041 d a b g)
  | .xor d a b g => some (Shape.v3 0x042 d a b g)
  | .andn d a b g => some (Shape.v3 0x043 d a b g)
  | .orn d a b g => some (Shape.v3 0x044 d a b g)
  | .not d a g => some (Shape.v2 0x045 d a g)
  | .shl d a b g => some (Shape.v3 0x046 d a b g)
  | .shr d a b g => some (Shape.v3 0x047 d a b g)
  | .sar d a b g => some (Shape.v3 0x048 d a b g)
  | .fshl d a b g => some (Shape.v3 0x049 d a b g)
  | .fshr d a b g => some (Shape.v3 0x04A d a b g)
  | .bfeN d a b g => some (Shape.v3 0x04B d a b g)
  | .bfeS d a b g => some (Shape.v3 0x04C d a b g)
  | .bfi d a b g => some (Shape.v3 0x04D d a b g)
  | .brev d a g => some (Shape.v2 0x04E d a g)
  | .popc d a g => some (Shape.v2 0x04F d a g)
  | .clz d a g => some (Shape.v2 0x050 d a g)
  | .ctz d a g => some (Shape.v2 0x051 d a g)
  | .prmt d a b g => some (Shape.v3 0x052 d a b g)
  | .isetp cc d a b g => some (Shape.vp cc.op d a b g)
  | .psetpAnd d a b g => some (Shape.vps 0x086 d a b g)
  | .psetpOr d a b g => some (Shape.vps 0x087 d a b g)
  | .psetpXor d a b g => some (Shape.vps 0x088 d a b g)
  | .psetpAndn d a b g => some (Shape.vps 0x089 d a b g)
  | .sel d a b g => some (Shape.v3 0x08A d a b g)
  | .mov d a g => some (Shape.v2 0x08B d a g)
  | .prdw d g => some (Shape.of .V 0x08C (.opnd (.dstW 1) d) .none .none g)
  | .pwrw a g => some (Shape.of .V 0x08D .none (.opnd (.src 1) a) .none g)
  | .w2k d a b g => some (Shape.of .V 0x08E (.opnd (.dstK 1) (.k d)) (.opnd (.src 1) a) (.opnd (.uni 1) b) g)
  | .osq d (.inl a) g => some (Shape.of .V 0x08F (.opnd (.dstK 1) (.k d)) (.opnd (.src 1) a) (.raw 0) g)
  | .osq d (.inr p) g => some (Shape.of .V 0x08F (.opnd (.dstK 1) (.k d)) (.raw p) (.raw 1) g)
  | .shfl m d a b g => some (Shape.of .V m.op (.opnd (.dstW 1) d) (.opnd (.src 1) a) (.opnd (.src 1) b) g)
  | .voteAll d a g => some (Shape.of .V 0x0C4 (.raw d) (.raw a) .none g)
  | .voteAny d a g => some (Shape.of .V 0x0C5 (.raw d) (.raw a) .none g)
  | .voteBal d a g => some (Shape.of .V 0x0C6 (.opnd (.dst 1) d) (.raw a) .none g)
  | .redaddS d a g => some (Shape.v2W 0x0C7 d a g)
  | .redminS d a g => some (Shape.v2W 0x0C8 d a g)
  | .redminN d a g => some (Shape.v2W 0x0C9 d a g)
  | .redmaxS d a g => some (Shape.v2W 0x0CA d a g)
  | .redmaxN d a g => some (Shape.v2W 0x0CB d a g)
  | .redminiN d a b g => some (Shape.of .V 0x0CC (.opnd (.dstW 2) d) (.opnd (.src 1) a) (.opnd (.src 1) b) g)
  | .redmaxiN d a b g => some (Shape.of .V 0x0CD (.opnd (.dstW 2) d) (.opnd (.src 1) a) (.opnd (.src 1) b) g)
  | .redaddF32 d a g => some (Shape.v2W 0x0CE d a g)
  | .redminF32 d a g => some (Shape.v2W 0x0CF d a g)
  | .redmaxF32 d a g => some (Shape.v2W 0x0D0 d a g)
  | .fadd m r d a b g => some ({ Shape.v3 0x100 d a b g with smod := m, rnd := r })
  | .fsub m r d a b g => some ({ Shape.v3 0x101 d a b g with smod := m, rnd := r })
  | .fmul m r d a b g => some ({ Shape.v3 0x102 d a b g with smod := m, rnd := r })
  | .ffma m r d a b g => some ({ Shape.v3 0x103 d a b g with smod := m, rnd := r })
  | .fldexp m r d a b g => some ({ Shape.v3 0x10C d a b g with smod := m, rnd := r })
  | .fldxa m r d a b g => some ({ Shape.v3 0x10D d a b g with smod := m, rnd := r })
  | .faddH2 m r d a b g => some ({ Shape.v3 0x110 d a b g with smod := m, rnd := r })
  | .fmulH2 m r d a b g => some ({ Shape.v3 0x111 d a b g with smod := m, rnd := r })
  | .ffmaH2 m r d a b g => some ({ Shape.v3 0x112 d a b g with smod := m, rnd := r })
  | .faddB2 m r d a b g => some ({ Shape.v3 0x115 d a b g with smod := m, rnd := r })
  | .fmulB2 m r d a b g => some ({ Shape.v3 0x116 d a b g with smod := m, rnd := r })
  | .ffmaB2 m r d a b g => some ({ Shape.v3 0x117 d a b g with smod := m, rnd := r })
  | .fdp2H2 m r d a b g => some ({ Shape.v3 0x118 d a b g with smod := m, rnd := r })
  | .fdp2B2 m r d a b g => some ({ Shape.v3 0x119 d a b g with smod := m, rnd := r })
  | .fmin m d a b g => some ({ Shape.v3 0x104 d a b g with smod := m })
  | .fmax m d a b g => some ({ Shape.v3 0x105 d a b g with smod := m })
  | .fminH2 m d a b g => some ({ Shape.v3 0x113 d a b g with smod := m })
  | .fmaxH2 m d a b g => some ({ Shape.v3 0x114 d a b g with smod := m })
  | .fsetpEq m d a b g => some ({ Shape.vp 0x106 d a b g with smod := m })
  | .fsetpNe m d a b g => some ({ Shape.vp 0x107 d a b g with smod := m })
  | .fsetpLt m d a b g => some ({ Shape.vp 0x108 d a b g with smod := m })
  | .fsetpLe m d a b g => some ({ Shape.vp 0x109 d a b g with smod := m })
  | .fsetpNan m d a b g => some ({ Shape.vp 0x10A d a b g with smod := m })
  | .frnd m r d a g => some ({ Shape.v2 0x10B d a g with smod := m, rnd := r })
  | .frcp m d a g => some ({ Shape.v2 0x120 d a g with smod := m })
  | .frsq m d a g => some ({ Shape.v2 0x121 d a g with smod := m })
  | .fsqrt m d a g => some ({ Shape.v2 0x122 d a g with smod := m })
  | .fex2 m d a g => some ({ Shape.v2 0x123 d a g with smod := m })
  | .flg2 m d a g => some ({ Shape.v2 0x124 d a g with smod := m })
  | .fsin m d a g => some ({ Shape.v2 0x125 d a g with smod := m })
  | .fcos m d a g => some ({ Shape.v2 0x126 d a g with smod := m })
  | .ftanh m d a g => some ({ Shape.v2 0x127 d a g with smod := m })
  | .cvtF32I32 r d a g => some ({ Shape.v2 0x140 d a g with rnd := r })
  | .cvtF32N32 r d a g => some ({ Shape.v2 0x141 d a g with rnd := r })
  | .cvtI32F32 r d a g => some ({ Shape.v2 0x142 d a g with rnd := r })
  | .cvtN32F32 r d a g => some ({ Shape.v2 0x143 d a g with rnd := r })
  | .cvtH2F32 r d a b g => some ({ Shape.v3 0x144 d a b g with rnd := r })
  | .cvtB2F32 r d a b g => some ({ Shape.v3 0x145 d a b g with rnd := r })
  | .cvtE4X2F32 r d a b g => some ({ Shape.v3 0x14A d a b g with rnd := r })
  | .cvtE5X2F32 r d a b g => some ({ Shape.v3 0x14B d a b g with rnd := r })
  | .cvtF32HL d a g => some (Shape.v2 0x146 d a g)
  | .cvtF32HH d a g => some (Shape.v2 0x147 d a g)
  | .cvtF32BL d a g => some (Shape.v2 0x148 d a g)
  | .cvtF32BH d a g => some (Shape.v2 0x149 d a g)
  | .cvtF32E4 d a b g => some (Shape.v3 0x14C d a b g)
  | .cvtF32E5 d a b g => some (Shape.v3 0x14D d a b g)
  | .cvtb c r d a b g => some ({ Shape.of .V (0x160 + c) (.opnd (.dstW 1) d) (.opnd (.src 1) a) (.opnd (.dstK 1) (.k b)) g with rnd := r })
  | .dqb d a b g => some (Shape.v3 0x167 d a b g)
  | .bpack c d a g => some (Shape.v2W (0x168 + c) d a g)
  | .bunpk c d a g => some (Shape.v2W (0x170 + c) d a g)
  | .ld sz c o d a b g => some ({ Shape.of .M sz.code (.opnd (.dstW sz.regs) d) (.opnd (.src 2) a) (.opnd (.src 1) b) g with cache := c, ord := o })
  | .st sz c o d a b g => some ({ Shape.of .M (0x010 + sz.code) (.opnd (.src sz.regs) d) (.opnd (.src 2) a) (.opnd (.src 1) b) g with cache := c, ord := o })
  | .lds sz d a b g => some (Shape.of .M (0x020 + sz.code) (.opnd (.dstW sz.regs) d) (.opnd (.src 2) a) (.opnd (.src 1) b) g)
  | .sts sz d a b g => some (Shape.of .M (0x030 + sz.code) (.opnd (.src sz.regs) d) (.opnd (.src 2) a) (.opnd (.src 1) b) g)
  | .ldk sz c d a b g => some ({ Shape.of .M (0x040 + sz.code) (.opnd (.dstK sz.regs) (.k d)) (.opnd (.uni 2) a) (.opnd (.uni 1) b) g with cache := c })
  | .ldt sp wd d a b g => some (Shape.of .M (0x050 + 2 * sp.code + (if wd then 1 else 0)) (.opnd (.dstW (if wd then 4 else 1)) d) (.opnd (.src 2) a) (.opnd (.src 1) b) g)
  | .stt sp wd d a b g => some (Shape.of .M (0x056 + 2 * sp.code + (if wd then 1 else 0)) (.opnd (.src (if wd then 4 else 1)) d) (.opnd (.src 2) a) (.opnd (.src 1) b) g)
  | .atom op o d a b g => some ({ Shape.of .M (0x080 + op.code) (.opnd (.dstW op.regs) d) (.opnd (.src 2) a) (.opnd (.src op.regs) b) g with ord := o })
  | .red op o a b g => some ({ Shape.of .M (0x0A0 + op.code) .none (.opnd (.src 2) a) (.opnd (.src op.regs) b) g with ord := o })
  | .atoms op o d a b g => some ({ Shape.of .M (0x0C0 + op.code) (.opnd (.dstW op.regs) d) (.opnd (.src 2) a) (.opnd (.src op.regs) b) g with ord := o })
  | .fence sc sm g => some (Shape.of .M 0x100 (.raw sc.code) (.raw sm.code) .none g)
  | .pref l c a b g => some ({ Shape.of .M 0x110 (.raw l) (.opnd (.src 2) a) (.opnd (.src 1) b) g with cache := c })
  | .cmaint act sc g => some (Shape.of .M 0x118 (.raw act.code) (.raw sc.code) .none g)
  | .barpa d a b g => some (Shape.of .M 0x120 (.opnd (.dstW 1) d) (.opnd (.src 2) a) (.opnd (.src 1) b) g)
  | .barpw d a b g => some (Shape.of .M 0x121 (.opnd (.src 1) d) (.opnd (.src 2) a) (.opnd (.src 1) b) g)
  | .xzero t g => some (Shape.of .X 0x100 (.raw t) .none .none g)
  | .xreq r t q c g => some ({ Shape.of .X 0x101 (.raw t) (.raw q) (.raw c) g with rnd := r })
  | .xosq d sp b g => some (Shape.of .X 0x102 (.opnd (.dstK 1) (.k d)) (.raw sp.code) (.opnd (.uni 1) b) g)
  | .cpy c a g => some ({ Shape.of .C 0x000 .none (.opnd (.uni 1) a) .none g with cache := c })
  | .cpyg c a g => some ({ Shape.of .C 0x001 .none (.opnd (.uni 1) a) .none g with cache := c })
  | .cpys c a g => some ({ Shape.of .C 0x002 .none (.opnd (.uni 1) a) .none g with cache := c })
  | .cpyq c r a g => some ({ Shape.of .C 0x003 .none (.opnd (.uni 1) a) .none g with cache := c, rnd := r })
  | .rres d r g => some (Shape.of .C 0x010 (.opnd (.dstWK 1) d) (.raw r) .none g)
  | .rclm d r g => some (Shape.of .C 0x012 (.opnd (.dstWK 1) d) (.raw r) .none g)
  | .rctr d r g => some (Shape.of .C 0x014 (.opnd (.dstWK 1) d) (.raw r) .none g)
  | .rpub r b g => some (Shape.of .C 0x011 .none (.raw r) (.opnd (.uni 1) b) g)
  | .rrel r b g => some (Shape.of .C 0x013 .none (.raw r) (.opnd (.uni 1) b) g)
  | .msgp c a b g => some (Shape.of .C 0x020 (.raw c) (.opnd (.uni 1) a) (.opnd (.uni 1) b) g)
  | .msgs c a b g => some (Shape.of .C 0x021 (.raw c) (.opnd (.uni 1) a) (.opnd (.uni 1) b) g)
  | .msgc d a g => some (Shape.of .C 0x022 (.opnd (.dstWK 1) d) (.opnd (.uni 1) a) .none g)
  | .ptld p a c g => some (Shape.of .C 0x030 (.raw p) (.opnd (.uni 1) a) (.raw c) g)
  | .nop g => some (Shape.of .S 0x000 .none .none .none g)
  | .exit g => some (Shape.of .S 0x001 .none .none .none g)
  | .ret g => some (Shape.of .S 0x002 .none .none .none g)
  | .yield g => some (Shape.of .S 0x004 .none .none .none g)
  | .brk g => some (Shape.of .S 0x006 .none .none .none g)
  | .rgne g => some (Shape.of .S 0x012 .none .none .none g)
  | .joinc g => some (Shape.of .S 0x031 .none .none .none g)
  | .brx a g => some (Shape.of .S 0x003 .none (.opnd (.src 2) a) .none g)
  | .trap c g => some (Shape.of .S 0x005 .none .none (.raw c) g)
  | .tretNext g => some (Shape.of .S 0x007 .none .none (.raw 0) g)
  | .tretRetry g => some (Shape.of .S 0x007 .none .none (.raw 1) g)
  | .rgn d m nra g => some (Shape.of .S 0x010 (.raw d) (.opnd (.uni 1) m) (.raw (if nra then 1 else 0)) g)
  | .rgnr d m nra g => some (Shape.of .S 0x011 (.raw d) (.opnd (.uni 1) m) (.raw (if nra then 1 else 0)) g)
  | .waitf f t g => some (Shape.of .S 0x018 (.raw f) (.raw t) .none g)
  | .bars b g => some (Shape.of .S 0x020 (.raw b) .none .none g)
  | .bara b g => some (Shape.of .S 0x021 (.raw b) .none .none g)
  | .barw b g => some (Shape.of .S 0x022 (.raw b) .none .none g)
  | .bard b g => some (Shape.of .S 0x023 (.raw b) .none .none g)
  | .launch d a b g => some (Shape.of .S 0x030 (.opnd (.dstWK 2) d) (.opnd (.src 2) a) (.opnd (.src 1) b) g)
  | .migr a g => some (Shape.of .S 0x038 .none (.opnd (.src 2) a) .none g)
  | .rdsr d n g => some (Shape.of .S 0x040 (.opnd (.dstWK 1) d) (.raw n) .none g)
  | .wrsr n b g => some (Shape.of .S 0x041 .none (.raw n) (.opnd (.src 1) b) g)
  | .mark p g => some (Shape.of .S 0x048 (.raw p) .none .none g)
  | _ => Option.none

/-- The 6-bit code of an operand (Table 3.2); a main register gives its low five bits. -/
def Operand.code : Operand → Nat
  | .w n => n
  | .k n => 32 + n
  | .z => 62
  | .lit _ => 63
  | .v n => n % 32

/-- The high part XREG gives an operand (R73). -/
def Operand.high : Operand → Nat
  | .v n => n / 32
  | _ => 0

/-- Whether an operand needs XREG. -/
def Operand.isV : Operand → Bool
  | .v _ => true
  | _ => false

/-- The code a field holds. -/
def FieldVal.code : FieldVal → Nat
  | .none => 0
  | .opnd _ o => o.code
  | .raw n => n

/-- The high part a field needs. -/
def FieldVal.high : FieldVal → Nat
  | .opnd _ o => o.high
  | _ => 0

/-- Whether a field needs XREG. -/
def FieldVal.isV : FieldVal → Bool
  | .opnd _ o => o.isV
  | _ => false

/-- The literal word a field needs. -/
def FieldVal.lit : FieldVal → List Word
  | .opnd _ (.lit x) => [x]
  | _ => []

/-- The guard's four bits. -/
def Guard.code (g : Guard) : Nat := 2 * g.pred + (if g.neg then 1 else 0)

/-- A prefix word from its opcode and payload bits [21:0]. -/
def pfxWord (op payload : Nat) : Word := BitVec.ofNat 32 (op * 2 ^ 22 + payload)

/-- The prefix words of a shape, in the order of Table 7.5. -/
def Shape.prefixes (s : Shape) : List Word :=
  (if s.d.isV || s.a.isV || s.b.isV then
    [pfxWord 0x3F8 (s.d.high * 2 ^ 19 + s.a.high * 2 ^ 16 + s.b.high * 2 ^ 13)] else []) ++
  (match s.rnd with | some m => [pfxWord 0x3F9 (m.code * 2 ^ 4)] | Option.none => []) ++
  (if s.smod = SMod.none then [] else
    [pfxWord 0x3FA ((if s.smod.sat then 2 ^ 8 else 0) + (if s.smod.absB then 2 ^ 7 else 0) +
      (if s.smod.negB then 2 ^ 6 else 0) + (if s.smod.absA then 2 ^ 5 else 0) + (if s.smod.negA then 2 ^ 4 else 0))]) ++
  (if s.cache = CacheP.none then [] else
    [pfxWord 0x3FB ((if s.cache.noL2 then 2 ^ 8 else 0) + s.cache.pcls * 2 ^ 6 + s.cache.l1 * 2 ^ 4)]) ++
  (match s.ord with | some o => [pfxWord 0x3FC (o.sem.code * 2 ^ 7 + o.scope.code * 2 ^ 4)] | Option.none => [])

/-- The instruction word of a shape (Table 7.2). -/
def Shape.word (s : Shape) : Word :=
  BitVec.ofNat 32 (s.op * 2 ^ 22 + s.d.code * 2 ^ 16 + s.a.code * 2 ^ 10 + s.b.code * 2 ^ 4 + s.g.code)

/-- A format B word (Table 7.3). -/
def branchWord (kind : Nat) (off : BitVec 22) (g : Guard) : Word :=
  BitVec.ofNat 32 (4 * 2 ^ 29 + kind * 2 ^ 26 + off.toNat * 2 ^ 4 + g.code)

/-- The words of an instruction group: prefixes, instruction word, literals for A, B and D (R68, R163). An event
has none. -/
def encode (i : Instr) : List Word :=
  match i with
  | .bra off g => [branchWord 0 off g]
  | .call off g => [branchWord 1 off g]
  | .brau off g => [branchWord 2 off g]
  | .xmma aq bs ct wa wb z g =>
    [BitVec.ofNat 32 (aq * 2 ^ 23 + bs * 2 ^ 15 + ct * 2 ^ 11 + wa * 2 ^ 8 + wb * 2 ^ 5 +
      (if z then 2 ^ 4 else 0) + g.code)]
  | i => match i.shape with
    | some s => s.prefixes ++ [s.word] ++ s.a.lit ++ s.b.lit ++ s.d.lit
    | Option.none => []

/-- The class whose clauses hold an instruction (R175); none for an event. -/
def Instr.cls (i : Instr) : Option Cls :=
  match i with
  | .bra _ _ | .call _ _ | .brau _ _ => some .S
  | .xmma _ _ _ _ _ _ _ => some .X
  | i => i.shape.map (·.cls)

/-! ## Words of the opcode table -/

/-- The class in which a bare word of the table is read. A word has no class of its own (R158), so the same bits
are a word of several rows; of the classes whose rows' fixed bits it has, the one with the most fixed bits is
taken, and the order V, S, M, C, X decides among equals; a class in which the word decodes goes before one in which it raises a
cause (assumption 6). -/
def tableClass (x : Word) : Cls :=
  let op := fieldOf x 31 22
  let unusedA := if fieldOf x 15 10 = 0 then 6 else 0
  let score (c : Cls) : Nat :=
    if c = .S ∧ fieldOf x 31 29 = 4 then (if fieldOf x 28 26 < 3 then 6 else 0)
    else if c = .X ∧ fieldOf x 31 30 = 0 then 2
    else match formOf c op (fieldOf x 9 4) with
      | Option.none => 0
      | some f =>
        let bad := !(unusedOk f.d (fieldOf x 21 16) && unusedOk f.a (fieldOf x 15 10) && unusedOk f.b (fieldOf x 9 4))
        if bad then 0
        else 10 + (if f.d = .none then 6 else 0) + (if f.a = .none then unusedA else 0) + (if f.b = .none then 6 else 0)
  let ok (c : Cls) : Bool := (decodeGroup c [x] 256 false).toBool || (decodeGroup c [x, 0, 0, 0] 256 false).toBool
  let score (c : Cls) : Nat := if ok c then 100 + score c else score c
  let best (acc : Cls × Nat) (c : Cls) : Cls × Nat := if acc.2 < score c then (c, score c) else acc
  ([Cls.V, Cls.S, Cls.M, Cls.C, Cls.X].foldl best (Cls.V, 0)).1

/-- The words of an instruction given as the bits of its first word and on: 16 words, zeros above. -/
def tableWords (w : Nat) : List Word := (List.range 4).map fun i => BitVec.ofNat 32 (w / 2 ^ (32 * i))

/-- The instruction the decoder reads from a word of the opcode table, in the class `tableClass` names, with
literal words of zeros after it; a branch stands last in its clause. -/
def decodeTableWord (nbits w : Nat) : Option Instr :=
  let x := BitVec.ofNat 32 (w % 2 ^ nbits)
  let c := tableClass x
  match decodeGroup c [x] 256 false with
  | .ok g => some g.instr
  | .error _ =>
    match decodeGroup c (tableWords (w % 2 ^ nbits)) 256 false with
    | .ok g => some g.instr
    | .error _ => Option.none

end Sys2Proof
end

