-- ==== Sys2Proof/Machine/Bits.lean ====
section
/-! DEFINITION. The small operations every other file uses: sparse tables, lists of lanes, bytes and bit fields
(00_scope.md R3, R4, Table 0.3). -/

namespace Sys2Proof.Machine

/-! ## Sparse tables -/

/-- The value under a key. -/
def Map.find? {α : Type} (m : Map α) (k : Nat) : Option α :=
  match m with
  | [] => none
  | (j, x) :: rest => if j = k then some x else if k < j then none else Map.find? rest k

/-- The value under a key, or the default of the table. -/
def Map.get {α : Type} (m : Map α) (k : Nat) (d : α) : α := (Map.find? m k).getD d

/-- Writes the value under a key, keeping keys strictly rising. -/
def Map.put {α : Type} (m : Map α) (k : Nat) (x : α) : Map α :=
  match m with
  | [] => [(k, x)]
  | (j, y) :: rest =>
    if k < j then (k, x) :: (j, y) :: rest
    else if j = k then (k, x) :: rest
    else (j, y) :: Map.put rest k x

/-- Removes a key. -/
def Map.del {α : Type} (m : Map α) (k : Nat) : Map α :=
  match m with
  | [] => []
  | (j, y) :: rest => if j = k then rest else if k < j then (j, y) :: rest else (j, y) :: Map.del rest k

/-- Changes the value under a key, from the default where there is none. -/
def Map.upd {α : Type} (m : Map α) (k : Nat) (d : α) (f : α → α) : Map α := Map.put m k (f (Map.get m k d))

/-- Whether a key is listed. -/
def Map.has {α : Type} (m : Map α) (k : Nat) : Bool := (Map.find? m k).isSome

/-- The keys listed. -/
def Map.keys {α : Type} (m : Map α) : List Nat := m.map (·.1)

/-- Keys strictly rise. -/
def Map.wf {α : Type} (m : Map α) : Bool :=
  match m with
  | [] => true
  | (j, _) :: rest => (rest.all fun p => decide (j < p.1)) && Map.wf rest

/-- Changes a listed value; an unlisted key stays unlisted. -/
def Map.mod {α : Type} (m : Map α) (k : Nat) (f : α → α) : Map α :=
  match m with
  | [] => []
  | (j, y) :: rest => if j = k then (j, f y) :: rest else (j, y) :: Map.mod rest k f

/-- A table of counts: adds 1 to a key. -/
def Map.bump (m : Map Nat) (k : Nat) : Map Nat := Map.put m k (Map.get m k 0 + 1)

/-- The lowest number from `start` that is not a key, looking at most `n` further. -/
def Map.fresh {α : Type} (m : Map α) (start n : Nat) : Option Nat :=
  match n with
  | 0 => none
  | n + 1 => if Map.has m start then Map.fresh m (start + 1) n else some start

/-! ## Lanes -/

/-- The value at a lane position. -/
def laneGet {α : Type} (xs : Lanes α) (l : Nat) (d : α) : α := (xs[l]?).getD d

/-- Writes the value at a lane position. -/
def laneSet {α : Type} (xs : Lanes α) (l : Nat) (x : α) : Lanes α := xs.setIfInBounds l x

/-- 32 lanes of one value. -/
def lanesOf {α : Type} (x : α) : Lanes α := Vector.replicate 32 x

/-- A register whose 32 lanes are 0. -/
def zeroLanes : Lanes Word := lanesOf 0

/-! ## Bits, words and bytes -/

/-- bits(x, hi, lo) of a number (Table 0.3). -/
def bitsOf (x hi lo : Nat) : Nat := (x / 2 ^ lo) % 2 ^ (hi + 1 - lo)

/-- One bit of a number. -/
def bitOf (x i : Nat) : Bool := x.testBit i

/-- sext(x, n) (Table 0.3). -/
def sextOf (x n : Nat) : Int := if x.testBit (n - 1) then (x % 2 ^ n : Nat) - (2 ^ n : Nat) else (x % 2 ^ n : Nat)

/-- A word from a number, modulo 2^32. -/
def word (x : Nat) : Word := BitVec.ofNat 32 x

/-- A dword from a number, modulo 2^64. -/
def dword (x : Nat) : Dword := BitVec.ofNat 64 x

/-- A word from an integer, modulo 2^32. -/
def wordI (x : Int) : Word := BitVec.ofInt 32 x

/-- A dword from an integer, modulo 2^64. -/
def dwordI (x : Int) : Dword := BitVec.ofInt 64 x

/-- The low word of a dword. -/
def lo32 (x : Dword) : Word := BitVec.ofNat 32 (x.toNat % 2 ^ 32)

/-- The high word of a dword. -/
def hi32 (x : Dword) : Word := BitVec.ofNat 32 (x.toNat / 2 ^ 32)

/-- A pair of words as a dword, the low word first (R10). -/
def pair (l h : Word) : Dword := BitVec.ofNat 64 (l.toNat + 2 ^ 32 * h.toNat)

/-- A word zero-extended. -/
def zx (x : Word) : Dword := BitVec.ofNat 64 x.toNat

/-- A word sign-extended. -/
def sx (x : Word) : Dword := BitVec.ofInt 64 x.toInt

/-- Little-endian bytes of a number (R4). -/
def bytesOf (n : Nat) (x : Nat) : List Byte :=
  match n with
  | 0 => []
  | n + 1 => BitVec.ofNat 8 (x % 256) :: bytesOf n (x / 256)

/-- The number little-endian bytes hold (R4). -/
def ofBytes (bs : List Byte) : Nat :=
  match bs with
  | [] => 0
  | b :: rest => b.toNat + 256 * ofBytes rest

/-- n bytes of a list from a position, zeros beyond its end. -/
def bytesAt (bs : List Byte) (i n : Nat) : List Byte :=
  (List.range n).map fun j => ((bs[i + j]?).getD 0)

/-- The number n little-endian bytes of a list hold at a position. -/
def fieldAt (bs : List Byte) (i n : Nat) : Nat := ofBytes (bytesAt bs i n)

/-! ## Memory in canonical form (assumption 2) -/

/-- What an unlisted address reads as. -/
def memDefault : Byte := 0

/-- The byte at an address. -/
def Memory.read (m : Memory) (a : Nat) : Byte :=
  match m with
  | [] => memDefault
  | (j, x) :: rest => if j = a then x else if a < j then memDefault else Memory.read rest a

/-- Writes a byte, keeping the canonical form: writing what an unlisted address reads as removes the entry. -/
def Memory.write (m : Memory) (a : Nat) (b : Byte) : Memory :=
  match m with
  | [] => if b = memDefault then [] else [(a, b)]
  | (j, x) :: rest =>
    if a < j then (if b = memDefault then (j, x) :: rest else (a, b) :: (j, x) :: rest)
    else if j = a then (if b = memDefault then rest else (a, b) :: rest)
    else (j, x) :: Memory.write rest a b

/-- Bytes from an address on. -/
def Memory.readN (m : Memory) (a n : Nat) : List Byte := (List.range n).map fun i => Memory.read m (a + i)

/-- Writes bytes from an address on. -/
def Memory.writeN (m : Memory) (a : Nat) (bs : List Byte) : Memory :=
  match bs with
  | [] => m
  | b :: rest => Memory.writeN (Memory.write m a b) (a + 1) rest

/-- The canonical form: addresses strictly rise and no listed byte is the default. -/
def Memory.wf (m : Memory) : Bool :=
  match m with
  | [] => true
  | (j, x) :: rest => decide (x ≠ memDefault) && (rest.all fun p => decide (j < p.1)) && Memory.wf rest

/-- The little-endian number n bytes hold at an address. -/
def Memory.num (m : Memory) (a n : Nat) : Nat := ofBytes (Memory.readN m a n)

/-! ## Lists -/

/-- Distinct numbers, each kept at its first place. -/
def dedup (xs : List Nat) : List Nat :=
  match xs with
  | [] => []
  | x :: rest => x :: (dedup rest).filter (· != x)

/-- Inserts a number into an ascending list without repeats. -/
def insertAsc (x : Nat) (xs : List Nat) : List Nat :=
  match xs with
  | [] => [x]
  | y :: rest => if x < y then x :: y :: rest else if x = y then y :: rest else y :: insertAsc x rest

/-- The numbers of a list in ascending order, each once. -/
def ascending (xs : List Nat) : List Nat := xs.foldr insertAsc []

/-- The least element by a measure, the first among equals. -/
def leastBy {α : Type} (f : α → Nat) (xs : List α) : Option α :=
  match xs with
  | [] => none
  | x :: rest =>
    match leastBy f rest with
    | none => some x
    | some y => if f y < f x then some y else some x

/-- The greatest element by a measure, the first among equals. -/
def mostBy {α : Type} (f : α → Nat) (xs : List α) : Option α :=
  match xs with
  | [] => none
  | x :: rest =>
    match mostBy f rest with
    | none => some x
    | some y => if f x < f y then some y else some x

/-- Replaces the element at a position. -/
def listSet {α : Type} (xs : List α) (i : Nat) (x : α) : List α := xs.set i x

/-- The maximum of a list of numbers; 0 of none. -/
def maxOf (xs : List Nat) : Nat := xs.foldl Nat.max 0

/-- The sum of a list of numbers. -/
def sumOf (xs : List Nat) : Nat := xs.foldl (· + ·) 0

/-- Folds a function that may stop over a list, from the left. -/
def foldE {ε σ α : Type} (f : σ → α → Except ε σ) (x : σ) (ys : List α) : Except ε σ :=
  match ys with
  | [] => .ok x
  | y :: rest =>
    match f x y with
    | .error e => .error e
    | .ok x' => foldE f x' rest

/-- Folds a function that may stop over a list, from the left: what it stops with, if it does, and the state it has come to. -/
def foldStop {ε σ α : Type} (f : σ → α → Except ε σ) (x : σ) (ys : List α) : σ × Option ε :=
  match ys with
  | [] => (x, none)
  | y :: rest =>
    match f x y with
    | .error e => (x, some e)
    | .ok x' => foldStop f x' rest

/-- The parity of the set bits of a number below 2^n. -/
def parityOf (n x : Nat) : Bool :=
  match n with
  | 0 => false
  | n + 1 => (x.testBit n) != parityOf n x

/-- A 64-bit hash of numbers, of the model's own: the spin detector (02_execution.md R33) compares register values by a
hash and the spec gives none (assumption 7). Multiplication by an odd constant and addition, modulo 2^64. -/
def mixHash (h x : Nat) : Nat := ((h + x + 1) * 0x9E3779B97F4A7C15) % 2 ^ 64

end Sys2Proof.Machine
end

