-- ==== Sys2Proof/Machine/Float.lean ====
section
/-! DEFINITION. Floating-point and block arithmetic on bits: exact values, one rounding, flags (04_numbers.md R89 to
R108; 10_isa_float.md R242 to R254). -/

namespace Sys2Proof.Machine

/-! ## Formats and exact values -/

/-- A format of Table 4.2: exponent bits, fraction bits, and whether it is e4m3 (R89). -/
structure FFmt where
  eb : Nat
  fb : Nat
  e4 : Bool
  deriving DecidableEq, Repr

/-- binary32. -/
def fmtF32 : FFmt := { eb := 8, fb := 23, e4 := false }
/-- binary16. -/
def fmtF16 : FFmt := { eb := 5, fb := 10, e4 := false }
/-- bf16. -/
def fmtB16 : FFmt := { eb := 8, fb := 7, e4 := false }
/-- e4m3. -/
def fmtE4 : FFmt := { eb := 4, fb := 3, e4 := true }
/-- e5m2. -/
def fmtE5 : FFmt := { eb := 5, fb := 2, e4 := false }

/-- The bias of a format. -/
def fBias (f : FFmt) : Nat := 2 ^ (f.eb - 1) - 1
/-- Bits of a format below the sign. -/
def fSignBit (f : FFmt) : Nat := 2 ^ (f.eb + f.fb)
/-- The encoding of the largest finite magnitude (Table 4.2). -/
def fMaxBits (f : FFmt) : Nat := if f.e4 then 0x7E else (2 ^ f.eb - 1) * 2 ^ f.fb - 1
/-- The encoding of +∞, where the format has one. -/
def fInfBits (f : FFmt) : Nat := (2 ^ f.eb - 1) * 2 ^ f.fb
/-- The canonical NaN (Table 4.3). -/
def fNaN (f : FFmt) : Nat := if f.e4 then 0x7F else (2 ^ f.eb - 1) * 2 ^ f.fb + 2 ^ (f.fb - 1)
/-- The exponent of the smallest normal. -/
def fEmin (f : FFmt) : Int := 1 - (fBias f : Int)

/-- An exact floating-point value: NaN, an infinity, or (-1)^neg × n × 2^e. -/
inductive FV where
  | nan
  | inf (neg : Bool)
  | fin (neg : Bool) (n : Nat) (e : Int)
  deriving DecidableEq, Repr

/-- The value some bits encode (R89). -/
def unpack (f : FFmt) (x : Nat) : FV :=
  let neg := x.testBit (f.eb + f.fb)
  let e := (x / 2 ^ f.fb) % 2 ^ f.eb
  let m := x % 2 ^ f.fb
  if f.e4 then
    if e = 15 ∧ m = 7 then .nan
    else if e = 0 then .fin neg m (fEmin f - f.fb)
    else .fin neg (2 ^ f.fb + m) ((e : Int) - fBias f - f.fb)
  else if e = 2 ^ f.eb - 1 then (if m = 0 then .inf neg else .nan)
  else if e = 0 then .fin neg m (fEmin f - f.fb)
  else .fin neg (2 ^ f.fb + m) ((e : Int) - fBias f - f.fb)

/-- Flags of Table 4.7. -/
def flNV : Nat := 16
/-- divide-by-zero. -/
def flDZ : Nat := 8
/-- overflow. -/
def flOF : Nat := 4
/-- underflow. -/
def flUF : Nat := 2
/-- inexact. -/
def flNX : Nat := 1

/-! ## Rounding -/

/-- n / 2^d rounded to an integer under a mode, for a value of the given sign (Table 4.4), and whether it was
inexact. -/
def roundShift (m : RMode) (neg : Bool) (n d : Nat) : Nat × Bool :=
  let q := n / 2 ^ d
  let r := n % 2 ^ d
  if r = 0 then (q, false)
  else
    let up : Bool := match m with
      | .rne => decide (2 ^ d < 2 * r) || (decide (2 * r = 2 ^ d) && decide (q % 2 = 1))
      | .rtz => false
      | .rdn => neg
      | .rup => !neg
      | .rna => decide (2 ^ d ≤ 2 * r)
      | .rto => decide (q % 2 = 0)
    (if up then q + 1 else q, true)

/-- n × 2^e rounded to a multiple of 2^q: the multiple, and whether it was inexact. A distance below a quarter of
2^q is a sticky quantity, of which only its being nonzero matters. -/
def roundTo (m : RMode) (neg : Bool) (n : Nat) (e q : Int) : Nat × Bool :=
  if q ≤ e then (n * 2 ^ (e - q).toNat, false)
  else
    let d := (q - e).toNat
    if Nat.log2 n + 2 < d then roundShift m neg 1 2 else roundShift m neg n d

/-- The result of an overflow (Table 4.5), magnitude bits. -/
def overflowMag (f : FFmt) (m : RMode) (neg : Bool) : Nat :=
  if f.e4 then fMaxBits f
  else match m with
    | .rne | .rna => fInfBits f
    | .rtz | .rto => fMaxBits f
    | .rdn => if neg then fInfBits f else fMaxBits f
    | .rup => if neg then fMaxBits f else fInfBits f

/-- rnd of a nonzero value: bits and flags (R93, R94, R97). -/
def rndNZ (f : FFmt) (m : RMode) (neg : Bool) (n : Nat) (e : Int) : Nat × Nat :=
  let s := if neg then fSignBit f else 0
  let top : Int := (Nat.log2 n : Int) + e
  let emin := fEmin f
  if top > (fBias f : Int) + 1 then (s + overflowMag f m neg, flOF ||| flNX)
  else
    let q := max top emin - f.fb
    let (mag, ix) := roundTo m neg n e q
    let bits := (q - (emin - f.fb)).toNat * 2 ^ f.fb + mag
    if bits > fMaxBits f then (s + overflowMag f m neg, flOF ||| flNX)
    else
      let tiny : Bool :=
        decide (top < emin) &&
        (decide (top + 1 < emin) || decide ((roundTo m neg n e (top - f.fb)).1 < 2 ^ (f.fb + 1)))
      (s + bits, (if ix then flNX else 0) ||| (if ix && tiny then flUF else 0))

/-- The bits of a signed zero. -/
def zeroBits (f : FFmt) (neg : Bool) : Nat := if neg then fSignBit f else 0

/-- rnd of an exact value: bits and flags. A NaN gives the canonical NaN; an infinity keeps its sign where the format
has one, and in e4m3 gives the NaN of its sign with invalid (R98). -/
def rndFV (f : FFmt) (m : RMode) (v : FV) : Nat × Nat :=
  match v with
  | .nan => (fNaN f, 0)
  | .inf neg =>
    if f.e4 then ((if neg then 0xFF else 0x7F), flNV)
    else ((if neg then fSignBit f else 0) + fInfBits f, 0)
  | .fin neg 0 _ => (zeroBits f neg, 0)
  | .fin neg n e => rndNZ f m neg n e

/-! ## Exact sums and products -/

/-- Whether a value is NaN. -/
def FV.isNaN : FV → Bool
  | .nan => true
  | _ => false

/-- The value with its sign changed. -/
def FV.flip : FV → FV
  | .nan => .nan
  | .inf s => .inf (!s)
  | .fin s n e => .fin (!s) n e

/-- The value without its sign. -/
def FV.mag : FV → FV
  | .nan => .nan
  | .inf _ => .inf false
  | .fin _ n e => .fin false n e

/-- A signed integer of a sign and a magnitude. -/
def sgnInt (neg : Bool) (n : Nat) : Int := if neg then -(n : Int) else n

/-- An integer times 2^e as a value; an exact zero takes the given sign. -/
def ofDyadic (x : Int) (e : Int) (zneg : Bool) : FV :=
  if x = 0 then .fin zneg 0 e else .fin (decide (x < 0)) x.natAbs e

/-- The exact sum (R94): none where it is undefined. The sign of an exact zero follows the mode. -/
def addFV (m : RMode) (a b : FV) : Option FV :=
  match a, b with
  | .nan, _ | _, .nan => some .nan
  | .inf s, .inf t => if s = t then some (.inf s) else none
  | .inf s, _ => some (.inf s)
  | _, .inf t => some (.inf t)
  | .fin s n e, .fin t k d =>
    let lo := min e d
    let x := sgnInt s (n * 2 ^ (e - lo).toNat) + sgnInt t (k * 2 ^ (d - lo).toNat)
    let zneg := if n = 0 ∧ k = 0 ∧ s = t then s else decide (m = .rdn)
    some (ofDyadic x lo zneg)

/-- The exact product: none where it is undefined. -/
def mulFV (a b : FV) : Option FV :=
  match a, b with
  | .nan, _ | _, .nan => some .nan
  | .inf s, .inf t => some (.inf (s != t))
  | .inf s, .fin t n _ => if n = 0 then none else some (.inf (s != t))
  | .fin s n _, .inf t => if n = 0 then none else some (.inf (s != t))
  | .fin s n e, .fin t k d => some (.fin (s != t) (n * k) (e + d))

/-- x × 2^n; n is taken within ±2000, beyond which every rounding of a format of Table 4.2 gives the same result. -/
def scaleFV (x : FV) (n : Int) : FV :=
  match x with
  | .fin s k e => .fin s k (e + max (-2000) (min 2000 n))
  | v => v

/-- The result of an exact value that may be undefined or have a NaN input (R242). -/
def finishFV (f : FFmt) (m : RMode) (v : Option FV) : Nat × Nat :=
  match v with
  | none => (fNaN f, flNV)
  | some v => rndFV f m v

/-- Whether one of the inputs is NaN: the canonical NaN, with no flag; else the result of v (R242). -/
def guardNaN (f : FFmt) (ins : List FV) (m : RMode) (v : Option FV) : Nat × Nat :=
  if ins.any FV.isNaN then (fNaN f, 0) else finishFV f m v

/-- Sum. -/
def fAdd (f : FFmt) (m : RMode) (x y : FV) : Nat × Nat := guardNaN f [x, y] m (addFV m x y)
/-- Difference. -/
def fSub (f : FFmt) (m : RMode) (x y : FV) : Nat × Nat := guardNaN f [x, y] m (addFV m x y.flip)
/-- Product. -/
def fMul (f : FFmt) (m : RMode) (x y : FV) : Nat × Nat := guardNaN f [x, y] m (mulFV x y)
/-- x × y + c with one rounding. -/
def fFma (f : FFmt) (m : RMode) (x y c : FV) : Nat × Nat :=
  guardNaN f [x, y, c] m ((mulFV x y).bind fun p => addFV m p c)
/-- x × 2^n (FLDEXP). -/
def fLdexp (m : RMode) (x : FV) (n : Int) : Nat × Nat := guardNaN fmtF32 [x] m (some (scaleFV x n))
/-- c + x × 2^n (FLDXA). -/
def fLdxa (m : RMode) (x : FV) (n : Int) (c : FV) : Nat × Nat := guardNaN fmtF32 [x, c] m (addFV m c (scaleFV x n))

/-- The sum of exact values and whether it is undefined: three terms (FDP2, R247). -/
def sum3 (m : RMode) (a b c : FV) : Option FV :=
  (addFV m a b).bind fun x => addFV m x c

/-- c + x0 y0 + x1 y1 with one rounding (R247). The zero sum's sign: +0 in every mode but RDN unless all three
terms are zeros of one sign (R94). -/
def fDp2 (m : RMode) (c x0 y0 x1 y1 : FV) : Nat × Nat :=
  guardNaN fmtF32 [c, x0, y0, x1, y1] m
    (match mulFV x0 y0, mulFV x1 y1 with
     | some p, some q => sum3 m c p q
     | _, _ => none)

/-! ## Order -/

/-- Whether a finite value is less than another, zeros equal. -/
def ltFin (s : Bool) (n : Nat) (e : Int) (t : Bool) (k : Nat) (d : Int) : Bool :=
  let lo := min e d
  decide (sgnInt s (n * 2 ^ (e - lo).toNat) < sgnInt t (k * 2 ^ (d - lo).toNat))

/-- x < y, neither NaN. -/
def ltFV (x y : FV) : Bool :=
  match x, y with
  | .nan, _ | _, .nan => false
  | .inf s, .inf t => s && !t
  | .inf s, .fin _ _ _ => s
  | .fin _ _ _, .inf t => !t
  | .fin s n e, .fin t k d => ltFin s n e t k d

/-- x = y, neither NaN; −0 equals +0. -/
def eqFV (x y : FV) : Bool := !x.isNaN && !y.isNaN && !ltFV x y && !ltFV y x

/-- Sign of a value that is not NaN. -/
def FV.neg : FV → Bool
  | .nan => false
  | .inf s => s
  | .fin s _ _ => s

/-- x before y in the order of FMIN: −0 below +0. -/
def beforeFV (x y : FV) : Bool := ltFV x y || (eqFV x y && x.neg && !y.neg)

/-- FMIN and FMAX on bits of a format (R91, R243): `big` for the larger. -/
def fMinMax (f : FFmt) (big : Bool) (x y : FV) : Nat × Nat :=
  match x, y with
  | .nan, .nan => (fNaN f, 0)
  | .nan, v => (( rndFV f .rne v).1, 0)
  | v, .nan => (( rndFV f .rne v).1, 0)
  | x, y => ((rndFV f .rne (if big then (if beforeFV x y then y else x) else (if beforeFV y x then y else x))).1, 0)

/-! ## Modifiers -/

/-- abs, then neg, of an operand (R240). -/
def modFV (a n : Bool) (x : FV) : FV :=
  let x := if a then x.mag else x
  if n then x.flip else x

/-- sat of a result's bits in a format (R240). -/
def satBits (f : FFmt) (x : Nat) : Nat :=
  match unpack f x with
  | .nan => 0
  | v =>
    let one : FV := .fin false 1 0
    if !ltFV (.fin false 0 0) v then 0
    else if !ltFV v one then (rndFV f .rne one).1
    else x

/-- A result under SMOD's sat bit. -/
def satR (s : Bool) (f : FFmt) (r : Nat × Nat) : Nat × Nat := if s then (satBits f r.1, r.2) else r

/-! ## Integral rounding and conversions -/

/-- The integer a finite value rounds to under a mode, and whether it was inexact (Table 4.4 over the integers). -/
def toIntFV (m : RMode) (neg : Bool) (n : Nat) (e : Int) : Int × Bool :=
  let (q, ix) := if n = 0 then (0, false) else roundTo m neg n e 0
  (sgnInt neg q, ix)

/-- FRND (R245). -/
def fRnd (m : RMode) (x : FV) : Nat × Nat :=
  match x with
  | .fin neg n e =>
    let (q, ix) := toIntFV m neg n e
    if q = 0 then (zeroBits fmtF32 neg, if ix then flNX else 0)
    else ((rndFV fmtF32 .rne (.fin neg q.natAbs 0)).1, if ix then flNX else 0)
  | v => rndFV fmtF32 m v

/-- Conversion to an integer of the range lo to hi (R98, R250). -/
def toRange (m : RMode) (lo hi : Int) (x : FV) : Int × Nat :=
  match x with
  | .nan => (0, flNV)
  | .inf neg => (if neg then lo else hi, flNV)
  | .fin neg n e =>
    if n ≠ 0 ∧ (Nat.log2 n : Int) + e > 40 then (if neg then lo else hi, flNV)
    else
      let (q, ix) := toIntFV m neg n e
      if q < lo then (lo, flNV) else if hi < q then (hi, flNV) else (q, if ix then flNX else 0)

/-- An integer as a value; 0 is +0. -/
def ofInt (x : Int) : FV := .fin (decide (x < 0)) x.natAbs 0

/-- Narrowing of an f32 value (R98). -/
def narrow (f : FFmt) (m : RMode) (x : FV) : Nat × Nat := rndFV f m x

/-- Widening to f32: exact, no flag (R98). -/
def widen (f : FFmt) (x : Nat) : Nat := (rndFV fmtF32 .rne (unpack f x)).1

/-! ## Special functions (R107, R248) -/

/-- Fixed-point fractions have this many bits. -/
def fxP : Nat := 200
/-- ln 2 in fixed point. -/
def fxLn2 : Nat := 0xb17217f7d1cf79abc9e3b39803f2f6af40f343267298b62d8a
/-- π/2 in fixed point. -/
def fxPi2 : Nat := 0x1921fb54442d18469898cc51701b839a252049c1114cf98e804

/-- n × 2^e in fixed point, towards −∞. -/
def toFx (neg : Bool) (n : Nat) (e : Int) : Int :=
  let k := e + fxP
  if 0 ≤ k then sgnInt neg (n * 2 ^ k.toNat)
  else if neg then -((n / 2 ^ (-k).toNat + 1 : Nat) : Int) else (n / 2 ^ (-k).toNat : Nat)

/-- exp of t by its series, t in fixed point: `terms` more terms from the k-th. -/
def expSeries (terms k : Nat) (t term : Int) : Int :=
  match terms with
  | 0 => term
  | n + 1 => term + expSeries n (k + 1) t (term * t / 2 ^ fxP / (k + 1 : Nat))

/-- 2^X for X in fixed point: a mantissa m and exponent with 2^X close to m × 2^e. -/
def exp2Fx (x : Int) : Int × Int :=
  let i := x / 2 ^ fxP
  let f := x % 2 ^ fxP
  (expSeries 45 0 (f * fxLn2 / 2 ^ fxP) (2 ^ fxP), i - fxP)

/-- Fraction bits of log2 by repeated squaring of a mantissa in [1, 2) with 256 fraction bits. -/
def log2Bits (k : Nat) (m acc : Nat) : Nat :=
  match k with
  | 0 => acc
  | k + 1 =>
    let s := m * m / 2 ^ 256
    if 2 ^ 257 ≤ s then log2Bits k (s / 2) (2 * acc + 1) else log2Bits k s (2 * acc)

/-- The alternating series of sin (k = 1) and cos (k = 0) from the term given: `terms` more terms. -/
def trigSeries (terms k : Nat) (x2 term : Int) : Int :=
  match terms with
  | 0 => term
  | n + 1 => term + trigSeries n (k + 2) x2 (-(term * x2 / 2 ^ fxP / ((k + 1) * (k + 2) : Nat)))

/-- sin (`s`) or cos of X in fixed point. -/
def trigFx (s : Bool) (x : Int) : Int :=
  let q := (2 * x + fxPi2) / (2 * fxPi2)
  let r := x - q * fxPi2
  let x2 := r * r / 2 ^ fxP
  let sin := trigSeries 40 1 x2 r
  let cos := trigSeries 40 0 x2 (2 ^ fxP)
  match (q + (if s then 0 else 1)) % 4 with
  | 0 => sin
  | 1 => cos
  | 2 => -sin
  | _ => -cos

/-- The whole square root. -/
def isqrtGo (k : Nat) (n r : Nat) : Nat :=
  match k with
  | 0 => r
  | k + 1 =>
    let t := r + 2 ^ k
    isqrtGo k n (if t * t ≤ n then t else r)

/-- The square root of a positive value with a sticky last bit (exact where it is exact). -/
def sqrtFV (n : Nat) (e : Int) : FV :=
  let odd := e % 2 = 1
  let n := if odd then 2 * n else n
  let e := if odd then e - 1 else e
  let big := n * 2 ^ 80
  let r := isqrtGo 60 big 0
  .fin false (2 * r + (if r * r = big then 0 else 1)) (e / 2 - 41)

/-- The reciprocal of a positive value with a sticky last bit (exact where it is exact). -/
def rcpFV (neg : Bool) (n : Nat) (e : Int) : FV :=
  let q := 2 ^ 100 / n
  .fin neg (2 * q + (if 2 ^ 100 % n = 0 then 0 else 1)) (-e - 101)

/-- A mantissa in fixed point as a value with a sticky bit, so that it never rounds as exact. -/
def stickyFV (x : Int) (e : Int) : FV := .fin (decide (x < 0)) (2 * x.natAbs + 1) (e - 1)

/-- A close value of 2^x. -/
def exp2FV (neg : Bool) (n : Nat) (e : Int) : FV :=
  let (m, k) := exp2Fx (toFx neg n e)
  stickyFV m k

/-- A close value of log2 of a positive value that is no power of two. -/
def log2FV (n : Nat) (e : Int) : FV :=
  let l := Nat.log2 n
  let m := if l ≤ 256 then n * 2 ^ (256 - l) else n / 2 ^ (l - 256)
  stickyFV (((l : Int) + e) * 2 ^ 110 + (log2Bits 110 m 0 : Nat)) (-110)

/-- A close value of tanh x for a positive x of at least 2^-12. -/
def tanhFV (n : Nat) (e : Int) : FV :=
  if (Nat.log2 n : Int) + e ≥ 4 then .fin false (2 ^ 60 - 1) (-60)
  else
    let x := toFx false n e
    let (m, k) := exp2Fx (2 * x * 2 ^ fxP / fxLn2)
    let u := m * 2 ^ (k + fxP).toNat
    stickyFV ((u - 2 ^ fxP) * 2 ^ fxP / (u + 2 ^ fxP)) (-fxP)

/-- Whether a candidate lies within k units in the last place of a close value, less a 2^-16th of one for the
distance of the close value from the exact one. The unit is the spacing of f32 values in the close value's binade (DESIGN CHOICE,
assumption 5). -/
def withinUlp (k : Nat) (cand a : FV) : Bool :=
  match cand, a with
  | .fin s n e, .fin t j d =>
    let lo := min e d
    let diff := (sgnInt s (n * 2 ^ (e - lo).toNat) - sgnInt t (j * 2 ^ (d - lo).toNat)).natAbs
    let u : Int := max ((Nat.log2 j : Int) + d) (-126) - 23
    let lim := k * 2 ^ 16 - 1
    let sh := u - 16 - lo
    if 0 ≤ sh then decide (diff ≤ lim * 2 ^ sh.toNat) else decide (diff * 2 ^ (-sh).toNat ≤ lim)
  | _, _ => false

/-- The result of a special function whose exact value lies close to `a`: the implementation's bits where they meet
the bound, else the close value rounded by RNE; flags those of R94 and R97 under RNE (assumption 5). -/
def boundedR (k : Nat) (cand : Word) (a : FV) : Nat × Nat :=
  let r := rndFV fmtF32 .rne a
  if r.2 &&& flOF ≠ 0 then r
  else if withinUlp k (unpack fmtF32 cand.toNat) a then (cand.toNat, r.2) else r

/-- 1 of a sign. -/
def oneBits (neg : Bool) : Nat := if neg then 0xBF800000 else 0x3F800000

/-- FRCP. -/
def fRcp (x : Word) : Nat × Nat :=
  match unpack fmtF32 x.toNat with
  | .nan => (fNaN fmtF32, 0)
  | .inf s => (zeroBits fmtF32 s, 0)
  | .fin s 0 _ => (zeroBits fmtF32 s + fInfBits fmtF32, flDZ)
  | .fin s n e =>
    let a := rcpFV s n e
    let r := rndFV fmtF32 .rne a
    if r.2 = 0 then r else boundedR 1 (Config.specialFn .rcp x) a

/-- FRSQ. -/
def fRsq (x : Word) : Nat × Nat :=
  match unpack fmtF32 x.toNat with
  | .nan => (fNaN fmtF32, 0)
  | .inf s => if s then (fNaN fmtF32, flNV) else (0, 0)
  | .fin s 0 _ => (zeroBits fmtF32 s + fInfBits fmtF32, flDZ)
  | .fin true _ _ => (fNaN fmtF32, flNV)
  | .fin false n e =>
    match sqrtFV n e with
    | .fin _ r k =>
      let q := 2 ^ 140 / r
      let a : FV := .fin false (2 * q + (if r % 2 = 0 ∧ 2 ^ 140 % r = 0 then 0 else 1)) (-k - 141)
      let z := rndFV fmtF32 .rne a
      if z.2 = 0 then z else boundedR 1 (Config.specialFn .rsq x) a
    | _ => (fNaN fmtF32, 0)

/-- FSQRT: correctly rounded, RNE. -/
def fSqrt (x : Word) : Nat × Nat :=
  match unpack fmtF32 x.toNat with
  | .nan => (fNaN fmtF32, 0)
  | .inf s => if s then (fNaN fmtF32, flNV) else (fInfBits fmtF32, 0)
  | .fin s 0 _ => (zeroBits fmtF32 s, 0)
  | .fin true _ _ => (fNaN fmtF32, flNV)
  | .fin false n e => rndFV fmtF32 .rne (sqrtFV n e)

/-- Whether n × 2^e is an integer. -/
def isIntegral (n : Nat) (e : Int) : Bool := decide (0 ≤ e) || decide (n % 2 ^ (-e).toNat = 0)

/-- FEX2. -/
def fEx2 (x : Word) : Nat × Nat :=
  match unpack fmtF32 x.toNat with
  | .nan => (fNaN fmtF32, 0)
  | .inf s => (if s then 0 else fInfBits fmtF32, 0)
  | .fin _ 0 _ => (oneBits false, 0)
  | .fin s n e =>
    if (Nat.log2 n : Int) + e ≥ 9 then rndFV fmtF32 .rne (.fin false 1 (if s then -1000 else 1000))
    else if isIntegral n e then rndFV fmtF32 .rne (.fin false 1 (toIntFV .rtz s n e).1)
    else boundedR 2 (Config.specialFn .ex2 x) (exp2FV s n e)

/-- FLG2. -/
def fLg2 (x : Word) : Nat × Nat :=
  match unpack fmtF32 x.toNat with
  | .nan => (fNaN fmtF32, 0)
  | .inf s => if s then (fNaN fmtF32, flNV) else (fInfBits fmtF32, 0)
  | .fin _ 0 _ => (fSignBit fmtF32 + fInfBits fmtF32, flDZ)
  | .fin true _ _ => (fNaN fmtF32, flNV)
  | .fin false n e =>
    if n = 2 ^ Nat.log2 n then rndFV fmtF32 .rne (ofInt ((Nat.log2 n : Int) + e))
    else boundedR 2 (Config.specialFn .lg2 x) (log2FV n e)

/-- A value of the implementation's in [−1, 1] that depends only on x (R107). -/
def unitR (cand : Word) : Nat × Nat :=
  match unpack fmtF32 cand.toNat with
  | .fin s n e => if ltFV (.fin false 1 0) (.fin false n e) then (oneBits s, flNX) else (cand.toNat, flNX)
  | _ => (0, flNX)

/-- A close value of sin or cos that is no whole number: below 1 in magnitude, as the exact value is. -/
def insideOne (x : Int) : Int := if 2 ^ fxP ≤ x then 2 ^ fxP - 1 else if x ≤ -(2 ^ fxP) then 1 - 2 ^ fxP else x

/-- x − x³/d of x = ± n × 2^e with |x| < 2^−12: within 2^−48 of sin x (d = 6) and of tanh x (d = 3), in their own size. -/
def cubicFV (s : Bool) (n : Nat) (e : Int) (d : Nat) : FV :=
  .fin s (n * (d * 2 ^ (-2 * e).toNat - n ^ 2) * 2 ^ 64 / d) (3 * e - 64)

/-- FSIN (`s`) and FCOS. -/
def fTrig (s : Bool) (x : Word) : Nat × Nat :=
  match unpack fmtF32 x.toNat with
  | .nan => (fNaN fmtF32, 0)
  | .inf _ => (fNaN fmtF32, flNV)
  | .fin z 0 _ => if s then (zeroBits fmtF32 z, 0) else (oneBits false, 0)
  | .fin z n e =>
    let cand := Config.specialFn (if s then .sin else .cos) x
    if ltFV (.fin false 1 16) (.fin false n e) then unitR cand
    else if s ∧ (Nat.log2 n : Int) + e < -12 then boundedR 2 cand (cubicFV z n e 6)
    else boundedR 2 cand (stickyFV (insideOne (trigFx s (toFx z n e))) (-fxP))

/-- FTANH. -/
def fTanh (x : Word) : Nat × Nat :=
  match unpack fmtF32 x.toNat with
  | .nan => (fNaN fmtF32, 0)
  | .inf s => (oneBits s, 0)
  | .fin s 0 _ => (zeroBits fmtF32 s, 0)
  | .fin s n e =>
    let cand := Config.specialFn .tanh x
    if (Nat.log2 n : Int) + e < -12 then boundedR 2 cand (cubicFV s n e 3)
    else
      let a := tanhFV n e
      boundedR 2 cand (if s then a.flip else a)

/-! ## Blocks (R99 to R102, R252, R253) -/

/-- |x| < |y| of finite values. -/
def ltMag (x y : FV) : Bool := ltFV x.mag y.mag

/-- The value of greatest magnitude. -/
def maxMag (xs : List FV) : FV :=
  xs.foldl (fun m x => if ltMag m x then x else m) (.fin false 0 0)

/-- Whether a value is finite. -/
def FV.isFin : FV → Bool
  | .fin _ _ _ => true
  | _ => false

/-- One mantissa: y = x × 2^(w−2) / 2^(X−127) rounded, clamped; and whether the block element differs from x. -/
def quantOne (w : Nat) (m : RMode) (xexp : Nat) (x : FV) : Int × Bool :=
  match x with
  | .fin s n e =>
    let k : Int := e + (w - 2 : Int) - ((xexp : Int) - 127)
    let (q, ix) := toIntFV m s n k
    let lo : Int := -(2 ^ (w - 1) : Nat)
    let hi : Int := (2 ^ (w - 1) : Nat) - 1
    let c := max lo (min hi q)
    (c, ix || decide (c ≠ q))
  | _ => (0, false)

/-- Quantises values to a block of width w: exponent, mantissas, flags (R102). -/
def quantise (w : Nat) (m : RMode) (xs : List FV) : Nat × List Int × Nat :=
  if xs.any fun x => !x.isFin then (255, xs.map fun _ => 0, flNV)
  else match maxMag xs with
    | .fin _ n e =>
      if n = 0 then (0, xs.map fun _ => 0, 0)
      else
        let top : Int := (Nat.log2 n : Int) + e
        let xe : Int := max 0 (min 254 (top + 127))
        let rs := xs.map (quantOne w m xe.toNat)
        let ix := rs.any (·.2)
        (xe.toNat, rs.map (·.1),
          (if ix then flNX else 0) ||| (if ix && decide (top + 127 < 0) then flUF else 0))
    | _ => (0, xs.map fun _ => 0, 0)

/-- The value of a block element (R99). -/
def blockFV (w : Nat) (xexp : Nat) (m : Int) : FV :=
  if xexp = 255 then .nan else .fin (decide (m < 0)) m.natAbs ((xexp : Int) - 127 - (w - 2 : Int))

/-- DQB of A and B (R252). -/
def fDqb (a b : Nat) : Nat × Nat :=
  let x := bitsOf b 7 0
  let c := bitsOf b 10 8
  if c = 7 then (fNaN fmtF32, flNV)
  else if x = 255 then (fNaN fmtF32, 0)
  else rndFV fmtF32 .rne (blockFV (c + 2) x (sextOf a (c + 2)))

/-- The bit string of mantissas of width w, element j at bits j·w (R100). -/
def packBits (w : Nat) (ms : List Nat) : Nat :=
  match ms with
  | [] => 0
  | m :: rest => m % 2 ^ w + 2 ^ w * packBits w rest

/-- The bytes of a block in memory: 4w mantissa bytes and the exponent (R100). -/
def blockBytes (w : Nat) (xexp : Nat) (ms : List Int) : List Byte :=
  bytesOf (4 * w) (packBits w (ms.map fun (m : Int) => (m % ((2 ^ w : Nat) : Int)).toNat)) ++ [BitVec.ofNat 8 xexp]

/-! ## Reductions (R108) -/

/-- One level of the pairwise tree. -/
def treeLevel (xs : List (Nat × Nat)) : List (Nat × Nat) :=
  match xs with
  | a :: b :: rest =>
    let r := fAdd fmtF32 .rne (unpack fmtF32 a.1) (unpack fmtF32 b.1)
    (r.1, r.2 ||| a.2 ||| b.2) :: treeLevel rest
  | xs => xs

/-- The sum of 32 f32 bit patterns by the tree: bits and the flags of its 31 additions. -/
def treeSum (xs : List Nat) : Nat × Nat :=
  ((treeLevel (treeLevel (treeLevel (treeLevel (treeLevel (xs.map fun x => (x, 0))))))).head?).getD (0, 0)

/-! ## Matrix accumulation (R106) -/

/-- One block's step: rnd(C + D × 2^E, f32, RNE); no flag is kept. -/
def accStep (c : Nat) (d e : Int) : Nat :=
  match addFV .rne (unpack fmtF32 c) (ofDyadic d e false) with
  | some v => (rndFV fmtF32 .rne v).1
  | none => fNaN fmtF32

end Sys2Proof.Machine
end

