-- ==== Sys2Proof/Machine/Observe.lean ====
section
/-! DEFINITION. What counts and records the machine's work: counter banks and trace units (18_observation.md R401 to R410).
-/

namespace Sys2Proof.Machine

/-! ## Counters (R401 to R403) -/

/-- The holder number of the PF; 0 stands for no holder. -/
def pfHolder : Nat := 256

/-- The owner of a bank's unit where no lease says otherwise (Table 18.1): a core's cluster, a slice; none of the others. -/
def bankOwner (s : State) (kind unit : Nat) (harvest : Bool) : Nat :=
  if harvest then 0
  else if kind = 1 then (Map.get s.clusters (unit / 4) { ret := false, fen := false, vf := 0, lend := false }).vf
  else if kind = 2 then (Map.get s.sliceU unit { ret := false, fen := false, vf := 0, lend := false }).vf
  else 0

/-- A bank no one has touched, held by its unit's owner. -/
def bankFresh (s : State) (kind unit : Nat) (harvest : Bool) : Bank :=
  { kind := kind, unit := unit, harvest := harvest, holder := bankOwner s kind unit harvest, leased := false,
    ctrs := [], frozenC := [] }

/-- Whether a bank is the one named. -/
def Bank.named (b : Bank) (kind unit : Nat) (harvest : Bool) : Bool := b.kind == kind && b.unit == unit && b.harvest == harvest

/-- A bank by kind, physical unit and harvest bank or not. -/
def bankAt (s : State) (kind unit : Nat) (harvest : Bool) : Bank :=
  match s.banks.find? fun b => b.named kind unit harvest with
  | some b => b
  | none => bankFresh s kind unit harvest

/-- Replaces a bank. -/
def putBank (s : State) (b : Bank) : State :=
  if s.banks.any fun c => c.named b.kind b.unit b.harvest then
    { s with banks := s.banks.map fun c => if c.named b.kind b.unit b.harvest then b else c }
  else { s with banks := s.banks ++ [b] }

/-- A counter at reset. -/
def Counter.init : Counter := { sel := 0, count := 0, ovf := false, frozen := false }

/-- Whether a counter counts an event of a class (Table 18.3). -/
def Counter.counts (c : Counter) (h : Bool) (code : Nat) : Bool :=
  c.sel.getLsbD 31 && bitsOf c.sel.toNat 15 0 == code &&
    (bitsOf c.sel.toNat 25 24 == 0 || (bitsOf c.sel.toNat 25 24 == (if h then 2 else 1)))

/-- Counts n events: the counter wraps and sets OVF (R403). -/
def Counter.add (c : Counter) (n : Nat) : Counter :=
  { c with count := BitVec.ofNat 48 (c.count.toNat + n), ovf := c.ovf || decide (2 ^ 48 ≤ c.count.toNat + n) }

/-- Whether a bank counts events of a VF and class: its holder's, or every VF's for the hypervisor; a harvest bank counts
H events alone (R401, R405). -/
def Bank.hears (b : Bank) (vf : Nat) (h : Bool) : Bool :=
  (b.holder == pfHolder || (b.holder == vf && vf != 0)) && (!b.harvest || h)

/-- Counts n events at a unit (R401): in each bank of the unit whose holder they are attributed to. -/
def countN (s : State) (kind unit vf : Nat) (h : Bool) (code n : Nat) : State :=
  { s with banks := s.banks.map fun b =>
      if b.kind == kind && b.unit == unit && b.hears vf h then
        { b with ctrs := b.ctrs.map fun p => if p.2.counts h code then (p.1, p.2.add n) else p }
      else b }

/-- Counts one event at a unit. -/
def countEvent (s : State) (kind unit vf : Nat) (h : Bool) (code : Nat) : State := countN s kind unit vf h code 1

/-- Counts one event of a grid's crew on its core. -/
def countCore (s : State) (core : Nat) (g : Grid) (code : Nat) : State :=
  countEvent s 1 core g.vf (g.desc.flags.testBit 0) code

/-! ## Trace records (R408 to R410) -/

/-- A trace record before its ring (Table 18.6). -/
structure TRec where
  kind   : Nat
  flags  : Nat
  code   : Nat
  crew   : Nat
  grid   : Nat
  clause : Dword
  index  : Nat
  sheaf  : Nat
  thread : Nat
  mask   : Nat
  pay    : Dword
  deriving DecidableEq, Repr

/-- The 64 bytes of a record, with the drops counted before it. -/
def TRec.bytes (r : TRec) (now : Dword) (dropped : Nat) : List Byte :=
  let fl := if dropped = 0 then r.flags else r.flags ||| 2
  let pay := if dropped = 0 then r.pay else dword dropped
  bytesOf 1 r.kind ++ bytesOf 1 fl ++ bytesOf 2 r.code ++ bytesOf 4 r.crew ++ bytesOf 8 r.grid ++ bytesOf 8 now.toNat ++
    bytesOf 8 r.clause.toNat ++ bytesOf 1 r.index ++ bytesOf 1 r.sheaf ++ bytesOf 2 r.thread ++ bytesOf 4 r.mask ++
    bytesOf 8 pay.toNat ++ List.replicate 16 0

/-- Whether a trace unit writes records of a kind. -/
def Trace.wants (t : Trace) (kind : Nat) : Bool := t.ctl.getLsbD 16 && t.ctl.getLsbD (3 + kind) && !t.frozen

/-- The registers of a function: the PF's for 0, else a VF's. -/
def State.fn (s : State) (fn : Nat) : Vf := if fn = 0 then s.pf else Map.get s.vfs fn Vf.init

/-- Changes the registers of a function. -/
def State.modFn (s : State) (fn : Nat) (f : Vf → Vf) : State :=
  if fn = 0 then { s with pf := f s.pf } else { s with vfs := Map.put s.vfs fn (f (Map.get s.vfs fn Vf.init)) }

/-- Sends an MSI-X message, unless its vector is masked: then it is held, merged with one already held (R419). -/
def sendMsi (s : State) (fn vec : Nat) : State :=
  if (s.fn fn).masked.contains vec then s.modFn fn fun v => { v with pendMsi := insertAsc vec v.pendMsi }
  else { s with msix := s.msix ++ [(fn, vec)] }

/-- Writes a record into a unit's host ring, and after the tail has moved sends the holder's management vector; a record that finds it
full is dropped and counted (R408, R351). -/
def traceWrite (s : State) (unit : Nat) (t : Trace) (r : TRec) : State :=
  let k := bitsOf t.ctl.toNat 3 0
  if 2 ^ k ≤ (t.tail - t.head).toNat then { s with traces := Map.put s.traces unit { t with dropped := t.dropped + 1 } }
  else
    let a := t.base.toNat + 64 * (t.tail.toNat % 2 ^ k)
    let s := { s with host := Memory.writeN s.host a (r.bytes s.gtime t.dropped),
                      traces := Map.put s.traces unit { t with tail := t.tail + 1, dropped := 0 } }
    sendMsi s (if t.holder = pfHolder then 0 else t.holder) 0

/-- The physical core a trace unit follows: its VF's logical core, kind 0 of R130; the hypervisor names physical cores. -/
def Trace.follows (s : State) (t : Trace) : Option Nat :=
  if bitsOf t.core.toNat 15 12 ≠ 0 then none
  else if t.holder = pfHolder then some (bitsOf t.core.toNat 11 0)
  else Map.find? (Map.get s.vfs t.holder Vf.init).placeCore (bitsOf t.core.toNat 11 0)

/-- Writes a record of a VF's crew on a core to every trace unit of the VF, or of the hypervisor, that follows the core and takes the
kind; of some holders alone where `who` says so. -/
def traceCore (s : State) (vf core : Nat) (r : TRec) (who : Nat → Bool := fun _ => true) : State :=
  s.traces.foldl (fun s p =>
    match Map.find? s.traces p.1 with
    | some t => if (t.holder == vf || t.holder == pfHolder) && who t.holder && t.wants r.kind && t.follows s == some core then traceWrite s p.1 t r else s
    | none => s) s

/-- A record of a crew with nothing of an instruction in it. -/
def TRec.ofCrew (kind gid : Nat) (g : Grid) (w : Crew) : TRec :=
  { kind := kind, flags := if g.desc.flags.testBit 0 then 4 else 0, code := 0, crew := w.index, grid := gid, clause := 0,
    index := 0, sheaf := 0, thread := 0, mask := 0, pay := 0 }

/-- The lanes of a home sheaf among some threads, as a mask. -/
def maskOf (ps : List (Nat × Nat)) (h : Nat) : Nat :=
  ps.foldl (fun m p => if p.2 = h then m ||| 2 ^ p.1 else m) 0

/-- Records of an instruction, one for each contributing home sheaf (R407). -/
def traceThreads (s : State) (gid : Nat) (g : Grid) (w : Crew) (kind code : Nat) (clause : Dword) (index : Nat)
    (ps : List (Nat × Nat)) (who : Nat → Bool := fun _ => true) : State :=
  (dedup (ps.map (·.2))).foldl (fun s h =>
    traceCore s g.vf w.core { TRec.ofCrew kind gid g w with
      code := code, clause := clause, index := index, sheaf := h, thread := 32 * h, mask := maskOf ps h } who) s

end Sys2Proof.Machine
end

