-- ==== Sys2Proof/Machine/Ops.lean ====
section
/-! DEFINITION. The named operations over registers, origin sets, regions, flags, frontiers and traps. -/

namespace Sys2Proof.Machine

open Host (Outcome)

/-! ## Defaults of listed things -/

/-- A thread at dispatch, at an entry clause (Table 3.1, Table 3.3, R78). -/
def Thread.init (entry : Dword) (octx : OSet) : Thread :=
  { exited := false, clause := entry, index := 1, reached := 0, octx := octx, divs := [], lost := [], rmode := .rne, rmodeS := 0,
    ptsel := 0, ptselS := 0, fpx := 0, fpxS := 0, cause := 0, tpc := 0, faddr := 0, trapS := 0, handler := false,
    trapPc := 0, trapIx := 0, trapRetry := 1, trapNext := (0, 1), trapMap := none, trapDepth := 0, barWait := none, trapBar := none, joinWait := none, trapJoin := none, ret := [], clockLat := none, gtimeLat := none, ck := none }

/-- A thread that has left. -/
def Thread.gone : Thread := { Thread.init 0 0 with exited := true }

/-- A sheaf at dispatch (Table 3.1). -/
def Sheaf.init (role banks : Nat) (entry : Dword) (octx : OSet) (k : Map Word) (kS : Map OSet) : Sheaf :=
  { role := role, banks := banks, main := [], mainS := [], k := k, kS := kS, p := [], pS := [], flags := [],
    threads := List.replicate 32 (Thread.init entry octx), hash := 0, freed := false, ckK := k, ckKS := kS,
    ckHash := 0, mainW := [], mainWS := [] }

/-- No sheaf. -/
def Sheaf.none : Sheaf :=
  { role := 0, banks := 1, main := [], mainS := [], k := [], kS := [], p := [], pS := [], flags := [], threads := [],
    hash := 0, freed := true, ckK := [], ckKS := [], ckHash := 0, mainW := [], mainWS := [] }

/-- An issue group at dispatch. -/
def Group.init (role family : Nat) (formed : Bool) (members : List (Nat × Nat)) : Group :=
  { role := role, family := family, formed := formed, members := members, regions := [], reopen := [], quad := none, fetched := none,
    active := none, wait := .none, episode := none, ranWait := false, noShadow := false,
    halted := false, wHash := 0, brk := none }

/-- A slot not mapped. -/
def Slot.init : Slot := { vals := zeroLanes, dirty := lanesOf false }

/-- The sets of a slot without any. -/
def SlotSets.init : SlotSets := { sets := [], replaced := [] }

/-! ## Origin sets (03_registers.md R81, R82; 17_trust.md R395) -/

/-- The entry of an index. -/
def osEntry (t : Map OEntry) (i : OSet) : OEntry := Map.get t i { prins := [], retired := false }

/-- The principals of an index, ascending. -/
def osPrins (t : Map OEntry) (i : OSet) : List Nat := (osEntry t i).prins.map (·.toNat)

/-- The index of an exact set of principals, none where no entry holds it. -/
def osFind (t : Map OEntry) (ps : List Nat) : Option OSet :=
  match t with
  | [] => none
  | (i, e) :: rest => if !e.retired && e.prins.map (·.toNat) == ps then some i else osFind rest ps

/-- The index of a set of principals, creating the entry at the lowest free index (R395). -/
def osMake (t : Map OEntry) (ps : List Nat) : Except Cause (OSet × Map OEntry) :=
  match osFind t ps with
  | some i => .ok (i, t)
  | none =>
    match Map.fresh t 0 1024 with
    | some i => .ok (i, Map.put t i { prins := ps.map word, retired := false })
    | none => .error .osetOverflow

/-- The retired indexes among some, ascending. -/
def osRetired (t : Map OEntry) (is : List OSet) : List OSet := ascending (is.filter fun i => (osEntry t i).retired)

/-- The join of many sets (Table 0.3, R82): the lowest retired index where one is among them; else the set of all their
principals, in one step, so that no union of some of them needs an entry or overflows (DEDUCED, assumption 71). -/
def osJoinAll (t : Map OEntry) (a : OSet) (bs : List OSet) : Except Cause (OSet × Map OEntry) :=
  match osRetired t (a :: bs) with
  | i :: _ => .ok (i, t)
  | [] =>
    match dedup ((a :: bs).filter (· != 0)) with
    | [] => .ok (0, t)
    | [i] => .ok (i, t)
    | is =>
      let u := ascending (is.flatMap (osPrins t))
      if 4 < u.length then .error .osetOverflow else osMake t u

/-- join(a, b) (Table 0.3, R82). -/
def osJoin (t : Map OEntry) (a b : OSet) : Except Cause (OSet × Map OEntry) := osJoinAll t a [b]

/-- Whether set a is a subset of set b (R120). -/
def osSubset (t : Map OEntry) (a b : OSet) : Bool := (osPrins t a).all fun p => (osPrins t b).contains p

/-! ## Sheaves, threads and their registers -/

/-- A home sheaf of a crew. -/
def Crew.sheaf (c : Crew) (h : Nat) : Sheaf := (c.sheaves[h]?).getD Sheaf.none

/-- Changes a home sheaf. -/
def Crew.modSheaf (c : Crew) (h : Nat) (f : Sheaf → Sheaf) : Crew := { c with sheaves := c.sheaves.modify h f }

/-- A thread of a crew, by lane and home sheaf. -/
def Crew.thread (c : Crew) (p : Nat × Nat) : Thread := ((c.sheaf p.2).threads[p.1]?).getD Thread.gone

/-- Changes a thread. -/
def Crew.modThread (c : Crew) (p : Nat × Nat) (f : Thread → Thread) : Crew :=
  c.modSheaf p.2 fun h => { h with threads := h.threads.modify p.1 f }

/-- Changes several threads. -/
def Crew.modThreads (c : Crew) (ps : List (Nat × Nat)) (f : Nat × Nat → Thread → Thread) : Crew :=
  ps.foldl (fun c p => c.modThread p (f p)) c

/-- Main registers a thread of a sheaf may name (R67). -/
def Sheaf.budget (h : Sheaf) : Nat := 128 * h.banks

/-- A main register of a home sheaf in one lane. -/
def Sheaf.mainAt (h : Sheaf) (r l : Nat) : Word := laneGet (Map.get h.main r zeroLanes) l 0

/-- Writes a main register in one lane. -/
def Sheaf.setMain (h : Sheaf) (r l : Nat) (x : Word) : Sheaf :=
  { h with main := Map.put h.main r (laneSet (Map.get h.main r zeroLanes) l x) }

/-- The origin set of a main register. -/
def Sheaf.mainSet (h : Sheaf) (r : Nat) : OSet := Map.get h.mainS r 0

/-- A predicate of one lane; p7 reads true (R75). -/
def Sheaf.pred (h : Sheaf) (i l : Nat) : Bool := if i = 7 then true else laneGet (Map.get h.p i (lanesOf false)) l false

/-- Writes a predicate in one lane. -/
def Sheaf.setPred (h : Sheaf) (i l : Nat) (x : Bool) : Sheaf :=
  { h with p := Map.put h.p i (laneSet (Map.get h.p i (lanesOf false)) l x) }

/-- The set of a predicate; p7 has none. -/
def Sheaf.predSet (h : Sheaf) (i : Nat) : OSet := if i = 7 then 0 else Map.get h.pS i 0

/-- The count of a completion flag (R76). -/
def Sheaf.flag (h : Sheaf) (f : Nat) : Nat := Map.get h.flags f 0

/-- The home sheaves of a list of threads, each once. -/
def homesOf (ps : List (Nat × Nat)) : List Nat := dedup (ps.map (·.2))

/-- The lane positions of a list of threads. -/
def lanesIn (ps : List (Nat × Nat)) : List Nat := ps.map (·.1)

/-- Whether a list of threads holds all 32 lanes of a home sheaf (R83). -/
def allLanes (ps : List (Nat × Nat)) (h : Nat) : Bool := (List.range 32).all fun l => ps.contains (l, h)

/-! ## Issuing -/

/-- What issues: the instruction group's `cur`, its crew and issue group, its grid, and the threads present. -/
structure Iss where
  cur     : Cur
  crew    : Crew
  grp     : Group
  grid    : Grid
  present : List (Nat × Nat)
  active  : List (Nat × Nat)
  deriving DecidableEq, Repr

/-- Why an instruction did not complete: a cause with the faulting addresses by lane position (R61), a wait, a page
fault that awaits service with its pages, or a stop of the machine. -/
inductive Stop where
  | raise (c : Cause) (faddr : List (Nat × Dword))
  | block (w : Wait)
  /-- Pages (stage 2?, address, write?, fetch?) with the faulting addresses, the flags of the record and the GPA (R349, R355). -/
  | serve (c : Cause) (pages : List (Bool × Nat × Bool × Bool)) (flags : Nat) (gpa : Dword) (faddr : List (Nat × Dword))
  /-- Data consumed with an uncorrectable error (19_platform.md R423), with the faulting addresses. -/
  | flaw (f : Found) (faddr : List (Nat × Dword))
  | fault (f : Fault)
  deriving DecidableEq, Repr

/-- The guard of a thread (R8, R165). -/
def guardTrue (c : Crew) (g : Guard) (p : Nat × Nat) : Bool := (c.sheaf p.2).pred g.pred p.1 != g.neg

/-- The issuing context of the state, with `active` by a guard. -/
def issuer (s : State) (g : Guard) : Option Iss :=
  match s.cur with
  | none => none
  | some c =>
    match Map.find? s.crews c.crew with
    | none => none
    | some w =>
      match Map.find? w.groups c.group, Map.find? s.grids w.grid with
      | some gr, some gd =>
        some { cur := c, crew := w, grp := gr, grid := gd, present := c.lanes,
               active := c.lanes.filter fun p => guardTrue w g p }
      | _, _ => none

/-- Puts a context's crew and group back. -/
def Iss.put (x : Iss) (s : State) : State :=
  { s with crews := Map.put s.crews x.cur.crew { x.crew with groups := Map.put x.crew.groups x.cur.group x.grp } }

/-- Changes the crew under a number, if it is there. -/
def State.modCrew (s : State) (c : Nat) (f : Crew → Crew) : State := { s with crews := Map.mod s.crews c f }

/-- Changes an issue group, if it is there. -/
def State.modGroup (s : State) (c g : Nat) (f : Group → Group) : State :=
  s.modCrew c fun w => { w with groups := Map.mod w.groups g f }

/-- Changes a grid. -/
def State.modGrid (s : State) (g : Nat) (f : Grid → Grid) : State := { s with grids := Map.mod s.grids g f }

/-- Changes a VF. -/
def State.modVf (s : State) (v : Nat) (f : Vf → Vf) : State := { s with vfs := Map.put s.vfs v (f (Map.get s.vfs v Vf.init)) }

/-- A VF. -/
def State.vf (s : State) (v : Nat) : Vf := Map.get s.vfs v Vf.init

/-- A core. -/
def State.core (s : State) (c : Nat) : Core := Map.get s.cores c { Core.init with clock := s.cycles }

/-- Changes a core. -/
def State.modCore (s : State) (c : Nat) (f : Core → Core) : State := { s with cores := Map.put s.cores c (f (s.core c)) }

/-- The next number of the order of events. -/
def State.tickSeq (s : State) : State := { s with seq := s.seq + 1 }

/-- The die of a core, 0 or 1 (Table 1.1). -/
def dieOf (core : Nat) : Nat := core / 128

/-- The cluster of a core. -/
def clusterOf (core : Nat) : Nat := core / 4

/-- Whether a crew is of class H (R14). -/
def Iss.isH (x : Iss) : Bool := x.grid.desc.flags.testBit 0

/-! ## Slots and regions -/

/-- The region of a group that is open for a lane position. -/
def regionOf (g : Group) (l : Nat) : Option Region := g.regions.find? fun r => r.lanes.contains l

/-- The mapped slot of a lane position. -/
def slotOf (g : Group) (l i : Nat) : Option Slot := (regionOf g l).bind fun r => Map.find? r.slots i

/-- The main register that slot i maps (R70). -/
def mapReg (m : RegionMap) (i : Nat) : Nat := 8 * m.base + i

/-- The slot of a region that maps a main register, if any. -/
def mapSlot (m : RegionMap) (v : Nat) : Option Nat :=
  if 8 * m.base ≤ v ∧ v < 8 * m.base + 32 ∧ m.mask.getLsbD (v - 8 * m.base) then some (v - 8 * m.base) else none

/-- The slot number through which a lane reaches a main register (R73). -/
def xregSlot (g : Group) (l v : Nat) : Option Nat := (regionOf g l).bind fun r => mapSlot r.map v

/-- Whether a lane stands in a restartable region (R49). -/
def inRestartable (g : Group) (l : Nat) : Bool :=
  match regionOf g l with
  | some r => r.map.restartable
  | none => false

/-- Changes the region of a lane position. -/
def modRegion (g : Group) (l : Nat) (f : Region → Region) : Group :=
  { g with regions := g.regions.map fun r => if r.lanes.contains l then f r else r }

/-- The home sheaf of a lane position of a group. -/
def Group.homeAt (g : Group) (l : Nat) : Nat :=
  match g.members.find? fun p => p.1 == l with
  | some p => p.2
  | none => 0

/-- The origin sets of the slots of an issue group's open region (R81). -/
def Crew.regionSets (c : Crew) (fam : Nat) (m : RegionMap) : Map SlotSets :=
  match c.slotS.find? fun r => r.family == fam && r.map == m with
  | some r => r.slots
  | none => []

/-- Sets the origin sets of the slots of an issue group's region. -/
def Crew.putRegionSets (c : Crew) (fam : Nat) (m : RegionMap) (ss : Map SlotSets) : Crew :=
  { c with slotS := (c.slotS.filter fun r => !(r.family == fam && r.map == m)) ++ [{ family := fam, map := m, slots := ss }] }

/-- The origin sets of slot i of an issue group's region. -/
def Crew.slotSets (c : Crew) (fam : Nat) (m : RegionMap) (i : Nat) : SlotSets := Map.get (c.regionSets fam m) i SlotSets.init

/-- Sets the origin sets of slot i of an issue group's region. -/
def Crew.putSlotSets (c : Crew) (fam : Nat) (m : RegionMap) (i : Nat) (ss : SlotSets) : Crew :=
  c.putRegionSets fam m (Map.put (c.regionSets fam m) i ss)

/-- The set of a mapped slot for a home sheaf, in the region open for a lane position. -/
def slotSetAt (c : Crew) (g : Group) (l i h : Nat) : OSet :=
  match regionOf g l with
  | some r => Map.get (c.slotSets g.family r.map i).sets h 0
  | none => 0

/-- The other parts of a group's issue group. -/
def otherParts (c : Crew) (g : Group) : List Group :=
  (c.groups.filter fun p => p.2.family == g.family && p.2.members != g.members).map fun p => p.2

/-- The threads of the other parts for which a region with some map is open. -/
def elsewhere (c : Crew) (g : Group) (m : RegionMap) : List (Nat × Nat) :=
  (otherParts c g).flatMap fun q => (q.regions.filter fun r => r.map == m).flatMap fun r => r.lanes.map fun l => (l, q.homeAt l)

/-- Whether an issue group has a region with some map open. -/
def mapOpen (c : Crew) (g : Group) (m : RegionMap) : Bool :=
  (g.regions.any fun r => r.map == m) || !(elsewhere c g m).isEmpty

/-- The sets of a slot at its fill (R72, R194): each home sheaf's register set joined with that of the mask operand, and
with what the slot carries for other lanes of that home sheaf (R84). -/
def fillSets (c : Crew) (v : Nat) (maskSet : OSet) (homes : List Nat) (old : SlotSets) (t : Map OEntry) :
    Except Cause (SlotSets × Map OEntry) :=
  foldE (fun (acc : SlotSets × Map OEntry) h =>
    match osJoinAll acc.2 ((c.sheaf h).mainSet v) (maskSet :: (Map.find? old.sets h).toList) with
    | .error e => .error e
    | .ok (u, t') =>
      .ok ({ sets := Map.put acc.1.sets h u, replaced := acc.1.replaced.filter (· != h) }, t')) (old, t) homes

/-- The slots that a map maps. -/
def mapped (m : RegionMap) : List Nat := (List.range 32).filter fun i => m.mask.getLsbD i

/-- The slots a map opens, filled from the main file for the given lanes (R72). -/
def fillSlots (c : Crew) (g : Group) (m : RegionMap) (lanes : List Nat) : Map Slot :=
  (mapped m).map fun i => (i, { Slot.init with
    vals := lanes.foldl (fun xs l => laneSet xs l ((c.sheaf (g.homeAt l)).mainAt (mapReg m i) l)) zeroLanes })

/-- A slot with the lanes `ls` of another. -/
def Slot.merge (a b : Slot) (ls : List Nat) : Slot :=
  { vals := ls.foldl (fun xs l => laneSet xs l (laneGet b.vals l 0)) a.vals
    dirty := ls.foldl (fun xs l => laneSet xs l (laneGet b.dirty l false)) a.dirty }

/-- Puts a held or released store among others in program order; the parts of one store are one again, lanes ascending (R48, R139). -/
def insertStore (e : StoreEntry) (es : List StoreEntry) : List StoreEntry :=
  match es with
  | [] => [e]
  | f :: rest =>
    if e.born < f.born then e :: f :: rest
    else if e.born = f.born then
      let as := (e.accs ++ f.accs)
      { f with accs := (List.range 32).flatMap fun l => as.filter fun a => a.lane == l, homes := dedup (f.homes ++ e.homes) } :: rest
    else f :: insertStore e rest

/-- Stores of several regions in program order. -/
def mergeStores (es : List StoreEntry) : List StoreEntry := es.foldl (fun acc e => insertStore e acc) []

/-- An open region with the lanes of another of the same map. -/
def Region.merge (r q : Region) : Region :=
  { r with lanes := r.lanes ++ q.lanes, held := mergeStores (r.held ++ q.held),
           slots := r.slots.map fun p => match Map.find? q.slots p.1 with
             | some b => (p.1, p.2.merge b q.lanes)
             | none => p }

/-- Where the register window begins in the shared space (R79, R109). -/
def winBase : Nat := 0x100000

/-- Whether an access names the register window. -/
def Acc.window (a : Acc) : Bool := a.space == .shared && decide (winBase ≤ a.addr)

/-- Numbers a store to the register window as it enters the core store order (R137). -/
def numberStore (c : Crew) (e : StoreEntry) : Crew × StoreEntry :=
  if e.accs.any Acc.window then ({ c with winIss := c.winIss + 1 }, { e with win := c.winIss + 1 }) else (c, e)

/-- Numbers stores in their order. -/
def numberStores (c : Crew) (es : List StoreEntry) : Crew × List StoreEntry :=
  es.foldl (fun a e => ((numberStore a.1 e).1, a.2 ++ [(numberStore a.1 e).2])) (c, [])

/-- Notes which of a crew's window stores come before a direct write of main register r by threads (R137): none where it has
issued none. -/
def stampDirect (c : Crew) (r : Nat) (ps : List (Nat × Nat)) : Crew :=
  if c.winIss = 0 then c
  else
    let c := ps.foldl (fun c p => c.modSheaf p.2 fun z => { z with mainW := Map.put z.mainW (32 * r + p.1) c.winIss }) c
    (homesOf ps).foldl (fun c h =>
      if allLanes ps h then c.modSheaf h fun z => { z with mainWS := Map.put z.mainWS r c.winIss } else c) c

/-- Adds a region to those of a group: regions with one map are one. -/
def addRegion (q : Region) (rs : List Region) : List Region :=
  match rs with
  | [] => [q]
  | r :: rest => if r.map = q.map then r.merge q :: rest else r :: addRegion q rest

/-- Opens a region for lanes of a group (R72, R194). -/
def openRegion (c : Crew) (g : Group) (m : RegionMap) (lanes : List Nat) (t : Map OEntry) :
    Except Cause (Crew × Group × Map OEntry) :=
  let old := if mapOpen c g m then c.regionSets g.family m else []
  match foldE (fun (acc : Map SlotSets × Map OEntry) i =>
      match fillSets c (mapReg m i) m.maskSet (dedup (lanes.map g.homeAt)) (Map.get old i SlotSets.init) acc.2 with
      | .error e => .error e
      | .ok (ss, t') => .ok (Map.put acc.1 i ss, t')) (old, t) (mapped m) with
  | .error e => .error e
  | .ok (ss, t) =>
    .ok (c.putRegionSets g.family m ss,
         { g with regions := addRegion { map := m, lanes := lanes, slots := fillSlots c g m lanes, held := [] } g.regions }, t)

/-- The home sheaves of a region none of whose lanes stays open when it ends for the lanes `ls` of a group. -/
def wholeHomes (c : Crew) (g : Group) (r : Region) (ls : List Nat) : List Nat :=
  (dedup (r.lanes.map g.homeAt)).filter fun h =>
    (r.lanes.all fun l => g.homeAt l != h || ls.contains l) && (elsewhere c g r.map).all fun p => p.2 != h

/-- The main register's set of a home sheaf at a write-back (R83). While other lanes of the home sheaf stay open no
write-back replaces it, nor does a later one of them (DEDUCED, assumption 32). -/
def writeBackSet (fam : Nat) (m : RegionMap) (i : Nat) (whole : List Nat) (acc : Crew × Map OEntry) (h : Nat) :
    Except Cause (Crew × Map OEntry) :=
  let v := mapReg m i
  let ss := acc.1.slotSets fam m i
  let set := Map.get ss.sets h 0
  if whole.contains h && ss.replaced.contains h then
    .ok (acc.1.modSheaf h fun z => { z with mainS := Map.put z.mainS v set }, acc.2)
  else
    match osJoin acc.2 ((acc.1.sheaf h).mainSet v) set with
    | .error e => .error e
    | .ok (u, t') =>
      .ok ((acc.1.putSlotSets fam m i { ss with replaced := ss.replaced.filter (· != h) }).modSheaf h fun z =>
        { z with mainS := Map.put z.mainS v u }, t')

/-- Writes one slot's dirty lanes of `ls` back to the main file (R72, R83). -/
def writeBackSlot (g : Group) (m : RegionMap) (ls whole : List Nat) (i : Nat) (sl : Slot) (c : Crew) (t : Map OEntry) :
    Except Cause (Crew × Map OEntry) :=
  let ds := ls.filter fun l => laneGet sl.dirty l false
  let c := ds.foldl (fun c l => c.modSheaf (g.homeAt l) fun h => h.setMain (mapReg m i) l (laneGet sl.vals l 0)) c
  foldE (writeBackSet g.family m i whole) (c, t) (dedup (ds.map g.homeAt))

/-- The part of a held store that belongs to some lanes. -/
def StoreEntry.only (e : StoreEntry) (ls : List Nat) : StoreEntry :=
  let as := e.accs.filter fun a => ls.contains a.lane
  { e with accs := as, homes := dedup (as.map (·.sheaf)) }

/-- The part of a region for some lanes. -/
def Region.part (r : Region) (ls : List Nat) : List Region :=
  let mine := r.lanes.filter fun l => ls.contains l
  if mine.isEmpty then []
  else [{ r with lanes := mine, held := (r.held.map fun e => e.only mine).filter fun e => !e.accs.isEmpty }]

/-- What is left of a region when it ends for the lanes `ls`. -/
def keptRegion (r : Region) (ls : List Nat) : List Region := r.part (r.lanes.filter fun l => !ls.contains l)

/-- The held stores that come out when a region ends for the lanes `ls`. -/
def releasedBy (r : Region) (ls : List Nat) : List StoreEntry :=
  (r.held.map fun e => e.only (r.lanes.filter fun l => ls.contains l)).filter fun e => !e.accs.isEmpty

/-- Writes a region's dirty lanes among `ls` back. -/
def writeBack (g : Group) (r : Region) (ls : List Nat) (c : Crew) (t : Map OEntry) : Except Cause (Crew × Map OEntry) :=
  foldE (fun (acc : Crew × Map OEntry) p =>
    writeBackSlot g r.map (r.lanes.filter fun l => ls.contains l) (wholeHomes c g r ls) p.1 p.2 acc.1 acc.2)
    (c, t) r.slots

/-- The registers an ended region's dirty slots make invalid in an episode (Table 2.3). -/
def dirtyRegs (r : Region) (ls : List Nat) : List Nat :=
  r.slots.flatMap fun p =>
    if r.lanes.any fun l => ls.contains l && laneGet p.2.dirty l false then [mapReg r.map p.1] else []

/-- Notes which window stores come before the write-back of a region's dirty lanes among `ls` (R137); `c0` is the crew before it. -/
def stampRegion (c0 : Crew) (g : Group) (r : Region) (ls : List Nat) (c : Crew) : Crew :=
  let mine := r.lanes.filter fun l => ls.contains l
  r.slots.foldl (fun c p =>
    let ds := mine.filter fun l => laneGet p.2.dirty l false
    let v := mapReg r.map p.1
    let c := ds.foldl (fun c l => c.modSheaf (g.homeAt l) fun z => { z with mainW := Map.put z.mainW (32 * v + l) c.winIss }) c
    ((dedup (ds.map g.homeAt)).filter fun h => (wholeHomes c0 g r ls).contains h && (c0.slotSets g.family r.map p.1).replaced.contains h).foldl
      (fun c h => c.modSheaf h fun z => { z with mainWS := Map.put z.mainWS v c.winIss }) c) c

/-- Numbers the window stores that come out at the end of regions, and notes that the write-back comes after them (R137). -/
def orderBack (c0 : Crew) (g : Group) (ls : List Nat) (c : Crew) (es : List StoreEntry) : Crew × List StoreEntry :=
  let q := numberStores c es
  if q.1.winIss = 0 then q else (g.regions.foldl (fun c r => stampRegion c0 g r ls c) q.1, q.2)

/-- Drops the slot sets of regions that no part of a group's issue group has open any more. -/
def Crew.tidySets (c : Crew) (g : Group) : Crew :=
  { c with slotS := c.slotS.filter fun q => q.family != g.family || mapOpen c g q.map }

/-- Ends every region of a group for the lanes `ls` (R46): dirty slots are written back, held stores come out in
program order, and what is left of a region stays open for its other lanes (R71). In a runahead episode nothing is written
and the registers of dirty slots become invalid (Table 2.3). -/
def endRegions (c : Crew) (g : Group) (ls : List Nat) (t : Map OEntry) :
    Except Cause (Crew × Group × Map OEntry × List StoreEntry) :=
  let kept := { g with regions := g.regions.flatMap fun r => keptRegion r ls }
  match g.episode with
  | some ep =>
    .ok (c, { kept with episode := some { ep with invMain := dedup (ep.invMain ++ g.regions.flatMap fun r => dirtyRegs r ls) } },
         t, [])
  | none =>
    match foldE (fun (acc : Crew × Map OEntry) r => writeBack g r ls acc.1 acc.2) (c, t) g.regions with
    | .error e => .error e
    | .ok (c, t) => .ok (c.tidySets kept, kept, t, mergeStores (g.regions.flatMap fun r => releasedBy r ls))

/-! ## Completion flags (R36 to R39) -/

/-- Whether a flag of every one of some home sheaves has room for `n` increments more. -/
def flagRoom (c : Crew) (homes : List Nat) (f n : Nat) : Bool := homes.all fun h => (c.sheaf h).flag f + n ≤ 63

/-- Increments a flag in home sheaves; a full count stalls (R38). -/
def incFlag (c : Crew) (homes : List Nat) (f : Option Nat) : Except Stop Crew :=
  match f with
  | none => .ok c
  | some f =>
    if flagRoom c homes f 1 then
      .ok (homes.foldl (fun c h => c.modSheaf h fun z => { z with flags := Map.put z.flags f (z.flag f + 1) }) c)
    else .error (.block .flagFull)

/-- An instruction with an empty `active` set counts its flag up and, complete at once, down again (R8): it waits where a count
is full (R38). Which sheaves' flags these are R8 leaves open, since no lane of any sheaf takes part: here those of the home
sheaves of all threads present (DESIGN CHOICE, assumption 81). -/
def noLanes (s : State) (x : Iss) (f : Option Nat) : Except Stop State :=
  if x.grp.episode.isSome then .ok s
  else
    match incFlag x.crew (homesOf x.present) f with
    | .error e => .error e
    | .ok _ => .ok s

/-- Decrements a flag in home sheaves. -/
def decFlag (c : Crew) (homes : List Nat) (f : Option Nat) : Crew :=
  match f with
  | none => c
  | some f => homes.foldl (fun c h => c.modSheaf h fun z => { z with flags := Map.put z.flags f (z.flag f - 1) }) c

/-- The live threads of a home sheaf. -/
def liveLanes (z : Sheaf) : List Nat := (List.range z.threads.length).filter fun l =>
  match z.threads[l]? with
  | some t => !t.exited
  | none => false

/-- Frees the banks of the sheaves whose threads have all exited and whose flags are all 0 (R26). -/
def freeSheaves (c : Crew) : Crew :=
  { c with sheaves := c.sheaves.map fun z =>
      if !z.freed && (liveLanes z).isEmpty && z.flags.all fun f => f.2 == 0 then { z with freed := true } else z }

/-- Decrements a flag of a crew of the state; a sheaf that has exited is free once its flags are all 0. -/
def State.decFlag (s : State) (crew : Nat) (homes : List Nat) (f : Option Nat) : State :=
  s.modCrew crew fun c => freeSheaves (Machine.decFlag c homes f)

/-- Lets released stores into the core store order, counting their flag B now (R48, R136). -/
def enqueueStores (s : State) (core : Nat) (c : Crew) (es : List StoreEntry) : Except Stop (State × Crew) :=
  match foldE (fun (acc : Crew × Nat × List StoreEntry) e =>
      match incFlag acc.1 e.homes e.flag with
      | .error w => .error w
      | .ok c => .ok (c, acc.2.1 + 1, acc.2.2 ++ [{ e with seq := acc.2.1 }])) (c, s.seq, []) es with
  | .error e => .error e
  | .ok (c, q, out) =>
    .ok ({ s with seq := q }.modCore core fun k => { k with storeQ := k.storeQ ++ out }, c)

/-- Notes a state-changing instruction (R33): the group's spin records restart, and other entries regain their rank. -/
def stateChange (c : Crew) (role : Nat) (addr : Dword) : Crew :=
  { c with spin := c.spin.filter fun p => p.1 != role,
           demoted := c.demoted.filter fun p => p.1 != role || p.2 == addr.toNat }

/-- Ends the regions of lanes of the issuing group and releases their held stores. -/
def Iss.endRegion (x : Iss) (ls : List Nat) (s : State) : Except Stop (Iss × State) :=
  match endRegions x.crew x.grp ls s.osets with
  | .error c => .error (.raise c [])
  | .ok (c, g, t, out) =>
    let c := if out.isEmpty then c else stateChange c x.grp.role x.cur.addr
    let q := if x.grp.episode.isSome then (c, out) else orderBack x.crew x.grp ls c out
    match enqueueStores { s with osets := t } x.crew.core q.1 q.2 with
    | .error e => .error e
    | .ok (s, c) => .ok ({ x with crew := c, grp := g }, s)

/-- The mask-0 restartable region of R195. -/
def implicitMap : RegionMap := { base := 0, mask := 0, maskSet := 0, restartable := true, nra := false }

/-- Maps to reopen for lanes: those of their open regions (R47), or for an H crew without one the implicit region. -/
def reopenMaps (x : Iss) (ls : List Nat) : List (RegionMap × List Nat) :=
  (x.grp.regions.map fun r => (r.map, r.lanes.filter fun l => ls.contains l)).filter fun p => !p.2.isEmpty

/-! ## Runahead episodes (R53 to R56) -/

/-- The part of a home sheaf an episode copies. -/
def Sheaf.saved (h : Sheaf) : SavedSheaf := { k := h.k, kS := h.kS, p := h.p, pS := h.pS }

/-- Puts a copied part into a home sheaf. -/
def Sheaf.restore (h : Sheaf) (v : SavedSheaf) : Sheaf := { h with k := v.k, kS := v.kS, p := v.p, pS := v.pS }

/-- Exchanges a group's state with its episode's copy of it: done as an instruction of the episode begins and again as
it ends, so that the group's own state never changes (R55). -/
def swapEpisode (c : Crew) (g : Group) : Crew × Group :=
  match g.episode with
  | none => (c, g)
  | some e =>
    let mine := (homesOf g.members).map fun h => (h, (c.sheaf h).saved)
    let ts := g.members.map c.thread
    let c := e.sheaves.foldl (fun c q => c.modSheaf q.1 fun h => h.restore q.2) c
    let c := (g.members.zip e.threads).foldl (fun c p => c.modThread p.1 fun _ => p.2) c
    let e' := { e with inUse := !e.inUse, regions := g.regions, reopen := g.reopen, fetched := g.fetched,
                       active := g.active, wait := g.wait, wHash := g.wHash, sheaves := mine, threads := ts,
                       slotS := c.slotS }
    let c := { c with slotS := e.slotS }
    (c, { g with regions := e.regions, reopen := e.reopen, fetched := e.fetched, active := e.active, wait := e.wait,
                 wHash := e.wHash, episode := some e' })

/-- Ends an episode: its copy and the marks go (R55). -/
def endEpisode (c : Crew) (g : Group) : Crew × Group :=
  match g.episode with
  | none => (c, g)
  | some e =>
    let (c, g) := if e.inUse then swapEpisode c g else (c, g)
    (c, { g with episode := none })

/-- Applies a change of a crew and one of its groups. -/
def State.onGroup (s : State) (crew grp : Nat) (f : Crew → Group → Crew × Group) : State :=
  s.modCrew crew fun c =>
    match Map.find? c.groups grp with
    | some g => { (f c g).1 with groups := Map.put c.groups grp (f c g).2 }
    | none => c

/-- The episode of a group of the state. -/
def State.episode (s : State) (crew grp : Nat) : Option Episode :=
  (Map.find? s.crews crew).bind fun c => (Map.find? c.groups grp).bind fun g => g.episode

/-- The origin-set table outside an episode whose instruction issues (R55). -/
def State.outerTable (s : State) (crew grp : Nat) : Map OEntry :=
  match s.episode crew grp with
  | some e => if e.inUse then e.table else s.osets
  | none => s.osets

/-- Ends the episode of a group of the state. -/
def State.endEpisode (s : State) (crew grp : Nat) : State :=
  { s with osets := s.outerTable crew grp }.onGroup crew grp Machine.endEpisode

/-- Brings the copy of a group's episode in: nothing where the group has none, or the copy is in already. -/
def State.enterEpisode (s : State) (crew grp : Nat) : State :=
  s.onGroup crew grp fun c g =>
    match g.episode with
    | some e => if e.inUse then (c, g) else swapEpisode c { g with episode := some { e with table := s.osets } }
    | none => (c, g)

/-- Takes the copy of a group's episode out again. -/
def State.exitEpisode (s : State) (crew grp : Nat) : State :=
  { s with osets := s.outerTable crew grp }.onGroup crew grp fun c g =>
    match g.episode with
    | some e => if e.inUse then swapEpisode c g else (c, g)
    | none => (c, g)

/-! ## PCs, clauses and frontiers -/

/-- The address of the clause after one (R159). -/
def nextClause (addr : Dword) (hdr : Word) : Dword := addr + dword (4 * (bitsOf hdr.toNat 3 0 + 1))

/-- Sends threads of a crew to index 1 of a clause. -/
def gotoClause (c : Crew) (seq : Nat) (dest : Nat × Nat → Option Dword) (ps : List (Nat × Nat)) : Crew :=
  c.modThreads ps fun p t => match dest p with
    | some a => { t with clause := a, index := 1, reached := seq }
    | none => t

/-- Ends the issuing clause: its group has no active clause left, nor a fetched one. -/
def Group.endClause (g : Group) : Group := { g with active := none, fetched := none }

/-- Marks a switch point of a role group (R34): the next choice follows the pointer's entry. -/
def switchPoint (c : Crew) (role : Nat) : Crew :=
  { c with rotate := Map.put c.rotate role ((Map.get c.rotate role (0, false)).1, true) }

/-- Counts an instruction of a runahead episode (R55). -/
def countEpisode (g : Group) : Group :=
  match g.episode with
  | some e => { g with episode := some { e with count := e.count + 1 } }
  | none => g

/-- The instruction word of a group: the first word that is no prefix. -/
def groupWord (ws : List Word) : Word :=
  match ws with
  | [] => 0
  | w :: rest => if (pkindOf w).isSome then groupWord rest else w

/-- Words of the group at the head of some words: prefixes, the instruction word, and the literal words its fields take
(R163, R68). -/
def groupLen (cls : Cls) (ws : List Word) : Nat :=
  match ws with
  | [] => 1
  | w :: rest =>
    if (pkindOf w).isSome && !rest.isEmpty then 1 + groupLen cls rest
    else
      let lit (u : Use) (code : Nat) : Nat :=
        if code = 63 then match u with
          | .src _ | .uni _ => 1
          | _ => 0
        else 0
      match formOf cls (fieldOf w 31 22) (fieldOf w 9 4) with
      | some f => 1 + min rest.length (lit f.a (fieldOf w 15 10) + lit f.b (fieldOf w 9 4) + lit f.d (fieldOf w 21 16))
      | none => 1

/-- Whether some words of an S clause hold a YIELD: only instruction words do, no literal (R68, R192). -/
def yieldIn (fuel : Nat) (ws : List Word) : Bool :=
  match fuel with
  | 0 => false
  | n + 1 => !ws.isEmpty && (fieldOf (groupWord ws) 31 22 == 4 || yieldIn n (ws.drop (groupLen .S ws)))

/-- Whether a clause holds a YIELD (R192). -/
def hasYield (a : ActiveClause) : Bool := fieldOf a.hdr 6 4 == 4 && yieldIn 16 (a.words.take (fieldOf a.hdr 3 0))

/-- Moves the issuing group's threads past the instruction group just issued: to the next group of the clause, or, at
its end, to the next clause (R159). -/
def advanceGroup (s : State) (cu : Cur) : State :=
  match Map.find? s.crews cu.crew with
  | none => s
  | some c =>
    match Map.find? c.groups cu.group with
    | none => s
    | some g =>
      match g.active with
      | none => { s with cur := none }
      | some a =>
        let g := countEpisode { g with wait := .none }
        let ps := a.lanes.map fun l => (l, g.homeAt l)
        let nx := cu.first + cu.len
        if nx ≤ bitsOf a.hdr.toNat 3 0 then
          let c := c.modThreads ps fun _ t => { t with index := nx }
          { s with cur := none,
                   crews := Map.put s.crews cu.crew
                     { c with groups := Map.put c.groups cu.group { g with active := some { a with index := nx } } } }
        else
          let c := c.modThreads ps fun _ t =>
            { t with clause := nextClause a.addr a.hdr, index := 1, reached := s.seq }
          let c := if (a.hdr.getLsbD 27 || hasYield a) && g.episode.isNone then switchPoint c g.role else c
          { s with cur := none, seq := s.seq + 1,
                   crews := Map.put s.crews cu.crew { c with groups := Map.put c.groups cu.group g.endClause } }

/-! ## Causes (15_translation.md Table 15.7) -/

/-- What a cause does (R356). -/
inductive Effect where
  | handler | serve | fail | info | posted
  deriving DecidableEq, Repr

/-- The 9-bit code of a cause. -/
def causeCode : Cause → Nat
  | .illClauseCount => 0x001 | .illClauseClass => 0x002 | .illClauseResv => 0x003 | .illFlag => 0x004
  | .illOpcode => 0x005 | .illOperand => 0x006 | .illLiteral => 0x007 | .illPrefix => 0x008
  | .illBranchPos => 0x009 | .illResvField => 0x00A | .illAlignReg => 0x00B | .illXregWrite => 0x00C
  | .unmappedSlot => 0x040 | .barOverarrive => 0x041 | .barDropUnderflow => 0x042 | .stallTimeout => 0x043
  | .launchDepth => 0x044 | .launchDesc => 0x045 | .migrCrew => 0x046 | .stackOverflow => 0x047
  | .stackUnderflow => 0x048 | .breakpoint => 0x049 | .trapNested => 0x04A
  | .pageAbsent => 0x080 | .pageRights => 0x081 | .stage2Absent => 0x082 | .stage2InWalk => 0x083
  | .misaligned => 0x084 | .scratchRange => 0x085 | .typedRange => 0x086 | .regwinRange => 0x087
  | .remoteUnreachable => 0x088 | .faultBatch => 0x089 | .launchRange => 0x08A
  | .ringMisuse => 0x100 | .slotState => 0x101 | .matrixFormat => 0x102 | .copyDesc => 0x103 | .copyDims => 0x104
  | .msgOverflow => 0x105 | .msgSize => 0x106 | .permTable => 0x107
  | .osetEscalation => 0x140 | .osetOverflow => 0x141 | .egressDenied => 0x142
  | .queueKilled => 0x180 | .preempted => 0x181 | .guaranteeDeficit => 0x182 | .evicted => 0x183
  | .dataUncorrectable => 0x1C0 | .unitFenced => 0x1C1 | .linkQuarantined => 0x1C2
  | .swTrap c => 0x1E0 + c

/-- The effect of a cause. -/
def causeEffect : Cause → Effect
  | .trapNested | .pageRights | .misaligned | .scratchRange | .typedRange | .regwinRange | .remoteUnreachable
  | .launchRange | .osetEscalation | .osetOverflow | .egressDenied | .dataUncorrectable => .fail
  | .pageAbsent | .stage2Absent | .stage2InWalk | .faultBatch => .serve
  | .queueKilled | .preempted | .evicted => .info
  | .guaranteeDeficit | .unitFenced | .linkQuarantined => .posted
  | _ => .handler

/-- Whether a cause goes to the hypervisor's queue. -/
def causeToHypervisor : Cause → Bool
  | .stage2Absent | .stage2InWalk | .osetEscalation | .osetOverflow | .egressDenied | .queueKilled | .preempted
  | .guaranteeDeficit | .evicted | .dataUncorrectable | .unitFenced | .linkQuarantined => true
  | _ => false

/-! ## Fault records (R351, Table 15.4) -/

/-- A record with nothing in it. -/
def FRec.init : FRec :=
  { kind := 3, flags := 0, cause := 0, vf := 0, count := 0, batch := 0, grid := 0, crew := 0, sheaf := 0, core := 0,
    va := 0, gpa := 0, clause := 0, index := 0, pages := [] }

/-- Puts a part's records at the end of a VF's fault queue, to be written as room allows. -/
def State.toDriver (s : State) (vf : Nat) (rs : List FRec) : State :=
  s.modVf vf fun v => { v with fq := { v.fq with waiting := v.fq.waiting ++ [rs.map fun r => { r with vf := 0 }] } }

/-- Puts a part's records at the end of the hypervisor's fault queue. -/
def State.toHypervisor (s : State) (rs : List FRec) : State :=
  { s with hfq := { s.hfq with waiting := s.hfq.waiting ++ [rs] } }

/-- A cause notice to the queue Table 15.7 names. -/
def State.notice (s : State) (vf : Nat) (c : Cause) (r : FRec) : State :=
  let r := { r with kind := 3, cause := causeCode c, vf := vf }
  let s := if c = .egressDenied ∧ r.count < 16 then countEvent s 4 r.count vf false 0x0302 else s
  if causeToHypervisor c then s.toHypervisor [r] else s.toDriver vf [r]

/-- The logical core ID a record carries; 0xFFFF for a core that is not the partition's (R130, R351). -/
def logicalCore (s : State) (vf core : Nat) : Nat :=
  match List.find? (fun p => p.2 == core) (s.vf vf).placeCore with
  | some p => p.1
  | none => 0xFFFF

/-- The record of a crew's fault at an instruction. -/
def crewRec (s : State) (vf grid : Nat) (w : Crew) (sheaf : Nat) (clause : Dword) (index : Nat) (va : Dword) : FRec :=
  { FRec.init with grid := grid, crew := w.index, sheaf := sheaf, core := logicalCore s vf w.core, va := va,
                   clause := clause, index := index }

/-! ## Stopping a grid (R65, R333, R338) -/

/-- Whether an operation stops with its crew, rather than draining: copies at their progress, and receives. -/
def OpKind.stops : OpKind → Bool
  | .copy .. | .recv .. => true
  | _ => false

/-- The XOR of the store hashes of some crews' sheaves whose threads have all exited (R415). -/
def exitedHash (ws : List Crew) : Dword :=
  (ws.flatMap fun w => w.sheaves).foldl (fun h z => if z.threads.all fun t => t.exited then h ^^^ z.hash else h) 0

/-- A core without the fast buffers and shadows of some crews (R13, R71). -/
def Core.sansGroups (k : Core) (gone : Nat → Bool) : Core :=
  { k with buffers := k.buffers.filter fun p => !gone p.2.1, shadows := k.shadows.filter fun p => !gone p.2.1 }

/-- Whether a crew is of a grid. -/
def gridIs (s : State) (crew gid : Nat) : Bool :=
  match Map.find? s.crews crew with
  | some w => w.grid == gid
  | none => false

/-- Stops and frees every crew of a grid: issued operations drain, copies stop at their progress, batches are
abandoned (R65, R338, R354). The dies they stood on are noted: the dirty bytes there go back before the grid's record is
written (R323, R332). -/
def stopCrews (s : State) (gid : Nat) : State :=
  let h := exitedHash ((s.crews.filter fun p => p.2.grid == gid).map (·.2))
  let stops (n : Nat) : Bool :=
    match Map.find? s.ops n with
    | some o => o.grid == gid && o.kind.stops
    | none => false
  { s with
    grids := Map.mod s.grids gid fun g =>
      { g with hash := g.hash ^^^ h,
               dies := dedup (g.dies ++ (s.crews.filter fun p => p.2.grid == gid).map fun p => dieOf p.2.core) }
    crews := s.crews.filter fun p => p.2.grid != gid
    ops := s.ops.filter fun p => !(p.2.grid == gid && p.2.kind.stops)
    batches := s.batches.filter fun p => p.2.grid != gid
    engines := s.engines.map fun p =>
      (p.1, { p.2 with table := p.2.table.filter fun r => !gridIs s r.crew gid })
    cores := s.cores.map fun p => (p.1, { p.2.sansGroups (fun crew => gridIs s crew gid) with
      msgQ := p.2.msgQ.filter fun m => m.grid != gid
      recvs := p.2.recvs.filter fun n => !stops n })
    booked := Map.del s.booked gid
    cur := none }

/-- The grid's first cause stands once set (Table 14.7). -/
def Grid.stop (g : Grid) (st : Status) (c : Cause) : Grid :=
  { g with stopped := some (g.stopped.getD st), first := some (g.first.getD c) }

/-- Fails a grid with a cause: the notice, the stop, and the first cause (R65, R356). -/
def failGrid (s : State) (gid : Nat) (c : Cause) (r : FRec) : State :=
  match Map.find? s.grids gid with
  | none => s
  | some g => stopCrews ((s.notice g.vf c r).modGrid gid fun g => g.stop .failed c) gid

/-- The cause of an access of some threads met after its issue: one of a thread in its handler is nested (R64). -/
def nestedAs (s : State) (crew : Nat) (ps : List (Nat × Nat)) (c : Cause) : Cause :=
  match Map.find? s.crews crew with
  | some w => if ps.any fun p => (w.thread p).handler then .trapNested else c
  | none => c

/-- Counts a cause of a grid (Table 14.7). -/
def countCause (s : State) (grid : Nat) : State := s.modGrid grid fun g => { g with faults := g.faults + 1 }

/-! ## Raising a cause (R61, R63 to R65, R205, R348, R356) -/

/-- The address an instruction reports for a lane: 0 where it has none (R61). -/
def faddrOf (fa : List (Nat × Dword)) (l : Nat) : Dword :=
  match fa.find? fun p => p.1 == l with
  | some p => p.2
  | none => 0

/-- The region map a lane stands in. -/
def laneMap (g : Group) (l : Nat) : Option RegionMap :=
  match regionOf g l with
  | some r => some r.map
  | none => (g.reopen.find? fun p => p.2.contains l).map (·.1)

/-- The instruction after the group being issued, for a cause at word ix: after the whole clause at index 0 (R164). -/
def afterTrap (cu : Cur) (ix : Nat) : Dword × Nat :=
  if ix ≠ 0 ∧ cu.first + cu.len ≤ bitsOf cu.hdr.toNat 3 0 then (cu.addr, cu.first + cu.len) else (nextClause cu.addr cu.hdr, 1)

/-- Trap entry of one thread (R61, R205): the special registers, the trap PC, the recorded map, and the handler's
address. -/
def trapThread (code : Nat) (cu : Cur) (ix : Nat) (set : OSet) (fa : Dword) (m : Option RegionMap) (h : Dword)
    (seq : Nat) (t : Thread) : Thread :=
  { t with cause := BitVec.ofNat 9 code, tpc := lo32 (cu.addr + dword (4 * ix)), faddr := fa, trapS := set, handler := true,
           trapPc := cu.addr, trapIx := ix, trapRetry := if ix = 0 then 1 else cu.first, trapNext := afterTrap cu ix,
           trapMap := m, trapDepth := t.ret.length, barWait := none, trapBar := t.barWait, joinWait := none, trapJoin := t.joinWait, clause := h, index := 1, reached := seq }

/-- Distinct maps. -/
def dedupMaps (ms : List RegionMap) : List RegionMap :=
  match ms with
  | [] => []
  | m :: rest => if rest.contains m then dedupMaps rest else m :: dedupMaps rest

/-- The maps of the regions that an issue group has open or pending, over its parts: one fast buffer each (R71), a region
of no slots among them. -/
def familyMaps (c : Crew) (fam : Nat) : List RegionMap :=
  dedupMaps (c.groups.flatMap fun p =>
    if p.2.family = fam then (p.2.regions.map fun r => r.map) ++ p.2.reopen.map (·.1) else [])

/-- The maps of the regions that a group's issue group has open, and those it is to open now. -/
def openedMaps (c : Crew) (g : Group) (new : List RegionMap) : List RegionMap :=
  dedupMaps ((g.regions.map fun r => r.map) ++ (otherParts c g).flatMap (fun q => q.regions.map fun r => r.map) ++ new)

/-- The fast buffers an issue group holds. -/
def buffersHeld (k : Core) (crew fam : Nat) : List Nat := (k.buffers.filter fun p => p.2 == (crew, fam)).map (·.1)

/-- Whether an issue group holds a buffer for each of some number of regions. -/
def bufferRoom (s : State) (x : Iss) (n : Nat) : Bool := decide (n ≤ (buffersHeld (s.core x.crew.core) x.cur.crew x.grp.family).length)

/-- Takes the fast buffers away that an issue group has no region for (R71). A group of an H crew that has left its region keeps its
buffer for the implicit region that opens at its next instruction (R195; DESIGN CHOICE, assumption 82). -/
def freeFamily (s : State) (crew fam : Nat) : State :=
  match Map.find? s.crews crew with
  | none => s
  | some w =>
    let keep := (buffersHeld (s.core w.core) crew fam).take (familyMaps w fam).length
    let s := s.modCore w.core fun k => { k with buffers := k.buffers.filter fun p => p.2 != (crew, fam) || keep.contains p.1 }
    if keep.isEmpty then
      s.modCrew crew fun c => { c with groups := c.groups.map fun p =>
        if p.2.family = fam then (p.1, { p.2 with quad := none }) else p }
    else s

/-- Takes the fast buffers away that a group's issue group has no region for, outside an episode. -/
def freeBuffer (s : State) (crew grp : Nat) : State :=
  match (Map.find? s.crews crew).bind fun w => Map.find? w.groups grp with
  | some g => if g.episode.isSome then s else freeFamily s crew g.family
  | none => s

/-! ## Parts of an issue group -/

/-- The part of an issue group with some members. -/
def Group.part (g : Group) (ps : List (Nat × Nat)) : Group :=
  let ls := lanesIn ps
  { g with members := g.members.filter fun p => ps.contains p, regions := g.regions.flatMap fun r => r.part ls,
           reopen := (g.reopen.map fun p => (p.1, p.2.filter fun l => ls.contains l)).filter fun p => !p.2.isEmpty }

/-- A group number not yet taken in a crew. -/
def Crew.freshGroup (c : Crew) : Nat := maxOf (Map.keys c.groups) + 1

/-- Sets some members of a group apart as a part of their own; the others stay (R85). A part of all members is the group. -/
def splitPart (c : Crew) (grp : Nat) (ps : List (Nat × Nat)) (f : Group → Group) : Crew :=
  match Map.find? c.groups grp with
  | none => c
  | some g =>
    let rest := g.members.filter fun p => !ps.contains p
    if rest.isEmpty then { c with groups := Map.put c.groups grp (f g) }
    else { c with groups := Map.put (Map.put c.groups grp (g.part rest)) c.freshGroup (f (g.part ps)) }

/-- Sets the members of a group apart by where they stand: one part for each PC. -/
def splitByPc (c : Crew) (grp : Nat) (ps : List (Nat × Nat)) : Crew :=
  let pc (p : Nat × Nat) : Nat := (c.thread p).clause.toNat * 16 + (c.thread p).index
  ((dedup (ps.map pc)).drop 1).foldl (fun c a => splitPart c grp (ps.filter fun p => pc p == a) id) c

/-- TAKING AN EXCEPTION: threads `ts` of a group enter the trap handler (R61, R63, R205). The issuing threads' region ends as
at a commit instruction, the trapping threads' state is saved, and they become a frontier entry at the handler's address; the
group's other threads keep their clause, their region to reopen there. -/
def trapEntry (s : State) (x : Iss) (ts : List (Nat × Nat)) (c : Cause) (ix : Nat) (set : OSet)
    (fa : List (Nat × Dword)) : Except Stop State :=
  let ls := lanesIn ts
  match x.endRegion (lanesIn x.present) s with
  | .error e => .error e
  | .ok (y, s) =>
    let stay := (lanesIn x.present).filter fun l => !ls.contains l
    let w := y.crew.modThreads ts fun p t =>
      trapThread (causeCode c) x.cur ix set (faddrOf fa p.1) (laneMap x.grp p.1) x.grid.desc.handler s.seq t
    let act := y.grp.active.bind fun a =>
      let rest := a.lanes.filter fun l => !ls.contains l
      if rest.isEmpty then none else some { a with lanes := rest }
    let s := ({ y with crew := w, grp := { y.grp with active := act, wait := .none, reopen := x.grp.reopen ++ reopenMaps x stay } } : Iss).put { s with cur := none, seq := s.seq + 1 }
    let s := s.modCrew x.cur.crew fun c => splitPart c x.cur.group ts fun g =>
      { g with active := none, fetched := none, wait := .none, reopen := if x.isH then [(implicitMap, ls)] else [] }
    let s := freeBuffer s x.cur.crew x.cur.group
    .ok (s.modGrid w.grid fun d => { d with faults := d.faults + 1, first := some (d.first.getD c) })

/-- The distinct pages of a fault, by stage. -/
def partPages (st2 : Bool) (ps : List (Bool × Nat × Bool × Bool)) : List (Nat × Bool × Bool) :=
  (ps.filter fun p => p.1 == st2).map fun p => p.2

/-- A page entry of a page-list record (R351). -/
def pageEntry (st2 : Bool) (p : Nat × Bool × Bool) : Dword :=
  dword (p.1 / 65536 * 65536 + (if st2 then 8 else 0) + (if p.2.2 then 4 else 0) + (if p.2.1 then 2 else 0) + 1)

/-- Lists of at most six. -/
def chunks6 (fuel : Nat) (xs : List Dword) : List (List Dword) :=
  match fuel with
  | 0 => []
  | n + 1 => if xs.isEmpty then [] else xs.take 6 :: chunks6 n (xs.drop 6)

/-- A part's records: a header of type 1 and its page lists (R350). -/
def partRecords (r : FRec) (st2 other : Bool) (flags batch : Nat) (ps : List (Nat × Bool × Bool)) : List FRec :=
  let es := ps.map (pageEntry st2)
  { r with kind := 1, cause := causeCode .faultBatch, flags := flags ||| (if other then 1 else 0), batch := batch,
           count := ps.length, gpa := if st2 then dword ((ps.head?.map (·.1)).getD 0) else 0 } ::
  (chunks6 12 es).mapIdx fun i e =>
    { FRec.init with kind := 2, cause := causeCode .faultBatch, vf := r.vf, count := i + 1, batch := batch, pages := e }

/-- The next batch id of a partition, skipping 0 (R350). -/
def nextBatch (v : Vf) : Word := if v.batchId + 1 = 0 then 1 else v.batchId + 1

/-- The key of a batch of a VF. -/
def batchKey (vf : Nat) (b : Word) : Nat := vf * 2 ^ 32 + b.toNat

/-- Reports a batch: its parts go to their queues under one id, and it waits for its answers (R349, R350, R355). -/
def reportBatch (s : State) (vf : Nat) (c : Cause) (pages : List (Bool × Nat × Bool × Bool)) (flags : Nat) (gpa : Dword)
    (r : FRec) (b : Batch) : State × Nat :=
  let id := nextBatch (s.vf vf)
  let s := s.modVf vf fun v => { v with batchId := id }
  let key := batchKey vf id
  if c = .stage2InWalk then
    let s := s.toHypervisor [{ r with kind := 3, cause := causeCode c, vf := vf, flags := flags ||| 2, batch := id.toNat, gpa := gpa }]
    ({ s with batches := Map.put s.batches key { b with part1 := false, part2 := true } }, key)
  else
    let p1 := partPages false pages
    let p2 := partPages true pages
    let s := if p1.isEmpty then s else s.toDriver vf (partRecords r false (!p2.isEmpty) 0 id.toNat p1)
    let s := if p2.isEmpty then s
             else s.toHypervisor (partRecords { r with vf := vf } true (!p1.isEmpty) flags id.toNat p2)
    ({ s with batches := Map.put s.batches key { b with part1 := !p1.isEmpty, part2 := !p2.isEmpty } }, key)

/-- The distinct pages, the lowest lane's first (R349). -/
def distinctPages (ps : List (Bool × Nat × Bool × Bool)) : List (Bool × Nat × Bool × Bool) :=
  ps.foldl (fun acc p => if acc.any fun q => q.1 == p.1 && q.2.1 == p.2.1 then acc else acc ++ [p]) []

/-- Whether fault runahead starts (R57): a shadow of the quad is free and the region is not `.NRA`. -/
def shadowFree (s : State) (x : Iss) : Bool :=
  match x.grp.quad with
  | none => false
  | some q => decide (((s.core x.crew.core).shadows.filter fun p => p.1 / 2 == q).length < 2)

/-- The lowest free shadow buffer of a quad (two per quad). -/
def freeShadow (k : Core) (q : Nat) : Option Nat :=
  if !Map.has k.shadows (2 * q) then some (2 * q) else if !Map.has k.shadows (2 * q + 1) then some (2 * q + 1) else none

/-- The main register behind slot n of a lane, by the maps of an operation's issue; 256 where there is none. -/
def destMain (d : Dest) (l n : Nat) : Nat :=
  match d.maps.find? fun p => p.2.contains l with
  | some p => mapReg p.1 n
  | none => 256

/-- The main register behind register i of a destination in a lane; none where the result is discarded. -/
def Dest.mainReg (d : Dest) (l i : Nat) : Option Nat :=
  match d.d with
  | .w n => some (destMain d l (n.val + i))
  | .v n => some (n.val + i)
  | _ => none

/-- The slot, or else the main register, a result for a register in a lane of a group comes into as the group stands: a commit
result comes into the main register, and into its slot where the lane is clean (R47, assumption 12). -/
def resultMarks (g : Group) (commit : Bool) (l v : Nat) : List (Nat × Nat) × List Nat :=
  match xregSlot g l v with
  | none => ([], [v])
  | some j =>
    if !commit then ([(l, j)], [])
    else if ((slotOf g l j).map fun sl => laneGet sl.dirty l false).getD false then ([], [v])
    else ([(l, j)], [v])

/-- The slots and main registers an operation still delivers into, for threads of a group (R53). -/
def destMarks (g : Group) (ts : List (Nat × Nat)) (d : Dest) : List (Nat × Nat) × List Nat :=
  let ms := ts.flatMap fun q => (List.range d.regs).filterMap fun i => (d.mainReg q.1 i).map (resultMarks g d.commit q.1)
  (ms.flatMap (·.1), dedup (ms.flatMap (·.2)))

/-- Registers that operations in flight still write, as marks by lane and slot, main register, and sheaf and k (R53). -/
def inFlightMarks (s : State) (crew : Nat) (g : Group) : List (Nat × Nat) × List Nat × List (Nat × Nat) :=
  s.ops.foldl (fun acc p =>
    if p.2.crew = crew then
      let ts := p.2.lanes.filter fun q => g.members.contains q
      match p.2.kind with
      | .load d | .atom _ d _ _ | .barpa d => (acc.1 ++ (destMarks g ts d).1, dedup (acc.2.1 ++ (destMarks g ts d).2), acc.2.2)
      | .loadK d n =>
        (acc.1, acc.2.1, acc.2.2 ++ (homesOf ts).flatMap fun h => (List.range n).map fun i => (h, d + i))
      | _ => acc
    else acc) ([], [], [])

/-- Starts an episode (R53) at a clause: the group's state copied, the destinations in flight invalid. -/
def startEpisode (s : State) (x : Iss) (act : Option ActiveClause) (fault : Option FaultStart)
    (pages : List (Bool × Nat × Bool × Bool)) : State :=
  let (mS, mM, mK) := inFlightMarks s x.cur.crew x.grp
  let e : Episode :=
    { inUse := false, lanes := (act.map (·.lanes)).getD [], regions := x.grp.regions, reopen := x.grp.reopen,
      fetched := x.grp.fetched, active := act, wait := .none, wHash := x.grp.wHash, table := []
      sheaves := (homesOf x.grp.members).map fun h => (h, (x.crew.sheaf h).saved)
      threads := x.grp.members.map x.crew.thread
      slotS := x.crew.slotS, invSlot := mS, invMain := mM, invK := mK, invP := [], heldK := [], invSpec := [], count := 0, fault := fault, pages := pages }
  let s := countCore ({ x with grp := { x.grp with episode := some e } }.put s) x.crew.core x.grid 0x0004
  match x.grp.quad.bind (freeShadow (s.core x.crew.core)) with
  | some i => s.modCore x.crew.core fun k => { k with shadows := Map.put k.shadows i (x.cur.crew, x.cur.group) }
  | none => s

/-- Frees the shadow buffers of a group. -/
def freeShadows (k : Core) (crew grp : Nat) : Core := { k with shadows := k.shadows.filter fun p => p.2 != (crew, grp) }

/-- Reports the batch of a group's fault and halts the group until it is served (R348, R349). -/
def haltForService (s : State) (x : Iss) (c : Cause) (pages : List (Bool × Nat × Bool × Bool)) (flags : Nat) (gpa : Dword)
    (fa : List (Nat × Dword)) (ix : Nat) : State :=
  let low := (fa.head?.map (·.1)).getD 0
  let va := faddrOf fa low
  let r := crewRec s x.grid.vf x.crew.grid x.crew (x.grp.homeAt low) x.cur.addr ix va
  let (s, key) := reportBatch s x.grid.vf c (distinctPages pages) flags gpa r
    { vf := x.grid.vf, grid := x.crew.grid, crew := x.cur.crew, group := some x.cur.group, op := none,
      part1 := false, part2 := false }
  let s := { x with grp := { x.grp with wait := .fault key } }.put { s with cur := none }
  s.modGrid x.crew.grid fun d => { d with faults := d.faults + 1 }

/-- Reports the batch a fault runahead has collected and halts the group until it is served (R57 step 4, R349). -/
def reportEpisode (s : State) (crew grp : Nat) (f : FaultStart) (pages : List (Bool × Nat × Bool × Bool)) : State :=
  match Map.find? s.crews crew with
  | none => s
  | some w =>
    match Map.find? w.groups grp, Map.find? s.grids w.grid with
    | some g, some d =>
      let low := (f.fa.head?.map (·.1)).getD 0
      let addr := (g.active.map (·.addr)).getD 0
      let r := crewRec s d.vf w.grid w (g.homeAt low) addr f.index (faddrOf f.fa low)
      let (s, key) := reportBatch s d.vf f.cause pages f.flags f.gpa r
        { vf := d.vf, grid := w.grid, crew := crew, group := some grp, op := none, part1 := false, part2 := false }
      (s.modGroup crew grp fun g => { g with wait := .fault key }).modGrid w.grid fun d =>
        { d with faults := d.faults + 1 }
    | _, _ => s

/-- Ends a group's episode at an ending event (R55): the saved state comes back, the shadow is free, and a fault
runahead reports its batch. -/
def State.leaveEpisode (s : State) (crew grp : Nat) : State :=
  match Map.find? s.crews crew with
  | none => s
  | some w =>
    let s' := ({ s with cur := none }.endEpisode crew grp).modCore w.core fun k => freeShadows k crew grp
    match (Map.find? w.groups grp).bind fun g => g.episode with
    | some e =>
      match e.fault with
      | some f => reportEpisode s' crew grp f e.pages
      | none => s'
    | none => s

/-- The grid of a crew of the state. -/
def State.gridOf (s : State) (crew : Nat) : Option (Crew × Grid) :=
  (Map.find? s.crews crew).bind fun w => (Map.find? s.grids w.grid).map fun g => (w, g)

/-- Counts the instruction group just issued (Table 18.4). -/
def countGroup (s : State) (cu : Cur) : State :=
  match s.gridOf cu.crew with
  | some (w, g) => countCore s w.core g (if (s.episode cu.crew cu.group).isSome then 0x0003 else 0x0002)
  | none => s

/-- Ends the issue of an instruction. In an episode its copy goes out again, and the episode ends at 65 pages (R57). -/
def finishIssue (s : State) (cu : Cur) : State :=
  let s := (countGroup s cu).exitEpisode cu.crew cu.group
  match s.episode cu.crew cu.group with
  | none => s
  | some e => if 65 ≤ e.pages.length then s.leaveEpisode cu.crew cu.group else s

/-- Moves past the instruction just issued (R159). -/
def advance (s : State) (cu : Cur) : State := finishIssue (advanceGroup s cu) cu

/-- Records a cause where a trace unit follows the core (Table 18.6, kind 6). -/
def traceCause (s : State) (x : Iss) (ts : List (Nat × Nat)) (c : Cause) (ix : Nat) : State :=
  traceThreads s x.crew.grid x.grid x.crew 6 (causeCode c) x.cur.addr ix ts

/-- Where a cause leaves the machine: the effect Table 15.7 gives it, in the threads `ts`, at word `ix` of the
clause, with the trap set's members `sets` (R78). In a runahead episode nothing is reported and the episode ends
(R55), a cause that Table 2.3 does not name among them (DESIGN CHOICE, assumption 68). `tret` marks a cause of a TRET, which is never
nested (R64). -/
def raiseFrom (tret : Bool) (s : State) (x : Iss) (ts : List (Nat × Nat)) (c : Cause) (ix : Nat) (sets : List OSet)
    (fa : List (Nat × Dword)) : State :=
  if x.grp.episode.isSome then
    s.leaveEpisode x.cur.crew x.cur.group
  else
    let s := traceCause s x ts c ix
    let low := (ts.head?).getD (0, 0)
    let r := crewRec s x.grid.vf x.crew.grid x.crew low.2 x.cur.addr ix (faddrOf fa ((fa.head?.map (·.1)).getD 0))
    let counted := s.modGrid x.crew.grid fun d => { d with faults := d.faults + 1 }
    let nested := !tret && ts.any fun p => (x.crew.thread p).handler
    match causeEffect c with
    | .handler =>
      if nested then failGrid counted x.crew.grid .trapNested r
      else if x.grid.desc.handler = 0 then
        stopCrews ((counted.toDriver x.grid.vf [{ r with cause := causeCode c }]).modGrid x.crew.grid fun g => g.stop .failed c) x.crew.grid
      else
        match osJoinAll s.osets 0 sets with
        | .error e => failGrid counted x.crew.grid e r
        | .ok (set, t) =>
          match trapEntry { s with osets := t } x ts c ix set fa with
          | .ok s' => s'
          | .error (.block w) => { x with grp := { x.grp with wait := w } }.put { s with cur := none }
          | .error (.raise e _) => failGrid counted x.crew.grid e r
          | .error _ => failGrid counted x.crew.grid .osetOverflow r
    | _ => if nested then failGrid counted x.crew.grid .trapNested r else failGrid counted x.crew.grid c r

/-- A cause of any instruction but TRET. -/
def raiseCause (s : State) (x : Iss) (ts : List (Nat × Nat)) (c : Cause) (ix : Nat) (sets : List OSet)
    (fa : List (Nat × Dword)) : State := raiseFrom false s x ts c ix sets fa

/-- Where a group's active clause stands: an instruction that waits there has passed its breakpoint (R411). -/
def Group.here (g : Group) : Option (Dword × Nat) := g.active.map fun a => (a.addr, a.index)

/-- Where a `Stop` leaves the machine: the outcome of an instruction that did not complete. -/
def settle (s : State) (x : Iss) (ts : List (Nat × Nat)) (ix : Nat) (sets : List OSet) (e : Stop) :
    Outcome State Fault Refusal :=
  match e with
  | .raise c fa => .next (raiseCause s x ts c ix sets fa)
  | .block w =>
    if x.grp.episode.isSome then
      .next (s.leaveEpisode x.cur.crew x.cur.group)
    else .next ({ x with grp := { x.grp with wait := w, brk := x.grp.here } }.put { s with cur := none })
  | .serve c pages flags gpa fa =>
    if x.grp.episode.isSome then
      .next (s.leaveEpisode x.cur.crew x.cur.group)
    else .next (haltForService s x c pages flags gpa fa ix)
  | .flaw f fa => .next (raiseCause { s with found := s.found ++ [f] } x ts .dataUncorrectable ix sets fa)
  | .fault f => .fault f

/-- RETURNING FROM AN EXCEPTION (R206, R62, R164): a thread leaves the handler for its trap PC, or for the instruction after
it; the wait of a BARS or JOINC it trapped in goes on at a retry. -/
def returnThread (retry : Bool) (seq : Nat) (t : Thread) : Thread :=
  { t with clause := if retry then t.trapPc else t.trapNext.1, index := if retry then t.trapRetry else t.trapNext.2,
           reached := seq, handler := false, barWait := if retry then t.trapBar else none, trapBar := none,
           joinWait := if retry then t.trapJoin else none, trapJoin := none }

/-! ## Where groups stand, and what they wait for (R29, R32, R36) -/

/-- Whether a flag is at or below a threshold in every home sheaf of some threads. -/
def flagMet (c : Crew) (ps : List (Nat × Nat)) (f thr : Nat) : Bool := (homesOf ps).all fun h => decide ((c.sheaf h).flag f ≤ thr)

/-- Whether a member of a group goes on with it: it is live, and its episode, where that is in, has not left it behind (Table 2.3). -/
def Group.goesOn (c : Crew) (g : Group) (p : Nat × Nat) : Bool :=
  !(c.thread p).exited &&
    match g.episode with
    | some e => !e.inUse || e.lanes.contains p.1
    | none => true

/-- The first live member of a group; every live member stands at its PC. -/
def Group.first (c : Crew) (g : Group) : Option (Nat × Nat) := g.members.find? (g.goesOn c)

/-- Where a group stands: the clause and index its threads resume at. -/
def Group.pc (c : Crew) (g : Group) : Option (Dword × Nat) := (g.first c).map fun p => ((c.thread p).clause, (c.thread p).index)

/-- The live members of a group, by ascending lane position. -/
def Group.live (c : Crew) (g : Group) : List (Nat × Nat) :=
  let ps := g.members.filter (g.goesOn c)
  (List.range 32).filterMap fun l => ps.find? fun p => p.1 == l

/-- The clause a group has fetched for where it stands: header and words. -/
def Group.clause (c : Crew) (g : Group) : Option (Word × List Word) :=
  match g.pc c, g.fetched with
  | some (a, _), some (b, h :: ws) => if a = b then some (h, ws) else none
  | _, _ => none

/-- Whether the flags of a header's wait mask are 0 in every home sheaf of a group (R32, R36). -/
def maskMet (c : Crew) (g : Group) (hdr : Word) : Bool :=
  (List.range 12).all fun i => !hdr.getLsbD (7 + i) || flagMet c (g.live c) i 0

/-- Whether the wait that an episode hides has become met: that of the clause, or of the WAITF (R55). -/
def episodeMet (c : Crew) (g : Group) : Bool :=
  match g.episode with
  | some e => e.fault.isNone && !e.inUse &&
      match g.active, g.wait, g.clause c with
      | some _, .waitf f thr, _ => flagMet c (g.live c) f thr
      | none, .none, some (h, _) => maskMet c g h
      | _, _, _ => false
  | none => false

end Sys2Proof.Machine
end

