-- ==== Sys2Proof/Machine/Operands.lean ====
section
/-! DEFINITION. Operand forms: reading sources and writing destinations, with their origin sets and, in a runahead
episode, their marks of invalid data (03_registers.md R68 to R74, R80, R82, R83; 00_scope.md R10). -/

namespace Sys2Proof.Machine

/-! ## Sources -/

/-- The i-th register of an operand in a lane; none where it is a slot that is not mapped. A literal of two words is
sign-extended, and `z` is 0 (R69). -/
def laneReg (x : Iss) (o : Operand) (i : Nat) (p : Nat × Nat) : Option Word :=
  match o with
  | .w n => (slotOf x.grp p.1 (n.val + i)).map fun sl => laneGet sl.vals p.1 0
  | .k n => some (Map.get (x.crew.sheaf p.2).k (n.val + i) 0)
  | .z => some 0
  | .lit w => some (if i = 0 then w else if w.msb then 0xFFFFFFFF else 0)
  | .v n =>
    match xregSlot x.grp p.1 (n.val + i) with
    | some j => (slotOf x.grp p.1 j).map fun sl => laneGet sl.vals p.1 0
    | none => some ((x.crew.sheaf p.2).mainAt (n.val + i) p.1)

/-- The i-th register of an operand in a lane, 0 where there is none. -/
def valAt (x : Iss) (o : Operand) (i : Nat) (p : Nat × Nat) : Word := (laneReg x o i p).getD 0

/-- A 32-bit operand in a lane. -/
def val32 (x : Iss) (o : Operand) (p : Nat × Nat) : Word := valAt x o 0 p

/-- A 64-bit operand in a lane (R10, R69). -/
def val64 (x : Iss) (o : Operand) (p : Nat × Nat) : Dword := pair (valAt x o 0 p) (valAt x o 1 p)

/-- Whether a thread can name the registers of an operand: slots mapped, main registers within its budget (R70, R73). -/
def readable (x : Iss) (o : Operand) (n : Nat) (p : Nat × Nat) : Bool :=
  (List.range n).all fun i => (laneReg x o i p).isSome

/-- Whether an operand names no main register beyond the budget of its thread's role (R67, R73). -/
def inBudget (x : Iss) (o : Operand) (n : Nat) (p : Nat × Nat) : Bool :=
  match o with
  | .v r => decide (r.val + n ≤ (x.crew.sheaf p.2).budget)
  | _ => true

/-- Checks that the operands can be read or written in every thread (R70, R73). Of two causes of one instruction the spec puts
ILL_OPERAND first; that UNMAPPED_SLOT comes before ILL_XREG_WRITE is the model's order (DESIGN CHOICE, assumption 87). -/
def checkOperands (x : Iss) (ps : List (Nat × Nat)) (os : List (Operand × Nat)) : Except Stop Unit :=
  if os.all fun o => ps.all fun p => inBudget x o.1 o.2 p then
    if os.all fun o => ps.all fun p => readable x o.1 o.2 p then .ok () else .error (.raise .unmappedSlot [])
  else .error (.raise .illOperand [])

/-- The set of the i-th register of an operand for a thread's home sheaf (R81, R228). -/
def regSet (x : Iss) (o : Operand) (i : Nat) (p : Nat × Nat) : OSet :=
  match o with
  | .w n => slotSetAt x.crew x.grp p.1 (n.val + i) p.2
  | .k n => Map.get (x.crew.sheaf p.2).kS (n.val + i) 0
  | .z | .lit _ => 0
  | .v n =>
    match xregSlot x.grp p.1 (n.val + i) with
    | some j => slotSetAt x.crew x.grp p.1 j p.2
    | none => (x.crew.sheaf p.2).mainSet (n.val + i)

/-- The sets of an operand's registers over threads. -/
def opSets (x : Iss) (ps : List (Nat × Nat)) (o : Operand × Nat) : List OSet :=
  dedup (ps.flatMap fun p => (List.range o.2).map fun i => regSet x o.1 i p)

/-- The sets of a predicate over threads' home sheaves. -/
def predSets (x : Iss) (ps : List (Nat × Nat)) (i : Nat) : List OSet :=
  dedup (ps.map fun p => (x.crew.sheaf p.2).predSet i)

/-- The control sets of the threads of a role group that stand at a clause: the entry's %octx is their join (R85). -/
def entrySets (c : Crew) (role : Nat) (addr : Dword) : List OSet :=
  dedup (c.sheaves.flatMap fun h =>
    if h.role = role then (h.threads.filter fun t => !t.exited && t.clause == addr).map fun t => t.octx else [])

/-- What every instruction's result set holds besides its register sources: guard and %octx (R82). -/
def baseSets (x : Iss) (ps : List (Nat × Nat)) (g : Guard) : List OSet :=
  predSets x ps g.pred ++ entrySets x.crew x.grp.role x.cur.addr

/-- The members of the result set S of an instruction (R82): operands, predicates read, guard, %octx and, where it
consults them, the sets of %rmode: those of every active thread, also where a k destination takes the mode of one (DESIGN
CHOICE, assumption 84). -/
def resultSets (x : Iss) (ps : List (Nat × Nat)) (os : List (Operand × Nat)) (preds : List Nat) (mode : Bool)
    (g : Guard) : List OSet :=
  os.flatMap (opSets x ps) ++ preds.flatMap (predSets x ps) ++
    (if mode then dedup (ps.map fun p => (x.crew.thread p).rmodeS) else []) ++ baseSets x ps g

/-- The members of the trap set of an instruction's own causes (R78). -/
def trapSets (x : Iss) (os : List (Operand × Nat)) (preds : List Nat) (g : Guard) : List OSet :=
  os.flatMap (opSets x x.active) ++ preds.flatMap (predSets x x.active) ++ baseSets x x.active g

/-! ## Marks of invalid data (R53, R54) -/

/-- Whether the i-th register of an operand is invalid in a lane. -/
def regInv (x : Iss) (o : Operand) (i : Nat) (p : Nat × Nat) : Bool :=
  match x.grp.episode with
  | none => false
  | some e =>
    match o with
    | .w n => e.invSlot.contains (p.1, n.val + i)
    | .k n => e.invK.contains (p.2, n.val + i) || e.heldK.contains (p.2, n.val + i)
    | .z | .lit _ => false
    | .v n =>
      match xregSlot x.grp p.1 (n.val + i) with
      | some j => e.invSlot.contains (p.1, j)
      | none => e.invMain.contains (n.val + i)

/-- Whether an operand is invalid in a lane. -/
def opInv (x : Iss) (o : Operand × Nat) (p : Nat × Nat) : Bool := (List.range o.2).any fun i => regInv x o.1 i p

/-- Whether a predicate is invalid in a lane. -/
def predInv (x : Iss) (i : Nat) (p : Nat × Nat) : Bool :=
  match x.grp.episode with
  | none => false
  | some e => e.invP.contains (p.1, i)

/-- Whether a special register of a thread is invalid. -/
def specInv (x : Iss) (n : Nat) (p : Nat × Nat) : Bool :=
  match x.grp.episode with
  | none => false
  | some e => e.invSpec.contains (p.1, n)

/-- The threads that an invalid guard of the value false keeps out of `active`: an operation has an invalid guard in their
lanes, and its destination is invalid there (Table 2.3). -/
def doubted (x : Iss) (g : Guard) : List (Nat × Nat) := x.present.filter fun p => !x.active.contains p && predInv x g.pred p

/-- Adds or takes away a mark. -/
def markOf (inv : Bool) (m : List (Nat × Nat)) (k : Nat × Nat) : List (Nat × Nat) :=
  if inv then (if m.contains k then m else m ++ [k]) else m.filter (· != k)

/-! ## Destinations -/

/-- Adds a value to the hash of register values written (R33). -/
def noteWrite (g : Group) (v : Word) : Group := { g with wHash := mixHash g.wHash v.toNat }

/-- Writes a slot in one lane: value and dirty bit (R72). -/
def putSlotLane (g : Group) (l i : Nat) (v : Word) : Group :=
  noteWrite (modRegion g l fun r =>
    { r with slots := Map.mod r.slots i fun sl => { sl with vals := laneSet sl.vals l v, dirty := laneSet sl.dirty l true } }) v

/-- The set of slot i of a region for a home sheaf after a write (R83): replaced when all 32 lanes are written, else joined. `whole`
says whether the region holds all of them: a write-back of it then overwrites the register whole (R86; DEDUCED, assumption 32). -/
def putSlotSet (fam : Nat) (m : RegionMap) (i : Nat) (s : OSet) (full whole : Bool) (a : Crew × Map OEntry) (h : Nat) :
    Except Cause (Crew × Map OEntry) :=
  let ss := a.1.slotSets fam m i
  if full then
    .ok (a.1.putSlotSets fam m i { sets := Map.put ss.sets h s,
                                   replaced := if whole then insertAsc h ss.replaced else ss.replaced.filter (· != h) }, a.2)
  else
    match osJoin a.2 (Map.get ss.sets h 0) s with
    | .error e => .error e
    | .ok (u, t) =>
      .ok (a.1.putSlotSets fam m i { sets := Map.put ss.sets h u, replaced := ss.replaced.filter (· != h) }, t)

/-- The sets of slot i of one region after a write by threads `ps`, of all those `all` that an instruction writes in (R83). -/
def putRegionSets (fam i : Nat) (ps all : List (Nat × Nat)) (s : OSet) (a : Crew × Map OEntry) (r : Region) :
    Except Cause (Crew × Map OEntry) :=
  if (Map.find? r.slots i).isNone then .ok a
  else
    let mine := ps.filter fun p => r.lanes.contains p.1
    foldE (fun a h => putSlotSet fam r.map i s (allLanes all h) (allLanes mine h) a h) a (homesOf mine)

/-- The sets of slot i after a write by threads `ps` of `all`, in every region that holds one of their lanes. -/
def putSlotSets (c : Crew) (g : Group) (i : Nat) (ps all : List (Nat × Nat)) (s : OSet) (t : Map OEntry) :
    Except Cause (Crew × Map OEntry) := foldE (putRegionSets g.family i ps all s) (c, t) g.regions

/-- The set of a main register after a direct write (R83). -/
def putMainSet (c : Crew) (h r : Nat) (s : OSet) (full : Bool) (t : Map OEntry) : Except Cause (Crew × Map OEntry) :=
  if full then .ok (c.modSheaf h fun z => { z with mainS := Map.put z.mainS r s }, t)
  else
    match osJoin t ((c.sheaf h).mainSet r) s with
    | .error e => .error e
    | .ok (u, t) => .ok (c.modSheaf h fun z => { z with mainS := Map.put z.mainS r u }, t)

/-- Writes slot i in lanes of a group, with the set S of an instruction that writes in `all` (R83). -/
def writeSlotOf (x : Iss) (i : Nat) (vs : List ((Nat × Nat) × Word)) (all : List (Nat × Nat)) (s : OSet) (t : Map OEntry) :
    Except Stop (Iss × Map OEntry) :=
  let g := vs.foldl (fun g v => putSlotLane g v.1.1 i v.2) x.grp
  match putSlotSets x.crew g i (vs.map (·.1)) all s t with
  | .error e => .error (.raise e [])
  | .ok (c, t) => .ok ({ x with crew := c, grp := g }, t)

/-- Writes slot i in lanes, with the set S. -/
def writeSlot (x : Iss) (i : Nat) (vs : List ((Nat × Nat) × Word)) (s : OSet) (t : Map OEntry) :
    Except Stop (Iss × Map OEntry) := writeSlotOf x i vs (vs.map (·.1)) s t

/-- Writes main register r in lanes of a group, with the set S of an instruction that writes it in `all` (R73, R83). In an episode the
write is dropped and the register becomes invalid (11_isa_memory.md R312). -/
def writeMainOf (x : Iss) (r : Nat) (vs : List ((Nat × Nat) × Word)) (all : List (Nat × Nat)) (s : OSet) (t : Map OEntry) :
    Except Stop (Iss × Map OEntry) :=
  match x.grp.episode with
  | some e =>
    .ok ({ x with grp := { x.grp with episode := some { e with invMain := insertAsc r e.invMain } } }, t)
  | none =>
    let ps := vs.map (·.1)
    let c := vs.foldl (fun c v => c.modSheaf v.1.2 fun h => h.setMain r v.1.1 v.2) x.crew
    match foldE (fun (a : Crew × Map OEntry) h => putMainSet a.1 h r s (allLanes all h) a.2) (c, t) (homesOf ps) with
    | .error e => .error (.raise e [])
    | .ok (c, t) => .ok ({ x with crew := stampDirect c r ps, grp := vs.foldl (fun g v => noteWrite g v.2) x.grp }, t)

/-- Writes main register r in lanes, with the set S. -/
def writeMain (x : Iss) (r : Nat) (vs : List ((Nat × Nat) × Word)) (s : OSet) (t : Map OEntry) :
    Except Stop (Iss × Map OEntry) := writeMainOf x r vs (vs.map (·.1)) s t

/-- Writes k register i of the home sheaves of some threads: each takes the value of its first thread listed, and
the set S by replace (R74, R83). -/
def writeK (x : Iss) (i : Nat) (vs : List ((Nat × Nat) × Word)) (s : OSet) : Iss :=
  (homesOf (vs.map (·.1))).foldl (fun x h =>
    match vs.find? fun v => v.1.2 == h with
    | none => x
    | some v =>
      { x with crew := x.crew.modSheaf h fun z => { z with k := Map.put z.k i v.2, kS := Map.put z.kS i s },
               grp := noteWrite x.grp v.2 }) x

/-- Marks a register of the destination as invalid, or as valid, in the threads given, by each thread's own mark. -/
def markReg (x : Iss) (o : Operand) (i : Nat) (ms : List ((Nat × Nat) × Bool)) : Iss :=
  match x.grp.episode with
  | none => x
  | some e =>
    let e := match o with
      | .w n => { e with invSlot := ms.foldl (fun m v => markOf v.2 m (v.1.1, n.val + i)) e.invSlot }
      | .k n => { e with invK := (homesOf (ms.map (·.1))).foldl (fun m h =>
                    markOf (ms.any fun v => v.1.2 == h && v.2) m (h, n.val + i)) e.invK }
      | .v n =>
        { e with invSlot := ms.foldl (fun m v => match xregSlot x.grp v.1.1 (n.val + i) with
                   | some j => markOf v.2 m (v.1.1, j)
                   | none => m) e.invSlot
                 invMain := if ms.any fun v => v.2 && (xregSlot x.grp v.1.1 (n.val + i)).isNone then insertAsc (n.val + i) e.invMain
                   else e.invMain }
      | _ => e
    { x with grp := { x.grp with episode := some e } }

/-- Writes a main register named directly in lanes of a group, with the set S of an instruction that writes it in `all`: the slot that
maps it in a lane's region, or the register itself (R73). -/
def writeXreg (x : Iss) (v : Nat) (vs : List ((Nat × Nat) × Word)) (all : List (Nat × Nat)) (s : OSet) (t : Map OEntry) :
    Except Stop (Iss × Map OEntry) :=
  let mapped := vs.filter fun q => (xregSlot x.grp q.1.1 v).isSome
  let direct := vs.filter fun q => (xregSlot x.grp q.1.1 v).isNone
  match foldE (fun (a : Iss × Map OEntry) j =>
      writeSlotOf a.1 j (mapped.filter fun q => xregSlot x.grp q.1.1 v == some j) all s a.2) (x, t)
      (dedup (mapped.filterMap fun q => xregSlot x.grp q.1.1 v)) with
  | .error e => .error e
  | .ok (y, t) => if direct.isEmpty then .ok (y, t) else writeMainOf y v direct all s t

/-- Writes the i-th register of a destination operand in threads, with the set S (R68, R73, R74, R83); `z` discards. -/
def writeReg (x : Iss) (o : Operand) (i : Nat) (vs : List ((Nat × Nat) × Word)) (s : OSet) (t : Map OEntry) :
    Except Stop (Iss × Map OEntry) :=
  match o with
  | .w n => writeSlot x (n.val + i) vs s t
  | .k n => .ok (writeK x (n.val + i) vs s, t)
  | .z | .lit _ => .ok (x, t)
  | .v n =>
    writeXreg x (n.val + i) vs (vs.map (·.1)) s t

/-- Writes the registers of a destination from the i-th on, in threads, with one set (R213). -/
def writeRegs (x : Iss) (o : Operand) (i n : Nat) (vs : List ((Nat × Nat) × List Word)) (s : OSet) (t : Map OEntry) :
    Except Stop (Iss × Map OEntry) :=
  match n with
  | 0 => .ok (x, t)
  | n + 1 =>
    match writeReg x o i (vs.map fun v => (v.1, (v.2[i]?).getD 0)) s t with
    | .error e => .error e
    | .ok (x, t) => writeRegs x o (i + 1) n vs s t

/-- Marks the registers of a destination. -/
def markRegs (x : Iss) (o : Operand) (n : Nat) (ms : List ((Nat × Nat) × Bool)) : Iss :=
  (List.range n).foldl (fun x i => markReg x o i ms) x

/-- Marks a destination in the lanes whose thread an invalid guard keeps out. -/
def markDoubted (x : Iss) (o : Operand) (n : Nat) (g : Guard) : Iss := markRegs x o n ((doubted x g).map fun p => (p, true))

/-- An instruction whose `active` set is empty writes no register; in an episode its invalid guards still mark its
destination (R54). -/
def idle (s : State) (x : Iss) (o : Operand) (n : Nat) (g : Guard) : State :=
  if x.grp.episode.isSome then (markDoubted x o n g).put s else s

/-- Whether a destination is a main register under XREG that a restartable region forbids (R49). -/
def xregForbidden (x : Iss) (o : Operand) (ps : List (Nat × Nat)) : Bool :=
  match o with
  | .v _ => ps.any fun p => inRestartable x.grp p.1
  | _ => false

end Sys2Proof.Machine
end

