-- ==== Sys2Proof/Machine/Flags.lean ====
section
/-! DEFINITION. Predicates and the sticky flags %fpx: how instructions write them (03_registers.md R75, R83;
04_numbers.md R97; 10_isa_float.md R241). -/

namespace Sys2Proof.Machine

/-- The set of a predicate of a home sheaf after a write (R83). -/
def putPredSet (c : Crew) (h i : Nat) (s : OSet) (full : Bool) (t : Map OEntry) : Except Cause (Crew × Map OEntry) :=
  if full then .ok (c.modSheaf h fun z => { z with pS := Map.put z.pS i s }, t)
  else
    match osJoin t ((c.sheaf h).predSet i) s with
    | .error e => .error e
    | .ok (u, t) => .ok (c.modSheaf h fun z => { z with pS := Map.put z.pS i u }, t)

/-- Writes predicate i in threads, with the set S (R75, R83). -/
def writePred (x : Iss) (i : Nat) (vs : List ((Nat × Nat) × Bool)) (s : OSet) (t : Map OEntry) :
    Except Stop (Iss × Map OEntry) :=
  let ps := vs.map (·.1)
  let c := vs.foldl (fun c v => c.modSheaf v.1.2 fun h => h.setPred i v.1.1 v.2) x.crew
  match foldE (fun (a : Crew × Map OEntry) h => putPredSet a.1 h i s (allLanes ps h) a.2) (c, t) (homesOf ps) with
  | .error e => .error (.raise e [])
  | .ok (c, t) =>
    .ok ({ x with crew := c, grp := vs.foldl (fun g v => noteWrite g (if v.2 then 1 else 0)) x.grp }, t)

/-- Marks a predicate as invalid, or as valid, in threads. -/
def markPred (x : Iss) (i : Nat) (ms : List ((Nat × Nat) × Bool)) : Iss :=
  match x.grp.episode with
  | none => x
  | some e =>
    { x with grp := { x.grp with episode := some { e with invP := ms.foldl (fun m v => markOf v.2 m (v.1.1, i)) e.invP } } }

/-- Sets %fpx bits of one thread and joins S into its %fpx set where there are any (R78, R97, R241). -/
def fpxStep (s : OSet) (a : Crew × Map OEntry) (f : (Nat × Nat) × Nat) : Except Cause (Crew × Map OEntry) :=
  if f.2 = 0 then .ok a
  else
    match osJoin a.2 ((a.1.thread f.1).fpxS) s with
    | .error e => .error e
    | .ok (u, t) => .ok (a.1.modThread f.1 fun z => { z with fpx := z.fpx ||| BitVec.ofNat 5 f.2, fpxS := u }, t)

/-- Sets %fpx bits of threads. -/
def setFpx (x : Iss) (fs : List ((Nat × Nat) × Nat)) (s : OSet) (t : Map OEntry) : Except Stop (Iss × Map OEntry) :=
  match foldE (fpxStep s) (x.crew, t) fs with
  | .error e => .error (.raise e [])
  | .ok (c, t) => .ok ({ x with crew := c }, t)

end Sys2Proof.Machine
end

