-- ==== Sys2Proof/Machine/Vector.lean ====
section
/-! DEFINITION. How an instruction issues: the context, the outcome, and the one executor of the V class (00_scope.md
R8, R9; 09_isa_integer.md R211, R235; 10_isa_float.md R237, R255). -/

namespace Sys2Proof.Machine

open Host (Outcome)

/-- Runs an instruction in its issuing context; `sets` are the members of its trap set. `body` gives the state with
the instruction's effect, which `issueOp` then leaves by moving past the instruction. -/
def issueOp (s : State) (g : Guard) (sets : Iss → List OSet) (body : Iss → Except Stop State) :
    Outcome State Fault Refusal :=
  match issuer s g with
  | none => .refused .noIssuer
  | some x =>
    match body x with
    | .ok s' => .next (advance s' x.cur)
    | .error e => settle s x x.active x.cur.index (sets x) e

/-- The number of %rmode (Table 3.3). -/
def rmodeReg : Nat := 22

/-- The number of %ptsel. -/
def ptselReg : Nat := 28

/-- The guard "always" (R165). -/
def gAlways : Guard := { pred := 7, neg := false }

/-- A lane's source values: one dword for each operand, 32-bit operands zero-extended. -/
def readSrcs (x : Iss) (os : List (Operand × Nat)) (p : Nat × Nat) : List Dword :=
  os.map fun o => if o.2 = 1 then zx (val32 x o.1 p) else val64 x o.1 p

/-- The thread for which a destination's value is computed in thread p: the lowest of `active` of its home sheaf for a
k destination, p itself otherwise (R74). The selector predicate and the mode are that thread's too (DESIGN CHOICE,
assumption 84). -/
def repOf (x : Iss) (d : Operand) (p : Nat × Nat) : Nat × Nat :=
  match d with
  | .k _ => (x.active.find? fun q => q.2 == p.2).getD p
  | _ => p

/-- The result of a V instruction in each thread of `active`: the words of its destination and the flags it sets. -/
def vecResults (x : Iss) (d : Operand) (f : Iss → Nat × Nat → List Word × Nat) : List ((Nat × Nat) × List Word × Nat) :=
  x.active.map fun p => (p, f x (repOf x d p))

/-- Writes the results of a V instruction: destination, marks, flags, with the set S. -/
def vecWrite (x : Iss) (d : Operand) (dn : Nat) (rs : List ((Nat × Nat) × List Word × Nat))
    (g : Guard) (inv : Iss → Nat × Nat → Bool) (s : OSet) (t : Map OEntry) : Except Stop (Iss × Map OEntry) :=
  match writeRegs x d 0 dn (rs.map fun r => (r.1, r.2.1)) s t with
  | .error e => .error e
  | .ok (y, t) =>
    let y := if x.grp.episode.isSome then markDoubted (markRegs y d dn (x.active.map fun p => (p, inv x p))) d dn g else y
    setFpx y (rs.map fun r => (r.1, r.2.2)) s t

/-- The effect of a V instruction with a register destination `d` of `dn` registers, sources `os` and predicate
sources `preds`: results `f` in `active`, the set S of R82, marks by `inv` (R235, R255). -/
def vecBody (s : State) (d : Operand) (dn : Nat) (os : List (Operand × Nat)) (preds : List Nat) (mode : Bool) (g : Guard)
    (inv : Iss → Nat × Nat → Bool) (f : Iss → Nat × Nat → List Word × Nat) (x : Iss) : Except Stop State :=
  if x.active.isEmpty then .ok (idle s x d dn g)
  else
    match checkOperands x x.active (os ++ [(d, dn)]) with
    | .error e => .error e
    | .ok () =>
      if xregForbidden x d x.active then .error (.raise .illXregWrite [])
      else
        match osJoinAll s.osets 0 (resultSets x x.active os preds mode g) with
        | .error e => .error (.raise e [])
        | .ok (set, t) =>
          match vecWrite x d dn (vecResults x d f) g (fun x p => inv x p || (mode && specInv x rmodeReg p)) set t with
          | .error e => .error e
          | .ok (y, t) => .ok (y.put { s with osets := t })

/-- Marks of a per-lane form (Table 9.6): any source, D of an accumulating form, the guard. -/
def laneInv (os : List (Operand × Nat)) (preds : List Nat) (g : Guard) (x : Iss) (p : Nat × Nat) : Bool :=
  (os.any fun o => opInv x o p) || (preds.any fun i => predInv x i p) || predInv x g.pred p

/-- Marks of a cross-lane form (Table 9.6): every lane, when any active lane has an invalid source or guard. -/
def crossInv (os : List (Operand × Nat)) (preds : List Nat) (g : Guard) (x : Iss) (_ : Nat × Nat) : Bool :=
  x.active.any fun q => laneInv os preds g x q

/-- Marks of a block instruction (R255): every lane, when a lane among those it reads (`sel`) has an invalid source or guard, or
the lowest active lane has an invalid %rmode or %ptsel. -/
def blockInv (os : List (Operand × Nat)) (g : Guard) (sel : Nat × Nat → Bool) (x : Iss) (_ : Nat × Nat) : Bool :=
  (x.active.any fun q => sel q && laneInv os [] g x q) ||
  (x.active.take 1).any fun q => specInv x rmodeReg q || specInv x ptselReg q

/-- A per-lane V instruction: `f` on the thread and its source values. -/
def vecLane (s : State) (d : Operand) (dn : Nat) (os : List (Operand × Nat)) (mode : Bool) (g : Guard)
    (f : Thread → List Dword → List Word × Nat) : Outcome State Fault Refusal :=
  issueOp s g (fun x => trapSets x os [] g)
    (vecBody s d dn os [] mode g (laneInv os [] g) fun x p => f (x.crew.thread p) (readSrcs x os p))

/-- A per-lane integer form of two sources and a 32-bit result (Table 9.2). -/
def intOp2 (s : State) (d a b : Operand) (g : Guard) (f : Word → Word → Word) : Outcome State Fault Refusal :=
  vecLane s d 1 [(a, 1), (b, 1)] false g fun _ v =>
    match v with
    | [x, y] => ([f (lo32 x) (lo32 y)], 0)
    | _ => ([0], 0)

/-- A per-lane form of one source. -/
def intOp1 (s : State) (d a : Operand) (g : Guard) (f : Word → Word) : Outcome State Fault Refusal :=
  vecLane s d 1 [(a, 1)] false g fun _ v =>
    match v with
    | [x] => ([f (lo32 x)], 0)
    | _ => ([0], 0)

/-- An accumulating form: A, B and the value of D before. -/
def intOp3 (s : State) (d a b : Operand) (g : Guard) (f : Word → Word → Word → Word) : Outcome State Fault Refusal :=
  vecLane s d 1 [(a, 1), (b, 1), (d, 1)] false g fun _ v =>
    match v with
    | [x, y, z] => ([f (lo32 x) (lo32 y) (lo32 z)], 0)
    | _ => ([0], 0)

/-- A form with a 64-bit destination over sources of the widths given. -/
def intOp64 (s : State) (d : Operand) (os : List (Operand × Nat)) (g : Guard) (f : List Dword → Dword) :
    Outcome State Fault Refusal :=
  vecLane s d 2 os false g fun _ v => ([lo32 (f v), hi32 (f v)], 0)

/-- A V instruction with a predicate destination: the truth of `f` in each thread of `active` (R222, R223, R244). -/
def predBody (s : State) (d : Nat) (os : List (Operand × Nat)) (preds : List Nat) (g : Guard)
    (inv : Iss → Nat × Nat → Bool) (f : Iss → Nat × Nat → Bool) (x : Iss) : Except Stop State :=
  if x.active.isEmpty then .ok (if x.grp.episode.isSome then (markPred x d ((doubted x g).map fun p => (p, true))).put s else s)
  else
    match checkOperands x x.active os with
    | .error e => .error e
    | .ok () =>
      match osJoinAll s.osets 0 (resultSets x x.active os preds false g) with
      | .error e => .error (.raise e [])
      | .ok (set, t) =>
        match writePred x d (x.active.map fun p => (p, f x p)) set t with
        | .error e => .error e
        | .ok (y, t) =>
          .ok ((if x.grp.episode.isSome then markPred y d ((x.active.map fun p => (p, inv x p)) ++ (doubted x g).map fun p => (p, true)) else y).put { s with osets := t })

/-- A per-lane compare of two operands. -/
def cmpOp (s : State) (d : Nat) (a b : Operand) (g : Guard) (f : Word → Word → Bool) : Outcome State Fault Refusal :=
  issueOp s g (fun x => trapSets x [(a, 1), (b, 1)] [] g)
    (predBody s d [(a, 1), (b, 1)] [] g (laneInv [(a, 1), (b, 1)] [] g) fun x p => f (val32 x a p) (val32 x b p))

/-- A per-lane combination of two predicates. -/
def psetOp (s : State) (d : Nat) (a b : Nat) (g : Guard) (f : Bool → Bool → Bool) : Outcome State Fault Refusal :=
  issueOp s g (fun x => trapSets x [] [a, b] g)
    (predBody s d [] [a, b] g (laneInv [] [a, b] g) fun x p =>
      f ((x.crew.sheaf p.2).pred a p.1) ((x.crew.sheaf p.2).pred b p.1))

end Sys2Proof.Machine
end

