-- ==== Sys2Proof/Machine/Issue.lean ====
section
/-! DEFINITION. What stands between the choice of an issue group and its instruction's effect: restart points, the
reopening of regions, and the decoding of the next instruction group (02_execution.md R47, R51, R195, R196;
07_encoding.md R161, R163, R173, R174). -/

namespace Sys2Proof.Machine

open Host (Outcome)

/-! ## Restart points (R51, R196) -/

/-- What a thread of a home sheaf resumes with at its present PC, with the region map to reopen there. -/
def checkpointOf (h : Sheaf) (l : Nat) (t : Thread) (m : Option RegionMap) (stamp : Nat) : Checkpoint :=
  { clause := t.clause, index := t.index, octx := t.octx, divs := t.divs, lost := t.lost, rmode := t.rmode, rmodeS := t.rmodeS,
    ptsel := t.ptsel, ptselS := t.ptselS, fpx := t.fpx, fpxS := t.fpxS, ret := t.ret,
    preds := (List.range 7).map fun i => h.pred i l, predS := (List.range 7).map fun i => h.predSet i,
    region := m, handler := t.handler, stamp := stamp }

/-- Makes the present PCs of some threads restart points, with the maps that reopen there. -/
def restartPoint (c : Crew) (ps : List (Nat × Nat)) (m : Nat → Option RegionMap) (stamp : Nat) : Crew :=
  let c := c.modThreads ps fun p t => { t with ck := some (checkpointOf (c.sheaf p.2) p.1 t (m p.1) stamp) }
  (homesOf ps).foldl (fun c h => c.modSheaf h fun z => { z with ckK := z.k, ckKS := z.kS, ckHash := z.hash }) c

/-- Makes the present PCs of threads of a group of the state restart points; nothing in an episode. -/
def State.restartPoint (s : State) (crew grp : Nat) (ps : List (Nat × Nat)) : State :=
  s.modCrew crew fun c =>
    match Map.find? c.groups grp with
    | some g => if g.episode.isSome then c else Machine.restartPoint c ps (fun _ => none) s.seq
    | none => c

/-! ## Regions opened in an episode (Table 2.3) -/

/-- Marks the slots of lanes as invalid where their main registers are, when a region fills in an episode. -/
def fillMarks (g : Group) (m : RegionMap) (ls : List Nat) : Group :=
  match g.episode with
  | none => g
  | some e =>
    let is := (List.range 32).filter fun i => m.mask.getLsbD i
    let ks := ls.flatMap fun l => is.map fun i => (l, i)
    { g with episode := some { e with invSlot := ks.foldl (fun acc k =>
        markOf (e.invMain.contains (mapReg m k.2)) acc k) e.invSlot } }

/-- Opens a region for lanes of a group, its slots marked in an episode. -/
def openMarked (c : Crew) (g : Group) (m : RegionMap) (ls : List Nat) (t : Map OEntry) :
    Except Cause (Crew × Group × Map OEntry) :=
  match openRegion c g m ls t with
  | .error e => .error e
  | .ok (c, g, t) => .ok (c, fillMarks g m ls, t)

/-- The pending maps of the lanes that issue, and what stays pending for the others. -/
def dueMaps (g : Group) (ls : List Nat) : List (RegionMap × List Nat) × List (RegionMap × List Nat) :=
  ((g.reopen.map fun p => (p.1, p.2.filter fun l => ls.contains l)).filter fun p => !p.2.isEmpty,
   (g.reopen.map fun p => (p.1, p.2.filter fun l => !ls.contains l)).filter fun p => !p.2.isEmpty)

/-- Reopens the pending regions of the lanes that issue (R47 step 4, R62, R195): the instruction is a restart point. -/
def reopenRegions (s : State) (x : Iss) (seq : Nat) (t : Map OEntry) : Except Stop (Iss × Map OEntry) :=
  let (due, rest) := dueMaps x.grp (lanesIn x.present)
  if due.isEmpty then .ok (x, t)
  else if x.grp.episode.isNone && !bufferRoom s x (openedMaps x.crew x.grp (due.map (·.1))).length then .error (.block .buffer)
  else
    let c := if x.grp.episode.isSome then x.crew
      else restartPoint x.crew (due.flatMap fun p => p.2.map fun l => (l, x.grp.homeAt l))
        (fun l => (due.find? fun p => p.2.contains l).map (·.1)) seq
    match foldE (fun (a : Crew × Group × Map OEntry) (p : RegionMap × List Nat) => openMarked a.1 a.2.1 p.1 p.2 a.2.2)
        (c, { x.grp with reopen := rest }, t) due with
    | .error e => .error (.raise e [])
    | .ok (c, g, t) => .ok ({ x with crew := c, grp := g }, t)

/-- Raises the causes dropped messages have left for present threads, at their next instruction boundary (R286): the first
such entry, which goes once none of its threads is left. -/
def postedNow (x : Iss) : Option (Posted × List (Nat × Nat) × List Posted) :=
  match x.crew.posted.find? fun p => p.flag.isNone && p.threads.any fun q => x.present.contains q with
  | none => none
  | some p =>
    let rest := p.threads.filter fun q => !x.present.contains q
    some (p, p.threads.filter fun q => x.present.contains q,
      x.crew.posted.flatMap fun q => if q == p then (if rest.isEmpty then [] else [{ p with threads := rest }]) else [q])

/-! ## The sets a decode cause records (R78) -/

/-- V and M opcodes whose D field is a source as well: the accumulating forms and the compare-and-swaps. -/
def accumulates (cls : Cls) (op : Nat) : Bool :=
  match cls with
  | .V => [0x007, 0x008, 0x009, 0x016, 0x017, 0x018, 0x049, 0x04A, 0x04D, 0x052, 0x103, 0x112, 0x117, 0x118, 0x119].contains op
  | .M => [0x08B, 0x08C, 0x0CB, 0x0CC].contains op
  | _ => false

/-- The operand a source field's code names, where it decodes to a register: with an XREG prefix's high part h a main
register (R73). -/
def fieldReg (u : Use) (acc : Bool) (code : Nat) (h : Option Nat) : List (Operand × Nat) :=
  let n := match u with
    | .src n | .uni n => n
    | .dst n | .dstW n => if acc then n else 0
    | _ => 0
  if n = 0 then []
  else if code < 32 then
    match h with
    | some h => [(.v (Fin.ofNat 256 (32 * h + code)), n)]
    | none => [(.w (Fin.ofNat 32 code), n)]
  else if code < 62 then [(.k (Fin.ofNat 30 (code - 32)), n)]
  else []

/-- The high parts that an XREG prefix of a group gives its D, A and B (R73). -/
def xregHigh (cls : Cls) (ws : List Word) : Option (Nat × Nat × Nat) :=
  if cls = .V ∨ cls = .M then
    match readPfx ws 0 Pfx.none with
    | .ok (p, _) => p.h
    | .error _ => none
  else none

/-- The source operands that the fields of the group at the head of some words name. -/
def wordSources (cls : Cls) (ws : List Word) : List (Operand × Nat) :=
  let w := groupWord ws
  let h := xregHigh cls ws
  match formOf cls (fieldOf w 31 22) (fieldOf w 9 4) with
  | none => []
  | some f =>
    fieldReg f.d (accumulates cls (fieldOf w 31 22)) (fieldOf w 21 16) (h.map (·.1)) ++
      fieldReg f.a false (fieldOf w 15 10) (h.map (·.2.1)) ++ fieldReg f.b false (fieldOf w 9 4) (h.map (·.2.2))

/-- The predicates that an instruction word's fields name as sources: those of PSETP, VOTE and OSQ. -/
def wordPreds (cls : Cls) (w : Word) : List Nat :=
  let op := fieldOf w 31 22
  let a := fieldOf w 15 10
  let b := fieldOf w 9 4
  if cls ≠ .V then []
  else if 0x086 ≤ op ∧ op ≤ 0x089 then [a, b].filter (· < 8)
  else if (0x0C4 ≤ op ∧ op ≤ 0x0C6) ∨ (op = 0x08F ∧ b = 1) then [a].filter (· < 8)
  else []

/-- The members of the trap set of a decode cause of the group at the head of `ws` (R78). -/
def decodeSets (x : Iss) (cls : Cls) (ws : List Word) : List OSet :=
  let w := groupWord ws
  (wordSources cls ws).flatMap (opSets x x.present) ++ (wordPreds cls w).flatMap (predSets x x.present) ++
    baseSets x x.present (guardOf w)

/-- The prefix words at the head of some words. -/
def prefixCount (ws : List Word) : Nat :=
  match ws with
  | [] => 0
  | w :: rest => if (pkindOf w).isSome && !rest.isEmpty then 1 + prefixCount rest else 0

/-- A context placed at the instruction group at the head of some words of its clause, the first of them at index i: for a cause
raised at that instruction and not by it (R281, R40; assumption 34). -/
def Iss.placed (x : Iss) (hdr : Word) (ws : List Word) (i : Nat) : Iss :=
  let cls := (clsOf (fieldOf hdr 6 4)).getD .S
  { x with cur := { x.cur with hdr := hdr, first := i, index := i + prefixCount ws, len := groupLen cls ws } }

/-- The members of the trap set of a cause raised at the instruction at the head of some words (R78). -/
def placedSets (x : Iss) (hdr : Word) (ws : List Word) : List OSet := decodeSets x ((clsOf (fieldOf hdr 6 4)).getD .S) ws

/-! ## Issuing the next instruction group -/

/-- What a step does next: run an instruction or event, end with the machine changed, or stop. -/
inductive Pick where
  | run (i : Instr) (s : State)
  | done (s : State)
  | stop (f : Fault)
  deriving DecidableEq, Repr

/-- Whether the instruction word of a group is a TRET, whose causes are never nested (R64). -/
def isTret (cls : Cls) (ws : List Word) : Bool := cls == .S && fieldOf (groupWord ws) 31 22 == 0x007

/-- Where a `Stop` met before an instruction runs leaves the step. -/
def settlePick (s : State) (x : Iss) (ix : Nat) (sets : List OSet) (e : Stop) : Pick :=
  match settle s x x.present ix sets e with
  | .next s' => .done s'
  | .fault f => .stop f
  | .refused _ => .done s

/-- The context of the next instruction group of an active clause. -/
def groupIss (s : State) (crew grp : Nat) : Option (Iss × ActiveClause) :=
  match Map.find? s.crews crew with
  | none => none
  | some w =>
    match Map.find? w.groups grp, Map.find? s.grids w.grid with
    | some g, some gd =>
      match g.active with
      | none => none
      | some a =>
        let ps := a.lanes.map fun l => (l, g.homeAt l)
        some ({ cur := { crew := crew, group := grp, lanes := ps, addr := a.addr, hdr := a.hdr, first := a.index,
                         index := a.index, len := 1 },
                crew := w, grp := g, grid := gd, present := ps, active := ps }, a)
    | _, _ => none

/-- The registers per thread of a crew's role, by its sheaves' banks (R23, R67). -/
def roleBudget (c : Crew) (role : Nat) : Nat :=
  match c.sheaves.find? fun h => h.role == role with
  | some h => h.budget
  | none => 128

/-- What the issue of the instruction at a word of a clause leaves for the observers: the core's latest issue (R409), the end
of a breakpoint's hold (R411), and a crew's first instruction counts it among the crews run
(Table 14.7). -/
def noteIssued (s : State) (x : Iss) (ix : Nat) : State :=
  let s := s.modCore x.crew.core fun k => { k with latest := some (x.cur.crew, x.cur.group, x.cur.addr, ix) }
  let s := s.modGroup x.cur.crew x.cur.group fun g => { g with brk := none }
  if x.crew.issued then s
  else (s.modCrew x.cur.crew fun c => { c with issued := true }).modGrid x.crew.grid fun g => { g with crewsRun := g.crewsRun + 1 }

/-- Whether a main register that an open region of the issuing group maps holds an uncorrectable error: its window cannot be loaded
(19_platform.md R423). -/
def badWindow (s : State) (x : Iss) : Bool :=
  !s.flaws.isEmpty && x.grp.regions.any fun r => (mapped r.map).any fun i => (homesOf x.present).any fun h =>
    s.flaws.contains (.main x.cur.crew h (mapReg r.map i))

/-- Issues the next instruction group of an issue group's active clause: pending regions reopen, the group is decoded
(R163, R173), and its instruction is what runs. An episode ends at 512 instructions, and as soon as the wait it hides is met (R55). -/
def issueNext (s : State) (crew grp : Nat) : Pick :=
  match s.episode crew grp with
  | some e =>
    if 512 ≤ e.count || metNow s crew grp then .done (s.leaveEpisode crew grp) else issueGroup (s.enterEpisode crew grp) crew grp
  | none => issueGroup s crew grp
where
  /-- Whether the wait of a group's episode has become met. -/
  metNow (s : State) (crew grp : Nat) : Bool :=
    match Map.find? s.crews crew with
    | some c => ((Map.find? c.groups grp).map (episodeMet c)).getD false
    | none => false
  /-- The issue itself, an episode's copy in its place. -/
  issueGroup (s : State) (crew grp : Nat) : Pick :=
  match groupIss s crew grp with
  | none => .done (s.exitEpisode crew grp)
  | some (x, a) =>
    match (if x.grp.episode.isSome then none else postedNow x) with
    | some (p, ts, rest) =>
      let ws := a.words.drop (a.index - 1)
      let x := { x with crew := { x.crew with posted := rest } }.placed a.hdr ws a.index
      .done (raiseCause (x.put s) x ts p.cause x.cur.index (placedSets x a.hdr ws) (ts.map fun q => (q.1, p.faddr)))
    | none =>
    match reopenRegions s x s.seq s.osets with
    | .error e => settlePick s x a.index (baseSets x x.present gAlways) e
    | .ok (x, t) =>
      let s := x.put { s with osets := t }
      if badWindow s x then settlePick s x a.index (baseSets x x.present gAlways) (.flaw (.array x.crew.core) [])
      else
      let cls := (clsOf (fieldOf a.hdr 6 4)).getD .S
      let ws := a.words.drop (a.index - 1)
      let x := { x with cur := { x.cur with len := groupLen cls ws } }
      match decodeGroup cls ws (roleBudget x.crew x.grp.role) (fieldOf a.hdr 22 19 == 15) with
      | .error (c, k) => .done (raiseFrom (isTret cls ws) s x x.present c (a.index + k) (decodeSets x cls ws) [])
      | .ok ig => .run ig.instr { noteIssued s x (a.index + ig.at_) with cur := some { x.cur with index := a.index + ig.at_, len := ig.len } }

end Sys2Proof.Machine
end

