-- ==== Sys2Proof/Machine/Translate.lean ====
section
/-! DEFINITION. The memory side as the L2 slices and HBM hold it, and translation: the two-stage walk, the TLBs, the
accessed and dirty bits, and extents (05_memory.md R123 to R127; 14_scheduling.md R330; 15_translation.md R340 to
R346). -/

namespace Sys2Proof.Machine

/-! ## The memory side (R123, R125, R127) -/

/-- Bytes of HBM: 12,582,912 frames of 64 KiB (15_translation.md R358). -/
def hbmBytes : Nat := 12582912 * 65536

/-- XOR of the n-bit fields of a number (R125). -/
def xorFields (fuel n x : Nat) : Nat :=
  match fuel with
  | 0 => 0
  | f + 1 => (x % 2 ^ n) ^^^ xorFields f n (x / 2 ^ n)

/-- The physical slice of a partition that holds a physical address (R125). -/
def sliceOf (c : PartCfg) (pa : Nat) : Nat :=
  let l := pa / 256 % 2 ^ 44
  if c.s = 0 then (c.slices.head?).getD 0 else (c.slices[xorFields 44 c.s l]?).getD 0

/-- The set of a line within its slice (R125). -/
def setOf (c : PartCfg) (pa : Nat) : Nat := pa / 256 / 2 ^ c.s % 2048

/-- The L2 line that holds a physical address, if its slice holds one. -/
def l2Find (s : State) (vf pa : Nat) : Option L2Line :=
  let c := (s.vf vf).cfg
  (Map.get (Map.get s.slices (sliceOf c pa) Slice.init).lines (setOf c pa) []).find? fun l => l.line == pa / 256

/-- A byte of local memory as its slice and HBM hold it. -/
def memByte (s : State) (vf pa : Nat) : Byte :=
  match (l2Find s vf pa).bind fun l => Map.find? l.bytes (pa % 256) with
  | some b => b
  | none => Memory.read s.hbm pa

/-- Bytes of local memory. -/
def memBytes (s : State) (vf pa n : Nat) : List Byte := (List.range n).map fun i => memByte s vf (pa + i)

/-- The little-endian number n bytes hold. -/
def memNum (s : State) (vf pa n : Nat) : Nat := ofBytes (memBytes s vf pa n)

/-- Changes the line of a physical address in its slice. -/
def modL2 (s : State) (vf pa : Nat) (f : L2Line → L2Line) : State :=
  let c := (s.vf vf).cfg
  let k := sliceOf c pa
  let sl := Map.get s.slices k Slice.init
  let ls := (Map.get sl.lines (setOf c pa) []).map fun l => if l.line == pa / 256 then f l else l
  { s with slices := Map.put s.slices k { sl with lines := Map.put sl.lines (setOf c pa) ls } }

/-- Writes a byte on the memory side: into its L2 line where there is one, else into HBM. -/
def memPut (s : State) (vf pa : Nat) (b : Byte) : State :=
  if (l2Find s vf pa).isSome then
    modL2 s vf pa fun l => { l with bytes := Map.put l.bytes (pa % 256) b,
                                    dirty := l.dirty ||| BitVec.ofNat 4 (2 ^ (pa % 256 / 64)) }
  else { s with hbm := Memory.write s.hbm pa b }

/-- Writes bytes on the memory side. -/
def memPuts (s : State) (vf pa : Nat) (bs : List Byte) : State :=
  match bs with
  | [] => s
  | b :: rest => memPuts (memPut s vf pa b) vf (pa + 1) rest

/-- The origin set of a 256 B line of a mixed page, at first that of its stage-2 entry (Table 5.5). -/
def lineSet (s : State) (pa : Nat) (d : OSet) : OSet := Map.get s.lineS (pa / 256) d

/-! ## Walks (R340 to R344) -/

/-- Whether the memory side of a partition holds a byte only with an uncorrectable error (19_platform.md R423). -/
def flawedAt (s : State) (vf pa : Nat) : Bool :=
  match (l2Find s vf pa).map fun l => Map.has l.bytes (pa % 256) with
  | some true => s.flaws.contains (.l2 (pa / 256))
  | _ => s.flaws.contains (.hbm (pa / 256))

/-- Whether any of n bytes is so. -/
def flawedIn (s : State) (vf pa n : Nat) : Bool := !s.flaws.isEmpty && (List.range n).any fun i => flawedAt s vf (pa + i)

/-- Why a translation fails (R343, R355): the GPA and the flags of the record where a stage-2 fault gives them. -/
inductive TErr where
  | rights
  | absent
  | absent2 (gpa flags : Nat)
  | inWalk (gpa flags : Nat)
  /-- An entry lies in a line that holds an uncorrectable error (19_platform.md R423). -/
  | flawed (line : Nat)
  | noMem
  deriving DecidableEq, Repr

/-- A stage-2 translation of a GPA. -/
structure W2 where
  pa    : Nat
  w     : Bool
  oset  : OSet
  mixed : Bool
  dev   : Nat
  leaf  : Nat
  deriving DecidableEq, Repr

/-- The levels of a tree: number, lowest index bit, index bits (Table 15.1). -/
def walkLevels : List (Nat × Nat × Nat) := [(0, 49, 8), (1, 38, 11), (2, 27, 11), (3, 16, 11)]

/-- The address of the entry of a level for an address. -/
def entryAddr (table a : Nat) (lv : Nat × Nat × Nat) : Nat := table + 8 * (a / 2 ^ lv.2.1 % 2 ^ lv.2.2)

/-- An entry's ADDR field as an address (Table 15.2). -/
def entryBase (e : Nat) : Nat := bitsOf e 51 16 * 65536

/-- What is malformed in an entry of either stage (R342, R343). -/
def malformed (stage2 : Bool) (lv e : Nat) : Bool :=
  let leaf := bitOf e 1
  (lv == 0 && leaf) || (lv == 3 && !leaf) || bitsOf e 63 62 != 0 ||
  (!leaf && (bitsOf e 61 52 != 0 || bitsOf e 15 3 != 0)) ||
  (leaf && lv != 3 && bitOf e 5) ||
  (leaf && lv == 1 && bitsOf e 37 16 != 0) || (leaf && lv == 2 && bitsOf e 26 16 != 0) ||
  (leaf && !stage2 && (bitsOf e 61 52 != 0 || bitsOf e 15 8 != 0)) ||
  (leaf && stage2 && (bitsOf e 7 6 != 0 || (bitsOf e 15 9 != 0 && bitOf e 8)))

/-- Whether an origin-set entry exists and is not retired (R343, R395). -/
def osLive (t : Map OEntry) (i : Nat) : Bool :=
  match Map.find? t i with
  | some e => !e.retired
  | none => false

/-- Whether every frame of a range of frames is owned by a VF (R343). -/
def framesOwned (m : Map FrameInfo) (vf f n : Nat) : Bool :=
  decide ((m.filter fun p => decide (f ≤ p.1 ∧ p.1 < f + n) && p.2.owner == vf).length = n)

/-- A table entry of the memory side: none beyond HBM, or with an uncorrectable error (19_platform.md R423). -/
def readEntry (s : State) (vf a : Nat) : Except TErr Nat :=
  if hbmBytes < a + 8 then .error .noMem
  else if flawedIn s vf a 8 then .error (.flawed (a / 256))
  else .ok (memNum s vf a 8)

/-- What BD's walk caches hold for an address at a level of a stage (R346). -/
def walkCached (s : State) (st2 : Bool) (vf proc a : Nat) (lv : Nat × Nat × Nat) : Option WalkEntry :=
  s.walks.find? fun e => e.stage2 == st2 && e.vf == vf && e.proc == proc && e.size == 2 ^ lv.2.1 &&
    e.base == a / 2 ^ lv.2.1 * 2 ^ lv.2.1

/-- A stage-2 entry on the way to a GPA: its place and its value, from the walk caches or from memory. -/
def entry2 (s : State) (vf gpa : Nat) (lv : Nat × Nat × Nat) (table : Nat) : Except TErr (Nat × Nat) :=
  match walkCached s true vf 0 gpa lv with
  | some e => .ok (e.at_, e.val)
  | none => (readEntry s vf (entryAddr table gpa lv)).map fun e => (entryAddr table gpa lv, e)

/-- The stage-2 walk below a table (R343). -/
def walk2 (s : State) (vf gpa : Nat) (lvs : List (Nat × Nat × Nat)) (table : Nat) (w : Bool) : Except TErr W2 :=
  match lvs with
  | [] => .error (.absent2 gpa 0)
  | lv :: rest =>
    match entry2 s vf gpa lv table with
    | .error e => .error e
    | .ok (a, e) =>
      if !bitOf e 0 then .error (.absent2 gpa 0)
      else if malformed true lv.1 e then .error (.absent2 gpa 4)
      else if bitOf e 1 then
        let dev := bitsOf e 15 9
        if !osLive s.osets (bitsOf e 61 52) then .error (.absent2 gpa 4)
        else if dev = 0 && !framesOwned s.frames vf (entryBase e / 65536) (2 ^ (lv.2.1 - 16)) then .error (.absent2 gpa 16)
        else .ok { pa := entryBase e + gpa % 2 ^ lv.2.1, w := w && bitOf e 2, oset := bitsOf e 61 52, mixed := bitOf e 8,
                   dev := dev, leaf := a }
      else walk2 s vf gpa rest (entryBase e) (w && bitOf e 2)

/-- The stage-2 walk of a GPA (R340, R341). -/
def stage2 (s : State) (vf gpa : Nat) : Except TErr W2 :=
  if 2 ^ 57 ≤ gpa then .error (.absent2 gpa 0)
  else walk2 s vf gpa walkLevels ((s.vf vf).s2root.toNat / 65536 * 65536) true

/-- A stage-1 entry on the way to a VA: its GPA, its place and its value. A table on a peer device is reported as a stage-2
fault in the walk (assumption 9). -/
def entry1 (s : State) (vf proc va : Nat) (lv : Nat × Nat × Nat) (table : Nat) : Except TErr (Nat × Nat × Nat) :=
  match walkCached s false vf proc va lv with
  | some e => .ok (e.gpa, e.at_, e.val)
  | none =>
    let ga := entryAddr table va lv
    match stage2 s vf ga with
    | .error (.absent2 _ f) => .error (.inWalk ga f)
    | .error e => .error e
    | .ok t =>
      if t.dev != 0 then .error (.inWalk ga 0)
      else
        match readEntry s vf t.pa with
        | .error e => .error e
        | .ok e => .ok (ga, t.pa, e)

/-- The stage-1 walk below a table: the leaf's GPA for the address, W along it, its page class, its place, and the GPAs of
the entries read. -/
def walk1 (s : State) (vf proc va : Nat) (lvs : List (Nat × Nat × Nat)) (table : Nat) (w : Bool) :
    Except TErr (Nat × Bool × Nat × Nat × List Nat) :=
  match lvs with
  | [] => .error .absent
  | lv :: rest =>
    match entry1 s vf proc va lv table with
    | .error e => .error e
    | .ok (ga, pa, e) =>
      if !bitOf e 0 then .error .absent
      else if malformed false lv.1 e then .error .rights
      else if bitOf e 1 then .ok (entryBase e + va % 2 ^ lv.2.1, w && bitOf e 2, bitsOf e 7 6, pa, [ga])
      else
        match walk1 s vf proc va rest (entryBase e) (w && bitOf e 2) with
        | .error x => .error x
        | .ok (g, w, c, l, gs) => .ok (g, w, c, l, ga :: gs)

/-- The root of a process's stage-1 tables. -/
def root1 (s : State) (vf proc : Nat) : Nat := (Map.get (s.vf vf).s1root proc 0).toNat / 65536 * 65536

/-- The walk of both stages for a VA (R343). -/
def walk (s : State) (vf proc va : Nat) : Except TErr TlbEntry :=
  match walk1 s vf proc va walkLevels (root1 s vf proc) true with
  | .error e => .error e
  | .ok (gpa, w1, pcls, leaf1, gpas) =>
    match stage2 s vf gpa with
    | .error e => .error e
    | .ok t =>
      .ok { vf := vf, proc := proc, page := va / 65536, gpa := gpa / 65536 * 65536, pa := t.pa / 65536 * 65536, w1 := w1,
            w2 := t.w, pcls := pcls, oset := t.oset, mixed := t.mixed, dev := t.dev, used := false, wrote := false, leaf1 := leaf1,
            leaf2 := t.leaf, gpas := gpas }

/-- The entries that a stage-2 walk below a table reads, for the walk caches; none that is absent or malformed (R346). -/
def trail2 (s : State) (vf gpa : Nat) (lvs : List (Nat × Nat × Nat)) (table : Nat) : List WalkEntry :=
  match lvs with
  | [] => []
  | lv :: rest =>
    match entry2 s vf gpa lv table with
    | .error _ => []
    | .ok (a, e) =>
      if !bitOf e 0 || malformed true lv.1 e then []
      else
        { stage2 := true, vf := vf, proc := 0, base := gpa / 2 ^ lv.2.1 * 2 ^ lv.2.1, size := 2 ^ lv.2.1, gpa := 0, at_ := a, val := e } ::
          if bitOf e 1 then [] else trail2 s vf gpa rest (entryBase e)

/-- The entries that the stage-2 walk of a GPA reads. -/
def gpaTrail (s : State) (vf gpa : Nat) : List WalkEntry :=
  trail2 s vf gpa walkLevels ((s.vf vf).s2root.toNat / 65536 * 65536)

/-- The entries of both stages that the walk of a VA below a table reads. -/
def trail1 (s : State) (vf proc va : Nat) (lvs : List (Nat × Nat × Nat)) (table : Nat) : List WalkEntry :=
  match lvs with
  | [] => []
  | lv :: rest =>
    match entry1 s vf proc va lv table with
    | .error _ => []
    | .ok (ga, pa, e) =>
      if !bitOf e 0 || malformed false lv.1 e then []
      else
        { stage2 := false, vf := vf, proc := proc, base := va / 2 ^ lv.2.1 * 2 ^ lv.2.1, size := 2 ^ lv.2.1, gpa := ga, at_ := pa,
          val := e } ::
          (gpaTrail s vf ga ++
            if bitOf e 1 then gpaTrail s vf (entryBase e + va % 2 ^ lv.2.1) else trail1 s vf proc va rest (entryBase e))

/-- Whether two entries of the walk caches are of one place of one tree. -/
def WalkEntry.same (a b : WalkEntry) : Bool :=
  a.stage2 == b.stage2 && a.vf == b.vf && a.proc == b.proc && a.base == b.base && a.size == b.size

/-! ## TLBs, accessed and dirty bits (R345, R346, R357) -/

/-- Whether a cached translation is of a page. -/
def TlbEntry.covers (e : TlbEntry) (vf proc page : Nat) : Bool := e.vf == vf && e.proc == proc && e.page == page

/-- The cached translation of a page in a core's or its cluster's TLB. -/
def tlbFind (s : State) (core vf proc page : Nat) : Option TlbEntry :=
  match (s.core core).tlb.find? fun e => e.covers vf proc page with
  | some e => some e
  | none => (Map.get s.ctlb (clusterOf core) []).find? fun e => e.covers vf proc page

/-- Puts an entry at the head of a list of translations, at most n of which stay. -/
def tlbPut (n : Nat) (e : TlbEntry) (es : List TlbEntry) : List TlbEntry :=
  (e :: es.filter fun f => !f.covers e.vf e.proc e.page).take n

/-- Fills the core's 64-entry and the cluster's 4096-entry TLB (R346). -/
def tlbFill (s : State) (core : Nat) (e : TlbEntry) : State :=
  let s := s.modCore core fun k => { k with tlb := tlbPut 64 e k.tlb }
  { s with ctlb := Map.put s.ctlb (clusterOf core) (tlbPut 4096 e (Map.get s.ctlb (clusterOf core) [])) }

/-- ORs bits into the low byte of an entry of memory (R345). -/
def orEntry (s : State) (vf a bits : Nat) : State := memPut s vf a (memByte s vf a ||| BitVec.ofNat 8 bits)

/-- Sets bits in both leaves of a translation. -/
def touchLeaves (s : State) (vf : Nat) (e : TlbEntry) (bits : Nat) : State :=
  if bits = 0 then s else orEntry (orEntry s vf e.leaf1 bits) vf e.leaf2 bits

/-- The bits of the leaves that an access through a translation sets (R345): A at the first demand access since its TLB entry was
filled, D before the first write. -/
def leafBits (e : TlbEntry) (write demand : Bool) : Nat :=
  (if demand && !e.used then 8 else 0) + (if demand && write && !e.wrote then 16 else 0)

/-- A translation after an access through it. -/
def TlbEntry.after (e : TlbEntry) (write demand : Bool) : TlbEntry :=
  { e with used := e.used || demand, wrote := e.wrote || (demand && write) }

/-- Sets the accessed bit of the frame a physical address lies in (R357). -/
def touchFrame (s : State) (pa : Nat) : State :=
  { s with frames := Map.mod s.frames (pa / 65536) fun f => { f with accessed := true } }

/-- Sets the accessed bit of the frame that an access misses the L2 for (R357). -/
def touchMissed (s : State) (vf pa : Nat) : State := if (l2Find s vf pa).isSome then s else touchFrame s pa

/-- Keeps an entry that a walk has read in BD's walk caches until it is invalidated (R346, assumption 73). -/
def noteEntry (s : State) (e : WalkEntry) : State :=
  if s.walks.any e.same then s else { touchMissed s e.vf e.at_ with walks := e :: s.walks }

/-- Keeps the entries that the walk of a VA has read. -/
def noteWalk (s : State) (vf proc va : Nat) : State :=
  (trail1 s vf proc va walkLevels (root1 s vf proc)).foldl noteEntry s

/-- Checks a translation for a write (R343): W along stage 1, then along stage 2. -/
def rightsOf (e : TlbEntry) (write : Bool) : Except TErr Unit :=
  if write && !e.w1 then .error .rights else if write && !e.w2 then .error (.absent2 e.gpa 8) else .ok ()

/-- A core and its cluster take a translation into their TLBs, after an access through it (R346): a frame of HBM that a TLB newly
maps is accessed (R357), and so are the leaves (R345). -/
def takeEntry (s : State) (core : Nat) (e : TlbEntry) (write demand : Bool) : State :=
  let old := (s.core core).tlb.find? fun f => f.covers e.vf e.proc e.page
  let s := if old.isNone && e.dev == 0 then touchFrame s e.pa else s
  let s := if old == some (e.after write demand) then s else tlbFill s core (e.after write demand)
  touchLeaves s e.vf e (leafBits e write demand)

/-- Translates a VA for an access of a core, `demand` unless it is a runahead access or a prefetch: cached or walked,
checked, cached, with the accessed and dirty bits set (R343, R345, R346). -/
def translate (s : State) (core vf proc va : Nat) (write demand : Bool) : Except TErr (TlbEntry × State) :=
  match tlbFind s core vf proc (va / 65536) with
  | some e =>
    match rightsOf e write with
    | .error x => .error x
    | .ok () => .ok (e, takeEntry s core e write demand)
  | none =>
    match walk s vf proc va with
    | .error x => .error x
    | .ok e =>
      match rightsOf e write with
      | .error x => .error x
      | .ok () => .ok (e, takeEntry (noteWalk s vf proc va) core e write demand)

/-! ## Where an access goes (R110, R328, R330) -/

/-- A translated address: device, physical address, page set, mixed, page class. -/
structure Place where
  dev   : Nat
  pa    : Nat
  oset  : OSet
  mixed : Bool
  pcls  : Nat
  deriving DecidableEq, Repr

/-- The extent of a grid that holds an address: the first in list order. -/
def extentOf (g : Grid) (va : Nat) : Option Extent :=
  g.extents.find? fun e => decide (e.va ≤ va ∧ va < e.va + 65536 * e.pages)

/-- The L2 page class of an access inside an extent: a nonzero range class, where 4 is O, else its page's (R330). -/
def Extent.classOf (e : Extent) (va : Nat) : Nat :=
  if e.cls = 0 then (e.pcls[(va - e.va) / 65536]?).getD 0 else if e.cls = 4 then 0 else e.cls

/-- Translates a VA for a grid: its extents first (R330), else the walk. `need` is the right of Table 14.6 that the
access uses: 1 read, 2 write, 4 fetch; a read and a write need both. -/
def placeOf (s : State) (core : Nat) (g : Grid) (va need : Nat) (demand : Bool) : Except TErr (Place × State) :=
  if 2 ^ 57 ≤ va then .error .rights
  else
    match extentOf g va with
    | some e =>
      if e.rights &&& need = need then
        .ok ({ dev := e.dev, pa := e.pa + (va - e.va), oset := e.oset, mixed := e.mixed, pcls := e.classOf va }, s)
      else .error .rights
    | none =>
      match translate s core g.vf g.proc va (bitOf need 1) demand with
      | .error x => .error x
      | .ok (e, s) => .ok ({ dev := e.dev, pa := e.pa + va % 65536, oset := e.oset, mixed := e.mixed, pcls := e.pcls }, s)

/-- The cause a failed translation raises (Table 15.7). -/
def TErr.cause : TErr → Cause
  | .rights => .pageRights
  | .absent => .pageAbsent
  | .absent2 _ _ => .stage2Absent
  | .inWalk _ _ => .stage2InWalk
  | .flawed _ => .dataUncorrectable
  | .noMem => .pageRights

/-- The page a failed translation reports, with its stage (R349): its VA at stage 1, its GPA at stage 2. -/
def TErr.page (e : TErr) (va : Nat) (write fetch : Bool) : Bool × Nat × Bool × Bool :=
  match e with
  | .absent2 gpa _ => (true, gpa / 65536 * 65536, write, fetch)
  | _ => (false, va / 65536 * 65536, write, fetch)

/-- The flags and the GPA a failed translation puts in its record. -/
def TErr.flags : TErr → Nat
  | .absent2 _ f | .inWalk _ f => f
  | _ => 0

/-- The GPA of a fault in a walk. -/
def TErr.gpa : TErr → Dword
  | .inWalk g _ => dword g
  | _ => 0

/-- The absent pages among failed checks, with the failures themselves. -/
def absentPages (es : List (Nat × Nat × (Cause ⊕ TErr))) (write fetch : Bool) : List ((Bool × Nat × Bool × Bool) × TErr) :=
  es.filterMap fun e =>
    match e.2.2 with
    | .inr .absent => some (TErr.page .absent e.2.1 write fetch, .absent)
    | .inr (.absent2 g f) => some (TErr.page (.absent2 g f) e.2.1 write fetch, .absent2 g f)
    | _ => none

/-- What the failed checks of an access's lanes raise: the cause of the lowest lane (assumption 11), an absent page with
every absent page of the instruction in its batch (R348, R349). -/
def raiseAccess (es : List (Nat × Nat × (Cause ⊕ TErr))) (write fetch : Bool) : Stop :=
  let fa := es.map fun e => (e.1, dword e.2.1)
  let ps := absentPages es write fetch
  let fl := ps.foldl (fun f p => f ||| p.2.flags) 0
  match es with
  | [] => .raise .pageRights []
  | (_, _, .inl c) :: _ => .raise c fa
  | (_, _, .inr .rights) :: _ => .raise .pageRights fa
  | (_, _, .inr .noMem) :: _ => .fault .noSuchMemory
  | (_, _, .inr (.flawed l)) :: _ => .flaw (.used l) fa
  | (_, _, .inr (.inWalk g f)) :: _ => .serve .stage2InWalk [] f (dword g) fa
  | (_, _, .inr t) :: _ => .serve t.cause (ps.map (·.1)) fl 0 fa

end Sys2Proof.Machine
end

