-- ==== Sys2Proof/Machine/Fabric.lean ====
section
/-! DEFINITION. Release gates, fabric ports and the requests this device sends to its peers (05_memory.md R128;
16_partitions.md R372; 17_trust.md R397 to R399; 19_platform.md R421). -/

namespace Sys2Proof.Machine

/-! ## Gates (R397 to R399) -/

/-- The destination of a transfer: a principal, or an endpoint class (R397). -/
inductive GDest where
  | prin (p : Word)
  | cls (n : Nat)
  deriving DecidableEq, Repr

/-- The gate of the host link. -/
def hostGate : Nat := 16

/-- Whether a policy's destination is a transfer's (R398, Table 17.8). -/
def Policy.matches (p : Policy) (d : GDest) : Bool :=
  match d with
  | .prin x => p.kind == 0 && p.dest == x
  | .cls n => p.kind == 1 && p.dest == word n

/-- Whether a live policy passes a transfer (R398). -/
def Policy.passes (p : Policy) (now : Dword) (len : Nat) (xs : List Word) (d : GDest) : Bool :=
  p.matches d && xs.all (fun x => p.members.contains x) && decide (now.toNat < p.expiry.toNat) && decide (len ≤ p.budget)

/-- The lowest slot of a gate whose policy passes a transfer. -/
def passSlot (m : Map Policy) (now : Dword) (len : Nat) (xs : List Word) (d : GDest) : Option Nat :=
  match m with
  | [] => none
  | (i, p) :: rest => if p.passes now len xs d then some i else passSlot rest now len xs d

/-- What a destination takes away from a set. -/
def setMinus (ps : List Word) (d : GDest) : List Word :=
  match d with
  | .prin x => ps.filter (· != x)
  | .cls _ => ps

/-- One gate check of a transfer (R398): the state with the budget spent, none where it is denied. -/
def gateCheck (s : State) (gate len : Nat) (y : OSet) (d : GDest) : Option State :=
  let e := osEntry s.osets y
  if e.retired || !Map.has s.osets y then none
  else if setMinus e.prins d = [] then some s
  else
    match passSlot (Map.get s.gates gate []) s.gtime len (setMinus e.prins d) d with
    | none => none
    | some i =>
      let m := Map.mod (Map.get s.gates gate []) i fun p => { p with budget := p.budget - len }
      some { s with gates := Map.put s.gates gate m }

/-- The destination of host-link traffic of a VF: its bound principal, else class 2 (R397). -/
def hostDest (s : State) (vf : Nat) : GDest :=
  match (s.vf vf).principal with
  | some p => .prin p
  | none => .cls 2

/-- The destination of fabric traffic to a peer: the principal of its endpoint, else class 2 (R397). -/
def peerDest (s : State) (dev vf : Nat) : GDest :=
  let p := Map.get s.eprin (256 * dev + vf) 0
  if p = 0 then .cls 2 else .prin p

/-- The fields of a denial's notice (R399). -/
def denialRec (r : FRec) (gate : Nat) (y : OSet) (d : GDest) : FRec :=
  { r with count := gate, gpa := dword y,
           va := match d with | .prin p => zx p | .cls n => dword (n + 2 ^ 32) }

/-! ## Ports and frames (R421) -/

/-- The fabric ports that carry traffic. -/
def usablePorts (s : State) : List Nat := (List.range 16).filter fun p =>
  (Map.get s.ports p Port.init).up && !(Map.get s.ports p Port.init).fen && !(Map.get s.ports p Port.init).ret

/-- The port that carries the next frame to a peer; none where no port or no address reaches it (assumption 10). -/
def portFor (s : State) (dev : Nat) : Option Nat :=
  if Map.get s.fdev dev 0 = 0 then none
  else
    match usablePorts s with
    | [] => none
    | p :: rest => (p :: rest)[Config.route dev s.free % (rest.length + 1)]?

/-- Why a frame does not leave. -/
inductive NoSend where
  | unreachable
  /-- Denied at a gate, to a destination. -/
  | denied (gate : Nat) (d : GDest)
  /-- All 8192 request trackers are in use. -/
  | busy
  deriving DecidableEq, Repr

/-- Queues a frame at a port, where it waits for its turn to leave (16_partitions.md R372). -/
def queueFrame (s : State) (p : Nat) (m : Sent) : State :=
  { s with ports := Map.upd s.ports p Port.init fun q => { q with queue := q.queue ++ [m] } }

/-- Sends a frame to a peer, of class H or G: `gated` gives the bytes and set of a payload that passes a gate. The peer's VF is taken to
be the sender's own number (assumption 10). It carries FPTYPE and the peer's MAC address, and waits at its port. -/
def sendFrame (s : State) (dev vf : Nat) (h : Bool) (gated : Option (Nat × OSet)) (body : FrameBody) : Except NoSend State :=
  match portFor s dev with
  | none => .error .unreachable
  | some p =>
    let units := max 1 (((gated.map (·.1)).getD 0 + 255) / 256)
    let out (s : State) : State :=
      queueFrame { countN s 4 p vf h 0x0301 units with free := s.free + 1 } p
        { port := p, device := dev, vf := vf, body := body, ftype := s.ftype, mac := Map.get s.fdev dev 0, h := h, units := units }
    match gated with
    | none => .ok (out s)
    | some (n, y) =>
      match gateCheck s p n y (peerDest s dev vf) with
      | some s => .ok (out s)
      | none => .error (.denied p (peerDest s dev vf))

/-! ## Frames leave a port (16_partitions.md R372) -/

/-- The frame of a partition that leaves next: its oldest of class G, else its oldest. -/
def Port.firstOf (p : Port) (vf : Nat) : Option Sent :=
  (p.queue.find? fun m => m.vf == vf && !m.h).orElse fun _ => p.queue.find? fun m => m.vf == vf

/-- The partition with frames waiting whose turn follows one's: the next above it, else the lowest. -/
def Port.nextVf (p : Port) : Nat :=
  let vs := dedup (p.queue.map fun m => m.vf)
  match leastBy id (vs.filter fun v => decide (p.turn < v)) with
  | some v => v
  | none => (leastBy id vs).getD 0

/-- Takes a frame out of a port, its partition's deficit spent; a partition with nothing more waiting reserves nothing. -/
def Port.take (p : Port) (m : Sent) : Port :=
  let q := p.queue.erase m
  { p with queue := q, deficit := if q.any fun k => k.vf == m.vf then Map.upd p.deficit m.vf 0 (· - m.units) else Map.del p.deficit m.vf }

/-- The turn passes to the next partition, which gains its weight. -/
def Port.advance (p : Port) (weight : Nat → Nat) : Port :=
  { p with turn := p.nextVf, deficit := Map.upd p.deficit p.nextVf 0 (· + weight p.nextVf) }

/-- Deficit round robin on the partitions' weights, in units of 256 bytes: the frame that leaves next, and the port after. -/
def Port.serve (weight : Nat → Nat) (fuel : Nat) (p : Port) : Option (Sent × Port) :=
  match fuel with
  | 0 => none
  | fuel + 1 =>
    match p.firstOf p.turn with
    | some m => if m.units ≤ Map.get p.deficit p.turn 0 then some (m, p.take m) else (p.advance weight).serve weight fuel
    | none => if p.queue.isEmpty then none else (p.advance weight).serve weight fuel
/-- A port sends the frame whose turn it is; frames of no partition count with weight 1. -/
def departFrame (s : State) (p : Nat) : State :=
  let q := Map.get s.ports p Port.init
  if !(usablePorts s).contains p then s
  else
    match q.serve (fun v => max 1 (s.vf v).cfg.fabW) (256 * (1 + sumOf (q.queue.map fun m => m.units))) with
    | some (m, q) => { s with ports := Map.put s.ports p q, sent := s.sent ++ [m] }
    | none => s

/-- Takes a request tracker (R128). -/
def takeTracker (s : State) (t : Tracker) : Except NoSend (Nat × State) :=
  if 8192 ≤ s.trackers.length then .error .busy
  else
    match Map.fresh s.trackers 0 8192 with
    | none => .error .busy
    | some i => .ok (i, { s with trackers := Map.put s.trackers i t })

/-- Sends a request under a tracker of its own. -/
def request (s : State) (dev vf : Nat) (h : Bool) (t : Tracker) (gated : Option (Nat × OSet)) (body : Nat → FrameBody) :
    Except NoSend State :=
  match takeTracker s t with
  | .error e => .error e
  | .ok (i, s) =>
    match sendFrame s dev vf h gated (body i) with
    | .error e => .error e
    | .ok t => .ok { t with trackers := Map.mod t.trackers i fun k => { k with port := (portFor s dev).getD 0, vf := vf } }

/-- Sends one more frame under a tracker in use: another answer is to come (R128). -/
def requestMore (s : State) (i : Nat) (t : Tracker) (h : Bool) (gated : Option (Nat × OSet)) (body : Nat → FrameBody) : Except NoSend State :=
  match sendFrame s t.device t.vf h gated (body i) with
  | .error e => .error e
  | .ok s => .ok { s with trackers := Map.mod s.trackers i fun t => { t with left := t.left + 1 } }

/-- What a frame that does not leave raises at an instruction or operation. -/
def NoSend.stop (e : NoSend) : Stop :=
  match e with
  | .unreachable => .raise .remoteUnreachable []
  | .denied _ _ => .raise .egressDenied []
  | .busy => .block .trk

end Sys2Proof.Machine
end

