-- ==== Sys2Proof/Machine/Memory.lean ====
section
/-! DEFINITION. L1 data caches, the directory of a die, write-backs and the L2's allocation (05_memory.md R121 to R126;
06_ordering.md R146 to R149). -/

namespace Sys2Proof.Machine

/-! ## Lines of an L1 -/

/-- The key of a 64 B line: the peer device, 0 for this one, and the line's number. -/
def lineKey (dev pa : Nat) : Nat := dev * 2 ^ 46 + pa / 64

/-- The device of a line's key. -/
def keyDev (k : Nat) : Nat := k / 2 ^ 46

/-- The physical address a line's key begins at. -/
def keyPa (k : Nat) : Nat := k % 2 ^ 46 * 64

/-- Whether a slice holds every byte of a 64 B line. -/
def sliceHit (s : State) (vf pa : Nat) : Bool :=
  match l2Find s vf pa with
  | some l => (List.range 64).all fun i => Map.has l.bytes (pa % 256 / 64 * 64 + i)
  | none => false

/-- A core without the fill of a line in flight. -/
def Core.endFill (k : Core) (key : Nat) : Core :=
  { k with fills := k.fills.filter (· != key), fillP := Map.del k.fillP key, stale := k.stale.filter (· != key) }

/-- A line of an L1, if held. -/
def l1Line (s : State) (core key : Nat) : Option L1Line := Map.find? (s.core core).l1 key

/-- The cores of a die that hold state, ascending. -/
def dieCores (s : State) (die : Nat) : List Nat := (Map.keys s.cores).filter fun c => dieOf c == die

/-- The dirty bytes of a line. -/
def dirtyBytes (l : L1Line) : Map Byte := l.bytes.filter fun p => l.dirty.getLsbD p.1

/-- A byte that some L1 of a die holds dirty. -/
def dieDirty (s : State) (die key off : Nat) : Option Byte :=
  (dieCores s die).findSome? fun c => (l1Line s c key).bind fun l => if l.dirty.getLsbD off then Map.find? l.bytes off else none

/-- A byte on its way from a die to its slice or peer, the latest written back. -/
def wbByte (s : State) (die key off : Nat) : Option Byte :=
  s.wbufs.foldl (fun b w => if w.die == die && w.line == key then
    match Map.find? w.bytes off with
    | some x => some x
    | none => b else b) none

/-- A byte of generic memory as a core reads it (R146): its own L1, the owning L1 of its die, what the die has written
back, and the memory side. -/
def dieRead (s : State) (core vf dev pa : Nat) : Byte :=
  let key := lineKey dev pa
  let off := pa % 64
  match (l1Line s core key).bind fun l => Map.find? l.bytes off with
  | some b => b
  | none =>
    match dieDirty s (dieOf core) key off with
    | some b => b
    | none =>
      match wbByte s (dieOf core) key off with
      | some b => b
      | none => if dev = 0 then memByte s vf pa else 0

/-- Bytes of generic memory as a core reads them. -/
def dieReads (s : State) (core vf dev pa n : Nat) : List Byte := (List.range n).map fun i => dieRead s core vf dev (pa + i)

/-! ## Victims and write-backs (R121, R122) -/

/-- The line an L1 set gives up when its 12 ways are full (R122). -/
def l1Victim (ls : List (Nat × L1Line)) : Option Nat :=
  match leastBy (fun p : Nat × L1Line => p.2.used) (ls.filter fun p => p.2.mark == .evictFirst) with
  | some p => some p.1
  | none =>
    match leastBy (fun p : Nat × L1Line => p.2.used) (ls.filter fun p => p.2.mark != .keep) with
    | some p => some p.1
    | none => (leastBy (fun p : Nat × L1Line => p.2.used) ls).map (·.1)

/-- The write-back of a line's dirty bytes. -/
def wbOf (core key : Nat) (l : L1Line) : WriteBack :=
  { die := dieOf core, line := key, bytes := dirtyBytes l, h := l.h, pcls := l.pcls, vf := l.vf, set := l.set,
    last := l.last, noL2 := l.noL2, sent := false }

/-- Starts the write-back of a line's dirty bytes, which become clean; a line with an uncorrectable error is lost (19_platform.md
R423). -/
def cleanLine (s : State) (core key : Nat) : State :=
  match l1Line s core key with
  | none => s
  | some l =>
    if l.dirty = 0 then s
    else if s.flaws.contains (.l1 core key) then
      { s.modCore core (fun k => { k with l1 := Map.del k.l1 key }) with
        flaws := s.flaws.filter (· != .l1 core key), found := s.found ++ [.lost core (keyPa key / 256)] }
    else { s.modCore core fun k => { k with l1 := Map.put k.l1 key { l with dirty := 0 } } with
           wbufs := s.wbufs ++ [wbOf core key l] }

/-- Takes a line out of an L1, its dirty bytes written back. -/
def dropLine (s : State) (core key : Nat) : State :=
  (cleanLine s core key).modCore core fun k => { k with l1 := Map.del k.l1 key }

/-- Makes room for a line in its set: 12 ways, indexed by bits [15:6] of the address (R121). -/
def l1Room (s : State) (core key : Nat) : State :=
  let ls := (s.core core).l1.filter fun p => p.1 % 1024 == key % 1024
  if ls.length < 12 then s
  else
    match l1Victim ls with
    | some v => dropLine s core v
    | none => s

/-- A line just allocated, with nothing valid in it. -/
def L1Line.fresh (vf : Nat) (h : Bool) (pcls : Nat) : L1Line :=
  { bytes := [], dirty := 0, h := h, pcls := pcls, vf := vf, mark := .none, used := 0, set := 0, noL2 := false,
    last := FRec.init }

/-- The mark and recency a line takes at an access (Table 5.6): `policy` is the code of CACHE payload [5:4]. -/
def touchLine (alloc : Bool) (policy seq : Nat) (l : L1Line) : L1Line :=
  let m := if alloc then (if policy = 3 then L1Mark.keep else if policy = 2 then .evictFirst else l.mark)
    else if (policy = 0 || policy = 3) && l.mark == .evictFirst then .none
    else l.mark
  { l with mark := m, used := if alloc && policy = 1 then 0 else seq }

/-- At most 8 lines of a set hold the keep mark: a ninth clears the least recent other one (Table 5.6). -/
def keepCap (k : Core) (key : Nat) : Core :=
  let ks := k.l1.filter fun p => p.1 % 1024 == key % 1024 && p.2.mark == .keep
  if ks.length ≤ 8 then k
  else
    match leastBy (fun p : Nat × L1Line => p.2.used) (ks.filter fun p => p.1 != key) with
    | some p => { k with l1 := Map.mod k.l1 p.1 fun l => { l with mark := .none } }
    | none => k

/-- Has a line in an L1, allocating it where it is not held, with the marks of the access. -/
def haveLine (s : State) (core key vf : Nat) (h : Bool) (pcls policy : Nat) : State :=
  match l1Line s core key with
  | some l => s.modCore core fun k => keepCap { k with l1 := Map.put k.l1 key (touchLine false policy s.seq l) } key
  | none =>
    (l1Room s core key).modCore core fun k =>
      keepCap { k with l1 := Map.put k.l1 key (touchLine true policy s.seq (L1Line.fresh vf h pcls)) } key

/-! ## Stores into an L1 (R121, R146) -/

/-- The dirty bytes that other L1s of a die hold of a line. -/
def othersDirty (s : State) (core key : Nat) : Map Byte :=
  ((dieCores s (dieOf core)).filter (· != core)).foldl (fun m c =>
    match l1Line s c key with
    | some l => (dirtyBytes l).foldl (fun m p => Map.put m p.1 p.2) m
    | none => m) []

/-- Invalidates the copies other L1s of a die hold of a line, their dirty bytes already taken. -/
def dropOthers (s : State) (core key : Nat) : State :=
  ((dieCores s (dieOf core)).filter (· != core)).foldl (fun s c => s.modCore c fun k => { k with l1 := Map.del k.l1 key }) s

/-- Writes bytes into a line and marks them dirty. -/
def putDirty (l : L1Line) (bs : Map Byte) : L1Line :=
  bs.foldl (fun l p => { l with bytes := Map.put l.bytes p.1 p.2, dirty := l.dirty ||| BitVec.ofNat 64 (2 ^ p.1) }) l

/-- Bytes as a table from an offset on. -/
def byteMap (off : Nat) (bs : List Byte) : Map Byte := bs.mapIdx fun i b => (off + i, b)

/-- A store of at most a line's bytes into a core's L1: the directory makes the line exclusive first, and its dirty bytes
elsewhere on the die come along (R146). -/
def l1Store (s : State) (core vf : Nat) (h : Bool) (pcls policy dev pa : Nat) (bs : List Byte) (set : OSet) (noL2 : Bool)
    (last : FRec) : State :=
  let key := lineKey dev pa
  let moved := othersDirty s core key
  let s := haveLine (dropOthers s core key) core key vf h pcls policy
  s.modCore core fun k => { k with l1 := Map.mod k.l1 key fun l =>
    { putDirty (putDirty l moved) (byteMap (pa % 64) bs) with h := h, pcls := pcls, vf := vf, set := set, noL2 := noL2,
                                                              last := last } }

/-- Recalls a line from every L1 of a die: dirty bytes go back, copies are invalidated (Table 6.4). -/
def recallLine (s : State) (die key : Nat) : State := (dieCores s die).foldl (fun s c => dropLine s c key) s

/-! ## Cache actions of releases and acquires (R147, R148) -/

/-- Whether a cache action covers a line: local memory, or remote lines as well at dom scope. -/
def actsOn (dom : Bool) (key : Nat) : Bool := keyDev key == 0 || dom

/-- The L1s of a die with the lines they hold. -/
def dieLines (s : State) (die : Nat) : List (Nat × Nat) :=
  (dieCores s die).flatMap fun c => (Map.keys (s.core c).l1).map fun k => (c, k)

/-- Starts the write-back of every dirty byte of a die (Table 6.6). -/
def cleanDie (s : State) (die : Nat) (dom : Bool) : State :=
  ((dieLines s die).filter fun p => actsOn dom p.2).foldl (fun s p => cleanLine s p.1 p.2) s

/-- The lines of a die whose write-back is not acknowledged. -/
def unacked (s : State) (die : Nat) (dom : Bool) : List Nat :=
  dedup ((s.wbufs.filter fun w => w.die == die && actsOn dom w.line).map (·.line))

/-- Whether the write-backs of some lines have all been acknowledged. -/
def flushed (s : State) (die : Nat) (ls : List Nat) : Bool :=
  !s.wbufs.any fun w => w.die == die && ls.contains w.line

/-- What an acquire leaves of a line: nothing where it holds no dirty byte, else its dirty bytes (Table 6.6). -/
def acquireLine (k : Core) (key : Nat) : Core :=
  match Map.find? k.l1 key with
  | none => k
  | some l =>
    if l.dirty = 0 then { k with l1 := Map.del k.l1 key }
    else { k with l1 := Map.put k.l1 key { l with bytes := dirtyBytes l } }

/-- Notes that the data of fills of remote lines in flight to a core is outdated: those lines are asked for anew (R147). -/
def Core.outdateFills (k : Core) (f : Nat → Bool) : Core :=
  { k with stale := dedup (k.stale ++ k.fills.filter fun key => keyDev key != 0 && f key) }

/-- The cache action of an acquire (R147, R148): none below dev scope. A fill of a remote line in flight at one of dom scope counts
as filled before it. -/
def acquireAct (s : State) (die : Nat) (sc : Scope) : State :=
  match sc with
  | .dev | .dom =>
    let s := ((dieLines s die).filter fun p => actsOn (sc == .dom) p.2).foldl (fun s p => s.modCore p.1 fun k => acquireLine k p.2) s
    if sc == .dom then (dieCores s die).foldl (fun s c => s.modCore c fun k => k.outdateFills fun _ => true) s else s
  | _ => s

/-- The dies whose L1s may hold what a core's threads have written: its own, or both where there is no core any more. -/
def diesFor (core : Option Nat) : List Nat :=
  match core with
  | some c => [dieOf c]
  | none => [0, 1]

/-- Takes a remote line out of the L1s of some dies, its dirty bytes on their way to the peer, and outdates what is in flight of it:
a write of it is performed at the peer (R138, R142, R145, R152). -/
def outdateLine (s : State) (dies : List Nat) (key : Nat) : State :=
  dies.foldl (fun s d => (dieCores s d).foldl (fun s c => s.modCore c fun k => k.outdateFills (· == key)) (recallLine s d key)) s

/-- Whether nothing of a remote line is on its way from some dies to its peer. -/
def lineClear (s : State) (dies : List Nat) (key : Nat) : Bool :=
  dies.all fun d => !s.wbufs.any fun w => w.die == d && w.line == key

/-- Whether a scope's releases write back, and its acquires invalidate. -/
def wideScope : Scope → Bool
  | .dev | .dom => true
  | _ => false

/-! ## L2 allocation (R124) -/

/-- The ways of a class: G ways first. -/
def waysOf (c : PartCfg) (h : Bool) : List Nat := (List.range 16).filter fun w => decide (w < c.gWays) != h

/-- The quota of a page class in the G ways; O has none. -/
def quotaOf (c : PartCfg) (pcls : Nat) : Nat := if pcls = 0 then 0 else (c.quotas[pcls - 1]?).getD 0

/-- The way a line takes in a set (R124): free, or a victim; none where nothing may be given up, as at a quota of 0: then nothing is
allocated (DESIGN CHOICE, assumption 78). -/
def l2Way (c : PartCfg) (ls : List L2Line) (h : Bool) (pcls : Nat) : Option Nat :=
  let ws := waysOf c h
  let mine := ls.filter fun l => ws.contains l.way
  match ws.find? fun w => !mine.any fun l => l.way == w with
  | some w => some w
  | none =>
    let cand := mine.filter fun l => !l.filling
    let n (q : Nat) := (mine.filter fun l => l.pcls == q).length
    let pool :=
      if h then cand
      else if pcls = 0 then cand.filter fun l => l.pcls == 0 || decide (quotaOf c l.pcls < n l.pcls)
      else if n pcls < quotaOf c pcls then cand
      else cand.filter fun l => l.pcls == pcls
    (leastBy (fun l : L2Line => l.used) pool).map (·.way)

/-- The HBM stack of a physical address (R127). -/
def stackOf (pa : Nat) : Nat := pa / 65536 % 12

/-- Counts a line's dirty sectors as written back from a slice to HBM (Table 18.4). -/
def countSpill (s : State) (k vf : Nat) (l : L2Line) : State :=
  let n := ((List.range 4).filter fun i => l.dirty.getLsbD i).length
  if n = 0 then s else countEvent (countN s 2 k vf l.h 0x0103 n) 3 (stackOf (256 * l.line)) vf l.h 0x0202

/-- The HBM channel of a physical address (R127). -/
def channelOf (pa : Nat) : Nat := 32 * stackOf pa + pa / 2048 % 32

/-- Queues a request at the channel of its line (R371). -/
def queueHbm (s : State) (k line vf : Nat) (h write : Bool) : State :=
  let q : HbmReq := { slice := k, line := line, vf := vf, h := h, seq := s.seq, write := write }
  ({ s with channels := Map.upd s.channels (channelOf (256 * line)) Channel.init fun c =>
      { c with queue := c.queue ++ [q] } }).tickSeq

/-- Writes a line's dirty sectors of a slice back to HBM (R124), with a place in its channel's queue (R371); a read that comes after it
finds the bytes. A line with an uncorrectable error that the write-back finds is lost (19_platform.md R423). -/
def spillLine (s : State) (k vf : Nat) (l : L2Line) : State :=
  if s.flaws.contains (.l2 l.line) then
    { s with flaws := s.flaws.filter (· != .l2 l.line), found := s.found ++ [.lost (320 + k) l.line] }
  else if l.dirty = 0 then s
  else
    let s := queueHbm (countSpill s k vf l) k l.line vf l.h true
    { s with hbm := l.bytes.foldl (fun m p => if l.dirty.getLsbD (p.1 / 64) then Memory.write m (256 * l.line + p.1) p.2 else m)
                      s.hbm }

/-- Allocates a line for a physical address in its slice, if R124 gives it a way. -/
def l2Alloc (s : State) (vf pa : Nat) (h : Bool) (pcls : Nat) : Option State :=
  let c := (s.vf vf).cfg
  let k := sliceOf c pa
  let ls := Map.get (Map.get s.slices k Slice.init).lines (setOf c pa) []
  match l2Way c ls h pcls with
  | none => none
  | some w =>
    let s := match ls.find? fun l => l.way == w with
      | some v => spillLine s k vf v
      | none => s
    let new : L2Line := { way := w, line := pa / 256, bytes := [], dirty := 0, h := h, pcls := pcls, used := s.seq, filling := false }
    let sl := Map.get s.slices k Slice.init
    let sl := { sl with lines := Map.put sl.lines (setOf c pa) (ls.filter (fun l => l.way != w) ++ [new]) }
    some { s with slices := Map.put s.slices k sl }

/-- Whether a slice is in service (R375). -/
def sliceUp (s : State) (k : Nat) : Bool :=
  let u := Map.get s.sliceU k UnitSt.init
  !u.ret && !u.fen

/-- An access of a slice makes its line the most recent: every one, reads found in part and write-backs merged as well (DESIGN
CHOICE, assumption 66). -/
def touchL2 (s : State) (vf pa : Nat) : State :=
  if (l2Find s vf pa).isSome then modL2 s vf pa fun l => { l with used := s.seq } else s

/-- Merges written-back bytes of a 64 B line into the memory side (R124): into its line, allocated where that may be, else
into HBM. A line whose store asked for no L2 allocation takes none here either (DESIGN CHOICE, assumption 78). -/
def l2Merge (s : State) (w : WriteBack) : State :=
  let pa := keyPa w.line
  let s := if (l2Find s w.vf pa).isSome then s
    else
      match (if w.noL2 || !sliceUp s (sliceOf (s.vf w.vf).cfg pa) then none else l2Alloc s w.vf pa w.h w.pcls) with
      | some s => s
      | none => queueHbm (countEvent s 3 (stackOf pa) w.vf w.h 0x0202) (sliceOf (s.vf w.vf).cfg pa) (pa / 256) w.vf w.h true
  let s := touchL2 s w.vf pa
  w.bytes.foldl (fun s p => memPut s w.vf (pa + p.1) p.2) s

/-- Joins a set into the granule of a written address (R120): a line of a mixed page; a fixed page keeps its set. -/
def joinGranule (s : State) (dev pa : Nat) (mixed : Bool) (pageSet set : OSet) : Except Cause State :=
  if dev = 0 && mixed then
    match osJoin s.osets (lineSet s pa pageSet) set with
    | .error e => .error e
    | .ok (u, t) => .ok { s with osets := t, lineS := Map.put s.lineS (pa / 256) u }
  else .ok s

/-- The set a read of an address returns (R120). -/
def granuleSet (s : State) (dev pa : Nat) (mixed : Bool) (pageSet : OSet) : OSet :=
  if dev = 0 && mixed then lineSet s pa pageSet else pageSet

/-- A write on the memory side by an agent that is no core: the copies the L1s of both dies hold stay as R147 has them. -/
def sideWrite (s : State) (vf pa : Nat) (bs : List Byte) : State := memPuts s vf pa bs

end Sys2Proof.Machine
end

