-- ==== Sys2Proof/Machine/Spaces.lean ====
section
/-! DEFINITION. The crew's shared space and the typed spaces: ranges, reads, writes and origin sets (03_registers.md R79,
R80; 04_numbers.md R101; 05_memory.md R111 to R114, R118, R120). -/

namespace Sys2Proof.Machine

/-! ## The shared space -/

/-- The end of the shared space. -/
def winEnd : Nat := 0x200000

/-- Home sheaf, register, lane and byte within the word of a window offset (R79). -/
def winAt (off : Nat) : Nat × Nat × Nat × Nat :=
  let o := off - winBase
  (o / 0x8000, o / 0x80 % 256, o % 0x80 / 4, o % 4)

/-- Checks an access of n bytes to the shared space (R79, R111, R139); `win` where the window may be named. An access that begins below
the scratchpad's end and runs past it is out of range before it is misaligned (DESIGN CHOICE, assumption 76). -/
def checkShared (c : Crew) (scratch off n : Nat) (win : Bool) : Except Cause Unit :=
  if off < winBase then
    if scratch < off + n then .error .scratchRange else if off % n = 0 then .ok () else .error .misaligned
  else if winEnd ≤ off then .error .scratchRange
  else if !win then .error .regwinRange
  else
    let (h, v, _, _) := winAt off
    if c.sheaves.length ≤ h ∨ (c.sheaf h).budget ≤ v ∨ (c.sheaf h).freed then .error .regwinRange
    else if off % n = 0 then .ok () else .error .misaligned

/-- Checks a range of bytes of the shared space (R111, R79): every byte of it must lie in the space. -/
def checkSharedRange (c : Crew) (scratch off n : Nat) : Except Cause Unit :=
  if n = 0 then .ok ()
  else if off < winBase then (if off + n ≤ scratch then .ok () else .error .scratchRange)
  else if winEnd < off + n then .error .scratchRange
  else
    let (h0, _, _, _) := winAt off
    let (h1, _, _, _) := winAt (off + n - 1)
    let hs := (List.range (h1 + 1 - h0)).map (· + h0)
    if hs.all fun h => decide (h < c.sheaves.length) && !(c.sheaf h).freed &&
        (decide (256 ≤ (c.sheaf h).budget) ||
          (decide (winBase + h * 0x8000 + (c.sheaf h).budget * 0x80 ≥ off + n) ||
           decide (off ≥ winBase + (h + 1) * 0x8000)))
    then .ok () else .error .regwinRange

/-- A byte of the shared space. -/
def sharedByte (c : Crew) (off : Nat) : Byte :=
  if off < winBase then Memory.read c.scratch off
  else
    let (h, v, l, b) := winAt off
    BitVec.ofNat 8 (((c.sheaf h).mainAt v l).toNat / 2 ^ (8 * b))

/-- Puts a byte into a word. -/
def putByte (w : Word) (b : Nat) (x : Byte) : Word :=
  word (w.toNat % 2 ^ (8 * b) + x.toNat * 2 ^ (8 * b) + w.toNat / 2 ^ (8 * b + 8) * 2 ^ (8 * b + 8))

/-- Writes a byte of the shared space; through the window, the main register's lane at once (R80). -/
def putShared (c : Crew) (off : Nat) (x : Byte) : Crew :=
  if off < winBase then { c with scratch := Memory.write c.scratch off x }
  else
    let (h, v, l, b) := winAt off
    c.modSheaf h fun z => z.setMain v l (putByte (z.mainAt v l) b x)

/-- The origin set of a byte of the shared space (Table 5.5). -/
def sharedSet (c : Crew) (off : Nat) : OSet :=
  if off < winBase then Map.get c.scratchS (off / 64) 0 else (c.sheaf (winAt off).1).mainSet (winAt off).2.1

/-- Joins a set into the granule of a byte of the shared space (R80, R120). -/
def joinShared (c : Crew) (t : Map OEntry) (off : Nat) (set : OSet) : Except Cause (Crew × Map OEntry) :=
  match osJoin t (sharedSet c off) set with
  | .error e => .error e
  | .ok (u, t) =>
    if off < winBase then .ok ({ c with scratchS := Map.put c.scratchS (off / 64) u }, t)
    else .ok (c.modSheaf (winAt off).1 fun z => { z with mainS := Map.put z.mainS (winAt off).2.1 u }, t)

/-! ## Typed spaces -/

/-- A unit never written (R114). -/
def TUnit.init (phys : Nat) : TUnit := { mem := [], set := 0, phys := phys }

/-- Bytes of a unit: a W slot, an A slot, a C tile. -/
def unitBytes (sp : TSpace) : Nat :=
  match sp with
  | .C => 16384
  | _ => 8192

/-- The units a crew holds of a space. -/
def Crew.units (c : Crew) (sp : TSpace) : Map TUnit :=
  match sp with
  | .W => c.unitsW
  | .A => c.unitsA
  | .C => c.unitsC

/-- Replaces the units of a space. -/
def Crew.setUnits (c : Crew) (sp : TSpace) (m : Map TUnit) : Crew :=
  match sp with
  | .W => { c with unitsW := m }
  | .A => { c with unitsA := m }
  | .C => { c with unitsC := m }

/-- Whether a typed address lies in the crew's allocation (R113, R114, R264). -/
def typedOk (c : Crew) (sp : TSpace) (a n : Nat) : Bool :=
  decide (a + n ≤ (if sp = .W then 2 ^ 21 else 2 ^ 18)) && Map.has (c.units sp) (a / unitBytes sp) &&
    Map.has (c.units sp) ((a + n - 1) / unitBytes sp)

/-- Whether a byte of a unit is reserved (R101). -/
def reservedByte (sp : TSpace) (a : Nat) : Bool :=
  match sp with
  | .W => decide (6912 ≤ a % 8192)
  | .A => decide (1728 ≤ a % 2048)
  | .C => false

/-- A byte of a typed space; a reserved byte reads zero. -/
def typedByte (c : Crew) (sp : TSpace) (a : Nat) : Byte :=
  if reservedByte sp a then 0 else Memory.read (Map.get (c.units sp) (a / unitBytes sp) (TUnit.init 0)).mem (a % unitBytes sp)

/-- The origin set of a typed byte: its unit's. -/
def typedSet (c : Crew) (sp : TSpace) (a : Nat) : OSet := (Map.get (c.units sp) (a / unitBytes sp) (TUnit.init 0)).set

/-- Changes a unit of a crew; a W unit changes in every crew of the cluster that shares its physical slot (R118). -/
def modUnit (s : State) (crew : Nat) (sp : TSpace) (u : Nat) (f : TUnit → TUnit) : State :=
  match Map.find? s.crews crew with
  | none => s
  | some c =>
    match sp with
    | .W =>
      let phys := (Map.get c.unitsW u (TUnit.init 0)).phys
      { s with crews := s.crews.map fun p =>
          if p.2.grid == c.grid && clusterOf p.2.core == clusterOf c.core then
            (p.1, { p.2 with unitsW := p.2.unitsW.map fun q => if q.2.phys == phys then (q.1, f q.2) else q })
          else p }
    | _ => s.modCrew crew fun c => c.setUnits sp (Map.mod (c.units sp) u f)

/-- Writes a typed byte; a reserved byte ignores it. -/
def putTyped (s : State) (crew : Nat) (sp : TSpace) (a : Nat) (x : Byte) : State :=
  if reservedByte sp a then s
  else modUnit s crew sp (a / unitBytes sp) fun u => { u with mem := Memory.write u.mem (a % unitBytes sp) x }

/-- Writes typed bytes. -/
def putTypeds (s : State) (crew : Nat) (sp : TSpace) (a : Nat) (bs : List Byte) : State :=
  match bs with
  | [] => s
  | b :: rest => putTypeds (putTyped s crew sp a b) crew sp (a + 1) rest

/-- Joins a set into the set of a unit (Table 5.5). -/
def joinUnit (s : State) (crew : Nat) (sp : TSpace) (u : Nat) (set : OSet) : Except Cause State :=
  match Map.find? s.crews crew with
  | none => .ok s
  | some c =>
    match osJoin s.osets (Map.get (c.units sp) u (TUnit.init 0)).set set with
    | .error e => .error e
    | .ok (v, t) => .ok (modUnit { s with osets := t } crew sp u fun x => { x with set := v })

/-- The space of Table 5.1 as the typed space it is, if one. -/
def Space.typed : Space → Option TSpace
  | .spW => some .W
  | .spA => some .A
  | .spC => some .C
  | _ => none

/-- A typed space as a space of Table 5.1. -/
def spaceOf : TSpace → Space
  | .W => .spW
  | .A => .spA
  | .C => .spC

end Sys2Proof.Machine
end

