-- ==== Sys2Proof/Machine/Engines.lean ====
section
/-! DEFINITION. Copy descriptors, the bytes engine operations own, and the order of accesses against them
(05_memory.md R115; 06_ordering.md R150 to R153; 11_isa_memory.md R275, R276, R279). -/

namespace Sys2Proof.Machine

/-! ## Copy descriptors (Table 11.4) -/

/-- A copy descriptor as read. -/
structure CDesc where
  ss    : Nat
  ds    : Nat
  sf    : Nat
  n     : Nat
  df    : Nat
  flags : Nat
  place : Nat
  sa    : Nat
  da    : Nat
  e     : List Nat
  ring  : Nat
  s     : List Int
  d     : List Int
  list  : Nat
  resv  : Bool
  deriving DecidableEq, Repr

/-- Reads the 192 bytes of a descriptor. -/
def CDesc.read (b : List Byte) : CDesc :=
  { ss := fieldAt b 0 1, ds := fieldAt b 1 1, sf := fieldAt b 2 1, n := fieldAt b 3 1, df := fieldAt b 4 1,
    flags := fieldAt b 5 1, place := fieldAt b 6 2, sa := fieldAt b 8 8, da := fieldAt b 16 8,
    e := (List.range 7).map fun i => fieldAt b (0x18 + 4 * i) 4, ring := fieldAt b 0x34 1,
    s := (List.range 7).map fun i => sextOf (fieldAt b (0x38 + 8 * i) 8) 64,
    d := (List.range 7).map fun i => sextOf (fieldAt b (0x70 + 8 * i) 8) 64,
    list := fieldAt b 0xA8 4, resv := fieldAt b 0x35 3 == 0 && (b.drop 0xAC).all fun x => x == 0 }

/-- Bytes of an element of a format code (R276). -/
def elemSize (f : Nat) : Nat := if f = 0 ∨ f = 6 ∨ f = 7 then 1 else if f = 1 ∨ f = 3 ∨ f = 4 then 2 else 4

/-- Whether a source format is a float's. -/
def floatCode (f : Nat) : Bool := decide (3 ≤ f ∧ f ≤ 7)

/-- The float format of a code (Table 11.4). -/
def fmtOf (f : Nat) : FFmt := if f = 3 then fmtF16 else if f = 4 then fmtB16 else if f = 6 then fmtE4 else if f = 7 then fmtE5 else fmtF32

/-- The bytes of an element in the destination format (R276). -/
def convElem (sf df : Nat) (bs : List Byte) : List Byte :=
  if df = 0 then bs else bytesOf (elemSize df) (narrow (fmtOf df) .rne (unpack (fmtOf sf) (ofBytes bs))).1

/-- Bytes of an element where it is written. -/
def CDesc.dstSize (d : CDesc) : Nat := if d.df = 0 then elemSize d.sf else elemSize d.df

/-- The indices of some extents in row-major order, the first fastest (R276). -/
def indices : List Nat → List (List Nat)
  | [] => [[]]
  | e :: es => (indices es).flatMap fun hi => (List.range e).map fun i => i :: hi

/-- The offset of an index by some strides, with `j` in place of the second index. -/
def strideOffset (st : List Int) (ix : List Nat) (j : Nat) : Int :=
  (st.zip ((ix.set 1 j).map fun i => (i : Int))).foldl (fun a p => a + p.1 * p.2) 0

/-- Source and destination of an index of a copy of a form: 1 gathers, 2 scatters (R276). -/
def CDesc.addrs (d : CDesc) (form : Nat) (idx : List Nat) (ix : List Nat) : Int × Int :=
  let i1 := (ix[1]?).getD 0
  let t := (idx[i1]?).getD 0
  ((d.sa : Int) + strideOffset d.s ix (if form = 1 then t else i1), (d.da : Int) + strideOffset d.d ix (if form = 2 then t else i1))

/-- Every source and destination of a copy in its order, as 64-bit addresses. -/
def CDesc.pairs (d : CDesc) (form : Nat) (idx : List Nat) : List (Nat × Nat) :=
  (indices d.e).map fun ix => ((dwordI (d.addrs form idx ix).1).toNat, (dwordI (d.addrs form idx ix).2).toNat)

/-- The lowest and highest offset of a side: strides, with the second index's values given. -/
def boxOf (base : Int) (st : List Int) (e : List Nat) (js : List Nat) : Int × Int :=
  let ends (k : Nat) : List Int := if k = 1 then js.map fun j => (st.getD 1 0) * (j : Int)
    else [0, (st.getD k 0) * ((e.getD k 1 : Nat) - 1 : Int)]
  let lo (k : Nat) : Int := (ends k).foldl min ((ends k).headD 0)
  let hi (k : Nat) : Int := (ends k).foldl max ((ends k).headD 0)
  ((List.range 7).foldl (fun a k => a + lo k) base, (List.range 7).foldl (fun a k => a + hi k) base)

/-- The space a code names. -/
def CDesc.dstSpace (d : CDesc) : Space :=
  if d.ds = 1 then .shared else if d.ds = 2 then .spW else if d.ds = 3 then .spA
  else if d.ds = 5 then (if d.ring < 8 then .spW else .spA) else .generic

/-- The space of the source. -/
def CDesc.srcSpace (d : CDesc) : Space := if d.ss = 1 then .shared else if d.ss = 4 then .spC else .generic

/-- The address a reserved ring unit begins at in its space; 0 for another destination. -/
def ringBase (r : Option (Nat × Nat × Nat)) : Nat :=
  match r with
  | some (_, _, unit) => unit * 8192
  | none => 0

/-! ## Quantised rows (R279, R101) -/

/-- The width of a CPYQ. -/
def CDesc.width (d : CDesc) : Nat := d.df - 6

/-- Rows a CPYQ writes: those of every unit it touches. -/
def CDesc.rows (d : CDesc) : Nat :=
  if d.dstSpace = .spW ∨ d.ds = 5 then 64 else ((d.e.getD 1 1) + 15) / 16 * 16

/-- The source addresses of a row. -/
def CDesc.rowSrcs (d : CDesc) (r : Nat) : List Nat :=
  (List.range (d.e.headD 0)).map fun i => (dwordI (d.addrs 3 [] [i, r, 0, 0, 0, 0, 0]).1).toNat

/-- The elements of 32 in their permuted order (R104). -/
def permuted (ptab : Nat → Nat) (xs : List FV) : List FV := (List.range 32).map fun l => (xs[ptab l]?).getD (.fin false 0 0)

/-- The blocks of a row's values: exponent and mantissas. -/
def rowBlocks (fuel w : Nat) (m : RMode) (ptab : Nat → Nat) (xs : List FV) : List (Nat × List Int) :=
  match fuel with
  | 0 => []
  | f + 1 =>
    if xs.isEmpty then []
    else
      let q := quantise w m (permuted ptab (xs.take 32))
      (q.1, q.2.1) :: rowBlocks f w m ptab (xs.drop 32)

/-- The 96 mantissa bytes and 12 exponent bytes of a row. -/
def rowBytes (w : Nat) (bs : List (Nat × List Int)) : List Byte × List Byte :=
  let m := bs.flatMap fun b => (blockBytes w b.1 b.2).take (4 * w)
  let x := bs.map fun b => BitVec.ofNat 8 b.1
  (m ++ List.replicate (96 - m.length) 0, x ++ List.replicate (12 - x.length) 0)

/-- Where row r of a unit's rows lies: its mantissas and its exponents. -/
def rowPlace (sp : Space) (base r : Nat) : Nat × Nat :=
  if sp = .spW then (base + 96 * r, base + 6144 + 12 * r)
  else (base + 2048 * (r / 16) + 96 * (r % 16), base + 2048 * (r / 16) + 1536 + 12 * (r % 16))

/-! ## Ownership (R115, R150) -/

/-- A byte of storage: its kind (0 generic, 1 shared, 2 W, 3 A, 4 C), whose it is, and its address. -/
structure Loc where
  kind  : Nat
  owner : Nat
  addr  : Nat
  deriving DecidableEq, Repr

/-- The byte a crew's shared or typed address names. -/
def crewLoc (s : State) (crew : Nat) (sp : Space) (a : Nat) : Loc :=
  match sp with
  | .generic => { kind := 0, owner := 0, addr := a }
  | .shared => { kind := 1, owner := crew, addr := a }
  | .spA => { kind := 3, owner := crew, addr := a }
  | .spC => { kind := 4, owner := crew, addr := a }
  | .spW =>
    match Map.find? s.crews crew with
    | some c => { kind := 2, owner := clusterOf c.core, addr := 8192 * (Map.get c.unitsW (a / 8192) (TUnit.init 0)).phys + a % 8192 }
    | none => { kind := 2, owner := 0, addr := a }

/-- The bytes of an access. -/
def accLocs (s : State) (crew : Nat) (a : Acc) : List Loc :=
  (List.range a.n).map fun i =>
    if a.space = .generic then { kind := 0, owner := a.dev, addr := a.pa + i } else crewLoc s crew a.space (a.addr + i)

/-- The local place of a generic address of a grid, without side effects. -/
def quietPlace (s : State) (core : Nat) (g : Grid) (va need : Nat) : Except TErr Place :=
  match placeOf s core g va need false with
  | .ok (p, _) => .ok p
  | .error e => .error e

/-- The destinations of a copy's steps, as address and length, one step after another. -/
def CDesc.dsts (d : CDesc) (form : Nat) (idx : List Nat) (base : Nat) : List (List (Nat × Nat)) :=
  if form = 3 then
    (List.range d.rows).map fun r => let p := rowPlace d.dstSpace (d.da + base) r; [(p.1, 96), (p.2, 12)]
  else (d.pairs form idx).map fun p => [(p.2 + base, d.dstSize)]

/-- Whether a byte is of some destinations of a copy. -/
def copyOwns (s : State) (o : Op) (d : CDesc) (ring : Option (Nat × Nat × Nat)) (ds : List (Nat × Nat)) (x : Loc) : Bool :=
  match Map.find? s.crews o.crew, Map.find? s.grids o.grid with
  | some c, some g =>
    let who := match ring with | some (w, _, _) => w | none => o.crew
    ds.any fun q =>
      if d.dstSpace = .generic then
        match quietPlace s c.core g q.1 2 with
        | .ok p => x.kind == 0 && x.owner == p.dev && p.dev == 0 && decide (p.pa ≤ x.addr ∧ x.addr < p.pa + q.2)
        | .error _ => false
      else
        let l := crewLoc s who d.dstSpace q.1
        x.kind == l.kind && x.owner == l.owner && decide (l.addr ≤ x.addr ∧ x.addr < l.addr + q.2)
  | _, _ => false

/-- Whether a copy goes on: it is not suspended, and its crew stands on its core (R150, R334). -/
def Op.copies (s : State) (o : Op) : Bool :=
  o.batch.isNone && match Map.find? s.crews o.crew with | some c => c.st == .resident | none => false

/-- Whether an operation owns a byte: a copy each byte it writes, or, while it is suspended or saved, those it has written
(R115, R150). -/
def Op.owns (s : State) (o : Op) (x : Loc) : Bool :=
  match o.kind with
  | .copy b idx form _ _ progress _ ring =>
    let ds := (CDesc.read b).dsts form idx (ringBase ring)
    copyOwns s o (CDesc.read b) ring (if o.copies s then ds else ds.take progress).flatten x
  | .xzero t => x.kind == 4 && x.owner == o.crew && decide (x.addr / 16384 = t)
  | .xreq t aq _ qs _ _ =>
    (x.kind == 3 && x.owner == o.crew && qs.contains (x.addr / 2048)) ||
    (x.kind == 4 && x.owner == o.crew && decide (x.addr / 16384 = t) && qs.contains ((aq + x.addr % 16384 / 4096) % 128))
  | _ => false

/-- Whether a matrix request owns a byte: those of its A quarter-slot, its B slot and its C tile, each a unit of Table 5.3 (R115). -/
def XReq.owns (r : XReq) (x : Loc) : Bool :=
  (x.kind == 3 && x.owner == r.crew && decide (x.addr / 2048 = r.qa)) ||
  (x.kind == 2 && x.owner == clusterOf r.core && decide (x.addr / 8192 = r.bphys)) ||
  (x.kind == 4 && x.owner == r.crew && decide (x.addr / 16384 = r.tile))

/-- Every matrix request not yet written. -/
def Engine.all (e : Engine) : List XReq := e.table ++ e.running ++ e.chosen ++ e.ended.flatMap fun m => m.map (·.1)

/-! ## What an engine operation waits for (R151, R153, R274, R296) -/

/-- Whether some threads of a crew have a load or atomic issued before a place in the order and not delivered. -/
def threadLoadsDue (s : State) (crew seq : Nat) (ps : List (Nat × Nat)) : Bool :=
  s.ops.any fun p => p.2.crew == crew && decide (p.2.seq < seq) && (p.2.lanes.any fun q => ps.contains q) &&
    match p.2.kind with
    | .load _ | .loadK _ _ | .atom .. | .barpa _ => true
    | _ => false

/-- Whether some of an operation's accesses are still to pass the order gate of a replay (R414). -/
def gated (s : State) (grid : Nat) (as : List Acc) : Bool :=
  match Map.find? s.grids grid with
  | some g => (s.vf g.vf).replay.mode == 2 && as.any fun a => a.who.isSome && !a.done
  | none => false

/-- Whether a recorded access has been sent to its slice already. -/
def sentTo (s : State) (why : ReqFor) : Bool :=
  s.slices.any fun p => (p.2.held.any fun r => r.why == why) || p.2.entries.any fun r => r.why == why

/-- Whether all that an operation still has to do is to pass the order gate, and its accesses have been sent there. -/
def atGate (s : State) (grid : Nat) (why : Nat → ReqFor) (as : List Acc) : Bool :=
  gated s grid as && (as.zip (List.range as.length)).all fun p => p.1.who.isNone || p.1.done || sentTo s (why p.2)

/-- Whether an operation is of a core's crew, or of one that has gone. -/
def Op.onCore (s : State) (o : Op) (core : Nat) : Bool :=
  match Map.find? s.crews o.crew with
  | some c => c.core == core
  | none => true

/-- Whether an operation is a read-modify-write. -/
def Op.isRmw (o : Op) : Bool :=
  match o.kind with
  | .red _ _ | .atom .. => true
  | _ => false

/-- The stores and read-modify-writes of a core by their places in its store order: the home sheaves of each, and whether the order
gate of a replay holds it. -/
def storeOrder (s : State) (core : Nat) : Map (List (Nat × Nat) × Bool) :=
  (s.ops.filter fun p => p.2.isRmw && p.2.onCore s core).foldl
    (fun m p => Map.put m p.2.seq (p.2.homes.map fun h => (p.2.crew, h), atGate s p.2.grid (fun i => .opAcc p.1 i) p.2.accs))
    ((s.core core).storeQ.foldl
      (fun m e => Map.put m e.seq (e.homes.map fun h => (e.crew, h), atGate s e.grid (fun i => .storeAcc e.seq i) e.accs)) [])

/-- The home sheaves that what the order gate holds keeps back, from the oldest of some stores and read-modify-writes on: its own, and
those of what comes after it in one of them. -/
def keptBack (behind : List (Nat × Nat)) (m : Map (List (Nat × Nat) × Bool)) : List (Nat × Nat) :=
  match m with
  | [] => behind
  | q :: rest => keptBack (if q.2.2 || q.2.1.any fun h => behind.contains h then behind ++ q.2.1 else behind) rest

/-- Whether a store or read-modify-write of a core comes, in one of its home sheaves, after one that the order gate of a replay holds:
each sheaf's writes keep their order (R136, R414). -/
def behindGate (s : State) (core seq crew : Nat) (homes : List Nat) : Bool :=
  let b := keptBack [] ((storeOrder s core).filter fun q => decide (q.1 < seq))
  homes.any fun h => b.contains (crew, h)

/-- Whether a store, reduction or atomic of a core before a place in its store order is still to be performed. What the order
gate of a replay holds, and what comes after it in its sheaves, gives way to other sheaves: its place in the order is seen by nobody
before it is performed (R136, R414; DEDUCED, assumption 33). -/
def coreStoresDue (s : State) (core seq crew : Nat) (homes : List Nat) : Bool :=
  let past (n c grid : Nat) (hs : List Nat) (as : List Acc) : Bool :=
    (gated s grid as || behindGate s core n c hs) && !(c == crew && hs.any fun h => homes.contains h)
  ((s.core core).storeQ.any fun e => decide (e.seq < seq) && !past e.seq e.crew e.grid e.homes e.accs) ||
  s.ops.any fun p => decide (p.2.seq < seq) &&
    (match Map.find? s.crews p.2.crew with | some c => c.core == core | none => false) &&
    (match p.2.kind with
      | .red _ _ | .atom .. | .barpa _ => true
      | _ => false) && !past p.2.seq p.2.crew p.2.grid p.2.homes p.2.accs

/-- Whether an engine operation's reads may begin: the loads of its threads and the stores of its core before it are performed
(R151). -/
def engineReady (s : State) (o : Op) : Bool :=
  match Map.find? s.crews o.crew with
  | some c => !threadLoadsDue s o.crew o.seq o.lanes && !coreStoresDue s c.core o.seq o.crew (List.range c.sheaves.length)
  | none => true

/-- Whether what a matrix request's pass reads is in place: the loads of its threads and the stores of its core before its XMMA
are performed (R151, R153). -/
def reqReady (s : State) (r : XReq) : Bool :=
  !(s.ops.any fun p => p.2.crew == r.crew && decide (p.2.seq < r.seq) && (p.2.homes.any fun h => r.homes.contains h) &&
      match p.2.kind with
      | .load _ | .loadK _ _ | .atom .. | .barpa _ => true
      | _ => false) &&
    !coreStoresDue s r.core r.seq r.crew r.homes

/-- Whether an operation is of class H. -/
def opIsH (s : State) (o : Op) : Bool :=
  match Map.find? s.grids o.grid with
  | some g => bitOf g.desc.flags 0
  | none => false

/-- Whether a copy of a core is to be served before another of that core (R274): an earlier one of its class, or one of class G
that may begin before one of class H. A copy that is suspended or has made its writes stands aside. -/
def copyBefore (s : State) (core : Nat) (o p : Op) : Bool :=
  (match p.kind with | .copy _ _ _ _ _ _ sent _ => !sent | _ => false) && p.copies s &&
    (match Map.find? s.crews p.crew with | some c => c.core == core | none => false) &&
    (if opIsH s o && !opIsH s p then engineReady s p else opIsH s o == opIsH s p && decide (p.seq < o.seq))

/-- Whether a copy's turn in its core's engine has come. -/
def copyTurn (s : State) (o : Op) : Bool :=
  match Map.find? s.crews o.crew with
  | some c => !s.ops.any fun p => copyBefore s c.core o p.2
  | none => true

/-- Whether an XZERO or XREQ of a crew touches a tile's rows. -/
def Op.touchesRows (o : Op) (crew tile rows : Nat) : Bool :=
  o.crew == crew &&
    match o.kind with
    | .xzero t => t == tile
    | .xreq t aq _ qs _ _ => t == tile && qs.contains ((aq + rows / 16) % 128)
    | _ => false

/-- Whether two requests are on the same rows. -/
def sameRows (a b : XReq) : Bool := a.crew == b.crew && a.tile == b.tile && a.rows == b.rows

/-- Whether a request of the table may start (R153, R296): its sources are in place, and no older tile operation on its rows
waits. -/
def eligible (s : State) (e : Engine) (r : XReq) : Bool :=
  reqReady s r && !(e.table.any fun q => decide (q.seq < r.seq) && sameRows q r) &&
    !s.ops.any fun p => decide (p.2.seq < r.seq) && p.2.touchesRows r.crew r.tile r.rows

/-- Whether the tile operations before one on its rows have written (R296). -/
def tileReady (s : State) (o : Op) : Bool :=
  !(s.engines.any fun p => p.2.all.any fun r => decide (r.seq < o.seq) && o.touchesRows r.crew r.tile r.rows) &&
    !s.ops.any fun p => decide (p.2.seq < o.seq) && p.2.crew == o.crew &&
      match p.2.kind with
      | .xzero t => (List.range 4).any fun q => t == opTile o.kind && o.touchesRows o.crew t (16 * q)
      | .xreq t .. => (List.range 4).any fun q => t == opTile o.kind && o.touchesRows o.crew t (16 * q) &&
          p.2.touchesRows o.crew t (16 * q)
      | _ => false
where
  /-- The tile of a tile operation. -/
  opTile : OpKind → Nat
    | .xzero t => t
    | .xreq t .. => t
    | _ => 16

/-- Whether nothing stands before an engine operation any more. -/
def opBegun (s : State) (o : Op) : Bool :=
  engineReady s o &&
    match o.kind with
    | .copy .. => copyTurn s o
    | _ => tileReady s o

/-- The accesses and engine operations of a place in the order and after: what an operation may wait for and an access of that place
comes before. -/
def State.since (s : State) (seq : Nat) : State :=
  { s with
    ops := s.ops.filter fun p => decide (seq ≤ p.2.seq)
    cores := s.cores.map fun p => (p.1, { p.2 with storeQ := p.2.storeQ.filter fun e => decide (seq ≤ e.seq) })
    engines := s.engines.map fun p =>
      (p.1, { p.2 with table := p.2.table.filter fun r => decide (seq ≤ r.seq), running := [], chosen := [], ended := [] }) }

/-- Whether an access of a place in the order must wait for an engine operation. Every access of a thread of the issuing die to owned
bytes does from the operation's issue on, be it issued before or after; but one issued before something that the operation still
waits for goes first, or each could wait for the other (R115, R150; DEDUCED, assumption 40). A write of an A or W unit does not wait
for a request in the reservation table (R115). -/
def owned (s : State) (die : Nat) (seq : Nat) (write : Bool) (ls : List Loc) : Bool :=
  (s.ops.any fun p =>
    (ls.any fun x =>
      (x.kind != 0 || match Map.find? s.crews p.2.crew with | some c => dieOf c.core == die | none => false) && p.2.owns s x) &&
      (decide (p.2.seq < seq) || opBegun (s.since seq) p.2)) ||
  s.engines.any fun p =>
    (p.2.table.any fun r => (ls.any fun x => r.owns x && !(write && (x.kind == 2 || x.kind == 3))) &&
      (decide (r.seq < seq) || eligible (s.since seq) (Map.get (s.since seq).engines p.1 Engine.init) r)) ||
    p.2.all.any fun r => !p.2.table.contains r && ls.any fun x => r.owns x

end Sys2Proof.Machine
end

