-- ==== Sys2Proof/Machine/Access.lean ====
section
/-! DEFINITION. The accesses of memory instructions: addresses, checks before any lane acts, recorded ranges, and the
requests that a miss in the L1 sends (05_memory.md R110 to R114, R121, R122, R128; 11_isa_memory.md R260, R269;
18_observation.md R412). -/

namespace Sys2Proof.Machine

/-! ## Addresses and checks -/

/-- A lane's address: the base pair plus the sign-extended offset (R110, R260). -/
def addrAt (x : Iss) (a b : Operand) (p : Nat × Nat) : Nat := (val64 x a p + sx (val32 x b p)).toNat

/-- What a thread asks of memory: its address and the bytes it would store. -/
structure Want where
  who  : Nat × Nat
  addr : Nat
  data : List Byte
  deriving DecidableEq, Repr

/-- A failed check: lane position, address, and the cause. -/
abbrev Bad := Nat × Nat × (Cause ⊕ TErr)

/-- A recorded range of a VF that holds an address (R412). -/
def inRecorded (v : Vf) (va : Nat) : Bool :=
  (v.replay.mode == 1 || v.replay.mode == 2) && (List.range 8).any fun i =>
    let b := (Map.get v.replay.rbase i 0).toNat / 65536 * 65536
    b != 0 && decide (b ≤ va ∧ va < b + 65536 * (Map.get v.replay.rlen i 0).toNat)

/-- The logical requester of a crew's sheaf (R413). -/
def requester (g : Grid) (crewIx sheaf : Nat) : Nat := g.queue * 2 ^ 34 + g.seq % 4 * 2 ^ 32 + crewIx * 32 + sheaf

/-- Whether an access of a grid's crew inside a recorded range is recorded. -/
def recordable (g : Grid) (crewIx : Nat) : Bool := g.depth == 0 && decide (crewIx < 2 ^ 27)

/-- The requester an access is recorded for, if it is. -/
def recordedBy (v : Vf) (g : Grid) (crewIx sheaf va : Nat) : Option Nat :=
  if inRecorded v va && recordable g crewIx then some (requester g crewIx sheaf) else none

/-- Notes an unrecorded access to a recorded range (RRSTAT [0]). -/
def noteUnrecorded (s : State) (vf : Nat) (g : Grid) (crewIx va : Nat) : State :=
  if inRecorded (s.vf vf) va && !recordable g crewIx then
    s.modVf vf fun v => { v with replay := { v.replay with stat := v.replay.stat ||| 1 } }
  else s

/-- Whether a page keeps its set fixed (R120, R128). -/
def Place.fixed (p : Place) : Bool := !p.mixed || p.dev != 0

/-- The access a thread makes at a place. -/
def accOf (s : State) (x : Iss) (w : Want) (n pcls : Nat) (p : Place) : Acc :=
  { lane := w.who.1, sheaf := w.who.2, space := .generic, addr := w.addr, dev := p.dev, pa := p.pa, mixed := p.mixed,
    oset := p.oset, pcls := if pcls = 0 then p.pcls else pcls, n := n, data := w.data,
    who := recordedBy (s.vf x.grid.vf) x.grid x.crew.index w.who.2 w.addr, done := false }

/-- The check of one lane's generic access (R110, R120, R128): translation, then alignment, reach and escalation. -/
def genericOne (s : State) (x : Iss) (n need pcls : Nat) (set : Option OSet) (w : Want) :
    Except (Cause ⊕ TErr) (Acc × State) :=
  match placeOf s x.crew.core x.grid w.addr need true with
  | .error e => .error (.inr e)
  | .ok (p, s) =>
    if w.addr % n != 0 then .error (.inl .misaligned)
    else if p.dev != 0 && (portFor s p.dev).isNone then .error (.inl .remoteUnreachable)
    else
      match set with
      | some u => if p.fixed && !osSubset s.osets u p.oset then .error (.inl .osetEscalation) else .ok (accOf s x w n pcls p, s)
      | none => .ok (accOf s x w n pcls p, s)

/-- The checks of every lane of a generic access, all before any lane acts (R9, R110). -/
def genericAll (s : State) (x : Iss) (n need pcls : Nat) (set : Option OSet) (ws : List Want) :
    Except Stop (List Acc × State) :=
  let r := ws.foldl (fun (a : List Acc × List Bad × State) w =>
    match genericOne a.2.2 x n need pcls set w with
    | .ok (c, s) => (a.1 ++ [c], a.2.1, noteUnrecorded s x.grid.vf x.grid x.crew.index w.addr)
    | .error e => (a.1, a.2.1 ++ [(w.who.1, w.addr, e)], a.2.2)) ([], [], s)
  if r.2.1.isEmpty then .ok (r.1, r.2.2) else .error (raiseAccess r.2.1 (bitOf need 1) false)

/-- The check of one lane's access to the shared or a typed space (R79, R111, R113, R114, R264). -/
def crewOne (x : Iss) (sp : Space) (win : Bool) (n addr : Nat) : Except Cause Unit :=
  match sp.typed with
  | some t => if !typedOk x.crew t addr n then .error .typedRange else if addr % n = 0 then .ok () else .error .misaligned
  | none => checkShared x.crew x.grid.desc.scratch addr n win

/-- An access to the shared or a typed space. -/
def crewAcc (sp : Space) (n : Nat) (w : Want) : Acc :=
  { lane := w.who.1, sheaf := w.who.2, space := sp, addr := w.addr, dev := 0, pa := 0, mixed := false, oset := 0, pcls := 0,
    n := n, data := w.data, who := none, done := false }

/-- The checks of every lane of an access to the shared or a typed space. -/
def crewAll (x : Iss) (sp : Space) (win : Bool) (n : Nat) (ws : List Want) : Except Stop (List Acc) :=
  let bad : List Bad := ws.filterMap fun w =>
    match crewOne x sp win n w.addr with
    | .ok () => none
    | .error c => some (w.who.1, w.addr, .inl c)
  if bad.isEmpty then .ok (ws.map (crewAcc sp n)) else .error (raiseAccess bad false false)

/-- The checks of every lane of an access. -/
def checkAll (s : State) (x : Iss) (sp : Space) (win : Bool) (n need pcls : Nat) (set : Option OSet) (ws : List Want) :
    Except Stop (List Acc × State) :=
  if sp = .generic then genericAll s x n need pcls set ws
  else
    match crewAll x sp win n ws with
    | .error e => .error e
    | .ok as => .ok (as, s)

/-! ## Misses (R121, R122, R128, R311) -/

/-- The lines an access touches: an aligned access of at most 16 bytes lies in one. -/
def Acc.key (a : Acc) : Nat := lineKey a.dev a.pa

/-- Whether the issuing core's own L1 holds every byte of an access. -/
def l1Hit (s : State) (core : Nat) (a : Acc) : Bool :=
  (List.range a.n).all fun i => ((l1Line s core a.key).bind fun l => Map.find? l.bytes ((a.pa + i) % 64)).isSome

/-- Whether the issuing die's L1s hold every byte of an access. -/
def held (s : State) (core : Nat) (a : Acc) : Bool :=
  (List.range a.n).all fun i =>
    let off := (a.pa + i) % 64
    ((l1Line s core a.key).bind fun l => Map.find? l.bytes off).isSome || (dieDirty s (dieOf core) a.key off).isSome ||
      (wbByte s (dieOf core) a.key off).isSome

/-- A request for a line to its slice, as it stands in the mesh. -/
def l2Request (core vf key : Nat) (h : Bool) (pcls : Nat) (noL2 : Bool) (seq : Nat) (why : ReqFor) : L2Req :=
  { core := core, line := key, vf := vf, h := h, pcls := pcls, noL2 := noL2, seq := seq, miss := false, back := false,
    served := false, why := why }

/-- Sends a request to the slice of a line (R125, R126). -/
def sendL2 (s : State) (r : L2Req) : State :=
  let k := sliceOf (s.vf r.vf).cfg (keyPa r.line)
  { s with slices := Map.upd s.slices k Slice.init fun z => { z with held := z.held ++ [r] } }

/-- Asks a peer for a line of its memory (R128). -/
def askPeer (s : State) (core vf : Nat) (h : Bool) (op : Option Nat) (key : Nat) : Except NoSend State :=
  request s (keyDev key) vf h { device := keyDev key, port := 0, op := op, line := some (core, key), acc := none } none fun i =>
    .readReq (keyPa key) 64 i

/-- An L1 miss of a line (R121, R311): it merges onto a fill in flight, or takes one of 1024 miss entries and sends one
request; the fill takes the placement policy of this access (Table 5.6). -/
def missLine (s : State) (core vf : Nat) (h : Bool) (pcls : Nat) (c : CacheP) (key : Nat) : Except Stop State :=
  if (s.core core).fills.contains key then .ok s
  else if 1024 ≤ (s.core core).fills.length then .error (.block .table)
  else
    let s := countEvent (s.modCore core fun k =>
      { k with fills := k.fills ++ [key], fillP := Map.put k.fillP key (c.l1.val % 4) }) 1 core vf h 0x0005
    if keyDev key = 0 then .ok (sendL2 s (l2Request core vf key h pcls c.noL2 s.seq .l1))
    else
      match askPeer s core vf h none key with
      | .ok s => .ok s
      | .error e => .error e.stop

/-- The accesses that go through the L1. -/
def cached (as : List Acc) : List Acc := as.filter fun a => a.space = .generic && a.who.isNone

/-- The lines that some accesses miss in the L1, each once. -/
def missKeys (s : State) (core : Nat) (as : List Acc) : List Nat :=
  dedup (((cached as).filter fun a => !l1Hit s core a).map Acc.key)

/-- The page class of the first access to a line. -/
def lineClass (as : List Acc) (key : Nat) : Nat := ((as.find? fun a => a.key == key).map (·.pcls)).getD 0

/-- Starts the fills of the lines that accesses miss. -/
def startMisses (s : State) (core vf : Nat) (h : Bool) (c : CacheP) (as : List Acc) : Except Stop State :=
  foldE (fun s k =>
    missLine s core vf h (lineClass as k) c k) s (missKeys s core as)

/-- Whether a fill of a core's L1 in flight has been reported as an L2 miss: of a peer's line, or of one its slice did not
hold (R52). -/
def fillMissed (s : State) (core key : Nat) : Bool :=
  keyDev key != 0 || s.slices.any fun p => p.2.entries.any fun r => r.core == core && r.line == key && r.why == .l1 && r.miss

/-- Touches the lines that accesses hit: recency and marks (Table 5.6). -/
def touchHits (s : State) (core : Nat) (c : CacheP) (as : List Acc) : State :=
  (dedup ((cached as).map Acc.key)).foldl (fun s k =>
    match l1Line s core k with
    | some l => s.modCore core fun z => keepCap { z with l1 := Map.put z.l1 k (touchLine false (c.l1.val % 4) s.seq l) } k
    | none => s) s

/-- Sends the recorded accesses that are neither performed nor on their way, in ascending lane position (R412). -/
def sendDue (s : State) (core vf : Nat) (h : Bool) (c : CacheP) (why : Nat → ReqFor) (as : List Acc) : State :=
  (as.zip (List.range as.length)).foldl (fun s p =>
    if p.1.who.isSome && !p.1.done && !sentTo s (why p.2) then
      sendL2 s (l2Request core vf p.1.key h p.1.pcls c.noL2 s.seq (why p.2))
    else s) s

/-- Adds an operation in flight under the next number. -/
def addOp (s : State) (o : Op) : State := { s with ops := Map.put s.ops s.nextOp o, nextOp := s.nextOp + 1 }

/-! ## The flags of a clause header (R160) -/

/-- The flag A a header names. -/
def flagA (hdr : Word) : Option Nat := flagOf (fieldOf hdr 22 19)

/-- The flag B a header names. -/
def flagB (hdr : Word) : Option Nat := flagOf (fieldOf hdr 26 23)

/-- An operation with nothing in it, issued by the present instruction. -/
def opBase (x : Iss) (k : OpKind) (ps : List (Nat × Nat)) (flag : Option Nat) (seq : Nat) : Op :=
  { kind := k, crew := x.cur.crew, grid := x.crew.grid, group := x.cur.group, lanes := ps, homes := homesOf ps, flag := flag,
    accs := [], set := 0, sem := .rlx, scope := .crew, cache := CacheP.none, clause := x.cur.addr, index := x.cur.index,
    need := [], missed := false, got := [], seq := seq, batch := none, flush := none, named := flag }

/-- The maps of the regions open for an instruction's lanes. -/
def destMaps (x : Iss) : List (RegionMap × List Nat) := x.grp.regions.map fun r => (r.map, r.lanes)

end Sys2Proof.Machine
end

