-- ==== Sys2Proof/Machine/MemOps.lean ====
section
/-! DEFINITION. Loads, stores and prefetches (11_isa_memory.md R257 to R264, R269, R289): their checks and what they put
in flight. -/

namespace Sys2Proof.Machine

open Host (Outcome)

/-! ## Faults of loads and stores (R57) -/

/-- Whether a region open for an issuing lane was opened with `.NRA`. -/
def noRunahead (x : Iss) : Bool := (lanesIn x.present).any fun l => ((regionOf x.grp l).map fun r => r.map.nra).getD false

/-- Where a `Stop` of a load or store leaves the machine: an absent page starts a fault runahead where a shadow is free
(R57), else it is reported as of any instruction. -/
def settleLoadStore (s : State) (x : Iss) (sets : List OSet) (e : Stop) : Outcome State Fault Refusal :=
  match e with
  | .serve c pages flags gpa fa =>
    if x.grp.episode.isNone && (c == .pageAbsent || c == .stage2Absent) && shadowFree s x && !noRunahead x then
      .next { startEpisode s x x.grp.active
                (some { cause := c, flags := flags, gpa := gpa, fa := fa, index := x.cur.index }) (distinctPages pages) with cur := none }
    else settle s x x.active x.cur.index sets e
  | _ => settle s x x.active x.cur.index sets e

/-- Runs a load or a store in its issuing context. -/
def issueMem (s : State) (g : Guard) (sets : Iss → List OSet) (body : Iss → Except Stop State) : Outcome State Fault Refusal :=
  match issuer s g with
  | none => .refused .noIssuer
  | some x =>
    match body x with
    | .ok s' => .next (advance s' x.cur)
    | .error e => settleLoadStore s x (sets x) e

/-! ## Reading bytes -/

/-- A byte that an earlier store of a thread, still held or queued, has written to a place (R48, R136). -/
def storeByte (s : State) (crew : Nat) (e : StoreEntry) (p : Nat × Nat) (x : Loc) : Option Byte :=
  if e.crew != crew then none
  else
    (e.accs.filter fun a => a.lane == p.1 && a.sheaf == p.2).foldl (fun b a =>
      match (accLocs s crew a).findIdx? fun y => y == x with
      | some i => a.data[i]?
      | none => b) none

/-- The stores of a crew's core and of its regions' holds, oldest first. -/
def pendingStores (s : State) (crew : Nat) : List StoreEntry :=
  match Map.find? s.crews crew with
  | none => []
  | some c =>
    (s.core c.core).storeQ ++ c.groups.flatMap fun g =>
      let rs := match g.2.episode with
        | some e => if e.inUse then e.regions else g.2.regions
        | none => g.2.regions
      rs.flatMap fun r => r.held

/-- The byte a thread's own earlier stores forward, the latest in program order. -/
def forwarded (s : State) (crew seq : Nat) (p : Nat × Nat) (x : Loc) : Option Byte :=
  ((pendingStores s crew).foldl (fun (b : Option (Nat × Byte)) e =>
    if e.born < seq then
      match storeByte s crew e p x with
      | some y =>
        match b with
        | some (n, z) => if n ≤ e.born then some (e.born, y) else some (n, z)
        | none => some (e.born, y)
      | none => b
    else b) none).map (·.2)

/-- The sets of a thread's own earlier stores that an access reads from (R156): with a fixed set they are within the page's. -/
def forwardedSets (s : State) (crew seq : Nat) (a : Acc) : List OSet :=
  if a.space == .generic && (!a.mixed || a.dev != 0) then []
  else
    dedup (((pendingStores s crew).filter fun e =>
      decide (e.born < seq) && (accLocs s crew a).any fun x => (storeByte s crew e (a.lane, a.sheaf) x).isSome).map fun e => e.set)

/-- The bytes an access reads now, its thread's own stores forwarded. -/
def readAcc (s : State) (crew core vf seq : Nat) (a : Acc) : List Byte :=
  match Map.find? s.crews crew with
  | none => []
  | some c =>
    ((accLocs s crew a).zip (List.range a.n)).map fun p =>
      match forwarded s crew seq (a.lane, a.sheaf) p.1 with
      | some b => b
      | none =>
        match a.space with
        | .generic => dieRead s core vf a.dev (a.pa + p.2)
        | .shared => sharedByte c (a.addr + p.2)
        | .spW => typedByte c .W (a.addr + p.2)
        | .spA => typedByte c .A (a.addr + p.2)
        | .spC => typedByte c .C (a.addr + p.2)

/-- The origin set of the granule an access touches (Table 5.5). -/
def accSet (s : State) (crew : Nat) (a : Acc) : OSet :=
  match a.space with
  | .generic => granuleSet s a.dev a.pa a.mixed a.oset
  | sp =>
    match Map.find? s.crews crew with
    | none => 0
    | some c =>
      match sp.typed with
      | some t => typedSet c t a.addr
      | none => sharedSet c a.addr

/-- The words a load delivers for the bytes read (R261): extended to a word, or split into words. -/
def loadWords (signed : Bool) (bs : List Byte) : List Word :=
  let n := ofBytes bs
  if bs.length < 4 then [if signed then wordI (sextOf n (8 * bs.length)) else word n]
  else (List.range (bs.length / 4)).map fun i => word (n / 2 ^ (32 * i))

/-! ## The register window (R79, R80, R137) -/

/-- Whether earlier accesses must be performed before the window is read: the thread's loads, and the core's stores, since a direct
write of a main register follows those before it (R137). -/
def windowBusy (s : State) (x : Iss) : Bool :=
  coreStoresDue s x.crew.core s.seq x.cur.crew (homesOf x.active) ||
  s.ops.any fun p => p.2.crew == x.cur.crew && (p.2.lanes.any fun q => x.active.contains q) &&
    match p.2.kind with
    | .load _ | .loadK _ _ | .atom .. | .barpa _ => true
    | _ => false

/-- Reads the window parts of an access at once. -/
def captureWindow (s : State) (x : Iss) (as : List Acc) : List Acc :=
  as.map fun a => if a.window then { a with data := readAcc s x.cur.crew x.crew.core x.grid.vf s.seq a, done := true } else a

/-! ## Loads -/

/-- The lowest active thread of each home sheaf. -/
def homeReps (x : Iss) : List (Nat × Nat) := (homesOf x.active).filterMap fun h => x.active.find? fun p => p.2 == h

/-- Puts a load in flight: its flag counts up, its misses start, its operation stands in the state. Its recorded accesses go to their
slices when their turn comes (R136, R412). -/
def putLoad (s : State) (x : Iss) (k : OpKind) (c : CacheP) (o : Option Ord) (set : OSet) (as : List Acc) :
    Except Stop State :=
  match incFlag x.crew (homesOf x.active) (flagA x.cur.hdr) with
  | .error e => .error e
  | .ok w =>
    let need := missKeys s x.crew.core as
    match startMisses (touchHits s x.crew.core c as) x.crew.core x.grid.vf x.isH c as with
    | .error e => .error e
    | .ok s =>
      let op := { opBase x k x.active (flagA x.cur.hdr) s.seq with
        accs := as, set := set, sem := (o.map (·.sem)).getD .rlx, scope := (o.map (·.scope)).getD .dev, cache := c,
        need := need, missed := need.any (fillMissed s x.crew.core) }
      .ok ({ x with crew := w }.put (addOp s op).tickSeq)

/-- Issues a load's accesses. -/
def issueLoad (s : State) (x : Iss) (k : OpKind) (sp : Space) (n : Nat) (c : CacheP) (o : Option Ord) (set : OSet)
    (ws : List Want) : Except Stop State :=
  match checkAll s x sp true n 1 c.pcls.val none ws with
  | .error e => .error e
  | .ok (as, s) =>
    if as.any Acc.window then
      if windowBusy s x then .error (.block .regwin)
      else
        match osJoinAll s.osets set ((as.filter Acc.window).map fun a => accSet s x.cur.crew a) with
        | .error e => .error (.raise e [])
        | .ok (u, t) => putLoad { s with osets := t } x k c o u (captureWindow s x as)
    else putLoad s x k c o set as

/-! ## Loads in a runahead episode (Tables 2.3, 11.5, R57) -/

/-- Adds the absent page a lane meets to a fault runahead's batch, of at most 65 pages; what marks a
malformed or not-owned entry marks the batch (R343). -/
def collectPage (g : Group) (e : TErr) (addr : Nat) : Group :=
  match g.episode with
  | none => g
  | some ep =>
    let p := e.page addr false false
    let absent := match e with
      | .absent | .absent2 _ _ => true
      | _ => false
    if ep.fault.isSome && absent && decide (ep.pages.length < 65) && !(ep.pages.any fun q => q.1 == p.1 && q.2.1 == p.2.1) then
      { g with episode := some { ep with
          pages := ep.pages ++ [p], fault := ep.fault.map fun f => { f with flags := f.flags ||| e.flags } } }
    else g

/-- Prefetches a line into the L1, or into the L2 alone when `l2` says so (R54, R269). -/
def prefetchLine (s : State) (core vf : Nat) (h : Bool) (c : CacheP) (pcls : Nat) (l2 : Bool) (key : Nat) : State :=
  if l2 then
    if c.noL2 || keyDev key != 0 then s else sendL2 s (l2Request core vf key h pcls false s.seq .l2)
  else
    match missLine s core vf h pcls c key with
    | .ok s => s
    | .error _ => s

/-- The bytes an access of an episode reads, with the sets of the memory they come from (R82). -/
def aheadRead (s : State) (x : Iss) (a : Acc) : List Byte × List OSet :=
  (readAcc s x.cur.crew x.crew.core x.grid.vf (s.seq + 1) a, accSet s x.cur.crew a :: forwardedSets s x.cur.crew (s.seq + 1) a)

/-- What a lane's load yields in an episode: its bytes and their sets where they are at hand, none where the destination is invalid; with
the state after its prefetch, and the group with a page collected. -/
def aheadLane (s : State) (x : Iss) (g : Group) (sp : Space) (n : Nat) (c : CacheP) (w : Want) :
    Option (List Byte × List OSet) × State × Group :=
  let core := x.crew.core
  if sp = .generic then
    match placeOf s core x.grid w.addr 1 false with
    | .error e => (none, s, collectPage g e w.addr)
    | .ok (p, s) =>
      let a := accOf s x w n c.pcls.val p
      if w.addr % n != 0 then (none, s, g)
      else if l1Hit s core a && a.who.isNone then (some (aheadRead s x a), s, g)
      else (none, prefetchLine s core x.grid.vf x.isH c a.pcls (decide (512 < (s.core core).fills.length)) a.key, g)
  else
    match crewOne x sp true n w.addr with
    | .error _ => (none, s, g)
    | .ok () =>
      let a := crewAcc sp n w
      if owned s (dieOf core) (s.seq + 1) false (accLocs s x.cur.crew a) then (none, s, g)
      else (some (aheadRead s x a), s, g)

/-- The lanes of a load in an episode, in order: values by thread. -/
def aheadLanes (s : State) (x : Iss) (sp : Space) (n : Nat) (c : CacheP) (bad : Nat × Nat → Bool) (ws : List Want) :
    List ((Nat × Nat) × Option (List Byte × List OSet)) × State × Group :=
  ws.foldl (fun acc w =>
    if bad w.who then (acc.1 ++ [(w.who, none)], acc.2)
    else
      let r := aheadLane acc.2.1 x acc.2.2 sp n c w
      (acc.1 ++ [(w.who, r.1)], r.2)) ([], s, x.grp)

/-- Writes the destinations of a load in an episode, invalid where no value is at hand, with the sets of the memory it reads (R82). -/
def aheadWrite (s : State) (x : Iss) (d : Operand) (dn : Nat) (signed : Bool) (g : Guard)
    (vs : List ((Nat × Nat) × Option (List Byte × List OSet))) (set : OSet) : Except Stop State :=
  match osJoinAll s.osets set (vs.flatMap fun v => (v.2.map (·.2)).getD []) with
  | .error e => .error (.raise e [])
  | .ok (set, t) =>
  match writeRegs x d 0 dn (vs.map fun v => (v.1, (v.2.map fun r => loadWords signed r.1).getD [])) set t with
  | .error e => .error e
  | .ok (y, t) => .ok ((markDoubted (markRegs y d dn (vs.map fun v => (v.1, v.2.isNone))) d dn g).put { s with osets := t })

/-- The body of a load: checks, then the episode's rule or the operation in flight. -/
def loadBody (s : State) (sp : Space) (n : Nat) (signed : Bool) (c : CacheP) (o : Option Ord) (d : Operand) (dn : Nat)
    (a b : Operand) (g : Guard) (x : Iss) : Except Stop State :=
  if x.active.isEmpty then noLanes (idle s x d dn g) x (flagA x.cur.hdr)
  else
    match checkOperands x x.active [(a, 2), (b, 1), (d, dn)] with
    | .error e => .error e
    | .ok () =>
      if xregForbidden x d x.active then .error (.raise .illXregWrite [])
      else
        match osJoinAll s.osets 0 (resultSets x x.active [(a, 2), (b, 1)] [] false g) with
        | .error e => .error (.raise e [])
        | .ok (set, t) =>
          let ws := x.active.map fun p => { who := p, addr := addrAt x a b p, data := [] }
          if x.grp.episode.isSome then
            let r := aheadLanes { s with osets := t } x sp n c (laneInv [(a, 2), (b, 1)] [] g x) ws
            aheadWrite r.2.1 { x with grp := r.2.2 } d dn signed g r.1 set
          else
            issueLoad { s with osets := t } x (.load { d := d, regs := dn, signed := signed, commit := false, maps := destMaps x })
              sp n c o set ws

/-- A load of a space with address A + B. -/
def loadOp (s : State) (sp : Space) (n : Nat) (signed : Bool) (c : CacheP) (o : Option Ord) (d : Operand) (dn : Nat)
    (a b : Operand) (g : Guard) : Outcome State Fault Refusal :=
  issueMem s g (fun x => trapSets x [(a, 2), (b, 1)] [] g) (loadBody s sp n signed c o d dn a b g)

/-- Bytes of a load size. -/
def ldBytes : LdSize → Nat
  | .b8 | .s8 => 1
  | .b16 | .s16 => 2
  | .b32 => 4
  | .b64 => 8
  | .b128 => 16

/-- Whether a load size sign-extends. -/
def ldSigned : LdSize → Bool
  | .s8 | .s16 => true
  | _ => false

/-- Bytes of a store size. -/
def stBytes : StSize → Nat
  | .b8 => 1
  | .b16 => 2
  | .b32 => 4
  | .b64 => 8
  | .b128 => 16

/-- Bytes of an LDK size. -/
def ldkBytes : LdkSize → Nat
  | .b32 => 4
  | .b64 => 8
  | .b128 => 16

/-- LD (R261). -/
def execLd (sz : LdSize) (c : CacheP) (o : Option Ord) (d a b : Operand) (g : Guard) (s : State) :
    Outcome State Fault Refusal := loadOp s .generic (ldBytes sz) (ldSigned sz) c o d sz.regs a b g

/-- LDS (R261). -/
def execLds (sz : LdSize) (d a b : Operand) (g : Guard) (s : State) : Outcome State Fault Refusal :=
  loadOp s .shared (ldBytes sz) (ldSigned sz) CacheP.none none d sz.regs a b g

/-- LDT (R264). -/
def execLdt (sp : TSpace) (wide : Bool) (d a b : Operand) (g : Guard) (s : State) : Outcome State Fault Refusal :=
  loadOp s (spaceOf sp) (if wide then 16 else 4) false CacheP.none none d (if wide then 4 else 1) a b g

/-- The body of LDK (R263): one load for each home sheaf, by its own k values. -/
def ldkBody (s : State) (sz : LdkSize) (c : CacheP) (d : Fin 30) (a b : Operand) (g : Guard) (x : Iss) : Except Stop State :=
  if x.active.isEmpty then noLanes (idle s x (.k d) sz.regs g) x (flagA x.cur.hdr)
  else
    match osJoinAll s.osets 0 (resultSets x x.active [(a, 2), (b, 1)] [] false g) with
    | .error e => .error (.raise e [])
    | .ok (set, t) =>
      let ws := (homeReps x).map fun p => { who := p, addr := addrAt x a b p, data := [] }
      if x.grp.episode.isSome then
        let r := aheadLanes { s with osets := t } x .generic (ldkBytes sz) c (laneInv [(a, 2), (b, 1)] [] g x) ws
        aheadWrite r.2.1 { x with grp := r.2.2 } (.k d) sz.regs false g r.1 set
      else issueLoad { s with osets := t } x (.loadK d.val sz.regs) .generic (ldkBytes sz) c none set ws

/-- LDK (R263). -/
def execLdk (sz : LdkSize) (c : CacheP) (d : Fin 30) (a b : Operand) (g : Guard) (s : State) : Outcome State Fault Refusal :=
  issueMem s g (fun x => trapSets x [(a, 2), (b, 1)] [] g) (ldkBody s sz c d a b g)

/-! ## Stores -/

/-- The low n bytes a lane stores from D (R262). -/
def storeData (x : Iss) (d : Operand) (n : Nat) (p : Nat × Nat) : List Byte :=
  if n < 4 then bytesOf n (val32 x d p).toNat
  else (List.range (n / 4)).flatMap fun i => bytesOf 4 (valAt x d i p).toNat

/-- A store entry of the present instruction. -/
def storeEntry (x : Iss) (c : CacheP) (o : Option Ord) (set : OSet) (seq : Nat) (as : List Acc) : StoreEntry :=
  { crew := x.cur.crew, grid := x.crew.grid, group := x.cur.group, homes := dedup (as.map (·.sheaf)), flag := flagB x.cur.hdr,
    accs := as, set := set, sem := (o.map (·.sem)).getD .rlx, scope := (o.map (·.scope)).getD .dev, cache := c,
    clause := x.cur.addr, index := x.cur.index, born := seq, seq := seq, flush := none, win := 0, out := none }

/-- Splits a full restartable region (R48): it ends for the issuing lanes it holds, and opens again with the same map, the
instruction being its restart point. -/
def splitRegion (s : State) (x : Iss) (r : Region) : Except Stop (State × Iss) :=
  let ls := r.lanes.filter fun l => (lanesIn x.present).contains l
  match x.endRegion ls s with
  | .error e => .error e
  | .ok (y, s) =>
    let c := restartPoint y.crew (ls.map fun l => (l, y.grp.homeAt l)) (fun _ => some r.map) s.seq
    match openRegion c y.grp r.map ls s.osets with
    | .error e => .error (.raise e [])
    | .ok (c, g, t) => .ok ({ s with osets := t }, { y with crew := c, grp := g })

/-- Holds a store in the region of its lanes. -/
def holdStore (g : Group) (l : Nat) (e : StoreEntry) : Group :=
  if e.accs.isEmpty then g else modRegion g l fun r => { r with held := r.held ++ [e] }

/-- Holds a store in each restartable region its lanes stand in, splitting those that hold 16 already. -/
def holdAll (s : State) (x : Iss) (e : StoreEntry) : Except Stop (State × Iss) :=
  foldE (fun (a : State × Iss) (r : Region) =>
    let mine := e.only r.lanes
    if mine.accs.isEmpty then .ok a
    else
      let l := ((mine.accs.head?).map (·.lane)).getD 0
      match if 16 ≤ r.held.length then splitRegion a.1 a.2 r else .ok a with
      | .error w => .error w
      | .ok (s, y) => .ok (s, { y with grp := holdStore y.grp l mine })) (s, x)
    (x.grp.regions.filter fun r => r.map.restartable)

/-- Lets a checked store go: into the holds of restartable regions, and into the core store order otherwise (R48, R136). -/
def putStore (s : State) (x : Iss) (e : StoreEntry) : Except Stop State :=
  let x := { x with crew := stateChange x.crew x.grp.role x.cur.addr }
  match holdAll s x e with
  | .error w => .error w
  | .ok (s, y) =>
    let free := e.only ((e.accs.map (·.lane)).filter fun l => !inRestartable x.grp l)
    let q := numberStores y.crew (if free.accs.isEmpty then [] else [free])
    match enqueueStores s y.crew.core q.1 q.2 with
    | .error w => .error w
    | .ok (s, c) => .ok ({ y with crew := c }.put s.tickSeq)

/-- The body of a store (R262, R264). -/
def storeBody (s : State) (sp : Space) (n : Nat) (c : CacheP) (o : Option Ord) (d : Operand) (dn : Nat) (a b : Operand)
    (g : Guard) (x : Iss) : Except Stop State :=
  if x.active.isEmpty then noLanes s { x with present := x.present.filter fun p => !inRestartable x.grp p.1 } (flagB x.cur.hdr)
  else
    match checkOperands x x.active [(a, 2), (b, 1), (d, dn)] with
    | .error e => .error e
    | .ok () =>
      if x.grp.episode.isSome then .ok s
      else
        match osJoinAll s.osets 0 (resultSets x x.active [(d, dn), (a, 2), (b, 1)] [] false g) with
        | .error e => .error (.raise e [])
        | .ok (set, t) =>
          match checkAll { s with osets := t } x sp true n 2 c.pcls.val (some set)
              (x.active.map fun p => { who := p, addr := addrAt x a b p, data := storeData x d n p }) with
          | .error e => .error e
          | .ok (as, s) => putStore s x (storeEntry x c o set s.seq as)

/-- A store to a space with address A + B. -/
def storeOp (s : State) (sp : Space) (n : Nat) (c : CacheP) (o : Option Ord) (d : Operand) (dn : Nat) (a b : Operand)
    (g : Guard) : Outcome State Fault Refusal :=
  issueMem s g (fun x => trapSets x [(d, dn), (a, 2), (b, 1)] [] g) (storeBody s sp n c o d dn a b g)

/-- ST (R262). -/
def execSt (sz : StSize) (c : CacheP) (o : Option Ord) (d a b : Operand) (g : Guard) (s : State) :
    Outcome State Fault Refusal := storeOp s .generic (stBytes sz) c o d sz.regs a b g

/-- STS (R262). -/
def execSts (sz : StSize) (d a b : Operand) (g : Guard) (s : State) : Outcome State Fault Refusal :=
  storeOp s .shared (stBytes sz) CacheP.none none d sz.regs a b g

/-- STT (R264). -/
def execStt (sp : TSpace) (wide : Bool) (d a b : Operand) (g : Guard) (s : State) : Outcome State Fault Refusal :=
  storeOp s (spaceOf sp) (if wide then 16 else 4) CacheP.none none d (if wide then 4 else 1) a b g

/-! ## Prefetch (R269) -/

/-- One lane's prefetch: any fault drops it. -/
def prefLane (s : State) (x : Iss) (l2 : Bool) (c : CacheP) (addr : Nat) : State :=
  match placeOf s x.crew.core x.grid addr 1 false with
  | .error _ => s
  | .ok (p, s) =>
    let key := lineKey p.dev p.pa
    let pcls := if c.pcls.val = 0 then p.pcls else c.pcls.val
    if !l2 && (l1Line s x.crew.core key).isSome then s
    else if p.dev != 0 && (portFor s p.dev).isNone then s
    else prefetchLine s x.crew.core x.grid.vf x.isH c pcls l2 key

/-- PREF (R269). -/
def execPref (lvl : Fin 2) (c : CacheP) (a b : Operand) (g : Guard) (s : State) : Outcome State Fault Refusal :=
  issueOp s g (fun x => trapSets x [(a, 2), (b, 1)] [] g) fun x =>
    match checkOperands x x.active [(a, 2), (b, 1)] with
    | .error e => .error e
    | .ok () =>
      .ok ((x.active.filter fun p => !laneInv [(a, 2), (b, 1)] [] g x p).foldl
        (fun s p => prefLane s x (lvl.val == 1) c (addrAt x a b p)) s)

end Sys2Proof.Machine
end

