-- ==== Sys2Proof/Machine/Commit.lean ====
section
/-! DEFINITION. How a commit instruction issues, and the releases and acquires it makes (02_execution.md R47, R51;
06_ordering.md R140, R143, R147, R154). -/

namespace Sys2Proof.Machine

open Host (Outcome)

/-! ## The template of R47 -/

/-- What a commit instruction's issue leaves: the state, and what the group waits for at it, if it does not go past. -/
abbrev Done := State × Option Wait

/-- The maps that reopen after a commit instruction: those already pending, and those of the regions it ends. -/
def withReopen (x : Iss) (y : Iss) : Iss :=
  { y with grp := { y.grp with reopen := x.grp.reopen ++ reopenMaps x (lanesIn x.present) } }

/-- Leaves a group at a commit instruction it waits in: its region stays ended, and its threads' PC is a restart point
with the map to reopen there (R47, R51). -/
def stayAt (s : State) (cu : Cur) (w : Wait) : State :=
  State.onGroup { s with cur := none } cu.crew cu.group fun c g =>
    let m (l : Nat) : Option RegionMap := (g.reopen.find? fun p => p.2.contains l).map fun p => p.1
    (restartPoint c cu.lanes m s.seq, { g with wait := w, brk := g.here })

/-- Runs a commit instruction: in an episode it ends the episode (Table 2.3); otherwise `check` is made with the region
open, the region ends, and `body` acts with the first context's operands on the second context's crew and state. A raised
cause leaves the region to the trap (R63); a wait leaves it ended. -/
def commitOp (s : State) (g : Guard) (sets : Iss → List OSet) (check : Iss → Except Stop Unit)
    (body : Iss → Iss → State → Except Stop Done) : Outcome State Fault Refusal :=
  match issuer s g with
  | none => .refused .noIssuer
  | some x =>
    if x.grp.episode.isSome then .next (s.leaveEpisode x.cur.crew x.cur.group)
    else
      match check x with
      | .error e => settle s x x.active x.cur.index (sets x) e
      | .ok () =>
        match x.endRegion (lanesIn x.present) s with
        | .error e => settle s x x.active x.cur.index (sets x) e
        | .ok (y, s') =>
          let y := withReopen x y
          match body x y s' with
          | .error (.block w) => .next (stayAt (y.put s') x.cur w)
          | .error e => settle s x x.active x.cur.index (sets x) e
          | .ok (t, some w) => .next (stayAt t x.cur w)
          | .ok (t, none) => .next (advance t x.cur)

/-- A commit instruction whose issue always goes past. -/
def commitPast (r : Except Stop State) : Except Stop Done :=
  match r with
  | .ok s => .ok (s, none)
  | .error e => .error e

/-- Notes a state-changing instruction in a context's crew. -/
def Iss.changed (y : Iss) : Iss := { y with crew := stateChange y.crew y.grp.role y.cur.addr }

/-! ## Results of commit instructions (R47 step 3) -/

/-- The main register that slot n of a lane maps by the maps of an issue. -/
def issueMain (x : Iss) (l n : Nat) : Option Nat := (regionOf x.grp l).map fun r => mapReg r.map n

/-- Writes the i-th register of a commit instruction's destination: a slot's value goes straight to its main register. -/
def commitReg (x y : Iss) (o : Operand) (i : Nat) (vs : List ((Nat × Nat) × Word)) (s : OSet) (t : Map OEntry) :
    Except Stop (Iss × Map OEntry) :=
  match o with
  | .w n =>
    foldE (fun (a : Iss × Map OEntry) v =>
      writeMain a.1 v (vs.filter fun q => issueMain x q.1.1 (n.val + i) == some v) s a.2) (y, t)
      (dedup (vs.filterMap fun q => issueMain x q.1.1 (n.val + i)))
  | .k n => .ok (writeK y (n.val + i) vs s, t)
  | .v n => writeMain y (n.val + i) vs s t
  | .z | .lit _ => .ok (y, t)

/-- Writes a commit instruction's result of n registers, the same words in every active lane. -/
def commitRegs (x y : Iss) (o : Operand) (ws : List Word) (s : OSet) (t : Map OEntry) : Except Stop (Iss × Map OEntry) :=
  foldE (fun (a : Iss × Map OEntry) i => commitReg x a.1 o i (x.active.map fun p => (p, (ws[i]?).getD 0)) s a.2) (y, t)
    (List.range ws.length)

/-! ## Releases and acquires -/

/-- Whether some threads of a crew have a store or reduction issued before a place in the order and not performed. -/
def threadStoresDue (s : State) (crew seq : Nat) (ps : List (Nat × Nat)) : Bool :=
  (match Map.find? s.crews crew with
   | some c => (s.core c.core).storeQ.any fun e =>
       e.crew == crew && decide (e.seq < seq) && e.accs.any fun a => ps.contains (a.lane, a.sheaf)
   | none => false) ||
  s.ops.any fun p => p.2.crew == crew && decide (p.2.seq < seq) && (p.2.lanes.any fun q => ps.contains q) &&
    match p.2.kind with
    | .red _ _ => true
    | _ => false

/-- The write-backs a release at dev or dom scope has still to see acknowledged; it asks for them first (R147, R148). -/
def startFlush (s : State) (die : Nat) (dom : Bool) : State × List Nat :=
  let s := cleanDie s die dom
  (s, unacked s die dom)

/-- A release at a scope by the issuing threads (R140, R147): their earlier accesses are performed, and at dev and dom
scope every dirty byte of the die is written back and acknowledged. It answers the state when it is performed, or the wait
with the state that has asked for the write-backs. -/
def release (s : State) (y : Iss) (sc : Scope) : State ⊕ (State × Wait) :=
  if threadLoadsDue s y.cur.crew s.seq y.present || threadStoresDue s y.cur.crew s.seq y.present then .inr (s, .fence none)
  else if !wideScope sc then .inl s
  else
    match y.grp.wait with
    | .fence (some ls) => if flushed s (dieOf y.crew.core) ls then .inl s else .inr (s, .fence (some ls))
    | _ =>
      let r := startFlush s (dieOf y.crew.core) (sc == .dom)
      if r.2.isEmpty then .inl r.1 else .inr (r.1, .fence (some r.2))

/-- The scope at which a message of a wait is released: a body that first releases, then acts. -/
def released (s : State) (y : Iss) (sc : Scope) (act : State → Except Stop Done) : Except Stop Done :=
  match release s y sc with
  | .inl s => act s
  | .inr (s, w) => .ok (y.put s, some w)

/-- The acquire of the issuing threads at a scope: their earlier loads are delivered, and the die's clean lines go at dev
and dom scope (R140, R147). -/
def acquired (s : State) (y : Iss) (sc : Scope) (act : State → Except Stop Done) : Except Stop Done :=
  if threadLoadsDue s y.cur.crew s.seq y.present then .error (.block (.fence none))
  else act (acquireAct s (dieOf y.crew.core) sc)

/-- Whether semantics release, and acquire. -/
def semRel : Sem → Bool
  | .rel | .acqrel | .sc => true
  | _ => false

/-- Whether semantics acquire. -/
def semAcq : Sem → Bool
  | .acq | .acqrel | .sc => true
  | _ => false

end Sys2Proof.Machine
end

