-- ==== Sys2Proof/Machine/Atomics.lean ====
section
/-! DEFINITION. Atomics, reductions, fences, cache maintenance and phase barriers (11_isa_memory.md R265 to R273). -/

namespace Sys2Proof.Machine

open Host (Outcome)

/-! ## Read-modify-writes (R265 to R267) -/

/-- Bytes of a read-modify-write. -/
def rmwBytes (op : RmwOp) : Nat := 4 * op.regs

/-- The smaller of two words as signed numbers. -/
def minSigned (m v : Word) : Word := if m.toInt ≤ v.toInt then m else v
/-- The larger of two words as signed numbers. -/
def maxSigned (m v : Word) : Word := if m.toInt ≤ v.toInt then v else m
/-- The smaller of two words as natural numbers. -/
def minNat (m v : Word) : Word := if m.toNat ≤ v.toNat then m else v
/-- The larger of two words as natural numbers. -/
def maxNat (m v : Word) : Word := if m.toNat ≤ v.toNat then v else m

/-- A bf16 sum of one element of two words, rounded to nearest even. -/
def addB16 (m v : Word) (hi : Bool) : Nat :=
  let e (w : Word) : Nat := if hi then w.toNat / 65536 else w.toNat % 65536
  (fAdd fmtB16 .rne (unpack fmtB16 (e m)) (unpack fmtB16 (e v))).1

/-- The new value of a 32-bit read-modify-write (Table 11.2). -/
def rmwNew32 (op : RmwOp) (m v c : Word) : Word :=
  match op with
  | .minS => minSigned m v
  | .minN => minNat m v
  | .maxS => maxSigned m v
  | .maxN => maxNat m v
  | .and => m &&& v
  | .or => m ||| v
  | .xor => m ^^^ v
  | .exchB32 | .exchB64 => v
  | .casB32 | .casB64 => if m = c then v else m
  | .inc => if v.toNat ≤ m.toNat then 0 else m + 1
  | .dec => if m = 0 ∨ v.toNat < m.toNat then v else m - 1
  | .faddF32 => word (fAdd fmtF32 .rne (unpack fmtF32 m.toNat) (unpack fmtF32 v.toNat)).1
  | .faddB2 => word (addB16 m v false + 65536 * addB16 m v true)
  | .addN32 | .addN64 => m + v

/-- The new memory value from the old m, with v and c (Table 11.2). -/
def rmwNew (op : RmwOp) (m v c : Dword) : Dword :=
  match op with
  | .addN64 => m + v
  | .exchB64 => v
  | .casB64 => if m = c then v else m
  | _ => zx (rmwNew32 op (lo32 m) (lo32 v) (lo32 c))

/-- Whether an operation is a compare-and-swap, which reads D. -/
def isCas (op : RmwOp) : Bool := op == .casB32 || op == .casB64

/-- Whether an operation writes for an old value: a failed compare-and-swap does not. -/
def rmwWrites (op : RmwOp) (m c : Dword) : Bool :=
  match op with
  | .casB32 => lo32 m == lo32 c
  | .casB64 => m == c
  | _ => true

/-- An operand of one or two registers in a lane, as a dword. -/
def valN (x : Iss) (o : Operand) (n : Nat) (p : Nat × Nat) : Dword := if n = 1 then zx (val32 x o p) else val64 x o p

/-- The operands of a read-modify-write: address, value and, for a compare-and-swap, D. -/
def rmwOps (op : RmwOp) (d a b : Operand) : List (Operand × Nat) :=
  [(a, 2), (b, op.regs)] ++ if isCas op then [(d, op.regs)] else []

/-- The pre-checks of a read-modify-write with a destination. -/
def rmwCheck (op : RmwOp) (d a b : Operand) (x : Iss) : Except Stop Unit :=
  match checkOperands x x.active (rmwOps op d a b ++ [(d, op.regs)]) with
  | .error e => .error e
  | .ok () => if xregForbidden x d x.active then .error (.raise .illXregWrite []) else .ok ()

/-- What a read-modify-write asks of memory. -/
def rmwWants (x : Iss) (a : Operand) : List Want := x.active.map fun p => { who := p, addr := (val64 x a p).toNat, data := [] }

/-- The lines a read-modify-write performed in the L1 misses: none where it is performed at an L2 slice or a peer. -/
def rmwNeed (s : State) (core : Nat) (sc : Scope) (as : List Acc) : List Nat :=
  if wideScope sc then [] else missKeys s core (as.filter fun a => a.dev == 0)

/-- The local lines that a read-modify-write works on at their slices (Table 6.4): each is asked for there (R310). -/
def sliceKeys (sc : Scope) (as : List Acc) : List Nat :=
  if wideScope sc then dedup (((cached as).filter fun a => a.dev == 0).map Acc.key) else []

/-- Sends the requests of a read-modify-write to the slices, each line with its page's class (R123). -/
def askSlices (s : State) (x : Iss) (n : Nat) (as : List Acc) (ks : List Nat) : State :=
  ks.foldl (fun s k => sendL2 s (l2Request x.crew.core x.grid.vf k x.isH (lineClass as k) false s.seq (.rmw n))) s

/-- Puts a read-modify-write in flight. -/
def putRmw (s : State) (x y : Iss) (k : OpKind) (flag : Option Nat) (o : Option Ord) (dflt : Scope) (set : OSet)
    (as : List Acc) : Except Stop State :=
  match incFlag y.crew (homesOf x.active) flag with
  | .error e => .error e
  | .ok w =>
    let sc := (o.map (·.scope)).getD dflt
    let need := rmwNeed s x.crew.core sc as
    match startMisses s x.crew.core x.grid.vf x.isH CacheP.none (as.filter fun a => need.contains a.key) with
    | .error e => .error e
    | .ok s =>
      let op := { opBase x k x.active flag s.seq with
        accs := as, set := set, sem := (o.map (·.sem)).getD .rlx, scope := sc, need := need,
        missed := (as.any fun a => a.dev != 0) || need.any (fillMissed s x.crew.core) }
      let y := ({ y with crew := w } : Iss).changed
      .ok (y.put (addOp (askSlices s x s.nextOp as (sliceKeys sc as)) op).tickSeq)

/-- The body of ATOM, RED and ATOMS: every lane's checks, then one operation in flight (R265). It is a switch point (R34). -/
def rmwBody (sp : Space) (op : RmwOp) (o : Option Ord) (dflt : Scope) (red : Bool) (d a b : Operand) (g : Guard)
    (x y : Iss) (s : State) : Except Stop Done :=
  let flag := if red then flagB x.cur.hdr else flagA x.cur.hdr
  let y := { y with crew := switchPoint y.crew y.grp.role }
  if x.active.isEmpty then commitPast (noLanes (y.put s) y flag)
  else
    match osJoinAll s.osets 0 (resultSets x x.active (rmwOps op d a b) [] false g) with
    | .error e => .error (.raise e [])
    | .ok (set, t) =>
      match checkAll { s with osets := t } x sp false (rmwBytes op) 3 0 (some set) (rmwWants x a) with
      | .error e => .error e
      | .ok (as, s) =>
        let vs := x.active.map (valN x b op.regs)
        let cs := x.active.map (valN x d op.regs)
        let dst : Dest := { d := d, regs := op.regs, signed := false, commit := true, maps := destMaps x }
        let k := if red then OpKind.red op vs else OpKind.atom op dst vs (if isCas op then cs else vs)
        commitPast (putRmw s x y k flag o dflt set as)

/-- ATOM (R265, R266). -/
def execAtom (op : RmwOp) (o : Option Ord) (d a b : Operand) (g : Guard) (s : State) : Outcome State Fault Refusal :=
  commitOp s g (fun x => trapSets x (rmwOps op d a b) [] g) (rmwCheck op d a b) (rmwBody .generic op o .dev false d a b g)

/-- RED (R265, R266). -/
def execRed (op : RmwOp) (o : Option Ord) (a b : Operand) (g : Guard) (s : State) : Outcome State Fault Refusal :=
  commitOp s g (fun x => trapSets x [(a, 2), (b, op.regs)] [] g) (fun x => checkOperands x x.active [(a, 2), (b, op.regs)])
    (rmwBody .generic op o .dev true .z a b g)

/-- ATOMS (R265, R267). -/
def execAtoms (op : RmwOp) (o : Option Ord) (d a b : Operand) (g : Guard) (s : State) : Outcome State Fault Refusal :=
  commitOp s g (fun x => trapSets x (rmwOps op d a b) [] g) (rmwCheck op d a b) (rmwBody .shared op o .crew false d a b g)

/-! ## Fences and cache maintenance (R143, R268, R270) -/

/-- The body of FENCE: the release, then the acquire, its semantics hold. -/
def fenceBody (sc : Scope) (sem : Sem) (y : Iss) (s : State) : Except Stop Done :=
  let acq (s : State) : Except Stop Done :=
    if semAcq sem then acquired s y sc fun s => .ok (y.put s, none) else .ok (y.put s, none)
  if semRel sem then released s y sc acq else acq s

/-- FENCE (R268). -/
def execFence (sc : Scope) (sem : Sem) (g : Guard) (s : State) : Outcome State Fault Refusal :=
  commitOp s g (fun x => baseSets x x.present g) (fun _ => .ok ()) fun _ y s => fenceBody sc sem y s

/-- The lines of a core's L1 a CMAINT acts on. -/
def cmaintKeys (s : State) (core : Nat) (dom : Bool) : List Nat := (Map.keys (s.core core).l1).filter (actsOn dom)

/-- The L1 maintenance of R270. -/
def cmaintAct (s : State) (core : Nat) (act : CmAction) (dom : Bool) : State :=
  let ks := cmaintKeys s core dom
  match act with
  | .wb => ks.foldl (fun s k => cleanLine s core k) s
  | .inv => ks.foldl (fun s k => match l1Line s core k with
      | some l => if l.dirty = 0 then dropLine s core k else s
      | none => s) s
  | .wbinv => ks.foldl (fun s k => dropLine s core k) s

/-- The body of CMAINT. -/
def cmaintBody (s : State) (act : CmAction) (sc : Scope) (x : Iss) : Except Stop State :=
  if x.grp.episode.isSome then .ok s
  else
    match incFlag x.crew (homesOf x.present) (flagB x.cur.hdr) with
    | .error e => .error e
    | .ok w =>
      let ks := cmaintKeys s x.crew.core (sc == .dom)
      let s := cmaintAct s x.crew.core act (sc == .dom)
      let due := (unacked s (dieOf x.crew.core) (sc == .dom)).filter fun k => ks.contains k
      let op := { opBase x (.cmaint act (sc == .dom)) x.present (flagB x.cur.hdr) s.seq with scope := sc, flush := some due }
      .ok ({ x with crew := w }.put (addOp s op).tickSeq)

/-- CMAINT (R270). -/
def execCmaint (act : CmAction) (sc : Scope) (g : Guard) (s : State) : Outcome State Fault Refusal :=
  issueOp s g (fun x => baseSets x x.present g) (cmaintBody s act sc)

/-! ## Phase barriers (R271 to R273) -/

/-- The word of a crew's scratchpad at an offset. -/
def scratchWord (c : Crew) (off : Nat) : Word := word (Memory.num c.scratch off 4)

/-- Writes a word of a crew's scratchpad. -/
def putScratchWord (c : Crew) (off : Nat) (w : Word) : Crew :=
  { c with scratch := Memory.writeN c.scratch off (bytesOf 4 w.toNat) }

/-- A lane in BARPW passes once its word's phase differs; the others stay (R273). -/
def wakePhases (c : Crew) : Crew :=
  { c with groups := c.groups.map fun p =>
      match p.2.wait with
      | .barpw pend => (p.1, { p.2 with wait := .barpw (pend.filter fun q => (scratchWord c q.2.1).msb == q.2.2) })
      | _ => p }

/-- One arrival at a phase word (R272): none where nothing is pending. -/
def arrivePhase (w : Word) : Option Word :=
  let pend := bitsOf w.toNat 15 0
  let ex := bitsOf w.toNat 30 16
  if pend = 0 then none
  else if pend = 1 then some (word ((if w.msb then 0 else 2 ^ 31) + ex * 2 ^ 16 + ex))
  else some (w - 1)

/-- The arrivals of the lanes in ascending position: the crew after them and the phases before them. -/
def arriveAll (c : Crew) (offs : List Nat) : Option (Crew × List Word) :=
  match offs with
  | [] => some (c, [])
  | o :: rest =>
    let w := scratchWord c o
    match arrivePhase w with
    | none => none
    | some w' =>
      match arriveAll (putScratchWord c o w') rest with
      | none => none
      | some (c, ps) => some (c, (if w.msb then 1 else 0) :: ps)

/-- Whether a scratchpad word that an instruction acts on at issue has to wait: stores and read-modify-writes of the core
come first, and an engine operation may own it. -/
def phaseBusy (s : State) (y : Iss) (as : List Acc) : Bool :=
  coreStoresDue s y.crew.core s.seq y.cur.crew (homesOf y.present) || threadLoadsDue s y.cur.crew s.seq y.present ||
    owned s (dieOf y.crew.core) s.seq true (as.flatMap (accLocs s y.cur.crew))

/-- Joins a set into the granules of a crew's shared bytes. -/
def joinShareds (c : Crew) (t : Map OEntry) (set : OSet) (offs : List Nat) : Except Cause (Crew × Map OEntry) :=
  foldE (fun (a : Crew × Map OEntry) o => joinShared a.1 a.2 o set) (c, t) offs

/-- The body of BARPA: a release at crew scope, the arrivals, and the old phases on their way to D (R272). The joins that D's sets need
are tried before anything is written (R9, R82). -/
def barpaBody (d a b : Operand) (g : Guard) (x y : Iss) (s : State) : Except Stop Done :=
  if x.active.isEmpty then commitPast (noLanes (y.put s) y (flagA x.cur.hdr))
  else
    match crewAll x .shared false 4 (x.active.map fun p => { who := p, addr := addrAt x a b p, data := [] }) with
    | .error e => .error e
    | .ok as =>
      if phaseBusy s y as then .error (.block (.fence none))
      else
        let old := as.map fun a => sharedSet y.crew a.addr
        match arriveAll y.crew (as.map (·.addr)) with
        | none => .error (.raise .barOverarrive [])
        | some (c, ps) =>
          match osJoinAll s.osets 0 (resultSets x x.active [(a, 2), (b, 1)] [] false g) with
          | .error e => .error (.raise e [])
          | .ok (set, t) =>
            match joinShareds c t set (as.map (·.addr)) with
            | .error e => .error (.raise e [])
            | .ok (c, t) =>
              match osJoinAll t set old with
              | .error e => .error (.raise e [])
              | .ok (u, t) =>
                match commitRegs x { y with crew := c } d [0] u t, incFlag c (homesOf x.active) (flagA x.cur.hdr) with
                | .error e, _ => .error e
                | _, .error e => .error e
                | .ok (_, t), .ok c =>
                  let dst : Dest := { d := d, regs := 1, signed := false, commit := true, maps := destMaps x }
                  let op := { opBase x (.barpa dst) x.active (flagA x.cur.hdr) s.seq with
                    accs := as, set := u, got := (x.active.zip ps).map fun q => (q.1.1, zx q.2) }
                  .ok (({ y with crew := wakePhases c } : Iss).changed.put (addOp { s with osets := t } op).tickSeq, none)

/-- BARPA (R272). -/
def execBarpa (d a b : Operand) (g : Guard) (s : State) : Outcome State Fault Refusal :=
  commitOp s g (fun x => trapSets x [(a, 2), (b, 1)] [] g)
    (fun x =>
      match checkOperands x x.active [(a, 2), (b, 1), (d, 1)] with
      | .error e => .error e
      | .ok () => if xregForbidden x d x.active then .error (.raise .illXregWrite []) else .ok ())
    (barpaBody d a b g)

/-- The body of BARPW: it waits for each lane whose word still holds the phase given (R273). -/
def barpwBody (d a b : Operand) (x y : Iss) (s : State) : Except Stop Done :=
  if x.active.isEmpty then .ok (y.put s, none)
  else
    match y.grp.wait with
    | .barpw pend => .ok (y.put s, if pend.isEmpty then none else some (.barpw pend))
    | _ =>
      match crewAll x .shared false 4 (x.active.map fun p => { who := p, addr := addrAt x a b p, data := [] }) with
      | .error e => .error e
      | .ok as =>
        if threadStoresDue s y.cur.crew s.seq y.present || threadLoadsDue s y.cur.crew s.seq y.present ||
            owned s (dieOf y.crew.core) s.seq false (as.flatMap (accLocs s y.cur.crew)) then .error (.block (.fence none))
        else
          let pend := (x.active.zip as).map fun q => (q.1.1, q.2.addr, (val32 x d q.1).getLsbD 0)
          let pend := pend.filter fun q => (scratchWord y.crew q.2.1).msb == q.2.2
          .ok (y.put s, if pend.isEmpty then none else some (.barpw pend))

/-- BARPW (R273). -/
def execBarpw (d a b : Operand) (g : Guard) (s : State) : Outcome State Fault Refusal :=
  commitOp s g (fun x => trapSets x [(d, 1), (a, 2), (b, 1)] [] g)
    (fun x => checkOperands x x.active [(d, 1), (a, 2), (b, 1)]) (barpwBody d a b)

end Sys2Proof.Machine
end

