-- ==== Sys2Proof/Machine/Code.lean ====
section
/-! DEFINITION. Reading a clause's words at a code address (07_encoding.md R162; 08_isa_control.md R190). -/

namespace Sys2Proof.Machine

/-- Why code bytes are not at hand: a translation fails at a word's address, or a line of a peer is on its way. -/
inductive NoCode where
  | bad (va : Nat) (e : Cause ⊕ TErr)
  | wait (s : State)
  deriving DecidableEq, Repr

/-- A word of code of a grid, as the memory side holds it at this fetch; a peer's word as the core's L1 has fetched it. In an
extent the fetch right alone is asked for; a word stored after the crew's start is seen in its new state by every fetch after
the store (DESIGN CHOICE, assumption 83). -/
def codeWord (s : State) (core : Nat) (g : Grid) (va : Nat) (demand : Bool) : Except NoCode (Word × State) :=
  match placeOf s core g va 4 demand with
  | .error e => .error (.bad va (.inr e))
  | .ok (p, s) =>
    if p.dev = 0 then
      if flawedIn s g.vf p.pa 4 then .error (.bad va (.inr (.flawed (p.pa / 256))))
      else .ok (word (memNum s g.vf p.pa 4), touchMissed s g.vf p.pa)
    else
      let key := lineKey p.dev p.pa
      match l1Line s core key with
      | some l =>
        if (List.range 4).all fun i => Map.has l.bytes (p.pa % 64 + i) then
          .ok (word (ofBytes ((List.range 4).map fun i => Map.get l.bytes (p.pa % 64 + i) 0)), s)
        else .error (.wait s)
      | none =>
        if (portFor s p.dev).isNone then .error (.bad va (.inl .remoteUnreachable))
        else
          match missLine s core g.vf (g.desc.flags.testBit 0) p.pcls CacheP.none key with
          | .ok s => .error (.wait s)
          | .error _ => .error (.wait s)

/-- n words of code from an address on. -/
def codeWords (s : State) (core : Nat) (g : Grid) (va n : Nat) (demand : Bool) : Except NoCode (List Word × State) :=
  match n with
  | 0 => .ok ([], s)
  | n + 1 =>
    match codeWord s core g va demand with
    | .error e => .error e
    | .ok (w, s) =>
      match codeWords s core g (va + 4) n demand with
      | .error e => .error e
      | .ok (ws, s) => .ok (w :: ws, s)

/-- A whole clause: its header and its n words (R162); a fetch of a runahead episode is no demand access (R17, R345). -/
def codeClause (s : State) (core : Nat) (g : Grid) (addr : Nat) (demand : Bool) : Except NoCode (Word × List Word × State) :=
  match codeWord s core g addr demand with
  | .error e => .error e
  | .ok (h, s) =>
    match codeWords s core g (addr + 4) (bitsOf h.toNat 3 0) demand with
    | .error e => .error e
    | .ok (ws, s) => .ok (h, ws, s)

/-- What a failed read of code raises, with the address in every lane. -/
def codeFault (ps : List (Nat × Nat)) (va : Nat) (e : Cause ⊕ TErr) : Stop := raiseAccess (ps.map fun p => (p.1, va, e)) false true

end Sys2Proof.Machine
end

