-- ==== Sys2Proof/Machine/Grids.lean ====
section
/-! DEFINITION. Launch descriptors, the reads and writes BD makes in a partition's memory, extents, the beginning of a grid
and its completion (02_execution.md R21 to R25; 05_memory.md R116; 14_scheduling.md R321, R324, R328 to R333). -/

namespace Sys2Proof.Machine

/-! ## Commands of queues (R317) -/

/-- A queue of a VF. -/
def State.queue (s : State) (vf q : Nat) : Queue := Map.get (s.vf vf).queues q Queue.init

/-- Changes a queue of a VF. -/
def State.modQueue (s : State) (vf q : Nat) (f : Queue → Queue) : State :=
  s.modVf vf fun v => { v with queues := Map.put v.queues q (f (Map.get v.queues q Queue.init)) }

/-- Changes a command of a queue. -/
def State.modCmd (s : State) (vf q n : Nat) (f : Cmd → Cmd) : State := s.modQueue vf q fun x => { x with cmds := Map.mod x.cmds n f }

/-- Marks a command as finished with a status. -/
def finishCmd (s : State) (vf q n : Nat) (r : Status) (c : Option Cause) : State :=
  s.modCmd vf q n fun d => { d with st := .finished, result := r, first := c, time := s.gtime }

/-- Whether a command has a request at a peer. -/
def cmdAway (s : State) (k : Nat × Nat × Nat) : Bool := s.trackers.any fun t => t.2.cmd == some k

/-- A command that has begun. -/
def begunCmd (s : State) (k : Nat × Nat × Nat) : Option Cmd :=
  (Map.find? (s.queue k.1 k.2.1).cmds k.2.2).bind fun c => if c.st == .begun then some c else none

/-- A WRITE whose peer has acknowledged it is complete (R317); a COPY goes on by itself. -/
def ackCmd (s : State) (k : Nat × Nat × Nat) : State :=
  match begunCmd s k with
  | some c => if c.opcode == 4 && !cmdAway s k then finishCmd s k.1 k.2.1 k.2.2 .complete none else s
  | none => s

/-- Fails a command whose request at a peer is lost. -/
def failCmd (s : State) (k : Nat × Nat × Nat) (c : Cause) : State :=
  match begunCmd s k with
  | some _ => finishCmd s k.1 k.2.1 k.2.2 .failed (some c)
  | none => s

/-! ## BD's accesses to a partition's memory (R317, R329) -/

/-- Why an access of BD fails: a translation, or an escalation. -/
abbrev BdErr := Cause ⊕ TErr

/-- The cause of a failed access of BD. -/
def bdCause (e : BdErr) : Cause :=
  match e with
  | .inl c => c
  | .inr t => t.cause

/-- The line that an access of BD met an uncorrectable error in (19_platform.md R423). -/
def flawOf (e : BdErr) : List Found :=
  match e with
  | .inr (.flawed line) => [.used line]
  | _ => []

/-- Notes data with an uncorrectable error that has been found. -/
def State.noteFound (s : State) (fs : List Found) : State := { s with found := s.found ++ fs }

/-- Translates a VA of a process for BD, with its rights. -/
def bdPage (s : State) (vf proc va : Nat) (write : Bool) : Except BdErr (TlbEntry × State) :=
  if 2 ^ 57 ≤ va then .error (.inr .rights)
  else
    match walk s vf proc va with
    | .error e => .error (.inr e)
    | .ok e =>
      match rightsOf e write with
      | .error x => .error (.inr x)
      | .ok () => .ok (e, touchLeaves (noteWalk (if e.dev = 0 then touchFrame s e.pa else s) vf proc va) vf e (leafBits e write true))

/-- Translates a VA of a process for BD's accesses to memory of this device; a page of a peer is none (assumption 13). -/
def bdPlace (s : State) (vf proc va : Nat) (write : Bool) : Except BdErr (TlbEntry × State) :=
  match bdPage s vf proc va write with
  | .error e => .error e
  | .ok (e, t) => if e.dev != 0 then .error (.inl .remoteUnreachable) else .ok (e, t)

/-- The sets of the granules of n bytes at a physical address. -/
def granuleSets (s : State) (e : TlbEntry) (pa n : Nat) : List OSet :=
  (List.range ((pa % 256 + n + 255) / 256)).map fun i => granuleSet s e.dev (pa / 256 * 256 + 256 * i) e.mixed e.oset

/-- Reads n bytes at a VA, page by page, with the sets of their granules. -/
def bdRead (fuel : Nat) (s : State) (vf proc va n : Nat) : Except BdErr (List Byte × List OSet × State) :=
  match fuel with
  | 0 => .ok ([], [], s)
  | f + 1 =>
    if n = 0 then .ok ([], [], s)
    else
      match bdPlace s vf proc va false with
      | .error e => .error e
      | .ok (e, s) =>
        let k := min n (65536 - va % 65536)
        let pa := e.pa + va % 65536
        match (List.range k).find? fun i => flawedIn s vf (pa + i) 1 with
        | some i => .error (.inr (.flawed ((pa + i) / 256)))
        | none =>
          match bdRead f (touchMissed s vf pa) vf proc (va + k) (n - k) with
          | .error e => .error e
          | .ok (bs, ss, t) => .ok (memBytes s vf pa k ++ bs, granuleSets s e pa k ++ ss, t)

/-- Reads a piece of at most two pages. -/
def bdBytes (s : State) (vf proc va n : Nat) : Except BdErr (List Byte × List OSet × State) :=
  bdRead (n / 65536 + 2) s vf proc va n

/-- Writes bytes that lie in one page, with an origin set (R120). -/
def bdWrite (s : State) (vf proc va : Nat) (bs : List Byte) (set : OSet) : Except BdErr State :=
  match bdPlace s vf proc va true with
  | .error e => .error e
  | .ok (e, s) =>
    let pa := e.pa + va % 65536
    if !e.mixed && !osSubset s.osets set e.oset then .error (.inl .osetEscalation)
    else
      match joinGranule s e.dev pa e.mixed e.oset set with
      | .error c => .error (.inl c)
      | .ok s => .ok (sideWrite s vf pa bs)

/-! ## Launch descriptors (Table 2.2) -/

/-- The used roles of the roles field, and whether they are contiguous from role 0 (R23). -/
def rolesOf (b : List Byte) : List (Nat × Nat) × Bool :=
  let rs := (List.range 4).map fun i => (fieldAt b (0x28 + 4 * i) 1, fieldAt b (0x29 + 4 * i) 1)
  let used := rs.takeWhile fun r => r != (0, 0)
  (used, (rs.drop used.length).all (fun r => r == (0, 0)) &&
    (List.range 4).all fun i => fieldAt b (0x2A + 4 * i) 2 == 0)

/-- Reads the 128 bytes of a launch descriptor. -/
def Desc.read (b : List Byte) : Desc :=
  { entry := dword (fieldAt b 0 8), params := dword (fieldAt b 8 8), gx := fieldAt b 0x10 4, gy := fieldAt b 0x14 4,
    gz := fieldAt b 0x18 4, cx := fieldAt b 0x1C 2, cy := fieldAt b 0x1E 2, cz := fieldAt b 0x20 2, flags := fieldAt b 0x22 2,
    scratch := fieldAt b 0x24 4, roles := (rolesOf b).1, rolesOk := (rolesOf b).2, ringTab := dword (fieldAt b 0x38 8),
    handler := dword (fieldAt b 0x40 8), ranges := dword (fieldAt b 0x48 8), nRanges := fieldAt b 0x50 2,
    indirect := dword (fieldAt b 0x58 8), record := dword (fieldAt b 0x60 8), prio := fieldAt b 0x68 1,
    resvOk := fieldAt b 0x52 6 == 0 && (b.drop 0x69).all (fun x => x == 0), raw := b }

/-- The sheaf total of the roles. -/
def Desc.sheaves (d : Desc) : Nat := sumOf (d.roles.map (·.1))

/-- The banks of a crew. -/
def Desc.banks (d : Desc) : Nat := sumOf (d.roles.map fun r => r.1 * r.2)

/-- Whether the roles obey R23. -/
def Desc.rolesFit (d : Desc) : Bool :=
  d.rolesOk && !d.roles.isEmpty && (d.roles.all fun r => decide (1 ≤ r.1) && (r.2 == 1 || r.2 == 2)) &&
    decide (d.sheaves ≤ 32) && decide (d.banks ≤ 62)

/-- Whether a record's address is itself valid (R320). -/
def Desc.recordOk (d : Desc) : Bool := d.record.toNat != 0 && d.record.toNat % 64 == 0

/-- Whether a descriptor obeys Table 2.2, R14's flag of H launches and R23 (R22, R16). -/
def Desc.ok (d : Desc) : Bool :=
  d.entry.toNat % 4 == 0 && d.params.toNat % 64 == 0 && decide (1 ≤ d.gx) && decide (1 ≤ d.gy) && decide (1 ≤ d.gz) &&
    decide (d.gx * d.gy * d.gz < 2 ^ 32) && decide (1 ≤ d.cx) && decide (1 ≤ d.cy) && decide (1 ≤ d.cz) &&
    d.cx * d.cy * d.cz == 32 * d.sheaves && d.flags / 32 == 0 && d.scratch % 256 == 0 && decide (d.scratch ≤ 0x40000) &&
    d.rolesFit && d.ringTab.toNat % 16 == 0 && d.handler.toNat % 4 == 0 &&
    (d.nRanges == 0 || d.ranges.toNat % 16 == 0) && decide (d.nRanges ≤ 16) && d.resvOk &&
    (if bitOf d.flags 2 then d.indirect.toNat % 4 == 0 else d.indirect == 0) && d.recordOk &&
    (!bitOf d.flags 0 || bitOf d.flags 3)

/-! ## Ring tables (Table 5.2, R116, R117) -/

/-- The space a ring id serves. -/
def ringSpace (id : Nat) : TSpace := if id < 8 then .W else if id < 16 then .A else .C

/-- The units of a space. -/
def spaceUnits (sp : TSpace) : Nat :=
  match sp with
  | .W => 256
  | .A => 32
  | .C => 16

/-- A ring of an enabled entry, as it stands at dispatch. -/
def Ring.make (readers first count filled : Nat) : Ring :=
  { readers := readers, first := first, count := count, filled0 := filled, free := count - filled,
    slots := (List.range count).map fun i => (i, { st := if i < filled then SlotSt.filled else .free, holders := [], releases := 0 }),
    rsvCur := filled % count, pubCur := filled % count, freeCur := 0, filled := [], claim := [] }

/-- One entry of a ring table: none where it breaks a constraint, no ring where it is not enabled. -/
def ringEntry (id : Nat) (b : List Byte) : Option (Option Ring) :=
  let n := fieldAt b 4 2
  let first := fieldAt b 2 2
  let readers := fieldAt b 1 1
  if fieldAt b 0 1 = 0 then (if b.all fun x => x == 0 then some none else none)
  else if fieldAt b 0 1 = 1 ∧ 1 ≤ readers ∧ (id < 8 ∨ readers = 1) ∧ 1 ≤ n ∧ first + n ≤ spaceUnits (ringSpace id) ∧
      fieldAt b 6 2 ≤ n ∧ fieldAt b 8 8 = 0 then some (some (Ring.make readers first n (fieldAt b 6 2)))
  else none

/-- The rings of a table, none where an entry is broken. -/
def ringsOf (id : Nat) (b : List Byte) (n : Nat) : Option (Map Ring) :=
  match n with
  | 0 => some []
  | n + 1 =>
    match ringEntry id (b.take 16), ringsOf (id + 1) (b.drop 16) n with
    | some (some r), some m => some ((id, r) :: m)
    | some none, some m => some m
    | _, _ => none

/-- Whether two rings share a unit of one space. -/
def ringsClash (a b : Nat × Ring) : Bool :=
  ringSpace a.1 == ringSpace b.1 && decide (a.2.first < b.2.first + b.2.count ∧ b.2.first < a.2.first + a.2.count)

/-- Whether no two rings of a table overlap. -/
def ringsApart : Map Ring → Bool
  | [] => true
  | r :: rest => (rest.all fun q => !ringsClash r q) && ringsApart rest

/-! ## Operand ranges and extents (R328 to R330) -/

/-- An operand-range entry. -/
structure Range where
  base   : Nat
  pages  : Nat
  rights : Nat
  cls    : Nat
  deriving DecidableEq, Repr

/-- A range entry, none where it breaks Table 14.6. -/
def rangeOf (b : List Byte) : Option Range :=
  let r : Range := { base := fieldAt b 0 8, pages := fieldAt b 8 4, rights := fieldAt b 12 1, cls := fieldAt b 13 1 }
  if r.base % 65536 = 0 ∧ r.base < 2 ^ 57 ∧ 1 ≤ r.pages ∧ 1 ≤ r.rights ∧ r.rights < 8 ∧ r.cls ≤ 4 ∧ fieldAt b 14 2 = 0 then some r
  else none

/-- The ranges of a list, none where an entry is broken. -/
def rangesOf (b : List Byte) (n : Nat) : Option (List Range) :=
  match n with
  | 0 => some []
  | n + 1 =>
    match rangeOf (b.take 16), rangesOf (b.drop 16) n with
    | some r, some rs => some (r :: rs)
    | _, _ => none

/-- Adds a page to the extents of its range: it extends the last one or opens another (R329). -/
def growExtents (es : List Extent) (e : Extent) (fresh : Bool) : List Extent :=
  match es.getLast? with
  | some l =>
    if !fresh && l.va + 65536 * l.pages == e.va && l.pa + 65536 * l.pages == e.pa && l.oset == e.oset && l.mixed == e.mixed &&
        l.dev == e.dev then es.dropLast ++ [{ l with pages := l.pages + 1, pcls := l.pcls ++ e.pcls }]
    else es ++ [e]
  | none => [e]

/-- One page of a range, as an extent of its own; none where the build fails (R329). -/
def pageExtent (s : State) (vf proc : Nat) (r : Range) (va : Nat) : Option (Extent × State) :=
  if 2 ^ 57 ≤ va then none
  else
    match walk s vf proc va with
    | .error _ => none
    | .ok e =>
      if bitOf r.rights 1 && !(e.w1 && e.w2) then none
      else
        let x : Extent := { va := va, pages := 1, pa := e.pa, rights := r.rights, cls := r.cls, pcls := [e.pcls], oset := e.oset,
                            mixed := e.mixed, dev := e.dev }
        some (x, touchLeaves (noteWalk (if e.dev = 0 then touchFrame s e.pa else s) vf proc va) vf e (leafBits e (bitOf r.rights 1) true))

/-- The extents of a range's pages from one on. -/
def rangeExtents (s : State) (vf proc : Nat) (r : Range) (i n : Nat) (es : List Extent) : Option (List Extent × State) :=
  match n with
  | 0 => some (es, s)
  | n + 1 =>
    match pageExtent s vf proc r (r.base + 65536 * i) with
    | none => none
    | some (e, s) => rangeExtents s vf proc r (i + 1) n (growExtents es e (i == 0))

/-- The extents of every range, at most 64. -/
def buildExtents (s : State) (vf proc : Nat) (rs : List Range) : Option (List Extent × State) :=
  match rs.foldl (fun (a : Option (List Extent × State)) r => a.bind fun q => rangeExtents q.2 vf proc r 0 r.pages q.1) (some ([], s)) with
  | some (es, s) => if es.length ≤ 64 then some (es, s) else none
  | none => none

/-- The frames behind the local extents, each once. -/
def extentFrames (es : List Extent) : List Nat :=
  dedup ((es.filter fun e => e.dev == 0).flatMap fun e => (List.range e.pages).map fun i => e.pa / 65536 + i)

/-- Pins frames, or takes their pins away. -/
def pinFrames (s : State) (add : Bool) (fs : List Nat) : State :=
  { s with frames := fs.foldl (fun m f => Map.mod m f fun i => { i with pins := if add then i.pins + 1 else i.pins - 1 }) s.frames }

/-! ## The beginning of a grid (R200, R320, R321, R324, R329) -/

/-- Why a launch that has been accepted runs no crew. -/
inductive NoLaunch where
  /-- A read or the extent build fails it (R324, R329); the data that a read found to be bad. -/
  | range (found : List Found)
  /-- A table it names is broken (R320). -/
  | desc
  deriving DecidableEq, Repr

/-- The indirect count, read once (R324); the grid keeps it whether or not it may launch (Table 14.7). -/
def readCount (s : State) (g : Grid) : Except NoLaunch (Grid × State) :=
  if !bitOf g.desc.flags 2 then .ok (g, s)
  else
    match bdBytes s g.vf g.proc g.desc.indirect.toNat 4 with
    | .error e => .error (.range (flawOf e))
    | .ok (b, _, s) =>
      .ok ({ g with indirect := ofBytes b, desc := { g.desc with gx := ofBytes b } }, s)

/-- The ring table, read and checked (R116). -/
def readRings (s : State) (g : Grid) : Except NoLaunch (Grid × State) :=
  if g.desc.ringTab = 0 then .ok (g, s)
  else
    match bdBytes s g.vf g.proc g.desc.ringTab.toNat 320 with
    | .error e => .error (.range (flawOf e))
    | .ok (b, _, s) =>
      match ringsOf 0 b 20 with
      | some m => if ringsApart m then .ok ({ g with ringE := m }, s) else .error .desc
      | none => .error .desc

/-- The operand ranges, read, checked and built into extents (R328, R329). -/
def readRanges (s : State) (g : Grid) : Except NoLaunch (Grid × State) :=
  if g.desc.nRanges = 0 then .ok (g, s)
  else
    match bdBytes s g.vf g.proc g.desc.ranges.toNat (16 * g.desc.nRanges) with
    | .error e => .error (.range (flawOf e))
    | .ok (b, _, s) =>
      match rangesOf b g.desc.nRanges with
      | none => .error .desc
      | some rs =>
        match buildExtents s g.vf g.proc rs with
        | none => .error (.range [])
        | some (es, s) =>
          let fs := extentFrames es
          .ok ({ g with extents := es, pinned := fs }, pinFrames s true fs)

/-- The parameter block: words 0 to 15 with their sets (Table 2.2, R200). -/
def readParams (s : State) (g : Grid) : Except NoLaunch (Grid × State) :=
  if g.desc.params = 0 then .ok (g, s)
  else
    match bdBytes s g.vf g.proc g.desc.params.toNat 64 with
    | .error e => .error (.range (flawOf e))
    | .ok (b, ss, s) =>
      .ok ({ g with params := (List.range 16).map fun i => word (fieldAt b (4 * i) 4),
                    paramS := List.replicate 16 (ss.headD 0) }, s)

/-- A grid's launch begins: its count and tables are read and its extents built; what fails it stands in the grid, which keeps the
count it has read (R324, Table 14.7). -/
def beginGrid (s : State) (gid : Nat) : State :=
  match Map.find? s.grids gid with
  | none => s
  | some g =>
    let fails (s : State) (e : NoLaunch) : State :=
      match e with
      | .range fs => (s.noteFound fs).modGrid gid fun g => g.stop .failed .launchRange
      | .desc => s.modGrid gid fun g => g.stop .rejected .launchDesc
    match readCount s g with
    | .error e => fails s e
    | .ok (g, s) =>
      let s := s.modGrid gid fun _ => g
      let r : Except NoLaunch (Grid × State) :=
        if 2 ^ 32 ≤ g.desc.gx * g.desc.gy * g.desc.gz then .error .desc
        else
        match readRings s g with
        | .error e => .error e
        | .ok (g, s) =>
          match readRanges s g with
          | .error e => .error e
          | .ok (g, s) => readParams s g
      match r with
      | .ok (g, s) => s.modGrid gid fun _ => { g with built := true, crews := g.desc.gx * g.desc.gy * g.desc.gz }
      | .error e => fails s e

/-- A grid as it is accepted. -/
def Grid.accept (vf queue proc depth : Nat) (d : Desc) (parent : Option Nat) (hint seq accepted : Nat) (octx : OSet)
    (cmd : Option Nat) : Grid :=
  { vf := vf, queue := queue, proc := proc, depth := depth, desc := d, parent := parent, hint := hint, cmd := cmd, seq := seq,
    octx := octx, accepted := accepted, built := false, extents := [], pinned := [], params := [], paramS := [], ringE := [],
    crews := 0, next := 0, retired := 0, children := [], indirect := 0, start := none, fin := 0, stops := [], crewsRun := 0, faults := 0,
    first := none, stopped := none, done := false, hash := 0, dies := [], due := [] }

/-- The grids that count against the device's 4096, and those of a partition (R325). -/
def liveGrids (s : State) : List (Nat × Grid) := s.grids.filter fun p => !p.2.done

/-- Whether a partition may have one more grid accepted. -/
def gridRoom (s : State) (vf : Nat) : Bool :=
  decide ((liveGrids s).length < 4096) && decide (((liveGrids s).filter fun p => p.2.vf == vf).length < (s.vf vf).cfg.quota)

/-! ## Completion (R25, R331 to R333) -/

/-- The code of a status (Table 14.7). -/
def Status.code : Status → Nat
  | .complete => 0
  | .failed => 1
  | .rejected => 2
  | .killed => 3

/-- The 64 bytes of a grid's completion record (Table 14.7), with a store hash. -/
def recordBytes (gid : Nat) (g : Grid) (now hash : Dword) : List Byte :=
  bytesOf 2 ((g.stopped.getD .complete).code) ++ bytesOf 2 ((g.first.map causeCode).getD 0) ++
    bytesOf 4 (min g.faults (2 ^ 32 - 1)) ++ bytesOf 8 gid ++ bytesOf 8 ((g.start.getD now).toNat) ++ bytesOf 8 now.toNat ++
    bytesOf 4 g.crewsRun ++ bytesOf 4 (g.desc.gx * g.desc.gy * g.desc.gz) ++ bytesOf 4 g.indirect ++ bytesOf 4 0 ++
    bytesOf 8 hash.toNat ++ bytesOf 8 0

/-- Writes a grid's record; a failing write is reported to the hypervisor as the fault it meets (R333). -/
def writeRecord (s : State) (gid : Nat) (g : Grid) : State :=
  if !g.desc.recordOk then s
  else
    match bdWrite s g.vf g.proc g.desc.record.toNat (recordBytes gid g s.gtime g.hash) 0 with
    | .ok s => s
    | .error e =>
      (s.noteFound (flawOf e)).toHypervisor [{ FRec.init with kind := 3, cause := causeCode (bdCause e), vf := g.vf, grid := gid, va := g.desc.record }]

/-- Whether operations or stores of a grid are still to be performed. -/
def gridDrains (s : State) (gid : Nat) : Bool :=
  (s.ops.any fun p => p.2.grid == gid) || (s.cores.any fun p => p.2.storeQ.any fun e => e.grid == gid) ||
    s.cores.any fun p => p.2.msgIn.any fun m => m.grid == gid

/-- Whether a grid completes now (R25, R331): every crew dispatched and retired, and every child complete; for a grid
stopped, every crew freed, what it issued performed, and the dirty bytes of the dies its crews stood on written back (R332). -/
def gridReady (s : State) (gid : Nat) (g : Grid) : Bool :=
  !g.done && !gridDrains s gid &&
    (g.due.all fun p => flushed s p.1 [p.2]) &&
    (if g.stopped.isSome then !(s.crews.any fun p => p.2.grid == gid)
     else g.built && g.retired == g.crews && g.children.isEmpty)

/-- Completes a grid: its record is written as a release of every access of the grid, its frames are unpinned, and its
parent's crew no longer waits for it. The releases of its crews have been performed at their retirement (Table 6.7). -/
def completeGrid (s : State) (gid : Nat) : State :=
  match Map.find? s.grids gid with
  | none => s
  | some g =>
    let s := pinFrames (writeRecord s gid { g with fin := s.gtime }) false g.pinned
    let s := s.modGrid gid fun d => { d with done := true, fin := s.gtime, pinned := [] }
    let s := { s with cores := s.cores.map fun p => (p.1, { p.2 with msgQ := p.2.msgQ.filter fun m => m.grid != gid }) }
    match g.parent with
    | none => s
    | some c =>
      let s := s.modCrew c fun w => { w with children := w.children.filter (· != gid) }
      { s with grids := (Map.del s.grids gid).map fun p => (p.1, { p.2 with children := p.2.children.filter (· != gid) }) }

end Sys2Proof.Machine
end

