-- ==== Sys2Proof/Machine/Branch.lean ====
section
/-! DEFINITION. Where control goes: branches, calls, returns, exits, traps and regions (02_execution.md R26 to R28, R33, R34,
R42, R44, R60 to R65; 03_registers.md R85; 08_isa_control.md R187 to R196, R203 to R206). -/

namespace Sys2Proof.Machine

open Host (Outcome)

/-! ## The lead lane, active sets in an episode -/

/-- The lead lane of an issue group: its lowest lane position (R185). -/
def leadOf (x : Iss) : Nat × Nat := (leastBy (fun p : Nat × Nat => p.1) x.present).getD (0, 0)

/-- The lowest active lane, if any is active (R185). -/
def lowActive (x : Iss) : Option (Nat × Nat) := leastBy (fun p : Nat × Nat => p.1) x.active

/-- The active threads whose guard is no invalid datum of an episode: with an invalid guard a branch falls through (Table
2.3). -/
def takers (x : Iss) (g : Guard) : List (Nat × Nat) := x.active.filter fun p => !predInv x g.pred p

/-- The clause after the one that issues. -/
def Iss.next (x : Iss) : Dword := nextClause x.cur.addr x.cur.hdr

/-- The target of a format B branch (R187). -/
def Iss.target (x : Iss) (off : BitVec 22) : Dword := x.cur.addr + dwordI (4 * off.toInt)

/-! ## The spin detector (R33) -/

/-- One iteration of a backward branch to an entry with a hash of the values written in it: the entry's count of
iterations equal to the one before, and its demotion at four. -/
def spinStep (c : Crew) (role addr h : Nat) : Crew :=
  let old := c.spin.find? fun p => p.1 == role && p.2.1 == addr
  let n := match old with
    | some (_, _, k, h') => if h' = h then k + 1 else 0
    | none => 0
  let c := { c with spin := (c.spin.filter fun p => !(p.1 == role && p.2.1 == addr)) ++ [(role, addr, n, h)] }
  if 4 ≤ n ∧ !c.demoted.contains (role, addr) then { c with demoted := c.demoted ++ [(role, addr)] } else c

/-! ## Branches (R85, R187) -/

/-- The set every thread of a divergence takes, with the table; no set without a divergence. -/
def branchSet (x : Iss) (t : Map OEntry) (n : Nat) (sets : List OSet) : Except Stop (Option OSet × Map OEntry) :=
  if n ≤ 1 then .ok (none, t)
  else
    match osJoinAll t 0 (entrySets x.crew x.grp.role x.cur.addr ++ sets) with
    | .error e => .error (.raise e [])
    | .ok (u, t) => .ok (some u, t)

/-- Sends a thread to index 1 of a clause, with the record of a divergence and its control set. -/
def branchThread (seq : Nat) (a : Dword) (u : Option OSet) (t : Thread) : Thread :=
  let t := match u with
    | some o =>
      let r : DivRec := { id := seq, saved := t.octx }
      { t with octx := o, divs := (r :: t.divs).take 16, lost := t.lost ++ ((r :: t.divs).drop 16).map fun (d : DivRec) => d.id }
    | none => t
  { t with clause := a, index := 1, reached := seq }

/-- The lanes an episode goes on with after a branch: those of the lowest target (Table 2.3). -/
def episodeLanes (e : Episode) (ds : List Nat) (ps : List (Nat × Nat)) (dest : Nat × Nat → Dword) : Episode :=
  let low := ds.foldl Nat.min (ds.headD 0)
  { e with lanes := lanesIn (ps.filter fun p => (dest p).toNat == low) }

/-- Sends the issuing threads each to index 1 of a clause, ending the issuing clause: a divergence joins the control sets, a
backward target is a switch point and an iteration for the spin detector, and an episode goes on at the lowest target. -/
def branchTo (s : State) (x : Iss) (dest : Nat × Nat → Dword) (sets : List OSet) : Except Stop State :=
  let ds := dedup (x.present.map fun p => (dest p).toNat)
  match branchSet x s.osets ds.length sets with
  | .error e => .error e
  | .ok (u, t) =>
    let c := x.crew.modThreads x.present fun p th => branchThread s.seq (dest p) u th
    let back := ds.filter fun d => decide (d ≤ x.cur.addr.toNat)
    let y := (x.grp.active.map hasYield).getD false || x.cur.hdr.getLsbD 27
    let g := countEpisode { x.grp.endClause with wait := .none }
    match g.episode with
    | some e =>
      let g := { g with episode := some (episodeLanes e ds x.present dest) }
      let g := if back.isEmpty then g else { g with wHash := 0 }
      .ok (({ x with crew := c, grp := g } : Iss).put { s with osets := t, seq := s.seq + 1, cur := none })
    | none =>
      let c1 := back.foldl (fun c d => spinStep c g.role d g.wHash) c
      let s := if c1.demoted.length = c.demoted.length then s else countCore s x.crew.core x.grid 0x0009
      let c := if back.isEmpty && !y then c1 else switchPoint c1 g.role
      let g := if back.isEmpty then g else { g with wHash := 0 }
      let s := ({ x with crew := c, grp := g } : Iss).put { s with osets := t, seq := s.seq + 1, cur := none }
      .ok (s.modCrew x.cur.crew fun c => splitByPc c x.cur.group x.present)

/-- Runs a branch: `body` gives the state with every thread sent on. -/
def branchOp (s : State) (g : Guard) (sets : Iss → List OSet) (body : Iss → Except Stop State) :
    Outcome State Fault Refusal :=
  match issuer s g with
  | none => .refused .noIssuer
  | some x =>
    match body x with
    | .ok s' => .next (finishIssue (freeBuffer s' x.cur.crew x.cur.group) x.cur)
    | .error e => settle s x x.active x.cur.index (sets x) e

/-- Where a guarded branch sends a thread. -/
def takenOr (ts : List (Nat × Nat)) (to_ : Dword) (x : Iss) (p : Nat × Nat) : Dword := if ts.contains p then to_ else x.next

/-- The check of a target to which some threads go: bits [63:57] are 0 (R177). -/
def checkTarget (a : Dword) (ts : List (Nat × Nat)) : Except Stop Unit :=
  if !ts.isEmpty && a.toNat / 2 ^ 57 != 0 then .error (.raise .pageRights (ts.map fun p => (p.1, a))) else .ok ()

/-- BRA (R187). -/
def execBra (off : BitVec 22) (g : Guard) (s : State) : Outcome State Fault Refusal :=
  branchOp s g (fun x => baseSets x x.present g) fun x =>
    match checkTarget (x.target off) (takers x g) with
    | .error e => .error e
    | .ok () => branchTo s x (takenOr (takers x g) (x.target off) x) (predSets x x.present g.pred)

/-- BRAU (R188). -/
def execBrau (off : BitVec 22) (g : Guard) (s : State) : Outcome State Fault Refusal :=
  branchOp s g (fun x => baseSets x x.present g) fun x =>
    let go := (takers x g).contains (leadOf x)
    match checkTarget (x.target off) (if go then takers x g else []) with
    | .error e => .error e
    | .ok () => branchTo s x (fun _ => if go then x.target off else x.next) []

/-- The failed checks of a computed target's lanes (R189). -/
def brxBad (x : Iss) (a : Operand) : List Bad :=
  (takers x gAlways).filterMap fun p =>
    let t := (val64 x a p).toNat
    if t / 2 ^ 57 != 0 then some (p.1, t, .inl .pageRights)
    else if t % 4 != 0 then some (p.1, t, .inl .misaligned) else none

/-- BRX (R189). -/
def execBrx (a : Operand) (g : Guard) (s : State) : Outcome State Fault Refusal :=
  branchOp s g (fun x => trapSets x [(a, 2)] [] g) fun x =>
    let x' := { x with active := takers x g }
    match checkOperands x x'.active [(a, 2)] with
    | .error e => .error e
    | .ok () =>
      if x'.active.any fun p => opInv x (a, 2) p then .error (.raise .illOperand [])
      else if !(brxBad x' a).isEmpty then .error (raiseAccess (brxBad x' a) false false)
      else
        branchTo s x (fun p => if x'.active.contains p then val64 x a p else x.next)
          (predSets x x.present g.pred ++ opSets x x.present (a, 2))

/-! ## Outside any region (R195, R196) -/

/-- Ends the regions of the issuing threads and leaves them outside any region: an H crew's threads with the implicit region
at their next instruction. -/
def endOutside (x : Iss) (s : State) : Except Stop (Iss × State) :=
  match x.endRegion (lanesIn x.present) s with
  | .error e => .error e
  | .ok (y, s) =>
    .ok (if y.isH then { y with grp := { y.grp with reopen := y.grp.reopen ++ [(implicitMap, lanesIn y.present)] } } else y, s)

/-- Makes the next instruction of the issuing threads a restart point (R196). -/
def restartNext (s : State) (x : Iss) : State := s.restartPoint x.cur.crew x.cur.group x.present

/-! ## Calls and returns (R187, R190) -/

/-- CALL (R187). -/
def execCall (off : BitVec 22) (g : Guard) (s : State) : Outcome State Fault Refusal :=
  branchOp s g (fun x => baseSets x x.present g) fun x =>
    let ts := takers x g
    if ts.any fun p => decide (16 ≤ (x.crew.thread p).ret.length) then .error (.raise .stackOverflow [])
    else
      match checkTarget (x.target off) ts with
      | .error e => .error e
      | .ok () =>
      match endOutside x s with
      | .error e => .error e
      | .ok (y, s) =>
        let y := { y with crew := y.crew.modThreads ts fun _ t => { t with ret := x.next :: t.ret } }
        match branchTo s y (takenOr ts (x.target off) x) (predSets x x.present g.pred) with
        | .error e => .error e
        | .ok s => .ok (restartNext s x)

/-- The code words at each return address: the first failure, or what the clauses hold (R190 step 1). -/
def returnWords (s : State) (x : Iss) (as : List Nat) : Except NoCode (List (Word × Word) × State) :=
  match as with
  | [] => .ok ([], s)
  | a :: rest =>
    let dm := x.grp.episode.isNone
    match codeWord s x.crew.core x.grid a dm with
    | .error e => .error e
    | .ok (h, s) =>
      match codeWord s x.crew.core x.grid (a + 4) dm with
      | .error e => .error e
      | .ok (w, s) =>
        match returnWords s x rest with
        | .error e => .error e
        | .ok (ws, s) => .ok ((h, w) :: ws, s)

/-- Whether a clause is one a RET may return to (R60, R190 step 3). -/
def returnOk (p : Word × Word) : Bool :=
  bitsOf p.1.toNat 6 4 == 4 && (bitsOf p.2.toNat 31 22 == 0x010 || bitsOf p.2.toNat 31 22 == 0x011)

/-- The top of a thread's return stack. -/
def retTop (x : Iss) (p : Nat × Nat) : Option Dword := (x.crew.thread p).ret.head?

/-- The effect of RET once its checks have passed. -/
def returnAll (s : State) (x : Iss) (ts : List (Nat × Nat)) (g : Guard) : Except Stop State :=
  match endOutside x s with
  | .error e => .error e
  | .ok (y, s) =>
    let y := { y with crew := y.crew.modThreads ts fun _ t => { t with ret := t.ret.drop 1 } }
    match branchTo s y (fun p => if ts.contains p then (retTop x p).getD 0 else x.next) (predSets x x.present g.pred) with
    | .error e => .error e
    | .ok s => .ok (restartNext s x)

/-- RET (R190). A return address on a peer whose code is not at hand is fetched first. -/
def execRet (g : Guard) (s : State) : Outcome State Fault Refusal :=
  match issuer s g with
  | none => .refused .noIssuer
  | some x =>
    let ts := takers x g
    let sets := baseSets x x.present g
    match returnWords s x (dedup (ts.filterMap fun p => (retTop x p).map (·.toNat))) with
    | .error (.wait s') => settle s' x x.active x.cur.index sets (.block .table)
    | .error (.bad va e) =>
      let ps := ts.filter fun p => match retTop x p with
        | some a => a.toNat == va || a.toNat + 4 == va
        | none => false
      settle s x x.active x.cur.index sets (codeFault ps va e)
    | .ok (ws, s') =>
      let r : Except Stop State :=
        if ts.any fun p => (retTop x p).isNone then .error (.raise .stackUnderflow [])
        else if !ws.all returnOk then .error (.raise .illBranchPos [])
        else returnAll s' x ts g
      match r with
      | .ok s' => .next (finishIssue (freeBuffer s' x.cur.crew x.cur.group) x.cur)
      | .error e => settle s x x.active x.cur.index sets e

/-! ## Barrier arrivals (R41, R42, R44) -/

/-- A barrier at a crew's dispatch. -/
def Barrier.init (n : Nat) : Barrier :=
  { phase := false, expect := n, arrived := 0, drops := 0, sheaves := [], threads := [], last := [], phases := 0 }

/-- A barrier of a crew. -/
def Crew.barrier (c : Crew) (b : Nat) : Barrier := Map.get c.barriers b (Barrier.init c.sheaves.length)

/-- Completes a phase (R42). -/
def Barrier.complete (b : Barrier) : Barrier :=
  { b with phase := !b.phase, expect := b.expect - b.drops, drops := 0, arrived := 0, sheaves := [], threads := [],
           phases := b.phases + 1 }

/-- Counts the arrival of a home sheaf, its checks made. -/
def Barrier.count (b : Barrier) (h : Nat) (drop : Bool) : Barrier :=
  let b := { b with sheaves := insertAsc h b.sheaves, arrived := b.arrived + 1, last := Map.put b.last h b.phases,
                    drops := if drop then b.drops + 1 else b.drops }
  if b.arrived = b.expect then b.complete else b

/-- The checks of a home sheaf's arrival (R42). -/
def Barrier.check (b : Barrier) (h : Nat) (drop : Bool) : Option Cause :=
  if b.expect = 0 then some .barOverarrive
  else if b.sheaves.contains h then some .barOverarrive
  else if drop && decide (b.expect < b.drops + 1) then some .barDropUnderflow
  else none

/-- Whether a home sheaf has every live thread arrived at a barrier. -/
def sheafArrived (c : Crew) (b : Barrier) (h : Nat) : Bool :=
  (liveLanes (c.sheaf h)).all fun l => b.threads.any fun q => q.1 == h && q.2.1 == l

/-- Whether one of a home sheaf's threads arrived by BARD. -/
def sheafDrops (b : Barrier) (h : Nat) : Bool := b.threads.any fun q => q.1 == h && q.2.2

/-- The arrivals of threads at a barrier, and of the home sheaves they complete, as one step: every check of every home sheaf
comes before the first update (R42, R198). -/
def arriveThreads (c : Crew) (b : Barrier) (ps : List (Nat × Nat)) (drop : Bool) : Except Cause Barrier :=
  if b.expect = 0 ∨ ps.any fun p => b.sheaves.contains p.2 || b.threads.any fun q => q.1 == p.2 && q.2.1 == p.1 then
    .error .barOverarrive
  else
    let b := { b with threads := b.threads ++ ps.map fun p => (p.2, p.1, drop) }
    let hs := (homesOf ps).filter (sheafArrived c b)
    match hs.findSome? fun h => b.check h (sheafDrops b h) with
    | some e => .error e
    | none => .ok (hs.foldl (fun a h => a.count h (sheafDrops b h)) b)

/-- The implicit arrival or drop of a home sheaf whose drop may not count (R44). -/
def Barrier.implicit (b : Barrier) (h : Nat) (drop : Bool) : Barrier :=
  if b.expect = 0 then b
  else
    let d := drop && !decide (b.expect < b.drops + 1)
    if b.sheaves.contains h then (if d then { b with drops := b.drops + 1 } else b) else b.count h d

/-- What exits of threads of a home sheaf do at its barriers: the drop of its last thread (R44), or the arrival they complete
(R42). -/
def exitBarriers (c : Crew) (h : Nat) : Crew :=
  (List.range 16).foldl (fun c i =>
    let b := c.barrier i
    if (liveLanes (c.sheaf h)).isEmpty then
      if b.expect = 0 then c else { c with barriers := Map.put c.barriers i (b.implicit h true) }
    else if b.expect != 0 && !b.sheaves.contains h && (b.threads.any fun q => q.1 == h) && sheafArrived c b h then
      { c with barriers := Map.put c.barriers i (b.implicit h (sheafDrops b h)) }
    else c) c

/-! ## Reconvergence (R85) -/

/-- The threads of a role that took part in a divergence and have not reconverged, live: those with its record and those
whose record of it a 17th discarded. -/
def divThreads (c : Crew) (role id : Nat) : List (Nat × Nat) :=
  (List.range c.sheaves.length).flatMap fun h =>
    if (c.sheaf h).role = role then
      ((List.range 32).map fun l => (l, h)).filter fun p =>
        !(c.thread p).exited && (((c.thread p).divs.any fun d => d.id == id) || (c.thread p).lost.contains id)
    else []

/-- Reconverges a divergence in a thread: its innermost record goes, its control set as it was; a thread whose record was
discarded keeps its control set. -/
def popDiv (id : Nat) (t : Thread) : Thread :=
  let t := { t with lost := t.lost.filter (· != id) }
  match t.divs with
  | d :: rest => if d.id = id then { t with octx := d.saved, divs := rest } else t
  | [] => t

/-- Whether a thread's record of a divergence is its innermost, or has been discarded. -/
def innermost (id : Nat) (t : Thread) : Bool := t.divs.head?.map (·.id) == some id || t.lost.contains id

/-- Reconverges the innermost divergences of threads that all stand at an entry. -/
def reconverge (fuel : Nat) (c : Crew) (role : Nat) (a : Dword) : Crew :=
  match fuel with
  | 0 => c
  | n + 1 =>
    let ids := dedup ((List.range c.sheaves.length).flatMap fun h =>
      if (c.sheaf h).role = role then
        (c.sheaf h).threads.flatMap fun t => if !t.exited && t.clause == a then (t.divs.head?.map (·.id)).toList ++ t.lost else []
      else [])
    let met := ids.filter fun i => (divThreads c role i).all fun p =>
      (c.thread p).clause == a && innermost i (c.thread p)
    match met with
    | [] => c
    | i :: _ => reconverge n (c.modThreads (divThreads c role i) fun _ => popDiv i) role a

/-- Reconverges the divergences of a role wherever its threads stand. -/
def reconvergeRole (c : Crew) (role : Nat) : Crew :=
  (dedup (c.sheaves.flatMap fun z =>
    if z.role = role then (z.threads.filter fun t => !t.exited && !(t.divs.isEmpty && t.lost.isEmpty)).map fun t => t.clause.toNat else [])).foldl
    (fun c a => reconverge 512 c role (dword a)) c

/-! ## Exit (R26, R27, R191) -/

/-- Causes that wait for threads that have exited go to the driver, and count in the completion record (R281). -/
def exitPosted (s : State) (crew : Nat) : State :=
  match s.gridOf crew with
  | none => s
  | some (w, g) =>
    let live (p : Nat × Nat) : Bool := !(w.thread p).exited
    let gone := w.posted.filter fun p => !p.threads.any live
    let s := s.modCrew crew fun c => { c with posted := (c.posted.filter fun p => p.threads.any live) }
    gone.foldl (fun s p =>
      (s.toDriver g.vf [{ crewRec s g.vf w.grid w ((p.threads.head?.map (·.2)).getD 0) 0 0 p.faddr with
          kind := 3, cause := causeCode p.cause }]).modGrid w.grid fun d =>
        { d with faults := d.faults + 1, first := some (d.first.getD p.cause) }) s

/-- Takes exited threads out of their issue group; a group without members goes. -/
def leaveGroup (c : Crew) (grp : Nat) (ps : List (Nat × Nat)) : Crew :=
  match Map.find? c.groups grp with
  | none => c
  | some g =>
    let ms := g.members.filter fun p => !ps.contains p
    let g := { g with members := ms, reopen := (g.reopen.map fun r => (r.1, r.2.filter fun l => ms.any fun m => m.1 == l)).filter
                        fun r => !r.2.isEmpty }
    if ms.isEmpty then { c with groups := Map.del c.groups grp } else { c with groups := Map.put c.groups grp g }

/-- The threads leave: their exits, the barriers, the group. -/
def exitThreads (c : Crew) (grp : Nat) (ps : List (Nat × Nat)) : Crew :=
  let c := c.modThreads ps fun _ t => { t with exited := true, ck := none, barWait := none }
  freeSheaves (leaveGroup ((homesOf ps).foldl exitBarriers c) grp ps)

/-- EXIT (R191): the issue group releases its fast buffer where no region of it is open or pending (R71), and divergences of which only
threads in one entry are left reconverge (R85). -/
def execExit (g : Guard) (s : State) : Outcome State Fault Refusal :=
  match issuer s g with
  | none => .refused .noIssuer
  | some x =>
    if x.grp.episode.isSome then .next (s.leaveEpisode x.cur.crew x.cur.group)
    else
      match endOutside x s with
      | .error e => settle s x x.active x.cur.index (baseSets x x.present g) e
      | .ok (y, s') =>
        let y := if x.active.isEmpty then y else { y with crew := stateChange y.crew y.grp.role y.cur.addr }
        let s1 := restartNext (advanceGroup (y.put s') x.cur) x
        let s1 := s1.modCrew x.cur.crew fun c => reconvergeRole (exitThreads c x.cur.group x.active) x.grp.role
        let s1 := freeFamily s1 x.cur.crew x.grp.family
        .next (finishIssue (exitPosted s1 x.cur.crew) x.cur)

/-! ## Traps and their return (R203, R204, R206) -/

/-- The crew after a trap instruction's issue by every thread of its group: the last of a clause with Y or YIELD makes the clause a
switch point (R34, R161). -/
def trapSwitch (x : Iss) : Iss :=
  if x.active.length = x.present.length ∧ bitsOf x.cur.hdr.toNat 3 0 < x.cur.first + x.cur.len ∧
      (x.cur.hdr.getLsbD 27 || (x.grp.active.map hasYield).getD false) then
    { x with crew := switchPoint x.crew x.grp.role }
  else x

/-- TRAP (R203): an issue without an active thread commits; else the active threads take the trap, and the others meet the
instruction again without it. Where the grid has no handler, or a thread is in it, the region ends before the grid fails (R65). -/
def execTrap (code : Fin 32) (g : Guard) (s : State) : Outcome State Fault Refusal :=
  match issuer s g with
  | none => .refused .noIssuer
  | some x =>
    if x.grp.episode.isSome then .next (s.leaveEpisode x.cur.crew x.cur.group)
    else if x.active.isEmpty then
      commitOp s g (fun x => baseSets x x.present g) (fun _ => .ok ()) fun _ y s => .ok (y.put s, none)
    else if x.grid.desc.handler = 0 || x.active.any fun p => (x.crew.thread p).handler then
      match x.endRegion (lanesIn x.present) s with
      | .error e => settle s x x.active x.cur.index (baseSets x x.active g) e
      | .ok (y, s) => .next (raiseCause (y.put s) y x.active (.swTrap code) x.cur.index (baseSets x x.active g) [])
    else .next (raiseCause s (trapSwitch x) x.active (.swTrap code) x.cur.index (baseSets x x.active g) [])

/-- BRK (R204). -/
def execBrk (g : Guard) (s : State) : Outcome State Fault Refusal :=
  match issuer s g with
  | none => .refused .noIssuer
  | some x =>
    if x.grp.episode.isSome then .next (s.leaveEpisode x.cur.crew x.cur.group)
    else if x.active.isEmpty then .next (advance s x.cur)
    else .next (raiseCause s (trapSwitch x) x.active .breakpoint x.cur.index (baseSets x x.active g) [])

/-- The maps that the threads of a TRET reopen. -/
def tretMaps (x : Iss) : List (RegionMap × List Nat) :=
  let ms := dedupMaps (x.active.filterMap fun p => (x.crew.thread p).trapMap)
  ms.map fun m => (m, lanesIn (x.active.filter fun p => (x.crew.thread p).trapMap == some m))

/-- The effect of TRET: the active threads leave the handler, their maps pending; the others go on at the next clause. -/
def tretBody (retry : Bool) (s : State) (x : Iss) : Except Stop State :=
  match x.endRegion (lanesIn x.present) s with
  | .error e => .error e
  | .ok (y, s) =>
    let rest := x.present.filter fun p => !x.active.contains p
    let c := y.crew.modThreads x.active fun _ t => returnThread retry s.seq t
    let c := c.modThreads rest fun _ t => { t with clause := x.next, index := 1, reached := s.seq }
    let none_ := lanesIn (x.active.filter fun p => (x.crew.thread p).trapMap.isNone)
    let out := (lanesIn rest ++ none_).filter fun _ => x.isH
    let reo := y.grp.reopen ++ tretMaps x ++ (if out.isEmpty then [] else [(implicitMap, out)])
    let g := { y.grp.endClause with wait := .none, reopen := reo }
    let c := if x.cur.hdr.getLsbD 27 || (x.grp.active.map hasYield).getD false then switchPoint c g.role else c
    let s := ({ y with crew := c, grp := g } : Iss).put { s with seq := s.seq + 1, cur := none }
    let s := s.modCrew x.cur.crew fun c => restartPoint c x.present
      (fun l => (reo.find? fun p => p.2.contains l).map fun p => p.1) s.seq
    .ok (s.modCrew x.cur.crew fun c => splitByPc c x.cur.group x.present)

/-- TRET: RETURNING FROM AN EXCEPTION (R206). A cause it raises is not nested (R64). -/
def tretOp (retry : Bool) (g : Guard) (s : State) : Outcome State Fault Refusal :=
  match issuer s g with
  | none => .refused .noIssuer
  | some x =>
    if x.grp.episode.isSome then .next (s.leaveEpisode x.cur.crew x.cur.group)
    else
      let sets := baseSets x x.active g
      if x.active.any fun p => !(x.crew.thread p).handler then
        .next (raiseFrom true s x x.active .illOperand x.cur.index sets [])
      else
        match tretBody retry s x with
        | .ok s' => .next (finishIssue (freeBuffer s' x.cur.crew x.cur.group) x.cur)
        | .error (.raise c fa) => .next (raiseFrom true s x x.active c x.cur.index sets fa)
        | .error e => settle s x x.active x.cur.index sets e

/-- TRET.NEXT (R206). -/
def execTretNext (g : Guard) (s : State) : Outcome State Fault Refusal := tretOp false g s

/-- TRET.RETRY (R206). -/
def execTretRetry (g : Guard) (s : State) : Outcome State Fault Refusal := tretOp true g s

/-! ## Regions (R194, R195) -/

/-- The registers a region head would map beyond the budget of its role. -/
def overBudget (x : Iss) (base : Nat) (m : Word) : Bool :=
  (List.range 32).any fun i => m.getLsbD i && decide (roleBudget x.crew x.grp.role ≤ 8 * base + i)

/-- The bits of a mask within the budget of a role. -/
def maskIn (x : Iss) (base : Nat) (m : Word) : Word :=
  word ((List.range 32).foldl (fun a i => if m.getLsbD i && decide (8 * base + i < roleBudget x.crew x.grp.role) then a + 2 ^ i else a) 0)

/-- Marks every slot of some lanes as invalid: the slots of a region that an episode opens by an invalid mask (DESIGN CHOICE,
assumption 68). -/
def doubtSlots (g : Group) (ls : List Nat) : Group :=
  match g.episode with
  | none => g
  | some e =>
    let ks := ls.flatMap fun l => (List.range 32).map fun i => (l, i)
    { g with episode := some { e with invSlot := (e.invSlot.filter fun k => !ls.contains k.1) ++ ks } }

/-- Opens the region of a head in the issuing threads, the head being a restart point. -/
def openHead (s : State) (x y : Iss) (m : RegionMap) (doubt : Bool) : Except Stop State :=
  let ls := lanesIn x.present
  let c := if x.grp.episode.isSome then y.crew else restartPoint y.crew x.present (fun _ => none) s.seq
  match openMarked c y.grp m ls s.osets with
  | .error e => .error (.raise e [])
  | .ok (c, g, t) =>
    let s := countCore s x.crew.core x.grid 0x0007
    .ok (({ y with crew := c, grp := if doubt then doubtSlots g ls else g } : Iss).put { s with osets := t })

/-- The effect of RGN and RGNR. -/
def headBody (s : State) (restart : Bool) (base : Fin 32) (mask : Operand) (nra : Bool) (x : Iss) : Except Stop State :=
  let doubt := opInv x (mask, 1) (leadOf x)
  let m := if doubt then maskIn x base.val (val32 x mask (leadOf x)) else val32 x mask (leadOf x)
  if overBudget x base.val m then .error (.raise .illOperand [])
  else
    match x.endRegion (lanesIn x.present) s with
    | .error e => .error e
    | .ok (y, s) =>
      let new : RegionMap :=
        { base := base.val, mask := m, maskSet := regSet x mask 0 (leadOf x), restartable := restart || x.isH, nra := nra }
      if x.grp.episode.isNone && !bufferRoom s x (openedMaps y.crew y.grp [new]).length then .error (.block .buffer)
      else openHead s x y new doubt

/-- RGN (R194). -/
def execRgn (base : Fin 32) (mask : Operand) (nra : Bool) (_g : Guard) (s : State) : Outcome State Fault Refusal :=
  issueOp s gAlways (fun x => trapSets x [(mask, 1)] [] gAlways) (headBody s false base mask nra)

/-- RGNR (R194). -/
def execRgnr (base : Fin 32) (mask : Operand) (nra : Bool) (_g : Guard) (s : State) : Outcome State Fault Refusal :=
  issueOp s gAlways (fun x => trapSets x [(mask, 1)] [] gAlways) (headBody s true base mask nra)

/-- RGNE (R195). -/
def execRgne (_g : Guard) (s : State) : Outcome State Fault Refusal :=
  match issuer s gAlways with
  | none => .refused .noIssuer
  | some x =>
    match endOutside x s with
    | .error e => settle s x x.present x.cur.index (baseSets x x.present gAlways) e
    | .ok (y, s') =>
      .next (finishIssue (restartNext (freeBuffer (advanceGroup (y.put s') x.cur) x.cur.crew x.cur.group) x) x.cur)

/-- NOP (R193). -/
def execNop (_g : Guard) (s : State) : Outcome State Fault Refusal := issueOp s gAlways (fun _ => []) fun _ => .ok s

/-- YIELD (R192): its clause is a switch point, which `advance` makes as its last group issues. -/
def execYield (_g : Guard) (s : State) : Outcome State Fault Refusal := issueOp s gAlways (fun _ => []) fun _ => .ok s

end Sys2Proof.Machine
end

