-- ==== Sys2Proof/Machine/Streams.lean ====
section
/-! DEFINITION. The log streams of recorded accesses, and the order gate of a slice (18_observation.md R413, R414). -/

namespace Sys2Proof.Machine

/-! ## Streams -/

/-- The slice-local index of a physical slice (R125). -/
def sliceIndex (c : PartCfg) (k : Nat) : Nat := (c.slices.findIdx? fun z => z == k).getD 0

/-- Where a chunk of a stream lies in host memory. -/
def chunkAddr (r : Replay) (j off : Nat) : Nat := r.base.toNat + j * r.size.toNat + off

/-- A chunk of a requester's consecutive accesses. -/
def chunkBytes (who n : Nat) : List Byte := bytesOf 8 (who * 2 ^ 24 + n)

/-- Writes the open chunk of a stream where it has one, and moves past it. -/
def closeChunk (s : State) (vf j : Nat) : State :=
  let r := (s.vf vf).replay
  let (off, who, n) := Map.get r.streams j (0, 0, 0)
  if n = 0 then s
  else
    let s := { s with host := Memory.writeN s.host (chunkAddr r j off) (chunkBytes who n) }
    s.modVf vf fun v => { v with replay := { v.replay with streams := Map.put v.replay.streams j (off + 8, 0, 0) } }

/-- Records an access of a requester (R413): it extends the open chunk or opens another; a full stream records no more. -/
def recordAccess (s : State) (vf j who : Nat) : State :=
  let (_, q, n) := Map.get (s.vf vf).replay.streams j (0, 0, 0)
  if q = who ∧ 1 ≤ n ∧ n + 1 < 2 ^ 24 then
    s.modVf vf fun v => { v with replay := { v.replay with
      streams := Map.upd v.replay.streams j (0, 0, 0) fun (c : Nat × Nat × Nat) => (c.1, q, n + 1) } }
  else
    let s := closeChunk s vf j
    let (off, _, _) := Map.get (s.vf vf).replay.streams j (0, 0, 0)
    if (s.vf vf).replay.size.toNat < off + 8 then
      s.modVf vf fun v => { v with replay := { v.replay with stat := v.replay.stat ||| 4 } }
    else s.modVf vf fun v => { v with replay := { v.replay with streams := Map.put v.replay.streams j (off, who, 1) } }

/-- Brings the head chunk of a replayed stream in; none where the stream is exhausted. -/
def headChunk (s : State) (vf j : Nat) : Option (Nat × Nat × Nat) :=
  let r := (s.vf vf).replay
  let (off, who, n) := Map.get r.streams j (0, 0, 0)
  if 1 ≤ n then some (off, who, n)
  else if r.size.toNat < off + 8 then none
  else
    let c := Memory.num s.host (chunkAddr r j off) 8
    if c % 2 ^ 24 = 0 then none else some (off + 8, c / 2 ^ 24, c % 2 ^ 24)

/-- Passes a recorded access by the order gate of its slice (R414) or into its log (R413): none while it is held. -/
def passGate (s : State) (vf slice who : Nat) : Option State :=
  let v := s.vf vf
  let j := sliceIndex v.cfg slice
  if v.replay.mode = 1 then some (recordAccess s vf j who)
  else if v.replay.mode = 2 then
    match headChunk s vf j with
    | none => some (s.modVf vf fun v => { v with replay := { v.replay with stat := v.replay.stat ||| 2 } })
    | some (off, r, n) =>
      if r = who then
        some (s.modVf vf fun v => { v with replay := { v.replay with streams := Map.put v.replay.streams j (off, r, n - 1) } })
      else none
  else some s

end Sys2Proof.Machine
end

