-- ==== Sys2Proof/Machine/Control.lean ====
section
/-! DEFINITION. Waits, barriers, child grids, migration, special registers and progress points (02_execution.md R39, R41 to R45,
R58; 03_registers.md R77, R78; 08_isa_control.md R197 to R202, R207 to R209). -/

namespace Sys2Proof.Machine

open Host (Outcome)

/-! ## WAITF (R197) -/

/-- The causes posted for present threads at a flag (R281, R286): the first such entry, and what is left of the list. -/
def postedAt (x : Iss) (f : Nat → Bool) : Option (Posted × List (Nat × Nat) × List Posted) :=
  let due (p : Posted) : Bool := (match p.flag with | some i => f i | none => false) && p.threads.any fun q => x.present.contains q
  match x.crew.posted.find? due with
  | none => none
  | some p =>
    let rest := p.threads.filter fun q => !x.present.contains q
    some (p, p.threads.filter fun q => x.present.contains q,
      x.crew.posted.flatMap fun q => if q == p then (if rest.isEmpty then [] else [{ p with threads := rest }]) else [q])

/-- WAITF (R197, R281). A wait of it has an episode at most once, until its flag is met (R313). -/
def execWaitf (flag : Fin 12) (thr : Fin 64) (_g : Guard) (s : State) : Outcome State Fault Refusal :=
  match issuer s gAlways with
  | none => .refused .noIssuer
  | some x =>
    if x.grp.episode.isSome then .next (advance s x.cur)
    else
      match postedAt x fun i => i == flag.val with
      | some (p, ts, rest) =>
        let y := { x with crew := { x.crew with posted := rest } }
        .next (raiseCause (y.put s) y ts p.cause x.cur.index (baseSets x ts gAlways) (ts.map fun q => (q.1, p.faddr)))
      | none =>
        let fresh : Iss := { x with grp := { x.grp with ranWait := false, noShadow := false } }
        if flagMet x.crew x.present flag.val thr.val then .next (advance (fresh.put s) x.cur)
        else
          settle s (if x.grp.wait = .waitf flag.val thr.val then x else fresh) x.present x.cur.index (baseSets x x.present gAlways)
            (.block (.waitf flag.val thr.val))

/-! ## Barriers (R198, R199) -/

/-- The completed phases that a thread at BARW waits for (R43); 0 where it returns at once. -/
def waitTarget (b : Barrier) (p : Nat × Nat) : Nat :=
  if b.expect = 0 then 0
  else if b.sheaves.contains p.2 || b.threads.any fun q => q.1 == p.2 && q.2.1 == p.1 then b.phases + 1
  else
    match Map.find? b.last p.2 with
    | some n => if n < b.phases then 0 else b.phases + 1
    | none => b.phases + 1

/-- The completed phases that a thread at BARS waits for, its arrival made: those of the phase it arrived in. -/
def arrivedTarget (before after : Barrier) (p : Nat × Nat) : Nat :=
  if before.phases < after.phases ∧ sheafIn after p.2 then (Map.get after.last p.2 before.phases) + 1 else before.phases + 1
where
  /-- Whether a home sheaf's arrival was counted after the phase before. -/
  sheafIn (b : Barrier) (h : Nat) : Bool :=
    match Map.find? b.last h with
    | some n => decide (before.phases ≤ n)
    | none => false

/-- Whether a thread's wait at a barrier is over. -/
def waitOver (c : Crew) (p : Nat × Nat) : Bool :=
  match (c.thread p).barWait with
  | some (b, n) => decide (n ≤ (c.barrier b).phases)
  | none => true

/-- Sets the waits of threads at a barrier. -/
def setWaits (c : Crew) (b : Nat) (f : Nat × Nat → Nat) (ps : List (Nat × Nat)) : Crew :=
  c.modThreads ps fun p t => { t with barWait := some (b, f p) }

/-- The end of a wait: an acquire at crew scope once every thread's phase has completed. -/
def barrierDone (y : Iss) (b : Nat) (ps : List (Nat × Nat)) (s : State) : Except Stop Done :=
  if ps.all fun p => waitOver y.crew p then
    match acquired s y .crew fun s =>
      .ok (({ y with crew := y.crew.modThreads ps fun _ t => { t with barWait := none } } : Iss).put s, none) with
    | .error (.block w) => .ok (y.put s, some w)
    | r => r
  else .ok (y.put s, some (.bar b))

/-- Whether a thread already stands in a wait at a barrier: its arrival or decision is made. -/
def standing (x : Iss) (b : Nat) (p : Nat × Nat) : Bool :=
  match (x.crew.thread p).barWait with
  | some (i, _) => i == b
  | none => false

/-- The arrivals of an instruction's active threads that do not stand in the wait already. -/
def newArrivals (x : Iss) (b : Nat) : List (Nat × Nat) := x.active.filter fun p => !standing x b p

/-- BARA and BARD: a release at crew scope, then the arrivals. -/
def arriveBody (b : Nat) (drop : Bool) (x y : Iss) (s : State) : Except Stop Done :=
  if x.active.isEmpty then .ok (y.put s, none)
  else
    match arriveThreads y.crew (y.crew.barrier b) x.active drop with
    | .error c => .error (.raise c [])
    | .ok br =>
      released s y .crew fun s =>
        let y := { y with crew := { y.crew with barriers := Map.put y.crew.barriers b br } }
        .ok ((y : Iss).changed.put s, none)

/-- BARS: a release and the arrival, made once, then the wait (R199). -/
def syncBody (b : Nat) (x y : Iss) (s : State) : Except Stop Done :=
  if x.active.isEmpty then .ok (y.put s, none)
  else if (newArrivals x b).isEmpty then barrierDone y b x.active s
  else
    let old := y.crew.barrier b
    match arriveThreads y.crew old (newArrivals x b) false with
    | .error c => .error (.raise c [])
    | .ok br =>
      released s y .crew fun s =>
        let c := setWaits { y.crew with barriers := Map.put y.crew.barriers b br } b (arrivedTarget old br) (newArrivals x b)
        barrierDone ({ y with crew := c } : Iss).changed b x.active s

/-- BARW: the decision of R43, made once, then the wait. -/
def waitBody (b : Nat) (x y : Iss) (s : State) : Except Stop Done :=
  if x.active.isEmpty then .ok (y.put s, none)
  else
    let c := setWaits y.crew b (waitTarget (y.crew.barrier b)) (newArrivals x b)
    barrierDone { y with crew := c } b x.active s

/-- Runs a barrier instruction. -/
def barrierOp (g : Guard) (body : Iss → Iss → State → Except Stop Done) (s : State) : Outcome State Fault Refusal :=
  commitOp s g (fun x => baseSets x x.active g) (fun _ => .ok ()) body

/-- BARS (R198, R199). -/
def execBars (b : Fin 16) (g : Guard) (s : State) : Outcome State Fault Refusal := barrierOp g (syncBody b.val) s

/-- BARA (R198). -/
def execBara (b : Fin 16) (g : Guard) (s : State) : Outcome State Fault Refusal := barrierOp g (arriveBody b.val false) s

/-- BARW (R198, R199). -/
def execBarw (b : Fin 16) (g : Guard) (s : State) : Outcome State Fault Refusal := barrierOp g (waitBody b.val) s

/-- BARD (R198). -/
def execBard (b : Fin 16) (g : Guard) (s : State) : Outcome State Fault Refusal := barrierOp g (arriveBody b.val true) s

/-! ## LAUNCH (R200) -/

/-- The two halves of a descriptor as accesses of the launching thread. -/
def descAccs (s : State) (x : Iss) (p : Nat × Nat) (va : Nat) : Except Stop (List Acc × State) :=
  genericAll s { x with active := [p] } 64 1 0 none [{ who := p, addr := va, data := [] }, { who := p, addr := va + 64, data := [] }]

/-- Passes the recorded accesses among the two halves by the order gates of their slices, both at once (R412): none while one is held. -/
def gateDesc (s : State) (vf : Nat) (as : List Acc) : Option State :=
  as.foldl (fun (o : Option State) a => o.bind fun s =>
    match a.who with
    | some who => passGate s vf (sliceOf (s.vf vf).cfg a.pa) who
    | none => some s) (some s)

/-- Whether a placement hint is formed as R200 asks. -/
def hintOk (h : Nat) : Bool := h == 0 || (h / 65536 == 0 && bitsOf h 15 12 == 1)

/-- Accepts a child grid: it stands in its parent's queue and begins (R200). -/
def acceptChild (s : State) (y : Iss) (d : Desc) (hint : Nat) (set : OSet) : State × Nat :=
  let gid := s.nextGrid
  let g := Grid.accept y.grid.vf y.grid.queue y.grid.proc (y.grid.depth + 1) d (some y.cur.crew) hint y.grid.seq s.seq set none
  let s := { s with grids := Map.put s.grids gid g, nextGrid := gid + 1, seq := s.seq + 1 }
  let s := s.modGrid y.crew.grid fun p => { p with children := p.children ++ [gid] }
  (beginGrid s gid, gid)

/-- Whether a descriptor that a crew launches obeys Table 2.2, R14 and R23. -/
def childOk (x : Iss) (d : Desc) : Bool := d.ok && bitOf d.flags 0 == x.isH && (!x.isH || bitOf d.flags 3)

/-- The launch once its checks have passed: the release, the acceptance, the result. -/
def launchGo (x y : Iss) (o : Operand) (d : Desc) (hint : Nat) (set : OSet) (s : State) : Except Stop Done :=
  released s y .dev fun s =>
    if !gridRoom s x.grid.vf then .ok (y.put s, some (.launch 0))
    else
      let gid := s.nextGrid
      match commitRegs x y o [word gid, word (gid / 2 ^ 32)] set s.osets with
      | .error e => .error e
      | .ok (y, t) =>
        let y := ({ y with crew := { y.crew with children := y.crew.children ++ [gid] } } : Iss).changed
        .ok ((acceptChild (y.put { s with osets := t }) y d hint set).1, none)

/-- What the LAUNCH that issues has read while it waited: its descriptor and the sets of the granules. -/
def Iss.heldDesc (x : Iss) : Option (List Byte × List OSet) :=
  x.grp.active.bind fun a => a.launch.bind fun r => if r.1 = x.cur.index then some r.2 else none

/-- Keeps what the LAUNCH that issues has read, should it have to wait. -/
def Iss.holdDesc (y : Iss) (r : List Byte × List OSet) : Iss :=
  { y with grp := { y.grp with active := y.grp.active.map fun a => { a with launch := some (y.cur.index, r) } } }

/-- The descriptor of a LAUNCH and the sets of its granules, read once: lines that miss are asked for first (R311), and a recorded
range passes the order gate. It answers what was read and the state, or the state and the wait. -/
def readDesc (s : State) (x y : Iss) (l : Nat × Nat) (va : Nat) :
    Except Stop (((List Byte × List OSet) × State) ⊕ (State × Wait)) :=
  match x.heldDesc with
  | some r => .ok (.inl (r, s))
  | none =>
    match descAccs s x l va with
    | .error e => .error e
    | .ok (as, s) =>
      let ks := missKeys s x.crew.core as
      if !ks.isEmpty then
        match startMisses s x.crew.core x.grid.vf x.isH CacheP.none as with
        | .error e => .error e
        | .ok s => .ok (.inr (s, .desc ks))
      else
        match gateDesc s x.grid.vf as with
        | none => .ok (.inr (s, .desc []))
        | some s =>
          .ok (.inl ((as.flatMap fun q => readAcc (y.put s) x.cur.crew x.crew.core x.grid.vf s.seq q,
                      as.map fun q => accSet s x.cur.crew q), s))

/-- The checks of LAUNCH in their order, then the launch. -/
def launchBody (d a b : Operand) (g : Guard) (x y : Iss) (s : State) : Except Stop Done :=
  match lowActive x with
  | none => .ok (y.put s, none)
  | some l =>
    let va := (val64 x a l).toNat
    let hint := (val32 x b l).toNat
    if !hintOk hint then .error (.raise .illOperand [])
    else if x.grid.depth = 10 then .error (.raise .launchDepth [])
    else if va % 64 != 0 then .error (.raise .misaligned [(l.1, dword va)])
    else
      match readDesc s x y l va with
      | .error e => .error e
      | .ok (.inr (s, w)) => .ok (y.put s, some w)
      | .ok (.inl (r, s)) =>
        let desc := Desc.read r.1
        if !childOk x desc then .error (.raise .launchDesc [])
        else if hint != 0 && !Map.has (s.vf x.grid.vf).placeClu (hint % 4096) then .error (.raise .remoteUnreachable [])
        else
          match osJoinAll s.osets 0 (resultSets x x.active [(a, 2), (b, 1)] [] false g ++ r.2) with
          | .error e => .error (.raise e [])
          | .ok (set, tb) => launchGo x (y.holdDesc r) d desc hint set { s with osets := tb }

/-- LAUNCH (R200). -/
def execLaunch (d a b : Operand) (g : Guard) (s : State) : Outcome State Fault Refusal :=
  commitOp s g (fun x => trapSets x [(a, 2), (b, 1)] [] g)
    (fun x =>
      match checkOperands x x.active [(a, 2), (b, 1), (d, 2)] with
      | .error e => .error e
      | .ok () => if xregForbidden x d x.active then .error (.raise .illXregWrite []) else .ok ())
    (launchBody d a b g)

/-! ## JOINC (R201) -/

/-- The children a JOINC of the issuing threads waits for: those accepted before it began to wait, which its threads keep through
an eviction, a pre-emption or a retry (R201, R210). -/
def joinDue (y : Iss) : List Nat :=
  ((y.present.findSome? fun p => (y.crew.thread p).joinWait).getD y.crew.children).filter fun i => y.crew.children.contains i

/-- Notes in the issuing threads what a JOINC waits for. -/
def Iss.joining (y : Iss) (v : Option (List Nat)) : Iss :=
  { y with crew := y.crew.modThreads y.present fun _ t => { t with joinWait := v } }

/-- JOINC: it waits for the children accepted before it began to wait, then acquires at dev scope. -/
def joinBody (y : Iss) (s : State) : Except Stop Done :=
  if (joinDue y).isEmpty then
    match acquired s y .dev fun s => .ok ((y.joining none).put s, none) with
    | .error (.block w) => .ok ((y.joining (some [])).put s, some w)
    | r => r
  else .ok ((y.joining (some (joinDue y))).put s, some (.joinc (joinDue y)))

/-- JOINC (R201). -/
def execJoinc (_g : Guard) (s : State) : Outcome State Fault Refusal :=
  commitOp s gAlways (fun x => baseSets x x.present gAlways) (fun _ => .ok ()) fun _ y s => joinBody y s

/-! ## MIGR (R58, R202) -/

/-- Whether a crew is a solo crew (R58). -/
def soloCrew (c : Crew) (g : Grid) : Bool :=
  c.sheaves.length == 1 && decide (g.desc.scratch ≤ 16384) &&
    !c.rings.any fun r => decide (r.1 < 8) && decide (1 < r.2.readers)

/-- The die of the slice that homes a local physical address (R58). -/
def homeDie (s : State) (vf pa : Nat) : Nat := sliceOf (s.vf vf).cfg pa / 128

/-- Whether a thread of a crew is in its trap handler. -/
def inHandler (c : Crew) : Bool := c.sheaves.any fun h => h.threads.any fun t => t.handler && !t.exited

/-- The effect of MIGR with an active lane; a sheaf in its trap handler waits (R202). -/
def migrateBody (l : Nat × Nat) (va : Dword) (x y : Iss) (s : State) : Except Stop Done :=
  if !soloCrew x.crew x.grid then .error (.raise .migrCrew [])
  else
    match placeOf s x.crew.core x.grid va.toNat 1 true with
    | .error e => .error (raiseAccess [(l.1, va.toNat, .inr e)] false false)
    | .ok (p, s) =>
      if (y.crew.sheaf l.2).flags.any fun f => f.2 != 0 then .ok (y.put s, some (.migr va))
      else if p.dev != 0 || homeDie s x.grid.vf p.pa == dieOf x.crew.core then .ok (y.put s, none)
      else if inHandler y.crew then .ok (y.put s, some (.migr va))
      else .ok (y.put s, some (.landing (homeDie s x.grid.vf p.pa)))

/-- MIGR (R202): the move itself is the step MIGRATION_MOVE. -/
def execMigr (a : Operand) (g : Guard) (s : State) : Outcome State Fault Refusal :=
  commitOp s g (fun x => trapSets x [(a, 2)] [] g) (fun x => checkOperands x x.active [(a, 2)]) fun x y s =>
    match lowActive x with
    | none => .ok (y.put s, none)
    | some l => migrateBody l (val64 x a l) x y s

/-! ## Special registers (R77, R78, R207, R208) -/

/-- The control set of the issuing entry, joined into one index. -/
def octxOf (x : Iss) (t : Map OEntry) : Except Cause (OSet × Map OEntry) :=
  osJoinAll t 0 (entrySets x.crew x.grp.role x.cur.addr)

/-- A special register as a thread sees it (Table 3.3); `octx` is its control set. -/
def specialValue (s : State) (x : Iss) (octx : OSet) (n : Nat) (p : Nat × Nat) : Word :=
  let t := x.crew.thread p
  let d := x.grid.desc
  let i := 32 * p.2 + p.1
  match n with
  | 0 => word p.1
  | 1 => word (i % d.cx)
  | 2 => word (i / d.cx % d.cy)
  | 3 => word (i / (d.cx * d.cy))
  | 4 => word (x.crew.index % d.gx)
  | 5 => word (x.crew.index / d.gx % d.gy)
  | 6 => word (x.crew.index / (d.gx * d.gy))
  | 7 => word d.gx
  | 8 => word d.gy
  | 9 => word d.gz
  | 10 => word d.cx
  | 11 => word d.cy
  | 12 => word d.cz
  | 13 => word p.2
  | 14 => word (x.crew.sheaf p.2).role
  | 15 => word x.grid.depth
  | 16 => word x.crew.grid
  | 17 => word (x.crew.grid / 2 ^ 32)
  | 18 => lo32 (s.core x.crew.core).clock
  | 19 => t.clockLat.getD (hi32 (s.core x.crew.core).clock)
  | 20 => lo32 s.gtime
  | 21 => t.gtimeLat.getD (hi32 s.gtime)
  | 22 => word t.rmode.code
  | 23 => if x.isH then 1 else 0
  | 24 => BitVec.ofNat 32 t.cause.toNat
  | 25 => lo32 t.faddr
  | 26 => hi32 t.faddr
  | 27 => t.tpc
  | 28 => word t.ptsel.val
  | 29 => word octx
  | 30 => word (logicalCore s x.grid.vf x.crew.core)
  | 31 => word x.crew.sheaves.length
  | _ => BitVec.ofNat 32 t.fpx.toNat

/-- The set a special register is read with (R78). -/
def specialSet (n : Nat) (t : Thread) : OSet :=
  match n with
  | 22 => t.rmodeS
  | 28 => t.ptselS
  | 32 => t.fpxS
  | 24 | 25 | 26 | 27 => t.trapS
  | _ => 0

/-- The latches a read of a clock word makes or takes (R78). Every active thread of the RDSR makes or takes its own, also those
whose value a k destination does not take (DESIGN CHOICE, assumption 84). -/
def latch (s : State) (core n : Nat) (t : Thread) : Thread :=
  match n with
  | 18 => { t with clockLat := some (hi32 (s.core core).clock) }
  | 19 => { t with clockLat := none }
  | 20 => { t with gtimeLat := some (hi32 s.gtime) }
  | 21 => { t with gtimeLat := none }
  | _ => t

/-- The effect of RDSR. -/
def rdsrBody (s : State) (d : Operand) (n : Nat) (g : Guard) (x : Iss) : Except Stop State :=
  if x.active.isEmpty then .ok (idle s x d 1 g)
  else
    match checkOperands x x.active [(d, 1)] with
    | .error e => .error e
    | .ok () =>
      if xregForbidden x d x.active then .error (.raise .illXregWrite [])
      else
        match octxOf x s.osets with
        | .error e => .error (.raise e [])
        | .ok (oc, t) =>
          match osJoinAll t 0 (resultSets x x.active [] [] false g ++ dedup (x.active.map fun p => specialSet n (x.crew.thread p))) with
          | .error e => .error (.raise e [])
          | .ok (set, t) =>
            match vecWrite x d 1 (vecResults x d fun x p => ([specialValue s x oc n p], 0)) g
                (fun x p => laneInv [] [] g x p || specInv x n p) set t with
            | .error e => .error e
            | .ok (y, t) =>
              .ok (({ y with crew := y.crew.modThreads x.active fun _ th => latch s x.crew.core n th } : Iss).put { s with osets := t })

/-- RDSR (R207). -/
def execRdsr (d : Operand) (n : Fin 33) (g : Guard) (s : State) : Outcome State Fault Refusal :=
  issueOp s g (fun x => trapSets x [] [] g) (rdsrBody s d n.val g)

/-- A write of a special register by its rules (R78). -/
def writeSpecial (n : Nat) (w : Word) (set : OSet) (t : Thread) : Thread :=
  match n with
  | 22 => { t with rmode := (rmodeOf w.toNat).getD t.rmode, rmodeS := set }
  | 28 => { t with ptsel := if h : w.toNat < 8 then ⟨w.toNat, h⟩ else t.ptsel, ptselS := set }
  | _ => { t with fpx := BitVec.ofNat 5 w.toNat, fpxS := set }

/-- Whether WRSR ignores a value, which leaves the register as it was (R78). -/
def ignored (n : Nat) (w : Word) : Bool := (n == 22 && decide (6 ≤ w.toNat)) || (n == 28 && decide (8 ≤ w.toNat))

/-- Marks a special register in an episode: invalid under an invalid source or guard, valid again after a valid write (R54). -/
def markSpec (x : Iss) (n : Nat) (b : Operand) (g : Guard) : Iss :=
  match x.grp.episode with
  | none => x
  | some e =>
    let bad (p : Nat × Nat) : Bool := opInv x (b, 1) p || predInv x g.pred p
    let ms := (x.active.filterMap fun p => if bad p then some (p, true) else if ignored n (val32 x b p) then none else some (p, false)) ++
      (doubted x g).map fun p => (p, true)
    { x with grp := { x.grp with episode := some { e with invSpec := ms.foldl (fun m v => markOf v.2 m (v.1.1, n)) e.invSpec } } }

/-- The effect of WRSR. -/
def wrsrBody (s : State) (n : Nat) (b : Operand) (g : Guard) (x : Iss) : Except Stop State :=
  if x.active.isEmpty then .ok (if x.grp.episode.isSome then (markSpec x n b g).put s else s)
  else
    match checkOperands x x.active [(b, 1)] with
    | .error e => .error e
    | .ok () =>
      match osJoinAll s.osets 0 (resultSets x x.active [(b, 1)] [] false g) with
      | .error e => .error (.raise e [])
      | .ok (set, t) =>
        let y := { x with crew := x.crew.modThreads x.active fun p th => writeSpecial n (val32 x b p) set th }
        .ok ((if x.grp.episode.isSome then { y with grp := (markSpec x n b g).grp } else y).put { s with osets := t })

/-- WRSR (R208). A number of a read-only register is no instruction: its word raises ILL_OPERAND as it is decoded, for the whole
instruction (Table 7.6 row 11), and so does the term. -/
def execWrsr (n : Fin 33) (b : Operand) (g : Guard) (s : State) : Outcome State Fault Refusal :=
  if specWritable n.val then issueOp s g (fun x => trapSets x [(b, 1)] [] g) (wrsrBody s n.val b g)
  else
    match issuer s g with
    | none => .refused .noIssuer
    | some x => .next (raiseCause s x x.present .illOperand x.cur.index (opSets x x.present (b, 1) ++ baseSets x x.present g) [])

/-! ## Progress points (R209) -/

/-- The holder number of a function. -/
def holderOf (fn : Nat) : Nat := if fn = 0 then pfHolder else fn

/-- Whether a function holds a lease on a core bank or a trace unit. -/
def leasesCore (s : State) (fn : Nat) : Bool :=
  (s.banks.any fun b => b.kind == 1 && b.leased && b.holder == holderOf fn) || s.traces.any fun t => t.2.holder == holderOf fn && !t.2.frozen

/-- The function that holds the trial of a VF: the hypervisor where it has taken it (R406). -/
def trialFn (s : State) (vf : Nat) : Nat := if s.pf.trialHeld && s.pf.trialFor == vf then 0 else vf

/-- Whether a progress point is enabled for a function, in a crew of a VF. -/
def markEnabled (s : State) (vf fn p : Nat) : Bool :=
  let v := s.fn fn
  (trialFn s vf == fn && v.trial.busy && v.trial.pts.getLsbD p) || (v.marken.getLsbD p && leasesCore s fn)

/-- What MARK counts and records: for the VF of its crew, and for the hypervisor, each where it has the point enabled. -/
def markBody (s : State) (p : Nat) (x : Iss) : Except Stop State :=
  if x.active.isEmpty || x.grp.episode.isSome then .ok s
  else
    let fns := [x.grid.vf, 0].filter fun fn => markEnabled s x.grid.vf fn p
    let s := fns.foldl (fun s fn => s.modFn fn fun v => { v with markc := Map.put v.markc p (Map.get v.markc p 0 + 1) }) s
    .ok (traceThreads s x.crew.grid x.grid x.crew 5 p x.cur.addr x.cur.index x.active fun h => (fns.map holderOf).contains h)

/-- MARK (R209). -/
def execMark (p : Fin 64) (g : Guard) (s : State) : Outcome State Fault Refusal :=
  issueOp s g (fun x => baseSets x x.active g) (markBody s p.val)

end Sys2Proof.Machine
end

