-- ==== Sys2Proof/Machine/Rings.lean ====
section
/-! DEFINITION. Ring state and the ring commands (05_memory.md R116 to R119; 11_isa_memory.md R283; 12_isa_matrix.md R293, R304).
-/

namespace Sys2Proof.Machine

open Host (Outcome)

/-! ## Ring state (R117, R118) -/

/-- A free slot. -/
def RingSlot.init : RingSlot := { st := .free, holders := [], releases := 0 }

/-- A slot of a ring. -/
def Ring.slot (r : Ring) (i : Nat) : RingSlot := Map.get r.slots i RingSlot.init

/-- Changes a slot of a ring. -/
def Ring.modSlot (r : Ring) (i : Nat) (f : RingSlot → RingSlot) : Ring := { r with slots := Map.put r.slots i (f (r.slot i)) }

/-- The slot of a unit number; none outside the ring's range. -/
def Ring.indexOf (r : Ring) (u : Nat) : Option Nat := if r.first ≤ u ∧ u < r.first + r.count then some (u - r.first) else none

/-- Reserves the next free slot for a crew: the unit, with the ring (Table 5.4); none while F = 0. -/
def Ring.reserve (r : Ring) (crew : Nat) : Option (Nat × Ring) :=
  if r.free = 0 then none
  else some (r.first + r.rsvCur, { r.modSlot r.rsvCur (fun q => { q with st := .reserved crew }) with
    free := r.free - 1, rsvCur := (r.rsvCur + 1) % r.count })

/-- The publish cursor advances over consecutive Done slots, each adding 1 to every crew's L. -/
def Ring.fill (r : Ring) (fuel : Nat) : Ring :=
  match fuel with
  | 0 => r
  | n + 1 =>
    if (r.slot r.pubCur).st = .done then
      Ring.fill { r.modSlot r.pubCur (fun q => { q with st := .filled }) with
        pubCur := (r.pubCur + 1) % r.count, filled := r.filled.map fun p => (p.1, p.2 + 1) } n
    else r

/-- Publishes a slot. -/
def Ring.publish (r : Ring) (i : Nat) : Ring := (r.modSlot i fun q => { q with st := .done }).fill r.count

/-- A crew claims the slot at its cursor: the unit, with the ring; none while its L = 0. The slot becomes Claimed whatever other crews have
made of it (DESIGN CHOICE, assumption 77). -/
def Ring.take (r : Ring) (crew : Nat) : Option (Nat × Ring) :=
  let i := Map.get r.claim crew 0
  let l := Map.get r.filled crew 0
  if l = 0 then none
  else some (r.first + i, { r.modSlot i (fun q => { q with st := .claimed, holders := insertAsc crew q.holders }) with
    filled := Map.put r.filled crew (l - 1), claim := Map.put r.claim crew ((i + 1) % r.count) })

/-- The free cursor advances over consecutive Returned slots: the ring, with the units that become free. -/
def Ring.drain (r : Ring) (fuel : Nat) : Ring × List Nat :=
  match fuel with
  | 0 => (r, [])
  | n + 1 =>
    if (r.slot r.freeCur).st = .returned then
      let q := Ring.drain { r.modSlot r.freeCur (fun _ => RingSlot.init) with free := r.free + 1, freeCur := (r.freeCur + 1) % r.count } n
      (q.1, (r.first + r.freeCur) :: q.2)
    else (r, [])

/-- A holder's release of a slot: the ring, with the units that become free. -/
def Ring.release (r : Ring) (i crew : Nat) : Ring × List Nat :=
  (r.modSlot i fun q =>
    { q with holders := q.holders.filter (· != crew), releases := q.releases + 1,
             st := if q.releases + 1 = r.readers then .returned else q.st }).drain r.count

/-- Whether a ring is shared by the crews of its cluster (R118). -/
def sharedRing (id : Nat) (r : Ring) : Bool := decide (id < 8) && decide (1 < r.readers)

/-- Changes a ring of a crew; a shared ring changes for every crew that shares it. -/
def modRing (s : State) (crew id : Nat) (f : Ring → Ring) : State :=
  match Map.find? s.crews crew with
  | none => s
  | some c =>
    match Map.find? c.rings id with
    | none => s
    | some r =>
      let r' := f r
      if sharedRing id r then
        { s with crews := s.crews.map fun p =>
            if p.2.grid == c.grid && clusterOf p.2.core == clusterOf c.core && Map.has p.2.rings id then
              (p.1, { p.2 with rings := Map.put p.2.rings id r' })
            else p }
      else s.modCrew crew fun c => { c with rings := Map.put c.rings id r' }

/-- Clears a unit that has become free: every byte zero, its set 0 (Table 5.4). -/
def clearUnits (s : State) (crew id : Nat) (us : List Nat) : State :=
  us.foldl (fun s u => modUnit s crew (ringSpace id) u fun t => { t with mem := [], set := 0 }) s

/-- Whether a crew holds a W or A unit (R293). -/
def holdsUnit (c : Crew) (n : Nat) (sp : TSpace) (u : Nat) : Bool :=
  c.rings.any fun p => ringSpace p.1 == sp &&
    match p.2.indexOf u with
    | none => false
    | some i =>
      match (p.2.slot i).st with
      | .reserved w => w == n
      | .claimed => (p.2.slot i).holders.contains n
      | _ => false

/-! ## Ring commands (R283) -/

/-- The ring a command names; misuse where its entry is not enabled. -/
def ringNamed (c : Crew) (id : Nat) : Except Stop Ring :=
  match (if id < 20 then Map.find? c.rings id else none) with
  | some r => .ok r
  | none => .error (.raise .ringMisuse [])

/-- The set of a ring command's result: S joined with the set of the unit (R283). RCTR names no unit: S alone (DESIGN CHOICE,
assumption 86). -/
def ringSet (s : State) (x : Iss) (g : Guard) (os : List (Operand × Nat)) (c : Crew) (id : Nat) (u : Option Nat) :
    Except Stop (OSet × Map OEntry) :=
  let us := match u with
    | some i => [(Map.get (c.units (ringSpace id)) i (TUnit.init 0)).set]
    | none => []
  match osJoinAll s.osets 0 (resultSets x x.active os [] false g ++ us) with
  | .error e => .error (.raise e [])
  | .ok r => .ok r

/-- Writes a ring command's result into the crew, which the state then holds with its ring changed. -/
def ringResult (s : State) (x y : Iss) (g : Guard) (d : Operand) (id : Nat) (u : Option Nat) (w : Word) (f : Ring → Ring) :
    Except Stop Done :=
  match ringSet s x g [] y.crew id u with
  | .error e => .error e
  | .ok (set, t) =>
    match commitRegs x y d [w] set t with
    | .error e => .error e
    | .ok (y, t) => .ok (modRing ((y : Iss).changed.put { s with osets := t }) y.cur.crew id f, none)

/-- An acquire at core scope before a ring command acts. -/
def ringAcquire (y : Iss) (s : State) (act : State → Except Stop Done) : Except Stop Done :=
  match acquired s y .core act with
  | .error (.block w) => .ok (y.put s, some w)
  | r => r

/-- The body of RRES. -/
def rresBody (d : Operand) (id : Nat) (g : Guard) (x y : Iss) (s : State) : Except Stop Done :=
  if x.active.isEmpty then .ok (y.put s, none)
  else
    match ringNamed y.crew id with
    | .error e => .error e
    | .ok r =>
      match r.reserve y.cur.crew with
      | none => .ok (y.put s, some (.ring id false))
      | some (u, r') => ringAcquire y s fun s => ringResult s x y g d id (some u) (word u) fun _ => r'

/-- The body of RCLM. -/
def rclmBody (d : Operand) (id : Nat) (g : Guard) (x y : Iss) (s : State) : Except Stop Done :=
  if x.active.isEmpty then .ok (y.put s, none)
  else
    match ringNamed y.crew id with
    | .error e => .error e
    | .ok r =>
      match r.take y.cur.crew with
      | none => .ok (y.put s, some (.ring id true))
      | some (u, r') => ringAcquire y s fun s => ringResult s x y g d id (some u) (word u) fun _ => r'

/-- The body of RCTR. -/
def rctrBody (d : Operand) (id : Nat) (g : Guard) (x y : Iss) (s : State) : Except Stop Done :=
  if x.active.isEmpty then .ok (y.put s, none)
  else
    match ringNamed y.crew id with
    | .error e => .error e
    | .ok r =>
      ringAcquire y s fun s =>
        ringResult s x y g d id none (word (r.free % 65536 + 65536 * Map.get r.filled y.cur.crew 0)) fun r => r

/-- The unit that the lowest active lane names. -/
def unitNamed (x : Iss) (b : Operand) : Nat :=
  match lowActive x with
  | some l => (val32 x b l).toNat
  | none => 0

/-- The body of RPUB: a release, then the publish. -/
def rpubBody (id : Nat) (b : Operand) (x y : Iss) (s : State) : Except Stop Done :=
  if x.active.isEmpty then .ok (y.put s, none)
  else
    match ringNamed y.crew id with
    | .error e => .error e
    | .ok r =>
      match r.indexOf (unitNamed x b) with
      | none => .error (.raise .ringMisuse [])
      | some i =>
        if (r.slot i).st = .reserved y.cur.crew then
          released s y .core fun s => .ok (modRing ((y : Iss).changed.put s) y.cur.crew id fun r => r.publish i, none)
        else .error (.raise .ringMisuse [])

/-- Whether a matrix request of a crew still names a unit in a pass to come or under way (R304). -/
def unitBusy (s : State) (crew : Nat) (sp : TSpace) (u : Nat) : Bool :=
  s.engines.any fun p => (p.2.table ++ p.2.running ++ p.2.chosen).any fun q =>
    q.crew == crew && match sp with
      | .W => q.bslot == u
      | .A => q.qa / 4 == u
      | .C => false

/-- The body of RREL: a release, then the slot's (R304: after the passes that read it). -/
def rrelBody (id : Nat) (b : Operand) (x y : Iss) (s : State) : Except Stop Done :=
  if x.active.isEmpty then .ok (y.put s, none)
  else
    match ringNamed y.crew id with
    | .error e => .error e
    | .ok r =>
      match r.indexOf (unitNamed x b) with
      | none => .error (.raise .ringMisuse [])
      | some i =>
        if (r.slot i).st = .claimed ∧ (r.slot i).holders.contains y.cur.crew then
          if unitBusy s y.cur.crew (ringSpace id) (unitNamed x b) then .ok (y.put s, some .rrel)
          else
            released s y .core fun s =>
              let (r', us) := r.release i y.cur.crew
              .ok (clearUnits (modRing ((y : Iss).changed.put s) y.cur.crew id fun _ => r') y.cur.crew id us, none)
        else .error (.raise .ringMisuse [])

/-- The pre-checks of a command with a destination. -/
def ringCheck (d : Operand) (x : Iss) : Except Stop Unit :=
  match checkOperands x x.active [(d, 1)] with
  | .error e => .error e
  | .ok () => if xregForbidden x d x.active then .error (.raise .illXregWrite []) else .ok ()

/-- RRES (R283). -/
def execRres (d : Operand) (ring : Fin 64) (g : Guard) (s : State) : Outcome State Fault Refusal :=
  commitOp s g (fun x => baseSets x x.active g) (ringCheck d) (rresBody d ring.val g)

/-- RPUB (R283). -/
def execRpub (ring : Fin 64) (b : Operand) (g : Guard) (s : State) : Outcome State Fault Refusal :=
  commitOp s g (fun x => trapSets x [(b, 1)] [] g) (fun _ => .ok ()) (rpubBody ring.val b)

/-- RCLM (R283). -/
def execRclm (d : Operand) (ring : Fin 64) (g : Guard) (s : State) : Outcome State Fault Refusal :=
  commitOp s g (fun x => baseSets x x.active g) (ringCheck d) (rclmBody d ring.val g)

/-- RREL (R283). -/
def execRrel (ring : Fin 64) (b : Operand) (g : Guard) (s : State) : Outcome State Fault Refusal :=
  commitOp s g (fun x => trapSets x [(b, 1)] [] g) (fun _ => .ok ()) (rrelBody ring.val b)

/-- RCTR (R283). -/
def execRctr (d : Operand) (ring : Fin 64) (g : Guard) (s : State) : Outcome State Fault Refusal :=
  commitOp s g (fun x => baseSets x x.active g) (ringCheck d) (rctrBody d ring.val g)

/-! ## Permutation tables (R103, R288) -/

/-- Whether 32 entries are lane positions, each once. -/
def permOk (bs : List Byte) : Bool := (bs.all fun b => decide (b.toNat < 32)) && (dedup (bs.map (·.toNat))).length == bs.length

/-- Whether every window of an image is a permutation. -/
def windowsOk (bs : List Byte) (n : Nat) : Bool := (List.range n).all fun i => permOk (bytesAt bs (32 * i) 32)

/-- The sets of the granules of a range of the shared space. -/
def sharedSets (c : Crew) (off n : Nat) : List OSet := dedup ((List.range n).map fun i => sharedSet c (off + i))

/-- The body of PTLD. Its range may lie in the register window (DESIGN CHOICE, assumption 74). -/
def ptldBody (first : Nat) (a : Operand) (count : Nat) (g : Guard) (x y : Iss) (s : State) : Except Stop Done :=
  match lowActive x with
  | none => .ok (y.put s, none)
  | some l =>
    let off := (val32 x a l).toNat
    let n := 32 * count
    if 8 < first + count ∨ count = 0 then .error (.raise .illOperand [])
    else
      match checkSharedRange x.crew x.grid.desc.scratch off n with
      | .error c => .error (.raise c [(l.1, dword off)])
      | .ok () =>
        if threadStoresDue s y.cur.crew s.seq y.present || threadLoadsDue s y.cur.crew s.seq y.present ||
            owned s (dieOf y.crew.core) s.seq false ((List.range n).map fun i => crewLoc s y.cur.crew .shared (off + i)) then
          .ok (y.put s, some (.fence none))
        else
          let bs := (List.range n).map fun i => sharedByte y.crew (off + i)
          if !windowsOk bs count then .error (.raise .permTable [])
          else
            match osJoinAll s.osets 0 (resultSets x x.active [(a, 1)] [] false g ++ sharedSets y.crew off n) with
            | .error e => .error (.raise e [])
            | .ok (set, t) =>
              let ps := (List.range y.crew.sheaves.length).flatMap fun h => (List.range 32).map fun l => (l, h)
              match foldE (fun (q : Crew × Map OEntry) p =>
                  match osJoin q.2 (q.1.thread p).ptselS set with
                  | .error e => .error e
                  | .ok (u, t) => .ok (q.1.modThread p fun th => { th with ptselS := u }, t)) (y.crew, t) ps with
              | .error e => .error (.raise e [])
              | .ok (c, t) =>
                let pt := (List.range n).foldl (fun m i => Map.put m (32 * first + i) ((bs[i]?).getD 0).toNat) c.ptab
                .ok (({ y with crew := { c with ptab := pt } } : Iss).put { s with osets := t }, none)

/-- PTLD (R288). -/
def execPtld (first : Fin 8) (a : Operand) (count : Fin 64) (g : Guard) (s : State) : Outcome State Fault Refusal :=
  commitOp s g (fun x => trapSets x [(a, 1)] [] g) (fun x => checkOperands x x.active [(a, 1)]) (ptldBody first.val a count.val g)

end Sys2Proof.Machine
end

