-- ==== Sys2Proof/Machine/Copy.lean ====
section
/-! DEFINITION. The issue of copy commands: descriptors and their checks (11_isa_memory.md R274 to R280, R282). -/

namespace Sys2Proof.Machine

open Host (Outcome)

/-! ## The descriptor's constraints (R278 step 3) -/

/-- Whether a number is a multiple of a size. -/
def multiple (n : Nat) (x : Int) : Bool := x % n == 0

/-- Whether extents and strides are 1 and 0 beyond the dimension count. -/
def dimsOk (d : CDesc) : Bool :=
  (List.range 7).all fun k =>
    if k < d.n then decide (1 ≤ d.e.getD k 0) else d.e.getD k 0 == 1 && d.s.getD k 0 == 0 && d.d.getD k 0 == 0

/-- The destination formats a form of copy takes (R276, R279). -/
def formatOk (d : CDesc) (form : Nat) : Bool :=
  if form = 3 then floatCode d.sf && decide (8 ≤ d.df ∧ d.df ≤ 14)
  else decide (d.sf ≤ 7) && (d.df == 0 || (floatCode d.df && floatCode d.sf))

/-- The flags and the place (Table 11.4). -/
def placeOk (d : CDesc) (form : Nat) : Bool :=
  decide (d.flags < 4) && (!bitOf d.flags 0 || form == 3) &&
    (if bitOf d.flags 1 then d.place / 4096 == 1 && d.ds == 5 && decide (d.ring < 8) else d.place == 0)

/-- Addresses and strides are multiples of the element sizes. -/
def strideOk (d : CDesc) (form : Nat) : Bool :=
  multiple (elemSize d.sf) d.sa && d.s.all (multiple (elemSize d.sf)) &&
    (form == 3 || (multiple d.dstSize d.da && d.d.all (multiple d.dstSize)))

/-- What R279 asks of a CPYQ. -/
def quantOk (d : CDesc) : Bool :=
  (d.ds == 2 || d.ds == 3 || d.ds == 4 || d.ds == 5) && decide (d.n ≤ 2) && (d.d.all fun z => z == 0) &&
    (if d.ds = 5 then d.da == 0 else if d.ds = 2 then d.da % 8192 == 0 else d.da % 2048 == 0) &&
    d.e.headD 0 % 32 == 0 && decide (d.e.headD 0 ≤ 32 * (24 / d.width)) && decide (d.e.getD 1 1 ≤ 64)

/-- Every constraint of step 3. -/
def descOk (d : CDesc) (form : Nat) : Bool :=
  decide (d.ss ≤ 4) && decide (d.ds ≤ 5) && formatOk d form && placeOk d form && dimsOk d && (d.ds == 5 || d.ring == 0) && d.resv &&
    (if form = 1 ∨ form = 2 then d.list % 4 == 0 && decide (2 ≤ d.n) else d.list == 0) && strideOk d form &&
    (form != 3 || quantOk d)

/-! ## Spaces and ranges (R278 step 4) -/

/-- The bytes a side reaches: the lowest offset and the one after the highest. -/
def spanOf (base : Nat) (st : List Int) (e js : List Nat) (n : Nat) : Int × Int :=
  let b := boxOf base st e js
  (b.1, b.2 + n)

/-- The values the second index takes on a side. -/
def sideJs (d : CDesc) (form side : Nat) (idx : List Nat) : List Nat :=
  if form = side then idx else [0, d.e.getD 1 1 - 1]

/-- The bytes the source side reaches. -/
def srcSpan (d : CDesc) (form : Nat) (idx : List Nat) : Int × Int :=
  spanOf d.sa d.s d.e (sideJs d form 1 idx) (elemSize d.sf)

/-- The bytes the destination side reaches: every unit a CPYQ touches. -/
def dstSpan (d : CDesc) (form : Nat) (idx : List Nat) : Int × Int :=
  if form = 3 then (d.da, d.da + (if d.dstSpace = .spW ∨ d.ds = 5 then 8192 else 2048 * ((d.e.getD 1 1 + 15) / 16 : Nat)))
  else spanOf d.da d.d d.e (sideJs d form 2 idx) d.dstSize

/-- The cause of a shared range. -/
def sharedSpan (c : Crew) (scratch : Nat) (b : Int × Int) : Option Cause :=
  if b.1 < 0 then some .scratchRange
  else
    match checkSharedRange c scratch b.1.toNat (b.2 - b.1).toNat with
    | .error e => some e
    | .ok () => none

/-- Whether a typed range lies in the crew's allocation. -/
def typedSpan (c : Crew) (sp : TSpace) (b : Int × Int) : Bool :=
  decide (0 ≤ b.1) && typedOk c sp b.1.toNat (b.2 - b.1).toNat

/-- Whether a crew holds every unit of a range. -/
def heldSpan (c : Crew) (crew : Nat) (sp : TSpace) (b : Int × Int) : Bool :=
  let lo := b.1.toNat / unitBytes sp
  let hi := (b.2 - 1).toNat / unitBytes sp
  (List.range (hi + 1 - lo)).all fun i => holdsUnit c crew sp (lo + i)

/-- The cause of the shared ranges of a copy. -/
def sharedCause (x : Iss) (d : CDesc) (form : Nat) (idx : List Nat) : Option Cause :=
  let sc := x.grid.desc.scratch
  match (if d.ss = 1 then sharedSpan x.crew sc (srcSpan d form idx) else none) with
  | some c => some c
  | none => if d.ds = 1 then sharedSpan x.crew sc (dstSpan d form idx) else none

/-- The cause of the typed ranges of a copy. -/
def typedCause (x : Iss) (d : CDesc) (form : Nat) (idx : List Nat) : Option Cause :=
  let dst := dstSpan d form idx
  if d.ss = 2 ∨ d.ss = 3 ∨ d.ds = 4 then some .typedRange
  else if d.ss = 4 ∧ !typedSpan x.crew .C (srcSpan d form idx) then some .typedRange
  else if form = 2 ∧ (d.ds = 2 ∨ (d.ds = 5 ∧ d.ring < 8)) then some .typedRange
  else if d.ds = 2 ∧ !(typedSpan x.crew .W dst && heldSpan x.crew x.cur.crew .W dst) then some .typedRange
  else if d.ds = 3 ∧ !typedSpan x.crew .A dst then some .typedRange
  else if d.ds = 5 ∧ d.ring < 16 ∧ (dst.1 < 0 ∨ 8192 < dst.2) then some .typedRange
  else none

/-- The cause of a ring destination. -/
def ringCause (s : State) (x : Iss) (d : CDesc) : Option Cause :=
  if d.ds != 5 then none
  else if 19 < d.ring then some .ringMisuse
  else if 16 ≤ d.ring then some .typedRange
  else if !Map.has x.crew.rings d.ring then some .ringMisuse
  else if bitOf d.flags 1 && !Map.has (s.vf x.grid.vf).placeClu (d.place % 4096) then some .remoteUnreachable
  else none

/-- The cause that step 4 finds, if any. -/
def rangeCause (s : State) (x : Iss) (d : CDesc) (form : Nat) (idx : List Nat) : Option Cause :=
  match sharedCause x d form idx with
  | some c => some c
  | none =>
    match typedCause x d form idx with
    | some c => some c
    | none => ringCause s x d

/-! ## Issue (R274, R277, R280) -/

/-- The crew whose ring a copy fills: the issuing one, or one of its grid on the cluster the place names that shares the
ring. -/
def ringCrew (s : State) (x : Iss) (d : CDesc) : Option Nat :=
  if !bitOf d.flags 1 then some x.cur.crew
  else
    match Map.find? (s.vf x.grid.vf).placeClu (d.place % 4096) with
    | none => none
    | some k =>
      (List.find? (fun p => p.2.grid == x.crew.grid && clusterOf p.2.core == k && p.2.st == .resident &&
        match Map.find? p.2.rings d.ring with
        | some r => sharedRing d.ring r
        | none => false) s.crews).map fun p => p.1

/-- Commands in a core's copy engine. -/
def copiesOf (s : State) (core : Nat) : Nat :=
  (s.ops.filter fun p => (match p.2.kind with | .copy .. => true | _ => false) &&
    match Map.find? s.crews p.2.crew with
    | some c => c.core == core && c.st != .saved && c.st != .evicted
    | none => false).length

/-- The index list of a gather or scatter. -/
def indexList (c : Crew) (d : CDesc) (form : Nat) : List Nat :=
  if form = 1 ∨ form = 2 then (List.range (d.e.getD 1 0)).map fun i => ofBytes ((List.range 4).map fun j => sharedByte c (d.list + 4 * i + j))
  else []

/-- The bytes of the scratchpad a copy's issue reads: descriptor and index list. -/
def copyReads (d : CDesc) (form off : Nat) : List Nat :=
  (List.range 192).map (off + ·) ++ if form = 1 ∨ form = 2 then (List.range (4 * d.e.getD 1 0)).map (d.list + ·) else []

/-- The rounding mode an asynchronous operation samples (R96). -/
def sampleMode (x : Iss) (r : Option RMode) (l : Nat × Nat) : RMode := r.getD (x.crew.thread l).rmode

/-- The sets of the registers an asynchronous operation consults. -/
def consultSets (x : Iss) (l : Nat × Nat) : List OSet := [(x.crew.thread l).rmodeS, (x.crew.thread l).ptselS]

/-- Puts a copy in flight, its ring unit reserved. -/
def putCopy (s : State) (x y : Iss) (l : Nat × Nat) (bs : List Byte) (d : CDesc) (form : Nat) (r : Option RMode) (c : CacheP)
    (idx : List Nat) (flag : Option Nat) (set : OSet) : Except Stop Done :=
  match incFlag y.crew (homesOf x.active) flag with
  | .error e => .error e
  | .ok w =>
    let op (ring : Option (Nat × Nat × Nat)) : Op :=
      { opBase x (.copy bs idx form (sampleMode x r l) (x.crew.thread l).ptsel.val 0 false ring) x.active flag s.seq with
        set := set, cache := c }
    let y := ({ y with crew := w } : Iss).changed
    if d.ds != 5 then .ok (y.put (addOp s (op none)).tickSeq, none)
    else
      match ringCrew s x d with
      | none => .error (.block (.ring d.ring false))
      | some k =>
        match (Map.find? ((Map.find? s.crews k).map (·.rings) |>.getD []) d.ring).bind fun r => r.reserve x.cur.crew with
        | none => .error (.block (.ring d.ring false))
        | some (u, r') => .ok (modRing (y.put (addOp s (op (some (k, d.ring, u)))).tickSeq) k d.ring fun _ => r', none)

/-- The cause of an index list that does not lie in the scratchpad (R278 step 4). -/
def listCause (x : Iss) (d : CDesc) (form : Nat) : Option Cause :=
  if form ≠ 1 ∧ form ≠ 2 then none
  else if winBase ≤ d.list ∧ d.list < winEnd then some .regwinRange
  else if x.grid.desc.scratch < d.list + 4 * d.e.getD 1 0 then some .scratchRange
  else none

/-- Whether an engine operation owns some of the scratchpad bytes an issue reads. -/
def readsOwned (s : State) (y : Iss) (bs : List Nat) : Bool :=
  owned s (dieOf y.crew.core) s.seq false (bs.map fun o => crewLoc s y.cur.crew .shared o)

/-- The checks of R278 in their order, of bytes no engine operation owns any more (R150), then the waits of the issue. -/
def copyIssue (form : Nat) (r : Option RMode) (c : CacheP) (a : Operand) (g : Guard) (x y : Iss) (l : Nat × Nat) (off : Nat)
    (s : State) : Except Stop Done :=
  let bs := (List.range 192).map fun i => sharedByte y.crew (off + i)
  let d := CDesc.read bs
  if readsOwned s y ((List.range 192).map (off + ·)) then .ok (y.put s, some .owned)
  else if d.n = 0 ∨ 7 < d.n then .error (.raise .copyDims [])
  else if !descOk d form then .error (.raise .copyDesc [])
  else if (listCause x d form).isSome then .error (.raise ((listCause x d form).getD .scratchRange) [])
  else if readsOwned s y (copyReads d form off) then .ok (y.put s, some .owned)
  else
    let idx := indexList y.crew d form
    match rangeCause s x d form idx with
    | some e => .error (.raise e [])
    | none =>
      let typed := decide (2 ≤ d.ds)
      let flag := if typed then flagA x.cur.hdr else flagB x.cur.hdr
      if typed && flag.isNone then .error (.raise .illFlag [])
      else if 64 ≤ copiesOf s x.crew.core then .ok (y.put s, some .copyq)
      else
        let sets := resultSets x x.active [(a, 1)] [] false g ++ dedup ((copyReads d form off).map fun o => sharedSet y.crew o) ++
          if form = 3 then consultSets x l else []
        match osJoinAll s.osets 0 sets with
        | .error e => .error (.raise e [])
        | .ok (set, t) => putCopy { s with osets := t } x y l bs d form r c idx flag set

/-- The body of the copy instructions. -/
def copyBody (form : Nat) (r : Option RMode) (c : CacheP) (a : Operand) (g : Guard) (x y : Iss) (s : State) :
    Except Stop Done :=
  match lowActive x with
  | none => .ok (y.put s, none)
  | some l =>
    let off := (val32 x a l).toNat
    if off % 64 ≠ 0 ∨ x.grid.desc.scratch < off + 192 then .error (.raise .copyDesc [])
    else if threadStoresDue s y.cur.crew s.seq y.present || threadLoadsDue s y.cur.crew s.seq y.present then
      .ok (y.put s, some (.fence none))
    else copyIssue form r c a g x y l off s

/-- Runs a copy instruction. -/
def copyOp (form : Nat) (r : Option RMode) (c : CacheP) (a : Operand) (g : Guard) (s : State) : Outcome State Fault Refusal :=
  commitOp s g (fun x => trapSets x [(a, 1)] [] g) (fun x => checkOperands x x.active [(a, 1)]) (copyBody form r c a g)

/-- CPY (R274). -/
def execCpy (c : CacheP) (a : Operand) (g : Guard) (s : State) : Outcome State Fault Refusal := copyOp 0 none c a g s

/-- CPYG (R274). -/
def execCpyg (c : CacheP) (a : Operand) (g : Guard) (s : State) : Outcome State Fault Refusal := copyOp 1 none c a g s

/-- CPYS (R274). -/
def execCpys (c : CacheP) (a : Operand) (g : Guard) (s : State) : Outcome State Fault Refusal := copyOp 2 none c a g s

/-- CPYQ (R279). -/
def execCpyq (c : CacheP) (r : Option RMode) (a : Operand) (g : Guard) (s : State) : Outcome State Fault Refusal :=
  copyOp 3 r c a g s

end Sys2Proof.Machine
end

