-- ==== Sys2Proof/Machine/Message.lean ====
section
/-! DEFINITION. Messages between cores: posts, sends and cancellations (11_isa_memory.md R284 to R287). -/

namespace Sys2Proof.Machine

open Host (Outcome)

/-! ## Matching and delivery -/

/-- Whether a match word takes a message of a source and tag (R284). -/
def matchWord (w src tag : Nat) : Bool :=
  (w % 65536 == 0xFFFF || w % 65536 == src) && (w / 65536 == 0xFFFF || w / 65536 == tag)

/-- Whether a message goes to a receive of a grid with a match word and room for so many bytes. -/
def Msg.fits (m : Msg) (grid mtch room : Nat) : Bool :=
  m.grid == grid && matchWord mtch m.srcCore m.tag && decide (m.payload.length ≤ room)

/-- Bytes a receive of a capacity code has room for. -/
def recvRoom (cap : Nat) : Nat := 8 * (cap + 1)

/-- The status dword of a delivery (R285). -/
def statusOf (m : Msg) : Nat := m.srcCore + 2 ^ 16 * m.tag + 2 ^ 32 * m.payload.length

/-- Writes a message into a crew's buffer, its set and the receive's joined into the granules (R285). The delivery carries the
acquire of the receive that observes it (Table 6.7): what the die's L1s fill later is no older. -/
def deliverMsg (s : State) (crew buf : Nat) (m : Msg) (set : OSet) : Except Cause State :=
  match Map.find? s.crews crew with
  | none => .ok s
  | some c =>
    let bs := bytesOf 8 (statusOf m) ++ m.payload
    match osJoin s.osets m.set set with
    | .error e => .error e
    | .ok (u, t) =>
      match foldE (fun (a : Crew × Map OEntry) o => joinShared a.1 a.2 o u) (c, t)
          ((List.range ((buf % 64 + bs.length + 63) / 64)).map fun i => buf / 64 * 64 + 64 * i) with
      | .error e => .error e
      | .ok (c, t) =>
        .ok (acquireAct { s with osets := t,
                                 crews := Map.put s.crews crew (wakePhases { c with scratch := Memory.writeN c.scratch buf bs }) }
          (dieOf c.core) .dev)

/-- The address part of a word: a logical core of the partition. -/
def coreOfPlace (s : State) (vf place : Nat) : Option Nat :=
  if place / 4096 = 0 then Map.find? (s.vf vf).placeCore (place % 4096) else none

/-! ## MSGP (R285) -/

/-- The check of a receive's buffer. -/
def bufferCause (scratch buf n : Nat) : Option Cause :=
  if winBase ≤ buf ∧ buf < winEnd then some .regwinRange
  else if buf % 8 ≠ 0 ∨ scratch < buf + n then some .scratchRange
  else none

/-- Posts a receive. -/
def postRecv (s : State) (x y : Iss) (buf cap mtch : Nat) (set : OSet) : Except Stop Done :=
  let room := recvRoom cap
  match (s.core x.crew.core).msgQ.find? fun m => m.fits x.crew.grid mtch room with
  | some m =>
    let s := s.modCore x.crew.core fun k => { k with msgQ := k.msgQ.erase m }
    match deliverMsg ((y : Iss).changed.put s) y.cur.crew buf m set with
    | .error e => .error (.raise e [])
    | .ok s => commitPast (noLanes s { y with present := x.active } (flagB x.cur.hdr))
  | none =>
    if 64 ≤ (s.core x.crew.core).recvs.length then .ok (y.put s, some .msgp)
    else
      match incFlag y.crew (homesOf x.active) (flagB x.cur.hdr) with
      | .error e => .error e
      | .ok w =>
        let op := { opBase x (.recv buf cap mtch) x.active (flagB x.cur.hdr) s.seq with set := set }
        let n := s.nextOp
        let s := (({ y with crew := w } : Iss).changed.put (addOp s op)).tickSeq
        .ok (s.modCore x.crew.core fun k => { k with recvs := k.recvs ++ [n] }, none)

/-- The body of MSGP. -/
def msgpBody (cap : Nat) (a b : Operand) (g : Guard) (x y : Iss) (s : State) : Except Stop Done :=
  match lowActive x with
  | none => commitPast (noLanes (y.put s) y (flagB x.cur.hdr))
  | some l =>
    let buf := (val32 x a l).toNat
    match bufferCause x.grid.desc.scratch buf (8 + recvRoom cap) with
    | some e => .error (.raise e [(l.1, dword buf)])
    | none =>
      match osJoinAll s.osets 0 (resultSets x x.active [(a, 1), (b, 1)] [] false g) with
      | .error e => .error (.raise e [])
      | .ok (set, t) => postRecv { s with osets := t } x y buf cap (val32 x b l).toNat set

/-- MSGP (R285). -/
def execMsgp (cap : Fin 32) (a b : Operand) (g : Guard) (s : State) : Outcome State Fault Refusal :=
  commitOp s g (fun x => trapSets x [(a, 1), (b, 1)] [] g) (fun x => checkOperands x x.active [(a, 1), (b, 1)])
    (msgpBody cap.val a b g)

/-! ## MSGS (R284, R286) -/

/-- Sends a message once released: the payload read whole, the message on its way. -/
def sendMsg (s : State) (x y : Iss) (off n tag dst : Nat) (sets : List OSet) : Except Stop Done :=
  if owned s (dieOf y.crew.core) s.seq false ((List.range n).map fun i => crewLoc s y.cur.crew .shared (off + i)) then
    .ok (y.put s, some .owned)
  else
    match osJoinAll s.osets 0 (sets ++ sharedSets y.crew off n) with
    | .error e => .error (.raise e [])
    | .ok (set, t) =>
      match incFlag y.crew (homesOf x.active) (flagB x.cur.hdr) with
      | .error e => .error e
      | .ok w =>
        let bs := (List.range n).map fun i => sharedByte y.crew (off + i)
        let op := { opBase x (.send dst tag bs) x.active (flagB x.cur.hdr) s.seq with set := set }
        let m : Msg := { grid := x.crew.grid, srcCore := logicalCore s x.grid.vf x.crew.core, dstCore := dst, tag := tag,
                         payload := bs, set := set, op := s.nextOp }
        let s := (({ y with crew := w } : Iss).changed.put (addOp { s with osets := t } op)).tickSeq
        .ok (s.modCore dst fun k => { k with msgIn := k.msgIn ++ [m] }, none)

/-- The body of MSGS. Its range may lie in the register window (DESIGN CHOICE, assumption 74). -/
def msgsBody (len : Nat) (a b : Operand) (g : Guard) (x y : Iss) (s : State) : Except Stop Done :=
  match lowActive x with
  | none => commitPast (noLanes (y.put s) y (flagB x.cur.hdr))
  | some l =>
    let off := (val32 x a l).toNat
    let w := (val32 x b l).toNat
    let n := 8 * (len + 1)
    if 32 ≤ len then .error (.raise .msgSize [])
    else if w / 65536 = 0xFFFF then .error (.raise .illOperand [])
    else
      match coreOfPlace s x.grid.vf (w % 65536) with
      | none => .error (.raise .remoteUnreachable [])
      | some dst =>
        match checkSharedRange x.crew x.grid.desc.scratch off n with
        | .error e => .error (.raise e [(l.1, dword off)])
        | .ok () =>
          released s y .dev fun s =>
            sendMsg s x y off n (w / 65536) dst (resultSets x x.active [(a, 1), (b, 1)] [] false g)

/-- MSGS (R286). -/
def execMsgs (len : Fin 64) (a b : Operand) (g : Guard) (s : State) : Outcome State Fault Refusal :=
  commitOp s g (fun x => trapSets x [(a, 1), (b, 1)] [] g) (fun x => checkOperands x x.active [(a, 1), (b, 1)])
    (msgsBody len.val a b g)

/-! ## MSGC (R287) -/

/-- The oldest receive a crew has posted for a buffer. -/
def recvFor (s : State) (crew core buf : Nat) : Option (Nat × Op) :=
  (s.core core).recvs.findSome? fun n =>
    match Map.find? s.ops n with
    | some o =>
      match o.kind with
      | .recv b _ _ => if o.crew = crew ∧ b = buf then some (n, o) else none
      | _ => none
    | none => none

/-- The body of MSGC. -/
def msgcBody (d a : Operand) (g : Guard) (x y : Iss) (s : State) : Except Stop Done :=
  match lowActive x with
  | none => .ok (y.put s, none)
  | some l =>
    match osJoinAll s.osets 0 (resultSets x x.active [(a, 1)] [] false g) with
    | .error e => .error (.raise e [])
    | .ok (set, t) =>
      let r := recvFor s x.cur.crew x.crew.core (val32 x a l).toNat
      let c := match r with
        | some (_, o) => freeSheaves (decFlag y.crew o.homes o.flag)
        | none => y.crew
      let s := match r with
        | some (n, _) =>
          { s with ops := Map.del s.ops n }.modCore x.crew.core fun k => { k with recvs := k.recvs.filter (· != n) }
        | none => s
      match commitRegs x { y with crew := c } d [if r.isSome then 1 else 0] set t with
      | .error e => .error e
      | .ok (y, t) => .ok ((y : Iss).changed.put { s with osets := t }, none)

/-- MSGC (R287). -/
def execMsgc (d a : Operand) (g : Guard) (s : State) : Outcome State Fault Refusal :=
  commitOp s g (fun x => trapSets x [(a, 1)] [] g)
    (fun x =>
      match checkOperands x x.active [(a, 1), (d, 1)] with
      | .error e => .error e
      | .ok () => if xregForbidden x d x.active then .error (.raise .illXregWrite []) else .ok ())
    (msgcBody d a g)

end Sys2Proof.Machine
end

