-- ==== Sys2Proof/Machine/Matrix.lean ====
section
/-! DEFINITION. Matrix instructions and the cluster engine (04_numbers.md R101, R105, R106; 12_isa_matrix.md R291 to R308). -/

namespace Sys2Proof.Machine

open Host (Outcome)

/-! ## The arithmetic of a pass (R105, R106) -/

/-- Blocks per row of a pass (Table 4.11). -/
def passBlocks (wa wb : Nat) : Nat := 24 / max wa wb

/-- A K row as it is read: its mantissa string, its exponents. -/
structure KRow where
  bits : Nat
  exps : List Nat
  deriving DecidableEq, Repr

/-- The K row whose mantissas and exponents begin at two places of a unit. -/
def kRow (m : Memory) (mant ex blocks : Nat) : KRow :=
  { bits := Memory.num m mant 96, exps := (List.range blocks).map fun b => (Memory.read m (ex + b)).toNat }

/-- Row i of a quarter-slot: `q` is its place among its slot's four. -/
def aRow (m : Memory) (q i blocks : Nat) : KRow := kRow m (2048 * q + 96 * i) (2048 * q + 1536 + 12 * i) blocks

/-- Column n of a B slot. -/
def bCol (m : Memory) (n blocks : Nat) : KRow := kRow m (96 * n) (6144 + 12 * n) blocks

/-- Mantissa k of a row of width w. -/
def KRow.mant (r : KRow) (w k : Nat) : Int := sextOf (r.bits / 2 ^ (k * w)) w

/-- The exact sum of a block. -/
def blockDot (a b : KRow) (wa wb i : Nat) : Int :=
  (List.range 32).foldl (fun s j => s + a.mant wa (32 * i + j) * b.mant wb (32 * i + j)) 0

/-- Whether f32 bits are a NaN. -/
def isNaN32 (c : Nat) : Bool := c / 2 ^ 23 % 256 == 255 && c % 2 ^ 23 != 0

/-- One output of a pass (R106). -/
def passOut (wa wb : Nat) (zero : Bool) (a b : KRow) (c : Word) : Word :=
  let c := if zero then 0 else c.toNat
  if (a.exps.any fun e => e == 255) || (b.exps.any fun e => e == 255) || isNaN32 c then 0x7FC00000
  else
    word ((List.range (passBlocks wa wb)).foldl (fun c i =>
      let ea : Int := a.exps.getD i 0
      let eb : Int := b.exps.getD i 0
      let e : Int := ea - 127 + (eb - 127) - (wa - 2 : Int) - (wb - 2 : Int)
      accStep c (blockDot a b wa wb i) e) c)

/-- The 16 × 64 outputs of a request, row by row. -/
def passRows (wa wb : Nat) (zero : Bool) (a : Memory) (q : Nat) (b : Memory) (c : List Word) : List Word :=
  let n := passBlocks wa wb
  (List.range 16).flatMap fun i =>
    let r := aRow a q i n
    (List.range 64).map fun j => passOut wa wb zero r (bCol b j n) (c.getD (64 * i + j) 0)

/-! ## Requests (R293, R294, R296) -/

/-- An engine of a cluster. -/
def State.engine (s : State) (k : Nat) : Engine := Map.get s.engines k Engine.init

/-- Changes an engine. -/
def State.modEngine (s : State) (k : Nat) (f : Engine → Engine) : State := { s with engines := Map.put s.engines k (f (s.engine k)) }

/-- The threads of a quarter of the sheaf as issued. -/
def inQuarter (ps : List (Nat × Nat)) (q : Nat) : List (Nat × Nat) := ps.filter fun p => p.1 / 8 == q

/-- The quarters with an active lane. -/
def activeQuarters (x : Iss) : List Nat := (List.range 4).filter fun q => !(inQuarter x.active q).isEmpty

/-- Whether the engine has room for n more requests of a class (R291, R294). -/
def engineRoom (e : Engine) (h : Bool) (n : Nat) : Bool :=
  decide (e.table.length + n ≤ 32) && (!h || decide ((e.table.filter fun r => r.h).length + n ≤ 16))

/-- Whether the units of an XMMA are held and owned (R293). -/
def xmmaHolds (x : Iss) (aq bs ct : Nat) : Bool :=
  (activeQuarters x).all fun q =>
    holdsUnit x.crew x.cur.crew .A ((aq + q) % 128 / 4) && holdsUnit x.crew x.cur.crew .W bs && Map.has x.crew.unitsC ct

/-- A restartable region ends before a tile operation and reopens after it (R306). -/
def splitTile (x : Iss) (s : State) : Except Stop (Iss × State) :=
  let ls := (lanesIn x.present).filter fun l => inRestartable x.grp l
  if ls.isEmpty then .ok (x, s)
  else
    match x.endRegion ls s with
    | .error e => .error e
    | .ok (y, s) =>
      let ms := (reopenMaps x ls).filter fun (p : RegionMap × List Nat) => p.1.restartable
      .ok ({ y with grp := { y.grp with reopen := y.grp.reopen ++ ms } }, s)

/-- The request of a quarter. -/
def quarterReq (x : Iss) (aq bs ct wa wb : Nat) (zero : Bool) (set : OSet) (seq q : Nat) : XReq :=
  { crew := x.cur.crew, core := x.crew.core, h := x.isH, qa := (aq + q) % 128, bslot := bs,
    bphys := (Map.get x.crew.unitsW bs (TUnit.init 0)).phys, tile := ct, rows := 16 * q, wa := wa, wb := wb, zero := zero,
    set := set, homes := homesOf (inQuarter x.active q), lanes := inQuarter x.active q, flag := (flagA x.cur.hdr).getD 0, group := x.cur.group, seq := seq + q,
    bad := false, badAt := [], srcSets := [] }

/-- Runs a tile operation: its wait at issue leaves a split region ended, and its threads' PC a restart point (R294, R306). -/
def issueTile (s : State) (g : Guard) (body : Iss → Except Stop Done) : Outcome State Fault Refusal :=
  match issuer s g with
  | none => .refused .noIssuer
  | some x =>
    match body x with
    | .ok (t, some w) => .next (stayAt t x.cur w)
    | .ok (t, none) => .next (advance t x.cur)
    | .error e => settle s x x.active x.cur.index (baseSets x x.active g) e

/-- Whether a tile operation stands in its wait at issue, its checks made and its region split. -/
def tileWaits (x : Iss) : Bool := x.grp.wait == .engine || x.grp.wait == .flagFull

/-- Files the requests of an XMMA: the test of R293, the split, the waits for entries and for room in the flag counts. -/
def xmmaFile (x : Iss) (s : State) (aq bs ct wa wb : Nat) (zero : Bool) (g : Guard) : Except Stop Done :=
  let qs := activeQuarters x
  if !tileWaits x && !xmmaHolds x aq bs ct then .error (.raise .slotState [])
  else
    match osJoinAll s.osets 0 (resultSets x x.active [] [] false g) with
    | .error e => .error (.raise e [])
    | .ok (set, t) =>
      match splitTile x { s with osets := t } with
      | .error e => .error e
      | .ok (y, s) =>
        let k := clusterOf x.crew.core
        if !engineRoom (s.engine k) x.isH qs.length then .ok (y.put s, some .engine)
        else
          match foldE (fun c q => incFlag c (homesOf (inQuarter x.active q)) (flagA x.cur.hdr)) y.crew qs with
          | .error _ => .ok (y.put s, some .flagFull)
          | .ok c =>
            let rs := qs.map (quarterReq x aq bs ct wa wb zero set s.seq)
            .ok (({ y with crew := c } : Iss).put { s.modEngine k (fun e => { e with table := e.table ++ rs }) with seq := s.seq + 4 }, none)

/-- In an episode a tile operation is dropped; a split is still a region end and reopening (R308). -/
def tileAhead (x : Iss) (s : State) : Except Stop Done :=
  match splitTile x s with
  | .error e => .error e
  | .ok (y, s) => .ok (y.put s, none)

/-- XMMA (R292 to R294). -/
def execXmma (aq : Fin 128) (bs : Fin 256) (ct : Fin 16) (wa wb : Fin 7) (zero : Bool) (g : Guard) (s : State) :
    Outcome State Fault Refusal :=
  issueTile s g fun x =>
    if x.active.isEmpty then .ok (s, none)
    else if x.grp.episode.isSome then tileAhead x s
    else xmmaFile x s aq.val bs.val ct.val (wa.val + 2) (wb.val + 2) zero g

/-! ## XZERO, XREQ and XOSQ (R300 to R302) -/

/-- Puts a tile operation in flight, its region split. -/
def putTile (x : Iss) (s : State) (k : OpKind) (set : OSet) : Except Stop Done :=
  match splitTile x s with
  | .error e => .error e
  | .ok (y, s) =>
    match incFlag y.crew (homesOf x.active) (flagA x.cur.hdr) with
    | .error _ => .ok (y.put s, some .flagFull)
    | .ok c =>
      let op := { opBase x k x.active (flagA x.cur.hdr) s.seq with set := set }
      .ok (({ y with crew := c } : Iss).put (addOp s op).tickSeq, none)

/-- XZERO (R300). -/
def execXzero (t : Fin 16) (g : Guard) (s : State) : Outcome State Fault Refusal :=
  issueTile s g fun x =>
    if x.active.isEmpty then .ok (s, none)
    else if x.grp.episode.isSome then tileAhead x s
    else if !Map.has x.crew.unitsC t.val then .error (.raise .typedRange [])
    else
      match osJoinAll s.osets 0 (resultSets x x.active [] [] false g) with
      | .error e => .error (.raise e [])
      | .ok (set, tb) => putTile x { s with osets := tb } (.xzero t.val) set

/-- The effect of XREQ outside an episode. -/
def xreqBody (s : State) (r : Option RMode) (t aq w : Nat) (g : Guard) (x : Iss) : Except Stop Done :=
  match lowActive x with
  | none => .ok (s, none)
  | some l =>
    let qas := (activeQuarters x).map fun q => (aq + q) % 128
    if !Map.has x.crew.unitsC t || qas.any fun q => !Map.has x.crew.unitsA (q / 4) then .error (.raise .typedRange [])
    else
      match osJoinAll s.osets 0 (resultSets x x.active [] [] false g ++ consultSets x l) with
      | .error e => .error (.raise e [])
      | .ok (set, tb) =>
        putTile x { s with osets := tb } (.xreq t aq w qas (sampleMode x r l) (x.crew.thread l).ptsel.val) set

/-- XREQ (R301). -/
def execXreq (r : Option RMode) (t : Fin 16) (aq : Fin 64) (c : Fin 7) (g : Guard) (s : State) : Outcome State Fault Refusal :=
  issueTile s g fun x =>
    if x.active.isEmpty then .ok (s, none)
    else if x.grp.episode.isSome then tileAhead x s
    else xreqBody s r t.val aq.val (c.val + 2) g x

/-- The bytes of a unit as places, by its space. -/
def unitLocs (s : State) (crew : Nat) (sp : TSpace) (u : Nat) : List Loc :=
  (List.range (unitBytes sp)).map fun i => crewLoc s crew (spaceOf sp) (u * unitBytes sp + i)

/-- The effect of XOSQ. In an episode it awaits no engine, and an invalid unit operand makes its destination invalid whatever
unit it names (R308). -/
def xosqBody (s : State) (d : Fin 30) (sp : TSpace) (b : Operand) (g : Guard) (x : Iss) : Except Stop State :=
  match lowActive x with
  | none => .ok (idle s x (.k d) 1 g)
  | some l =>
    let u := (val32 x b l).toNat
    let ahead := x.grp.episode.isSome
    if opInv x (b, 1) l then .ok ((markDoubted (markReg x (.k d) 0 (x.active.map fun p => (p, true))) (.k d) 1 g).put s)
    else if !Map.has (x.crew.units sp) u then .error (.raise .typedRange [])
    else if !ahead && owned s (dieOf x.crew.core) s.seq false (unitLocs s x.cur.crew sp u) then .error (.block .owned)
    else
      let o := (Map.get (x.crew.units sp) u (TUnit.init 0)).set
      match osJoinAll s.osets 0 (resultSets x x.active [(b, 1)] [] false g ++ [o]) with
      | .error e => .error (.raise e [])
      | .ok (set, t) =>
        let y := writeK x d.val (x.active.map fun p => (p, word o)) set
        let y := markReg y (.k d) 0 (x.active.map fun p => (p, predInv x g.pred p))
        .ok ((if ahead then markDoubted y (.k d) 1 g else y).put { s with osets := t })

/-- XOSQ (R302). -/
def execXosq (d : Fin 30) (sp : TSpace) (b : Operand) (g : Guard) (s : State) : Outcome State Fault Refusal :=
  issueOp s g (fun x => trapSets x [(b, 1)] [] g) (xosqBody s d sp b g)

/-! ## Passes (R296 to R298) -/

/-- Adds candidates to a pass, oldest first, of at most four members (R297). -/
def fuse (pass : List XReq) (first : XReq) (cs : List XReq) : List XReq :=
  match cs with
  | [] => pass
  | c :: rest =>
    if pass.length < 4 ∧ c.bphys = first.bphys ∧ c.wa = first.wa ∧ c.wb = first.wb ∧ !(pass.any fun p => sameRows p c) then
      fuse (pass ++ [c]) first rest
    else fuse pass first rest

/-- The pass a decision point chooses; none while the engine idles. -/
def choosePass (s : State) (e : Engine) : Option (List XReq) :=
  let cands := e.table.filter (eligible s e)
  let cls := if cands.any fun c => !c.h then cands.filter fun c => !c.h else cands
  match leastBy (fun r : XReq => r.seq) cls with
  | none => none
  | some f => some (fuse [f] f (cls.filter fun r => r != f))

/-- MATRIX_PASS_DECISION (R297): the engine chooses the next pass, which starts at once where none runs. -/
def execMatrixPassDecision (cluster : Nat) (s : State) : Outcome State Fault Refusal :=
  let e := s.engine cluster
  if !e.chosen.isEmpty then .next s
  else
    match choosePass s e with
    | none => .next s
    | some ps =>
      let e := { e with table := e.table.filter fun r => !ps.contains r, loaded := ps.head?.map fun (r : XReq) => r.bphys }
      .next (s.modEngine cluster fun _ => if e.running.isEmpty then { e with running := ps } else { e with chosen := ps })

/-- The rows of a request in C that an ended pass has yet to write: they are forwarded (R296). -/
def rowsAhead (e : Engine) (r : XReq) : Option (List Word) :=
  (e.ended.flatMap id).foldl (fun (o : Option (List Word)) p => if sameRows p.1 r && !p.1.bad then some p.2 else o) none

/-- The rows of a request in C: forwarded, else the tile's (R296). -/
def rowsOf (e : Engine) (c : Crew) (r : XReq) : List Word :=
  match rowsAhead e r with
  | some ws => ws
  | none =>
    let m := (Map.get c.unitsC r.tile (TUnit.init 0)).mem
    (List.range 1024).map fun i => word (Memory.num m (256 * r.rows + 4 * i) 4)

/-- Whether a unit of a crew holds data with an uncorrectable error. -/
def badUnit (s : State) (crew : Nat) (us : List (TSpace × Nat)) : Bool := us.any fun u => s.flaws.contains (.unit crew u.1 u.2)

/-- The island that holds a space of a core (Table 1.1, 19_platform.md R425): the cluster's for W, the core's for A, C and the
scratchpad. -/
def unitIsland (core : Nat) (sp : TSpace) : Nat := if sp = .W then 256 + clusterOf core else core

/-- The islands of the bad A, B and C data that a request's pass reads: with Z it reads no C, and rows that are forwarded are not read
either (R106, R296, R309). -/
def badReq (s : State) (e : Engine) (r : XReq) : List Nat :=
  let us : List (TSpace × Nat) := [(.A, r.qa / 4), (.W, r.bslot)] ++ if r.zero || (rowsAhead e r).isSome then [] else [(.C, r.tile)]
  dedup ((us.filter fun u => badUnit s r.crew [u]).map fun u => unitIsland r.core u.1)

/-- A request as its pass leaves it: with the sets of the A and B slots it read, and the islands of the errors the pass met. -/
def XReq.passed (s : State) (bad : List Nat) (r : XReq) : XReq :=
  let r := { r with bad := !bad.isEmpty, badAt := bad }
  match Map.find? s.crews r.crew with
  | none => r
  | some c => { r with srcSets := [(Map.get c.unitsA (r.qa / 4) (TUnit.init 0)).set, (Map.get c.unitsW r.bslot (TUnit.init 0)).set] }

/-- The result of a request's pass. -/
def reqResult (s : State) (e : Engine) (r : XReq) : List Word :=
  match Map.find? s.crews r.crew with
  | none => []
  | some c =>
    passRows r.wa r.wb r.zero (Map.get c.unitsA (r.qa / 4) (TUnit.init 0)).mem (r.qa % 4)
      (Map.get c.unitsW r.bslot (TUnit.init 0)).mem (rowsOf e c r)

/-- MATRIX_PASS_END (R297, R309): the running pass ends, its data read, and the next chosen one starts. -/
def execMatrixPassEnd (cluster : Nat) (s : State) : Outcome State Fault Refusal :=
  let e := s.engine cluster
  if e.running.isEmpty then .next s
  else
    let bad := dedup (e.running.flatMap (badReq s e))
    let out := e.running.map fun r => (r.passed s bad, reqResult s e r)
    .next (s.modEngine cluster fun e => { e with running := e.chosen, chosen := [], ended := e.ended ++ [out] })

/-- The record of a grid's failure at an engine operation. -/
def engineRec (s : State) (crew : Nat) (clause : Dword) (index : Nat) (va : Dword) : FRec :=
  match s.gridOf crew with
  | some (w, g) => crewRec s g.vf w.grid w 0 clause index va
  | none => FRec.init

/-- Fails the grid of a crew with a cause an operation of it meets. -/
def failCrew (s : State) (crew : Nat) (c : Cause) (r : FRec) : State :=
  match Map.find? s.crews crew with
  | some w => failGrid (countCause s w.grid) w.grid c r
  | none => s

/-- Writes a request's rows as one step: C, the tile's set, the flag (R295, R298). -/
def writeRows (s : State) (r : XReq) (ws : List Word) : State :=
  match Map.find? s.crews r.crew with
  | none => s
  | some c =>
    match osJoinAll s.osets (Map.get c.unitsC r.tile (TUnit.init 0)).set (r.srcSets ++ [r.set]) with
    | .error e => failCrew s r.crew (nestedAs s r.crew r.lanes e) (engineRec s r.crew 0 0 0)
    | .ok (u, t) =>
      let s := modUnit { s with osets := t } r.crew .C r.tile fun x =>
        { x with mem := Memory.writeN x.mem (256 * r.rows) (ws.flatMap fun w => bytesOf 4 w.toNat), set := u }
      s.decFlag r.crew r.homes (some r.flag)

/-- What MATRIX_ROWS_WRITTEN does (R298): the rows of the oldest ended pass are written and their flags decrement. -/
def matrixRowsWritten (cluster : Nat) (s : State) : Outcome State Fault Refusal :=
  match (s.engine cluster).ended with
  | [] => .next s
  | p :: rest =>
    .next (p.foldl (fun s q => writeRows s q.1 q.2) (s.modEngine cluster fun e => { e with ended := rest }))

/-! ## Completion of XZERO and XREQ -/

/-- What XZERO_DONE does (R300). -/
def xzeroDone (op : Nat) (s : State) : Outcome State Fault Refusal :=
  match Map.find? s.ops op with
  | some o =>
    match o.kind with
    | .xzero t =>
      if !tileReady s o || !engineReady s o then .next s
      else
        let s := modUnit { s with ops := Map.del s.ops op } o.crew .C t fun x => { x with mem := [], set := o.set }
        .next (s.decFlag o.crew o.homes o.flag)
    | _ => .next s
  | none => .next s

/-- The mantissas and exponents of C row r quantised (R301); the permutation table is read as it stands then (DESIGN CHOICE, assumption
75). -/
def xreqRow (c : Crew) (t r w : Nat) (m : RMode) (v : Nat) : List (Nat × List Int) :=
  let mem := (Map.get c.unitsC t (TUnit.init 0)).mem
  let xs := (List.range 64).map fun j => unpack fmtF32 (Memory.num mem (4 * (64 * r + j)) 4)
  rowBlocks 2 w m (fun l => Map.get c.ptab (32 * v + l) l) xs

/-- Writes a quarter of an XREQ: its 16 rows whole, and the set of its A slot. -/
def xreqQuarter (s : State) (o : Op) (t aq w : Nat) (m : RMode) (v qa : Nat) : Except Cause State :=
  match Map.find? s.crews o.crew with
  | none => .ok s
  | some c =>
    let q := (qa + 128 - aq % 128) % 128
    let base := 2048 * (qa % 4)
    let rows := (List.range 16).map fun i => rowBytes w (xreqRow c t (16 * q + i) w m v)
    let bs := rows.flatMap (·.1) ++ rows.flatMap (·.2)
    match osJoinAll s.osets (Map.get c.unitsA (qa / 4) (TUnit.init 0)).set
        [(Map.get c.unitsC t (TUnit.init 0)).set, o.set] with
    | .error e => .error e
    | .ok (u, tb) =>
      .ok (modUnit { s with osets := tb } o.crew .A (qa / 4) fun x => { x with mem := Memory.writeN x.mem base bs, set := u })

/-- What XREQ_DONE does (R301): every quarter is written and the flag decrements. -/
def xreqDone (op : Nat) (s : State) : Outcome State Fault Refusal :=
  match Map.find? s.ops op with
  | some o =>
    match o.kind with
    | .xreq t aq w qs m v =>
      if !tileReady s o || !engineReady s o then .next s
      else
        match foldE (fun s qa => xreqQuarter s o t aq w m v qa) s qs with
        | .error e => .next (failCrew s o.crew (nestedAs s o.crew o.lanes e) (engineRec s o.crew o.clause o.index 0))
        | .ok s => .next ({ s with ops := Map.del s.ops op }.decFlag o.crew o.homes o.flag)
    | _ => .next s
  | none => .next s

end Sys2Proof.Machine
end

