-- ==== Sys2Proof/Machine/Clauses.lean ====
section
/-! DEFINITION. The selector and its steps: clause fetches and starts, packing, reconvergence, runahead episodes and the stall
watchdog (02_execution.md R29 to R31, R34, R36, R40, R52 to R57; 03_registers.md R85; 07_encoding.md R161, R162). -/

namespace Sys2Proof.Machine

open Host (Outcome)

/-! ## Where groups stand -/

/-- When a group reached its clause: the earliest of its threads. -/
def Group.since (c : Crew) (g : Group) : Nat :=
  ((leastBy (fun p : Nat × Nat => (c.thread p).reached) g.members).map fun p => (c.thread p).reached).getD 0

/-- The issuing context of a group at a clause start or fetch: index 0 of the clause. -/
def startIss (s : State) (crew grp : Nat) : Option Iss :=
  match s.gridOf crew with
  | none => none
  | some (w, gd) =>
    match Map.find? w.groups grp with
    | none => none
    | some g =>
      match g.pc w with
      | none => none
      | some (a, _) =>
        let h := match g.fetched with
          | some (_, h :: _) => h
          | _ => 0
        let ps := g.live w
        some { cur := { crew := crew, group := grp, lanes := ps, addr := a, hdr := h, first := 0, index := 0, len := 16 },
               crew := w, grp := g, grid := gd, present := ps, active := ps }

/-! ## The frontier (R29, R33, R34) -/

/-- Whether a group's clause may start: it stands still, has its clause, and its wait is met or it runs ahead. A malformed header's wait
mask counts too: its cause is raised at the start (DESIGN CHOICE, assumption 79). -/
def startable (c : Crew) (g : Group) : Bool :=
  match g.episode with
  | some e => !e.inUse && e.active.isNone && e.wait == .none && episodeFetched e
  | none =>
    g.active.isNone && g.wait == .none && !g.halted &&
      match g.clause c with
      | some (h, _) => maskMet c g h
      | none => false
where
  /-- Whether an episode's clause has been fetched: its group's threads stand where the copy says. -/
  episodeFetched (e : Episode) : Bool := e.fetched.isSome

/-- The entry a group stands at for the selector: in an episode that of its copy. -/
def Group.entry (c : Crew) (g : Group) : Option Nat :=
  match g.episode with
  | some e => e.fetched.map fun f => f.1.toNat
  | none => (g.pc c).map fun p => p.1.toNat

/-- The groups of a role whose clause may start, with their entries. -/
def candidates (c : Crew) (role : Nat) : List (Nat × Group × Nat) :=
  c.groups.filterMap fun p =>
    if p.2.role = role ∧ startable c p.2 then (p.2.entry c).map fun a => (p.1, p.2, a) else none

/-- An entry's place in priority order: a demoted entry after every other. -/
def entryRank (c : Crew) (role a : Nat) : Nat := (if c.demoted.contains (role, a) then 2 ^ 64 else 0) + a

/-- The best group of some candidates: highest priority, episodes after the others, then the earliest there (R29, R53). -/
def bestOf (c : Crew) (role : Nat) (cs : List (Nat × Group × Nat)) : Option (Nat × Group × Nat) :=
  let cs := if cs.any fun q => q.2.1.episode.isNone then cs.filter fun q => q.2.1.episode.isNone else cs
  match leastBy (fun q : Nat × Group × Nat => entryRank c role q.2.2) cs with
  | none => none
  | some b => leastBy (fun q : Nat × Group × Nat => q.2.1.since c) (cs.filter fun q => q.2.2 == b.2.2)

/-- The choice of the selector: after a switch point among the entries that follow the pointer's, wrapping (R34). An episode is chosen
only where no group that is not blocked may start (R53). -/
def choose (c : Crew) (role : Nat) : Option (Nat × Group × Nat) :=
  let cs := candidates c role
  let cs := if cs.any fun q => q.2.1.episode.isNone then cs.filter fun q => q.2.1.episode.isNone else cs
  match Map.get c.rotate role (0, false) with
  | (p, true) =>
    let after := cs.filter fun q => decide (entryRank c role p < entryRank c role q.2.2)
    bestOf c role (if after.isEmpty then cs else after)
  | _ => bestOf c role cs

/-- Records the choice made after a switch point. -/
def chosen (c : Crew) (role a : Nat) : Crew :=
  match Map.get c.rotate role (0, false) with
  | (_, true) => { c with rotate := Map.put c.rotate role (a, false) }
  | _ => c

/-! ## Reconvergence (R85), and CLAUSE_FETCH (R162) -/

/-- Reconverges where a group of the state stands, outside an episode. -/
def reconvergeAt (s : State) (crew grp : Nat) : State :=
  match startIss s crew grp with
  | some x => if x.grp.episode.isSome then s else s.modCrew crew fun c => reconverge 512 c x.grp.role x.cur.addr
  | none => s

/-- Reads a group's clause: what it has fetched, or where a failed fetch leaves the machine. -/
def fetchClause (s : State) (x : Iss) : State :=
  match codeClause s x.crew.core x.grid x.cur.addr.toNat x.grp.episode.isNone with
  | .ok (h, ws, s) => s.modGroup x.cur.crew x.cur.group fun g => { g with fetched := some (x.cur.addr, h :: ws) }
  | .error (.wait s) => s
  | .error (.bad va e) =>
    let h := match codeWord s x.crew.core x.grid x.cur.addr.toNat false with
      | .ok (h, _) => h
      | .error _ => 0
    let x := { x with cur := { x.cur with hdr := h } }
    match settle s x x.present 0 (entrySets x.crew x.grp.role x.cur.addr) (codeFault x.present va e) with
    | .next s => s
    | _ => s

/-- CLAUSE_FETCH (R162): the group's clause is translated and read whole. It does nothing where the group stands elsewhere,
already issues, or waits. -/
def execClauseFetch (crew group : Nat) (addr : Dword) (s : State) : Outcome State Fault Refusal :=
  let s := reconvergeAt s crew group
  match startIss (s.enterEpisode crew group) crew group with
  | none => .next s
  | some x =>
    if x.cur.addr = addr ∧ x.grp.active.isNone ∧ x.grp.wait = .none ∧ x.crew.st = .resident ∧ (x.grp.clause x.crew).isNone then
      .next ((fetchClause (s.enterEpisode crew group) x).exitEpisode crew group)
    else .next s

/-! ## Parts that meet, and packing (R31, R71) -/

/-- Whether a group stands still at an entry's first instruction, whether or not it runs ahead of it. -/
def standsAt (c : Crew) (role : Nat) (a : Dword) (g : Group) : Bool :=
  g.role == role && g.active.isNone && g.wait == .none && g.pc c == some (a, 1)

/-- Whether a group stands still at an entry whose clause it may start. -/
def mayJoin (c : Crew) (role : Nat) (a : Dword) (h : Word) (g : Group) : Bool :=
  standsAt c role a g && g.episode.isNone && maskMet c g h

/-- Joins the parts of an issue group that may start an entry's clause: their open regions of one map are one again. -/
def joinParts (c : Crew) (role : Nat) (a : Dword) (h : Word) : Crew :=
  (c.groups.filter fun p => mayJoin c role a h p.2).foldl (fun c p =>
    match Map.find? c.groups p.1 with
    | none => c
    | some g =>
      let others := c.groups.filter fun q => q.1 != p.1 && q.2.family == g.family && mayJoin c role a h q.2
      let g := others.foldl (fun (g : Group) q =>
        { g with members := g.members ++ q.2.members, regions := q.2.regions.foldl (fun rs r => addRegion r rs) g.regions, reopen := g.reopen ++ q.2.reopen }) g
      { c with groups := (Map.put c.groups p.1 g).filter fun q => !others.any fun o => o.1 == q.1 }) c

/-- Whether a clause begins with RGN or RGNR. -/
def regionHead (h : Word) (ws : List Word) : Bool :=
  bitsOf h.toNat 6 4 == 4 &&
    match ws with
    | w :: _ => bitsOf w.toNat 31 22 == 0x010 || bitsOf w.toNat 31 22 == 0x011
    | [] => false

/-- Formed sheaf j of some threads: of each lane position the (j+1)-th in ascending home-sheaf order. -/
def formedSheaf (ps : List (Nat × Nat)) (j : Nat) : List (Nat × Nat) :=
  (List.range 32).filterMap fun l =>
    ((ascending ((ps.filter fun p => p.1 == l).map (·.2)))[j]?).map fun h => (l, h)

/-- The formed sheaves of some threads. -/
def formSheaves (ps : List (Nat × Nat)) : List (List (Nat × Nat)) :=
  ((List.range 32).map (formedSheaf ps)).filter fun m => !m.isEmpty

/-- Ends the regions of a group that is packed. -/
def packOne (s : State) (crew grp : Nat) : Except Stop State :=
  match startIss s crew grp with
  | none => .ok s
  | some x =>
    match x.endRegion (lanesIn x.present) s with
    | .error e => .error e
    | .ok (y, s) => .ok ({ y with grp := { y.grp with regions := [], reopen := [] } }.put s)

/-- The breakpoint that a packed group has passed: one that every group its threads come from has (R411). -/
def packBrk (gs : Map Group) (m : List (Nat × Nat)) : Option (Dword × Nat) :=
  let bs := (gs.filter fun p => p.2.members.any m.contains).map fun p => p.2.brk
  match bs with
  | b :: rest => if rest.all (· == b) then b else none
  | [] => none

/-- Packs every thread of a role that stands at a region head into formed sheaves (R31). The groups it comes from give
their buffers up, and the episodes they run ahead in go without effect. -/
def packEntry (s : State) (crew role : Nat) (a : Dword) (words : List Word) : Except Stop State :=
  match Map.find? s.crews crew with
  | none => .ok s
  | some c =>
    let gs := c.groups.filter fun p => standsAt c role a p.2
    let s := gs.foldl (fun s p => s.leaveEpisode crew p.1) s
    match foldE (fun s (p : Nat × Group) => packOne s crew p.1) s gs with
    | .error e => .error e
    | .ok s =>
      let s := gs.foldl (fun s p => freeBuffer s crew p.1) s
      let ps := gs.flatMap fun p => p.2.live c
      let ms := formSheaves ps
      let s := s.modCrew crew fun c =>
        let c := restartPoint c ps (fun _ => none) s.seq
        let c := { c with groups := c.groups.filter fun p => !gs.any fun q => q.1 == p.1 }
        ms.foldl (fun c m =>
          let n := c.freshGroup
          { c with groups := Map.put c.groups n { Group.init role n true m with fetched := some (a, words), brk := packBrk gs m } }) c
      match s.gridOf crew with
      | some (w, g) => .ok (countN s 1 w.core g.vf (g.desc.flags.testBit 0) 0x0008 ms.length)
      | none => .ok s

/-! ## CLAUSE_START (R36, R161) -/

/-- The cause of a header (Table 7.6 rows 2 to 5). -/
def headerCause (h : Word) : Option Cause :=
  match decodeHeader h with
  | .error c => some c
  | .ok _ => none

/-- Starts a group's clause: the causes of its header and those posted for a flag it waits on come first, these at the instruction
the clause begins with (R281; DEDUCED, assumption 34). -/
def startClause (s : State) (x : Iss) (h : Word) (ws : List Word) : State :=
  let crew := x.cur.crew
  let grp := x.cur.group
  match headerCause h with
  | some c => raiseCause s x x.present c 0 (entrySets x.crew x.grp.role x.cur.addr) []
  | none =>
    match (if x.grp.episode.isSome then none else postedAt x fun i => decide (i < 12) && h.getLsbD (7 + i)) with
    | some (p, ts, rest) =>
      let i := ((ts.head?).map fun q => (x.crew.thread q).index).getD 1
      let y := { x with crew := { x.crew with posted := rest } }.placed h (ws.drop (i - 1)) i
      raiseCause (y.put s) y ts p.cause y.cur.index (placedSets y h (ws.drop (i - 1))) (ts.map fun q => (q.1, p.faddr))
    | none =>
      s.modGroup crew grp fun g =>
        let ls := match g.episode with
          | some e => lanesIn (x.present.filter fun p => e.lanes.contains p.1)
          | none => lanesIn x.present
        let i := ((x.present.find? fun p => ls.contains p.1).map fun p => (x.crew.thread p).index).getD 1
        { g with active := some { addr := x.cur.addr, hdr := h, words := ws, lanes := ls, index := i },
                 ranWait := g.episode.isSome && g.ranWait, noShadow := g.episode.isSome && g.noShadow }

/-- Whether a role has a clause that goes on issuing. -/
def roleBusy (c : Crew) (role : Nat) : Bool :=
  c.groups.any fun p => p.2.role == role && p.2.active.isSome && p.2.wait == .none && !p.2.halted && p.2.episode.isNone

/-- The group that holds the first thread of a context's group, its parts joined. -/
def joinedGroup (s : State) (x : Iss) : Nat :=
  ((Map.find? s.crews x.cur.crew).bind fun c => (x.present.head?).bind fun p =>
    (List.find? (fun q : Nat × Group => q.2.members.contains p) c.groups).map fun q => q.1).getD x.cur.group

/-- Starts the clause of a group at its entry, its parts joined and its divergences reconverged; a region head is packed
first. -/
def startEntry (s : State) (crew role grp : Nat) : State :=
  match startIss s crew grp with
  | none => s
  | some x =>
    match x.grp.clause x.crew with
    | none => s
    | some (h, ws) =>
      let s := s.modCrew crew fun c => joinParts (reconverge 512 (chosen c role x.cur.addr.toNat) role x.cur.addr) role x.cur.addr h
      if regionHead h ws && x.grp.pc x.crew == some (x.cur.addr, 1) then
        match packEntry s crew role x.cur.addr (h :: ws) with
        | .error (.raise c _) => failCrew s crew (nestedAs s crew x.present c) (engineRec s crew x.cur.addr 0 0)
        | .error _ => s
        | .ok s =>
          match Map.find? s.crews crew with
          | none => s
          | some c =>
            match bestOf c role ((candidates c role).filter fun q => q.2.2 == x.cur.addr.toNat) with
            | none => s
            | some q =>
              match startIss s crew q.1 with
              | some y => startClause s y h ws
              | none => s
      else
        match startIss s crew (joinedGroup s x) with
        | some y => startClause s y h ws
        | none => s

/-- Starts the next clause of an episode: its wait counts as met (Table 2.3). -/
def startAhead (s : State) (crew grp : Nat) : State :=
  let t := s.enterEpisode crew grp
  match startIss t crew grp with
  | none => s
  | some x =>
    match x.grp.clause x.crew with
    | none => s
    | some (h, ws) =>
      match headerCause h with
      | some _ => t.leaveEpisode crew grp
      | none => (startClause t x h ws).exitEpisode crew grp

/-- The groups of a crew whose episode's blocked wait has become met (R55). -/
def metEpisodes (c : Crew) : List Nat := (c.groups.filter fun p => episodeMet c p.2).map fun p => p.1

/-- Ends the episodes of a crew whose blocked wait has become met. -/
def endMet (s : State) (crew : Nat) : State :=
  match Map.find? s.crews crew with
  | some c => (metEpisodes c).foldl (fun s g => s.leaveEpisode crew g) s
  | none => s

/-- CLAUSE_START (R29, R36): the selector of a role group chooses an entry and a group, whose clause starts. It does nothing
while a clause of the role goes on issuing or none may start. -/
def execClauseStart (crew role : Nat) (s : State) : Outcome State Fault Refusal :=
  let s := endMet s crew
  match Map.find? s.crews crew with
  | none => .next s
  | some c =>
    if c.st ≠ .resident ∨ roleBusy c role then .next s
    else
      match choose c role with
      | none => .next s
      | some q => .next (if q.2.1.episode.isSome then startAhead s crew q.1 else startEntry s crew role q.1)

/-! ## Runahead episodes (R52, R55) -/

/-- Whether a store or matrix request before a place in the order is counted by a flag of some home sheaves. -/
def countedBefore (s : State) (crew core seq f : Nat) (homes : List Nat) : Bool :=
  ((s.core core).storeQ.any fun e => e.crew == crew && e.flag == some f && decide (e.seq < seq) && e.homes.any fun h => homes.contains h) ||
  s.engines.any fun p => p.2.all.any fun r =>
    r.crew == crew && r.flag == f && decide (r.seq < seq) && r.homes.any fun h => homes.contains h

/-- The oldest operation that a flag of some home sheaves counts, where it is one of those that may miss (R52): neither a store nor a
matrix request. -/
def oldestOf (s : State) (crew core f : Nat) (homes : List Nat) : Option Op :=
  match leastBy (fun p : Nat × Op => p.2.seq) (s.ops.filter fun p =>
    p.2.crew == crew && p.2.flag == some f && p.2.homes.any fun h => homes.contains h) with
  | some p => if countedBefore s crew core p.2.seq f homes then none else some p.2
  | none => none

/-- Whether a generic address that a copy still accesses is in a line its home slice does not hold, or of a peer (R52). -/
def copyMissed (s : State) (o : Op) : Bool :=
  match o.kind, s.gridOf o.crew with
  | .copy b idx form _ _ progress _ ring, some (c, g) =>
    let d := CDesc.read b
    let lost (va need : Nat) : Bool :=
      match quietPlace s c.core g va need with
      | .ok p => p.dev != 0 || !sliceHit s g.vf p.pa
      | .error _ => false
    let src := if form = 3 then ((List.range d.rows).drop progress).flatMap d.rowSrcs else ((d.pairs form idx).drop progress).map (·.1)
    (d.srcSpace == .generic && src.any fun va => lost va 1) ||
      (d.dstSpace == .generic && ((d.dsts form idx (ringBase ring)).drop progress).any fun ds => ds.any fun q => lost q.1 2)
  | _, _ => false

/-- Whether a group waits on one of some flags whose oldest operation is an L2 miss (R52). -/
def missBlocked (s : State) (x : Iss) (fs : List Nat) : Bool :=
  fs.any fun i =>
    match oldestOf s x.cur.crew x.crew.core i (homesOf x.present) with
    | some o => o.missed || copyMissed s o
    | none => false

/-- The flags a blocked group waits on: those of its clause's wait mask that are not met, or its WAITF's. -/
def awaited (x : Iss) : List Nat :=
  match x.grp.active, x.grp.wait, x.grp.clause x.crew with
  | some _, .waitf f thr, _ => if flagMet x.crew x.present f thr then [] else [f]
  | none, .none, some (h, _) => (List.range 12).filter fun i => h.getLsbD (7 + i) && !flagMet x.crew x.present i 0
  | _, _, _ => []

/-- The clause an episode of a blocked group starts at: the one it waits to start, or the one it waits in at a WAITF (R53, R313); none
under a malformed header, whose cause ends the episode before issue (R174). -/
def aheadClause (x : Iss) : Option ActiveClause :=
  match x.grp.active, x.grp.clause x.crew with
  | some a, _ => some a
  | none, some (h, ws) =>
    if (headerCause h).isSome then none
    else
      some { addr := x.cur.addr, hdr := h, words := ws, lanes := lanesIn x.present,
             index := ((x.present.head?).map fun p => (x.crew.thread p).index).getD 1 }
  | none, none => none

/-- Whether a blocked group starts an episode, a free shadow apart (R17, R52, R313). -/
def mayRunAhead (s : State) (x : Iss) : Bool :=
  x.crew.st == .resident && x.grp.episode.isNone && !x.grp.halted && !x.grp.ranWait && !x.grp.noShadow && bitOf x.grid.desc.flags 1 &&
    !noRunahead x && x.grp.quad.isSome && missBlocked s x (awaited x)

/-- RUNAHEAD_START (R52, R53): more than 64 c-cycles into the wait. Without a free shadow the group waits without runahead
(R17). -/
def execRunaheadStart (crew group : Nat) (s : State) : Outcome State Fault Refusal :=
  match startIss s crew group with
  | none => .next s
  | some x =>
    if !mayRunAhead s x then .next s
    else if !shadowFree s x then .next (s.modGroup crew group fun g => { g with noShadow := true })
    else
      match aheadClause x with
      | some a => .next (startEpisode s { x with grp := { x.grp with ranWait := true } } (some a) none [])
      | none => .next (s.modGroup crew group fun g => { g with ranWait := true })

/-- RUNAHEAD_INSTRUCTION_LIMIT (R55): an episode that has issued 512 instructions ends. -/
def execRunaheadInstructionLimit (crew group : Nat) (s : State) : Outcome State Fault Refusal :=
  match s.episode crew group with
  | some e => .next (if 512 ≤ e.count then s.leaveEpisode crew group else s)
  | none => .next s

/-! ## STALL_TIMEOUT (R40) -/

/-- Whether a wait counts towards the watchdog. -/
def watched : Wait → Bool
  | .waitf _ _ | .bar _ | .barpw _ | .ring _ _ | .msgp | .joinc _ | .migr _ | .landing _ | .launch _ | .engine | .rrel => true
  | _ => false

/-- Whether a copy that a flag of a group counts awaits fault service. -/
def copyAwaits (s : State) (crew : Nat) (homes : List Nat) (fs : List Nat) : Bool :=
  s.ops.any fun p => p.2.crew == crew && p.2.batch.isSome && (p.2.homes.any fun h => homes.contains h) &&
    match p.2.flag with
    | some f => fs.contains f
    | none => false

/-- The context of the instruction a group waits in: its index and length. -/
def waitingIss (x : Iss) (a : ActiveClause) : Iss :=
  let ps := a.lanes.map fun l => (l, x.grp.homeAt l)
  { x with cur := { x.cur with lanes := ps }, present := ps, active := ps }.placed a.hdr (a.words.drop (a.index - 1)) a.index

/-- STALL_TIMEOUT (R40, R56): the watchdog of a blocked group expires at the clause or instruction it waits on; an episode is
discarded first. -/
def execStallTimeout (crew group : Nat) (s : State) : Outcome State Fault Refusal :=
  let s := reconvergeAt s crew group
  match startIss s crew group with
  | none => .next s
  | some x0 =>
    let blocked := x0.crew.st == .resident && !x0.grp.halted && !copyAwaits s crew (homesOf x0.present) (awaited x0) &&
      match x0.grp.active with
      | some _ => watched x0.grp.wait
      | none => x0.grp.wait == .none && (match x0.grp.clause x0.crew with | some (h, _) => !maskMet x0.crew x0.grp h | none => false)
    if !blocked then .next s
    else
      let s := if x0.grp.episode.isSome then s.leaveEpisode crew group else s
      match startIss s crew group with
      | none => .next s
      | some x =>
        match x.grp.active with
        | some a =>
          let y := waitingIss x a
          .next (raiseCause s y y.present .stallTimeout y.cur.index (placedSets y a.hdr (a.words.drop (a.index - 1))) [])
        | none => .next (raiseCause s x x.present .stallTimeout 0 (entrySets x.crew x.grp.role x.cur.addr) [])

end Sys2Proof.Machine
end

