-- ==== Sys2Proof/Machine/Image.lean ====
section
/-! DEFINITION. Save records: their layout, where they stand, and the image of an evicted crew (14_scheduling.md R335 to R337;
16_partitions.md R370; 05_memory.md R118). -/

namespace Sys2Proof.Machine

/-! ## Crews that stand on their cores -/

/-- Whether a crew in a state holds its core's resources. -/
def CrewSt.present : CrewSt → Bool
  | .resident | .spilling | .draining | .stopping | .stopped => true
  | .ready | .evicted | .saved | .retired | .killed => false

/-- Whether a crew of the state is of class H. -/
def crewIsH (s : State) (w : Crew) : Bool :=
  match Map.find? s.grids w.grid with
  | some g => bitOf g.desc.flags 0
  | none => false

/-- The VF of a crew of the state; 0 where its grid is gone. -/
def crewVf (s : State) (w : Crew) : Nat :=
  match Map.find? s.grids w.grid with
  | some g => g.vf
  | none => 0

/-! ## Shared rings (R118) -/

/-- Whether a crew is another of those that share a ring with a crew at a cluster. -/
def sharesRing (n : Nat) (w : Crew) (cluster id : Nat) (p : Nat × Crew) : Bool :=
  p.1 != n && p.2.grid == w.grid && clusterOf p.2.core == cluster && Map.has p.2.rings id

/-- Whether another sharing crew of a ring stands on a cluster. -/
def sharedStays (s : State) (n : Nat) (w : Crew) (id : Nat) : Bool :=
  s.crews.any fun p => sharesRing n w (clusterOf w.core) id p && p.2.st.present

/-- The shared rings of a crew. -/
def sharedIds (w : Crew) : List Nat := (w.rings.filter fun r => sharedRing r.1 r.2).map (·.1)

/-- Whether a W unit of a crew belongs to one of some rings. -/
def unitIn (w : Crew) (ids : List Nat) (u : Nat) : Bool :=
  ids.any fun i => match Map.find? w.rings i with
    | some r => (r.indexOf u).isSome
    | none => false

/-- The W units that leave a cluster with a crew: its own, and those of the shared rings no other crew holds there; of a crew that has
left, those that stand in its record. -/
def leavingW (s : State) (n : Nat) (w : Crew) : Map TUnit :=
  if !w.st.present then w.unitsW.filter fun u => w.savedW.contains u.1
  else
  let stay := (sharedIds w).filter fun i => sharedStays s n w i
  w.unitsW.filter fun u => !unitIn w stay u.1

/-! ## The save record (R336, Tables 14.8, 14.9) -/

/-- A length in whole units of 4 KiB. -/
def upTo4K (n : Nat) : Nat := (n + 4095) / 4096 * 4096

/-- Bytes padded with zeros to whole units of 4 KiB. -/
def pad4K (bs : List Byte) : List Byte := bs ++ List.replicate (upTo4K bs.length - bs.length) 0

/-- The scratchpad section: the bytes, then one set index per 64 B. -/
def imageScratch (w : Crew) (n : Nat) : List Byte :=
  ((List.range n).map fun i => sharedByte w i) ++ (List.range (n / 64)).flatMap fun i => bytesOf 2 (sharedSet w (64 * i))

/-- A home sheaf's bank images: registers ascending, and in each the lanes ascending. -/
def imageBanks (h : Sheaf) : List Byte :=
  (List.range h.budget).flatMap fun r => (List.range 32).flatMap fun l => bytesOf 4 (h.mainAt r l).toNat

/-- The return stack of a lane, lowest entry first: 16 entries of 8 B. -/
def imageStack (t : Thread) : List Byte :=
  (List.range 16).flatMap fun i => bytesOf 8 ((t.ret.reverse[i]?).getD 0).toNat

/-- The region a thread resumes in: that its group is to reopen for it. -/
def imageRegion (w : Crew) (p : Nat × Nat) : Option RegionMap :=
  w.groups.findSome? fun g => if g.2.members.contains p then laneMap g.2 p.1 else none

/-- Per lane: base/8, kind and `.NRA`, mask. -/
def imageMap (m : Option RegionMap) : List Byte :=
  match m with
  | some m => bytesOf 1 m.base ++ bytesOf 1 ((if m.restartable then 1 else 0) + (if m.nra then 2 else 0)) ++ bytesOf 2 0 ++ bytesOf 4 m.mask.toNat
  | none => List.replicate 8 0

/-- A home sheaf's block of 8 KiB; its opaque part is the device's own. -/
def imageBlock (s : State) (w : Crew) (i : Nat) : List Byte :=
  let h := w.sheaf i
  let ls := List.range 32
  let t (l : Nat) : Thread := w.thread (l, i)
  ((List.range 30).flatMap fun k => bytesOf 4 (Map.get h.k k 0).toNat) ++ ((List.range 30).flatMap fun k => bytesOf 2 (Map.get h.kS k 0)) ++
  ((List.range 12).flatMap fun f => bytesOf 1 (h.flag f)) ++
  ((List.range 7).flatMap fun p => bytesOf 4 (sumOf (ls.map fun l => if h.pred p l then 2 ^ l else 0))) ++ bytesOf 4 0 ++
  ((List.range 7).flatMap fun p => bytesOf 2 (h.predSet p)) ++ bytesOf 2 0 ++
  (ls.flatMap fun l => bytesOf 4 ((t l).rmode.code + 8 * (t l).ptsel.val + 64 * (t l).fpx.toNat)) ++
  (ls.flatMap fun l => bytesOf 2 (t l).rmodeS ++ bytesOf 2 (t l).ptselS ++ bytesOf 2 (t l).fpxS) ++
  (ls.flatMap fun l => bytesOf 4 (t l).cause.toNat ++ bytesOf 4 (t l).tpc.toNat ++ bytesOf 8 (t l).faddr.toNat) ++
  (ls.flatMap fun l => bytesOf 8 (t l).clause.toNat ++
    bytesOf 8 ((t l).index + 16 * (t l).ret.length + (if (t l).exited then 512 else 0) + (if (t l).handler then 1024 else 0))) ++
  (ls.flatMap fun l => imageMap (imageRegion w (l, i))) ++
  ((List.range 2256).map fun j => Config.opaqueByte s.free (8192 * i + j)) ++
  (ls.flatMap fun l => imageStack (t l))

/-- One home sheaf: bank images, the sets of v0 to v255, its block. -/
def imageSheaf (s : State) (w : Crew) (i : Nat) : List Byte :=
  imageBanks (w.sheaf i) ++ ((List.range 256).flatMap fun r => bytesOf 2 ((w.sheaf i).mainSet r)) ++ imageBlock s w i

/-- A typed unit's bytes and set; an A slot as its four quarter-slots. -/
def imageUnit (w : Crew) (sp : TSpace) (u : Nat) : List Byte :=
  let n := if sp = .A then 2048 else unitBytes sp
  (List.range (unitBytes sp / n)).flatMap fun q =>
    ((List.range n).map fun i => typedByte w sp (unitBytes sp * u + n * q + i)) ++ bytesOf 2 (typedSet w sp (unitBytes sp * u))

/-- The typed section of a crew. -/
def imageTyped (s : State) (n : Nat) (w : Crew) : List Byte :=
  ((leavingW s n w).flatMap fun u => imageUnit w .W u.1) ++ (w.unitsA.flatMap fun u => imageUnit w .A u.1) ++
    w.unitsC.flatMap fun u => imageUnit w .C u.1

/-- The entry of a saved copy: descriptor, progress, mode, window, sheaf. -/
def imageCopy (o : Op) : List Byte :=
  match o.kind with
  | .copy d _ _ m w k _ _ =>
    d ++ List.replicate (192 - d.length) 0 ++ bytesOf 8 k ++ bytesOf 1 m.code ++ bytesOf 1 w ++ bytesOf 1 (o.homes.headD 0) ++
      List.replicate 53 0
  | _ => []

/-- The engines section: the copies of a crew. -/
def imageEngines (s : State) (n : Nat) : List Byte := (s.ops.filter fun p => p.2.crew == n).flatMap fun p => imageCopy p.2

/-- A barrier's 16 bytes. -/
def imageBarrier (b : Barrier) : List Byte :=
  bytesOf 2 (if b.phase then 1 else 0) ++ bytesOf 2 b.expect ++ bytesOf 2 b.arrived ++ bytesOf 2 b.drops ++
    bytesOf 4 (sumOf (b.sheaves.map fun h => 2 ^ h)) ++ bytesOf 4 0

/-- A ring id's 16 bytes: F, L and the device's own. -/
def imageRing (s : State) (n : Nat) (w : Crew) (id : Nat) : List Byte :=
  match Map.find? w.rings id with
  | some r => bytesOf 2 r.free ++ bytesOf 2 (Map.get r.filled n 0) ++ (List.range 12).map fun j => Config.opaqueByte s.free (2 ^ 20 + 16 * id + j)
  | none => List.replicate 16 0

/-- The header of 1 KiB (Table 14.8), with the length and the offsets of the sections. -/
def imageHeader (s : State) (n : Nat) (w : Crew) (g : Grid) (len : Nat) (offs : List Nat) : List Byte :=
  bytesOf 4 1 ++ bytesOf 4 (len / 4096) ++ bytesOf 8 w.grid ++ bytesOf 4 w.index ++ bytesOf 2 w.sheaves.length ++ bytesOf 2 g.desc.flags ++
    bytesOf 4 g.desc.scratch ++ bytesOf 4 0 ++ (offs.flatMap fun o => bytesOf 8 o) ++ g.desc.raw ++ List.replicate (128 - g.desc.raw.length) 0 ++
    ((List.range 16).flatMap fun b => imageBarrier (w.barrier b)) ++ ((List.range 256).flatMap fun i => bytesOf 1 (Map.get w.ptab i (i % 32))) ++
    (List.range 20).flatMap fun id => imageRing s n w id

/-- The save record of a crew. -/
def saveRecord (s : State) (n : Nat) (w : Crew) (g : Grid) : List Byte :=
  let a := pad4K (imageScratch w g.desc.scratch)
  let b := pad4K ((List.range w.sheaves.length).flatMap fun i => imageSheaf s w i)
  let c := pad4K (imageTyped s n w)
  let d := pad4K (imageEngines s n)
  let offs := [4096, 4096 + a.length, 4096 + a.length + b.length, 4096 + a.length + b.length + c.length]
  let len := 4096 + a.length + b.length + c.length + d.length
  pad4K (imageHeader s n w g len offs) ++ a ++ b ++ c ++ d

/-! ## Where records stand (R337, R370) -/

/-- The records of a VF's crews of a class: offset and length. -/
def saveTaken (s : State) (vf : Nat) (h : Bool) : List (Nat × Nat) :=
  (s.crews.filter fun p => crewVf s p.2 == vf && crewIsH s p.2 == h).filterMap fun p => p.2.saveAt

/-- The first fit from the lowest offset in an area, in units of 4 KiB. -/
def firstFit (taken : List (Nat × Nat)) (area len : Nat) : Option Nat :=
  let fits (o : Nat) : Bool := decide (o + len ≤ area) && taken.all fun r => decide (o + len ≤ r.1 ∨ r.1 + r.2 ≤ o)
  (ascending (0 :: taken.map fun r => r.1 + r.2)).find? fits

/-- The bytes of a VF's area for a class: the context save area, or the spill region. -/
def saveArea (s : State) (vf : Nat) (h : Bool) : Nat :=
  if h then (s.vf vf).cfg.spillN * 65536 else (s.vf vf).csalen.toNat * 65536

/-- Where a piece of a record lies in memory: the spill region's pages by the tenant's stage 2. -/
def savePieces (s : State) (vf : Nat) (h : Bool) (fuel off len : Nat) : Option (List (Nat × Nat)) :=
  match fuel with
  | 0 => some []
  | f + 1 =>
    if len = 0 then some []
    else if !h then some [((s.vf vf).csa.toNat + off, len)]
    else
      let gpa := (s.vf vf).cfg.spill.toNat + off
      let n := min len (65536 - gpa % 65536)
      match stage2 s vf gpa with
      | .ok w => if w.w && w.dev == 0 then (savePieces s vf h f (off + n) (len - n)).map fun ps => (w.pa, n) :: ps else none
      | .error _ => none

/-- Writes bytes to pieces of memory. -/
def putPieces (s : State) (vf : Nat) (ps : List (Nat × Nat)) (bs : List Byte) : State :=
  match ps with
  | [] => s
  | p :: rest => putPieces (sideWrite s vf p.1 (bs.take p.2)) vf rest (bs.drop p.2)

/-- Room for a crew's record: its offset, none where it does not fit or its pages cannot be reached. -/
def saveRoom (s : State) (n : Nat) (w : Crew) (g : Grid) : Option (Nat × Nat) :=
  let h := bitOf g.desc.flags 0
  let len := (saveRecord s n w g).length
  match firstFit (saveTaken s g.vf h) (saveArea s g.vf h) len with
  | some o => if (savePieces s g.vf h (len / 65536 + 2) o len).isSome then some (o, len) else none
  | none => none

/-- Writes a crew's record where it stands. -/
def writeImage (s : State) (n : Nat) : State :=
  match s.gridOf n with
  | none => s
  | some (w, g) =>
    match w.saveAt with
    | none => s
    | some (o, len) =>
      match savePieces s g.vf (bitOf g.desc.flags 0) (len / 65536 + 2) o len with
      | some ps =>
        (putPieces s g.vf ps ((saveRecord s n w g).take len)).modCrew n fun c => { c with savedW := Map.keys (leavingW s n w) }
      | none => s

/-- An operation of an evicted crew has come about: its image changes with it (R50). -/
def refreshImage (s : State) (n : Nat) : State :=
  match Map.find? s.crews n with
  | some w => if w.st = .evicted then writeImage { s with free := s.free + 1 } n else s
  | none => s

end Sys2Proof.Machine
end

