-- ==== Sys2Proof/Machine/Deliver.lean ====
section
/-! DEFINITION. How loads, read-modify-writes, stores and reductions come about: LOAD_DELIVERY and STORE_PERFORMED
(02_execution.md R37, R47; 06_ordering.md R136, R138 to R148; 11_isa_memory.md R258, R265; 18_observation.md R415). -/

namespace Sys2Proof.Machine

open Host (Outcome)

/-! ## The store hash (R415) -/

/-- CRC-64/ECMA-182 over n more bits, the most significant first. -/
def crcBits (n : Nat) (h : Dword) : Dword :=
  match n with
  | 0 => h
  | n + 1 => crcBits n (if h.msb then (h <<< 1) ^^^ 0x42F0E1EBA9EA3693#64 else h <<< 1)

/-- CRC-64/ECMA-182 over bytes. -/
def crcBytes (h : Dword) (bs : List Byte) : Dword :=
  match bs with
  | [] => h
  | b :: rest => crcBytes (crcBits 8 (h ^^^ (b.setWidth 64 <<< 56))) rest

/-- The code of a space in the hashed byte; no thread stores to W. -/
def Space.code : Space → Nat
  | .generic => 0
  | .shared => 1
  | .spA => 2
  | .spC => 3
  | .spW => 4

/-- The bytes hashed for a write. -/
def hashedBytes (a : Acc) (bs : List Byte) : List Byte :=
  bytesOf 8 a.addr ++ [BitVec.ofNat 8 (32 * a.space.code + bs.length)] ++ bs

/-- Adds a write to the store hash of its home sheaf. Whatever is hashed lies before every restart point from now on, so
the checkpointed hash moves with it (R51). -/
def putHash (s : State) (crew : Nat) (a : Acc) (bs : List Byte) : State :=
  s.modCrew crew fun c => c.modSheaf a.sheaf fun z =>
    { z with hash := crcBytes z.hash (hashedBytes a bs), ckHash := crcBytes z.ckHash (hashedBytes a bs) }

/-! ## Who performs -/

/-- The core and VF of an operation, and whether it is of class H; none of the crew that has gone. -/
def whoActs (s : State) (crew grid : Nat) : Option Nat × Nat × Bool :=
  let g := Map.find? s.grids grid
  ((Map.find? s.crews crew).map fun c => c.core, (g.map fun g => g.vf).getD 0, (g.map fun g => bitOf g.desc.flags 0).getD false)

/-- The record of a failure of an operation at an address. -/
def opRec (s : State) (crew : Nat) (home : Nat) (clause : Dword) (index : Nat) (va : Nat) : FRec :=
  match s.gridOf crew with
  | some (w, g) => crewRec s g.vf w.grid w home clause index (dword va)
  | none => FRec.init

/-- The record of an operation. -/
def Op.rec_ (s : State) (o : Op) (va : Nat) : FRec := opRec s o.crew (o.homes.headD 0) o.clause o.index va

/-- Whether every recorded access has been performed. -/
def allRecorded (as : List Acc) : Bool := as.all fun a => a.who.isNone || a.done

/-- Takes a line back to the memory side: from every L1 of a die, and from what it has written back (R145, Table 6.4). -/
def takeBack (s : State) (die key : Nat) : State :=
  let s := recallLine s die key
  (s.wbufs.filter fun w => w.die == die && w.line == key && !w.sent).foldl (fun s w =>
    l2Merge { s with wbufs := s.wbufs.erase w } w) s

/-- Takes a local line back from the die of a core, or from both where there is no core any more. -/
def takeBackFor (s : State) (core : Option Nat) (key : Nat) : State :=
  match core with
  | some c => takeBack s (dieOf c) key
  | none => takeBack (takeBack s 0 key) 1 key

/-! ## Writing destinations (R47, R73, R258) -/

/-- The context in which a result reaches the threads of one group, outside its episode. -/
def resultIss (w : Crew) (gd : Grid) (crew grp : Nat) (g : Group) (ts : List (Nat × Nat)) : Iss :=
  { cur := { crew := crew, group := grp, lanes := ts, addr := 0, hdr := 0, first := 0, index := 0, len := 1 },
    crew := w, grp := { g with episode := none }, grid := gd, present := ts, active := ts }

/-- Puts a late commit result into the clean lanes of the open slots that map its register (R47 step 3). -/
def putClean (x : Iss) (v : Nat) (vs : List ((Nat × Nat) × Word)) (set : OSet) (t : Map OEntry) :
    Except Stop (Iss × Map OEntry) :=
  let one (a : List Region × Crew × Map OEntry) (r : Region) : Except Cause (List Region × Crew × Map OEntry) :=
    match (mapSlot r.map v).bind fun j => (Map.find? r.slots j).map fun sl => (j, sl) with
    | none => .ok (a.1 ++ [r], a.2)
    | some (j, sl) =>
      let mine := vs.filter fun q => r.lanes.contains q.1.1 && !laneGet sl.dirty q.1.1 false
      let sl : Slot := { sl with vals := mine.foldl (fun xs q => laneSet xs q.1.1 q.2) sl.vals }
      let ps := mine.map (·.1)
      match foldE (fun b h => putSlotSet x.grp.family r.map j set (allLanes ps h) (allLanes ps h) b h) a.2 (homesOf ps) with
      | .error e => .error e
      | .ok a2 => .ok (a.1 ++ [{ r with slots := Map.put r.slots j sl }], a2)
  match foldE one ([], x.crew, t) x.grp.regions with
  | .error e => .error (.raise e [])
  | .ok (rs, c, t) => .ok ({ x with crew := c, grp := { x.grp with regions := rs } }, t)

/-- Writes one register of a result: a commit result goes to the main register and the clean lanes of its slot; another
goes to the slot that maps the register, or to the register itself where none does (assumption 12). `all` are the threads whose
result comes at once, in whatever groups they stand by now (R83). -/
def resultReg (x : Iss) (commit : Bool) (v : Nat) (vs : List ((Nat × Nat) × Word)) (all : List (Nat × Nat)) (set : OSet)
    (t : Map OEntry) : Except Stop (Iss × Map OEntry) :=
  if commit then
    match writeMainOf x v vs all set t with
    | .error e => .error e
    | .ok (x, t) => putClean x v vs set t
  else writeXreg x v vs all set t

/-- Writes the registers of a result in the threads of one group, of all those whose result comes at once. -/
def resultRegs (x : Iss) (d : Dest) (vs : List ((Nat × Nat) × List Word)) (all : List (Nat × Nat)) (set : OSet) (t : Map OEntry) :
    Except Stop (Iss × Map OEntry) :=
  foldE (fun (a : Iss × Map OEntry) i =>
    foldE (fun (b : Iss × Map OEntry) v =>
      resultReg b.1 d.commit v
        ((vs.filter fun q => d.mainReg q.1.1 i == some v).map fun q => (q.1, (q.2[i]?).getD 0))
        (all.filter fun q => d.mainReg q.1 i == some v) set b.2) a
      (dedup (vs.filterMap fun q => d.mainReg q.1.1 i))) (x, t) (List.range d.regs)

/-- The parts of an issue group as one group: their members and open regions together (R84). -/
def oneGroup (g : Group) (ps : List (Nat × Group)) : Group :=
  { g with members := ps.flatMap fun p => p.2.members, regions := ps.flatMap fun p => p.2.regions }

/-- The parts of an issue group with the regions that the group as a whole has come to hold. -/
def splitRegions (ps : List (Nat × Group)) (rs : List Region) : List (Nat × Group) :=
  match ps with
  | [] => []
  | p :: rest =>
    (p.1, { p.2 with regions := rs.take p.2.regions.length }) :: splitRegions rest (rs.drop p.2.regions.length)

/-- Adds the values delivered to threads of a group to its hash of register values written (R33). -/
def noteValues (g : Group) (vs : List ((Nat × Nat) × List Word)) : Group :=
  (vs.filter fun q => g.members.contains q.1).foldl (fun g q => q.2.foldl noteWrite g) g

/-- Delivers a result into the registers of the threads of one issue group, its parts together. -/
def deliverFamily (s : State) (crew : Nat) (d : Dest) (vs : List ((Nat × Nat) × List Word)) (set : OSet) (fam : Nat) :
    Except Stop State :=
  match s.gridOf crew with
  | none => .ok s
  | some (w, gd) =>
    let ps := w.groups.filter fun p => p.2.family == fam
    let mine := vs.filter fun q => ps.any fun p => p.2.members.contains q.1
    match ps with
    | [] => .ok s
    | p :: _ =>
      if mine.isEmpty then .ok s
      else
        match resultRegs (resultIss w gd crew p.1 (oneGroup p.2 ps) (mine.map (·.1))) d mine (vs.map (·.1)) set s.osets with
        | .error e => .error e
        | .ok (y, t) =>
          let gs := (splitRegions ps y.grp.regions).map fun q => (q.1, noteValues q.2 mine)
          .ok { s with osets := t,
                       crews := Map.put s.crews crew { y.crew with groups := gs.foldl (fun m q => Map.put m q.1 q.2) y.crew.groups } }

/-- Delivers a result into the registers of its threads, issue group by issue group as they stand now. -/
def deliverRegs (s : State) (crew : Nat) (d : Dest) (vs : List ((Nat × Nat) × List Word)) (set : OSet) :
    Except Stop State :=
  match s.gridOf crew with
  | none => .ok s
  | some (w, _) => foldE (fun s f => deliverFamily s crew d vs set f) s (dedup (w.groups.map fun p => p.2.family))

/-- Delivers an LDK's words into the k registers of its home sheaves (R263), and notes them in the hash of values written (R33). -/
def deliverK (s : State) (crew d : Nat) (vs : List ((Nat × Nat) × List Word)) (set : OSet) : State :=
  s.modCrew crew fun c =>
    let c := vs.foldl (fun c v =>
      c.modSheaf v.1.2 fun z =>
        (v.2.zip (List.range v.2.length)).foldl (fun (z : Sheaf) q =>
          { z with k := Map.put z.k (d + q.2) q.1, kS := Map.put z.kS (d + q.2) set }) z) c
    { c with groups := c.groups.map fun p => (p.1, noteValues p.2 vs) }

/-! ## Read-modify-writes at their point (R145, R265) -/

/-- How far an operation has come. -/
inductive Run where
  | wait (s : State)
  | done (s : State) (olds : List Dword)
  | bad (s : State) (c : Cause)
  deriving DecidableEq, Repr

/-- The number of a read-modify-write kind, its values and compared values. -/
def Op.rmw (o : Op) : Option (RmwOp × List Dword × List Dword) :=
  match o.kind with
  | .atom op _ vs cs => some (op, vs, cs)
  | .red op vs => some (op, vs, vs)
  | _ => none

/-- The accesses of a read-modify-write with v and c. -/
def Op.rmwLanes (o : Op) (vs cs : List Dword) : List (Acc × Dword × Dword) := o.accs.zip (vs.zip cs)

/-- Where a write of a lane is recorded to have come from. -/
def laneRec (s : State) (o : Op) (a : Acc) : FRec := opRec s o.crew a.sheaf o.clause o.index a.addr

/-- The bytes a read-modify-write works on at its point. -/
def rmwRead (s : State) (o : Op) (core : Option Nat) (vf : Nat) (a : Acc) : Dword :=
  match a.space, core with
  | .shared, _ =>
    match Map.find? s.crews o.crew with
    | some c => dword (Memory.num c.scratch a.addr a.n)
    | none => 0
  | _, some k => if wideScope o.scope then dword (memNum s vf a.pa a.n) else dword (ofBytes (dieReads s k vf 0 a.pa a.n))
  | _, none => dword (memNum s vf a.pa a.n)

/-- Writes the bytes of a read-modify-write at its point, with their sets (R120). -/
def rmwWrite (s : State) (o : Op) (core : Option Nat) (vf : Nat) (h : Bool) (a : Acc) (bs : List Byte) : Except Cause State :=
  if a.space = .shared then
    match Map.find? s.crews o.crew with
    | none => .ok s
    | some c =>
      match joinShared c s.osets a.addr o.set with
      | .error e => .error e
      | .ok (c, t) =>
        .ok { s with osets := t, crews := Map.put s.crews o.crew (wakePhases { c with scratch := Memory.writeN c.scratch a.addr bs }) }
  else
    match joinGranule s 0 a.pa a.mixed a.oset o.set with
    | .error e => .error e
    | .ok s =>
      match core with
      | some k =>
        if wideScope o.scope then .ok (sideWrite s vf a.pa bs)
        else .ok (l1Store s k vf h a.pcls 0 0 a.pa bs (granuleSet s 0 a.pa a.mixed a.oset) false (laneRec s o a))
      | none => .ok (sideWrite s vf a.pa bs)

/-- One lane's read-modify-write at its point: the old value and the state with the write. -/
def rmwLane (s : State) (o : Op) (core : Option Nat) (vf : Nat) (h : Bool) (op : RmwOp) (a : Acc) (v c : Dword) :
    Except Cause (Dword × State) :=
  let s := if a.space = .generic && (wideScope o.scope || core.isNone) then takeBackFor s core a.key else s
  let m := rmwRead s o core vf a
  if rmwWrites op m c then
    match rmwWrite s o core vf h a (bytesOf a.n (rmwNew op m v c).toNat) with
    | .error e => .error e
    | .ok s => .ok (m, s)
  else .ok (m, s)

/-- Whether a lane of an operation has its old value already. -/
def Op.hasOld (o : Op) (a : Acc) : Bool := Map.has o.got a.lane

/-- Sends the requests of remote lanes that have no reply yet (R128, R145), one at a time for a line, the lanes of a line in ascending
position: first the line leaves the L1s of the issuing die, and its dirty bytes have been written back (Table 6.4). Each is decided
alone: those sent before one that does not leave have left (R398). -/
def sendRemote (s : State) (n vf : Nat) (h : Bool) (o : Op) (core : Option Nat) (op : RmwOp) (ls : List (Acc × Dword × Dword)) :
    State × Option NoSend :=
  foldStop (fun s (q : Acc × Dword × Dword) =>
    if q.1.dev = 0 || o.hasOld q.1 || s.trackers.any (fun t => t.2.op == some n && t.2.wline == some q.1.key) then .ok s
    else
      let s := outdateLine s (diesFor core) q.1.key
      if !lineClear s (diesFor core) q.1.key then .ok s
      else
        request s q.1.dev vf h { device := q.1.dev, port := 0, op := some n, line := none, acc := some q.1, wline := some q.1.key }
          (some (q.1.n, o.set)) fun i => .rmwReq op q.1.pa q.2.1 q.2.2 i) s ls

/-- The lanes of an operation performed here and now, in ascending position. -/
def localLanes (s : State) (o : Op) (core : Option Nat) (vf : Nat) (h : Bool) (op : RmwOp) (ls : List (Acc × Dword × Dword)) :
    Except Cause (Map Dword × State) :=
  foldE (fun (a : Map Dword × State) (q : Acc × Dword × Dword) =>
    if q.1.dev != 0 || q.1.who.isSome then .ok a
    else
      match rmwLane a.2 o core vf h op q.1 q.2.1 q.2.2 with
      | .error e => .error e
      | .ok (m, s) => .ok (Map.put a.1 q.1.lane m, s)) (o.got, s) ls

/-- The lanes of a read-modify-write that this device has still to perform, as if performed by the operation itself. -/
def lanesLeft (ls : List (Acc × Dword × Dword)) : List (Acc × Dword × Dword) :=
  (ls.filter fun q => q.1.dev == 0 && !q.1.done).map fun q => ({ q.1 with who := none }, q.2)

/-- The joins that a read-modify-write has still to make, tried before any lane acts (R9): the origin sets they need, those of an
atomic's result and of its destination among them. -/
def tryRmw (s : State) (o : Op) (op : RmwOp) (vs cs : List Dword) (d : Option Dest) : Except Cause (Map OEntry) :=
  let (core, vf, h) := whoActs s o.crew o.grid
  match localLanes s o core vf h op (lanesLeft (o.rmwLanes vs cs)) with
  | .error e => .error e
  | .ok (_, s) =>
    match d with
    | none => .ok s.osets
    | some d =>
      match osJoinAll s.osets o.set (o.accs.map fun a => accSet s o.crew a) with
      | .error e => .error e
      | .ok (u, t) =>
        match deliverRegs { s with osets := t } o.crew d (o.accs.map fun a => ((a.lane, a.sheaf), [0, 0])) u with
        | .error (.raise e _) => .error e
        | .error _ => .ok t
        | .ok s => .ok s.osets

/-- The state in which a read-modify-write acts: where lanes of it are performed elsewhere, the origin sets its joins need are there
beforehand, so that no later lane's join can fail (R9). -/
def withSets (s : State) (o : Op) (t : Map OEntry) : State :=
  if o.accs.any fun a => a.dev != 0 || a.who.isSome then { s with osets := t } else s

/-- Hashes the writes of a read-modify-write, lanes ascending. -/
def hashRmw (s : State) (o : Op) (op : RmwOp) (ls : List (Acc × Dword × Dword)) (olds : Map Dword) : State :=
  ls.foldl (fun s q =>
    let m := Map.get olds q.1.lane 0
    if rmwWrites op m q.2.2 then putHash s o.crew q.1 (bytesOf q.1.n (rmwNew op m q.2.1 q.2.2).toNat) else s) s

/-- Whether the write-backs that a release waits for are over; it asks for them the first time (R140, R147). -/
def releaseOver (s : State) (core : Option Nat) (sem : Sem) (sc : Scope) (flush : Option (List Nat)) : State × Option (List Nat) × Bool :=
  match core with
  | none => (s, flush, true)
  | some k =>
    if !(semRel sem && wideScope sc) then (s, flush, true)
    else
      match flush with
      | some ls => (s, flush, flushed s (dieOf k) ls)
      | none =>
        let r := startFlush s (dieOf k) (sc == .dom)
        (r.1, some r.2, r.2.isEmpty)

/-- Runs a read-modify-write as far as it comes: its release, its remote and recorded lanes, then the others. -/
def runRmw (s : State) (n : Nat) (o : Op) (op : RmwOp) (vs cs : List Dword) : Run :=
  let (core, vf, h) := whoActs s o.crew o.grid
  let (s, fl, past) := releaseOver s core o.sem o.scope o.flush
  let s := { s with ops := Map.mod s.ops n fun o => { o with flush := fl } }
  if !past then .wait s
  else
    let ls := o.rmwLanes vs cs
    match sendRemote s n vf h o core op ls with
    | (s, some .busy) => .wait s
    | (s, some .unreachable) => .bad s .remoteUnreachable
    | (s, some (.denied g d)) =>
      .bad (s.notice vf .egressDenied (denialRec (o.rec_ s 0) g o.set d)) .egressDenied
    | (s, none) =>
      let s := sendDue s (core.getD 0) vf h o.cache (fun i => .opAcc n i) o.accs
      if !(allRecorded o.accs && o.accs.all fun a => a.dev == 0 || o.hasOld a) then .wait s
      else
        match localLanes s o core vf h op ls with
        | .error e => .bad s e
        | .ok (olds, s) => .done (hashRmw s o op ls olds) (o.accs.map fun a => Map.get olds a.lane 0)

/-- Whether the accesses before a read-modify-write or store are performed, nothing owns its bytes, and the slices have
returned the lines it works on there. -/
def rmwReady (s : State) (n : Nat) (o : Op) : Bool :=
  !sentTo s (.rmw n) &&
  match Map.find? s.crews o.crew with
  | none => true
  | some c =>
    (o.need.filter fun k => (s.core c.core).fills.contains k).isEmpty && !threadLoadsDue s o.crew o.seq o.lanes &&
      !coreStoresDue s c.core o.seq o.crew o.homes && !owned s (dieOf c.core) o.seq true (o.accs.flatMap (accLocs s o.crew))

/-- Ends an operation with a cause, and fails its grid; an egress denial has given its own notice already (R399). -/
def failOp (s : State) (n : Nat) (o : Op) (c : Cause) (va : Nat) : State :=
  let s := countCause { s with ops := Map.del s.ops n } o.grid
  let c := nestedAs s o.crew o.lanes c
  match Map.find? s.grids o.grid with
  | none => s
  | some g =>
    if c = .egressDenied then stopCrews (s.modGrid o.grid fun g => g.stop .failed c) o.grid
    else stopCrews ((s.notice g.vf c (o.rec_ s va)).modGrid o.grid fun g => g.stop .failed c) o.grid

/-! ## LOAD_DELIVERY (R258) -/

/-- Removes an operation and counts its flag down; the episodes whose wait is over end (R55). -/
def finishOp (s : State) (n : Nat) (o : Op) : State :=
  refreshImage (endMet ({ s with ops := Map.del s.ops n }.decFlag o.crew o.homes o.flag) o.crew) o.crew

/-- Whether an earlier reduction of a load's threads still has to write a byte the load reads (R138). -/
def redAhead (s : State) (o : Op) : Bool :=
  s.ops.any fun p => p.2.crew == o.crew && decide (p.2.seq < o.seq) && (p.2.lanes.any fun q => o.lanes.contains q) &&
    match p.2.kind with
    | .red _ _ => (p.2.accs.flatMap (accLocs s o.crew)).any fun x => (o.accs.flatMap (accLocs s o.crew)).contains x
    | _ => false

/-- Whether the accesses before a load, in the order its threads keep, are performed, and nothing owns what it still has to read (R136,
R138, R144, R150). -/
def loadTurn (s : State) (o : Op) (core : Nat) : Bool :=
  !threadLoadsDue s o.crew o.seq o.lanes &&
    !owned s (dieOf core) o.seq false ((o.accs.filter fun a => !a.done).flatMap (accLocs s o.crew)) && !redAhead s o &&
    !(o.sem == .sc && threadStoresDue s o.crew o.seq o.lanes)

/-- Whether a load's bytes may be read now: its lines are there, its recorded accesses are performed, and its turn has come. -/
def loadReady (s : State) (o : Op) (core : Nat) : Bool :=
  (o.need.filter fun k => (s.core core).fills.contains k).isEmpty && allRecorded o.accs && loadTurn s o core

/-- The remote lines of a load that its core's L1 does not hold (any more). -/
def lostLines (s : State) (o : Op) (core : Nat) : List Nat :=
  dedup (((cached o.accs).filter fun a => a.dev != 0 && !held s core a).map Acc.key)

/-- The remote lines that a sequentially consistent load at dev or dom scope has still to fetch anew (R144). -/
def scLines (o : Op) : List Nat :=
  if o.sem == .sc && wideScope o.scope && o.flush.isNone then dedup (((cached o.accs).filter fun a => a.dev != 0).map Acc.key) else []

/-- Drops what a core's L1 holds of some remote lines but its dirty bytes, and outdates what is in flight of them. -/
def forgetLines (s : State) (core : Nat) (ks : List Nat) : State :=
  s.modCore core fun k => ks.foldl (fun k key => (acquireLine k key).outdateFills (· == key)) k

/-- Asks again for the remote lines of a load. -/
def askAgain (s : State) (n : Nat) (o : Op) (core vf : Nat) (h : Bool) (ks : List Nat) : State :=
  match foldE (fun s k => missLine s core vf h 0 o.cache k) s ks with
  | .ok s => { s with ops := Map.mod s.ops n fun o => { o with need := ascending (ks ++ o.need), missed := true } }
  | .error (.raise c _) => failOp s n o c ((o.accs.head?.map fun a => a.addr).getD 0)
  | .error _ => s

/-- A sequentially consistent load whose turn has come fetches its remote lines anew, once. -/
def fetchAnew (s : State) (n : Nat) (o : Op) (core vf : Nat) (h : Bool) : State :=
  askAgain { forgetLines s core (scLines o) with ops := Map.mod s.ops n fun o => { o with flush := some [] } } n o core vf h (scLines o)

/-- The words a load delivers to each thread, with the set joined from their granules. -/
def loadResults (s : State) (o : Op) (core vf : Nat) (signed : Bool) :
    Except Cause (List ((Nat × Nat) × List Word) × OSet × Map OEntry) :=
  let vs := o.accs.map fun a =>
    ((a.lane, a.sheaf), loadWords signed (if a.done then a.data else readAcc s o.crew core vf o.seq a))
  match osJoinAll s.osets o.set ((o.accs.filter fun a => !a.done || a.who.isSome).flatMap fun a =>
      accSet s o.crew a :: forwardedSets s o.crew o.seq a) with
  | .error e => .error e
  | .ok (u, t) => .ok (vs, u, t)

/-- The acquire of an operation (R140). -/
def opAcquire (s : State) (o : Op) (core : Nat) : State :=
  if semAcq o.sem then acquireAct s (dieOf core) o.scope else s

/-- A sequentially consistent load reads no stale clean line (R144). -/
def scRead (s : State) (o : Op) (core : Nat) : State :=
  if o.sem == .sc && o.scope == .dev || o.sem == .sc && o.scope == .dom then acquireAct s (dieOf core) .dev else s

/-- Gives the requests at the slices other reasons, and takes out those that have none any more. -/
def renumber (s : State) (f : ReqFor → Option ReqFor) : State :=
  let of (rs : List L2Req) : List L2Req := rs.filterMap fun r => (f r.why).map fun w => { r with why := w }
  { s with slices := s.slices.map fun (p : Nat × Slice) => (p.1, { p.2 with held := of p.2.held, entries := of p.2.entries }) }

/-- Renumbers the requests of an operation's accesses once it keeps some of its accesses alone. -/
def renumberOp (s : State) (n : Nat) (keep : List Nat) : State :=
  renumber s fun w =>
    match w with
    | .opAcc m i => if m = n then (if keep.contains i then some (.opAcc m (keep.idxOf i)) else none) else some w
    | _ => some w

/-- The part of an operation for some home sheaves. -/
def Op.part (o : Op) (hs : List Nat) : Op :=
  let as := o.accs.filter fun a => hs.contains a.sheaf
  { o with accs := as, lanes := o.lanes.filter fun p => hs.contains p.2, homes := o.homes.filter fun h => hs.contains h,
           need := o.need.filter fun k => as.any fun a => a.key == k }

/-- Sends the recorded accesses of a load whose turn has come, home sheaf by home sheaf (R136, R144, R412). -/
def sendLoad (s : State) (n : Nat) (o : Op) (core vf : Nat) (h : Bool) : State :=
  sendDue s core vf h o.cache (fun i => .opAcc n i)
    (o.accs.map fun a => if loadTurn s (o.part [a.sheaf]) core then a else { a with who := none })

/-- The home sheaves whose part of a load may be delivered now (R32). -/
def partsReady (s : State) (o : Op) (core : Nat) : List Nat :=
  o.homes.filter fun h => loadReady s (o.part [h]) core && (lostLines s (o.part [h]) core).isEmpty && (scLines (o.part [h])).isEmpty

/-- Delivers the parts of a load for some of its home sheaves, whose flags count down (R32); the rest stays in flight, with the
result set of the whole (R82). -/
def deliverPart (s : State) (n : Nat) (o : Op) (c : Crew) (signed : Bool) (hs : List Nat)
    (put : State → List ((Nat × Nat) × List Word) → OSet → Except Stop State) : State :=
  let (_, vf, _) := whoActs s o.crew o.grid
  let s := scRead s o c.core
  match loadResults s o c.core vf signed with
  | .error e => failOp s n o e 0
  | .ok (vs, u, t) =>
    match put { s with osets := t } (vs.filter fun v => hs.contains v.1.2) u with
    | .error (.raise e _) => failOp s n o e 0
    | .error _ => s
    | .ok s =>
      let s := opAcquire s o c.core
      let keep := (List.range o.accs.length).filter fun i => (o.accs[i]?).any fun a => !hs.contains a.sheaf
      let s := { renumberOp s n keep with ops := Map.mod s.ops n fun o => { o.part (o.homes.filter fun h => !hs.contains h) with set := u } }
      endMet (s.decFlag o.crew hs o.flag) o.crew

/-- Delivers a load: the whole of it where it may be, else the parts of the home sheaves that may (R32). -/
def deliverLoad (s : State) (n : Nat) (o : Op) (c : Crew) (signed : Bool)
    (put : State → List ((Nat × Nat) × List Word) → OSet → Except Stop State) : State :=
  let (_, vf, h) := whoActs s o.crew o.grid
  if !loadReady s o c.core then
    let s := sendLoad s n o c.core vf h
    if (partsReady s o c.core).isEmpty then s else deliverPart s n o c signed (partsReady s o c.core) put
  else if !(scLines o).isEmpty then fetchAnew s n o c.core vf h
  else if !(lostLines s o c.core).isEmpty then askAgain s n o c.core vf h (lostLines s o c.core)
  else
    let s := scRead s o c.core
    match loadResults s o c.core vf signed with
    | .error e => failOp s n o e 0
    | .ok (vs, u, t) =>
      match put { s with osets := t } vs u with
      | .error (.raise e _) => failOp s n o e 0
      | .error _ => s
      | .ok s => finishOp (opAcquire s o c.core) n o

/-- Delivers an atomic once it has been performed. -/
def deliverAtom (s : State) (n : Nat) (o : Op) (op : RmwOp) (d : Dest) (vs cs : List Dword) : State :=
  if !rmwReady s n o then s
  else
    match tryRmw s o op vs cs (some d) with
    | .error e => failOp s n o e 0
    | .ok t =>
    match runRmw (withSets s o t) n o op vs cs with
    | .wait s => s
    | .bad s c => failOp s n o c ((o.accs.head?.map fun a => a.addr).getD 0)
    | .done s olds =>
      match osJoinAll s.osets o.set (o.accs.map fun a => accSet s o.crew a) with
      | .error e => failOp s n o e 0
      | .ok (u, t) =>
        let rs := (o.accs.zip olds).map fun q => ((q.1.lane, q.1.sheaf), [lo32 q.2, hi32 q.2])
        match deliverRegs { s with osets := t } o.crew d rs u with
        | .error (.raise e _) => failOp s n o e 0
        | .error _ => s
        | .ok s =>
          finishOp (match Map.find? s.crews o.crew with
            | some c => opAcquire s o c.core
            | none => s) n o

/-- Delivers a phase arrival's old phases. -/
def deliverPhase (s : State) (n : Nat) (o : Op) (d : Dest) : State :=
  match deliverRegs s o.crew d (o.accs.map fun a => ((a.lane, a.sheaf), [lo32 (Map.get o.got a.lane 0)])) o.set with
  | .error (.raise e _) => failOp s n o e 0
  | .error _ => s
  | .ok s => finishOp s n o

/-- What LOAD_DELIVERY does (R258): a load, LDK, atomic or BARPA delivers into its destination and its flag A counts down. It does
nothing where what must come before it has not come about; an operation whose crew has been freed is dropped. -/
def loadDelivery (op : Nat) (s : State) : Outcome State Fault Refusal :=
  match Map.find? s.ops op with
  | none => .next s
  | some o =>
    match o.kind, Map.find? s.crews o.crew with
    | .load d, some c => .next (deliverLoad s op o c d.signed fun s vs u => deliverRegs s o.crew d vs u)
    | .loadK d _, some c => .next (deliverLoad s op o c false fun s vs u => .ok (deliverK s o.crew d vs u))
    | .load _, none | .loadK _ _, none | .barpa _, none => .next { s with ops := Map.del s.ops op }
    | .atom r d vs cs, _ => .next (deliverAtom s op o r d vs cs)
    | .barpa d, some _ => .next (deliverPhase s op o d)
    | _, _ => .next s

/-! ## STORE_PERFORMED (R136, R258) -/

/-- Whether a window store of a place among its crew's comes before a direct write of the lane it names, or, for the set, of the whole
register (R137). -/
def overwritten (c : Crew) (win off : Nat) : Bool :=
  decide (winBase ≤ off) &&
    let (h, v, l, _) := winAt off
    match Map.find? (c.sheaf h).mainW (32 * v + l) with
    | some n => decide (win ≤ n)
    | none => false

/-- Whether a direct write of a whole main register comes after a window store to it (R83, R137). -/
def setOverwritten (c : Crew) (win off : Nat) : Bool :=
  decide (winBase ≤ off) &&
    match Map.find? (c.sheaf (winAt off).1).mainWS (winAt off).2.1 with
    | some n => decide (win ≤ n)
    | none => false

/-- One access of a store is performed (R120, R146): a sequentially consistent store at dev or dom scope on the memory side,
another in the L1; in the shared or a typed space at once. -/
def performAcc (s : State) (core vf : Nat) (h : Bool) (e : StoreEntry) (a : Acc) : Except Cause State :=
  match a.space.typed with
  | some sp =>
    match joinUnit s e.crew sp (a.addr / unitBytes sp) e.set with
    | .error c => .error c
    | .ok s => .ok (putTypeds s e.crew sp a.addr a.data)
  | none =>
    if a.space = .shared then
      match Map.find? s.crews e.crew with
      | none => .ok s
      | some c =>
        match if setOverwritten c e.win a.addr then .ok (c, s.osets) else joinShared c s.osets a.addr e.set with
        | .error x => .error x
        | .ok (c, t) =>
          let c := (a.data.zip (List.range a.n)).foldl (fun c q =>
            if overwritten c e.win (a.addr + q.2) then c else putShared c (a.addr + q.2) q.1) c
          .ok { s with osets := t, crews := Map.put s.crews e.crew (wakePhases c) }
    else
      match joinGranule s a.dev a.pa a.mixed a.oset e.set with
      | .error x => .error x
      | .ok s =>
        if e.sem == .sc && wideScope e.scope && a.dev == 0 then .ok (sideWrite (takeBack s (dieOf core) a.key) vf a.pa a.data)
        else
          .ok (l1Store s core vf h a.pcls (e.cache.l1.val % 4) a.dev a.pa a.data (granuleSet s a.dev a.pa a.mixed a.oset)
            e.cache.noL2 (opRec s e.crew a.sheaf e.clause e.index a.addr))

/-- The threads of a store. -/
def StoreEntry.threads (e : StoreEntry) : List (Nat × Nat) := e.accs.map fun a => (a.lane, a.sheaf)

/-- Whether an atomic of a core comes before a store in the store order and is still to be performed; one that the order gate
holds, or that comes after one it holds, gives way to other sheaves (assumption 33). -/
def atomsAhead (s : State) (core : Nat) (e : StoreEntry) : Bool :=
  s.ops.any fun p => decide (p.2.seq < e.seq) &&
    (match p.2.kind with
      | .atom .. => true
      | _ => false) &&
    (match Map.find? s.crews p.2.crew with | some c => c.core == core | none => false) &&
    !((gated s p.2.grid p.2.accs || behindGate s core p.2.seq p.2.crew p.2.homes) &&
      !(p.2.crew == e.crew && p.2.homes.any fun h => e.homes.contains h))

/-- Whether a store of a core's order may be performed. -/
def storeReady (s : State) (core : Nat) (e : StoreEntry) : Bool :=
  !threadLoadsDue s e.crew e.born e.threads && !atomsAhead s core e &&
    !owned s (dieOf core) e.seq true (e.accs.flatMap (accLocs s e.crew))

/-- Puts the head of a core's store order back. -/
def putHead (s : State) (core : Nat) (e : StoreEntry) : State :=
  s.modCore core fun k => { k with storeQ := k.storeQ.map fun f => if f.seq == e.seq then e else f }

/-- Fails the grid of a store. -/
def failStore (s : State) (e : StoreEntry) (c : Cause) : State :=
  let a := (e.accs.head?.map fun a => a.addr).getD 0
  failGrid (countCause s e.grid) e.grid (nestedAs s e.crew e.threads c) (opRec s e.crew (e.homes.headD 0) e.clause e.index a)

/-- The remote lines that a sequentially consistent store at dev or dom scope writes: it leaves the store order once the peers have
acknowledged them (R144). -/
def scKeys (e : StoreEntry) : List Nat :=
  if e.sem == .sc && wideScope e.scope then dedup (((cached e.accs).filter fun a => a.dev != 0).map Acc.key) else []

/-- The joins that a store has still to make, tried before any lane acts (R9). -/
def tryStore (s : State) (core vf : Nat) (h : Bool) (e : StoreEntry) : Except Cause (Map OEntry) :=
  match foldE (fun s (a : Acc) => if a.done then .ok s else performAcc s core vf h e { a with who := none }) s e.accs with
  | .error c => .error c
  | .ok t => .ok t.osets

/-- The home sheaves whose part of a store is performed while others' is not (R32): its recorded accesses at their slices, or the
remote lines of a sequentially consistent one at their peers. -/
def StoreEntry.overHomes (s : State) (die : Nat) (e : StoreEntry) : List Nat :=
  e.homes.filter fun h =>
    let mine := e.only ((e.accs.filter fun a => a.sheaf == h).map (·.lane))
    match e.out with
    | some _ => flushed s die (scKeys mine)
    | none => mine.accs.all fun a => a.who.isSome && a.done

/-- The part of a store whose home sheaves are over leaves it; their flags count down (R32). -/
def endStorePart (s : State) (core : Nat) (e : StoreEntry) (hs : List Nat) : State :=
  if hs.isEmpty || e.homes.all fun h => hs.contains h then s
  else
    let keep := (List.range e.accs.length).filter fun i => (e.accs[i]?).any fun a => !hs.contains a.sheaf
    let rest := e.only ((e.accs.filter fun a => !hs.contains a.sheaf).map (·.lane))
    let s := if e.out.isSome then s
      else (e.accs.filter fun a => hs.contains a.sheaf).foldl (fun s a => putHash s e.crew a a.data) s
    let s := renumber (putHead s core rest) fun w =>
      match w with
      | .storeAcc q i => if q = e.seq then (if keep.contains i then some (.storeAcc q (keep.idxOf i)) else none) else some w
      | _ => some w
    endMet (s.decFlag e.crew hs e.flag) e.crew

/-- A store that is performed leaves its core's order, and its flag B counts down. -/
def endStore (s : State) (core : Nat) (e : StoreEntry) : State :=
  let s := s.modCore core fun k => { k with storeQ := k.storeQ.filter fun f => f.seq != e.seq }
  endMet (s.decFlag e.crew e.homes e.flag) e.crew

/-- Performs a store: its release first, its recorded accesses at their slices, then the others in ascending lane position, the
highest lane prevailing (R139); its writes are hashed and its flag B counts down. -/
def runStore (s : State) (core : Nat) (e : StoreEntry) : State :=
  match e.out with
  | some ks => if flushed s (dieOf core) ks then endStore s core e else endStorePart s core e (e.overHomes s (dieOf core))
  | none =>
  let (_, vf, h) := whoActs s e.crew e.grid
  let (s, fl, past) := releaseOver s (some core) e.sem e.scope e.flush
  let s := putHead s core { e with flush := fl }
  if !past then s
  else
    match tryStore s core vf h e with
    | .error c => failStore s e c
    | .ok t =>
    let s := sendDue { s with osets := if e.accs.any fun a => a.who.isSome then t else s.osets } core vf h e.cache
      (fun i => .storeAcc e.seq i) e.accs
    if !allRecorded e.accs then endStorePart s core { e with flush := fl } (e.overHomes s (dieOf core))
    else
      match foldE (fun s (a : Acc) => if a.who.isSome then .ok s else performAcc s core vf h e a) s e.accs with
      | .error c => failStore s e c
      | .ok s =>
        let s := e.accs.foldl (fun s a => putHash s e.crew a a.data) s
        if (scKeys e).isEmpty then endStore s core e
        else putHead ((scKeys e).foldl (fun s k => cleanLine s core k) s) core { e with flush := fl, out := some (scKeys e) }

/-- The home sheaves whose lanes of a reduction have all been performed elsewhere (R32). -/
def Op.overHomes (o : Op) : List Nat :=
  o.homes.filter fun h => o.accs.all fun a => a.sheaf != h || (if a.who.isSome then a.done else a.dev != 0 && o.hasOld a)

/-- The part of a reduction whose home sheaves are over leaves it: its writes are hashed, and their flags count down (R32). -/
def endRedPart (s : State) (n : Nat) (op : RmwOp) (vs : List Dword) : State :=
  match Map.find? s.ops n with
  | none => s
  | some o =>
    let hs := o.overHomes
    if hs.isEmpty || o.homes.all fun h => hs.contains h then s
    else
      let ls := o.rmwLanes vs vs
      let keep := (List.range o.accs.length).filter fun i => (o.accs[i]?).any fun a => !hs.contains a.sheaf
      let s := hashRmw s o op (ls.filter fun q => hs.contains q.1.sheaf) o.got
      let rest := { o.part (o.homes.filter fun h => !hs.contains h) with kind := .red op (keep.filterMap fun i => vs[i]?) }
      let s := { renumberOp s n keep with ops := Map.put s.ops n rest }
      endMet (s.decFlag o.crew hs o.flag) o.crew

/-- Performs a reduction. -/
def runRed (s : State) (n : Nat) (o : Op) (op : RmwOp) (vs : List Dword) : State :=
  if !rmwReady s n o then s
  else
    match tryRmw s o op vs vs none with
    | .error c => failOp s n o c ((o.accs.head?.map fun a => a.addr).getD 0)
    | .ok t =>
    match runRmw (withSets s o t) n o op vs vs with
    | .wait s => endRedPart s n op vs
    | .bad s c => failOp s n o c ((o.accs.head?.map fun a => a.addr).getD 0)
    | .done s _ => finishOp s n o

/-- The store of a core's order whose turn it is: the oldest that neither stands at the order gate nor comes, in one of its sheaves,
after a store or read-modify-write that does. -/
def storeTurn (s : State) (core : Nat) : Option StoreEntry :=
  (s.core core).storeQ.find? fun e =>
    !atGate s e.grid (fun i => .storeAcc e.seq i) e.accs && !behindGate s core e.seq e.crew e.homes

/-- What may be performed next at a core besides the stores of its order: a reduction, or a CMAINT whose write-backs are
acknowledged, the oldest first. -/
def nextOther (s : State) (core : Nat) : Option (Nat × Op) :=
  leastBy (fun p : Nat × Op => p.2.seq) (s.ops.filter fun p =>
    p.2.onCore s core &&
      match p.2.kind with
      | .red _ _ => !atGate s p.2.grid (fun i => .opAcc p.1 i) p.2.accs && !behindGate s core p.2.seq p.2.crew p.2.homes
      | .cmaint _ _ => flushed s (dieOf core) (p.2.flush.getD [])
      | _ => false)

/-- Performs a reduction or CMAINT. -/
def runOther (s : State) (p : Nat × Op) : State :=
  match p.2.kind with
  | .red op vs => runRed s p.1 p.2 op vs
  | .cmaint _ _ => finishOp s p.1 p.2
  | _ => s

/-- STORE_PERFORMED (R258): the oldest store, reduction or CMAINT of a core that may be performed is performed, and its flag B
counts down. -/
def execStorePerformed (core : Nat) (s : State) : Outcome State Fault Refusal :=
  match storeTurn s core, nextOther s core with
  | none, none => .next s
  | some e, none => .next (if storeReady s core e then runStore s core e else s)
  | none, some p => .next (runOther s p)
  | some e, some p =>
    if p.2.seq < e.seq then .next (runOther s p) else .next (if storeReady s core e then runStore s core e else s)

end Sys2Proof.Machine
end

