-- ==== Sys2Proof/Machine/Recorded.lean ====
section
/-! DEFINITION. Recorded accesses: those performed at a slice (18_observation.md R412), and the end of their log streams (R413). -/

namespace Sys2Proof.Machine

/-! ## Accesses performed at a slice -/

/-- Performs a recorded lane of a load or read-modify-write. -/
def performOpAcc (s : State) (n i : Nat) : State :=
  match Map.find? s.ops n with
  | none => s
  | some o =>
    match o.accs[i]? with
    | none => s
    | some a =>
      let (core, vf, h) := whoActs s o.crew o.grid
      let s := takeBackFor s core a.key
      let mark (s : State) (bs : List Byte) (got : Map Dword) : State :=
        { s with ops := Map.mod s.ops n fun o => { o with accs := o.accs.set i { a with done := true, data := bs }, got := got } }
      match o.rmw with
      | some (op, vs, cs) =>
        match rmwLane s { o with scope := .dev } core vf h op a ((vs[i]?).getD 0) ((cs[i]?).getD 0) with
        | .error e => failOp s n o e a.addr
        | .ok (m, s) => mark s a.data (Map.put o.got a.lane m)
      | none => mark s (readAcc s o.crew (core.getD 0) vf o.seq a) o.got

/-- Performs a recorded lane of a store of a core's order. -/
def performStoreAcc (s : State) (core seq i : Nat) : State :=
  match (s.core core).storeQ.find? fun e => e.seq == seq with
  | none => s
  | some e =>
    match e.accs[i]? with
    | none => s
    | some a =>
      let (_, vf, _) := whoActs s e.crew e.grid
      match joinGranule s a.dev a.pa a.mixed a.oset e.set with
      | .error x => failStore s e x
      | .ok s =>
        putHead (sideWrite (takeBack s (dieOf core) a.key) vf a.pa a.data) core { e with accs := e.accs.set i { a with done := true } }

/-- The requester of the access a request is for, if it is a recorded one. -/
def requesterOf (s : State) (r : L2Req) : Option Nat :=
  match r.why with
  | .opAcc n i => (Map.find? s.ops n).bind fun o => (o.accs[i]?).bind fun a => a.who
  | .storeAcc seq i => ((s.core r.core).storeQ.find? fun e => e.seq == seq).bind fun e => (e.accs[i]?).bind fun a => a.who
  | .copy _ _ _ who => who
  | _ => none

/-- Performs the access a request is for; that of a copy may now be made. -/
def performFor (s : State) (r : L2Req) : State :=
  match r.why with
  | .opAcc n i => performOpAcc s n i
  | .storeAcc seq i => performStoreAcc s r.core seq i
  | .copy n va write _ => { s with ops := Map.mod s.ops n fun o => { o with passed := o.passed ++ [(va, write)] } }
  | _ => s

/-- Writes the open chunks of a VF's streams: its recording grid completes (R413). -/
def closeStreams (s : State) (vf : Nat) : State :=
  if (s.vf vf).replay.mode = 1 then (Map.keys (s.vf vf).replay.streams).foldl (fun s j => closeChunk s vf j) s else s

end Sys2Proof.Machine
end

