-- ==== Sys2Proof/Machine/Complete.lean ====
section
/-! DEFINITION. How copies come about and messages arrive: COPY_COMPLETE, COPY_FAULT and MESSAGE_ARRIVAL (05_memory.md R117;
06_ordering.md R151, R152; 11_isa_memory.md R276, R279 to R286). -/

namespace Sys2Proof.Machine

open Host (Outcome)

/-! ## What stops a copy -/

/-- Why a copy does not go on: it waits, an access of it fails at an address, or a gate denies a transfer. -/
inductive Halt where
  | wait (s : State)
  | bad (e : Cause ⊕ TErr) (va : Nat) (write : Bool)
  | denied (s : State) (gate : Nat) (d : GDest) (set : OSet)
  deriving DecidableEq, Repr

/-- A copy in progress: operation, its number, crew, grid, descriptor and what it was issued with. -/
structure CopyRun where
  n    : Nat
  op   : Op
  crew : Crew
  grid : Grid
  d    : CDesc
  idx  : List Nat
  form : Nat
  mode : RMode
  win  : Nat
  ring : Option (Nat × Nat × Nat)
  deriving DecidableEq, Repr

/-- The copy an operation is. -/
def copyRun (s : State) (n : Nat) (o : Op) : Option (CopyRun × Nat × Bool) :=
  match o.kind, s.gridOf o.crew with
  | .copy b idx form m w k sent r, some (c, g) =>
    some ({ n := n, op := o, crew := c, grid := g, d := CDesc.read b, idx := idx, form := form, mode := m, win := w, ring := r }, k, sent)
  | _, _ => none

/-- The requester that a copy's access is recorded for, if it is (R412). -/
def CopyRun.who (s : State) (c : CopyRun) (va : Nat) : Option Nat :=
  recordedBy (s.vf c.grid.vf) c.grid c.crew.index ((leastBy (fun p : Nat × Nat => p.1) c.op.lanes).getD (0, 0)).2 va

/-- Whether the home slice of a copy's access has accepted it, past its order gate, with the state after (R310, R412); else the state in
which it is on its way there. -/
def atSlice (s : State) (c : CopyRun) (va : Nat) (write : Bool) (p : Place) : Except State State :=
  if c.op.passed.contains (va, write) then .ok (noteUnrecorded s c.grid.vf c.grid c.crew.index va)
  else
    let why : ReqFor := .copy c.n va write (c.who s va)
    if sentTo s why then .error s
    else
      .error (sendL2 s (l2Request c.crew.core c.grid.vf (lineKey 0 p.pa) (bitOf c.grid.desc.flags 0)
        (if c.op.cache.pcls.val = 0 then p.pcls else c.op.cache.pcls.val) c.op.cache.noL2 s.seq why))

/-! ## Reading source elements (R151, R276) -/

/-- The bytes of a source element, with the set of its granule. -/
def srcElem (s : State) (c : CopyRun) (va : Nat) : Except Halt (List Byte × OSet × State) :=
  let n := elemSize c.d.sf
  match c.d.srcSpace with
  | .generic =>
    match placeOf s c.crew.core c.grid va 1 true with
    | .error e => .error (.bad (.inr e) va false)
    | .ok (p, s) =>
      if va % n != 0 then .error (.bad (.inl .misaligned) va false)
      else if p.dev = 0 ∧ flawedAt s c.grid.vf p.pa then .error (.bad (.inr (.flawed (p.pa / 256))) va false)
      else if p.dev = 0 then
        match atSlice s c va false p with
        | .error t => .error (.wait t)
        | .ok s => .ok (dieReads s c.crew.core c.grid.vf 0 p.pa n, granuleSet s 0 p.pa p.mixed p.oset, s)
      else
        let key := lineKey p.dev p.pa
        match l1Line s c.crew.core key with
        | some l =>
          if (List.range n).all fun i => Map.has l.bytes (p.pa % 64 + i) then
            .ok (dieReads s c.crew.core c.grid.vf p.dev p.pa n, p.oset, s)
          else .error (.wait (dropLine s c.crew.core key))
        | none =>
          match missLine s c.crew.core c.grid.vf (bitOf c.grid.desc.flags 0) 0 c.op.cache key with
          | .ok s => .error (.wait s)
          | .error (.raise e _) => .error (.bad (.inl e) va false)
          | .error _ => .error (.wait s)
  | sp =>
    match Map.find? s.crews c.op.crew with
    | none => .error (.wait s)
    | some w =>
      match sp.typed with
      | some t =>
        if s.flaws.contains (.unit c.op.crew t (va / unitBytes t)) then .error (.bad (.inl .dataUncorrectable) va false)
        else .ok ((List.range n).map fun i => typedByte w t (va + i), typedSet w t va, s)
      | none => .ok ((List.range n).map fun i => sharedByte w (va + i), sharedSet w va, s)

/-- A source element as it is kept until its destination is written. -/
def keptElem (va : Nat) (bs : List Byte) (set : OSet) : Acc :=
  { lane := 0, sheaf := 0, space := .generic, addr := va, dev := 0, pa := 0, mixed := false, oset := set, pcls := 0,
    n := bs.length, data := bs, who := none, done := true }

/-- Reads the source elements not read yet: what has been read, and why it stops. -/
def readElems (s : State) (c : CopyRun) (got : List Acc) (vas : List Nat) : State × List Acc × Option Halt :=
  match vas with
  | [] => (s, got, none)
  | va :: rest =>
    match srcElem s c va with
    | .error (.wait t) => (t, got, some (.wait t))
    | .error e => (s, got, some e)
    | .ok (bs, set, s) => readElems s c (got ++ [keptElem va bs set]) rest

/-! ## Writing destinations (R120, R152, R282) -/

/-- Writes bytes to a crew's shared or typed space with their set. -/
def crewWrite (s : State) (crew : Nat) (sp : Space) (a : Nat) (bs : List Byte) (set : OSet) : Except Cause State :=
  match sp.typed with
  | some t =>
    match joinUnit s crew t (a / unitBytes t) set with
    | .error e => .error e
    | .ok s => .ok (putTypeds s crew t a bs)
  | none =>
    match Map.find? s.crews crew with
    | none => .ok s
    | some w =>
      match joinShared w s.osets a set with
      | .error e => .error e
      | .ok (w, t) =>
        let w := (bs.zip (List.range bs.length)).foldl (fun w q => putShared w (a + q.2) q.1) w
        .ok { s with osets := t, crews := Map.put s.crews crew (wakePhases w) }

/-- Sends an element to the peer that holds its line, under the tracker of the line (R128). -/
def sendElem (s : State) (c : CopyRun) (dev pa : Nat) (bs : List Byte) (set : OSet) : Except NoSend State :=
  let key := lineKey dev pa
  match List.find? (fun (t : Nat × Tracker) => t.2.op == some c.n && t.2.wline == some key) s.trackers with
  | some t => requestMore s t.1 t.2 (bitOf c.grid.desc.flags 0) (some (bs.length, set)) fun i => .writeReq pa bs i
  | none =>
    request s dev c.grid.vf (bitOf c.grid.desc.flags 0) { device := dev, port := 0, op := some c.n, line := none, acc := none, wline := some key } (some (bs.length, set))
      fun i => .writeReq pa bs i

/-- Writes bytes to generic memory: at the home slice, or by a frame to the peer that holds the page, once the die's L1s hold nothing
of the line. -/
def sideElem (s : State) (c : CopyRun) (va : Nat) (bs : List Byte) (set : OSet) : Except Halt State :=
  match placeOf s c.crew.core c.grid va 2 true with
  | .error e => .error (.bad (.inr e) va true)
  | .ok (p, s) =>
    if p.fixed && !osSubset s.osets set p.oset then .error (.bad (.inl .osetEscalation) va true)
    else if p.dev = 0 then
      match atSlice s c va true p with
      | .error t => .error (.wait t)
      | .ok s =>
        match joinGranule s 0 p.pa p.mixed p.oset set with
        | .error e => .error (.bad (.inl e) va true)
        | .ok s => .ok (sideWrite (takeBack s (dieOf c.crew.core) (lineKey 0 p.pa)) c.grid.vf p.pa bs)
    else if !lineClear s (diesFor (some c.crew.core)) (lineKey p.dev p.pa) ||
        (dieCores s (dieOf c.crew.core)).any (fun k => (l1Line s k (lineKey p.dev p.pa)).isSome) then
      .error (.wait (outdateLine s (diesFor (some c.crew.core)) (lineKey p.dev p.pa)))
    else
      match sendElem s c p.dev p.pa bs set with
      | .ok s => .ok s
      | .error .busy => .error (.wait s)
      | .error .unreachable => .error (.bad (.inl .remoteUnreachable) va true)
      | .error (.denied g d) => .error (.denied s g d set)

/-- Writes an element. -/
def dstElem (s : State) (c : CopyRun) (va : Nat) (bs : List Byte) (set : OSet) : Except Halt State :=
  if c.d.dstSpace = .generic then sideElem s c va bs set
  else
    let who := match c.ring with
      | some (k, _, _) => k
      | none => c.op.crew
    match crewWrite s who c.d.dstSpace (va + ringBase c.ring) bs set with
    | .error e => .error (.bad (.inl e) va true)
    | .ok s => .ok s

/-- What a step of a copy writes, by address: one element, or the mantissas and exponents of a row of blocks with the zeros beyond it
(R279). A permutation table is read as it stands then (DESIGN CHOICE, assumption 75). -/
def stepWrites (c : CopyRun) (k da : Nat) (got : List Acc) : List (Nat × List Byte) :=
  if c.form = 3 then
    let xs := got.map fun a => unpack (fmtOf c.d.sf) (ofBytes a.data)
    let p := fun l => if bitOf c.d.flags 0 then Map.get c.crew.ptab (32 * c.win + l) l else l
    let row := rowBytes c.d.width (rowBlocks 24 c.d.width c.mode p xs)
    let place := rowPlace c.d.dstSpace c.d.da k
    [(place.1, row.1), (place.2, row.2)]
  else [(da, convElem c.d.sf c.d.df ((got.head?.map fun a => a.data).getD []))]

/-- Makes one write of a step, which is not made again. -/
def makeWrite (c : CopyRun) (set : OSet) (s : State) (w : Nat × List Byte) : Except Halt State :=
  match dstElem s c w.1 w.2 set with
  | .error e => .error e
  | .ok s => .ok { s with ops := Map.mod s.ops c.n fun o => { o with wrote := o.wrote + 1 } }

/-- Makes the writes of a step that are not made yet, and why it stops. -/
def writeStep (s : State) (c : CopyRun) (k da : Nat) (got : List Acc) : State × Option Halt :=
  match osJoinAll s.osets c.op.set (got.map fun a => a.oset) with
  | .error e => (s, some (.bad (.inl e) da true))
  | .ok (set, t) =>
    match foldStop (makeWrite c set) { s with osets := t } ((stepWrites c k da got).drop c.op.wrote) with
    | (_, some (.wait t)) => (t, some (.wait t))
    | r => r

/-- The source addresses and the destination address of the steps of a copy from one on. -/
def CopyRun.steps (c : CopyRun) (k : Nat) : List (List Nat × Nat) :=
  if c.form = 3 then
    ((List.range c.d.rows).drop k).map fun r => (if r < c.d.e.getD 1 1 then c.d.rowSrcs r else [], (rowPlace c.d.dstSpace c.d.da r).1)
  else ((c.d.pairs c.form c.idx).drop k).map fun p => ([p.1], p.2)

/-- Where a run of a copy ends: the state, the steps performed, what has been read of the next, and why it stops. -/
abbrev CopyEnd := State × Nat × List Acc × Option Halt

/-- An operation at the beginning of a step of its copy. -/
def Op.atStep (o : Op) : Op := { o with passed := [], wrote := 0 }

/-- Performs the steps of a copy in order, until one stops it (R281). -/
def runSteps (s : State) (c : CopyRun) (k : Nat) (got : List Acc) (ps : List (List Nat × Nat)) : CopyEnd :=
  match ps with
  | [] => (s, k, [], none)
  | p :: rest =>
    match readElems s c got (p.1.drop got.length) with
    | (s, got, some e) => (s, k, got, some e)
    | (s, got, none) =>
      match writeStep s c k p.2 got with
      | (s, some e) => (s, k, got, some e)
      | (s, none) => runSteps { s with ops := Map.mod s.ops c.n Op.atStep } { c with op := c.op.atStep } (k + 1) [] rest

/-- Runs a copy from its progress. -/
def runCopy (s : State) (c : CopyRun) (k : Nat) : CopyEnd := runSteps s c k c.op.accs (c.steps k)

/-- Keeps a copy's progress, with what it has read of the next step and whether every write has been made. -/
def keepCopy (s : State) (n k : Nat) (got : List Acc) (sent : Bool) : State :=
  { s with ops := Map.mod s.ops n fun o =>
      match o.kind with
      | .copy b idx form m w _ _ r => { o with kind := .copy b idx form m w k sent r, accs := got }
      | _ => o }

/-- Whether a copy may run: it is not suspended, its crew stands on its core, what precedes it is performed, and its turn has come
(R79, R151, R274, R334). -/
def copyReady (s : State) (o : Op) (c : Crew) : Bool :=
  o.batch.isNone && c.st == .resident && engineReady s o && copyTurn s o

/-- Completes a copy: a ring's unit is published and the flag counts down (R152, R280). -/
def finishCopy (s : State) (c : CopyRun) : State :=
  let s := match c.ring with
    | some (k, id, u) =>
      modRing s k id fun r =>
        match r.indexOf u with
        | some i => r.publish i
        | none => r
    | none => s
  finishOp s c.n c.op

/-- A denied transfer of a copy (R399). -/
def denyCopy (s : State) (c : CopyRun) (gate : Nat) (d : GDest) (set : OSet) : State :=
  failOp (s.notice c.grid.vf .egressDenied (denialRec (c.op.rec_ s 0) gate set d)) c.n c.op .egressDenied 0

/-- COPY_COMPLETE (R152, R281): a copy performs what it still has to, and completes when every byte it writes is performed;
while it waits for a peer or a gate it keeps its progress. It does nothing where an access would fail. -/
def execCopyComplete (op : Nat) (s : State) : Outcome State Fault Refusal :=
  match (Map.find? s.ops op).bind fun o => copyRun s op o with
  | none => .next s
  | some (c, k, sent) =>
    if !copyReady s c.op c.crew then .next s
    else if sent then .next (if s.trackers.any fun t => t.2.op == some op then s else finishCopy s c)
    else
      match runCopy s c k with
      | (t, k, _, none) =>
        let t := keepCopy t op k [] true
        .next (if t.trackers.any fun q => q.2.op == some op then t else finishCopy t c)
      | (t, k, got, some (.wait _)) => .next (keepCopy t op k got false)
      | (t, k, got, some (.denied _ g d u)) => .next (denyCopy (keepCopy t op k got false) c g d u)
      | (_, _, _, some (.bad _ _ _)) => .next s

/-- Suspends a copy at an absent page: a batch of that page is reported (R281, R349). -/
def suspendCopy (s : State) (c : CopyRun) (e : TErr) (va : Nat) (write : Bool) : State :=
  let r := { c.op.rec_ s va with va := dword va }
  let (s, key) := reportBatch s c.grid.vf e.cause [e.page va write false] e.flags e.gpa r
    { vf := c.grid.vf, grid := c.op.grid, crew := c.op.crew, group := none, op := some c.n, part1 := false, part2 := false }
  ({ s with ops := Map.mod s.ops c.n fun o => { o with batch := some key } }).modGrid c.op.grid fun d =>
    { d with faults := d.faults + 1 }

/-- Stops a copy with a cause, which its threads meet at the next clause start or WAITF that names its flag (R281). -/
def stopCopy (s : State) (c : CopyRun) (cause : Cause) (va : Nat) : State :=
  let p : Posted := { flag := some (c.op.named.getD 15), cause := cause, faddr := dword va, threads := c.op.lanes }
  let s := s.modCrew c.op.crew fun w => { w with posted := w.posted ++ [p] }
  exitPosted (finishOp s c.n c.op) c.op.crew

/-- What COPY_FAULT does (R281): a copy meets a cause at its progress: an absent page suspends it, any other stops it. It does nothing
where no access fails. -/
def copyFault (op : Nat) (s : State) : Outcome State Fault Refusal :=
  match (Map.find? s.ops op).bind fun o => copyRun s op o with
  | none => .next s
  | some (c, k, sent) =>
    if !copyReady s c.op c.crew || sent then .next s
    else
      match runCopy s c k with
      | (t, k, got, some (.bad e va write)) =>
        let t := keepCopy t op k got false
        match e with
        | .inr .noMem => .fault .noSuchMemory
        | .inr .rights => .next (stopCopy t c .pageRights va)
        | .inr (.flawed line) => .next (stopCopy { t with found := t.found ++ [.used line] } c .dataUncorrectable va)
        | .inr e => .next (suspendCopy t c e va write)
        | .inl .osetOverflow => .next (failOp t c.n c.op .osetOverflow va)
        | .inl e => .next (stopCopy t c e va)
      | _ => .next s

/-! ## MESSAGE_ARRIVAL (R286) -/

/-- The oldest posted receive of a core that takes a message. -/
def recvTaking (s : State) (core : Nat) (m : Msg) : Option (Nat × Op × Nat) :=
  (s.core core).recvs.findSome? fun n =>
    (Map.find? s.ops n).bind fun o =>
      match o.kind with
      | .recv buf cap mtch => if m.fits o.grid mtch (recvRoom cap) then some (n, o, buf) else none
      | _ => none

/-- The crew of a grid resident on a core with the lowest index. -/
def lowCrewOn (s : State) (grid core : Nat) : Option (Nat × Crew) :=
  leastBy (fun p : Nat × Crew => p.2.index) (s.crews.filter fun p => p.2.grid == grid && p.2.core == core && p.2.st == .resident)

/-- Where a dropped message leaves its cause (R286). -/
def dropMsg (s : State) (core : Nat) (m : Msg) : State :=
  let low := (lowCrewOn s m.grid core).bind fun p =>
    ((List.range p.2.sheaves.length).find? fun h => !(liveLanes (p.2.sheaf h)).isEmpty).map fun h =>
      (p.1, (liveLanes (p.2.sheaf h)).map fun l => (l, h))
  match low with
  | some (k, ts) =>
    s.modCrew k fun c => { c with posted := c.posted ++ [{ flag := none, cause := .msgOverflow, faddr := 0, threads := ts }] }
  | none =>
    match Map.find? s.ops m.op with
    | some o =>
      exitPosted (s.modCrew o.crew fun c =>
        { c with posted := c.posted ++ [{ flag := o.flag, cause := .msgOverflow, faddr := 0, threads := o.lanes }] }) o.crew
    | none => s

/-- The send of a message is over: its flag B counts down. -/
def sendOver (s : State) (m : Msg) : State :=
  match Map.find? s.ops m.op with
  | some o => finishOp s m.op o
  | none => s

/-- Delivers a message to a receive: the buffer, the receive's flag B. -/
def receiveMsg (s : State) (core : Nat) (m : Msg) (n : Nat) (o : Op) (buf : Nat) : State :=
  match deliverMsg s o.crew buf m o.set with
  | .error e => failOp s n o e 0
  | .ok s => finishOp (s.modCore core fun k => { k with recvs := k.recvs.filter (· != n) }) n o

/-- MESSAGE_ARRIVAL (R286): the first message on its way to a core goes to the oldest receive that takes it, else to the
overflow queue, else it is dropped with MSG_OVERFLOW; a message of a grid that is over is discarded. -/
def execMessageArrival (core : Nat) (s : State) : Outcome State Fault Refusal :=
  match (s.core core).msgIn with
  | [] => .next s
  | m :: rest =>
    let s := s.modCore core fun k => { k with msgIn := rest }
    let over_ := match Map.find? s.grids m.grid with
      | some g => g.done || g.stopped.isSome
      | none => true
    if over_ then .next (sendOver s m)
    else
      match recvTaking s core m with
      | some (n, o, buf) => .next (sendOver (receiveMsg s core m n o buf) m)
      | none =>
        if (s.core core).msgQ.length < 64 then .next (sendOver (s.modCore core fun k => { k with msgQ := k.msgQ ++ [m] }) m)
        else .next (sendOver (dropMsg s core m) m)

end Sys2Proof.Machine
end

