-- ==== Sys2Proof/Machine/Caches.lean ====
section
/-! DEFINITION. The steps of the memory system inside the package: requests to slices, HBM channels, fills, write-backs
(05_memory.md R121 to R127; 06_ordering.md R147 to R149; 13_programs_user.md R310, R311; 16_partitions.md R371). -/

namespace Sys2Proof.Machine

open Host (Outcome)

/-! ## Slices (R123 to R126, R310) -/

/-- A slice. -/
def State.slice (s : State) (k : Nat) : Slice := Map.get s.slices k Slice.init

/-- Changes a slice. -/
def State.modSlice (s : State) (k : Nat) (f : Slice → Slice) : State := { s with slices := Map.put s.slices k (f (s.slice k)) }

/-- Whether a class has a request entry free: one is taken from a request's acceptance until its data returns (R126, R310). -/
def entryRoom (z : Slice) (h : Bool) : Bool := decide ((z.entries.filter fun r => r.h == h && !r.served).length < 32)

/-- Whether a recorded request may pass the gate now, and the state after; a request that is not recorded passes. -/
def gateReq (s : State) (k : Nat) (r : L2Req) : Option State :=
  match requesterOf s r with
  | some who => passGate s r.vf k who
  | none => some s

/-- The held request a slice accepts next: of class G first, in arrival order, its class having an entry free and the order
gate letting it pass. -/
def nextHeld (s : State) (k : Nat) : Option (L2Req × State) :=
  let z := s.slice k
  let of (h : Bool) : Option (L2Req × State) :=
    if entryRoom z h then (z.held.filter fun r => r.h == h).findSome? fun r => (gateReq s k r).map fun t => (r, t) else none
  match of false with
  | some q => some q
  | none => of true

/-- Whether a request is for an operation: one that waits for the line's fill, or whose access goes to the slice. -/
def L2Req.isFor (s : State) (r : L2Req) (n : Nat) (o : Op) : Bool :=
  match r.why with
  | .l1 => o.onCore s r.core && o.need.contains r.line
  | .rmw m | .opAcc m _ | .copy m _ _ _ => m == n
  | .l2 | .storeAcc _ _ | .peer _ => false

/-- Marks the operations a request is for as L2 misses (R52). -/
def markMissed (s : State) (r : L2Req) : State :=
  { s with ops := s.ops.map fun p => if r.isFor s p.1 p.2 then (p.1, { p.2 with missed := true }) else p }

/-- The set of a slice that a request is in. -/
def reqSet (s : State) (r : L2Req) : Nat := setOf (s.vf r.vf).cfg (keyPa r.line)

/-- Returns the data of the entries that have it, in arrival order within a class and set; `behind` lists the classes and sets
in which an entry waits (R126). -/
def serveInOrder (set : L2Req → Nat) (behind : List (Bool × Nat)) (rs : List L2Req) : List L2Req :=
  match rs with
  | [] => []
  | r :: rest =>
    if r.served then r :: serveInOrder set behind rest
    else if r.back && !behind.contains (r.h, set r) then { r with served := true } :: serveInOrder set behind rest
    else r :: serveInOrder set ((r.h, set r) :: behind) rest

/-- Returns what data a slice may: the requests for L1 fills stay until their lines land, the others are over. -/
def serveEntries (s : State) (k : Nat) : State :=
  s.modSlice k fun z =>
    { z with entries := (serveInOrder (reqSet s) [] z.entries).filter fun r => !(r.served && r.why != .l1) }

/-- Queues a line's read at its channel, once for the slice; the miss sets the accessed bit of its frame (R357). -/
def queueMiss (s : State) (k : Nat) (r : L2Req) : State :=
  let line := keyPa r.line / 256
  if (s.slice k).misses.any fun m => m.1 == line then s
  else
    let s := s.modSlice k fun z => { z with misses := z.misses ++ [(line, r.h, false)] }
    queueHbm (touchFrame s (256 * line)) k line r.vf r.h false

/-- Allocates a way for a miss where R124 gives one; the line is filling, as is one held in part. -/
def allocMiss (s : State) (k : Nat) (r : L2Req) : State :=
  let pa := keyPa r.line
  if (l2Find s r.vf pa).isSome then modL2 s r.vf pa fun l => { l with filling := true, used := s.seq }
  else if r.noL2 || !sliceUp s k then s
  else
    match l2Alloc s r.vf pa r.h r.pcls with
    | some s => modL2 s r.vf pa fun l => { l with filling := true }
    | none => s

/-- Takes a request into an entry: the data of a hit is at hand, a miss goes to HBM. -/
def admitReq (s : State) (k : Nat) (r : L2Req) : State :=
  let pa := keyPa r.line
  let s := countEvent s 2 k r.vf r.h 0x0101
  let hit := sliceHit s r.vf pa
  let s := if hit then (touchL2 s r.vf pa).tickSeq
    else queueMiss (allocMiss (markMissed (countEvent s 2 k r.vf r.h 0x0102) r) k r) k r
  serveEntries (s.modSlice k fun z => { z with entries := z.entries ++ [{ r with miss := !hit, back := hit }] }) k

/-- What L2_REQUEST_ACCEPT does (R126, R310, R412): a slice accepts the next request it may. A recorded access is performed at its
acceptance; one that the order gate holds stays held. -/
def l2RequestAccept (slice : Nat) (s : State) : Outcome State Fault Refusal :=
  match nextHeld s slice with
  | none => .next s
  | some (r, t) =>
    .next (performFor (admitReq (t.modSlice slice fun z => { z with held := z.held.erase r }) slice r) r)

/-! ## HBM (R127, R371) -/

/-- A channel. -/
def State.channel (s : State) (c : Nat) : Channel := Map.get s.channels c Channel.init

/-- Changes a channel. -/
def State.modChannel (s : State) (c : Nat) (f : Channel → Channel) : State :=
  { s with channels := Map.put s.channels c (f (s.channel c)) }

/-- Whether a VF's partition is guaranteed. -/
def guaranteed (s : State) (vf : Nat) : Bool := (s.vf vf).state == 1

/-- Whether a request has a token of its partition and class. -/
def hasToken (c : Channel) (q : HbmReq) : Bool :=
  decide (0 < Map.get (if q.h then c.hTok else c.gTok) q.vf 0)

/-- The request a channel serves next (R371): G with tokens, of guaranteed partitions first; then G without, the same; then H
with tokens; the oldest of each. -/
def nextServed (s : State) (c : Channel) : Option HbmReq :=
  let of (f : HbmReq → Bool) : Option HbmReq := leastBy (fun q : HbmReq => q.seq) (c.queue.filter f)
  ((((of fun q => !q.h && hasToken c q && guaranteed s q.vf).orElse fun _ => of fun q => !q.h && hasToken c q).orElse
    fun _ => of fun q => !q.h && guaranteed s q.vf).orElse fun _ => of fun q => !q.h).orElse fun _ => of fun q => q.h && hasToken c q

/-- Spends a token where the request has one. -/
def spendToken (c : Channel) (q : HbmReq) : Channel :=
  if !hasToken c q then c
  else if q.h then { c with hTok := Map.upd c.hTok q.vf 0 (· - 1) } else { c with gTok := Map.upd c.gTok q.vf 0 (· - 1) }

/-- HBM_CHANNEL_SERVE (R371): a request leaves a channel's queue; the data of a read returns to its slice. -/
def execHbmChannelServe (channel : Nat) (s : State) : Outcome State Fault Refusal :=
  match nextServed s (s.channel channel) with
  | none => .next s
  | some q =>
    let s := s.modChannel channel fun c => { spendToken c q with queue := c.queue.erase q }
    if q.write then .next s
    else
    let s := countEvent s 3 (stackOf (256 * q.line)) q.vf q.h 0x0201
    .next (s.modSlice q.slice fun z => { z with misses := z.misses.map fun m => if m.1 == q.line then (m.1, m.2.1, true) else m })

/-- HBM_TOKEN_REFILL (R371): each partition's buckets of a channel gain its G share and its H cap, up to their depths. -/
def execHbmTokenRefill (channel : Nat) (s : State) : Outcome State Fault Refusal :=
  .next (s.vfs.foldl (fun s p =>
    if p.2.state = 0 then s
    else
      let g := p.2.cfg
      s.modChannel channel fun c =>
        { c with gTok := Map.put c.gTok p.1 (min g.gDepth (Map.get c.gTok p.1 0 + g.gShare)),
                 hTok := Map.put c.hTok p.1 (min g.hDepth (Map.get c.hTok p.1 0 + g.hCap)) }) s)

/-! ## Fills (R124, R310, R311) -/

/-- Fills the bytes of a line that a slice does not hold from HBM. -/
def fillLine (hbm : Memory) (l : L2Line) : L2Line :=
  { l with filling := false,
           bytes := (List.range 256).foldl (fun m i => if Map.has m i then m else Map.put m i (Memory.read hbm (256 * l.line + i))) l.bytes }

/-- What L2_FILL does (R124): data has returned to a slice; the line it has a way for is filled, and the data of every request
for it is at hand. -/
def l2Fill (slice line : Nat) (s : State) : Outcome State Fault Refusal :=
  match (s.slice slice).misses.find? fun m => m.1 == line with
  | some (_, _, true) =>
    .next (serveEntries (s.modSlice slice fun z =>
      { z with misses := z.misses.filter fun m => m.1 != line,
               lines := z.lines.map fun p => (p.1, p.2.map fun l => if l.line == line then fillLine s.hbm l else l),
               entries := z.entries.map fun r => if keyPa r.line / 256 == line then { r with back := true } else r }) slice)
  | _ => .next s

/-- Puts a line's bytes into an L1, its dirty bytes kept, and lets what waited for it go on (R311). -/
def landLine (s : State) (core key vf : Nat) (h : Bool) (pcls : Nat) (bs : List Byte) : State :=
  let s := (haveLine s core key vf h pcls (Map.get (s.core core).fillP key 0)).tickSeq
  let s := s.modCore core fun k =>
    { k.endFill key with
             l1 := Map.mod k.l1 key fun l =>
               { l with bytes := (bs.zip (List.range bs.length)).foldl (fun m q => if l.dirty.getLsbD q.2 then m else Map.put m q.2 q.1) l.bytes } }
  { s with ops := s.ops.map fun p =>
      if p.2.onCore s core then (p.1, { p.2 with need := p.2.need.filter (· != key) }) else p }

/-- The request of a core for a line whose data its slice has returned, with the slice: none while an earlier one of its class and
set is to land, or, for class H, one of class G (R126). -/
def servedReq (s : State) (core line : Nat) : Option (Nat × L2Req) :=
  s.slices.findSome? fun p =>
    (p.2.entries.find? fun r => r.core == core && r.line == line && r.why == .l1 && r.served).bind fun r =>
      if (p.2.entries.takeWhile fun q => q != r).any (fun q => q.h == r.h && reqSet s q == reqSet s r) ||
          (r.h && p.2.entries.any fun q => !q.h && q.served) then none
      else some (p.1, r)

/-- What L1_FILL_LAND does (R310, R311): a served request's line lands in the L1 of its core, and its entry is free. The data comes from
the owning L1 of the die where there is one (R146). -/
def l1FillLand (core line : Nat) (s : State) : Outcome State Fault Refusal :=
  match servedReq s core line with
  | none => .next s
  | some (k, r) =>
    let s := s.modSlice k fun z => { z with entries := z.entries.erase r }
    .next (landLine s core line r.vf r.h r.pcls (dieReads s core r.vf 0 (keyPa line) 64))

/-! ## Write-backs (R121, R124, R149) -/

/-- L1_DIRTY_WRITEBACK (R121, R149): the write-back of a line's dirty bytes starts. -/
def execL1DirtyWriteback (core line : Nat) (s : State) : Outcome State Fault Refusal := .next (cleanLine s core line)

/-- L1_LINE_EXPIRY (R149): a line is invalidated, its dirty bytes written back. -/
def execL1LineExpiry (core line : Nat) (s : State) : Outcome State Fault Refusal :=
  .next (if (l1Line s core line).isSome then dropLine s core line else s)

/-- The runs of consecutive bytes of a table: each run's first offset and bytes. -/
def byteRuns (m : Map Byte) : List (Nat × List Byte) :=
  m.foldl (fun rs p =>
    match rs.getLast? with
    | some (o, bs) => if o + bs.length = p.1 then rs.dropLast ++ [(o, bs ++ [p.2])] else rs ++ [(p.1, [p.2])]
    | none => [(p.1, [p.2])]) []

/-- The mark on a tracker that says it is a write-back's: its die and line. -/
def wbMark (w : WriteBack) : Acc :=
  { lane := w.die, sheaf := 0, space := .generic, addr := w.line, dev := keyDev w.line, pa := keyPa w.line, mixed := false,
    oset := w.set, pcls := w.pcls, n := 0, data := [], who := none, done := false }

/-- Sends a run of bytes of a remote write-back, under the tracker of its line (R128). -/
def sendRun (s : State) (w : WriteBack) (r : Nat × List Byte) : Except NoSend State :=
  let body (i : Nat) : FrameBody := .writeReq (keyPa w.line + r.1) r.2 i
  match List.find? (fun (t : Nat × Tracker) => t.2.op.isNone && t.2.acc == some (wbMark w)) s.trackers with
  | some t => requestMore s t.1 t.2 w.h (some (r.2.length, w.set)) body
  | none =>
    request s (keyDev w.line) w.vf w.h { device := keyDev w.line, port := 0, op := none, line := none, acc := some (wbMark w), wline := some w.line }
      (some (r.2.length, w.set)) body

/-- Sends a remote write-back to its peer, run by run; each is decided alone, and what was sent before one that does not leave has left
(R398). -/
def sendWb (s : State) (w : WriteBack) : State × Option NoSend := foldStop (fun s r => sendRun s w r) s (byteRuns w.bytes)

/-- A remote write-back that does not leave is dropped, and the grid that wrote the line fails (R128, R399). -/
def loseWb (s : State) (w : WriteBack) (e : NoSend) : State :=
  let s := { s with wbufs := s.wbufs.erase w }
  match e with
  | .busy => s
  | .unreachable => failGrid (countCause s w.last.grid) w.last.grid .remoteUnreachable w.last
  | .denied g d => failGrid (countCause s w.last.grid) w.last.grid .egressDenied (denialRec w.last g w.set d)

/-- Answers the peers whose lines have all been written back and invalidated (15_translation.md R347). -/
def answerFlush (s : State) : State :=
  s.peerFlush.foldl (fun s (q : Nat × Nat × Nat) =>
    if s.wbufs.any fun w => keyDev w.line == q.1 then s
    else
      let s := { s with peerFlush := s.peerFlush.erase q }
      match sendFrame s q.1 q.2.1 false none (.writeAck q.2.2) with
      | .ok s => s
      | .error _ => s) s

/-- Takes every line of a peer's memory out of the L1s, and answers the peer once the dirty bytes have arrived (R347). -/
def flushPeer (s : State) (dev vf trk : Nat) : State :=
  let ls := s.cores.flatMap fun p => (p.2.l1.filter fun l => keyDev l.1 == dev).map fun l => (p.1, l.1)
  let s := ls.foldl (fun s (p : Nat × Nat) => dropLine s p.1 p.2) s
  answerFlush { s with peerFlush := s.peerFlush ++ [(dev, vf, trk)] }

/-- WRITE_BACK_ACKNOWLEDGEMENT (R124, R128, R147): a slice merges the oldest write-back of a die's line and acknowledges it; the
write-back of a peer's line is sent, and its acknowledgement is the peer's. -/
def execWriteBackAcknowledgement (die line : Nat) (s : State) : Outcome State Fault Refusal :=
  match s.wbufs.find? fun w => w.die == die && w.line == line && !w.sent with
  | none => .next s
  | some w =>
    if keyDev line = 0 then .next (l2Merge { s with wbufs := s.wbufs.erase w } w).tickSeq
    else
      match sendWb s w with
      | (s, none) => .next { s with wbufs := s.wbufs.map fun v => if v == w then { v with sent := true } else v }
      | (s, some .busy) => .next s
      | (s, some e) => .next (answerFlush (loseWb s w e))

end Sys2Proof.Machine
end

