-- ==== Sys2Proof/Machine/FloatOps.lean ====
section
/-! DEFINITION. Floating-point arithmetic, compares and special functions (10_isa_float.md R237 to R248). -/

namespace Sys2Proof.Machine

open Host (Outcome)

/-- The mode of an instruction marked "mode": the RND prefix's, else %rmode of the lane (R95). -/
def modeOf (r : Option RMode) (t : Thread) : RMode := r.getD t.rmode

/-- A under SMOD (R240). -/
def modA (m : SMod) (f : FFmt) (x : Nat) : FV := modFV m.absA m.negA (unpack f x)
/-- B under SMOD (R240). -/
def modB (m : SMod) (f : FFmt) (x : Nat) : FV := modFV m.absB m.negB (unpack f x)

/-- An f32 instruction of A and B. -/
def fOp2 (s : State) (m : SMod) (r : Option RMode) (d a b : Operand) (g : Guard) (f : RMode → FV → FV → Nat × Nat) :
    Outcome State Fault Refusal :=
  vecLane s d 1 [(a, 1), (b, 1)] r.isNone g fun t v =>
    match v with
    | [x, y] =>
      let z := satR m.sat fmtF32 (f (modeOf r t) (modA m fmtF32 x.toNat) (modB m fmtF32 y.toNat))
      ([word z.1], z.2)
    | _ => ([0], 0)

/-- An f32 instruction that accumulates into D. -/
def fOp3 (s : State) (m : SMod) (r : Option RMode) (d a b : Operand) (g : Guard)
    (f : RMode → FV → FV → FV → Nat × Nat) : Outcome State Fault Refusal :=
  vecLane s d 1 [(a, 1), (b, 1), (d, 1)] r.isNone g fun t v =>
    match v with
    | [x, y, c] =>
      let z := satR m.sat fmtF32 (f (modeOf r t) (modA m fmtF32 x.toNat) (modB m fmtF32 y.toNat) (unpack fmtF32 c.toNat))
      ([word z.1], z.2)
    | _ => ([0], 0)

/-- FADD: x + y (R242). -/
def execFadd (m : SMod) (r : Option RMode) (d a b : Operand) (g : Guard) (s : State) : Outcome State Fault Refusal :=
  fOp2 s m r d a b g (fAdd fmtF32)

/-- FSUB: x − y (R242). -/
def execFsub (m : SMod) (r : Option RMode) (d a b : Operand) (g : Guard) (s : State) : Outcome State Fault Refusal :=
  fOp2 s m r d a b g (fSub fmtF32)

/-- FMUL: x × y (R242). -/
def execFmul (m : SMod) (r : Option RMode) (d a b : Operand) (g : Guard) (s : State) : Outcome State Fault Refusal :=
  fOp2 s m r d a b g (fMul fmtF32)

/-- FFMA: x × y + c with one rounding (R242). -/
def execFfma (m : SMod) (r : Option RMode) (d a b : Operand) (g : Guard) (s : State) : Outcome State Fault Refusal :=
  fOp3 s m r d a b g (fFma fmtF32)

/-- An instruction without rounding of A and B in a format: FMIN and FMAX. -/
def fExact2 (s : State) (m : SMod) (d a b : Operand) (g : Guard) (f : FV → FV → Nat × Nat) : Outcome State Fault Refusal :=
  vecLane s d 1 [(a, 1), (b, 1)] false g fun _ v =>
    match v with
    | [x, y] =>
      let z := satR m.sat fmtF32 (f (modA m fmtF32 x.toNat) (modB m fmtF32 y.toNat))
      ([word z.1], z.2)
    | _ => ([0], 0)

/-- FMIN (R243). -/
def execFmin (m : SMod) (d a b : Operand) (g : Guard) (s : State) : Outcome State Fault Refusal :=
  fExact2 s m d a b g (fMinMax fmtF32 false)

/-- FMAX (R243). -/
def execFmax (m : SMod) (d a b : Operand) (g : Guard) (s : State) : Outcome State Fault Refusal :=
  fExact2 s m d a b g (fMinMax fmtF32 true)

/-- FSETP.cc on modified operands (R244). -/
def fsetp (s : State) (m : SMod) (d : Fin 7) (a b : Operand) (g : Guard) (f : FV → FV → Bool) :
    Outcome State Fault Refusal :=
  cmpOp s d a b g fun x y => f (modA m fmtF32 x.toNat) (modB m fmtF32 y.toNat)

/-- FSETP.EQ. -/
def execFsetpEq (m : SMod) (d : Fin 7) (a b : Operand) (g : Guard) (s : State) : Outcome State Fault Refusal :=
  fsetp s m d a b g eqFV

/-- FSETP.NE: also true of a NaN. -/
def execFsetpNe (m : SMod) (d : Fin 7) (a b : Operand) (g : Guard) (s : State) : Outcome State Fault Refusal :=
  fsetp s m d a b g fun x y => !eqFV x y

/-- FSETP.LT. -/
def execFsetpLt (m : SMod) (d : Fin 7) (a b : Operand) (g : Guard) (s : State) : Outcome State Fault Refusal :=
  fsetp s m d a b g ltFV

/-- FSETP.LE. -/
def execFsetpLe (m : SMod) (d : Fin 7) (a b : Operand) (g : Guard) (s : State) : Outcome State Fault Refusal :=
  fsetp s m d a b g fun x y => ltFV x y || eqFV x y

/-- FSETP.NAN. -/
def execFsetpNan (m : SMod) (d : Fin 7) (a b : Operand) (g : Guard) (s : State) : Outcome State Fault Refusal :=
  fsetp s m d a b g fun x y => x.isNaN || y.isNaN

/-- FRND (R245). -/
def execFrnd (m : SMod) (r : Option RMode) (d a : Operand) (g : Guard) (s : State) : Outcome State Fault Refusal :=
  vecLane s d 1 [(a, 1)] r.isNone g fun t v =>
    match v with
    | [x] =>
      let z := satR m.sat fmtF32 (fRnd (modeOf r t) (modA m fmtF32 x.toNat))
      ([word z.1], z.2)
    | _ => ([0], 0)

/-- FLDEXP: x × 2^n (R242). -/
def execFldexp (m : SMod) (r : Option RMode) (d a b : Operand) (g : Guard) (s : State) : Outcome State Fault Refusal :=
  vecLane s d 1 [(a, 1), (b, 1)] r.isNone g fun t v =>
    match v with
    | [x, y] =>
      let z := satR m.sat fmtF32 (fLdexp (modeOf r t) (modA m fmtF32 x.toNat) (lo32 y).toInt)
      ([word z.1], z.2)
    | _ => ([0], 0)

/-- FLDXA: c + x × 2^n with one rounding (R242). -/
def execFldxa (m : SMod) (r : Option RMode) (d a b : Operand) (g : Guard) (s : State) : Outcome State Fault Refusal :=
  vecLane s d 1 [(a, 1), (b, 1), (d, 1)] r.isNone g fun t v =>
    match v with
    | [x, y, c] =>
      let z := satR m.sat fmtF32 (fLdxa (modeOf r t) (modA m fmtF32 x.toNat) (lo32 y).toInt (unpack fmtF32 c.toNat))
      ([word z.1], z.2)
    | _ => ([0], 0)

/-! ## Packed forms (R246, R247) -/

/-- Element e of a packed word. -/
def elem (x : Nat) (e : Nat) : Nat := x / 2 ^ (16 * e) % 2 ^ 16

/-- Two elements as a word, with their flags together. -/
def pack2 (r0 r1 : Nat × Nat) : List Word × Nat := ([word (r0.1 + 2 ^ 16 * r1.1)], r0.2 ||| r1.2)

/-- A packed instruction of A and B; `mode` says whether it rounds. -/
def pOp2 (s : State) (fm : FFmt) (mode : Bool) (m : SMod) (r : Option RMode) (d a b : Operand) (g : Guard)
    (f : RMode → FV → FV → Nat × Nat) : Outcome State Fault Refusal :=
  vecLane s d 1 [(a, 1), (b, 1)] (mode && r.isNone) g fun t v =>
    match v with
    | [x, y] =>
      let el := fun e => satR m.sat fm (f (modeOf r t) (modA m fm (elem x.toNat e)) (modB m fm (elem y.toNat e)))
      pack2 (el 0) (el 1)
    | _ => ([0], 0)

/-- A packed accumulating instruction. -/
def pOp3 (s : State) (fm : FFmt) (m : SMod) (r : Option RMode) (d a b : Operand) (g : Guard) : Outcome State Fault Refusal :=
  vecLane s d 1 [(a, 1), (b, 1), (d, 1)] r.isNone g fun t v =>
    match v with
    | [x, y, c] =>
      let el := fun e => satR m.sat fm
        (fFma fm (modeOf r t) (modA m fm (elem x.toNat e)) (modB m fm (elem y.toNat e)) (unpack fm (elem c.toNat e)))
      pack2 (el 0) (el 1)
    | _ => ([0], 0)

/-- FADD.H2. -/
def execFaddH2 (m : SMod) (r : Option RMode) (d a b : Operand) (g : Guard) (s : State) : Outcome State Fault Refusal :=
  pOp2 s fmtF16 true m r d a b g (fAdd fmtF16)
/-- FMUL.H2. -/
def execFmulH2 (m : SMod) (r : Option RMode) (d a b : Operand) (g : Guard) (s : State) : Outcome State Fault Refusal :=
  pOp2 s fmtF16 true m r d a b g (fMul fmtF16)
/-- FFMA.H2. -/
def execFfmaH2 (m : SMod) (r : Option RMode) (d a b : Operand) (g : Guard) (s : State) : Outcome State Fault Refusal :=
  pOp3 s fmtF16 m r d a b g
/-- FMIN.H2. -/
def execFminH2 (m : SMod) (d a b : Operand) (g : Guard) (s : State) : Outcome State Fault Refusal :=
  pOp2 s fmtF16 false m none d a b g fun _ => fMinMax fmtF16 false
/-- FMAX.H2. -/
def execFmaxH2 (m : SMod) (d a b : Operand) (g : Guard) (s : State) : Outcome State Fault Refusal :=
  pOp2 s fmtF16 false m none d a b g fun _ => fMinMax fmtF16 true
/-- FADD.B2. -/
def execFaddB2 (m : SMod) (r : Option RMode) (d a b : Operand) (g : Guard) (s : State) : Outcome State Fault Refusal :=
  pOp2 s fmtB16 true m r d a b g (fAdd fmtB16)
/-- FMUL.B2. -/
def execFmulB2 (m : SMod) (r : Option RMode) (d a b : Operand) (g : Guard) (s : State) : Outcome State Fault Refusal :=
  pOp2 s fmtB16 true m r d a b g (fMul fmtB16)
/-- FFMA.B2. -/
def execFfmaB2 (m : SMod) (r : Option RMode) (d a b : Operand) (g : Guard) (s : State) : Outcome State Fault Refusal :=
  pOp3 s fmtB16 m r d a b g

/-- FDP2 in an element format (R247). -/
def fdp2 (s : State) (fm : FFmt) (m : SMod) (r : Option RMode) (d a b : Operand) (g : Guard) : Outcome State Fault Refusal :=
  vecLane s d 1 [(a, 1), (b, 1), (d, 1)] r.isNone g fun t v =>
    match v with
    | [x, y, c] =>
      let z := satR m.sat fmtF32 (fDp2 (modeOf r t) (unpack fmtF32 c.toNat)
        (modA m fm (elem x.toNat 0)) (modB m fm (elem y.toNat 0)) (modA m fm (elem x.toNat 1)) (modB m fm (elem y.toNat 1)))
      ([word z.1], z.2)
    | _ => ([0], 0)

/-- FDP2.H2. -/
def execFdp2H2 (m : SMod) (r : Option RMode) (d a b : Operand) (g : Guard) (s : State) : Outcome State Fault Refusal :=
  fdp2 s fmtF16 m r d a b g
/-- FDP2.B2. -/
def execFdp2B2 (m : SMod) (r : Option RMode) (d a b : Operand) (g : Guard) (s : State) : Outcome State Fault Refusal :=
  fdp2 s fmtB16 m r d a b g

/-! ## Special functions (R248) -/

/-- A word under SMOD's bits for A: the sign bit alone changes. -/
def modWord (m : SMod) (x : Word) : Word :=
  let x := if m.absA then x &&& 0x7FFFFFFF else x
  if m.negA then x ^^^ 0x80000000 else x

/-- A special function of A. -/
def sfn (s : State) (m : SMod) (d a : Operand) (g : Guard) (f : Word → Nat × Nat) : Outcome State Fault Refusal :=
  vecLane s d 1 [(a, 1)] false g fun _ v =>
    match v with
    | [x] =>
      let z := satR m.sat fmtF32 (f (modWord m (lo32 x)))
      ([word z.1], z.2)
    | _ => ([0], 0)

/-- FRCP. -/
def execFrcp (m : SMod) (d a : Operand) (g : Guard) (s : State) : Outcome State Fault Refusal := sfn s m d a g fRcp
/-- FRSQ. -/
def execFrsq (m : SMod) (d a : Operand) (g : Guard) (s : State) : Outcome State Fault Refusal := sfn s m d a g fRsq
/-- FSQRT. -/
def execFsqrt (m : SMod) (d a : Operand) (g : Guard) (s : State) : Outcome State Fault Refusal := sfn s m d a g fSqrt
/-- FEX2. -/
def execFex2 (m : SMod) (d a : Operand) (g : Guard) (s : State) : Outcome State Fault Refusal := sfn s m d a g fEx2
/-- FLG2. -/
def execFlg2 (m : SMod) (d a : Operand) (g : Guard) (s : State) : Outcome State Fault Refusal := sfn s m d a g fLg2
/-- FSIN. -/
def execFsin (m : SMod) (d a : Operand) (g : Guard) (s : State) : Outcome State Fault Refusal := sfn s m d a g (fTrig true)
/-- FCOS. -/
def execFcos (m : SMod) (d a : Operand) (g : Guard) (s : State) : Outcome State Fault Refusal := sfn s m d a g (fTrig false)
/-- FTANH. -/
def execFtanh (m : SMod) (d a : Operand) (g : Guard) (s : State) : Outcome State Fault Refusal := sfn s m d a g fTanh

end Sys2Proof.Machine
end

