-- ==== Sys2Proof/Machine/Moves.lean ====
section
/-! DEFINITION. Compares, predicates, selection, moves and the two instructions that reach uniform state
(09_isa_integer.md R222 to R228). -/

namespace Sys2Proof.Machine

open Host (Outcome)

/-- The truth of a comparison (R222). -/
def icmpHolds (cc : ICmp) (x y : Word) : Bool :=
  match cc with
  | .eq => x == y
  | .ne => x != y
  | .ltS => x.slt y
  | .leS => x.sle y
  | .ltN => x.ult y
  | .leN => x.ule y

/-- ISETP.cc: the comparison's truth into pD (R222). -/
def execIsetp (cc : ICmp) (d : Fin 7) (a b : Operand) (g : Guard) (s : State) : Outcome State Fault Refusal :=
  cmpOp s d a b g (icmpHolds cc)

/-- PSETP.AND (R223). -/
def execPsetpAnd (d : Fin 7) (a b : Fin 8) (g : Guard) (s : State) : Outcome State Fault Refusal :=
  psetOp s d a b g fun p q => p && q

/-- PSETP.OR (R223). -/
def execPsetpOr (d : Fin 7) (a b : Fin 8) (g : Guard) (s : State) : Outcome State Fault Refusal :=
  psetOp s d a b g fun p q => p || q

/-- PSETP.XOR (R223). -/
def execPsetpXor (d : Fin 7) (a b : Fin 8) (g : Guard) (s : State) : Outcome State Fault Refusal :=
  psetOp s d a b g fun p q => p != q

/-- PSETP.ANDN (R223). -/
def execPsetpAndn (d : Fin 7) (a b : Fin 8) (g : Guard) (s : State) : Outcome State Fault Refusal :=
  psetOp s d a b g fun p q => p && !q

/-- SEL: x where the guard is true, y where it is false, in every present thread (R225). -/
def execSel (d a b : Operand) (g : Guard) (s : State) : Outcome State Fault Refusal :=
  issueOp s gAlways (fun x => trapSets x [(a, 1), (b, 1)] [g.pred] gAlways)
    (vecBody s d 1 [(a, 1), (b, 1)] [g.pred] false gAlways (laneInv [(a, 1), (b, 1)] [g.pred] gAlways) fun x p =>
      ([if guardTrue x.crew g p then val32 x a p else val32 x b p], 0))

/-- MOV (R224). -/
def execMov (d a : Operand) (g : Guard) (s : State) : Outcome State Fault Refusal :=
  intOp1 s d a g fun x => x

/-- p0 to p6 of a lane as bits [6:0] of a word (R226). -/
def predWord (h : Sheaf) (l : Nat) : Word :=
  word ((List.range 7).foldl (fun acc i => acc + (if h.pred i l then 2 ^ i else 0)) 0)

/-- The predicates PRDW reads. -/
def allPreds : List Nat := List.range 7

/-- PRDW: the lane's predicates as a word (R226). -/
def execPrdw (d : Operand) (g : Guard) (s : State) : Outcome State Fault Refusal :=
  issueOp s g (fun x => trapSets x [] allPreds g)
    (vecBody s d 1 [] allPreds false g (laneInv [] allPreds g) fun x p => ([predWord (x.crew.sheaf p.2) p.1], 0))

/-- Writes bits of words to the predicates listed, each taking S by R83. -/
def writePreds (x : Iss) (is : List Nat) (vs : List ((Nat × Nat) × Word)) (s : OSet) (t : Map OEntry) :
    Except Stop (Iss × Map OEntry) :=
  foldE (fun (a : Iss × Map OEntry) i => writePred a.1 i (vs.map fun v => (v.1, v.2.getLsbD i)) s a.2) (x, t) is

/-- The effect of PWRW. -/
def pwrwBody (s : State) (a : Operand) (g : Guard) (x : Iss) : Except Stop State :=
  let doubt := (doubted x g).map fun p => (p, true)
  if x.active.isEmpty then
    .ok (if x.grp.episode.isSome then (allPreds.foldl (fun y i => markPred y i doubt) x).put s else s)
  else
    match checkOperands x x.active [(a, 1)] with
    | .error e => .error e
    | .ok () =>
      match osJoinAll s.osets 0 (resultSets x x.active [(a, 1)] [] false g) with
      | .error e => .error (.raise e [])
      | .ok (set, t) =>
        match writePreds x allPreds (x.active.map fun p => (p, val32 x a p)) set t with
        | .error e => .error e
        | .ok (y, t) =>
          let y := if x.grp.episode.isSome then
            allPreds.foldl (fun y i => markPred y i ((x.active.map fun p => (p, laneInv [(a, 1)] [] g x p)) ++ doubt)) y else y
          .ok (y.put { s with osets := t })

/-- PWRW: bits [6:0] of A to p0 to p6 (R226). -/
def execPwrw (a : Operand) (g : Guard) (s : State) : Outcome State Fault Refusal :=
  issueOp s g (fun x => trapSets x [(a, 1)] [] g) (pwrwBody s a g)

/-- Marks k register i of the home sheaves of some threads as invalid for the rest of the episode (Table 9.6, R255). -/
def holdK (x : Iss) (i : Nat) (ps : List (Nat × Nat)) : Iss :=
  match x.grp.episode with
  | none => x
  | some e =>
    { x with grp := { x.grp with episode := some { e with
        heldK := (homesOf ps).foldl (fun m h => markOf true m (h, i)) e.heldK } } }

/-- Writes one value with the set S to k register i of every home sheaf of some threads; with a mark, the register is then
invalid for the rest of the episode (R227, R251). -/
def writeKAll (x : Iss) (i : Nat) (ps : List (Nat × Nat)) (v : Word) (s : OSet) (inv : Bool) : Iss :=
  let y := markReg (writeK x i (ps.map fun p => (p, v)) s) (.k (Fin.ofNat 30 i)) 0 (ps.map fun p => (p, inv))
  if inv then holdK y i ps else y

/-- The lane W2K reads: B in the home sheaf of the lowest active lane (R227). -/
def w2kLane (x : Iss) (b : Operand) : Option (Nat × Nat) :=
  match x.active with
  | [] => none
  | p :: _ => x.active.find? fun q => q.1 == (val32 x b p).toNat

/-- The effect of W2K. -/
def w2kBody (s : State) (d : Fin 30) (a b : Operand) (g : Guard) (x : Iss) : Except Stop State :=
  if x.active.isEmpty then .ok (idle s x (.k d) 1 g)
  else
    match checkOperands x x.active [(a, 1), (b, 1)] with
    | .error e => .error e
    | .ok () =>
      let bad := (x.active.take 1).any fun p => opInv x (b, 1) p || predInv x g.pred p
      match w2kLane x b with
      | none => .ok (if bad then (holdK x d x.active).put s else s)
      | some q =>
        match osJoinAll s.osets 0 (resultSets x x.active [(a, 1), (b, 1)] [] false g) with
        | .error e => .error (.raise e [])
        | .ok (set, t) =>
          let inv := bad || opInv x (a, 1) q || predInv x g.pred q
          .ok ((writeKAll x d x.active (val32 x a q) set inv).put { s with osets := t })

/-- W2K: one lane's value into k of every contributing home sheaf (R227). -/
def execW2k (d : Fin 30) (a b : Operand) (g : Guard) (s : State) : Outcome State Fault Refusal :=
  issueOp s g (fun x => trapSets x [(a, 1), (b, 1)] [] g) (w2kBody s d a b g)

/-- The operands and predicates an OSQ names. -/
def osqOps (a : Operand ⊕ Fin 8) : List (Operand × Nat) × List Nat :=
  match a with
  | .inl o => ([(o, 1)], [])
  | .inr p => ([], [p.val])

/-- The set index OSQ reports for a home sheaf, read in its lowest active lane (R228). -/
def osqIndex (x : Iss) (a : Operand ⊕ Fin 8) (p : Nat × Nat) : OSet :=
  match a with
  | .inl o => regSet x o 0 p
  | .inr i => (x.crew.sheaf p.2).predSet i

/-- The effect of OSQ. -/
def osqBody (s : State) (d : Fin 30) (a : Operand ⊕ Fin 8) (g : Guard) (x : Iss) : Except Stop State :=
  let (os, ps) := osqOps a
  if x.active.isEmpty then .ok (idle s x (.k d) 1 g)
  else
    match checkOperands x x.active os with
    | .error e => .error e
    | .ok () =>
      match osJoinAll s.osets 0 (resultSets x x.active os ps false g) with
      | .error e => .error (.raise e [])
      | .ok (set, t) =>
        let y := writeK x d (x.active.map fun p => (p, word (osqIndex x a p))) set
        let y := markReg y (.k d) 0 (x.active.map fun p => (p, laneInv os ps g x p))
        let y := if x.grp.episode.isSome then markDoubted y (.k d) 1 g else y
        .ok (y.put { s with osets := t })

/-- OSQ: the index of an origin set into k (R228). -/
def execOsq (d : Fin 30) (a : Operand ⊕ Fin 8) (g : Guard) (s : State) : Outcome State Fault Refusal :=
  issueOp s g (fun x => trapSets x (osqOps a).1 (osqOps a).2 g) (osqBody s d a g)

end Sys2Proof.Machine
end

