-- ==== Sys2Proof/Machine/Convert.lean ====
section
/-! DEFINITION. Conversions and block instructions (10_isa_float.md R249 to R253). -/

namespace Sys2Proof.Machine

open Host (Outcome)

/-- A conversion of one source under a mode: `f` gives bits and flags. -/
def cvt1 (s : State) (d a : Operand) (g : Guard) (f : Word → Nat × Nat) : Outcome State Fault Refusal :=
  vecLane s d 1 [(a, 1)] false g fun _ v =>
    match v with
    | [x] => let z := f (lo32 x); ([word z.1], z.2)
    | _ => ([0], 0)

/-- CVT.F32.I32 (R249). -/
def execCvtF32I32 (r : Option RMode) (d a : Operand) (g : Guard) (s : State) : Outcome State Fault Refusal :=
  cvt1 s d a g fun x => rndFV fmtF32 (r.getD .rne) (ofInt x.toInt)
/-- CVT.F32.N32. -/
def execCvtF32N32 (r : Option RMode) (d a : Operand) (g : Guard) (s : State) : Outcome State Fault Refusal :=
  cvt1 s d a g fun x => rndFV fmtF32 (r.getD .rne) (ofInt (x.toNat : Int))
/-- An integer result modulo 2^32 with its flags. -/
def intBits (r : Int × Nat) : Nat × Nat := ((wordI r.1).toNat, r.2)
/-- CVT.I32.F32 (R250). -/
def execCvtI32F32 (r : Option RMode) (d a : Operand) (g : Guard) (s : State) : Outcome State Fault Refusal :=
  cvt1 s d a g fun x => intBits (toRange (r.getD .rtz) (-2147483648) 2147483647 (unpack fmtF32 x.toNat))
/-- CVT.N32.F32 (R250). -/
def execCvtN32F32 (r : Option RMode) (d a : Operand) (g : Guard) (s : State) : Outcome State Fault Refusal :=
  cvt1 s d a g fun x => intBits (toRange (r.getD .rtz) 0 4294967295 (unpack fmtF32 x.toNat))

/-- A narrowing of A and B into two fields of w bits (R249). -/
def cvtPair (s : State) (fm : FFmt) (w : Nat) (r : Option RMode) (d a b : Operand) (g : Guard) : Outcome State Fault Refusal :=
  vecLane s d 1 [(a, 1), (b, 1)] false g fun _ v =>
    match v with
    | [x, y] =>
      let p := narrow fm (r.getD .rne) (unpack fmtF32 x.toNat)
      let q := narrow fm (r.getD .rne) (unpack fmtF32 y.toNat)
      ([word (p.1 + 2 ^ w * q.1)], p.2 ||| q.2)
    | _ => ([0], 0)

/-- CVT.H2.F32. -/
def execCvtH2F32 (r : Option RMode) (d a b : Operand) (g : Guard) (s : State) : Outcome State Fault Refusal :=
  cvtPair s fmtF16 16 r d a b g
/-- CVT.B2.F32. -/
def execCvtB2F32 (r : Option RMode) (d a b : Operand) (g : Guard) (s : State) : Outcome State Fault Refusal :=
  cvtPair s fmtB16 16 r d a b g
/-- CVT.E4X2.F32. -/
def execCvtE4X2F32 (r : Option RMode) (d a b : Operand) (g : Guard) (s : State) : Outcome State Fault Refusal :=
  cvtPair s fmtE4 8 r d a b g
/-- CVT.E5X2.F32. -/
def execCvtE5X2F32 (r : Option RMode) (d a b : Operand) (g : Guard) (s : State) : Outcome State Fault Refusal :=
  cvtPair s fmtE5 8 r d a b g

/-- CVT.F32.HL. -/
def execCvtF32HL (d a : Operand) (g : Guard) (s : State) : Outcome State Fault Refusal :=
  cvt1 s d a g fun x => (widen fmtF16 (elem x.toNat 0), 0)
/-- CVT.F32.HH. -/
def execCvtF32HH (d a : Operand) (g : Guard) (s : State) : Outcome State Fault Refusal :=
  cvt1 s d a g fun x => (widen fmtF16 (elem x.toNat 1), 0)
/-- CVT.F32.BL. -/
def execCvtF32BL (d a : Operand) (g : Guard) (s : State) : Outcome State Fault Refusal :=
  cvt1 s d a g fun x => (widen fmtB16 (elem x.toNat 0), 0)
/-- CVT.F32.BH. -/
def execCvtF32BH (d a : Operand) (g : Guard) (s : State) : Outcome State Fault Refusal :=
  cvt1 s d a g fun x => (widen fmtB16 (elem x.toNat 1), 0)

/-- The byte of A that bits [1:0] of B select, widened. -/
def cvtByte (s : State) (fm : FFmt) (d a b : Operand) (g : Guard) : Outcome State Fault Refusal :=
  vecLane s d 1 [(a, 1), (b, 1)] false g fun _ v =>
    match v with
    | [x, y] => ([word (widen fm (x.toNat / 256 ^ (y.toNat % 4) % 256))], 0)
    | _ => ([0], 0)

/-- CVT.F32.E4. -/
def execCvtF32E4 (d a b : Operand) (g : Guard) (s : State) : Outcome State Fault Refusal := cvtByte s fmtE4 d a b g
/-- CVT.F32.E5. -/
def execCvtF32E5 (d a b : Operand) (g : Guard) (s : State) : Outcome State Fault Refusal := cvtByte s fmtE5 d a b g

/-! ## Blocks -/

/-- The permutation table's entry for window v and element l: identity where none is loaded (R103). -/
def ptabAt (c : Crew) (v l : Nat) : Nat := Map.get c.ptab (32 * v + l) l

/-- The 32 source values of CVTB after the permutation: +0 in inactive lanes (R251). -/
def cvtbSrc (x : Iss) (a : Operand) (v : Nat) : List FV :=
  let src := positions0 x a
  (List.range 32).map fun l => unpack fmtF32 ((src[ptabAt x.crew v l]?).getD 0)
where
  /-- A at each lane position; 0 in inactive lanes. -/
  positions0 (x : Iss) (a : Operand) : List Nat :=
    (List.range 32).map fun l =>
      match x.active.find? fun p => p.1 == l with
      | some p => (val32 x a p).toNat
      | none => 0

/-- The lowest active thread. -/
def lead (x : Iss) : Nat × Nat := (x.active.head?).getD (0, 0)

/-- The block CVTB builds: exponent, mantissas, flags (R251). -/
def cvtbBlock (x : Iss) (c : Nat) (r : Option RMode) (a : Operand) : Nat × List Int × Nat :=
  let t := x.crew.thread (lead x)
  quantise (c + 2) (modeOf r t) (cvtbSrc x a t.ptsel)

/-- The sets of %rmode and %ptsel of the lowest active lane that an operation consults (R78, R96). -/
def sampledSets (x : Iss) (mode : Bool) : List OSet :=
  let t := x.crew.thread (lead x)
  (if mode then [t.rmodeS] else []) ++ [t.ptselS]

/-- The effect of CVTB. -/
def cvtbBody (s : State) (c : Nat) (r : Option RMode) (d a : Operand) (b : Fin 30) (g : Guard) (x : Iss) :
    Except Stop State :=
  if x.active.isEmpty then .ok (idle s (markDoubted x (.k b) 1 g) d 1 g)
  else
    match checkOperands x x.active [(a, 1), (d, 1)] with
    | .error e => .error e
    | .ok () =>
      if xregForbidden x d x.active then .error (.raise .illXregWrite [])
      else
        match osJoinAll s.osets 0 (resultSets x x.active [(a, 1)] [] false g ++ sampledSets x r.isNone) with
        | .error e => .error (.raise e [])
        | .ok (set, t) =>
          let (xe, ms, fl) := cvtbBlock x c r a
          let inv := blockInv [(a, 1)] g fun _ => true
          match vecWrite x d 1 (x.active.map fun p => (p, [wordI ((ms[p.1]?).getD 0)], fl)) g inv set t with
          | .error e => .error e
          | .ok (y, t) => .ok ((markDoubted (writeKAll y b x.active (word xe) set (inv x (0, 0))) (.k b) 1 g).put { s with osets := t })

/-- CVTB.(c + 2) (R251). -/
def execCvtb (c : Fin 7) (r : Option RMode) (d a : Operand) (b : Fin 30) (g : Guard) (s : State) :
    Outcome State Fault Refusal :=
  issueOp s g (fun x => trapSets x [(a, 1)] [] g) (cvtbBody s c r d a b g)

/-- DQB (R252). -/
def execDqb (d a b : Operand) (g : Guard) (s : State) : Outcome State Fault Refusal :=
  vecLane s d 1 [(a, 1), (b, 1)] false g fun _ v =>
    match v with
    | [x, y] => let z := fDqb x.toNat y.toNat; ([word z.1], z.2)
    | _ => ([0], 0)

/-- BPACK.(c + 2): the mantissas of active lanes packed into words of lanes 0 to w − 1 (R253). -/
def execBpack (c : Fin 7) (d a : Operand) (g : Guard) (s : State) : Outcome State Fault Refusal :=
  issueOp s g (fun x => trapSets x [(a, 1)] [] g)
    (vecBody s d 1 [(a, 1)] [] false g (blockInv [(a, 1)] g fun _ => true) fun x p =>
      let str := packBits (c.val + 2) (cvtbSrc.positions0 x a)
      ([if p.1 < c.val + 2 then word (str / 2 ^ (32 * p.1)) else 0], 0))

/-- BUNPK.(c + 2): one mantissa to each active lane from the words of lanes 0 to w − 1 (R253). -/
def execBunpk (c : Fin 7) (d a : Operand) (g : Guard) (s : State) : Outcome State Fault Refusal :=
  issueOp s g (fun x => trapSets x [(a, 1)] [] g)
    (vecBody s d 1 [(a, 1)] [] false g (blockInv [(a, 1)] g fun q => decide (q.1 < c.val + 2)) fun x p =>
      let str := packBits 32 ((cvtbSrc.positions0 x a).take (c.val + 2))
      ([wordI (sextOf (str / 2 ^ (p.1 * (c.val + 2)) % 2 ^ (c.val + 2)) (c.val + 2))], 0))

end Sys2Proof.Machine
end

