-- ==== Sys2Proof/Machine/CrossLane.lean ====
section
/-! DEFINITION. Cross-lane instructions and the floating-point reductions (09_isa_integer.md R229 to R233;
10_isa_float.md R254; 04_numbers.md R108). -/

namespace Sys2Proof.Machine

open Host (Outcome)

/-- The source lane of SHFL for lane l and index b; none where it is out of range (R230). -/
def shflLane (m : ShflMode) (l b : Nat) : Option Nat :=
  let s : Int := match m with
    | .idx => b
    | .up => (l : Int) - b
    | .down => (l : Int) + b
    | .xor => (l ^^^ b : Nat)
  if 0 ≤ s ∧ s ≤ 31 then some s.toNat else none

/-- The thread whose A a SHFL delivers to thread p: the source lane's, or p's own (R230). -/
def shflSrc (x : Iss) (m : ShflMode) (b : Operand) (p : Nat × Nat) : Nat × Nat :=
  match shflLane m p.1 (val32 x b p).toNat with
  | some s => (x.active.find? fun q => q.1 == s).getD p
  | none => p

/-- SHFL.mode (R230). -/
def execShfl (m : ShflMode) (d a b : Operand) (g : Guard) (s : State) : Outcome State Fault Refusal :=
  issueOp s g (fun x => trapSets x [(a, 1), (b, 1)] [] g)
    (vecBody s d 1 [(a, 1), (b, 1)] [] false g
      (fun x p => opInv x (b, 1) p || opInv x (a, 1) (shflSrc x m b p) || predInv x g.pred p)
      fun x p => ([val32 x a (shflSrc x m b p)], 0))

/-- The predicate of a vote in a lane. -/
def voteOf (x : Iss) (a : Nat) (p : Nat × Nat) : Bool := (x.crew.sheaf p.2).pred a p.1

/-- VOTE.ALL (R231). -/
def execVoteAll (d : Fin 7) (a : Fin 8) (g : Guard) (s : State) : Outcome State Fault Refusal :=
  issueOp s g (fun x => trapSets x [] [a.val] g)
    (predBody s d [] [a.val] g (crossInv [] [a.val] g) fun x _ => x.active.all (voteOf x a))

/-- VOTE.ANY (R231). -/
def execVoteAny (d : Fin 7) (a : Fin 8) (g : Guard) (s : State) : Outcome State Fault Refusal :=
  issueOp s g (fun x => trapSets x [] [a.val] g)
    (predBody s d [] [a.val] g (crossInv [] [a.val] g) fun x _ => x.active.any (voteOf x a))

/-- The ballot word: bit l is 1 when lane l is active and its predicate true (R231). -/
def ballot (x : Iss) (a : Nat) : Word :=
  word ((x.active.filter (voteOf x a)).foldl (fun acc p => acc + 2 ^ p.1) 0)

/-- VOTE.BAL (R231). -/
def execVoteBal (d : Operand) (a : Fin 8) (g : Guard) (s : State) : Outcome State Fault Refusal :=
  issueOp s g (fun x => trapSets x [] [a.val] g)
    (vecBody s d 1 [] [a.val] false g (crossInv [] [a.val] g) fun x _ => ([ballot x a], 0))

/-- A reduction: one result of A over the active lanes, in every active lane (R232). -/
def reduce (s : State) (d a : Operand) (g : Guard) (f : List Word → Word × Nat) : Outcome State Fault Refusal :=
  issueOp s g (fun x => trapSets x [(a, 1)] [] g)
    (vecBody s d 1 [(a, 1)] [] false g (crossInv [(a, 1)] [] g) fun x _ =>
      let r := f (x.active.map fun p => val32 x a p)
      ([r.1], r.2))

/-- The extreme of a nonempty list under an order. -/
def extremeBy (lt : Word → Word → Bool) (xs : List Word) : Word :=
  match xs with
  | [] => 0
  | x :: rest => rest.foldl (fun m y => if lt y m then y else m) x

/-- REDADD.S: the exact sum, clamped once (R232). -/
def execRedaddS (d a : Operand) (g : Guard) (s : State) : Outcome State Fault Refusal :=
  reduce s d a g fun xs =>
    (wordI (max (-2147483648) (min 2147483647 (xs.foldl (fun acc x => acc + x.toInt) 0))), 0)

/-- REDMIN.S (R232). -/
def execRedminS (d a : Operand) (g : Guard) (s : State) : Outcome State Fault Refusal :=
  reduce s d a g fun xs => (extremeBy (fun x y => x.slt y) xs, 0)

/-- REDMIN.N (R232). -/
def execRedminN (d a : Operand) (g : Guard) (s : State) : Outcome State Fault Refusal :=
  reduce s d a g fun xs => (extremeBy (fun x y => x.ult y) xs, 0)

/-- REDMAX.S (R232). -/
def execRedmaxS (d a : Operand) (g : Guard) (s : State) : Outcome State Fault Refusal :=
  reduce s d a g fun xs => (extremeBy (fun x y => y.slt x) xs, 0)

/-- REDMAX.N (R232). -/
def execRedmaxN (d a : Operand) (g : Guard) (s : State) : Outcome State Fault Refusal :=
  reduce s d a g fun xs => (extremeBy (fun x y => y.ult x) xs, 0)

/-- The value and index of R233 over pairs of A and B: `better a v` where a lane's value beats the best so far. -/
def argBest (better : Word → Word → Bool) (v0 : Word) (xs : List (Word × Word)) : Word × Word :=
  xs.foldl (fun b x => if better x.1 b.1 || (x.1 == b.1 && x.2.ult b.2) then x else b) (v0, 0xFFFFFFFF)

/-- A reduction with an index (R233). -/
def reduceIdx (s : State) (d a b : Operand) (g : Guard) (better : Word → Word → Bool) (v0 : Word) :
    Outcome State Fault Refusal :=
  issueOp s g (fun x => trapSets x [(a, 1), (b, 1)] [] g)
    (vecBody s d 2 [(a, 1), (b, 1)] [] false g (crossInv [(a, 1), (b, 1)] [] g) fun x _ =>
      let r := argBest better v0 (x.active.map fun p => (val32 x a p, val32 x b p))
      ([r.1, r.2], 0))

/-- REDMINI.N (R233). -/
def execRedminiN (d a b : Operand) (g : Guard) (s : State) : Outcome State Fault Refusal :=
  reduceIdx s d a b g (fun x v => x.ult v) 0xFFFFFFFF

/-- REDMAXI.N (R233). -/
def execRedmaxiN (d a b : Operand) (g : Guard) (s : State) : Outcome State Fault Refusal :=
  reduceIdx s d a b g (fun x v => v.ult x) 0

/-- The value of A at each lane position, or a constant where the lane is inactive. -/
def positions (x : Iss) (a : Operand) (other : Nat) : List Nat :=
  (List.range 32).map fun l =>
    match x.active.find? fun p => p.1 == l with
    | some p => (val32 x a p).toNat
    | none => other

/-- A floating-point reduction over the 32 lane positions. -/
def reduceF (s : State) (d a : Operand) (g : Guard) (other : Nat) (f : List Nat → Nat × Nat) :
    Outcome State Fault Refusal :=
  issueOp s g (fun x => trapSets x [(a, 1)] [] g)
    (vecBody s d 1 [(a, 1)] [] false g (blockInv [(a, 1)] g fun _ => true) fun x _ =>
      let r := f (positions x a other)
      ([word r.1], r.2))

/-- REDADD.F32: the pairwise tree, −0 in inactive positions (R108). -/
def execRedaddF32 (d a : Operand) (g : Guard) (s : State) : Outcome State Fault Refusal :=
  reduceF s d a g 0x80000000 treeSum

/-- The least or greatest of f32 bit patterns by the rules of FMIN and FMAX. -/
def extremeF (big : Bool) (xs : List Nat) : Nat × Nat :=
  match xs with
  | [] => (0, 0)
  | x :: rest =>
    ((x :: rest).foldl (fun m y => (fMinMax fmtF32 big (unpack fmtF32 m) (unpack fmtF32 y)).1) x, 0)

/-- REDMIN.F32: +∞ in inactive positions (R108). -/
def execRedminF32 (d a : Operand) (g : Guard) (s : State) : Outcome State Fault Refusal :=
  reduceF s d a g 0x7F800000 (extremeF false)

/-- REDMAX.F32: −∞ in inactive positions (R108). -/
def execRedmaxF32 (d a : Operand) (g : Guard) (s : State) : Outcome State Fault Refusal :=
  reduceF s d a g 0xFF800000 (extremeF true)

end Sys2Proof.Machine
end

