-- ==== Sys2Proof/Machine/Frames.lean ====
section
/-! DEFINITION. What the fabric brings: requests of peers, replies to this device, and peers that do not answer (05_memory.md
R124, R128; 17_trust.md R397 to R399; 19_platform.md R421). -/

namespace Sys2Proof.Machine

open Host (Outcome)

/-! ## A peer's access to local memory (R128) -/

/-- Origin set and mixed bit of every stage-2 leaf below a table that maps a physical address. -/
def leavesOf (s : State) (vf pa : Nat) (lvs : List (Nat × Nat × Nat)) (table : Nat) : List (OSet × Bool) :=
  match lvs with
  | [] => []
  | lv :: rest =>
    (List.range (2 ^ lv.2.2)).flatMap fun i =>
      match readEntry s vf (table + 8 * i) with
      | .error _ => []
      | .ok e =>
        if !bitOf e 0 || malformed true lv.1 e then []
        else if bitOf e 1 then
          (if bitsOf e 15 9 = 0 ∧ entryBase e ≤ pa ∧ pa < entryBase e + 2 ^ lv.2.1 then [(bitsOf e 61 52, bitOf e 8)] else [])
        else leavesOf s vf pa rest (entryBase e)

/-- The granule rule of a local page for a peer's access: the owner's stage-2 leaf; a frame no leaf maps keeps a set per line
(assumption 10). -/
def pageRule (s : State) (vf pa : Nat) : OSet × Bool :=
  ((leavesOf s vf pa walkLevels ((s.vf vf).s2root.toNat / 65536 * 65536)).head?).getD (0, true)

/-- The VF that owns n bytes at a physical address; none where they are not memory of a partition. -/
def ownerOf (s : State) (pa n : Nat) : Option Nat :=
  if hbmBytes < pa + n ∨ n = 0 then none
  else
    match Map.find? s.frames (pa / 65536), Map.find? s.frames ((pa + n - 1) / 65536) with
    | some a, some b => if a.owner = 0 ∨ a.owner ≠ b.owner then none else some a.owner
    | _, _ => none

/-- The set that a peer's write carries: the principal bound to its device and VF (R128). -/
def peerSet (s : State) (dev vf : Nat) : Except Cause (OSet × Map OEntry) :=
  let p := Map.get s.eprin (256 * dev + vf) 0
  if p = 0 then .ok (0, s.osets) else osMake s.osets [p.toNat]

/-- The join of the sets of the granules of n bytes. -/
def rangeSet (s : State) (vf pa n : Nat) : Except Cause (OSet × Map OEntry) :=
  let r := pageRule s vf pa
  osJoinAll s.osets 0 ((List.range ((pa % 256 + n + 255) / 256)).map fun i => granuleSet s 0 (pa / 256 * 256 + 256 * i) r.2 r.1)

/-- Sends a reply through the gate; a denial is noticed, and the peer receives a refusal (R399). -/
def reply (s : State) (f : Frame) (trk : Nat) (gated : Option (Nat × OSet)) (body : FrameBody) : State :=
  match sendFrame s f.device f.vf f.h gated body with
  | .ok s => s
  | .error (.denied g d) =>
    let s := s.notice 0 .egressDenied (denialRec FRec.init g ((gated.map (·.2)).getD 0) d)
    match sendFrame s f.device f.vf f.h none (.refusal trk) with
    | .ok s => s
    | .error _ => s
  | .error _ => s

/-- Refuses a peer's access. -/
def refuse (s : State) (f : Frame) (trk : Nat) : State := reply s f trk none (.refusal trk)

/-- A peer's read (R124, R128). -/
def peerRead (s : State) (f : Frame) (pa n trk : Nat) : State :=
  match ownerOf s pa n with
  | none => refuse s f trk
  | some vf =>
    match rangeSet s vf pa n with
    | .error _ => refuse s f trk
    | .ok (u, t) => reply { s with osets := t } f trk (some (n, u)) (.readReply trk (memBytes s vf pa n))

/-- A peer's write into the memory side, with its set by the rules of R120; none where it is refused. -/
def peerPut (s : State) (f : Frame) (vf pa : Nat) (bs : List Byte) : Option State :=
  match peerSet s f.device f.vf with
  | .error _ => none
  | .ok (u, t) =>
    let s := { s with osets := t }
    let r := pageRule s vf pa
    if !r.2 && !osSubset s.osets u r.1 then none
    else
      match foldE (fun s i => joinGranule s 0 (pa / 256 * 256 + 256 * i) r.2 r.1 u) s (List.range ((pa % 256 + bs.length + 255) / 256)) with
      | .error _ => none
      | .ok s => some (sideWrite s vf pa bs)

/-- A peer's write. -/
def peerWrite (s : State) (f : Frame) (pa : Nat) (bs : List Byte) (trk : Nat) : State :=
  match (ownerOf s pa bs.length).bind fun vf => peerPut s f vf pa bs with
  | none => refuse s f trk
  | some s => reply s f trk none (.writeAck trk)

/-- A peer's read-modify-write, performed at the home slice (R145). -/
def peerRmw (s : State) (f : Frame) (op : RmwOp) (pa : Nat) (v c : Dword) (trk : Nat) : State :=
  let n := rmwBytes op
  match ownerOf s pa n with
  | none => refuse s f trk
  | some vf =>
    match rangeSet s vf pa n with
    | .error _ => refuse s f trk
    | .ok (u, t) =>
      let s := { s with osets := t }
      let m := dword (memNum s vf pa n)
      if rmwWrites op m c then
        match peerPut s f vf pa (bytesOf n (rmwNew op m v c).toNat) with
        | none => refuse s f trk
        | some s => reply s f trk (some (n, u)) (.rmwReply trk m)
      else reply s f trk (some (n, u)) (.rmwReply trk m)

/-! ## A peer's requests at the slices (R128, R310) -/

/-- The bytes of local memory that a peer's request names, and its tracker at the peer. -/
def bodyAsks (b : FrameBody) : Option (Nat × Nat × Nat) :=
  match b with
  | .readReq pa n t => some (pa, n, t)
  | .writeReq pa bs t => some (pa, bs.length, t)
  | .rmwReq op pa _ _ t => some (pa, rmwBytes op, t)
  | _ => none

/-- A peer's request enters the mesh to its home slice, to be served there without allocation (R124, R310); one of memory that no
partition owns is refused. -/
def peerAsk (s : State) (f : Frame) : State :=
  match bodyAsks f.body with
  | none => s
  | some (pa, n, t) =>
    match ownerOf s pa n with
    | none => refuse s f t
    | some vf => sendL2 s (l2Request 0 vf (lineKey 0 pa) f.h 0 true s.seq (.peer f))

/-- Serves a peer's request that its slice has accepted. -/
def peerServe (s : State) (f : Frame) : State :=
  match f.body with
  | .readReq pa n t => peerRead s f pa n t
  | .writeReq pa bs t => peerWrite s f pa bs t
  | .rmwReq op pa v c t => peerRmw s f op pa v c t
  | _ => s

/-! ## Replies to this device -/

/-- An answer under a tracker has come: the tracker is free with the last one (R128). -/
def freeTracker (s : State) (i : Nat) : State :=
  match Map.find? s.trackers i with
  | some t =>
    { s with trackers := if t.left ≤ 1 then Map.del s.trackers i else Map.put s.trackers i { t with left := t.left - 1 } }
  | none => s

/-- A tracker whose operation has failed awaits its other answers, for nothing. -/
def blankTracker (s : State) (i : Nat) : State :=
  { s with trackers := Map.mod s.trackers i fun t => { t with op := none, line := none, acc := none, cmd := none, wline := none } }

/-- The core whose crew an operation in flight is of. -/
def opCore (s : State) (n : Nat) : Option Nat :=
  ((Map.find? s.ops n).bind fun o => Map.find? s.crews o.crew).map fun c => c.core

/-- What the L1s of an operation's die hold of the line it has written at a peer is outdated (R138, R142, R152). -/
def outdateWritten (s : State) (t : Tracker) : State :=
  match t.op, t.wline with
  | some n, some key => outdateLine s (diesFor (opCore s n)) key
  | _, _ => s

/-- A write-back whose every run a peer has acknowledged is over: what its die has asked for of the line before is outdated (R138,
R142, R146). -/
def ackWb (s : State) (a : Acc) : State :=
  if s.trackers.any fun t => t.2.acc == some a then s
  else
    let s := (dieCores s a.lane).foldl (fun s c => s.modCore c fun k => k.outdateFills (· == a.addr)) s
    answerFlush { s with wbufs := s.wbufs.filter fun w => !(w.sent && wbMark w == a) }

/-- A write has been acknowledged: a write-back's, a copy's, or a command's. -/
def peerAck (s : State) (i : Nat) (t : Tracker) : State :=
  let s := freeTracker s i
  match t.cmd with
  | some k => ackCmd s k
  | none =>
    match t.op, t.acc with
    | none, some a => ackWb s a
    | _, _ => outdateWritten s t

/-- The old value of a remote read-modify-write. -/
def peerOld (s : State) (i : Nat) (t : Tracker) (old : Dword) : State :=
  let s := outdateWritten (freeTracker s i) t
  match t.op, t.acc with
  | some n, some a => { s with ops := Map.mod s.ops n fun o => { o with got := Map.put o.got a.lane old } }
  | _, _ => s

/-! ## Accesses a peer refuses or does not answer (R128, R421) -/

/-- The address a copy reads next. -/
def nextSource (c : CopyRun) (k : Nat) : Option Nat := ((c.steps k).head?).bind fun p => p.1[c.op.accs.length]?

/-- Stops the copies of a core that wait for a line. -/
def stopWaiting (s : State) (core key : Nat) : State :=
  s.ops.foldl (fun s p =>
    match copyRun s p.1 p.2 with
    | none => s
    | some (c, k, _) =>
      if c.crew.core != core || c.d.srcSpace != .generic then s
      else
        match nextSource c k with
        | none => s
        | some va =>
          match quietPlace s core c.grid va 1 with
          | .ok q => if q.dev != 0 && lineKey q.dev q.pa == key then stopCopy s c .remoteUnreachable va else s
          | .error _ => s) s

/-- Fails the loads of a core that wait for a line. -/
def failWaiting (s : State) (core key : Nat) : State :=
  s.ops.foldl (fun s p =>
    if p.2.onCore s core && p.2.need.contains key then
      failOp s p.1 p.2 .remoteUnreachable (((p.2.accs.find? fun a => a.key == key).map fun a => a.addr).getD 0)
    else s) s

/-- The first word of a group's clause that a core has still to receive from a peer. -/
def codeAwaited (s : State) (x : Iss) : Option (Nat × Nat) :=
  (List.range 16).findSome? fun i =>
    let va := x.cur.addr.toNat + 4 * i
    match quietPlace s x.crew.core x.grid va 4 with
    | .ok q => if q.dev != 0 && (l1Line s x.crew.core (lineKey q.dev q.pa)).isNone then some (va, lineKey q.dev q.pa) else none
    | .error _ => none

/-- Raises REMOTE_UNREACHABLE in the groups of a core whose clause fetch waits for a line. -/
def failFetches (s : State) (core key : Nat) : State :=
  (s.crews.flatMap fun p => p.2.groups.map fun g => (p.1, g.1)).foldl (fun s p =>
    match startIss s p.1 p.2 with
    | none => s
    | some x =>
      if x.crew.core == core && x.crew.st == .resident && x.grp.active.isNone && (x.grp.clause x.crew).isNone &&
          x.grp.episode.isNone && x.grp.wait == .none then
        match codeAwaited s x with
        | some (va, k) =>
          if k = key then
            raiseCause s x x.present .remoteUnreachable 0 (entrySets x.crew x.grp.role x.cur.addr)
              (x.present.map fun q => (q.1, dword va))
          else s
        | none => s
      else s) s

/-- A request of this device that its peer refuses, or does not answer: the accesses concerned raise REMOTE_UNREACHABLE. -/
def loseRequest (s : State) (i : Nat) (t : Tracker) : State :=
  let s := blankTracker (freeTracker s i) i
  match t.cmd with
  | some k => failCmd s k .remoteUnreachable
  | none =>
  match t.line, t.op, t.acc with
  | some (core, key), _, _ =>
    let s := s.modCore core fun k => k.endFill key
    failFetches (stopWaiting (failWaiting s core key) core key) core key
  | none, some n, a =>
    match Map.find? s.ops n with
    | none => s
    | some o =>
      match copyRun s n o with
      | some (c, _, _) => stopCopy s c .remoteUnreachable 0
      | none => failOp s n o .remoteUnreachable ((a.map fun a => a.addr).getD 0)
  | none, none, some a =>
    match s.wbufs.find? fun w => w.sent && wbMark w == a with
    | some w => answerFlush (loseWb s w .unreachable)
    | none => s
  | none, none, none => s

/-- A line's bytes with those that a die holds dirty, or has on their way to the peer (R146). -/
def withDirty (s : State) (die key : Nat) (bs : List Byte) : List Byte :=
  bs.mapIdx fun i b => ((dieDirty s die key i).orElse fun _ => wbByte s die key i).getD b

/-- The bytes that a peer has sent land: a line's, or a block's of a COPY. A line whose data is outdated by now is asked for again,
under its tracker (R147). -/
def peerData (s : State) (i : Nat) (t : Tracker) (bs : List Byte) : State :=
  match t.cmd with
  | some k => (freeTracker s i).modCmd k.1 k.2.1 k.2.2 fun c => { c with asked := false, got := some (bytesAt bs 0 64) }
  | none =>
    match t.line with
    | some (core, key) =>
      if (s.core core).stale.contains key then
        let s := s.modCore core fun k => { k with stale := k.stale.filter (· != key) }
        match sendFrame s t.device t.vf false none (.readReq (keyPa key) 64 i) with
        | .ok s => s
        | .error _ => loseRequest s i t
      else landLine (freeTracker s i) core key 0 false 0 (withDirty s (dieOf core) key bs)
    | none => freeTracker s i

/-- Acts on a reply under a tracker of a peer. -/
def onReply (s : State) (f : Frame) (i : Nat) (act : Tracker → State) : State :=
  match Map.find? s.trackers i with
  | some t => if t.device = f.device then act t else s
  | none => s

/-- FABRIC_FRAME_RECEIVE (R421): a frame arrives at a port that carries traffic, with the length/type value of FPTYPE, from a
peer that FDEV names; any other is ignored. A request goes to its home slice, a reply to what waits for it. -/
def execFabricFrameReceive (f : Frame) (s : State) : Outcome State Fault Refusal :=
  if !(usablePorts s).contains f.port || f.ftype != s.ftype || f.device = 0 || Map.get s.fdev f.device 0 = 0 then .next s
  else
    match f.body with
    | .readReq .. | .writeReq .. | .rmwReq .. => .next (peerAsk s f)
    | .readReply t bs => .next (onReply s f t fun r => peerData s t r bs)
    | .writeAck t => .next (onReply s f t fun r => peerAck s t r)
    | .rmwReply t old => .next (onReply s f t fun r => peerOld s t r old)
    | .refusal t => .next (onReply s f t fun r => loseRequest s t r)
    | .flushReq t => .next (flushPeer s f.device f.vf t)

/-- PEER_TIMEOUT (R421): a peer has not answered for 1 ms; every access that waits for it raises REMOTE_UNREACHABLE. -/
def execPeerTimeout (device : Nat) (s : State) : Outcome State Fault Refusal :=
  .next ((s.trackers.filter fun t => t.2.device == device).foldl (fun s t =>
    match Map.find? s.trackers t.1 with
    | some r => loseRequest { s with trackers := Map.put s.trackers t.1 { r with left := 1 } } t.1 r
    | none => s) s)

end Sys2Proof.Machine
end

