-- ==== Sys2Proof/Machine/Fit.lean ====
section
/-! DEFINITION. What a crew needs and what a core has free, the cores a crew may use, and the crew that dispatch makes
(02_execution.md R19 to R23; 05_memory.md R112, R114, R117, R118; 14_scheduling.md R326, R327; 16_partitions.md R370, R377). -/

namespace Sys2Proof.Machine

/-! ## Clusters a partition's crews may use -/

/-- A cluster's unit state. -/
def State.cluster (s : State) (c : Nat) : UnitSt := Map.get s.clusters c UnitSt.init

/-- Whether a unit is in service: neither retired nor fenced. -/
def UnitSt.up (u : UnitSt) : Bool := !u.ret && !u.fen

/-- The clusters a VF owns, in service; one that a resize takes out of the partition is not the partition's to use any more (R368). -/
def ownClusters (s : State) (vf : Nat) : List Nat :=
  (List.range 64).filter fun c => (s.cluster c).vf == vf && (s.cluster c).up && (s.vf vf).cfg.clusters.getLsbD c

/-- Whether a partition is a pool partition: its cluster mask is 0 (R365). -/
def poolPart (s : State) (vf : Nat) : Bool := (s.vf vf).cfg.clusters == 0

/-- The grids of a VF and class whose crews are ready or wait re-queued (R326). -/
def readyGrids (s : State) (vf : Nat) (h : Bool) : List (Nat × Grid) :=
  s.grids.filter fun p => p.2.vf == vf && bitOf p.2.desc.flags 0 == h && p.2.built && p.2.stopped.isNone && !p.2.done &&
    (decide (p.2.next < p.2.crews) || s.crews.any fun q => q.2.grid == p.1 && q.2.requeued && !q.2.stop)

/-- The clusters a pool partition may borrow: lent ones in service whose owner has no G crew ready (R377). -/
def lentClusters (s : State) : List Nat :=
  (List.range 64).filter fun c => (s.cluster c).lend && (s.cluster c).vf != 0 && (s.cluster c).up &&
    (readyGrids s (s.cluster c).vf false).isEmpty

/-- The pool's clusters, in service. -/
def poolClusters (s : State) : List Nat := (List.range 64).filter fun c => s.poolmask.getLsbD c && (s.cluster c).up

/-- Whether a donor cluster is open to a VF (R370). -/
def donorOpen (s : State) (c vf : Nat) : Bool :=
  let o := (s.cluster c).vf
  let p := (s.vf o).cfg
  o != 0 && p.donors.getLsbD c && (s.vf vf).cfg.harvest && (s.cluster c).up &&
    ((p.admitted.all fun b => b == 0) || ((p.admitted[vf / 8]?).getD 0).getLsbD (vf % 8))

/-- The donor clusters open to a VF. -/
def openDonors (s : State) (vf : Nat) : List Nat := (List.range 64).filter fun c => donorOpen s c vf

/-- The clusters the crews of a VF and class may be dispatched to (R327). -/
def usableClusters (s : State) (vf : Nat) (h : Bool) : List Nat :=
  if h then openDonors s vf
  else if poolPart s vf then (if s.poolTurn = vf then poolClusters s ++ lentClusters s else [])
  else ownClusters s vf

/-- Whether a grid may use a core by its profile flag: one whose bank the VF holds, where it leases a core bank (R405). -/
def profileOk (s : State) (g : Grid) (core : Nat) : Bool :=
  !(bitOf g.desc.flags 4 && s.banks.any fun b => b.kind == 1 && b.leased && b.holder == g.vf) ||
    (bankAt s 1 core false).holder == g.vf || (bankAt s 1 core true).holder == g.vf

/-! ## What is held and what is needed (R19, Table 2.1) -/

/-- The crews that stand on a core. -/
def coreCrews (s : State) (core : Nat) : List (Nat × Crew) := s.crews.filter fun p => p.2.core == core && p.2.st.present

/-- The crews that stand on a cluster. -/
def clusterCrews (s : State) (cl : Nat) : List (Nat × Crew) := s.crews.filter fun p => clusterOf p.2.core == cl && p.2.st.present

/-- The banks of a crew's sheaves that are not freed (R26). -/
def Crew.banksHeld (w : Crew) : Nat := sumOf ((w.sheaves.filter fun h => !h.freed).map fun h => h.banks)

/-- The sheaf slots a crew holds. -/
def Crew.slotsHeld (w : Crew) : Nat := (w.sheaves.filter fun h => !h.freed).length

/-- The scratchpad bytes of a crew. -/
def scratchOf (s : State) (w : Crew) : Nat :=
  match Map.find? s.grids w.grid with
  | some g => g.desc.scratch
  | none => 0

/-- The physical W slots that crews hold. -/
def physW (ws : List (Nat × Crew)) : List Nat :=
  dedup (ws.flatMap fun p => (p.2.unitsW.map fun u => u.2.phys).filter fun i => decide (i < 256))

/-- The crews that hold W slots of a cluster: those that stand there, and those that left it while their shared rings stayed; such a
ring's slots are free once its last sharing crew has retired (R118). -/
def slotHolders (s : State) (cl : Nat) : List (Nat × Crew) :=
  s.crews.filter fun p => clusterOf p.2.core == cl && (p.2.st.present || p.2.st == .saved || p.2.st == .evicted)

/-- Whether the slots of a ring of a crew that has left its core are still on its cluster (R118). -/
def ringStays (w : Crew) (id : Nat) : Bool :=
  (w.st == .saved || w.st == .evicted) && w.unitsW.any fun u => decide (u.2.phys < 256) && unitIn w [id] u.1

/-- Whether a crew that shares a ring holds it on the cluster: it stands there, or its ring has stayed. -/
def holdsRing (id : Nat) (p : Nat × Crew) : Bool := p.2.st.present || ringStays p.2 id

/-- What crews on a core hold, landing slots apart; W slots are the cluster's. -/
def heldRes (s : State) (core : Nat) (keep : Nat × Crew → Bool) : Res :=
  let ws := (coreCrews s core).filter keep
  let plain := ws.filter fun p => !p.2.landed
  { banks := sumOf (plain.map fun p => p.2.banksHeld), slots := sumOf (plain.map fun p => p.2.slotsHeld),
    scratch := sumOf (ws.map fun p => scratchOf s p.2), w := (physW ((slotHolders s (clusterOf core)).filter fun p => !p.2.st.present || keep p)).length,
    a := sumOf (ws.map fun p => p.2.unitsA.length), c := sumOf (ws.map fun p => p.2.unitsC.length) }

/-- What a crew still to be placed needs on a cluster: W slots of a shared ring that stands there are not needed again. -/
def needRes (s : State) (n : Nat) (w : Crew) (cl : Nat) : Res :=
  let stays := (sharedIds w).filter fun i =>
    (s.crews.any fun p => sharesRing n w cl i p && holdsRing i p) || (clusterOf w.core == cl && ringStays w i)
  { banks := w.banksHeld, slots := w.slotsHeld, scratch := scratchOf s w, w := (w.unitsW.filter fun u => !unitIn w stays u.1).length,
    a := w.unitsA.length, c := w.unitsC.length }

/-- Whether a need fits beside what is held, with some banks out of reach. -/
def Res.fits (need held : Res) (kept : Nat) : Bool :=
  decide (held.banks + need.banks + kept ≤ 62) && decide (held.slots + need.slots ≤ 62) && decide (held.scratch + need.scratch ≤ 262144) &&
    decide (held.w + need.w ≤ 256) && decide (held.a + need.a ≤ 32) && decide (held.c + need.c ≤ 16)

/-- Whether a crew's shared rings let it stand on a cluster (R118, R327): beside the crews that share them; and a cluster is
not taken where another group of the grid's crews is saved whole (DESIGN CHOICE, assumption 77). -/
def sharedOk (s : State) (n : Nat) (w : Crew) (cl : Nat) (fresh : Bool) : Bool :=
  (sharedIds w).all fun i =>
    if fresh then
      let here := s.crews.filter fun p => sharesRing n w cl i p
      here.isEmpty || here.any (holdsRing i)
    else if ringStays w i then cl == clusterOf w.core
    else if s.crews.any fun p => sharesRing n w (clusterOf w.core) i p && p.2.st.present then cl == clusterOf w.core
    else cl == clusterOf w.core || !(s.crews.any fun p => sharesRing n w cl i p)

/-- Resources of two holders together. -/
def Res.add (a b : Res) : Res :=
  { banks := a.banks + b.banks, slots := a.slots + b.slots, scratch := a.scratch + b.scratch, w := a.w + b.w, a := a.a + b.a, c := a.c + b.c }

/-- No resources. -/
def Res.none : Res := { banks := 0, slots := 0, scratch := 0, w := 0, a := 0, c := 0 }

/-- Whether a grid still waits for what is reserved on a core (R327): it runs, and may use the core. -/
def bookingHolds (s : State) (gid core : Nat) : Bool :=
  match Map.find? s.grids gid with
  | some g => g.stopped.isNone && !g.done && (usableClusters s g.vf (bitOf g.desc.flags 0)).contains (clusterOf core)
  | none => false

/-- What is reserved on a core for the crews of other grids than one (R327); W slots are the cluster's. -/
def bookedRes (s : State) (core gid : Nat) : Res :=
  (s.booked.filter fun p => p.1 != gid && bookingHolds s p.1 p.2.core && clusterOf p.2.core == clusterOf core).foldl (fun r p =>
    if p.2.core = core then r.add p.2.need else { r with w := r.w + p.2.need.w }) Res.none

/-- Banks of a core that an H crew leaves: its owner's donor floor, where G holds or has reserved less (R370). -/
def floorKept (s : State) (core : Nat) (w : Crew) : Nat :=
  let g := (heldRes s core fun p => !crewIsH s p.2).banks + (bookedRes s core w.grid).banks
  (s.vf (s.cluster (clusterOf core)).vf).cfg.floor - g

/-- Whether a crew fits a core with what the crews named keep, and with what is reserved there for others. -/
def fitsBeside (s : State) (n : Nat) (w : Crew) (core : Nat) (keep : Nat × Crew → Bool) : Bool :=
  (needRes s n w (clusterOf core)).fits ((heldRes s core keep).add (bookedRes s core w.grid)) (if crewIsH s w then floorKept s core w else 0)

/-- Whether a crew fits a core as it stands. -/
def fitsNow (s : State) (n : Nat) (w : Crew) (core : Nat) : Bool := fitsBeside s n w core fun _ => true

/-- The crews whose resources a G dispatch on a core cannot take: every crew but the H crews of that core. -/
def notHOn (s : State) (core : Nat) (p : Nat × Crew) : Bool := !(crewIsH s p.2 && p.2.core == core)

/-- Whether a crew fits a core in the sense of R327: for a G crew what H holds counts as free. -/
def fitsCore (s : State) (n : Nat) (w : Crew) (core : Nat) : Bool :=
  if crewIsH s w then fitsNow s n w core else fitsBeside s n w core (notHOn s core)

/-- Free banks of a core as R327 counts them for a class, without what is reserved there for other grids. -/
def freeBanks (s : State) (gid : Nat) (h : Bool) (core : Nat) : Nat :=
  62 - ((heldRes s core (if h then fun _ => true else notHOn s core)).banks + (bookedRes s core gid).banks)

/-- The cores a crew may use (R327), ascending. -/
def candidateCores (s : State) (n : Nat) (w : Crew) (g : Grid) (fresh : Bool) : List Nat :=
  (List.range 256).filter fun k =>
    (usableClusters s g.vf (bitOf g.desc.flags 0)).contains (clusterOf k) && profileOk s g k && sharedOk s n w (clusterOf k) fresh

/-- The physical cluster a hint names. -/
def hintCluster (s : State) (g : Grid) : Option Nat := if g.hint = 0 then none else Map.find? (s.vf g.vf).placeClu (g.hint % 4096)

/-- The best of some cores: fewest free banks, then more free fast buffers, then the lowest number. -/
def bestCore (s : State) (gid : Nat) (h : Bool) (ks : List Nat) : Option Nat :=
  leastBy (fun k => freeBanks s gid h k * 64 + (s.core k).buffers.length) ks

/-- The choice among fitting cores (R327): one of the hinted cluster where there is one. -/
def chooseCore (s : State) (gid : Nat) (g : Grid) (ks : List Nat) : Option Nat :=
  let h := bitOf g.desc.flags 0
  match hintCluster s g with
  | some c => (bestCore s gid h (ks.filter fun k => clusterOf k == c)).orElse fun _ => bestCore s gid h ks
  | none => bestCore s gid h ks

/-! ## The crew that dispatch makes (Table 3.1, R20, R21, R41, R112, R114, R117) -/

/-- The sheaves of a crew, role by role. -/
def freshSheaves (g : Grid) : List Sheaf :=
  let k := (g.params.mapIdx fun i w => (i, w))
  let kS := (g.paramS.mapIdx fun i o => (i, o))
  (g.desc.roles.mapIdx fun i r => (i, r)).flatMap fun p =>
    List.replicate p.2.1 (Sheaf.init p.1 p.2.2 g.desc.entry g.octx k kS)

/-- One past the highest end of a grid's rings of a space (R114). -/
def ringEnd (m : Map Ring) (sp : TSpace) : Nat := maxOf ((m.filter fun p => ringSpace p.1 == sp).map fun p => p.2.first + p.2.count)

/-- The units of a space, not mapped yet. -/
def freshUnits (m : Map Ring) (sp : TSpace) : Map TUnit := (List.range (ringEnd m sp)).map fun i => (i, TUnit.init i)

/-- A ring as a crew joins it: its claim cursor at the free cursor, its L the Filled slots (R117, R118). -/
def joinRing (n : Nat) (r : Ring) : Ring :=
  { r with filled := Map.put r.filled n (r.slots.filter fun q => q.2.st == .filled).length, claim := Map.put r.claim n r.freeCur }

/-- A crew of a grid before it is placed. -/
def freshCrew (gid : Nat) (g : Grid) (index n : Nat) : Crew :=
  let hs := freshSheaves g
  { grid := gid, index := index, core := 0, st := .ready, requeued := false, order := 0, scratch := [], scratchS := [],
    barriers := [], rings := g.ringE.map fun r => (r.1, joinRing n r.2), unitsW := freshUnits g.ringE .W, unitsA := freshUnits g.ringE .A,
    unitsC := freshUnits g.ringE .C, ptab := [], sheaves := hs,
    groups := (hs.mapIdx fun i h => (i, h)).map fun p =>
      (p.1, { Group.init p.2.role p.1 false ((List.range 32).map fun l => (l, p.1)) with
        reopen := if bitOf g.desc.flags 0 then [(implicitMap, List.range 32)] else [] }),
    rotate := [], spin := [], demoted := [], children := [], posted := [], issued := false, stop := g.stops.contains index, landed := false, saveAt := none, savedW := [],
    slotS := [], winIss := 0 }

/-- Physical slots that none of some crews holds, ascending. -/
def freePhys (used : List Nat) (n : Nat) : List Nat := (List.range 256).filter (fun i => !used.contains i) |>.take n

/-- Maps units onto physical slots, in order. -/
def mapUnits (m : Map TUnit) (ps : List Nat) : Map TUnit := m.mapIdx fun i u => (u.1, { u.2 with phys := (ps[i]?).getD u.2.phys })

/-- A crew's typed units of a space taken off their physical slots: numbers no slot has. -/
def unmapUnits (n : Nat) (m : Map TUnit) : Map TUnit := m.map fun u => (u.1, { u.2 with phys := 2 ^ 20 + 256 * n + u.1 })

/-- The ring and its units as a crew that shares it on a cluster holds them. -/
def sharedPeer (s : State) (n : Nat) (w : Crew) (cl id : Nat) : Option Crew :=
  (List.find? (fun p => sharesRing n w cl id p && holdsRing id p) s.crews).map (·.2)

/-- Takes over the shared rings that stand on a cluster: state, units, physical slots. -/
def adoptShared (s : State) (n : Nat) (w : Crew) (cl : Nat) (fresh : Bool) : Crew :=
  (sharedIds w).foldl (fun w id =>
    match sharedPeer s n w cl id with
    | none => w
    | some q =>
      match Map.find? q.rings id with
      | none => w
      | some r =>
        let us := q.unitsW.filter fun u => (r.indexOf u.1).isSome
        { w with rings := Map.put w.rings id (if fresh then joinRing n r else r), unitsW := us.foldl (fun m u => Map.put m u.1 u.2) w.unitsW }) w

/-- Places a crew on a core: its own units take free physical slots of the cluster (W) and of the core (A, C), and it stands
there (R114). -/
def placeCrew (s : State) (n : Nat) (w : Crew) (core : Nat) (fresh : Bool) : Crew :=
  let cl := clusterOf core
  let stays := (sharedIds w).filter fun i => (sharedPeer s n w cl i).isSome
  let w := adoptShared s n w cl fresh
  let mine := w.unitsW.filter fun u => !unitIn w stays u.1 && (fresh || !decide (u.2.phys < 256))
  let new := mapUnits mine (freePhys (physW (slotHolders s cl)) mine.length)
  let here := (coreCrews s core).filter fun p => p.1 != n
  { w with core := core, st := .resident, requeued := false, unitsW := new.foldl (fun m u => Map.put m u.1 u.2) w.unitsW,
           unitsA := mapUnits w.unitsA (freePhys (here.flatMap fun p => p.2.unitsA.map fun u => u.2.phys) w.unitsA.length),
           unitsC := mapUnits w.unitsC (freePhys (here.flatMap fun p => p.2.unitsC.map fun u => u.2.phys) w.unitsC.length) }

/-- A ring that crews share, after one joined it: each of them holds it as it now stands. -/
def syncShared (s : State) (n : Nat) : State :=
  match Map.find? s.crews n with
  | none => s
  | some w =>
    (sharedIds w).foldl (fun s id =>
      match Map.find? w.rings id with
      | some r => modRing s n id fun _ => r
      | none => s) s

end Sys2Proof.Machine
end

