-- ==== Sys2Proof/Machine/Restore.lean ====
section
/-! DEFINITION. The state of a crew as its save record in memory gives it (14_scheduling.md R335, R336, Tables 14.8, 14.9). What the spec
calls opaque in the record is kept by the device beside it (assumption 80). -/

namespace Sys2Proof.Machine

/-- Reads a number of a record: offset and bytes. -/
abbrev Reader := Nat → Nat → Nat

/-- A number that stands in a crew's record in memory. -/
def recordNum (s : State) (w : Crew) (g : Grid) (o n : Nat) : Nat :=
  match w.saveAt with
  | none => 0
  | some (off, _) =>
    match savePieces s g.vf (bitOf g.desc.flags 0) 2 (off + o) n with
    | some ((pa, _) :: _) => memNum s g.vf pa n
    | _ => 0

/-- Where a crew's record lies in memory; none where its pages cannot be reached. -/
def recordAt (s : State) (w : Crew) (g : Grid) : Option (List (Nat × Nat)) :=
  w.saveAt.bind fun r => savePieces s g.vf (bitOf g.desc.flags 0) (r.2 / 65536 + 2) r.1 r.2

/-- Entries of a map as a record gives them. -/
def savedMap {α : Type} [DecidableEq α] (m : Map α) (n : Nat) (d : α) (f : Nat → α) : Map α :=
  (List.range n).foldl (fun m i => if Map.get m i d = f i then m else Map.put m i (f i)) m

/-- The main registers of a home sheaf and their sets, from its bank images on. -/
def savedBanks (rd : Reader) (o : Nat) (h : Sheaf) : Sheaf :=
  let h := (List.range h.budget).foldl (fun h r => (List.range 32).foldl (fun h l =>
    let x := word (rd (o + 128 * r + 4 * l) 4)
    if h.mainAt r l = x then h else h.setMain r l x) h) h
  { h with mainS := savedMap h.mainS 256 0 fun r => rd (o + 128 * h.budget + 2 * r) 2 % 1024 }

/-- A thread by its lane's fields in a sheaf block. -/
def savedThread (rd : Reader) (o l : Nat) (t : Thread) : Thread :=
  let sp := rd (o + 0xF0 + 4 * l) 4
  let st := rd (o + 0x430 + 16 * l + 8) 8
  { t with rmode := (rmodeOf (sp % 8)).getD t.rmode, ptsel := ⟨sp / 8 % 8, Nat.mod_lt _ (by decide)⟩, fpx := BitVec.ofNat 5 (sp / 64)
           rmodeS := rd (o + 0x170 + 6 * l) 2 % 1024, ptselS := rd (o + 0x172 + 6 * l) 2 % 1024, fpxS := rd (o + 0x174 + 6 * l) 2 % 1024
           cause := BitVec.ofNat 9 (rd (o + 0x230 + 16 * l) 4), tpc := word (rd (o + 0x234 + 16 * l) 4)
           faddr := dword (rd (o + 0x238 + 16 * l) 8), clause := dword (rd (o + 0x430 + 16 * l) 8), index := st % 16
           ret := ((List.range (min 16 (st / 16 % 32))).map fun e => dword (rd (o + 0x1000 + 128 * l + 8 * e) 8)).reverse
           exited := bitOf st 9, handler := bitOf st 10 }

/-- A home sheaf by its block of 8 KiB (Table 14.9); its flags are 0 when it is restored (R335). -/
def savedBlock (rd : Reader) (o : Nat) (h : Sheaf) : Sheaf :=
  let h := (List.range 7).foldl (fun h p => (List.range 32).foldl (fun h l =>
    let x := bitOf (rd (o + 0xC0 + 4 * p) 4) l
    if h.pred p l = x then h else h.setPred p l x) h) h
  { h with k := savedMap h.k 30 0 fun i => word (rd (o + 4 * i) 4)
           kS := savedMap h.kS 30 0 fun i => rd (o + 0x78 + 2 * i) 2 % 1024
           pS := savedMap h.pS 7 0 fun i => rd (o + 0xE0 + 2 * i) 2 % 1024
           threads := h.threads.mapIdx fun l t => savedThread rd o l t }

/-- The bytes of a home sheaf in a record: bank images, sets, block. -/
def sheafBytes (h : Sheaf) : Nat := 128 * h.budget + 512 + 8192

/-- The home sheaves, one after another. -/
def savedSheaves (rd : Reader) (o : Nat) (hs : List Sheaf) : List Sheaf :=
  match hs with
  | [] => []
  | h :: rest => savedBlock rd (o + 128 * h.budget + 512) (savedBanks rd o h) :: savedSheaves rd (o + sheafBytes h) rest

/-- A typed unit: its bytes by parts, each followed by its set; an A slot has four. -/
def savedUnit (rd : Reader) (o : Nat) (sp : TSpace) (u : TUnit) : TUnit :=
  let n := if sp = .A then 2048 else unitBytes sp
  let mem := (List.range (unitBytes sp)).foldl (fun m i =>
    let x : Byte := BitVec.ofNat 8 (rd (o + i / n * (n + 2) + i % n) 1)
    if reservedByte sp i || Memory.read m i == x then m else Memory.write m i x) u.mem
  { u with mem := mem, set := rd (o + n) 2 % 1024 }

/-- The units of a space that stand in a record, from an offset on; and where they end. Those that stay are as the cluster has them. -/
def savedUnits (rd : Reader) (sp : TSpace) (saved stay : Nat → Bool) (o : Nat) (us : Map TUnit) : Map TUnit × Nat :=
  us.foldl (fun r u =>
    if saved u.1 then
      (r.1 ++ [(u.1, if stay u.1 then u.2 else savedUnit rd r.2 sp u.2)], r.2 + unitBytes sp + (if sp = .A then 8 else 2))
    else (r.1 ++ [u], r.2)) ([], o)

/-- A barrier by its 16 bytes. -/
def savedBarrier (rd : Reader) (o : Nat) (b : Barrier) : Barrier :=
  { b with phase := bitOf (rd o 1) 0, expect := rd (o + 2) 2, arrived := rd (o + 4) 2, drops := rd (o + 6) 2
           sheaves := (List.range 32).filter fun h => bitOf (rd (o + 8) 4) h }

/-- The barriers of a crew by a record's header: one that reads as it stands is left alone. -/
def savedBarriers (rd : Reader) (w : Crew) : Map Barrier :=
  (List.range 16).foldl (fun m b =>
    let now := w.barrier b
    let then_ := savedBarrier rd (0xC0 + 16 * b) { now with sheaves := ascending now.sheaves }
    if imageBarrier then_ = imageBarrier now then m else Map.put m b then_) w.barriers

/-- The rings of a crew by a record's header: the counts F and L; those of a shared ring are the cluster's (assumption 80). -/
def savedRings (rd : Reader) (n : Nat) (rs : Map Ring) : Map Ring :=
  rs.map fun r =>
    if sharedRing r.1 r.2 then r
    else
    let f := rd (0x2C0 + 16 * r.1) 2
    let l := rd (0x2C2 + 16 * r.1) 2
    (r.1, { r.2 with free := f, filled := if Map.get r.2.filled n 0 = l then r.2.filled else Map.put r.2.filled n l })

/-- The region map that a lane's 8 bytes give; none where they are 0 (Table 14.9). -/
def savedRegion (x : Nat) (old : Option RegionMap) : Option RegionMap :=
  if x = ofBytes (imageMap old) then old
  else if x = 0 then none
  else some { base := x % 256, mask := word (x / 2 ^ 32), maskSet := (old.map fun m => m.maskSet).getD 0,
              restartable := bitOf x 8, nra := bitOf x 9 }

/-- A group's maps to reopen, where the record's differ from those that stand there. -/
def savedReopen (w : Crew) (map : Nat × Nat → Nat) (g : Group) : List (RegionMap × List Nat) :=
  let of_ (p : Nat × Nat) : Option RegionMap := savedRegion (map p) (imageRegion w p)
  if g.members.all fun p => of_ p = imageRegion w p then g.reopen
  else g.members.filterMap fun p => (of_ p).map fun m => (m, [p.1])

/-- The places that the live members of a group stand at, each once. -/
def placesOf (w : Crew) (g : Group) : List (Dword × Nat) :=
  (g.live w).foldl (fun ps p =>
    let q := ((w.thread p).clause, (w.thread p).index)
    if ps.contains q then ps else ps ++ [q]) []

/-- Parts a group whose threads stand at several places: the group keeps the first place, and a part of it stands at each other. -/
def partGroup (w : Crew) (n : Nat) (g : Group) : Crew :=
  let stands (q : Dword × Nat) (p : Nat × Nat) : Bool := (w.thread p).clause == q.1 && (w.thread p).index == q.2
  ((placesOf w g).drop 1).foldl (fun w q =>
    let ms := g.members.filter fun p => stands q p && !(w.thread p).exited
    { w with groups := Map.put (Map.mod w.groups n fun h => { h with members := h.members.filter fun p => !ms.contains p })
                         w.freshGroup { g with members := ms } }) w

/-- A crew as its save record in memory gives it (R335): scratchpad, home sheaves, typed units, barriers, permutation table and rings. -/
def savedCrew (s : State) (n : Nat) (w : Crew) (g : Grid) : Crew :=
  let rd := recordNum s w g
  let size := g.desc.scratch
  let a := 4096 + upTo4K (size + size / 64 * 2)
  let hs := savedSheaves rd a w.sheaves
  let c := a + upTo4K (sumOf (w.sheaves.map sheafBytes))
  let us := savedUnits rd .W w.savedW.contains (unitIn w (sharedIds w)) c w.unitsW
  let as := savedUnits rd .A (fun _ => true) (fun _ => false) us.2 w.unitsA
  let ts := savedUnits rd .C (fun _ => true) (fun _ => false) as.2 w.unitsC
  let blocks := (w.sheaves.foldl (fun r h => (r.1 ++ [r.2 + 128 * h.budget + 512], r.2 + sheafBytes h)) ([], a)).1
  let map (p : Nat × Nat) : Nat := rd ((blocks[p.2]?).getD 0 + 0x630 + 8 * p.1) 8
  let gs := w.groups.map fun q => (q.1, { q.2 with reopen := savedReopen w map q.2 })
  let w := { w with
    scratch := (List.range size).foldl (fun m i =>
      let x : Byte := BitVec.ofNat 8 (rd (4096 + i) 1)
      if Memory.read m i = x then m else Memory.write m i x) w.scratch
    scratchS := savedMap w.scratchS (size / 64) 0 fun i => rd (4096 + size + 2 * i) 2 % 1024
    sheaves := hs, unitsW := us.1, unitsA := as.1, unitsC := ts.1, barriers := savedBarriers rd w
    ptab := (List.range 256).foldl (fun m i => if Map.get m i (i % 32) = rd (0x1C0 + i) 1 then m else Map.put m i (rd (0x1C0 + i) 1)) w.ptab
    rings := savedRings rd n w.rings, groups := gs }
  w.groups.foldl (fun w q => partGroup w q.1 q.2) w

/-- The offset of a record's engines section. -/
def enginesAt (w : Crew) (g : Grid) : Nat :=
  let size := g.desc.scratch
  4096 + upTo4K (size + size / 64 * 2) + upTo4K (sumOf (w.sheaves.map sheafBytes)) +
    upTo4K (w.savedW.length * 8194 + w.unitsA.length * 8200 + w.unitsC.length * 16386)

/-- The copies of a crew as its record gives them (R335): progress, mode, window and home sheaf, in the order of the entries. -/
def savedCopies (s : State) (n : Nat) (w : Crew) (g : Grid) : State :=
  let rd := recordNum s w g
  let e := enginesAt w g
  let r := s.ops.foldl (fun (r : Map Op × Nat) p =>
    match p.2.kind with
    | .copy d ix form m _ _ sent ring =>
      if p.2.crew ≠ n then (r.1 ++ [p], r.2)
      else
        let o := e + 256 * r.2
        let kind := OpKind.copy d ix form ((rmodeOf (rd (o + 200) 1)).getD m) (rd (o + 201) 1) (rd (o + 192) 8) sent ring
        (r.1 ++ [(p.1, { p.2 with kind := kind })], r.2 + 1)
    | _ => (r.1 ++ [p], r.2)) ([], 0)
  { s with ops := r.1 }

end Sys2Proof.Machine
end

