-- ==== Sys2Proof/Machine/Residency.lean ====
section
/-! DEFINITION. How crews leave their cores and come back: eviction and spilling, pre-emption, resumption, migration, fast buffers
and their recall (01_machine.md R15; 02_execution.md R30, R50, R51, R56, R59; 03_registers.md R71; 14_scheduling.md R334 to R337;
16_partitions.md R370; 19_platform.md R429). -/

namespace Sys2Proof.Machine

open Host (Outcome)

/-! ## Restart points (R50, R51) -/

/-- A thread at its restart point. A pending latch of %clock or %gtime goes: R51 lists none among what a thread resumes with
(DESIGN CHOICE, assumption 72). -/
def Thread.restart (t : Thread) : Thread :=
  match t.ck with
  | none => t
  | some k =>
    { t with clause := k.clause, index := k.index, octx := k.octx, divs := k.divs, lost := k.lost, rmode := k.rmode, rmodeS := k.rmodeS,
             ptsel := k.ptsel, ptselS := k.ptselS, fpx := k.fpx, fpxS := k.fpxS, ret := k.ret, handler := k.handler,
             clockLat := none, gtimeLat := none }

/-- Makes the points at which pending regions are to reopen the restart points of their threads. -/
def duePoints (s : State) (crew : Nat) (grps : List Nat) : State :=
  s.modCrew crew fun c => grps.foldl (fun c n =>
    match Map.find? c.groups n with
    | some g =>
      let ls := g.reopen.flatMap (·.2)
      restartPoint c (g.members.filter fun p => ls.contains p.1) (fun l => (g.reopen.find? fun r => r.2.contains l).map (·.1)) s.seq
    | none => c) c

/-- Whether an operation is a load of a thread issued after its restart point. -/
def loadAfter (c : Crew) (o : Op) (p : Nat × Nat) : Bool :=
  match (c.thread p).ck with
  | some k => decide (k.stamp ≤ o.seq)
  | none => false

/-- Abandons a load for some of its threads: their returns are dropped, and the flag counts down where none is left (R50). -/
def abandonLoad (s : State) (n : Nat) (o : Op) (gone : List (Nat × Nat)) : State :=
  let rest := o.lanes.filter fun p => !gone.contains p
  let keep := (List.range o.accs.length).filter fun i =>
    match o.accs[i]? with
    | some a => !gone.contains (a.lane, a.sheaf)
    | none => false
  let s := s.decFlag o.crew (o.homes.filter fun h => !(homesOf rest).contains h) o.flag
  let s := renumberOp s n keep
  if rest.isEmpty then { s with ops := Map.del s.ops n }
  else
    { s with ops := Map.mod s.ops n fun o =>
      { o with lanes := rest, homes := homesOf rest, accs := o.accs.filter fun a => !gone.contains (a.lane, a.sheaf) } }

/-- Abandons the loads of threads that go back to their restart points. -/
def abandonLoads (s : State) (crew : Nat) (c : Crew) (ps : List (Nat × Nat)) : State :=
  s.ops.foldl (fun s q =>
    let gone := q.2.lanes.filter fun p => ps.contains p && loadAfter c q.2 p
    if q.2.crew != crew || gone.isEmpty then s
    else
      match q.2.kind with
      | .load _ | .loadK _ _ => abandonLoad s q.1 q.2 gone
      | _ => s) s

/-- A predicate of a home sheaf after the rollback of some lanes: each lane's checkpointed value, and the join of its sets. -/
def restartPred (h : Sheaf) (ls : List Nat) (i : Nat) (t : Map OEntry) : Except Cause (Sheaf × Map OEntry) :=
  let cks := ls.filterMap fun l => (h.threads[l]?).bind fun th => th.ck.map fun k => (l, k)
  if cks.isEmpty then .ok (h, t)
  else
    let all := (liveLanes h).all fun l => cks.any fun q => q.1 == l
    match osJoinAll t (if all then 0 else h.predSet i) (cks.map fun q => (q.2.predS[i]?).getD 0) with
    | .error e => .error e
    | .ok (u, t) =>
      let h := cks.foldl (fun h q => h.setPred i q.1 ((q.2.preds[i]?).getD false)) h
      .ok ({ h with pS := Map.put h.pS i u }, t)

/-- A home sheaf after the rollback of some lanes: the latest checkpoint of k0 to k29, and the predicates. -/
def restartSheaf (h : Sheaf) (ls : List Nat) (t : Map OEntry) : Except Cause (Sheaf × Map OEntry) :=
  let h := if ls.any fun l => ((h.threads[l]?).bind fun th => th.ck).isSome then { h with k := h.ckK, kS := h.ckKS } else h
  foldE (fun (a : Sheaf × Map OEntry) i => restartPred a.1 ls i a.2) (h, t) (List.range 7)

/-- The region a thread reopens at its restart point. -/
def restartMap (c : Crew) (g : Group) (p : Nat × Nat) : RegionMap :=
  match (c.thread p).ck with
  | some k => k.region.getD implicitMap
  | none => (laneMap g p.1).getD implicitMap

/-- A group at its threads' restart points. -/
def restartGroup (c : Crew) (g : Group) : Group :=
  let ms := dedupMaps (g.members.map (restartMap c g))
  { g with regions := [], reopen := ms.map fun m => (m, lanesIn (g.members.filter fun p => restartMap c g p == m)), quad := none,
           fetched := none, active := none, wait := .none, ranWait := false, noShadow := false, halted := false }

/-- The members of some groups. -/
def membersOf (c : Crew) (grps : List Nat) : List (Nat × Nat) :=
  grps.flatMap fun n => match Map.find? c.groups n with
    | some g => g.members
    | none => []

/-- Takes the fast buffers and shadows of some groups of a crew away. -/
def dropBuffers (s : State) (crew : Nat) (c : Crew) (grps : List Nat) : State :=
  let fams := grps.filterMap fun n => (Map.find? c.groups n).map fun g => g.family
  s.modCore c.core fun k =>
    { k with buffers := k.buffers.filter fun p => !(p.2.1 == crew && fams.contains p.2.2),
             shadows := k.shadows.filter fun p => !(p.2.1 == crew && grps.contains p.2.2) }

/-- Discards the episodes of some groups (R56). -/
def discardEpisodes (s : State) (crew : Nat) (grps : List Nat) : State := grps.foldl (fun s n => s.endEpisode crew n) s

/-- Sends groups of an H crew back to their restart points (R50, R51): their fast buffers and held stores are discarded, the
loads issued after the restart point abandoned, their fault batches with them (R354). -/
def rollback (s : State) (crew : Nat) (grps : List Nat) : Except Cause State :=
  let s := duePoints (discardEpisodes s crew grps) crew grps
  match Map.find? s.crews crew with
  | none => .ok s
  | some c =>
    let ps := membersOf c grps
    let s := dropBuffers (abandonLoads s crew c ps) crew c grps
    let s := { s with batches := s.batches.filter fun b =>
      !(b.2.crew == crew && match b.2.group with | some n => grps.contains n | none => false) }
    match Map.find? s.crews crew with
    | none => .ok s
    | some c =>
      let g' := grps.filterMap fun n => (Map.find? c.groups n).map fun g => (n, restartGroup c g)
      match foldE (fun (a : Crew × Map OEntry) h =>
          match restartSheaf (a.1.sheaf h) (lanesIn (ps.filter fun p => p.2 == h)) a.2 with
          | .error e => .error e
          | .ok (z, t) => .ok (a.1.modSheaf h fun _ => z, t)) (c, s.osets) (homesOf ps) with
      | .error e => .error e
      | .ok (c, t) =>
        let c := c.modThreads ps fun _ th => th.restart
        let c := { c with groups := g'.foldl (fun m q => Map.put m q.1 q.2) c.groups }
        let c := grps.foldl (fun c n => splitByPc c n (membersOf c [n])) c
        .ok { s with osets := t, crews := Map.put s.crews crew c }

/-! ## Leaving a core (R26, R118, R335) -/

/-- A crew's typed units leave their physical slots; those of a shared ring with the last crew that stands there. -/
def vacate (s : State) (n : Nat) : State :=
  match Map.find? s.crews n with
  | none => s
  | some w =>
    let out := leavingW s n w
    let new (u : TUnit) : TUnit :=
      match List.find? (fun q => q.2.phys == u.phys) out with
      | some q => { u with phys := 2 ^ 20 + 256 * n + q.1 }
      | none => u
    { s with crews := s.crews.map fun p =>
        if p.2.grid == w.grid && clusterOf p.2.core == clusterOf w.core then (p.1, { p.2 with unitsW := p.2.unitsW.map fun u => (u.1, new u.2) })
        else p }

/-- Takes every fast buffer and shadow of a crew away. -/
def dropCrewBuffers (s : State) (n : Nat) : State :=
  match Map.find? s.crews n with
  | none => s
  | some w =>
    (s.modCore w.core fun k =>
      { k with buffers := k.buffers.filter fun p => p.2.1 != n, shadows := k.shadows.filter fun p => p.2.1 != n }).modCrew n fun c =>
        { c with groups := c.groups.map fun g => (g.1, { g.2 with quad := none }) }

/-- The record of a notice about a crew as a whole. -/
def crewNote (s : State) (n : Nat) : FRec :=
  match s.gridOf n with
  | some (w, g) => crewRec s g.vf w.grid w 0 0 0 0
  | none => FRec.init

/-! ## Eviction (R50, R370) -/

/-- Whether an operation is a copy. -/
def Op.isCopy (o : Op) : Bool :=
  match o.kind with
  | .copy .. => true
  | _ => false

/-- Stops the copies of a crew at their progress: they are saved, and their flags count down (R334 step 3). -/
def saveCopies (s : State) (n : Nat) : State :=
  s.ops.foldl (fun s q =>
    if q.2.crew == n && q.2.isCopy then
      { s with ops := Map.mod s.ops q.1 fun o => { o with flag := none } }.decFlag n q.2.homes q.2.flag
    else s) s

/-- Evicts an H crew: its sheaves stop and go back to their restart points, its copies stop at their progress, its record's place is
taken in the spill region, and EVICTED is noticed; where there is no room its grid fails. -/
def evictCrew (s : State) (n : Nat) : State :=
  match s.gridOf n with
  | none => s
  | some (w, g) =>
    if !(bitOf g.desc.flags 0 && (w.st == .resident || w.st == .stopping || w.st == .stopped)) then s
    else
      match rollback s n (Map.keys w.groups) with
      | .error c => failCrew s n c (crewNote s n)
      | .ok s =>
        let s := saveCopies (dropCrewBuffers s n) n
        match s.gridOf n with
        | none => s
        | some (w, g) =>
          match saveRoom s n w g with
          | none => failGrid s w.grid .dataUncorrectable (crewNote s n)
          | some r =>
            let s := s.notice g.vf .evicted (crewNote s n)
            let s := countCore s w.core g 0x000A
            s.modCrew n fun c => { c with st := .spilling, requeued := true, saveAt := some r }

/-- Whether the matrix engine still has something to do for a crew (R307). -/
def engineDue (s : State) (n : Nat) : Bool :=
  (s.engines.any fun e => e.2.all.any fun r => r.crew == n) || s.ops.any fun o => o.2.crew == n &&
    match o.2.kind with
    | .xzero _ | .xreq .. => true
    | _ => false

/-- Whether a crew's save would meet an uncorrectable word (19_platform.md R424). -/
def badImage (s : State) (n : Nat) : Bool :=
  s.flaws.any fun f => match f with
    | .unit k _ _ | .shared k _ | .main k _ _ => k == n
    | _ => false

/-- MEDLAR_SPILL_DONE (R370): the crew's image stands in the spill region and its resources are free; a crew whose save meets an
uncorrectable word fails (19_platform.md R424). -/
def execMedlarSpillDone (crew : Nat) (s : State) : Outcome State Fault Refusal :=
  match Map.find? s.crews crew with
  | none => .next s
  | some w =>
    if w.st ≠ .spilling ∨ engineDue s crew then .next s
    else if badImage s crew then .next (failGrid s w.grid .dataUncorrectable (crewNote s crew))
    else
      let s := writeImage { s with free := s.free + 1 } crew
      .next ((vacate s crew).modCrew crew fun c => { c with st := .evicted, landed := false })

/-! ## Pre-emption and precise stops (R334, R337, R411) -/

/-- Halts every sheaf of a crew at its next instruction boundary: episodes are discarded, and what is in flight drains. -/
def haltCrew (s : State) (n : Nat) (st : CrewSt) : State :=
  match Map.find? s.crews n with
  | none => s
  | some w =>
    let s := discardEpisodes s n (Map.keys w.groups)
    let s := s.modCore w.core fun k => { k with shadows := k.shadows.filter fun p => p.2.1 != n }
    let s := s.modCrew n fun c => { c with st := st, groups := c.groups.map fun g => (g.1, { g.2 with halted := true }) }
    saveCopies s n

/-- Pre-empts a crew, which is re-queued from now on (R378): an H crew is evicted instead. -/
def preemptCrew (s : State) (n : Nat) : State :=
  match s.gridOf n with
  | none => s
  | some (w, g) =>
    if bitOf g.desc.flags 0 then evictCrew s n
    else if w.st == .resident || w.st == .stopping || w.st == .stopped then
      (haltCrew s n .draining).modCrew n fun c => { c with requeued := true }
    else s

/-- Pre-empts crews: each grid of a G crew posts PREEMPTED. -/
def preemptCrews (s : State) (ns : List Nat) : State :=
  let gs := dedup (ns.filterMap fun n => (s.gridOf n).bind fun q => if bitOf q.2.desc.flags 0 then none else some q.1.grid)
  let s := gs.foldl (fun s gid =>
    match Map.find? s.grids gid with
    | some g => s.notice g.vf .preempted { FRec.init with grid := gid }
    | none => s) s
  ns.foldl preemptCrew s

/-- Whether a crew has stores in its core's order (R155). -/
def storesLeft (s : State) (n : Nat) (w : Crew) : Bool := (s.core w.core).storeQ.any fun e => e.crew == n

/-- Whether what a halted crew has in flight has drained. -/
def crewDrained (s : State) (n : Nat) (w : Crew) : Bool :=
  !(s.ops.any fun o => o.2.crew == n && !o.2.isCopy) && (w.sheaves.all fun h => h.flags.all fun f => f.2 == 0) &&
    !storesLeft s n w && !engineDue s n

/-- Ends a halted group's regions as a trap does: the halted instruction is a restart point, with the maps that reopen there, and its
fast buffers are released (R71). A group that awaits fault service goes on awaiting it (R354). -/
def closeGroup (s : State) (n grp : Nat) : Except Stop State :=
  match startIss s n grp with
  | none => .ok s
  | some x =>
    let ls := lanesIn x.present
    match x.endRegion ls s with
    | .error e => .error e
    | .ok (y, s) =>
      let wait := match x.grp.wait with
        | .fault k => Wait.fault k
        | _ => Wait.none
      let reo := x.grp.reopen ++ reopenMaps x ls
      let g := { y.grp with reopen := reo, active := none, fetched := none, wait := wait, ranWait := false, noShadow := false }
      let c := restartPoint y.crew x.present (fun l => (reo.find? fun r => r.2.contains l).map (·.1)) s.seq
      .ok (dropBuffers (({ y with crew := c, grp := { g with quad := none } } : Iss).put s) n c [grp])

/-- Ends the regions of a halted crew's groups, as far as its flags have room. -/
def closeGroups (s : State) (n : Nat) (grps : List Nat) : State :=
  match grps with
  | [] => s
  | g :: rest =>
    match closeGroup s n g with
    | .ok s => closeGroups s n rest
    | .error (.raise c _) => failCrew s n c (crewNote s n)
    | .error _ => s

/-- Whether a halted crew has come to rest: drained, and no region open. -/
def crewStill (s : State) (n : Nat) : Bool :=
  match Map.find? s.crews n with
  | some w => crewDrained s n w && w.groups.all fun g => g.2.regions.isEmpty && g.2.active.isNone
  | none => false

/-- Takes a halted crew's drained sheaves a step on: its regions end. -/
def settleCrew (s : State) (n : Nat) : State :=
  match Map.find? s.crews n with
  | some w => if crewDrained s n w then closeGroups s n (Map.keys w.groups) else s
  | none => s

/-- Saves a crew: its record is written and its resources are free; where no record fits its grid fails (R337), as it does where
the save meets an uncorrectable word (R424). -/
def saveCrew (s : State) (n : Nat) : State :=
  match s.gridOf n with
  | none => s
  | some (w, g) =>
    if badImage s n then failGrid s w.grid .dataUncorrectable (crewNote s n)
    else
    match saveRoom s n w g with
    | none => failGrid s w.grid .preempted (crewNote s n)
    | some r =>
      let s := writeImage ({ s with free := s.free + 1 }.modCrew n fun c => { c with saveAt := some r }) n
      (vacate (dropCrewBuffers s n) n).modCrew n fun c => { c with st := .saved, requeued := true, landed := false }

/-- PREEMPTION_SAVE_DONE (R334): a pre-empted crew that has drained ends its regions; once the stores they held are performed its
state is saved. -/
def execPreemptionSaveDone (crew : Nat) (s : State) : Outcome State Fault Refusal :=
  match Map.find? s.crews crew with
  | none => .next s
  | some w =>
    if w.st ≠ .draining then .next s
    else
      let s := settleCrew s crew
      .next (if crewStill s crew then saveCrew s crew else s)

/-! ## Resumption (R335) -/

/-- Whether every operation a crew's image still counts has completed, and every store of it is performed (R155). -/
def imageWhole (s : State) (n : Nat) (w : Crew) : Bool :=
  !storesLeft s n w &&
  (w.sheaves.all fun h => h.flags.all fun f => f.2 == 0) && !s.ops.any fun o => o.2.crew == n && !o.2.isCopy

/-- The dev-scope release and acquire of a move between cores (Table 6.7): none while write-backs are still to be acknowledged. -/
def moveOrder (s : State) (src dst : Nat) : State × Bool :=
  if src = dst then (s, true)
  else
    let r := startFlush s (dieOf src) false
    if r.2.isEmpty then (acquireAct r.1 (dieOf dst) .dev, true) else (r.1, false)

/-- A group as its threads resume: the clause is fetched and its wait met again (R161). -/
def Group.resumed (g : Group) : Group := { g with halted := false, active := none, fetched := none, quad := none }

/-- Rebuilds a grid's extents at a resumption (R330); none where the rebuild fails. -/
def rebuildExtents (s : State) (gid : Nat) (g : Grid) : Option State :=
  if g.desc.nRanges = 0 then some s
  else
    match readRanges (pinFrames s false g.pinned) { g with extents := [], pinned := [] } with
    | .ok (h, s) => some (s.modGrid gid fun d => { d with extents := h.extents, pinned := h.pinned })
    | .error _ => none

/-- The saved crews that share a ring with one come to its cluster with it, their units on its slots (R118). -/
def followShared (s : State) (n old : Nat) : State :=
  match Map.find? s.crews n with
  | none => s
  | some w =>
    let ids := sharedIds w
    let new (u : Nat × TUnit) : Nat × TUnit := if unitIn w ids u.1 = true then (u.1, Map.get w.unitsW u.1 u.2) else u
    { s with crews := s.crews.map fun p =>
        if p.1 != n && p.2.grid == w.grid && clusterOf p.2.core == old && !p.2.st.present && ids.any (fun i => Map.has p.2.rings i) then
          (p.1, { p.2 with core := w.core, unitsW := p.2.unitsW.map new })
        else p }

/-- Whether a crew's record holds data with an uncorrectable error (19_platform.md R423). -/
def badRecord (s : State) (w : Crew) (g : Grid) : Bool := ((recordAt s w g).getD []).any fun p => flawedIn s g.vf p.1 p.2

/-- The crew and its copies as its record gives them; as the device keeps them where the record cannot be reached (assumption 80). -/
def readBack (s : State) (n : Nat) (w : Crew) (g : Grid) : State × Crew :=
  if (recordAt s w g).isSome then (savedCopies s n w g, savedCrew s n w g) else (s, w)

/-- Restores a crew on a core it fits, whole, from its save record (R335). -/
def resumeOn (s : State) (n : Nat) (w : Crew) (g : Grid) (core : Nat) : State :=
  let r := moveOrder s w.core core
  if !r.2 then r.1
  else if badRecord r.1 w g then failGrid r.1 w.grid .dataUncorrectable (crewNote r.1 n)
  else
    match rebuildExtents r.1 w.grid g with
    | none => stopCrews (r.1.modGrid w.grid fun d => d.stop .failed .launchRange) w.grid
    | some s =>
      let (s, v) := readBack s n w g
      let w' := placeCrew s n v core false
      let w' := { w' with saveAt := none, savedW := [], landed := false, groups := w'.groups.map fun p => (p.1, p.2.resumed) }
      followShared { s with crews := Map.put s.crews n w' } n (clusterOf w.core)

/-! ## Migration (R59) -/

/-- The die a crew's group waits for a landing slot on. -/
def landingDie (w : Crew) : Option Nat :=
  w.groups.findSome? fun g => match g.2.wait with
    | .landing d => some d
    | _ => none

/-- Whether a core has a landing slot and the crew's other units free. -/
def landingFree (s : State) (n : Nat) (w : Crew) (core : Nat) : Bool :=
  let ls := (coreCrews s core).filter fun p => p.2.landed
  decide (ls.length < 2) && decide (sumOf (ls.map fun p => p.2.banksHeld) + w.banksHeld ≤ 2) &&
    ({ needRes s n w (clusterOf core) with banks := 0, slots := 0 } : Res).fits (heldRes s core fun _ => true) 0

/-- Whether a group of a migrating crew has come to rest: it waits for the landing slot, or issues nothing and has no region open. -/
def restsToMove (g : Group) : Bool :=
  match g.wait with
  | .landing _ => true
  | _ => g.active.isNone && g.regions.isEmpty

/-- A group as it goes on where its crew has moved to: a halt for fault service goes on (R354). -/
def Group.moved (g : Group) : Group :=
  { g.resumed with wait := match g.wait with
                     | .fault k => .fault k
                     | _ => .none }

/-- Moves the groups of a crew that wait in a MIGR past it (R59 step 4). -/
def passMigr (s : State) (crew : Nat) (grps : List Nat) : State :=
  grps.foldl (fun s n =>
    match groupIss s crew n with
    | some (x, a) => advance s { x.cur with len := groupLen .S (a.words.drop (a.index - 1)) }
    | none => s) s

/-- The groups of a crew that wait for a landing slot. -/
def landingGroups (w : Crew) : List Nat :=
  (w.groups.filter fun g => match g.2.wait with
    | .landing _ => true
    | _ => false).map (·.1)

/-- Whether every operation of a crew but its receives has completed, those that no flag counts among them, and the matrix engine has
nothing to do for it: the release of a move comes after them (R140, R154). -/
def opsDone (s : State) (n : Nat) : Bool :=
  !engineDue s n && !s.ops.any fun o => o.2.crew == n && match o.2.kind with
    | .recv .. => false
    | _ => true

/-- MIGRATION_MOVE (R59, R154, R202): a migrating crew whose flags are 0 and none of whose threads is in its handler moves to a
landing slot on a core of the target die within the partition's clusters, and goes on after its MIGR there. The regions of other groups
of the sheaf end first, as a trap ends them. -/
def execMigrationMove (crew core : Nat) (s : State) : Outcome State Fault Refusal :=
  match s.gridOf crew with
  | none => .next s
  | some (w, g) =>
    match landingDie w with
    | none => .next s
    | some d =>
      let busy := (w.groups.filter fun p => !restsToMove p.2).map (·.1)
      if w.st = .resident ∧ dieOf core = d ∧ core < 256 ∧ !inHandler w ∧ !storesLeft s crew w ∧ opsDone s crew ∧
          (w.sheaves.all fun h => h.flags.all fun f => f.2 == 0) ∧
          (usableClusters s g.vf (bitOf g.desc.flags 0)).contains (clusterOf core) ∧ landingFree s crew w core then
        let s := (Map.keys w.groups).foldl (fun s n => s.leaveEpisode crew n) s
        if !busy.isEmpty then .next (closeGroups s crew busy)
        else
          let r := moveOrder s w.core core
          if !r.2 then .next r.1
          else
            let s := dropCrewBuffers (r.1.modCore w.core fun k => { k with recvs := k.recvs.filter fun n => !own r.1 crew n }) crew
            let s := s.modCore core fun k => { k with recvs := k.recvs ++ (r.1.core w.core).recvs.filter fun n => own r.1 crew n }
            let s := passMigr s crew (landingGroups w)
            .next (s.modCrew crew fun c =>
              { placeCrew s crew { c with unitsW := unmapUnits crew c.unitsW } core false with
                landed := true, groups := c.groups.map fun p => (p.1, p.2.moved) })
      else .next s
where
  /-- Whether an operation is a crew's. -/
  own (s : State) (crew n : Nat) : Bool :=
    match Map.find? s.ops n with
    | some o => o.crew == crew
    | none => false

/-! ## Fast buffers (R30, R71, R429) -/

/-- The groups on a core that wait for a fast buffer of a quad: crew, group. -/
def bufferWaiters (s : State) (core quad : Nat) : List (Nat × Nat × Crew × Group) :=
  (s.crews.filter fun p => p.2.core == core && p.2.st == .resident).flatMap fun p =>
    (p.2.groups.filter fun g => g.2.wait == .buffer && !g.2.halted && (g.2.quad.isNone || g.2.quad == some quad)).map fun g => (p.1, g.1, p.2, g.2)

/-- A group's place in the order of R29: G before H, then by entry, then by the time it came there. -/
def groupRank (s : State) (q : Nat × Nat × Crew × Group) : Nat :=
  let a := ((q.2.2.2.pc q.2.2.1).map fun p => entryRank q.2.2.1 q.2.2.2.role p.1.toNat).getD 0
  ((if crewIsH s q.2.2.1 then 2 ^ 66 else 0) + a) * 2 ^ 40 + q.2.2.2.since q.2.2.1 % 2 ^ 40

/-- The lowest free fast buffer of a quad's eight. -/
def freeBufferOf (k : Core) (quad : Nat) : Option Nat :=
  ((List.range 8).map fun i => quad * 8 + i).find? fun i => !Map.has k.buffers i

/-- Gives a buffer to a group: its parts are of the quad from then on. -/
def giveBuffer (s : State) (core quad i : Nat) (q : Nat × Nat × Crew × Group) : State :=
  let fam := q.2.2.2.family
  (s.modCore core fun k => { k with buffers := Map.put k.buffers i (q.1, fam) }).modCrew q.1 fun c =>
    { c with groups := c.groups.map fun p =>
        if p.2.family = fam then (p.1, { p.2 with quad := some quad, wait := if p.1 = q.2.1 then .none else p.2.wait }) else p }

/-- FAST_BUFFER_ASSIGN (R30): a free buffer of a quad goes to the group that waits for one and ranks highest. -/
def execFastBufferAssign (core quad : Nat) (s : State) : Outcome State Fault Refusal :=
  if 4 ≤ quad then .next s
  else
    match freeBufferOf (s.core core) quad, leastBy (groupRank s) (bufferWaiters s core quad) with
    | some i, some q => .next (giveBuffer s core quad i q)
    | _, _ => .next s

/-- The H groups that hold a buffer of a quad. -/
def recallable (s : State) (core quad : Nat) : List (Nat × Nat × Crew × Group) :=
  (s.crews.filter fun p => p.2.core == core && p.2.st == .resident && crewIsH s p.2).flatMap fun p =>
    (p.2.groups.filter fun g => (s.core core).buffers.any fun b => decide (b.1 / 8 = quad) && b.2 == (p.1, g.2.family)).map fun g =>
      (p.1, g.1, p.2, g.2)

/-- FAST_BUFFER_RECALL (R429): where a G group waits and no buffer of its quad is free, the lowest-ranked H group there goes back to
its restart point, keeping its banks, and its buffer goes to the G group. -/
def execFastBufferRecall (core quad : Nat) (s : State) : Outcome State Fault Refusal :=
  let gs := (bufferWaiters s core quad).filter fun q => !crewIsH s q.2.2.1
  match freeBufferOf (s.core core) quad, leastBy (groupRank s) gs, mostBy (groupRank s) (recallable s core quad) with
  | none, some q, some v =>
    let parts := (v.2.2.1.groups.filter fun g => g.2.family == v.2.2.2.family).map (·.1)
    match rollback s v.1 parts with
    | .error c => .next (failCrew s v.1 c (crewNote s v.1))
    | .ok s =>
      match freeBufferOf (s.core core) quad with
      | some i => .next (giveBuffer s core quad i q)
      | none => .next s
  | _, _, _ => .next s

end Sys2Proof.Machine
end

