-- ==== Sys2Proof/Machine/Queues.lean ====
section
/-! DEFINITION. Queue pairs and commands: the rings in host memory, dependences, events, completion and kill (14_scheduling.md R314 to
R324, R338, R339; 19_platform.md R419). -/

namespace Sys2Proof.Machine

open Host (Outcome)

/-! ## MSI-X messages (R419) -/

/-- VECTOR_UNMASK (R419): the vector sends the message it holds. -/
def execVectorUnmask (fn vec : Nat) (s : State) : Outcome State Fault Refusal :=
  let f (v : Vf) : Vf := { v with masked := v.masked.filter (· != vec), pendMsi := v.pendMsi.filter (· != vec) }
  let held := (if fn = 0 then s.pf else s.vf fn).pendMsi.contains vec
  let s := if fn = 0 then { s with pf := f s.pf } else s.modVf fn f
  .next (if held then sendMsi s fn vec else s)

/-! ## Queue registers (Tables 14.1 to 14.3) -/

/-- The entries of a queue. -/
def Queue.size (q : Queue) : Nat := 2 ^ bitsOf q.ctl.toNat 20 17

/-- The process a queue launches for. -/
def Queue.proc (q : Queue) : Nat := bitsOf q.ctl.toNat 28 25

/-- A queue's priority. -/
def Queue.prio (q : Queue) : Nat := bitsOf q.ctl.toNat 24 22

/-- Whether a queue is of class H. -/
def Queue.isH (q : Queue) : Bool := q.ctl.getLsbD 21

/-- Whether a queue's enable is refused (R315). -/
def enableBad (s : State) (vf : Nat) (q : Queue) : Bool :=
  decide (12 < bitsOf q.ctl.toNat 20 17) || q.desc.toNat % 16 != 0 || q.avail.toNat % 2 != 0 || q.used.toNat % 4 != 0 ||
    (q.isH && (openDonors s vf).isEmpty)

/-- Enables a queue that is Disabled, or refuses it. -/
def enableQueue (s : State) (vf n : Nat) : State :=
  let q := s.queue vf n
  if enableBad s vf q then s.modQueue vf n fun q => { q with cfgErr := true }
  else
    s.modQueue vf n fun q =>
      { q with cfgErr := false, st := .running, ctl := q.ctl ||| 0x10000, bell := false, availIx := 0, usedIx := 0, cmds := [], launched := 0 }

/-- Disables a queue: it forgets its ring positions. -/
def disableQueue (q : Queue) : Queue :=
  { q with st := .disabled, ctl := q.ctl &&& ~~~(0x10000 : Word), bell := false, availIx := 0, usedIx := 0, cmds := [] }

/-! ## The rings in host memory (R314) -/

/-- A number in host memory. -/
def hostNum (s : State) (a n : Nat) : Nat := Memory.num s.host a n

/-- Writes a number to host memory. -/
def hostPut (s : State) (a n x : Nat) : State := { s with host := Memory.writeN s.host a (bytesOf n x) }

/-- A buffer of a chain: host address, length, whether the device writes it. -/
abbrev Buf := Nat × Nat × Bool

/-- The buffers of a descriptor chain; none where it is INDIRECT, leaves the table or does not end. -/
def chainBufs (s : State) (table size fuel i : Nat) : Option (List Buf) :=
  match fuel with
  | 0 => none
  | f + 1 =>
    if size ≤ i then none
    else
      let a := table + 16 * i
      let flags := hostNum s (a + 12) 2
      let b : Buf := (hostNum s a 8, hostNum s (a + 8) 4, bitOf flags 1)
      if bitOf flags 2 then none
      else if bitOf flags 0 then (chainBufs s table size f (hostNum s (a + 14) 2)).map fun bs => b :: bs
      else some [b]

/-- The first n bytes of the readable buffers of a chain. -/
def readBufs (s : State) (n : Nat) (bs : List Buf) : List Byte :=
  match bs with
  | [] => []
  | (a, len, w) :: rest =>
    if w then []
    else
      let k := min n len
      Memory.readN s.host a k ++ readBufs s (n - k) rest

/-- The bytes of the readable buffers of a chain. -/
def readableLen (bs : List Buf) : Nat := sumOf ((bs.filter fun b => !b.2.2).map fun b => b.2.1)

/-- Whether a chain is formed as R316 asks: readable buffers, then at most one writable buffer of at least 64 bytes. -/
def chainOk (bs : List Buf) : Bool :=
  let ws := bs.dropWhile fun b => !b.2.2
  ws.isEmpty || (ws.length == 1 && ws.all fun b => decide (64 ≤ b.2.1))

/-! ## Commands (R316, R317, R320, Tables 14.4, 14.5) -/

/-- A command read from its header and, for a launch, its descriptor. -/
def cmdOf (head : Nat) (hdr desc : List Byte) (status : Option (Nat × Nat)) : Cmd :=
  { head := head, opcode := fieldAt hdr 0 1, overlap := bitOf (fieldAt hdr 1 1) 0, event := fieldAt hdr 4 4,
    value := dword (fieldAt hdr 8 8), addr := dword (fieldAt hdr 0x10 8), addr2 := dword (fieldAt hdr 0x18 8),
    len := dword (fieldAt hdr 0x20 8), size := fieldAt hdr 0x28 1,
    desc := if fieldAt hdr 0 1 = 1 ∧ desc.length = 128 then some (Desc.read desc) else none, status := status, st := .pending,
    result := .complete, first := none, grid := none, time := 0, born := 0 }

/-- Whether the fields of a command obey Table 14.4 and R317. -/
def cmdFields (hdr : List Byte) (c : Cmd) : Bool :=
  decide (fieldAt hdr 1 1 < 2) && fieldAt hdr 2 2 == 0 && (hdr.drop 0x29).all (fun b => b == 0) &&
    (if c.opcode = 2 ∨ c.opcode = 3 then decide (c.event < 4096) else c.event == 0) &&
    (c.opcode == 6 || (c.addr2 == 0 && c.len == 0)) && (c.opcode == 4 || c.size == 0) &&
    match c.opcode with
    | 1 | 2 | 3 | 5 => true
    | 4 => (c.size == 4 || c.size == 8) && c.addr.toNat % c.size == 0
    | 6 => c.addr.toNat % 64 == 0 && c.addr2.toNat % 64 == 0 && c.len.toNat % 64 == 0
    | _ => false

/-- Whether a launch's descriptor obeys R22, and its class is the queue's (R320). -/
def launchFields (q : Queue) (c : Cmd) : Bool :=
  c.opcode != 1 ||
    match c.desc with
    | some d => d.ok && bitOf d.flags 0 == q.isH
    | none => false

/-- The command an available entry heads, as it is read and checked: pending, or rejected at once (R319, R320). -/
def readCmd (s : State) (q : Queue) (head : Nat) : Cmd :=
  match chainBufs s q.desc.toNat q.size q.size head with
  | none => { cmdOf head [] [] none with st := .finished, result := .rejected, first := some .launchDesc, time := s.gtime }
  | some bs =>
    let b := readBufs s 192 bs
    let ok := chainOk bs
    let st := if ok then (List.find? (fun b : Buf => b.2.2) bs).map fun b => (b.1, b.2.1) else none
    let c := cmdOf head (b.take 64) (b.drop 64) st
    if ok && decide (64 ≤ readableLen bs) && cmdFields (b.take 64) c && launchFields q c then c
    else { c with st := .finished, result := .rejected, first := some .launchDesc, time := s.gtime }

/-- QUEUE_DOORBELL (R314): Mulberry is told to read the available ring. -/
def execQueueDoorbell (vf q : Nat) (s : State) : Outcome State Fault Refusal :=
  .next (if (s.queue vf q).st = .running then s.modQueue vf q fun x => { x with bell := true } else s)

/-- AVAIL_ENTRY_READ (R319): the next available entry is read and checked, and becomes pending, or is rejected; avail_event
follows each read of the ring. -/
def execAvailEntryRead (vf q : Nat) (s : State) : Outcome State Fault Refusal :=
  let x := s.queue vf q
  if x.st ≠ .running ∨ !x.bell then .next s
  else
    let ix := hostNum s (x.avail.toNat + 2) 2
    let out (s : State) (ix : Nat) : State := hostPut s (x.used.toNat + 4 + 8 * x.size) 2 ix
    if ix = x.availIx then .next (out (s.modQueue vf q fun x => { x with bell := false }) x.availIx)
    else
      let c := readCmd s x (hostNum s (x.avail.toNat + 4 + 2 * (x.availIx % x.size)) 2)
      let new := (x.availIx + 1) % 65536
      .next (out (s.modQueue vf q fun x =>
        { x with availIx := new, cmds := Map.put x.cmds x.nextCmd c, nextCmd := x.nextCmd + 1 }) new)

/-! ## Dependences (R321) -/

/-- Whether the first pending command of a queue may begin, given the commands before it. -/
def mayBegin (before : List (Nat × Cmd)) (c : Cmd) : Bool :=
  if c.overlap && c.opcode != 5 then before.all fun p => !(p.2.opcode == 2 && p.2.st == .begun) else before.isEmpty

/-- The command of a queue that begins next, if its opcode is the one asked for. -/
def beginning (s : State) (vf q opcode : Nat) : Option (Nat × Cmd) :=
  let cs := (s.queue vf q).cmds
  match List.find? (fun p : Nat × Cmd => p.2.st == .pending) cs with
  | some p =>
    if p.2.opcode = opcode ∧ (s.queue vf q).st = .running ∧ mayBegin (cs.filter fun r => decide (r.1 < p.1)) p.2 then some p else none
  | none => none

/-- Marks a command as begun, in the order of beginnings. -/
def beginCmd (s : State) (vf q n : Nat) : State :=
  { s with seq := s.seq + 1 }.modCmd vf q n fun c => { c with st := .begun, born := s.seq }

/-! ## LAUNCH (R321, R324, R325) -/

/-- LAUNCH_COMMAND (R321): the launch begins and its grid is accepted, where the quota has room (R325). -/
def execLaunchCommand (vf q : Nat) (s : State) : Outcome State Fault Refusal :=
  match beginning s vf q 1 with
  | none => .next s
  | some (n, c) =>
    match c.desc with
    | none => .next s
    | some d =>
      if !gridRoom s vf then .next s
      else
        let x := s.queue vf q
        let gid := s.nextGrid
        let g := Grid.accept vf q x.proc 0 d none 0 x.launched s.seq 0 (some n)
        let s := beginCmd s vf q n
        let s := (s.modCmd vf q n fun c => { c with grid := some gid }).modQueue vf q fun x => { x with launched := x.launched + 1 }
        .next (beginGrid { s with grids := Map.put s.grids gid g, nextGrid := gid + 1 } gid)

/-! ## Events (R322) -/

/-- An event of a partition. -/
def eventOf (s : State) (vf e : Nat) : Dword := Map.get (s.vf vf).events e 0

/-- Evaluates the WAITs of a queue that have begun. -/
def evalQueue (s : State) (vf q : Nat) : State :=
  s.modQueue vf q fun x =>
    { x with cmds := x.cmds.map fun p =>
      if p.2.opcode = 2 ∧ p.2.st = .begun ∧ p.2.value.toNat ≤ (eventOf s vf p.2.event).toNat then
        (p.1, { p.2 with st := .finished, time := s.gtime })
      else p }

/-- Evaluates every WAIT of a partition that has begun (R322). -/
def evalWaits (s : State) (vf : Nat) : State := (Map.keys (s.vf vf).queues).foldl (fun s q => evalQueue s vf q) s

/-- WAIT_COMMAND (R321, R322): a WAIT begins and meets the value its event holds. -/
def execWaitCommand (vf q : Nat) (s : State) : Outcome State Fault Refusal :=
  match beginning s vf q 2 with
  | none => .next s
  | some (n, _) => .next (evalQueue (beginCmd s vf q n) vf q)

/-- SIGNAL_COMMAND (R322): the event rises to the value; the WAITs are evaluated. -/
def execSignalCommand (vf q : Nat) (s : State) : Outcome State Fault Refusal :=
  match beginning s vf q 3 with
  | none => .next s
  | some (n, c) =>
    let s := s.modVf vf fun v =>
      { v with events := Map.put v.events c.event (if (Map.get v.events c.event 0).toNat < c.value.toNat then c.value else Map.get v.events c.event 0) }
    .next (evalWaits (finishCmd (beginCmd s vf q n) vf q n .complete none) vf)

/-- EVENT_WRITE (R322): the partition driver sets an event; the WAITs are evaluated. -/
def execEventWrite (vf e : Nat) (x : Dword) (s : State) : Outcome State Fault Refusal :=
  if e < 4096 then .next (evalWaits (s.modVf vf fun v => { v with events := Map.put v.events e x }) vf) else .next s

/-! ## WRITE, FENCE and COPY (R317) -/

/-- Notes an access of a command to a recorded range (R412). -/
def noteCommand (s : State) (vf va : Nat) : State :=
  if inRecorded (s.vf vf) va then s.modVf vf fun v => { v with replay := { v.replay with stat := v.replay.stat ||| 1 } } else s

/-- Why a command stops at a block: it waits for a peer or a tracker; a gate denied it; an access fails. -/
inductive CmdHalt where
  | wait (s : State)
  | denied (gate : Nat) (d : GDest) (set : OSet)
  | bad (e : BdErr)

/-- What a frame of a command that does not leave comes to (R128, R399). -/
def cmdNoSend (s : State) (set : OSet) (e : NoSend) : CmdHalt :=
  match e with
  | .busy => .wait s
  | .unreachable => .bad (.inl .remoteUnreachable)
  | .denied g d => .denied g d set

/-- A tracker of a command's request. -/
def cmdTracker (k : Nat × Nat × Nat) (dev : Nat) : Tracker :=
  { device := dev, port := 0, op := none, line := none, acc := none, cmd := some k }

/-- Writes bytes that lie in one page for a command: to this device's memory, or by a frame to the peer that holds the page, its
set checked as on a fixed-set page (R128, R317). -/
def cmdPut (s : State) (k : Nat × Nat × Nat) (proc va : Nat) (bs : List Byte) (set : OSet) : Except CmdHalt State :=
  match bdPage s k.1 proc va true with
  | .error e => .error (.bad e)
  | .ok (e, t) =>
    if e.dev = 0 then
      match bdWrite s k.1 proc va bs set with
      | .ok s => .ok s
      | .error e => .error (.bad e)
    else if !osSubset t.osets set e.oset then .error (.bad (.inl .osetEscalation))
    else
      match request t e.dev k.1 (s.queue k.1 k.2.1).isH (cmdTracker k e.dev) (some (bs.length, set)) fun i => .writeReq (e.pa + va % 65536) bs i with
      | .ok t => .ok t
      | .error x => .error (cmdNoSend s set x)

/-- Reads a block of 64 bytes for a COPY: from this device's memory, or asked of the peer that holds the page. -/
def cmdGet (s : State) (k : Nat × Nat × Nat) (proc va : Nat) (c : Cmd) : Except CmdHalt (List Byte × OSet × State) :=
  match bdPage s k.1 proc va false with
  | .error e => .error (.bad e)
  | .ok (e, t) =>
    if e.dev = 0 then
      match bdBytes s k.1 proc va 64 with
      | .ok (bs, us, t) => .ok (bs, us.headD 0, t)
      | .error e => .error (.bad e)
    else
      match c.got with
      | some bs => .ok (bs, e.oset, t)
      | none =>
        if c.asked then .error (.wait s)
        else
          match request t e.dev k.1 (s.queue k.1 k.2.1).isH (cmdTracker k e.dev) none fun i => .readReq (e.pa + va % 65536) 64 i with
          | .ok t => .error (.wait (t.modCmd k.1 k.2.1 k.2.2 fun c => { c with asked := true }))
          | .error x => .error (cmdNoSend s 0 x)

/-- Where a command stops that cannot go on (R317, R399). -/
def haltCmd (s : State) (k : Nat × Nat × Nat) (e : CmdHalt) : Outcome State Fault Refusal :=
  match e with
  | .wait s => .next s
  | .denied g d u =>
    .next (finishCmd (s.notice k.1 .egressDenied (denialRec FRec.init g u d)) k.1 k.2.1 k.2.2 .failed (some .egressDenied))
  | .bad (.inr .noMem) => .fault .noSuchMemory
  | .bad e => .next (finishCmd (s.noteFound (flawOf e)) k.1 k.2.1 k.2.2 .failed (some (bdCause e)))

/-- WRITE_COMMAND (R317): the low bytes of the value are written with origin set 0; at a peer it is complete once that has
acknowledged it. -/
def execWriteCommand (vf q : Nat) (s : State) : Outcome State Fault Refusal :=
  match beginning s vf q 4 with
  | none => .next s
  | some (n, c) =>
    let t := beginCmd (noteCommand s vf c.addr.toNat) vf q n
    match bdWrite t vf (s.queue vf q).proc c.addr.toNat (bytesOf c.size c.value.toNat) 0 with
    | .ok u => .next (finishCmd u vf q n .complete none)
    | .error (.inr .noMem) => .fault .noSuchMemory
    | .error (.inl .remoteUnreachable) =>
      match cmdPut t (vf, q, n) (s.queue vf q).proc c.addr.toNat (bytesOf c.size c.value.toNat) 0 with
      | .ok u => .next u
      | .error (.wait _) => .next s
      | .error e => haltCmd t (vf, q, n) e
    | .error e => .next (finishCmd (t.noteFound (flawOf e)) vf q n .failed (some (bdCause e)))

/-- FENCE_COMMAND (R321): it begins once every earlier command of the queue has completed, and does nothing. -/
def execFenceCommand (vf q : Nat) (s : State) : Outcome State Fault Refusal :=
  match beginning s vf q 5 with
  | none => .next s
  | some (n, _) => .next (finishCmd (beginCmd s vf q n) vf q n .complete none)

/-- Copies blocks of 64 bytes with their granules' sets, until one fails. -/
def copyBlocks (s : State) (vf proc : Nat) (src dst : Nat) (n : Nat) : State × Option BdErr :=
  match n with
  | 0 => (s, none)
  | n + 1 =>
    let s := noteCommand (noteCommand s vf src) vf dst
    match bdBytes s vf proc src 64 with
    | .error e => (s, some e)
    | .ok (bs, us, t) =>
      match bdWrite t vf proc dst bs (us.headD 0) with
      | .error e => (s, some e)
      | .ok s => copyBlocks s vf proc (src + 64) (dst + 64) n

/-- The COPY commands that have begun: VF, queue, number, command, those of G queues first, then in order of their beginning. -/
def copiesBegun (s : State) : List (Nat × Nat × Nat × Cmd) :=
  s.vfs.flatMap fun v => v.2.queues.flatMap fun q =>
    (q.2.cmds.filter fun c => c.2.opcode == 6 && c.2.st == .begun).map fun c => (v.1, q.1, c.1, c.2)

/-- The COPY commands that the copy engine is serving: part of one is performed, or a peer answers for it. -/
def copiesUnderWay (s : State) : List (Nat × Nat × Nat × Cmd) :=
  (copiesBegun s).filter fun p => decide (0 < p.2.2.2.moved) || p.2.2.2.asked || p.2.2.2.got.isSome || cmdAway s (p.1, p.2.1, p.2.2.1)

/-- Whether the copy engine is serving a COPY. -/
def copyUnderWay (s : State) : Bool := !(copiesUnderWay s).isEmpty

/-- Whether a page move has its turn at the copy engine: no COPY is under way, and none that has begun came before it (R317). -/
def moveTurn (s : State) (m : PMove) : Bool :=
  !copyUnderWay s && (copiesBegun s).all fun p => decide (m.born ≤ p.2.2.2.born)

/-- The COPY that BD's copy engine serves next: the one it is serving, or one that began before the page move in progress. -/
def nextCopy (s : State) : Option (Nat × Nat × Nat × Cmd) :=
  match copiesUnderWay s with
  | p :: _ => some p
  | [] =>
    leastBy (fun p : Nat × Nat × Nat × Cmd => (if (s.queue p.1 p.2.1).isH then 2 ^ 64 else 0) + p.2.2.2.born)
      ((copiesBegun s).filter fun p => s.pmove.all fun m => decide (p.2.2.2.born < m.born))

/-- Performs the next block of a COPY. -/
def copyBlock (s : State) (k : Nat × Nat × Nat) (proc : Nat) (c : Cmd) : Except CmdHalt State :=
  let src := c.addr.toNat + 64 * c.moved
  let dst := c.addr2.toNat + 64 * c.moved
  match cmdGet s k proc src c with
  | .error e => .error e
  | .ok (bs, u, t) =>
    match cmdPut t k proc dst bs u with
    | .error (.wait _) => .error (.wait s)
    | .error e => .error e
    | .ok t => .ok (t.modCmd k.1 k.2.1 k.2.2 fun c => { c with moved := c.moved + 1, asked := false, got := none })

/-- Performs blocks of a COPY some of whose pages lie at peers, until one stops it. -/
def copyPeer (s : State) (k : Nat × Nat × Nat) (proc : Nat) (n : Nat) : State × Option CmdHalt :=
  match n with
  | 0 => (s, none)
  | n + 1 =>
    match begunCmd s k with
    | none => (s, none)
    | some c =>
      let s := noteCommand (noteCommand s k.1 (c.addr.toNat + 64 * c.moved)) k.1 (c.addr2.toNat + 64 * c.moved)
      match copyBlock s k proc c with
      | .error e => (s, some e)
      | .ok s => copyPeer s k proc n

/-- A COPY with every block performed is complete once the peers have acknowledged theirs. -/
def copyOver (s : State) (k : Nat × Nat × Nat) : State :=
  if cmdAway s k then s.modCmd k.1 k.2.1 k.2.2 fun c => { c with moved := c.len.toNat / 64 }
  else finishCmd s k.1 k.2.1 k.2.2 .complete none

/-- Serves a COPY from where it stands: at once where every page is this device's, else block by block. -/
def serveCopy (s : State) (k : Nat × Nat × Nat) (c : Cmd) : Outcome State Fault Refusal :=
  let proc := (s.queue k.1 k.2.1).proc
  let n := c.len.toNat / 64 - c.moved
  match copyBlocks s k.1 proc (c.addr.toNat + 64 * c.moved) (c.addr2.toNat + 64 * c.moved) n with
  | (_, some (.inl .remoteUnreachable)) =>
    match copyPeer s k proc n with
    | (t, none) => .next (copyOver t k)
    | (t, some e) => haltCmd t k e
  | (t, some e) => haltCmd t k (.bad e)
  | (t, none) => .next (copyOver t k)

/-- The machine once the oldest command of a queue that may begin, a COPY, has begun. -/
def beginCopy (s : State) (vf q : Nat) : State :=
  match beginning s vf q 6 with
  | some (n, _) => beginCmd s vf q n
  | none => s

/-- COPY_COMMAND (R317): a COPY begins, and the copy engine performs it when its turn has come. -/
def execCopyCommand (vf q : Nat) (s : State) : Outcome State Fault Refusal :=
  let s := beginCopy s vf q
  match nextCopy s with
  | none => .next s
  | some (v, k, n, c) => if v ≠ vf ∨ k ≠ q then .next s else serveCopy s (v, k, n) c

/-! ## Completion (R318) -/

/-- The record of a LAUNCH that no grid was accepted for. -/
def noGridRecord (c : Cmd) : List Byte :=
  match c.desc with
  | some d =>
    bytesOf 2 c.result.code ++ bytesOf 2 ((c.first.map causeCode).getD 0) ++ bytesOf 4 0 ++ bytesOf 8 0 ++ bytesOf 8 c.time.toNat ++
      bytesOf 8 c.time.toNat ++ bytesOf 4 0 ++ bytesOf 4 (d.gx * d.gy * d.gz) ++ List.replicate 24 0
  | none => bytesOf 2 c.result.code ++ bytesOf 2 ((c.first.map causeCode).getD 0) ++ List.replicate 60 0

/-- Writes the completion record of a LAUNCH that no grid was accepted for, where its address is valid (R320, R333). -/
def writeNoGrid (s : State) (vf proc : Nat) (c : Cmd) : State :=
  match c.desc with
  | none => s
  | some d =>
    if !d.recordOk then s
    else
      match bdWrite s vf proc d.record.toNat (noGridRecord c) 0 with
      | .ok s => s
      | .error e => (s.noteFound (flawOf e)).toHypervisor [{ FRec.init with kind := 3, cause := causeCode (bdCause e), vf := vf, va := d.record }]

/-- The 64 bytes a command leaves in its status buffer: the store hash always 0. -/
def statusBytes (s : State) (c : Cmd) : List Byte :=
  match c.grid.bind fun n => (Map.find? s.grids n).map fun g => (n, g) with
  | some (n, g) => recordBytes n g g.fin 0
  | none => noGridRecord c

/-- Steps 2 to 5 of R318: the status buffer, the used entry, the used index, and the message unless used_event suppresses it. -/
def useEntry (s : State) (vf q n : Nat) (c : Cmd) : State :=
  let x := s.queue vf q
  let s := match c.status with
    | some (a, _) => { s with host := Memory.writeN s.host a (statusBytes s c) }
    | none => s
  let a := x.used.toNat + 4 + 8 * (x.usedIx % x.size)
  let s := hostPut (hostPut s a 4 c.head) (a + 4) 4 (if c.status.isSome then 64 else 0)
  let new := (x.usedIx + 1) % 65536
  let s := hostPut s (x.used.toNat + 2) 2 new
  let want := hostNum s (x.avail.toNat + 4 + 2 * x.size) 2 == x.usedIx
  let s := s.modQueue vf q fun x => { x with usedIx := new, cmds := Map.del x.cmds n }
  if want then sendMsi s vf (q + 1) else s

/-- Completes a command that is finished, or a LAUNCH whose grid has its record; its grid is then over. -/
def completeCmd (s : State) (vf q n : Nat) (c : Cmd) : State :=
  let s := if c.opcode = 1 ∧ c.grid.isNone then writeNoGrid s vf (s.queue vf q).proc c else s
  let s := useEntry s vf q n c
  match c.grid with
  | some g => { s with grids := Map.del s.grids g }
  | none => s

/-- Whether a command is ready to complete. -/
def cmdOver (s : State) (c : Cmd) : Bool :=
  c.st == .finished || match c.grid.bind fun n => Map.find? s.grids n with
    | some g => g.done
    | none => false

/-- COMMAND_COMPLETION (R318). -/
def execCommandCompletion (vf q cmd : Nat) (s : State) : Outcome State Fault Refusal :=
  match Map.find? (s.queue vf q).cmds cmd with
  | some c => .next (if cmdOver s c then completeCmd s vf q cmd c else s)
  | none => .next s

/-! ## Enable, disable and kill (R315, R338, R339) -/

/-- Kills a grid that has no record yet. -/
def killGrid (s : State) (gid : Nat) : State :=
  match Map.find? s.grids gid with
  | none => s
  | some g =>
    if g.done then s
    else
      let s := if g.stopped = some .killed then s else s.notice g.vf .queueKilled { FRec.init with grid := gid }
      let s := pinFrames s false g.pinned
      stopCrews (s.modGrid gid fun g => { g.stop .killed .queueKilled with stopped := some .killed, pinned := [] }) gid

/-- Kills a queue that is Running: its commands that have not begun, and WAITs not met, complete as Killed in ring order, and its
grids are stopped. -/
def killQueue (s : State) (vf q : Nat) : State :=
  if (s.queue vf q).st ≠ .running then s
  else
    let s := s.modQueue vf q fun x => { x with st := .killing, bell := false }
    let s := (s.queue vf q).cmds.foldl (fun s p =>
      if p.2.st == .pending || (p.2.opcode == 2 && p.2.st == .begun) then
        completeCmd s vf q p.1 { p.2 with st := .finished, result := .killed, first := some .queueKilled, time := s.gtime }
      else s) s
    (s.grids.filter fun g => g.2.vf == vf && g.2.queue == q).foldl (fun s g => killGrid s g.1) s

/-- QUEUE_KILL (R338). -/
def execQueueKill (vf q : Nat) (s : State) : Outcome State Fault Refusal := .next (killQueue s vf q)

/-- QUEUE_KILL_FINISH (R338 step 5): every grid has its record and every command its used entry. -/
def execQueueKillFinish (vf q : Nat) (s : State) : Outcome State Fault Refusal :=
  let x := s.queue vf q
  if x.st = .killing ∧ x.cmds.isEmpty ∧ !(s.grids.any fun g => g.2.vf == vf && g.2.queue == q && !g.2.done) then
    .next (sendMsi (s.modQueue vf q fun x => { x with st := .killed }) vf 0)
  else .next s

/-- A write of QCTL (R315, Table 14.2): the fields are frozen outside Disabled. -/
def writeQctl (s : State) (vf q : Nat) (w : Word) : State :=
  let x := s.queue vf q
  match x.st with
  | .disabled =>
    let s := s.modQueue vf q fun x => { x with ctl := w &&& 0x1FFE0000 }
    if w.getLsbD 16 then enableQueue s vf q else s
  | .running =>
    if w.getLsbD 31 then killQueue s vf q
    else if !w.getLsbD 16 && x.cmds.isEmpty then s.modQueue vf q disableQueue
    else s
  | .killed => if !w.getLsbD 16 then s.modQueue vf q disableQueue else s
  | .killing => s

/-- QUEUE_ENABLE (R315): QCTL is written with EN set. -/
def execQueueEnable (vf q : Nat) (ctl : Word) (s : State) : Outcome State Fault Refusal := .next (writeQctl s vf q (ctl ||| 0x10000))

/-- QUEUE_DISABLE (R315): QCTL is written with EN clear. -/
def execQueueDisable (vf q : Nat) (ctl : Word) (s : State) : Outcome State Fault Refusal :=
  .next (writeQctl s vf q (ctl &&& ~~~(0x10000 : Word)))

end Sys2Proof.Machine
end

