-- ==== Sys2Proof/Machine/Placement.lean ====
section
/-! DEFINITION. Mulberry's choice and placement of crews, retirement, time slices and the completion of grids (02_execution.md R25, R26;
14_scheduling.md R325 to R327, R331 to R333; 16_partitions.md R370, R377, R378). -/

namespace Sys2Proof.Machine

open Host (Outcome)

/-! ## The crew of a grid that goes next (R326 step 6, R378) -/

/-- A crew that may be dispatched: its grid, its number, whether it is a fresh one, and the cores it fits. -/
structure Cand where
  gid   : Nat
  grid  : Grid
  n     : Nat
  crew  : Crew
  fresh : Bool
  cores : List Nat
  deriving DecidableEq, Repr

/-- The re-queued crews of a grid; those a precise stop holds wait for its resume command. -/
def requeuedOf (s : State) (gid : Nat) : List (Nat × Crew) := s.crews.filter fun p => p.2.grid == gid && p.2.requeued && !p.2.stop

/-- The crew of a grid that is dispatched next: a re-queued one that can be restored, before any that never ran. -/
def headCrew (s : State) (gid : Nat) (g : Grid) : Option (Nat × Crew × Bool) :=
  let rs := requeuedOf s gid
  if rs.isEmpty then
    if g.next < g.crews then some (s.nextCrew, freshCrew gid g g.next s.nextCrew, true) else none
  else
    (leastBy (fun p : Nat × Crew => p.2.index) (rs.filter fun p => (p.2.st == .saved || p.2.st == .evicted) && imageWhole s p.1 p.2)).map
      fun p => (p.1, p.2, false)

/-- Whether a crew stands on a lent cluster of another partition than its own. -/
def borrowed (s : State) (cl : Nat) (p : Nat × Crew) : Bool :=
  clusterOf p.2.core == cl && p.2.st.present && !crewIsH s p.2 && crewVf s p.2 != (s.cluster cl).vf

/-- Whether an owner's crew fits a lent cluster's core only without the crews that borrow it (R377). -/
def fitsReclaim (s : State) (n : Nat) (w : Crew) (core : Nat) : Bool :=
  (s.cluster (clusterOf core)).lend && !crewIsH s w &&
    fitsBeside s n w core fun p => notHOn s core p && !borrowed s (clusterOf core) p

/-- The H crews of a core that give way to a crew: the most recently dispatched first, until enough is free (R370). -/
def victimsFor (s : State) (n : Nat) (w : Crew) (core fuel : Nat) (out : List Nat) : List Nat :=
  match fuel with
  | 0 => out
  | f + 1 =>
    let stay (p : Nat × Crew) : Bool := !(p.2.core == core && (p.2.st == .spilling || out.contains p.1))
    if fitsBeside s n w core stay then out
    else
      let hs := (coreCrews s core).filter fun p => crewIsH s p.2 && p.2.st != .spilling && !out.contains p.1
      match mostBy (fun p : Nat × Crew => p.2.order) hs with
      | some v => victimsFor s n w core f (out ++ [v.1])
      | none => out

/-- Whether something is still to be asked to leave a core for a crew: an H crew is to be evicted, or one that borrows the cluster to be
pre-empted; none where all of it is leaving, or where the crew would not fit then either. -/
def askLeave (s : State) (n : Nat) (w : Crew) (core : Nat) : Option Bool :=
  if fitsCore s n w core then some !(victimsFor s n w core 64 []).isEmpty
  else if fitsReclaim s n w core then some (!(s.crews.any fun p => borrowed s (clusterOf core) p && p.2.st == .draining))
  else none

/-- The cores that a grid's next crew is offered to: the one reserved for it, once it has room or something is still to leave it (R327);
else those it fits, or would fit once what borrows them has left. -/
def offeredCores (s : State) (gid n : Nat) (w : Crew) (ks : List Nat) : List Nat :=
  let fit := ks.filter fun k => fitsCore s n w k
  let free := if fit.isEmpty then ks.filter fun k => fitsReclaim s n w k && askLeave s n w k == some true else fit
  match Map.find? s.booked gid with
  | none => free
  | some b =>
    if !ks.contains b.core then free
    else if fitsNow s n w b.core then [b.core]
    else
      match askLeave s n w b.core with
      | some ask => if ask then [b.core] else []
      | none => free

/-- The candidate that a grid offers: none where its crew fits nowhere, or waits for a core that is being cleared for it. -/
def candOf (s : State) (gid : Nat) (g : Grid) : Option Cand :=
  match headCrew s gid g with
  | none => none
  | some (n, w, fresh) =>
    let ks := offeredCores s gid n w (candidateCores s n w g fresh)
    if ks.isEmpty then none else some { gid := gid, grid := g, n := n, crew := w, fresh := fresh, cores := ks }

/-- The candidates of a class. -/
def candsOf (s : State) (h : Bool) : List Cand :=
  (s.grids.filter fun p => bitOf p.2.desc.flags 0 == h && p.2.built && p.2.stopped.isNone && !p.2.done).filterMap fun p => candOf s p.1 p.2

/-! ## The choice (R326) -/

/-- The weight of a process, 1 to 255. -/
def procWeight (vf proc : Nat) : Nat := 1 + Config.processWeight vf proc % 255

/-- Deficit round robin over the processes with a crew to dispatch, counted in crews: the process, and the deficits after it. -/
def pickProc (vf : Nat) (old : Map Nat) (ps : List Nat) : Option (Nat × Map Nat) :=
  let d := ps.map fun p => (p, Map.get old p 0)
  let d := if d.any fun p => decide (1 ≤ p.2) then d else d.map fun p => (p.1, p.2 + procWeight vf p.1)
  (List.find? (fun p : Nat × Nat => decide (1 ≤ p.2)) d).map fun p => (p.1, d.map fun q => if q.1 = p.1 then (q.1, q.2 - 1) else q)

/-- The best candidate of a process: queue priority, the queue's turn, the grid's priority byte, the earlier accepted (R326 steps 4, 5). -/
def bestCand (s : State) (cs : List Cand) : Option Cand :=
  let prio (c : Cand) : Nat := (s.queue c.grid.vf c.grid.queue).prio
  let cs := cs.filter fun c => prio c == maxOf (cs.map prio)
  match leastBy (fun c : Cand => (s.queue c.grid.vf c.grid.queue).turn * 64 + c.grid.queue) cs with
  | none => none
  | some q =>
    let cs := cs.filter fun c => c.grid.queue == q.grid.queue
    leastBy (fun c : Cand => c.grid.accepted) (cs.filter fun c => c.grid.desc.prio == maxOf (cs.map fun c => c.grid.desc.prio))

/-- The candidate that goes next, and the deficits of its partition after it; which partition goes first the spec leaves open. -/
def chooseCand (s : State) (cs : List Cand) : Option (Cand × Map Nat) :=
  let vfs := dedup (cs.map fun c => c.grid.vf)
  match vfs[Config.choice s.free % max 1 vfs.length]? with
  | none => none
  | some vf =>
    let cs := cs.filter fun c => c.grid.vf == vf
    match pickProc vf (s.vf vf).deficit (ascending (dedup (cs.map fun c => c.grid.proc))) with
    | none => none
    | some (p, d) => (bestCand s (cs.filter fun c => c.grid.proc == p)).map fun c => (c, d)

/-! ## Placement (R327) -/

/-- Starts a fresh crew on a core (Table 6.7: an acquire at dev scope). -/
def startCrew (s : State) (c : Cand) (core : Nat) : State :=
  let w := { placeCrew s c.n c.crew core true with order := s.seq }
  let s := { s with crews := Map.put s.crews c.n w, nextCrew := c.n + 1, seq := s.seq + 1 }
  let s := s.modGrid c.gid fun g => { g with next := g.next + 1, start := some (g.start.getD s.gtime) }
  acquireAct (syncShared s c.n) (dieOf core) .dev

/-- Places a chosen crew on a core that has room for it. -/
def putCrew (s : State) (c : Cand) (d : Map Nat) (core : Nat) : State :=
  let s := if c.fresh then startCrew s c core
    else (resumeOn s c.n c.crew c.grid core).modCrew c.n fun w => if w.st = .resident then { w with order := s.seq } else w
  match Map.find? s.crews c.n with
  | some w =>
    if w.st ≠ .resident then s
    else
      let s := { s with seq := s.seq + 1 }.modVf c.grid.vf fun v => { v with deficit := d }
      let s := { s.modQueue c.grid.vf c.grid.queue fun q => { q with turn := s.seq } with booked := Map.del s.booked c.gid }
      traceCore s c.grid.vf core (TRec.ofCrew 1 c.gid c.grid w)
  | none => s

/-- Reserves on a core what a chosen crew needs there (R327). -/
def bookCore (s : State) (c : Cand) (core : Nat) : State :=
  { s with booked := Map.put s.booked c.gid { core := core, need := needRes s c.n c.crew (clusterOf core) } }

/-- Places a chosen crew: at once where a core has room; else what it needs is reserved there, and H crews are evicted, or the crews
that borrow the cluster pre-empted. -/
def dispatchCand (s : State) (c : Cand) (d : Map Nat) : State :=
  match chooseCore s c.gid c.grid c.cores with
  | none => s
  | some k =>
    if fitsNow s c.n c.crew k then putCrew s c d k
    else if fitsCore s c.n c.crew k then (victimsFor s c.n c.crew k 64 []).foldl evictCrew (bookCore s c k)
    else preemptCrews (bookCore s c k) ((s.crews.filter (borrowed s (clusterOf k))).map (·.1))

/-- The crews of a G grid that are ready beside the one it reserves a core for: re-queued ones that can be restored, and the fresh one
that follows (R326). -/
def readyBeside (s : State) (gid : Nat) (g : Grid) : List (Nat × Crew × Bool) :=
  let rs := (requeuedOf s gid).filter fun p => (p.2.st == .saved || p.2.st == .evicted) && imageWhole s p.1 p.2
  let held := if Map.has s.booked gid then 1 else 0
  (rs.drop held).map (fun p => (p.1, p.2, false)) ++
    if g.next + (if rs.isEmpty then held else 0) < g.crews then [(s.nextCrew, freshCrew gid g g.next s.nextCrew, true)] else []

/-- Whether a ready G crew could use a core: no H crew is chosen for it before (R326 step 1). -/
def gClaims (s : State) (core : Nat) : Bool :=
  s.grids.any fun p => !bitOf p.2.desc.flags 0 && p.2.built && p.2.stopped.isNone && !p.2.done &&
    (readyBeside s p.1 p.2).any fun q => (candidateCores s q.1 q.2.1 p.2 q.2.2).contains core && fitsCore s q.1 q.2.1 core

/-- The H candidates, on the cores that no ready G crew could use. -/
def hCands (s : State) : List Cand :=
  ((candsOf s true).map fun c => { c with cores := c.cores.filter fun k => !gClaims s k }).filter fun c => !c.cores.isEmpty

/-- The crew that goes next, G before H (R326). -/
def dispatchChoice (s : State) : Option (Cand × Map Nat) :=
  let cs := candsOf s false
  chooseCand s (if cs.isEmpty then hCands s else cs)

/-- CREW_DISPATCH (R326, R327): Mulberry chooses the next crew and places it. -/
def execCrewDispatch (s : State) : Outcome State Fault Refusal :=
  let s := { s with free := s.free + 1 }
  match dispatchChoice s with
  | some (c, d) => .next (dispatchCand s c d)
  | none => .next s

/-- Whether the dispatch that comes next restores a crew on a core. -/
def resumesNext (s : State) (crew core : Nat) (c : Cand) : Bool :=
  c.n == crew && !c.fresh && chooseCore s c.gid c.grid c.cores == some core && fitsNow s c.n c.crew core

/-- CREW_RESUME (R335): a saved or evicted crew is restored, whole, on the core R327 gives it, once its operations have completed and
its turn has come (R326). -/
def execCrewResume (crew core : Nat) (s : State) : Outcome State Fault Refusal :=
  let t := { s with free := s.free + 1 }
  match dispatchChoice t with
  | some (c, d) => .next (if resumesNext t crew core c then putCrew t c d core else s)
  | none => .next s

/-! ## Time slices (R326 step 2) -/

/-- The pool partitions with a slice length, ascending. -/
def poolParts (s : State) : List Nat :=
  (s.vfs.filter fun v => (v.2.state == 1 || v.2.state == 2) && v.2.cfg.clusters == 0 && v.2.cfg.slice != 0).map (·.1)

/-- The partition whose slice follows. -/
def nextTurn (s : State) : Nat :=
  let ps := poolParts s
  ((ps.find? fun v => decide (s.poolTurn < v)).getD (ps.headD 0))

/-- TIME_SLICE_END (R326): the current pool partition's crews on the pool are pre-empted, and the next partition's slice begins. -/
def execTimeSliceEnd (s : State) : Outcome State Fault Refusal :=
  let out := (s.crews.filter fun p => p.2.st.present && crewVf s p.2 == s.poolTurn && !crewIsH s p.2 && poolPart s s.poolTurn).map (·.1)
  .next { preemptCrews s out with poolTurn := nextTurn s }

/-! ## Retirement and completion (R25, R26, R331) -/

/-- Writes back the dirty bytes of the dies that crews of a grid were stopped on (R323, R332): the lines on their way. -/
def flushDies (s : State) (dies : List Nat) : State × List (Nat × Nat) :=
  dies.foldl (fun r d => let q := startFlush r.1 d false; (q.1, r.2 ++ q.2.map fun l => (d, l))) (s, [])

/-- Completes a grid: the last chunks of its recording are written first (R413). Its stopped crews' dies are written back before: it
completes once that is acknowledged. -/
def finishGrid (s : State) (gid : Nat) : State :=
  match Map.find? s.grids gid with
  | some g =>
    let r := flushDies s g.dies
    let s := r.1.modGrid gid fun g => { g with dies := [], due := r.2 }
    if r.2.isEmpty then completeGrid (if g.depth = 0 then closeStreams s g.vf else s) gid else s
  | none => s

/-- Completes the first grid that is ready to. -/
def settleGrid (s : State) : Option State :=
  match List.find? (fun p : Nat × Grid => gridReady s p.1 p.2) s.grids with
  | some p => some (finishGrid s p.1)
  | none => none

/-- Whether a crew's threads have exited, its operations and stores are performed, and its children have completed. -/
def crewOver (s : State) (n : Nat) (w : Crew) : Bool :=
  w.st == .resident && (w.sheaves.all fun h => (liveLanes h).isEmpty) && w.children.isEmpty && !storesLeft s n w &&
    !(s.ops.any fun o => o.2.crew == n && match o.2.kind with | .recv .. => false | _ => true) && !engineDue s n

/-- The copies that fill a shared ring through a crew that retires go on through another that shares it (R118, R280). -/
def passCopies (s : State) (n : Nat) (w : Crew) : State :=
  { s with ops := s.ops.map fun p =>
      match p.2.kind with
      | .copy b ix f m v k sent (some (c, id, u)) =>
        if c != n then p
        else
          match List.find? (fun q => sharesRing n w (clusterOf w.core) id q && holdsRing id q) s.crews with
          | some q => (p.1, { p.2 with kind := .copy b ix f m v k sent (some (q.1, id, u)) })
          | none => p
      | _ => p }

/-- Frees a crew's core and adds its hashes to its grid's. -/
def retireCrew (s : State) (n : Nat) (w : Crew) (g : Grid) : State :=
  let s := passCopies (traceCore (dropCrewBuffers s n) g.vf w.core (TRec.ofCrew 2 w.grid g w)) n w
  let mine := (s.ops.filter fun o => o.2.crew == n).map (·.1)
  let s := { s with crews := Map.del s.crews n, ops := s.ops.filter fun o => o.2.crew != n }
  let s := s.modCore w.core fun k => { k with recvs := k.recvs.filter fun i => !mine.contains i }
  s.modGrid w.grid fun g => { g with retired := g.retired + 1, hash := g.hash ^^^ exitedHash [w] }

/-- CREW_RETIRE (R25, R331): a crew whose threads have exited and whose children have completed retires, as a release at dev scope;
a grid whose crews have all retired completes. -/
def execCrewRetire (crew : Nat) (s : State) : Outcome State Fault Refusal :=
  let s := match s.gridOf crew with
    | some (w, g) =>
      if crewOver s crew w then
        let r := startFlush s (dieOf w.core) false
        if r.2.isEmpty then retireCrew r.1 crew w g else r.1
      else s
    | none => s
  .next ((settleGrid s).getD s)

end Sys2Proof.Machine
end

