-- ==== Sys2Proof/Machine/Paging.lean ====
section
/-! DEFINITION. Invalidation, the fault queues, frames, reclaim and page moves (15_translation.md R346 to R362; 17_trust.md
R400). -/

namespace Sys2Proof.Machine

open Host (Outcome)

/-! ## Invalidation (R346, R347, Table 15.5) -/

/-- Whether a command covers a translation: a partition's by process and VA, the hypervisor's by VF and GPA. -/
def Tlbi.covers (t : Tlbi) (vf : Nat) (e : TlbEntry) : Bool :=
  if vf = 0 then
    t.scope == 2 || (e.vf == t.who && (t.scope == 1 ||
      (e.gpa :: e.gpas).any fun g => decide (t.first ≤ g / 65536 ∧ g / 65536 < t.first + t.pages)))
  else
    e.vf == vf && (t.scope == 2 || (e.proc == t.who && (t.scope == 1 || decide (t.first ≤ e.page ∧ e.page < t.first + t.pages))))

/-- Whether a command covers an entry of BD's walk caches: one that maps an address it covers, or, for the hypervisor's, a
stage-1 entry that lies at a GPA it covers. -/
def Tlbi.coversWalk (t : Tlbi) (vf : Nat) (e : WalkEntry) : Bool :=
  let within (a n : Nat) : Bool := decide (t.first * 65536 < a + n ∧ a < (t.first + t.pages) * 65536)
  if vf = 0 then
    t.scope == 2 || (e.vf == t.who && (t.scope == 1 || if e.stage2 then within e.base e.size else within e.gpa 1))
  else
    e.vf == vf && !e.stage2 && (t.scope == 2 || (e.proc == t.who && (t.scope == 1 || within e.base e.size)))

/-- Whether a command may cover an access of a grid: the hypervisor's is taken to cover every access of its VF, since an
access in flight no longer names its GPA. -/
def Tlbi.coversAcc (t : Tlbi) (vf : Nat) (g : Grid) (a : Acc) : Bool :=
  a.space == .generic &&
    (if vf = 0 then t.scope == 2 || g.vf == t.who
     else
       g.vf == vf && (t.scope == 2 ||
         (g.proc == t.who && (t.scope == 1 || decide (t.first ≤ a.addr / 65536 ∧ a.addr / 65536 < t.first + t.pages)))))

/-- Whether a command may cover any of a grid's accesses. -/
def Tlbi.coversAny (s : State) (t : Tlbi) (vf gid : Nat) (as : List Acc) : Bool :=
  match Map.find? s.grids gid with
  | some g => as.any fun a => t.coversAcc vf g a
  | none => false

/-- The stores that the open regions of the crews hold. -/
def heldStores (s : State) : List StoreEntry :=
  s.crews.flatMap fun p => p.2.groups.flatMap fun g => g.2.regions.flatMap fun r => r.held

/-- The stores of the cores' orders. -/
def queuedStores (s : State) : List StoreEntry := s.cores.flatMap fun p => p.2.storeQ

/-- Whether an operation has a request at a peer. -/
def Op.atPeer (s : State) (n : Nat) : Bool := s.trackers.any fun t => t.2.op == some n

/-- Starts a command: the translations it covers leave every TLB, and the accesses that used one are noted. -/
def startTlbi (s : State) (vf : Nat) (t : Tlbi) : State × Tlbi :=
  let keep (es : List TlbEntry) : List TlbEntry := es.filter fun e => !t.covers vf e
  let ops := (s.ops.filter fun p => t.coversAny s vf p.2.grid p.2.accs || (p.2.isCopy && Op.atPeer s p.1)).map fun p => p.1
  let born := ((heldStores s).filter fun e => t.coversAny s vf e.grid e.accs).map fun e => e.born
  let seqs := ((queuedStores s).filter fun e => t.coversAny s vf e.grid e.accs).map fun e => e.seq
  let cmds := (s.trackers.filterMap fun p => p.2.cmd).filter fun k => if vf = 0 then t.scope == 2 || k.1 == t.who else k.1 == vf
  ({ s with cores := s.cores.map fun p => (p.1, { p.2 with tlb := keep p.2.tlb })
            ctlb := s.ctlb.map fun p => (p.1, keep p.2)
            walks := s.walks.filter fun e => !t.coversWalk vf e },
   { t with busy := true, err := false, fills := s.cores.flatMap fun p => p.2.fills.map fun k => (p.1, k), ops := ops, born := born, seqs := seqs, cmds := cmds, flush := none })

/-- The invalidation registers of a VF, or with 0 the hypervisor's. -/
def State.tlbi (s : State) (vf : Nat) : Tlbi := if vf = 0 then s.htlbi else (s.vf vf).tlbi

/-- Sets the invalidation registers of a VF, or with 0 the hypervisor's. -/
def State.putTlbi (s : State) (vf : Nat) (t : Tlbi) : State :=
  if vf = 0 then { s with htlbi := t } else s.modVf vf fun v => { v with tlbi := t }

/-- The writable bits of the control word (Table 15.5). -/
def tlbicMask (vf : Nat) : Nat := if vf = 0 then 0x0FFC0000 else 0x00FC0000

/-- A write of TLBIC or HTLBIC (R347): the fields are taken; GO starts the command or is refused. -/
def writeTlbic (s : State) (vf : Nat) (x : Word) : State :=
  let t := { s.tlbi vf with ctl := x &&& word (tlbicMask vf) }
  if !x.getLsbD 31 then s.putTlbi vf t
  else
    let scope := bitsOf x.toNat 19 18
    if t.busy || scope == 3 || (scope == 0 && t.n == 0) then s.putTlbi vf { t with err := true }
    else
      let t := { t with scope := scope, who := bitsOf x.toNat (if vf = 0 then 27 else 23) 20, first := t.addr.toNat / 65536,
                        pages := t.n.toNat }
      let r := startTlbi s vf t
      r.1.putTlbi vf r.2

/-- A control word with GO. -/
def tlbicWord (scope who : Nat) : Word := word (2 ^ 31 + scope * 2 ^ 18 + who * 2 ^ 20)

/-- TLBI_RANGE (R347). -/
def execTlbiRange (vf proc : Nat) (s : State) : Outcome State Fault Refusal := .next (writeTlbic s vf (tlbicWord 0 (proc % 16)))

/-- TLBI_PROCESS (R347). -/
def execTlbiProcess (vf proc : Nat) (s : State) : Outcome State Fault Refusal := .next (writeTlbic s vf (tlbicWord 1 (proc % 16)))

/-- TLBI_PARTITION (R347). -/
def execTlbiPartition (vf : Nat) (s : State) : Outcome State Fault Refusal := .next (writeTlbic s vf (tlbicWord 2 0))

/-- HTLBI_RANGE (R347). -/
def execHtlbiRange (vf : Nat) (s : State) : Outcome State Fault Refusal := .next (writeTlbic s 0 (tlbicWord 0 (vf % 256)))

/-- HTLBI_VF (R347). -/
def execHtlbiVf (vf : Nat) (s : State) : Outcome State Fault Refusal := .next (writeTlbic s 0 (tlbicWord 1 (vf % 256)))

/-- HTLBI_ALL_VFS (R347). -/
def execHtlbiAllVfs (s : State) : Outcome State Fault Refusal := .next (writeTlbic s 0 (tlbicWord 2 0))

/-- Whether every access that used a covered translation has been performed or dropped, and every line that was on its way to an L1 has
landed. -/
def tlbiDrained (s : State) (t : Tlbi) : Bool :=
  !(t.cmds.any fun k => cmdAway s k) && !(t.fills.any fun p => (s.core p.1).fills.contains p.2) && !(t.ops.any fun n => Map.has s.ops n) && !((heldStores s).any fun e => t.born.contains e.born) &&
    !((queuedStores s).any fun e => t.seqs.contains e.seq || t.born.contains e.born)

/-- Whether a line is of the VFs whose lines a command writes back. -/
def Tlbi.ofVf (t : Tlbi) (vf : Nat) (l : L1Line) : Bool := if vf = 0 then t.scope == 2 || l.vf == t.who else l.vf == vf

/-- The L1 lines that a command writes back: core and key. -/
def tlbiLines (s : State) (vf : Nat) (t : Tlbi) : List (Nat × Nat) :=
  s.cores.flatMap fun p => (p.2.l1.filter fun l => t.ofVf vf l.2).map fun l => (p.1, l.1)

/-- Asks every peer that can be reached to write back and invalidate the lines it holds of this device's memory; none while
no tracker is free. -/
def flushPeers (s : State) : Option State :=
  s.fdev.foldl (fun (o : Option State) p =>
    match o with
    | none => none
    | some s =>
      if p.2.toNat = 0 then some s
      else
        match request s p.1 0 false { device := p.1, port := 0, op := none, line := none, acc := none } none fun i => .flushReq i with
        | .ok s => some s
        | .error .busy => none
        | .error _ => some s) (some s)

/-- Starts the write-backs that a command waits for; the hypervisor's also takes the lines out of the L1s, here and at the
peers. -/
def flushTlbi (s : State) (vf : Nat) (t : Tlbi) : State × Tlbi :=
  let ls := tlbiLines s vf t
  let ask (s : State) : State × Tlbi := (s, { t with flush := some (s.wbufs.map fun w => (w.die, w.line)) })
  if vf = 0 then
    match flushPeers (ls.foldl (fun s p => dropLine s p.1 p.2) s) with
    | some s => ask s
    | none => (s, t)
  else ask (ls.foldl (fun s p => cleanLine s p.1 p.2) s)

/-- Whether the write-backs a command waits for are acknowledged, and no peer still answers it. -/
def tlbiFlushed (s : State) (vf : Nat) (ls : List (Nat × Nat)) : Bool :=
  !(s.wbufs.any fun w => ls.contains (w.die, w.line)) &&
    !(vf == 0 && s.trackers.any fun t => t.2.op.isNone && t.2.line.isNone && t.2.acc.isNone && t.2.cmd.isNone)

/-- TLBI_COMPLETE (R346, R347): a command completes once no cache holds a translation it covers and every access that used
one is performed at dev scope; `vf` 0 is the hypervisor's. -/
def execTlbiComplete (vf : Nat) (s : State) : Outcome State Fault Refusal :=
  let t := s.tlbi vf
  if !t.busy || !tlbiDrained s t then .next s
  else
    match t.flush with
    | none =>
      let r := flushTlbi s vf t
      .next (r.1.putTlbi vf r.2)
    | some ls => .next (if tlbiFlushed s vf ls then s.putTlbi vf { t with busy := false, flush := none } else s)

/-! ## Fault records (R350, R351, Table 15.4) -/

/-- The 64 bytes of a record with its place in the queue's count. -/
def FRec.bytes (r : FRec) (sequence : Nat) : List Byte :=
  let head := bytesOf 1 r.kind ++ bytesOf 1 r.flags ++ bytesOf 2 r.cause ++ bytesOf 2 r.vf ++ bytesOf 2 r.count ++
    bytesOf 4 r.batch ++ bytesOf 4 sequence
  if r.kind = 2 then
    head ++ (List.range 6).flatMap fun i => bytesOf 8 ((r.pages[i]?).getD 0).toNat
  else
    head ++ bytesOf 8 r.grid ++ bytesOf 4 r.crew ++ bytesOf 2 r.sheaf ++ bytesOf 2 r.core ++ bytesOf 8 r.va.toNat ++
      bytesOf 8 r.gpa.toNat ++ bytesOf 8 r.clause.toNat ++ bytesOf 8 r.index

/-- The records a fault queue's ring has room for. -/
def FaultQ.room (q : FaultQ) : Nat := 2 ^ bitsOf q.ctl.toNat 3 0 - (q.tail - q.head).toNat

/-- Writes records at the tail. -/
def writeRecs (m : Memory) (q : FaultQ) (rs : List FRec) : Memory × FaultQ :=
  match rs with
  | [] => (m, q)
  | r :: rest =>
    let at_ := q.base.toNat / 64 * 64 + 64 * (q.tail.toNat % 2 ^ bitsOf q.ctl.toNat 3 0)
    writeRecs (Memory.writeN m at_ (r.bytes q.written)) { q with tail := q.tail + 1, written := (q.written + 1) % 2 ^ 32 } rest

/-- The fault queue of a VF, or with 0 the hypervisor's. -/
def State.faultQ (s : State) (vf : Nat) : FaultQ := if vf = 0 then s.hfq else (s.vf vf).fq

/-- Sets the fault queue of a VF, or with 0 the hypervisor's. -/
def State.putFaultQ (s : State) (vf : Nat) (q : FaultQ) : State :=
  if vf = 0 then { s with hfq := q } else s.modVf vf fun v => { v with fq := q }

/-- FAULT_RECORD_WRITE (R350, R351): the records of the oldest part that waits are written, where all of them fit, the tail
advances once after the last, and the management vector is sent. -/
def execFaultRecordWrite (vf : Nat) (s : State) : Outcome State Fault Refusal :=
  let q := s.faultQ vf
  match q.waiting with
  | [] => .next s
  | rs :: rest =>
    if !q.ctl.getLsbD 16 || q.room < rs.length then .next s
    else
      let r := writeRecs s.host q rs
      .next (sendMsi ({ s with host := r.1 }.putFaultQ vf { r.2 with waiting := rest }) vf 0)

/-! ## Answers (R353) -/

/-- The cause a failing answer names. -/
def answerCause (code : Nat) : Option Cause :=
  if code = 0x080 then some .pageAbsent else if code = 0x081 then some .pageRights
  else if code = 0x082 then some .stage2Absent else none

/-- Lets what a served batch halted go on: the group re-executes its instruction, a copy goes on from its progress. -/
def resumeBatch (s : State) (key : Nat) (b : Batch) : State :=
  let s := { s with batches := Map.del s.batches key }
  match b.group, b.op with
  | some g, _ => s.modGroup b.crew g fun g => if g.wait == .fault key then { g with wait := .none } else g
  | none, some n => { s with ops := Map.mod s.ops n fun o => if o.batch == some key then { o with batch := none } else o }
  | none, none => s

/-- Ends a grid as failed with the cause an answer names (R353, R333). -/
def failBatch (s : State) (b : Batch) (c : Cause) : State := stopCrews (s.modGrid b.grid fun g => g.stop .failed c) b.grid

/-- An answer to one part of a batch. -/
def answerPart (s : State) (vf id cause : Nat) (second : Bool) : State :=
  let key := batchKey vf (word id)
  match Map.find? s.batches key with
  | none => s
  | some b =>
    if !(if second then b.part2 else b.part1) then s
    else if cause = 0 then
      let b := if second then { b with part2 := false } else { b with part1 := false }
      if b.part1 || b.part2 then { s with batches := Map.put s.batches key b } else resumeBatch s key b
    else
      match answerCause cause with
      | some c => failBatch s b c
      | none => s

/-- FRESUME (R353): a partition driver answers the stage-1 part of a batch. -/
def execFresume (vf : Nat) (x : Dword) (s : State) : Outcome State Fault Refusal :=
  .next (answerPart s vf (bitsOf x.toNat 31 0) (bitsOf x.toNat 40 32) false)

/-- HRESUME (R353, R355): the hypervisor answers a stage-2 part, or a notice of a fault in a walk. -/
def execHresume (x : Dword) (s : State) : Outcome State Fault Refusal :=
  .next (answerPart s (bitsOf x.toNat 55 48) (bitsOf x.toNat 31 0) (bitsOf x.toNat 40 32) true)

/-! ## Frames and reclaim (R357 to R360) -/

/-- The frames of HBM. -/
def frameCount : Nat := 12582912

/-- A frame's entry. -/
def State.frame (s : State) (f : Nat) : FrameInfo := Map.get s.frames f { owner := 0, pin := false, pins := 0, accessed := false }

/-- Whether a frame is pinned, by FOWN or by an extent. -/
def FrameInfo.pinned (i : FrameInfo) : Bool := i.pin || i.pins != 0

/-- HELDv: the frames a VF owns. -/
def heldFrames (s : State) (vf : Nat) : Nat := if vf = 0 then 0 else (s.frames.filter fun p => p.2.owner == vf).length

/-- Writes the L2 lines of a frame back, and drops them. -/
def spillFrame (s : State) (vf f : Nat) : State :=
  (List.range 256).foldl (fun s i =>
    match l2Find s vf (65536 * f + 256 * i) with
    | none => s
    | some l =>
      let k := sliceOf (s.vf vf).cfg (256 * l.line)
      let s := spillLine s k vf l
      s.modSlice k fun z => { z with lines := z.lines.map fun p => (p.1, p.2.filter fun m => m.line != l.line) }) s

/-- FOWN (R358): assigns, moves or frees a frame, which keeps its bytes (16_partitions.md R369). -/
def execFown (x : Dword) (s : State) : Outcome State Fault Refusal :=
  let f := bitsOf x.toNat 23 0
  let vf := bitsOf x.toNat 31 24
  let i := s.frame f
  if frameCount ≤ f || (i.owner != vf && (i.pinned || (vf != 0 && decide ((s.vf vf).bframe.toNat ≤ heldFrames s vf)))) then
    .next { s with fstat := true }
  else
    let s := if i.owner = 0 ∨ i.owner = vf then s else spillFrame s i.owner f
    .next { s with fstat := false
                   frames := Map.put s.frames f
                     { owner := vf, pin := x.getLsbD 32, pins := i.pins, accessed := if vf = 0 then i.accessed else false } }

/-- The guarantee reclaim keeps for a VF (R359, 16_partitions.md R376). -/
def reclaimFloor (s : State) (vf : Nat) : Nat := if (s.vf vf).demoted then 0 else (s.vf vf).gframe.toNat

/-- The frames of a VF that a sweep has proposed. -/
def proposedOf (s : State) (vf : Nat) : Nat := (s.rcVict.filter fun f => (s.frame f).owner == vf).length

/-- The VF that gives the next victim: the largest number of frames above its guarantee. -/
def reclaimVf (s : State) (dropped : List Nat) : Option Nat :=
  let over_ (v : Nat) : Nat := heldFrames s v - proposedOf s v - reclaimFloor s v
  mostBy over_ (ascending ((dedup (s.frames.map fun p => p.2.owner)).filter fun v =>
    v != 0 && !dropped.contains v && decide (0 < over_ v)))

/-- The frames of a VF in the order the hand passes them. -/
def handOrder (s : State) (vf : Nat) : List Nat :=
  let fs := (s.frames.filter fun p => p.2.owner == vf).map fun p => p.1
  (fs.filter fun f => decide ((s.vf vf).hand < f)) ++ fs.filter fun f => decide (f ≤ (s.vf vf).hand)

/-- Passes the hand over frames until one is proposed. -/
def passHand (s : State) (vf : Nat) (fs : List Nat) : State × Bool :=
  match fs with
  | [] => (s, false)
  | f :: rest =>
    let s := s.modVf vf fun v => { v with hand := f }
    let i := s.frame f
    if i.pinned then passHand s vf rest
    else if i.accessed then passHand { s with frames := Map.put s.frames f { i with accessed := false } } vf rest
    else ({ s with rcVict := s.rcVict ++ [f] }, true)

/-- Chooses victims (R360). -/
def sweep (s : State) (fuel : Nat) (dropped : List Nat) : State :=
  match fuel with
  | 0 => s
  | fuel + 1 =>
    if s.rcWanted ≤ s.rcVict.length then s
    else
      match reclaimVf s dropped with
      | none => s
      | some v =>
        let fs := handOrder s v
        match passHand s v (fs ++ fs) with
        | (s, true) => sweep s fuel dropped
        | (s, false) => sweep s fuel (v :: dropped)

/-- RECLAIM_SWEEP (R360): a write of RCREQ starts a sweep of 1 to 4096 frames. -/
def execReclaimSweep (n : Word) (s : State) : Outcome State Fault Refusal :=
  if s.rcstat.getLsbD 31 || n.toNat = 0 || 4096 < n.toNat then .next s
  else .next { s with rcstat := word (2 ^ 31), rcWanted := n.toNat, rcVict := [] }

/-- RECLAIM_SWEEP_END (R360): the frame numbers are written to the victim buffer, then the count with busy clear. -/
def execReclaimSweepEnd (s : State) : Outcome State Fault Refusal :=
  if !s.rcstat.getLsbD 31 then .next s
  else
    let s := sweep s (s.rcWanted + 256) []
    .next { s with host := Memory.writeN s.host (s.rcbuf.toNat / 64 * 64) (s.rcVict.flatMap fun f => bytesOf 4 f)
                   rcstat := word s.rcVict.length, rcWanted := 0, rcVict := [] }

/-! ## Page moves (R362, R400) -/

/-- Direction of a move: 0 frame to frame, 1 frame to store, 2 store to frame. -/
def PMove.dir (m : PMove) : Nat := bitsOf m.ctl.toNat 1 0

/-- The trailer slot of a move. -/
def PMove.slot (m : PMove) : Nat := bitsOf m.ctl.toNat 27 4

/-- The frame a move reads or, from store, writes. -/
def PMove.frame (m : PMove) : Nat := if m.dir = 2 then m.dst.toNat else m.src.toNat

/-- The address in store of a move. -/
def PMove.storeAt (m : PMove) : Nat := if m.dir = 2 then m.src.toNat else m.dst.toNat

/-- Whether a move is refused (R362): also a frame or store address that does not exist (assumption 15). -/
def PMove.refused (s : State) (m : PMove) : Bool :=
  let bad (f : Nat) : Bool := decide (frameCount ≤ f) || (s.frame f).pinned
  match m.dir with
  | 0 => bad m.src.toNat || bad m.dst.toNat || (s.frame m.src.toNat).owner != (s.frame m.dst.toNat).owner
  | 3 => true
  | _ => bad m.frame || decide (m.storeAt % 65536 ≠ 0) || decide ((s.vf (s.frame m.frame).owner).swtrlN.toNat ≤ m.slot)

/-- Holds PMSRC, PMDST and the fields of PMCTL. -/
def holdMove (s : State) (m : PMove) : State :=
  { s with pf := { s.pf with regs := Map.put (Map.put (Map.put s.pf.regs 0x200220 m.src) 0x200228 m.dst) 0x200230
                                       (dword (m.ctl.toNat &&& 0x0FFFFFF3)) } }

/-- Starts a page move, or refuses it. -/
def startMove (s : State) (m : PMove) : State :=
  let s := holdMove s m
  if !m.ctl.getLsbD 31 || s.pmove.isSome then s
  else if m.refused s then { s with pmstat := 1 }
  else { s with pmstat := 0, pmove := some { m with born := s.seq }, seq := s.seq + 1 }

/-- PAGE_MOVE_FRAME (R362): a write of PMCTL with GO and direction 0. -/
def execPageMoveFrame (src dst : Dword) (ctl : Word) (s : State) : Outcome State Fault Refusal :=
  .next (if bitsOf ctl.toNat 1 0 = 0 then startMove s { src := src, dst := dst, ctl := ctl } else s)

/-- PAGE_MOVE_TO_STORE (R362, R400): a write of PMCTL with GO and direction 1. -/
def execPageMoveToStore (src dst : Dword) (ctl : Word) (s : State) : Outcome State Fault Refusal :=
  .next (if bitsOf ctl.toNat 1 0 = 1 then startMove s { src := src, dst := dst, ctl := ctl } else s)

/-- PAGE_MOVE_FROM_STORE (R362, R400): a write of PMCTL with GO and direction 2. -/
def execPageMoveFromStore (src dst : Dword) (ctl : Word) (s : State) : Outcome State Fault Refusal :=
  .next (if bitsOf ctl.toNat 1 0 = 2 then startMove s { src := src, dst := dst, ctl := ctl } else s)

/-- Set and mixed bit of every stage-2 leaf, present or not, that names a physical address. -/
def namingLeaves (s : State) (vf pa : Nat) (lvs : List (Nat × Nat × Nat)) (table : Nat) : List (OSet × Bool) :=
  match lvs with
  | [] => []
  | lv :: rest =>
    (List.range (2 ^ lv.2.2)).flatMap fun i =>
      match readEntry s vf (table + 8 * i) with
      | .error _ => []
      | .ok e =>
        if bitOf e 1 then
          (if bitsOf e 15 9 = 0 ∧ entryBase e ≤ pa ∧ pa < entryBase e + 2 ^ lv.2.1 then [(bitsOf e 61 52, bitOf e 8)] else [])
        else if bitOf e 0 then namingLeaves s vf pa rest (entryBase e)
        else []

/-- The set and mixed bit of a frame's page: that of a leaf that names it, whether or not it is present still (R361 clears P
before the move); a frame no leaf names keeps a set per line (assumption 10). -/
def frameRule (s : State) (vf f : Nat) : OSet × Bool :=
  ((namingLeaves s vf (65536 * f) walkLevels ((s.vf vf).s2root.toNat / 65536 * 65536)).head?).getD (0, true)

/-- The sets of a mixed frame's lines. -/
def frameSets (s : State) (f : Nat) (d : OSet) : List OSet := (List.range 256).map fun i => lineSet s (65536 * f + 256 * i) d

/-- Gives the lines of a frame their sets. -/
def putFrameSets (s : State) (f : Nat) (us : List OSet) : State :=
  { s with lineS := (us.zip (List.range us.length)).foldl (fun m p => Map.put m (256 * f + p.2) p.1) s.lineS }

/-- The set against which a move to store is checked (R400): the join of the frame's sets with the principal of the frame's VF removed. A
retired set stays as it is, and so does one whose rest finds no free entry (assumption 53). -/
def storeSet (s : State) (vf : Nat) (y : OSet) : OSet × Map OEntry :=
  let e := osEntry s.osets y
  match e.retired, (s.vf vf).principal with
  | false, some p =>
    match osMake s.osets ((e.prins.filter (· != p)).map fun q => q.toNat) with
    | .ok r => r
    | .error _ => (y, s.osets)
  | _, _ => (y, s.osets)

/-- The gate check of a move to store (R400): the principal of the frame's VF counts for nothing, and the destination is
class 1. -/
def storeGate (s : State) (gate vf : Nat) (y : OSet) : Option State :=
  let e := osEntry s.osets y
  let xs := match (s.vf vf).principal with
    | some p => e.prins.filter (· != p)
    | none => e.prins
  if e.retired || !Map.has s.osets y then none
  else if xs = [] then some s
  else
    match passSlot (Map.get s.gates gate []) s.gtime 65536 xs (.cls 1) with
    | none => none
    | some i =>
      some { s with gates := Map.put s.gates gate
                      (Map.mod (Map.get s.gates gate []) i fun p => { p with budget := p.budget - 65536 }) }

/-- The bytes that a seal holds beside the frame: the page's set and mixed flag, and the sets of 256 lines. -/
def sealedSets (r : OSet × Bool) (us : List OSet) : List Byte :=
  bytesOf 2 (r.1 + (if r.2 then 2 ^ 15 else 0)) ++ us.flatMap fun u => bytesOf 2 u

/-- The associated data of a seal (R400). -/
def sealAad (vf : Nat) (m : PMove) : List Byte := bytesOf 2 vf ++ bytesOf 8 m.storeAt ++ bytesOf 4 m.slot

/-- The port whose gate a move to store passes: one that carries traffic (assumption 10). -/
def storePort (s : State) : Option Nat :=
  match usablePorts s with
  | [] => none
  | p :: rest => (p :: rest)[Config.route 0 s.free % (rest.length + 1)]?

/-- Seals a frame into store, its trailer into its slot (R400). -/
def sealOut (s : State) (m : PMove) (vf : Nat) (r : OSet × Bool) (us : List OSet) : State :=
  let v := s.vf vf
  let nonce := bytesOf 12 v.swapCtr
  let out := Config.gcmSeal v.swapKey nonce (sealAad vf m) (memBytes s vf (65536 * m.frame) 65536 ++ sealedSets r us)
  let trailer := nonce ++ bytesAt out.2 0 16 ++ bytesAt out.1 65536 514
  let s := s.modVf vf fun v => { v with swapCtr := v.swapCtr + 1 }
  { s with store := Memory.writeN s.store m.storeAt (bytesAt out.1 0 65536)
           host := Memory.writeN s.host (v.swtrl.toNat / 65536 * 65536 + 1024 * m.slot)
             (trailer ++ List.replicate (1024 - trailer.length) 0) }

/-- A move to store (R400): what it sends passes a gate sealed, or it is denied. -/
def moveOut (s : State) (m : PMove) : State :=
  let vf := (s.frame m.frame).owner
  let r := frameRule s vf m.frame
  let us := if r.2 then frameSets s m.frame r.1 else List.replicate 256 0
  match storePort s, osJoinAll s.osets r.1 us with
  | some p, .ok (y, t) =>
    match storeGate { s with osets := t } p vf y with
    | some s => sealOut { s with free := s.free + 1 } m vf r us
    | none =>
      let d := storeSet { s with osets := t } vf y
      { ({ s with osets := d.2 }.notice vf .egressDenied (denialRec FRec.init p d.1 (.cls 1))) with pmstat := 1 }
  | _, _ => { s with pmstat := 1 }

/-- A move from store (R400): the seal is verified before a byte is written, and the sets come back. -/
def moveIn (s : State) (m : PMove) : State :=
  let vf := (s.frame m.frame).owner
  let v := s.vf vf
  let tr := Memory.readN s.host (v.swtrl.toNat / 65536 * 65536 + 1024 * m.slot) 1024
  match Config.gcmOpen v.swapKey (bytesAt tr 0 12) (sealAad vf m) (Memory.readN s.store m.storeAt 65536 ++ bytesAt tr 28 514)
      (bytesAt tr 12 16) with
  | none => { s with pmstat := s.pmstat ||| 2 }
  | some bs =>
    let s := memPuts s vf (65536 * m.frame) (bytesAt bs 0 65536)
    if bitOf (fieldAt bs 65536 2) 15 then
      putFrameSets s m.frame ((List.range 256).map fun i => fieldAt bs (65538 + 2 * i) 2 % 1024)
    else s

/-- A move from frame to frame (R362): the sets of a mixed frame's lines travel with it. -/
def moveFrame (s : State) (m : PMove) : State :=
  let vf := (s.frame m.frame).owner
  let r := frameRule s vf m.frame
  let us := frameSets s m.frame r.1
  let s := memPuts s vf (65536 * m.dst.toNat) (memBytes s vf (65536 * m.frame) 65536)
  if r.2 then putFrameSets s m.dst.toNat us else s

/-- What PAGE_MOVE_DONE does (R362, R400): the move in progress completes, once its turn at the copy engine has come (R317). -/
def pageMoveDone (s : State) : Outcome State Fault Refusal :=
  match s.pmove with
  | none => .next s
  | some m =>
    if !moveTurn s m then .next s
    else
    let s := { s with pmove := none }
    .next (match m.dir with
      | 0 => moveFrame s m
      | 1 => moveOut s m
      | _ => moveIn s m)

end Sys2Proof.Machine
end

