-- ==== Sys2Proof/Machine/Partition.lean ====
section
/-! DEFINITION. Partition commands, admission, units that leave service, and fences (16_partitions.md R363 to R376;
19_platform.md R422 to R424). -/

namespace Sys2Proof.Machine

open Host (Outcome)

/-! ## Units in service and guaranteed sums (R374) -/

/-- The state of a chiplet. -/
def State.chiplet (s : State) (c : Nat) : Chiplet := Map.get s.chiplets c Chiplet.init

/-- The code of a chiplet state (Table 17.2). -/
def ChSt.code : ChSt → Nat
  | .dark => 0
  | .identified => 1
  | .attested => 2
  | .keyed => 3
  | .live => 4
  | .quarantined => 5

/-- The state of a chiplet as it reads: BD is Live once it has checked itself (R381). -/
def chipState (s : State) (c : Nat) : ChSt :=
  if c = 0 ∧ (s.chiplet 0).st ≠ .quarantined then (if s.bdDown then .dark else .live) else (s.chiplet c).st

/-- Whether an HBM stack is in service: its chiplet is Live (17_trust.md Table 17.1). -/
def stackUp (s : State) (k : Nat) : Bool := (s.chiplet (13 + k)).st == .live

/-- The frames in service: 1,048,576 for each stack in service (Example 16.2). -/
def framesUp (s : State) : Nat := 1048576 * ((List.range 12).filter fun k => stackUp s k).length

/-- Whether a channel is in service. -/
def channelUp (s : State) (c : Nat) : Bool := stackUp s (c / 32) && (Map.get s.channelU c UnitSt.init).up

/-- The VFs whose partitions are guaranteed. -/
def guaranteedVfs (s : State) : List (Nat × Vf) := s.vfs.filter fun p => p.2.state == 1

/-- The sum of GFRAME over the guaranteed partitions. -/
def frameSum (s : State) : Nat := sumOf ((guaranteedVfs s).map fun p => p.2.gframe.toNat)

/-- The sum of the G shares of the guaranteed partitions, one and the same on every channel. -/
def shareSum (s : State) : Nat := sumOf ((guaranteedVfs s).map fun p => p.2.cfg.gShare)

/-- Whether every guaranteed sum stays within its capacity (R374). -/
def sumsFit (s : State) : Bool :=
  decide (frameSum s ≤ framesUp s) && (decide (shareSum s ≤ 64) || !(List.range 384).any fun c => channelUp s c)

/-- Demotes the guaranteed partitions of the highest stamps while a sum exceeds its capacity (R375, R376). -/
def demote (fuel : Nat) (s : State) : State :=
  match fuel with
  | 0 => s
  | fuel + 1 =>
    if sumsFit s then s
    else
      match mostBy (fun p : Nat × Vf => p.2.stamp) (guaranteedVfs s) with
      | none => s
      | some (v, _) =>
        demote fuel ((s.modVf v fun x => { x with state := 2, demoted := true }).notice v .guaranteeDeficit FRec.init)

/-- A partition left with no cluster becomes a pool partition without a slice length (R375 step 1). -/
def loseClusters (s : State) : State :=
  s.vfs.foldl (fun s p =>
    if p.2.state != 0 && p.2.cfg.clusters != 0 && (ownClusters s p.1).isEmpty then
      s.modVf p.1 fun v => { v with cfg := { v.cfg with clusters := 0, slice := 0 } }
    else s) s

/-- What follows when units have left service (R375 steps 3 to 6); while a command runs it waits for the command's end. -/
def recompute (s : State) : State :=
  if s.pcmd.go then s
  else
    let s := demote 256 (loseClusters s)
    { s with capGen := s.capGen + 2 }

/-- Pre-empts every crew that stands on some clusters (R424). -/
def clearClusters (s : State) (cs : List Nat) : State :=
  preemptCrews s ((s.crews.filter fun p => cs.contains (clusterOf p.2.core) && p.2.st.present).map fun p => p.1)

/-! ## L2 lines of a slice -/

/-- Writes the dirty sectors of some lines of a slice back. -/
def spillLines (s : State) (k vf : Nat) (ls : List L2Line) : State :=
  ls.foldl (fun s l => spillLine s k vf l) s

/-- All lines of a slice. -/
def sliceLines (s : State) (k : Nat) : List L2Line := (s.slice k).lines.flatMap fun p => p.2

/-- Writes a slice's dirty sectors back and invalidates its lines. -/
def emptySlice (s : State) (k : Nat) : State :=
  (spillLines s k (Map.get s.sliceU k UnitSt.init).vf (sliceLines s k)).modSlice k fun z => { z with lines := [] }

/-! ## Data with uncorrectable errors (19_platform.md R422, R423) -/

/-- The VF that owns the frame of a 256 B line. -/
def lineOwner (s : State) (line : Nat) : Nat := (s.frame (line / 256)).owner

/-- Data found uncorrectable with no consumer (R423 step 3): a notice with the PA, and every running grid of the partition that
owns the line fails. -/
def loseData (s : State) (line : Nat) : State :=
  let vf := lineOwner s line
  let r := { FRec.init with gpa := dword (256 * line) }
  let s := s.notice vf .dataUncorrectable r
  if vf = 0 then s
  else ((s.grids.filter fun p => p.2.vf == vf && !p.2.done && p.2.stopped.isNone).map fun p => p.1).foldl (fun s g =>
    failGrid s g .dataUncorrectable r) s

/-- The slices that hold a line, with it. -/
def slicesWith (s : State) (line : Nat) : List Nat := (s.slices.filter fun p => p.2.lines.any fun q => q.2.any fun l => l.line == line).map fun p => p.1

/-- Takes a line out of the slices. -/
def dropL2 (s : State) (line : Nat) : State :=
  { s with slices := s.slices.map fun p => (p.1, { p.2 with lines := p.2.lines.map fun q => (q.1, q.2.filter fun l => l.line != line) }) }

/-- The older data that stands behind a line of HBM that is lost: free values (assumption 18). -/
def staleLine (s : State) (line : Nat) : State :=
  { s with hbm := Memory.writeN s.hbm (256 * line) ((List.range 256).map fun i => Config.lostByte s.free i), free := s.free + 1 }

/-- The island of the channel pair that holds a 256 B line of HBM. -/
def pairIsland (line : Nat) : Nat := 576 + channelOf (256 * line) / 2

/-- The islands that hold a line, in the L2 or in HBM. -/
def lineIslands (s : State) (l2 : Bool) (line : Nat) : List Nat :=
  if l2 then (slicesWith s line).map fun k => 320 + k else [pairIsland line]

/-- Loses a line's data that nothing consumes: the L2 line is dropped, or HBM is left with older data (R423 step 3). -/
def loseFlaw (s : State) (l2 : Bool) (line : Nat) : State :=
  let s := { s with flaws := s.flaws.filter fun f => f != (if l2 then .l2 line else .hbm line) }
  loseData (if l2 then dropL2 s line else staleLine s line) line

/-- The lines of an island that cannot be read (R424) are lost. -/
def loseFlaws (s : State) (i : Nat) : State :=
  s.flaws.foldl (fun s f =>
    match f with
    | .l2 line => if (lineIslands s true line).contains i then loseFlaw s true line else s
    | .hbm line => if pairIsland line = i then loseFlaw s false line else s
    | _ => s) s

/-! ## Fences (R424, Table 19.4) -/

/-- A record that names a unit to the hypervisor: the island's number stands in its VA (assumption 16). -/
def unitRec (island : Nat) : FRec := { FRec.init with va := dword island }

/-- Marks a unit fenced. -/
def fenceIn (m : Map UnitSt) (i : Nat) : Map UnitSt := Map.put m i { Map.get m i UnitSt.init with fen := true }

/-- Fences a cluster: its crews are pre-empted and re-queued. -/
def fenceCluster (s : State) (c : Nat) : State := clearClusters { s with clusters := fenceIn s.clusters c } [c]

/-- Fences a fabric port: what waits at it goes to the other ports that reach its peer (Table 19.4). -/
def fencePort (s : State) (p : Nat) : State :=
  let q := Map.get s.ports p Port.init
  let s := { s with ports := Map.put s.ports p { q with fen := true, queue := [] } }
  q.queue.foldl (fun s m =>
    match portFor s m.device with
    | some k => queueFrame s k { m with port := k }
    | none => s) s

/-- The chiplets all of whose units are fenced (Table 17.1): clusters, slices, channels, ports. -/
def wholeFenced (s : State) : List Nat :=
  let fen (m : Map UnitSt) (k : Nat) : Bool := (Map.get m k UnitSt.init).fen
  let all (n first : Nat) (f : Nat → Bool) : Bool := (List.range n).all fun i => f (first + i)
  ((List.range 2).filter fun d => all 32 (32 * d) (fen s.clusters)).map (1 + ·) ++
    ((List.range 8).filter fun d => all 32 (32 * d) (fen s.sliceU)).map (3 + ·) ++
    ((List.range 2).filter fun d => all 8 (8 * d) fun p => (Map.get s.ports p Port.init).fen).map (11 + ·) ++
    ((List.range 12).filter fun d => all 32 (32 * d) (fen s.channelU)).map (13 + ·)

/-- Notes the Live chiplets that are fenced whole, to be Quarantined (17_trust.md R384). -/
def noteWhole (s : State) : State :=
  let cs := (wholeFenced s).filter fun c => (s.chiplet c).st == .live
  { s with found := s.found ++ cs.map Found.whole }

/-- Fences an island (19_platform.md R424, R425; the fabric ports count on from 1024: assumption 16), posts UNIT_FENCED and recomputes the sums. -/
def fenceIsland (s : State) (i : Nat) : State :=
  let s := loseFlaws (s.notice 0 .unitFenced (unitRec i)) i
  let s :=
    if i < 256 then fenceCluster s (i / 4)
    else if i < 320 then fenceCluster s (i - 256)
    else if i < 576 then
      let s := emptySlice s (i - 320)
      { s with sliceU := fenceIn s.sliceU (i - 320) }
    else if i < 768 then { s with channelU := fenceIn (fenceIn s.channelU (2 * (i - 576))) (2 * (i - 576) + 1) }
    else if 1024 ≤ i then fencePort s (i - 1024)
    else fenceCluster { s with routerU := fenceIn s.routerU (i - 768) } ((i - 768) / 4)
  recompute (noteWhole s)

/-- Whether an island is fenced already. -/
def islandFenced (s : State) (i : Nat) : Bool :=
  let fen (m : Map UnitSt) (k : Nat) : Bool := (Map.get m k UnitSt.init).fen
  if i < 256 then fen s.clusters (i / 4)
  else if i < 320 then fen s.clusters (i - 256)
  else if i < 576 then fen s.sliceU (i - 320)
  else if i < 768 then fen s.channelU (2 * (i - 576))
  else if 1024 ≤ i then (Map.get s.ports (i - 1024) Port.init).fen
  else fen s.routerU (i - 768)

/-- Fences an island once. -/
def fenceOnce (s : State) (i : Nat) : State := if islandFenced s i then s else fenceIsland s i

/-! ## The descriptor (Table 16.7) -/

/-- The bytes of the descriptor. -/
def descBytes (s : State) : List Byte := Memory.readN s.host (s.pcmd.desc.toNat / 64 * 64) 512

/-- The configuration a descriptor gives. -/
def readCfg (b : List Byte) : PartCfg :=
  let n (i k : Nat) : Nat := fieldAt b i k
  { s := n 1 1, gWays := n 2 1, quotas := [n 3 1, n 4 1, n 5 1], harvest := bitOf (n 6 1) 0, lend := bitOf (n 6 1) 1,
    floor := n 7 1, clusters := dword (n 8 8), donors := dword (n 0x10 8), spill := dword (n 0x18 8), spillN := n 0x20 4,
    gShare := n 0x24 1, hCap := n 0x25 1, gDepth := n 0x26 1, hDepth := n 0x27 1, dieW := n 0x28 1, fabW := n 0x29 1,
    quota := n 0x2A 2, slice := n 0x2C 4, wdog := if n 0x30 1 = 0 then 24 else n 0x30 1, guar := n 0x31 1 == 1,
    admitted := bytesAt b 0x40 32, slices := (List.range (2 ^ min (n 1 1) 8)).map fun i => n (0x100 + i) 1 }

/-- Whether every field of a descriptor keeps its constraint. -/
def partOk (b : List Byte) (vf : Nat) (c : PartCfg) : Bool :=
  let n (i k : Nat) : Nat := fieldAt b i k
  let zero (i k : Nat) : Bool := (bytesAt b i k).all fun x => x == 0
  let within (x lo hi : Nat) : Bool := decide (lo ≤ x ∧ x ≤ hi)
  vf != 0 && n 0 1 == vf && decide (c.s ≤ 8) && within c.gWays 4 16 && decide (sumOf c.quotas ≤ c.gWays) &&
    decide (n 6 1 < 4) && decide (c.floor ≤ 62) && c.donors &&& ~~~c.clusters == 0 &&
    (if c.harvest then c.spill != 0 && c.spill.toNat % 65536 == 0 && decide (1 ≤ c.spillN) else c.spill == 0) &&
    decide (c.gShare ≤ 64) && decide (c.hCap ≤ 64) && decide (1 ≤ c.gDepth) && decide (1 ≤ c.hDepth) && decide (1 ≤ c.dieW) &&
    decide (1 ≤ c.fabW) && within c.quota 1 4096 && (if c.clusters == 0 then within c.slice 100 1000000 else c.slice == 0) &&
    within c.wdog 16 30 && decide (n 0x31 1 < 2) && zero 0x32 14 && n 0x40 1 % 2 == 0 && zero 0x60 160 &&
    zero (0x100 + 2 ^ c.s) (256 - 2 ^ c.s)

/-- The clusters of a mask. -/
def maskClusters (m : Dword) : List Nat := (List.range 64).filter fun c => m.getLsbD c

/-- Whether every unit named is in service and owned by nobody else. -/
def unitsFree (m : Map UnitSt) (vf : Nat) (us : List Nat) : Bool :=
  us.all fun u => let x := Map.get m u UnitSt.init; x.up && (x.vf == 0 || x.vf == vf)

/-- Whether a configuration would be admitted as guaranteed (R374). -/
def admits (s : State) (vf : Nat) (c : PartCfg) : Bool := sumsFit (s.modVf vf fun v => { v with state := 1, cfg := c })

/-- The status of a create or resize by its checks, in the order of Table 16.9. -/
def checkCmd (s : State) (vf : Nat) (create : Bool) (b : List Byte) (c : PartCfg) : Nat :=
  let st := (s.vf vf).state
  if create != (st == 0) then 2
  else if !unitsFree s.clusters vf (maskClusters c.clusters) then 3
  else if !(unitsFree s.sliceU vf c.slices && decide c.slices.Nodup) then 4
  else if (if create then c.guar else st == 1) && !admits s vf c then 5
  else if !partOk b vf c then 6
  else 0

/-! ## Taking and giving back units -/

/-- Gives units to a VF. -/
def ownUnits (m : Map UnitSt) (vf : Nat) (lend : Bool) (us : List Nat) : Map UnitSt :=
  us.foldl (fun m u => Map.put m u { Map.get m u UnitSt.init with vf := vf, lend := lend }) m

/-- The counter banks of units that change hands go back to their owners, but for the hypervisor's own (18_observation.md
R401). -/
def dropBanks (s : State) (kind : Nat) (us : List Nat) : State :=
  { s with banks := s.banks.filter fun b => b.kind != kind || b.holder == pfHolder || !us.contains b.unit }

/-- The cores of some clusters. -/
def coresOf (cs : List Nat) : List Nat := cs.flatMap fun c => (List.range 4).map fun i => 4 * c + i

/-- The clusters whose logical numbers a partition has: its own, or the pool's (assumption 17). -/
def placed (s : State) (c : PartCfg) : List Nat := maskClusters (if c.clusters == 0 then s.poolmask else c.clusters)

/-- A place table for some clusters: a cluster that has a place stays there, and a new one takes the lowest place that the table did not
have, in ascending order; so no place comes to name another cluster (R130, R131, assumption 17). -/
def placeTable (old : Map Nat) (us : List Nat) : Map Nat :=
  let stay := old.filter fun p => us.contains p.2
  let rest := us.filter fun u => !stay.any fun p => p.2 == u
  (((List.range 128).filter fun i => !Map.has old i).zip rest).foldl (fun m q => Map.put m q.1 q.2) stay

/-- The place table of the cores of some placed clusters. -/
def corePlaces (m : Map Nat) : Map Nat := m.flatMap fun p => (List.range 4).map fun i => (4 * p.1 + i, 4 * p.2 + i)

/-- Fills a partition's place tables, what stands in them staying where it is. -/
def fillPlaces (s : State) (vf : Nat) : State :=
  let cs := placed s (s.vf vf).cfg
  s.modVf vf fun v => let m := placeTable v.placeClu cs; { v with placeCore := corePlaces m, placeClu := m }

/-- The hypervisor fills or clears an entry of a partition's place tables, while no crew of the partition runs (R131). -/
def setPlace (s : State) (vf id : Nat) (cluster : Option Nat) : State :=
  if (s.vf vf).state = 0 ∨ 64 ≤ id ∨ s.crews.any (fun p => p.2.st == .resident && crewVf s p.2 == vf) then s
  else
    s.modVf vf fun v =>
      let m := match cluster with
        | some c => Map.put v.placeClu id (c % 64)
        | none => Map.del v.placeClu id
      { v with placeCore := corePlaces m, placeClu := m }

/-- Takes clusters and slices. -/
def takeUnits (s : State) (vf : Nat) (c : PartCfg) (cs ks : List Nat) : State :=
  let newC := cs.filter fun u => (s.cluster u).vf != vf
  let newK := ks.filter fun u => (Map.get s.sliceU u UnitSt.init).vf != vf
  let s := { s with clusters := ownUnits s.clusters vf c.lend cs, sliceU := ownUnits s.sliceU vf false ks }
  dropBanks (dropBanks s 1 (coresOf newC)) 2 newK

/-- Frees clusters. -/
def freeClusters (s : State) (cs : List Nat) : State :=
  dropBanks { s with clusters := ownUnits s.clusters 0 false cs } 1 (coresOf cs)

/-- Frees slices. -/
def freeSlices (s : State) (ks : List Nat) : State := dropBanks { s with sliceU := ownUnits s.sliceU 0 false ks } 2 ks

/-- Lets a pool partition have the slice where the one that had it is gone (R326). -/
def settleTurn (s : State) : State := if (poolParts s).contains s.poolTurn then s else { s with poolTurn := nextTurn s }

/-! ## The commands (R366 to R369) -/

/-- Starts a command with the status it will end with; GO while one runs is refused (R366). -/
def startCmd (s : State) (vf op : Nat) (run : State → State × Nat × Option PartCfg) : State :=
  if s.pcmd.go then { s with pcmd := { s.pcmd with status := 1 } }
  else
    let (s, fin, next) := run { s with pcmd := { s.pcmd with removed := [] } }
    let s := s.modVf vf fun v => { v with changing := true }
    { s with pcmd := { s.pcmd with go := true, vf := vf, op := op, fin := fin, next := next }, capGen := s.capGen + 1 }

/-- The effects of create (R367); the swap key is derived (17_trust.md R400). -/
def createPart (s : State) (vf : Nat) (c : PartCfg) : State :=
  let s := takeUnits s vf c (maskClusters c.clusters) c.slices
  let key := Config.hkdfExpand32 Config.packageRoot (Config.random32 s.free)
  let s := s.modVf vf fun v =>
    { v with cfg := c, state := if c.guar then 1 else 2, demoted := false, stamp := s.nextStamp, events := [], batchId := 0, deficit := [],
             swapKey := key, swapCtr := 0 }
  settleTurn (fillPlaces { s with nextStamp := s.nextStamp + 1, free := s.free + 1 } vf)

/-- PARTITION_CREATE (R366, R367): PCMD with GO and OP 1. -/
def execPartitionCreate (vf : Nat) (s : State) : Outcome State Fault Refusal :=
  .next (startCmd s vf 1 fun s =>
    let b := descBytes s
    let c := readCfg b
    match checkCmd s vf true b c with
    | 0 => (createPart s vf c, 0, none)
    | n => (s, n, none))

/-- The banks that H crews hold on a core, and those the owner's reservation leaves them. -/
def hBanks (s : State) (core : Nat) : Nat := (heldRes s core fun p => crewIsH s p.2).banks

/-- The H crew dispatched last to a core that is not leaving it yet. -/
def newestH (s : State) (core : Nat) : Option Nat :=
  (mostBy (fun p : Nat × Crew => p.2.order) ((coreCrews s core).filter fun p => crewIsH s p.2 && p.2.st != .spilling)).map fun p => p.1

/-- The banks of a core that H crews hold within its owner's reservation: those of the crews that stay, or of all. -/
def overFloor (s : State) (core : Nat) (all : Bool) : Bool :=
  let g := (heldRes s core fun p => !crewIsH s p.2).banks
  let h := (heldRes s core fun p => crewIsH s p.2 && (all || p.2.st != .spilling)).banks
  decide (62 < h + max g (s.vf (s.cluster (clusterOf core)).vf).cfg.floor)

/-- Evicts H crews from a core, the most recently dispatched first, until their banks lie outside the owner's floor (R368 step 3,
R370). -/
def evictToFloor (fuel : Nat) (s : State) (core : Nat) : State :=
  match fuel with
  | 0 => s
  | fuel + 1 =>
    if !overFloor s core false then s
    else
      match newestH s core with
      | some n => evictToFloor fuel (evictCrew s n) core
      | none => s

/-- Evicts every H crew from a core, the most recently dispatched first. -/
def evictAll (fuel : Nat) (s : State) (core : Nat) : State :=
  match fuel with
  | 0 => s
  | fuel + 1 =>
    match newestH s core with
    | some n => evictAll fuel (evictCrew s n) core
    | none => s

/-- Evicts every H crew from some clusters. -/
def evictClusters (s : State) (cs : List Nat) : State := (coresOf cs).foldl (fun s k => evictAll 64 s k) s

/-- The clusters a VF owns, in service or not. -/
def heldClusters (s : State) (vf : Nat) : List Nat := (List.range 64).filter fun c => (s.cluster c).vf == vf

/-- The clusters that H crews must leave while a resize runs: those of the VF that are no donors now. -/
def closedClusters (s : State) (vf : Nat) : List Nat := (heldClusters s vf).filter fun c => !(s.vf vf).cfg.donors.getLsbD c

/-- Evicts the H crews that a resize turns out: those on clusters it removes or that donate no more, and those within a raised floor. -/
def turnOut (s : State) (vf : Nat) : State :=
  let s := evictClusters s (closedClusters s vf)
  (coresOf (maskClusters (s.vf vf).cfg.donors)).foldl (fun s k => evictToFloor 64 s k) s

/-- Pre-empts a partition's G crews on clusters it gives up (R368 step 2). -/
def clearRemoved (s : State) (vf : Nat) (cs : List Nat) : State :=
  preemptCrews s ((s.crews.filter fun p => cs.contains (clusterOf p.2.core) && p.2.st.present && !crewIsH s p.2 && crewVf s p.2 == vf).map
    fun p => p.1)

/-- Steps 1 to 3 of a resize (R368): added units are taken; the partition's crews leave removed clusters; H crews leave what the owner
now reserves. The new clusters, donors and floor rule placement from here on. -/
def beginResize (s : State) (vf : Nat) (c : PartCfg) : State :=
  let old := (s.vf vf).cfg
  let removed := (maskClusters old.clusters).filter fun u => !c.clusters.getLsbD u
  let s := takeUnits s vf c (maskClusters c.clusters) c.slices
  let s := s.modVf vf fun v => { v with cfg := { v.cfg with clusters := c.clusters, donors := c.donors, floor := c.floor } }
  let s := fillPlaces { s with pcmd := { s.pcmd with removed := removed } } vf
  turnOut (clearRemoved s vf removed) vf

/-- PARTITION_RESIZE (R366, R368): PCMD with GO and OP 2. -/
def execPartitionResize (vf : Nat) (s : State) : Outcome State Fault Refusal :=
  .next (startCmd s vf 2 fun s =>
    let b := descBytes s
    let c := readCfg b
    match checkCmd s vf false b c with
    | 0 => (beginResize s vf c, 0, some c)
    | n => (s, n, none))

/-- PARTITION_DESTROY (R366, R369): PCMD with GO and OP 3. Every queue is killed. -/
def execPartitionDestroy (vf : Nat) (s : State) : Outcome State Fault Refusal :=
  .next (startCmd s vf 3 fun s =>
    if (s.vf vf).state = 0 then (s, 2, none)
    else ((Map.keys (s.vf vf).queues).foldl (fun s q => killQueue s vf q) s, 0, none))

/-- PARTITION_PROMOTE (R366, R369): PCMD with GO and OP 4. -/
def execPartitionPromote (vf : Nat) (s : State) : Outcome State Fault Refusal :=
  .next (startCmd s vf 4 fun s =>
    let v := s.vf vf
    if v.state ≠ 2 then (s, 2, none)
    else if !admits s vf v.cfg then (s, 5, none)
    else ({ s.modVf vf fun v => { v with state := 1, demoted := false, stamp := s.nextStamp } with nextStamp := s.nextStamp + 1 }, 0, none))

/-- Moves the L2 requests of a VF, held by credit, to the slices of its new map (R368 step 4). -/
def rehash (s : State) (vf : Nat) (c : PartCfg) : State :=
  let mine (r : L2Req) : Bool := r.vf == vf
  let rs := s.slices.flatMap fun p => (p.2.entries ++ p.2.held).filter fun r => mine r && !r.served
  let gone := s.slices.flatMap fun p => (p.2.entries.filter mine).map fun r => keyPa r.line / 256
  let s := { s with
    slices := s.slices.map fun p =>
      (p.1, { p.2 with held := p.2.held.filter fun r => !mine r, entries := p.2.entries.filter fun r => !mine r || r.served,
                       misses := p.2.misses.filter fun m => !gone.contains m.1 })
    channels := s.channels.map fun p => (p.1, { p.2 with queue := p.2.queue.filter fun q => q.vf != vf }) }
  rs.foldl (fun s r => s.modSlice (sliceOf c (keyPa r.line)) fun z => { z with held := z.held ++ [{ r with miss := false, back := false }] }) s

/-- Step 4 of a resize: the old slices are emptied, those no longer named are freed, and the new hash is installed. -/
def changeSlices (s : State) (vf : Nat) (c : PartCfg) : State :=
  let old := (s.vf vf).cfg
  if old.s = c.s ∧ old.slices = c.slices then s
  else
    let s := old.slices.foldl emptySlice s
    let s := freeSlices s (old.slices.filter fun k => !c.slices.contains k)
    rehash s vf c

/-- The lines of a set that leave it when the ways or quotas change (R368 step 5): in a way whose class changes, or beyond a
reduced quota, the least recent first. -/
def leavingLines (old c : PartCfg) (ls : List L2Line) : List L2Line :=
  let moved := ls.filter fun l => decide (l.way < old.gWays) != decide (l.way < c.gWays)
  let stay := ls.filter fun l => !moved.contains l
  moved ++ (List.range 4).flatMap fun q =>
    if quotaOf c q < quotaOf old q then
      let mine := stay.filter fun l => decide (l.way < c.gWays) && l.pcls == q
      mine.filter fun l => decide (quotaOf c q ≤ (mine.filter fun m => decide (l.used < m.used)).length)
    else []

/-- Step 5 of a resize. -/
def changeWays (s : State) (vf : Nat) (old c : PartCfg) : State :=
  c.slices.foldl (fun s k =>
    let out := (s.slice k).lines.flatMap fun p => leavingLines old c p.2
    (spillLines s k vf out).modSlice k fun z =>
      { z with lines := z.lines.map fun p => (p.1, p.2.filter fun l => !(leavingLines old c p.2).contains l) }) s

/-- Steps 4 to 6 of a resize (R368). -/
def endResize (s : State) (vf : Nat) (c : PartCfg) : State :=
  let old := (s.vf vf).cfg
  let s := changeWays (changeSlices s vf c) vf old c
  settleTurn (fillPlaces (s.modVf vf fun v => { v with cfg := c }) vf)

/-- Steps 3 to 5 of a destroy (R369). -/
def endDestroy (s : State) (vf : Nat) : State :=
  let c := (s.vf vf).cfg
  let s := freeSlices (c.slices.foldl emptySlice s) c.slices
  let s := freeClusters s (heldClusters s vf)
  settleTurn (s.modVf vf fun v =>
    { v with state := 0, demoted := false, cfg := PartCfg.init, events := [], swapKey := [], swapCtr := 0, placeCore := [], placeClu := [] })

/-- Whether neither an H crew nor a crew of a partition stands on some clusters. -/
def clustersClear (s : State) (vf : Nat) (cs : List Nat) : Bool :=
  !(s.crews.any fun p => cs.contains (clusterOf p.2.core) && p.2.st.present && (crewIsH s p.2 || crewVf s p.2 == vf))

/-- Whether no H crew stands on some clusters. -/
def clearOfH (s : State) (cs : List Nat) : Bool :=
  !(s.crews.any fun p => cs.contains (clusterOf p.2.core) && p.2.st.present && crewIsH s p.2)

/-- Whether every grid of a VF has its record. -/
def gridsOver (s : State) (vf : Nat) : Bool := !(s.grids.any fun p => p.2.vf == vf && !p.2.done)

/-- Whether the command in progress can complete. -/
def cmdReady (s : State) : Bool :=
  let vf := s.pcmd.vf
  match s.pcmd.op, s.pcmd.fin, s.pcmd.next with
  | 2, 0, some _ =>
    clustersClear s vf s.pcmd.removed && clearOfH s (closedClusters s vf) &&
      !(coresOf (maskClusters (s.vf vf).cfg.donors)).any fun k => overFloor s k true
  | 3, 0, _ => gridsOver s vf && clustersClear s vf (heldClusters s vf)
  | _, _, _ => true

/-- What the command in progress still asks for: a resize turns H crews out; a destroy, once every grid has its record, closes the
donors and evicts the H crews on the partition's clusters (R369 step 2). -/
def pushCmd (s : State) : State :=
  let vf := s.pcmd.vf
  match s.pcmd.op, s.pcmd.fin, s.pcmd.next with
  | 2, 0, some _ => turnOut s vf
  | 3, 0, _ =>
    if gridsOver s vf then evictClusters (s.modVf vf fun v => { v with cfg := { v.cfg with donors := 0 } }) (heldClusters s vf) else s
  | _, _, _ => s

/-- PARTITION_COMMAND_END (R366): the command completes, its status is set, GO reads 0 and the PF's management vector is
sent; what left service meanwhile is evaluated now (R375). -/
def execPartitionCommandEnd (s : State) : Outcome State Fault Refusal :=
  if !s.pcmd.go then .next s
  else if !cmdReady s then .next (pushCmd s)
  else
    let s := match s.pcmd.op, s.pcmd.fin, s.pcmd.next with
      | 2, 0, some c => endResize (freeClusters s s.pcmd.removed) s.pcmd.vf c
      | 3, 0, _ => endDestroy s s.pcmd.vf
      | _, _, _ => s
    let s := s.modVf s.pcmd.vf fun v => { v with changing := false }
    let s := { s with pcmd := { s.pcmd with go := false, status := if s.pcmd.quiet then 0 else s.pcmd.fin, vf := if s.pcmd.quiet then 0 else s.pcmd.vf,
                                            op := if s.pcmd.quiet then 0 else s.pcmd.op, next := none, removed := [], quiet := false }, capGen := s.capGen + 1 }
    let s := if sumsFit s then loseClusters s else recompute s
    .next (sendMsi s 0 0)

/-! ## H_SHEAF_EVICTION (R50, R370) -/

/-- The H crew that the G crew whose turn it is turns out first (R327, R370). -/
def dispatchVictim (s : State) : Option Nat :=
  match dispatchChoice s with
  | some (c, _) =>
    match chooseCore s c.gid c.grid c.cores with
    | some k => if !fitsNow s c.n c.crew k && fitsCore s c.n c.crew k then (victimsFor s c.n c.crew k 64 []).head? else none
    | none => none
  | none => none

/-- The H crews that a command in progress turns out next. -/
def cmdVictims (s : State) : List Nat :=
  let vf := s.pcmd.vf
  if !s.pcmd.go || s.pcmd.fin ≠ 0 then []
  else if s.pcmd.op = 2 then
    ((coresOf (closedClusters s vf)) ++ (coresOf (maskClusters (s.vf vf).cfg.donors)).filter fun k => overFloor s k false).filterMap (newestH s)
  else if s.pcmd.op = 3 ∧ gridsOver s vf then (coresOf (heldClusters s vf)).filterMap (newestH s)
  else []

/-- H_SHEAF_EVICTION (R50, R370): an H crew's sheaves stop, and the spill of the crew begins, where a G dispatch, a removal or a floor
change needs what it holds and it is the crew's turn, the most recently dispatched first. -/
def execHSheafEviction (crew : Nat) (s : State) : Outcome State Fault Refusal :=
  .next (if dispatchVictim s == some crew || (cmdVictims s).contains crew then evictCrew s crew else s)

/-- POOLMASK_WRITE (R365): ignored while a pool partition exists. -/
def execPoolmaskWrite (x : Dword) (s : State) : Outcome State Fault Refusal :=
  if s.vfs.any fun p => p.2.state != 0 && p.2.cfg.clusters == 0 then .next s else .next { s with poolmask := x }

/-! ## Errors (19_platform.md R422, R423) -/

/-- A counter with one more correction, at a time; it keeps the times of those of the last second. -/
def ErrCtr.hit (c : ErrCtr) (now : Nat) : ErrCtr :=
  { count := c.count + 1, times := c.times.filter (fun t => decide (now < t + 1000000000)) ++ [now] }

/-- Counts a correction of a unit: 16 within one second fence its island (R422). -/
def countError (s : State) (island : Nat) : State :=
  let c := (Map.get s.errCtr island { count := 0, times := [] }).hit s.gtime.toNat
  let s := { s with errCtr := Map.put s.errCtr island c }
  if c.times.length < 16 then s else fenceOnce s island

/-- PATROL_SCRUB (R422, R423): the scrubber visits a line of HBM or of the L2. -/
def execPatrolScrub (l2 : Bool) (line : Nat) (r : ScrubResult) (s : State) : Outcome State Fault Refusal :=
  let is_ := lineIslands s l2 line
  match r with
  | .clean => .next s
  | .corrected => .next (is_.foldl countError s)
  | .uncorrectable =>
    if is_.isEmpty then .next s
    else
      .next (is_.foldl fenceOnce (loseFlaw s l2 line))

end Sys2Proof.Machine
end

