-- ==== Sys2Proof/Machine/Trust.lean ====
section
/-! DEFINITION. Chiplets, link keys, principals, origin-set requests, policies and host attestation (17_trust.md R379 to R396).
The links between chiplets are the state's `topology`; the two directions of link ℓ are keyed 2ℓ and 2ℓ + 1 (assumption 19). -/

namespace Sys2Proof.Machine

open Host (Outcome)

/-! ## The units of a chiplet (Table 17.1) -/

/-- Whether a cluster, slice, HBM channel or fabric port is a chiplet's. -/
def onCd (c cluster : Nat) : Bool := (c == 1 || c == 2) && cluster / 32 == c - 1
/-- Whether a slice is a cache die's. -/
def onKd (c slice : Nat) : Bool := decide (3 ≤ c ∧ c ≤ 10) && slice / 32 == c - 3
/-- Whether a stack is an HBM chiplet's. -/
def onHb (c stack : Nat) : Bool := decide (13 ≤ c ∧ c ≤ 24) && stack == c - 13
/-- Whether a fabric port is an I/O die's. -/
def onIo (c port : Nat) : Bool := (c == 11 || c == 12) && port / 8 == c - 11

/-- Takes units out of service or returns them: RET in their unit-state words. -/
def retireIn (m : Map UnitSt) (ret : Bool) (us : List Nat) : Map UnitSt :=
  us.foldl (fun m u => Map.put m u { Map.get m u UnitSt.init with ret := ret }) m

/-- Takes a chiplet's units out of service, or returns them, a reset having undone their fences (R424). -/
def setUnits (s : State) (c : Nat) (ret : Bool) : State :=
  { s with clusters := retireIn s.clusters ret ((List.range 64).filter (onCd c))
           sliceU := retireIn s.sliceU ret ((List.range 256).filter (onKd c))
           channelU := retireIn s.channelU ret ((List.range 384).filter fun k => onHb c (k / 32))
           ports := ((List.range 16).filter (onIo c)).foldl (fun m p =>
             let x := Map.get m p Port.init
             Map.put m p { x with ret := ret, up := x.up && !ret }) s.ports }

/-- Undoes the fences of a chiplet's units at its reset (R424). -/
def unfence (s : State) (c : Nat) : State :=
  let clear (m : Map UnitSt) (f : Nat → Bool) : Map UnitSt := m.map fun p => if f p.1 then (p.1, { p.2 with fen := false }) else p
  { s with clusters := clear s.clusters (onCd c), sliceU := clear s.sliceU (onKd c)
           channelU := clear s.channelU fun k => onHb c (k / 32)
           ports := s.ports.map fun p => if onIo c p.1 then (p.1, { p.2 with fen := false }) else p }

/-- Changes a chiplet. -/
def State.modChiplet (s : State) (c : Nat) (f : Chiplet → Chiplet) : State :=
  { s with chiplets := Map.put s.chiplets c (f (s.chiplet c)) }

/-! ## Lost accesses (R390 step 2) -/

/-- Whether a request to a slice waits on a chiplet's links; all cross BD. -/
def reqLost (c slice : Nat) (r : L2Req) : Bool :=
  c == 0 || onKd c slice || onCd c (clusterOf r.core) || (r.miss && onHb c (stackOf (keyPa r.line)))

/-- Fails the operations of a core that wait for a line. -/
def loseLine (s : State) (cause : Cause) (core key : Nat) : State :=
  let s := s.modCore core fun k => k.endFill key
  s.ops.foldl (fun s p =>
    if p.2.onCore s core && p.2.need.contains key then
      failOp s p.1 p.2 cause (((p.2.accs.find? fun a => a.key == key).map fun a => a.addr).getD 0)
    else s) s

/-- Fails what a lost request was made for. -/
def loseReq (cause : Cause) (s : State) (r : L2Req) : State :=
  match r.why with
  | .l1 => loseLine s cause r.core r.line
  | .l2 => s
  | .rmw n =>
    match Map.find? s.ops n with
    | some o => failOp s n o cause (((o.accs.find? fun a => a.key == r.line).map fun a => a.addr).getD 0)
    | none => s
  | .opAcc n i =>
    match Map.find? s.ops n with
    | some o => failOp s n o cause ((o.accs[i]?.map fun a => a.addr).getD 0)
    | none => s
  | .storeAcc seq _ =>
    match (s.core r.core).storeQ.find? fun e => e.seq == seq with
    | some e => failStore s e cause
    | none => s
  | .copy n va _ _ =>
    match (Map.find? s.ops n).bind fun o => copyRun s n o with
    | some (c, _, _) => stopCopy s c cause va
    | none => s
  | .peer f =>
    match bodyAsks f.body with
    | some (_, _, t) => refuse s f t
    | none => s

/-- Whether a request at a peer waits on a chiplet's links. -/
def trackerLost (s : State) (c : Nat) (t : Tracker) : Bool :=
  c == 0 || onIo c t.port ||
    match t.line, t.op, t.acc with
    | some (core, _), _, _ => onCd c (clusterOf core)
    | none, some n, _ =>
      match (Map.find? s.ops n).bind fun o => Map.find? s.crews o.crew with
      | some w => onCd c (clusterOf w.core)
      | none => false
    | none, none, some a => onCd c (32 * a.lane)
    | none, none, none => false

/-- A lost request at a peer. -/
def loseTracker (s : State) (i : Nat) (t : Tracker) : State :=
  let s := { s with trackers := Map.del s.trackers i }
  match t.cmd with
  | some k => failCmd s k .linkQuarantined
  | none =>
  match t.line, t.op, t.acc with
  | some (core, key), _, _ => loseLine s .linkQuarantined core key
  | none, some n, a =>
    match Map.find? s.ops n with
    | some o => failOp s n o .linkQuarantined ((a.map fun a => a.addr).getD 0)
    | none => s
  | none, none, some a =>
    match s.wbufs.find? fun w => w.sent && wbMark w == a with
    | some w => failGrid (countCause { s with wbufs := s.wbufs.erase w } w.last.grid) w.last.grid .linkQuarantined w.last
    | none => s
  | none, none, none => s

/-- Whether a write-back on its way crosses a chiplet's links. -/
def wbLost (s : State) (c : Nat) (w : WriteBack) : Bool :=
  c == 0 || onCd c (32 * w.die) || (keyDev w.line == 0 && onKd c (sliceOf (s.vf w.vf).cfg (keyPa w.line)))

/-- Every access or operation that waits on a reply through a chiplet's links is lost: it raises LINK_QUARANTINED, and its grid
fails. -/
def loseAccesses (s : State) (c : Nat) : State :=
  let rs := s.slices.flatMap fun p => (p.2.held ++ p.2.entries).filter fun r => reqLost c p.1 r
  let s := { s with slices := s.slices.map fun p =>
    (p.1, { p.2 with held := p.2.held.filter fun r => !reqLost c p.1 r
                     entries := p.2.entries.filter fun r => !reqLost c p.1 r
                     misses := p.2.misses.filter fun m => !(c == 0 || onKd c p.1 || onHb c (stackOf (256 * m.1))) }) }
  let s := rs.foldl (loseReq .linkQuarantined) s
  let ws := s.wbufs.filter fun w => !w.sent && wbLost s c w
  let s := ws.foldl (fun s w => failGrid (countCause { s with wbufs := s.wbufs.erase w } w.last.grid) w.last.grid .linkQuarantined w.last) s
  (s.trackers.filter fun t => trackerLost s c t.2).foldl (fun s t => loseTracker s t.1 t.2) s

/-- The grids of some VFs fail with LINK_QUARANTINED. -/
def failVfs (s : State) (vs : List Nat) : State :=
  ((s.grids.filter fun p => vs.contains p.2.vf && !p.2.done && p.2.stopped.isNone).map fun p => p.1).foldl (fun s g =>
    failGrid s g .linkQuarantined { FRec.init with grid := g }) s

/-- The state of a chiplet's memories is lost: L1s of a compute die, slices of a cache die; grids of partitions that lose dirty
data fail (R390 step 4, assumption 20). -/
def loseCaches (s : State) (c : Nat) : State :=
  let lost1 := s.cores.flatMap fun p => if onCd c (clusterOf p.1) then (p.2.l1.filter fun l => l.2.dirty != 0).map fun l => l.2.vf else []
  let lost2 := s.slices.flatMap fun p =>
    if onKd c p.1 && (sliceLines s p.1).any fun l => l.dirty != 0 then [(Map.get s.sliceU p.1 UnitSt.init).vf] else []
  let s := { s with
    cores := s.cores.map fun p => if onCd c (clusterOf p.1) then (p.1, { p.2 with l1 := [], fills := [], fillP := [], stale := [], tlb := [] }) else p
    ctlb := s.ctlb.filter fun p => !onCd c p.1
    slices := s.slices.map fun p => if onKd c p.1 then (p.1, { p.2 with lines := [] }) else p }
  failVfs s (dedup (lost1 ++ lost2))

/-- The VFs whose partitions own a unit of a chiplet: every partition has weights at the fabric ports (R390 step 3). -/
def ownersOn (s : State) (c : Nat) : List Nat :=
  let owners (m : Map UnitSt) (f : Nat → Bool) : List Nat := (m.filter fun p => f p.1 && p.2.vf != 0).map fun p => p.2.vf
  dedup (owners s.clusters (onCd c) ++ owners s.sliceU (onKd c) ++
    ((s.frames.filter fun p => onHb c (p.1 % 12) && p.2.owner != 0).map fun p => p.2.owner) ++
    (if c = 12 then (s.vfs.filter fun p => p.2.state != 0).map fun p => p.1 else []))

/-! ## Quarantine and reset (R384, R389, R390) -/

/-- Whether a link direction is a chiplet's. -/
def Link.joins (k : Link) (c : Nat) : Bool := k.src == c || k.dst == c

/-- Quarantines a chiplet: its links lose their keys, accesses through them are lost, its partitions are told, and its units leave
service (R375). No chiplet leaves Dark where BD has failed its own check (R381). -/
def quarantine (s : State) (c why : Nat) : State :=
  if s.bdDown && (s.chiplet c).st == .dark then s
  else
    let s := s.modChiplet c fun k => { k with st := .quarantined, why := why, challenged := false, exch := none }
    let s := { s with links := s.links.filter fun p => !p.2.joins c }
    let s := loseCaches (loseAccesses s c) c
    let s := (ownersOn s c).foldl (fun s v => s.notice v .linkQuarantined FRec.init) s
    recompute (clearClusters (setUnits s c true) ((List.range 64).filter (onCd c)))

/-- Whether the hypervisor may name a chiplet: 1 to 24, and for OP 1 and 2 not IO0 (Table 17.4, R389). -/
def chipOk (c : Nat) (io0 : Bool) : Bool := decide (1 ≤ c ∧ c ≤ 24) && (io0 || c != 11)

/-- A chiplet command: refused, or accepted and done. -/
def chipCmd (s : State) (c op : Nat) (ok : Bool) (act : State → State) : State :=
  let s := { s with chCmd := word (op * 32 + c % 32), chErr := !ok }
  if ok then act s else s

/-- CHIPLET_QUARANTINE (R384, Table 17.4): CHCMD with GO and OP 1. -/
def execChipletQuarantine (c : Nat) (s : State) : Outcome State Fault Refusal :=
  .next (chipCmd s c 1 (chipOk c false) fun s => if (s.chiplet c).st = .quarantined then s else quarantine s c 7)

/-- Whether an island is a chiplet's; routers are BD's. -/
def islandOn (c i : Nat) : Bool :=
  if i < 256 then onCd c (i / 4)
  else if i < 320 then onCd c (i - 256)
  else if i < 576 then onKd c (i - 320)
  else if i < 768 then onHb c ((i - 576) / 16)
  else if 1024 ≤ i then onIo c (i - 1024)
  else c == 0

/-- The grids with a crew on a compute die: its registers, scratchpad and typed units are lost with the die (R390 step 4,
assumption 20). -/
def gridsOn (s : State) (c : Nat) : List Nat :=
  dedup ((s.crews.filter fun p => onCd c (clusterOf p.2.core) && p.2.st.present).map fun p => p.2.grid)

/-- Whether a counter bank stands on a chiplet. -/
def bankOn (c : Nat) (b : Bank) : Bool :=
  match b.kind with
  | 1 => onCd c (clusterOf b.unit)
  | 2 => onKd c b.unit
  | 3 => onHb c b.unit
  | _ => onIo c b.unit

/-- A chiplet's arrays and queues as they are after its reset (R390 step 4): cores, engines, cluster TLBs and trace units of a compute
die; slices; the memory and the channels of an HBM stack; fabric ports; the counters and error counters of all of them. -/
def clearChiplet (s : State) (c : Nat) : State :=
  { unfence s c with
    cores := s.cores.map fun p => if onCd c (clusterOf p.1) then (p.1, Core.init) else p
    engines := s.engines.filter fun p => !onCd c p.1
    ctlb := s.ctlb.filter fun p => !onCd c p.1
    traces := s.traces.map fun p => if p.1 < 64 && onCd c p.1 then (p.1, { Trace.init with holder := p.2.holder }) else p
    slices := s.slices.filter fun p => !onKd c p.1
    hbm := s.hbm.filter fun b => !onHb c (stackOf b.1)
    channels := s.channels.filter fun p => !onHb c (p.1 / 32)
    ports := s.ports.map fun p => if onIo c p.1 then (p.1, { Port.init with ret := p.2.ret }) else p
    banks := s.banks.map fun b => if bankOn c b then { b with ctrs := [], frozenC := [] } else b
    errCtr := s.errCtr.filter fun p => !islandOn c p.1
    flaws := s.flaws.filter fun f => match f with
      | .hbm line => !onHb c (stackOf (256 * line))
      | .l1 core _ => !onCd c (clusterOf core)
      | _ => true }

/-- A reset of one chiplet (R390): quarantine, the loss of all its state, and re-attestation from the start. A chiplet that is still
Dark stays Dark: its bring-up is at its start (Table 17.2). -/
def resetChiplet (s : State) (c : Nat) : State :=
  if (s.chiplet c).st = .dark then clearChiplet s c
  else
    let s := (gridsOn s c).foldl (fun s g => failGrid s g .linkQuarantined { FRec.init with grid := g }) s
    (clearChiplet (quarantine s c 6) c).modChiplet c fun k =>
      { k with st := .identified, digest := [], rsaKey := [], slhKey := [], challenged := false, exch := none, auto := 2 }

/-- CHIPLET_RESET (R389, R390): CHCMD with GO and OP 2. -/
def execChipletReset (c : Nat) (s : State) : Outcome State Fault Refusal :=
  .next (chipCmd s c 2 (chipOk c false) fun s => resetChiplet s c)

/-- CHIPLET_SELF_RESET (R389, R390): a chiplet other than BD and IO0 resets itself after a fatal internal error. -/
def execChipletSelfReset (c : Nat) (s : State) : Outcome State Fault Refusal :=
  .next (if chipOk c false then resetChiplet s c else s)

/-- ATTESTATION_RETRY (R384, Table 17.4): CHCMD with GO and OP 3. -/
def execAttestationRetry (c : Nat) (s : State) : Outcome State Fault Refusal :=
  .next (chipCmd s c 3 (chipOk c true && (s.chiplet c).st == .quarantined) fun s =>
    s.modChiplet c fun k => { k with st := .identified, digest := [], rsaKey := [], slhKey := [], challenged := false, exch := none, auto := 0 })

/-! ## Bring-up (R381, R382) -/

/-- A failed attempt: the chiplet is Quarantined; attempts that start of themselves begin again. -/
def failAttempt (s : State) (c why : Nat) : State :=
  let k := s.chiplet c
  let s := s.modChiplet c fun k => { k with tries := min 15 (k.tries + 1), why := why }
  if k.auto = 0 then quarantine s c why
  else s.modChiplet c fun k => { k with st := .identified, digest := [], rsaKey := [], slhKey := [], challenged := false, exch := none, auto := k.auto - 1 }

/-- The key of a generation of a link direction (R385). -/
def linkKey (prk : List Byte) (link g : Nat) : List Byte :=
  Config.hkdfExpand32 prk ("nolvy link".toUTF8.toList.map (fun b => BitVec.ofNat 8 b.toNat) ++ bytesOf 2 (link / 2) ++
    bytesOf 1 (link % 2) ++ bytesOf 4 g)

/-- A link direction with its keys of generation 0. -/
def newLink (prk : List Byte) (link src dst : Nat) : Link :=
  { src := src, dst := dst, prk := prk, gen := 0, txKey := linkKey prk link 0, txCtr := 0, rxGen := 0,
    rxKey := linkKey prk link 0, rxNext := none, partialG := [], replay := [], failed := [], newSeen := false, rolling := false,
    acked := false, ackTries := 0, recvd := [] }

/-- Whether both signatures of a chiplet over a message verify (R379). -/
def bothSigns (k : Chiplet) (msg rsaSig slhSig : List Byte) : Bool :=
  Config.rsaVerify k.rsaKey msg rsaSig && Config.slhVerify k.slhKey msg slhSig

/-! The payloads of Nolvy's vendor-defined messages (R383, Table 17.9). -/

/-- The response to 0x0001: an SLH-DSA signature over the transcript hash that a selector names. -/
def signPayload (sel : Nat) (sig : List Byte) : List Byte :=
  bytesOf 2 1 ++ bytesOf 1 sel ++ bytesOf 1 0 ++ bytesOf 4 16224 ++ sig

/-- The signature that a response to 0x0001 carries; none where a field of it is wrong. -/
def signIn (sel : Nat) (p : List Byte) : Option (List Byte) :=
  if p.length = 16232 ∧ p.take 8 = signPayload sel [] then some (p.drop 8) else none

/-- A message of 0x0002: BD's encapsulation key, or the chiplet's ciphertext. -/
def kemPayload (body : List Byte) : List Byte := bytesOf 2 2 ++ bytesOf 2 0 ++ body

/-- The ciphertext that a response to 0x0002 carries; none where a field of it is wrong. -/
def kemIn (p : List Byte) : Option (List Byte) := if p.length = 1572 ∧ p.take 4 = kemPayload [] then some (p.drop 4) else none

/-- Whether both signatures of a chiplet over a transcript hash verify, the SLH-DSA one in its response to 0x0001 (R379, R382). -/
def signed (k : Chiplet) (sel : Nat) (hash rsaSig vendor : List Byte) : Bool :=
  match signIn sel vendor with
  | some slhSig => bothSigns k hash rsaSig slhSig
  | none => false

/-- Whether the bring-up of the package has come to every chiplet (R427). -/
def broughtUp (s : State) : Bool :=
  (List.range 25).all fun c => c == 0 || (s.chiplet c).st == .live || (s.chiplet c).st == .quarantined

/-- The end of bring-up: the PF becomes ready (R427). -/
def finishBringup (s : State) : State := if !s.pfReady && broughtUp s then { s with pfReady := true, capGen := s.capGen + 2 } else s

/-- A chiplet becomes Live, and its units enter service (R382 step 4). -/
def enable (s : State) (c : Nat) : State :=
  let s := setUnits (s.modChiplet c fun k => { k with st := .live, tries := 0, auto := 0 }) c false
  { s with capGen := s.capGen + 2 }

/-- BD enables the data of a chiplet that is Keyed (R382 step 4). -/
def enableKeyed (s : State) (c : Nat) : State :=
  if (s.chiplet c).st = .keyed ∧ !s.bdDown then finishBringup (enable s c) else s

/-- Whether a fresh key exchange runs on a Live chiplet's session (R385): a direction of a link of its own rolls with no next key
yet. -/
def rekeys (s : State) (c : Nat) : Bool := s.links.any fun p => max p.2.src p.2.dst == c && p.2.rolling && !p.2.acked && p.2.rxNext.isNone

/-- Whether BD awaits a chiplet's response: at package bring-up the chiplets come up in ascending number (R382); a Live one is asked
for a fresh key exchange alone (R385). -/
def spdmAwaited (s : State) (c : Nat) : Bool :=
  let k := (s.chiplet c).st
  !s.bdDown && decide (1 ≤ c ∧ c ≤ 24) && k != .keyed && k != .quarantined && (k != .live || rekeys s c) &&
    (s.pfReady || (List.range c).all fun d => d == 0 || (s.chiplet d).st == .live || (s.chiplet d).st == .quarantined)

/-- A chiplet's certificates (R382 step 1): the algorithms are exactly those required, and both chains verify. -/
def takeCerts (s : State) (c : Nat) (algsOk : Bool) (rsaChain slhChain : List Byte) : State :=
  match algsOk, Config.chainKey true rsaChain, Config.chainKey false slhChain with
  | true, some a, some b => s.modChiplet c fun k => { k with st := .identified, rsaKey := a, slhKey := b }
  | _, _, _ => failAttempt s c 1

/-- A chiplet's CHALLENGE_AUTH (R382 step 2): both signatures. -/
def takeChallenge (s : State) (c : Nat) (rsaSig vendor : List Byte) : State :=
  if signed (s.chiplet c) 0 (Config.transcript c 0 []) rsaSig vendor then s.modChiplet c fun k => { k with challenged := true }
  else failAttempt s c 2

/-- The digests that the manifest accepts for a chiplet: up to four (R380). -/
def accepted (s : State) (c : Nat) : List (List Byte) := (Map.get s.manifest c []).take 4

/-- A chiplet's measurement (R382 step 2): both signatures, then the manifest (R380). -/
def takeMeasure (s : State) (c : Nat) (digest rsaSig vendor : List Byte) : State :=
  if !signed (s.chiplet c) 1 (Config.transcript c 1 digest) rsaSig vendor then failAttempt s c 2
  else if !(accepted s c).contains digest then failAttempt s c 3
  else s.modChiplet c fun k => { k with st := .attested, digest := digest }

/-- A failed key exchange: of a chiplet that is Live, it quarantines it (assumption 56). -/
def failExchange (s : State) (c : Nat) : State := if (s.chiplet c).st = .live then quarantine s c 4 else failAttempt s c 4

/-- A chiplet's share and its answer to BD's encapsulation key (R382 step 3). -/
def takeExchange (s : State) (c : Nat) (share vendor : List Byte) : State :=
  match kemIn vendor with
  | none => failExchange s c
  | some _ => { s with free := s.free + 1 }.modChiplet c fun k => { k with exch := some (Config.random32 s.free, share, vendor) }

/-- Whether data may pass at a chiplet's end of a link: it is Live; BD is once it has checked itself (R381). -/
def peerLive (s : State) (c : Nat) : Bool := chipState s c == .live

/-- The link keys of an exchange, for every link between a chiplet and a Live one (R382 step 3, R385). -/
def freshKeys (s : State) (c : Nat) (prk : List Byte) : State :=
  (s.topology.filter fun p => (p.2.1 == c && peerLive s p.2.2) || (p.2.2 == c && peerLive s p.2.1)).foldl (fun s p =>
    { s with links := Map.put (Map.put s.links (2 * p.1) (newLink prk (2 * p.1) p.2.1 p.2.2)) (2 * p.1 + 1)
                        (newLink prk (2 * p.1 + 1) p.2.2 p.2.1) }) s

/-- The next keys, of generation 0, for the link directions that a fresh exchange serves (R385). -/
def nextKeys (s : State) (c : Nat) (prk : List Byte) : State :=
  { s with links := s.links.map fun p =>
      if max p.2.src p.2.dst == c && p.2.rolling && !p.2.acked && p.2.rxNext.isNone then
        (p.1, { p.2 with prk := prk, ackTries := 1, rxNext := some (0, linkKey prk p.1 0) })
      else p }

/-- FINISH (R382 step 3): both signatures over the transcript of KEY_EXCHANGE, 0x0002 and FINISH; the link keys are derived, and the
chiplet is Keyed, or where it is Live stays so (R385). -/
def takeFinish (s : State) (c : Nat) (rsaSig vendor : List Byte) : State :=
  match (s.chiplet c).exch.bind fun x => (kemIn x.2.2).map fun ct => (x.1, x.2.1, x.2.2, ct) with
  | none => failExchange s c
  | some (secrets, share, answer, ct) =>
    let hash := Config.transcript c 2 (share ++ kemPayload (Config.encapsKey secrets) ++ answer)
    if !signed (s.chiplet c) 2 hash rsaSig vendor then failExchange s c
    else
      let prk := Config.hkdfExtract hash (Config.sharedSecret secrets share ct)
      let s := s.modChiplet c fun k => { k with exch := none }
      if (s.chiplet c).st = .live then nextKeys s c prk else freshKeys (s.modChiplet c fun k => { k with st := .keyed }) c prk

/-- What a chiplet's own answer to a request is, from its fuses and its firmware (R379, R380, R382). -/
def ownAnswer (s : State) (c : Nat) : SpdmResponse :=
  let k := s.chiplet c
  let sig (sel : Nat) (body : List Byte) : List Byte × List Byte :=
    let hash := Config.transcript c sel body
    (Config.rsaSign (Config.fusedKey true c) hash, signPayload sel (Config.slhSign (Config.fusedKey false c) hash))
  let share := .keyExchange (Config.exchangeShare (Config.random32 (s.free + 1)))
    (kemPayload (Config.encapsulate (Config.encapsKey (Config.random32 s.free)) (Config.random32 (s.free + 1))))
  let done_ (x : List Byte × List Byte × List Byte) : SpdmResponse :=
    let q := sig 2 (x.2.1 ++ kemPayload (Config.encapsKey x.1) ++ x.2.2)
    .finish q.1 q.2
  match k.st, k.exch with
  | .attested, none | .live, none => share
  | .attested, some x | .live, some x => done_ x
  | _, _ =>
    if k.rsaKey.isEmpty then .certificates true (Config.fusedCert true c) (Config.fusedCert false c)
    else if !k.challenged then .challenge (sig 0 []).1 (sig 0 []).2
    else
      let m := Config.measurement c
      .measurements m (sig 1 m).1 (sig 1 m).2

/-- BD checks a response against the one it awaits (R382). -/
def takeResponse (s : State) (c : Nat) (r : SpdmResponse) : State :=
  let k := s.chiplet c
  match k.st, k.exch, r with
  | .attested, none, .keyExchange sh v | .live, none, .keyExchange sh v => takeExchange s c sh v
  | .attested, some _, .finish a v | .live, some _, .finish a v => takeFinish s c a v
  | .attested, _, _ | .live, _, _ => failExchange s c
  | _, _, .certificates ok a b => if k.rsaKey.isEmpty then takeCerts s c ok a b else failAttempt s c 2
  | _, _, .challenge a v => if k.rsaKey.isEmpty then failAttempt s c 1 else if k.challenged then failAttempt s c 2 else takeChallenge s c a v
  | _, _, .measurements d a v => if k.rsaKey.isEmpty then failAttempt s c 1 else if k.challenged then takeMeasure s c d a v else failAttempt s c 2
  | _, _, _ => failAttempt s c (if k.rsaKey.isEmpty then 1 else 2)

/-- SPDM_RESPONSE (R379, R380, R382, R383): BD receives and checks the response it awaits from a chiplet. -/
def execSpdmResponse (c : Nat) (r : SpdmResponse) (s : State) : Outcome State Fault Refusal :=
  if !spdmAwaited s c then .next s
  else .next (finishBringup (takeResponse s c (if r = .own then ownAnswer s c else r)))

/-! ## Link keys and rollover (R385 to R388) -/

/-- Changes a link direction. -/
def State.modLink (s : State) (l : Nat) (f : Link → Link) : State := { s with links := Map.mod s.links l f }

/-- Begins a rollover of a link direction (R387 step 1), or at generation 65,535 a fresh key exchange, which gives the next key (R385);
none begins before the last is over. -/
def startRoll (s : State) (l : Nat) : State :=
  match Map.find? s.links l with
  | none => s
  | some k =>
    if k.rolling then s
    else if k.gen < 65535 then
      s.modLink l fun k => { k with rolling := true, acked := false, ackTries := 1, rxNext := some (k.gen + 1, linkKey k.prk l (k.gen + 1)) }
    else s.modLink l fun k => { k with rolling := true, acked := false, ackTries := 0, rxNext := none }

/-- The link directions of a chiplet. -/
def linksOf (s : State) (c : Nat) : List Nat := (s.links.filter fun p => p.2.joins c).map fun p => p.1

/-- KEY_ROLL (R387, Table 17.4): CHCMD with GO and OP 4. -/
def execKeyRoll (c : Nat) (s : State) : Outcome State Fault Refusal :=
  .next (chipCmd s c 4 (chipOk c true && (s.chiplet c).st == .live) fun s => (linksOf s c).foldl startRoll s)

/-- KEY_ROLLOVER_FORCED (R385): a group counter has reached 2^32. -/
def execKeyRolloverForced (link : Nat) (s : State) : Outcome State Fault Refusal :=
  match Map.find? s.links link with
  | none => .next s
  | some k => .next (if 2 ^ 32 ≤ k.txCtr then startRoll s link else s)

/-- INSTALL_ACKNOWLEDGEMENT (R387 steps 2 and 3): the sender switches to the next key, its counter at 0. -/
def execInstallAcknowledgement (link : Nat) (s : State) : Outcome State Fault Refusal :=
  match Map.find? s.links link with
  | none => .next s
  | some k =>
    match k.rolling, k.acked, k.rxNext with
    | true, false, some (g, key) =>
      .next (s.modLink link fun k => { k with acked := true, gen := g, txKey := key, txCtr := 0 })
    | _, _, _ => .next s

/-- ROLLOVER_ACK_TIMEOUT (R387): an acknowledgement missing for 10 µs is asked for again; after three attempts the receiver's
chiplet is Quarantined. -/
def execRolloverAckTimeout (link : Nat) (s : State) : Outcome State Fault Refusal :=
  match Map.find? s.links link with
  | none => .next s
  | some k =>
    if !k.rolling || k.acked || k.rxNext.isNone then .next s
    else if k.ackTries < 3 then .next (s.modLink link fun k => { k with ackTries := k.ackTries + 1 })
    else .next (quarantine s k.dst 8)

/-- The nonce of a group: link and direction, then the counter (R385). -/
def groupNonce (link : Nat) (ctr : Dword) : List Byte := bytesOf 2 (link / 2) ++ bytesOf 2 (link % 2) ++ bytesOf 8 ctr.toNat

/-- The receiver's key for a phase bit. -/
def Link.keyFor (k : Link) (phase : Bool) : Option (List Byte) :=
  if phase == (k.rxGen % 2 == 1) then some k.rxKey
  else
    match k.rxNext with
    | some (g, key) => if phase == (g % 2 == 1) then some key else none
    | none => none

/-- A group whose tag verifies: its flits are delivered; the old key retires once a group of the new phase has arrived and none of the
old phase is still asked for (R387 step 4). -/
def takeGroup (k : Link) (g : LinkGroup) (flits : List (List Byte)) : Link :=
  let old := k.rxGen % 2 == 1
  let k := { k with recvd := k.recvd ++ flits, failed := k.failed.filter fun f => f != (g.phase, g.counter)
                    newSeen := k.newSeen || g.phase != old }
  match k.rxNext with
  | some (n, key) =>
    if k.acked && k.newSeen && !k.failed.any fun f => f.1 == old then
      { k with rxGen := n, rxKey := key, rxNext := none, rolling := false, newSeen := false }
    else k
  | none => k

/-- Cuts bytes into flits of 256. -/
def cutFlits (n : Nat) (bs : List Byte) : List (List Byte) := (List.range n).map fun i => bytesAt bs (256 * i) 256

/-- A replayed group counts at the fabric ports of an I/O die's link (Table 18.4). -/
def countReplay (s : State) (c : Nat) : State :=
  ((List.range 16).filter (onIo c)).foldl (fun s p => countEvent s 4 p 0 false 0x0303) s

/-- LINK_GROUP_RECEIVE (R387, R388): a group is delivered once its tag verifies; else it is discarded whole and a replay is asked
for, and a second failure, or one outside the replay buffer, quarantines the sending chiplet. -/
def execLinkGroupReceive (link : Nat) (g : LinkGroup) (s : State) : Outcome State Fault Refusal :=
  match Map.find? s.links link with
  | none => .next s
  | some k =>
    match (k.keyFor g.phase).bind fun key =>
        Config.gcmOpen key (groupNonce link g.counter) [] g.flits.flatten (bytesOf 8 g.tag.toNat) with
    | some bs => .next (s.modLink link fun k => takeGroup k g (cutFlits g.flits.length bs))
    | none =>
      if k.failed.contains (g.phase, g.counter) || !(k.replay.any fun r => r.phase == g.phase && r.counter == g.counter) then
        .next (quarantine s k.src 5)
      else .next (countReplay (countReplay (s.modLink link fun k => { k with failed := k.failed ++ [(g.phase, g.counter)] }) k.src) k.dst)

/-- The sender closes its group, encrypts it and keeps it in the replay buffer, which holds the last 64 (R385, R388). -/
def sealGroup (s : State) (link : Nat) : State :=
  s.modLink link fun k =>
    let out := Config.gcmSeal k.txKey (groupNonce link (dword k.txCtr)) [] k.partialG.flatten
    let g : LinkGroup := { counter := dword k.txCtr, phase := k.gen % 2 == 1, flits := cutFlits k.partialG.length out.1,
                           tag := dword (ofBytes (bytesAt out.2 0 8)) }
    { k with partialG := [], txCtr := k.txCtr + 1, replay := (k.replay ++ [g]).drop (k.replay.length + 1 - 64) }

/-- A further flit for a link direction (R385): a group of 16 is full and closes. Data passes only between chiplets that are both
Live (Table 17.2). -/
def addFlit (s : State) (link : Nat) (bytes : List Byte) : State :=
  match Map.find? s.links link with
  | none => s
  | some k =>
    if !(peerLive s k.src && peerLive s k.dst) then s
    else
      let s := s.modLink link fun k => { k with partialG := k.partialG ++ [bytesAt bytes 0 256] }
      if 16 ≤ k.partialG.length + 1 then sealGroup s link else s

/-- PARTIAL_GROUP_CLOSE (R385): the sender closes its partial group. -/
def execPartialGroupClose (link : Nat) (s : State) : Outcome State Fault Refusal :=
  match Map.find? s.links link with
  | none => .next s
  | some k => .next (if k.partialG.isEmpty then s else sealGroup s link)

/-! ## Principals and the origin-set table (R393 to R395) -/

/-- Puts a principal into the table, in ascending order of ID (R394). -/
def insertPrin (p : Prin) (ps : List Prin) : List Prin :=
  match ps with
  | [] => [p]
  | q :: rest => if p.id.toNat < q.id.toNat then p :: q :: rest else q :: insertPrin p rest

/-- Whether a principal is bound. -/
def bound (s : State) (id : Word) : Bool := s.prins.any fun p => p.id == id

/-- The principal a record names, if R393 lets it be bound. -/
def prinOf (s : State) (b : List Byte) : Option Prin :=
  let p : Prin := { id := word (fieldAt b 0 4), vf := fieldAt b 4 1, rsa := bytesAt b 0x40 384, slh := bytesAt b 0x1C0 48, raw := b }
  let msg := bytesAt b 0 0x1F0
  if Config.rsaVerify p.rsa msg (bytesAt b 0x4150 384) && Config.slhVerify p.slh msg (bytesAt b 0x1F0 16224) && p.id != 0 &&
      p.id != ~~~0 && !bound s p.id && !(p.vf != 0 && s.prins.any fun q => q.vf == p.vf) && decide (s.prins.length < 1024) then
    some p
  else none

/-- PRINCIPAL_BIND (R393, R395): PBCMD with GO and OP 1. -/
def execPrincipalBind (s : State) : Outcome State Fault Refusal :=
  match prinOf s (Memory.readN s.host (s.pbaddr.toNat / 64 * 64) 0x4380) with
  | none => .next { s with pbErr := true }
  | some p =>
    match osMake s.osets [p.id.toNat] with
    | .error _ => .next { s with pbErr := true }
    | .ok (_, t) =>
      let s := { s with prins := insertPrin p s.prins, osets := t, pbErr := false }
      .next (if p.vf = 0 then s else s.modVf p.vf fun v => { v with principal := some p.id })

/-- PRINCIPAL_UNBIND (R393, R395): PBCMD with GO and OP 2: every entry that names the principal is retired. -/
def execPrincipalUnbind (pid : Word) (s : State) : Outcome State Fault Refusal :=
  match s.prins.find? fun p => p.id == pid with
  | none => .next { s with pbErr := true }
  | some p =>
    if p.vf ≠ 0 ∧ ((s.vf p.vf).state ≠ 0 ∨ (s.vf p.vf).changing) then .next { s with pbErr := true }
    else
      let s := { s with prins := s.prins.filter (fun q => q.id != pid), pbErr := false
                        osets := s.osets.map fun e => if e.2.prins.contains pid then (e.1, { prins := [], retired := true }) else e }
      .next (if p.vf = 0 then s else s.modVf p.vf fun v => { v with principal := none })

/-- OSET_RECLAIM (R395): PBCMD with GO and OP 3: every retired entry is freed. -/
def execOsetReclaim (s : State) : Outcome State Fault Refusal :=
  if s.grids.any fun p => !p.2.done then .next { s with pbErr := true }
  else .next { s with osets := s.osets.filter (fun e => !e.2.retired), pbErr := false }

/-- The principals that OSREQ names: strictly ascending, zeros only after the last; none where it breaks that. -/
def requested (ws : List Word) : Option (List Word) :=
  let ps := ws.takeWhile fun w => w != 0
  if ps.isEmpty || !((ws.drop ps.length).all fun w => w == 0) then none
  else if (ps.zip (ps.drop 1)).all fun q => decide (q.1.toNat < q.2.toNat) then some ps
  else none

/-- OSET_REQUEST (R395): OSCMD with GO. -/
def execOsetRequest (s : State) : Outcome State Fault Refusal :=
  match requested s.osreq with
  | none => .next { s with osErr := true, osIndex := 0 }
  | some ps =>
    if !ps.all (bound s) then .next { s with osErr := true, osIndex := 0 }
    else
      match osMake s.osets (ps.map fun p => p.toNat) with
      | .error _ => .next { s with osErr := true, osIndex := 0 }
      | .ok (i, t) => .next { s with osets := t, osErr := false, osIndex := i }

/-! ## Release policies (R396) -/

/-- The gates of a mask. -/
def maskGates (ctl : Word) : List Nat := (List.range 17).filter fun g => ctl.getLsbD (8 + g)

/-- The members a policy body names. -/
def bodyMembers (b : List Byte) : List Word := (List.range 4).map fun i => word (fieldAt b (8 + 4 * i) 4)

/-- The policy of a body. -/
def policyOf (b : List Byte) : Policy :=
  { members := (bodyMembers b).take (fieldAt b 4 1), kind := fieldAt b 5 1, dest := word (fieldAt b 0x18 4),
    expiry := dword (fieldAt b 0x20 8), budget := fieldAt b 0x28 8, nonce := dword (fieldAt b 0x30 8) }

/-- Whether a body keeps every constraint of R396 but for its signatures. -/
def bodyOk (s : State) (b : List Byte) : Bool :=
  let m := fieldAt b 4 1
  let p := policyOf b
  let zero (i n : Nat) : Bool := (bytesAt b i n).all fun x => x == 0
  fieldAt b 0 4 == 0x50524C51 && decide (1 ≤ m ∧ m ≤ 4) && (p.members.all fun x => x != 0) &&
    (((bodyMembers b).drop m).all fun x => x == 0) && ((p.members.zip (p.members.drop 1)).all fun q => decide (q.1.toNat < q.2.toNat)) &&
    p.members.all (bound s) && bytesAt b 0x38 48 == Config.sha384 s.bdDer && zero 6 2 && zero 0x1C 4 && zero 0x68 24 &&
    (if p.kind = 0 then p.dest != 0 && p.dest != ~~~0 else p.kind == 1 && (p.dest == 1 || p.dest == 2)) && p.budget != 0 &&
    decide (s.gtime.toNat < p.expiry.toNat)

/-- Whether a member's two signatures over a body's digest verify, under the keys bound to it. -/
def memberSigned (s : State) (blob : List Byte) (i : Nat) (id : Word) : Bool :=
  match s.prins.find? fun p => p.id == id with
  | none => false
  | some p =>
    let at_ := 128 + 16608 * i
    let msg := Config.sha384 (bytesAt blob 0 128)
    Config.rsaVerify p.rsa msg (bytesAt blob at_ 384) && Config.slhVerify p.slh msg (bytesAt blob (at_ + 384) 16224)

/-- POLICY_INSTALL (R396): PICMD with GO. -/
def execPolicyInstall (ctl : Word) (s : State) : Outcome State Fault Refusal :=
  let a := s.piaddr.toNat / 64 * 64
  let b := Memory.readN s.host a 128
  let p := policyOf b
  let blob := Memory.readN s.host a (128 + 16608 * p.members.length)
  if bodyOk s b && ((p.members.zip (List.range 4)).all fun q => memberSigned s blob q.2 q.1) then
    .next { s with piErr := false
                   gates := (maskGates ctl).foldl (fun m g => Map.put m g (Map.put (Map.get m g []) (bitsOf ctl.toNat 7 0) p)) s.gates }
  else .next { s with piErr := true }

/-- POLICY_REMOVE (R396): PIREM with GO empties a slot in every gate of the mask. -/
def execPolicyRemove (ctl : Word) (s : State) : Outcome State Fault Refusal :=
  .next { s with pirErr := false
                 gates := (maskGates ctl).foldl (fun m g => Map.put m g (Map.del (Map.get m g []) (bitsOf ctl.toNat 7 0))) s.gates }

/-! ## Host attestation over DOE (R391, R392, R383) -/

/-- An SPDM ERROR response with a code (DSP0274). -/
def spdmError (code : Nat) : List Byte := [0x13, 0x7F, BitVec.ofNat 8 code, 0]

/-- Puts a reply into the mailbox. -/
def doeReply (s : State) (r : List Byte) : State := { s with doe := { s.doe with reply := r } }

/-- Serves a DOE request where BD may: its own check passed and the PF is ready (R381, R427); else an ERROR, Busy. -/
def doe (s : State) (act : State → State) : State := if s.bdDown || !s.pfReady then doeReply s (spdmError 0x03) else act s

/-- The code of an ERROR for a request out of its order, UnexpectedRequest, and for one not supported. -/
def unexpected (s : State) : State := doeReply s (spdmError 0x04)

/-- GET_VERSION (R391): a conversation starts anew. -/
def execGetVersion (req : List Byte) (s : State) : Outcome State Fault Refusal :=
  .next (doe s fun s =>
    let r := Config.spdmReply 0x84 req
    { s with doe := { Spdm.init with version := true, vca := req ++ r, reply := r } })

/-- GET_CAPABILITIES (R391). -/
def execGetCapabilities (req : List Byte) (s : State) : Outcome State Fault Refusal :=
  .next (doe s fun s =>
    if !s.doe.version then unexpected s
    else
      let r := Config.spdmReply 0xE1 req
      { s with doe := { s.doe with caps := true, vca := s.doe.vca ++ req ++ r, reply := r } })

/-- NEGOTIATE_ALGORITHMS (R391). -/
def execNegotiateAlgorithms (req : List Byte) (s : State) : Outcome State Fault Refusal :=
  .next (doe s fun s =>
    if !s.doe.caps then unexpected s
    else
      let r := Config.spdmReply 0xE3 req
      { s with doe := { s.doe with algs := true, vca := s.doe.vca ++ req ++ r, reply := r } })

/-- GET_DIGESTS (R391). -/
def execGetDigests (req : List Byte) (s : State) : Outcome State Fault Refusal :=
  .next (doe s fun s =>
    if !s.doe.algs then unexpected s
    else
      let r := Config.spdmReply 0x81 req
      { s with doe := { s.doe with certs := s.doe.certs ++ req ++ r, reply := r } })

/-- GET_CERTIFICATE (R391). -/
def execGetCertificate (req : List Byte) (s : State) : Outcome State Fault Refusal :=
  .next (doe s fun s =>
    if !s.doe.algs then unexpected s
    else
      let r := Config.spdmReply 0x82 req
      { s with doe := { s.doe with certs := s.doe.certs ++ req ++ r, reply := r } })

/-- CHALLENGE (R391): its transcript, up to the response but for its signature, is what the two signatures cover. -/
def execChallenge (req : List Byte) (s : State) : Outcome State Fault Refusal :=
  .next (doe s fun s =>
    if !s.doe.algs then unexpected s
    else
      let r := Config.spdmReply 0x83 req
      let t := s.doe.vca ++ s.doe.certs ++ req ++ r
      { s with doe := { s.doe with challengeT := t, reply := r ++ Config.bdRsaSign (Config.sha384 t) } })

/-- The measurement block of a chiplet: its digest, or where it is not Live the all-zero digest with its state code in the first
byte (R392). BD's is that of itself, which it has checked from ROM (R381). -/
def chipletBlock (s : State) (c : Nat) : List Byte :=
  let st := chipState s c
  if st ≠ .live then BitVec.ofNat 8 st.code :: List.replicate 47 0
  else if c = 0 then Config.measurement 0
  else (s.chiplet c).digest

/-- The 26 measurement blocks (R392): the chiplets, then the digest of the principal table (R394). -/
def measureBlocks (s : State) : List (List Byte) :=
  ((List.range 25).map fun c => chipletBlock s c) ++ [Config.sha384 (s.prins.flatMap fun p => p.raw)]

/-- GET_MEASUREMENTS (R391, R392). -/
def execGetMeasurements (req : List Byte) (s : State) : Outcome State Fault Refusal :=
  .next (doe s fun s =>
    if !s.doe.algs then unexpected s
    else
      let r := Config.measurementsReply req (measureBlocks s)
      let t := s.doe.vca ++ req ++ r
      { s with doe := { s.doe with measT := t, reply := r ++ Config.bdRsaSign (Config.sha384 t) } })

/-- The payload of a vendor-defined message of Nolvy's; none where it is not one (R383). -/
def vendorPayload (req : List Byte) : Option (List Byte) :=
  if fieldAt req 4 2 = 4 ∧ fieldAt req 6 1 = 4 ∧ fieldAt req 7 4 = 0xEF5B ∧ req.length = 13 + fieldAt req 11 2 then
    some (req.drop 13)
  else none

/-- The answer to a payload: the SLH-DSA signature over the transcript that the selector names, or an ERROR (Table 17.9, R383). -/
def vendorAnswer (s : State) (p : List Byte) : List Byte :=
  let code := fieldAt p 0 2
  let sel := fieldAt p 2 1
  if code = 2 then spdmError 0x07
  else if code ≠ 1 ∨ p.length ≠ 8 ∨ 2 < sel ∨ !((bytesAt p 3 5).all fun x => x == 0) then spdmError 0x01
  else if sel = 2 then spdmError 0x07
  else
    let t := if sel = 0 then s.doe.challengeT else s.doe.measT
    if t.isEmpty then spdmError 0x04
    else
      [0x13, 0x7E, 0, 0] ++ bytesOf 2 4 ++ bytesOf 1 4 ++ bytesOf 4 0xEF5B ++ bytesOf 2 16232 ++
        signPayload sel (Config.bdSlhSign (Config.sha384 t))

/-- VENDOR_DEFINED_REQUEST (R383, R391). -/
def execVendorDefinedRequest (req : List Byte) (s : State) : Outcome State Fault Refusal :=
  .next (doe s fun s =>
    match vendorPayload req with
    | none => doeReply s (spdmError 0x01)
    | some p => doeReply s (vendorAnswer s p))

/-- KEY_EXCHANGE (R391): sessions are not supported. -/
def execKeyExchange (_req : List Byte) (s : State) : Outcome State Fault Refusal := .next (doe s fun s => doeReply s (spdmError 0x07))

/-- PSK_EXCHANGE (R391): sessions are not supported. -/
def execPskExchange (_req : List Byte) (s : State) : Outcome State Fault Refusal := .next (doe s fun s => doeReply s (spdmError 0x07))

/-- Any other request returns ERROR as DSP0274 gives: UnsupportedRequest (R391). -/
def execSpdmOtherRequest (_req : List Byte) (s : State) : Outcome State Fault Refusal :=
  .next (doe s fun s => doeReply s (spdmError 0x07))

end Sys2Proof.Machine
end

