-- ==== Sys2Proof/Machine/Observation.lean ====
section
/-! DEFINITION. Counter windows, leases, PC samples, precise stops, replay modes and trials (18_observation.md R402 to R417).
A function number names a VF, 0 the PF. -/

namespace Sys2Proof.Machine

open Host (Outcome)

/-! ## Banks as a function sees them (R401, R402, R405) -/

/-- The units of a kind of bank, and its counters (Table 18.1). -/
def bankUnits (kind : Nat) : Nat := if kind = 1 then 256 else if kind = 2 then 256 else if kind = 3 then 12 else if kind = 4 then 16 else 0
/-- The counters of a bank. -/
def bankCounters (kind : Nat) : Nat := if kind = 1 then 16 else if kind = 2 then 8 else 4

/-- The cores of the donor clusters open to a VF, ascending. -/
def donorCores (s : State) (vf : Nat) : List Nat := coresOf (openDonors s vf)

/-- The physical unit of a logical one, and whether the bank is the harvest bank: a harvest tenant's numbers for the donor cores
open to it follow those of its own cores, and the hypervisor's numbers are physical, with bit 11 for harvest banks
(assumption 21). -/
def bankUnit (s : State) (fn kind idx : Nat) : Option (Nat × Bool) :=
  if fn = 0 then (if idx % 2048 < bankUnits kind then some (idx % 2048, kind == 1 && decide (2048 ≤ idx)) else none)
  else
    match kind with
    | 1 =>
      match Map.find? (s.vf fn).placeCore idx with
      | some k => some (k, false)
      | none => ((donorCores s fn)[idx - (s.vf fn).placeCore.length]?).map fun k => (k, true)
    | 2 => ((s.vf fn).cfg.slices[idx]?).map fun k => (k, false)
    | 3 | 4 => if idx < bankUnits kind then some (idx, false) else none
    | _ => none

/-- The bank that a function's BSEL names, where the function holds it, with whether it reads frozen counts (R402, R406). -/
def selected (s : State) (fn : Nat) : Option (Bank × Bool) :=
  let sel := (s.fn fn).bsel.toNat
  match bankUnit s fn (bitsOf sel 31 28) (bitsOf sel 11 0) with
  | none => none
  | some (u, h) =>
    let b := bankAt s (bitsOf sel 31 28) u h
    if b.holder = holderOf fn then some (b, false)
    else if Map.has b.frozenC fn then some (b, true)
    else none

/-- The codes of Table 18.4 for a kind of bank. -/
def eventListed (kind code : Nat) : Bool :=
  let n := code % 256
  code / 256 == kind - 1 && decide (1 ≤ n) && decide (n ≤ (if kind = 1 then 10 else if kind = 2 then 4 else 3))

/-- A counter's select as a write leaves it (Table 18.3). -/
def selOf (x : Word) : Word :=
  let cls := bitsOf x.toNat 25 24
  (x &&& 0x8000FFFF) ||| word ((if cls = 3 then 0 else cls) * 2 ^ 24)

/-- CSEL_WRITE (R402, R403): a counter's select, for the selected bank; an event that its kind does not list is ignored whole. -/
def execCselWrite (fn n : Nat) (x : Word) (s : State) : Outcome State Fault Refusal :=
  match selected s fn with
  | some (b, false) =>
    if bankCounters b.kind ≤ n || !eventListed b.kind (bitsOf x.toNat 15 0) then .next s
    else
      let c := { Map.get b.ctrs n Counter.init with sel := selOf x }
      let c := if x.getLsbD 30 then { c with count := 0, ovf := false } else c
      .next (putBank s { b with ctrs := Map.put b.ctrs n c })
  | _ => .next s

/-- COUNTER_CLEAR (R403): a write of CLR zeroes a counter and its OVF. -/
def execCounterClear (fn n : Nat) (s : State) : Outcome State Fault Refusal :=
  match selected s fn with
  | some (b, false) => .next (putBank s { b with ctrs := Map.mod b.ctrs n fun c => { c with count := 0, ovf := false } })
  | _ => .next s

/-- A counter as a function reads it: 0 where it holds no such bank. -/
def counterRead (s : State) (fn n : Nat) : Counter :=
  match selected s fn with
  | some (b, false) => Map.get b.ctrs n Counter.init
  | some (b, true) => { Map.get (Map.get b.frozenC fn []) n Counter.init with frozen := true }
  | none => Counter.init

/-- The high word of a counter (Table 18.2). -/
def Counter.hiWord (c : Counter) : Word :=
  word ((if c.frozen then 2 ^ 31 else 0) + (if c.ovf then 2 ^ 30 else 0) + c.count.toNat / 2 ^ 32)

/-- CNTLO_READ (R404): returns a counter's low word; the latch takes the high one. -/
def execCntloRead (fn n : Nat) (s : State) : Outcome State Fault Refusal :=
  let c := counterRead s fn n
  .next ({ s with readOut := dword (c.count.toNat % 2 ^ 32) }.modFn fn fun v => { v with latch := some (n, v.bsel, c.hiWord) })

/-- CNTHI_READ (R404): returns the latch of the same counter and empties it, else the live high word. -/
def execCnthiRead (fn n : Nat) (s : State) : Outcome State Fault Refusal :=
  let v := s.fn fn
  match v.latch with
  | some (m, b, w) =>
    if m = n ∧ b = v.bsel then .next ({ s with readOut := zx w }.modFn fn fun v => { v with latch := none })
    else .next { s with readOut := zx (counterRead s fn n).hiWord }
  | none => .next { s with readOut := zx (counterRead s fn n).hiWord }

/-! ## Leases (R405, R406, Table 18.5) -/

/-- The fields of a lease request as the register keeps them. -/
def lsFields (x : Word) : Word := x &&& word 0x0FE00FFF

/-- Ends a request: granted or refused. -/
def leaseDone (s : State) (fn : Nat) (x : Word) (grant err : Bool) : State :=
  s.modFn fn fun v => { v with lsreq := lsFields x ||| (if grant then word (2 ^ 30) else 0) ||| if err then word (2 ^ 28) else 0 }

/-- A bank that a function may lease: its own, or one that nobody holds and that its work may reach (Table 18.1). -/
def leasable (s : State) (fn : Nat) (b : Bank) : Bool :=
  !b.leased && (b.holder == fn || (b.holder == 0 && (b.kind != 1 || b.harvest || poolPart s fn)))

/-- The trace unit of a logical cluster, or of a physical one for the hypervisor: each cluster has one (R408). -/
def traceUnit (s : State) (fn idx : Nat) : Option Nat :=
  if fn = 0 then (if idx < 64 then some idx else none) else Map.find? (s.vf fn).placeClu idx

/-- Where the registers of a VF's trace unit stand, frozen, from a revocation until the VF releases its lease (R406): no unit, but past the
64 of them by VF and cluster. -/
def frozenTrace (vf unit : Nat) : Nat := 64 * (vf + 1) + unit

/-- Whether a function's last lease request names a resource: GRANT is of that request alone (Table 18.5). -/
def lsNames (s : State) (fn kind : Nat) (unit : Nat × Bool) : Bool :=
  let x := (s.fn fn).lsreq.toNat
  bitsOf x 24 21 == kind &&
    (if kind = 6 then true
     else if kind = 5 then traceUnit s fn (bitsOf x 11 0) == some unit.1
     else bankUnit s fn kind (bitsOf x 11 0) == some unit)

/-- A VF's lease is revoked (R406): REVOKED is set, GRANT clears where it is of that lease, and the management vector is sent. -/
def tellRevoked (s : State) (vf kind : Nat) (unit : Nat × Bool) : State :=
  let named := lsNames s vf kind unit
  sendMsi (s.modVf vf fun v =>
    { v with lsreq := (if named then v.lsreq &&& ~~~word (2 ^ 30) else v.lsreq) ||| word (2 ^ 29) }) vf 0

/-- Takes a bank from a guest for the hypervisor (R406): the lease is revoked, and the guest's counts freeze. -/
def revokeBank (s : State) (b : Bank) : State :=
  let guest := b.leased && b.holder != pfHolder
  let s := putBank s { b with holder := pfHolder, leased := true, ctrs := [],
                              frozenC := if guest then Map.put b.frozenC b.holder b.ctrs else b.frozenC }
  if guest then tellRevoked s b.holder b.kind (b.unit, b.harvest) else s

/-- Takes a trace unit for the hypervisor (R406): a guest's stops writing after a record of kind 7, and its registers freeze. -/
def revokeTrace (s : State) (unit : Nat) : State :=
  match Map.find? s.traces unit with
  | none => s
  | some t =>
    if t.holder = pfHolder then s
    else
      let r : TRec := { kind := 7, flags := 0, code := 0, crew := 0, grid := 0, clause := 0, index := 0, sheaf := 0, thread := 0,
                        mask := 0, pay := 0 }
      let s := if t.ctl.getLsbD 16 then traceWrite s unit t r else s
      let t := { Map.get s.traces unit t with frozen := true }
      let s := { s with traces := Map.put (Map.del s.traces unit) (frozenTrace t.holder unit) t }
      tellRevoked (s.modVf t.holder fun v => { v with trace := some (frozenTrace t.holder unit) }) t.holder 5 (unit, false)

/-- Takes the trial of a VF for the hypervisor (R406). -/
def revokeTrial (s : State) (vf : Nat) : State :=
  let s := { s with pf := { s.pf with trialHeld := true, trialFor := vf } }
  if (s.vf vf).trialHeld then
    tellRevoked (s.modVf vf fun v => { v with trialHeld := false, trial := { v.trial with busy := false } }) vf 6 (0, false)
  else s

/-- What the hypervisor takes (R406): a bank, a trace unit, or the trial of a VF. -/
def takeFor (s : State) (kind unit : Nat) : State :=
  if kind = 5 then
    if unit < 64 then
      let s := revokeTrace s unit
      { s with traces := Map.upd s.traces unit { Trace.init with holder := pfHolder } id, pf := { s.pf with trace := some unit } }
    else s
  else if kind = 6 then revokeTrial s unit
  else
    match bankUnit s 0 kind unit with
    | some (u, h) => if (bankAt s kind u h).holder = pfHolder then s else revokeBank s (bankAt s kind u h)
    | none => s

/-- LEASE_REVOKE (R406): the hypervisor takes a leased resource through the PF's copy of the registers. -/
def execLeaseRevoke (kind unit : Nat) (s : State) : Outcome State Fault Refusal := .next (takeFor s kind unit)

/-- A VF's lease request by kind and unit; none where it is refused. -/
def grantLease (s : State) (vf kind unit : Nat) : Option State :=
  if kind = 5 then
    match traceUnit s vf unit with
    | none => none
    | some u =>
      if (Map.has s.traces u) || (s.vf vf).trace.isSome then none
      else some ({ s with traces := Map.put s.traces u { Trace.init with holder := vf } }.modVf vf fun v => { v with trace := some u })
  else if kind = 6 then
    if unit = 0 && !(s.vf vf).trialHeld && trialFn s vf != 0 then some (s.modVf vf fun v => { v with trialHeld := true }) else none
  else
    match bankUnit s vf kind unit with
    | none => none
    | some (u, h) =>
      let b := bankAt s kind u h
      if leasable s vf b then some (putBank s { b with holder := vf, leased := true }) else none

/-- LEASE_REQUEST (R405): LSREQ with GO and OP 1; the hypervisor's own takes the resource (R406). -/
def execLeaseRequest (fn : Nat) (x : Word) (s : State) : Outcome State Fault Refusal :=
  let kind := bitsOf x.toNat 24 21
  let unit := bitsOf x.toNat 11 0
  if fn = 0 then
    let ok := kind = 6 ∨ (kind = 5 ∧ unit < 64) ∨ (bankUnit s 0 kind unit).isSome
    .next (if ok then leaseDone (takeFor s kind unit) fn x true false else leaseDone s fn x false true)
  else
    match grantLease s fn kind unit with
    | some s => .next (leaseDone s fn x true false)
    | none => .next (leaseDone s fn x false true)

/-- Gives a bank back: its owner's counts go on, any other bank is held by no one; what is frozen in it for a guest stays (R406). -/
def returnBank (s : State) (b : Bank) : State :=
  if bankOwner s b.kind b.unit b.harvest = b.holder then putBank s { b with leased := false }
  else putBank s { bankFresh s b.kind b.unit b.harvest with frozenC := b.frozenC }

/-- A release by kind and unit; none where the function has no such lease. -/
def dropLease (s : State) (fn kind unit : Nat) : Option State :=
  if kind = 5 then
    match traceUnit s fn unit, (s.fn fn).trace with
    | some u, held =>
      let key := if fn ≠ 0 && held == some (frozenTrace fn u) then frozenTrace fn u else u
      match Map.find? s.traces key with
      | some t =>
        if t.holder = holderOf fn then
          some ({ s with traces := Map.del s.traces key }.modFn fn fun v => { v with trace := if v.trace = some key then none else v.trace })
        else none
      | none => none
    | none, _ => none
  else if kind = 6 then
    if (s.fn fn).trialHeld && (if fn = 0 then s.pf.trialFor == unit else unit == 0) then
      some (s.modFn fn fun v => { v with trialHeld := false, trialFor := 0, trial := { v.trial with busy := false } })
    else none
  else
    match bankUnit s fn kind unit with
    | none => none
    | some (u, h) =>
      let b := bankAt s kind u h
      if b.leased && b.holder == holderOf fn then some (returnBank s b)
      else if Map.has b.frozenC fn then some (putBank s { b with frozenC := Map.del b.frozenC fn })
      else none

/-- LEASE_RELEASE (R405, R406): LSREQ with GO and OP 2. -/
def execLeaseRelease (fn : Nat) (x : Word) (s : State) : Outcome State Fault Refusal :=
  match dropLease s fn (bitsOf x.toNat 24 21) (bitsOf x.toNat 11 0) with
  | some s => .next (leaseDone s fn x false false)
  | none => .next (leaseDone s fn x false true)

/-! ## PC samples (R409) -/

/-- The flags a group waits for, as a mask. -/
def blockMask (s : State) (crew grp : Nat) : Nat :=
  match startIss s crew grp with
  | some x => sumOf ((awaited x).map fun i => 2 ^ i)
  | none => 0

/-- The phases a barrier has completed. -/
def phasesOf (c : Crew) (b : Nat) : Nat := ((Map.find? c.barriers b).map fun x => x.phases).getD 0

/-- Whether the wait of a group at its instruction may be over: the instruction itself decides, at WAITF, at a barrier, at BARPW and
at JOINC only once what it waits for has come about; a halt for fault service lasts until the answer, the waits for a fast buffer and
for a landing slot until one is given. -/
def groupWaitOver (c : Crew) (g : Group) : Bool :=
  let ps := g.live c
  let woken := c.posted.any fun p => p.threads.any fun q => ps.contains q
  match g.wait with
  | .waitf f thr => flagMet c ps f thr || woken
  | .bar b => woken || ps.all fun p =>
      match (c.thread p).barWait with
      | some (_, n) => decide (n ≤ phasesOf c b)
      | none => true
  | .barpw pend => pend.isEmpty || woken
  | .joinc gs => !gs.any fun i => c.children.contains i
  | .fault _ | .buffer | .landing _ => false
  | _ => true

/-- Whether a group issues its next instruction group: its crew is resident, it is not halted, a clause of it is active, and it
does not wait. -/
def canIssue (c : Crew) (g : Group) : Bool :=
  c.st == .resident && !g.halted &&
    match g.episode with
    | some e => e.active.isSome || decide (512 ≤ e.count) || episodeMet c g
    | none => g.active.isSome && groupWaitOver c g

/-- Where a group stands: clause, and the index of the instruction word it issues next, which is its PC (R163). -/
def Group.place (c : Crew) (g : Group) : Option (Dword × Nat) :=
  match g.active with
  | some a => some (a.addr, a.index + prefixCount (a.words.drop (a.index - 1)))
  | none =>
    (g.pc c).map fun p =>
      match g.clause c with
      | some (_, ws) => (p.1, p.2 + prefixCount (ws.drop (p.2 - 1)))
      | none => p

/-- The resident groups of a VF's crews on a core that are blocked: crew, group, and where the group stands. -/
def blockedOn (s : State) (holder core : Nat) : List (Nat × Nat × Dword × Nat) :=
  let ws := (coreCrews s core).filter fun p => p.2.st == .resident && (holder == pfHolder || crewVf s p.2 == holder)
  ws.flatMap fun p => (p.2.groups.filter fun g => !canIssue p.2 g.2).filterMap fun g => (g.2.place p.2).map fun pc => (p.1, g.1, pc.1, pc.2)

/-- What a sample names: the group of the holder's crews that has just issued, else the oldest blocked one, of the crew dispatched first. -/
def sampled (s : State) (holder core : Nat) : Option (Nat × Nat × Dword × Nat) :=
  match (s.core core).latest.filter fun q => holder == pfHolder || (s.gridOf q.1).any fun p => p.2.vf == holder with
  | some q => some q
  | none => leastBy (fun q : Nat × Nat × Dword × Nat => ((Map.find? s.crews q.1).map fun w => w.order).getD 0) (blockedOn s holder core)

/-- Writes a sample of a core into a unit's ring, one record per contributing home sheaf (R407). -/
def sampleUnit (s : State) (unit : Nat) (t : Trace) (core : Nat) : State :=
  match sampled s t.holder core with
  | none => s
  | some (crew, grp, a, ix) =>
    match s.gridOf crew with
    | none => s
    | some (w, g) =>
      match Map.find? w.groups grp with
      | none => s
      | some gr =>
        let ps := gr.live w
        let r := { TRec.ofCrew 3 w.grid g w with clause := a, index := ix, pay := dword (blockMask s crew grp) }
        let r := if gr.episode.isSome then { r with flags := r.flags + 1 } else r
        (homesOf ps).foldl (fun s h =>
          match Map.find? s.traces unit with
          | some t => traceWrite s unit t { r with sheaf := h, thread := 32 * h, mask := maskOf ps h }
          | none => s) s

/-- TRACE_PC_SAMPLE (R409): the samples of a cluster's trace unit. -/
def execTracePcSample (cluster : Nat) (s : State) : Outcome State Fault Refusal :=
  match Map.find? s.traces cluster with
  | none => .next s
  | some t =>
    if !t.wants 3 then .next s
    else
      match t.follows s with
      | some core => .next (sampleUnit s cluster t core)
      | none => .next s

/-! ## Precise stops (R410, R411) -/

/-- Stops a crew precisely: it halts at its next instruction boundary, and a record of kind 4 is written, code 0 for a command
and 1 + i for breakpoint i. A crew that holds no core is kept from a new one. -/
def stopCrew (s : State) (n code : Nat) (grp : Option Nat) : State :=
  match s.gridOf n with
  | none => s
  | some (w, g) =>
    let s := s.modCrew n fun c => { c with stop := true }
    if w.st ≠ .resident then s
    else
      let gr := (grp.bind fun i => Map.find? w.groups i).getD ((w.groups.head?.map fun p => p.2).getD (Group.init 0 0 false []))
      let pc := (gr.place w).getD (0, 0)
      let s := traceThreads s w.grid g w 4 code pc.1 pc.2 (gr.live w)
      haltCrew s n .stopping

/-- Whether a group stands at an address and index that a DBGA register of its VF names, and that has not stopped it there yet
(R410, R411): the index is that of the instruction word, its PC (R163). -/
def breakpointAt (s : State) (crew grp : Nat) : Option Nat :=
  match s.gridOf crew with
  | none => none
  | some (w, g) =>
    match Map.find? w.groups grp with
    | none => none
    | some gr =>
      match gr.episode, gr.active with
      | none, some a =>
        if gr.brk == some (a.addr, a.index) then none
        else
          (List.range 4).find? fun i =>
            let d := (Map.get (s.vf g.vf).dbga i 0).toNat
            d != 0 && bitsOf d 58 4 == bitsOf a.addr.toNat 56 2 && bitsOf d 3 0 == a.index + prefixCount (a.words.drop (a.index - 1))
      | _, _ => none

/-- A breakpoint stops a crew before the instruction issues. -/
def hitBreakpoint (s : State) (crew grp i : Nat) : State :=
  let s := s.modGroup crew grp fun g => { g with brk := g.here }
  stopCrew s crew (1 + i) (some grp)

/-- The crew of the target grid that a debug command names, where the grid is the VF's. -/
def debugTarget (s : State) (vf : Nat) (ctl : Word) : Option Nat :=
  match Map.find? s.grids (s.vf vf).dbggrid.toNat with
  | none => none
  | some g =>
    if g.vf ≠ vf then none
    else
      (List.find? (fun p : Nat × Crew => p.2.grid == (s.vf vf).dbggrid.toNat && p.2.index == bitsOf ctl.toNat 27 0 &&
        p.2.st != .retired && p.2.st != .killed) s.crews).map fun p => p.1

/-- The crew of the target grid, by grid and index, that a debug command names and that is still to be dispatched: it stops at its first
instruction boundary (assumption 59). -/
def lateTarget (s : State) (vf : Nat) (ctl : Word) : Option (Nat × Nat) :=
  let gid := (s.vf vf).dbggrid.toNat
  let i := bitsOf ctl.toNat 27 0
  match Map.find? s.grids gid with
  | some g => if g.vf = vf ∧ g.next ≤ i ∧ i < g.crews ∧ !g.done ∧ g.stopped.isNone then some (gid, i) else none
  | none => none

/-- Keeps a debug command's fields and whether it was refused. -/
def debugDone (s : State) (vf : Nat) (ctl : Word) (refused : Bool) : State :=
  s.modVf vf fun v => { v with dbgctl := ctl &&& word 0x7FFFFFFF, dbgstat := if refused then 1 else 0 }

/-- DEBUG_STOP (R410, R411): DBGCTL with GO and OP 1. -/
def execDebugStop (vf : Nat) (ctl : Word) (s : State) : Outcome State Fault Refusal :=
  match debugTarget s vf ctl, lateTarget s vf ctl with
  | some n, _ => .next (stopCrew (debugDone s vf ctl false) n 0 none)
  | none, some (g, i) => .next ((debugDone s vf ctl false).modGrid g fun d => { d with stops := insertAsc i d.stops })
  | none, none => .next (debugDone s vf ctl true)

/-- Whether a crew is stopped: at rest on its core, or off it. -/
def Crew.isStopped (w : Crew) : Bool := w.stop && (w.st == .stopped || w.st == .evicted || w.st == .saved)

/-- Lets a stopped crew go on, on its core unless it was evicted. -/
def releaseCrew (s : State) (n : Nat) : State :=
  s.modCrew n fun c =>
    { c with stop := false, st := if c.st == .stopped then .resident else c.st,
             groups := c.groups.map fun g => (g.1, { g.2 with halted := false }) }

/-- DEBUG_RESUME (R410, R411): DBGCTL with GO and OP 2. -/
def execDebugResume (vf : Nat) (ctl : Word) (s : State) : Outcome State Fault Refusal :=
  match (debugTarget s vf ctl).bind fun n => (Map.find? s.crews n).map fun w => (n, w) with
  | some (n, w) => .next (if w.isStopped then releaseCrew (debugDone s vf ctl false) n else debugDone s vf ctl true)
  | none => .next (debugDone s vf ctl true)

/-- The sets that a crew's state carries. -/
def crewSets (s : State) (n : Nat) (w : Crew) : List OSet :=
  let vals (m : Map OSet) : List OSet := m.map fun p => p.2
  vals w.scratchS ++ (leavingW s n w ++ w.unitsA ++ w.unitsC).map (fun u => u.2.set) ++
    (s.ops.filterMap fun p => if p.2.crew == n && !(imageCopy p.2).isEmpty then some p.2.set else none) ++
    w.sheaves.flatMap fun h =>
      vals h.mainS ++ vals h.kS ++ vals h.pS ++ h.threads.flatMap fun t => [t.octx, t.rmodeS, t.ptselS, t.fpxS, t.trapS]

/-- Writes a stopped crew's save record to the dump area through the host link's gate, where it fits (R397, R411). -/
def dumpCrew (s : State) (vf : Nat) (ctl : Word) (n : Nat) (w : Crew) (g : Grid) : State :=
  let v := s.vf vf
  let bs := saveRecord s n w g
  if v.dbgdlen.toNat / 4096 * 4096 < bs.length then debugDone s vf ctl true
  else
    let s := debugDone s vf ctl false
    match osJoinAll s.osets 0 (crewSets s n w) with
    | .error _ => s.notice vf .egressDenied (denialRec FRec.init hostGate 0 (hostDest s vf))
    | .ok (y, t) =>
      match gateCheck { s with osets := t } hostGate bs.length y (hostDest s vf) with
      | none => s.notice vf .egressDenied (denialRec FRec.init hostGate y (hostDest s vf))
      | some s => { s with host := Memory.writeN s.host (v.dbgdump.toNat / 4096 * 4096) bs }

/-- DEBUG_DUMP (R410, R411): DBGCTL with GO and OP 3. -/
def execDebugDump (vf : Nat) (ctl : Word) (s : State) : Outcome State Fault Refusal :=
  match (debugTarget s vf ctl).bind fun n => (s.gridOf n).map fun q => (n, q) with
  | some (n, w, g) => .next (if w.isStopped then dumpCrew s vf ctl n w g else debugDone s vf ctl true)
  | none => .next (debugDone s vf ctl true)

/-! ## Record and replay (R412 to R414) -/

/-- A write of RRCTL (Table 18.7): refused whole while a grid of the VF runs, or for mode 3. The streams begin anew. -/
def writeRrctl (s : State) (vf mode : Nat) : State :=
  if mode = 3 || s.grids.any fun p => p.2.vf == vf && !p.2.done then s
  else s.modVf vf fun v => { v with replay := { v.replay with mode := mode, stat := 0, streams := [] } }

/-- REPLAY_OFF (R412). -/
def execReplayOff (vf : Nat) (s : State) : Outcome State Fault Refusal := .next (writeRrctl s vf 0)

/-- RECORD_MODE (R412). -/
def execRecordMode (vf : Nat) (s : State) : Outcome State Fault Refusal := .next (writeRrctl s vf 1)

/-- REPLAY_MODE (R412). -/
def execReplayMode (vf : Nat) (s : State) : Outcome State Fault Refusal := .next (writeRrctl s vf 2)

/-! ## Trials (R416, R417) -/

/-- TRIAL_START (R416, R417): CTCTL with GO clears the counts of the enabled points; refused without the lease, while a trial
runs, and where a register breaks its constraint. The PF's copy runs the trial of the VF it has taken (R406). -/
def execTrialStart (fn : Nat) (ctl : Word) (s : State) : Outcome State Fault Refusal :=
  let v := s.fn fn
  let t := v.trial
  if !v.trialHeld || t.busy || decide (t.hi.toNat ≤ t.lo.toNat) || bitsOf ctl.toNat 15 0 = 0 then
    .next (s.modFn fn fun v => { v with trial := { v.trial with err := true } })
  else
    .next (s.modFn fn fun v =>
      { v with markc := v.markc.filter fun p => !t.pts.getLsbD p.1
               trial := { v.trial with ctl := ctl &&& word 0x00FFFFFF, busy := true, err := false,
                                       due := s.gtime + dword (1000 * bitsOf ctl.toNat 15 0) } })

/-- TRIAL_END (R417): the duration has ended; the counts stand. -/
def execTrialEnd (fn : Nat) (s : State) : Outcome State Fault Refusal :=
  let t := (s.fn fn).trial
  .next (if t.busy && decide (t.due.toNat ≤ s.gtime.toNat) then s.modFn fn fun v => { v with trial := { v.trial with busy := false } } else s)

end Sys2Proof.Machine
end

