-- ==== Sys2Proof/Machine/Platform.lean ====
section
/-! DEFINITION. Resets on the host link, islands and power, firmware, ports, and writes of the registers of the two BARs
(19_platform.md R418 to R427; Tables 14.1, 15.3, 16.6, 17.3, 18.2, 18.7, 18.8, 19.2). -/

namespace Sys2Proof.Machine

open Host (Outcome)

/-! ## Resets (R420, R427) -/

/-- Whether a queue of a VF is still to be killed whole. -/
def killsLeft (v : Vf) : Bool := v.queues.any fun q => q.2.st == .running || q.2.st == .killing

/-- The end of a VF's reset (R420): its queue, fault-queue, trace and replay registers, its leases and its events return to their reset
values. -/
def clearVf (s : State) (vf : Nat) : State :=
  let back := s.banks.filter fun b => b.leased && b.holder == vf
  let s := back.foldl returnBank s
  let thaw (b : Bank) : Bank := { b with frozenC := Map.del b.frozenC vf }
  let s := { s with banks := s.banks.map thaw
                    traces := s.traces.filter fun p => p.2.holder != vf }
  s.modVf vf fun v =>
    { v with flr := false, queues := [], events := [], fq := FaultQ.init, trace := none, replay := Replay.init, lsreq := 0, trialHeld := false,
             trial := Trial.init, masked := Vf.init.masked, pendMsi := [] }

/-- Ends the resets that wait for kills, once the kills are over. -/
def endFlr (s : State) (vf : Nat) : State := if (s.vf vf).flr && !killsLeft (s.vf vf) then clearVf s vf else s

/-- Returns a VF to reset (R420): its queues are killed whole (R338), and its registers then return to reset. -/
def flrVf (s : State) (vf : Nat) : State :=
  let s := (Map.keys (s.vf vf).queues).foldl (fun s q => killQueue s vf q) s
  endFlr (s.modVf vf fun v => { v with flr := true }) vf

/-- VF_FLR (R420). -/
def execVfFlr (vf : Nat) (s : State) : Outcome State Fault Refusal := .next (flrVf s vf)

/-- The registers of a VF that stand in the PF's BAR return to reset (assumption 22). -/
def clearPfRegs (v : Vf) : Vf := { v with s2root := 0, gframe := 0, bframe := 0, csa := 0, csalen := 0, swtrl := 0, swtrlN := 0 }

/-- PF_FLR (R420): every VF is reset, and the PF's own registers return to reset values; partitions, principals, policies and keys
stay. -/
def execPfFlr (s : State) : Outcome State Fault Refusal :=
  let s := (Map.keys s.vfs).foldl flrVf s
  .next { s with
    poolmask := if s.vfs.any (fun p => p.2.state != 0 && p.2.cfg.clusters == 0) then s.poolmask else 0
    pf := Vf.init, vfs := s.vfs.map fun p => (p.1, clearPfRegs p.2), banks := s.banks.filter fun b => b.holder != pfHolder
    traces := s.traces.filter fun p => p.2.holder != pfHolder, hfq := FaultQ.init
    htlbi := { Tlbi.init with busy := s.htlbi.busy, scope := s.htlbi.scope, who := s.htlbi.who, first := s.htlbi.first,
                              pages := s.htlbi.pages, fills := s.htlbi.fills, ops := s.htlbi.ops, born := s.htlbi.born, seqs := s.htlbi.seqs, cmds := s.htlbi.cmds, flush := s.htlbi.flush }
    fstat := false, rcbuf := 0, rcstat := 0, rcWanted := 0, rcVict := [], pmstat := 0
    pcmd := if s.pcmd.go then { s.pcmd with desc := 0, quiet := true } else PCmd.init, pbaddr := 0, pbErr := false, osreq := [0, 0, 0, 0], osErr := false, osIndex := 0
    piaddr := 0, piErr := false, pirErr := false, chErr := false, chCmd := 0, ftype := 0, fdev := [], islands := [] }

/-- PACKAGE_RESET (R427, R420): everything inside the package returns to reset, and BD brings the chiplets up anew. What is
outside stays: host memory, backing store, and what the device has sent. -/
def execPackageReset (s : State) : Outcome State Fault Refusal :=
  .next { State.reset with agenda := s.agenda, free := s.free, host := s.host, store := s.store, sent := s.sent, msix := s.msix,
                           firmware := s.firmware }

/-! ## Islands and power (R425, R426) -/

/-- An island. -/
def State.island (s : State) (i : Nat) : Island := Map.get s.islands i Island.init

/-- ISLAND_FREQ_WRITE (R425, Table 19.5): slice, pair and router islands, and frequencies outside 40 to 84, ignore the write. -/
def execIslandFreqWrite (i : Nat) (x : Word) (s : State) : Outcome State Fault Refusal :=
  let f := bitsOf x.toNat 7 0
  if i < 320 ∧ 40 ≤ f ∧ f ≤ 84 then .next { s with islands := Map.put s.islands i { cur := f, freq := f } } else .next s

/-- Whether the units of an island are of a guaranteed partition. -/
def guaranteedIsland (s : State) (i : Nat) : Bool :=
  guaranteed s (s.cluster (if i < 256 then i / 4 else i - 256)).vf

/-- The islands that the power manager lowers next, and how far down: first those not of guaranteed partitions, to 40; only then
those, to 76 (R426). -/
def loweredNext (s : State) : List Nat :=
  let low := (List.range 320).filter fun i => !guaranteedIsland s i && decide (40 < (s.island i).cur)
  if low.isEmpty then (List.range 320).filter fun i => guaranteedIsland s i && decide (76 < (s.island i).cur) else low

/-- POWER_MANAGER_STEP (R426): above 2,400 W, the islands of the group whose turn it is go one step of 25 MHz down. -/
def execPowerManagerStep (s : State) : Outcome State Fault Refusal :=
  let over_ := 2400 < Config.power s.free
  let s' := { s with free := s.free + 1 }
  if over_ then
    .next { s' with islands := (loweredNext s).foldl (fun m i =>
      Map.put m i { Map.get m i Island.init with cur := (Map.get m i Island.init).cur - 1 }) s'.islands }
  else .next s'

/-! ## Firmware and ports (R418, R421) -/

/-- FIRMWARE_IMAGE_WRITE (R418, R379): an image is accepted only under both signatures. -/
def execFirmwareImageWrite (img rsaSig slhSig : List Byte) (s : State) : Outcome State Fault Refusal :=
  if Config.rsaVerify Config.firmwareKeys.1 img rsaSig && Config.slhVerify Config.firmwareKeys.2 img slhSig then
    .next { s with firmware := img }
  else .next s

/-- FABRIC_PORT_LINK_CHANGE (R421, Table 19.3): a port's link trains, or goes down. -/
def execFabricPortLinkChange (port : Nat) (up : Bool) (s : State) : Outcome State Fault Refusal :=
  if port < 16 then .next { s with ports := Map.put s.ports port { Map.get s.ports port Port.init with up := up } } else .next s

/-- A frame is sent again by the transport of a port; the count saturates (Table 19.3). -/
def countRetx (s : State) (p : Nat) : State :=
  { s with ports := Map.upd s.ports p Port.init fun q => { q with retx := if q.retx = 0xFFFFFFFF then q.retx else q.retx + 1 } }

/-- A codeword that a port receives cannot be corrected; the count saturates (Table 19.3). -/
def countFec (s : State) (p : Nat) : State :=
  { s with ports := Map.upd s.ports p Port.init fun q => { q with fecu := if q.fecu = 0xFFFF then q.fecu else q.fecu + 1 } }

/-! ## Register writes -/

/-- The state that an outcome gives, or the one before. -/
def after (s : State) (o : Outcome State Fault Refusal) : State :=
  match o with
  | .next s => s
  | _ => s

/-- Replaces n bytes of a register, from byte k on. -/
def patch (old : Dword) (k n : Nat) (x : Dword) : Dword := dword (ofBytes ((bytesOf 8 old.toNat).take k ++ bytesOf n x.toNat ++ (bytesOf 8 old.toNat).drop (k + n)))

/-- An 8-byte register: what it holds, and what a write of it does. -/
abbrev Reg8 := Dword × (Dword → State)

/-- Changes a queue's address register, which is frozen outside Disabled (R315). -/
def putQueueAddr (s : State) (vf q : Nat) (f : Queue → Queue) : State :=
  if (s.queue vf q).st = .disabled then s.modQueue vf q f else s

/-- The trace unit a function holds. -/
def heldTrace (s : State) (fn : Nat) : Option (Nat × Trace) :=
  (s.fn fn).trace.bind fun u => (Map.find? s.traces u).map fun t => (u, t)

/-- Changes the registers of the trace unit a function holds. -/
def putTrace (s : State) (fn : Nat) (f : Trace → Trace) : State :=
  match heldTrace s fn with
  | some (u, t) => if t.frozen then s else { s with traces := Map.put s.traces u (f t) }
  | none => s

/-- The 8-byte observation registers, alike in both BARs (Tables 18.2, 18.7, 18.8; R406, R410). -/
def obsReg8 (s : State) (fn off : Nat) : Option Reg8 :=
  let v := s.fn fn
  let put (f : Vf → Dword → Vf) : Dword → State := fun x => s.modFn fn fun v => f v x
  if off = 0x7408 then some (v.marken, put fun v x => { v with marken := x })
  else if off = 0x7800 then some (((heldTrace s fn).map fun p => p.2.base).getD 0, fun x => putTrace s fn fun t => { t with base := x })
  else if 0x7820 ≤ off ∧ off < 0x7840 then
    let i := (off - 0x7820) / 8
    some (Map.get v.dbga i 0, put fun v x => { v with dbga := Map.put v.dbga i (x &&& dword (2 ^ 59 - 1)) })
  else if off = 0x7848 then some (v.dbggrid, put fun v x => { v with dbggrid := x })
  else if off = 0x7850 then some (v.dbgdump, put fun v x => { v with dbgdump := x })
  else if off = 0x7908 then
    some (v.replay.base, put fun v x => { v with replay := { v.replay with base := x &&& ~~~dword 63 } })
  else if 0x7918 ≤ off ∧ off < 0x7958 then
    let i := (off - 0x7918) / 8
    some (Map.get v.replay.rbase i 0, put fun v x => { v with replay := { v.replay with rbase := Map.put v.replay.rbase i x } })
  else if off = 0x7A00 then some (v.trial.lo, put fun v x => { v with trial := { v.trial with lo := x } })
  else if off = 0x7A08 then some (v.trial.hi, put fun v x => { v with trial := { v.trial with hi := x } })
  else if off = 0x7A18 then some (v.trial.pts, put fun v x => { v with trial := { v.trial with pts := x } })
  else none

/-- A write of LSREQ (Table 18.5): GO starts the request of OP; others than lease and release are refused. -/
def writeLsreq (s : State) (fn : Nat) (x : Word) : State :=
  if !x.getLsbD 31 then s.modFn fn fun v => { v with lsreq := (v.lsreq &&& word 0x70000000) ||| lsFields x }
  else
    match bitsOf x.toNat 27 25 with
    | 1 => after s (execLeaseRequest fn x s)
    | 2 => after s (execLeaseRelease fn x s)
    | _ => leaseDone s fn x false true

/-- A write of DBGCTL (R410): GO starts the command of OP; others are refused. -/
def writeDbgctl (s : State) (vf : Nat) (x : Word) : State :=
  if !x.getLsbD 31 then s.modVf vf fun v => { v with dbgctl := x }
  else
    match bitsOf x.toNat 30 28 with
    | 1 => after s (execDebugStop vf x s)
    | 2 => after s (execDebugResume vf x s)
    | 3 => after s (execDebugDump vf x s)
    | _ => debugDone s vf x true

/-- A write of CTCTL (Table 18.8). -/
def writeCtctl (s : State) (fn : Nat) (x : Word) : State :=
  if x.getLsbD 31 then after s (execTrialStart fn x s)
  else if (s.fn fn).trial.busy then s
  else s.modFn fn fun v => { v with trial := { v.trial with ctl := x &&& word 0x00FFFFFF } }

/-- A write of a 4-byte observation register. -/
def writeObs4 (s : State) (fn off : Nat) (x : Word) : Option State :=
  if off = 0x7000 then some (s.modFn fn fun v => { v with bsel := x &&& word 0xF0000FFF })
  else if 0x7100 ≤ off ∧ off < 0x7140 then some (after s (execCselWrite fn ((off - 0x7100) / 4) x s))
  else if off = 0x7400 then some (writeLsreq s fn x)
  else if off = 0x7808 then some (putTrace s fn fun t => { t with ctl := x &&& word 0x1FFFF })
  else if off = 0x780C then some (putTrace s fn fun t => { t with core := BitVec.ofNat 16 x.toNat })
  else if off = 0x7810 then some (putTrace s fn fun t => { t with head := x })
  else if off = 0x7A10 then some (writeCtctl s fn x)
  else if fn = 0 then none
  else if off = 0x7840 then some (writeDbgctl s fn x)
  else if off = 0x7858 then some (s.modVf fn fun v => { v with dbgdlen := x })
  else if off = 0x7900 then some (writeRrctl s fn (bitsOf x.toNat 1 0))
  else if off = 0x7910 then some (s.modVf fn fun v => { v with replay := { v.replay with size := x &&& ~~~word 63 } })
  else if 0x7958 ≤ off ∧ off < 0x7978 then
    some (s.modVf fn fun v => { v with replay := { v.replay with rlen := Map.put v.replay.rlen ((off - 0x7958) / 4) x } })
  else none

/-- A write of FQCTL or HFQCTL: ignored whole where the size lies outside 4 to 12 (Table 15.3). -/
def fqCtl (q : FaultQ) (x : Word) : FaultQ :=
  if 4 ≤ bitsOf x.toNat 3 0 ∧ bitsOf x.toNat 3 0 ≤ 12 then { q with ctl := x &&& word 0x1000F } else q

/-- The 8-byte registers of VF BAR 0 that hold a value. -/
def vfReg8 (s : State) (vf off : Nat) : Option Reg8 :=
  let v := s.vf vf
  let q := (off - 0x1000) / 64
  if 0x1000 ≤ off ∧ off < 0x2000 then
    match off % 64 with
    | 0x08 => some ((s.queue vf q).desc, fun x => putQueueAddr s vf q fun k => { k with desc := x })
    | 0x10 => some ((s.queue vf q).avail, fun x => putQueueAddr s vf q fun k => { k with avail := x })
    | 0x18 => some ((s.queue vf q).used, fun x => putQueueAddr s vf q fun k => { k with used := x })
    | _ => none
  else if 0x4000 ≤ off ∧ off < 0x4080 then
    let p := (off - 0x4000) / 8
    some (Map.get v.s1root p 0, fun x => s.modVf vf fun v => { v with s1root := Map.put v.s1root p x })
  else if off = 0x4080 then some (v.tlbi.addr, fun x => s.modVf vf fun v => { v with tlbi := { v.tlbi with addr := x } })
  else if off = 0x4100 then some (v.fq.base, fun x => s.modVf vf fun v => { v with fq := { v.fq with base := x &&& ~~~dword 63 } })
  else if 0x80000 ≤ off ∧ off < 0x88000 then
    some (eventOf s vf ((off - 0x80000) / 8), fun x => after s (execEventWrite vf ((off - 0x80000) / 8) x s))
  else obsReg8 s vf off

/-- A write of a 4-byte register of VF BAR 0. -/
def writeVf4 (s : State) (vf off : Nat) (x : Word) : Option State :=
  if off < 0x100 then some (after s (execQueueDoorbell vf (off / 4) s))
  else if 0x1000 ≤ off ∧ off < 0x2000 ∧ off % 64 = 0 then some (writeQctl s vf ((off - 0x1000) / 64) x)
  else if off = 0x4088 then some (s.modVf vf fun v => { v with tlbi := { v.tlbi with n := x } })
  else if off = 0x408C then some (writeTlbic s vf x)
  else if off = 0x4108 then some (s.modVf vf fun v => { v with fq := fqCtl v.fq x })
  else if off = 0x410C then some (s.modVf vf fun v => { v with fq := { v.fq with head := x } })
  else writeObs4 s vf off x

/-- A register of the PF kept by its offset. -/
def pfHeld (s : State) (off : Nat) : Reg8 :=
  (Map.get s.pf.regs off 0, fun x => { s with pf := { s.pf with regs := Map.put s.pf.regs off x } })

/-- The 8-byte registers of PF BAR 0 that hold a value. -/
def pfReg8 (s : State) (off : Nat) : Option Reg8 :=
  let v := (off - 0x100000) / 64
  let put (f : Vf → Dword → Vf) : Dword → State := fun x => s.modVf v fun w => f w x
  if 0x100000 ≤ off ∧ off < 0x104000 then
    match off % 64 with
    | 0x00 => some ((s.vf v).s2root, put fun w x => { w with s2root := x })
    | 0x18 => some ((s.vf v).csa, put fun w x => { w with csa := x })
    | _ => none
  else if off = 0x200000 then some (s.htlbi.addr, fun x => { s with htlbi := { s.htlbi with addr := x } })
  else if off = 0x200100 then some (s.hfq.base, fun x => { s with hfq := { s.hfq with base := x &&& ~~~dword 63 } })
  else if off = 0x200210 then some (s.rcbuf, fun x => { s with rcbuf := x })
  else if off = 0x200220 ∨ off = 0x200228 then some (pfHeld s off)
  else if off = 0x310000 then some (s.pcmd.desc, fun x => { s with pcmd := { s.pcmd with desc := x } })
  else if off = 0x310010 then some (s.poolmask, fun x => after s (execPoolmaskWrite x s))
  else if off = 0x401000 then some (s.pbaddr, fun x => { s with pbaddr := x })
  else if off = 0x406000 then some (s.piaddr, fun x => { s with piaddr := x })
  else if 0x42C000 ≤ off ∧ off < 0x42D000 ∧ off % 16 = 0 then
    some ((s.vf ((off - 0x42C000) / 16)).swtrl, fun x => s.modVf ((off - 0x42C000) / 16) fun w => { w with swtrl := x })
  else if 0x500208 ≤ off ∧ off < 0x500600 then
    let d := (off - 0x500200) / 8
    some (dword (Map.get s.fdev d 0).toNat, fun x => { s with fdev := Map.put s.fdev d (BitVec.ofNat 48 x.toNat) })
  else obsReg8 s 0 off

/-- A write of PCMD (Table 16.8). -/
def writePcmd (s : State) (x : Word) : State :=
  let vf := bitsOf x.toNat 23 16
  let op := bitsOf x.toNat 2 0
  if !x.getLsbD 31 then (if s.pcmd.go then s else { s with pcmd := { s.pcmd with vf := vf, op := op } })
  else
    match op with
    | 1 => after s (execPartitionCreate vf s)
    | 2 => after s (execPartitionResize vf s)
    | 3 => after s (execPartitionDestroy vf s)
    | 4 => after s (execPartitionPromote vf s)
    | _ => startCmd s vf op fun s => (s, 6, none)

/-- A write of CHCMD (Table 17.4). -/
def writeChcmd (s : State) (x : Word) : State :=
  let c := bitsOf x.toNat 4 0
  if !x.getLsbD 31 then { s with chCmd := x &&& 0xFF }
  else
    match bitsOf x.toNat 7 5 with
    | 1 => after s (execChipletQuarantine c s)
    | 2 => after s (execChipletReset c s)
    | 3 => after s (execAttestationRetry c s)
    | 4 => after s (execKeyRoll c s)
    | op => chipCmd s c op false fun s => s

/-- A write of PBCMD (Table 17.3): unbind names the principal of the record at PBADDR. -/
def writePbcmd (s : State) (x : Word) : State :=
  if !x.getLsbD 31 then s
  else
    match bitsOf x.toNat 1 0 with
    | 1 => after s (execPrincipalBind s)
    | 2 => after s (execPrincipalUnbind (word (hostNum s (s.pbaddr.toNat / 64 * 64) 4)) s)
    | 3 => after s (execOsetReclaim s)
    | _ => { s with pbErr := true }

/-- A write of PMCTL (R362): its fields are held, and GO starts a move between PMSRC and PMDST. -/
def writePmctl (s : State) (x : Word) : State :=
  startMove s { src := Map.get s.pf.regs 0x200220 0, dst := Map.get s.pf.regs 0x200228 0, ctl := x }

/-- A write of a 4-byte register of PF BAR 0. -/
def writePf4 (s : State) (off : Nat) (x : Word) : Option State :=
  if 0x100000 ≤ off ∧ off < 0x104000 then
    let v := (off - 0x100000) / 64
    match off % 64 with
    | 0x08 => some (s.modVf v fun w => { w with gframe := x })
    | 0x0C => some (s.modVf v fun w => { w with bframe := x })
    | 0x20 => some (s.modVf v fun w => { w with csalen := x })
    | _ => none
  else if off = 0x200008 then some { s with htlbi := { s.htlbi with n := x } }
  else if off = 0x20000C then some (writeTlbic s 0 x)
  else if off = 0x200108 then some { s with hfq := fqCtl s.hfq x }
  else if off = 0x20010C then some { s with hfq := { s.hfq with head := x } }
  else if off = 0x200218 then some (after s (execReclaimSweep x s))
  else if off = 0x200230 then some (writePmctl s x)
  else if off = 0x310008 then some (writePcmd s x)
  else if off = 0x400080 then some (writeChcmd s x)
  else if off = 0x401008 then some (writePbcmd s x)
  else if off = 0x406008 then some (if x.getLsbD 31 then after s (execPolicyInstall x s) else s)
  else if off = 0x40600C then some (if x.getLsbD 31 then after s (execPolicyRemove x s) else s)
  else if 0x407400 ≤ off ∧ off < 0x407410 then some { s with osreq := s.osreq.set ((off - 0x407400) / 4) x }
  else if off = 0x407410 then some (if x.getLsbD 31 then after s (execOsetRequest s) else s)
  else if 0x42C000 ≤ off ∧ off < 0x42D000 ∧ off % 16 = 8 then some (s.modVf ((off - 0x42C000) / 16) fun w => { w with swtrlN := x })
  else if 0x430000 ≤ off ∧ off < 0x450000 then
    let k := (off - 0x430000) / 4
    some (if k / 256 = 0 ∨ k % 256 = 0 then s else { s with eprin := Map.put s.eprin k x })
  else if off = 0x500100 then some { s with ftype := BitVec.ofNat 16 x.toNat }
  else if 0x510000 ≤ off ∧ off < 0x511000 then some (after s (execIslandFreqWrite ((off - 0x510000) / 4) x s))
  else writeObs4 s 0 off x

/-- The 8-byte registers that only act: FRESUME, HRESUME and FOWN (Table 15.3). -/
def writeAct8 (s : State) (fn off : Nat) (x : Dword) : Option State :=
  if fn ≠ 0 then (if off = 0x4118 then some (after s (execFresume fn x s)) else none)
  else if off = 0x200118 then some (after s (execHresume x s))
  else if off = 0x200200 then some (after s (execFown x s))
  else none

/-- A write of a 4-byte register, or of half an 8-byte one. -/
def writeWord (s : State) (fn off : Nat) (x : Word) : State :=
  match (if fn = 0 then writePf4 s off x else writeVf4 s fn off x) with
  | some s => s
  | none =>
    match (if fn = 0 then pfReg8 s (off / 8 * 8) else vfReg8 s fn (off / 8 * 8)) with
    | some (old, set) => set (patch old (off % 8) 4 (zx x))
    | none => s

/-- A write of 8 bytes: an 8-byte register, or two of 4 bytes, the lower first. -/
def writeDword (s : State) (fn off : Nat) (x : Dword) : State :=
  match writeAct8 s fn off x with
  | some s => s
  | none =>
    match (if fn = 0 then pfReg8 s off else vfReg8 s fn off) with
    | some (_, set) => set x
    | none => writeWord (writeWord s fn off (lo32 x)) fn (off + 4) (hi32 x)

/-- REGISTER_WRITE (Tables 14.1, 15.3, 16.6, 17.3, 18.2, 18.7, 18.8, 19.2): an aligned write of 4 or 8 bytes to BAR 0 of the PF
(`fn` 0) or a VF. A register with a behaviour of its own acts as its event does; a write to no register is ignored. -/
def execRegisterWrite (fn off size : Nat) (x : Dword) (s : State) : Outcome State Fault Refusal :=
  if 255 < fn then .next s
  else if size = 8 ∧ off % 8 = 0 then .next (writeDword s fn off x)
  else if size = 4 ∧ off % 4 = 0 then .next (writeWord s fn off (lo32 x))
  else .next s

end Sys2Proof.Machine
end

