-- ==== Sys2Proof/Machine/Errors.lean ====
section
/-! DEFINITION. Data with uncorrectable errors where an operation consumes it: fills, recorded accesses, loads, copies, page moves, and
operations of the matrix engines (12_isa_matrix.md R309; 19_platform.md R423). The data goes nowhere, the operation fails, and the island that
holds the data is fenced. The arrays whose data is bad are the state's `flaws`. -/

namespace Sys2Proof.Machine

open Host (Outcome)

/-! ## Fills and recorded accesses (R423) -/

/-- Takes the flaw of a line away and fences the island that held it. -/
def fenceLine (s : State) (l2 : Bool) (line : Nat) : State :=
  let is_ := lineIslands s l2 line
  let s := { s with flaws := s.flaws.filter fun f => f != (if l2 then .l2 line else .hbm line) }
  is_.foldl fenceOnce (if l2 then dropL2 s line else staleLine s line)

/-- Takes a line that was filling out of the slices, its dirty sectors written back. -/
def unfill (s : State) (k line : Nat) : State :=
  dropL2 (spillLines s k (Map.get s.sliceU k UnitSt.init).vf ((sliceLines s k).filter fun l => l.line == line)) line

/-- Fails every request of a slice for a line, or loses the data where nothing consumes it. -/
def failRequests (s : State) (k line : Nat) : State :=
  let rs := (s.slice k).entries.filter fun r => keyPa r.line / 256 == line && !r.back
  let s := serveEntries (s.modSlice k fun z => { z with entries := z.entries.filter fun r => !rs.contains r }) k
  if rs.any fun r => r.why != .l2 then rs.foldl (loseReq .dataUncorrectable) s else loseData s line

/-- L2_FILL (R124, R423): a line's data has returned from HBM to its slice. -/
def execL2Fill (slice line : Nat) (s : State) : Outcome State Fault Refusal :=
  let back := (s.slice slice).misses.any fun m => m.1 == line && m.2.2
  if back && s.flaws.contains (.hbm line) then
    let s := s.modSlice slice fun z => { z with misses := z.misses.filter fun m => m.1 != line }
    .next (fenceLine (failRequests (unfill s slice line) slice line) false line)
  else l2Fill slice line s

/-- L1_FILL_LAND (R310, R311, R423): a served request's line lands in the L1 of its core. -/
def execL1FillLand (core line : Nat) (s : State) : Outcome State Fault Refusal :=
  match servedReq s core line with
  | some (k, r) =>
    if flawedAt s r.vf (keyPa line) then
      let l := keyPa line / 256
      let l2 := s.flaws.contains (.l2 l)
      let s := s.modSlice k fun z => { z with entries := z.entries.erase r }
      .next (fenceLine (loseReq .dataUncorrectable s r) l2 l)
    else l1FillLand core line s
  | none => .next s

/-- L2_REQUEST_ACCEPT (R126, R310, R412, R423): a slice accepts the next request it may, and serves a peer's; an access there of
data with an uncorrectable error fails. -/
def execL2RequestAccept (slice : Nat) (s : State) : Outcome State Fault Refusal :=
  match nextHeld s slice with
  | some (r, t) =>
    if (r.why != .l1 && r.why != .l2) && flawedAt s r.vf (keyPa r.line) then
      let t := t.modSlice slice fun z => { z with held := z.held.erase r }
      let l := keyPa r.line / 256
      .next (fenceLine (loseReq .dataUncorrectable t r) (s.flaws.contains (.l2 l)) l)
    else
      match r.why, l2RequestAccept slice s with
      | .peer f, .next t => .next (peerServe t f)
      | _, o => o
  | none => .next s

/-! ## Loads and read-modify-writes of a core's own arrays -/

/-- The island whose array holds the data of an access with an uncorrectable error: an L1 line, scratchpad or a typed unit. -/
def accFlaw (s : State) (crew core : Nat) (a : Acc) : Option Nat :=
  if a.done then none
  else
    match a.space, a.space.typed with
    | .generic, _ => if s.flaws.contains (.l1 core a.key) && (l1Line s core a.key).isSome then some core else none
    | _, some t => if s.flaws.contains (.unit crew t (a.addr / unitBytes t)) then some (unitIsland core t) else none
    | _, none => if s.flaws.contains (.shared crew (a.addr / 64)) then some core else none

/-- The access of an operation that may now be performed that would read bad data. -/
def opFlaw (s : State) (n : Nat) (o : Op) : Option (Acc × Nat) :=
  match Map.find? s.crews o.crew with
  | none => none
  | some c =>
    let ready := match o.kind with
      | .load _ | .loadK _ _ => loadReady s o c.core
      | .atom .. => rmwReady s n o
      | _ => false
    if s.flaws.isEmpty || !ready then none
    else o.accs.findSome? fun a => (accFlaw s o.crew c.core a).map fun i => (a, i)

/-- LOAD_DELIVERY (R258, R423): a load, LDK, atomic or BARPA delivers into its destination and its flag A counts down; one that would
read data with an uncorrectable error fails, and the island that holds the data is fenced. -/
def execLoadDelivery (op : Nat) (s : State) : Outcome State Fault Refusal :=
  match Map.find? s.ops op with
  | some o =>
    match opFlaw s op o with
    | some (a, i) => .next (fenceOnce (failOp s op o .dataUncorrectable a.addr) i)
    | none => loadDelivery op s
  | none => .next s

/-- The copy that stands before a typed unit with an uncorrectable error. -/
def copyFlaw (s : State) (op : Nat) : Option CopyRun :=
  match (Map.find? s.ops op).bind fun o => copyRun s op o with
  | none => none
  | some (c, k, sent) =>
    if !copyReady s c.op c.crew || sent then none
    else
      match runCopy s c k with
      | (_, _, _, some (.bad (.inl .dataUncorrectable) _ _)) => some c
      | _ => none

/-- COPY_FAULT (R281, R423): a copy meets a cause at its progress: an absent page suspends it, any other stops it; the core whose
typed unit holds data with an uncorrectable error is fenced. -/
def execCopyFault (op : Nat) (s : State) : Outcome State Fault Refusal :=
  match copyFlaw s op, copyFault op s with
  | some c, .next t => .next (fenceOnce t (unitIsland c.crew.core (c.d.srcSpace.typed.getD .A)))
  | _, r => r

/-- The line with an uncorrectable error that a page move would read. -/
def moveFlaw (s : State) (m : PMove) : Option Nat :=
  if m.dir = 2 then none
  else (List.range 256).find? (fun i => flawedIn s (s.frame m.frame).owner (65536 * m.frame + 256 * i) 256) |>.map (256 * m.frame + ·)

/-- PAGE_MOVE_DONE (R362, R400, R423): the move in progress completes, once its turn at the copy engine has come. A frame with an
uncorrectable error is not moved: the move is refused, the data is reported as found with no consumer, and its island is fenced (DESIGN
CHOICE, assumption 18: no grid consumes it). -/
def execPageMoveDone (s : State) : Outcome State Fault Refusal :=
  match s.pmove with
  | some m =>
    match (if moveTurn s m then moveFlaw s m else none) with
    | some line => .next (fenceLine (loseData { s with pmove := none, pmstat := 1 } line) (s.flaws.contains (.l2 line)) line)
    | none => pageMoveDone s
  | none => .next s

/-- FENCE OF WHAT WAS FOUND (R423): the island that holds data found uncorrectable is fenced; what a write-back found, with no consumer,
is reported, and the grids of its partition fail. The machine does it before anything else happens. -/
def fenceFound (s : State) (f : Found) : State :=
  match f with
  | .used line => fenceLine s (s.flaws.contains (.l2 line)) line
  | .array island => fenceOnce s island
  | .lost island line => fenceOnce (loseData s line) island
  | .whole c => if (s.chiplet c).st = .live then quarantine s c 9 else s

/-! ## The matrix engines (R309) -/

/-- Posts DATA_UNCORRECTABLE to the threads that issued an operation, with its flag; the flag counts down. -/
def postBad (s : State) (crew : Nat) (homes : List Nat) (flag : Option Nat) : State :=
  let ts := homes.flatMap fun h => (List.range 32).map fun l => (l, h)
  let p : Posted := { flag := some (flag.getD 15), cause := .dataUncorrectable, faddr := 0, threads := ts }
  exitPosted ((s.modCrew crew fun w => { w with posted := w.posted ++ [p] }).decFlag crew homes flag) crew

/-- MATRIX_ROWS_WRITTEN (R298, R309): the rows of the oldest ended pass are written and their flags decrement; a pass that met
an uncorrectable error writes none, and the islands that hold the bad data are fenced. -/
def execMatrixRowsWritten (cluster : Nat) (s : State) : Outcome State Fault Refusal :=
  match (s.engine cluster).ended with
  | [] => .next s
  | p :: rest =>
    if p.any fun q => q.1.bad then
      let s := p.foldl (fun s q => postBad s q.1.crew q.1.homes (some q.1.flag)) (s.modEngine cluster fun e => { e with ended := rest })
      .next ((dedup (p.flatMap fun q => q.1.badAt)).foldl fenceOnce s)
    else matrixRowsWritten cluster s

/-- Ends a tile operation that met an uncorrectable error, with nothing written. -/
def endBad (s : State) (n : Nat) (o : Op) : State :=
  let s := postBad { s with ops := Map.del s.ops n } o.crew o.homes o.flag
  match Map.find? s.crews o.crew with
  | some w => fenceOnce s (unitIsland w.core .C)
  | none => s

/-- XZERO_DONE (R300, R309). -/
def execXzeroDone (op : Nat) (s : State) : Outcome State Fault Refusal :=
  match Map.find? s.ops op with
  | some o =>
    match o.kind with
    | .xzero t =>
      if tileReady s o && engineReady s o && badUnit s o.crew [(.C, t)] then .next (endBad s op o) else xzeroDone op s
    | _ => .next s
  | none => .next s

/-- XREQ_DONE (R301, R309): every quarter is written and the flag decrements. -/
def execXreqDone (op : Nat) (s : State) : Outcome State Fault Refusal :=
  match Map.find? s.ops op with
  | some o =>
    match o.kind with
    | .xreq t .. =>
      if tileReady s o && engineReady s o && badUnit s o.crew [(.C, t)] then .next (endBad s op o) else xreqDone op s
    | _ => .next s
  | none => .next s

end Sys2Proof.Machine
end

