-- ==== Sys2Proof/Machine/Integer.lean ====
section
/-! DEFINITION. Integer arithmetic (09_isa_integer.md R215, R216). -/

namespace Sys2Proof.Machine

open Host (Outcome)

/-- clamp to the i32 range. -/
def clamp32 (x : Int) : Int := max (-2147483648) (min 2147483647 x)

/-- IADD: zx + zy. -/
def execIadd (d a b : Operand) (g : Guard) (s : State) : Outcome State Fault Refusal :=
  intOp2 s d a b g fun x y => x + y

/-- IADD.SAT: clamp(sx + sy). -/
def execIaddSat (d a b : Operand) (g : Guard) (s : State) : Outcome State Fault Refusal :=
  intOp2 s d a b g fun x y => wordI (clamp32 (x.toInt + y.toInt))

/-- ISUB: zx − zy. -/
def execIsub (d a b : Operand) (g : Guard) (s : State) : Outcome State Fault Refusal :=
  intOp2 s d a b g fun x y => x - y

/-- ISUB.SAT: clamp(sx − sy). -/
def execIsubSat (d a b : Operand) (g : Guard) (s : State) : Outcome State Fault Refusal :=
  intOp2 s d a b g fun x y => wordI (clamp32 (x.toInt - y.toInt))

/-- IMUL: the low word of the product. -/
def execImul (d a b : Operand) (g : Guard) (s : State) : Outcome State Fault Refusal :=
  intOp2 s d a b g fun x y => x * y

/-- IMULH.S: bits [63:32] of the signed product. -/
def execImulhS (d a b : Operand) (g : Guard) (s : State) : Outcome State Fault Refusal :=
  intOp2 s d a b g fun x y => wordI (x.toInt * y.toInt / 2 ^ 32)

/-- IMULH.N: bits [63:32] of the unsigned product. -/
def execImulhN (d a b : Operand) (g : Guard) (s : State) : Outcome State Fault Refusal :=
  intOp2 s d a b g fun x y => word (x.toNat * y.toNat / 2 ^ 32)

/-- IMAD: dd + zx × zy. -/
def execImad (d a b : Operand) (g : Guard) (s : State) : Outcome State Fault Refusal :=
  intOp3 s d a b g fun x y z => z + x * y

/-- IMADW.N: DD + zext(x) × zext(y). -/
def execImadwN (d a b : Operand) (g : Guard) (s : State) : Outcome State Fault Refusal :=
  intOp64 s d [(a, 1), (b, 1), (d, 2)] g fun v =>
    match v with
    | [x, y, z] => z + x * y
    | _ => 0

/-- IMADW.S: DD + sext(x) × sext(y). -/
def execImadwS (d a b : Operand) (g : Guard) (s : State) : Outcome State Fault Refusal :=
  intOp64 s d [(a, 1), (b, 1), (d, 2)] g fun v =>
    match v with
    | [x, y, z] => z + dwordI ((lo32 x).toInt * (lo32 y).toInt)
    | _ => 0

/-- IADD64: X + Y. -/
def execIadd64 (d a b : Operand) (g : Guard) (s : State) : Outcome State Fault Refusal :=
  intOp64 s d [(a, 2), (b, 2)] g fun v =>
    match v with
    | [x, y] => x + y
    | _ => 0

/-- ISUB64: X − Y. -/
def execIsub64 (d a b : Operand) (g : Guard) (s : State) : Outcome State Fault Refusal :=
  intOp64 s d [(a, 2), (b, 2)] g fun v =>
    match v with
    | [x, y] => x - y
    | _ => 0

/-- IMIN.S: the smaller of sx, sy. -/
def execIminS (d a b : Operand) (g : Guard) (s : State) : Outcome State Fault Refusal :=
  intOp2 s d a b g fun x y => if y.slt x then y else x

/-- IMIN.N: the smaller of zx, zy. -/
def execIminN (d a b : Operand) (g : Guard) (s : State) : Outcome State Fault Refusal :=
  intOp2 s d a b g fun x y => if y.ult x then y else x

/-- IMAX.S: the larger of sx, sy. -/
def execImaxS (d a b : Operand) (g : Guard) (s : State) : Outcome State Fault Refusal :=
  intOp2 s d a b g fun x y => if x.slt y then y else x

/-- IMAX.N: the larger of zx, zy. -/
def execImaxN (d a b : Operand) (g : Guard) (s : State) : Outcome State Fault Refusal :=
  intOp2 s d a b g fun x y => if x.ult y then y else x

/-- IABS: |sx|, wrapping. -/
def execIabs (d a : Operand) (g : Guard) (s : State) : Outcome State Fault Refusal :=
  intOp1 s d a g fun x => if x.msb then -x else x

/-- LEA1: zx + zy × 2. -/
def execLea1 (d a b : Operand) (g : Guard) (s : State) : Outcome State Fault Refusal :=
  intOp2 s d a b g fun x y => x + y * 2

/-- LEA2: zx + zy × 4. -/
def execLea2 (d a b : Operand) (g : Guard) (s : State) : Outcome State Fault Refusal :=
  intOp2 s d a b g fun x y => x + y * 4

/-- LEA3: zx + zy × 8. -/
def execLea3 (d a b : Operand) (g : Guard) (s : State) : Outcome State Fault Refusal :=
  intOp2 s d a b g fun x y => x + y * 8

/-- LEA4: zx + zy × 16. -/
def execLea4 (d a b : Operand) (g : Guard) (s : State) : Outcome State Fault Refusal :=
  intOp2 s d a b g fun x y => x + y * 16

/-- LEA64: X + sext(y). -/
def execLea64 (d a b : Operand) (g : Guard) (s : State) : Outcome State Fault Refusal :=
  intOp64 s d [(a, 2), (b, 1)] g fun v =>
    match v with
    | [x, y] => x + sx (lo32 y)
    | _ => 0

/-- The sum over n fields of w bits of signed products. -/
def dotS (w n x y : Nat) : Int :=
  (List.range n).foldl (fun acc i => acc + sextOf (bitsOf x (w * i + w - 1) (w * i)) w * sextOf (bitsOf y (w * i + w - 1) (w * i)) w) 0

/-- The sum over n fields of w bits of unsigned products. -/
def dotN (w n x y : Nat) : Nat :=
  (List.range n).foldl (fun acc i => acc + bitsOf x (w * i + w - 1) (w * i) * bitsOf y (w * i + w - 1) (w * i)) 0

/-- IDP4.S: sdd + the sum of four signed byte products. -/
def execIdp4S (d a b : Operand) (g : Guard) (s : State) : Outcome State Fault Refusal :=
  intOp3 s d a b g fun x y z => z + wordI (dotS 8 4 x.toNat y.toNat)

/-- IDP4.N: dd + the sum of four unsigned byte products. -/
def execIdp4N (d a b : Operand) (g : Guard) (s : State) : Outcome State Fault Refusal :=
  intOp3 s d a b g fun x y z => z + word (dotN 8 4 x.toNat y.toNat)

/-- IDP2.S: sdd + the sum of two signed half products. -/
def execIdp2S (d a b : Operand) (g : Guard) (s : State) : Outcome State Fault Refusal :=
  intOp3 s d a b g fun x y z => z + wordI (dotS 16 2 x.toNat y.toNat)

end Sys2Proof.Machine
end

