-- ==== Sys2Proof/Machine/Logic.lean ====
section
/-! DEFINITION. Logic, shifts and bit fields (09_isa_integer.md R217 to R221). -/

namespace Sys2Proof.Machine

open Host (Outcome)

/-- AND. -/
def execAnd (d a b : Operand) (g : Guard) (s : State) : Outcome State Fault Refusal :=
  intOp2 s d a b g fun x y => x &&& y

/-- OR. -/
def execOr (d a b : Operand) (g : Guard) (s : State) : Outcome State Fault Refusal :=
  intOp2 s d a b g fun x y => x ||| y

/-- XOR. -/
def execXor (d a b : Operand) (g : Guard) (s : State) : Outcome State Fault Refusal :=
  intOp2 s d a b g fun x y => x ^^^ y

/-- ANDN: x AND NOT y. -/
def execAndn (d a b : Operand) (g : Guard) (s : State) : Outcome State Fault Refusal :=
  intOp2 s d a b g fun x y => x &&& ~~~y

/-- ORN: x OR NOT y. -/
def execOrn (d a b : Operand) (g : Guard) (s : State) : Outcome State Fault Refusal :=
  intOp2 s d a b g fun x y => x ||| ~~~y

/-- NOT. -/
def execNot (d a : Operand) (g : Guard) (s : State) : Outcome State Fault Refusal :=
  intOp1 s d a g fun x => ~~~x

/-- The count of a shift: y AND 63 (R217). -/
def shCount (y : Word) : Nat := y.toNat % 64

/-- SHL: x × 2^c. -/
def execShl (d a b : Operand) (g : Guard) (s : State) : Outcome State Fault Refusal :=
  intOp2 s d a b g fun x y => x <<< shCount y

/-- SHR: zx div 2^c. -/
def execShr (d a b : Operand) (g : Guard) (s : State) : Outcome State Fault Refusal :=
  intOp2 s d a b g fun x y => x >>> shCount y

/-- SAR: floor(sx / 2^c). -/
def execSar (d a b : Operand) (g : Guard) (s : State) : Outcome State Fault Refusal :=
  intOp2 s d a b g fun x y => x.sshiftRight (shCount y)

/-- FSHL: bits [63:32] of (dd:zx) × 2^c (R218). -/
def execFshl (d a b : Operand) (g : Guard) (s : State) : Outcome State Fault Refusal :=
  intOp3 s d a b g fun x y z => word ((z.toNat * 2 ^ 32 + x.toNat) * 2 ^ shCount y / 2 ^ 32)

/-- FSHR: bits [31:0] of (zx:dd) div 2^c (R218). -/
def execFshr (d a b : Operand) (g : Guard) (s : State) : Outcome State Fault Refusal :=
  intOp3 s d a b g fun x y z => word ((x.toNat * 2 ^ 32 + z.toNat) / 2 ^ shCount y)

/-- Field position (R219). -/
def bfPos (y : Word) : Nat := bitsOf y.toNat 7 0
/-- Field length (R219). -/
def bfLen (y : Word) : Nat := min (bitsOf y.toNat 15 8) 32

/-- BFE.N: a field zero-extended (R219). -/
def execBfeN (d a b : Operand) (g : Guard) (s : State) : Outcome State Fault Refusal :=
  intOp2 s d a b g fun x y => word (x.toNat / 2 ^ bfPos y % 2 ^ bfLen y)

/-- BFE.S: a field sign-extended; a length of 0 gives 0 (R219). -/
def execBfeS (d a b : Operand) (g : Guard) (s : State) : Outcome State Fault Refusal :=
  intOp2 s d a b g fun x y =>
    if bfLen y = 0 then 0
    else wordI (sextOf ((x.toInt / 2 ^ bfPos y) % 2 ^ bfLen y).toNat (bfLen y))

/-- BFI: bits pos to pos + len − 1 of dd take the low bits of x (R219). -/
def execBfi (d a b : Operand) (g : Guard) (s : State) : Outcome State Fault Refusal :=
  intOp3 s d a b g fun x y z =>
    let m := word ((2 ^ bfLen y - 1) * 2 ^ bfPos y)
    (z &&& ~~~m) ||| (word (x.toNat * 2 ^ bfPos y) &&& m)

/-- BREV: bit i of the result is bit 31 − i of x (R220). -/
def execBrev (d a : Operand) (g : Guard) (s : State) : Outcome State Fault Refusal :=
  intOp1 s d a g fun x => x.reverse

/-- POPC: the number of set bits (R220). -/
def execPopc (d a : Operand) (g : Guard) (s : State) : Outcome State Fault Refusal :=
  intOp1 s d a g fun x => word ((List.range 32).countP fun i => x.getLsbD i)

/-- CLZ: zero bits above the highest set bit; 32 of 0 (R220). -/
def execClz (d a : Operand) (g : Guard) (s : State) : Outcome State Fault Refusal :=
  intOp1 s d a g fun x => word (if x = 0 then 32 else 31 - Nat.log2 x.toNat)

/-- CTZ: zero bits below the lowest set bit; 32 of 0 (R220). -/
def execCtz (d a : Operand) (g : Guard) (s : State) : Outcome State Fault Refusal :=
  intOp1 s d a g fun x => word (((List.range 32).find? fun i => x.getLsbD i).getD 32)

/-- One result byte of PRMT: selector nibble n over the eight source bytes (R221). -/
def prmtByte (src n : Nat) : Nat :=
  let b := bitsOf src (8 * (n % 8) + 7) (8 * (n % 8))
  if n / 8 % 2 = 0 then b else if b / 128 = 1 then 0xFF else 0

/-- PRMT: byte selection by the selector in D (R221). -/
def execPrmt (d a b : Operand) (g : Guard) (s : State) : Outcome State Fault Refusal :=
  intOp3 s d a b g fun x y z =>
    let src := x.toNat + 2 ^ 32 * y.toNat
    word ((List.range 4).foldl (fun acc i => acc + prmtByte src (bitsOf z.toNat (4 * i + 3) (4 * i)) * 256 ^ i) 0)

end Sys2Proof.Machine
end

