-- ==== Sys2Proof/Machine/Dispatch.lean ====
section
/-! DEFINITION. The one dispatch of Instr to its meanings. -/

namespace Sys2Proof.Machine

open Host (Outcome)

/-- The meaning of an instruction or event. -/
def exec (i : Instr) (s : State) : Host.Outcome State Fault Refusal :=
  match i with
  | .iadd d a b g => Sys2Proof.Machine.execIadd d a b g s
  | .iaddSat d a b g => Sys2Proof.Machine.execIaddSat d a b g s
  | .isub d a b g => Sys2Proof.Machine.execIsub d a b g s
  | .isubSat d a b g => Sys2Proof.Machine.execIsubSat d a b g s
  | .imul d a b g => Sys2Proof.Machine.execImul d a b g s
  | .imulhS d a b g => Sys2Proof.Machine.execImulhS d a b g s
  | .imulhN d a b g => Sys2Proof.Machine.execImulhN d a b g s
  | .imad d a b g => Sys2Proof.Machine.execImad d a b g s
  | .imadwN d a b g => Sys2Proof.Machine.execImadwN d a b g s
  | .imadwS d a b g => Sys2Proof.Machine.execImadwS d a b g s
  | .iadd64 d a b g => Sys2Proof.Machine.execIadd64 d a b g s
  | .isub64 d a b g => Sys2Proof.Machine.execIsub64 d a b g s
  | .iminS d a b g => Sys2Proof.Machine.execIminS d a b g s
  | .iminN d a b g => Sys2Proof.Machine.execIminN d a b g s
  | .imaxS d a b g => Sys2Proof.Machine.execImaxS d a b g s
  | .imaxN d a b g => Sys2Proof.Machine.execImaxN d a b g s
  | .iabs d a g => Sys2Proof.Machine.execIabs d a g s
  | .lea1 d a b g => Sys2Proof.Machine.execLea1 d a b g s
  | .lea2 d a b g => Sys2Proof.Machine.execLea2 d a b g s
  | .lea3 d a b g => Sys2Proof.Machine.execLea3 d a b g s
  | .lea4 d a b g => Sys2Proof.Machine.execLea4 d a b g s
  | .lea64 d a b g => Sys2Proof.Machine.execLea64 d a b g s
  | .idp4S d a b g => Sys2Proof.Machine.execIdp4S d a b g s
  | .idp4N d a b g => Sys2Proof.Machine.execIdp4N d a b g s
  | .idp2S d a b g => Sys2Proof.Machine.execIdp2S d a b g s
  | .and d a b g => Sys2Proof.Machine.execAnd d a b g s
  | .or d a b g => Sys2Proof.Machine.execOr d a b g s
  | .xor d a b g => Sys2Proof.Machine.execXor d a b g s
  | .andn d a b g => Sys2Proof.Machine.execAndn d a b g s
  | .orn d a b g => Sys2Proof.Machine.execOrn d a b g s
  | .not d a g => Sys2Proof.Machine.execNot d a g s
  | .shl d a b g => Sys2Proof.Machine.execShl d a b g s
  | .shr d a b g => Sys2Proof.Machine.execShr d a b g s
  | .sar d a b g => Sys2Proof.Machine.execSar d a b g s
  | .fshl d a b g => Sys2Proof.Machine.execFshl d a b g s
  | .fshr d a b g => Sys2Proof.Machine.execFshr d a b g s
  | .bfeN d a b g => Sys2Proof.Machine.execBfeN d a b g s
  | .bfeS d a b g => Sys2Proof.Machine.execBfeS d a b g s
  | .bfi d a b g => Sys2Proof.Machine.execBfi d a b g s
  | .brev d a g => Sys2Proof.Machine.execBrev d a g s
  | .popc d a g => Sys2Proof.Machine.execPopc d a g s
  | .clz d a g => Sys2Proof.Machine.execClz d a g s
  | .ctz d a g => Sys2Proof.Machine.execCtz d a g s
  | .prmt d a b g => Sys2Proof.Machine.execPrmt d a b g s
  | .isetp cc d a b g => Sys2Proof.Machine.execIsetp cc d a b g s
  | .psetpAnd d a b g => Sys2Proof.Machine.execPsetpAnd d a b g s
  | .psetpOr d a b g => Sys2Proof.Machine.execPsetpOr d a b g s
  | .psetpXor d a b g => Sys2Proof.Machine.execPsetpXor d a b g s
  | .psetpAndn d a b g => Sys2Proof.Machine.execPsetpAndn d a b g s
  | .sel d a b g => Sys2Proof.Machine.execSel d a b g s
  | .mov d a g => Sys2Proof.Machine.execMov d a g s
  | .prdw d g => Sys2Proof.Machine.execPrdw d g s
  | .pwrw a g => Sys2Proof.Machine.execPwrw a g s
  | .w2k d a b g => Sys2Proof.Machine.execW2k d a b g s
  | .osq d a g => Sys2Proof.Machine.execOsq d a g s
  | .shfl m d a b g => Sys2Proof.Machine.execShfl m d a b g s
  | .voteAll d a g => Sys2Proof.Machine.execVoteAll d a g s
  | .voteAny d a g => Sys2Proof.Machine.execVoteAny d a g s
  | .voteBal d a g => Sys2Proof.Machine.execVoteBal d a g s
  | .redaddS d a g => Sys2Proof.Machine.execRedaddS d a g s
  | .redminS d a g => Sys2Proof.Machine.execRedminS d a g s
  | .redminN d a g => Sys2Proof.Machine.execRedminN d a g s
  | .redmaxS d a g => Sys2Proof.Machine.execRedmaxS d a g s
  | .redmaxN d a g => Sys2Proof.Machine.execRedmaxN d a g s
  | .redminiN d a b g => Sys2Proof.Machine.execRedminiN d a b g s
  | .redmaxiN d a b g => Sys2Proof.Machine.execRedmaxiN d a b g s
  | .redaddF32 d a g => Sys2Proof.Machine.execRedaddF32 d a g s
  | .redminF32 d a g => Sys2Proof.Machine.execRedminF32 d a g s
  | .redmaxF32 d a g => Sys2Proof.Machine.execRedmaxF32 d a g s
  | .fadd m r d a b g => Sys2Proof.Machine.execFadd m r d a b g s
  | .fsub m r d a b g => Sys2Proof.Machine.execFsub m r d a b g s
  | .fmul m r d a b g => Sys2Proof.Machine.execFmul m r d a b g s
  | .ffma m r d a b g => Sys2Proof.Machine.execFfma m r d a b g s
  | .fmin m d a b g => Sys2Proof.Machine.execFmin m d a b g s
  | .fmax m d a b g => Sys2Proof.Machine.execFmax m d a b g s
  | .fsetpEq m d a b g => Sys2Proof.Machine.execFsetpEq m d a b g s
  | .fsetpNe m d a b g => Sys2Proof.Machine.execFsetpNe m d a b g s
  | .fsetpLt m d a b g => Sys2Proof.Machine.execFsetpLt m d a b g s
  | .fsetpLe m d a b g => Sys2Proof.Machine.execFsetpLe m d a b g s
  | .fsetpNan m d a b g => Sys2Proof.Machine.execFsetpNan m d a b g s
  | .frnd m r d a g => Sys2Proof.Machine.execFrnd m r d a g s
  | .fldexp m r d a b g => Sys2Proof.Machine.execFldexp m r d a b g s
  | .fldxa m r d a b g => Sys2Proof.Machine.execFldxa m r d a b g s
  | .faddH2 m r d a b g => Sys2Proof.Machine.execFaddH2 m r d a b g s
  | .fmulH2 m r d a b g => Sys2Proof.Machine.execFmulH2 m r d a b g s
  | .ffmaH2 m r d a b g => Sys2Proof.Machine.execFfmaH2 m r d a b g s
  | .fminH2 m d a b g => Sys2Proof.Machine.execFminH2 m d a b g s
  | .fmaxH2 m d a b g => Sys2Proof.Machine.execFmaxH2 m d a b g s
  | .faddB2 m r d a b g => Sys2Proof.Machine.execFaddB2 m r d a b g s
  | .fmulB2 m r d a b g => Sys2Proof.Machine.execFmulB2 m r d a b g s
  | .ffmaB2 m r d a b g => Sys2Proof.Machine.execFfmaB2 m r d a b g s
  | .fdp2H2 m r d a b g => Sys2Proof.Machine.execFdp2H2 m r d a b g s
  | .fdp2B2 m r d a b g => Sys2Proof.Machine.execFdp2B2 m r d a b g s
  | .frcp m d a g => Sys2Proof.Machine.execFrcp m d a g s
  | .frsq m d a g => Sys2Proof.Machine.execFrsq m d a g s
  | .fsqrt m d a g => Sys2Proof.Machine.execFsqrt m d a g s
  | .fex2 m d a g => Sys2Proof.Machine.execFex2 m d a g s
  | .flg2 m d a g => Sys2Proof.Machine.execFlg2 m d a g s
  | .fsin m d a g => Sys2Proof.Machine.execFsin m d a g s
  | .fcos m d a g => Sys2Proof.Machine.execFcos m d a g s
  | .ftanh m d a g => Sys2Proof.Machine.execFtanh m d a g s
  | .cvtF32I32 r d a g => Sys2Proof.Machine.execCvtF32I32 r d a g s
  | .cvtF32N32 r d a g => Sys2Proof.Machine.execCvtF32N32 r d a g s
  | .cvtI32F32 r d a g => Sys2Proof.Machine.execCvtI32F32 r d a g s
  | .cvtN32F32 r d a g => Sys2Proof.Machine.execCvtN32F32 r d a g s
  | .cvtH2F32 r d a b g => Sys2Proof.Machine.execCvtH2F32 r d a b g s
  | .cvtB2F32 r d a b g => Sys2Proof.Machine.execCvtB2F32 r d a b g s
  | .cvtF32HL d a g => Sys2Proof.Machine.execCvtF32HL d a g s
  | .cvtF32HH d a g => Sys2Proof.Machine.execCvtF32HH d a g s
  | .cvtF32BL d a g => Sys2Proof.Machine.execCvtF32BL d a g s
  | .cvtF32BH d a g => Sys2Proof.Machine.execCvtF32BH d a g s
  | .cvtE4X2F32 r d a b g => Sys2Proof.Machine.execCvtE4X2F32 r d a b g s
  | .cvtE5X2F32 r d a b g => Sys2Proof.Machine.execCvtE5X2F32 r d a b g s
  | .cvtF32E4 d a b g => Sys2Proof.Machine.execCvtF32E4 d a b g s
  | .cvtF32E5 d a b g => Sys2Proof.Machine.execCvtF32E5 d a b g s
  | .cvtb c r d a b g => Sys2Proof.Machine.execCvtb c r d a b g s
  | .dqb d a b g => Sys2Proof.Machine.execDqb d a b g s
  | .bpack c d a g => Sys2Proof.Machine.execBpack c d a g s
  | .bunpk c d a g => Sys2Proof.Machine.execBunpk c d a g s
  | .ld sz c o d a b g => Sys2Proof.Machine.execLd sz c o d a b g s
  | .st sz c o d a b g => Sys2Proof.Machine.execSt sz c o d a b g s
  | .lds sz d a b g => Sys2Proof.Machine.execLds sz d a b g s
  | .sts sz d a b g => Sys2Proof.Machine.execSts sz d a b g s
  | .ldk sz c d a b g => Sys2Proof.Machine.execLdk sz c d a b g s
  | .ldt sp wide d a b g => Sys2Proof.Machine.execLdt sp wide d a b g s
  | .stt sp wide d a b g => Sys2Proof.Machine.execStt sp wide d a b g s
  | .atom op o d a b g => Sys2Proof.Machine.execAtom op o d a b g s
  | .red op o a b g => Sys2Proof.Machine.execRed op o a b g s
  | .atoms op o d a b g => Sys2Proof.Machine.execAtoms op o d a b g s
  | .fence scope sem g => Sys2Proof.Machine.execFence scope sem g s
  | .pref lvl c a b g => Sys2Proof.Machine.execPref lvl c a b g s
  | .cmaint act scope g => Sys2Proof.Machine.execCmaint act scope g s
  | .barpa d a b g => Sys2Proof.Machine.execBarpa d a b g s
  | .barpw d a b g => Sys2Proof.Machine.execBarpw d a b g s
  | .xmma aq bs ct wa wb zero g => Sys2Proof.Machine.execXmma aq bs ct wa wb zero g s
  | .xzero t g => Sys2Proof.Machine.execXzero t g s
  | .xreq r t aq c g => Sys2Proof.Machine.execXreq r t aq c g s
  | .xosq d sp b g => Sys2Proof.Machine.execXosq d sp b g s
  | .cpy c a g => Sys2Proof.Machine.execCpy c a g s
  | .cpyg c a g => Sys2Proof.Machine.execCpyg c a g s
  | .cpys c a g => Sys2Proof.Machine.execCpys c a g s
  | .cpyq c r a g => Sys2Proof.Machine.execCpyq c r a g s
  | .rres d ring g => Sys2Proof.Machine.execRres d ring g s
  | .rpub ring b g => Sys2Proof.Machine.execRpub ring b g s
  | .rclm d ring g => Sys2Proof.Machine.execRclm d ring g s
  | .rrel ring b g => Sys2Proof.Machine.execRrel ring b g s
  | .rctr d ring g => Sys2Proof.Machine.execRctr d ring g s
  | .msgp cap a b g => Sys2Proof.Machine.execMsgp cap a b g s
  | .msgs len a b g => Sys2Proof.Machine.execMsgs len a b g s
  | .msgc d a g => Sys2Proof.Machine.execMsgc d a g s
  | .ptld first a count g => Sys2Proof.Machine.execPtld first a count g s
  | .nop g => Sys2Proof.Machine.execNop g s
  | .exit g => Sys2Proof.Machine.execExit g s
  | .ret g => Sys2Proof.Machine.execRet g s
  | .brx a g => Sys2Proof.Machine.execBrx a g s
  | .yield g => Sys2Proof.Machine.execYield g s
  | .trap code g => Sys2Proof.Machine.execTrap code g s
  | .brk g => Sys2Proof.Machine.execBrk g s
  | .tretNext g => Sys2Proof.Machine.execTretNext g s
  | .tretRetry g => Sys2Proof.Machine.execTretRetry g s
  | .rgn base mask nra g => Sys2Proof.Machine.execRgn base mask nra g s
  | .rgnr base mask nra g => Sys2Proof.Machine.execRgnr base mask nra g s
  | .rgne g => Sys2Proof.Machine.execRgne g s
  | .waitf flag thr g => Sys2Proof.Machine.execWaitf flag thr g s
  | .bars b g => Sys2Proof.Machine.execBars b g s
  | .bara b g => Sys2Proof.Machine.execBara b g s
  | .barw b g => Sys2Proof.Machine.execBarw b g s
  | .bard b g => Sys2Proof.Machine.execBard b g s
  | .launch d a b g => Sys2Proof.Machine.execLaunch d a b g s
  | .joinc g => Sys2Proof.Machine.execJoinc g s
  | .migr a g => Sys2Proof.Machine.execMigr a g s
  | .rdsr d n g => Sys2Proof.Machine.execRdsr d n g s
  | .wrsr n b g => Sys2Proof.Machine.execWrsr n b g s
  | .mark p g => Sys2Proof.Machine.execMark p g s
  | .bra off g => Sys2Proof.Machine.execBra off g s
  | .call off g => Sys2Proof.Machine.execCall off g s
  | .brau off g => Sys2Proof.Machine.execBrau off g s
  | .clauseFetch crew group addr => Sys2Proof.Machine.execClauseFetch crew group addr s
  | .clauseStart crew role => Sys2Proof.Machine.execClauseStart crew role s
  | .stallTimeout crew group => Sys2Proof.Machine.execStallTimeout crew group s
  | .fastBufferAssign core quad => Sys2Proof.Machine.execFastBufferAssign core quad s
  | .fastBufferRecall core quad => Sys2Proof.Machine.execFastBufferRecall core quad s
  | .hSheafEviction crew => Sys2Proof.Machine.execHSheafEviction crew s
  | .medlarSpillDone crew => Sys2Proof.Machine.execMedlarSpillDone crew s
  | .crewResume crew core => Sys2Proof.Machine.execCrewResume crew core s
  | .runaheadStart crew group => Sys2Proof.Machine.execRunaheadStart crew group s
  | .runaheadInstructionLimit crew group => Sys2Proof.Machine.execRunaheadInstructionLimit crew group s
  | .migrationMove crew core => Sys2Proof.Machine.execMigrationMove crew core s
  | .loadDelivery op => Sys2Proof.Machine.execLoadDelivery op s
  | .storePerformed core => Sys2Proof.Machine.execStorePerformed core s
  | .l1FillLand core line => Sys2Proof.Machine.execL1FillLand core line s
  | .l1DirtyWriteback core line => Sys2Proof.Machine.execL1DirtyWriteback core line s
  | .l1LineExpiry core line => Sys2Proof.Machine.execL1LineExpiry core line s
  | .l2RequestAccept slice => Sys2Proof.Machine.execL2RequestAccept slice s
  | .hbmChannelServe channel => Sys2Proof.Machine.execHbmChannelServe channel s
  | .hbmTokenRefill channel => Sys2Proof.Machine.execHbmTokenRefill channel s
  | .l2Fill slice line => Sys2Proof.Machine.execL2Fill slice line s
  | .patrolScrub l2 line r => Sys2Proof.Machine.execPatrolScrub l2 line r s
  | .fabricFrameReceive f => Sys2Proof.Machine.execFabricFrameReceive f s
  | .peerTimeout device => Sys2Proof.Machine.execPeerTimeout device s
  | .copyComplete op => Sys2Proof.Machine.execCopyComplete op s
  | .copyFault op => Sys2Proof.Machine.execCopyFault op s
  | .matrixPassDecision cluster => Sys2Proof.Machine.execMatrixPassDecision cluster s
  | .matrixRowsWritten cluster => Sys2Proof.Machine.execMatrixRowsWritten cluster s
  | .matrixPassEnd cluster => Sys2Proof.Machine.execMatrixPassEnd cluster s
  | .writeBackAcknowledgement die line => Sys2Proof.Machine.execWriteBackAcknowledgement die line s
  | .xzeroDone op => Sys2Proof.Machine.execXzeroDone op s
  | .xreqDone op => Sys2Proof.Machine.execXreqDone op s
  | .messageArrival core => Sys2Proof.Machine.execMessageArrival core s
  | .queueDoorbell vf q => Sys2Proof.Machine.execQueueDoorbell vf q s
  | .availEntryRead vf q => Sys2Proof.Machine.execAvailEntryRead vf q s
  | .launchCommand vf q => Sys2Proof.Machine.execLaunchCommand vf q s
  | .waitCommand vf q => Sys2Proof.Machine.execWaitCommand vf q s
  | .signalCommand vf q => Sys2Proof.Machine.execSignalCommand vf q s
  | .writeCommand vf q => Sys2Proof.Machine.execWriteCommand vf q s
  | .fenceCommand vf q => Sys2Proof.Machine.execFenceCommand vf q s
  | .copyCommand vf q => Sys2Proof.Machine.execCopyCommand vf q s
  | .commandCompletion vf q cmd => Sys2Proof.Machine.execCommandCompletion vf q cmd s
  | .crewDispatch => Sys2Proof.Machine.execCrewDispatch s
  | .timeSliceEnd => Sys2Proof.Machine.execTimeSliceEnd s
  | .trialEnd vf => Sys2Proof.Machine.execTrialEnd vf s
  | .preemptionSaveDone crew => Sys2Proof.Machine.execPreemptionSaveDone crew s
  | .crewRetire crew => Sys2Proof.Machine.execCrewRetire crew s
  | .queueEnable vf q ctl => Sys2Proof.Machine.execQueueEnable vf q ctl s
  | .queueDisable vf q ctl => Sys2Proof.Machine.execQueueDisable vf q ctl s
  | .queueKill vf q => Sys2Proof.Machine.execQueueKill vf q s
  | .queueKillFinish vf q => Sys2Proof.Machine.execQueueKillFinish vf q s
  | .eventWrite vf e x => Sys2Proof.Machine.execEventWrite vf e x s
  | .tlbiRange vf proc => Sys2Proof.Machine.execTlbiRange vf proc s
  | .tlbiProcess vf proc => Sys2Proof.Machine.execTlbiProcess vf proc s
  | .tlbiPartition vf => Sys2Proof.Machine.execTlbiPartition vf s
  | .htlbiRange vf => Sys2Proof.Machine.execHtlbiRange vf s
  | .htlbiVf vf => Sys2Proof.Machine.execHtlbiVf vf s
  | .htlbiAllVfs => Sys2Proof.Machine.execHtlbiAllVfs s
  | .tlbiComplete vf => Sys2Proof.Machine.execTlbiComplete vf s
  | .faultRecordWrite vf => Sys2Proof.Machine.execFaultRecordWrite vf s
  | .fresume vf x => Sys2Proof.Machine.execFresume vf x s
  | .hresume x => Sys2Proof.Machine.execHresume x s
  | .fown x => Sys2Proof.Machine.execFown x s
  | .reclaimSweep n => Sys2Proof.Machine.execReclaimSweep n s
  | .reclaimSweepEnd => Sys2Proof.Machine.execReclaimSweepEnd s
  | .pageMoveFrame src dst ctl => Sys2Proof.Machine.execPageMoveFrame src dst ctl s
  | .pageMoveToStore src dst ctl => Sys2Proof.Machine.execPageMoveToStore src dst ctl s
  | .pageMoveFromStore src dst ctl => Sys2Proof.Machine.execPageMoveFromStore src dst ctl s
  | .pageMoveDone => Sys2Proof.Machine.execPageMoveDone s
  | .partitionCreate vf => Sys2Proof.Machine.execPartitionCreate vf s
  | .partitionResize vf => Sys2Proof.Machine.execPartitionResize vf s
  | .partitionDestroy vf => Sys2Proof.Machine.execPartitionDestroy vf s
  | .partitionPromote vf => Sys2Proof.Machine.execPartitionPromote vf s
  | .partitionCommandEnd => Sys2Proof.Machine.execPartitionCommandEnd s
  | .poolmaskWrite x => Sys2Proof.Machine.execPoolmaskWrite x s
  | .chipletQuarantine c => Sys2Proof.Machine.execChipletQuarantine c s
  | .chipletReset c => Sys2Proof.Machine.execChipletReset c s
  | .chipletSelfReset c => Sys2Proof.Machine.execChipletSelfReset c s
  | .attestationRetry c => Sys2Proof.Machine.execAttestationRetry c s
  | .keyRoll c => Sys2Proof.Machine.execKeyRoll c s
  | .spdmResponse c r => Sys2Proof.Machine.execSpdmResponse c r s
  | .keyRolloverForced link => Sys2Proof.Machine.execKeyRolloverForced link s
  | .rolloverAckTimeout link => Sys2Proof.Machine.execRolloverAckTimeout link s
  | .linkGroupReceive link g => Sys2Proof.Machine.execLinkGroupReceive link g s
  | .partialGroupClose link => Sys2Proof.Machine.execPartialGroupClose link s
  | .principalBind => Sys2Proof.Machine.execPrincipalBind s
  | .principalUnbind pid => Sys2Proof.Machine.execPrincipalUnbind pid s
  | .osetReclaim => Sys2Proof.Machine.execOsetReclaim s
  | .osetRequest => Sys2Proof.Machine.execOsetRequest s
  | .policyInstall ctl => Sys2Proof.Machine.execPolicyInstall ctl s
  | .policyRemove ctl => Sys2Proof.Machine.execPolicyRemove ctl s
  | .getVersion req => Sys2Proof.Machine.execGetVersion req s
  | .getCapabilities req => Sys2Proof.Machine.execGetCapabilities req s
  | .negotiateAlgorithms req => Sys2Proof.Machine.execNegotiateAlgorithms req s
  | .getDigests req => Sys2Proof.Machine.execGetDigests req s
  | .getCertificate req => Sys2Proof.Machine.execGetCertificate req s
  | .challenge req => Sys2Proof.Machine.execChallenge req s
  | .getMeasurements req => Sys2Proof.Machine.execGetMeasurements req s
  | .vendorDefinedRequest req => Sys2Proof.Machine.execVendorDefinedRequest req s
  | .keyExchange req => Sys2Proof.Machine.execKeyExchange req s
  | .pskExchange req => Sys2Proof.Machine.execPskExchange req s
  | .spdmOtherRequest req => Sys2Proof.Machine.execSpdmOtherRequest req s
  | .cselWrite fn n x => Sys2Proof.Machine.execCselWrite fn n x s
  | .counterClear fn n => Sys2Proof.Machine.execCounterClear fn n s
  | .cntloRead fn n => Sys2Proof.Machine.execCntloRead fn n s
  | .cnthiRead fn n => Sys2Proof.Machine.execCnthiRead fn n s
  | .leaseRequest fn x => Sys2Proof.Machine.execLeaseRequest fn x s
  | .leaseRelease fn x => Sys2Proof.Machine.execLeaseRelease fn x s
  | .leaseRevoke kind unit => Sys2Proof.Machine.execLeaseRevoke kind unit s
  | .tracePcSample cluster => Sys2Proof.Machine.execTracePcSample cluster s
  | .debugStop vf ctl => Sys2Proof.Machine.execDebugStop vf ctl s
  | .debugResume vf ctl => Sys2Proof.Machine.execDebugResume vf ctl s
  | .debugDump vf ctl => Sys2Proof.Machine.execDebugDump vf ctl s
  | .replayOff vf => Sys2Proof.Machine.execReplayOff vf s
  | .recordMode vf => Sys2Proof.Machine.execRecordMode vf s
  | .replayMode vf => Sys2Proof.Machine.execReplayMode vf s
  | .trialStart vf ctl => Sys2Proof.Machine.execTrialStart vf ctl s
  | .vfFlr vf => Sys2Proof.Machine.execVfFlr vf s
  | .pfFlr => Sys2Proof.Machine.execPfFlr s
  | .packageReset => Sys2Proof.Machine.execPackageReset s
  | .islandFreqWrite isl x => Sys2Proof.Machine.execIslandFreqWrite isl x s
  | .powerManagerStep => Sys2Proof.Machine.execPowerManagerStep s
  | .firmwareImageWrite img rsaSig slhSig => Sys2Proof.Machine.execFirmwareImageWrite img rsaSig slhSig s
  | .registerWrite fn off size x => Sys2Proof.Machine.execRegisterWrite fn off size x s
  | .vectorUnmask fn vec => Sys2Proof.Machine.execVectorUnmask fn vec s
  | .installAcknowledgement link => Sys2Proof.Machine.execInstallAcknowledgement link s
  | .fabricPortLinkChange port up => Sys2Proof.Machine.execFabricPortLinkChange port up s

end Sys2Proof.Machine
end

