-- ==== Sys2Proof/Machine/Registers.lean ====
section
/-! DEFINITION. What the registers of BAR 0 read as: the functions' own registers, the capability table, and the read-only tables of
trust and platform (14_scheduling.md Tables 14.1 to 14.3; 15_translation.md Tables 15.3, 15.5; 16_partitions.md R363, R364;
17_trust.md Tables 17.3 to 17.7; 18_observation.md Tables 18.2 to 18.8; 19_platform.md Tables 19.2, 19.3, 19.5). No step reads a
register but CNTLO_READ and CNTHI_READ; these functions say what a read by the host returns. -/

namespace Sys2Proof.Machine

/-- A bit in its place. -/
def flagAt (b : Bool) (i : Nat) : Nat := if b then 2 ^ i else 0

/-- The half of an 8-byte register at an offset. -/
def halfAt (x : Dword) (off : Nat) : Word := if off % 8 = 0 then lo32 x else hi32 x

/-- The word at an offset of some bytes. -/
def wordAt (bs : List Byte) (off : Nat) : Word := word (ofBytes (((bs.drop off).take 4)))

/-! ## The capability table (R363) -/

/-- A resource type: number, units built, those in service, whether it has a unit-state array and is shared by shares,
granularity, capacity, guaranteed sum, constraint word (Tables 16.2, 16.3). -/
structure CapType where
  type  : Nat
  count : Nat
  up    : Nat
  array : Bool
  share : Bool
  cap   : Nat
  sum   : Nat
  con   : Nat
  deriving DecidableEq, Repr

/-- How many of the first n units pass a test. -/
def countUnits (n : Nat) (f : Nat → Bool) : Nat := ((List.range n).filter f).length

/-- The clusters owned by guaranteed partitions, and their slices. -/
def clusterSum (s : State) : Nat := sumOf ((guaranteedVfs s).map fun p => (maskClusters p.2.cfg.clusters).length)

/-- The slices owned by guaranteed partitions. -/
def sliceSum (s : State) : Nat := sumOf ((guaranteedVfs s).map fun p => p.2.cfg.slices.length)

/-- Whether the unit an island feeds is retired (R375). -/
def islandRet (s : State) (i : Nat) : Bool :=
  if i < 256 then (s.cluster (i / 4)).ret
  else if i < 320 then (s.cluster (i - 256)).ret
  else if i < 576 then (Map.get s.sliceU (i - 320) UnitSt.init).ret
  else if i < 768 then (Map.get s.channelU (2 * (i - 576)) UnitSt.init).ret
  else (s.cluster ((i - 768) / 4)).ret

/-- Whether an island is in service. -/
def islandUp (s : State) (i : Nat) : Bool := !islandFenced s i && !islandRet s i

/-- The kind and unit of a counter bank by its place in the unit-state array (Table 18.1): cores, slices, stacks, ports. -/
def bankPlace (i : Nat) : Nat × Nat :=
  if i < 256 then (1, i) else if i < 512 then (2, i - 256) else if i < 524 then (3, i - 512) else (4, i - 524)

/-- Whether the unit of a counter bank is retired, and whether it is fenced. -/
def bankOut (s : State) (i : Nat) : Bool × Bool :=
  match bankPlace i with
  | (1, u) => ((s.cluster (u / 4)).ret, (s.cluster (u / 4)).fen)
  | (2, u) => let x := Map.get s.sliceU u UnitSt.init; (x.ret, x.fen)
  | (3, u) => (!stackUp s u && (s.chiplet (13 + u)).st == .quarantined, false)
  | (_, u) => let x := Map.get s.ports u Port.init; (x.ret, x.fen)

/-- The VF that holds the counter bank of a unit. -/
def bankVf (s : State) (i : Nat) : Nat :=
  let (k, u) := bankPlace i
  let h := match s.banks.find? fun b => b.kind == k && b.unit == u && !b.harvest with
    | some b => b.holder
    | none => bankOwner s k u false
  if h = pfHolder then 0 else h

/-- The ten types (Table 16.3). The counts of types 5, 6 and 8 and the capacity of a type that R374 gives no sum are choices
(assumption 23). -/
def capTypes (s : State) : List CapType :=
  let t (type count up : Nat) (array share : Bool) (cap sum con : Nat) : CapType :=
    { type := type, count := count, up := up, array := array, share := share, cap := cap, sum := sum, con := con }
  let cl := countUnits 64 fun c => (s.cluster c).up
  let sl := countUnits 256 fun k => sliceUp s k
  let po := countUnits 16 fun p => let x := Map.get s.ports p Port.init; !x.fen && !x.ret
  [t 1 64 cl true false cl (clusterSum s) 64,
   t 2 256 sl true false sl (sliceSum s) 8,
   t 3 frameCount (framesUp s) false false (framesUp s) (frameSum s) 0,
   t 4 384 (countUnits 384 fun c => channelUp s c) true true 64 (shareSum s) 64,
   t 5 10 10 false false 10 0 10,
   t 6 1 1 false true 255 0 255,
   t 7 16 po true true 255 0 255,
   t 8 540 (countUnits 540 fun i => !(bankOut s i).1 && !(bankOut s i).2) true false 540 0 0,
   t 9 64 (countUnits 64 fun c => !(s.cluster c).ret && !(s.cluster c).fen) true false 64 0 0,
   t 10 1024 (countUnits 1024 fun i => islandUp s i) true false 1024 0 1024]

/-- Where the unit-state arrays stand: type, units, offset from the header (assumption 23). -/
def capArrays : List (Nat × Nat × Nat) :=
  [(1, 64, 0x2C0), (2, 256, 0x3C0), (4, 384, 0x7C0), (7, 16, 0xDC0), (9, 64, 0xE00), (10, 1024, 0xF00), (8, 540, 0x1F00)]

/-- Where the partition-status rows stand. -/
def capRows : Nat := 0x2770

/-- The VF a trace unit is held by. -/
def traceVf (s : State) (u : Nat) : Nat :=
  match Map.find? s.traces u with
  | some t => if t.holder = pfHolder then 0 else t.holder
  | none => 0

/-- The VF that owns the unit an island feeds: a core's or engine's cluster, or a slice. -/
def islandVf (s : State) (i : Nat) : Nat :=
  if i < 256 then (s.cluster (i / 4)).vf
  else if i < 320 then (s.cluster (i - 256)).vf
  else if i < 576 then (Map.get s.sliceU (i - 320) UnitSt.init).vf
  else 0

/-- Bits of a unit-state word (Table 16.4). -/
def stateWord (ret fen don lend : Bool) (vf use : Nat) : Word :=
  word (flagAt ret 31 + flagAt fen 30 + flagAt don 29 + flagAt lend 28 + 65536 * (vf % 256) + use % 65536)

/-- A unit-state word of a type (Table 16.4). -/
def unitWord (s : State) (type i : Nat) : Word :=
  match type with
  | 1 =>
    let u := s.cluster i
    let hs := (clusterCrews s i).filter fun p => crewIsH s p.2
    stateWord u.ret u.fen (u.vf != 0 && (s.vf u.vf).cfg.donors.getLsbD i) u.lend u.vf hs.length
  | 2 => let u := Map.get s.sliceU i UnitSt.init; stateWord u.ret u.fen false false u.vf 0
  | 4 => let u := Map.get s.channelU i UnitSt.init; stateWord u.ret u.fen false false 0 0
  | 7 => let u := Map.get s.ports i Port.init; stateWord u.ret u.fen false false 0 0
  | 8 => stateWord (bankOut s i).1 (bankOut s i).2 false false (bankVf s i) 0
  | 9 => stateWord (s.cluster i).ret (s.cluster i).fen false false (traceVf s i) 0
  | 10 => stateWord (islandRet s i) (islandFenced s i) false false (islandVf s i) 0
  | _ => 0

/-- The header's bytes (Table 16.1). -/
def capHeader (s : State) : List Byte :=
  bytesOf 4 0x4354564E ++ bytesOf 2 1 ++ bytesOf 2 0 ++ bytesOf 4 s.capGen.toNat ++ bytesOf 2 10 ++ bytesOf 2 64 ++
    bytesOf 8 0x40 ++ bytesOf 8 capRows ++ bytesOf 8 s.poolmask.toNat ++ List.replicate 24 0

/-- A type entry's bytes (Table 16.2). -/
def CapType.bytes (t : CapType) : List Byte :=
  let at_ := ((capArrays.find? fun a => a.1 == t.type).map fun a => a.2.2).getD 0
  bytesOf 2 t.type ++ bytesOf 2 (flagAt t.array 0 + flagAt t.share 1) ++ bytesOf 4 t.count ++ bytesOf 4 t.up ++ bytesOf 4 1 ++
    bytesOf 8 at_ ++ bytesOf 8 t.cap ++ bytesOf 8 t.sum ++ bytesOf 4 t.con ++ List.replicate 20 0

/-- A partition-status row's bytes (Table 16.5). -/
def statusRow (s : State) (vf : Nat) : List Byte :=
  let v := s.vf vf
  bytesOf 1 (if v.changing then 3 else v.state) ++ bytesOf 1 v.cfg.s ++ bytesOf 1 (maskClusters v.cfg.clusters).length ++
    bytesOf 1 v.cfg.gShare ++ bytesOf 4 v.stamp ++ List.replicate 8 0

/-- A word of the capability table, zero beyond it (R363). -/
def capWord (s : State) (o : Nat) : Word :=
  if o < 0x40 then wordAt (capHeader s) o
  else if o < 0x2C0 then
    match (capTypes s)[(o - 0x40) / 64]? with
    | some t => wordAt t.bytes ((o - 0x40) % 64)
    | none => 0
  else if o < capRows then
    match capArrays.find? fun a => decide (a.2.2 ≤ o ∧ o < a.2.2 + 4 * a.2.1) with
    | some a => unitWord s a.1 ((o - a.2.2) / 4)
    | none => 0
  else if o < capRows + 4096 then wordAt (statusRow s ((o - capRows) / 16)) ((o - capRows) % 16)
  else 0

/-- The unit-state words of the units a VF owns, in the order of the arrays. -/
def ownedWords (s : State) (vf : Nat) : List Word :=
  (capArrays.flatMap fun a => (List.range a.2.1).map (unitWord s a.1)).filter fun w => bitsOf w.toNat 23 16 == vf

/-- A VF's copy (R363): the header, its own row, and the words of the units it owns one after another (assumption 23). -/
def capWordOf (s : State) (vf o : Nat) : Word :=
  if o < 0x40 then wordAt (capHeader s) o
  else if o < 0x50 then wordAt (statusRow s vf) (o - 0x40)
  else ((ownedWords s vf)[(o - 0x50) / 4]?).getD 0

/-! ## Trust and platform (Tables 17.3 to 17.7, 19.2, 19.3, 19.5) -/

/-- The highest key generation on a chiplet's links (Table 17.5). -/
def kgenOf (s : State) (c : Nat) : Nat :=
  s.links.foldl (fun g p => if p.2.src == c || p.2.dst == c then max g p.2.gen else g) 0

/-- CHSTc (Table 17.5). -/
def chst (s : State) (c : Nat) : Word :=
  let h := s.chiplet c
  word (2 ^ 29 * (chipState s c).code + 2 ^ 24 * h.why + 2 ^ 20 * min h.tries 15 + kgenOf s c % 65536)

/-- OSTABj as its four words, and OSCNTj (Table 17.6, R395). -/
def ostab (s : State) (j i : Nat) : Word := (((Map.find? s.osets j).map fun e => (e.prins[i]?).getD 0)).getD 0

/-- OSCNTj: an entry in use is VALID, a retired one is not (R395). -/
def oscnt (s : State) (j : Nat) : Nat :=
  match Map.find? s.osets j with
  | some e => if e.retired then 64 else 128 + e.prins.length
  | none => 0

/-- The state of a slot of a gate: 0 empty, 1 live, 2 expired, 3 exhausted and not expired (Table 17.7). -/
def slotState (now : Dword) (p : Policy) : Nat := if p.expiry.toNat ≤ now.toNat then 2 else if p.budget = 0 then 3 else 1

/-- The bytes of PGATEg,s (Table 17.7). -/
def pgate (s : State) (g slot : Nat) : List Byte :=
  match Map.find? (Map.get s.gates g []) slot with
  | none => List.replicate 32 0
  | some p =>
    bytesOf 1 (slotState s.gtime p) ++ bytesOf 1 p.members.length ++ bytesOf 2 0 ++ bytesOf 4 p.dest.toNat ++ bytesOf 8 p.expiry.toNat ++
      bytesOf 8 p.budget ++ bytesOf 8 p.nonce.toNat

/-- FPSTATp (Table 19.3). -/
def fpstat (s : State) (p : Nat) : Dword :=
  let q := Map.get s.ports p Port.init
  dword (2 ^ 32 * q.retx.toNat + 65536 * q.fecu.toNat + flagAt q.fen 1 + flagAt q.up 0)

/-- ISLCTLi (Table 19.5). -/
def islctl (s : State) (i : Nat) : Word := word (256 * (s.island i).cur + (s.island i).freq)

/-! ## Registers of the functions -/

/-- TLBIC or HTLBIC (Table 15.5). -/
def Tlbi.word_ (t : Tlbi) (vf : Nat) : Word := (t.ctl &&& word (tlbicMask vf)) ||| word (flagAt t.busy 31 + flagAt t.err 17)

/-- QCTLq (Table 14.2): KILL reads 1 until the queue is Killed. -/
def qctlWord (q : Queue) : Word := (q.ctl &&& word 0x1FFF0000) ||| word (flagAt (q.st == .killing) 31)

/-- QSTATq (Table 14.3). -/
def qstatWord (q : Queue) : Word :=
  word (flagAt q.cfgErr 2 + match q.st with
    | .disabled => 0
    | .running => 1
    | .killing => 2
    | .killed => 3)

/-- The 4-byte observation registers of a function (Tables 18.2, 18.7, 18.8; R410). -/
def readObs (s : State) (fn off : Nat) : Word :=
  let v := s.fn fn
  let tr := (heldTrace s fn).map fun p => p.2
  if off = 0x7000 then v.bsel
  else if 0x7100 ≤ off ∧ off < 0x7140 then (counterRead s fn ((off - 0x7100) / 4)).sel
  else if 0x7200 ≤ off ∧ off < 0x7280 then
    let c := counterRead s fn ((off - 0x7200) / 8)
    if off % 8 = 0 then word (c.count.toNat % 2 ^ 32) else c.hiWord
  else if off = 0x7400 then v.lsreq
  else if 0x7500 ≤ off ∧ off < 0x7700 then halfAt (dword (Map.get v.markc ((off - 0x7500) / 8) 0).toNat) off
  else if off = 0x7808 then (tr.map fun t => t.ctl).getD 0
  else if off = 0x780C then (tr.map fun t => word t.core.toNat).getD 0
  else if off = 0x7810 then (tr.map fun t => t.head).getD 0
  else if off = 0x7814 then (tr.map fun t => t.tail).getD 0
  else if off = 0x7840 then v.dbgctl
  else if off = 0x7858 then v.dbgdlen
  else if off = 0x785C then v.dbgstat
  else if off = 0x7900 then word v.replay.mode
  else if off = 0x7904 then word v.replay.stat.toNat
  else if off = 0x7910 then v.replay.size
  else if 0x7958 ≤ off ∧ off < 0x7978 then Map.get v.replay.rlen ((off - 0x7958) / 4) 0
  else if off = 0x7A10 then (v.trial.ctl &&& word 0x00FFFFFF) ||| word (flagAt v.trial.busy 31 + flagAt v.trial.err 30)
  else 0

/-- A word of VF BAR 0: an 8-byte register's half, or a 4-byte register; nothing else reads but as zero. -/
def readVf (s : State) (vf off : Nat) : Word :=
  let v := s.vf vf
  match vfReg8 s vf (off / 8 * 8) with
  | some (x, _) => halfAt x off
  | none =>
    if 0x1000 ≤ off ∧ off < 0x2000 then
      let q := s.queue vf ((off - 0x1000) / 64)
      if off % 64 = 0 then qctlWord q else if off % 64 = 4 then qstatWord q else 0
    else if off = 0x4088 then v.tlbi.n
    else if off = 0x408C then v.tlbi.word_ vf
    else if off = 0x4108 then v.fq.ctl
    else if off = 0x410C then v.fq.head
    else if off = 0x4110 then v.fq.tail
    else if 0x6000 ≤ off ∧ off < 0x7000 then capWordOf s vf (off - 0x6000)
    else readObs s vf off

/-- The trust registers of PF BAR 0 (Table 17.3). -/
def readTrust (s : State) (off : Nat) : Word :=
  if off < 0x400064 then chst s ((off - 0x400000) / 4)
  else if off = 0x400080 then (s.chCmd &&& word 0xFF) ||| word (flagAt s.chErr 30)
  else if off = 0x401008 then word (flagAt s.pbErr 30)
  else if 0x402000 ≤ off ∧ off < 0x406000 then ostab s ((off - 0x402000) / 16) (off % 16 / 4)
  else if off = 0x406008 then word (flagAt s.piErr 30)
  else if off = 0x40600C then word (flagAt s.pirErr 30)
  else if 0x407000 ≤ off ∧ off < 0x407400 then
    word (ofBytes ((List.range 4).map fun i => BitVec.ofNat 8 (oscnt s (off - 0x407000 + i))))
  else if 0x407400 ≤ off ∧ off < 0x407410 then (s.osreq[(off - 0x407400) / 4]?).getD 0
  else if off = 0x407410 then word (flagAt s.osErr 30 + s.osIndex)
  else if 0x408000 ≤ off ∧ off < 0x42A000 then
    let k := (off - 0x408000) / 32
    wordAt (pgate s (k / 256) (k % 256)) (off % 32)
  else if 0x42C000 ≤ off ∧ off < 0x42D000 ∧ off % 16 = 8 then (s.vf ((off - 0x42C000) / 16)).swtrlN
  else if 0x430000 ≤ off ∧ off < 0x450000 then Map.get s.eprin ((off - 0x430000) / 4) 0
  else 0

/-- A word of PF BAR 0. -/
def readPf (s : State) (off : Nat) : Word :=
  match pfReg8 s (off / 8 * 8) with
  | some (x, _) => halfAt x off
  | none =>
    if 0x100000 ≤ off ∧ off < 0x104000 then
      let v := (off - 0x100000) / 64
      match off % 64 with
      | 0x08 => (s.vf v).gframe
      | 0x0C => (s.vf v).bframe
      | 0x10 => word (heldFrames s v)
      | 0x20 => (s.vf v).csalen
      | _ => 0
    else if off = 0x200008 then s.htlbi.n
    else if off = 0x20000C then s.htlbi.word_ 0
    else if off = 0x200108 then s.hfq.ctl
    else if off = 0x20010C then s.hfq.head
    else if off = 0x200110 then s.hfq.tail
    else if off = 0x200208 then word (flagAt s.fstat 0)
    else if off = 0x20021C then s.rcstat
    else if off = 0x200230 then word (flagAt s.pmove.isSome 31 + (Map.get s.pf.regs 0x200230 0).toNat)
    else if off = 0x200238 then word (flagAt s.pmove.isSome 31 + s.pmstat.toNat)
    else if 0x300000 ≤ off ∧ off < 0x310000 then capWord s (off - 0x300000)
    else if off = 0x310008 then if s.pcmd.quiet then 0 else word (flagAt s.pcmd.go 31 + 2 ^ 24 * s.pcmd.status + 65536 * s.pcmd.vf + s.pcmd.op)
    else if 0x400000 ≤ off ∧ off < 0x450000 then readTrust s off
    else if 0x500000 ≤ off ∧ off < 0x500080 then halfAt (fpstat s ((off - 0x500000) / 8)) off
    else if off = 0x500100 then word s.ftype.toNat
    else if 0x510000 ≤ off ∧ off < 0x511000 then islctl s ((off - 0x510000) / 4)
    else readObs s 0 off

end Sys2Proof.Machine
end

