-- ==== Sys2Proof/Machine/Select.lean ====
section
/-! DEFINITION. What the machine does next (assumption 24). The agenda names what happens in order: an event from outside or inside
the device, that an issue group issues, or that time passes. What may not happen then, does not. With nothing on the agenda the
machine takes its own duties in turn. The selector's rules (02_execution.md R15, R29, R53), the host link's readiness
(19_platform.md R427) and breakpoints (18_observation.md R411) bind both. -/

namespace Sys2Proof.Machine

/-! ## Whether an issue group may issue -/

/-- How a group ranks for its quad: a G group before an H group, and an episode after the others of its class (R15, R53). -/
def issueRank (s : State) (c : Crew) (g : Group) : Nat := (if crewIsH s c then 2 else 0) + (if g.episode.isSome then 1 else 0)

/-- The quad that a group issues on: that of its buffer, else, outside a region, that of the home sheaf of its first thread (DESIGN
CHOICE, assumption 67). -/
def quadOf (g : Group) : Nat :=
  match g.quad with
  | some q => q
  | none => ((g.members.head?.map fun m => m.2).getD 0) % 4

/-- Whether what a group waits for at its instruction is not there yet, as far as the state tells before the instruction tries
again: no slot of its ring, no message place, no room for a grid, a copy, a request or a request to a peer. -/
def stillShort (s : State) (n : Nat) (c : Crew) (g : Group) : Bool :=
  match g.wait with
  | .ring id claim =>
    match Map.find? c.rings id with
    | some r => if claim then Map.get r.filled n 0 == 0 else r.free == 0
    | none => false
  | .msgp => decide (64 ≤ (s.core c.core).recvs.length) && (s.core c.core).msgQ.isEmpty
  | .launch _ => !gridRoom s (crewVf s c)
  | .copyq => decide (64 ≤ copiesOf s c.core)
  | .table => decide (1024 ≤ (s.core c.core).fills.length)
  | .desc ks => ks.any fun k => (s.core c.core).fills.contains k
  | _ => false

/-- Whether a group can issue: it issues an instruction, or its clause may start. -/
def ableIn (s : State) (n : Nat) (c : Crew) (g : Group) : Bool :=
  (canIssue c g && !stillShort s n c g) || (c.st == .resident && startable c g && !roleBusy c g.role)

/-- Whether a group that ranks better can issue on the quad of one (R15): a G group before every H group, and within a class a group
that issues before an episode (R53). -/
def outranked (s : State) (c : Crew) (g : Group) : Bool :=
  s.crews.any fun p => p.2.core == c.core && p.2.groups.any fun q =>
    quadOf q.2 == quadOf g && decide (issueRank s p.2 q.2 < issueRank s c g) && ableIn s p.1 p.2 q.2

/-- The issue of a group's next instruction group, where it may issue; a breakpoint stops the crew before it, and so does a debug
command that named the crew before its dispatch (R410, R411). -/
def pickIssue (s : State) (crew grp : Nat) : Pick :=
  match Map.find? s.crews crew with
  | none => .done s
  | some c =>
    match Map.find? c.groups grp with
    | none => .done s
    | some g =>
      if !canIssue c g || outranked s c g then .done s
      else
        match breakpointAt s crew grp with
        | some i => .done (hitBreakpoint s crew grp i)
        | none => if c.stop then .done (stopCrew s crew 0 (some grp)) else issueNext s crew grp

/-! ## Time (assumption 4) -/

/-- Whether a counter of a bank counts cycles of its unit for a function now: an owner's always, a lessee's of a pool core only
in its own slice (R405). -/
def ticksFor (s : State) (b : Bank) : Bool :=
  if b.kind ≠ 1 then true
  else
    let u := s.cluster (clusterOf b.unit)
    if b.holder = pfHolder ∨ u.vf = b.holder ∨ b.harvest then true else u.vf == 0 && s.poolTurn == b.holder

/-- Adds cycles to the counters of a bank that count an event. -/
def Bank.tick (b : Bank) (h : Bool) (code n : Nat) : Bank :=
  { b with ctrs := b.ctrs.map fun p => if p.2.counts h code then (p.1, p.2.add n) else p }

/-- Whether a group of a class on a core, of a VF whose events a bank counts, waits for a miss entry (Table 18.4, R401). -/
def missEntryWait (s : State) (b : Bank) (h : Bool) : Bool :=
  s.crews.any fun p => p.2.core == b.unit && crewIsH s p.2 == h && b.hears (crewVf s p.2) h && p.2.groups.any fun g => g.2.wait == .table

/-- The cycle counts that pass in a bank (Table 18.4): the core's cycles; those in which a load waited for a miss entry; those of
a slice with a class's entries full; those of a stack in which H was held back. -/
def tickBank (s : State) (n : Nat) (b : Bank) : Bank :=
  if !ticksFor s b then b
  else
    match b.kind with
    | 1 =>
      let b := b.tick false 0x0001 n
      let b := if missEntryWait s b false then b.tick false 0x0006 n else b
      if missEntryWait s b true then b.tick true 0x0006 n else b
    | 2 =>
      let b := if entryRoom (s.slice b.unit) false then b else b.tick false 0x0104 n
      if entryRoom (s.slice b.unit) true then b else b.tick true 0x0104 n
    | 3 =>
      let held := (List.range 32).any fun i =>
        let c := s.channel (32 * b.unit + i)
        (c.queue.any fun q => q.h && b.hears q.vf true) && (nextServed s c).isNone
      if held then b.tick true 0x0203 n else b
    | _ => b

/-- Takes the stopping crews that are still a step on: they have stopped (R411). -/
def settleStops (s : State) : State :=
  (s.crews.filter fun p => p.2.st == .stopping).foldl (fun s p =>
    let s := settleCrew s p.1
    if crewStill s p.1 then s.modCrew p.1 fun c => { c with st := .stopped } else s) s

/-- Forgets the launched grids that are over and reported. -/
def forgetGrids (s : State) : State :=
  { s with grids := s.grids.filter fun p => !(p.2.done && p.2.depth == 0 && p.2.cmd.isNone && !s.crews.any fun c => c.2.grid == p.1) }

/-- Time passes: the clocks go on by amounts that are free values, those of cores nothing has happened on yet with them. -/
def passTime (s : State) : State :=
  let n := Config.elapsedCycles s.free
  let s := { s with banks := s.banks.map (tickBank s n.toNat) }
  let s := { s with gtime := s.gtime + Config.elapsedNs s.free, free := s.free + 1, cycles := s.cycles + n,
                    cores := s.cores.map fun p => (p.1, { p.2 with clock := p.2.clock + n, latest := none }) }
  forgetGrids (settleStops s)

/-! ## What the host does -/

/-- Whether an event is a request of the host on the link that is no DOE access. -/
def fromHost (i : Instr) : Bool :=
  match i with
  | .queueDoorbell .. | .queueEnable .. | .queueDisable .. | .queueKill .. | .eventWrite .. | .tlbiRange .. | .tlbiProcess ..
  | .tlbiPartition .. | .htlbiRange .. | .htlbiVf .. | .htlbiAllVfs | .fresume .. | .hresume .. | .fown .. | .reclaimSweep ..
  | .pageMoveFrame .. | .pageMoveToStore .. | .pageMoveFromStore .. | .partitionCreate .. | .partitionResize ..
  | .partitionDestroy .. | .partitionPromote .. | .poolmaskWrite .. | .chipletQuarantine .. | .chipletReset ..
  | .attestationRetry .. | .keyRoll .. | .principalBind | .principalUnbind .. | .osetReclaim | .osetRequest | .policyInstall ..
  | .policyRemove .. | .cselWrite .. | .counterClear .. | .cntloRead .. | .cnthiRead .. | .leaseRequest .. | .leaseRelease ..
  | .leaseRevoke .. | .debugStop .. | .debugResume .. | .debugDump .. | .replayOff .. | .recordMode .. | .replayMode ..
  | .trialStart .. | .vfFlr .. | .pfFlr | .firmwareImageWrite .. | .islandFreqWrite .. | .registerWrite .. | .vectorUnmask .. => true
  | _ => false

/-! ## The machine's own duties -/

/-- The fetch of a group's clause, or of its episode's, where it has none. -/
def fetchDuty (s : State) (n grp : Nat) : Option AgendaItem :=
  match startIss (s.enterEpisode n grp) n grp with
  | none => none
  | some x =>
    if x.grp.active.isNone && x.grp.wait == .none && !x.grp.halted && (x.grp.clause x.crew).isNone then some (.event (.clauseFetch n grp x.cur.addr))
    else none

/-- The runahead episode of a group that waits on a flag at a clause or a WAITF (R52, R313). -/
def aheadDuty (s : State) (n grp : Nat) : Option AgendaItem :=
  match startIss s n grp with
  | some x => if mayRunAhead s x then some (.event (.runaheadStart n grp)) else none
  | none => none

/-- The move of a crew whose group waits for a landing slot (R59), to the lowest core that has one. -/
def landingDuty (s : State) (n : Nat) (c : Crew) : List AgendaItem :=
  match landingDie c, s.gridOf n with
  | some d, some (_, g) =>
    match (List.range 256).find? fun k => dieOf k == d && (usableClusters s g.vf (bitOf g.desc.flags 0)).contains (clusterOf k) && landingFree s n c k with
    | some k => [.event (.migrationMove n k)]
    | none => []
  | _, _ => []

/-- Whether a crew's launch lets its groups run ahead. -/
def aheadCrew (s : State) (n : Nat) : Bool :=
  match s.gridOf n with
  | some (_, g) => bitOf g.desc.flags 1
  | none => false

/-- The duties of a crew: its groups issue, its roles choose clauses, clauses are fetched, episodes start, and it migrates. -/
def crewDuties (s : State) (n : Nat) (c : Crew) : List AgendaItem :=
  match c.st with
  | .resident =>
    (c.groups.filterMap fun p => if canIssue c p.2 && !outranked s c p.2 then some (.issue n p.1) else none) ++
      (c.groups.filterMap fun p => fetchDuty s n p.1) ++
      ((dedup (c.groups.map fun p => p.2.role)).filterMap fun r =>
        if !roleBusy c r && (choose c r).isSome then some (.event (.clauseStart n r)) else none) ++
      (if aheadCrew s n then c.groups.filterMap fun p => aheadDuty s n p.1 else []) ++ landingDuty s n c ++
      (if crewOver s n c then [.event (.crewRetire n)] else [])
  | .draining => [.event (.preemptionSaveDone n)]
  | .spilling => [.event (.medlarSpillDone n)]
  | _ => []

/-- The lines that the LAUNCHes of a core's crews wait to read together. -/
def descLines (s : State) (n : Nat) : List Nat :=
  (coreCrews s n).flatMap fun p => p.2.groups.flatMap fun g =>
    match g.2.wait with
    | .desc ks => ks
    | _ => []

/-- The write-back of an L1's least recently used dirty line, and the end of its least recently used line (R149) that no LAUNCH is
about to read. -/
def lineDuties (s : State) (n : Nat) (k : Core) : List AgendaItem :=
  (((leastBy (fun p : Nat × L1Line => p.2.used) (k.l1.filter fun p => p.2.dirty != 0)).map fun p => .event (.l1DirtyWriteback n p.1)).toList) ++
    ((leastBy (fun p : Nat × L1Line => p.2.used) (k.l1.filter fun p => !(descLines s n).contains p.1)).map fun p => .event (.l1LineExpiry n p.1)).toList

/-- The duties of a core: buffers, stores, fills, messages and lines. -/
def coreDuties (s : State) (n : Nat) (k : Core) : List AgendaItem :=
  ((List.range 4).filterMap fun q =>
    if (bufferWaiters s n q).isEmpty then none
    else some (.event (if (freeBufferOf k q).isSome then .fastBufferAssign n q else .fastBufferRecall n q))) ++
    (if k.storeQ.isEmpty && (nextOther s n).isNone then [] else [.event (.storePerformed n)]) ++
    (k.fills.map fun l => .event (.l1FillLand n l)) ++ (if k.msgIn.isEmpty then [] else [.event (.messageArrival n)]) ++
    lineDuties s n k

/-- The duty of an operation in flight. -/
def opDuty (n : Nat) (o : Op) : List AgendaItem :=
  match o.kind with
  | .load _ | .loadK _ _ | .atom .. | .barpa _ => [.event (.loadDelivery n)]
  | .copy .. => if o.batch.isNone then [.event (.copyComplete n), .event (.copyFault n)] else []
  | .xzero _ => [.event (.xzeroDone n)]
  | .xreq .. => [.event (.xreqDone n)]
  | .red _ _ | .cmaint _ _ | .recv .. | .send .. => []

/-- The duties of the memory system and the matrix engines. -/
def memDuties (s : State) : List AgendaItem :=
  (s.slices.flatMap fun p =>
    (if p.2.held.isEmpty then [] else [.event (.l2RequestAccept p.1)]) ++
      p.2.misses.filterMap fun m => if m.2.2 then some (.event (.l2Fill p.1 m.1)) else none) ++
    (s.channels.filterMap fun p => 
      if p.2.queue.isEmpty then none
      else some (.event (if (nextServed s p.2).isSome then .hbmChannelServe p.1 else .hbmTokenRefill p.1))) ++
    (s.ports.filterMap fun p => if p.2.queue.isEmpty then none else some (.depart p.1)) ++
    (s.wbufs.filterMap fun w => if w.sent then none else some (.event (.writeBackAcknowledgement w.die w.line))) ++
    s.engines.flatMap fun p =>
      (if p.2.table.isEmpty then [] else [.event (.matrixPassDecision p.1)]) ++
        (if p.2.running.isEmpty then [] else [.event (.matrixPassEnd p.1)]) ++
        (if p.2.ended.isEmpty then [] else [.event (.matrixRowsWritten p.1)])

/-- The event that begins a command by its opcode (Table 14.5). -/
def beginEvent (vf q : Nat) (c : Cmd) : List AgendaItem :=
  match c.opcode with
  | 1 => [.event (.launchCommand vf q)]
  | 2 => [.event (.waitCommand vf q)]
  | 3 => [.event (.signalCommand vf q)]
  | 4 => [.event (.writeCommand vf q)]
  | 5 => [.event (.fenceCommand vf q)]
  | 6 => [.event (.copyCommand vf q)]
  | _ => []

/-- The duties of a VF: its queues, its invalidation, its fault queue and its trial. -/
def vfDuties (vf : Nat) (v : Vf) : List AgendaItem :=
  (v.queues.flatMap fun p =>
    (if p.2.bell then [.event (.availEntryRead vf p.1)] else []) ++ (p.2.cmds.flatMap fun c => if c.2.st == .pending || (c.2.st == .begun && c.2.opcode == 6) then beginEvent vf p.1 c.2 else []) ++
      (p.2.cmds.map fun c => .event (.commandCompletion vf p.1 c.1)) ++ (if p.2.st == .killing then [.event (.queueKillFinish vf p.1)] else [])) ++
    (if v.tlbi.busy then [.event (.tlbiComplete vf)] else []) ++ (if v.fq.waiting.isEmpty then [] else [.event (.faultRecordWrite vf)]) ++
    (if v.trial.busy then [.event (.trialEnd vf)] else []) ++ (if v.flr && !killsLeft v then [.flrEnd vf] else [])

/-- The duties of the device as a whole. -/
def deviceDuties (s : State) : List AgendaItem :=
  (if s.grids.isEmpty then [] else [.event .crewDispatch]) ++ (if s.htlbi.busy then [.event (.tlbiComplete 0)] else []) ++
    (if s.hfq.waiting.isEmpty then [] else [.event (.faultRecordWrite 0)]) ++
    (if s.rcstat.getLsbD 31 then [.event .reclaimSweepEnd] else []) ++ (if s.pmove.isSome then [.event .pageMoveDone] else []) ++
    (if s.pcmd.go then [.event .partitionCommandEnd] else []) ++ (if s.pf.trial.busy then [.event (.trialEnd 0)] else [])

/-- The duty of BD: the data of a Keyed chiplet is enabled (17_trust.md R382 step 4). -/
def trustDuties (s : State) : List AgendaItem :=
  s.chiplets.filterMap fun p => if p.2.st = .keyed then some (.enable p.1) else none

/-- Every duty, and the passage of time. -/
def duties (s : State) : List AgendaItem :=
  (s.crews.flatMap fun p => crewDuties s p.1 p.2) ++ (s.cores.flatMap fun p => coreDuties s p.1 p.2) ++
    (s.ops.flatMap fun p => opDuty p.1 p.2) ++ memDuties s ++ (s.vfs.flatMap fun p => vfDuties p.1 p.2) ++ deviceDuties s ++ trustDuties s ++ [.time]

/-! ## The choice -/

/-- Does what an item names. -/
def pickItem (s : State) (a : AgendaItem) : Pick :=
  match a with
  | .event i => if fromHost i && !s.pfReady then .done s else .run i { s with cur := none }
  | .issue c g => pickIssue s c g
  | .time => .done (passTime s)
  | .place vf id c => .done (setPlace s vf id c)
  | .depart p => .done (departFrame s p)
  | .retransmit p => .done (countRetx s p)
  | .fecError p => .done (countFec s p)
  | .corrected u => .done (countError s u)
  | .spoil f => .done { s with flaws := s.flaws ++ [f] }
  | .flrEnd vf => .done (endFlr s vf)
  | .enable c => .done (enableKeyed s c)
  | .flit l b => .done (addFlit s l b)

/-- The next thing to run: the fence of what was found to be bad; else the head of the agenda; with nothing on it, a grid that is ready to complete does, else the machine takes
every duty it now has in turn. -/
def pick (s : State) : Pick :=
  match s.found with
  | f :: rest => .done (fenceFound { s with found := rest } f)
  | [] =>
  match s.agenda with
  | a :: rest => pickItem { s with agenda := rest } a
  | [] =>
    match settleGrid s with
    | some t => .done t
    | none =>
      match duties s with
      | a :: rest => pickItem { s with agenda := rest } a
      | [] => .done s

end Sys2Proof.Machine
end

