-- ==== Sys2Proof/Machine/Load.lean ====
section
/-! DEFINITION. A clause of one instruction in the fast buffer of a crew's issue group, where a step fetches it: what a launch of a
program that begins with it comes to (assumption 25). -/

namespace Sys2Proof.Machine

/-- The words of an instruction of the opcode table in the class its word names: the first alone where it is whole, else with
the words after it, zeros. -/
def fetchWords (nbits w : Nat) : Cls × List Word :=
  let x := BitVec.ofNat 32 (w % 2 ^ nbits)
  let c := tableClass x
  match decodeGroup c [x] 256 false with
  | .ok _ => (c, [x])
  | .error _ => (c, tableWords (w % 2 ^ nbits))

/-- The header of a clause of n words: its class, flag A cf0, flag B cf1, no wait (Table 7.1). -/
def loadHeader (c : Cls) (n : Nat) : Word := word (2 ^ 23 + 16 * c.code + n)

/-- A launch descriptor of one crew of 32 threads in one sheaf of two banks. -/
def loadDesc : Desc :=
  { entry := 0x4000, params := 0, gx := 1, gy := 1, gz := 1, cx := 32, cy := 1, cz := 1, flags := 0, scratch := 0, roles := [(1, 2)],
    rolesOk := true, ringTab := 0, handler := 0, ranges := 0, nRanges := 0, indirect := 0, record := 0, prio := 0, resvOk := true,
    raw := [] }

/-- Its grid, of VF 1. -/
def loadGrid : Grid := { Grid.accept 1 0 0 0 loadDesc none 0 0 0 0 none with built := true, crews := 1, next := 1 }

/-- Its crew, resident on core 0. -/
def loadCrew (gid n : Nat) : Crew := { freshCrew gid loadGrid 0 n with st := .resident }

/-- The map of a region whose 32 window slots stand for main registers 0 to 31. -/
def loadMap : RegionMap := { base := 0, mask := 0xFFFFFFFF, maskSet := 0, restartable := false, nra := false }

/-- A crew whose first issue group has a clause of some words active, in an open region, holding a fast buffer; the group is past
any breakpoint at its clause. -/
def loadGroup (c : Crew) (g : Group) (hdr : Word) (ws : List Word) : Crew :=
  let g := { g with quad := some 0, fetched := some (0x4000, hdr :: ws), brk := some (0x4000, 1),
                    active := some { addr := 0x4000, hdr := hdr, words := ws, lanes := List.range 32, index := 1 } }
  match openRegion c g loadMap (List.range 32) [] with
  | .ok (c, g, _) => { c with groups := Map.put c.groups 0 g }
  | .error _ => { c with groups := Map.put c.groups 0 g }

/-- Puts a crew of one issue group before an instruction, as the next thing that happens. -/
def putLoaded (s : State) (hdr : Word) (ws : List Word) : State :=
  let n := s.nextCrew
  let gid := s.nextGrid
  let c := loadCrew gid n
  let c := match Map.find? c.groups 0 with
    | some g => loadGroup c g hdr ws
    | none => c
  { s with agenda := [.issue n 0], found := [], grids := Map.put s.grids gid loadGrid, crews := Map.put s.crews n c, nextGrid := gid + 1,
           nextCrew := n + 1, cores := Map.upd s.cores 0 Core.init fun k => { k with buffers := Map.put k.buffers 0 (n, 0) } }

end Sys2Proof.Machine
end

