-- ==== Sys2Proof/Machine/Step.lean ====
section
/-! DEFINITION. One step of the machine, and an instruction put where a step fetches it. -/

namespace Sys2Proof.Machine

open Host (Outcome)

/-- One step: what `pick` names next, run by `exec`. -/
def step (s : State) : Outcome State Fault Refusal :=
  match pick s with
  | .run i s' => exec i s'
  | .done s' => .next s'
  | .stop f => .fault f

/-- The state with an instruction of the opcode table where the next step fetches it (assumption 25). -/
def State.withFetchWord (s : State) (nbits w : Nat) : State :=
  let x := fetchWords nbits w
  putLoaded s (loadHeader x.1 x.2.length) x.2

end Sys2Proof.Machine
end

