-- ==== Sys2Proof/Safety.lean ====
section
/-! DEFINITION. The terms statements about the machine are made in: what an issue group's registers hold in a state, what an
instruction may find when it issues, and what it leaves as it was. -/

namespace Sys2Proof.Machine

open Host (Outcome)

/-! ## Storage -/

/-- One place of register storage: window slot i of a lane position, main register r of a home sheaf in a lane, k register i
of a home sheaf, predicate i of a home sheaf in a lane (03_registers.md R66, R74, R75). -/
inductive Cell where
  | slot (lane i : Nat)
  | main (sheaf r lane : Nat)
  | k (sheaf i : Nat)
  | pred (sheaf i lane : Nat)
  deriving DecidableEq, Repr

/-- What a place holds, as an issue group finds it; a predicate as 0 or 1. None for a slot that is not mapped. -/
def Iss.cell (x : Iss) : Cell → Option Word
  | .slot l i => (slotOf x.grp l i).map fun sl => laneGet sl.vals l 0
  | .main h r l => some ((x.crew.sheaf h).mainAt r l)
  | .k h i => some (Map.get (x.crew.sheaf h).k i 0)
  | .pred h i l => some (if (x.crew.sheaf h).pred i l then 1 else 0)

/-- The place the i-th register of an operand names in a thread (03_registers.md R68, R73); none for `z` and literals. -/
def regCell (x : Iss) (o : Operand) (i : Nat) (p : Nat × Nat) : Option Cell :=
  match o with
  | .w n => some (.slot p.1 (n.val + i))
  | .k n => some (.k p.2 (n.val + i))
  | .z | .lit _ => none
  | .v n =>
    match xregSlot x.grp p.1 (n.val + i) with
    | some j => some (.slot p.1 j)
    | none => some (.main p.2 (n.val + i) p.1)

/-- The issue group a `cur` names, as a state holds it, whether or not it issues. -/
def State.context (s : State) (cu : Cur) : Option Iss := issuer { s with cur := some cu } gAlways

/-! ## What an instruction finds -/

/-- Every join of origin sets succeeds, in a table and in every table joins make of it: there are tables, this one among
them, in each of which any sets have a join that leads to one of them (no OSET_OVERFLOW, 17_trust.md R395). -/
def JoinsFit (t : Map OEntry) : Prop :=
  ∃ P : Map OEntry → Prop, P t ∧ ∀ t' a bs, P t' → ∃ u t'', osJoinAll t' a bs = .ok (u, t'') ∧ P t''

/-- An instruction issues in a state, outside a runahead episode: its issue group, the lane positions of its threads all
different and below 32, their home sheaves and threads those of the crew, and joins of origin sets that succeed. -/
structure Issues (s : State) (g : Guard) (x : Iss) : Prop where
  issuer : issuer s g = some x
  plain : x.grp.episode = none
  lanes : (lanesIn x.present).Nodup
  inLane : ∀ p ∈ x.present, p.1 < 32
  inSheaf : ∀ p ∈ x.present, p.2 < x.crew.sheaves.length
  inThread : ∀ p ∈ x.present, p.1 < (x.crew.sheaf p.2).threads.length
  joins : JoinsFit s.osets

/-- The operands can be read or written: slots mapped, main registers within the budget (03_registers.md R70, R73), and no
main register written in a restartable region (R49). -/
structure Operable (x : Iss) (os : List (Operand × Nat)) (d : Operand) (n : Nat) : Prop where
  named : ∀ o ∈ os ++ [(d, n)], ∀ p ∈ x.active, inBudget x o.1 o.2 p = true ∧ readable x o.1 o.2 p = true
  writable : ∀ r p, d = .v r → p ∈ x.active → inRestartable x.grp p.1 = false

/-! ## What an instruction leaves as it was -/

/-- A thread but for its PC. -/
def Thread.sansPc (t : Thread) : Thread := { t with clause := 0, index := 0, reached := 0 }

/-- A thread but for its PC and its sticky floating-point flags. -/
def Thread.sansFpx (t : Thread) : Thread := { t.sansPc with fpx := 0, fpxS := 0 }

/-- A home sheaf but for its registers, predicates and threads, and the order of window stores about them: its completion flags,
hashes, role and banks. -/
def Sheaf.sansRegs (h : Sheaf) : Sheaf :=
  { h with main := [], mainS := [], k := [], kS := [], p := [], pS := [], threads := [], mainW := [], mainWS := [] }

/-- A crew but for its home sheaves, issue groups, slot sets and rotation pointers: its scratchpad, barriers, rings, typed units, the
permutation table, and where it stands. -/
def Crew.sansRegs (c : Crew) : Crew := { c with sheaves := [], groups := [], rotate := [], slotS := [] }

/-- An open region but for what its slots hold. -/
def Region.sansSlots (r : Region) : Region := { r with slots := [] }

/-- An issue group but for what its slots hold, where its clause stands and the hash of values written. -/
def Group.sansSlots (g : Group) : Group :=
  { g with regions := g.regions.map Region.sansSlots, active := none, fetched := none, wait := .none, wHash := 0 }

/-- Everything of a machine but crews, counters, the issuing instruction, the order of events and the origin-set table: all
memories, grids, operations in flight, cores, engines, translations, partitions and registers of the device. -/
def State.sansCrews (s : State) : State := { s with crews := [], banks := [], cur := none, seq := 0, osets := [] }

/-- The threads whose PC moves when the issuing instruction completes: those of the active clause. -/
def Iss.stepping (x : Iss) : List (Nat × Nat) :=
  match x.grp.active with
  | none => []
  | some a => a.lanes.map fun l => (l, x.grp.homeAt l)

/-- What an instruction that writes registers alone leaves as it was: x before, y the same issue group after. -/
structure Keeps (s t : State) (x y : Iss) : Prop where
  machine : t.sansCrews = s.sansCrews
  otherCrews : ∀ n, n ≠ x.cur.crew → Map.find? t.crews n = Map.find? s.crews n
  otherGroups : ∀ n, n ≠ x.cur.group → Map.find? y.crew.groups n = Map.find? x.crew.groups n
  crew : y.crew.sansRegs = x.crew.sansRegs
  sheafCount : y.crew.sheaves.length = x.crew.sheaves.length
  sheaves : ∀ h, (y.crew.sheaf h).sansRegs = (x.crew.sheaf h).sansRegs
  group : y.grp.sansSlots = x.grp.sansSlots
  threads : ∀ p, (y.crew.thread p).sansFpx = (x.crew.thread p).sansFpx
  pcs : ∀ p, p ∉ x.stepping → (y.crew.thread p).clause = (x.crew.thread p).clause ∧ (y.crew.thread p).index = (x.crew.thread p).index
  grid : y.grid = x.grid
  sets : ∀ i e, Map.find? s.osets i = some e → Map.find? t.osets i = some e

/-- The instruction has run: t is the next state, y the issue group in it. -/
structure Ran (i : Instr) (s t : State) (x y : Iss) : Prop where
  next : exec i s = .next t
  context : t.context x.cur = some y
  keeps : Keeps s t x y

/-- A V instruction with a register destination has run: in each active thread the destination's registers hold the words
`r` gives, the sticky flags hold also those `r` gives, and every other place, and every other thread's flags, are as before
(09_isa_integer.md R213, 03_registers.md R74: a k destination takes the value of the lowest active thread of its home
sheaf). -/
structure VecRan (i : Instr) (s : State) (x : Iss) (d : Operand) (n : Nat) (r : Nat × Nat → List Word × Nat) (t : State) (y : Iss) :
    Prop where
  ran : Ran i s t x y
  written : ∀ p ∈ x.active, ∀ j, j < n → ∀ c, regCell x d j p = some c → y.cell c = some (((r (repOf x d p)).1[j]?).getD 0)
  others : ∀ c, (∀ p ∈ x.active, ∀ j, j < n → regCell x d j p ≠ some c) → y.cell c = x.cell c
  flags : ∀ p ∈ x.active, (y.crew.thread p).fpx = (x.crew.thread p).fpx ||| BitVec.ofNat 5 (r (repOf x d p)).2
  otherFlags : ∀ p, p ∉ x.active → (y.crew.thread p).fpx = (x.crew.thread p).fpx

/-- A V instruction with a predicate destination has run: predicate d holds f in each active thread, and every other place
and every sticky flag are as before. -/
structure PredRan (i : Instr) (s : State) (x : Iss) (d : Nat) (f : Nat × Nat → Bool) (t : State) (y : Iss) : Prop where
  ran : Ran i s t x y
  written : ∀ p ∈ x.active, (y.crew.sheaf p.2).pred d p.1 = f p
  others : ∀ c, (∀ p ∈ x.active, c ≠ .pred p.2 d p.1) → y.cell c = x.cell c
  flags : ∀ p, (y.crew.thread p).fpx = (x.crew.thread p).fpx

/-! ## Instructions that put work in flight, and commit instructions -/

/-- The memories of the device, of the host and of the backing store hold the same bytes. -/
def SameMemory (s t : State) : Prop := t.hbm = s.hbm ∧ t.host = s.host ∧ t.store = s.store

/-- A crew's own memories: its scratchpad and its typed units, with their origin sets. -/
def Crew.memories (c : Crew) : Memory × Map OSet × Map TUnit × Map TUnit × Map TUnit :=
  (c.scratch, c.scratchS, c.unitsW, c.unitsA, c.unitsC)

/-- Completion flag f counts one more in some home sheaves, and no other flag changes (02_execution.md R37). -/
def Counted (c c' : Crew) (homes : List Nat) (f : Option Nat) : Prop :=
  ∀ h k, (c'.sheaf h).flag k = (c.sheaf h).flag k + if f = some k ∧ h ∈ homes then 1 else 0

/-- The flag has room for one more in every home sheaf (R38). -/
def FlagFree (c : Crew) (homes : List Nat) (f : Option Nat) : Prop := ∀ k, f = some k → ∀ h ∈ homes, (c.sheaf h).flag k < 63

/-- The registers of a sheaf: main file, k registers and predicates, with their sets. -/
def Sheaf.files (h : Sheaf) : Map (Lanes Word) × Map OSet × Map Word × Map OSet × Map (Lanes Bool) × Map OSet :=
  (h.main, h.mainS, h.k, h.kS, h.p, h.pS)

/-- The commit template's first half (R47): an instruction issues, its group's regions end for the issuing lanes, which
leaves the context z and the state s1, in which origin sets still join. -/
structure Commits (s : State) (g : Guard) (x z : Iss) (s1 : State) : Prop where
  issues : Issues s g x
  ended : ∃ y, x.endRegion (lanesIn x.present) s = .ok (y, s1) ∧ z = withReopen x y
  joins : JoinsFit s1.osets

/-- An instruction has issued and put work in flight: from the state s1 and the context z that its checks, and a commit
instruction's region end, leave, it counts a flag up and writes no register and no memory. -/
structure Filed (i : Instr) (s s1 t : State) (x z y : Iss) (homes : List Nat) (f : Option Nat) : Prop where
  next : exec i s = .next t
  context : t.context x.cur = some y
  memory : SameMemory s1 t
  otherCrews : ∀ n, n ≠ x.cur.crew → Map.find? t.crews n = Map.find? s1.crews n
  own : y.crew.memories = z.crew.memories
  cells : ∀ c, y.cell c = z.cell c
  flags : Counted z.crew y.crew homes f
  fpx : ∀ p, (y.crew.thread p).fpx = (z.crew.thread p).fpx

/-- An operation stands in flight under the number n, and the others are as they were. -/
structure InFlight (s1 t : State) (o : Op) : Prop where
  here : Map.find? t.ops s1.nextOp = some o
  others : ∀ n, n ≠ s1.nextOp → Map.find? t.ops n = Map.find? s1.ops n
  next : t.nextOp = s1.nextOp + 1

/-- The place the i-th register of a commit instruction's destination goes to: a slot's value straight to the main register
that the slot mapped (R47 step 3). -/
def commitCell (x : Iss) (o : Operand) (i : Nat) (p : Nat × Nat) : Option Cell :=
  match o with
  | .w n => (issueMain x p.1 (n.val + i)).map fun v => .main p.2 v p.1
  | .k n => some (.k p.2 (n.val + i))
  | .v n => some (.main p.2 (n.val + i) p.1)
  | .z | .lit _ => none

/-- A commit instruction has written the words ws to its destination in each active lane, and no other register. -/
structure Committed (x z y : Iss) (d : Operand) (ws : List Word) : Prop where
  written : ∀ p ∈ x.active, ∀ i, i < ws.length → ∀ c, commitCell x d i p = some c → y.cell c = some (ws[i]?.getD 0)
  others : ∀ c, (∀ p ∈ x.active, ∀ i, i < ws.length → commitCell x d i p ≠ some c) → y.cell c = z.cell c
  fpx : ∀ p, (y.crew.thread p).fpx = (z.crew.thread p).fpx

/-- A thread of the state; one that has left where there is none. -/
def State.threadAt (s : State) (crew : Nat) (p : Nat × Nat) : Thread :=
  ((Map.find? s.crews crew).map fun c => c.thread p).getD Thread.gone

/-- A home sheaf of the state. -/
def State.sheafAt (s : State) (crew h : Nat) : Sheaf := ((Map.find? s.crews crew).map fun c => c.sheaf h).getD Sheaf.none

/-- The issuing threads have gone each to the first instruction of a clause; other threads stand where they stood. -/
structure Went (i : Instr) (s t : State) (x : Iss) (dest : Nat × Nat → Dword) : Prop where
  next : exec i s = .next t
  pcs : ∀ p ∈ x.present, (t.threadAt x.cur.crew p).clause = dest p ∧ (t.threadAt x.cur.crew p).index = 1
  others : ∀ p, p ∉ x.present → t.threadAt x.cur.crew p = s.threadAt x.cur.crew p
  otherCrews : ∀ n, n ≠ x.cur.crew → Map.find? t.crews n = Map.find? s.crews n

/-! ## Machines whose data is in form -/

/-- Every memory of the machine is in canonical form. -/
def State.memoriesWf (s : State) : Bool := Memory.wf s.hbm && Memory.wf s.host && Memory.wf s.store

end Sys2Proof.Machine
end

