-- ==== Sys2Proof/WellFormed.lean ====
section
/-! DEFINITION. Which terms of Instr are instructions: those whose operands the encoding tables admit
(03_registers.md R68, R69, R73; 07_encoding.md R170 to R172, R177; 09_isa_integer.md R212; 11_isa_memory.md R257). -/

namespace Sys2Proof

/-- Whether a register number may begin a group of n registers (R69, R257). -/
def alignedReg (n r : Nat) : Bool :=
  match n with
  | 2 => decide (r % 2 = 0)
  | 4 => decide (r % 4 = 0)
  | _ => true

/-- Whether an operand may stand in a field of a use, in a class. XREG stands in V and M clauses only (Table 7.5). -/
def Use.admits (u : Use) (c : Cls) (o : Operand) : Bool :=
  let xr := c == .V || c == .M
  match u, o with
  | .src n, .w r => alignedReg n r
  | .src n, .v r => xr && alignedReg n r
  | .src n, .k r => alignedReg n r && !(n == 4 && r.val == 28)
  | .src _, .z => true
  | .src n, .lit _ => n != 4
  | .dst n, .w r => alignedReg n r
  | .dst n, .v r => xr && alignedReg n r
  | .dst n, .k r => alignedReg n r && !(n == 4 && r.val == 28)
  | .dst _, .z => true
  | .dstW n, .w r => alignedReg n r
  | .dstW n, .v r => xr && alignedReg n r
  | .dstW _, .z => true
  | .dstWK n, .w r => alignedReg n r
  | .dstWK n, .v r => xr && alignedReg n r
  | .dstWK n, .k r => alignedReg n r && !(n == 4 && r.val == 28)
  | .dstWK _, .z => true
  | .dstK n, .k r => alignedReg n r && !(n == 4 && r.val == 28)
  | .uni n, .k r => alignedReg n r && !(n == 4 && r.val == 28)
  | .uni _, .z => true
  | .uni n, .lit _ => n != 4
  | _, _ => false

/-- Whether a field's operand is admitted. -/
def FieldVal.ok (f : FieldVal) (c : Cls) : Bool :=
  match f with
  | .opnd u o => u.admits c o
  | _ => true

/-- Whether a field names a window slot. -/
def FieldVal.isW (f : FieldVal) : Bool :=
  match f with
  | .opnd _ (.w _) => true
  | _ => false

/-- Whether a field names a k register as a destination that R69 restricts. -/
def FieldVal.isKDst (f : FieldVal) : Bool :=
  match f with
  | .opnd (.dst _) (.k _) => true
  | _ => false

/-- The shape's operands: each admitted, slots and XREG registers not mixed (R73), and no per-lane source under a k
destination (R69). -/
def Shape.ok (s : Shape) : Bool :=
  s.d.ok s.cls && s.a.ok s.cls && s.b.ok s.cls &&
  !((s.d.isV || s.a.isV || s.b.isV) && (s.d.isW || s.a.isW || s.b.isW)) &&
  !(s.d.isKDst && (s.a.isV || s.b.isV || s.a.isW || s.b.isW))

/-- The SMOD bits an instruction may carry (R171). -/
def Instr.smodUse : Instr → SmodUse
  | .fadd .. | .fsub .. | .fmul .. | .ffma .. | .fmin .. | .fmax .. | .faddH2 .. | .fmulH2 .. | .ffmaH2 .. | .fminH2 ..
  | .fmaxH2 .. | .faddB2 .. | .fmulB2 .. | .ffmaB2 .. | .fdp2H2 .. | .fdp2B2 .. => .two
  | .fsetpEq .. | .fsetpNe .. | .fsetpLt .. | .fsetpLe .. | .fsetpNan .. => .cmp
  | .frnd .. | .fldexp .. | .fldxa .. | .frcp .. | .frsq .. | .fsqrt .. | .fex2 .. | .flg2 .. | .fsin .. | .fcos ..
  | .ftanh .. => .one
  | _ => .no

/-- The semantics an ORD prefix may give an instruction (Table 6.2). -/
def Instr.ordOk : Instr → Bool
  | .ld _ _ (some o) _ _ _ _ => [Sem.rlx, .acq, .sc].contains o.sem
  | .st _ _ (some o) _ _ _ _ => [Sem.rlx, .rel, .sc].contains o.sem
  | .red _ (some o) _ _ _ => [Sem.rlx, .rel, .sc].contains o.sem
  | _ => true

/-- What the tables ask of raw fields beyond their types. -/
def Instr.rawOk : Instr → Bool
  | .ptld first _ count _ => decide (1 ≤ count.val ∧ first.val + count.val ≤ 8)
  | .red op _ _ _ _ => !op.exchCas
  | .stt .W _ _ _ _ _ => false
  | .wrsr n _ _ => specWritable n.val
  | _ => true

/-- A well-formed instruction; an event is none. -/
def Instr.wf (i : Instr) : Bool :=
  match i with
  | .bra _ _ | .call _ _ | .brau _ _ => true
  | .xmma _ _ _ _ _ _ _ => true
  | i =>
    match i.shape with
    | none => false
    | some s => s.ok && (s.smod == SMod.none || smodOk i.smodUse s.smod) && i.ordOk && i.rawOk

end Sys2Proof
end

