-- ==== Sys2Proof/Certificates/Slice0/Obligations.lean ====
section
/-! DEFINITION. The statements for the provers. A table lists instructions of one shape with the result the spec gives each;
the statement that names the table holds for every row of it. -/

namespace Sys2Proof.Claims

open Sys2Proof.Machine

/-! ## Tables of the V class -/

/-- clamp(v, −2^31, 2^31 − 1) as a word. -/
def sat32 (v : Int) : Word := BitVec.ofInt 32 (if v < -2147483648 then -2147483648 else if 2147483647 < v then 2147483647 else v)

/-- The count of a shift: y AND 63 (09_isa_integer.md R217). -/
def cnt (y : Word) : Nat := (y &&& 63).toNat

/-- The forms of two 32-bit sources and a 32-bit result (09_isa_integer.md Table 9.2, R217). -/
def twoSource : List ((Operand → Operand → Operand → Guard → Instr) × (Word → Word → Word)) :=
  [(.iadd, fun x y => BitVec.ofNat 32 (x.toNat + y.toNat)),
   (.iaddSat, fun x y => sat32 (x.toInt + y.toInt)),
   (.isub, fun x y => BitVec.ofInt 32 ((x.toNat : Int) - y.toNat)),
   (.isubSat, fun x y => sat32 (x.toInt - y.toInt)),
   (.imul, fun x y => BitVec.ofNat 32 (x.toNat * y.toNat)),
   (.imulhS, fun x y => BitVec.ofInt 32 ((x.toInt * y.toInt) >>> 32)),
   (.imulhN, fun x y => BitVec.ofNat 32 ((x.toNat * y.toNat) >>> 32)),
   (.iminS, fun x y => if x.toInt ≤ y.toInt then x else y),
   (.iminN, fun x y => if x.toNat ≤ y.toNat then x else y),
   (.imaxS, fun x y => if x.toInt ≤ y.toInt then y else x),
   (.imaxN, fun x y => if x.toNat ≤ y.toNat then y else x),
   (.lea1, fun x y => BitVec.ofNat 32 (x.toNat + y.toNat * 2 ^ 1)),
   (.lea2, fun x y => BitVec.ofNat 32 (x.toNat + y.toNat * 2 ^ 2)),
   (.lea3, fun x y => BitVec.ofNat 32 (x.toNat + y.toNat * 2 ^ 3)),
   (.lea4, fun x y => BitVec.ofNat 32 (x.toNat + y.toNat * 2 ^ 4)),
   (.and, fun x y => x &&& y),
   (.or, fun x y => x ||| y),
   (.xor, fun x y => x ^^^ y),
   (.andn, fun x y => x &&& ~~~y),
   (.orn, fun x y => x ||| ~~~y),
   (.shl, fun x y => BitVec.ofNat 32 (x.toNat * 2 ^ cnt y)),
   (.shr, fun x y => BitVec.ofNat 32 (x.toNat / 2 ^ cnt y)),
   (.sar, fun x y => BitVec.ofInt 32 (x.toInt / 2 ^ cnt y))]

/-- A signed field of w bits of a word at bit i. -/
def sField (x : Word) (w i : Nat) : Int := (x.extractLsb' i w).toInt

/-- An unsigned field of w bits of a word at bit i. -/
def nField (x : Word) (w i : Nat) : Nat := (x.extractLsb' i w).toNat

/-- The forms that also read D, with its value before (Table 9.2, R218). -/
def accumulating : List ((Operand → Operand → Operand → Guard → Instr) × (Word → Word → Word → Word)) :=
  [(.imad, fun x y d => BitVec.ofNat 32 (d.toNat + x.toNat * y.toNat)),
   (.idp4S, fun x y d => BitVec.ofInt 32 (d.toInt + (sField x 8 0 * sField y 8 0 + sField x 8 8 * sField y 8 8 +
      sField x 8 16 * sField y 8 16 + sField x 8 24 * sField y 8 24))),
   (.idp4N, fun x y d => BitVec.ofNat 32 (d.toNat + (nField x 8 0 * nField y 8 0 + nField x 8 8 * nField y 8 8 +
      nField x 8 16 * nField y 8 16 + nField x 8 24 * nField y 8 24))),
   (.idp2S, fun x y d => BitVec.ofInt 32 (d.toInt + (sField x 16 0 * sField y 16 0 + sField x 16 16 * sField y 16 16))),
   (.fshl, fun x y d => BitVec.ofNat 32 (((d.toNat * 2 ^ 32 + x.toNat) * 2 ^ cnt y) >>> 32)),
   (.fshr, fun x y d => BitVec.ofNat 32 ((x.toNat * 2 ^ 32 + d.toNat) / 2 ^ cnt y))]

/-- What a form of one source writes for x (R215, R217, R220, R224). -/
def oneSource : List ((Operand → Operand → Guard → Instr) × (Word → Word → Prop)) :=
  [(.iabs, fun x r => r = BitVec.ofNat 32 x.toInt.natAbs),
   (.not, fun x r => ∀ i, i < 32 → r.getLsbD i = !x.getLsbD i),
   (.mov, fun x r => r = x),
   (.brev, fun x r => ∀ i, i < 32 → r.getLsbD i = x.getLsbD (31 - i)),
   (.popc, fun x r => r.toNat = ((List.range 32).filter fun i => x.getLsbD i).length),
   (.clz, fun x r => (x = 0 → r = 32) ∧ (x ≠ 0 → r.toNat < 32 ∧ x.getLsbD (31 - r.toNat) = true ∧
      ∀ i, 31 - r.toNat < i → x.getLsbD i = false)),
   (.ctz, fun x r => (x = 0 → r = 32) ∧ (x ≠ 0 → r.toNat < 32 ∧ x.getLsbD r.toNat = true ∧
      ∀ i, i < r.toNat → x.getLsbD i = false))]

/-- Position and length of a bit field (R219). -/
def fieldPos (y : Word) : Nat := y.toNat % 256
/-- Length of a bit field (R219). -/
def fieldLen (y : Word) : Nat := min (y.toNat / 256 % 256) 32

/-- Bit i of x with its sign bit continued above bit 31. -/
def signedBit (x : Word) (i : Nat) : Bool := if i < 32 then x.getLsbD i else x.getLsbD 31

/-- Byte n of the eight bytes of x and y (R221). -/
def srcByte (x y : Word) (n : Nat) : Nat := if n < 4 then nField x 8 (8 * n) else nField y 8 (8 * (n - 4))

/-- A result byte of PRMT by its selector nibble (R221). -/
def permByte (x y : Word) (n : Nat) : Nat :=
  if n < 8 then srcByte x y n else if 128 ≤ srcByte x y (n - 8) then 255 else 0

/-- What the field and byte forms write for x, y and D's value before (R219, R221). -/
def fieldForms : List ((Operand → Operand → Operand → Guard → Instr) × Bool × (Word → Word → Word → Word → Prop)) :=
  [(.bfeN, false, fun x y _ r => ∀ i, i < 32 →
      r.getLsbD i = (decide (i < fieldLen y) && decide (i + fieldPos y < 32) && x.getLsbD (i + fieldPos y))),
   (.bfeS, false, fun x y _ r => (fieldLen y = 0 → r = 0) ∧ (fieldLen y ≠ 0 → ∀ i, i < 32 →
      r.getLsbD i = signedBit x (min i (fieldLen y - 1) + fieldPos y))),
   (.bfi, true, fun x y d r => ∀ i, i < 32 →
      r.getLsbD i = if fieldPos y ≤ i ∧ i < fieldPos y + fieldLen y then x.getLsbD (i - fieldPos y) else d.getLsbD i),
   (.prmt, true, fun x y d r => ∀ i, i < 4 → nField r 8 (8 * i) = permByte x y (nField d 4 (4 * i)))]

/-- The forms with a 64-bit destination, their sources' widths and results (Table 9.3). -/
def wideForms : List ((Operand → Operand → Operand → Guard → Instr) × (Nat × Nat × Bool) × (Dword → Dword → Dword → Dword)) :=
  [(.iadd64, (2, 2, false), fun x y _ => BitVec.ofNat 64 (x.toNat + y.toNat)),
   (.isub64, (2, 2, false), fun x y _ => BitVec.ofInt 64 ((x.toNat : Int) - y.toNat)),
   (.imadwN, (1, 1, true), fun x y d => BitVec.ofNat 64 (d.toNat + x.toNat * y.toNat)),
   (.imadwS, (1, 1, true), fun x y d => BitVec.ofInt 64 (d.toNat + (x.truncate 32).toInt * (y.truncate 32).toInt)),
   (.lea64, (2, 1, false), fun x y _ => BitVec.ofInt 64 (x.toNat + (y.truncate 32).toInt))]

/-- A source of one or two registers as 64 bits, a single register zero-extended. -/
def srcN (x : Iss) (n : Nat) (o : Operand) (p : Nat × Nat) : Dword := if n = 1 then (val32 x o p).zeroExtend 64 else val64 x o p

/-- The comparisons of ISETP (R222). -/
def icmp (cc : ICmp) (x y : Word) : Bool :=
  match cc with
  | .eq => decide (x = y)
  | .ne => decide (x ≠ y)
  | .ltS => decide (x.toInt < y.toInt)
  | .leS => decide (x.toInt ≤ y.toInt)
  | .ltN => decide (x.toNat < y.toNat)
  | .leN => decide (x.toNat ≤ y.toNat)

/-- The combinations of PSETP (R223). -/
def psetForms : List ((Fin 7 → Fin 8 → Fin 8 → Guard → Instr) × (Bool → Bool → Bool)) :=
  [(.psetpAnd, fun a b => a && b), (.psetpOr, fun a b => a || b), (.psetpXor, fun a b => xor a b),
   (.psetpAndn, fun a b => a && !b)]

/-- A predicate source in a thread; p7 reads true (R75, R223). -/
def predOf (x : Iss) (i : Fin 8) (p : Nat × Nat) : Bool :=
  if i = 7 then true else laneGet (Map.get (x.crew.sheaf p.2).p i (lanesOf false)) p.1 false

/-- The comparisons of FSETP on values (10_isa_float.md R244). -/
def fsetForms : List ((SMod → Fin 7 → Operand → Operand → Guard → Instr) × (FV → FV → Bool)) :=
  [(.fsetpEq, eqFV), (.fsetpNe, fun x y => x.isNaN || y.isNaN || !eqFV x y), (.fsetpLt, ltFV),
   (.fsetpLe, fun x y => ltFV x y || eqFV x y), (.fsetpNan, fun x y => x.isNaN || y.isNaN)]

/-! ## Floating point -/

/-- A word as an f32 value. -/
def f32 (x : Word) : FV := unpack fmtF32 x.toNat

/-- abs and neg of A, and of B, by SMOD (R240). -/
def smA (m : SMod) (v : FV) : FV := modFV m.absA m.negA v
/-- abs and neg of B by SMOD. -/
def smB (m : SMod) (v : FV) : FV := modFV m.absB m.negB v

/-- The f32 forms that round: the inputs read as floats, and the exact value, none where it is undefined, for a mode, A's
and B's values after SMOD, B's bits, and D's value before (10_isa_float.md R242). The flag says whether B is read as a float
and D at all. -/
def roundForms : List ((SMod → Option RMode → Operand → Operand → Operand → Guard → Instr) × Bool × Bool ×
    (RMode → FV → FV → Word → FV → Option FV)) :=
  [(.fadd, true, false, fun m x y _ _ => addFV m x y),
   (.fsub, true, false, fun m x y _ _ => addFV m x y.flip),
   (.fmul, true, false, fun _ x y _ _ => mulFV x y),
   (.ffma, true, true, fun m x y _ c => (mulFV x y).bind fun p => addFV m p c),
   (.fldexp, false, false, fun _ x _ n _ => some (scaleFV x n.toInt)),
   (.fldxa, false, true, fun m x _ n c => addFV m c (scaleFV x n.toInt))]

/-- R242's result of an exact value: a NaN input or an undefined value gives the canonical NaN, the latter with invalid;
else the value rounded once; then sat. -/
def rounded (f : FFmt) (m : RMode) (sat : Bool) (ins : List FV) (v : Option FV) : Nat × Nat :=
  satR sat f (if ins.any FV.isNaN then (fNaN f, 0) else match v with
    | none => (fNaN f, flNV)
    | some v => rndFV f m v)

/-- The mode of an instruction: the RND prefix's, else the lane's %rmode (04_numbers.md R95). -/
def modeAt (x : Iss) (r : Option RMode) (p : Nat × Nat) : RMode := r.getD (x.crew.thread p).rmode

/-- Element e of a packed word (04_numbers.md R90). -/
def half (x : Word) (e : Nat) : Nat := nField x 16 (16 * e)

/-- The packed forms that round: element format, whether D is read, the exact value (R246). -/
def packForms : List ((SMod → Option RMode → Operand → Operand → Operand → Guard → Instr) × FFmt × Bool ×
    (RMode → FV → FV → FV → Option FV)) :=
  [(.faddH2, fmtF16, false, fun m x y _ => addFV m x y), (.fmulH2, fmtF16, false, fun _ x y _ => mulFV x y),
   (.ffmaH2, fmtF16, true, fun m x y c => (mulFV x y).bind fun p => addFV m p c),
   (.faddB2, fmtB16, false, fun m x y _ => addFV m x y), (.fmulB2, fmtB16, false, fun _ x y _ => mulFV x y),
   (.ffmaB2, fmtB16, true, fun m x y c => (mulFV x y).bind fun p => addFV m p c)]

/-- The larger or smaller of two values, −0 below +0, the other operand of a NaN (R243). -/
def extreme (big : Bool) (x y : FV) : FV :=
  if x.isNaN then y else if y.isNaN then x
  else if big then (if beforeFV x y then y else x) else (if beforeFV y x then y else x)

/-- A dot product of two elements added to D (R247). -/
def dotForms : List ((SMod → Option RMode → Operand → Operand → Operand → Guard → Instr) × FFmt) :=
  [(.fdp2H2, fmtF16), (.fdp2B2, fmtB16)]

/-- A row of Table 4.9: the result and flags for −∞, a negative finite value, −0, +0 and +∞, and the canonical NaN for a NaN; none
where the table names the function of the value. -/
def tableRow (ninf : Nat × Nat) (neg : Option (Nat × Nat)) (nz pz pinf : Nat × Nat) : FV → Option (Nat × Nat)
  | .nan => some (0x7FC00000, 0)
  | .inf true => some ninf
  | .inf false => some pinf
  | .fin true 0 _ => some nz
  | .fin false 0 _ => some pz
  | .fin true _ _ => neg
  | .fin false _ _ => none

/-- The special functions of one source, each with its row of Table 4.9 (04_numbers.md R107, R248). -/
def specialForms : List ((SMod → Operand → Operand → Guard → Instr) × (Word → Nat × Nat) × (FV → Option (Nat × Nat))) :=
  [(.frcp, fRcp, tableRow (0x80000000, 0) none (0xFF800000, flDZ) (0x7F800000, flDZ) (0, 0)),
   (.frsq, fRsq, tableRow (0x7FC00000, flNV) (some (0x7FC00000, flNV)) (0xFF800000, flDZ) (0x7F800000, flDZ) (0, 0)),
   (.fsqrt, fSqrt, tableRow (0x7FC00000, flNV) (some (0x7FC00000, flNV)) (0x80000000, 0) (0, 0) (0x7F800000, 0)),
   (.fex2, fEx2, tableRow (0, 0) none (0x3F800000, 0) (0x3F800000, 0) (0x7F800000, 0)),
   (.flg2, fLg2, tableRow (0x7FC00000, flNV) (some (0x7FC00000, flNV)) (0xFF800000, flDZ) (0xFF800000, flDZ) (0x7F800000, 0)),
   (.fsin, fTrig true, tableRow (0x7FC00000, flNV) none (0x80000000, 0) (0, 0) (0x7FC00000, flNV)),
   (.fcos, fTrig false, tableRow (0x7FC00000, flNV) none (0x3F800000, 0) (0x3F800000, 0) (0x7FC00000, flNV)),
   (.ftanh, fTanh, tableRow (0xBF800000, 0) none (0x80000000, 0) (0, 0) (0x3F800000, 0))]

/-- The conversions of one source that round: the default mode and the result (R249, R250). -/
def cvtForms : List ((Option RMode → Operand → Operand → Guard → Instr) × RMode × (RMode → Word → Word × Nat)) :=
  [(.cvtF32I32, .rne, fun m x => (BitVec.ofNat 32 (rndFV fmtF32 m (ofInt x.toInt)).1, (rndFV fmtF32 m (ofInt x.toInt)).2)),
   (.cvtF32N32, .rne, fun m x => (BitVec.ofNat 32 (rndFV fmtF32 m (ofInt x.toNat)).1, (rndFV fmtF32 m (ofInt x.toNat)).2)),
   (.cvtI32F32, .rtz, fun m x => (BitVec.ofInt 32 (toRange m (-2147483648) 2147483647 (f32 x)).1,
      (toRange m (-2147483648) 2147483647 (f32 x)).2)),
   (.cvtN32F32, .rtz, fun m x => (BitVec.ofInt 32 (toRange m 0 4294967295 (f32 x)).1, (toRange m 0 4294967295 (f32 x)).2))]

/-- The narrowings of two sources into two fields (R249). -/
def narrowForms : List ((Option RMode → Operand → Operand → Operand → Guard → Instr) × FFmt × Nat) :=
  [(.cvtH2F32, fmtF16, 16), (.cvtB2F32, fmtB16, 16), (.cvtE4X2F32, fmtE4, 8), (.cvtE5X2F32, fmtE5, 8)]

/-- The widenings of a half (R249): format and element. -/
def widenForms : List ((Operand → Operand → Guard → Instr) × FFmt × Nat) :=
  [(.cvtF32HL, fmtF16, 0), (.cvtF32HH, fmtF16, 1), (.cvtF32BL, fmtB16, 0), (.cvtF32BH, fmtB16, 1)]

/-- The widenings of a byte (R249). -/
def byteForms : List ((Operand → Operand → Operand → Guard → Instr) × FFmt) := [(.cvtF32E4, fmtE4), (.cvtF32E5, fmtE5)]

/-! ## Lanes -/

/-- The lane SHFL reads for lane l and index b, where it is a lane position (09_isa_integer.md R230). -/
def shflFrom (m : ShflMode) (l b : Nat) : Option Nat :=
  match m with
  | .idx => if b ≤ 31 then some b else none
  | .up => if b ≤ l then some (l - b) else none
  | .down => if l + b ≤ 31 then some (l + b) else none
  | .xor => if l ^^^ b ≤ 31 then some (l ^^^ b) else none

/-- The value A has for a SHFL in thread p: the source lane's where it is active, else the lane's own. -/
def shflVal (x : Iss) (m : ShflMode) (a b : Operand) (p : Nat × Nat) : Word :=
  match shflFrom m p.1 (val32 x b p).toNat with
  | none => val32 x a p
  | some l =>
    match x.active.find? fun q => q.1 == l with
    | some q => val32 x a q
    | none => val32 x a p

/-- The values of A over the active lanes. -/
def laneVals (x : Iss) (a : Operand) : List Word := x.active.map fun p => val32 x a p

/-- What an integer reduction of a nonempty list of lane values is (R232). -/
def reduceForms : List ((Operand → Operand → Guard → Instr) × (List Word → Word → Prop)) :=
  [(.redaddS, fun vs r => r = sat32 (vs.map fun v => v.toInt).sum),
   (.redminS, fun vs r => r ∈ vs ∧ ∀ v ∈ vs, r.toInt ≤ v.toInt),
   (.redminN, fun vs r => r ∈ vs ∧ ∀ v ∈ vs, r.toNat ≤ v.toNat),
   (.redmaxS, fun vs r => r ∈ vs ∧ ∀ v ∈ vs, v.toInt ≤ r.toInt),
   (.redmaxN, fun vs r => r ∈ vs ∧ ∀ v ∈ vs, v.toNat ≤ r.toNat)]

/-- Whether a pair beats or equals another for REDMINI.N: smaller value, then smaller index (R233). -/
def pairLe (p q : Word × Word) : Prop := p.1.toNat < q.1.toNat ∨ p.1 = q.1 ∧ p.2.toNat ≤ q.2.toNat
/-- Whether a pair beats or equals another for REDMAXI.N: larger value, then smaller index. -/
def pairGe (p q : Word × Word) : Prop := q.1.toNat < p.1.toNat ∨ p.1 = q.1 ∧ p.2.toNat ≤ q.2.toNat

/-- The reductions with an index: the starting pair, and the order in which the result is first of it and the lanes' pairs. -/
def indexForms : List ((Operand → Operand → Operand → Guard → Instr) × (Word × Word) × ((Word × Word) → (Word × Word) → Prop)) :=
  [(.redminiN, (0xFFFFFFFF, 0xFFFFFFFF), pairLe), (.redmaxiN, (0, 0xFFFFFFFF), pairGe)]

end Sys2Proof.Claims

open Sys2Proof Sys2Proof.Machine Sys2Proof.Claims

/-! ## The V class (09_isa_integer.md, 10_isa_float.md): results and frames -/

/-- R215, R217: each form of two 32-bit sources writes its result to D in each active lane, and nothing else changes. -/
def Sys2Proof.Claims.TwoSourceResults : Prop :=
  ∀ r ∈ twoSource, ∀ (s : State) (x : Iss) (d a b : Operand) (g : Guard), Issues s g x → Operable x [(a, 1), (b, 1)] d 1 →
    ∃ t y, VecRan (r.1 d a b g) s x d 1 (fun p => ([r.2 (val32 x a p) (val32 x b p)], 0)) t y

/-- R215, R218: each accumulating form and funnel shift writes its result from A, B and D's value before. -/
def Sys2Proof.Claims.AccumulatingResults : Prop :=
  ∀ r ∈ accumulating, ∀ (s : State) (x : Iss) (d a b : Operand) (g : Guard), Issues s g x →
    Operable x [(a, 1), (b, 1), (d, 1)] d 1 →
    ∃ t y, VecRan (r.1 d a b g) s x d 1 (fun p => ([r.2 (val32 x a p) (val32 x b p) (val32 x d p)], 0)) t y

/-- R215, R217, R220, R224: the forms of one source. -/
def Sys2Proof.Claims.OneSourceResults : Prop :=
  ∀ r ∈ oneSource, ∃ f : Word → Word, (∀ v, r.2 v (f v)) ∧
    ∀ (s : State) (x : Iss) (d a : Operand) (g : Guard), Issues s g x → Operable x [(a, 1)] d 1 →
      ∃ t y, VecRan (r.1 d a g) s x d 1 (fun p => ([f (val32 x a p)], 0)) t y

/-- R219, R221: the bit-field forms and PRMT, bit by bit and byte by byte. -/
def Sys2Proof.Claims.FieldResults : Prop :=
  ∀ r ∈ fieldForms, ∃ f : Word → Word → Word → Word, (∀ u v w, r.2.2 u v w (f u v w)) ∧
    ∀ (s : State) (x : Iss) (d a b : Operand) (g : Guard), Issues s g x →
      Operable x ([(a, 1), (b, 1)] ++ if r.2.1 then [(d, 1)] else []) d 1 →
      ∃ t y, VecRan (r.1 d a b g) s x d 1 (fun p => ([f (val32 x a p) (val32 x b p) (val32 x d p)], 0)) t y

/-- R213, R216: the 64-bit forms write both registers of the pair, the low word in the first. -/
def Sys2Proof.Claims.WideResults : Prop :=
  ∀ r ∈ wideForms, ∀ (s : State) (x : Iss) (d a b : Operand) (g : Guard), Issues s g x →
    Operable x ([(a, r.2.1.1), (b, r.2.1.2.1)] ++ if r.2.1.2.2 then [(d, 2)] else []) d 2 →
    ∃ t y, VecRan (r.1 d a b g) s x d 2
      (fun p =>
        let v := r.2.2 (srcN x r.2.1.1 a p) (srcN x r.2.1.2.1 b p) (val64 x d p)
        ([v.truncate 32, (v >>> 32).truncate 32], 0)) t y

/-- R75, R222, R223, R231, R244: each form with a predicate destination writes its truth in each active lane; nothing else
changes, no sticky flag among it. -/
def Sys2Proof.Claims.ComparisonsAndVotes : Prop :=
  (∀ (s : State) (x : Iss) (cc : ICmp) (d : Fin 7) (a b : Operand) (g : Guard), Issues s g x → Operable x [(a, 1), (b, 1)] .z 0 →
    ∃ t y, PredRan (.isetp cc d a b g) s x d (fun p => icmp cc (val32 x a p) (val32 x b p)) t y) ∧
  (∀ r ∈ psetForms, ∀ (s : State) (x : Iss) (d : Fin 7) (a b : Fin 8) (g : Guard), Issues s g x →
    ∃ t y, PredRan (r.1 d a b g) s x d (fun p => r.2 (predOf x a p) (predOf x b p)) t y) ∧
  (∀ r ∈ fsetForms, ∀ (s : State) (x : Iss) (m : SMod) (d : Fin 7) (a b : Operand) (g : Guard), Issues s g x →
    Operable x [(a, 1), (b, 1)] .z 0 →
    ∃ t y, PredRan (r.1 m d a b g) s x d (fun p => r.2 (smA m (f32 (val32 x a p))) (smB m (f32 (val32 x b p)))) t y) ∧
  (∀ (s : State) (x : Iss) (d : Fin 7) (a : Fin 8) (g : Guard), Issues s g x →
    ∃ t y, PredRan (.voteAll d a g) s x d (fun _ => decide (∀ q ∈ x.active, predOf x a q = true)) t y) ∧
  (∀ (s : State) (x : Iss) (d : Fin 7) (a : Fin 8) (g : Guard), Issues s g x →
    ∃ t y, PredRan (.voteAny d a g) s x d (fun _ => decide (∃ q ∈ x.active, predOf x a q = true)) t y)

/-- An origin set after a write (R83): the result set S where all 32 lanes are written, else the join of the old set with S, made in a
table that keeps S's, and kept by the table after. -/
def Sys2Proof.Claims.SetWritten (full : Bool) (old set new : OSet) (tab after : Map OEntry) : Prop :=
  if full then new = set
  else ∃ t1 t2, osJoin t1 old set = .ok (new, t2) ∧ (∀ i e, Map.find? tab i = some e → Map.find? t1 i = some e) ∧
    ∀ i e, Map.find? t2 i = some e → Map.find? after i = some e

/-- R74, R82, R83: a form of two sources computes one result set S of its sources, guard and %octx, and its destination takes it for each home
sheaf with an active lane: a k register and a destination whose 32 lanes are written by replace, another by join; so does the predicate of a
compare or a combination. No other register's, predicate's or slot's set changes. -/
def Sys2Proof.Claims.ResultSetsAreWritten : Prop :=
  (∀ r ∈ twoSource, ∀ (s : State) (x : Iss) (d a b : Operand) (g : Guard), Issues s g x → Operable x [(a, 1), (b, 1)] d 1 →
    ∃ set tab t y, osJoinAll s.osets 0 (resultSets x x.active [(a, 1), (b, 1)] [] false g) = .ok (set, tab) ∧
      Ran (r.1 d a b g) s t x y ∧
      (∀ h i, (∀ k, d = .k k → i = k.val → h ∉ homesOf x.active) → Map.get (y.crew.sheaf h).kS i 0 = Map.get (x.crew.sheaf h).kS i 0) ∧
      (∀ h i, (y.crew.sheaf h).predSet i = (x.crew.sheaf h).predSet i) ∧
      (∀ k, d = .k k → ∀ h ∈ homesOf x.active, Map.get (y.crew.sheaf h).kS k 0 = set) ∧
      (∀ n, d = .v n → (∀ p ∈ x.active, xregSlot x.grp p.1 n = none) →
        (∀ h ∈ homesOf x.active, SetWritten (allLanes x.active h) ((x.crew.sheaf h).mainSet n) set ((y.crew.sheaf h).mainSet n) tab t.osets) ∧
        ∀ h i, i ≠ n.val ∨ h ∉ homesOf x.active → (y.crew.sheaf h).mainSet i = (x.crew.sheaf h).mainSet i) ∧
      (∀ n rg, d = .w n → x.grp.regions = [rg] →
        (∀ p ∈ x.active, SetWritten (allLanes x.active p.2) (slotSetAt x.crew x.grp p.1 n p.2) set (slotSetAt y.crew y.grp p.1 n p.2) tab
          t.osets) ∧
        (∀ l i h, i ≠ n.val ∨ h ∉ homesOf x.active → slotSetAt y.crew y.grp l i h = slotSetAt x.crew x.grp l i h) ∧
        ∀ h i, (y.crew.sheaf h).mainSet i = (x.crew.sheaf h).mainSet i)) ∧
  (∀ r ∈ psetForms, ∀ (s : State) (x : Iss) (d : Fin 7) (a b : Fin 8) (g : Guard), Issues s g x →
    ∃ set tab t y, osJoinAll s.osets 0 (resultSets x x.active [] [a.val, b.val] false g) = .ok (set, tab) ∧ Ran (r.1 d a b g) s t x y ∧
      (∀ h ∈ homesOf x.active, SetWritten (allLanes x.active h) ((x.crew.sheaf h).predSet d) set ((y.crew.sheaf h).predSet d) tab t.osets) ∧
      ∀ h i, i ≠ d.val ∨ h ∉ homesOf x.active → (y.crew.sheaf h).predSet i = (x.crew.sheaf h).predSet i)

/-- R225, R226: SEL writes A where its guard is true and B where it is false, in every present thread; PRDW writes p0 to p6 of
the lane as bits 0 to 6 of a word whose other bits are 0. -/
def Sys2Proof.Claims.SelectAndPredicateWord : Prop :=
  (∀ (s : State) (x : Iss) (d a b : Operand) (g : Guard), Issues s gAlways x → Operable x [(a, 1), (b, 1)] d 1 →
    x.active = x.present ∧
    ∃ t y, VecRan (.sel d a b g) s x d 1
      (fun p => ([if predOf x g.pred p != g.neg then val32 x a p else val32 x b p], 0)) t y) ∧
  (∀ (s : State) (x : Iss) (d : Operand) (g : Guard), Issues s g x → Operable x [] d 1 → ∃ f : Nat × Nat → Word,
    (∀ p i, (f p).getLsbD i = (decide (i < 7) && laneGet (Map.get (x.crew.sheaf p.2).p i (lanesOf false)) p.1 false)) ∧
    ∃ t y, VecRan (.prdw d g) s x d 1 (fun p => ([f p], 0)) t y)

/-- R226: PWRW writes bit i of A to pi, for i = 0 to 6, in each active lane, and nothing else. -/
def Sys2Proof.Claims.PredicateWordWrite : Prop :=
  ∀ (s : State) (x : Iss) (a : Operand) (g : Guard), Issues s g x → Operable x [(a, 1)] .z 0 →
    ∃ t y, Ran (.pwrw a g) s t x y ∧
      (∀ p ∈ x.active, ∀ i, i < 7 → (y.crew.sheaf p.2).pred i p.1 = (val32 x a p).getLsbD i) ∧
      (∀ c, (∀ p ∈ x.active, ∀ i, i < 7 → c ≠ .pred p.2 i p.1) → y.cell c = x.cell c) ∧
      ∀ p, (y.crew.thread p).fpx = (x.crew.thread p).fpx

/-- R227, R228: W2K copies A of one active lane, named by B in the lowest active lane's home sheaf, into K(D) of every home
sheaf with an active lane, and writes nothing where that lane is not active; OSQ writes the index of the named register's or
predicate's origin set for each home sheaf with an active lane. -/
def Obligations.UniformResults : Prop :=
  (∀ (s : State) (x : Iss) (d : Fin 30) (a b : Operand) (g : Guard) (l : Nat × Nat), Issues s g x →
    Operable x [(a, 1), (b, 1)] .z 0 → x.active.head? = some l →
    ∃ t y, Ran (.w2k d a b g) s t x y ∧ (∀ p, (y.crew.thread p).fpx = (x.crew.thread p).fpx) ∧
      (∀ q ∈ x.active, q.1 = (val32 x b l).toNat →
        (∀ p ∈ x.active, y.cell (.k p.2 d) = some (val32 x a q)) ∧
        ∀ c, (∀ p ∈ x.active, c ≠ .k p.2 d) → y.cell c = x.cell c) ∧
      ((∀ q ∈ x.active, q.1 ≠ (val32 x b l).toNat) → ∀ c, y.cell c = x.cell c)) ∧
  (∀ (s : State) (x : Iss) (d : Fin 30) (a : Operand) (g : Guard), Issues s g x → Operable x [(a, 1)] .z 0 →
    ∃ t y, Ran (.osq d (.inl a) g) s t x y ∧ (∀ p, (y.crew.thread p).fpx = (x.crew.thread p).fpx) ∧
      (∀ p ∈ x.active, ∃ q ∈ x.active, q.2 = p.2 ∧ y.cell (.k p.2 d) = some (BitVec.ofNat 32 (regSet x a 0 q))) ∧
      ∀ c, (∀ p ∈ x.active, c ≠ .k p.2 d) → y.cell c = x.cell c) ∧
  (∀ (s : State) (x : Iss) (d : Fin 30) (a : Fin 8) (g : Guard), Issues s g x →
    ∃ t y, Ran (.osq d (.inr a) g) s t x y ∧ (∀ p, (y.crew.thread p).fpx = (x.crew.thread p).fpx) ∧
      (∀ p ∈ x.active, y.cell (.k p.2 d) = some (BitVec.ofNat 32 ((x.crew.sheaf p.2).predSet a))) ∧
      ∀ c, (∀ p ∈ x.active, c ≠ .k p.2 d) → y.cell c = x.cell c)

/-- R229 to R233: the cross-lane forms read the active lanes of the sheaf as issued. -/
def Sys2Proof.Claims.CrossLaneResults : Prop :=
  (∀ (s : State) (x : Iss) (m : ShflMode) (d a b : Operand) (g : Guard), Issues s g x → Operable x [(a, 1), (b, 1)] d 1 →
    ∃ t y, VecRan (.shfl m d a b g) s x d 1 (fun p => ([shflVal x m a b p], 0)) t y) ∧
  (∀ (s : State) (x : Iss) (d : Operand) (a : Fin 8) (g : Guard), Issues s g x → Operable x [] d 1 → ∃ w : Word,
    (∀ l, w.getLsbD l = x.active.any fun q => q.1 == l && predOf x a q) ∧
    ∃ t y, VecRan (.voteBal d a g) s x d 1 (fun _ => ([w], 0)) t y) ∧
  (∀ r ∈ reduceForms, ∀ (s : State) (x : Iss) (d a : Operand) (g : Guard), Issues s g x → Operable x [(a, 1)] d 1 → ∃ w : Word,
    (x.active ≠ [] → r.2 (laneVals x a) w) ∧ ∃ t y, VecRan (r.1 d a g) s x d 1 (fun _ => ([w], 0)) t y) ∧
  (∀ r ∈ indexForms, ∀ (s : State) (x : Iss) (d a b : Operand) (g : Guard), Issues s g x → Operable x [(a, 1), (b, 1)] d 2 →
    ∃ v i : Word, ((v, i) = r.2.1 ∨ ∃ p ∈ x.active, (v, i) = (val32 x a p, val32 x b p)) ∧
      (r.2.2 (v, i) r.2.1 ∧ ∀ p ∈ x.active, r.2.2 (v, i) (val32 x a p, val32 x b p)) ∧
      ∃ t y, VecRan (r.1 d a b g) s x d 2 (fun _ => ([v, i], 0)) t y)

/-- The value of a lane position in a reduction: A where a thread is active there, else the neutral value. -/
def Sys2Proof.Claims.positionVal (x : Iss) (a : Operand) (neutral : Nat) (l : Nat) : Nat :=
  match x.active.find? fun p => p.1 == l with
  | some p => (val32 x a p).toNat
  | none => neutral

/-- The pairwise tree of R108 over 2^k positions from position 2^k × i on: bits and the flags of its additions. -/
def Sys2Proof.Claims.sumTree (v : Nat → Nat) (k i : Nat) : Nat × Nat :=
  match k with
  | 0 => (v i, 0)
  | k + 1 =>
    let p := Sys2Proof.Claims.sumTree v k (2 * i)
    let q := Sys2Proof.Claims.sumTree v k (2 * i + 1)
    let r := fAdd fmtF32 .rne (unpack fmtF32 p.1) (unpack fmtF32 q.1)
    (r.1, r.2 ||| p.2 ||| q.2)

/-- R108, R254: REDADD.F32 sums the lane positions by the fixed tree under RNE, −0 in inactive ones, and sets the flags of its
31 additions; REDMIN.F32 and REDMAX.F32 take the extreme of the positions, the infinity in inactive ones, and set none. -/
def Sys2Proof.Claims.FloatReductions : Prop :=
  ∀ (s : State) (x : Iss) (d a : Operand) (g : Guard), Issues s g x → Operable x [(a, 1)] d 1 →
    (∃ t y, VecRan (.redaddF32 d a g) s x d 1
      (fun _ =>
        let r := sumTree (positionVal x a 0x80000000) 5 0
        ([BitVec.ofNat 32 r.1], r.2)) t y) ∧
    (∃ t y, VecRan (.redminF32 d a g) s x d 1
      (fun _ => ([BitVec.ofNat 32 (extremeF false ((List.range 32).map (positionVal x a 0x7F800000))).1], 0)) t y) ∧
    ∃ t y, VecRan (.redmaxF32 d a g) s x d 1
      (fun _ => ([BitVec.ofNat 32 (extremeF true ((List.range 32).map (positionVal x a 0xFF800000))).1], 0)) t y

/-! ## Floating point -/

/-- R240 to R243, R245: the f32 forms round their exact value once by the RND prefix's mode or the lane's %rmode, after SMOD,
and set the flags of the rounding; FMIN and FMAX are exact and set none; FRND rounds to an integral value. -/
def Obligations.FloatResults : Prop :=
  (∀ r ∈ roundForms, ∀ (s : State) (x : Iss) (m : SMod) (rm : Option RMode) (d a b : Operand) (g : Guard), Issues s g x →
    Operable x ([(a, 1), (b, 1)] ++ if r.2.2.1 then [(d, 1)] else []) d 1 →
    ∃ t y, VecRan (r.1 m rm d a b g) s x d 1
      (fun p =>
        let u := smA m (f32 (val32 x a p))
        let v := smB m (f32 (val32 x b p))
        let c := f32 (val32 x d p)
        let z := rounded fmtF32 (modeAt x rm p) m.sat ([u] ++ (if r.2.1 then [v] else []) ++ if r.2.2.1 then [c] else [])
          (r.2.2.2 (modeAt x rm p) u v (val32 x b p) c)
        ([BitVec.ofNat 32 z.1], z.2)) t y) ∧
  (∀ (s : State) (x : Iss) (m : SMod) (d a b : Operand) (g : Guard) (big : Bool), Issues s g x → Operable x [(a, 1), (b, 1)] d 1 →
    ∃ t y, VecRan (if big then .fmax m d a b g else .fmin m d a b g) s x d 1
      (fun p =>
        ([BitVec.ofNat 32 (satR m.sat fmtF32
          (rndFV fmtF32 .rne (extreme big (smA m (f32 (val32 x a p))) (smB m (f32 (val32 x b p)))))).1], 0)) t y) ∧
  (∀ (s : State) (x : Iss) (m : SMod) (rm : Option RMode) (d a : Operand) (g : Guard), Issues s g x → Operable x [(a, 1)] d 1 →
    ∃ t y, VecRan (.frnd m rm d a g) s x d 1
      (fun p =>
        let z := satR m.sat fmtF32 (fRnd (modeAt x rm p) (smA m (f32 (val32 x a p))))
        ([BitVec.ofNat 32 z.1], z.2)) t y)

/-- R246, R247: a packed form computes each half of its result from the same half of its sources, with the flags of both;
FDP2 rounds the exact c + x0·y0 + x1·y1 once to f32. -/
def Obligations.PackedResults : Prop :=
  (∀ r ∈ packForms, ∀ (s : State) (x : Iss) (m : SMod) (rm : Option RMode) (d a b : Operand) (g : Guard), Issues s g x →
    Operable x ([(a, 1), (b, 1)] ++ if r.2.2.1 then [(d, 1)] else []) d 1 →
    ∃ t y, VecRan (r.1 m rm d a b g) s x d 1
      (fun p =>
        let f := r.2.1
        let el := fun e =>
          let u := smA m (unpack f (half (val32 x a p) e))
          let v := smB m (unpack f (half (val32 x b p) e))
          let c := unpack f (half (val32 x d p) e)
          rounded f (modeAt x rm p) m.sat ([u, v] ++ if r.2.2.1 then [c] else []) (r.2.2.2 (modeAt x rm p) u v c)
        ([BitVec.ofNat 32 ((el 0).1 + 65536 * (el 1).1)], (el 0).2 ||| (el 1).2)) t y) ∧
  (∀ (s : State) (x : Iss) (m : SMod) (d a b : Operand) (g : Guard) (big : Bool), Issues s g x → Operable x [(a, 1), (b, 1)] d 1 →
    ∃ t y, VecRan (if big then .fmaxH2 m d a b g else .fminH2 m d a b g) s x d 1
      (fun p =>
        let el := fun e => (satR m.sat fmtF16 (rndFV fmtF16 .rne (extreme big (smA m (unpack fmtF16 (half (val32 x a p) e)))
          (smB m (unpack fmtF16 (half (val32 x b p) e)))))).1
        ([BitVec.ofNat 32 (el 0 + 65536 * el 1)], 0)) t y) ∧
  (∀ r ∈ dotForms, ∀ (s : State) (x : Iss) (m : SMod) (rm : Option RMode) (d a b : Operand) (g : Guard), Issues s g x →
    Operable x [(a, 1), (b, 1), (d, 1)] d 1 →
    ∃ t y, VecRan (r.1 m rm d a b g) s x d 1
      (fun p =>
        let u := fun e => smA m (unpack r.2 (half (val32 x a p) e))
        let v := fun e => smB m (unpack r.2 (half (val32 x b p) e))
        let c := f32 (val32 x d p)
        let k := modeAt x rm p
        let z := rounded fmtF32 k m.sat [c, u 0, v 0, u 1, v 1]
          ((mulFV (u 0) (v 0)).bind fun q0 => (mulFV (u 1) (v 1)).bind fun q1 => (addFV k c q0).bind fun w => addFV k w q1)
        ([BitVec.ofNat 32 z.1], z.2)) t y)

/-- R107, R240, R248: each special function completes and writes one value that depends on A after SMOD's bits alone, whatever the
modes of the lane, and sets its flags: where Table 4.9 names a special value, that value with its flags; the square root of a positive value rounded
once by RNE, with the flags of the rounding: what is rounded is the root's floor r in steps of 2^k, with a sticky bit. -/
def Obligations.SpecialFunctionResults : Prop :=
  (∀ r ∈ specialForms, ∀ (s : State) (x : Iss) (m : SMod) (d a : Operand) (g : Guard), Issues s g x → Operable x [(a, 1)] d 1 →
    ∃ t y, VecRan (r.1 m d a g) s x d 1
      (fun p =>
        let z := satR m.sat fmtF32 (r.2.1 (modWord m (val32 x a p)))
        ([BitVec.ofNat 32 z.1], z.2)) t y) ∧
  (∀ r ∈ specialForms, ∀ (w : Word) (v : Nat × Nat), r.2.2 (f32 w) = some v → r.2.1 w = v) ∧
  ∀ (w : Word) (n : Nat) (e : Int), f32 w = .fin false n e → n ≠ 0 → ∃ (r j : Nat) (k : Int), 2 ^ 25 ≤ r ∧ 2 * k = e - j ∧
    r * r ≤ n * 2 ^ j ∧ n * 2 ^ j < (r + 1) * (r + 1) ∧
    fSqrt w = rndFV fmtF32 .rne (.fin false (2 * r + if r * r = n * 2 ^ j then 0 else 1) (k - 1))

/-- A special function meets a bound of k ulp (R107): over a range of finite inputs other than zero, a finite result lies within k units
in the last place of the exact value. The unit is the spacing of f32 in the binade of the exact value, that above it where the value lies
within 2^−40 of it in its own size (the model's choice, assumption 5). -/
def Sys2Proof.Claims.BoundMet (fn : Word → Nat × Nat) (want : ℝ → ℝ) (k : Nat) (lim : Option Nat) : Prop :=
  ∀ (x : Word) (s t : Bool) (n m : Nat) (e d : Int), f32 x = .fin s n e → n ≠ 0 → unpack fmtF32 (fn x).1 = .fin t m d →
    let v : ℝ := (if s then -1 else 1) * n * (2 : ℝ) ^ e
    (∀ l, lim = some l → |v| ≤ l) →
    |(if t then -1 else 1) * m * (2 : ℝ) ^ d - want v| ≤
      k * (2 : ℝ) ^ (max (Int.log 2 (|want v| * (1 + (2 : ℝ) ^ (-40 : Int)))) (-126) - 23)

/-- R107, R248: the special functions whose bits the spec leaves open meet the bounds of Table 4.9, whatever the implementation's bits are:
FRCP and FRSQ 1 ulp, FEX2, FLG2, FTANH, and FSIN and FCOS up to 2^16, 2 ulp. -/
def Obligations.SpecialFunctionBounds : Prop :=
  BoundMet fRcp (fun v => v⁻¹) 1 none ∧ BoundMet fRsq (fun v => (Real.sqrt v)⁻¹) 1 none ∧
  BoundMet fEx2 (fun v => (2 : ℝ) ^ v) 2 none ∧ BoundMet fLg2 (Real.logb 2) 2 none ∧
  BoundMet (fTrig true) Real.sin 2 (some 65536) ∧ BoundMet (fTrig false) Real.cos 2 (some 65536) ∧ BoundMet fTanh Real.tanh 2 none

/-- R249, R250, R252: the conversions, narrowings, widenings, and DQB. -/
def Sys2Proof.Claims.ConversionResults : Prop :=
  (∀ r ∈ cvtForms, ∀ (s : State) (x : Iss) (rm : Option RMode) (d a : Operand) (g : Guard), Issues s g x →
    Operable x [(a, 1)] d 1 →
    ∃ t y, VecRan (r.1 rm d a g) s x d 1
      (fun p => ([(r.2.2 (rm.getD r.2.1) (val32 x a p)).1], (r.2.2 (rm.getD r.2.1) (val32 x a p)).2)) t y) ∧
  (∀ r ∈ narrowForms, ∀ (s : State) (x : Iss) (rm : Option RMode) (d a b : Operand) (g : Guard), Issues s g x →
    Operable x [(a, 1), (b, 1)] d 1 →
    ∃ t y, VecRan (r.1 rm d a b g) s x d 1
      (fun p =>
        let u := rndFV r.2.1 (rm.getD .rne) (f32 (val32 x a p))
        let v := rndFV r.2.1 (rm.getD .rne) (f32 (val32 x b p))
        ([BitVec.ofNat 32 (u.1 + 2 ^ r.2.2 * v.1)], u.2 ||| v.2)) t y) ∧
  (∀ r ∈ widenForms, ∀ (s : State) (x : Iss) (d a : Operand) (g : Guard), Issues s g x → Operable x [(a, 1)] d 1 →
    ∃ t y, VecRan (r.1 d a g) s x d 1
      (fun p => ([BitVec.ofNat 32 (rndFV fmtF32 .rne (unpack r.2.1 (half (val32 x a p) r.2.2))).1], 0)) t y) ∧
  (∀ r ∈ byteForms, ∀ (s : State) (x : Iss) (d a b : Operand) (g : Guard), Issues s g x → Operable x [(a, 1), (b, 1)] d 1 →
    ∃ t y, VecRan (r.1 d a b g) s x d 1
      (fun p =>
        let k := (val32 x b p).toNat % 4
        ([BitVec.ofNat 32 (rndFV fmtF32 .rne (unpack r.2 (nField (val32 x a p) 8 (8 * k)))).1], 0)) t y) ∧
  (∀ (s : State) (x : Iss) (d a b : Operand) (g : Guard), Issues s g x → Operable x [(a, 1), (b, 1)] d 1 →
    ∃ t y, VecRan (.dqb d a b g) s x d 1
      (fun p =>
        let xe := nField (val32 x b p) 8 0
        let c := nField (val32 x b p) 3 8
        let m := sField (val32 x a p) (c + 2) 0
        if c = 7 then ([0x7FC00000], 16)
        else if xe = 255 then ([0x7FC00000], 0)
        else
          let z := rndFV fmtF32 .rne (.fin (decide (m < 0)) m.natAbs ((xe : Int) - 127 - c))
          ([BitVec.ofNat 32 z.1], z.2)) t y)

/-- R251: CVTB quantises the 32 positions of A, permuted by the window of the lowest active lane, +0 in inactive ones, by the
prefix's mode or that lane's %rmode: each active lane takes its mantissa and the block's flags, and every home sheaf with an
active lane takes the exponent in K(B). -/
def Sys2Proof.Claims.QuantiseResults : Prop :=
  ∀ (s : State) (x : Iss) (c : Fin 7) (rm : Option RMode) (d a : Operand) (b : Fin 30) (g : Guard) (l : Nat × Nat), Issues s g x →
    Operable x [(a, 1)] d 1 → (∀ k, d ≠ .k k) → x.active.head? = some l →
    let th := x.crew.thread l
    let src := (List.range 32).map fun j =>
      unpack fmtF32 (positionVal x a 0 (Map.get x.crew.ptab (32 * th.ptsel.val + j) j))
    let q := quantise (c.val + 2) (rm.getD th.rmode) src
    (∀ v j, j < 32 → Map.get x.crew.ptab (32 * v + j) j < 32) →
    ∃ t y, Ran (.cvtb c rm d a b g) s t x y ∧
      (∀ p ∈ x.active, ∀ cell, regCell x d 0 p = some cell → y.cell cell = some (BitVec.ofInt 32 (q.2.1[p.1]?.getD 0))) ∧
      (∀ p ∈ x.active, y.cell (.k p.2 b) = some (BitVec.ofNat 32 q.1)) ∧
      (∀ cell, (∀ p ∈ x.active, regCell x d 0 p ≠ some cell ∧ cell ≠ .k p.2 b) → y.cell cell = x.cell cell) ∧
      (∀ p ∈ x.active, (y.crew.thread p).fpx = (x.crew.thread p).fpx ||| BitVec.ofNat 5 q.2.2) ∧
      ∀ p, p ∉ x.active → (y.crew.thread p).fpx = (x.crew.thread p).fpx

/-- R253: BPACK packs the low bits of A over the lane positions into words of lanes 0 to w − 1 and 0 elsewhere; BUNPK gives each
lane its sign-extended element of the words of lanes 0 to w − 1. -/
def Sys2Proof.Claims.PackResults : Prop :=
  ∀ (s : State) (x : Iss) (c : Fin 7) (d a : Operand) (g : Guard), Issues s g x → Operable x [(a, 1)] d 1 →
    (∃ f : Nat → Word, (∀ l, c.val + 2 ≤ l → f l = 0) ∧
      (∀ l i, l < c.val + 2 → i < 32 → (f l).getLsbD i =
        (positionVal x a 0 ((32 * l + i) / (c.val + 2))).testBit ((32 * l + i) % (c.val + 2))) ∧
      ∃ t y, VecRan (.bpack c d a g) s x d 1 (fun p => ([f (repOf x d p).1], 0)) t y) ∧
    ∃ f : Nat → Word,
      (∀ l i, l < 32 → i < 32 → (f l).getLsbD i =
        (positionVal x a 0 ((l * (c.val + 2) + min i (c.val + 1)) / 32)).testBit ((l * (c.val + 2) + min i (c.val + 1)) % 32)) ∧
      ∃ t y, VecRan (.bunpk c d a g) s x d 1 (fun p => ([f (repOf x d p).1], 0)) t y

namespace Sys2Proof.Claims

/-! ## Memory instructions -/

/-- What a thread asks of memory: an address, and the bytes it stores. -/
def wants (x : Iss) (addr : Nat × Nat → Nat) (data : Nat × Nat → List Byte) : List Want :=
  x.active.map fun p => { who := p, addr := addr p, data := data p }

/-- The threads and addresses of some accesses, with the bytes they store. -/
def asked (as : List Acc) : List ((Nat × Nat) × Nat × List Byte) := as.map fun a => ((a.lane, a.sheaf), a.addr, a.data)

/-- A load of n bytes from A + B in a space: with its checks passed, a free flag and room for its misses, it counts flag A up and
stands in flight with its destination, its accesses and its result set; no register changes until it is delivered. -/
def LoadFiles (i : Instr) (sp : Space) (n : Nat) (signed : Bool) (c : CacheP) (o : Option Ord) (d : Operand) (dn : Nat)
    (a b : Operand) (g : Guard) : Prop :=
  ∀ (s : State) (x : Iss) (set : OSet) (tab : Map OEntry) (as : List Acc) (s1 : State), Issues s g x → x.active ≠ [] →
    Operable x [(a, 2), (b, 1)] d dn →
    osJoinAll s.osets 0 (resultSets x x.active [(a, 2), (b, 1)] [] false g) = .ok (set, tab) →
    checkAll { s with osets := tab } x sp true n 1 c.pcls.val none (wants x (addrAt x a b) fun _ => []) = .ok (as, s1) →
    JoinsFit s1.osets → (as.any Acc.window = true → windowBusy s1 x = false) →
    FlagFree x.crew (homesOf x.active) (flagA x.cur.hdr) →
    (∃ s2, startMisses (touchHits s1 x.crew.core c as) x.crew.core x.grid.vf x.isH c as = .ok s2) →
    ∃ t y op, Filed i s s1 t x x y (homesOf x.active) (flagA x.cur.hdr) ∧ InFlight s1 t op ∧
      op.kind = .load { d := d, regs := dn, signed := signed, commit := false, maps := destMaps x } ∧ op.crew = x.cur.crew ∧
      op.lanes = x.active ∧ op.homes = homesOf x.active ∧ op.flag = flagA x.cur.hdr ∧
      op.accs.map (fun q => ((q.lane, q.sheaf), q.addr, q.n, q.space)) = x.active.map (fun p => (p, addrAt x a b p, n, sp)) ∧
      op.sem = (o.map fun q => q.sem).getD .rlx ∧ op.scope = (o.map fun q => q.scope).getD .dev ∧
      (as.any Acc.window = false → op.set = set)

/-- A store of the low n bytes of D to A + B in a space: outside restartable regions it enters the core's store order last,
counting flag B up; in a restartable region with room it is held there, and no flag counts yet; as the seventeenth store of one it splits
the region: what is held goes into the store order and dirty slots are written back as at a region's end, and a region with the same map
opens that holds it alone. -/
def StoreQueues (i : Instr) (sp : Space) (n : Nat) (c : CacheP) (o : Option Ord) (d : Operand) (dn : Nat) (a b : Operand)
    (g : Guard) : Prop :=
  ∀ (s : State) (x : Iss) (set : OSet) (tab : Map OEntry) (as : List Acc) (s1 : State), Issues s g x → x.active ≠ [] →
    Operable x [(a, 2), (b, 1), (d, dn)] .z 0 →
    osJoinAll s.osets 0 (resultSets x x.active [(d, dn), (a, 2), (b, 1)] [] false g) = .ok (set, tab) →
    checkAll { s with osets := tab } x sp true n 2 c.pcls.val (some set) (wants x (addrAt x a b) (storeData x d n)) = .ok (as, s1) →
    asked as = x.active.map (fun p => (p, addrAt x a b p, storeData x d n p)) ∧
    ((∀ p ∈ x.active, inRestartable x.grp p.1 = false) → FlagFree x.crew (homesOf x.active) (flagB x.cur.hdr) →
      ∃ t y e, Filed i s s1 t x x y (homesOf x.active) (flagB x.cur.hdr) ∧ t.ops = s1.ops ∧
        (t.core x.crew.core).storeQ = (s1.core x.crew.core).storeQ ++ [e] ∧ e.crew = x.cur.crew ∧ e.accs = as ∧ e.set = set ∧
        e.homes = homesOf x.active ∧ e.flag = flagB x.cur.hdr ∧ e.sem = (o.map fun q => q.sem).getD .rlx ∧
        e.scope = (o.map fun q => q.scope).getD .dev) ∧
    (∀ r, x.grp.regions = [r] → r.map.restartable = true → (∀ p ∈ x.active, p.1 ∈ r.lanes) → r.held.length < 16 →
      ∃ t y e, Filed i s s1 t x x y [] none ∧ t.ops = s1.ops ∧
        (t.core x.crew.core).storeQ = (s1.core x.crew.core).storeQ ∧
        y.grp.regions = [{ r with held := r.held ++ [e] }] ∧ e.accs = as ∧ e.set = set ∧ e.flag = flagB x.cur.hdr) ∧
    (∀ r z s2, x.grp.regions = [r] → r.map.restartable = true → (∀ p ∈ x.active, p.1 ∈ r.lanes) → (∀ l ∈ r.lanes, l ∈ lanesIn x.present) →
      r.held.length = 16 →
      Iss.endRegion { x with crew := stateChange x.crew x.grp.role x.cur.addr } r.lanes s1 = .ok (z, s2) → JoinsFit s2.osets →
      ∃ t y e r', exec i s = .next t ∧ t.context x.cur = some y ∧ t.ops = s2.ops ∧ SameMemory s2 t ∧
        (t.core x.crew.core).storeQ = (s2.core x.crew.core).storeQ ∧ y.grp.regions = [r'] ∧ r'.map = r.map ∧ r'.lanes = r.lanes ∧
        r'.held = [e] ∧ e.accs = as ∧ e.set = set ∧ e.flag = flagB x.cur.hdr ∧
        ∀ h v l, y.cell (.main h v l) = z.cell (.main h v l))

/-- A read-modify-write, its region ended: with its checks passed, a free flag and room for its misses, it stands in flight with
its operation, each lane's operands, its accesses and its result set; no register and no memory changes until it is performed. -/
def RmwFiles (i : Instr) (sp : Space) (op : RmwOp) (o : Option Ord) (dflt : Scope) (red : Bool) (d a b : Operand) (g : Guard) :
    Prop :=
  ∀ (s : State) (x z : Iss) (s1 : State) (set : OSet) (tab : Map OEntry) (as : List Acc) (s2 : State),
    Commits s g x z s1 → x.active ≠ [] → Operable x (rmwOps op d a b) d op.regs →
    osJoinAll s1.osets 0 (resultSets x x.active (rmwOps op d a b) [] false g) = .ok (set, tab) →
    checkAll { s1 with osets := tab } x sp false (rmwBytes op) 3 0 (some set) (wants x (fun p => (val64 x a p).toNat) fun _ => []) =
      .ok (as, s2) →
    let flag := if red then flagB x.cur.hdr else flagA x.cur.hdr
    let sc := (o.map fun q => q.scope).getD dflt
    FlagFree z.crew (homesOf x.active) flag →
    (∃ s3, startMisses s2 x.crew.core x.grid.vf x.isH CacheP.none
      (as.filter fun q => (rmwNeed s2 x.crew.core sc as).contains q.key) = .ok s3) →
    ∃ t y q, Filed i s s2 t x z y (homesOf x.active) flag ∧ InFlight s2 t q ∧ q.lanes = x.active ∧ q.accs = as ∧ q.set = set ∧
      q.flag = flag ∧ q.scope = sc ∧ q.sem = (o.map fun u => u.sem).getD .rlx ∧
      (red = true → q.kind = .red op (x.active.map (valN x b op.regs))) ∧
      (red = false → q.kind = .atom op { d := d, regs := op.regs, signed := false, commit := true, maps := destMaps x }
        (x.active.map (valN x b op.regs)) (x.active.map (valN x (if isCas op then d else b) op.regs)))

end Sys2Proof.Claims

/-- R36, R37, R257, R261, R264: LD, LDS and LDT issue into flight, each with its size, and write nothing until delivered. -/
def Sys2Proof.Claims.LoadsGoIntoFlight : Prop :=
  (∀ sz c o d a b g, LoadFiles (.ld sz c o d a b g) .generic (ldBytes sz) (ldSigned sz) c o d sz.regs a b g) ∧
  (∀ sz d a b g, LoadFiles (.lds sz d a b g) .shared (ldBytes sz) (ldSigned sz) CacheP.none none d sz.regs a b g) ∧
  (∀ sp wide d a b g, LoadFiles (.ldt sp wide d a b g) (spaceOf sp) (if wide then 16 else 4) false CacheP.none none d
    (if wide then 4 else 1) a b g)

/-- R263: LDK issues one load for each home sheaf with an active thread, by that home sheaf's k values, into its k registers. -/
def Sys2Proof.Claims.UniformLoadGoesIntoFlight : Prop :=
  ∀ (sz : LdkSize) (c : CacheP) (d : Fin 30) (a b : Operand) (g : Guard) (s : State) (x : Iss) (set : OSet) (tab : Map OEntry)
    (as : List Acc) (s1 : State), Issues s g x → x.active ≠ [] →
    osJoinAll s.osets 0 (resultSets x x.active [(a, 2), (b, 1)] [] false g) = .ok (set, tab) →
    checkAll { s with osets := tab } x .generic true (ldkBytes sz) 1 c.pcls.val none
      ((homeReps x).map fun p => { who := p, addr := addrAt x a b p, data := [] }) = .ok (as, s1) →
    FlagFree x.crew (homesOf x.active) (flagA x.cur.hdr) →
    (∃ s2, startMisses (touchHits s1 x.crew.core c as) x.crew.core x.grid.vf x.isH c as = .ok s2) →
    ∃ t y op, Filed (.ldk sz c d a b g) s s1 t x x y (homesOf x.active) (flagA x.cur.hdr) ∧ InFlight s1 t op ∧
      op.kind = .loadK d.val sz.regs ∧ op.homes = homesOf x.active ∧ op.flag = flagA x.cur.hdr ∧ op.set = set ∧ op.accs = as ∧
      ∀ h ∈ homesOf x.active, ∃ q ∈ as, q.sheaf = h ∧ ∃ p ∈ x.active, p.2 = h ∧ q.addr = addrAt x a b p

/-- R48, R136, R262, R264: ST, STS and STT put their bytes, low byte first, at A + B into the core's store order, or into the
hold of their restartable region. -/
def Obligations.StoresQueue : Prop :=
  (∀ sz c o d a b g, StoreQueues (.st sz c o d a b g) .generic (stBytes sz) c o d sz.regs a b g) ∧
  (∀ sz d a b g, StoreQueues (.sts sz d a b g) .shared (stBytes sz) CacheP.none none d sz.regs a b g) ∧
  (∀ sp wide d a b g, StoreQueues (.stt sp wide d a b g) (spaceOf sp) (if wide then 16 else 4) CacheP.none none d
    (if wide then 4 else 1) a b g)

/-- R34, R47, R265 to R267: ATOM, RED and ATOMS end their region and go into flight. -/
def Obligations.ReadModifyWritesGoIntoFlight : Prop :=
  (∀ op o d a b g, RmwFiles (.atom op o d a b g) .generic op o .dev false d a b g) ∧
  (∀ op o a b g, isCas op = false → RmwFiles (.red op o a b g) .generic op o .dev true .z a b g) ∧
  (∀ op o d a b g, RmwFiles (.atoms op o d a b g) .shared op o .crew false d a b g)

/-- R143, R147, R268 to R270: FENCE ends its region and completes once its release is performed and no earlier load of its threads
is due, with the acquire's effect on the caches; CMAINT goes into flight under flag B; PREF completes at once, and writes no
register. -/
def Obligations.FencesAndCacheMaintenance : Prop :=
  (∀ (sc : Scope) (sem : Sem) (g : Guard) (s : State) (x z : Iss) (s1 s2 : State), Commits s g x z s1 →
    (if semRel sem then release s1 z sc = .inl s2 else s2 = s1) →
    (semAcq sem = true → threadLoadsDue s2 z.cur.crew s2.seq z.present = false) →
    ∃ t y, Filed (.fence sc sem g) s s2 t x z y [] none ∧ t.ops = s2.ops ∧
      t.cores = (if semAcq sem then acquireAct s2 (dieOf z.crew.core) sc else s2).cores) ∧
  (∀ (act : CmAction) (sc : Scope) (g : Guard) (s : State) (x : Iss), Issues s g x →
    FlagFree x.crew (homesOf x.present) (flagB x.cur.hdr) →
    let s1 := cmaintAct s x.crew.core act (sc == .dom)
    ∃ t y op, exec (.cmaint act sc g) s = .next t ∧ t.context x.cur = some y ∧ InFlight s1 t op ∧
      op.kind = .cmaint act (sc == .dom) ∧ op.flag = flagB x.cur.hdr ∧ (∀ c, y.cell c = x.cell c) ∧
      Counted x.crew y.crew (homesOf x.present) (flagB x.cur.hdr) ∧ SameMemory s1 t) ∧
  (∀ (lvl : Fin 2) (c : CacheP) (a b : Operand) (g : Guard) (s : State) (x : Iss), Issues s g x → Operable x [(a, 2), (b, 1)] .z 0 →
    ∃ t y, exec (.pref lvl c a b g) s = .next t ∧ t.context x.cur = some y ∧ (∀ c, y.cell c = x.cell c) ∧
      (∀ p, (y.crew.thread p).fpx = (x.crew.thread p).fpx) ∧ t.ops = s.ops ∧ y.crew.memories = x.crew.memories ∧
      ∀ n, n ≠ x.cur.crew → Map.find? t.crews n = Map.find? s.crews n)

/-- R271, R272: an arrival takes one off the pending count in bits [15:0]; the last one flips the phase, bit 31, and reloads the
count from bits [30:16]; none is accepted where nothing is pending. -/
def Sys2Proof.Claims.PhaseArrivalRule : Prop :=
  ∀ w : Word,
    (w.toNat % 65536 = 0 → arrivePhase w = none) ∧
    (1 < w.toNat % 65536 → ∃ v, arrivePhase w = some v ∧ v.toNat + 1 = w.toNat) ∧
    (w.toNat % 65536 = 1 → ∃ v, arrivePhase w = some v ∧ v.msb = !w.msb ∧ v.toNat / 65536 % 32768 = w.toNat / 65536 % 32768 ∧
      v.toNat % 65536 = w.toNat / 65536 % 32768)

namespace Sys2Proof.Claims

/-- R272's update of a phase word: the last arrival due flips bit 31 and reloads the pending count, else the count goes down. -/
def phaseNext (w : Word) : Word :=
  let ex := w.toNat / 65536 % 32768
  if w.toNat % 65536 = 1 then BitVec.ofNat 32 ((if w.msb then 0 else 2 ^ 31) + ex * 65536 + ex) else w - 1

/-- Arrivals at the phase words of some offsets, one after another: the words after them and the phases before each; none where one
finds nothing pending (R272). -/
def phaseRun (rd : Nat → Word) : List Nat → Option ((Nat → Word) × List Word)
  | [] => some (rd, [])
  | o :: rest =>
    if (rd o).toNat % 65536 = 0 then none
    else (phaseRun (fun a => if a = o then phaseNext (rd o) else rd a) rest).map fun q =>
      (q.1, (if (rd o).msb then 1 else 0) :: q.2)

/-- A phase barrier instruction may act on its words: each an aligned word of the scratchpad, none of them awaited or owned. -/
structure PhaseWords (s1 : State) (x z : Iss) (a b : Operand) : Prop where
  inside : ∀ p ∈ x.active, addrAt x a b p + 4 ≤ x.grid.desc.scratch ∧ addrAt x a b p < 2 ^ 20
  aligned : ∀ p ∈ x.active, addrAt x a b p % 4 = 0
  unowned : ∀ w, owned s1 (dieOf z.crew.core) s1.seq w ((wants x (addrAt x a b) fun _ => []).flatMap fun q =>
    accLocs s1 z.cur.crew (crewAcc .shared 4 q)) = false
  loads : threadLoadsDue s1 z.cur.crew s1.seq z.present = false

end Sys2Proof.Claims

/-- R271 to R273: BARPA completes: it arrives once for each active lane at that lane's phase word, in ascending lane order, has the
phases before on their way to D under flag A, and changes no other byte of the scratchpad; BARPW completes where every lane's word
has left the phase D gives, writes nothing, and waits otherwise, for just the lanes whose words have not, and completes once there is
none of them left; BARPW without an active lane completes too. -/
def Sys2Proof.Claims.PhaseInstructions : Prop :=
  (∀ (d a b : Operand) (g : Guard) (s : State) (x z : Iss) (s1 : State) (rd : Nat → Word) (ps : List Word),
    Commits s g x z s1 → x.active ≠ [] → Operable x [(a, 2), (b, 1)] d 1 → Memory.wf z.crew.scratch = true →
    PhaseWords s1 x z a b → coreStoresDue s1 z.crew.core s1.seq z.cur.crew (homesOf z.present) = false →
    phaseRun (scratchWord z.crew) (x.active.map (addrAt x a b)) = some (rd, ps) →
    FlagFree z.crew (homesOf x.active) (flagA x.cur.hdr) →
    ∃ t y op, exec (.barpa d a b g) s = .next t ∧ t.context x.cur = some y ∧ InFlight s1 t op ∧
      op.kind = .barpa { d := d, regs := 1, signed := false, commit := true, maps := destMaps x } ∧
      op.got = (x.active.zip ps).map (fun q => (q.1.1, zx q.2)) ∧ op.flag = flagA x.cur.hdr ∧
      (∀ p ∈ x.active, scratchWord y.crew (addrAt x a b p) = rd (addrAt x a b p)) ∧
      (∀ i, (∀ p ∈ x.active, i < addrAt x a b p ∨ addrAt x a b p + 4 ≤ i) → Memory.read y.crew.scratch i = Memory.read z.crew.scratch i) ∧
      (∀ cell, y.cell cell = z.cell cell) ∧
      Counted z.crew y.crew (homesOf x.active) (flagA x.cur.hdr) ∧ SameMemory s1 t) ∧
  (∀ (d a b : Operand) (g : Guard) (s : State) (x z : Iss) (s1 : State), Commits s g x z s1 → x.active = [] →
    ∃ t y, Filed (.barpw d a b g) s s1 t x z y [] none) ∧
  (∀ (d a b : Operand) (g : Guard) (s : State) (x z : Iss) (s1 : State),
    Commits s g x z s1 → x.active ≠ [] → Operable x [(d, 1), (a, 2), (b, 1)] .z 0 → (∀ q, x.grp.wait ≠ .barpw q) →
    PhaseWords s1 x z a b → threadStoresDue s1 z.cur.crew s1.seq z.present = false →
    let stay := fun p => (scratchWord z.crew (addrAt x a b p)).msb == (val32 x d p).getLsbD 0
    ((∀ p ∈ x.active, stay p = false) → ∃ t y, Filed (.barpw d a b g) s s1 t x z y [] none) ∧
    ((∃ p ∈ x.active, stay p = true) → ∃ t y, exec (.barpw d a b g) s = .next t ∧ t.context x.cur = some y ∧
      (∀ c, y.cell c = z.cell c) ∧
      y.grp.wait = .barpw ((x.active.filter stay).map fun p => (p.1, addrAt x a b p, (val32 x d p).getLsbD 0)))) ∧
  (∀ (d a b : Operand) (g : Guard) (s : State) (x z : Iss) (s1 : State),
    Commits s g x z s1 → x.active ≠ [] → Operable x [(d, 1), (a, 2), (b, 1)] .z 0 → x.grp.wait = .barpw [] →
    ∃ t y, Filed (.barpw d a b g) s s1 t x z y [] none)

/-! ## Matrix instructions (12_isa_matrix.md) -/

/-- R291 to R294: XMMA, its units held, files one request for each quarter of the sheaf with an active lane in the cluster
engine's table: quarter q reads A quarter (aq + q) mod 128, the W slot named and rows 16q to 16q + 15 of the C tile; flag A counts
one for each request of a home sheaf. -/
def Sys2Proof.Claims.MatrixRequests : Prop :=
  ∀ (aq : Fin 128) (bs : Fin 256) (ct : Fin 16) (wa wb : Fin 7) (zero : Bool) (g : Guard) (s : State) (x z : Iss) (set : OSet)
    (tab : Map OEntry) (s1 : State), Issues s g x → x.active ≠ [] → xmmaHolds x aq bs ct = true →
    osJoinAll s.osets 0 (resultSets x x.active [] [] false g) = .ok (set, tab) →
    splitTile x { s with osets := tab } = .ok (z, s1) →
    engineRoom (s1.engine (clusterOf x.crew.core)) x.isH (activeQuarters x).length = true →
    (∀ f, flagA x.cur.hdr = some f → ∀ h, (z.crew.sheaf h).flag f + 4 ≤ 63) →
    ∃ t y rs, exec (.xmma aq bs ct wa wb zero g) s = .next t ∧ t.context x.cur = some y ∧
      (t.engine (clusterOf x.crew.core)).table = (s1.engine (clusterOf x.crew.core)).table ++ rs ∧
      rs.map (fun r => (r.crew, r.qa, r.bslot, r.tile, r.rows, r.wa, r.wb, r.zero, r.set)) =
        (activeQuarters x).map (fun q =>
          (x.cur.crew, (aq.val + q) % 128, bs.val, ct.val, 16 * q, wa.val + 2, wb.val + 2, zero, set)) ∧
      (∀ c, y.cell c = z.cell c) ∧ SameMemory s1 t ∧ y.crew.memories = z.crew.memories ∧
      ∀ h k, (y.crew.sheaf h).flag k = (z.crew.sheaf h).flag k +
        if flagA x.cur.hdr = some k ∧ h < x.crew.sheaves.length then
          ((activeQuarters x).filter fun q => (homesOf (inQuarter x.active q)).contains h).length else 0

/-- R300, R301: XZERO and XREQ, their units in the crew's allocation, go into flight under flag A; XREQ samples the rounding mode
and the window of the lowest active lane as it issues. -/
def Sys2Proof.Claims.TileOperationsGoIntoFlight : Prop :=
  (∀ (t0 : Fin 16) (g : Guard) (s : State) (x z : Iss) (set : OSet) (tab : Map OEntry) (s1 : State), Issues s g x → x.active ≠ [] →
    Map.has x.crew.unitsC t0 = true → osJoinAll s.osets 0 (resultSets x x.active [] [] false g) = .ok (set, tab) →
    splitTile x { s with osets := tab } = .ok (z, s1) → FlagFree z.crew (homesOf x.active) (flagA x.cur.hdr) →
    ∃ t y op, Filed (.xzero t0 g) s s1 t x z y (homesOf x.active) (flagA x.cur.hdr) ∧ InFlight s1 t op ∧ op.kind = .xzero t0 ∧
      op.set = set ∧ op.flag = flagA x.cur.hdr) ∧
  (∀ (r : Option RMode) (t0 : Fin 16) (aq : Fin 64) (c : Fin 7) (g : Guard) (s : State) (x z : Iss) (l : Nat × Nat) (set : OSet)
    (tab : Map OEntry) (s1 : State), Issues s g x → lowActive x = some l →
    let qas := (activeQuarters x).map fun q => (aq.val + q) % 128
    Map.has x.crew.unitsC t0 = true → (∀ q ∈ qas, Map.has x.crew.unitsA (q / 4) = true) →
    osJoinAll s.osets 0 (resultSets x x.active [] [] false g ++ [(x.crew.thread l).rmodeS, (x.crew.thread l).ptselS]) =
      .ok (set, tab) →
    splitTile x { s with osets := tab } = .ok (z, s1) → FlagFree z.crew (homesOf x.active) (flagA x.cur.hdr) →
    ∃ t y op, Filed (.xreq r t0 aq c g) s s1 t x z y (homesOf x.active) (flagA x.cur.hdr) ∧ InFlight s1 t op ∧
      op.kind = .xreq t0 aq (c.val + 2) qas (r.getD (x.crew.thread l).rmode) (x.crew.thread l).ptsel.val ∧ op.set = set ∧
      op.flag = flagA x.cur.hdr)

/-- R302: XOSQ writes the index of a unit's origin set into K(D) of every home sheaf with an active lane; the unit is the one B
names in the lowest active lane. -/
def Sys2Proof.Claims.UnitSetRead : Prop :=
  ∀ (d : Fin 30) (sp : TSpace) (b : Operand) (g : Guard) (s : State) (x : Iss) (l : Nat × Nat), Issues s g x →
    lowActive x = some l →
    let u := (val32 x b l).toNat
    Map.has (x.crew.units sp) u = true → owned s (dieOf x.crew.core) s.seq false (unitLocs s x.cur.crew sp u) = false →
    ∃ t y, Ran (.xosq d sp b g) s t x y ∧
      (∀ p ∈ x.active, y.cell (.k p.2 d) = some (BitVec.ofNat 32 (Map.get (x.crew.units sp) u (TUnit.init 0)).set)) ∧
      (∀ c, (∀ p ∈ x.active, c ≠ .k p.2 d) → y.cell c = x.cell c) ∧
      ∀ p, (y.crew.thread p).fpx = (x.crew.thread p).fpx

/-! ## Copies, rings, messages (11_isa_memory.md) -/

namespace Sys2Proof.Claims

/-- A copy instruction: with its descriptor in the scratchpad at a multiple of 64 and every check of R278 passed, it samples the
descriptor and the index list, and goes into flight under flag B, or flag A where its destination is a typed space. -/
def CopyFiles (i : Instr) (form : Nat) (r : Option RMode) (c : CacheP) (a : Operand) (g : Guard) : Prop :=
  ∀ (s : State) (x z : Iss) (s1 : State) (l : Nat × Nat), Commits s g x z s1 → Operable x [(a, 1)] .z 0 → lowActive x = some l →
    let off := (val32 x a l).toNat
    let bs := (List.range 192).map fun k => sharedByte z.crew (off + k)
    let d := CDesc.read bs
    let idx := indexList z.crew d form
    let flag := if 2 ≤ d.ds then flagA x.cur.hdr else flagB x.cur.hdr
    off % 64 = 0 → off + 192 ≤ x.grid.desc.scratch → threadStoresDue s1 z.cur.crew s1.seq z.present = false →
    threadLoadsDue s1 z.cur.crew s1.seq z.present = false → 1 ≤ d.n → d.n ≤ 7 → descOk d form = true →
    listCause x d form = none → readsOwned s1 z (copyReads d form off) = false →
    rangeCause s1 x d form idx = none → (2 ≤ d.ds → flag.isSome = true) → copiesOf s1 x.crew.core < 64 →
    FlagFree z.crew (homesOf x.active) flag →
    (d.ds ≠ 5 → ∃ t y op, Filed i s s1 t x z y (homesOf x.active) flag ∧ InFlight s1 t op ∧
      op.kind = .copy bs idx form (r.getD (x.crew.thread l).rmode) (x.crew.thread l).ptsel.val 0 false none ∧ op.flag = flag ∧
      op.cache = c) ∧
    (d.ds = 5 → bitOf d.flags 1 = false → ∀ ring u r', Map.find? z.crew.rings d.ring = some ring →
      ring.reserve x.cur.crew = some (u, r') →
      ∃ t y op, exec i s = .next t ∧ t.context x.cur = some y ∧ InFlight s1 t op ∧
        op.kind = .copy bs idx form (r.getD (x.crew.thread l).rmode) (x.crew.thread l).ptsel.val 0 false
          (some (x.cur.crew, d.ring, u)) ∧ op.flag = flag ∧ Map.find? y.crew.rings d.ring = some r' ∧
        (∀ cell, y.cell cell = z.cell cell) ∧ SameMemory s1 t)

/-- A ring command that names ring id, its region ended: the ring it acts on, and what it leaves. -/
def RingActs (i : Instr) (id : Nat) (d : Operand) (g : Guard) (act : Ring → Nat → Option (Word × Ring)) : Prop :=
  ∀ (s : State) (x z : Iss) (s1 : State) (r r' : Ring) (w : Word), Commits s g x z s1 → x.active ≠ [] → Operable x [] d 1 → id < 20 →
    Map.find? z.crew.rings id = some r → act r x.cur.crew = some (w, r') →
    threadLoadsDue s1 z.cur.crew s1.seq z.present = false →
    ∃ t y, exec i s = .next t ∧ t.context x.cur = some y ∧ Committed x z y d [w] ∧ Map.find? y.crew.rings id = some r' ∧
      SameMemory s1 t ∧ y.crew.memories = z.crew.memories

end Sys2Proof.Claims

/-- R274 to R280: CPY, CPYG, CPYS and CPYQ. -/
def Obligations.CopiesGoIntoFlight : Prop :=
  (∀ c a g, CopyFiles (.cpy c a g) 0 none c a g) ∧ (∀ c a g, CopyFiles (.cpyg c a g) 1 none c a g) ∧
  (∀ c a g, CopyFiles (.cpys c a g) 2 none c a g) ∧ (∀ c r a g, CopyFiles (.cpyq c r a g) 3 r c a g)

/-- R117, R119, R283: RRES reserves the ring's next free slot and gives its unit; RCLM claims the slot at the crew's cursor and gives
its unit; RCTR gives the ring's counts and changes nothing of it; RPUB publishes a unit reserved for the crew; RREL releases a unit
the crew has claimed, and a unit that becomes free reads zero with the empty set. -/
def Obligations.RingCommands : Prop :=
  (∀ (d : Operand) (ring : Fin 64) (g : Guard), RingActs (.rres d ring g) ring d g fun r crew =>
    if r.free = 0 then none
    else some (BitVec.ofNat 32 (r.first + r.rsvCur), { r.modSlot r.rsvCur (fun q => { q with st := .reserved crew }) with
      free := r.free - 1, rsvCur := (r.rsvCur + 1) % r.count })) ∧
  (∀ (d : Operand) (ring : Fin 64) (g : Guard), RingActs (.rclm d ring g) ring d g fun r crew =>
    (r.take crew).map fun q => (BitVec.ofNat 32 q.1, q.2)) ∧
  (∀ (d : Operand) (ring : Fin 64) (g : Guard), RingActs (.rctr d ring g) ring d g fun r crew =>
    some (BitVec.ofNat 32 (r.free % 65536 + 65536 * Map.get r.filled crew 0), r)) ∧
  (∀ (ring : Fin 64) (b : Operand) (g : Guard) (s : State) (x z : Iss) (s1 s2 : State) (l : Nat × Nat) (r : Ring) (i : Nat),
    Commits s g x z s1 → lowActive x = some l → ring.val < 20 → Map.find? z.crew.rings ring = some r →
    (val32 x b l).toNat = r.first + i → i < r.count → (r.slot i).st = .reserved x.cur.crew → release s1 z .core = .inl s2 →
    ∃ t y, exec (.rpub ring b g) s = .next t ∧ t.context x.cur = some y ∧ Map.find? y.crew.rings ring = some (r.publish i) ∧
      (∀ c, y.cell c = z.cell c) ∧ SameMemory s2 t ∧ y.crew.memories = z.crew.memories) ∧
  (∀ (ring : Fin 64) (b : Operand) (g : Guard) (s : State) (x z : Iss) (s1 s2 : State) (l : Nat × Nat) (r : Ring) (i : Nat),
    Commits s g x z s1 → lowActive x = some l → ring.val < 20 → Map.find? z.crew.rings ring = some r →
    (val32 x b l).toNat = r.first + i → i < r.count → (r.slot i).st = .claimed → (r.slot i).holders.contains x.cur.crew = true →
    unitBusy s1 x.cur.crew (ringSpace ring) (r.first + i) = false → release s1 z .core = .inl s2 →
    ∃ t y, exec (.rrel ring b g) s = .next t ∧ t.context x.cur = some y ∧
      Map.find? y.crew.rings ring = some (r.release i x.cur.crew).1 ∧ (∀ c, y.cell c = z.cell c) ∧ SameMemory s2 t ∧
      ∀ u ∈ (r.release i x.cur.crew).2, ∀ v, Map.find? (y.crew.units (ringSpace ring)) u = some v → v.mem = [] ∧ v.set = 0)

/-- R284 to R287: MSGP posts a receive, or takes the oldest waiting message that fits at once; MSGS sends the bytes of the shared
space it names to a core of the partition; MSGC cancels the crew's oldest receive of a buffer and says whether there was one. -/
def Obligations.Messages : Prop :=
  (∀ (cap : Fin 32) (a b : Operand) (g : Guard) (s : State) (x z : Iss) (s1 : State) (l : Nat × Nat), Commits s g x z s1 →
    Operable x [(a, 1), (b, 1)] .z 0 → lowActive x = some l →
    let buf := (val32 x a l).toNat
    let mtch := (val32 x b l).toNat
    let room := 8 * (cap.val + 1)
    (buf < 2 ^ 20 ∨ 2 ^ 21 ≤ buf) → buf % 8 = 0 → buf + 8 + room ≤ x.grid.desc.scratch →
    ((∀ m ∈ (s1.core x.crew.core).msgQ, m.fits x.crew.grid mtch room = false) → (s1.core x.crew.core).recvs.length < 64 →
      FlagFree z.crew (homesOf x.active) (flagB x.cur.hdr) →
      ∃ t y op, Filed (.msgp cap a b g) s s1 t x z y (homesOf x.active) (flagB x.cur.hdr) ∧ InFlight s1 t op ∧
        op.kind = .recv buf cap mtch ∧ (t.core x.crew.core).recvs = (s1.core x.crew.core).recvs ++ [s1.nextOp]) ∧
    (∀ m, (s1.core x.crew.core).msgQ.find? (fun m => m.fits x.crew.grid mtch room) = some m → Memory.wf z.crew.scratch = true →
      FlagFree z.crew (homesOf x.active) (flagB x.cur.hdr) →
      ∃ t y, exec (.msgp cap a b g) s = .next t ∧ t.context x.cur = some y ∧ t.ops = s1.ops ∧
        (t.core x.crew.core).msgQ = (s1.core x.crew.core).msgQ.erase m ∧
        (∀ k, k < 8 → Memory.read y.crew.scratch (buf + k) =
          BitVec.ofNat 8 ((m.srcCore + 2 ^ 16 * m.tag + 2 ^ 32 * m.payload.length) / 2 ^ (8 * k))) ∧
        (∀ k b, m.payload[k]? = some b → Memory.read y.crew.scratch (buf + 8 + k) = b) ∧
        (∀ k, k < buf ∨ buf + 8 + m.payload.length ≤ k → Memory.read y.crew.scratch k = Memory.read z.crew.scratch k) ∧
        ∀ c, y.cell c = z.cell c)) ∧
  (∀ (len : Fin 64) (a b : Operand) (g : Guard) (s : State) (x z : Iss) (s1 s2 : State) (l : Nat × Nat) (dst : Nat),
    Commits s g x z s1 → Operable x [(a, 1), (b, 1)] .z 0 → lowActive x = some l →
    let off := (val32 x a l).toNat
    let w := (val32 x b l).toNat
    let n := 8 * (len.val + 1)
    len.val < 32 → w / 65536 ≠ 0xFFFF → coreOfPlace s1 x.grid.vf (w % 65536) = some dst →
    checkSharedRange x.crew x.grid.desc.scratch off n = .ok () → release s1 z .dev = .inl s2 → JoinsFit s2.osets →
    owned s2 (dieOf z.crew.core) s2.seq false ((List.range n).map fun k => crewLoc s2 z.cur.crew .shared (off + k)) = false →
    FlagFree z.crew (homesOf x.active) (flagB x.cur.hdr) →
    ∃ t y op m, Filed (.msgs len a b g) s s2 t x z y (homesOf x.active) (flagB x.cur.hdr) ∧ InFlight s2 t op ∧
      (t.core dst).msgIn = (s2.core dst).msgIn ++ [m] ∧ m.dstCore = dst ∧ m.tag = w / 65536 ∧ m.grid = x.crew.grid ∧
      m.op = s2.nextOp ∧ m.payload = (List.range n).map fun k => sharedByte z.crew (off + k)) ∧
  (∀ (d a : Operand) (g : Guard) (s : State) (x z : Iss) (s1 : State) (l : Nat × Nat), Commits s g x z s1 →
    Operable x [(a, 1)] d 1 → lowActive x = some l → Map.wf s1.ops = true →
    let r := recvFor s1 x.cur.crew x.crew.core (val32 x a l).toNat
    ∃ t y, exec (.msgc d a g) s = .next t ∧ t.context x.cur = some y ∧
      Committed x z y d [if r.isSome then 1 else 0] ∧ SameMemory s1 t ∧ y.crew.memories = z.crew.memories ∧
      (r = none → t.ops = s1.ops) ∧
      ∀ n o, r = some (n, o) → Map.find? t.ops n = none ∧ n ∉ (t.core x.crew.core).recvs)

/-- R103, R288: PTLD loads windows of the permutation table, each 32 bytes of the scratchpad that name every lane once. -/
def Obligations.PermutationTableLoaded : Prop :=
  ∀ (first : Fin 8) (a : Operand) (count : Fin 64) (g : Guard) (s : State) (x z : Iss) (s1 : State) (l : Nat × Nat),
    Commits s g x z s1 → Operable x [(a, 1)] .z 0 → lowActive x = some l →
    let off := (val32 x a l).toNat
    let n := 32 * count.val
    1 ≤ count.val → first.val + count.val ≤ 8 → checkSharedRange x.crew x.grid.desc.scratch off n = .ok () →
    threadStoresDue s1 z.cur.crew s1.seq z.present = false → threadLoadsDue s1 z.cur.crew s1.seq z.present = false →
    owned s1 (dieOf z.crew.core) s1.seq false ((List.range n).map fun k => crewLoc s1 z.cur.crew .shared (off + k)) = false →
    windowsOk ((List.range n).map fun k => sharedByte z.crew (off + k)) count = true →
    ∃ t y, exec (.ptld first a count g) s = .next t ∧ t.context x.cur = some y ∧
      (∀ k, k < n → ∀ e, Map.get y.crew.ptab (32 * first.val + k) e = (sharedByte z.crew (off + k)).toNat) ∧
      (∀ k, k < 32 * first.val ∨ 32 * first.val + n ≤ k → ∀ e, Map.get y.crew.ptab k e = Map.get z.crew.ptab k e) ∧
      (∀ c, y.cell c = z.cell c) ∧ SameMemory s1 t ∧ y.crew.memories = z.crew.memories

/-! ## Control and system instructions (08_isa_control.md) -/

namespace Sys2Proof.Claims

/-- The memories are as they were; the host's too unless a trace unit takes records of the kind (18_observation.md R408). -/
def SameButTrace (kind : Nat) (s t : State) : Prop :=
  t.hbm = s.hbm ∧ t.store = s.store ∧ ((∀ u ∈ s.traces, u.2.wants kind = false) → t.host = s.host)

end Sys2Proof.Claims

/-- R39, R197: WAITF completes once the flag is at or below the threshold in every home sheaf of its threads, so with a threshold of
63 always, and else waits there; a cause posted to the flag is taken instead. -/
def Obligations.WaitfWaits : Prop :=
  ∀ (flag : Fin 12) (thr : Fin 64) (g : Guard) (s : State) (x : Iss), Issues s gAlways x →
    (∀ q ∈ x.crew.posted, q.flag ≠ some flag.val) →
    ((∀ p ∈ x.present, (x.crew.sheaf p.2).flag flag ≤ thr) →
      ∃ t y, Ran (.waitf flag thr g) s t { x with grp := { x.grp with ranWait := false, noShadow := false } } y ∧
        (∀ c, y.cell c = x.cell c) ∧ ∀ p, (y.crew.thread p).fpx = (x.crew.thread p).fpx) ∧
    ((∃ p ∈ x.present, thr < (x.crew.sheaf p.2).flag flag) →
      ∃ t y, exec (.waitf flag thr g) s = .next t ∧ t.context x.cur = some y ∧
        (let again := decide (x.grp.wait = .waitf flag thr)
         y.grp = { x.grp with wait := .waitf flag thr, brk := x.grp.active.map (fun a => (a.addr, a.index)),
                              ranWait := again && x.grp.ranWait, noShadow := again && x.grp.noShadow }) ∧
        y.crew.sheaves = x.crew.sheaves ∧ t.cur = none)

/-- R193: NOP completes, and changes nothing of its crew but where its threads stand, and nothing else but the counts of what issues. -/
def Obligations.NopHasNoEffect : Prop :=
  ∀ (g : Guard) (s : State) (x : Iss), Issues s gAlways x →
    ∃ t y, Ran (.nop g) s t x y ∧ (∀ c, y.cell c = x.cell c) ∧ (∀ p, (y.crew.thread p).sansPc = (x.crew.thread p).sansPc) ∧
      (∀ h, (y.crew.sheaf h).files = (x.crew.sheaf h).files) ∧ y.crew.slotS = x.crew.slotS ∧ y.grp.regions = x.grp.regions ∧
      t.osets = s.osets

/-- R192, R209: YIELD completes, and changes nothing but where its threads stand; MARK
completes: where a thread is active it counts its progress point for the partition where that has it enabled, and for the hypervisor where
that has; where neither has, or no thread is active, it changes nothing. -/
def Obligations.YieldsAndMarks : Prop :=
  (∀ (g : Guard) (s : State) (x : Iss), Issues s gAlways x →
    ∃ t y, Ran (.yield g) s t x y ∧ (∀ c, y.cell c = x.cell c) ∧ ∀ p, (y.crew.thread p).fpx = (x.crew.thread p).fpx) ∧
  (∀ (p : Fin 64) (g : Guard) (s : State) (x : Iss), Issues s g x → x.active = [] ∨ markEnabled s x.grid.vf x.grid.vf p = false ∧ markEnabled s x.grid.vf 0 p = false →
    ∃ t y, Ran (.mark p g) s t x y ∧ (∀ c, y.cell c = x.cell c) ∧ ∀ q, (y.crew.thread q).fpx = (x.crew.thread q).fpx) ∧
  (∀ (p : Fin 64) (g : Guard) (s : State) (x : Iss), Issues s g x → x.active ≠ [] → x.grid.vf ≠ 0 →
    ∃ t y, exec (.mark p g) s = .next t ∧ t.context x.cur = some y ∧ (∀ c, y.cell c = x.cell c) ∧ SameButTrace 5 s t ∧
      Map.get (t.vf x.grid.vf).markc p 0 = Map.get (s.vf x.grid.vf).markc p 0 + (if markEnabled s x.grid.vf x.grid.vf p then 1 else 0) ∧
      Map.get (t.fn 0).markc p 0 = Map.get (s.fn 0).markc p 0 + if markEnabled s x.grid.vf 0 p then 1 else 0)

/-- R77, R207: RDSR writes the special register of each active thread to D. -/
def Sys2Proof.Claims.SpecialRegisterRead : Prop :=
  ∀ (d : Operand) (n : Fin 33) (g : Guard) (s : State) (x : Iss), Issues s g x → Operable x [] d 1 → ∃ oc tab,
    octxOf x s.osets = .ok (oc, tab) ∧ ∃ t y, exec (.rdsr d n g) s = .next t ∧ t.context x.cur = some y ∧
      (∀ p ∈ x.active, ∀ c, regCell x d 0 p = some c → y.cell c = some (specialValue s x oc n (repOf x d p))) ∧
      (∀ c, (∀ p ∈ x.active, regCell x d 0 p ≠ some c) → y.cell c = x.cell c) ∧
      (∀ p, (y.crew.thread p).fpx = (x.crew.thread p).fpx ∧ (y.crew.thread p).rmode = (x.crew.thread p).rmode ∧
        (y.crew.thread p).ptsel = (x.crew.thread p).ptsel) ∧ SameMemory s t

/-- R78, R208: WRSR writes %rmode (22), %ptsel (28) or %fpx (32) of each active thread from B, a value out of range leaving the
first two as they were; no register changes, nor another thread. -/
def Sys2Proof.Claims.SpecialRegisterWrite : Prop :=
  ∀ (n : Fin 33) (b : Operand) (g : Guard) (s : State) (x : Iss), n = 22 ∨ n = 28 ∨ n = 32 → Issues s g x →
    Operable x [(b, 1)] .z 0 → ∃ t y, exec (.wrsr n b g) s = .next t ∧ t.context x.cur = some y ∧ (∀ c, y.cell c = x.cell c) ∧
      SameMemory s t ∧
      (∀ p ∈ x.active, let v := val32 x b p
        let u := x.crew.thread p
        let w := y.crew.thread p
        w.rmode = (if n = 22 ∧ v.toNat < 6 then (rmodeOf v.toNat).getD u.rmode else u.rmode) ∧
        (w.ptsel : Nat) = (if n = 28 ∧ v.toNat < 8 then v.toNat else u.ptsel) ∧
        w.fpx = (if n = 32 then v.truncate 5 else u.fpx)) ∧
      ∀ p, p ∉ x.active → (y.crew.thread p).rmode = (x.crew.thread p).rmode ∧
        (y.crew.thread p).ptsel = (x.crew.thread p).ptsel ∧ (y.crew.thread p).fpx = (x.crew.thread p).fpx

namespace Sys2Proof.Claims

/-- The address after the issuing clause: 4 × (n + 1) further (07_encoding.md R159). -/
def after (x : Iss) : Dword := x.cur.addr + BitVec.ofNat 64 (4 * (x.cur.hdr.toNat % 16 + 1))

/-- The target of a format B branch: the clause's address plus 4 × the offset (08_isa_control.md R187). -/
def branchTarget (x : Iss) (off : BitVec 22) : Dword := x.cur.addr + BitVec.ofInt 64 (4 * off.toInt)

/-- The registers of a crew's sheaves are those of another context's crew. -/
def FilesKept (t : State) (crew : Nat) (c : Crew) : Prop := ∀ h, (t.sheafAt crew h).files = (c.sheaf h).files

/-- A thread has entered the trap handler with a cause at word ix of the issuing clause (02_execution.md R61; 08_isa_control.md
R205). -/
def InHandler (t : State) (x : Iss) (c : Cause) (ix : Nat) (p : Nat × Nat) : Prop :=
  let th := t.threadAt x.cur.crew p
  th.cause = BitVec.ofNat 9 (causeCode c) ∧ th.tpc = (x.cur.addr + BitVec.ofNat 64 (4 * ix)).truncate 32 ∧ th.handler = true ∧
    th.trapPc = x.cur.addr ∧ th.trapIx = ix ∧ th.clause = x.grid.desc.handler ∧ th.index = 1 ∧
    th.fpx = (x.crew.thread p).fpx ∧ th.rmode = (x.crew.thread p).rmode ∧ th.ret = (x.crew.thread p).ret

/-- An instruction's active threads take a trap: they enter the handler, the others stand where they stood, the grid counts a
fault and keeps its first cause, and no memory changes but for a trace record of the cause. -/
def TrapTaken (i : Instr) (s : State) (x : Iss) (c : Cause) : Prop :=
  ∃ t, exec i s = .next t ∧ (∀ p ∈ x.active, InHandler t x c x.cur.index p) ∧
    (∀ p, p ∉ x.active → t.threadAt x.cur.crew p = s.threadAt x.cur.crew p) ∧
    (∃ d, Map.find? t.grids x.crew.grid = some d ∧ d.faults = x.grid.faults + 1 ∧ d.first = some (x.grid.first.getD c)) ∧
    SameButTrace 6 s t ∧ ∀ n, n ≠ x.cur.crew → Map.find? t.crews n = Map.find? s.crews n

/-- What a trap needs: a handler, threads that are not in it, and regions that hold no store. -/
structure Traps (s : State) (g : Guard) (x : Iss) : Prop where
  issues : Issues s g x
  some : x.active ≠ []
  handler : x.grid.desc.handler ≠ 0
  outside : ∀ p ∈ x.active, (x.crew.thread p).handler = false
  unheld : ∀ r ∈ x.grp.regions, r.held = []

end Sys2Proof.Claims

/-- R187 to R189: BRA sends its active threads to the target, an address below 2^57, and the others to the next clause; BRAU sends all
where its lead lane goes; BRX sends each active thread to the address in its pair, a multiple of 4 below 2^57. No register changes. -/
def Sys2Proof.Claims.BranchTargets : Prop :=
  (∀ (off : BitVec 22) (g : Guard) (s : State) (x : Iss), Issues s g x → (x.active ≠ [] → (branchTarget x off).toNat < 2 ^ 57) →
    ∃ t, Went (.bra off g) s t x (fun p => if p ∈ x.active then branchTarget x off else after x) ∧
      FilesKept t x.cur.crew x.crew ∧ SameMemory s t) ∧
  (∀ (off : BitVec 22) (g : Guard) (s : State) (x : Iss) (l : Nat × Nat), Issues s g x → l ∈ x.present →
    (∀ p ∈ x.present, l.1 ≤ p.1) → (l ∈ x.active → (branchTarget x off).toNat < 2 ^ 57) →
    ∃ t, Went (.brau off g) s t x (fun _ => if l ∈ x.active then branchTarget x off else after x) ∧
      FilesKept t x.cur.crew x.crew ∧ SameMemory s t) ∧
  (∀ (a : Operand) (g : Guard) (s : State) (x : Iss), Issues s g x → Operable x [(a, 2)] .z 0 →
    (∀ p ∈ x.active, (val64 x a p).toNat < 2 ^ 57 ∧ (val64 x a p).toNat % 4 = 0) →
    ∃ t, Went (.brx a g) s t x (fun p => if p ∈ x.active then val64 x a p else after x) ∧
      FilesKept t x.cur.crew x.crew ∧ SameMemory s t)

/-- R187, R190: CALL ends the region, pushes the next clause's address on its active threads' return stacks, of at most 16 entries,
and sends them to the target; RET pops it and sends them there, where a clause stands that it may return to. -/
def Sys2Proof.Claims.CallsAndReturns : Prop :=
  (∀ (off : BitVec 22) (g : Guard) (s : State) (x z : Iss) (s1 : State), Issues s g x → endOutside x s = .ok (z, s1) →
    JoinsFit s1.osets → (∀ p ∈ x.active, (x.crew.thread p).ret.length < 16) →
    (x.active ≠ [] → (branchTarget x off).toNat < 2 ^ 57) →
    ∃ t, Went (.call off g) s t x (fun p => if p ∈ x.active then branchTarget x off else after x) ∧
      FilesKept t x.cur.crew z.crew ∧ SameMemory s1 t ∧
      (∀ p ∈ x.active, (t.threadAt x.cur.crew p).ret = after x :: (x.crew.thread p).ret) ∧
      ∀ p ∈ x.present, p ∉ x.active → (t.threadAt x.cur.crew p).ret = (x.crew.thread p).ret) ∧
  (∀ (g : Guard) (s : State) (x z : Iss) (ws : List (Word × Word)) (s0 s1 : State), Issues s g x →
    (∀ p ∈ x.active, (x.crew.thread p).ret ≠ []) →
    returnWords s x (dedup (x.active.filterMap fun p => (x.crew.thread p).ret.head?.map fun a => a.toNat)) = .ok (ws, s0) →
    (∀ w ∈ ws, returnOk w = true) → endOutside x s0 = .ok (z, s1) → JoinsFit s1.osets →
    ∃ t, Went (.ret g) s t x (fun p => if p ∈ x.active then (x.crew.thread p).ret.headD 0 else after x) ∧
      FilesKept t x.cur.crew z.crew ∧ SameMemory s1 t ∧
      ∀ p ∈ x.active, (t.threadAt x.cur.crew p).ret = (x.crew.thread p).ret.drop 1)

/-- R85: a BRA or BRX that sends its threads to more than one clause is a divergence: each present thread's control set becomes the join of
the entry's, the guard's and, of BRX, the target registers' sets, and the set it held is recorded, innermost of at most 16; without a
divergence no control set and no record changes. -/
def Sys2Proof.Claims.DivergencesJoin : Prop :=
  (∀ (off : BitVec 22) (g : Guard) (s : State) (x : Iss), Issues s g x → (x.active ≠ [] → (branchTarget x off).toNat < 2 ^ 57) →
    ((∃ p ∈ x.active, ∃ q ∈ x.present, q ∉ x.active ∧ p ∈ x.present ∧ branchTarget x off ≠ after x) →
      ∃ u tab t, osJoinAll s.osets 0 (entrySets x.crew x.grp.role x.cur.addr ++ predSets x x.present g.pred) = .ok (u, tab) ∧
        exec (.bra off g) s = .next t ∧ ∀ p ∈ x.present, let th := t.threadAt x.cur.crew p
          th.octx = u ∧ th.divs = (({ id := s.seq, saved := (x.crew.thread p).octx } : DivRec) :: (x.crew.thread p).divs).take 16) ∧
    ((∀ p ∈ x.present, p ∈ x.active) ∨ x.active = [] ∨ branchTarget x off = after x →
      ∃ t, exec (.bra off g) s = .next t ∧ ∀ p ∈ x.present, (t.threadAt x.cur.crew p).octx = (x.crew.thread p).octx ∧
        (t.threadAt x.cur.crew p).divs = (x.crew.thread p).divs)) ∧
  ∀ (a : Operand) (g : Guard) (s : State) (x : Iss), Issues s g x → Operable x [(a, 2)] .z 0 → (∀ p ∈ x.present, p ∈ x.active) →
    (∀ p ∈ x.active, (val64 x a p).toNat < 2 ^ 57 ∧ (val64 x a p).toNat % 4 = 0) →
    (∃ p ∈ x.active, ∃ q ∈ x.active, val64 x a p ≠ val64 x a q) →
    ∃ u tab t, osJoinAll s.osets 0 (entrySets x.crew x.grp.role x.cur.addr ++ predSets x x.present g.pred ++ opSets x x.present (a, 2)) =
        .ok (u, tab) ∧ exec (.brx a g) s = .next t ∧ ∀ p ∈ x.present, (t.threadAt x.cur.crew p).octx = u

/-- R26, R44, R85, R191: EXIT ends the region and its active threads leave; the others of its group go past it. A home sheaf whose last
thread leaves drops from each barrier that expects arrivals: as an arrival with a drop where it has not arrived, else as a drop alone, and
without the drop where the barrier could not bear it. Threads of other groups stand
where they stood; only their control sets and divergence records may change, for those of which only threads in one entry are left. -/
def Obligations.Exit : Prop :=
  ∀ (g : Guard) (s : State) (x z : Iss) (s1 : State), Issues s g x → endOutside x s = .ok (z, s1) →
    ∃ t, exec (.exit g) s = .next t ∧ (∀ p ∈ x.active, (t.threadAt x.cur.crew p).exited = true) ∧
      (∀ p ∈ x.present, p ∉ x.active → (t.threadAt x.cur.crew p).exited = (x.crew.thread p).exited) ∧
      (∀ p, p ∉ x.present → p ∉ x.stepping → { t.threadAt x.cur.crew p with octx := 0, divs := [], lost := [] } =
        { s.threadAt x.cur.crew p with octx := 0, divs := [], lost := [] }) ∧
      (∀ h, homesOf x.active = [h] → (∀ l, l < (x.crew.sheaf h).threads.length → (x.crew.thread (l, h)).exited = false → (l, h) ∈ x.active) →
        ∃ w, Map.find? t.crews x.cur.crew = some w ∧ ∀ i, i < 16 → let b := z.crew.barrier i
          (b.expect = 0 → w.barrier i = b) ∧
          (b.expect ≠ 0 → h ∈ b.sheaves → w.barrier i = if b.drops < b.expect then { b with drops := b.drops + 1 } else b) ∧
          (b.expect ≠ 0 → h ∉ b.sheaves → w.barrier i = b.count h (decide (b.drops < b.expect)))) ∧
      FilesKept t x.cur.crew z.crew ∧ SameMemory s1 t ∧ ∀ n, n ≠ x.cur.crew → Map.find? t.crews n = Map.find? s.crews n

/-- R61, R63, R203 to R205: TRAP and BRK take their causes: each active thread's cause, %tpc and trap PC are saved, and it stands
at the grid's handler; without an active thread TRAP ends the region and goes past, and BRK goes past. -/
def Obligations.TrapEntry : Prop :=
  (∀ (code : Fin 32) (g : Guard) (s : State) (x : Iss), Traps s g x → TrapTaken (.trap code g) s x (.swTrap code)) ∧
  (∀ (g : Guard) (s : State) (x : Iss), Traps s g x → TrapTaken (.brk g) s x .breakpoint) ∧
  (∀ (code : Fin 32) (g : Guard) (s : State) (x z : Iss) (s1 : State), Commits s g x z s1 → x.active = [] →
    ∃ t y, Filed (.trap code g) s s1 t x z y [] none) ∧
  (∀ (g : Guard) (s : State) (x : Iss), Issues s g x → x.active = [] →
    ∃ t y, Ran (.brk g) s t x y ∧ ∀ c, y.cell c = x.cell c)

/-- R64, R70, R73, R49, R356: an instruction of two sources that names a main register beyond the budget takes ILL_OPERAND, else
one that names an unmapped slot takes UNMAPPED_SLOT, else a main register written in a restartable region ILL_XREG_WRITE (this last
order is the model's choice, assumption 87); a thread already in the handler makes its grid fail with TRAP_NESTED. -/
def Sys2Proof.Claims.RegisterTraps : Prop :=
  ∀ r ∈ twoSource, ∀ (s : State) (x : Iss) (d a b : Operand) (g : Guard),
    let os := [(a, 1), (b, 1), (d, 1)]
    let inB := ∀ o ∈ os, ∀ p ∈ x.active, inBudget x o.1 o.2 p = true
    let mapped := ∀ o ∈ os, ∀ p ∈ x.active, readable x o.1 o.2 p = true
    let forbidden := ∃ n p, d = .v n ∧ p ∈ x.active ∧ inRestartable x.grp p.1 = true
    (Traps s g x → ¬inB → TrapTaken (r.1 d a b g) s x .illOperand) ∧
    (Traps s g x → inB → ¬mapped → TrapTaken (r.1 d a b g) s x .unmappedSlot) ∧
    (Traps s g x → inB → mapped → forbidden → TrapTaken (r.1 d a b g) s x .illXregWrite) ∧
    (Issues s g x → (∃ p ∈ x.active, (x.crew.thread p).handler = true) → inB → ¬mapped →
      ∃ t d', exec (r.1 d a b g) s = .next t ∧ Map.find? t.grids x.crew.grid = some d' ∧
        d'.stopped = some (x.grid.stopped.getD .failed) ∧ d'.first = some (x.grid.first.getD .trapNested) ∧
        ∀ n c, Map.find? t.crews n = some c → c.grid ≠ x.crew.grid)

/-- R62, R206: TRET sends its active threads, all in the handler, back: TRET.RETRY to the instruction that trapped, TRET.NEXT to the
one after it; the other threads go to the next clause. -/
def Obligations.TrapReturn : Prop :=
  ∀ (retry : Bool) (g : Guard) (s : State) (x z : Iss) (s1 : State), Issues s g x →
    (∀ p ∈ x.active, (x.crew.thread p).handler = true) → x.endRegion (lanesIn x.present) s = .ok (z, s1) →
    ∃ t, exec (if retry then .tretRetry g else .tretNext g) s = .next t ∧
      (∀ p ∈ x.active, let th := t.threadAt x.cur.crew p
        let u := x.crew.thread p
        th.handler = false ∧ (th.clause, th.index) = if retry then (u.trapPc, u.trapRetry) else u.trapNext) ∧
      (∀ p ∈ x.present, p ∉ x.active → (t.threadAt x.cur.crew p).clause = after x ∧ (t.threadAt x.cur.crew p).index = 1) ∧
      (∀ p, p ∉ x.present → t.threadAt x.cur.crew p = s.threadAt x.cur.crew p) ∧ FilesKept t x.cur.crew z.crew ∧ SameMemory s1 t

/-- R46, R70, R72, R194, R195: RGN and RGNR end the open region and open one whose slot i holds main register 8·base + i of each
lane, for the mask's set bits, and no other slot, where its issue group holds a fast buffer for each open region. RGNE leaves its threads
outside any region. -/
def Obligations.Regions : Prop :=
  (∀ (restart : Bool) (base : Fin 32) (mask : Operand) (nra : Bool) (g : Guard) (s : State) (x z : Iss) (s1 : State) (l : Nat × Nat),
    Issues s gAlways x → x.active = x.present → l ∈ x.present → (∀ p ∈ x.present, l.1 ≤ p.1) →
    (∀ p ∈ x.present, x.grp.homeAt p.1 = p.2) →
    let m := val32 x mask l
    (∀ i, m.getLsbD i = true → 8 * base.val + i < roleBudget x.crew x.grp.role) →
    x.endRegion (lanesIn x.present) s = .ok (z, s1) → JoinsFit s1.osets →
    (openedMaps z.crew z.grp [{ base := base.val, mask := m, maskSet := regSet x mask 0 l, restartable := restart || x.isH, nra := nra }]).length ≤
      (buffersHeld (s.core x.crew.core) x.cur.crew x.grp.family).length →
    ∃ t y, exec (if restart then .rgnr base mask nra g else .rgn base mask nra g) s = .next t ∧ t.context x.cur = some y ∧
      (∀ p ∈ x.present, ∀ i, i < 32 → y.cell (.slot p.1 i) =
        if m.getLsbD i then z.cell (.main p.2 (8 * base.val + i) p.1) else none) ∧
      (∀ sh r q, y.cell (.main sh r q) = z.cell (.main sh r q)) ∧
      (∀ p ∈ x.present, inRestartable y.grp p.1 = (restart || x.isH)) ∧ SameMemory s1 t) ∧
  (∀ (g : Guard) (s : State) (x z : Iss) (s1 : State), Issues s gAlways x → endOutside x s = .ok (z, s1) →
    ∃ t, exec (.rgne g) s = .next t ∧ FilesKept t x.cur.crew z.crew ∧ SameMemory s1 t ∧
      ∀ w q, Map.find? t.crews x.cur.crew = some w → Map.find? w.groups x.cur.group = some q →
        ∀ p ∈ x.present, regionOf q p.1 = none)

/-- R41, R42: a home sheaf's arrival counts one; the arrival that makes the count the expected one completes the phase: the phase
bit flips, the drops come off the expected count, and the arrivals start again at 0. A second arrival of one phase, or one at a
barrier that expects none, is refused, and so is a drop beyond the expected count. -/
def Sys2Proof.Claims.BarrierArrivalRule : Prop :=
  ∀ (b : Barrier) (h : Nat) (drop : Bool),
    (b.expect = 0 ∨ h ∈ b.sheaves → b.check h drop = some .barOverarrive) ∧
    (b.expect ≠ 0 → h ∉ b.sheaves → drop = true → b.expect ≤ b.drops → b.check h drop = some .barDropUnderflow) ∧
    (b.expect ≠ 0 → h ∉ b.sheaves → (drop = true → b.drops < b.expect) → b.check h drop = none ∧
      ∃ c, b.count h drop = c ∧
        (b.arrived + 1 ≠ b.expect → c.arrived = b.arrived + 1 ∧ c.phase = b.phase ∧ c.phases = b.phases ∧ c.expect = b.expect ∧
          h ∈ c.sheaves ∧ c.drops = b.drops + if drop then 1 else 0) ∧
        (b.arrived + 1 = b.expect → c.arrived = 0 ∧ c.phase = !b.phase ∧ c.phases = b.phases + 1 ∧ c.sheaves = [] ∧ c.drops = 0 ∧
          c.expect = b.expect - (b.drops + if drop then 1 else 0)))

/-- R42, R43, R198, R199: BARA and BARD arrive and go past; BARS arrives, and goes past where its phase completes and else waits;
BARW goes past where its phase has completed and else waits. -/
def Sys2Proof.Claims.BarrierInstructions : Prop :=
  (∀ (drop : Bool) (b : Fin 16) (g : Guard) (s : State) (x z : Iss) (s1 : State) (br : Barrier), Commits s g x z s1 →
    x.active ≠ [] → arriveThreads z.crew (z.crew.barrier b) x.active drop = .ok br → release s1 z .crew = .inl s1 →
    ∃ t y, Filed (if drop then .bard b g else .bara b g) s s1 t x z y [] none ∧ y.crew.barrier b = br ∧
      ∀ k, k ≠ b.val → y.crew.barrier k = z.crew.barrier k) ∧
  (∀ (b : Fin 16) (g : Guard) (s : State) (x z : Iss) (s1 : State) (br : Barrier), Commits s g x z s1 →
    x.active ≠ [] → (∀ p ∈ x.active, (x.crew.thread p).barWait = none) →
    arriveThreads z.crew (z.crew.barrier b) x.active false = .ok br → release s1 z .crew = .inl s1 →
    ((∀ p ∈ x.active, arrivedTarget (z.crew.barrier b) br p ≤ br.phases) →
      ∃ t y, Filed (.bars b g) s s1 t x z y [] none ∧ y.crew.barrier b = br ∧
        ∀ p ∈ x.active, (y.crew.thread p).barWait = none) ∧
    ((∃ p ∈ x.active, br.phases < arrivedTarget (z.crew.barrier b) br p) →
      ∃ t y, exec (.bars b g) s = .next t ∧ t.context x.cur = some y ∧ y.crew.barrier b = br ∧ y.grp.wait = .bar b ∧
        (∀ c, y.cell c = z.cell c) ∧
        ∀ p ∈ x.active, (y.crew.thread p).barWait = some (b.val, arrivedTarget (z.crew.barrier b) br p))) ∧
  (∀ (b : Fin 16) (g : Guard) (s : State) (x z : Iss) (s1 : State), Commits s g x z s1 → x.active ≠ [] →
    (∀ p ∈ x.active, (x.crew.thread p).barWait = none) → threadLoadsDue s1 z.cur.crew s1.seq z.present = false →
    let br := z.crew.barrier b
    ((∀ p ∈ x.active, waitTarget br p ≤ br.phases) →
      ∃ t y, Filed (.barw b g) s s1 t x z y [] none ∧ y.crew.barrier b = br) ∧
    ((∃ p ∈ x.active, br.phases < waitTarget br p) →
      ∃ t y, exec (.barw b g) s = .next t ∧ t.context x.cur = some y ∧ y.grp.wait = .bar b ∧ y.crew.barrier b = br ∧
        ∀ c, y.cell c = z.cell c))

/-- The descriptor that a LAUNCH acts on, the sets of its granules, and the state: what it has read already while it waited, or what it
reads now, no line missing and its turn come. -/
def Sys2Proof.Claims.DescriptorRead (s1 : State) (x z : Iss) (l : Nat × Nat) (a : Operand) (bs : List Byte) (sets : List OSet) (v : State) : Prop :=
  (x.heldDesc = some (bs, sets) ∧ v = s1) ∨
  (x.heldDesc = none ∧ ∃ as s2, descAccs s1 x l (val64 x a l).toNat = .ok (as, s2) ∧ missKeys s2 x.crew.core as = [] ∧
    gateDesc s2 x.grid.vf as = some v ∧ bs = (as.flatMap fun q => readAcc (z.put v) x.cur.crew x.crew.core x.grid.vf v.seq q) ∧
    sets = as.map fun q => accSet v x.cur.crew q)

/-- R23, R200: LAUNCH is refused, its checks made in this order: a malformed hint takes ILL_OPERAND; a grid at depth 10 LAUNCH_DEPTH; an
address that is no multiple of 64 MISALIGNED; a descriptor, read by loads of the lowest active lane (the model's choice, assumption 70), that
breaks the rules LAUNCH_DESC; a hint the place table lacks REMOTE_UNREACHABLE. -/
def Sys2Proof.Claims.LaunchRefusals : Prop :=
  ∀ (d a b : Operand) (g : Guard) (s : State) (x z : Iss) (s1 : State) (l : Nat × Nat), Traps s g x → Commits s g x z s1 →
    Operable x [(a, 2), (b, 1)] d 2 → lowActive x = some l →
    let hint := (val32 x b l).toNat
    let wellFormed := hint = 0 ∨ hint / 4096 = 1
    let at64 := (val64 x a l).toNat % 64 = 0
    (¬wellFormed → TrapTaken (.launch d a b g) s x .illOperand) ∧
    (wellFormed → x.grid.depth = 10 → TrapTaken (.launch d a b g) s x .launchDepth) ∧
    (wellFormed → x.grid.depth ≠ 10 → ¬at64 → TrapTaken (.launch d a b g) s x .misaligned) ∧
    ∀ bs sets v, wellFormed → x.grid.depth ≠ 10 → at64 → Claims.DescriptorRead s1 x z l a bs sets v →
      let desc := Desc.read bs
      (childOk x desc = false → TrapTaken (.launch d a b g) s x .launchDesc) ∧
      (childOk x desc = true → hint ≠ 0 → Map.has (v.vf x.grid.vf).placeClu (hint % 4096) = false →
        TrapTaken (.launch d a b g) s x .remoteUnreachable)

/-- R23, R200, R201: LAUNCH with a good descriptor, read by loads of the lowest active lane (the model's choice, assumption 70), takes the
next grid number (assumption 26), makes the child known to its crew and its parent,
and gives its number to D; JOINC goes past once none of the crew's children is left, and else waits for those there are. -/
def Sys2Proof.Claims.LaunchesAndJoins : Prop :=
  (∀ (d a b : Operand) (g : Guard) (s : State) (x z : Iss) (s1 s3 : State) (l : Nat × Nat) (bs : List Byte) (sets : List OSet)
    (set : OSet) (tab : Map OEntry) (v : State), Commits s g x z s1 → Operable x [(a, 2), (b, 1)] d 2 → lowActive x = some l →
    hintOk (val32 x b l).toNat = true → x.grid.depth ≠ 10 → (val64 x a l).toNat % 64 = 0 →
    Claims.DescriptorRead s1 x z l a bs sets v →
    let desc := Desc.read bs
    childOk x desc = true →
    ((val32 x b l).toNat = 0 ∨ Map.has (v.vf x.grid.vf).placeClu ((val32 x b l).toNat % 4096) = true) →
    osJoinAll v.osets 0 (resultSets x x.active [(a, 2), (b, 1)] [] false g ++ sets) = .ok (set, tab) →
    release { v with osets := tab } z .dev = .inl s3 → JoinsFit s3.osets → gridRoom s3 x.grid.vf = true →
    s3.nextGrid ≠ x.crew.grid →
    ∃ t y, exec (.launch d a b g) s = .next t ∧ t.context x.cur = some y ∧
      Committed x z y d [BitVec.ofNat 32 s3.nextGrid, BitVec.ofNat 32 (s3.nextGrid / 2 ^ 32)] ∧
      t.nextGrid = s3.nextGrid + 1 ∧ y.crew.children = z.crew.children ++ [s3.nextGrid] ∧
      ∃ ch, Map.find? t.grids s3.nextGrid = some ch ∧ ch.desc.entry = desc.entry ∧ ch.vf = z.grid.vf ∧ ch.depth = z.grid.depth + 1 ∧
        ch.parent = some x.cur.crew) ∧
  (∀ (g : Guard) (s : State) (x z : Iss) (s1 : State), Commits s gAlways x z s1 → x.grp.wait = .none →
    (z.crew.children = [] → threadLoadsDue s1 z.cur.crew s1.seq z.present = false →
      ∃ t y, exec (.joinc g) s = .next t ∧ t.context x.cur = some y ∧ (∀ c, y.cell c = z.cell c) ∧ SameMemory s1 t ∧
        t.ops = s1.ops) ∧
    (z.crew.children ≠ [] → (∀ p ∈ x.present, (z.crew.thread p).joinWait = none) →
      ∃ t y, exec (.joinc g) s = .next t ∧ t.context x.cur = some y ∧ y.grp.wait = .joinc z.crew.children ∧
        ∀ c, y.cell c = z.cell c))

/-- R58, R202: MIGR of a solo crew with no flag up goes past where the address it names is homed on its own die or on a peer, and
else stands ready to land on the home die. -/
def Obligations.Migration : Prop :=
  ∀ (a : Operand) (g : Guard) (s : State) (x z : Iss) (s1 s2 : State) (l : Nat × Nat) (pl : Place), Commits s g x z s1 →
    Operable x [(a, 2)] .z 0 → lowActive x = some l → soloCrew x.crew x.grid = true →
    placeOf s1 x.crew.core x.grid (val64 x a l).toNat 1 true = .ok (pl, s2) →
    (∀ f ∈ (z.crew.sheaf l.2).flags, f.2 = 0) →
    ((pl.dev ≠ 0 ∨ homeDie s2 x.grid.vf pl.pa = dieOf x.crew.core) → ∃ t y, Filed (.migr a g) s s2 t x z y [] none) ∧
    (pl.dev = 0 → homeDie s2 x.grid.vf pl.pa ≠ dieOf x.crew.core → inHandler z.crew = false →
      ∃ t y, exec (.migr a g) s = .next t ∧ t.context x.cur = some y ∧ y.grp.wait = .landing (homeDie s2 x.grid.vf pl.pa) ∧
        ∀ c, y.cell c = z.cell c)

/-! ## Events of crews and clauses (02_execution.md, 14_scheduling.md, 16_partitions.md) -/

namespace Sys2Proof.Claims

/-- An instruction or event answers a next state of which something holds. -/
def Gives (i : Instr) (s : State) (p : State → Prop) : Prop := ∃ t, exec i s = .next t ∧ p t

/-- A crew of a state has something true of it. -/
def CrewNow (t : State) (n : Nat) (p : Crew → Prop) : Prop := ∃ c, Map.find? t.crews n = some c ∧ p c

/-- An issue group of a state has something true of it. -/
def GroupNow (t : State) (n grp : Nat) (p : Group → Prop) : Prop := CrewNow t n fun c => ∃ g, Map.find? c.groups grp = some g ∧ p g

/-- No thread has moved, and no register of a crew has changed. -/
def CrewsStand (s t : State) : Prop :=
  (∀ n p, t.threadAt n p = s.threadAt n p) ∧ ∀ n h, (t.sheafAt n h).files = (s.sheafAt n h).files

/-- What a trap of a group that stands at a clause or in an instruction needs. -/
structure Trappable (s : State) (x : Iss) : Prop where
  joins : JoinsFit s.osets
  some : x.present ≠ []
  lanes : (lanesIn x.present).Nodup
  inSheaf : ∀ p ∈ x.present, p.2 < x.crew.sheaves.length
  inThread : ∀ p ∈ x.present, p.1 < (x.crew.sheaf p.2).threads.length
  handler : x.grid.desc.handler ≠ 0
  outside : ∀ p ∈ x.present, (x.crew.thread p).handler = false
  unheld : ∀ r ∈ x.grp.regions, r.held = []
  plain : x.grp.episode = none

end Sys2Proof.Claims

namespace Sys2Proof.Claims

/-- An access of n bytes to the shared space, outside the register window (R111): where a lane's bytes lie outside the scratchpad the threads
take SCRATCH_RANGE, where a lane's address is no multiple of n MISALIGNED. With lanes of both kinds the model takes the lowest one's cause
(assumption 11), of which this says nothing. -/
def SharedTraps (i : Instr) (n : Nat) (os : List (Operand × Nat)) (d : Operand) (dn : Nat) (a b : Operand) (g : Guard) : Prop :=
  ∀ (s : State) (x : Iss), Traps s g x → Operable x os d dn →
    let v := addrAt x a b
    let outside := fun p => v p < 2 ^ 20 ∧ x.grid.desc.scratch < v p + n ∨ 2 ^ 21 ≤ v p
    let off := fun p => v p + n ≤ x.grid.desc.scratch ∧ v p % n ≠ 0
    (∀ p ∈ x.active, v p < 2 ^ 20 ∨ 2 ^ 21 ≤ v p) →
    ((∃ p ∈ x.active, outside p) → (∀ p ∈ x.active, ¬(off p ∧ ¬outside p)) → TrapTaken i s x .scratchRange) ∧
    ((∃ p ∈ x.active, off p) → (∀ p ∈ x.active, ¬outside p) → TrapTaken i s x .misaligned)

/-- An access of n bytes to generic memory (R57, R110, R260, R348): addresses of 2^57 and more take PAGE_RIGHTS; a single lane's address
that translates and is no multiple of n takes MISALIGNED; a single lane's absent page starts a fault runahead that has collected that
page where a shadow is free and its region allows it, and else stops the group, which waits for the batch of that page, moves no thread and
performs nothing. -/
def GenericTraps (i : Instr) (n need : Nat) (write : Bool) (os : List (Operand × Nat)) (d : Operand) (dn : Nat) (a b : Operand)
    (g : Guard) : Prop :=
  (∀ (s : State) (x : Iss), Traps s g x → Operable x os d dn → (∀ p ∈ x.active, 2 ^ 57 ≤ addrAt x a b p) → TrapTaken i s x .pageRights) ∧
  (∀ (s : State) (x : Iss) (p : Nat × Nat) (set : OSet) (tab : Map OEntry) (pl : Place) (s1 : State), Traps s g x → Operable x os d dn →
    x.active = [p] → osJoinAll s.osets 0 (resultSets x x.active os [] false g) = .ok (set, tab) →
    placeOf { s with osets := tab } x.crew.core x.grid (addrAt x a b p) need true = .ok (pl, s1) → addrAt x a b p % n ≠ 0 →
    TrapTaken i s x .misaligned) ∧
  ∀ (s : State) (x : Iss) (p : Nat × Nat) (set : OSet) (tab : Map OEntry), Issues s g x → Operable x os d dn → x.active = [p] →
    osJoinAll s.osets 0 (resultSets x x.active os [] false g) = .ok (set, tab) →
    placeOf { s with osets := tab } x.crew.core x.grid (addrAt x a b p) need true = .error .absent →
    let page := addrAt x a b p / 65536 * 65536
    ((shadowFree s x = false ∨ noRunahead x = true) → ∃ t key, exec i s = .next t ∧ SameMemory s t ∧ t.ops = s.ops ∧ CrewsStand s t ∧
      GroupNow t x.cur.crew x.cur.group (fun q => q.wait = .fault key) ∧
      Map.find? t.batches key = some { vf := x.grid.vf, grid := x.crew.grid, crew := x.cur.crew, group := some x.cur.group, op := none,
                                       part1 := true, part2 := false } ∧
      (∃ h l, (t.vf x.grid.vf).fq.waiting = (s.vf x.grid.vf).fq.waiting ++ [[h, l]] ∧ h.count = 1 ∧ h.index = x.cur.index ∧
        h.clause = x.cur.addr ∧ h.va = dword (addrAt x a b p) ∧ l.pages = [dword (page + (if write then 2 else 0) + 1)]) ∧
      ∃ q, Map.find? t.grids x.crew.grid = some q ∧ q.faults = x.grid.faults + 1) ∧
    (shadowFree s x = true → noRunahead x = false → ∃ t, exec i s = .next t ∧ SameMemory s t ∧ t.ops = s.ops ∧ CrewsStand s t ∧
      GroupNow t x.cur.crew x.cur.group fun q => ∃ e, q.episode = some e ∧ e.pages = [(false, page, write, false)] ∧
        ∃ f, e.fault = some f ∧ f.cause = .pageAbsent ∧ f.index = x.cur.index)

end Sys2Proof.Claims

/-- R57, R110, R111, R260, R348: the loads and stores of the shared space and of generic memory trap, or wait for an absent page. -/
def Sys2Proof.Claims.MemoryTraps : Prop :=
  (∀ sz d a b g, SharedTraps (.lds sz d a b g) (ldBytes sz) [(a, 2), (b, 1)] d sz.regs a b g) ∧
  (∀ sz d a b g, SharedTraps (.sts sz d a b g) (stBytes sz) [(d, sz.regs), (a, 2), (b, 1)] .z 0 a b g) ∧
  (∀ sz c o d a b g, GenericTraps (.ld sz c o d a b g) (ldBytes sz) 1 false [(a, 2), (b, 1)] d sz.regs a b g) ∧
  (∀ sz c o d a b g, GenericTraps (.st sz c o d a b g) (stBytes sz) 2 true [(d, sz.regs), (a, 2), (b, 1)] .z 0 a b g)

/-- R49, R57, R64, R70, R73, R110, R111, R260, R348, R356: the registers an instruction of two sources names and the addresses a load or store
names, where they trap. -/
def Obligations.OperandTraps : Prop := Sys2Proof.Claims.RegisterTraps ∧ Sys2Proof.Claims.MemoryTraps

/-- R29, R31, R36, R85, R162: CLAUSE_FETCH reads the clause a group stands at, what reconverges there reconverged; CLAUSE_START starts the clause of the group the selector
chooses, at the index its threads stand at, and no other instruction of it has run; packing puts every thread that stands at a region
head into exactly one formed sheaf, at its own lane position. -/
def Obligations.ClausesAreFetchedAndStarted : Prop :=
  (∀ (crew group : Nat) (s s1 : State) (x : Iss) (h : Word) (ws : List Word),
    let s0 := reconvergeAt s crew group
    startIss (s0.enterEpisode crew group) crew group = some x → x.grp.episode = none → x.grp.active = none → x.grp.wait = .none →
    x.crew.st = .resident → x.grp.clause x.crew = none →
    codeClause (s0.enterEpisode crew group) x.crew.core x.grid x.cur.addr.toNat true = .ok (h, ws, s1) →
    Gives (.clauseFetch crew group x.cur.addr) s fun t =>
      GroupNow t crew group (fun g => g.fetched = some (x.cur.addr, h :: ws) ∧ g.active = none) ∧ CrewsStand s0 t ∧ SameMemory s1 t) ∧
  (∀ (crew role : Nat) (s : State) (c : Crew) (q : Nat × Group × Nat) (x : Iss) (h : Word) (ws : List Word),
    Map.find? s.crews crew = some c → c.st = .resident → (∀ p ∈ c.groups, p.2.episode = none) → roleBusy c role = false →
    choose c role = some q → startIss s crew q.1 = some x → x.grp.clause x.crew = some (h, ws) → (regionHead h ws = false) →
    headerCause h = none → c.posted = [] →
    (∀ p ∈ c.groups, p.1 ≠ q.1 → standsAt c role x.cur.addr p.2 = false ∧ ∀ m ∈ x.present, m ∉ p.2.members) →
    Gives (.clauseStart crew role) s fun t =>
      GroupNow t crew q.1 (fun g => g.active = some
        { addr := x.cur.addr, hdr := h, words := ws, lanes := lanesIn x.present,
          index := ((x.present.head?).map fun p => (x.crew.thread p).index).getD 1 }) ∧
      (∀ n hh, (t.sheafAt n hh).files = (s.sheafAt n hh).files) ∧
      (∀ n p, (t.threadAt n p).clause = (s.threadAt n p).clause ∧ (t.threadAt n p).index = (s.threadAt n p).index) ∧ SameMemory s t) ∧
  ∀ (ps : List (Nat × Nat)), ps.Nodup → (∀ p ∈ ps, p.1 < 32 ∧ p.2 < 32) →
    (∀ p ∈ ps, ∃ m ∈ formSheaves ps, p ∈ m) ∧ (∀ m ∈ formSheaves ps, (lanesIn m).Nodup ∧ ∀ p ∈ m, p ∈ ps) ∧
    (formSheaves ps).Pairwise (fun a b => ∀ p ∈ a, p ∉ b)

/-- R40, R52, R53, R55: the watchdog of a blocked group traps every thread of it, at the clause that waits or in the instruction that
waits; an episode starts at the blocked clause with a shadow buffer, or is given up where none is free; at 512 instructions it
ends and leaves the group as it was.
(The index 0 reported of a clause that waits, and that an episode with no clause ahead is given up, are the model's choices: assumptions 34
and 68.) -/
def Obligations.StallsAndRunahead : Prop :=
  (∀ (crew group : Nat) (s : State) (x : Iss) (h : Word) (ws : List Word), let s0 := reconvergeAt s crew group
    startIss s0 crew group = some x → Trappable s0 x →
    x.crew.st = .resident → x.grp.halted = false → copyAwaits s0 crew (homesOf x.present) (awaited x) = false →
    x.grp.active = none → x.grp.wait = .none → x.grp.clause x.crew = some (h, ws) → maskMet x.crew x.grp h = false →
    Gives (.stallTimeout crew group) s fun t => (∀ p ∈ x.present, InHandler t x .stallTimeout 0 p) ∧ SameButTrace 6 s t) ∧
  (∀ (crew group : Nat) (s : State) (x : Iss) (a : ActiveClause), let s0 := reconvergeAt s crew group
    startIss s0 crew group = some x → Trappable s0 (waitingIss x a) →
    x.crew.st = .resident → x.grp.halted = false → copyAwaits s0 crew (homesOf x.present) (awaited x) = false →
    x.grp.active = some a → watched x.grp.wait = true →
    Gives (.stallTimeout crew group) s fun t =>
      (∀ p ∈ (waitingIss x a).present, InHandler t (waitingIss x a) .stallTimeout (waitingIss x a).cur.index p) ∧ SameButTrace 6 s t) ∧
  (∀ (crew group : Nat) (s : State) (x : Iss) (qd : Nat), startIss s crew group = some x →
    x.crew.st = .resident → x.grp.halted = false → x.grp.episode = none →
    x.grp.ranWait = false → x.grp.noShadow = false → bitOf x.grid.desc.flags 1 = true → noRunahead x = false → x.grp.quad = some qd →
    missBlocked s x (awaited x) = true →
    (∀ a, shadowFree s x = true → aheadClause x = some a →
      Gives (.runaheadStart crew group) s fun t =>
        GroupNow t crew group (fun g => g.ranWait = true ∧ ∃ e, g.episode = some e ∧ e.inUse = false ∧ e.count = 0 ∧ e.fault = none ∧
          e.active = some a ∧ e.lanes = a.lanes) ∧
        (∀ i, freeShadow (s.core x.crew.core) qd = some i → Map.find? (t.core x.crew.core).shadows i = some (crew, group)) ∧
        CrewsStand s t ∧ SameMemory s t) ∧
    (shadowFree s x = true → aheadClause x = none →
      Gives (.runaheadStart crew group) s fun t =>
        GroupNow t crew group (fun g => g.episode = none ∧ g.ranWait = true) ∧ CrewsStand s t ∧ SameMemory s t) ∧
    (shadowFree s x = false →
      Gives (.runaheadStart crew group) s fun t =>
        GroupNow t crew group (fun g => g.episode = none ∧ g.noShadow = true) ∧ CrewsStand s t ∧ SameMemory s t)) ∧
  ∀ (crew group : Nat) (s : State) (e : Episode), s.episode crew group = some e → e.inUse = false → 512 ≤ e.count →
    Gives (.runaheadInstructionLimit crew group) s fun t =>
      t.episode crew group = none ∧ CrewsStand s t ∧ SameMemory s t ∧
        ∀ c, Map.find? s.crews crew = some c → ∀ p ∈ (t.core c.core).shadows, p.2 ≠ (crew, group)

/-- R30, R71, R429, R50, R370, R334, R335: a fast buffer goes to the group that ranks highest; where none is free an H group is sent
back and gives its buffer to a waiting G group; an H crew whose turn it is to give way begins to spill and is then evicted; a
pre-empted crew that has come to rest is saved; a saved or evicted crew whose turn it is is restored on the core chosen for it.
(What is saved beside R336's record, at which rest, and what of it the device reads back are the model's choices: assumptions 42 and 80.) -/
def Obligations.CrewsLeaveAndReturn : Prop :=
  (∀ (core quad i : Nat) (s : State) (q : Nat × Nat × Crew × Group), quad < 4 → freeBufferOf (s.core core) quad = some i →
    leastBy (groupRank s) (bufferWaiters s core quad) = some q → Map.find? s.crews q.1 = some q.2.2.1 →
    Map.find? q.2.2.1.groups q.2.1 = some q.2.2.2 →
    Gives (.fastBufferAssign core quad) s fun t =>
      Map.find? (t.core core).buffers i = some (q.1, q.2.2.2.family) ∧
      GroupNow t q.1 q.2.1 (fun g => g.wait = .none ∧ g.quad = some quad) ∧ CrewsStand s t ∧ SameMemory s t) ∧
  (∀ (core quad i : Nat) (s s1 : State) (q v : Nat × Nat × Crew × Group), freeBufferOf (s.core core) quad = none →
    leastBy (groupRank s) ((bufferWaiters s core quad).filter fun q => !crewIsH s q.2.2.1) = some q →
    mostBy (groupRank s) (recallable s core quad) = some v →
    rollback s v.1 ((v.2.2.1.groups.filter fun g => g.2.family == v.2.2.2.family).map Prod.fst) = .ok s1 →
    freeBufferOf (s1.core core) quad = some i →
    Gives (.fastBufferRecall core quad) s fun t =>
      Map.find? (t.core core).buffers i = some (q.1, q.2.2.2.family) ∧ CrewsStand s1 t ∧ SameMemory s1 t) ∧
  (∀ (crew : Nat) (s s1 : State) (w w1 : Crew) (g g1 : Grid) (r : Nat × Nat), s.gridOf crew = some (w, g) →
    dispatchVictim s = some crew ∨ crew ∈ cmdVictims s →
    bitOf g.desc.flags 0 = true → w.st = .resident ∨ w.st = .stopping ∨ w.st = .stopped → rollback s crew (Map.keys w.groups) = .ok s1 →
    (saveCopies (dropCrewBuffers s1 crew) crew).gridOf crew = some (w1, g1) →
    saveRoom (saveCopies (dropCrewBuffers s1 crew) crew) crew w1 g1 = some r →
    Gives (.hSheafEviction crew) s fun t =>
      CrewNow t crew (fun c => c.st = .spilling ∧ c.requeued = true ∧ c.saveAt = some r) ∧
      (∃ e, t.hfq.waiting = s1.hfq.waiting ++ [[e]] ∧ e.cause = 0x183 ∧ e.vf = g1.vf) ∧ CrewsStand s1 t ∧ SameMemory s1 t) ∧
  (∀ (crew : Nat) (s : State) (w : Crew), Map.find? s.crews crew = some w → w.st = .spilling → engineDue s crew = false → badImage s crew = false →
    Gives (.medlarSpillDone crew) s fun t => CrewNow t crew (fun c => c.st = .evicted ∧ c.landed = false) ∧ CrewsStand s t) ∧
  (∀ (crew : Nat) (s : State) (w w1 : Crew) (g1 : Grid) (r : Nat × Nat), Map.find? s.crews crew = some w → w.st = .draining →
    crewStill (settleCrew s crew) crew = true → (settleCrew s crew).gridOf crew = some (w1, g1) →
    badImage (settleCrew s crew) crew = false → saveRoom (settleCrew s crew) crew w1 g1 = some r →
    Gives (.preemptionSaveDone crew) s fun t =>
      CrewNow t crew (fun c => c.st = .saved ∧ c.requeued = true ∧ c.saveAt = some r ∧ c.landed = false) ∧
      CrewsStand (settleCrew s crew) t) ∧
  ∀ (crew core : Nat) (s s1 : State) (c : Cand) (d : Map Nat), let s0 := { s with free := s.free + 1 }
    dispatchChoice s0 = some (c, d) → resumesNext s0 crew core c = true → Map.find? s.crews crew = some c.crew →
    (moveOrder s0 c.crew.core core).2 = true → badRecord (moveOrder s0 c.crew.core core).1 c.crew c.grid = false →
    rebuildExtents (moveOrder s0 c.crew.core core).1 c.crew.grid c.grid = some s1 →
    let v := (readBack s1 crew c.crew c.grid).2
    Gives (.crewResume crew core) s fun t =>
      CrewNow t crew (fun c => c.st = .resident ∧ c.core = core ∧ c.saveAt = none ∧ c.requeued = false ∧
        ∀ p ∈ c.groups, p.2.halted = false ∧ p.2.active = none ∧ p.2.fetched = none) ∧
      (∀ p, t.threadAt crew p = v.thread p) ∧ (∀ h, (t.sheafAt crew h).files = (v.sheaf h).files) ∧ SameButTrace 1 s1 t

/-- R59, R25, R326, R327, R331: a migrating crew moves to a landing slot of the target die and goes on after its MIGR; CREW_DISPATCH starts the crew it
chooses on a core with room; the end of a time slice halts the G crews of the pool's current partition and gives the pool to the
next; a crew whose threads have exited retires.
(Which partition's turn follows, and the weights of processes in the choice, are the model's choices: assumptions 3, 14 and 27.) -/
def Obligations.CrewsAreDispatchedAndRetire : Prop :=
  (∀ (crew core d : Nat) (s : State) (w : Crew) (g : Grid), let s0 := (Map.keys w.groups).foldl (fun s n => s.leaveEpisode crew n) s
    s.gridOf crew = some (w, g) → landingDie w = some d → w.st = .resident →
    dieOf core = d → core < 256 → (∀ h ∈ w.sheaves, ∀ f ∈ h.flags, f.2 = 0) → inHandler w = false → storesLeft s crew w = false → opsDone s crew = true →
    (usableClusters s g.vf (bitOf g.desc.flags 0)).contains (clusterOf core) = true → landingFree s crew w core = true →
    (∀ p ∈ w.groups, restsToMove p.2 = true) → (moveOrder s0 w.core core).2 = true →
    Gives (.migrationMove crew core) s fun t =>
      CrewNow t crew (fun c => c.core = core ∧ c.landed = true ∧ c.st = .resident ∧
        ∀ p ∈ c.groups, p.2.active = none ∧ (p.2.wait = .none ∨ ∃ key, p.2.wait = .fault key)) ∧
      (∀ n h, (t.sheafAt n h).files = (s.sheafAt n h).files) ∧ SameMemory s t ∧
      ∀ n q a, landingGroups w = [n] → Map.find? w.groups n = some q → q.episode = none → q.active = some a →
        (∀ p, (∀ l ∈ a.lanes, p ≠ (l, q.homeAt l)) → t.threadAt crew p = s.threadAt crew p) ∧
        ∀ l ∈ a.lanes, let p := (l, q.homeAt l)
          p.2 < w.sheaves.length → l < (w.sheaf p.2).threads.length →
          let nx := a.index + groupLen .S (a.words.drop (a.index - 1))
          ((t.threadAt crew p).clause, (t.threadAt crew p).index) =
            if nx ≤ a.hdr.toNat % 16 then ((w.thread p).clause, nx)
            else (a.addr + BitVec.ofNat 64 (4 * (a.hdr.toNat % 16 + 1)), 1)) ∧
  (∀ (s : State) (c : Cand) (d : Map Nat) (k : Nat),
    let s0 := { s with free := s.free + 1 }
    dispatchChoice s0 = some (c, d) → c.fresh = true →
    chooseCore s0 c.gid c.grid c.cores = some k → fitsNow s0 c.n c.crew k = true → Map.find? s.grids c.gid = some c.grid →
    Gives .crewDispatch s fun t =>
      CrewNow t c.n (fun w => w.st = .resident ∧ w.core = k ∧ w.grid = c.crew.grid ∧ w.index = c.crew.index) ∧ t.nextCrew = c.n + 1 ∧
      (∃ g, Map.find? t.grids c.gid = some g ∧ g.next = c.grid.next + 1 ∧ g.start = some (c.grid.start.getD s.gtime)) ∧
      (t.vf c.grid.vf).deficit = d ∧ SameButTrace 1 s t) ∧
  (∀ (s : State), Gives .timeSliceEnd s fun t => t.poolTurn = nextTurn s ∧ SameMemory s t ∧
    (poolPart s s.poolTurn = true → Map.wf s.crews = true → ∀ n w g, s.gridOf n = some (w, g) → g.vf = s.poolTurn →
      bitOf g.desc.flags 0 = false → w.st = .resident ∨ w.st = .stopping ∨ w.st = .stopped →
      CrewNow t n fun c => c.st = .draining ∧ ∀ p ∈ c.groups, p.2.halted = true)) ∧
  ∀ (crew : Nat) (s : State) (w : Crew) (g : Grid), s.gridOf crew = some (w, g) → crewOver s crew w = true →
    (startFlush s (dieOf w.core) false).2 = [] →
    Map.wf s.crews = true → settleGrid (retireCrew (startFlush s (dieOf w.core) false).1 crew w g) = none →
    Gives (.crewRetire crew) s fun t => Map.find? t.crews crew = none ∧
      (∃ g', Map.find? t.grids w.grid = some g' ∧ g'.retired = g.retired + 1 ∧ g'.hash = g.hash ^^^ exitedHash [w]) ∧
      (∀ o ∈ t.ops, o.2.crew ≠ crew) ∧ SameButTrace 2 s t

/-! ## Events of memory, copies, messages and the matrix engines (05_memory.md, 06_ordering.md, 11_isa_memory.md, 12_isa_matrix.md) -/

namespace Sys2Proof.Claims

/-- A completion flag of some home sheaves counts one down, and no other flag changes (02_execution.md R37). -/
def CountedDown (s t : State) (crew : Nat) (homes : List Nat) (f : Option Nat) : Prop :=
  ∀ h k, (t.sheafAt crew h).flag k = (s.sheafAt crew h).flag k - if f = some k ∧ h ∈ homes then 1 else 0

/-- An operation in flight of a resident crew, none of whose episodes has its copy in use. -/
structure Running (s : State) (op : Nat) (o : Op) (c : Crew) : Prop where
  here : Map.find? s.ops op = some o
  ops : Map.wf s.ops = true
  crew : Map.find? s.crews o.crew = some c
  resident : c.st = .resident
  homes : o.homes.Nodup
  outside : ∀ p ∈ c.groups, ∀ e, p.2.episode = some e → e.inUse = false

/-- An operation is over: it is gone, and its flag has counted down. -/
def Over (s t : State) (op : Nat) (o : Op) : Prop := Map.find? t.ops op = none ∧ CountedDown s t o.crew o.homes o.flag

/-- The word that a main register of a thread reads in a group: its slot where an open region maps it, else the main file. -/
def wordNow (c : Crew) (g : Group) (v : Nat) (p : Nat × Nat) : Option Word :=
  match xregSlot g p.1 v with
  | some j => (slotOf g p.1 j).map fun sl => laneGet sl.vals p.1 0
  | none => some ((c.sheaf p.2).mainAt v p.1)

/-- Threads that a result may be delivered to, in distinct places of one group each, with registers to take it. -/
structure Deliverable (c : Crew) (d : Dest) (vs : List ((Nat × Nat) × List Word)) : Prop where
  groups : Map.wf c.groups = true
  apart : ∀ n n' g g', Map.find? c.groups n = some g → Map.find? c.groups n' = some g' → n ≠ n' → ∀ p ∈ g.members, p ∉ g'.members
  lanes : ∀ n g, Map.find? c.groups n = some g → (lanesIn g.members).Nodup
  parts : ∀ n n' g g', Map.find? c.groups n = some g → Map.find? c.groups n' = some g' → n ≠ n' → g.family = g'.family →
    ∀ l ∈ lanesIn g.members, l ∉ lanesIn g'.members
  own : ∀ n g, Map.find? c.groups n = some g → ∀ r ∈ g.regions, ∀ l ∈ r.lanes, l ∈ lanesIn g.members
  threads : (vs.map Prod.fst).Nodup
  inLane : ∀ q ∈ vs, q.1.1 < 32 ∧ q.1.2 < c.sheaves.length
  regs : ∀ q ∈ vs, ∀ i, i < d.regs → ∀ v, d.mainReg q.1.1 i = some v → v < 256
  distinct : ∀ q ∈ vs, ∀ i j, i < d.regs → j < d.regs → d.mainReg q.1.1 i = d.mainReg q.1.1 j → d.mainReg q.1.1 i ≠ none → i = j
  mapped : ∀ n g, Map.find? c.groups n = some g → ∀ l v j, xregSlot g l v = some j → slotOf g l j ≠ none

end Sys2Proof.Claims

/-- R37, R47, R136, R258: a load that may be delivered leaves its words in its registers, or an LDK in its k registers, and is over,
its flag A counting down; an atomic and a phase arrival are over in the same way with the registers their old values give; the oldest
store of a core that may be performed leaves its order, its flag B counting down, and its core reads the bytes it has stored. -/
def Sys2Proof.Claims.LoadsAndStoresComeAbout : Prop :=
  (∀ (op : Nat) (s s1 : State) (o : Op) (c : Crew) (d : Dest) (vs : List ((Nat × Nat) × List Word)) (u : OSet) (tab : Map OEntry),
    Running s op o c → o.kind = .load d → o.sem = .rlx → opFlaw s op o = none → loadReady s o c.core = true → lostLines s o c.core = [] →
    loadResults s o c.core (whoActs s o.crew o.grid).2.1 d.signed = .ok (vs, u, tab) →
    deliverRegs { s with osets := tab } o.crew d vs u = .ok s1 →
    Gives (.loadDelivery op) s fun t => Over s t op o ∧ SameMemory s t ∧
      (Deliverable c d vs → Map.has s.grids c.grid = true → ∀ n g, Map.find? c.groups n = some g → ∀ q ∈ vs, q.1 ∈ g.members → ∀ i, i < d.regs →
        ∀ v, d.mainReg q.1.1 i = some v → CrewNow t o.crew fun w => ∃ g', Map.find? w.groups n = some g' ∧
          if d.commit then (w.sheaf q.1.2).mainAt v q.1.1 = (q.2[i]?).getD 0 else wordNow w g' v q.1 = some ((q.2[i]?).getD 0))) ∧
  (∀ (op k n : Nat) (s : State) (o : Op) (c : Crew) (vs : List ((Nat × Nat) × List Word)) (u : OSet) (tab : Map OEntry),
    Running s op o c → o.kind = .loadK k n → o.sem = .rlx → opFlaw s op o = none → loadReady s o c.core = true → lostLines s o c.core = [] →
    loadResults s o c.core (whoActs s o.crew o.grid).2.1 false = .ok (vs, u, tab) → (vs.map fun q => q.1.2).Nodup →
    Gives (.loadDelivery op) s fun t => Over s t op o ∧ SameMemory s t ∧
      ∀ q ∈ vs, q.1.2 < c.sheaves.length → ∀ i, i < q.2.length →
        Map.get (t.sheafAt o.crew q.1.2).k (k + i) 0 = (q.2[i]?).getD 0) ∧
  (∀ (op : Nat) (s s1 s2 : State) (o : Op) (c c1 : Crew) (r : RmwOp) (d : Dest) (vs cs olds : List Dword) (u : OSet) (tab0 tab : Map OEntry),
    Running s op o c → o.kind = .atom r d vs cs → o.sem = .rlx → opFlaw s op o = none → rmwReady s op o = true →
    tryRmw s o r vs cs (some d) = .ok tab0 → runRmw (withSets s o tab0) op o r vs cs = .done s1 olds →
    osJoinAll s1.osets o.set (o.accs.map fun a => accSet s1 o.crew a) = .ok (u, tab) →
    deliverRegs { s1 with osets := tab } o.crew d ((o.accs.zip olds).map fun q => ((q.1.lane, q.1.sheaf), [lo32 q.2, hi32 q.2])) u = .ok s2 →
    Running s2 op o c1 →
    Gives (.loadDelivery op) s fun t => Over s2 t op o ∧ SameMemory s2 t ∧
      ∀ h, (t.sheafAt o.crew h).files = (s2.sheafAt o.crew h).files) ∧
  (∀ (op : Nat) (s s1 : State) (o : Op) (c c1 : Crew) (d : Dest), Running s op o c → o.kind = .barpa d →
    deliverRegs s o.crew d (o.accs.map fun a => ((a.lane, a.sheaf), [lo32 (Map.get o.got a.lane 0)])) o.set = .ok s1 → Running s1 op o c1 →
    Gives (.loadDelivery op) s fun t => Over s1 t op o ∧ SameMemory s1 t ∧
      ∀ h, (t.sheafAt o.crew h).files = (s1.sheafAt o.crew h).files) ∧
  (∀ (core : Nat) (s s1 : State) (e : StoreEntry) (c1 : Crew), storeTurn s core = some e →
    nextOther s core = none → storeReady s core e = true → e.sem = .rlx → e.out = none → (∀ a ∈ e.accs, a.who = none ∧ a.done = false) → e.homes.Nodup →
    foldE (fun s (a : Acc) => performAcc s core (whoActs s e.crew e.grid).2.1 (whoActs s e.crew e.grid).2.2 e a)
      (putHead s core { e with flush := e.flush }) e.accs = .ok s1 →
    Map.find? s1.crews e.crew = some c1 → (∀ p ∈ c1.groups, ∀ x, p.2.episode = some x → x.inUse = false) →
    Gives (.storePerformed core) s fun t => CountedDown s1 t e.crew e.homes e.flag ∧ SameMemory s1 t ∧
      (∀ f ∈ (t.core core).storeQ, f.seq ≠ e.seq) ∧ (∀ w, Map.find? s1.crews e.crew = some w → CrewNow t e.crew fun c => c.scratch = w.scratch) ∧
      ∀ h, (t.sheafAt e.crew h).files = (s1.sheafAt e.crew h).files) ∧
  ∀ (s t : State) (core vf : Nat) (h : Bool) (e : StoreEntry) (a : Acc), a.space = .generic → e.sem ≠ .sc → a.data.length = a.n →
    a.pa % 64 + a.n ≤ 64 → performAcc s core vf h e a = .ok t → ∀ i, i < a.n →
      dieRead t core vf a.dev (a.pa + i) = (a.data[i]?).getD 0

/-- R152, R281, R286: a copy that has performed every step is over; one that meets an absent page is suspended on a batch, and one
that meets another cause stops and leaves it posted with its flag; a message goes to the receive that takes it, else to the overflow
queue, else it is dropped with MSG_OVERFLOW. -/
def Sys2Proof.Claims.CopiesAndMessagesComeAbout : Prop :=
  (∀ (op k k1 : Nat) (s s1 : State) (o : Op) (c : CopyRun) (c1 : Crew) (got : List Acc), Map.find? s.ops op = some o →
    copyRun s op o = some (c, k, false) → copyReady s o c.crew = true → runCopy s c k = (s1, k1, got, none) → c.ring = none →
    (∀ t ∈ s1.trackers, t.2.op ≠ some op) → Map.wf s1.ops = true → Map.find? s1.crews o.crew = some c1 → c1.st = .resident →
    o.homes.Nodup → (∀ p ∈ c1.groups, ∀ e, p.2.episode = some e → e.inUse = false) →
    Gives (.copyComplete op) s fun t => Map.find? t.ops op = none ∧ CountedDown s1 t o.crew o.homes o.flag ∧ SameMemory s1 t) ∧
  (∀ (op k k1 : Nat) (s s1 : State) (o : Op) (c : CopyRun) (got : List Acc) (e : Cause ⊕ TErr) (va : Nat) (w : Bool),
    Map.find? s.ops op = some o → copyRun s op o = some (c, k, false) → copyReady s o c.crew = true →
    runCopy s c k = (s1, k1, got, some (.bad e va w)) → (keepCopy s1 op k1 got false).crews = s.crews → Map.find? s1.ops op = some o →
    Map.find? s1.grids o.grid = some c.grid →
    (∀ x, e = .inr x → x ≠ .noMem → x ≠ .rights → (∀ line, x ≠ .flawed line) →
      Gives (.copyFault op) s fun t =>
        (∃ key q, Map.find? t.ops op = some q ∧ q.batch = some key ∧ q.flag = o.flag ∧ Map.has t.batches key = true) ∧
        (∃ g, Map.find? t.grids o.grid = some g ∧ g.faults = c.grid.faults + 1) ∧ SameMemory s1 t) ∧
    (∀ x, e = .inl x → x ≠ .osetOverflow → x ≠ .dataUncorrectable → Map.wf s1.ops = true → o.homes.Nodup → c.crew.st = .resident →
      (∀ p ∈ c.crew.groups, ∀ y, p.2.episode = some y → y.inUse = false) → (∃ p ∈ o.lanes, (c.crew.thread p).exited = false) →
      c.crew.posted = [] →
      Gives (.copyFault op) s fun t => Map.find? t.ops op = none ∧ CountedDown s t o.crew o.homes o.flag ∧
        CrewNow t o.crew fun y => y.posted = [{ flag := some (o.named.getD 15), cause := x, faddr := BitVec.ofNat 64 va, threads := o.lanes }])) ∧
  ∀ (core : Nat) (s : State) (m : Msg) (rest : List Msg) (g : Grid), (s.core core).msgIn = m :: rest → Map.find? s.grids m.grid = some g →
    g.done = false → g.stopped = none → Map.find? s.ops m.op = none →
    let s0 := s.modCore core fun k => { k with msgIn := rest }
    (∀ n o buf c s1, recvTaking s0 core m = some (n, o, buf) → deliverMsg s0 o.crew buf m o.set = .ok s1 → m.op ≠ n → Running s n o c →
      Memory.wf c.scratch = true →
      Gives (.messageArrival core) s fun t => (t.core core).msgIn = rest ∧ Over s t n o ∧
        (CrewNow t o.crew fun w => ∀ i, i < 8 + m.payload.length →
          Memory.read w.scratch (buf + i) = ((bytesOf 8 (statusOf m) ++ m.payload)[i]?).getD 0) ∧ n ∉ (t.core core).recvs ∧ SameMemory s t) ∧
    (recvTaking s0 core m = none → (s.core core).msgQ.length < 64 →
      Gives (.messageArrival core) s fun t => (t.core core).msgIn = rest ∧ (t.core core).msgQ = (s.core core).msgQ ++ [m] ∧ t.ops = s.ops ∧
        CrewsStand s t ∧ SameMemory s t) ∧
    (∀ k c h, recvTaking s0 core m = none → 64 ≤ (s.core core).msgQ.length → lowCrewOn s m.grid core = some (k, c) →
      Map.find? s.crews k = some c →
      (List.range c.sheaves.length).find? (fun h => !(liveLanes (c.sheaf h)).isEmpty) = some h →
      Gives (.messageArrival core) s fun t => (t.core core).msgIn = rest ∧ (t.core core).msgQ = (s.core core).msgQ ∧ SameMemory s t ∧
        CrewNow t k fun w => w.posted = c.posted ++
          [{ flag := none, cause := .msgOverflow, faddr := 0, threads := (liveLanes (c.sheaf h)).map fun l => (l, h) }])

namespace Sys2Proof.Claims

/-- Bit i of a bit string that begins at a byte of a unit (R100). -/
def unitBit (m : Memory) (base i : Nat) : Bool := (Memory.read m (base + i / 8)).getLsbD (i % 8)

/-- Element k of width w of a K row, in two's complement (R99, R101). -/
def rowElem (m : Memory) (base w k : Nat) : Int :=
  (List.range w).foldl (fun v i => if unitBit m base (k * w + i) then v + 2 ^ i else v) 0 -
    if unitBit m base (k * w + (w - 1)) then 2 ^ w else 0

/-- One output (m, n) of a pass, m a row of quarter-slot q of an A slot, n a column of a B slot, from C's value (R105, R106, Table 4.10): the
exact sum of each block of 32, its exponents' scale, one rounding by RNE a block. -/
def passCell (wa wb : Nat) (zero : Bool) (a : Memory) (q : Nat) (b : Memory) (c : Word) (m n : Nat) : Word :=
  let nb := 24 / max wa wb
  let ea := fun i => (Memory.read a (2048 * q + 1536 + 12 * m + i)).toNat
  let eb := fun i => (Memory.read b (6144 + 12 * n + i)).toNat
  let c0 := if zero then 0 else c
  if (∃ i ∈ List.range nb, ea i = 255 ∨ eb i = 255) ∨ f32 c0 = .nan then 0x7FC00000
  else
    (List.range nb).foldl (fun c i =>
      let d := (List.range 32).foldl (fun s j =>
        s + rowElem a (2048 * q + 96 * m) wa (32 * i + j) * rowElem b (96 * n) wb (32 * i + j)) 0
      let e : Int := ((ea i : Int) - 127) + ((eb i : Int) - 127) - ((wa : Int) - 2) - ((wb : Int) - 2)
      BitVec.ofNat 32 (rounded fmtF32 .rne false [f32 c] (addFV .rne (f32 c) (ofDyadic d e false))).1) c0

end Sys2Proof.Claims

/-- R105, R106, R295 to R301: an engine decides for the oldest request that may start and up to three that share its B slot, widths and
no rows; a pass that ends leaves the rows R106 gives to be written: each output by the exact block sums of its A row and B column, one
rounding a block; the rows of every request of a pass are written into C at once, the flag counting down; an
XZERO leaves its tile zero; an XREQ its quarters. -/
def Obligations.MatrixWorkComesAbout : Prop :=
  (∀ (s : State) (e : Engine) (ps : List XReq), choosePass s e = some ps →
    ∃ f rest, ps = f :: rest ∧ ps.length ≤ 4 ∧
      (∀ r ∈ ps, r ∈ e.table ∧ eligible s e r = true ∧ r.bphys = f.bphys ∧ r.wa = f.wa ∧ r.wb = f.wb ∧ r.h = f.h) ∧
      (∀ r ∈ e.table, eligible s e r = true → r.h = f.h → f.seq ≤ r.seq) ∧ (f.h = true → ∀ r ∈ e.table, eligible s e r = true → r.h = true) ∧
      ps.Pairwise fun a b => sameRows a b = false) ∧
  (∀ (cluster : Nat) (s : State) (ps : List XReq), (s.engine cluster).chosen = [] → choosePass s (s.engine cluster) = some ps →
    Gives (.matrixPassDecision cluster) s fun t =>
      (t.engine cluster).table = ((s.engine cluster).table.filter fun r => !ps.contains r) ∧
      (if (s.engine cluster).running = [] then (t.engine cluster).running = ps ∧ (t.engine cluster).chosen = []
       else (t.engine cluster).running = (s.engine cluster).running ∧ (t.engine cluster).chosen = ps) ∧
      (∀ k, k ≠ cluster → t.engine k = s.engine k) ∧ t.crews = s.crews ∧ SameMemory s t) ∧
  (∀ (cluster : Nat) (s : State), (s.engine cluster).running ≠ [] →
    Gives (.matrixPassEnd cluster) s fun t =>
      (t.engine cluster).running = (s.engine cluster).chosen ∧ (t.engine cluster).chosen = [] ∧
      (t.engine cluster).ended = (s.engine cluster).ended ++ [(s.engine cluster).running.map fun r =>
        (r.passed s (dedup ((s.engine cluster).running.flatMap (badReq s (s.engine cluster)))), reqResult s (s.engine cluster) r)] ∧
      t.crews = s.crews ∧ SameMemory s t) ∧
  (∀ (cluster : Nat) (s : State) (r : XReq) (ws : List Word) (rest : List (List (XReq × List Word))) (c : Crew) (x : TUnit),
    (s.engine cluster).ended = [(r, ws)] :: rest → r.bad = false → Map.find? s.crews r.crew = some c →
    Map.find? c.unitsC r.tile = some x → Memory.wf x.mem = true → ws.length = 1024 → r.homes.Nodup → JoinsFit s.osets →
    Gives (.matrixRowsWritten cluster) s fun t =>
      (t.engine cluster).ended = rest ∧ CountedDown s t r.crew r.homes (some r.flag) ∧
      (CrewNow t r.crew fun w => ∃ y, Map.find? w.unitsC r.tile = some y ∧
        (∀ i, i < 4096 → Memory.read y.mem (256 * r.rows + i) = BitVec.ofNat 8 ((ws.getD (i / 4) 0).toNat / 256 ^ (i % 4))) ∧
        (∀ a, a < 256 * r.rows ∨ 256 * r.rows + 4096 ≤ a → Memory.read y.mem a = Memory.read x.mem a)) ∧ SameMemory s t) ∧
  (∀ (wa wb q : Nat) (zero : Bool) (a b : Memory) (c : List Word), 2 ≤ wa → wa ≤ 8 → 2 ≤ wb → wb ≤ 8 →
    (passRows wa wb zero a q b c).length = 1024 ∧ ∀ m n, m < 16 → n < 64 →
      (passRows wa wb zero a q b c).getD (64 * m + n) 0 = passCell wa wb zero a q b (c.getD (64 * m + n) 0) m n) ∧
  (∀ (cluster : Nat) (s : State) (p : List (XReq × List Word)) (rest : List (List (XReq × List Word))),
    (s.engine cluster).ended = p :: rest → p.Pairwise (fun u v => sameRows u.1 v.1 = false) → JoinsFit s.osets →
    (∀ v ∈ p, v.1.bad = false ∧ v.2.length = 1024 ∧ v.1.rows % 16 = 0 ∧ ∃ c x, Map.find? s.crews v.1.crew = some c ∧
      Map.find? c.unitsC v.1.tile = some x ∧ Memory.wf x.mem = true) →
    Gives (.matrixRowsWritten cluster) s fun t => (t.engine cluster).ended = rest ∧ SameMemory s t ∧
      (∀ v ∈ p, CrewNow t v.1.crew fun w => ∃ y, Map.find? w.unitsC v.1.tile = some y ∧
        ∀ i, i < 4096 → Memory.read y.mem (256 * v.1.rows + i) = BitVec.ofNat 8 ((v.2.getD (i / 4) 0).toNat / 256 ^ (i % 4))) ∧
      ∀ n c k x, Map.find? s.crews n = some c → Map.find? c.unitsC k = some x → Memory.wf x.mem = true →
        CrewNow t n fun w => ∃ y, Map.find? w.unitsC k = some y ∧
          ∀ i, (∀ v ∈ p, v.1.crew = n → v.1.tile = k → i < 256 * v.1.rows ∨ 256 * v.1.rows + 4096 ≤ i) → Memory.read y.mem i = Memory.read x.mem i) ∧
  (∀ (op tile : Nat) (s : State) (o : Op) (c : Crew) (x : TUnit), Map.find? s.ops op = some o → Map.wf s.ops = true → o.kind = .xzero tile →
    tileReady s o = true → engineReady s o = true → badUnit s o.crew [(.C, tile)] = false → Map.find? s.crews o.crew = some c →
    Map.find? c.unitsC tile = some x → o.homes.Nodup →
    Gives (.xzeroDone op) s fun t => Over s t op o ∧ SameMemory s t ∧
      CrewNow t o.crew fun w => ∃ y, Map.find? w.unitsC tile = some y ∧ y.mem = [] ∧ y.set = o.set) ∧
  ∀ (op tile aq w v : Nat) (qs : List Nat) (m : RMode) (s s1 : State) (o : Op), Map.find? s.ops op = some o → Map.wf s1.ops = true →
    o.kind = .xreq tile aq w qs m v → tileReady s o = true → engineReady s o = true → badUnit s o.crew [(.C, tile)] = false →
    foldE (fun s qa => xreqQuarter s o tile aq w m v qa) s qs = .ok s1 → o.homes.Nodup →
    Gives (.xreqDone op) s fun t => Over s1 t op o ∧ SameMemory s t ∧
      ∀ c, Map.find? s1.crews o.crew = some c → CrewNow t o.crew fun w => w.unitsA = c.unitsA ∧ w.unitsC = c.unitsC

/-- R121 to R128, R149, R310, R311, R371: a line that has been served lands in its L1; a write-back starts with the line's dirty
bytes; a line expires; a slice accepts the request it may, and a channel serves the request R371 names; buckets refill; a fill
changes no value; written-back bytes reach the memory side. -/
def Sys2Proof.Claims.CachesMoveLines : Prop :=
  (∀ (core line k : Nat) (s : State) (r : L2Req), servedReq s core line = some (k, r) → flawedAt s r.vf (keyPa line) = false →
    Gives (.l1FillLand core line) s fun t => line ∉ (t.core core).fills ∧ SameMemory s t ∧
      (∀ p ∈ t.ops, p.2.onCore t core = true → line ∉ p.2.need) ∧ (t.slice k).entries = (s.slice k).entries.erase r ∧
      ∃ l, l1Line t core line = some l ∧
        ∀ i, i < 64 → l.dirty.getLsbD i = false → Map.find? l.bytes i = some (dieRead s core r.vf 0 (keyPa line + i))) ∧
  (∀ (core line : Nat) (s : State) (l : L1Line), l1Line s core line = some l → l.dirty ≠ 0 → Flaw.l1 core line ∉ s.flaws → Map.wf l.bytes = true →
    Gives (.l1DirtyWriteback core line) s fun t => t.wbufs = s.wbufs ++ [wbOf core line l] ∧
      l1Line t core line = some { l with dirty := 0 } ∧ (∀ vf dev pa, dieRead t core vf dev pa = dieRead s core vf dev pa) ∧ SameMemory s t) ∧
  (∀ (core line : Nat) (s : State) (l : L1Line), l1Line s core line = some l → Flaw.l1 core line ∉ s.flaws → Map.wf (s.core core).l1 = true →
    Gives (.l1LineExpiry core line) s fun t => l1Line t core line = none ∧ SameMemory s t ∧
      t.wbufs = if l.dirty = 0 then s.wbufs else s.wbufs ++ [wbOf core line l]) ∧
  (∀ (slice : Nat) (s : State) (r : L2Req), nextHeld s slice = some (r, s) → r.why = .l1 → sliceOf (s.vf r.vf).cfg (keyPa r.line) = slice →
    Gives (.l2RequestAccept slice) s fun t => (t.slice slice).held = (s.slice slice).held.erase r ∧
      (∃ e ∈ (t.slice slice).entries, e.core = r.core ∧ e.line = r.line ∧ e.miss = !sliceHit s r.vf (keyPa r.line) ∧
        e.back = sliceHit s r.vf (keyPa r.line) ∧
        (sliceHit s r.vf (keyPa r.line) = true →
          (∀ q ∈ (s.slice slice).entries, q.h = r.h → reqSet s q = reqSet s r → q.served = true) → e.served = true)) ∧
      (sliceHit s r.vf (keyPa r.line) = false → ∃ m ∈ (t.slice slice).misses, m.1 = keyPa r.line / 256) ∧ t.crews = s.crews) ∧
  (∀ (s : State) (c : Channel) (q : HbmReq), nextServed s c = some q → q ∈ c.queue ∧ ((∃ r ∈ c.queue, r.h = false) → q.h = false) ∧
    (q.h = true → hasToken c q = true) ∧ (q.h = false → (∃ r ∈ c.queue, r.h = false ∧ hasToken c r = true) → hasToken c q = true) ∧
    ∀ r ∈ c.queue, r.h = q.h → hasToken c r = hasToken c q → guaranteed s r.vf = guaranteed s q.vf → q.seq ≤ r.seq) ∧
  (∀ (channel : Nat) (s : State) (q : HbmReq), nextServed s (s.channel channel) = some q →
    Gives (.hbmChannelServe channel) s fun t => (t.channel channel).queue = (s.channel channel).queue.erase q ∧
      (q.write = false → ∀ m ∈ (t.slice q.slice).misses, m.1 = q.line → m.2.2 = true) ∧
      (q.write = true → t.slices = s.slices) ∧ (t.slice q.slice).misses.map Prod.fst = (s.slice q.slice).misses.map Prod.fst ∧ t.crews = s.crews ∧ SameMemory s t) ∧
  (∀ (channel vf : Nat) (s : State) (v : Vf), Map.wf s.vfs = true → Map.find? s.vfs vf = some v → v.state ≠ 0 →
    Gives (.hbmTokenRefill channel) s fun t =>
      Map.get (t.channel channel).gTok vf 0 = min v.cfg.gDepth (Map.get (s.channel channel).gTok vf 0 + v.cfg.gShare) ∧
      Map.get (t.channel channel).hTok vf 0 = min v.cfg.hDepth (Map.get (s.channel channel).hTok vf 0 + v.cfg.hCap) ∧
      (t.channel channel).queue = (s.channel channel).queue ∧ SameMemory s t) ∧
  (∀ (slice line : Nat) (s : State) (h : Bool), (s.slice slice).misses.find? (fun m => m.1 == line) = some (line, h, true) →
    Flaw.hbm line ∉ s.flaws →
    Gives (.l2Fill slice line) s fun t => (∀ m ∈ (t.slice slice).misses, m.1 ≠ line) ∧
      (∀ ls ∈ (t.slice slice).lines, ∀ l ∈ ls.2, l.line = line → l.filling = false ∧ ∀ i, i < 256 → Map.has l.bytes i = true) ∧
      (∀ r ∈ (t.slice slice).entries, keyPa r.line / 256 = line → r.back = true ∧
        ((∀ q ∈ (s.slice slice).entries, q.h = r.h → reqSet s q = reqSet s r →
          q.served = true ∨ q.back = true ∨ keyPa q.line / 256 = line) → r.served = true)) ∧
      (∀ vf pa, memByte t vf pa = memByte s vf pa) ∧ SameMemory s t) ∧
  ∀ (die line : Nat) (s : State) (w : WriteBack), s.wbufs.find? (fun w => w.die == die && w.line == line && !w.sent) = some w →
    keyDev line = 0 → Map.wf w.bytes = true → Memory.wf s.hbm = true →
    Gives (.writeBackAcknowledgement die line) s fun t => t.wbufs = s.wbufs.erase w ∧
      (∀ p ∈ w.bytes, memByte t w.vf (keyPa line + p.1) = p.2) ∧ t.crews = s.crews

/-- A frame stands last in the queue of a port, where the others are as they were. -/
def Sys2Proof.Claims.QueuedAt (s t : State) (port : Nat) (m : Sent) : Prop :=
  (Map.get t.ports port Port.init).queue = (Map.get s.ports port Port.init).queue ++ [m]

/-- R128, R372, R421 to R423: a frame that does not arrive at a usable port from a known peer in the frame type is ignored; a peer's
read of a partition's bytes goes to their home slice, which answers with them; one of other addresses is refused; a port sends the
frames of a partition one at a time, those of class G first; what waits for a peer that does not answer is lost; a scrub counts a corrected
error, the sixteenth within one second fencing the island, and loses and fences what it cannot correct. -/
def Sys2Proof.Claims.FramesAndScrubs : Prop :=
  (∀ (f : Frame) (s : State), f.port ∉ usablePorts s ∨ f.ftype ≠ s.ftype ∨ f.device = 0 ∨ Map.get s.fdev f.device 0 = 0 →
    exec (.fabricFrameReceive f) s = .next s) ∧
  (∀ (f : Frame) (s : State) (pa n trk vf : Nat), f.port ∈ usablePorts s → f.ftype = s.ftype → f.device ≠ 0 → Map.get s.fdev f.device 0 ≠ 0 →
    f.body = .readReq pa n trk → ownerOf s pa n = some vf →
    Gives (.fabricFrameReceive f) s fun t =>
      (∃ r, (Map.get t.slices (sliceOf (s.vf vf).cfg (keyPa (lineKey 0 pa))) Slice.init).held =
        (Map.get s.slices (sliceOf (s.vf vf).cfg (keyPa (lineKey 0 pa))) Slice.init).held ++ [r] ∧ r.why = .peer f ∧
        r.line = lineKey 0 pa ∧ r.vf = vf ∧ r.h = f.h ∧ r.noL2 = true) ∧ t.crews = s.crews ∧ SameMemory s t) ∧
  (∀ (slice : Nat) (f : Frame) (s s1 s2 : State) (r : L2Req) (pa n trk vf : Nat) (u : OSet) (tab : Map OEntry),
    nextHeld s slice = some (r, s) → r.why = .peer f → flawedAt s r.vf (keyPa r.line) = false → f.body = .readReq pa n trk →
    l2RequestAccept slice s = .next s1 → ownerOf s1 pa n = some vf → rangeSet s1 vf pa n = .ok (u, tab) →
    sendFrame { s1 with osets := tab } f.device f.vf f.h (some (n, u)) (.readReply trk (memBytes s1 vf pa n)) = .ok s2 →
    Gives (.l2RequestAccept slice) s fun t =>
      (∃ port, QueuedAt s1 t port
        { port := port, device := f.device, vf := f.vf, body := .readReply trk (memBytes s1 vf pa n),
          ftype := s1.ftype, mac := Map.get s1.fdev f.device 0, h := f.h, units := max 1 ((n + 255) / 256) }) ∧
      t.crews = s1.crews ∧ SameMemory s1 t) ∧
  (∀ (f : Frame) (s : State) (pa n trk : Nat), f.port ∈ usablePorts s → f.ftype = s.ftype → f.device ≠ 0 → Map.get s.fdev f.device 0 ≠ 0 →
    f.body = .readReq pa n trk → ownerOf s pa n = none →
    Gives (.fabricFrameReceive f) s fun t =>
      (∃ port, QueuedAt s t port
        { port := port, device := f.device, vf := f.vf, body := .refusal trk, ftype := s.ftype,
          mac := Map.get s.fdev f.device 0, h := f.h, units := 1 }) ∧ SameMemory s t) ∧
  (∀ (weight : Nat → Nat) (fuel : Nat) (p q : Port) (m : Sent), p.serve weight fuel = some (m, q) →
    m ∈ p.queue ∧ q.queue = p.queue.erase m ∧ (m.h = true → ∀ k ∈ p.queue, k.vf = m.vf → k.h = true)) ∧
  (∀ (device i n : Nat) (s : State) (r : Tracker) (o : Op) (g : Grid), s.trackers = [(i, r)] → r.device = device → r.line = none →
    r.cmd = none → r.op = some n → Map.find? s.ops n = some o → copyRun s n o = none → Map.find? s.grids o.grid = some g →
    (∀ c, Map.find? s.crews o.crew = some c → ∀ p ∈ o.lanes, (c.thread p).handler = false) →
    Gives (.peerTimeout device) s fun t => t.trackers = [] ∧ SameMemory s t ∧
      (∃ g', Map.find? t.grids o.grid = some g' ∧ g'.stopped = some (g.stopped.getD .failed) ∧
        g'.first = some (g.first.getD .remoteUnreachable)) ∧ ∀ p ∈ t.crews, p.2.grid ≠ o.grid) ∧
  (∀ (device : Nat) (s : State), (∀ t ∈ s.trackers, t.2.device ≠ device) → exec (.peerTimeout device) s = .next s) ∧
  (∀ (l2 : Bool) (line : Nat) (s : State), exec (.patrolScrub l2 line .clean) s = .next s) ∧
  (∀ (c : ErrCtr) (now : Nat), (c.hit now).count = c.count + 1 ∧
    ∀ t, t ∈ (c.hit now).times ↔ t = now ∨ t ∈ c.times ∧ now < t + 1000000000) ∧
  (∀ (line : Nat) (s : State), let c := (Map.get s.errCtr (pairIsland line) { count := 0, times := [] }).hit s.gtime.toNat
    (c.times.length < 16 →
      exec (.patrolScrub false line .corrected) s = .next { s with errCtr := Map.put s.errCtr (pairIsland line) c }) ∧
    (16 ≤ c.times.length → Gives (.patrolScrub false line .corrected) s fun t => islandFenced t (pairIsland line) = true)) ∧
  ∀ (line : Nat) (s : State), Gives (.patrolScrub false line .uncorrectable) s fun t =>
    islandFenced t (pairIsland line) = true ∧ Flaw.hbm line ∉ t.flaws

/-! ## Events of queues (14_scheduling.md) -/

namespace Sys2Proof.Claims

/-- A command of a queue has something true of it. -/
def CmdNow (t : State) (vf q n : Nat) (p : Cmd → Prop) : Prop := ∃ c, Map.find? (t.queue vf q).cmds n = some c ∧ p c

/-- The command of a queue that begins, its queue's commands in form. -/
def Begins (s : State) (vf q opcode n : Nat) (c : Cmd) : Prop := beginning s vf q opcode = some (n, c) ∧ Map.wf (s.queue vf q).cmds = true

end Sys2Proof.Claims

/-- R314, R315, R318, R319, R338, R339, R419, R432: a running queue takes a doorbell; an available entry is read and becomes a command,
and avail_event follows; a finished command leaves its used entry and index; a queue is enabled where its registers allow, its count of
launches starting at 0, disabled when it is empty, and killed with its commands and grids; an unmasked vector sends what it holds. -/
def Obligations.QueuesChangeState : Prop :=
  (∀ (vf q : Nat) (s : State), (s.queue vf q).st = .running →
    Gives (.queueDoorbell vf q) s fun t => t.queue vf q = { s.queue vf q with bell := true } ∧ SameMemory s t ∧ t.grids = s.grids) ∧
  (∀ (vf q : Nat) (s : State), let x := s.queue vf q
    x.st = .running → x.bell = true → hostNum s (x.avail.toNat + 2) 2 ≠ x.availIx → Memory.wf s.host = true →
    Gives (.availEntryRead vf q) s fun t =>
      CmdNow t vf q x.nextCmd (fun c => c = readCmd s x (hostNum s (x.avail.toNat + 4 + 2 * (x.availIx % x.size)) 2)) ∧
      (t.queue vf q).availIx = (x.availIx + 1) % 65536 ∧ (t.queue vf q).nextCmd = x.nextCmd + 1 ∧
      hostNum t (x.used.toNat + 4 + 8 * x.size) 2 = (x.availIx + 1) % 65536 ∧ t.hbm = s.hbm ∧ t.grids = s.grids) ∧
  (∀ (vf q n : Nat) (s : State) (c : Cmd), let x := s.queue vf q
    Map.find? x.cmds n = some c → cmdOver s c = true → Map.wf x.cmds = true → Memory.wf s.host = true → Map.wf s.grids = true →
    Gives (.commandCompletion vf q n) s fun t =>
      Map.find? (t.queue vf q).cmds n = none ∧ (t.queue vf q).usedIx = (x.usedIx + 1) % 65536 ∧
      hostNum t (x.used.toNat + 2) 2 = (x.usedIx + 1) % 65536 ∧
      hostNum t (x.used.toNat + 4 + 8 * (x.usedIx % x.size)) 4 = c.head % 2 ^ 32 ∧
      hostNum t (x.used.toNat + 4 + 8 * (x.usedIx % x.size) + 4) 4 = (if c.status.isSome then 64 else 0) ∧
      (∀ a len, c.status = some (a, len) → a + 64 ≤ x.used.toNat ∨ x.used.toNat + 4 + 8 * x.size ≤ a →
        ∀ i, i < 64 → Memory.read t.host (a + i) = ((statusBytes s c)[i]?).getD 0) ∧
      ∀ g, c.grid = some g → Map.find? t.grids g = none) ∧
  (∀ (vf q : Nat) (ctl : Word) (s : State), let x := s.queue vf q
    let w := ctl &&& 0x1FFE0000#32
    x.st = .disabled →
    (w.getLsbD 21 = false → bitsOf w.toNat 20 17 ≤ 12 → x.desc.toNat % 16 = 0 → x.avail.toNat % 2 = 0 → x.used.toNat % 4 = 0 →
      Gives (.queueEnable vf q ctl) s fun t => SameMemory s t ∧
        t.queue vf q = { x with ctl := w ||| 0x10000#32, st := .running, cfgErr := false, bell := false, availIx := 0, usedIx := 0, cmds := [],
                                launched := 0 }) ∧
    (12 < bitsOf w.toNat 20 17 ∨ x.desc.toNat % 16 ≠ 0 ∨ x.avail.toNat % 2 ≠ 0 ∨ x.used.toNat % 4 ≠ 0 →
      Gives (.queueEnable vf q ctl) s fun t => SameMemory s t ∧ t.queue vf q = { x with ctl := w, cfgErr := true })) ∧
  (∀ (vf q : Nat) (ctl : Word) (s : State), let x := s.queue vf q
    (x.st = .running ∧ x.cmds = [] ∧ ctl.getLsbD 31 = false) ∨ x.st = .killed →
    Gives (.queueDisable vf q ctl) s fun t => SameMemory s t ∧
      t.queue vf q = { x with st := .disabled, ctl := x.ctl &&& ~~~(0x10000 : Word), bell := false, availIx := 0, usedIx := 0, cmds := [] }) ∧
  (∀ (vf q : Nat) (s : State), (s.queue vf q).st = .running → Map.wf (s.queue vf q).cmds = true → Map.wf s.grids = true →
    (∀ p ∈ (s.queue vf q).cmds, p.2.st = .pending ∨ p.2.opcode = 2 → p.2.grid = none) →
    Gives (.queueKill vf q) s fun t => (t.queue vf q).st = .killing ∧
      (∀ p ∈ (t.queue vf q).cmds, p ∈ (s.queue vf q).cmds ∧ p.2.st ≠ .pending ∧ (p.2.opcode = 2 → p.2.st ≠ .begun)) ∧
      ∀ n g, Map.find? s.grids n = some g → g.vf = vf → g.queue = q → g.done = false →
        ∃ g', Map.find? t.grids n = some g' ∧ g'.stopped = some .killed) ∧
  (∀ (vf q : Nat) (s : State), (s.queue vf q).st = .killing → (s.queue vf q).cmds = [] →
    (∀ g ∈ s.grids, g.2.vf = vf → g.2.queue = q → g.2.done = true) → vf ≠ 0 → 0 ∉ (s.vf vf).masked →
    Gives (.queueKillFinish vf q) s fun t => (t.queue vf q).st = .killed ∧ t.msix = s.msix ++ [(vf, 0)] ∧ SameMemory s t) ∧
  ∀ (fn vec : Nat) (s : State), fn ≠ 0 →
    Gives (.vectorUnmask fn vec) s fun t => vec ∉ (t.vf fn).masked ∧ vec ∉ (t.vf fn).pendMsi ∧ SameMemory s t ∧
      t.msix = s.msix ++ if vec ∈ (s.vf fn).pendMsi then [(fn, vec)] else []

/-- R317, R321, R322, R324, R325: a LAUNCH that may begin becomes a grid of its queue; a WAIT is over once its event holds its value;
SIGNAL raises an event to the value and an event write sets it, and the WAITs they meet are over; WRITE, FENCE and COPY do their
work and are complete. -/
def Obligations.CommandsRun : Prop :=
  (∀ (vf q n : Nat) (s : State) (c : Cmd) (d : Desc), Begins s vf q 1 n c → c.desc = some d → gridRoom s vf = true →
    Gives (.launchCommand vf q) s fun t => t.nextGrid = s.nextGrid + 1 ∧
      CmdNow t vf q n (fun e => e.st = .begun ∧ e.grid = some s.nextGrid) ∧
      ∃ g, Map.find? t.grids s.nextGrid = some g ∧ g.vf = vf ∧ g.queue = q ∧ g.proc = (s.queue vf q).proc ∧ g.depth = 0 ∧
        g.parent = none ∧ g.cmd = some n ∧ g.desc.entry = d.entry) ∧
  (∀ (vf q n : Nat) (s : State) (c : Cmd), Begins s vf q 2 n c →
    Gives (.waitCommand vf q) s fun t => SameMemory s t ∧ t.grids = s.grids ∧
      CmdNow t vf q n fun e => e.st = if c.value.toNat ≤ (eventOf s vf c.event).toNat then .finished else .begun) ∧
  (∀ (vf q n : Nat) (s : State) (c : Cmd), Begins s vf q 3 n c →
    Gives (.signalCommand vf q) s fun t => SameMemory s t ∧ t.grids = s.grids ∧
      (eventOf t vf c.event).toNat = max (eventOf s vf c.event).toNat c.value.toNat ∧
      (∀ e, e ≠ c.event → eventOf t vf e = eventOf s vf e) ∧ CmdNow t vf q n fun e => e.st = .finished ∧ e.result = .complete) ∧
  (∀ (vf e : Nat) (x : Dword) (s : State), e < 4096 →
    Gives (.eventWrite vf e x) s fun t => eventOf t vf e = x ∧ (∀ k, k ≠ e → eventOf t vf k = eventOf s vf k) ∧ SameMemory s t ∧
      ∀ q k n c, Map.find? (s.vf vf).queues q = some k → Map.find? k.cmds n = some c → c.opcode = 2 → c.st = .begun → c.event = e →
        c.value.toNat ≤ x.toNat → CmdNow t vf q n fun d => d.st = .finished) ∧
  (∀ (vf q n : Nat) (s s1 : State) (c : Cmd), Begins s vf q 4 n c →
    bdWrite (beginCmd (noteCommand s vf c.addr.toNat) vf q n) vf (s.queue vf q).proc c.addr.toNat (bytesOf c.size c.value.toNat) 0 = .ok s1 →
    Gives (.writeCommand vf q) s fun t => SameMemory s1 t ∧ CmdNow t vf q n fun e => e.st = .finished ∧ e.result = .complete) ∧
  (∀ (vf q n : Nat) (s : State) (c : Cmd), Begins s vf q 5 n c →
    Gives (.fenceCommand vf q) s fun t => SameMemory s t ∧ t.grids = s.grids ∧ CmdNow t vf q n fun e => e.st = .finished ∧ e.result = .complete) ∧
  ∀ (vf q n : Nat) (s s1 : State) (c c' : Cmd), Begins s vf q 6 n c → nextCopy (beginCmd s vf q n) = some (vf, q, n, c') →
    copyBlocks (beginCmd s vf q n) vf (s.queue vf q).proc c.addr.toNat c.addr2.toNat (c.len.toNat / 64) = (s1, none) →
    c'.addr = c.addr → c'.addr2 = c.addr2 → c'.len = c.len → c'.moved = 0 → (∀ t ∈ s1.trackers, t.2.cmd ≠ some (vf, q, n)) →
    Gives (.copyCommand vf q) s fun t => SameMemory s1 t ∧ CmdNow t vf q n fun e => e.st = .finished ∧ e.result = .complete

/-! ## Events of translation and residency (15_translation.md, 17_trust.md R400) -/

namespace Sys2Proof.Claims

/-- A write of an invalidation's control word with GO: it starts, and no TLB holds a translation it covers any more; or it is
refused, ERR set, while one runs or for a range of no pages (R347). -/
def TlbiStarts (i : Instr) (vf scope who : Nat) (s : State) : Prop :=
  ((s.tlbi vf).busy = false → (scope = 0 → (s.tlbi vf).n ≠ 0) → Gives i s fun t => let c := t.tlbi vf
    (c.busy = true ∧ c.err = false ∧ c.scope = scope ∧ c.who = who ∧ c.first = (s.tlbi vf).addr.toNat / 65536 ∧
      c.pages = (s.tlbi vf).n.toNat) ∧
    (∀ p ∈ t.cores, ∀ e ∈ p.2.tlb, c.covers vf e = false) ∧ (∀ p ∈ t.ctlb, ∀ e ∈ p.2, c.covers vf e = false) ∧
    (∀ k e, e ∈ (s.core k).tlb → c.covers vf e = false → e ∈ (t.core k).tlb) ∧ CrewsStand s t ∧ SameMemory s t) ∧
  ((s.tlbi vf).busy = true ∨ (scope = 0 ∧ (s.tlbi vf).n = 0) → Gives i s fun t =>
    (t.tlbi vf).err = true ∧ (t.tlbi vf).busy = (s.tlbi vf).busy ∧ t.cores = s.cores ∧ t.ctlb = s.ctlb ∧ CrewsStand s t ∧ SameMemory s t)

/-- A page move that is not refused is taken, and one that is sets the refused bit (R362). -/
def MoveStarts (i : Instr) (src dst : Dword) (ctl : Word) (s : State) : Prop :=
  ctl.getLsbD 31 = true → s.pmove = none → let m : PMove := { src := src, dst := dst, ctl := ctl }
  (m.refused s = false → Gives i s fun t => t.pmove = some { m with born := s.seq } ∧ t.pmstat = 0 ∧ t.frames = s.frames ∧ SameMemory s t) ∧
  (m.refused s = true → Gives i s fun t => t.pmove = none ∧ t.pmstat = 1 ∧ t.frames = s.frames ∧ SameMemory s t)

/-- An answer of 0 to the last unanswered part of a group's batch: the batch is over and the group goes on (R353). -/
def Serves (i : Instr) (vf id : Nat) (s : State) (second : Bool) : Prop :=
  ∀ (b : Batch) (grp : Nat) (c : Crew) (g : Group), Map.find? s.batches (batchKey vf (word id)) = some b → b.part2 = second →
    b.part1 = !second → b.group = some grp → Map.find? s.crews b.crew = some c → Map.find? c.groups grp = some g →
    g.wait = .fault (batchKey vf (word id)) → Map.wf s.batches = true →
    Gives i s fun t => Map.find? t.batches (batchKey vf (word id)) = none ∧ GroupNow t b.crew grp (fun h => h.wait = .none) ∧
      CrewsStand s t ∧ SameMemory s t ∧ t.grids = s.grids

end Sys2Proof.Claims

/-- R346, R347: TLBIC and HTLBIC start an invalidation by range, process (VF) or partition (all VFs), or are refused; it completes
once every access that used a covered translation is performed and what it writes back is acknowledged, and not before. -/
def Obligations.InvalidationsRun : Prop :=
  (∀ (vf proc : Nat) (s : State), 0 < vf → TlbiStarts (.tlbiRange vf proc) vf 0 (proc % 16) s) ∧
  (∀ (vf proc : Nat) (s : State), 0 < vf → TlbiStarts (.tlbiProcess vf proc) vf 1 (proc % 16) s) ∧
  (∀ (vf : Nat) (s : State), 0 < vf → TlbiStarts (.tlbiPartition vf) vf 2 0 s) ∧
  (∀ (vf : Nat) (s : State), TlbiStarts (.htlbiRange vf) 0 0 (vf % 256) s) ∧
  (∀ (vf : Nat) (s : State), TlbiStarts (.htlbiVf vf) 0 1 (vf % 256) s) ∧
  (∀ (s : State), TlbiStarts .htlbiAllVfs 0 2 0 s) ∧
  ∀ (vf : Nat) (s : State), (s.tlbi vf).busy = true →
    (tlbiDrained s (s.tlbi vf) = false → exec (.tlbiComplete vf) s = .next s) ∧
    (tlbiDrained s (s.tlbi vf) = true → (s.tlbi vf).flush = none → vf ≠ 0 → Gives (.tlbiComplete vf) s fun t =>
      (t.tlbi vf).busy = true ∧ (t.tlbi vf).flush = some (t.wbufs.map fun w => (w.die, w.line)) ∧ CrewsStand s t ∧ SameMemory s t) ∧
    ∀ ls, tlbiDrained s (s.tlbi vf) = true → (s.tlbi vf).flush = some ls → tlbiFlushed s vf ls = true →
      Gives (.tlbiComplete vf) s fun t => t.tlbi vf = { s.tlbi vf with busy := false, flush := none } ∧ CrewsStand s t ∧ SameMemory s t

/-- R350, R351, R353: the oldest part that waits is written at the tail once all its records fit, the tail moves past them and
vector 0 is sent; an answer to a batch's last part lets its group go on, and a failing answer fails its grid. -/
def Obligations.FaultsAreReportedAndAnswered : Prop :=
  (∀ (vf : Nat) (s : State) (rs : List FRec) (rest : List (List FRec)), (s.faultQ vf).waiting = rs :: rest →
    (s.faultQ vf).ctl.getLsbD 16 = true → rs.length ≤ (s.faultQ vf).room → 0 ∉ (if vf = 0 then s.pf else s.vf vf).masked →
    Memory.wf s.host = true → (s.faultQ vf).written < 2 ^ 32 →
    let q := s.faultQ vf
    let k := bitsOf q.ctl.toNat 3 0
    Gives (.faultRecordWrite vf) s fun t => (t.faultQ vf).waiting = rest ∧ (t.faultQ vf).tail = q.tail + word rs.length ∧
      (t.faultQ vf).head = q.head ∧ t.msix = s.msix ++ [(vf, 0)] ∧ t.hbm = s.hbm ∧ t.store = s.store ∧ CrewsStand s t ∧
      ∀ i r, rs[i]? = some r →
        Memory.readN t.host (q.base.toNat / 64 * 64 + 64 * ((q.tail.toNat + i) % 2 ^ k)) 64 = r.bytes ((q.written + i) % 2 ^ 32)) ∧
  (∀ (vf id : Nat) (s : State), id < 2 ^ 32 → Serves (.fresume vf (dword id)) vf id s false) ∧
  (∀ (vf id : Nat) (s : State), id < 2 ^ 32 → vf < 256 → Serves (.hresume (dword (id + vf * 2 ^ 48))) vf id s true) ∧
  ∀ (vf id : Nat) (s : State) (b : Batch) (g : Grid), id < 2 ^ 32 → Map.find? s.batches (batchKey vf (word id)) = some b →
    b.part1 = true → Map.find? s.grids b.grid = some g →
    Gives (.fresume vf (dword (id + 0x080 * 2 ^ 32))) s fun t => SameMemory s t ∧ (∀ p ∈ t.batches, p.2.grid ≠ b.grid) ∧
      (∀ p ∈ t.crews, p.2.grid ≠ b.grid) ∧
      ∃ g', Map.find? t.grids b.grid = some g' ∧ g'.stopped = some (g.stopped.getD .failed) ∧ g'.first = some (g.first.getD .pageAbsent)

/-- R357 to R360, R362, R400: FOWN assigns a frame or is refused; a sweep starts, and ends with the victims it proposes in the
victim buffer, none of them pinned; a page move starts or is refused, and, once its turn at the copy engine has come, copies its
frame to a frame, or sealed to store, or back once the seal is verified.
(What becomes of a frame's bytes and lines at a move of ownership, the further refusals, the layout of a seal, and the port whose gate a move
passes are the model's choices: assumptions 10, 15, 53 and 54.) -/
def Obligations.FramesMove : Prop :=
  (∀ (f vf pin : Nat) (s : State), f < 2 ^ 24 → vf < 256 → pin < 2 → let i := s.frame f
    let refused := frameCount ≤ f ∨ (i.owner ≠ vf ∧ (i.pinned = true ∨ (vf ≠ 0 ∧ (s.vf vf).bframe.toNat ≤ heldFrames s vf)))
    (refused → exec (.fown (dword (f + vf * 2 ^ 24 + pin * 2 ^ 32))) s = .next { s with fstat := true }) ∧
    (¬refused → Gives (.fown (dword (f + vf * 2 ^ 24 + pin * 2 ^ 32))) s fun t => t.fstat = false ∧ (t.frame f).owner = vf ∧
      (t.frame f).pin = decide (pin = 1) ∧ (t.frame f).pins = i.pins ∧ (vf ≠ 0 → (t.frame f).accessed = false) ∧ (∀ k, k ≠ f → t.frame k = s.frame k) ∧ CrewsStand s t ∧
      (i.owner = 0 ∨ i.owner = vf → SameMemory s t))) ∧
  (∀ (n : Word) (s : State), s.rcstat.getLsbD 31 = false → 1 ≤ n.toNat → n.toNat ≤ 4096 →
    Gives (.reclaimSweep n) s fun t => t.rcstat = word (2 ^ 31) ∧ t.rcWanted = n.toNat ∧ t.rcVict = [] ∧ t.frames = s.frames ∧
      SameMemory s t) ∧
  (∀ (s : State), s.rcstat.getLsbD 31 = true → s.rcVict = [] → s.rcWanted ≤ 4096 → Memory.wf s.host = true →
    Gives .reclaimSweepEnd s fun t => ∃ vs : List Nat, vs.length ≤ s.rcWanted ∧ t.rcstat = word vs.length ∧
      (∀ f ∈ vs, (s.frame f).pinned = false) ∧ t.hbm = s.hbm ∧ t.store = s.store ∧ CrewsStand s t ∧
      ∀ i f, vs[i]? = some f → Memory.num t.host (s.rcbuf.toNat / 64 * 64 + 4 * i) 4 = f % 2 ^ 32) ∧
  (∀ (src dst : Dword) (ctl : Word) (s : State), bitsOf ctl.toNat 1 0 = 0 → MoveStarts (.pageMoveFrame src dst ctl) src dst ctl s) ∧
  (∀ (src dst : Dword) (ctl : Word) (s : State), bitsOf ctl.toNat 1 0 = 1 → MoveStarts (.pageMoveToStore src dst ctl) src dst ctl s) ∧
  (∀ (src dst : Dword) (ctl : Word) (s : State), bitsOf ctl.toNat 1 0 = 2 → MoveStarts (.pageMoveFromStore src dst ctl) src dst ctl s) ∧
  (∀ (s : State) (m : PMove), s.pmove = some m → m.dir = 0 → moveTurn s m = true → moveFlaw s m = none →
    Memory.wf s.hbm = true → let vf := (s.frame m.src.toNat).owner
    Gives .pageMoveDone s fun t => t.pmove = none ∧ memBytes t vf (65536 * m.dst.toNat) 65536 = memBytes s vf (65536 * m.src.toNat) 65536 ∧
      (∀ v a, a / 65536 ≠ m.dst.toNat → memByte t v a = memByte s v a) ∧ t.host = s.host ∧ t.store = s.store ∧ CrewsStand s t) ∧
  (∀ (s s1 : State) (m : PMove) (p y : Nat) (tab : Map OEntry), s.pmove = some m → m.dir = 1 → moveTurn s m = true →
    moveFlaw s m = none → let vf := (s.frame m.frame).owner
    let r := frameRule { s with pmove := none } vf m.frame
    let us := if r.2 then frameSets { s with pmove := none } m.frame r.1 else List.replicate 256 0
    storePort { s with pmove := none } = some p → osJoinAll s.osets r.1 us = .ok (y, tab) →
    storeGate { s with pmove := none, osets := tab } p vf y = some s1 → Memory.wf s.store = true →
    Gives .pageMoveDone s fun t => t.pmove = none ∧ (t.vf vf).swapCtr = (s.vf vf).swapCtr + 1 ∧ t.hbm = s.hbm ∧ CrewsStand s t ∧
      Memory.readN t.store m.storeAt 65536 = bytesAt (Config.gcmSeal (s.vf vf).swapKey (bytesOf 12 (s.vf vf).swapCtr) (sealAad vf m)
        (memBytes s vf (65536 * m.frame) 65536 ++ sealedSets r us)).1 0 65536) ∧
  ∀ (s : State) (m : PMove), s.pmove = some m → m.dir = 2 → moveTurn s m = true → Memory.wf s.hbm = true → let vf := (s.frame m.frame).owner
    let tr := Memory.readN s.host ((s.vf vf).swtrl.toNat / 65536 * 65536 + 1024 * m.slot) 1024
    let plain := Config.gcmOpen (s.vf vf).swapKey (bytesAt tr 0 12) (sealAad vf m) (Memory.readN s.store m.storeAt 65536 ++ bytesAt tr 28 514)
      (bytesAt tr 12 16)
    Gives .pageMoveDone s fun t => t.pmove = none ∧ t.frames = s.frames ∧ t.host = s.host ∧ t.store = s.store ∧ CrewsStand s t ∧
      (∀ v a, a / 65536 ≠ m.frame → memByte t v a = memByte s v a) ∧
      (∀ bs, plain = some bs → t.pmstat = s.pmstat ∧ memBytes t vf (65536 * m.frame) 65536 = bytesAt bs 0 65536) ∧
      (plain = none → t.pmstat = s.pmstat ||| 2 ∧ t.hbm = s.hbm ∧ t.slices = s.slices)

/-! ## Events of partitions and of the platform (16_partitions.md, 19_platform.md) -/

namespace Sys2Proof.Claims

/-- A partition command has been taken: GO reads 1, its status row reads 3, and the table's generation is odd (R364, R366). -/
def Commanded (s t : State) (vf op fin : Nat) : Prop :=
  t.pcmd.go = true ∧ t.pcmd.vf = vf ∧ t.pcmd.op = op ∧ t.pcmd.fin = fin ∧ t.pcmd.desc = s.pcmd.desc ∧ (t.vf vf).changing = true ∧
    t.capGen = s.capGen + 1

/-- A command whose check fails changes nothing but its own registers (R366). -/
def FailsWith (i : Instr) (s : State) (vf op fin : Nat) : Prop :=
  Gives i s fun t => Commanded s t vf op fin ∧ t.vf vf = { s.vf vf with changing := true } ∧
    (∀ v, v ≠ vf → t.vf v = s.vf v) ∧ t.clusters = s.clusters ∧ t.sliceU = s.sliceU ∧ t.grids = s.grids ∧ t.crews = s.crews ∧ SameMemory s t

end Sys2Proof.Claims

/-- R364 to R369, R374: a command reads its descriptor whole, checks it in the order of Table 16.9 and changes nothing where a check
fails; create and resize take the units named; destroy kills the queues; promote re-admits; GO while one runs is refused with status
1; the command's end installs what is left to install, sets STATUS, clears GO and sends the PF's management vector; POOLMASK is
ignored while a pool partition exists. -/
def Obligations.PartitionCommandsRun : Prop :=
  (∀ (vf : Nat) (s : State), s.pcmd.go = true → ∀ i ∈ [Instr.partitionCreate vf, .partitionResize vf, .partitionDestroy vf, .partitionPromote vf],
    exec i s = .next { s with pcmd := { s.pcmd with status := 1 } }) ∧
  (∀ (vf : Nat) (s : State), s.pcmd.go = false → let b := descBytes s
    let c := readCfg b
    (checkCmd s vf true b c = 0 → Gives (.partitionCreate vf) s fun t => Commanded s t vf 1 0 ∧ (t.vf vf).cfg = c ∧
      (t.vf vf).state = (if c.guar then 1 else 2) ∧ (t.vf vf).stamp = s.nextStamp ∧ t.nextStamp = s.nextStamp + 1 ∧ (t.vf vf).events = [] ∧
      (∀ u, (t.cluster u).vf = if u ∈ maskClusters c.clusters then vf else (s.cluster u).vf) ∧
      (∀ k, (Map.get t.sliceU k UnitSt.init).vf = if k ∈ c.slices then vf else (Map.get s.sliceU k UnitSt.init).vf) ∧
      t.frames = s.frames ∧ t.grids = s.grids ∧ t.crews = s.crews ∧ SameMemory s t) ∧
    (checkCmd s vf true b c ≠ 0 → FailsWith (.partitionCreate vf) s vf 1 (checkCmd s vf true b c)) ∧
    (checkCmd s vf false b c = 0 → Gives (.partitionResize vf) s fun t => Commanded s t vf 2 0 ∧ t.pcmd.next = some c ∧
      (t.vf vf).cfg = { (s.vf vf).cfg with clusters := c.clusters, donors := c.donors, floor := c.floor } ∧
      t.pcmd.removed = (maskClusters (s.vf vf).cfg.clusters).filter (fun u => !c.clusters.getLsbD u) ∧
      (∀ u, (t.cluster u).vf = if u ∈ maskClusters c.clusters then vf else (s.cluster u).vf) ∧
      ∀ k, (Map.get t.sliceU k UnitSt.init).vf = if k ∈ c.slices then vf else (Map.get s.sliceU k UnitSt.init).vf) ∧
    (checkCmd s vf false b c ≠ 0 → FailsWith (.partitionResize vf) s vf 2 (checkCmd s vf false b c)) ∧
    ((s.vf vf).state ≠ 0 → Gives (.partitionDestroy vf) s fun t => Commanded s t vf 3 0 ∧ t.clusters = s.clusters ∧ t.sliceU = s.sliceU ∧
      ∀ q, (s.queue vf q).st = .running → (t.queue vf q).st = .killing) ∧
    ((s.vf vf).state = 0 → FailsWith (.partitionDestroy vf) s vf 3 2) ∧
    ((s.vf vf).state = 2 → admits s vf (s.vf vf).cfg = true → Gives (.partitionPromote vf) s fun t => Commanded s t vf 4 0 ∧
      t.vf vf = { s.vf vf with state := 1, demoted := false, stamp := s.nextStamp, changing := true } ∧ t.nextStamp = s.nextStamp + 1 ∧
      t.clusters = s.clusters ∧ t.crews = s.crews ∧ t.grids = s.grids ∧ SameMemory s t) ∧
    ((s.vf vf).state ≠ 2 → FailsWith (.partitionPromote vf) s vf 4 2) ∧
    ((s.vf vf).state = 2 → admits s vf (s.vf vf).cfg = false → FailsWith (.partitionPromote vf) s vf 4 5)) ∧
  (∀ (s : State), s.pcmd.go = true → cmdReady s = true → 0 ∉ s.pf.masked → Map.wf s.vfs = true → let vf := s.pcmd.vf
    Gives .partitionCommandEnd s fun t => t.pcmd.go = false ∧ t.pcmd.status = (if s.pcmd.quiet = true then 0 else s.pcmd.fin) ∧ (t.vf vf).changing = false ∧
      t.msix = s.msix ++ [(0, 0)] ∧ CrewsStand s t ∧
      (∀ c, s.pcmd.op = 2 → s.pcmd.fin = 0 → s.pcmd.next = some c →
        (t.vf vf).cfg.slices = c.slices ∧ (t.vf vf).cfg.gWays = c.gWays ∧ (t.vf vf).cfg.quotas = c.quotas ∧ (t.vf vf).cfg.gShare = c.gShare) ∧
      (s.pcmd.op = 3 → s.pcmd.fin = 0 → (t.vf vf).state = 0 ∧ (t.vf vf).events = [] ∧
        ∀ u, u < 64 → (s.cluster u).vf = vf → (t.cluster u).vf = 0)) ∧
  ∀ (x : Dword) (s : State),
    ((∀ p ∈ s.vfs, p.2.state = 0 ∨ p.2.cfg.clusters ≠ 0) → exec (.poolmaskWrite x) s = .next { s with poolmask := x }) ∧
    ∀ p ∈ s.vfs, p.2.state ≠ 0 → p.2.cfg.clusters = 0 → exec (.poolmaskWrite x) s = .next s

/-- A VF's own registers are as after reset, its leases given up, its partition as it was (R420). -/
def Sys2Proof.Claims.VfCleared (s t : State) (vf : Nat) : Prop :=
  (t.vf vf).flr = false ∧ (t.vf vf).queues = [] ∧ (t.vf vf).events = [] ∧ (t.vf vf).fq = FaultQ.init ∧ (t.vf vf).trace = none ∧
    (t.vf vf).replay = Replay.init ∧ (t.vf vf).trialHeld = false ∧ (t.vf vf).cfg = (s.vf vf).cfg ∧ (t.vf vf).state = (s.vf vf).state ∧
    (∀ p ∈ t.traces, p.2.holder ≠ vf) ∧ t.grids = s.grids

/-- R418, R420, R421, R425, R426, R427, Tables 14.1, 15.3, 19.3, 19.5: function-level resets return their registers to reset, a VF's once
its queues have been killed whole, and keep partitions, principals, policies and keys; a package reset leaves only what is outside the package; a frequency write takes 40 to 84 for
cores and engines; above 2,400 W the power manager lowers its group by one step; a firmware image is taken only under both signatures;
registers with a behaviour of their own act as their events do, and a write to no register is ignored.
(Which registers the PF's reset names, that a frequency write acts at once, and that the power manager lowers a whole group are the model's
choices: assumptions 22 and 58.) -/
def Obligations.PlatformActs : Prop :=
  (∀ (vf : Nat) (s : State), Gives (.vfFlr vf) s fun t => (t.vf vf).cfg = (s.vf vf).cfg ∧ (t.vf vf).state = (s.vf vf).state ∧
    t.links = s.links ∧ t.prins = s.prins ∧ t.gates = s.gates ∧ (killsLeft (s.vf vf) = false → VfCleared s t vf) ∧
    (killsLeft (s.vf vf) = true → (t.vf vf).flr = true ∧ ∀ q, (s.queue vf q).st = .running → (t.queue vf q).st = .killing)) ∧
  (∀ (vf : Nat) (s : State), (s.vf vf).flr = true → killsLeft (s.vf vf) = false → VfCleared s (endFlr s vf) vf) ∧
  (∀ (s : State), Gives .pfFlr s fun t => t.pf = Vf.init ∧ t.hfq = FaultQ.init ∧ t.islands = [] ∧ t.fdev = [] ∧
    ((∀ p ∈ s.vfs, p.2.state = 0 ∨ p.2.cfg.clusters ≠ 0) → t.poolmask = 0) ∧ (s.pcmd.go = false → t.pcmd = PCmd.init) ∧
    (∀ v, (t.vf v).cfg = (s.vf v).cfg ∧ (t.vf v).state = (s.vf v).state ∧ (t.vf v).s2root = 0) ∧
    t.prins = s.prins ∧ t.gates = s.gates ∧ t.links = s.links ∧ t.osets = s.osets ∧ t.chiplets = s.chiplets ∧ t.clusters = s.clusters) ∧
  (∀ (s : State), Gives .packageReset s fun t => t.pfReady = false ∧ t.crews = [] ∧ t.grids = [] ∧ t.cores = [] ∧ t.hbm = [] ∧ t.vfs = [] ∧
    t.links = [] ∧ t.chiplets = [] ∧ t.prins = [] ∧ t.gates = [] ∧ t.host = s.host ∧ t.store = s.store) ∧
  (∀ (i : Nat) (x : Word) (s : State), let f := bitsOf x.toNat 7 0
    (i < 320 → 40 ≤ f → f ≤ 84 → Gives (.islandFreqWrite i x) s fun t => t.island i = { cur := f, freq := f } ∧
      (∀ k, k ≠ i → t.island k = s.island k) ∧ { t with islands := s.islands } = s) ∧
    (320 ≤ i ∨ f < 40 ∨ 84 < f → exec (.islandFreqWrite i x) s = .next s)) ∧
  (∀ (s : State), Gives .powerManagerStep s fun t => (∀ i, (t.island i).freq = (s.island i).freq ∧
      (t.island i).cur = if 2400 < Config.power s.free ∧ i ∈ loweredNext s then (s.island i).cur - 1 else (s.island i).cur) ∧
    { t with islands := s.islands, free := s.free } = s) ∧
  (∀ (img a b : List Byte) (s : State), exec (.firmwareImageWrite img a b) s = .next { s with firmware :=
    if (Config.rsaVerify Config.firmwareKeys.1 img a && Config.slhVerify Config.firmwareKeys.2 img b) = true then img else s.firmware }) ∧
  (∀ (port : Nat) (up : Bool) (s : State), port < 16 → Gives (.fabricPortLinkChange port up) s fun t =>
    Map.get t.ports port Port.init = { Map.get s.ports port Port.init with up := up } ∧
    (∀ p, p ≠ port → Map.find? t.ports p = Map.find? s.ports p) ∧ { t with ports := s.ports } = s) ∧
  ∀ (fn : Nat) (x : Dword) (s : State),
    (∀ off size, 255 < fn ∨ (size ≠ 8 ∧ size ≠ 4) ∨ off % size ≠ 0 → exec (.registerWrite fn off size x) s = .next s) ∧
    (1 ≤ fn → fn ≤ 255 →
      (∀ q, q < 64 → exec (.registerWrite fn (4 * q) 4 x) s = exec (.queueDoorbell fn q) s) ∧
      (∀ e, e < 4096 → exec (.registerWrite fn (0x80000 + 8 * e) 8 x) s = exec (.eventWrite fn e x) s) ∧
      (exec (.registerWrite fn 0x4118 8 x) s = exec (.fresume fn x) s) ∧
      (∀ p, p < 16 → Gives (.registerWrite fn (0x4000 + 8 * p) 8 x) s fun t => Map.get (t.vf fn).s1root p 0 = x ∧
        (∀ k, k ≠ p → Map.find? (t.vf fn).s1root k = Map.find? (s.vf fn).s1root k) ∧ { t with vfs := s.vfs } = s)) ∧
    (fn = 0 → exec (.registerWrite fn 0x200118 8 x) s = exec (.hresume x) s ∧
      exec (.registerWrite fn 0x200200 8 x) s = exec (.fown x) s ∧
      exec (.registerWrite fn 0x200218 4 x) s = exec (.reclaimSweep (lo32 x)) s ∧
      exec (.registerWrite fn 0x310010 8 x) s = exec (.poolmaskWrite x) s ∧
      ∀ i, i < 1024 → exec (.registerWrite fn (0x510000 + 4 * i) 4 x) s = exec (.islandFreqWrite i (lo32 x)) s)

/-! ## Events of trust (17_trust.md) -/

namespace Sys2Proof.Claims

/-- A link direction has something true of it. -/
def LinkNow (t : State) (l : Nat) (p : Link → Prop) : Prop := ∃ k, Map.find? t.links l = some k ∧ p k

/-- A link direction has begun to roll to its next generation; its sender goes on under the old key (R387 step 1). -/
def Rolls (k : Link) (l : Nat) (t : State) : Prop :=
  LinkNow t l fun j => j = { k with rolling := true, acked := false, ackTries := 1,
                                    rxNext := some (k.gen + 1, linkKey k.prk l (k.gen + 1)) }

/-- A chiplet is out of service: Quarantined for a reason, and no link of it has keys (R390). -/
def Quarantined (s t : State) (c why : Nat) : Prop :=
  (t.chiplet c).st = .quarantined ∧ (t.chiplet c).why = why ∧ (∀ p ∈ t.links, p.2.joins c = false) ∧
    (∀ d, d ≠ c → t.chiplet d = s.chiplet d) ∧ (∀ u, u < 64 → onCd c u = true → (t.cluster u).ret = true) ∧
    ∀ k, k < 256 → onKd c k = true → (Map.get t.sliceU k UnitSt.init).ret = true

/-- Whether a chiplet may leave the state it is in: none leaves Dark where BD has failed its own check (R381). -/
def MayLeave (s : State) (c : Nat) : Prop := s.bdDown = false ∨ (s.chiplet c).st ≠ .dark

/-- BD awaits a response of a chiplet in a state, with or without an exchange begun, and every other chiplet stays as it is while BD
takes it (R382). -/
def Answered (s : State) (c : Nat) (r : SpdmResponse) (p : State → Prop) : Prop :=
  spdmAwaited s c = true → Gives (.spdmResponse c r) s fun t => (∀ d, d ≠ c → t.chiplet d = s.chiplet d) ∧ p t

/-- A failed attempt counts: the chiplet is Quarantined, or starts again where attempts start of themselves (R384). -/
def Failed (s t : State) (c why : Nat) : Prop :=
  (t.chiplet c).tries = min 15 ((s.chiplet c).tries + 1) ∧ (t.chiplet c).why = why ∧
    (t.chiplet c).st = (if (s.chiplet c).auto = 0 then .quarantined else .identified)

/-- A request to BD changes nothing but the conversation. -/
def Converses (i : Instr) (s : State) (d : Spdm) : Prop := exec i s = .next { s with doe := d }

end Sys2Proof.Claims

/-- R379 to R384, R389, R390, Tables 17.2 and 17.4: CHCMD quarantines a chiplet, resets it, or starts a Quarantined one anew, where it
may name it; a chiplet may reset itself; none leaves Dark where BD has failed its own check; BD checks each response of a bring-up, the
certificates, the challenge, the measurements against the manifest, the key exchange and its finish, and the chiplet goes a state further
or fails; the keys of its links to Live chiplets come from the exchange; a Keyed chiplet is enabled, and is Live. (What a reset and a
quarantine keep, that links are a topology with a direction for each end, that an answer is one event, and that a failed exchange
quarantines a Live chiplet are the model's choices: assumptions 19, 20, 22 and 56.) -/
def Obligations.ChipletsAreAttested : Prop :=
  (∀ (c : Nat) (s : State),
    (chipOk c false = false → Gives (.chipletQuarantine c) s fun t => t.chErr = true ∧ { t with chErr := s.chErr, chCmd := s.chCmd } = s) ∧
    (chipOk c false = true → (s.chiplet c).st ≠ .quarantined → MayLeave s c →
      Gives (.chipletQuarantine c) s fun t => t.chErr = false ∧ Quarantined s t c 7) ∧
    (chipOk c false = true → (s.chiplet c).st = .quarantined ∨ ¬MayLeave s c →
      Gives (.chipletQuarantine c) s fun t => t.chErr = false ∧ { t with chErr := s.chErr, chCmd := s.chCmd } = s)) ∧
  (∀ (c : Nat) (s : State) (i : Instr), i = .chipletReset c ∨ i = .chipletSelfReset c → chipOk c false = true →
    Gives i s fun t => (∀ d, d ≠ c → t.chiplet d = s.chiplet d) ∧ (∀ a, onHb c (stackOf a) = true → Memory.read t.hbm a = 0) ∧
      (∀ k, onCd c (clusterOf k) = true → t.core k = Core.init) ∧
      ((s.chiplet c).st = .dark → t.chiplet c = s.chiplet c) ∧
      ((s.chiplet c).st ≠ .dark → (t.chiplet c).st = .identified ∧ (t.chiplet c).why = 6 ∧ (t.chiplet c).digest = [] ∧
        (t.chiplet c).rsaKey = [] ∧ (t.chiplet c).slhKey = [] ∧ (t.chiplet c).auto = 2 ∧ ∀ p ∈ t.links, p.2.joins c = false)) ∧
  (∀ (c : Nat) (s : State), chipOk c true = true → (s.chiplet c).st = .quarantined → Gives (.attestationRetry c) s fun t =>
    t.chErr = false ∧ (t.chiplet c).st = .identified ∧ (t.chiplet c).digest = [] ∧ (t.chiplet c).auto = 0 ∧ t.links = s.links ∧
      (∀ d, d ≠ c → t.chiplet d = s.chiplet d) ∧ CrewsStand s t ∧ SameMemory s t) ∧
  (∀ (c : Nat) (ok : Bool) (a b : List Byte) (s : State), (s.chiplet c).rsaKey = [] → (s.chiplet c).st = .dark ∨ (s.chiplet c).st = .identified →
    Answered s c (.certificates ok a b) fun t =>
      (∀ x y, ok = true → Config.chainKey true a = some x → Config.chainKey false b = some y →
        t.chiplet c = { s.chiplet c with st := .identified, rsaKey := x, slhKey := y }) ∧
      (ok = false ∨ Config.chainKey true a = none ∨ Config.chainKey false b = none → Failed s t c 1)) ∧
  (∀ (c : Nat) (a v : List Byte) (s : State), (s.chiplet c).rsaKey ≠ [] → (s.chiplet c).st = .identified → (s.chiplet c).challenged = false →
    Answered s c (.challenge a v) fun t => let ok := signed (s.chiplet c) 0 (Config.transcript c 0 []) a v
      (ok = true → t.chiplet c = { s.chiplet c with challenged := true }) ∧ (ok = false → Failed s t c 2)) ∧
  (∀ (c : Nat) (d a v : List Byte) (s : State), (s.chiplet c).rsaKey ≠ [] → (s.chiplet c).st = .identified → (s.chiplet c).challenged = true →
    Answered s c (.measurements d a v) fun t => let ok := signed (s.chiplet c) 1 (Config.transcript c 1 d) a v
      (ok = true → d ∈ accepted s c → t.chiplet c = { s.chiplet c with st := .attested, digest := d }) ∧
      (ok = false → Failed s t c 2) ∧ (ok = true → d ∉ accepted s c → Failed s t c 3)) ∧
  (∀ (c : Nat) (sh v : List Byte) (s : State), (s.chiplet c).st = .attested → (s.chiplet c).exch = none →
    Answered s c (.keyExchange sh v) fun t =>
      (∀ ct, kemIn v = some ct → t.chiplet c = { s.chiplet c with exch := some (Config.random32 s.free, sh, v) }) ∧
      (kemIn v = none → Failed s t c 4)) ∧
  (∀ (c : Nat) (a v secrets sh w ct : List Byte) (s : State), (s.chiplet c).exch = some (secrets, sh, w) → kemIn w = some ct →
    let hash := Config.transcript c 2 (sh ++ kemPayload (Config.encapsKey secrets) ++ w)
    let prk := Config.hkdfExtract hash (Config.sharedSecret secrets sh ct)
    ((s.chiplet c).st = .attested → Map.wf s.topology = true → Answered s c (.finish a v) fun t =>
      (signed (s.chiplet c) 2 hash a v = true → t.chiplet c = { s.chiplet c with st := .keyed, exch := none } ∧
        ∀ l x y, Map.find? s.topology l = some (x, y) → x = c ∧ peerLive s y = true ∨ y = c ∧ peerLive s x = true →
          LinkNow t (2 * l) (fun k => k = newLink prk (2 * l) x y) ∧ LinkNow t (2 * l + 1) fun k => k = newLink prk (2 * l + 1) y x) ∧
      (signed (s.chiplet c) 2 hash a v = false → Failed s t c 4)) ∧
    ((s.chiplet c).st = .live → Answered s c (.finish a v) fun t =>
      (signed (s.chiplet c) 2 hash a v = true → t.chiplet c = { s.chiplet c with exch := none } ∧
        ∀ l k, Map.find? s.links l = some k → max k.src k.dst = c → k.rolling = true → k.acked = false → k.rxNext = none →
          LinkNow t l fun j => j = { k with prk := prk, ackTries := 1, rxNext := some (0, linkKey prk l 0) }) ∧
      (signed (s.chiplet c) 2 hash a v = false → Quarantined s t c 4))) ∧
  (∀ (c : Nat) (s : State), exec (.spdmResponse c .own) s = exec (.spdmResponse c (ownAnswer s c)) s ∧
    (spdmAwaited s c = false → ∀ r, exec (.spdmResponse c r) s = .next s)) ∧
  ∀ (c : Nat) (s : State), (s.chiplet c).st = .keyed → s.bdDown = false → let t := enableKeyed s c
    t.chiplet c = { s.chiplet c with st := .live, tries := 0, auto := 0 } ∧ (∀ d, d ≠ c → t.chiplet d = s.chiplet d) ∧ t.links = s.links ∧
      ∀ u, u < 64 → onCd c u = true → (t.cluster u).ret = false

/-- R385 to R388: a rollover installs the next key at the receiver first, and at generation 65,535 waits for a fresh exchange's; the
acknowledgement switches the sender, its counter at 0; an acknowledgement missing three times quarantines the receiver's chiplet; a counter
at 2^32 forces a rollover; a group whose tag verifies delivers its flits, another is asked for again once, and then the sending chiplet is
quarantined; the sixteenth flit closes a group, and a partial group closes under the next counter value. (The directions of a link, the order
of these events, and that they are events of their own are the model's choices: assumptions 19, 56 and 63.) -/
def Obligations.LinksRollAndCarry : Prop :=
  (∀ (c : Nat) (s : State), chipOk c true = true → (s.chiplet c).st = .live → Map.wf s.links = true →
    Gives (.keyRoll c) s fun t => t.chErr = false ∧ CrewsStand s t ∧ SameMemory s t ∧ ∀ l k, Map.find? s.links l = some k →
      (k.joins c = true → k.rolling = false → k.gen < 65535 → Rolls k l t) ∧
      (k.joins c = true → k.rolling = false → 65535 ≤ k.gen →
        LinkNow t l fun j => j = { k with rolling := true, acked := false, ackTries := 0, rxNext := none }) ∧
      (k.joins c = false ∨ k.rolling = true → Map.find? t.links l = some k)) ∧
  (∀ (l : Nat) (s : State) (k : Link), Map.find? s.links l = some k →
    (2 ^ 32 ≤ k.txCtr → k.rolling = false → k.gen < 65535 → Gives (.keyRolloverForced l) s fun t => Rolls k l t ∧ { t with links := s.links } = s) ∧
    (k.txCtr < 2 ^ 32 → exec (.keyRolloverForced l) s = .next s)) ∧
  (∀ (l g : Nat) (key : List Byte) (s : State) (k : Link), Map.find? s.links l = some k → k.rolling = true → k.acked = false →
    k.rxNext = some (g, key) → Gives (.installAcknowledgement l) s fun t =>
      LinkNow t l (fun j => j = { k with acked := true, gen := g, txKey := key, txCtr := 0 }) ∧
      (∀ m, m ≠ l → Map.find? t.links m = Map.find? s.links m) ∧ { t with links := s.links } = s) ∧
  (∀ (l : Nat) (s : State) (k : Link), Map.find? s.links l = some k → k.rolling = true → k.acked = false → k.rxNext ≠ none →
    (k.ackTries < 3 → Gives (.rolloverAckTimeout l) s fun t =>
      LinkNow t l (fun j => j = { k with ackTries := k.ackTries + 1 }) ∧ { t with links := s.links } = s) ∧
    (3 ≤ k.ackTries → MayLeave s k.dst → Gives (.rolloverAckTimeout l) s fun t => Quarantined s t k.dst 8)) ∧
  (∀ (l : Nat) (g : LinkGroup) (s : State) (k : Link), Map.find? s.links l = some k → Gives (.linkGroupReceive l g) s fun t =>
    let plain := (k.keyFor g.phase).bind fun key => Config.gcmOpen key (groupNonce l g.counter) [] g.flits.flatten (bytesOf 8 g.tag.toNat)
    let again := (g.phase, g.counter) ∉ k.failed ∧ ∃ r ∈ k.replay, r.phase = g.phase ∧ r.counter = g.counter
    (∀ bs, plain = some bs → LinkNow t l (fun j => j.recvd = k.recvd ++ cutFlits g.flits.length bs ∧ j.txKey = k.txKey ∧ j.txCtr = k.txCtr) ∧
      { t with links := s.links } = s) ∧
    (plain = none → again → LinkNow t l fun j => j = { k with failed := k.failed ++ [(g.phase, g.counter)] }) ∧
    (plain = none → ¬again → MayLeave s k.src → Quarantined s t k.src 5)) ∧
  (∀ (l : Nat) (bytes : List Byte) (s : State) (k : Link), Map.find? s.links l = some k →
    (peerLive s k.src = true → peerLive s k.dst = true → LinkNow (addFlit s l bytes) l fun j =>
      (k.partialG.length < 15 → j = { k with partialG := k.partialG ++ [bytesAt bytes 0 256] }) ∧
      (15 ≤ k.partialG.length → j.partialG = [] ∧ j.txCtr = k.txCtr + 1)) ∧
    (peerLive s k.src = false ∨ peerLive s k.dst = false → addFlit s l bytes = s)) ∧
  ∀ (l : Nat) (s : State) (k : Link), Map.find? s.links l = some k → k.partialG ≠ [] → Gives (.partialGroupClose l) s fun t =>
    { t with links := s.links } = s ∧ LinkNow t l fun j => j.partialG = [] ∧ j.txCtr = k.txCtr + 1 ∧ j.replay.length ≤ 64 ∧
      ∃ r, j.replay.getLast? = some r ∧ r.counter = dword k.txCtr ∧ r.phase = decide (k.gen % 2 = 1) ∧ r.flits.length = k.partialG.length

/-- R393 to R396: a principal is bound where its record's signatures verify and the rules let it, and is entered in ascending order; unbind
retires every entry that names it; reclaim frees the retired entries; OSREQ gives the entry of its principals; a policy is installed in
every gate of the mask where every member's signatures verify, and removed from them. -/
def Sys2Proof.Claims.Principals : Prop :=
  (∀ (s : State), Gives .principalBind s fun t => let p := prinOf s (Memory.readN s.host (s.pbaddr.toNat / 64 * 64) 0x4380)
    (SameMemory s t ∧ CrewsStand s t ∧ t.gates = s.gates) ∧
    (∀ q i tab, p = some q → osMake s.osets [q.id.toNat] = .ok (i, tab) → t.pbErr = false ∧ t.osets = tab ∧ t.prins = insertPrin q s.prins ∧
      (q.vf ≠ 0 → (t.vf q.vf).principal = some q.id)) ∧
    (p = none → t = { s with pbErr := true })) ∧
  (∀ (id : Word) (s : State),
    (∀ p, s.prins.find? (fun p => p.id == id) = some p → p.vf = 0 ∨ ((s.vf p.vf).state = 0 ∧ (s.vf p.vf).changing = false) →
      Gives (.principalUnbind id) s fun t => t.pbErr = false ∧ (∀ q ∈ t.prins, q.id ≠ id) ∧ (∀ q ∈ s.prins, q.id ≠ id → q ∈ t.prins) ∧
        (∀ i e, Map.find? s.osets i = some e → id ∈ e.prins → Map.find? t.osets i = some { prins := [], retired := true }) ∧
        (∀ i e, Map.find? s.osets i = some e → id ∉ e.prins → Map.find? t.osets i = some e) ∧ CrewsStand s t ∧ SameMemory s t) ∧
    ((∀ p ∈ s.prins, p.id ≠ id) → exec (.principalUnbind id) s = .next { s with pbErr := true })) ∧
  (∀ (s : State),
    ((∀ p ∈ s.grids, p.2.done = true) → Gives .osetReclaim s fun t => t.pbErr = false ∧ (∀ e ∈ t.osets, e.2.retired = false) ∧
      (∀ e ∈ s.osets, e.2.retired = false → e ∈ t.osets) ∧ { t with osets := s.osets, pbErr := s.pbErr } = s) ∧
    ((∃ p ∈ s.grids, p.2.done = false) → exec .osetReclaim s = .next { s with pbErr := true })) ∧
  (∀ (s : State),
    (∀ ps i tab, requested s.osreq = some ps → (∀ p ∈ ps, bound s p = true) → osMake s.osets (ps.map fun p => p.toNat) = .ok (i, tab) →
      exec .osetRequest s = .next { s with osets := tab, osErr := false, osIndex := i }) ∧
    (∀ ps, requested s.osreq = some ps → (∃ p ∈ ps, bound s p = false) →
      exec .osetRequest s = .next { s with osErr := true, osIndex := 0 }) ∧
    (requested s.osreq = none → exec .osetRequest s = .next { s with osErr := true, osIndex := 0 })) ∧
  (∀ (ctl : Word) (s : State), Gives (.policyInstall ctl) s fun t => let a := s.piaddr.toNat / 64 * 64
    let b := Memory.readN s.host a 128
    let p := policyOf b
    let blob := Memory.readN s.host a (128 + 16608 * p.members.length)
    let ok := bodyOk s b && ((p.members.zip (List.range 4)).all fun q => memberSigned s blob q.2 q.1)
    t.piErr = !ok ∧ { t with gates := s.gates, piErr := s.piErr } = s ∧
      ∀ g n, Map.find? (Map.get t.gates g []) n = if ok = true ∧ g ∈ maskGates ctl ∧ n = bitsOf ctl.toNat 7 0 then some p
        else Map.find? (Map.get s.gates g []) n) ∧
  ∀ (ctl : Word) (s : State), (∀ g, Map.wf (Map.get s.gates g []) = true) → Gives (.policyRemove ctl) s fun t =>
    t.pirErr = false ∧ { t with gates := s.gates, pirErr := s.pirErr } = s ∧
      ∀ g n, Map.find? (Map.get t.gates g []) n = if g ∈ maskGates ctl ∧ n = bitsOf ctl.toNat 7 0 then none
        else Map.find? (Map.get s.gates g []) n

/-- R383, R391, R392: while BD's check has failed or the PF is not ready every request answers ERROR, Busy; GET_VERSION starts a
conversation; a request out of its order answers UnexpectedRequest; the signed answers cover their transcripts; measurements are the 26
blocks of R392; a vendor-defined message is answered as Table 17.9 gives; sessions and all else are not supported.
(The error codes and the bytes of the answers are not in the spec: the model takes them from outside it, assumption 60.) -/
def Obligations.HostAttestation : Prop :=
  ∀ (req : List Byte) (s : State),
    (s.bdDown = true ∨ s.pfReady = false → ∀ i ∈ [Instr.getVersion req, .getCapabilities req, .negotiateAlgorithms req, .getDigests req,
      .getCertificate req, .challenge req, .getMeasurements req, .vendorDefinedRequest req, .keyExchange req, .pskExchange req,
      .spdmOtherRequest req], Converses i s { s.doe with reply := spdmError 0x03 }) ∧
    (s.bdDown = false → s.pfReady = true →
      Converses (.getVersion req) s { Spdm.init with version := true, vca := req ++ Config.spdmReply 0x84 req, reply := Config.spdmReply 0x84 req } ∧
      (s.doe.version = true → Converses (.getCapabilities req) s
        { s.doe with caps := true, vca := s.doe.vca ++ req ++ Config.spdmReply 0xE1 req, reply := Config.spdmReply 0xE1 req }) ∧
      (s.doe.version = false → Converses (.getCapabilities req) s { s.doe with reply := spdmError 0x04 }) ∧
      (s.doe.caps = true → Converses (.negotiateAlgorithms req) s
        { s.doe with algs := true, vca := s.doe.vca ++ req ++ Config.spdmReply 0xE3 req, reply := Config.spdmReply 0xE3 req }) ∧
      (s.doe.caps = false → Converses (.negotiateAlgorithms req) s { s.doe with reply := spdmError 0x04 }) ∧
      (s.doe.algs = false → ∀ i ∈ [Instr.getDigests req, .getCertificate req, .challenge req, .getMeasurements req],
        Converses i s { s.doe with reply := spdmError 0x04 }) ∧
      (s.doe.algs = true →
        Converses (.getDigests req) s { s.doe with certs := s.doe.certs ++ req ++ Config.spdmReply 0x81 req, reply := Config.spdmReply 0x81 req } ∧
        Converses (.getCertificate req) s { s.doe with certs := s.doe.certs ++ req ++ Config.spdmReply 0x82 req, reply := Config.spdmReply 0x82 req } ∧
        (let tr := s.doe.vca ++ s.doe.certs ++ req ++ Config.spdmReply 0x83 req
         Converses (.challenge req) s
          { s.doe with challengeT := tr, reply := Config.spdmReply 0x83 req ++ Config.bdRsaSign (Config.sha384 tr) }) ∧
        (let r := Config.measurementsReply req (measureBlocks s)
         Converses (.getMeasurements req) s { s.doe with measT := s.doe.vca ++ req ++ r,
                                                         reply := r ++ Config.bdRsaSign (Config.sha384 (s.doe.vca ++ req ++ r)) })) ∧
      (∀ p, vendorPayload req = some p → Converses (.vendorDefinedRequest req) s { s.doe with reply := vendorAnswer s p }) ∧
      (vendorPayload req = none → Converses (.vendorDefinedRequest req) s { s.doe with reply := spdmError 0x01 }) ∧
      ∀ i ∈ [Instr.keyExchange req, .pskExchange req, .spdmOtherRequest req], Converses i s { s.doe with reply := spdmError 0x07 }) ∧
    (measureBlocks s).length = 26

/-! ## Events of observation (18_observation.md) -/

namespace Sys2Proof.Claims

/-- A request of LSREQ has ended: granted, or not; refused, or not (Table 18.5). -/
def Ends (t : State) (fn : Nat) (x : Word) (grant err : Bool) : Prop :=
  (t.fn fn).lsreq.getLsbD 30 = grant ∧ (t.fn fn).lsreq.getLsbD 28 = err ∧ (t.fn fn).lsreq.getLsbD 31 = false ∧
    (t.fn fn).lsreq.toNat % 2 ^ 12 = x.toNat % 2 ^ 12

/-- The word of a lease request for a unit of a kind. -/
def lsWord (kind unit : Nat) : Word := word (kind * 2 ^ 21 + unit)

end Sys2Proof.Claims

/-- R402 to R406, R408, Tables 18.1 to 18.5: a select write takes an event the bank's kind lists and is else ignored whole; a clear zeroes
the count and OVF; a read of the low word latches the high one, which the next read of it returns; a lease request is granted or refused
with ERR, a release gives back, and the hypervisor takes what it asks for from a guest, whose LSREQ then reads revoked and whose counts and
trace registers stay frozen for it until it releases them. (How units are numbered for a function, where frozen registers stand, and what a
lease gives back are the model's choices: assumptions 21, 44 and 59.) -/
def Obligations.CountersAndLeases : Prop :=
  (∀ (fn n : Nat) (x : Word) (s : State) (b : Bank), selected s fn = some (b, false) →
    (n < bankCounters b.kind → eventListed b.kind (bitsOf x.toNat 15 0) = true → Gives (.cselWrite fn n x) s fun t =>
      counterRead t fn n = { counterRead s fn n with
        sel := selOf x, count := if x.getLsbD 30 then 0 else (counterRead s fn n).count,
        ovf := if x.getLsbD 30 then false else (counterRead s fn n).ovf } ∧
      (∀ k, k ≠ n → counterRead t fn k = counterRead s fn k) ∧ { t with banks := s.banks } = s) ∧
    (bankCounters b.kind ≤ n ∨ eventListed b.kind (bitsOf x.toNat 15 0) = false → exec (.cselWrite fn n x) s = .next s) ∧
    Gives (.counterClear fn n) s fun t => (counterRead t fn n).count = 0 ∧ (counterRead t fn n).ovf = false ∧
      (counterRead t fn n).sel = (counterRead s fn n).sel ∧ (∀ k, k ≠ n → counterRead t fn k = counterRead s fn k) ∧ { t with banks := s.banks } = s) ∧
  (∀ (fn n : Nat) (s : State), Gives (.cntloRead fn n) s fun t =>
    t.readOut.toNat = (counterRead s fn n).count.toNat % 2 ^ 32 ∧ (t.fn fn).latch = some (n, (s.fn fn).bsel, (counterRead s fn n).hiWord) ∧
      t.banks = s.banks ∧ SameMemory s t ∧ CrewsStand s t) ∧
  (∀ (fn n : Nat) (s : State),
    (∀ w, (s.fn fn).latch = some (n, (s.fn fn).bsel, w) → Gives (.cnthiRead fn n) s fun t =>
      t.readOut = zx w ∧ (t.fn fn).latch = none ∧ t.banks = s.banks ∧ SameMemory s t ∧ CrewsStand s t) ∧
    ((∀ w, (s.fn fn).latch ≠ some (n, (s.fn fn).bsel, w)) →
      exec (.cnthiRead fn n) s = .next { s with readOut := zx (counterRead s fn n).hiWord })) ∧
  (∀ (fn unit : Nat) (s : State), 0 < fn → unit < 4096 →
    (grantLease s fn 5 unit = none → Gives (.leaseRequest fn (lsWord 5 unit)) s fun t => Ends t fn (lsWord 5 unit) false true ∧
      t.traces = s.traces ∧ t.banks = s.banks) ∧
    (∀ u, traceUnit s fn unit = some u → Map.has s.traces u = false → (s.vf fn).trace = none →
      Gives (.leaseRequest fn (lsWord 5 unit)) s fun t => Ends t fn (lsWord 5 unit) true false ∧ (t.vf fn).trace = some u ∧
        Map.find? t.traces u = some { Trace.init with holder := fn } ∧ t.banks = s.banks) ∧
    (∀ kind u h, kind < 5 → bankUnit s fn kind unit = some (u, h) → leasable s fn (bankAt s kind u h) = true →
      Gives (.leaseRequest fn (lsWord kind unit)) s fun t => Ends t fn (lsWord kind unit) true false ∧
        (bankAt t kind u h).holder = fn ∧ (bankAt t kind u h).leased = true ∧ t.traces = s.traces) ∧
    (∀ kind u h, kind < 5 → bankUnit s fn kind unit = some (u, h) → leasable s fn (bankAt s kind u h) = false →
      Gives (.leaseRequest fn (lsWord kind unit)) s fun t => Ends t fn (lsWord kind unit) false true ∧ t.banks = s.banks ∧
        t.traces = s.traces) ∧
    ((s.vf fn).trialHeld = false → trialFn s fn = fn → Gives (.leaseRequest fn (lsWord 6 0)) s fun t =>
      Ends t fn (lsWord 6 0) true false ∧ (t.vf fn).trialHeld = true) ∧
    ((s.vf fn).trialHeld = true ∨ trialFn s fn = 0 → Gives (.leaseRequest fn (lsWord 6 0)) s fun t => Ends t fn (lsWord 6 0) false true ∧
      (t.vf fn).trialHeld = (s.vf fn).trialHeld)) ∧
  (∀ (fn unit : Nat) (s : State), 0 < fn → unit < 4096 →
    (∀ u key k, traceUnit s fn unit = some u → (s.vf fn).trace = some key → key = u ∨ key = frozenTrace fn u →
      Map.find? s.traces key = some k → k.holder = fn → Map.wf s.traces = true →
      Gives (.leaseRelease fn (lsWord 5 unit)) s fun t => Ends t fn (lsWord 5 unit) false false ∧ (t.vf fn).trace = none ∧
        Map.find? t.traces key = none ∧ t.banks = s.banks) ∧
    (traceUnit s fn unit = none → Gives (.leaseRelease fn (lsWord 5 unit)) s fun t => Ends t fn (lsWord 5 unit) false true ∧
      t.traces = s.traces) ∧
    (∀ kind u h, kind < 5 → bankUnit s fn kind unit = some (u, h) → (bankAt s kind u h).leased = true → (bankAt s kind u h).holder = fn →
      Gives (.leaseRelease fn (lsWord kind unit)) s fun t => Ends t fn (lsWord kind unit) false false ∧ (bankAt t kind u h).leased = false ∧
        (bankAt t kind u h).holder = bankOwner s kind u h ∧ (bankAt t kind u h).frozenC = (bankAt s kind u h).frozenC) ∧
    ((s.vf fn).trialHeld = true → Gives (.leaseRelease fn (lsWord 6 0)) s fun t => Ends t fn (lsWord 6 0) false false ∧
      (t.vf fn).trialHeld = false ∧ (t.vf fn).trial.busy = false)) ∧
  ∀ (u : Nat) (s : State),
    (0 < u → (s.vf u).trialHeld = true → Gives (.leaseRevoke 6 u) s fun t => t.pf.trialHeld = true ∧ t.pf.trialFor = u ∧
      (t.vf u).trialHeld = false ∧ (t.vf u).trial.busy = false ∧ (t.vf u).lsreq.getLsbD 29 = true ∧
      (bitsOf (s.vf u).lsreq.toNat 24 21 = 6 → (t.vf u).lsreq.getLsbD 30 = false) ∧ CrewsStand s t ∧ SameMemory s t) ∧
    (∀ kind v h, kind < 5 → bankUnit s 0 kind u = some (v, h) → (bankAt s kind v h).leased = true →
      (bankAt s kind v h).holder ≠ pfHolder → Gives (.leaseRevoke kind u) s fun t => (bankAt t kind v h).holder = pfHolder ∧
        Map.find? (bankAt t kind v h).frozenC (bankAt s kind v h).holder = some (bankAt s kind v h).ctrs ∧ CrewsStand s t ∧ SameMemory s t) ∧
    (u < 64 → (Map.find? s.traces u = none → Gives (.leaseRevoke 5 u) s fun t => t.pf.trace = some u ∧
        Map.find? t.traces u = some { Trace.init with holder := pfHolder } ∧ CrewsStand s t) ∧
      ∀ k, Map.find? s.traces u = some k → k.holder ≠ pfHolder → Map.wf s.traces = true → Gives (.leaseRevoke 5 u) s fun t =>
        t.pf.trace = some u ∧ Map.find? t.traces u = some { Trace.init with holder := pfHolder } ∧
        (t.vf k.holder).trace = some (frozenTrace k.holder u) ∧
        (∃ k', Map.find? t.traces (frozenTrace k.holder u) = some k' ∧ k'.frozen = true ∧ k'.holder = k.holder) ∧ CrewsStand s t)

/-- R407 to R412, R416, R417, Tables 18.7, 18.8: a sample writes a record of the group a unit's core has just issued; DBGCTL stops a crew,
at its first instruction where it is still to be dispatched, lets it go on, or dumps it, where it names one; RRCTL takes a mode while no grid of the VF runs, and its streams begin anew; a trial starts
with cleared counts where its registers allow it, and ends once its time has passed, with the counts as they stand.
(What a sample names where several groups issued, where a stop of a crew to come is kept, and which function's trial is meant are the model's choices:
assumptions 44 and 59.) -/
def Obligations.SamplesStopsAndTrials : Prop :=
  (∀ (cluster crew grp a ix core : Nat) (s : State) (u : Trace) (w : Crew) (g : Grid) (gr : Group) (h : Nat), let addr := dword a
    Map.find? s.traces cluster = some u → u.wants 3 = true → u.follows s = some core →
    sampled s u.holder core = some (crew, grp, addr, ix) → s.gridOf crew = some (w, g) → Map.find? w.groups grp = some gr →
    homesOf (gr.live w) = [h] → (u.tail - u.head).toNat < 2 ^ bitsOf u.ctl.toNat 3 0 →
    Gives (.tracePcSample cluster) s fun t => Map.find? t.traces cluster = some { u with tail := u.tail + 1, dropped := 0 } ∧
      t.hbm = s.hbm ∧ t.store = s.store ∧ CrewsStand s t ∧ (Memory.wf s.host = true →
        ∃ r : TRec, r.kind = 3 ∧ r.clause = addr ∧ r.index = ix ∧ r.sheaf = h ∧
          Memory.readN t.host (u.base.toNat + 64 * (u.tail.toNat % 2 ^ bitsOf u.ctl.toNat 3 0)) 64 = r.bytes s.gtime u.dropped)) ∧
  (∀ (cluster : Nat) (s : State), Map.find? s.traces cluster = none →
    exec (.tracePcSample cluster) s = .next s) ∧
  (∀ (vf : Nat) (ctl : Word) (s : State),
    (debugTarget s vf ctl = none → ∀ i ∈ [Instr.debugStop vf ctl, .debugResume vf ctl, .debugDump vf ctl],
      i ≠ .debugStop vf ctl ∨ lateTarget s vf ctl = none → Gives i s fun t =>
      (t.vf vf).dbgstat = 1 ∧ CrewsStand s t ∧ SameMemory s t ∧ t.crews = s.crews) ∧
    (∀ n i, debugTarget s vf ctl = none → lateTarget s vf ctl = some (n, i) → Gives (.debugStop vf ctl) s fun t =>
      (t.vf vf).dbgstat = 0 ∧ t.crews = s.crews ∧ SameMemory s t ∧ ∃ g, Map.find? t.grids n = some g ∧ i ∈ g.stops) ∧
    (∀ n w g, debugTarget s vf ctl = some n → s.gridOf n = some (w, g) → w.st = .resident →
      Gives (.debugStop vf ctl) s fun t => (t.vf vf).dbgstat = 0 ∧
        CrewNow t n fun c => c.stop = true ∧ c.st = .stopping ∧ ∀ p ∈ c.groups, p.2.halted = true) ∧
    (∀ n w, debugTarget s vf ctl = some n → Map.find? s.crews n = some w → w.stop = true → w.st = .stopped →
      Gives (.debugResume vf ctl) s fun t => (t.vf vf).dbgstat = 0 ∧ CrewsStand s t ∧ SameMemory s t ∧
        CrewNow t n fun c => c.stop = false ∧ c.st = .resident ∧ ∀ p ∈ c.groups, p.2.halted = false) ∧
    (∀ n w, debugTarget s vf ctl = some n → Map.find? s.crews n = some w → w.isStopped = false →
      ∀ i ∈ [Instr.debugResume vf ctl, .debugDump vf ctl], Gives i s fun t =>
        (t.vf vf).dbgstat = 1 ∧ CrewsStand s t ∧ SameMemory s t ∧ t.crews = s.crews) ∧
    (∀ n w g y tab s1, debugTarget s vf ctl = some n → s.gridOf n = some (w, g) → w.isStopped = true →
      (saveRecord s n w g).length ≤ (s.vf vf).dbgdlen.toNat / 4096 * 4096 →
      let s0 := debugDone s vf ctl false
      osJoinAll s0.osets 0 (crewSets s0 n w) = .ok (y, tab) →
      gateCheck { s0 with osets := tab } hostGate (saveRecord s n w g).length y (hostDest s0 vf) = some s1 → Memory.wf s.host = true →
      Gives (.debugDump vf ctl) s fun t => (t.vf vf).dbgstat = 0 ∧ CrewsStand s t ∧ t.hbm = s.hbm ∧ t.store = s.store ∧
        Memory.readN t.host ((s.vf vf).dbgdump.toNat / 4096 * 4096) (saveRecord s n w g).length = saveRecord s n w g)) ∧
  (∀ (vf : Nat) (s : State), ∀ p ∈ [(Instr.replayOff vf, 0), (.recordMode vf, 1), (.replayMode vf, 2)],
    ((∀ g ∈ s.grids, g.2.vf = vf → g.2.done = true) → Gives p.1 s fun t =>
      (t.vf vf).replay = { (s.vf vf).replay with mode := p.2, stat := 0, streams := [] } ∧ { t with vfs := s.vfs } = s) ∧
    ((∃ g ∈ s.grids, g.2.vf = vf ∧ g.2.done = false) → exec p.1 s = .next s)) ∧
  (∀ (fn : Nat) (ctl : Word) (s : State), let r := (s.fn fn).trial
    ((s.fn fn).trialHeld = true → r.busy = false → r.lo.toNat < r.hi.toNat → bitsOf ctl.toNat 15 0 ≠ 0 →
      Gives (.trialStart fn ctl) s fun t => (t.fn fn).trial.busy = true ∧ (t.fn fn).trial.err = false ∧
        (t.fn fn).trial.due = s.gtime + dword (1000 * bitsOf ctl.toNat 15 0) ∧
        (∀ k, Map.find? (t.fn fn).markc k = if r.pts.getLsbD k then none else Map.find? (s.fn fn).markc k) ∧
        { t with vfs := s.vfs, pf := s.pf } = s) ∧
    ((s.fn fn).trialHeld = false ∨ r.busy = true ∨ r.hi.toNat ≤ r.lo.toNat ∨ bitsOf ctl.toNat 15 0 = 0 →
      Gives (.trialStart fn ctl) s fun t => (t.fn fn).trial = { r with err := true } ∧ (t.fn fn).markc = (s.fn fn).markc ∧
        { t with vfs := s.vfs, pf := s.pf } = s)) ∧
  ∀ (fn : Nat) (s : State), let r := (s.fn fn).trial
    (r.busy = true → r.due.toNat ≤ s.gtime.toNat → Gives (.trialEnd fn) s fun t => (t.fn fn).trial = { r with busy := false } ∧
      (t.fn fn).markc = (s.fn fn).markc ∧ { t with vfs := s.vfs, pf := s.pf } = s) ∧
    (r.busy = false ∨ s.gtime.toNat < r.due.toNat → exec (.trialEnd fn) s = .next s)

/-! ## The encoding and the machine as a whole (07_encoding.md, 19_platform.md) -/

namespace Sys2Proof.Claims

/-- Words of Examples 7.1 and 7.2, and of Tables 7.2 to 7.11, with the instruction each stands for: class, words of its group,
instruction. -/
def exampleGroups : List (Cls × List Word × Instr) :=
  [(.S, [0x0400FC0E, 0x0000000F], .rgn 0 (.lit 15) false gAlways),
   (.V, [0x000107FE, 0x00000001], .iadd (.w 1) (.w 1) (.lit 1) gAlways),
   (.V, [0x2102060E], .isetp .ltN 2 (.w 1) (.k 0) gAlways),
   (.V, [0x118207FE, 0x00000004], .shl (.w 2) (.w 1) (.lit 4) gAlways),
   (.M, [0xFF0000B0, 0x0103902E], .ld .b32 CacheP.none (some { sem := .acq, scope := .dev }) (.w 3) (.k 4) (.w 2) gAlways),
   (.S, [0x83FFFF74], .bra (BitVec.ofInt 22 (-9)) { pred := 2, neg := false }),
   (.S, [0x0040000E], .exit gAlways),
   (.V, [0x0000070E], .iadd (.w 0) (.w 1) (.k 16) gAlways),
   (.V, [0xFE400010, 0x40030857], .fadd SMod.none (some .rtz) (.w 3) (.w 2) (.w 5) { pred := 3, neg := true }),
   (.V, [0xFE0A4000, 0x0001082E], .iadd (.v 33) (.v 66) (.v 66) gAlways),
   (.C, [0x0040900E], .cpyg CacheP.none (.k 4) gAlways),
   (.X, [0x01C15D3E], .xmma 3 130 11 5 1 true gAlways)]

/-- Words that Example 7.1 says are refused: class, word, cause. -/
def exampleRefusals : List (Cls × Word × Cause) :=
  [(.V, 0xFE400011, .illResvField), (.V, 0xFE400060, .illResvField), (.V, 0xFF40000E, .illOpcode), (.V, 0x0640000E, .illOpcode),
   (.M, 0x0640000E, .illOpcode), (.S, 0x8C000000, .illOpcode), (.X, 0x0000070E, .matrixFormat)]

end Sys2Proof.Claims

/-- R157, R158, R163, R165 to R169, Tables 7.12 and 7.13: the sample words decode to what the spec says they stand for, and the malformed
ones raise the cause it names. -/
def Obligations.SampleWordsDecode : Prop :=
  (∀ e ∈ exampleGroups, ∃ g, decodeGroup e.1 e.2.1 256 false = .ok g ∧ g.instr = e.2.2 ∧ g.len = e.2.1.length) ∧
  (∀ e ∈ exampleRefusals, ∃ k, decodeGroup e.1 [e.2.1, 0x0000000E] 256 false = .error (e.2.2, k)) ∧
  headerCause 0x07F80000 = some .illClauseCount ∧ headerCause 0x07F80051 = some .illClauseClass ∧
  headerCause 0x07E00001 = some .illFlag ∧ headerCause 0x27F80051 = some .illClauseResv ∧
  decodeHeader 0x07800012 = .ok { ser := false, yld := false, flagB := none, flagA := some 0, wait := 0, cls := .M, n := 2 } ∧
  decodeHeader 0x07F800C1 = .ok { ser := false, yld := false, flagB := none, flagA := none, wait := 1, cls := .S, n := 1 }

/-- R157, R163, R166 to R173: decoding agrees with encoding: every well-formed instruction, with every operand, prefix and literal its
encoding admits, decodes from its own words, which it takes whole; and every header that decodes encodes to itself. -/
def Obligations.DecodingInvertsEncoding : Prop :=
  (∀ (i : Instr) (c : Cls), i.wf = true → i.cls = some c →
    ∃ g, decodeGroup c (encode i) 256 false = .ok g ∧ g.instr = i ∧ g.len = (encode i).length) ∧
  ∀ (h : Word) (d : Header), decodeHeader h = .ok d → encodeHeader d = h

/-- R163, R173, R427, R411: where a group of threads issues and the words at its PC decode to an instruction, step is exec of that
instruction at that state, its regions reopened and the issue noted; an event that happens is exec of it, but a request of the host
before the PF is ready, which does nothing; time passes alone; and what was found to be bad is fenced before anything else. (That an agenda
orders what the agents do, and that time passes by free amounts, are the model's choices: assumptions 24 and 4.) -/
def Obligations.StepRunsTheDecodedInstruction : Prop :=
  (∀ (s : State) (rest : List AgendaItem) (crew grp : Nat) (c : Crew) (g : Group) (x x1 : Iss) (a : ActiveClause) (tab : Map OEntry)
    (ig : InstrGroup), s.found = [] → s.agenda = .issue crew grp :: rest → let s0 := { s with agenda := rest }
    Map.find? s0.crews crew = some c → Map.find? c.groups grp = some g → canIssue c g = true → outranked s0 c g = false →
    breakpointAt s0 crew grp = none → c.stop = false → s0.episode crew grp = none → groupIss s0 crew grp = some (x, a) → postedNow x = none →
    reopenRegions s0 x s0.seq s0.osets = .ok (x1, tab) → let s1 := x1.put { s0 with osets := tab }
    badWindow s1 x1 = false →
    let cls := (clsOf (fieldOf a.hdr 6 4)).getD .S
    let ws := a.words.drop (a.index - 1)
    decodeGroup cls ws (roleBudget x1.crew x1.grp.role) (fieldOf a.hdr 22 19 == 15) = .ok ig →
    step s = exec ig.instr { noteIssued s1 { x1 with cur := { x1.cur with len := groupLen cls ws } } (a.index + ig.at_) with
      cur := some { x1.cur with index := a.index + ig.at_, len := ig.len } }) ∧
  (∀ (s : State) (rest : List AgendaItem) (i : Instr), s.found = [] → s.agenda = .event i :: rest →
    (fromHost i = false ∨ s.pfReady = true → step s = exec i { s with agenda := rest, cur := none }) ∧
    (fromHost i = true → s.pfReady = false → step s = .next { s with agenda := rest })) ∧
  (∀ (s : State) (rest : List AgendaItem), s.found = [] → s.agenda = .time :: rest → step s = .next (passTime { s with agenda := rest })) ∧
  ∀ (s : State) (f : Found) (rest : List Found), s.found = f :: rest → step s = .next (fenceFound { s with found := rest } f)

/-- R346, R363, R381, R394, R420, R427, Tables 14.2, 14.3, 15.5, 16.8, 17.5, 19.5: what reset leaves: no partition, no grid, every queue
Disabled with nothing in its ring, no invalidation or command running, every chiplet but BD Dark with no link key, no principal and no
policy, the origin-set table holding the empty set alone, islands at 1.9 GHz, and the PF not ready. (That memory nothing has written reads 0
is the model's choice, assumption 2.)
(The values of cores, chiplets' registers and other fields for which the spec states none are the model's choices, assumption 1.) -/
def Obligations.ResetState : Prop :=
  State.reset.memoriesWf = true ∧ State.reset.pfReady = false ∧ State.reset.grids = [] ∧ State.reset.crews = [] ∧ State.reset.ops = [] ∧
  State.reset.msix = [] ∧ State.reset.sent = [] ∧ State.reset.links = [] ∧ State.reset.prins = [] ∧ State.reset.gates = [] ∧
  State.reset.osets = [(0, { prins := [], retired := false })] ∧ State.reset.poolmask = 0 ∧
  (∀ vf, (State.reset.vf vf).state = 0 ∧ (State.reset.tlbi vf).busy = false ∧ (State.reset.faultQ vf).tail = 0 ∧
    ∀ q, (State.reset.queue vf q).st = .disabled ∧ (State.reset.queue vf q).cmds = [] ∧ (State.reset.queue vf q).usedIx = 0) ∧
  (∀ vf e, eventOf State.reset vf e = 0) ∧ State.reset.pcmd.go = false ∧ (∀ c, (State.reset.chiplet c).st = .dark) ∧
  (∀ i, State.reset.island i = { cur := 76, freq := 76 }) ∧ (∀ k, State.reset.core k = Core.init) ∧
  (∀ a, Memory.read State.reset.hbm a = 0 ∧ Memory.read State.reset.host a = 0 ∧ Memory.read State.reset.store a = 0)

/-- Every step keeps the device's memory, the host's and the backing store in canonical form, whatever it runs.
(That an unlisted byte reads 0, on which the form rests, is the model's choice, assumption 2.) -/
def Obligations.MemoriesStayInForm : Prop :=
  ∀ s t : State, s.memoriesWf = true → step s = .next t → t.memoriesWf = true

/-! ## Statements of several parts -/

/-- R213, R215 to R221, R224: the integer and logic forms of the V class, of two sources, accumulating, of one source, on bit fields and bytes, and of
64 bits: each writes its result to D in each active lane, and nothing else changes. -/
def Obligations.IntegerResults : Prop := Sys2Proof.Claims.TwoSourceResults ∧ Sys2Proof.Claims.AccumulatingResults ∧ Sys2Proof.Claims.OneSourceResults ∧ Sys2Proof.Claims.FieldResults ∧ Sys2Proof.Claims.WideResults

/-- R75, R222, R223, R225, R226, R231, R244: compares, votes and predicate logic write their truth; SEL selects by a predicate; PRDW reads
the predicates of a lane as a word, PWRW writes them. -/
def Obligations.PredicateResults : Prop := Sys2Proof.Claims.ComparisonsAndVotes ∧ Sys2Proof.Claims.SelectAndPredicateWord ∧ Sys2Proof.Claims.PredicateWordWrite

/-- R36, R37, R257, R261, R263, R264: LD, LDS, LDT and LDK issue into flight under flag A and write nothing until delivered. -/
def Obligations.LoadsFile : Prop := Sys2Proof.Claims.LoadsGoIntoFlight ∧ Sys2Proof.Claims.UniformLoadGoesIntoFlight

/-- R77, R78, R130, R207, R208: RDSR reads every special register, WRSR writes those that may be written. -/
def Obligations.SpecialRegisters : Prop := Sys2Proof.Claims.SpecialRegisterRead ∧ Sys2Proof.Claims.SpecialRegisterWrite

/-- R271 to R273: what an arrival does to a phase word; BARPA arrives, BARPW completes or waits. -/
def Obligations.PhaseBarriers : Prop := Sys2Proof.Claims.PhaseArrivalRule ∧ Sys2Proof.Claims.PhaseInstructions

/-- R41 to R43, R198, R199: what an arrival does to a crew barrier; BARS, BARA, BARW and BARD arrive, go past or wait. -/
def Obligations.Barriers : Prop := Sys2Proof.Claims.BarrierArrivalRule ∧ Sys2Proof.Claims.BarrierInstructions

/-- R74, R82, R83, R85: the origin sets that registers and predicates take from an instruction, and the control set of a divergence. -/
def Obligations.OriginSetsFollowResults : Prop := Sys2Proof.Claims.ResultSetsAreWritten ∧ Sys2Proof.Claims.DivergencesJoin

/-- R23, R200, R201: LAUNCH accepts a child grid or is refused with its cause; JOINC waits for the children. -/
def Obligations.ChildGrids : Prop := Sys2Proof.Claims.LaunchesAndJoins ∧ Sys2Proof.Claims.LaunchRefusals

/-- R187 to R190: BRA, BRAU, BRX, CALL and RET send their threads each to its target. -/
def Obligations.Branches : Prop := Sys2Proof.Claims.BranchTargets ∧ Sys2Proof.Claims.CallsAndReturns

/-- R398, R399, R400: a gate denies a transfer whose set is retired; passes one of no principal but its destination, and else one that a live
policy covers, of its destination, with every other principal of the set a member, unexpired, and with budget for all of its bytes: the
lowest such slot's budget falls by them and nothing else changes; and denies every other. A denied dump leaves the host's memory as it was and
sends the hypervisor a notice of the gate, the set and the destination; a denied move to store fails and writes nothing. -/
def Sys2Proof.Claims.ReleaseGates : Prop :=
  (∀ (s : State) (gate len y : Nat) (d : GDest) (e : OEntry), Map.find? s.osets y = some e →
    (e.retired = true → gateCheck s gate len y d = none) ∧
    (e.retired = false →
      let slots := Map.get s.gates gate []
      let others := match d with | .prin p => e.prins.filter (· ≠ p) | .cls _ => e.prins
      let covers := fun (p : Policy) =>
        (match d with | .prin q => p.kind = 0 ∧ p.dest = q | .cls n => p.kind = 1 ∧ p.dest = word n) ∧
        (∀ q ∈ others, q ∈ p.members) ∧ s.gtime.toNat < p.expiry.toNat ∧ len ≤ p.budget
      (others = [] → gateCheck s gate len y d = some s) ∧
      (others ≠ [] → Map.wf slots = true →
        (∀ i p, Map.find? slots i = some p → covers p → (∀ j q, j < i → Map.find? slots j = some q → ¬covers q) →
          ∃ t, gateCheck s gate len y d = some t ∧ { t with gates := s.gates } = s ∧
            (∀ k, k ≠ gate → Map.get t.gates k [] = Map.get s.gates k []) ∧
            (∀ j, j ≠ i → Map.find? (Map.get t.gates gate []) j = Map.find? slots j) ∧
            Map.find? (Map.get t.gates gate []) i = some { p with budget := p.budget - len }) ∧
        ((∀ j q, Map.find? slots j = some q → ¬covers q) → gateCheck s gate len y d = none)))) ∧
  (∀ (vf n : Nat) (ctl : Word) (s : State) (w : Crew) (g : Grid) (y : OSet) (tab : Map OEntry), debugTarget s vf ctl = some n →
    s.gridOf n = some (w, g) → w.isStopped = true → (saveRecord s n w g).length ≤ (s.vf vf).dbgdlen.toNat / 4096 * 4096 →
    let s0 := debugDone s vf ctl false
    osJoinAll s0.osets 0 (crewSets s0 n w) = .ok (y, tab) →
    gateCheck { s0 with osets := tab } hostGate (saveRecord s n w g).length y (hostDest s0 vf) = none →
    Gives (.debugDump vf ctl) s fun t => SameMemory s t ∧ CrewsStand s t ∧ ∃ r, t.hfq.waiting = s.hfq.waiting ++ [[r]] ∧ r.kind = 3 ∧
      r.cause = causeCode .egressDenied ∧ r.vf = vf ∧ r.count = 16 ∧ r.gpa = dword y ∧
      r.va = (match hostDest s0 vf with | .prin p => p.zeroExtend 64 | .cls c => dword (2 ^ 32 + c))) ∧
  ∀ (s : State) (m : PMove) (p y : Nat) (tab : Map OEntry), s.pmove = some m → m.dir = 1 → moveTurn s m = true → moveFlaw s m = none →
    let vf := (s.frame m.frame).owner
    let s0 := { s with pmove := none }
    let r := frameRule s0 vf m.frame
    let us := if r.2 then frameSets s0 m.frame r.1 else List.replicate 256 0
    storePort s0 = some p → osJoinAll s.osets r.1 us = .ok (y, tab) → storeGate { s0 with osets := tab } p vf y = none →
    Gives .pageMoveDone s fun t => t.pmove = none ∧ t.pmstat = 1 ∧ SameMemory s t ∧ CrewsStand s t ∧
      ∃ r, t.hfq.waiting = s.hfq.waiting ++ [[r]] ∧ r.kind = 3 ∧ r.cause = causeCode .egressDenied ∧ r.count = p ∧ r.va = dword (2 ^ 32 + 1)

/-- R393 to R396, R398 to R400: principals, origin-set entries and release policies are installed and removed; gates decide by them. -/
def Obligations.PrincipalsAndPolicies : Prop := Sys2Proof.Claims.Principals ∧ Sys2Proof.Claims.ReleaseGates

/-- R249 to R253: the conversions, block quantisation, and the packing of its mantissas. -/
def Obligations.ConversionAndBlockResults : Prop := Sys2Proof.Claims.ConversionResults ∧ Sys2Proof.Claims.QuantiseResults ∧ Sys2Proof.Claims.PackResults

/-- The caches' and the memory's own moves of lines, the frames a peer sends, and the scrubber's visits.
(Which way of a cache is replaced, when buckets refill, and what a lost line and its frames report are the model's choices, assumptions 10, 47, 66 and
69.) -/
def Obligations.CachesAndFramesMove : Prop := Sys2Proof.Claims.CachesMoveLines ∧ Sys2Proof.Claims.FramesAndScrubs

/-- What is in flight comes about: loads are delivered, stores performed, copies and messages completed.
(Where a load's value goes whose region has ended, and when a copy reads and writes its elements, are the model's choices, assumptions 12 and 41.) -/
def Obligations.OperationsComeAbout : Prop := Sys2Proof.Claims.LoadsAndStoresComeAbout ∧ Sys2Proof.Claims.CopiesAndMessagesComeAbout

/-- R8, R39, R192, R193, R197, R209, R248, R272, R273: where forms that need nothing but their operands complete: the special functions, writing
D alone; NOP, YIELD and MARK, and WAITF on a flag at its threshold, writing nothing; and, without an active lane and with their flags'
counts below 63, loads, stores, read-modify-writes, messages, BARPA and BARPW, which then write nothing, their flags counting up and down
again. -/
def Obligations.PlainFormsComplete : Prop :=
  (∀ (s : State) (x : Iss) (m : SMod) (d a : Operand) (g : Guard), Issues s g x → Operable x [(a, 1)] d 1 →
    ∀ i ∈ [Instr.frcp m d a g, .frsq m d a g, .fsqrt m d a g, .fex2 m d a g, .flg2 m d a g, .fsin m d a g, .fcos m d a g, .ftanh m d a g],
    ∃ t y, Ran i s t x y ∧ (∀ c, (∀ p ∈ x.active, regCell x d 0 p ≠ some c) → y.cell c = x.cell c) ∧
      ∀ p, p ∉ x.active → (y.crew.thread p).fpx = (x.crew.thread p).fpx) ∧
  (∀ (s : State) (x : Iss) (g : Guard), Issues s gAlways x → ∀ i ∈ [Instr.nop g, .yield g],
    ∃ t y, Ran i s t x y ∧ ∀ c, y.cell c = x.cell c) ∧
  (∀ (s : State) (x : Iss) (f : Fin 12) (thr : Fin 64) (g : Guard), Issues s gAlways x → (∀ p ∈ x.present, (x.crew.sheaf p.2).flag f ≤ thr) →
    (∀ q ∈ x.crew.posted, q.flag ≠ some f.val) →
    ∃ t y, Ran (.waitf f thr g) s t { x with grp := { x.grp with ranWait := false, noShadow := false } } y ∧ ∀ c, y.cell c = x.cell c) ∧
  (∀ (s : State) (x : Iss) (n : Fin 64) (g : Guard), Issues s g x →
    ∃ t y, exec (.mark n g) s = .next t ∧ t.context x.cur = some y ∧ (∀ c, y.cell c = x.cell c) ∧ y.crew.memories = x.crew.memories) ∧
  (∀ (s : State) (x : Iss) (sz : LdSize) (zk : LdkSize) (zs : StSize) (sp : TSpace) (wide : Bool) (c : CacheP) (o : Option Ord) (k : Fin 30)
    (d a b : Operand) (g : Guard), Issues s g x → x.active = [] → FlagFree x.crew (homesOf x.present) (flagA x.cur.hdr) →
    FlagFree x.crew (homesOf x.present) (flagB x.cur.hdr) →
    ∀ i ∈ [Instr.ld sz c o d a b g, .lds sz d a b g, .ldt sp wide d a b g, .ldk zk c k a b g, .st zs c o d a b g, .sts zs d a b g,
      .stt sp wide d a b g],
    ∃ t y, Ran i s t x y ∧ ∀ c, y.cell c = x.cell c) ∧
  ∀ (s : State) (x z : Iss) (s1 : State) (op : RmwOp) (o : Option Ord) (cap : Fin 32) (len : Fin 64) (d a b : Operand) (g : Guard),
    Commits s g x z s1 → x.active = [] → FlagFree z.crew (homesOf x.present) (flagA x.cur.hdr) →
    FlagFree z.crew (homesOf x.present) (flagB x.cur.hdr) → len.val < 32 →
    ∀ i ∈ [Instr.atom op o d a b g, .red op o a b g, .atoms op o d a b g, .msgp cap a b g, .msgs len a b g, .barpa d a b g, .barpw d a b g],
    ∃ t y, Filed i s s1 t x z y [] none

/-- Where events that act on caches, frames, BD's conversation, counters, leases,
traces, debugging, replay and trials complete, each with its own effect: what it takes, gives, sets or ends (R121 to R128,
R357 to R362, R371, R391, R402 to R412, R416, R417, R421 to R423).
(Answers' bytes, page-move refusals, refills and the numbers of units are the model's choices, assumptions 15, 44, 47 and 60.) -/
def Obligations.EventsComplete : Prop :=
  (∀ (core line k : Nat) (s : State) (r : L2Req), servedReq s core line = some (k, r) → flawedAt s r.vf (keyPa line) = false →
    Gives (.l1FillLand core line) s fun t => line ∉ (t.core core).fills ∧ (l1Line t core line).isSome = true) ∧
  (∀ (core line : Nat) (s : State) (l : L1Line), l1Line s core line = some l → l.dirty ≠ 0 → Flaw.l1 core line ∉ s.flaws →
    Gives (.l1DirtyWriteback core line) s fun t => t.wbufs = s.wbufs ++ [wbOf core line l]) ∧
  (∀ (core line : Nat) (s : State) (l : L1Line), l1Line s core line = some l → Flaw.l1 core line ∉ s.flaws → Map.wf (s.core core).l1 = true →
    Gives (.l1LineExpiry core line) s fun t => l1Line t core line = none) ∧
  (∀ (slice : Nat) (s : State) (r : L2Req), nextHeld s slice = some (r, s) → r.why = .l1 → sliceOf (s.vf r.vf).cfg (keyPa r.line) = slice →
    Gives (.l2RequestAccept slice) s fun t => ∃ e ∈ (t.slice slice).entries, e.core = r.core ∧ e.line = r.line) ∧
  (∀ (channel : Nat) (s : State) (q : HbmReq), nextServed s (s.channel channel) = some q →
    Gives (.hbmChannelServe channel) s fun t => (t.channel channel).queue = (s.channel channel).queue.erase q) ∧
  (∀ (channel vf : Nat) (s : State) (v : Vf), Map.wf s.vfs = true → Map.find? s.vfs vf = some v → v.state ≠ 0 →
    Gives (.hbmTokenRefill channel) s fun t =>
      Map.get (t.channel channel).gTok vf 0 = min v.cfg.gDepth (Map.get (s.channel channel).gTok vf 0 + v.cfg.gShare)) ∧
  (∀ (slice line : Nat) (s : State) (h : Bool), (s.slice slice).misses.find? (fun m => m.1 == line) = some (line, h, true) →
    Flaw.hbm line ∉ s.flaws → Gives (.l2Fill slice line) s fun t => ∀ m ∈ (t.slice slice).misses, m.1 ≠ line) ∧
  (∀ (die line : Nat) (s : State) (w : WriteBack), s.wbufs.find? (fun w => w.die == die && w.line == line && !w.sent) = some w →
    keyDev line = 0 → Gives (.writeBackAcknowledgement die line) s fun t => t.wbufs = s.wbufs.erase w) ∧
  (∀ (line : Nat) (s : State), Gives (.patrolScrub false line .uncorrectable) s fun t => islandFenced t (pairIsland line) = true) ∧
  (∀ (f : Frame) (s : State) (pa n trk vf : Nat), f.port ∈ usablePorts s → f.ftype = s.ftype → f.device ≠ 0 → Map.get s.fdev f.device 0 ≠ 0 →
    f.body = .readReq pa n trk → ownerOf s pa n = some vf →
    Gives (.fabricFrameReceive f) s fun t =>
      ∃ r ∈ (Map.get t.slices (sliceOf (s.vf vf).cfg (keyPa (lineKey 0 pa))) Slice.init).held, r.why = .peer f ∧ r.line = lineKey 0 pa) ∧
  (∀ (device i n : Nat) (s : State) (r : Tracker) (o : Op) (g : Grid), s.trackers = [(i, r)] → r.device = device → r.line = none →
    r.cmd = none → r.op = some n → Map.find? s.ops n = some o → copyRun s n o = none → Map.find? s.grids o.grid = some g →
    (∀ c, Map.find? s.crews o.crew = some c → ∀ p ∈ o.lanes, (c.thread p).handler = false) →
    Gives (.peerTimeout device) s fun t => t.trackers = [] ∧
      ∃ g', Map.find? t.grids o.grid = some g' ∧ g'.first = some (g.first.getD .remoteUnreachable)) ∧
  (∀ (f vf pin : Nat) (s : State), f < frameCount → vf < 256 → pin < 2 → (s.frame f).owner = vf →
    Gives (.fown (dword (f + vf * 2 ^ 24 + pin * 2 ^ 32))) s fun t =>
      t.fstat = false ∧ (t.frame f).owner = vf ∧ (t.frame f).pin = decide (pin = 1)) ∧
  (∀ (n : Word) (s : State), s.rcstat.getLsbD 31 = false → 1 ≤ n.toNat → n.toNat ≤ 4096 →
    Gives (.reclaimSweep n) s fun t => t.rcstat = word (2 ^ 31) ∧ t.rcWanted = n.toNat) ∧
  (∀ (s : State), s.rcstat.getLsbD 31 = true → s.rcVict = [] → s.rcWanted ≤ 4096 →
    Gives .reclaimSweepEnd s fun t => t.rcstat.getLsbD 31 = false ∧ t.rcstat.toNat ≤ s.rcWanted) ∧
  (∀ (src dst : Dword) (ctl : Word) (s : State), ctl.getLsbD 31 = true → s.pmove = none →
    let m : PMove := { src := src, dst := dst, ctl := ctl }
    m.refused s = false → ∀ q ∈ [(Instr.pageMoveFrame src dst ctl, 0), (.pageMoveToStore src dst ctl, 1), (.pageMoveFromStore src dst ctl, 2)],
      bitsOf ctl.toNat 1 0 = q.2 → Gives q.1 s fun t => t.pmove = some { m with born := s.seq } ∧ t.pmstat = 0) ∧
  (∀ (s : State) (m : PMove), s.pmove = some m → m.dir = 0 → moveTurn s m = true → moveFlaw s m = none →
    Gives .pageMoveDone s fun t => t.pmove = none) ∧
  (∀ (s : State) (m : PMove) (line : Nat), s.pmove = some m → moveTurn s m = true → moveFlaw s m = some line →
    Gives .pageMoveDone s fun t => t.pmove = none ∧ t.pmstat = 1) ∧
  (∀ (req : List Byte) (s : State), s.bdDown = false → s.pfReady = true →
    (Gives (.getVersion req) s fun t => t.doe.version = true) ∧
    (s.doe.version = true → Gives (.getCapabilities req) s fun t => t.doe.caps = true) ∧
    (s.doe.caps = true → Gives (.negotiateAlgorithms req) s fun t => t.doe.algs = true) ∧
    (s.doe.algs = true → ∀ i ∈ [Instr.getDigests req, .getCertificate req], Gives i s fun t => ∃ r, t.doe.certs = s.doe.certs ++ req ++ r ∧
      t.doe.reply = r) ∧
    (s.doe.algs = true → Gives (.challenge req) s fun t => t.doe.challengeT = s.doe.vca ++ s.doe.certs ++ req ++ Config.spdmReply 0x83 req) ∧
    (s.doe.algs = true → Gives (.getMeasurements req) s fun t => ∃ r, t.doe.measT = s.doe.vca ++ req ++ r ∧
      t.doe.reply = r ++ Config.bdRsaSign (Config.sha384 t.doe.measT)) ∧
    (∀ p, vendorPayload req = some p → Gives (.vendorDefinedRequest req) s fun t => t.doe = { s.doe with reply := vendorAnswer s p }) ∧
    ∀ i ∈ [Instr.keyExchange req, .pskExchange req, .spdmOtherRequest req], Gives i s fun t => t.doe = { s.doe with reply := spdmError 0x07 }) ∧
  (∀ (fn n : Nat) (x : Word) (s : State) (b : Bank), selected s fn = some (b, false) →
    (n < bankCounters b.kind → eventListed b.kind (bitsOf x.toNat 15 0) = true →
      Gives (.cselWrite fn n x) s fun t => (counterRead t fn n).sel = selOf x) ∧
    Gives (.counterClear fn n) s fun t => (counterRead t fn n).count = 0 ∧ (counterRead t fn n).ovf = false) ∧
  (∀ (fn n : Nat) (s : State), Gives (.cntloRead fn n) s fun t => t.readOut.toNat = (counterRead s fn n).count.toNat % 2 ^ 32) ∧
  (∀ (fn n : Nat) (s : State) (w : Word), (s.fn fn).latch = some (n, (s.fn fn).bsel, w) →
    Gives (.cnthiRead fn n) s fun t => t.readOut = zx w) ∧
  (∀ (fn : Nat) (s : State), 0 < fn →
    ((s.vf fn).trialHeld = false → trialFn s fn = fn → Gives (.leaseRequest fn (lsWord 6 0)) s fun t => (t.vf fn).trialHeld = true) ∧
    ((s.vf fn).trialHeld = true → Gives (.leaseRelease fn (lsWord 6 0)) s fun t => (t.vf fn).trialHeld = false) ∧
    ((s.vf fn).trialHeld = true → Gives (.leaseRevoke 6 fn) s fun t => (t.vf fn).trialHeld = false)) ∧
  (∀ (cluster crew grp a ix core h : Nat) (s : State) (u : Trace) (w : Crew) (g : Grid) (gr : Group),
    Map.find? s.traces cluster = some u → u.wants 3 = true → u.follows s = some core →
    sampled s u.holder core = some (crew, grp, dword a, ix) → s.gridOf crew = some (w, g) → Map.find? w.groups grp = some gr →
    homesOf (gr.live w) = [h] → (u.tail - u.head).toNat < 2 ^ bitsOf u.ctl.toNat 3 0 →
    Gives (.tracePcSample cluster) s fun t => ∃ u', Map.find? t.traces cluster = some u' ∧ u'.tail = u.tail + 1) ∧
  (∀ (vf n : Nat) (ctl : Word) (s : State) (w : Crew) (g : Grid), debugTarget s vf ctl = some n → s.gridOf n = some (w, g) →
    (w.st = .resident → Gives (.debugStop vf ctl) s fun t => (t.vf vf).dbgstat = 0 ∧ CrewNow t n fun c => c.stop = true) ∧
    (w.stop = true → w.st = .stopped → Gives (.debugResume vf ctl) s fun t => (t.vf vf).dbgstat = 0 ∧ CrewNow t n fun c => c.stop = false) ∧
    (∀ y tab s1, w.isStopped = true → (saveRecord s n w g).length ≤ (s.vf vf).dbgdlen.toNat / 4096 * 4096 →
      let s0 := debugDone s vf ctl false
      osJoinAll s0.osets 0 (crewSets s0 n w) = .ok (y, tab) →
      gateCheck { s0 with osets := tab } hostGate (saveRecord s n w g).length y (hostDest s0 vf) = some s1 → Memory.wf s.host = true →
      Gives (.debugDump vf ctl) s fun t => (t.vf vf).dbgstat = 0 ∧
        Memory.readN t.host ((s.vf vf).dbgdump.toNat / 4096 * 4096) (saveRecord s n w g).length = saveRecord s n w g)) ∧
  (∀ (vf : Nat) (s : State), (∀ g ∈ s.grids, g.2.vf = vf → g.2.done = true) →
    ∀ p ∈ [(Instr.replayOff vf, 0), (.recordMode vf, 1), (.replayMode vf, 2)], Gives p.1 s fun t => (t.vf vf).replay.mode = p.2) ∧
  ∀ (fn : Nat) (ctl : Word) (s : State), let r := (s.fn fn).trial
    ((s.fn fn).trialHeld = true → r.busy = false → r.lo.toNat < r.hi.toNat → bitsOf ctl.toNat 15 0 ≠ 0 →
      Gives (.trialStart fn ctl) s fun t => (t.fn fn).trial.busy = true) ∧
    (r.busy = true → r.due.toNat ≤ s.gtime.toNat → Gives (.trialEnd fn) s fun t => (t.fn fn).trial.busy = false)

/-- R291 to R294, R300 to R302: XMMA files its requests; XZERO and XREQ go into flight; XOSQ reads a unit's origin set. -/
def Obligations.MatrixRequestsFiled : Prop := Sys2Proof.Claims.MatrixRequests ∧ Sys2Proof.Claims.TileOperationsGoIntoFlight ∧ Sys2Proof.Claims.UnitSetRead

/-- R108, R229 to R233, R254: the cross-lane forms and reductions, integer and floating-point. -/
def Obligations.CrossLane : Prop := Sys2Proof.Claims.CrossLaneResults ∧ Sys2Proof.Claims.FloatReductions
end

