-- ==== Sys2Proof/Laws/Bits.lean ====
section
/-! SUPPORT. What the sparse tables, the lanes and the memories do: a read after a write, and the canonical form. -/

namespace Sys2Proof.Machine

/-! ## Tables -/

@[simp] theorem Map.find?_put_self {α : Type} (m : Map α) (k : Nat) (x : α) : Map.find? (Map.put m k x) k = some x := by
  induction m with
  | nil => simp [Map.put, Map.find?]
  | cons p rest ih =>
    obtain ⟨j, y⟩ := p
    simp only [Map.put]
    split
    · simp [Map.find?]
    · split
      · simp [Map.find?]
      · simp only [Map.find?]
        rw [if_neg (by assumption), if_neg (by assumption), ih]

theorem Map.find?_put_other {α : Type} (m : Map α) (k j : Nat) (x : α) (h : j ≠ k) :
    Map.find? (Map.put m k x) j = Map.find? m j := by
  induction m with
  | nil => simp only [Map.put, Map.find?]; split <;> [omega; split <;> rfl]
  | cons p rest ih =>
    obtain ⟨i, y⟩ := p
    simp only [Map.put]
    split
    · rename_i hk
      simp only [Map.find?]
      rw [if_neg (by omega)]
      by_cases hj : j < k
      · rw [if_pos hj, if_neg (by omega), if_pos (by omega)]
      · rw [if_neg hj]
    · split
      · simp only [Map.find?]
        rename_i hi
        subst hi
        simp only [if_neg (Ne.symm h)]
      · simp only [Map.find?, ih]

theorem Map.find?_put {α : Type} (m : Map α) (k j : Nat) (x : α) :
    Map.find? (Map.put m k x) j = if j = k then some x else Map.find? m j := by
  split
  · rename_i h; subst h; simp
  · rename_i h; exact Map.find?_put_other m k j x h

theorem Map.find?_mod {α : Type} (m : Map α) (k j : Nat) (f : α → α) :
    Map.find? (Map.mod m k f) j = if j = k then (Map.find? m j).map f else Map.find? m j := by
  induction m with
  | nil => simp [Map.mod, Map.find?]
  | cons p rest ih =>
    obtain ⟨i, y⟩ := p
    simp only [Map.mod]
    by_cases hi : i = k
    · subst hi
      by_cases hj : i = j
      · subst hj; simp [Map.find?]
      · simp only [Map.find?, if_pos, if_neg hj]
        simp only [if_neg (Ne.symm hj)]
    · rw [if_neg hi]
      simp only [Map.find?, ih]
      by_cases hj : i = j
      · subst hj; rw [if_pos rfl, if_pos rfl, if_neg hi]
      · rw [if_neg hj, if_neg hj]
        by_cases hlt : j < i
        · rw [if_pos hlt, if_pos hlt]; simp
        · rw [if_neg hlt, if_neg hlt]

@[simp] theorem Map.get_put_self {α : Type} (m : Map α) (k : Nat) (x d : α) : Map.get (Map.put m k x) k d = x := by
  simp [Map.get]

theorem Map.get_put {α : Type} (m : Map α) (k j : Nat) (x d : α) :
    Map.get (Map.put m k x) j d = if j = k then x else Map.get m j d := by
  simp only [Map.get, Map.find?_put]; split <;> rfl

/-! ## Lanes -/

theorem laneGet_set {α : Type} (xs : Lanes α) (l j : Nat) (x d : α) (h : l < 32) :
    laneGet (laneSet xs l x) j d = if j = l then x else laneGet xs j d := by
  unfold laneGet laneSet
  rw [Vector.getElem?_setIfInBounds]
  by_cases hj : j = l
  · subst hj; simp [h]
  · rw [if_neg (Ne.symm hj), if_neg hj]

/-! ## Memory -/

/-- Every address of a memory in canonical form lies above one. -/
theorem Memory.wf_tail {p : Host.Cell} {m : Memory} (h : Memory.wf (p :: m) = true) :
    p.2 ≠ memDefault ∧ (∀ q ∈ m, p.1 < q.1) ∧ Memory.wf m = true := by
  simpa [Memory.wf, and_assoc] using h

/-- A read below every listed address is the default. -/
theorem Memory.read_below (m : Memory) (a : Nat) (h : ∀ q ∈ m, a < q.1) : Memory.read m a = memDefault := by
  cases m with
  | nil => rfl
  | cons p rest =>
    have := h p (by simp)
    obtain ⟨j, x⟩ := p
    simp only [Memory.read]
    rw [if_neg (by simp at this; omega), if_pos (by simpa using this)]

/-- Every address that a write lists was listed or is the one written. -/
theorem Memory.mem_write (m : Memory) (a : Nat) (b : Byte) (q : Host.Cell) (h : q ∈ Memory.write m a b) :
    q ∈ m ∨ (q.1 = a ∧ q.2 = b ∧ b ≠ memDefault) := by
  induction m with
  | nil =>
    simp only [Memory.write] at h
    split at h
    · cases h
    · simp only [List.mem_singleton] at h; subst h; exact .inr ⟨rfl, rfl, by assumption⟩
  | cons p rest ih =>
    obtain ⟨j, x⟩ := p
    simp only [Memory.write] at h
    split at h
    · split at h
      · exact .inl h
      · rcases List.mem_cons.1 h with h | h
        · subst h; exact .inr ⟨rfl, rfl, by assumption⟩
        · exact .inl h
    · split at h
      · split at h
        · exact .inl (by simp [h])
        · rcases List.mem_cons.1 h with h | h
          · subst h; exact .inr ⟨rfl, rfl, by assumption⟩
          · exact .inl (by simp [h])
      · rcases List.mem_cons.1 h with h | h
        · exact .inl (by simp [h])
        · rcases ih h with h | h
          · exact .inl (by simp [h])
          · exact .inr h

/-- A write keeps the canonical form. -/
theorem Memory.wf_write (m : Memory) (a : Nat) (b : Byte) (h : Memory.wf m = true) : Memory.wf (Memory.write m a b) = true := by
  induction m with
  | nil => simp only [Memory.write]; split <;> simp_all [Memory.wf]
  | cons p rest ih =>
    have hp := Memory.wf_tail h
    obtain ⟨j, x⟩ := p
    simp only [Memory.write]
    split
    · split
      · exact h
      · rename_i ha hb
        simp only [Memory.wf, Bool.and_eq_true, decide_eq_true_eq, List.all_eq_true]
        refine ⟨⟨hb, fun q hq => ?_⟩, by simpa [Memory.wf] using h⟩
        rcases List.mem_cons.1 hq with e | e
        · subst e; exact ha
        · exact Nat.lt_trans ha (hp.2.1 q e)
    · split
      · rename_i ha hj
        split
        · exact hp.2.2
        · rename_i hb
          simp only [Memory.wf, Bool.and_eq_true, decide_eq_true_eq, List.all_eq_true]
          exact ⟨⟨hb, fun q hq => hj ▸ hp.2.1 q hq⟩, hp.2.2⟩
      · rename_i ha hj
        simp only [Memory.wf, Bool.and_eq_true, decide_eq_true_eq, List.all_eq_true]
        refine ⟨⟨hp.1, fun q hq => ?_⟩, ih hp.2.2⟩
        rcases Memory.mem_write rest a b q hq with e | e
        · exact hp.2.1 q e
        · rw [e.1]; omega

/-- Writing bytes keeps the canonical form. -/
theorem Memory.wf_writeN (bs : List Byte) (m : Memory) (a : Nat) (h : Memory.wf m = true) :
    Memory.wf (Memory.writeN m a bs) = true := by
  induction bs generalizing m a with
  | nil => exact h
  | cons b rest ih => exact ih _ _ (Memory.wf_write m a b h)

/-- A filtered memory keeps the canonical form. -/
theorem Memory.wf_filter (m : Memory) (f : Host.Cell → Bool) (h : Memory.wf m = true) : Memory.wf (m.filter f) = true := by
  induction m with
  | nil => exact h
  | cons p rest ih =>
    have hp := Memory.wf_tail h
    simp only [List.filter_cons]
    split
    · simp only [Memory.wf, Bool.and_eq_true, decide_eq_true_eq, List.all_eq_true]
      exact ⟨⟨hp.1, fun q hq => hp.2.1 q (List.mem_of_mem_filter hq)⟩, ih hp.2.2⟩
    · exact ih hp.2.2

/-- A read after a write, in a memory in canonical form. -/
theorem Memory.read_write (m : Memory) (a b : Nat) (x : Byte) (h : Memory.wf m = true) :
    Memory.read (Memory.write m a x) b = if b = a then x else Memory.read m b := by
  induction m with
  | nil =>
    simp only [Memory.write, Memory.read]
    split
    · rename_i hx; subst hx; simp [Memory.read]
    · simp only [Memory.read]
      by_cases hb : b = a
      · simp [hb]
      · rw [if_neg (fun e => hb e.symm), if_neg hb]; split <;> rfl
  | cons p rest ih =>
    have hp := Memory.wf_tail h
    obtain ⟨j, y⟩ := p
    simp only [Memory.write]
    split
    · rename_i ha
      split
      · rename_i hx
        by_cases hb : b = a
        · subst hb; rw [if_pos rfl, hx]; simp only [Memory.read]; rw [if_neg (by omega), if_pos ha]
        · rw [if_neg hb]
      · simp only [Memory.read]
        by_cases hb : b = a
        · simp [hb]
        · rw [if_neg (fun e => hb e.symm), if_neg hb]
          by_cases hlt : b < a
          · rw [if_pos hlt, if_neg (by omega), if_pos (by omega)]
          · rw [if_neg hlt]
    · rename_i ha
      split
      · rename_i hj
        subst hj
        have hbelow : Memory.read rest j = memDefault := Memory.read_below rest j hp.2.1
        split
        · rename_i hx
          by_cases hb : b = j
          · subst hb; simp [hx, hbelow]
          · rw [if_neg hb]; simp only [Memory.read]; rw [if_neg (fun e => hb e.symm)]
            by_cases hlt : b < j
            · rw [if_pos hlt]
              exact Memory.read_below rest b fun q hq => Nat.lt_trans hlt (hp.2.1 q hq)
            · rw [if_neg hlt]
        · simp only [Memory.read]
          by_cases hb : b = j
          · simp [hb]
          · simp only [if_neg (Ne.symm hb), if_neg hb]
      · rename_i hj
        simp only [Memory.read, ih hp.2.2]
        by_cases hb : j = b
        · subst hb; rw [if_pos rfl, if_neg (by omega), if_pos rfl]
        · rw [if_neg hb, if_neg hb]
          by_cases hlt : b < j
          · rw [if_pos hlt, if_pos hlt, if_neg (by omega)]
          · rw [if_neg hlt, if_neg hlt]

end Sys2Proof.Machine
end

