-- ==== Sys2Proof/Laws/Joins.lean ====
section
/-! SUPPORT. Folds that may stop, and joins of origin sets: where joins fit, every fold of joins succeeds and the table only
grows. -/

namespace Sys2Proof.Machine

/-- A fold whose every step succeeds and keeps P succeeds and keeps P. -/
theorem foldE_inv {ε σ α : Type} (f : σ → α → Except ε σ) (P : σ → Prop) (ys : List α) (x : σ) (hx : P x)
    (hf : ∀ a y, y ∈ ys → P a → ∃ b, f a y = .ok b ∧ P b) : ∃ z, foldE f x ys = .ok z ∧ P z := by
  induction ys generalizing x with
  | nil => exact ⟨x, rfl, hx⟩
  | cons y rest ih =>
    obtain ⟨b, hb, hP⟩ := hf x y (by simp) hx
    simp only [foldE, hb]
    exact ih b hP fun a z hz => hf a z (by simp [hz])

/-- A fresh key is not listed. -/
theorem Map.fresh_unlisted {α : Type} (m : Map α) (n start k : Nat) (h : Map.fresh m start n = some k) :
    Map.find? m k = none := by
  induction n generalizing start with
  | zero => simp [Map.fresh] at h
  | succ n ih =>
    simp only [Map.fresh] at h
    split at h
    · exact ih _ h
    · rename_i hh
      simp only [Option.some.injEq] at h
      subst h
      simpa [Map.has] using hh

/-- A table holds every entry of another. -/
def Grows (t t' : Map OEntry) : Prop := ∀ i e, Map.find? t i = some e → Map.find? t' i = some e

theorem Grows.refl (t : Map OEntry) : Grows t t := fun _ _ h => h

theorem Grows.trans {t t' t'' : Map OEntry} (h : Grows t t') (h' : Grows t' t'') : Grows t t'' := fun i e he => h' i e (h i e he)

/-- Making an entry keeps every other. -/
theorem osMake_grows {t t' : Map OEntry} {ps : List Nat} {u : OSet} (h : osMake t ps = .ok (u, t')) : Grows t t' := by
  unfold osMake at h
  split at h
  · cases h; exact Grows.refl t
  · split at h
    · rename_i i hi
      cases h
      intro j e he
      rw [Map.find?_put]
      split
      · rename_i hj
        subst hj
        rw [Map.fresh_unlisted _ _ _ _ hi] at he
        cases he
      · exact he
    · cases h

/-- A join keeps every entry of the table. -/
theorem osJoinAll_grows {t t' : Map OEntry} {a u : OSet} {bs : List OSet} (h : osJoinAll t a bs = .ok (u, t')) : Grows t t' := by
  unfold osJoinAll at h
  split at h
  · cases h; exact Grows.refl t
  · split at h
    · cases h; exact Grows.refl t
    · cases h; exact Grows.refl t
    · simp only at h
      split at h
      · cases h
      · exact osMake_grows h

/-- Tables that hold the first one's entries, in each of which any sets have a join. -/
structure Fit (t : Map OEntry) (P : Map OEntry → Prop) : Prop where
  here : P t
  grows : ∀ t', P t' → Grows t t'
  join : ∀ t' a bs, P t' → ∃ u t'', osJoinAll t' a bs = .ok (u, t'') ∧ P t''

theorem JoinsFit.fit {t : Map OEntry} (h : JoinsFit t) : ∃ P, Fit t P := by
  obtain ⟨P, hP, hj⟩ := h
  refine ⟨fun t' => P t' ∧ Grows t t', ⟨hP, Grows.refl t⟩, fun _ h => h.2, fun t' a bs ht => ?_⟩
  obtain ⟨u, t'', hu, hp⟩ := hj t' a bs ht.1
  exact ⟨u, t'', hu, hp, ht.2.trans (osJoinAll_grows hu)⟩

/-- Where joins fit, the join of many sets succeeds. -/
theorem Fit.joinAll {t : Map OEntry} {P : Map OEntry → Prop} (h : Fit t P) (bs : List OSet) (t' : Map OEntry) (a : OSet)
    (ht : P t') : ∃ u t'', osJoinAll t' a bs = .ok (u, t'') ∧ P t'' := h.join t' a bs ht

/-- A table of the empty set alone fits every join. -/
theorem joinsFit_empty : JoinsFit [(0, { prins := [], retired := false })] := by
  refine ⟨fun t => t = [(0, { prins := [], retired := false })], rfl, ?_⟩
  rintro _ a bs rfl
  have e : ∀ i, osEntry [(0, { prins := [], retired := false })] i = { prins := [], retired := false } := by
    intro i
    simp only [osEntry, Map.get, Map.find?]
    split
    · rfl
    · split <;> rfl
  have q : osPrins [(0, { prins := [], retired := false })] = fun _ => [] := by funext i; simp [osPrins, e]
  have r : osRetired [(0, { prins := [], retired := false })] (a :: bs) = [] := by simp [osRetired, e, ascending]
  unfold osJoinAll
  rw [r]
  simp only
  split
  · exact ⟨_, _, rfl, rfl⟩
  · exact ⟨_, _, rfl, rfl⟩
  · refine ⟨0, _, ?_, rfl⟩
    have z : ∀ is : List Nat, is.flatMap (osPrins [(0, { prins := [], retired := false })]) = [] := by
      intro is; rw [q]; exact List.flatMap_eq_nil_iff.2 fun _ _ => rfl
    simp [z, ascending, osMake, osFind]

end Sys2Proof.Machine
end

