-- ==== Sys2Proof/Laws/Writes.lean ====
section
/-! SUPPORT. What a register write does, said once for each destination: which place holds what afterwards, and that
everything else of the issue group and its crew is as it was. -/

namespace Sys2Proof.Machine

/-! ## Home sheaves and threads -/

theorem Crew.sheaf_modSheaf (c : Crew) (h j : Nat) (f : Sheaf → Sheaf) (hh : h < c.sheaves.length) :
    (c.modSheaf h f).sheaf j = if j = h then f (c.sheaf h) else c.sheaf j := by
  simp only [Crew.sheaf, Crew.modSheaf, List.getElem?_modify]
  by_cases hj : j = h
  · subst hj
    simp [List.getElem?_eq_getElem hh]
  · have hj' : ¬ h = j := fun e => hj e.symm
    simp only [if_neg hj, if_neg hj']
    cases c.sheaves[j]? <;> rfl

@[simp] theorem Crew.modSheaf_length (c : Crew) (h : Nat) (f : Sheaf → Sheaf) :
    (c.modSheaf h f).sheaves.length = c.sheaves.length := by
  simp [Crew.modSheaf]

/-- A sheaf that a change leaves alone where it is not there. -/
theorem Crew.modSheaf_none (c : Crew) (h : Nat) (f : Sheaf → Sheaf) (hh : ¬ h < c.sheaves.length) : c.modSheaf h f = c := by
  have : c.sheaves.modify h f = c.sheaves := by
    apply List.ext_getElem?
    intro i
    rw [List.getElem?_modify]
    by_cases hi : h = i
    · subst hi
      rw [List.getElem?_eq_none (by omega)]; simp
    · simp [hi]
  simp [Crew.modSheaf, this]

/-- A change that leaves the registers of a sheaf leaves its crew's. -/
theorem Crew.sheaf_modSheaf_prop {α : Type} (c : Crew) (h j : Nat) (f : Sheaf → Sheaf) (q : Sheaf → α)
    (hq : ∀ z, q (f z) = q z) : q ((c.modSheaf h f).sheaf j) = q (c.sheaf j) := by
  by_cases hh : h < c.sheaves.length
  · rw [Crew.sheaf_modSheaf c h j f hh]
    split
    · rename_i e; subst e; exact hq _
    · rfl
  · rw [Crew.modSheaf_none c h f hh]

/-! ## The frame of a register write -/

/-- A home sheaf but for its registers and predicates. -/
def Sheaf.sansFile (h : Sheaf) : Sheaf :=
  { h with main := [], mainS := [], k := [], kS := [], p := [], pS := [], mainW := [], mainWS := [] }

/-- What any register write leaves alone: y is x but for register and predicate storage. -/
structure Touch (x y : Iss) : Prop where
  cur : y.cur = x.cur
  grid : y.grid = x.grid
  present : y.present = x.present
  active : y.active = x.active
  crew : { y.crew with sheaves := [], slotS := [] } = { x.crew with sheaves := [], slotS := [] }
  count : y.crew.sheaves.length = x.crew.sheaves.length
  sheaf : ∀ h, (y.crew.sheaf h).sansFile = (x.crew.sheaf h).sansFile
  grp : { y.grp with regions := [], wHash := 0 } = { x.grp with regions := [], wHash := 0 }
  regions : y.grp.regions.map Region.sansSlots = x.grp.regions.map Region.sansSlots

theorem Touch.refl (x : Iss) : Touch x x := ⟨rfl, rfl, rfl, rfl, rfl, rfl, fun _ => rfl, rfl, rfl⟩

theorem Touch.trans {x y z : Iss} (h : Touch x y) (k : Touch y z) : Touch x z :=
  ⟨k.cur.trans h.cur, k.grid.trans h.grid, k.present.trans h.present, k.active.trans h.active, k.crew.trans h.crew,
   k.count.trans h.count, fun i => (k.sheaf i).trans (h.sheaf i), k.grp.trans h.grp, k.regions.trans h.regions⟩

/-- The region a lane position stands in, but for what its slots hold, by the regions' maps and lanes. -/
theorem regionOf_sansSlots (g : Group) (l : Nat) :
    (regionOf g l).map Region.sansSlots = (g.regions.map Region.sansSlots).find? fun r => r.lanes.contains l := by
  unfold regionOf
  rw [List.find?_map]
  rfl

theorem xregSlot_congr {g g' : Group} (h : g'.regions.map Region.sansSlots = g.regions.map Region.sansSlots) (l v : Nat) :
    xregSlot g' l v = xregSlot g l v := by
  have e : (regionOf g' l).map Region.sansSlots = (regionOf g l).map Region.sansSlots := by
    rw [regionOf_sansSlots, regionOf_sansSlots, h]
  have q : ∀ o : Option Region, (o.bind fun r => mapSlot r.map v) = ((o.map Region.sansSlots).bind fun r => mapSlot r.map v) := by
    intro o; cases o <;> rfl
  unfold xregSlot
  rw [q, q (regionOf g l), e]

theorem regCell_congr {x y : Iss} (h : Touch x y) (o : Operand) (i : Nat) (p : Nat × Nat) : regCell y o i p = regCell x o i p := by
  cases o <;> simp only [regCell]
  rw [xregSlot_congr h.regions]

/-- The i-th registers of an operand for two numbers i are different places. -/
theorem regCell_inj {x : Iss} {o : Operand} {i j : Nat} {p q : Nat × Nat} {c : Cell} (h : regCell x o i p = some c)
    (k : regCell x o j q = some c) : i = j := by
  cases o with
  | w n => simp only [regCell, Option.some.injEq] at h k; subst h; simp only [Cell.slot.injEq] at k; omega
  | k n => simp only [regCell, Option.some.injEq] at h k; subst h; simp only [Cell.k.injEq] at k; omega
  | z => cases h
  | lit w => cases h
  | v n =>
    simp only [regCell] at h k
    split at h
    · rename_i a ha
      split at k
      · rename_i b hb
        simp only [Option.some.injEq] at h k
        subst h
        simp only [Cell.slot.injEq] at k
        obtain ⟨e, rfl⟩ := k
        rw [e] at hb
        simp only [xregSlot] at ha hb
        cases hr : regionOf x.grp p.1 with
        | none => rw [hr] at ha; cases ha
        | some r =>
          rw [hr] at ha hb
          simp only [Option.bind_some, mapSlot] at ha hb
          (split at ha <;> split at hb <;> simp_all); omega
      · simp only [Option.some.injEq] at h k; subst h; cases k
    · split at k
      · simp only [Option.some.injEq] at h k; subst h; cases k
      · simp only [Option.some.injEq] at h k; subst h; simp only [Cell.main.injEq] at k; omega

/-! ## Slots -/

/-- The value of a slot at a lane position. -/
def slotVal (g : Group) (l i : Nat) : Option Word := (slotOf g l i).map fun sl => laneGet sl.vals l 0

/-- Writing a slot in one lane: that lane's value, and no other's. -/
theorem slotVal_putSlotLane (g : Group) (l i : Nat) (v : Word) (hl : l < 32) (l' j : Nat) :
    slotVal (putSlotLane g l i v) l' j = if l' = l ∧ j = i then (slotVal g l i).map fun _ => v else slotVal g l' j := by
  have q : regionOf (putSlotLane g l i v) l' = (regionOf g l').map fun r => if r.lanes.contains l then
      { r with slots := Map.mod r.slots i fun sl => { sl with vals := laneSet sl.vals l v, dirty := laneSet sl.dirty l true } } else r := by
    simp only [regionOf, putSlotLane, noteWrite, modRegion]
    rw [List.find?_map]
    congr 1
    apply List.find?_congr
    intro r _
    simp only [Function.comp]
    split <;> rfl
  unfold slotVal slotOf
  rw [q]
  cases hr : regionOf g l' with
  | none =>
    by_cases e : l' = l
    · subst e; simp [hr]
    · rw [if_neg (fun z : l' = l ∧ j = i => e z.1)]; simp
  | some r =>
    have hc : r.lanes.contains l' = true := by
      have := List.find?_some hr
      exact this
    simp only [Option.map_some, Option.bind_some]
    by_cases e : l' = l
    · subst e
      rw [if_pos hc]
      simp only [hr, Option.bind_some]
      rw [Map.find?_mod]
      by_cases ej : j = i
      · subst ej
        simp only [if_true, and_self]
        cases Map.find? r.slots j with
        | none => rfl
        | some sl => simp [laneGet_set _ _ _ _ _ hl]
      · simp [ej]
    · rw [if_neg (fun z : l' = l ∧ j = i => e z.1)]
      split
      · rw [Map.find?_mod]
        split
        · cases Map.find? r.slots j with
          | none => rfl
          | some sl => simp [laneGet_set _ _ _ _ _ hl, e]
        · rfl
      · rfl

theorem putSlotLane_sans (g : Group) (l i : Nat) (v : Word) :
    (putSlotLane g l i v).regions.map Region.sansSlots = g.regions.map Region.sansSlots := by
  simp only [putSlotLane, noteWrite, modRegion, List.map_map]
  apply List.map_congr_left
  intro r _
  simp only [Function.comp]
  split <;> rfl

/-- Writing a slot in several lanes, the same value wherever a lane stands twice. -/
theorem slotVal_putSlotLanes (i : Nat) (vs : List ((Nat × Nat) × Word)) (hl : ∀ v ∈ vs, v.1.1 < 32)
    (hc : ∀ v ∈ vs, ∀ v' ∈ vs, v.1.1 = v'.1.1 → v.2 = v'.2) (g : Group) :
    (∀ v ∈ vs, slotVal (vs.foldl (fun g v => putSlotLane g v.1.1 i v.2) g) v.1.1 i = (slotVal g v.1.1 i).map fun _ => v.2) ∧
    (∀ l j, (∀ v ∈ vs, ¬(l = v.1.1 ∧ j = i)) →
      slotVal (vs.foldl (fun g v => putSlotLane g v.1.1 i v.2) g) l j = slotVal g l j) := by
  induction vs generalizing g with
  | nil => exact ⟨fun v hv => absurd hv (by simp), fun _ _ _ => rfl⟩
  | cons w rest ih =>
    obtain ⟨hit, miss⟩ := ih (fun v hv => hl v (by simp [hv])) (fun v hv v' hv' => hc v (by simp [hv]) v' (by simp [hv']))
      (putSlotLane g w.1.1 i w.2)
    have hw := slotVal_putSlotLane g w.1.1 i w.2 (hl w (by simp))
    simp only [List.foldl_cons]
    constructor
    · intro v hv
      by_cases hr : ∃ v' ∈ rest, v'.1.1 = v.1.1
      · obtain ⟨v', hv', e⟩ := hr
        have h := hit v' hv'
        rw [e, hc v' (by simp [hv']) v hv e] at h
        rw [h, hw]
        split
        · rename_i q; rw [q.1]; cases slotVal g w.1.1 i <;> rfl
        · rfl
      · have e : v = w := by
          rcases List.mem_cons.1 hv with h | h
          · exact h
          · exact absurd ⟨v, h, rfl⟩ hr
        subst e
        rw [miss _ _ fun v' hv' q => hr ⟨v', hv', q.1.symm⟩, hw]
        simp
    · intro l j hm
      rw [miss l j fun v hv => hm v (by simp [hv]), hw, if_neg (hm w (by simp))]

theorem putSlotLanes_sans (i : Nat) (vs : List ((Nat × Nat) × Word)) (g : Group) :
    (vs.foldl (fun g v => putSlotLane g v.1.1 i v.2) g).regions.map Region.sansSlots = g.regions.map Region.sansSlots ∧
    { vs.foldl (fun g v => putSlotLane g v.1.1 i v.2) g with regions := [], wHash := 0 } = { g with regions := [], wHash := 0 } := by
  induction vs generalizing g with
  | nil => exact ⟨rfl, rfl⟩
  | cons w rest ih =>
    obtain ⟨h, h'⟩ := ih (putSlotLane g w.1.1 i w.2)
    exact ⟨h.trans (putSlotLane_sans g w.1.1 i w.2), h'.trans rfl⟩

/-- The set of a slot after a write: only the crew's sets of slots change, and joins that fit succeed. -/
theorem putSlotSet_fit {t0 : Map OEntry} {P : Map OEntry → Prop} (hf : Fit t0 P) (fam i : Nat) (m : RegionMap) (s : OSet)
    (full whole : Bool) (a : Crew × Map OEntry) (h : Nat) (ht : P a.2) :
    ∃ ss t', putSlotSet fam m i s full whole a h = .ok ({ a.1 with slotS := ss }, t') ∧ P t' := by
  unfold putSlotSet
  simp only
  split
  · exact ⟨_, _, rfl, ht⟩
  · obtain ⟨u, t', hu, hp⟩ := hf.join a.2 (Map.get (a.1.slotSets fam m i).sets h 0) [s] ht
    have hj : osJoin a.2 (Map.get (a.1.slotSets fam m i).sets h 0) s = .ok (u, t') := hu
    rw [hj]
    exact ⟨_, _, rfl, hp⟩

/-- The sets of slot i in every region: only the crew's sets of slots change, and joins that fit succeed. -/
theorem putSlotSets_fit {t0 t : Map OEntry} {P : Map OEntry → Prop} (hf : Fit t0 P) (c : Crew) (g : Group) (i : Nat)
    (ps all : List (Nat × Nat)) (s : OSet) (ht : P t) :
    ∃ ss t', putSlotSets c g i ps all s t = .ok ({ c with slotS := ss }, t') ∧ P t' := by
  have q := foldE_inv (putRegionSets g.family i ps all s) (fun a => (∃ ss, a.1 = { c with slotS := ss }) ∧ P a.2) g.regions (c, t)
    ⟨⟨c.slotS, rfl⟩, ht⟩ fun a r _ ha => by
      unfold putRegionSets
      split
      · exact ⟨a, rfl, ha⟩
      · exact foldE_inv _ (fun a => (∃ ss, a.1 = { c with slotS := ss }) ∧ P a.2) _ a ha fun b h _ hb => by
          obtain ⟨ss, t', h1, h2⟩ := putSlotSet_fit hf g.family i r.map s (allLanes all h) (allLanes (ps.filter fun p => r.lanes.contains p.1) h) b h hb.2
          obtain ⟨⟨ss', h3⟩, _⟩ := hb
          exact ⟨_, h1, ⟨ss, by rw [h3]⟩, h2⟩
  obtain ⟨⟨c', t'⟩, h1, ⟨ss, h2⟩, h3⟩ := q
  exact ⟨ss, t', by rw [← h2]; exact h1, h3⟩

/-! ## One register -/

/-- A write of values to the places of threads: each place holds its value, every other place what it held. -/
structure Wrote (x y : Iss) (f : Nat × Nat → Option Cell) (vs : List ((Nat × Nat) × Word)) : Prop where
  touch : Touch x y
  hit : ∀ v ∈ vs, ∀ c, f v.1 = some c → y.cell c = (x.cell c).map fun _ => v.2
  miss : ∀ c, (∀ v ∈ vs, f v.1 ≠ some c) → y.cell c = x.cell c

/-- The threads of a write are threads of the crew, and a place that two of them name takes one value. -/
structure Sound (x : Iss) (f : Nat × Nat → Option Cell) (vs : List ((Nat × Nat) × Word)) : Prop where
  lane : ∀ v ∈ vs, v.1.1 < 32
  home : ∀ v ∈ vs, v.1.2 < x.crew.sheaves.length
  one : ∀ v ∈ vs, ∀ v' ∈ vs, ∀ c, f v.1 = some c → f v'.1 = some c → v.2 = v'.2

/-- Writing a slot. -/
theorem writeSlotOf_spec {t0 t : Map OEntry} {P : Map OEntry → Prop} (hf : Fit t0 P) (x : Iss) (i : Nat)
    (vs : List ((Nat × Nat) × Word)) (all : List (Nat × Nat)) (s : OSet) (ht : P t)
    (hs : Sound x (fun p => some (.slot p.1 i)) vs) :
    ∃ y t', writeSlotOf x i vs all s t = .ok (y, t') ∧ Wrote x y (fun p => some (.slot p.1 i)) vs ∧ P t' := by
  have hv := slotVal_putSlotLanes i vs hs.lane (fun v hv v' hv' e => hs.one v hv v' hv' (.slot v.1.1 i) rfl (by simp [e])) x.grp
  have hn := putSlotLanes_sans i vs x.grp
  unfold writeSlotOf
  generalize vs.foldl (fun g v => putSlotLane g v.1.1 i v.2) x.grp = g at hv hn
  obtain ⟨ss, t', he, hp⟩ := putSlotSets_fit hf x.crew g i (vs.map (·.1)) all s ht
  simp only [he]
  refine ⟨_, t', rfl, ⟨⟨rfl, rfl, rfl, rfl, rfl, rfl, fun _ => rfl, hn.2, hn.1⟩, ?_, ?_⟩, hp⟩
  · rintro v hv' c ⟨⟩
    exact hv.1 v hv'
  · intro c hc
    cases c with
    | slot l j =>
      refine hv.2 l j fun v hv' q => hc v hv' ?_
      rw [q.1, q.2]
    | main _ _ _ => rfl
    | k _ _ => rfl
    | pred _ _ _ => rfl

/-- Nothing but origin sets and the hash of values changes. -/
structure Same (x y : Iss) : Prop where
  touch : Touch x y
  cells : ∀ c, y.cell c = x.cell c

theorem Same.refl (x : Iss) : Same x x := ⟨Touch.refl x, fun _ => rfl⟩

theorem Wrote.same {x y z : Iss} {f : Nat × Nat → Option Cell} {vs : List ((Nat × Nat) × Word)} (h : Wrote x y f vs)
    (k : Same y z) : Wrote x z f vs :=
  ⟨h.touch.trans k.touch, fun v hv c hc => (k.cells c).trans (h.hit v hv c hc), fun c hc => (k.cells c).trans (h.miss c hc)⟩

/-- A fold of writes of one place each. -/
theorem wrote_fold (w : Iss → (Nat × Nat) × Word → Iss) (f : Nat × Nat → Option Cell) (vs : List ((Nat × Nat) × Word))
    (hw : ∀ x v, v ∈ vs → v.1.1 < 32 → v.1.2 < x.crew.sheaves.length → Touch x (w x v) ∧
      ∀ c, (w x v).cell c = if f v.1 = some c then (x.cell c).map (fun _ => v.2) else x.cell c)
    (x : Iss) (hs : Sound x f vs) : Wrote x (vs.foldl w x) f vs := by
  induction vs generalizing x with
  | nil => exact ⟨Touch.refl x, fun v hv => absurd hv (by simp), fun _ _ => rfl⟩
  | cons a rest ih =>
    obtain ⟨ht, hc⟩ := hw x a (by simp) (hs.lane a (by simp)) (hs.home a (by simp))
    have h := ih (fun y v hv => hw y v (by simp [hv])) (w x a) ⟨fun v hv => hs.lane v (by simp [hv]), fun v hv => by rw [ht.count]; exact hs.home v (by simp [hv]),
      fun v hv v' hv' => hs.one v (by simp [hv]) v' (by simp [hv'])⟩
    simp only [List.foldl_cons]
    refine ⟨ht.trans h.touch, fun v hv c he => ?_, fun c hn => ?_⟩
    · by_cases hr : ∃ v' ∈ rest, f v'.1 = some c
      · obtain ⟨v', hv', e⟩ := hr
        rw [h.hit v' hv' c e, hs.one v' (by simp [hv']) v hv c e he, hc]
        split
        · cases x.cell c <;> rfl
        · rfl
      · have e : v = a := by
          rcases List.mem_cons.1 hv with k | k
          · exact k
          · exact absurd ⟨v, k, he⟩ hr
        subst e
        rw [h.miss c fun v' hv' q => hr ⟨v', hv', q⟩, hc, if_pos he]
    · rw [h.miss c fun v hv => hn v (by simp [hv]), hc, if_neg (hn a (by simp))]

/-- The crew of a context changed. -/
def Iss.onCrew (x : Iss) (c : Crew) : Iss := { x with crew := c }

theorem onCrew_fold (w : Crew → (Nat × Nat) × Word → Crew) (vs : List ((Nat × Nat) × Word)) (x : Iss) :
    vs.foldl (fun x v => x.onCrew (w x.crew v)) x = x.onCrew (vs.foldl w x.crew) := by
  induction vs generalizing x with
  | nil => rfl
  | cons v rest ih => simp only [List.foldl_cons, ih]; rfl

/-- A change of one home sheaf's registers or predicates. -/
theorem touch_modSheaf (x : Iss) (h : Nat) (f : Sheaf → Sheaf) (hf : ∀ z, (f z).sansFile = z.sansFile) :
    Touch x (x.onCrew (x.crew.modSheaf h f)) :=
  ⟨rfl, rfl, rfl, rfl, rfl, by simp [Iss.onCrew], fun j => Crew.sheaf_modSheaf_prop x.crew h j f Sheaf.sansFile hf, rfl, rfl⟩

/-- A change of one home sheaf's origin sets. -/
theorem same_modSheaf (x : Iss) (h : Nat) (f : Sheaf → Sheaf) (hf : ∀ z, (f z).sansFile = z.sansFile)
    (hm : ∀ z, (f z).main = z.main ∧ (f z).k = z.k ∧ (f z).p = z.p) : Same x (x.onCrew (x.crew.modSheaf h f)) := by
  refine ⟨touch_modSheaf x h f hf, fun c => ?_⟩
  cases c with
  | slot l i => rfl
  | main j r l =>
    have := Crew.sheaf_modSheaf_prop x.crew h j f (fun z => z.mainAt r l) fun z => by simp [Sheaf.mainAt, (hm z).1]
    simp only [Iss.cell, Iss.onCrew, this]
  | k j i =>
    have := Crew.sheaf_modSheaf_prop x.crew h j f (fun z => z.k) fun z => (hm z).2.1
    simp only [Iss.cell, Iss.onCrew, this]
  | pred j i l =>
    have := Crew.sheaf_modSheaf_prop x.crew h j f (fun z => z.pred i l) fun z => by simp [Sheaf.pred, (hm z).2.2]
    simp only [Iss.cell, Iss.onCrew, this]

/-- A fold that may stop over a crew whose steps change origin sets alone. -/
theorem same_foldE {t : Map OEntry} {P : Map OEntry → Prop} (x : Iss) (hs : List Nat)
    (f : Crew × Map OEntry → Nat → Except Cause (Crew × Map OEntry))
    (hstep : ∀ (y : Iss) (u : Map OEntry) h, P u → ∃ c t', f (y.crew, u) h = .ok (c, t') ∧ Same y (y.onCrew c) ∧ P t') (ht : P t) :
    ∃ c t', foldE f (x.crew, t) hs = .ok (c, t') ∧ Same x (x.onCrew c) ∧ P t' := by
  have := foldE_inv f (fun a => Same x (x.onCrew a.1) ∧ P a.2) hs (x.crew, t) ⟨Same.refl x, ht⟩ fun a h _ ha => by
    obtain ⟨c, t', h1, h2, h3⟩ := hstep (x.onCrew a.1) a.2 h ha.2
    exact ⟨(c, t'), h1, ⟨ha.1.touch.trans h2.touch, fun q => (h2.cells q).trans (ha.1.cells q)⟩, h3⟩
  obtain ⟨z, hz, h1, h2⟩ := this
  exact ⟨z.1, z.2, hz, h1, h2⟩

/-- Noting a value written changes the hash alone. -/
theorem noteWrite_eq (g : Group) (v : Word) : ∃ n, noteWrite g v = { g with wHash := n } := ⟨_, rfl⟩

/-- Noting values written changes the hash alone. -/
theorem noteWrites_eq (vs : List Word) (g : Group) : ∃ n, vs.foldl noteWrite g = { g with wHash := n } := by
  induction vs generalizing g with
  | nil => exact ⟨g.wHash, rfl⟩
  | cons v rest ih =>
    obtain ⟨m, e⟩ := noteWrite_eq g v
    obtain ⟨n, h⟩ := ih { g with wHash := m }
    exact ⟨n, by rw [List.foldl_cons, e, h]⟩

/-- The hash of values written stands in no register. -/
theorem same_hash (x : Iss) (n : Nat) : Same x { x with grp := { x.grp with wHash := n } } := by
  refine ⟨⟨rfl, rfl, rfl, rfl, rfl, rfl, fun _ => rfl, rfl, rfl⟩, fun c => ?_⟩
  cases c <;> rfl

theorem same_noteWrites (x : Iss) (vs : List Word) : Same x { x with grp := vs.foldl noteWrite x.grp } := by
  obtain ⟨n, h⟩ := noteWrites_eq vs x.grp
  rw [h]
  exact same_hash x n

theorem Sheaf.mainAt_setMain (h : Sheaf) (r l : Nat) (x : Word) (hl : l < 32) (r' l' : Nat) :
    (h.setMain r l x).mainAt r' l' = if r' = r ∧ l' = l then x else h.mainAt r' l' := by
  simp only [Sheaf.mainAt, Sheaf.setMain, Map.get_put]
  by_cases hr : r' = r
  · subst hr; simp [laneGet_set _ _ _ _ _ hl]
  · simp [hr]

theorem putMainSet_fit {t0 t : Map OEntry} {P : Map OEntry → Prop} (hf : Fit t0 P) (y : Iss) (h r : Nat) (s : OSet)
    (full : Bool) (ht : P t) : ∃ c t', putMainSet y.crew h r s full t = .ok (c, t') ∧ Same y (y.onCrew c) ∧ P t' := by
  unfold putMainSet
  split
  · exact ⟨_, _, rfl, same_modSheaf y h _ (fun _ => rfl) fun _ => ⟨rfl, rfl, rfl⟩, ht⟩
  · obtain ⟨u, t', hu, hp⟩ := hf.join t ((y.crew.sheaf h).mainSet r) [s] ht
    have hj : osJoin t ((y.crew.sheaf h).mainSet r) s = .ok (u, t') := hu
    rw [hj]
    exact ⟨_, _, rfl, same_modSheaf y h _ (fun _ => rfl) fun _ => ⟨rfl, rfl, rfl⟩, hp⟩

theorem Same.trans {x y z : Iss} (h : Same x y) (k : Same y z) : Same x z :=
  ⟨h.touch.trans k.touch, fun c => (k.cells c).trans (h.cells c)⟩

/-- A fold over a crew whose steps change origin sets and the marks of direct writes alone. -/
theorem same_fold {α : Type} (w : Crew → α → Crew) (hw : ∀ (y : Iss) a, Same y (y.onCrew (w y.crew a))) (xs : List α) (x : Iss) :
    Same x (x.onCrew (xs.foldl w x.crew)) := by
  induction xs generalizing x with
  | nil => exact Same.refl x
  | cons a rest ih => exact (hw x a).trans (ih (x.onCrew (w x.crew a)))

/-- The marks of a direct write stand in no register. -/
theorem same_stampDirect (x : Iss) (r : Nat) (ps : List (Nat × Nat)) : Same x (x.onCrew (stampDirect x.crew r ps)) := by
  unfold stampDirect
  split
  · exact Same.refl x
  · exact (same_fold (fun c p => c.modSheaf p.2 fun z => { z with mainW := Map.put z.mainW (32 * r + p.1) c.winIss })
      (fun y p => same_modSheaf y p.2 (fun z => { z with mainW := Map.put z.mainW (32 * r + p.1) y.crew.winIss }) (fun _ => rfl)
        fun _ => ⟨rfl, rfl, rfl⟩) ps x).trans
      (same_fold (fun c h => if allLanes ps h then c.modSheaf h fun z => { z with mainWS := Map.put z.mainWS r c.winIss } else c)
        (fun y h => by
          split
          · exact same_modSheaf y h (fun z => { z with mainWS := Map.put z.mainWS r y.crew.winIss }) (fun _ => rfl)
              fun _ => ⟨rfl, rfl, rfl⟩
          · exact Same.refl y) (homesOf ps) (x.onCrew _))

/-- Writing a main register. -/
theorem writeMainOf_spec {t0 t : Map OEntry} {P : Map OEntry → Prop} (hf : Fit t0 P) (x : Iss) (r : Nat)
    (vs : List ((Nat × Nat) × Word)) (all : List (Nat × Nat)) (s : OSet) (ht : P t) (he : x.grp.episode = none)
    (hs : Sound x (fun p => some (.main p.2 r p.1)) vs) :
    ∃ y t', writeMainOf x r vs all s t = .ok (y, t') ∧ Wrote x y (fun p => some (.main p.2 r p.1)) vs ∧ P t' := by
  have h1 := wrote_fold (fun x v => x.onCrew (x.crew.modSheaf v.1.2 fun h => h.setMain r v.1.1 v.2)) _ vs (fun x v _ hl hh => by
    refine ⟨touch_modSheaf x v.1.2 _ (fun _ => rfl), fun c => ?_⟩
    cases c with
    | slot l i => simp [Iss.cell, Iss.onCrew]
    | k j i =>
      have := Crew.sheaf_modSheaf_prop x.crew v.1.2 j (fun h => h.setMain r v.1.1 v.2) (fun z => z.k) fun _ => rfl
      simp [Iss.cell, Iss.onCrew, this]
    | pred j i l =>
      have := Crew.sheaf_modSheaf_prop x.crew v.1.2 j (fun h => h.setMain r v.1.1 v.2) (fun z => z.pred i l) fun _ => rfl
      simp [Iss.cell, Iss.onCrew, this]
    | main j q l =>
      simp only [Iss.cell, Iss.onCrew, Crew.sheaf_modSheaf _ _ _ _ hh]
      by_cases hj : j = v.1.2
      · subst hj
        simp only [if_true, Sheaf.mainAt_setMain _ _ _ _ hl, Option.some.injEq, Cell.main.injEq, true_and, Option.map_some]
        by_cases hq : r = q ∧ v.1.1 = l
        · rw [if_pos hq, if_pos ⟨hq.1.symm, hq.2.symm⟩]
        · rw [if_neg hq, if_neg fun k => hq ⟨k.1.symm, k.2.symm⟩]
      · rw [if_neg hj, if_neg]
        simp only [Option.some.injEq, Cell.main.injEq, not_and]
        exact fun k => absurd k.symm hj) x hs
  rw [onCrew_fold (fun c v => c.modSheaf v.1.2 fun h => h.setMain r v.1.1 v.2)] at h1
  unfold writeMainOf
  rw [he]
  simp only
  generalize vs.foldl (fun c v => c.modSheaf v.1.2 fun h => h.setMain r v.1.1 v.2) x.crew = c at h1
  obtain ⟨c', t', h2, h3, hp⟩ := same_foldE (P := P) (x.onCrew c) (homesOf (vs.map (·.1)))
    (fun a h => putMainSet a.1 h r s (allLanes all h) a.2)
    (fun y u h hu => putMainSet_fit hf y h r s (allLanes all h) hu) ht
  have h2' : foldE (fun (a : Crew × Map OEntry) h => putMainSet a.1 h r s (allLanes all h) a.2) (c, t)
      (homesOf (vs.map (·.1))) = .ok (c', t') := h2
  simp only [h2']
  refine ⟨_, t', rfl, ((h1.same h3).same (same_stampDirect _ r (vs.map (·.1)))).same ?_, hp⟩
  have := same_noteWrites (((x.onCrew c).onCrew c').onCrew (stampDirect c' r (vs.map (·.1)))) (vs.map (·.2))
  rw [List.foldl_map] at this
  exact this

end Sys2Proof.Machine
end

