-- ==== Sys2Proof/Laws/Registers.lean ====
section
/-! SUPPORT. What writing a register operand does (03_registers.md R68, R73, R74), for every form of operand, and what the
write of a group of registers and of the sticky flags does. -/

namespace Sys2Proof.Machine

theorem mem_dedup (a : Nat) (xs : List Nat) : a ∈ dedup xs ↔ a ∈ xs := by
  induction xs with
  | nil => simp [dedup]
  | cons x rest ih =>
    simp only [dedup, List.mem_cons, List.mem_filter, ih]
    by_cases h : a = x
    · simp [h]
    · simp [h]

theorem mem_homesOf (h : Nat) (ps : List (Nat × Nat)) : h ∈ homesOf ps ↔ ∃ p ∈ ps, p.2 = h := by
  simp [homesOf, mem_dedup]

theorem Touch.episode {x y : Iss} (h : Touch x y) : y.grp.episode = x.grp.episode := by
  have := congrArg Group.episode h.grp
  exact this

/-! ## k registers -/

/-- One home sheaf's k register. -/
theorem writeK_one (x : Iss) (h i : Nat) (v : Word) (s : OSet) (hh : h < x.crew.sheaves.length) :
    Touch x { x with crew := x.crew.modSheaf h fun z => { z with k := Map.put z.k i v, kS := Map.put z.kS i s },
                     grp := noteWrite x.grp v } ∧
    ∀ c, ({ x with crew := x.crew.modSheaf h fun z => { z with k := Map.put z.k i v, kS := Map.put z.kS i s },
                   grp := noteWrite x.grp v } : Iss).cell c = if c = .k h i then some v else x.cell c := by
  obtain ⟨n, e⟩ := noteWrite_eq x.grp v
  rw [e]
  have ht := touch_modSheaf x h (fun z => { z with k := Map.put z.k i v, kS := Map.put z.kS i s }) fun _ => rfl
  have hn := same_hash (x.onCrew (x.crew.modSheaf h fun z => { z with k := Map.put z.k i v, kS := Map.put z.kS i s })) n
  refine ⟨ht.trans hn.touch, fun c => (hn.cells c).trans ?_⟩
  cases c with
  | slot l j => simp [Iss.cell, Iss.onCrew]
  | main j r l =>
    have := Crew.sheaf_modSheaf_prop x.crew h j (fun z => { z with k := Map.put z.k i v, kS := Map.put z.kS i s })
      (fun z => z.mainAt r l) fun _ => rfl
    simp [Iss.cell, Iss.onCrew, this]
  | pred j r l =>
    have := Crew.sheaf_modSheaf_prop x.crew h j (fun z => { z with k := Map.put z.k i v, kS := Map.put z.kS i s })
      (fun z => z.pred r l) fun _ => rfl
    simp [Iss.cell, Iss.onCrew, this]
  | k j r =>
    simp only [Iss.cell, Iss.onCrew, Crew.sheaf_modSheaf _ _ _ _ hh]
    by_cases hj : j = h
    · subst hj
      by_cases hr : r = i
      · subst hr; simp
      · simp [hr, Map.get_put]
    · simp [hj]

/-- One step of writing a k register in several home sheaves. -/
def kStep (i : Nat) (vs : List ((Nat × Nat) × Word)) (s : OSet) (x : Iss) (h : Nat) : Iss :=
  match vs.find? fun v => v.1.2 == h with
  | none => x
  | some v =>
    { x with crew := x.crew.modSheaf h fun z => { z with k := Map.put z.k i v.2, kS := Map.put z.kS i s },
             grp := noteWrite x.grp v.2 }

theorem writeK_eq (x : Iss) (i : Nat) (vs : List ((Nat × Nat) × Word)) (s : OSet) :
    writeK x i vs s = (homesOf (vs.map (·.1))).foldl (kStep i vs s) x := rfl

theorem kSteps_spec (i : Nat) (vs : List ((Nat × Nat) × Word)) (s : OSet) (hs : List Nat) (x : Iss)
    (hh : ∀ h ∈ hs, h < x.crew.sheaves.length) :
    Touch x (hs.foldl (kStep i vs s) x) ∧
    (∀ h ∈ hs, ∀ v, vs.find? (fun v => v.1.2 == h) = some v → (hs.foldl (kStep i vs s) x).cell (.k h i) = some v.2) ∧
    (∀ c, (∀ h ∈ hs, c ≠ .k h i) → (hs.foldl (kStep i vs s) x).cell c = x.cell c) := by
  induction hs generalizing x with
  | nil => exact ⟨Touch.refl x, fun _ h => absurd h (by simp), fun _ _ => rfl⟩
  | cons a rest ih =>
    simp only [List.foldl_cons]
    have h1 : Touch x (kStep i vs s x a) ∧
        (∀ v, vs.find? (fun v => v.1.2 == a) = some v → (kStep i vs s x a).cell (.k a i) = some v.2) ∧
        ∀ c, c ≠ .k a i → (kStep i vs s x a).cell c = x.cell c := by
      unfold kStep
      cases hf : vs.find? fun v => v.1.2 == a with
      | none => exact ⟨Touch.refl x, fun _ h => absurd h (by simp), fun _ _ => rfl⟩
      | some v =>
        obtain ⟨ht, hc⟩ := writeK_one x a i v.2 s (hh a (by simp))
        refine ⟨ht, fun v' e => ?_, fun c hn => ?_⟩
        · cases e; rw [hc]; simp
        · rw [hc, if_neg hn]
    obtain ⟨ht, hit, miss⟩ := ih (kStep i vs s x a) fun h hm => by rw [h1.1.count]; exact hh h (by simp [hm])
    refine ⟨h1.1.trans ht, fun h hm v hv => ?_, fun c hn => ?_⟩
    · by_cases hr : h ∈ rest
      · exact hit h hr v hv
      · have e : h = a := by simpa [hr] using hm
        subst e
        rw [miss _ fun h' hm' q => hr (by cases q; exact hm')]
        exact h1.2.1 v hv
    · rw [miss c fun h hm => hn h (by simp [hm])]
      exact h1.2.2 c (hn a (by simp))

/-- Writing a k register. -/
theorem writeK_spec (x : Iss) (i : Nat) (vs : List ((Nat × Nat) × Word)) (s : OSet)
    (hs : Sound x (fun p => some (.k p.2 i)) vs) : Wrote x (writeK x i vs s) (fun p => some (.k p.2 i)) vs := by
  rw [writeK_eq]
  obtain ⟨ht, hit, miss⟩ := kSteps_spec i vs s (homesOf (vs.map (·.1))) x fun h hm => by
    obtain ⟨p, hp, rfl⟩ := (mem_homesOf _ _).1 hm
    obtain ⟨v, hv, rfl⟩ := List.mem_map.1 hp
    exact hs.home v hv
  refine ⟨ht, ?_, fun c hn => miss c fun h hm q => ?_⟩
  · rintro v hv c ⟨⟩
    have hm : v.1.2 ∈ homesOf (vs.map (·.1)) := (mem_homesOf _ _).2 ⟨v.1, List.mem_map.2 ⟨v, hv, rfl⟩, rfl⟩
    cases hf : vs.find? fun w => w.1.2 == v.1.2 with
    | none => exact absurd (List.find?_eq_none.1 hf v hv) (by simp)
    | some w =>
      have hw : w.1.2 = v.1.2 := by simpa using List.find?_some hf
      rw [hit _ hm w hf, hs.one w (List.mem_of_find?_eq_some hf) v hv (.k v.1.2 i) (by simp [hw]) rfl]
      rfl
  · obtain ⟨p, hp, rfl⟩ := (mem_homesOf _ _).1 hm
    obtain ⟨v, hv, rfl⟩ := List.mem_map.1 hp
    exact hn v hv (congrArg some q.symm)

/-! ## Main registers under XREG -/

/-- The slot that a main register of an operand stands in, by threads. -/
theorem writeMapped_spec {t0 t : Map OEntry} {P : Map OEntry → Prop} (hf : Fit t0 P) (f : Nat × Nat → Option Nat)
    (vs : List ((Nat × Nat) × Word)) (all : List (Nat × Nat)) (s : OSet) (js : List Nat) (x : Iss) (ht : P t)
    (hl : ∀ v ∈ vs, v.1.1 < 32) (hh : ∀ v ∈ vs, v.1.2 < x.crew.sheaves.length)
    (ho : ∀ v ∈ vs, ∀ v' ∈ vs, ∀ j, f v.1 = some j → f v'.1 = some j → v.1.1 = v'.1.1 → v.2 = v'.2) :
    ∃ y t', foldE (fun (a : Iss × Map OEntry) j => writeSlotOf a.1 j (vs.filter fun v => f v.1 == some j) all s a.2) (x, t) js =
        .ok (y, t') ∧ P t' ∧ Touch x y ∧
      (∀ v ∈ vs, ∀ j ∈ js, f v.1 = some j → y.cell (.slot v.1.1 j) = (x.cell (.slot v.1.1 j)).map fun _ => v.2) ∧
      (∀ c, (∀ v ∈ vs, ∀ j ∈ js, f v.1 = some j → c ≠ .slot v.1.1 j) → y.cell c = x.cell c) := by
  induction js generalizing x t with
  | nil => exact ⟨x, t, rfl, ht, Touch.refl x, fun _ _ _ h => absurd h (by simp), fun _ _ => rfl⟩
  | cons j rest ih =>
    have hsound : Sound x (fun p => some (.slot p.1 j)) (vs.filter fun v => f v.1 == some j) := by
      refine ⟨fun v hv => hl v (List.mem_filter.1 hv).1, fun v hv => hh v (List.mem_filter.1 hv).1, ?_⟩
      rintro v hv v' hv' c ⟨⟩ q
      obtain ⟨m, e⟩ := List.mem_filter.1 hv
      obtain ⟨m', e'⟩ := List.mem_filter.1 hv'
      simp only [Option.some.injEq, Cell.slot.injEq] at q
      exact ho v m v' m' j (by simpa using e) (by simpa using e') q.1.symm
    obtain ⟨z, t1, hz, hw, hp⟩ := writeSlotOf_spec hf x j _ all s ht hsound
    simp only [foldE, hz]
    obtain ⟨y, t', hy, hp', htouch, hit, miss⟩ := ih z hp fun v hv => by rw [hw.touch.count]; exact hh v hv
    refine ⟨y, t', hy, hp', hw.touch.trans htouch, fun v hv i hi e => ?_, fun c hn => ?_⟩
    · have hmem : ∀ i, f v.1 = some i → i = j → v ∈ vs.filter fun v => f v.1 == some j := fun i e q => by
        subst q; exact List.mem_filter.2 ⟨hv, by simp [e]⟩
      by_cases hr : i ∈ rest
      · rw [hit v hv i hr e]
        by_cases q : i = j
        · subst q
          rw [hw.hit v (hmem i e rfl) _ rfl]
          cases x.cell (.slot v.1.1 i) <;> rfl
        · rw [hw.miss]
          rintro v' _ h
          simp only [Option.some.injEq, Cell.slot.injEq] at h
          exact q h.2.symm
      · have q : i = j := by simpa [hr] using hi
        rw [miss]
        · subst q; exact hw.hit v (hmem i e rfl) _ rfl
        · intro v' _ i' hi' _ h
          simp only [Cell.slot.injEq] at h
          exact hr (h.2 ▸ hi')
    · rw [miss c fun v hv i hi => hn v hv i (by simp [hi])]
      apply hw.miss
      intro v hv h
      obtain ⟨m, e⟩ := List.mem_filter.1 hv
      simp only [Option.some.injEq] at h
      exact hn v m j (by simp) (by simpa using e) h.symm

/-! ## Any operand -/

/-- Writing a register of an operand: the place it names in each thread takes the thread's value. -/
theorem writeReg_spec {t0 t : Map OEntry} {P : Map OEntry → Prop} (hf : Fit t0 P) (x : Iss) (o : Operand) (i : Nat)
    (vs : List ((Nat × Nat) × Word)) (s : OSet) (ht : P t) (he : x.grp.episode = none) (hs : Sound x (regCell x o i) vs) :
    ∃ y t', writeReg x o i vs s t = .ok (y, t') ∧ Wrote x y (regCell x o i) vs ∧ P t' := by
  cases o with
  | w n => exact writeSlotOf_spec hf x (n.val + i) vs _ s ht hs
  | k n => exact ⟨_, t, rfl, writeK_spec x (n.val + i) vs s hs, ht⟩
  | z => exact ⟨x, t, rfl, ⟨Touch.refl x, fun _ _ _ h => (by cases h), fun _ _ => rfl⟩, ht⟩
  | lit w => exact ⟨x, t, rfl, ⟨Touch.refl x, fun _ _ _ h => (by cases h), fun _ _ => rfl⟩, ht⟩
  | v n =>
    have cellS : ∀ p j, xregSlot x.grp p.1 (n.val + i) = some j → regCell x (.v n) i p = some (.slot p.1 j) := by
      intro p j h; simp [regCell, h]
    have cellM : ∀ p, xregSlot x.grp p.1 (n.val + i) = none → regCell x (.v n) i p = some (.main p.2 (n.val + i) p.1) := by
      intro p h; simp [regCell, h]
    let f : Nat × Nat → Option Nat := fun p => xregSlot x.grp p.1 (n.val + i)
    let mapped := vs.filter fun v => (xregSlot x.grp v.1.1 (n.val + i)).isSome
    let direct := vs.filter fun v => (xregSlot x.grp v.1.1 (n.val + i)).isNone
    let js := dedup (mapped.filterMap fun v => xregSlot x.grp v.1.1 (n.val + i))
    have inM : ∀ v, v ∈ mapped ↔ v ∈ vs ∧ (f v.1).isSome := fun v => by simp [mapped, f, List.mem_filter]
    have inD : ∀ v, v ∈ direct ↔ v ∈ vs ∧ f v.1 = none := fun v => by simp [direct, f, List.mem_filter]
    have inJ : ∀ v ∈ vs, ∀ j, f v.1 = some j → j ∈ js := fun v hv j e => by
      rw [mem_dedup]
      exact List.mem_filterMap.2 ⟨v, (inM v).2 ⟨hv, by simp [e]⟩, e⟩
    obtain ⟨y, t1, hy, hp, htouch, hit, miss⟩ := writeMapped_spec hf f mapped (vs.map (·.1)) s js x ht
      (fun v hv => hs.lane v ((inM v).1 hv).1) (fun v hv => hs.home v ((inM v).1 hv).1)
      (fun v hv v' hv' j e e' q => hs.one v ((inM v).1 hv).1 v' ((inM v').1 hv').1 (.slot v.1.1 j) (cellS _ j e)
        (by rw [q]; exact cellS _ j e'))
    have hw : writeReg x (.v n) i vs s t = if direct.isEmpty then .ok (y, t1) else writeMainOf y (n.val + i) direct (vs.map (·.1)) s t1 := by
      have hy' : foldE (fun (a : Iss × Map OEntry) j =>
        writeSlotOf a.1 j (mapped.filter fun v => xregSlot x.grp v.1.1 (n.val + i) == some j) (vs.map (·.1)) s a.2) (x, t)
        (dedup (mapped.filterMap fun v => xregSlot x.grp v.1.1 (n.val + i))) = .ok (y, t1) := hy
      unfold writeReg writeXreg
      simp only [mapped, direct] at hy' ⊢
      rw [hy']
    have noMain : ∀ c, (∀ v ∈ vs, regCell x (.v n) i v.1 ≠ some c) → y.cell c = x.cell c := fun c hc =>
      miss c fun v hv j _ e q => hc v ((inM v).1 hv).1 (by rw [q]; exact cellS _ j e)
    rw [hw]
    by_cases hd : direct.isEmpty
    · rw [if_pos hd]
      refine ⟨y, t1, rfl, ⟨htouch, fun v hv c hc => ?_, noMain⟩, hp⟩
      cases hx : f v.1 with
      | none =>
        have : v ∈ direct := (inD v).2 ⟨hv, hx⟩
        rw [List.isEmpty_iff.1 hd] at this
        cases this
      | some j =>
        rw [cellS _ j hx, Option.some.injEq] at hc
        subst hc
        exact hit v ((inM v).2 ⟨hv, by simp [hx]⟩) j (inJ v hv j hx) hx
    · rw [if_neg hd]
      obtain ⟨z, t', hz, hwr, hp'⟩ := writeMainOf_spec hf y (n.val + i) direct (vs.map (·.1)) s hp (htouch.episode.trans he)
        ⟨fun v hv => hs.lane v ((inD v).1 hv).1, fun v hv => by rw [htouch.count]; exact hs.home v ((inD v).1 hv).1, by
          rintro v hv v' hv' c ⟨⟩ q
          refine hs.one v ((inD v).1 hv).1 v' ((inD v').1 hv').1 _ (cellM _ ((inD v).1 hv).2) ?_
          rw [cellM _ ((inD v').1 hv').2]
          exact q⟩
      refine ⟨z, t', hz, ⟨htouch.trans hwr.touch, fun v hv c hc => ?_, fun c hc => ?_⟩, hp'⟩
      · cases hx : f v.1 with
        | none =>
          rw [cellM _ hx, Option.some.injEq] at hc
          subst hc
          rw [hwr.hit v ((inD v).2 ⟨hv, hx⟩) _ rfl, miss]
          intro v' _ j _ _ q
          cases q
        | some j =>
          rw [cellS _ j hx, Option.some.injEq] at hc
          subst hc
          rw [hwr.miss]
          · exact hit v ((inM v).2 ⟨hv, by simp [hx]⟩) j (inJ v hv j hx) hx
          · intro v' _ q
            cases q
      · rw [hwr.miss]
        · exact noMain c hc
        · intro v hv q
          exact hc v ((inD v).1 hv).1 (by rw [cellM _ ((inD v).1 hv).2]; exact q)

/-! ## Groups of registers -/

/-- Writing n registers of an operand from the i-th on. -/
theorem writeRegs_spec {t0 : Map OEntry} {P : Map OEntry → Prop} (hf : Fit t0 P) (o : Operand) (n i : Nat) (x : Iss)
    (vs : List ((Nat × Nat) × List Word)) (s : OSet) (t : Map OEntry) (ht : P t) (he : x.grp.episode = none)
    (hl : ∀ v ∈ vs, v.1.1 < 32) (hh : ∀ v ∈ vs, v.1.2 < x.crew.sheaves.length)
    (ho : ∀ v ∈ vs, ∀ v' ∈ vs, ∀ j c, regCell x o j v.1 = some c → regCell x o j v'.1 = some c → v.2 = v'.2) :
    ∃ y t', writeRegs x o i n vs s t = .ok (y, t') ∧ P t' ∧ Touch x y ∧
      (∀ v ∈ vs, ∀ j, i ≤ j → j < i + n → ∀ c, regCell x o j v.1 = some c →
        y.cell c = (x.cell c).map fun _ => (v.2[j]?).getD 0) ∧
      (∀ c, (∀ v ∈ vs, ∀ j, i ≤ j → j < i + n → regCell x o j v.1 ≠ some c) → y.cell c = x.cell c) := by
  induction n generalizing i x t with
  | zero => exact ⟨x, t, rfl, ht, Touch.refl x, fun _ _ j _ _ => by omega, fun _ _ => rfl⟩
  | succ n ih =>
    obtain ⟨y, t1, hy, hw, hp⟩ := writeReg_spec hf x o i (vs.map fun v => (v.1, (v.2[i]?).getD 0)) s ht he
      ⟨fun v hv => by obtain ⟨a, ha, rfl⟩ := List.mem_map.1 hv; exact hl a ha,
       fun v hv => by obtain ⟨a, ha, rfl⟩ := List.mem_map.1 hv; exact hh a ha,
       fun v hv v' hv' c hc hc' => by
        obtain ⟨a, ha, rfl⟩ := List.mem_map.1 hv
        obtain ⟨b, hb, rfl⟩ := List.mem_map.1 hv'
        simp only [ho a ha b hb i c hc hc']⟩
    obtain ⟨z, t', hz, hp', htouch, hit, miss⟩ := ih (i + 1) y t1 hp (hw.touch.episode.trans he)
      (fun v hv => by rw [hw.touch.count]; exact hh v hv)
      (fun v hv v' hv' j c => by rw [regCell_congr hw.touch, regCell_congr hw.touch]; exact ho v hv v' hv' j c)
    refine ⟨z, t', by simp only [writeRegs, hy, hz], hp', hw.touch.trans htouch, fun v hv j h1 h2 c hc => ?_, fun c hc => ?_⟩
    · by_cases e : j = i
      · subst e
        rw [miss c]
        · exact hw.hit (v.1, (v.2[j]?).getD 0) (List.mem_map.2 ⟨v, hv, rfl⟩) c hc
        · intro v' _ j' h3 _ q
          rw [regCell_congr hw.touch] at q
          have := regCell_inj hc q
          omega
      · rw [hit v hv j (by omega) (by omega) c (by rw [regCell_congr hw.touch]; exact hc), hw.miss]
        intro v' hv' q
        obtain ⟨a, _, rfl⟩ := List.mem_map.1 hv'
        exact e (regCell_inj hc q)
    · rw [miss c fun v hv j h1 h2 => by rw [regCell_congr hw.touch]; exact hc v hv j (by omega) (by omega)]
      apply hw.miss
      intro v' hv'
      obtain ⟨a, ha, rfl⟩ := List.mem_map.1 hv'
      exact hc a ha i (by omega) (by omega)

/-! ## The sticky flags -/

theorem Crew.thread_modThread (c : Crew) (p q : Nat × Nat) (f : Thread → Thread) (hh : p.2 < c.sheaves.length)
    (hl : p.1 < (c.sheaf p.2).threads.length) : (c.modThread p f).thread q = if q = p then f (c.thread p) else c.thread q := by
  obtain ⟨ql, qh⟩ := q
  obtain ⟨pl, ph⟩ := p
  simp only [Crew.thread, Crew.modThread, Crew.sheaf_modSheaf _ _ _ _ hh]
  by_cases h : qh = ph
  · subst h
    simp only [if_true, List.getElem?_modify]
    by_cases l : ql = pl
    · subst l
      simp only at hl
      simp [List.getElem?_eq_getElem hl]
    · have l' : ¬ pl = ql := fun e => l e.symm
      simp only [l, l', if_false, Prod.mk.injEq, false_and]
      cases (c.sheaf qh).threads[ql]? <;> rfl
  · simp [h]

theorem Crew.sheaf_modThread (c : Crew) (p : Nat × Nat) (f : Thread → Thread) (h : Nat) :
    { (c.modThread p f).sheaf h with threads := [] } = { c.sheaf h with threads := [] } :=
  Crew.sheaf_modSheaf_prop c p.2 h (fun z => { z with threads := z.threads.modify p.1 f }) (fun z => { z with threads := [] }) fun _ => rfl

/-- What setting sticky flags leaves alone: y's crew is x's but for %fpx and its set in threads. -/
structure Flagged (c c' : Crew) : Prop where
  crew : { c' with sheaves := [] } = { c with sheaves := [] }
  count : c'.sheaves.length = c.sheaves.length
  sheaf : ∀ h, { c'.sheaf h with threads := [] } = { c.sheaf h with threads := [] }
  threads : ∀ h, (c'.sheaf h).threads.length = (c.sheaf h).threads.length
  thread : ∀ p, { c'.thread p with fpx := 0, fpxS := 0 } = { c.thread p with fpx := 0, fpxS := 0 }

theorem Flagged.refl (c : Crew) : Flagged c c := ⟨rfl, rfl, fun _ => rfl, fun _ => rfl, fun _ => rfl⟩

theorem Flagged.trans {a b c : Crew} (h : Flagged a b) (k : Flagged b c) : Flagged a c :=
  ⟨k.crew.trans h.crew, k.count.trans h.count, fun i => (k.sheaf i).trans (h.sheaf i),
   fun i => (k.threads i).trans (h.threads i), fun p => (k.thread p).trans (h.thread p)⟩

theorem flagged_modThread (c : Crew) (p : Nat × Nat) (f : Thread → Thread) (hh : p.2 < c.sheaves.length)
    (hl : p.1 < (c.sheaf p.2).threads.length)
    (hf : ∀ t, { f t with fpx := 0, fpxS := 0 } = { t with fpx := 0, fpxS := 0 }) : Flagged c (c.modThread p f) := by
  refine ⟨rfl, by simp [Crew.modThread], fun h => Crew.sheaf_modThread c p f h, fun h => ?_, fun q => ?_⟩
  · exact Crew.sheaf_modSheaf_prop c p.2 h (fun z => { z with threads := z.threads.modify p.1 f }) (fun z => z.threads.length) fun _ => by simp
  · rw [Crew.thread_modThread c p q f hh hl]
    split
    · rename_i e; subst e; exact hf _
    · rfl

/-- Setting sticky flags: each thread's hold also the bits given. -/
theorem setFpx_spec {t0 t : Map OEntry} {P : Map OEntry → Prop} (hf : Fit t0 P) (x : Iss) (fs : List ((Nat × Nat) × Nat))
    (s : OSet) (ht : P t) (hh : ∀ v ∈ fs, v.1.2 < x.crew.sheaves.length)
    (hl : ∀ v ∈ fs, v.1.1 < (x.crew.sheaf v.1.2).threads.length) (hn : (fs.map (·.1)).Nodup) :
    ∃ c t', setFpx x fs s t = .ok ({ x with crew := c }, t') ∧ P t' ∧ Flagged x.crew c ∧
      (∀ v ∈ fs, (c.thread v.1).fpx = (x.crew.thread v.1).fpx ||| BitVec.ofNat 5 v.2) ∧
      (∀ p, p ∉ fs.map (·.1) → (c.thread p).fpx = (x.crew.thread p).fpx) := by
  unfold setFpx
  suffices h : ∀ (fs : List ((Nat × Nat) × Nat)) (c : Crew) (t : Map OEntry), P t → (∀ v ∈ fs, v.1.2 < c.sheaves.length) →
      (∀ v ∈ fs, v.1.1 < (c.sheaf v.1.2).threads.length) → (fs.map (·.1)).Nodup →
      ∃ c' t', foldE (fpxStep s) (c, t) fs = .ok (c', t') ∧ P t' ∧ Flagged c c' ∧
        (∀ v ∈ fs, (c'.thread v.1).fpx = (c.thread v.1).fpx ||| BitVec.ofNat 5 v.2) ∧
        (∀ p, p ∉ fs.map (·.1) → (c'.thread p).fpx = (c.thread p).fpx) by
    obtain ⟨c', t', he, hp, h1, h2, h3⟩ := h fs x.crew t ht hh hl hn
    rw [he]
    exact ⟨c', t', rfl, hp, h1, h2, h3⟩
  intro fs
  induction fs with
  | nil => intro c t ht _ _ _; exact ⟨c, t, rfl, ht, Flagged.refl c, fun _ h => absurd h (by simp), fun _ _ => rfl⟩
  | cons v rest ih =>
    intro c t ht hh hl hn
    have hn' := List.nodup_cons.1 hn
    by_cases hv : v.2 = 0
    · obtain ⟨c', t', he, hp, h1, h2, h3⟩ := ih c t ht (fun w hw => hh w (by simp [hw])) (fun w hw => hl w (by simp [hw])) hn'.2
      refine ⟨c', t', by simp only [foldE, fpxStep, hv, if_true]; exact he, hp, h1, fun w hw => ?_, fun p hp => ?_⟩
      · rcases List.mem_cons.1 hw with e | e
        · subst e; rw [h3 _ hn'.1, hv]; simp
        · exact h2 w e
      · exact h3 p fun q => hp (by simp only [List.map_cons, List.mem_cons]; exact .inr q)
    · obtain ⟨u, t1, hu, hp1⟩ := hf.join t ((c.thread v.1).fpxS) [s] ht
      have hj : osJoin t ((c.thread v.1).fpxS) s = .ok (u, t1) := hu
      have hfl := flagged_modThread c v.1 (fun z => { z with fpx := z.fpx ||| BitVec.ofNat 5 v.2, fpxS := u }) (hh v (by simp))
        (hl v (by simp)) fun _ => rfl
      have hth := fun q => Crew.thread_modThread c v.1 q (fun z => { z with fpx := z.fpx ||| BitVec.ofNat 5 v.2, fpxS := u })
        (hh v (by simp)) (hl v (by simp))
      have hstep : fpxStep s (c, t) v =
          .ok (c.modThread v.1 (fun z => { z with fpx := z.fpx ||| BitVec.ofNat 5 v.2, fpxS := u }), t1) := by
        simp only [fpxStep, if_neg hv, hj]
      generalize c.modThread v.1 (fun z => { z with fpx := z.fpx ||| BitVec.ofNat 5 v.2, fpxS := u }) = d at hfl hth hstep
      obtain ⟨c', t', he, hp, h1, h2, h3⟩ := ih d t1 hp1 (fun w hw => by rw [hfl.count]; exact hh w (by simp [hw]))
        (fun w hw => by rw [hfl.threads]; exact hl w (by simp [hw])) hn'.2
      refine ⟨c', t', ?_, hp, hfl.trans h1, fun w hw => ?_, fun p hp => ?_⟩
      · simp only [foldE, hstep]; exact he
      · rcases List.mem_cons.1 hw with e | e
        · subst e; rw [h3 _ hn'.1, hth]; simp
        · rw [h2 w e, hth, if_neg]
          intro q
          exact hn'.1 (List.mem_map.2 ⟨w, e, q⟩)
      · rw [h3 p fun q => hp (by simp only [List.map_cons, List.mem_cons]; exact .inr q), hth, if_neg]
        intro q
        exact hp (by simp [q])

end Sys2Proof.Machine
end

