-- ==== Sys2Proof/Laws/Advance.lean ====
section
/-! SUPPORT. What moving past an instruction does (07_encoding.md R159), outside a runahead episode: the PCs of the threads
that issue, where the group's clause stands, the rotation pointer, counters; everything else is as it was. -/

namespace Sys2Proof.Machine

/-- A change of one thread that keeps a property of every thread keeps it. -/
theorem Crew.thread_modThread_prop {α : Type} (c : Crew) (p q : Nat × Nat) (f : Thread → Thread) (r : Thread → α)
    (hf : ∀ t, r (f t) = r t) : r ((c.modThread p f).thread q) = r (c.thread q) := by
  by_cases hh : p.2 < c.sheaves.length
  · by_cases hl : p.1 < (c.sheaf p.2).threads.length
    · rw [Crew.thread_modThread c p q f hh hl]
      split
      · rename_i e; subst e; exact hf _
      · rfl
    · simp only [Crew.thread, Crew.modThread, Crew.sheaf_modSheaf _ _ _ _ hh]
      split
      · rename_i e
        rw [e]
        simp only [List.getElem?_modify]
        by_cases k : p.1 = q.1
        · rw [← k, List.getElem?_eq_none (by omega)]; rfl
        · simp only [k, if_false]; cases (c.sheaf p.2).threads[q.1]? <;> rfl
      · rfl
  · simp only [Crew.modThread]
    rw [Crew.modSheaf_none c _ _ hh]

/-- A thread that a change does not name is as it was. -/
theorem Crew.thread_modThread_other (c : Crew) (p q : Nat × Nat) (f : Thread → Thread) (h : q ≠ p) :
    (c.modThread p f).thread q = c.thread q := by
  by_cases hh : p.2 < c.sheaves.length
  · by_cases hl : p.1 < (c.sheaf p.2).threads.length
    · rw [Crew.thread_modThread c p q f hh hl, if_neg h]
    · simp only [Crew.thread, Crew.modThread, Crew.sheaf_modSheaf _ _ _ _ hh]
      split
      · rename_i e
        rw [e]
        simp only [List.getElem?_modify]
        by_cases k : p.1 = q.1
        · exact absurd (Prod.ext k.symm e) h
        · simp only [k, if_false]; cases (c.sheaf p.2).threads[q.1]? <;> rfl
      · rfl
  · simp only [Crew.modThread]
    rw [Crew.modSheaf_none c _ _ hh]

/-- What moving threads leaves alone in a crew. -/
structure Moved (c c' : Crew) (ps : List (Nat × Nat)) : Prop where
  crew : c'.sansRegs = c.sansRegs
  groups : c'.groups = c.groups
  count : c'.sheaves.length = c.sheaves.length
  sheaf : ∀ h, { c'.sheaf h with threads := [] } = { c.sheaf h with threads := [] }
  thread : ∀ p, (c'.thread p).sansPc = (c.thread p).sansPc
  other : ∀ p, p ∉ ps → c'.thread p = c.thread p

theorem moved_modThreads (f : Nat × Nat → Thread → Thread) (hf : ∀ p t, (f p t).sansPc = t.sansPc) (ps : List (Nat × Nat))
    (c : Crew) : Moved c (c.modThreads ps f) ps := by
  unfold Crew.modThreads
  suffices h : ∀ qs, (∀ p ∈ ps, p ∈ qs) → Moved c (ps.foldl (fun c p => c.modThread p (f p)) c) qs from h ps fun _ h => h
  intro qs hq
  induction ps generalizing c with
  | nil => exact ⟨rfl, rfl, rfl, fun _ => rfl, fun _ => rfl, fun _ _ => rfl⟩
  | cons p rest ih =>
    have h := ih (c.modThread p (f p)) fun p hp => hq p (by simp [hp])
    refine ⟨h.crew.trans rfl, h.groups.trans rfl, h.count.trans (by simp [Crew.modThread]),
      fun i => (h.sheaf i).trans (Crew.sheaf_modThread c p (f p) i),
      fun q => (h.thread q).trans (Crew.thread_modThread_prop c p q (f p) Thread.sansPc (hf p)), fun q hn => ?_⟩
    rw [List.foldl_cons, h.other q hn, Crew.thread_modThread_other]
    intro e
    exact hn (e ▸ hq p (by simp))

/-- What moving past an instruction leaves alone: w and g the crew and issue group before, w' and g' after. -/
structure Advanced (s t : State) (cu : Cur) (w : Crew) (g : Group) (w' : Crew) (g' : Group) : Prop where
  crews : Map.find? t.crews cu.crew = some w'
  groups : Map.find? w'.groups cu.group = some g'
  machine : { t with crews := [], banks := [], cur := none, seq := 0 } = { s with crews := [], banks := [], cur := none, seq := 0 }
  otherCrews : ∀ n, n ≠ cu.crew → Map.find? t.crews n = Map.find? s.crews n
  otherGroups : ∀ n, n ≠ cu.group → Map.find? w'.groups n = Map.find? w.groups n
  crew : w'.sansRegs = w.sansRegs
  count : w'.sheaves.length = w.sheaves.length
  sheaf : ∀ h, { w'.sheaf h with threads := [] } = { w.sheaf h with threads := [] }
  thread : ∀ p, (w'.thread p).sansPc = (w.thread p).sansPc
  other : ∀ p, (∀ a, g.active = some a → p ∉ a.lanes.map fun l => (l, g.homeAt l)) → w'.thread p = w.thread p
  group : { g' with active := none, fetched := none, wait := .none } = { g with active := none, fetched := none, wait := .none }

theorem advanceGroup_spec (s : State) (cu : Cur) (w : Crew) (g : Group) (hw : Map.find? s.crews cu.crew = some w)
    (hg : Map.find? w.groups cu.group = some g) (he : g.episode = none) :
    ∃ w' g', Advanced s (advanceGroup s cu) cu w g w' g' := by
  unfold advanceGroup
  simp only [hw, hg]
  cases ha : g.active with
  | none =>
    refine ⟨w, g, hw, hg, rfl, fun _ _ => rfl, fun _ _ => rfl, rfl, rfl, fun _ => rfl, fun _ => rfl, fun _ _ => rfl, rfl⟩
  | some a =>
    have hc : countEpisode { g with active := some a, wait := .none } = { g with active := some a, wait := .none } := by
      simp only [countEpisode, he]
    simp only [hc]
    split
    · have hm := moved_modThreads (fun _ t => { t with index := cu.first + cu.len }) (fun _ _ => rfl)
        (a.lanes.map fun l => (l, Group.homeAt { g with active := some a, wait := .none } l)) w
      refine ⟨_, _, Map.find?_put_self _ _ _, Map.find?_put_self _ _ _, rfl,
        fun n hn => by rw [Map.find?_put_other _ _ _ _ hn], fun n hn => ?_, hm.crew, hm.count, hm.sheaf, hm.thread, fun p hp => hm.other p (hp a ha), rfl⟩
      rw [Map.find?_put_other _ _ _ _ hn, hm.groups]
    · have hm := moved_modThreads (fun _ t => { t with clause := nextClause a.addr a.hdr, index := 1, reached := s.seq })
        (fun _ _ => rfl) (a.lanes.map fun l => (l, Group.homeAt { g with active := some a, wait := .none } l)) w
      generalize w.modThreads (a.lanes.map fun l => (l, Group.homeAt { g with active := some a, wait := .none } l))
        (fun _ t => { t with clause := nextClause a.addr a.hdr, index := 1, reached := s.seq }) = c at *
      have hs : ∀ b : Bool, Moved w (if b = true then switchPoint c g.role else c)
          (a.lanes.map fun l => (l, Group.homeAt { g with active := some a, wait := .none } l)) := by
        intro b
        cases b
        · exact hm
        · exact ⟨hm.crew, hm.groups, hm.count, hm.sheaf, hm.thread, hm.other⟩
      have hk := hs ((a.hdr.getLsbD 27 || hasYield a) && g.episode.isNone)
      refine ⟨_, _, Map.find?_put_self _ _ _, Map.find?_put_self _ _ _, rfl,
        fun n hn => by rw [Map.find?_put_other _ _ _ _ hn], fun n hn => ?_, hk.crew, hk.count, hk.sheaf, hk.thread,
        fun p hp => hk.other p (hp a ha), rfl⟩
      rw [Map.find?_put_other _ _ _ _ hn, hk.groups]

theorem Map.find?_mod_self {α : Type} (m : Map α) (k : Nat) (f : α → α) (x : α) (h : Map.find? m k = some x) :
    Map.find? (Map.mod m k f) k = some (f x) := by
  rw [Map.find?_mod, if_pos rfl, h]; rfl

theorem Map.find?_mod_other {α : Type} (m : Map α) (k j : Nat) (f : α → α) (h : j ≠ k) :
    Map.find? (Map.mod m k f) j = Map.find? m j := by
  rw [Map.find?_mod, if_neg h]

/-- Counting an instruction group changes counters alone. -/
theorem countGroup_eq (s : State) (cu : Cur) : ∃ b, countGroup s cu = { s with banks := b } := by
  unfold countGroup
  split
  · exact ⟨_, rfl⟩
  · exact ⟨s.banks, rfl⟩

/-- The end of an issue outside an episode changes counters alone. -/
theorem finishIssue_spec (s : State) (cu : Cur) (w : Crew) (g : Group) (hw : Map.find? s.crews cu.crew = some w)
    (hg : Map.find? w.groups cu.group = some g) (he : g.episode = none) :
    Advanced s (finishIssue s cu) cu w g { w with groups := Map.put w.groups cu.group g } g := by
  obtain ⟨b, hb⟩ := countGroup_eq s cu
  unfold finishIssue
  rw [hb]
  have e1 : ({ s with banks := b } : State).episode cu.crew cu.group = none := by
    simp only [State.episode, hw, Option.bind_some, hg, he]
  have e2 : ({ s with banks := b } : State).outerTable cu.crew cu.group = s.osets := by
    simp only [State.outerTable, e1]
  have hcr : Map.find? (({ s with banks := b } : State).exitEpisode cu.crew cu.group).crews cu.crew =
      some { w with groups := Map.put w.groups cu.group g } := by
    unfold State.exitEpisode State.onGroup State.modCrew
    rw [e2]
    simp only
    rw [Map.find?_mod_self _ _ _ w hw]
    simp only [hg, he]
  have e3 : (({ s with banks := b } : State).exitEpisode cu.crew cu.group).episode cu.crew cu.group = none := by
    rw [State.episode, hcr, Option.bind_some, Map.find?_put_self, Option.bind_some, he]
  simp only [e3]
  refine ⟨hcr, Map.find?_put_self _ _ _, ?_, fun n hn => ?_, fun n hn => Map.find?_put_other _ _ _ _ hn, rfl, rfl,
    fun _ => rfl, fun _ => rfl, fun _ _ => rfl, rfl⟩
  · unfold State.exitEpisode
    rw [e2]
    rfl
  · unfold State.exitEpisode State.onGroup State.modCrew
    rw [e2]
    exact Map.find?_mod_other _ _ _ _ hn

/-- Moving past an instruction. -/
theorem advance_spec (s : State) (cu : Cur) (w : Crew) (g : Group) (hw : Map.find? s.crews cu.crew = some w)
    (hg : Map.find? w.groups cu.group = some g) (he : g.episode = none) :
    ∃ w' g', Advanced s (advance s cu) cu w g w' g' := by
  obtain ⟨w1, g1, h⟩ := advanceGroup_spec s cu w g hw hg he
  have he1 : g1.episode = none := (congrArg Group.episode h.group).trans he
  have k := finishIssue_spec (advanceGroup s cu) cu w1 g1 h.crews h.groups he1
  refine ⟨_, _, k.crews, k.groups, k.machine.trans h.machine, fun n hn => (k.otherCrews n hn).trans (h.otherCrews n hn),
    fun n hn => (k.otherGroups n hn).trans (h.otherGroups n hn), k.crew.trans h.crew, k.count.trans h.count,
    fun i => (k.sheaf i).trans (h.sheaf i), fun p => (k.thread p).trans (h.thread p), fun p hp => ?_, k.group.trans h.group⟩
  exact (show _ = w1.thread p from rfl).trans (h.other p hp)

end Sys2Proof.Machine
end

