-- ==== Sys2Proof/Laws/PerInstr.lean ====
section
/-! SUPPORT. The family Encoding of statements made for each instruction: what its words are made of. -/

namespace Sys2Proof.Laws

/-- What holds of every instruction's words: only an event has none; a well-formed instruction belongs to a class; no group takes
more than the 15 words of a clause (07_encoding.md R157, R163). -/
def Encoding.Statement (i : Instr) : Prop :=
  (encode i = [] ↔ i.cls = none) ∧ (i.wf = true → i.cls ≠ none) ∧ (encode i).length ≤ 9

/-- A field has at most one literal word. -/
theorem lit_length (f : FieldVal) : f.lit.length ≤ 1 := by
  unfold FieldVal.lit; split <;> simp

/-- A shape has at most five prefix words, one of each kind. -/
theorem prefixes_length (s : Shape) : s.prefixes.length ≤ 5 := by
  have h (p : Prop) [Decidable p] (x : Word) : (if p then [x] else []).length ≤ 1 := by split <;> simp
  have h' (p : Prop) [Decidable p] (x : Word) : (if p then [] else [x]).length ≤ 1 := by split <;> simp
  unfold Shape.prefixes
  simp only [List.length_append]
  have := h (s.d.isV || s.a.isV || s.b.isV) (pfxWord 0x3F8 (s.d.high * 2 ^ 19 + s.a.high * 2 ^ 16 + s.b.high * 2 ^ 13))
  have := h' (s.cache = CacheP.none) (pfxWord 0x3FB ((if s.cache.noL2 then 2 ^ 8 else 0) + s.cache.pcls * 2 ^ 6 + s.cache.l1 * 2 ^ 4))
  have := h' (s.smod = SMod.none) (pfxWord 0x3FA ((if s.smod.sat then 2 ^ 8 else 0) + (if s.smod.absB then 2 ^ 7 else 0) +
    (if s.smod.negB then 2 ^ 6 else 0) + (if s.smod.absA then 2 ^ 5 else 0) + (if s.smod.negA then 2 ^ 4 else 0)))
  cases s.rnd <;> cases s.ord <;> simp only [List.length_cons, List.length_nil] <;> omega

/-- The statement holds of every instruction. -/
theorem encoding_holds (i : Instr) : Encoding.Statement i := by
  unfold Encoding.Statement encode Instr.cls Instr.wf
  split <;> simp_all
  split <;> simp_all
  rename_i s _
  have := prefixes_length s
  have := lit_length s.a
  have := lit_length s.b
  have := lit_length s.d
  omega

end Sys2Proof.Laws

theorem Sys2Proof.Laws.Encoding.iadd : ∀ d a b g, Sys2Proof.Laws.Encoding.Statement (.iadd d a b g) :=
  fun _ _ _ _ => Sys2Proof.Laws.encoding_holds _
theorem Sys2Proof.Laws.Encoding.iaddSat : ∀ d a b g, Sys2Proof.Laws.Encoding.Statement (.iaddSat d a b g) :=
  fun _ _ _ _ => Sys2Proof.Laws.encoding_holds _
theorem Sys2Proof.Laws.Encoding.isub : ∀ d a b g, Sys2Proof.Laws.Encoding.Statement (.isub d a b g) :=
  fun _ _ _ _ => Sys2Proof.Laws.encoding_holds _
theorem Sys2Proof.Laws.Encoding.isubSat : ∀ d a b g, Sys2Proof.Laws.Encoding.Statement (.isubSat d a b g) :=
  fun _ _ _ _ => Sys2Proof.Laws.encoding_holds _
theorem Sys2Proof.Laws.Encoding.imul : ∀ d a b g, Sys2Proof.Laws.Encoding.Statement (.imul d a b g) :=
  fun _ _ _ _ => Sys2Proof.Laws.encoding_holds _
theorem Sys2Proof.Laws.Encoding.imulhS : ∀ d a b g, Sys2Proof.Laws.Encoding.Statement (.imulhS d a b g) :=
  fun _ _ _ _ => Sys2Proof.Laws.encoding_holds _
theorem Sys2Proof.Laws.Encoding.imulhN : ∀ d a b g, Sys2Proof.Laws.Encoding.Statement (.imulhN d a b g) :=
  fun _ _ _ _ => Sys2Proof.Laws.encoding_holds _
theorem Sys2Proof.Laws.Encoding.imad : ∀ d a b g, Sys2Proof.Laws.Encoding.Statement (.imad d a b g) :=
  fun _ _ _ _ => Sys2Proof.Laws.encoding_holds _
theorem Sys2Proof.Laws.Encoding.imadwN : ∀ d a b g, Sys2Proof.Laws.Encoding.Statement (.imadwN d a b g) :=
  fun _ _ _ _ => Sys2Proof.Laws.encoding_holds _
theorem Sys2Proof.Laws.Encoding.imadwS : ∀ d a b g, Sys2Proof.Laws.Encoding.Statement (.imadwS d a b g) :=
  fun _ _ _ _ => Sys2Proof.Laws.encoding_holds _
theorem Sys2Proof.Laws.Encoding.iadd64 : ∀ d a b g, Sys2Proof.Laws.Encoding.Statement (.iadd64 d a b g) :=
  fun _ _ _ _ => Sys2Proof.Laws.encoding_holds _
theorem Sys2Proof.Laws.Encoding.isub64 : ∀ d a b g, Sys2Proof.Laws.Encoding.Statement (.isub64 d a b g) :=
  fun _ _ _ _ => Sys2Proof.Laws.encoding_holds _
theorem Sys2Proof.Laws.Encoding.iminS : ∀ d a b g, Sys2Proof.Laws.Encoding.Statement (.iminS d a b g) :=
  fun _ _ _ _ => Sys2Proof.Laws.encoding_holds _
theorem Sys2Proof.Laws.Encoding.iminN : ∀ d a b g, Sys2Proof.Laws.Encoding.Statement (.iminN d a b g) :=
  fun _ _ _ _ => Sys2Proof.Laws.encoding_holds _
theorem Sys2Proof.Laws.Encoding.imaxS : ∀ d a b g, Sys2Proof.Laws.Encoding.Statement (.imaxS d a b g) :=
  fun _ _ _ _ => Sys2Proof.Laws.encoding_holds _
theorem Sys2Proof.Laws.Encoding.imaxN : ∀ d a b g, Sys2Proof.Laws.Encoding.Statement (.imaxN d a b g) :=
  fun _ _ _ _ => Sys2Proof.Laws.encoding_holds _
theorem Sys2Proof.Laws.Encoding.iabs : ∀ d a g, Sys2Proof.Laws.Encoding.Statement (.iabs d a g) :=
  fun _ _ _ => Sys2Proof.Laws.encoding_holds _
theorem Sys2Proof.Laws.Encoding.lea1 : ∀ d a b g, Sys2Proof.Laws.Encoding.Statement (.lea1 d a b g) :=
  fun _ _ _ _ => Sys2Proof.Laws.encoding_holds _
theorem Sys2Proof.Laws.Encoding.lea2 : ∀ d a b g, Sys2Proof.Laws.Encoding.Statement (.lea2 d a b g) :=
  fun _ _ _ _ => Sys2Proof.Laws.encoding_holds _
theorem Sys2Proof.Laws.Encoding.lea3 : ∀ d a b g, Sys2Proof.Laws.Encoding.Statement (.lea3 d a b g) :=
  fun _ _ _ _ => Sys2Proof.Laws.encoding_holds _
theorem Sys2Proof.Laws.Encoding.lea4 : ∀ d a b g, Sys2Proof.Laws.Encoding.Statement (.lea4 d a b g) :=
  fun _ _ _ _ => Sys2Proof.Laws.encoding_holds _
theorem Sys2Proof.Laws.Encoding.lea64 : ∀ d a b g, Sys2Proof.Laws.Encoding.Statement (.lea64 d a b g) :=
  fun _ _ _ _ => Sys2Proof.Laws.encoding_holds _
theorem Sys2Proof.Laws.Encoding.idp4S : ∀ d a b g, Sys2Proof.Laws.Encoding.Statement (.idp4S d a b g) :=
  fun _ _ _ _ => Sys2Proof.Laws.encoding_holds _
theorem Sys2Proof.Laws.Encoding.idp4N : ∀ d a b g, Sys2Proof.Laws.Encoding.Statement (.idp4N d a b g) :=
  fun _ _ _ _ => Sys2Proof.Laws.encoding_holds _
theorem Sys2Proof.Laws.Encoding.idp2S : ∀ d a b g, Sys2Proof.Laws.Encoding.Statement (.idp2S d a b g) :=
  fun _ _ _ _ => Sys2Proof.Laws.encoding_holds _
theorem Sys2Proof.Laws.Encoding.and : ∀ d a b g, Sys2Proof.Laws.Encoding.Statement (.and d a b g) :=
  fun _ _ _ _ => Sys2Proof.Laws.encoding_holds _
theorem Sys2Proof.Laws.Encoding.or : ∀ d a b g, Sys2Proof.Laws.Encoding.Statement (.or d a b g) :=
  fun _ _ _ _ => Sys2Proof.Laws.encoding_holds _
theorem Sys2Proof.Laws.Encoding.xor : ∀ d a b g, Sys2Proof.Laws.Encoding.Statement (.xor d a b g) :=
  fun _ _ _ _ => Sys2Proof.Laws.encoding_holds _
theorem Sys2Proof.Laws.Encoding.andn : ∀ d a b g, Sys2Proof.Laws.Encoding.Statement (.andn d a b g) :=
  fun _ _ _ _ => Sys2Proof.Laws.encoding_holds _
theorem Sys2Proof.Laws.Encoding.orn : ∀ d a b g, Sys2Proof.Laws.Encoding.Statement (.orn d a b g) :=
  fun _ _ _ _ => Sys2Proof.Laws.encoding_holds _
theorem Sys2Proof.Laws.Encoding.not : ∀ d a g, Sys2Proof.Laws.Encoding.Statement (.not d a g) :=
  fun _ _ _ => Sys2Proof.Laws.encoding_holds _
theorem Sys2Proof.Laws.Encoding.shl : ∀ d a b g, Sys2Proof.Laws.Encoding.Statement (.shl d a b g) :=
  fun _ _ _ _ => Sys2Proof.Laws.encoding_holds _
theorem Sys2Proof.Laws.Encoding.shr : ∀ d a b g, Sys2Proof.Laws.Encoding.Statement (.shr d a b g) :=
  fun _ _ _ _ => Sys2Proof.Laws.encoding_holds _
theorem Sys2Proof.Laws.Encoding.sar : ∀ d a b g, Sys2Proof.Laws.Encoding.Statement (.sar d a b g) :=
  fun _ _ _ _ => Sys2Proof.Laws.encoding_holds _
theorem Sys2Proof.Laws.Encoding.fshl : ∀ d a b g, Sys2Proof.Laws.Encoding.Statement (.fshl d a b g) :=
  fun _ _ _ _ => Sys2Proof.Laws.encoding_holds _
theorem Sys2Proof.Laws.Encoding.fshr : ∀ d a b g, Sys2Proof.Laws.Encoding.Statement (.fshr d a b g) :=
  fun _ _ _ _ => Sys2Proof.Laws.encoding_holds _
theorem Sys2Proof.Laws.Encoding.bfeN : ∀ d a b g, Sys2Proof.Laws.Encoding.Statement (.bfeN d a b g) :=
  fun _ _ _ _ => Sys2Proof.Laws.encoding_holds _
theorem Sys2Proof.Laws.Encoding.bfeS : ∀ d a b g, Sys2Proof.Laws.Encoding.Statement (.bfeS d a b g) :=
  fun _ _ _ _ => Sys2Proof.Laws.encoding_holds _
theorem Sys2Proof.Laws.Encoding.bfi : ∀ d a b g, Sys2Proof.Laws.Encoding.Statement (.bfi d a b g) :=
  fun _ _ _ _ => Sys2Proof.Laws.encoding_holds _
theorem Sys2Proof.Laws.Encoding.brev : ∀ d a g, Sys2Proof.Laws.Encoding.Statement (.brev d a g) :=
  fun _ _ _ => Sys2Proof.Laws.encoding_holds _
theorem Sys2Proof.Laws.Encoding.popc : ∀ d a g, Sys2Proof.Laws.Encoding.Statement (.popc d a g) :=
  fun _ _ _ => Sys2Proof.Laws.encoding_holds _
theorem Sys2Proof.Laws.Encoding.clz : ∀ d a g, Sys2Proof.Laws.Encoding.Statement (.clz d a g) :=
  fun _ _ _ => Sys2Proof.Laws.encoding_holds _
theorem Sys2Proof.Laws.Encoding.ctz : ∀ d a g, Sys2Proof.Laws.Encoding.Statement (.ctz d a g) :=
  fun _ _ _ => Sys2Proof.Laws.encoding_holds _
theorem Sys2Proof.Laws.Encoding.prmt : ∀ d a b g, Sys2Proof.Laws.Encoding.Statement (.prmt d a b g) :=
  fun _ _ _ _ => Sys2Proof.Laws.encoding_holds _
theorem Sys2Proof.Laws.Encoding.isetp : ∀ cc d a b g, Sys2Proof.Laws.Encoding.Statement (.isetp cc d a b g) :=
  fun _ _ _ _ _ => Sys2Proof.Laws.encoding_holds _
theorem Sys2Proof.Laws.Encoding.psetpAnd : ∀ d a b g, Sys2Proof.Laws.Encoding.Statement (.psetpAnd d a b g) :=
  fun _ _ _ _ => Sys2Proof.Laws.encoding_holds _
theorem Sys2Proof.Laws.Encoding.psetpOr : ∀ d a b g, Sys2Proof.Laws.Encoding.Statement (.psetpOr d a b g) :=
  fun _ _ _ _ => Sys2Proof.Laws.encoding_holds _
theorem Sys2Proof.Laws.Encoding.psetpXor : ∀ d a b g, Sys2Proof.Laws.Encoding.Statement (.psetpXor d a b g) :=
  fun _ _ _ _ => Sys2Proof.Laws.encoding_holds _
theorem Sys2Proof.Laws.Encoding.psetpAndn : ∀ d a b g, Sys2Proof.Laws.Encoding.Statement (.psetpAndn d a b g) :=
  fun _ _ _ _ => Sys2Proof.Laws.encoding_holds _
theorem Sys2Proof.Laws.Encoding.sel : ∀ d a b g, Sys2Proof.Laws.Encoding.Statement (.sel d a b g) :=
  fun _ _ _ _ => Sys2Proof.Laws.encoding_holds _
theorem Sys2Proof.Laws.Encoding.mov : ∀ d a g, Sys2Proof.Laws.Encoding.Statement (.mov d a g) :=
  fun _ _ _ => Sys2Proof.Laws.encoding_holds _
theorem Sys2Proof.Laws.Encoding.prdw : ∀ d g, Sys2Proof.Laws.Encoding.Statement (.prdw d g) :=
  fun _ _ => Sys2Proof.Laws.encoding_holds _
theorem Sys2Proof.Laws.Encoding.pwrw : ∀ a g, Sys2Proof.Laws.Encoding.Statement (.pwrw a g) :=
  fun _ _ => Sys2Proof.Laws.encoding_holds _
theorem Sys2Proof.Laws.Encoding.w2k : ∀ d a b g, Sys2Proof.Laws.Encoding.Statement (.w2k d a b g) :=
  fun _ _ _ _ => Sys2Proof.Laws.encoding_holds _
theorem Sys2Proof.Laws.Encoding.osq : ∀ d a g, Sys2Proof.Laws.Encoding.Statement (.osq d a g) :=
  fun _ _ _ => Sys2Proof.Laws.encoding_holds _
theorem Sys2Proof.Laws.Encoding.shfl : ∀ m d a b g, Sys2Proof.Laws.Encoding.Statement (.shfl m d a b g) :=
  fun _ _ _ _ _ => Sys2Proof.Laws.encoding_holds _
theorem Sys2Proof.Laws.Encoding.voteAll : ∀ d a g, Sys2Proof.Laws.Encoding.Statement (.voteAll d a g) :=
  fun _ _ _ => Sys2Proof.Laws.encoding_holds _
theorem Sys2Proof.Laws.Encoding.voteAny : ∀ d a g, Sys2Proof.Laws.Encoding.Statement (.voteAny d a g) :=
  fun _ _ _ => Sys2Proof.Laws.encoding_holds _
theorem Sys2Proof.Laws.Encoding.voteBal : ∀ d a g, Sys2Proof.Laws.Encoding.Statement (.voteBal d a g) :=
  fun _ _ _ => Sys2Proof.Laws.encoding_holds _
theorem Sys2Proof.Laws.Encoding.redaddS : ∀ d a g, Sys2Proof.Laws.Encoding.Statement (.redaddS d a g) :=
  fun _ _ _ => Sys2Proof.Laws.encoding_holds _
theorem Sys2Proof.Laws.Encoding.redminS : ∀ d a g, Sys2Proof.Laws.Encoding.Statement (.redminS d a g) :=
  fun _ _ _ => Sys2Proof.Laws.encoding_holds _
theorem Sys2Proof.Laws.Encoding.redminN : ∀ d a g, Sys2Proof.Laws.Encoding.Statement (.redminN d a g) :=
  fun _ _ _ => Sys2Proof.Laws.encoding_holds _
theorem Sys2Proof.Laws.Encoding.redmaxS : ∀ d a g, Sys2Proof.Laws.Encoding.Statement (.redmaxS d a g) :=
  fun _ _ _ => Sys2Proof.Laws.encoding_holds _
theorem Sys2Proof.Laws.Encoding.redmaxN : ∀ d a g, Sys2Proof.Laws.Encoding.Statement (.redmaxN d a g) :=
  fun _ _ _ => Sys2Proof.Laws.encoding_holds _
theorem Sys2Proof.Laws.Encoding.redminiN : ∀ d a b g, Sys2Proof.Laws.Encoding.Statement (.redminiN d a b g) :=
  fun _ _ _ _ => Sys2Proof.Laws.encoding_holds _
theorem Sys2Proof.Laws.Encoding.redmaxiN : ∀ d a b g, Sys2Proof.Laws.Encoding.Statement (.redmaxiN d a b g) :=
  fun _ _ _ _ => Sys2Proof.Laws.encoding_holds _
theorem Sys2Proof.Laws.Encoding.redaddF32 : ∀ d a g, Sys2Proof.Laws.Encoding.Statement (.redaddF32 d a g) :=
  fun _ _ _ => Sys2Proof.Laws.encoding_holds _
theorem Sys2Proof.Laws.Encoding.redminF32 : ∀ d a g, Sys2Proof.Laws.Encoding.Statement (.redminF32 d a g) :=
  fun _ _ _ => Sys2Proof.Laws.encoding_holds _
theorem Sys2Proof.Laws.Encoding.redmaxF32 : ∀ d a g, Sys2Proof.Laws.Encoding.Statement (.redmaxF32 d a g) :=
  fun _ _ _ => Sys2Proof.Laws.encoding_holds _
theorem Sys2Proof.Laws.Encoding.fadd : ∀ m r d a b g, Sys2Proof.Laws.Encoding.Statement (.fadd m r d a b g) :=
  fun _ _ _ _ _ _ => Sys2Proof.Laws.encoding_holds _
theorem Sys2Proof.Laws.Encoding.fsub : ∀ m r d a b g, Sys2Proof.Laws.Encoding.Statement (.fsub m r d a b g) :=
  fun _ _ _ _ _ _ => Sys2Proof.Laws.encoding_holds _
theorem Sys2Proof.Laws.Encoding.fmul : ∀ m r d a b g, Sys2Proof.Laws.Encoding.Statement (.fmul m r d a b g) :=
  fun _ _ _ _ _ _ => Sys2Proof.Laws.encoding_holds _
theorem Sys2Proof.Laws.Encoding.ffma : ∀ m r d a b g, Sys2Proof.Laws.Encoding.Statement (.ffma m r d a b g) :=
  fun _ _ _ _ _ _ => Sys2Proof.Laws.encoding_holds _
theorem Sys2Proof.Laws.Encoding.fmin : ∀ m d a b g, Sys2Proof.Laws.Encoding.Statement (.fmin m d a b g) :=
  fun _ _ _ _ _ => Sys2Proof.Laws.encoding_holds _
theorem Sys2Proof.Laws.Encoding.fmax : ∀ m d a b g, Sys2Proof.Laws.Encoding.Statement (.fmax m d a b g) :=
  fun _ _ _ _ _ => Sys2Proof.Laws.encoding_holds _
theorem Sys2Proof.Laws.Encoding.fsetpEq : ∀ m d a b g, Sys2Proof.Laws.Encoding.Statement (.fsetpEq m d a b g) :=
  fun _ _ _ _ _ => Sys2Proof.Laws.encoding_holds _
theorem Sys2Proof.Laws.Encoding.fsetpNe : ∀ m d a b g, Sys2Proof.Laws.Encoding.Statement (.fsetpNe m d a b g) :=
  fun _ _ _ _ _ => Sys2Proof.Laws.encoding_holds _
theorem Sys2Proof.Laws.Encoding.fsetpLt : ∀ m d a b g, Sys2Proof.Laws.Encoding.Statement (.fsetpLt m d a b g) :=
  fun _ _ _ _ _ => Sys2Proof.Laws.encoding_holds _
theorem Sys2Proof.Laws.Encoding.fsetpLe : ∀ m d a b g, Sys2Proof.Laws.Encoding.Statement (.fsetpLe m d a b g) :=
  fun _ _ _ _ _ => Sys2Proof.Laws.encoding_holds _
theorem Sys2Proof.Laws.Encoding.fsetpNan : ∀ m d a b g, Sys2Proof.Laws.Encoding.Statement (.fsetpNan m d a b g) :=
  fun _ _ _ _ _ => Sys2Proof.Laws.encoding_holds _
theorem Sys2Proof.Laws.Encoding.frnd : ∀ m r d a g, Sys2Proof.Laws.Encoding.Statement (.frnd m r d a g) :=
  fun _ _ _ _ _ => Sys2Proof.Laws.encoding_holds _
theorem Sys2Proof.Laws.Encoding.fldexp : ∀ m r d a b g, Sys2Proof.Laws.Encoding.Statement (.fldexp m r d a b g) :=
  fun _ _ _ _ _ _ => Sys2Proof.Laws.encoding_holds _
theorem Sys2Proof.Laws.Encoding.fldxa : ∀ m r d a b g, Sys2Proof.Laws.Encoding.Statement (.fldxa m r d a b g) :=
  fun _ _ _ _ _ _ => Sys2Proof.Laws.encoding_holds _
theorem Sys2Proof.Laws.Encoding.faddH2 : ∀ m r d a b g, Sys2Proof.Laws.Encoding.Statement (.faddH2 m r d a b g) :=
  fun _ _ _ _ _ _ => Sys2Proof.Laws.encoding_holds _
theorem Sys2Proof.Laws.Encoding.fmulH2 : ∀ m r d a b g, Sys2Proof.Laws.Encoding.Statement (.fmulH2 m r d a b g) :=
  fun _ _ _ _ _ _ => Sys2Proof.Laws.encoding_holds _
theorem Sys2Proof.Laws.Encoding.ffmaH2 : ∀ m r d a b g, Sys2Proof.Laws.Encoding.Statement (.ffmaH2 m r d a b g) :=
  fun _ _ _ _ _ _ => Sys2Proof.Laws.encoding_holds _
theorem Sys2Proof.Laws.Encoding.fminH2 : ∀ m d a b g, Sys2Proof.Laws.Encoding.Statement (.fminH2 m d a b g) :=
  fun _ _ _ _ _ => Sys2Proof.Laws.encoding_holds _
theorem Sys2Proof.Laws.Encoding.fmaxH2 : ∀ m d a b g, Sys2Proof.Laws.Encoding.Statement (.fmaxH2 m d a b g) :=
  fun _ _ _ _ _ => Sys2Proof.Laws.encoding_holds _
theorem Sys2Proof.Laws.Encoding.faddB2 : ∀ m r d a b g, Sys2Proof.Laws.Encoding.Statement (.faddB2 m r d a b g) :=
  fun _ _ _ _ _ _ => Sys2Proof.Laws.encoding_holds _
theorem Sys2Proof.Laws.Encoding.fmulB2 : ∀ m r d a b g, Sys2Proof.Laws.Encoding.Statement (.fmulB2 m r d a b g) :=
  fun _ _ _ _ _ _ => Sys2Proof.Laws.encoding_holds _
theorem Sys2Proof.Laws.Encoding.ffmaB2 : ∀ m r d a b g, Sys2Proof.Laws.Encoding.Statement (.ffmaB2 m r d a b g) :=
  fun _ _ _ _ _ _ => Sys2Proof.Laws.encoding_holds _
theorem Sys2Proof.Laws.Encoding.fdp2H2 : ∀ m r d a b g, Sys2Proof.Laws.Encoding.Statement (.fdp2H2 m r d a b g) :=
  fun _ _ _ _ _ _ => Sys2Proof.Laws.encoding_holds _
theorem Sys2Proof.Laws.Encoding.fdp2B2 : ∀ m r d a b g, Sys2Proof.Laws.Encoding.Statement (.fdp2B2 m r d a b g) :=
  fun _ _ _ _ _ _ => Sys2Proof.Laws.encoding_holds _
theorem Sys2Proof.Laws.Encoding.frcp : ∀ m d a g, Sys2Proof.Laws.Encoding.Statement (.frcp m d a g) :=
  fun _ _ _ _ => Sys2Proof.Laws.encoding_holds _
theorem Sys2Proof.Laws.Encoding.frsq : ∀ m d a g, Sys2Proof.Laws.Encoding.Statement (.frsq m d a g) :=
  fun _ _ _ _ => Sys2Proof.Laws.encoding_holds _
theorem Sys2Proof.Laws.Encoding.fsqrt : ∀ m d a g, Sys2Proof.Laws.Encoding.Statement (.fsqrt m d a g) :=
  fun _ _ _ _ => Sys2Proof.Laws.encoding_holds _
theorem Sys2Proof.Laws.Encoding.fex2 : ∀ m d a g, Sys2Proof.Laws.Encoding.Statement (.fex2 m d a g) :=
  fun _ _ _ _ => Sys2Proof.Laws.encoding_holds _
theorem Sys2Proof.Laws.Encoding.flg2 : ∀ m d a g, Sys2Proof.Laws.Encoding.Statement (.flg2 m d a g) :=
  fun _ _ _ _ => Sys2Proof.Laws.encoding_holds _
theorem Sys2Proof.Laws.Encoding.fsin : ∀ m d a g, Sys2Proof.Laws.Encoding.Statement (.fsin m d a g) :=
  fun _ _ _ _ => Sys2Proof.Laws.encoding_holds _
theorem Sys2Proof.Laws.Encoding.fcos : ∀ m d a g, Sys2Proof.Laws.Encoding.Statement (.fcos m d a g) :=
  fun _ _ _ _ => Sys2Proof.Laws.encoding_holds _
theorem Sys2Proof.Laws.Encoding.ftanh : ∀ m d a g, Sys2Proof.Laws.Encoding.Statement (.ftanh m d a g) :=
  fun _ _ _ _ => Sys2Proof.Laws.encoding_holds _
theorem Sys2Proof.Laws.Encoding.cvtF32I32 : ∀ r d a g, Sys2Proof.Laws.Encoding.Statement (.cvtF32I32 r d a g) :=
  fun _ _ _ _ => Sys2Proof.Laws.encoding_holds _
theorem Sys2Proof.Laws.Encoding.cvtF32N32 : ∀ r d a g, Sys2Proof.Laws.Encoding.Statement (.cvtF32N32 r d a g) :=
  fun _ _ _ _ => Sys2Proof.Laws.encoding_holds _
theorem Sys2Proof.Laws.Encoding.cvtI32F32 : ∀ r d a g, Sys2Proof.Laws.Encoding.Statement (.cvtI32F32 r d a g) :=
  fun _ _ _ _ => Sys2Proof.Laws.encoding_holds _
theorem Sys2Proof.Laws.Encoding.cvtN32F32 : ∀ r d a g, Sys2Proof.Laws.Encoding.Statement (.cvtN32F32 r d a g) :=
  fun _ _ _ _ => Sys2Proof.Laws.encoding_holds _
theorem Sys2Proof.Laws.Encoding.cvtH2F32 : ∀ r d a b g, Sys2Proof.Laws.Encoding.Statement (.cvtH2F32 r d a b g) :=
  fun _ _ _ _ _ => Sys2Proof.Laws.encoding_holds _
theorem Sys2Proof.Laws.Encoding.cvtB2F32 : ∀ r d a b g, Sys2Proof.Laws.Encoding.Statement (.cvtB2F32 r d a b g) :=
  fun _ _ _ _ _ => Sys2Proof.Laws.encoding_holds _
theorem Sys2Proof.Laws.Encoding.cvtF32HL : ∀ d a g, Sys2Proof.Laws.Encoding.Statement (.cvtF32HL d a g) :=
  fun _ _ _ => Sys2Proof.Laws.encoding_holds _
theorem Sys2Proof.Laws.Encoding.cvtF32HH : ∀ d a g, Sys2Proof.Laws.Encoding.Statement (.cvtF32HH d a g) :=
  fun _ _ _ => Sys2Proof.Laws.encoding_holds _
theorem Sys2Proof.Laws.Encoding.cvtF32BL : ∀ d a g, Sys2Proof.Laws.Encoding.Statement (.cvtF32BL d a g) :=
  fun _ _ _ => Sys2Proof.Laws.encoding_holds _
theorem Sys2Proof.Laws.Encoding.cvtF32BH : ∀ d a g, Sys2Proof.Laws.Encoding.Statement (.cvtF32BH d a g) :=
  fun _ _ _ => Sys2Proof.Laws.encoding_holds _
theorem Sys2Proof.Laws.Encoding.cvtE4X2F32 : ∀ r d a b g, Sys2Proof.Laws.Encoding.Statement (.cvtE4X2F32 r d a b g) :=
  fun _ _ _ _ _ => Sys2Proof.Laws.encoding_holds _
theorem Sys2Proof.Laws.Encoding.cvtE5X2F32 : ∀ r d a b g, Sys2Proof.Laws.Encoding.Statement (.cvtE5X2F32 r d a b g) :=
  fun _ _ _ _ _ => Sys2Proof.Laws.encoding_holds _
theorem Sys2Proof.Laws.Encoding.cvtF32E4 : ∀ d a b g, Sys2Proof.Laws.Encoding.Statement (.cvtF32E4 d a b g) :=
  fun _ _ _ _ => Sys2Proof.Laws.encoding_holds _
theorem Sys2Proof.Laws.Encoding.cvtF32E5 : ∀ d a b g, Sys2Proof.Laws.Encoding.Statement (.cvtF32E5 d a b g) :=
  fun _ _ _ _ => Sys2Proof.Laws.encoding_holds _
theorem Sys2Proof.Laws.Encoding.cvtb : ∀ c r d a b g, Sys2Proof.Laws.Encoding.Statement (.cvtb c r d a b g) :=
  fun _ _ _ _ _ _ => Sys2Proof.Laws.encoding_holds _
theorem Sys2Proof.Laws.Encoding.dqb : ∀ d a b g, Sys2Proof.Laws.Encoding.Statement (.dqb d a b g) :=
  fun _ _ _ _ => Sys2Proof.Laws.encoding_holds _
theorem Sys2Proof.Laws.Encoding.bpack : ∀ c d a g, Sys2Proof.Laws.Encoding.Statement (.bpack c d a g) :=
  fun _ _ _ _ => Sys2Proof.Laws.encoding_holds _
theorem Sys2Proof.Laws.Encoding.bunpk : ∀ c d a g, Sys2Proof.Laws.Encoding.Statement (.bunpk c d a g) :=
  fun _ _ _ _ => Sys2Proof.Laws.encoding_holds _
theorem Sys2Proof.Laws.Encoding.ld : ∀ sz c o d a b g, Sys2Proof.Laws.Encoding.Statement (.ld sz c o d a b g) :=
  fun _ _ _ _ _ _ _ => Sys2Proof.Laws.encoding_holds _
theorem Sys2Proof.Laws.Encoding.st : ∀ sz c o d a b g, Sys2Proof.Laws.Encoding.Statement (.st sz c o d a b g) :=
  fun _ _ _ _ _ _ _ => Sys2Proof.Laws.encoding_holds _
theorem Sys2Proof.Laws.Encoding.lds : ∀ sz d a b g, Sys2Proof.Laws.Encoding.Statement (.lds sz d a b g) :=
  fun _ _ _ _ _ => Sys2Proof.Laws.encoding_holds _
theorem Sys2Proof.Laws.Encoding.sts : ∀ sz d a b g, Sys2Proof.Laws.Encoding.Statement (.sts sz d a b g) :=
  fun _ _ _ _ _ => Sys2Proof.Laws.encoding_holds _
theorem Sys2Proof.Laws.Encoding.ldk : ∀ sz c d a b g, Sys2Proof.Laws.Encoding.Statement (.ldk sz c d a b g) :=
  fun _ _ _ _ _ _ => Sys2Proof.Laws.encoding_holds _
theorem Sys2Proof.Laws.Encoding.ldt : ∀ sp wide d a b g, Sys2Proof.Laws.Encoding.Statement (.ldt sp wide d a b g) :=
  fun _ _ _ _ _ _ => Sys2Proof.Laws.encoding_holds _
theorem Sys2Proof.Laws.Encoding.stt : ∀ sp wide d a b g, Sys2Proof.Laws.Encoding.Statement (.stt sp wide d a b g) :=
  fun _ _ _ _ _ _ => Sys2Proof.Laws.encoding_holds _
theorem Sys2Proof.Laws.Encoding.atom : ∀ op o d a b g, Sys2Proof.Laws.Encoding.Statement (.atom op o d a b g) :=
  fun _ _ _ _ _ _ => Sys2Proof.Laws.encoding_holds _
theorem Sys2Proof.Laws.Encoding.red : ∀ op o a b g, Sys2Proof.Laws.Encoding.Statement (.red op o a b g) :=
  fun _ _ _ _ _ => Sys2Proof.Laws.encoding_holds _
theorem Sys2Proof.Laws.Encoding.atoms : ∀ op o d a b g, Sys2Proof.Laws.Encoding.Statement (.atoms op o d a b g) :=
  fun _ _ _ _ _ _ => Sys2Proof.Laws.encoding_holds _
theorem Sys2Proof.Laws.Encoding.fence : ∀ scope sem g, Sys2Proof.Laws.Encoding.Statement (.fence scope sem g) :=
  fun _ _ _ => Sys2Proof.Laws.encoding_holds _
theorem Sys2Proof.Laws.Encoding.pref : ∀ lvl c a b g, Sys2Proof.Laws.Encoding.Statement (.pref lvl c a b g) :=
  fun _ _ _ _ _ => Sys2Proof.Laws.encoding_holds _
theorem Sys2Proof.Laws.Encoding.cmaint : ∀ act scope g, Sys2Proof.Laws.Encoding.Statement (.cmaint act scope g) :=
  fun _ _ _ => Sys2Proof.Laws.encoding_holds _
theorem Sys2Proof.Laws.Encoding.barpa : ∀ d a b g, Sys2Proof.Laws.Encoding.Statement (.barpa d a b g) :=
  fun _ _ _ _ => Sys2Proof.Laws.encoding_holds _
theorem Sys2Proof.Laws.Encoding.barpw : ∀ d a b g, Sys2Proof.Laws.Encoding.Statement (.barpw d a b g) :=
  fun _ _ _ _ => Sys2Proof.Laws.encoding_holds _
theorem Sys2Proof.Laws.Encoding.xmma : ∀ aq bs ct wa wb zero g, Sys2Proof.Laws.Encoding.Statement (.xmma aq bs ct wa wb zero g) :=
  fun _ _ _ _ _ _ _ => Sys2Proof.Laws.encoding_holds _
theorem Sys2Proof.Laws.Encoding.xzero : ∀ t g, Sys2Proof.Laws.Encoding.Statement (.xzero t g) :=
  fun _ _ => Sys2Proof.Laws.encoding_holds _
theorem Sys2Proof.Laws.Encoding.xreq : ∀ r t aq c g, Sys2Proof.Laws.Encoding.Statement (.xreq r t aq c g) :=
  fun _ _ _ _ _ => Sys2Proof.Laws.encoding_holds _
theorem Sys2Proof.Laws.Encoding.xosq : ∀ d sp b g, Sys2Proof.Laws.Encoding.Statement (.xosq d sp b g) :=
  fun _ _ _ _ => Sys2Proof.Laws.encoding_holds _
theorem Sys2Proof.Laws.Encoding.cpy : ∀ c a g, Sys2Proof.Laws.Encoding.Statement (.cpy c a g) :=
  fun _ _ _ => Sys2Proof.Laws.encoding_holds _
theorem Sys2Proof.Laws.Encoding.cpyg : ∀ c a g, Sys2Proof.Laws.Encoding.Statement (.cpyg c a g) :=
  fun _ _ _ => Sys2Proof.Laws.encoding_holds _
theorem Sys2Proof.Laws.Encoding.cpys : ∀ c a g, Sys2Proof.Laws.Encoding.Statement (.cpys c a g) :=
  fun _ _ _ => Sys2Proof.Laws.encoding_holds _
theorem Sys2Proof.Laws.Encoding.cpyq : ∀ c r a g, Sys2Proof.Laws.Encoding.Statement (.cpyq c r a g) :=
  fun _ _ _ _ => Sys2Proof.Laws.encoding_holds _
theorem Sys2Proof.Laws.Encoding.rres : ∀ d ring g, Sys2Proof.Laws.Encoding.Statement (.rres d ring g) :=
  fun _ _ _ => Sys2Proof.Laws.encoding_holds _
theorem Sys2Proof.Laws.Encoding.rpub : ∀ ring b g, Sys2Proof.Laws.Encoding.Statement (.rpub ring b g) :=
  fun _ _ _ => Sys2Proof.Laws.encoding_holds _
theorem Sys2Proof.Laws.Encoding.rclm : ∀ d ring g, Sys2Proof.Laws.Encoding.Statement (.rclm d ring g) :=
  fun _ _ _ => Sys2Proof.Laws.encoding_holds _
theorem Sys2Proof.Laws.Encoding.rrel : ∀ ring b g, Sys2Proof.Laws.Encoding.Statement (.rrel ring b g) :=
  fun _ _ _ => Sys2Proof.Laws.encoding_holds _
theorem Sys2Proof.Laws.Encoding.rctr : ∀ d ring g, Sys2Proof.Laws.Encoding.Statement (.rctr d ring g) :=
  fun _ _ _ => Sys2Proof.Laws.encoding_holds _
theorem Sys2Proof.Laws.Encoding.msgp : ∀ cap a b g, Sys2Proof.Laws.Encoding.Statement (.msgp cap a b g) :=
  fun _ _ _ _ => Sys2Proof.Laws.encoding_holds _
theorem Sys2Proof.Laws.Encoding.msgs : ∀ len a b g, Sys2Proof.Laws.Encoding.Statement (.msgs len a b g) :=
  fun _ _ _ _ => Sys2Proof.Laws.encoding_holds _
theorem Sys2Proof.Laws.Encoding.msgc : ∀ d a g, Sys2Proof.Laws.Encoding.Statement (.msgc d a g) :=
  fun _ _ _ => Sys2Proof.Laws.encoding_holds _
theorem Sys2Proof.Laws.Encoding.ptld : ∀ first a count g, Sys2Proof.Laws.Encoding.Statement (.ptld first a count g) :=
  fun _ _ _ _ => Sys2Proof.Laws.encoding_holds _
theorem Sys2Proof.Laws.Encoding.nop : ∀ g, Sys2Proof.Laws.Encoding.Statement (.nop g) :=
  fun _ => Sys2Proof.Laws.encoding_holds _
theorem Sys2Proof.Laws.Encoding.exit : ∀ g, Sys2Proof.Laws.Encoding.Statement (.exit g) :=
  fun _ => Sys2Proof.Laws.encoding_holds _
theorem Sys2Proof.Laws.Encoding.ret : ∀ g, Sys2Proof.Laws.Encoding.Statement (.ret g) :=
  fun _ => Sys2Proof.Laws.encoding_holds _
theorem Sys2Proof.Laws.Encoding.brx : ∀ a g, Sys2Proof.Laws.Encoding.Statement (.brx a g) :=
  fun _ _ => Sys2Proof.Laws.encoding_holds _
theorem Sys2Proof.Laws.Encoding.yield : ∀ g, Sys2Proof.Laws.Encoding.Statement (.yield g) :=
  fun _ => Sys2Proof.Laws.encoding_holds _
theorem Sys2Proof.Laws.Encoding.trap : ∀ code g, Sys2Proof.Laws.Encoding.Statement (.trap code g) :=
  fun _ _ => Sys2Proof.Laws.encoding_holds _
theorem Sys2Proof.Laws.Encoding.brk : ∀ g, Sys2Proof.Laws.Encoding.Statement (.brk g) :=
  fun _ => Sys2Proof.Laws.encoding_holds _
theorem Sys2Proof.Laws.Encoding.tretNext : ∀ g, Sys2Proof.Laws.Encoding.Statement (.tretNext g) :=
  fun _ => Sys2Proof.Laws.encoding_holds _
theorem Sys2Proof.Laws.Encoding.tretRetry : ∀ g, Sys2Proof.Laws.Encoding.Statement (.tretRetry g) :=
  fun _ => Sys2Proof.Laws.encoding_holds _
theorem Sys2Proof.Laws.Encoding.rgn : ∀ base mask nra g, Sys2Proof.Laws.Encoding.Statement (.rgn base mask nra g) :=
  fun _ _ _ _ => Sys2Proof.Laws.encoding_holds _
theorem Sys2Proof.Laws.Encoding.rgnr : ∀ base mask nra g, Sys2Proof.Laws.Encoding.Statement (.rgnr base mask nra g) :=
  fun _ _ _ _ => Sys2Proof.Laws.encoding_holds _
theorem Sys2Proof.Laws.Encoding.rgne : ∀ g, Sys2Proof.Laws.Encoding.Statement (.rgne g) :=
  fun _ => Sys2Proof.Laws.encoding_holds _
theorem Sys2Proof.Laws.Encoding.waitf : ∀ flag thr g, Sys2Proof.Laws.Encoding.Statement (.waitf flag thr g) :=
  fun _ _ _ => Sys2Proof.Laws.encoding_holds _
theorem Sys2Proof.Laws.Encoding.bars : ∀ b g, Sys2Proof.Laws.Encoding.Statement (.bars b g) :=
  fun _ _ => Sys2Proof.Laws.encoding_holds _
theorem Sys2Proof.Laws.Encoding.bara : ∀ b g, Sys2Proof.Laws.Encoding.Statement (.bara b g) :=
  fun _ _ => Sys2Proof.Laws.encoding_holds _
theorem Sys2Proof.Laws.Encoding.barw : ∀ b g, Sys2Proof.Laws.Encoding.Statement (.barw b g) :=
  fun _ _ => Sys2Proof.Laws.encoding_holds _
theorem Sys2Proof.Laws.Encoding.bard : ∀ b g, Sys2Proof.Laws.Encoding.Statement (.bard b g) :=
  fun _ _ => Sys2Proof.Laws.encoding_holds _
theorem Sys2Proof.Laws.Encoding.launch : ∀ d a b g, Sys2Proof.Laws.Encoding.Statement (.launch d a b g) :=
  fun _ _ _ _ => Sys2Proof.Laws.encoding_holds _
theorem Sys2Proof.Laws.Encoding.joinc : ∀ g, Sys2Proof.Laws.Encoding.Statement (.joinc g) :=
  fun _ => Sys2Proof.Laws.encoding_holds _
theorem Sys2Proof.Laws.Encoding.migr : ∀ a g, Sys2Proof.Laws.Encoding.Statement (.migr a g) :=
  fun _ _ => Sys2Proof.Laws.encoding_holds _
theorem Sys2Proof.Laws.Encoding.rdsr : ∀ d n g, Sys2Proof.Laws.Encoding.Statement (.rdsr d n g) :=
  fun _ _ _ => Sys2Proof.Laws.encoding_holds _
theorem Sys2Proof.Laws.Encoding.wrsr : ∀ n b g, Sys2Proof.Laws.Encoding.Statement (.wrsr n b g) :=
  fun _ _ _ => Sys2Proof.Laws.encoding_holds _
theorem Sys2Proof.Laws.Encoding.mark : ∀ p g, Sys2Proof.Laws.Encoding.Statement (.mark p g) :=
  fun _ _ => Sys2Proof.Laws.encoding_holds _
theorem Sys2Proof.Laws.Encoding.bra : ∀ off g, Sys2Proof.Laws.Encoding.Statement (.bra off g) :=
  fun _ _ => Sys2Proof.Laws.encoding_holds _
theorem Sys2Proof.Laws.Encoding.call : ∀ off g, Sys2Proof.Laws.Encoding.Statement (.call off g) :=
  fun _ _ => Sys2Proof.Laws.encoding_holds _
theorem Sys2Proof.Laws.Encoding.brau : ∀ off g, Sys2Proof.Laws.Encoding.Statement (.brau off g) :=
  fun _ _ => Sys2Proof.Laws.encoding_holds _
theorem Sys2Proof.Laws.Encoding.clauseFetch : ∀ crew group addr, Sys2Proof.Laws.Encoding.Statement (.clauseFetch crew group addr) :=
  fun _ _ _ => Sys2Proof.Laws.encoding_holds _
theorem Sys2Proof.Laws.Encoding.clauseStart : ∀ crew role, Sys2Proof.Laws.Encoding.Statement (.clauseStart crew role) :=
  fun _ _ => Sys2Proof.Laws.encoding_holds _
theorem Sys2Proof.Laws.Encoding.stallTimeout : ∀ crew group, Sys2Proof.Laws.Encoding.Statement (.stallTimeout crew group) :=
  fun _ _ => Sys2Proof.Laws.encoding_holds _
theorem Sys2Proof.Laws.Encoding.fastBufferAssign : ∀ core quad, Sys2Proof.Laws.Encoding.Statement (.fastBufferAssign core quad) :=
  fun _ _ => Sys2Proof.Laws.encoding_holds _
theorem Sys2Proof.Laws.Encoding.fastBufferRecall : ∀ core quad, Sys2Proof.Laws.Encoding.Statement (.fastBufferRecall core quad) :=
  fun _ _ => Sys2Proof.Laws.encoding_holds _
theorem Sys2Proof.Laws.Encoding.hSheafEviction : ∀ crew, Sys2Proof.Laws.Encoding.Statement (.hSheafEviction crew) :=
  fun _ => Sys2Proof.Laws.encoding_holds _
theorem Sys2Proof.Laws.Encoding.medlarSpillDone : ∀ crew, Sys2Proof.Laws.Encoding.Statement (.medlarSpillDone crew) :=
  fun _ => Sys2Proof.Laws.encoding_holds _
theorem Sys2Proof.Laws.Encoding.crewResume : ∀ crew core, Sys2Proof.Laws.Encoding.Statement (.crewResume crew core) :=
  fun _ _ => Sys2Proof.Laws.encoding_holds _
theorem Sys2Proof.Laws.Encoding.runaheadStart : ∀ crew group, Sys2Proof.Laws.Encoding.Statement (.runaheadStart crew group) :=
  fun _ _ => Sys2Proof.Laws.encoding_holds _
theorem Sys2Proof.Laws.Encoding.runaheadInstructionLimit : ∀ crew group, Sys2Proof.Laws.Encoding.Statement (.runaheadInstructionLimit crew group) :=
  fun _ _ => Sys2Proof.Laws.encoding_holds _
theorem Sys2Proof.Laws.Encoding.migrationMove : ∀ crew core, Sys2Proof.Laws.Encoding.Statement (.migrationMove crew core) :=
  fun _ _ => Sys2Proof.Laws.encoding_holds _
theorem Sys2Proof.Laws.Encoding.loadDelivery : ∀ op, Sys2Proof.Laws.Encoding.Statement (.loadDelivery op) :=
  fun _ => Sys2Proof.Laws.encoding_holds _
theorem Sys2Proof.Laws.Encoding.storePerformed : ∀ core, Sys2Proof.Laws.Encoding.Statement (.storePerformed core) :=
  fun _ => Sys2Proof.Laws.encoding_holds _
theorem Sys2Proof.Laws.Encoding.l1FillLand : ∀ core line, Sys2Proof.Laws.Encoding.Statement (.l1FillLand core line) :=
  fun _ _ => Sys2Proof.Laws.encoding_holds _
theorem Sys2Proof.Laws.Encoding.l1DirtyWriteback : ∀ core line, Sys2Proof.Laws.Encoding.Statement (.l1DirtyWriteback core line) :=
  fun _ _ => Sys2Proof.Laws.encoding_holds _
theorem Sys2Proof.Laws.Encoding.l1LineExpiry : ∀ core line, Sys2Proof.Laws.Encoding.Statement (.l1LineExpiry core line) :=
  fun _ _ => Sys2Proof.Laws.encoding_holds _
theorem Sys2Proof.Laws.Encoding.l2RequestAccept : ∀ slice, Sys2Proof.Laws.Encoding.Statement (.l2RequestAccept slice) :=
  fun _ => Sys2Proof.Laws.encoding_holds _
theorem Sys2Proof.Laws.Encoding.hbmChannelServe : ∀ channel, Sys2Proof.Laws.Encoding.Statement (.hbmChannelServe channel) :=
  fun _ => Sys2Proof.Laws.encoding_holds _
theorem Sys2Proof.Laws.Encoding.hbmTokenRefill : ∀ channel, Sys2Proof.Laws.Encoding.Statement (.hbmTokenRefill channel) :=
  fun _ => Sys2Proof.Laws.encoding_holds _
theorem Sys2Proof.Laws.Encoding.l2Fill : ∀ slice line, Sys2Proof.Laws.Encoding.Statement (.l2Fill slice line) :=
  fun _ _ => Sys2Proof.Laws.encoding_holds _
theorem Sys2Proof.Laws.Encoding.patrolScrub : ∀ l2 line r, Sys2Proof.Laws.Encoding.Statement (.patrolScrub l2 line r) :=
  fun _ _ _ => Sys2Proof.Laws.encoding_holds _
theorem Sys2Proof.Laws.Encoding.fabricFrameReceive : ∀ f, Sys2Proof.Laws.Encoding.Statement (.fabricFrameReceive f) :=
  fun _ => Sys2Proof.Laws.encoding_holds _
theorem Sys2Proof.Laws.Encoding.peerTimeout : ∀ device, Sys2Proof.Laws.Encoding.Statement (.peerTimeout device) :=
  fun _ => Sys2Proof.Laws.encoding_holds _
theorem Sys2Proof.Laws.Encoding.copyComplete : ∀ op, Sys2Proof.Laws.Encoding.Statement (.copyComplete op) :=
  fun _ => Sys2Proof.Laws.encoding_holds _
theorem Sys2Proof.Laws.Encoding.copyFault : ∀ op, Sys2Proof.Laws.Encoding.Statement (.copyFault op) :=
  fun _ => Sys2Proof.Laws.encoding_holds _
theorem Sys2Proof.Laws.Encoding.matrixPassDecision : ∀ cluster, Sys2Proof.Laws.Encoding.Statement (.matrixPassDecision cluster) :=
  fun _ => Sys2Proof.Laws.encoding_holds _
theorem Sys2Proof.Laws.Encoding.matrixRowsWritten : ∀ cluster, Sys2Proof.Laws.Encoding.Statement (.matrixRowsWritten cluster) :=
  fun _ => Sys2Proof.Laws.encoding_holds _
theorem Sys2Proof.Laws.Encoding.matrixPassEnd : ∀ cluster, Sys2Proof.Laws.Encoding.Statement (.matrixPassEnd cluster) :=
  fun _ => Sys2Proof.Laws.encoding_holds _
theorem Sys2Proof.Laws.Encoding.writeBackAcknowledgement : ∀ die line, Sys2Proof.Laws.Encoding.Statement (.writeBackAcknowledgement die line) :=
  fun _ _ => Sys2Proof.Laws.encoding_holds _
theorem Sys2Proof.Laws.Encoding.xzeroDone : ∀ op, Sys2Proof.Laws.Encoding.Statement (.xzeroDone op) :=
  fun _ => Sys2Proof.Laws.encoding_holds _
theorem Sys2Proof.Laws.Encoding.xreqDone : ∀ op, Sys2Proof.Laws.Encoding.Statement (.xreqDone op) :=
  fun _ => Sys2Proof.Laws.encoding_holds _
theorem Sys2Proof.Laws.Encoding.messageArrival : ∀ core, Sys2Proof.Laws.Encoding.Statement (.messageArrival core) :=
  fun _ => Sys2Proof.Laws.encoding_holds _
theorem Sys2Proof.Laws.Encoding.queueDoorbell : ∀ vf q, Sys2Proof.Laws.Encoding.Statement (.queueDoorbell vf q) :=
  fun _ _ => Sys2Proof.Laws.encoding_holds _
theorem Sys2Proof.Laws.Encoding.availEntryRead : ∀ vf q, Sys2Proof.Laws.Encoding.Statement (.availEntryRead vf q) :=
  fun _ _ => Sys2Proof.Laws.encoding_holds _
theorem Sys2Proof.Laws.Encoding.launchCommand : ∀ vf q, Sys2Proof.Laws.Encoding.Statement (.launchCommand vf q) :=
  fun _ _ => Sys2Proof.Laws.encoding_holds _
theorem Sys2Proof.Laws.Encoding.waitCommand : ∀ vf q, Sys2Proof.Laws.Encoding.Statement (.waitCommand vf q) :=
  fun _ _ => Sys2Proof.Laws.encoding_holds _
theorem Sys2Proof.Laws.Encoding.signalCommand : ∀ vf q, Sys2Proof.Laws.Encoding.Statement (.signalCommand vf q) :=
  fun _ _ => Sys2Proof.Laws.encoding_holds _
theorem Sys2Proof.Laws.Encoding.writeCommand : ∀ vf q, Sys2Proof.Laws.Encoding.Statement (.writeCommand vf q) :=
  fun _ _ => Sys2Proof.Laws.encoding_holds _
theorem Sys2Proof.Laws.Encoding.fenceCommand : ∀ vf q, Sys2Proof.Laws.Encoding.Statement (.fenceCommand vf q) :=
  fun _ _ => Sys2Proof.Laws.encoding_holds _
theorem Sys2Proof.Laws.Encoding.copyCommand : ∀ vf q, Sys2Proof.Laws.Encoding.Statement (.copyCommand vf q) :=
  fun _ _ => Sys2Proof.Laws.encoding_holds _
theorem Sys2Proof.Laws.Encoding.commandCompletion : ∀ vf q cmd, Sys2Proof.Laws.Encoding.Statement (.commandCompletion vf q cmd) :=
  fun _ _ _ => Sys2Proof.Laws.encoding_holds _
theorem Sys2Proof.Laws.Encoding.crewDispatch : Sys2Proof.Laws.Encoding.Statement .crewDispatch := Sys2Proof.Laws.encoding_holds _
theorem Sys2Proof.Laws.Encoding.timeSliceEnd : Sys2Proof.Laws.Encoding.Statement .timeSliceEnd := Sys2Proof.Laws.encoding_holds _
theorem Sys2Proof.Laws.Encoding.trialEnd : ∀ vf, Sys2Proof.Laws.Encoding.Statement (.trialEnd vf) :=
  fun _ => Sys2Proof.Laws.encoding_holds _
theorem Sys2Proof.Laws.Encoding.preemptionSaveDone : ∀ crew, Sys2Proof.Laws.Encoding.Statement (.preemptionSaveDone crew) :=
  fun _ => Sys2Proof.Laws.encoding_holds _
theorem Sys2Proof.Laws.Encoding.crewRetire : ∀ crew, Sys2Proof.Laws.Encoding.Statement (.crewRetire crew) :=
  fun _ => Sys2Proof.Laws.encoding_holds _
theorem Sys2Proof.Laws.Encoding.queueEnable : ∀ vf q ctl, Sys2Proof.Laws.Encoding.Statement (.queueEnable vf q ctl) :=
  fun _ _ _ => Sys2Proof.Laws.encoding_holds _
theorem Sys2Proof.Laws.Encoding.queueDisable : ∀ vf q ctl, Sys2Proof.Laws.Encoding.Statement (.queueDisable vf q ctl) :=
  fun _ _ _ => Sys2Proof.Laws.encoding_holds _
theorem Sys2Proof.Laws.Encoding.queueKill : ∀ vf q, Sys2Proof.Laws.Encoding.Statement (.queueKill vf q) :=
  fun _ _ => Sys2Proof.Laws.encoding_holds _
theorem Sys2Proof.Laws.Encoding.queueKillFinish : ∀ vf q, Sys2Proof.Laws.Encoding.Statement (.queueKillFinish vf q) :=
  fun _ _ => Sys2Proof.Laws.encoding_holds _
theorem Sys2Proof.Laws.Encoding.eventWrite : ∀ vf e x, Sys2Proof.Laws.Encoding.Statement (.eventWrite vf e x) :=
  fun _ _ _ => Sys2Proof.Laws.encoding_holds _
theorem Sys2Proof.Laws.Encoding.tlbiRange : ∀ vf proc, Sys2Proof.Laws.Encoding.Statement (.tlbiRange vf proc) :=
  fun _ _ => Sys2Proof.Laws.encoding_holds _
theorem Sys2Proof.Laws.Encoding.tlbiProcess : ∀ vf proc, Sys2Proof.Laws.Encoding.Statement (.tlbiProcess vf proc) :=
  fun _ _ => Sys2Proof.Laws.encoding_holds _
theorem Sys2Proof.Laws.Encoding.tlbiPartition : ∀ vf, Sys2Proof.Laws.Encoding.Statement (.tlbiPartition vf) :=
  fun _ => Sys2Proof.Laws.encoding_holds _
theorem Sys2Proof.Laws.Encoding.htlbiRange : ∀ vf, Sys2Proof.Laws.Encoding.Statement (.htlbiRange vf) :=
  fun _ => Sys2Proof.Laws.encoding_holds _
theorem Sys2Proof.Laws.Encoding.htlbiVf : ∀ vf, Sys2Proof.Laws.Encoding.Statement (.htlbiVf vf) :=
  fun _ => Sys2Proof.Laws.encoding_holds _
theorem Sys2Proof.Laws.Encoding.htlbiAllVfs : Sys2Proof.Laws.Encoding.Statement .htlbiAllVfs := Sys2Proof.Laws.encoding_holds _
theorem Sys2Proof.Laws.Encoding.tlbiComplete : ∀ vf, Sys2Proof.Laws.Encoding.Statement (.tlbiComplete vf) :=
  fun _ => Sys2Proof.Laws.encoding_holds _
theorem Sys2Proof.Laws.Encoding.faultRecordWrite : ∀ vf, Sys2Proof.Laws.Encoding.Statement (.faultRecordWrite vf) :=
  fun _ => Sys2Proof.Laws.encoding_holds _
theorem Sys2Proof.Laws.Encoding.fresume : ∀ vf x, Sys2Proof.Laws.Encoding.Statement (.fresume vf x) :=
  fun _ _ => Sys2Proof.Laws.encoding_holds _
theorem Sys2Proof.Laws.Encoding.hresume : ∀ x, Sys2Proof.Laws.Encoding.Statement (.hresume x) :=
  fun _ => Sys2Proof.Laws.encoding_holds _
theorem Sys2Proof.Laws.Encoding.fown : ∀ x, Sys2Proof.Laws.Encoding.Statement (.fown x) :=
  fun _ => Sys2Proof.Laws.encoding_holds _
theorem Sys2Proof.Laws.Encoding.reclaimSweep : ∀ n, Sys2Proof.Laws.Encoding.Statement (.reclaimSweep n) :=
  fun _ => Sys2Proof.Laws.encoding_holds _
theorem Sys2Proof.Laws.Encoding.reclaimSweepEnd : Sys2Proof.Laws.Encoding.Statement .reclaimSweepEnd := Sys2Proof.Laws.encoding_holds _
theorem Sys2Proof.Laws.Encoding.pageMoveFrame : ∀ src dst ctl, Sys2Proof.Laws.Encoding.Statement (.pageMoveFrame src dst ctl) :=
  fun _ _ _ => Sys2Proof.Laws.encoding_holds _
theorem Sys2Proof.Laws.Encoding.pageMoveToStore : ∀ src dst ctl, Sys2Proof.Laws.Encoding.Statement (.pageMoveToStore src dst ctl) :=
  fun _ _ _ => Sys2Proof.Laws.encoding_holds _
theorem Sys2Proof.Laws.Encoding.pageMoveFromStore : ∀ src dst ctl, Sys2Proof.Laws.Encoding.Statement (.pageMoveFromStore src dst ctl) :=
  fun _ _ _ => Sys2Proof.Laws.encoding_holds _
theorem Sys2Proof.Laws.Encoding.pageMoveDone : Sys2Proof.Laws.Encoding.Statement .pageMoveDone := Sys2Proof.Laws.encoding_holds _
theorem Sys2Proof.Laws.Encoding.partitionCreate : ∀ vf, Sys2Proof.Laws.Encoding.Statement (.partitionCreate vf) :=
  fun _ => Sys2Proof.Laws.encoding_holds _
theorem Sys2Proof.Laws.Encoding.partitionResize : ∀ vf, Sys2Proof.Laws.Encoding.Statement (.partitionResize vf) :=
  fun _ => Sys2Proof.Laws.encoding_holds _
theorem Sys2Proof.Laws.Encoding.partitionDestroy : ∀ vf, Sys2Proof.Laws.Encoding.Statement (.partitionDestroy vf) :=
  fun _ => Sys2Proof.Laws.encoding_holds _
theorem Sys2Proof.Laws.Encoding.partitionPromote : ∀ vf, Sys2Proof.Laws.Encoding.Statement (.partitionPromote vf) :=
  fun _ => Sys2Proof.Laws.encoding_holds _
theorem Sys2Proof.Laws.Encoding.partitionCommandEnd : Sys2Proof.Laws.Encoding.Statement .partitionCommandEnd := Sys2Proof.Laws.encoding_holds _
theorem Sys2Proof.Laws.Encoding.poolmaskWrite : ∀ x, Sys2Proof.Laws.Encoding.Statement (.poolmaskWrite x) :=
  fun _ => Sys2Proof.Laws.encoding_holds _
theorem Sys2Proof.Laws.Encoding.chipletQuarantine : ∀ c, Sys2Proof.Laws.Encoding.Statement (.chipletQuarantine c) :=
  fun _ => Sys2Proof.Laws.encoding_holds _
theorem Sys2Proof.Laws.Encoding.chipletReset : ∀ c, Sys2Proof.Laws.Encoding.Statement (.chipletReset c) :=
  fun _ => Sys2Proof.Laws.encoding_holds _
theorem Sys2Proof.Laws.Encoding.chipletSelfReset : ∀ c, Sys2Proof.Laws.Encoding.Statement (.chipletSelfReset c) :=
  fun _ => Sys2Proof.Laws.encoding_holds _
theorem Sys2Proof.Laws.Encoding.attestationRetry : ∀ c, Sys2Proof.Laws.Encoding.Statement (.attestationRetry c) :=
  fun _ => Sys2Proof.Laws.encoding_holds _
theorem Sys2Proof.Laws.Encoding.keyRoll : ∀ c, Sys2Proof.Laws.Encoding.Statement (.keyRoll c) :=
  fun _ => Sys2Proof.Laws.encoding_holds _
theorem Sys2Proof.Laws.Encoding.spdmResponse : ∀ c r, Sys2Proof.Laws.Encoding.Statement (.spdmResponse c r) :=
  fun _ _ => Sys2Proof.Laws.encoding_holds _
theorem Sys2Proof.Laws.Encoding.keyRolloverForced : ∀ link, Sys2Proof.Laws.Encoding.Statement (.keyRolloverForced link) :=
  fun _ => Sys2Proof.Laws.encoding_holds _
theorem Sys2Proof.Laws.Encoding.rolloverAckTimeout : ∀ link, Sys2Proof.Laws.Encoding.Statement (.rolloverAckTimeout link) :=
  fun _ => Sys2Proof.Laws.encoding_holds _
theorem Sys2Proof.Laws.Encoding.linkGroupReceive : ∀ link g, Sys2Proof.Laws.Encoding.Statement (.linkGroupReceive link g) :=
  fun _ _ => Sys2Proof.Laws.encoding_holds _
theorem Sys2Proof.Laws.Encoding.partialGroupClose : ∀ link, Sys2Proof.Laws.Encoding.Statement (.partialGroupClose link) :=
  fun _ => Sys2Proof.Laws.encoding_holds _
theorem Sys2Proof.Laws.Encoding.principalBind : Sys2Proof.Laws.Encoding.Statement .principalBind := Sys2Proof.Laws.encoding_holds _
theorem Sys2Proof.Laws.Encoding.principalUnbind : ∀ pid, Sys2Proof.Laws.Encoding.Statement (.principalUnbind pid) :=
  fun _ => Sys2Proof.Laws.encoding_holds _
theorem Sys2Proof.Laws.Encoding.osetReclaim : Sys2Proof.Laws.Encoding.Statement .osetReclaim := Sys2Proof.Laws.encoding_holds _
theorem Sys2Proof.Laws.Encoding.osetRequest : Sys2Proof.Laws.Encoding.Statement .osetRequest := Sys2Proof.Laws.encoding_holds _
theorem Sys2Proof.Laws.Encoding.policyInstall : ∀ ctl, Sys2Proof.Laws.Encoding.Statement (.policyInstall ctl) :=
  fun _ => Sys2Proof.Laws.encoding_holds _
theorem Sys2Proof.Laws.Encoding.policyRemove : ∀ ctl, Sys2Proof.Laws.Encoding.Statement (.policyRemove ctl) :=
  fun _ => Sys2Proof.Laws.encoding_holds _
theorem Sys2Proof.Laws.Encoding.getVersion : ∀ req, Sys2Proof.Laws.Encoding.Statement (.getVersion req) :=
  fun _ => Sys2Proof.Laws.encoding_holds _
theorem Sys2Proof.Laws.Encoding.getCapabilities : ∀ req, Sys2Proof.Laws.Encoding.Statement (.getCapabilities req) :=
  fun _ => Sys2Proof.Laws.encoding_holds _
theorem Sys2Proof.Laws.Encoding.negotiateAlgorithms : ∀ req, Sys2Proof.Laws.Encoding.Statement (.negotiateAlgorithms req) :=
  fun _ => Sys2Proof.Laws.encoding_holds _
theorem Sys2Proof.Laws.Encoding.getDigests : ∀ req, Sys2Proof.Laws.Encoding.Statement (.getDigests req) :=
  fun _ => Sys2Proof.Laws.encoding_holds _
theorem Sys2Proof.Laws.Encoding.getCertificate : ∀ req, Sys2Proof.Laws.Encoding.Statement (.getCertificate req) :=
  fun _ => Sys2Proof.Laws.encoding_holds _
theorem Sys2Proof.Laws.Encoding.challenge : ∀ req, Sys2Proof.Laws.Encoding.Statement (.challenge req) :=
  fun _ => Sys2Proof.Laws.encoding_holds _
theorem Sys2Proof.Laws.Encoding.getMeasurements : ∀ req, Sys2Proof.Laws.Encoding.Statement (.getMeasurements req) :=
  fun _ => Sys2Proof.Laws.encoding_holds _
theorem Sys2Proof.Laws.Encoding.vendorDefinedRequest : ∀ req, Sys2Proof.Laws.Encoding.Statement (.vendorDefinedRequest req) :=
  fun _ => Sys2Proof.Laws.encoding_holds _
theorem Sys2Proof.Laws.Encoding.keyExchange : ∀ req, Sys2Proof.Laws.Encoding.Statement (.keyExchange req) :=
  fun _ => Sys2Proof.Laws.encoding_holds _
theorem Sys2Proof.Laws.Encoding.pskExchange : ∀ req, Sys2Proof.Laws.Encoding.Statement (.pskExchange req) :=
  fun _ => Sys2Proof.Laws.encoding_holds _
theorem Sys2Proof.Laws.Encoding.spdmOtherRequest : ∀ req, Sys2Proof.Laws.Encoding.Statement (.spdmOtherRequest req) :=
  fun _ => Sys2Proof.Laws.encoding_holds _
theorem Sys2Proof.Laws.Encoding.cselWrite : ∀ fn n x, Sys2Proof.Laws.Encoding.Statement (.cselWrite fn n x) :=
  fun _ _ _ => Sys2Proof.Laws.encoding_holds _
theorem Sys2Proof.Laws.Encoding.counterClear : ∀ fn n, Sys2Proof.Laws.Encoding.Statement (.counterClear fn n) :=
  fun _ _ => Sys2Proof.Laws.encoding_holds _
theorem Sys2Proof.Laws.Encoding.cntloRead : ∀ fn n, Sys2Proof.Laws.Encoding.Statement (.cntloRead fn n) :=
  fun _ _ => Sys2Proof.Laws.encoding_holds _
theorem Sys2Proof.Laws.Encoding.cnthiRead : ∀ fn n, Sys2Proof.Laws.Encoding.Statement (.cnthiRead fn n) :=
  fun _ _ => Sys2Proof.Laws.encoding_holds _
theorem Sys2Proof.Laws.Encoding.leaseRequest : ∀ fn x, Sys2Proof.Laws.Encoding.Statement (.leaseRequest fn x) :=
  fun _ _ => Sys2Proof.Laws.encoding_holds _
theorem Sys2Proof.Laws.Encoding.leaseRelease : ∀ fn x, Sys2Proof.Laws.Encoding.Statement (.leaseRelease fn x) :=
  fun _ _ => Sys2Proof.Laws.encoding_holds _
theorem Sys2Proof.Laws.Encoding.leaseRevoke : ∀ kind unit, Sys2Proof.Laws.Encoding.Statement (.leaseRevoke kind unit) :=
  fun _ _ => Sys2Proof.Laws.encoding_holds _
theorem Sys2Proof.Laws.Encoding.tracePcSample : ∀ cluster, Sys2Proof.Laws.Encoding.Statement (.tracePcSample cluster) :=
  fun _ => Sys2Proof.Laws.encoding_holds _
theorem Sys2Proof.Laws.Encoding.debugStop : ∀ vf ctl, Sys2Proof.Laws.Encoding.Statement (.debugStop vf ctl) :=
  fun _ _ => Sys2Proof.Laws.encoding_holds _
theorem Sys2Proof.Laws.Encoding.debugResume : ∀ vf ctl, Sys2Proof.Laws.Encoding.Statement (.debugResume vf ctl) :=
  fun _ _ => Sys2Proof.Laws.encoding_holds _
theorem Sys2Proof.Laws.Encoding.debugDump : ∀ vf ctl, Sys2Proof.Laws.Encoding.Statement (.debugDump vf ctl) :=
  fun _ _ => Sys2Proof.Laws.encoding_holds _
theorem Sys2Proof.Laws.Encoding.replayOff : ∀ vf, Sys2Proof.Laws.Encoding.Statement (.replayOff vf) :=
  fun _ => Sys2Proof.Laws.encoding_holds _
theorem Sys2Proof.Laws.Encoding.recordMode : ∀ vf, Sys2Proof.Laws.Encoding.Statement (.recordMode vf) :=
  fun _ => Sys2Proof.Laws.encoding_holds _
theorem Sys2Proof.Laws.Encoding.replayMode : ∀ vf, Sys2Proof.Laws.Encoding.Statement (.replayMode vf) :=
  fun _ => Sys2Proof.Laws.encoding_holds _
theorem Sys2Proof.Laws.Encoding.trialStart : ∀ vf ctl, Sys2Proof.Laws.Encoding.Statement (.trialStart vf ctl) :=
  fun _ _ => Sys2Proof.Laws.encoding_holds _
theorem Sys2Proof.Laws.Encoding.vfFlr : ∀ vf, Sys2Proof.Laws.Encoding.Statement (.vfFlr vf) :=
  fun _ => Sys2Proof.Laws.encoding_holds _
theorem Sys2Proof.Laws.Encoding.pfFlr : Sys2Proof.Laws.Encoding.Statement .pfFlr := Sys2Proof.Laws.encoding_holds _
theorem Sys2Proof.Laws.Encoding.packageReset : Sys2Proof.Laws.Encoding.Statement .packageReset := Sys2Proof.Laws.encoding_holds _
theorem Sys2Proof.Laws.Encoding.islandFreqWrite : ∀ i x, Sys2Proof.Laws.Encoding.Statement (.islandFreqWrite i x) :=
  fun _ _ => Sys2Proof.Laws.encoding_holds _
theorem Sys2Proof.Laws.Encoding.powerManagerStep : Sys2Proof.Laws.Encoding.Statement .powerManagerStep := Sys2Proof.Laws.encoding_holds _
theorem Sys2Proof.Laws.Encoding.firmwareImageWrite : ∀ img rsaSig slhSig, Sys2Proof.Laws.Encoding.Statement (.firmwareImageWrite img rsaSig slhSig) :=
  fun _ _ _ => Sys2Proof.Laws.encoding_holds _
theorem Sys2Proof.Laws.Encoding.registerWrite : ∀ fn off size x, Sys2Proof.Laws.Encoding.Statement (.registerWrite fn off size x) :=
  fun _ _ _ _ => Sys2Proof.Laws.encoding_holds _
theorem Sys2Proof.Laws.Encoding.vectorUnmask : ∀ fn vec, Sys2Proof.Laws.Encoding.Statement (.vectorUnmask fn vec) :=
  fun _ _ => Sys2Proof.Laws.encoding_holds _
theorem Sys2Proof.Laws.Encoding.installAcknowledgement : ∀ link, Sys2Proof.Laws.Encoding.Statement (.installAcknowledgement link) :=
  fun _ => Sys2Proof.Laws.encoding_holds _
theorem Sys2Proof.Laws.Encoding.fabricPortLinkChange : ∀ port up, Sys2Proof.Laws.Encoding.Statement (.fabricPortLinkChange port up) :=
  fun _ _ => Sys2Proof.Laws.encoding_holds _
end

