-- ==== Sys2Proof/Laws/State.lean ====
section
/-! SUPPORT. What each update of the state leaves in each field, so that no proof unfolds one. -/

namespace Sys2Proof.Machine

@[simp] theorem State.modCrew_agenda (s : State) (c : Nat) (f : Crew → Crew) : (s.modCrew c f).agenda = s.agenda := rfl
@[simp] theorem State.modCrew_free (s : State) (c : Nat) (f : Crew → Crew) : (s.modCrew c f).free = s.free := rfl
@[simp] theorem State.modCrew_seq (s : State) (c : Nat) (f : Crew → Crew) : (s.modCrew c f).seq = s.seq := rfl
@[simp] theorem State.modCrew_gtime (s : State) (c : Nat) (f : Crew → Crew) : (s.modCrew c f).gtime = s.gtime := rfl
@[simp] theorem State.modCrew_cur (s : State) (c : Nat) (f : Crew → Crew) : (s.modCrew c f).cur = s.cur := rfl
@[simp] theorem State.modCrew_grids (s : State) (c : Nat) (f : Crew → Crew) : (s.modCrew c f).grids = s.grids := rfl
@[simp] theorem State.modCrew_crews (s : State) (c : Nat) (f : Crew → Crew) : (s.modCrew c f).crews = Map.mod s.crews c f := rfl
@[simp] theorem State.modCrew_nextGrid (s : State) (c : Nat) (f : Crew → Crew) : (s.modCrew c f).nextGrid = s.nextGrid := rfl
@[simp] theorem State.modCrew_nextCrew (s : State) (c : Nat) (f : Crew → Crew) : (s.modCrew c f).nextCrew = s.nextCrew := rfl
@[simp] theorem State.modCrew_ops (s : State) (c : Nat) (f : Crew → Crew) : (s.modCrew c f).ops = s.ops := rfl
@[simp] theorem State.modCrew_nextOp (s : State) (c : Nat) (f : Crew → Crew) : (s.modCrew c f).nextOp = s.nextOp := rfl
@[simp] theorem State.modCrew_cores (s : State) (c : Nat) (f : Crew → Crew) : (s.modCrew c f).cores = s.cores := rfl
@[simp] theorem State.modCrew_ctlb (s : State) (c : Nat) (f : Crew → Crew) : (s.modCrew c f).ctlb = s.ctlb := rfl
@[simp] theorem State.modCrew_engines (s : State) (c : Nat) (f : Crew → Crew) : (s.modCrew c f).engines = s.engines := rfl
@[simp] theorem State.modCrew_slices (s : State) (c : Nat) (f : Crew → Crew) : (s.modCrew c f).slices = s.slices := rfl
@[simp] theorem State.modCrew_channels (s : State) (c : Nat) (f : Crew → Crew) : (s.modCrew c f).channels = s.channels := rfl
@[simp] theorem State.modCrew_wbufs (s : State) (c : Nat) (f : Crew → Crew) : (s.modCrew c f).wbufs = s.wbufs := rfl
@[simp] theorem State.modCrew_hbm (s : State) (c : Nat) (f : Crew → Crew) : (s.modCrew c f).hbm = s.hbm := rfl
@[simp] theorem State.modCrew_lineS (s : State) (c : Nat) (f : Crew → Crew) : (s.modCrew c f).lineS = s.lineS := rfl
@[simp] theorem State.modCrew_frames (s : State) (c : Nat) (f : Crew → Crew) : (s.modCrew c f).frames = s.frames := rfl
@[simp] theorem State.modCrew_host (s : State) (c : Nat) (f : Crew → Crew) : (s.modCrew c f).host = s.host := rfl
@[simp] theorem State.modCrew_store (s : State) (c : Nat) (f : Crew → Crew) : (s.modCrew c f).store = s.store := rfl
@[simp] theorem State.modCrew_vfs (s : State) (c : Nat) (f : Crew → Crew) : (s.modCrew c f).vfs = s.vfs := rfl
@[simp] theorem State.modCrew_bdCopy (s : State) (c : Nat) (f : Crew → Crew) : (s.modCrew c f).bdCopy = s.bdCopy := rfl
@[simp] theorem State.modCrew_batches (s : State) (c : Nat) (f : Crew → Crew) : (s.modCrew c f).batches = s.batches := rfl
@[simp] theorem State.modCrew_hfq (s : State) (c : Nat) (f : Crew → Crew) : (s.modCrew c f).hfq = s.hfq := rfl
@[simp] theorem State.modCrew_htlbi (s : State) (c : Nat) (f : Crew → Crew) : (s.modCrew c f).htlbi = s.htlbi := rfl
@[simp] theorem State.modCrew_fstat (s : State) (c : Nat) (f : Crew → Crew) : (s.modCrew c f).fstat = s.fstat := rfl
@[simp] theorem State.modCrew_rcbuf (s : State) (c : Nat) (f : Crew → Crew) : (s.modCrew c f).rcbuf = s.rcbuf := rfl
@[simp] theorem State.modCrew_rcstat (s : State) (c : Nat) (f : Crew → Crew) : (s.modCrew c f).rcstat = s.rcstat := rfl
@[simp] theorem State.modCrew_rcWanted (s : State) (c : Nat) (f : Crew → Crew) : (s.modCrew c f).rcWanted = s.rcWanted := rfl
@[simp] theorem State.modCrew_rcVict (s : State) (c : Nat) (f : Crew → Crew) : (s.modCrew c f).rcVict = s.rcVict := rfl
@[simp] theorem State.modCrew_pmove (s : State) (c : Nat) (f : Crew → Crew) : (s.modCrew c f).pmove = s.pmove := rfl
@[simp] theorem State.modCrew_pmstat (s : State) (c : Nat) (f : Crew → Crew) : (s.modCrew c f).pmstat = s.pmstat := rfl
@[simp] theorem State.modCrew_pcmd (s : State) (c : Nat) (f : Crew → Crew) : (s.modCrew c f).pcmd = s.pcmd := rfl
@[simp] theorem State.modCrew_poolmask (s : State) (c : Nat) (f : Crew → Crew) : (s.modCrew c f).poolmask = s.poolmask := rfl
@[simp] theorem State.modCrew_poolTurn (s : State) (c : Nat) (f : Crew → Crew) : (s.modCrew c f).poolTurn = s.poolTurn := rfl
@[simp] theorem State.modCrew_capGen (s : State) (c : Nat) (f : Crew → Crew) : (s.modCrew c f).capGen = s.capGen := rfl
@[simp] theorem State.modCrew_nextStamp (s : State) (c : Nat) (f : Crew → Crew) : (s.modCrew c f).nextStamp = s.nextStamp := rfl
@[simp] theorem State.modCrew_clusters (s : State) (c : Nat) (f : Crew → Crew) : (s.modCrew c f).clusters = s.clusters := rfl
@[simp] theorem State.modCrew_sliceU (s : State) (c : Nat) (f : Crew → Crew) : (s.modCrew c f).sliceU = s.sliceU := rfl
@[simp] theorem State.modCrew_channelU (s : State) (c : Nat) (f : Crew → Crew) : (s.modCrew c f).channelU = s.channelU := rfl
@[simp] theorem State.modCrew_routerU (s : State) (c : Nat) (f : Crew → Crew) : (s.modCrew c f).routerU = s.routerU := rfl
@[simp] theorem State.modCrew_chiplets (s : State) (c : Nat) (f : Crew → Crew) : (s.modCrew c f).chiplets = s.chiplets := rfl
@[simp] theorem State.modCrew_topology (s : State) (c : Nat) (f : Crew → Crew) : (s.modCrew c f).topology = s.topology := rfl
@[simp] theorem State.modCrew_links (s : State) (c : Nat) (f : Crew → Crew) : (s.modCrew c f).links = s.links := rfl
@[simp] theorem State.modCrew_manifest (s : State) (c : Nat) (f : Crew → Crew) : (s.modCrew c f).manifest = s.manifest := rfl
@[simp] theorem State.modCrew_bdDer (s : State) (c : Nat) (f : Crew → Crew) : (s.modCrew c f).bdDer = s.bdDer := rfl
@[simp] theorem State.modCrew_bdDown (s : State) (c : Nat) (f : Crew → Crew) : (s.modCrew c f).bdDown = s.bdDown := rfl
@[simp] theorem State.modCrew_pfReady (s : State) (c : Nat) (f : Crew → Crew) : (s.modCrew c f).pfReady = s.pfReady := rfl
@[simp] theorem State.modCrew_osets (s : State) (c : Nat) (f : Crew → Crew) : (s.modCrew c f).osets = s.osets := rfl
@[simp] theorem State.modCrew_prins (s : State) (c : Nat) (f : Crew → Crew) : (s.modCrew c f).prins = s.prins := rfl
@[simp] theorem State.modCrew_pbaddr (s : State) (c : Nat) (f : Crew → Crew) : (s.modCrew c f).pbaddr = s.pbaddr := rfl
@[simp] theorem State.modCrew_pbErr (s : State) (c : Nat) (f : Crew → Crew) : (s.modCrew c f).pbErr = s.pbErr := rfl
@[simp] theorem State.modCrew_osreq (s : State) (c : Nat) (f : Crew → Crew) : (s.modCrew c f).osreq = s.osreq := rfl
@[simp] theorem State.modCrew_osErr (s : State) (c : Nat) (f : Crew → Crew) : (s.modCrew c f).osErr = s.osErr := rfl
@[simp] theorem State.modCrew_osIndex (s : State) (c : Nat) (f : Crew → Crew) : (s.modCrew c f).osIndex = s.osIndex := rfl
@[simp] theorem State.modCrew_piaddr (s : State) (c : Nat) (f : Crew → Crew) : (s.modCrew c f).piaddr = s.piaddr := rfl
@[simp] theorem State.modCrew_piErr (s : State) (c : Nat) (f : Crew → Crew) : (s.modCrew c f).piErr = s.piErr := rfl
@[simp] theorem State.modCrew_pirErr (s : State) (c : Nat) (f : Crew → Crew) : (s.modCrew c f).pirErr = s.pirErr := rfl
@[simp] theorem State.modCrew_gates (s : State) (c : Nat) (f : Crew → Crew) : (s.modCrew c f).gates = s.gates := rfl
@[simp] theorem State.modCrew_eprin (s : State) (c : Nat) (f : Crew → Crew) : (s.modCrew c f).eprin = s.eprin := rfl
@[simp] theorem State.modCrew_chErr (s : State) (c : Nat) (f : Crew → Crew) : (s.modCrew c f).chErr = s.chErr := rfl
@[simp] theorem State.modCrew_chCmd (s : State) (c : Nat) (f : Crew → Crew) : (s.modCrew c f).chCmd = s.chCmd := rfl
@[simp] theorem State.modCrew_doe (s : State) (c : Nat) (f : Crew → Crew) : (s.modCrew c f).doe = s.doe := rfl
@[simp] theorem State.modCrew_trackers (s : State) (c : Nat) (f : Crew → Crew) : (s.modCrew c f).trackers = s.trackers := rfl
@[simp] theorem State.modCrew_nextTrk (s : State) (c : Nat) (f : Crew → Crew) : (s.modCrew c f).nextTrk = s.nextTrk := rfl
@[simp] theorem State.modCrew_sent (s : State) (c : Nat) (f : Crew → Crew) : (s.modCrew c f).sent = s.sent := rfl
@[simp] theorem State.modCrew_ports (s : State) (c : Nat) (f : Crew → Crew) : (s.modCrew c f).ports = s.ports := rfl
@[simp] theorem State.modCrew_ftype (s : State) (c : Nat) (f : Crew → Crew) : (s.modCrew c f).ftype = s.ftype := rfl
@[simp] theorem State.modCrew_fdev (s : State) (c : Nat) (f : Crew → Crew) : (s.modCrew c f).fdev = s.fdev := rfl
@[simp] theorem State.modCrew_islands (s : State) (c : Nat) (f : Crew → Crew) : (s.modCrew c f).islands = s.islands := rfl
@[simp] theorem State.modCrew_banks (s : State) (c : Nat) (f : Crew → Crew) : (s.modCrew c f).banks = s.banks := rfl
@[simp] theorem State.modCrew_traces (s : State) (c : Nat) (f : Crew → Crew) : (s.modCrew c f).traces = s.traces := rfl
@[simp] theorem State.modCrew_pf (s : State) (c : Nat) (f : Crew → Crew) : (s.modCrew c f).pf = s.pf := rfl
@[simp] theorem State.modCrew_msix (s : State) (c : Nat) (f : Crew → Crew) : (s.modCrew c f).msix = s.msix := rfl
@[simp] theorem State.modCrew_readOut (s : State) (c : Nat) (f : Crew → Crew) : (s.modCrew c f).readOut = s.readOut := rfl
@[simp] theorem State.modCrew_firmware (s : State) (c : Nat) (f : Crew → Crew) : (s.modCrew c f).firmware = s.firmware := rfl
@[simp] theorem State.modCrew_errCtr (s : State) (c : Nat) (f : Crew → Crew) : (s.modCrew c f).errCtr = s.errCtr := rfl
@[simp] theorem State.modCrew_peerFlush (s : State) (c : Nat) (f : Crew → Crew) : (s.modCrew c f).peerFlush = s.peerFlush := rfl
@[simp] theorem State.modCrew_flaws (s : State) (c : Nat) (f : Crew → Crew) : (s.modCrew c f).flaws = s.flaws := rfl
@[simp] theorem State.modCrew_found (s : State) (c : Nat) (f : Crew → Crew) : (s.modCrew c f).found = s.found := rfl
@[simp] theorem State.modCrew_booked (s : State) (c : Nat) (f : Crew → Crew) : (s.modCrew c f).booked = s.booked := rfl
@[simp] theorem State.modCrew_walks (s : State) (c : Nat) (f : Crew → Crew) : (s.modCrew c f).walks = s.walks := rfl
@[simp] theorem State.modCrew_cycles (s : State) (c : Nat) (f : Crew → Crew) : (s.modCrew c f).cycles = s.cycles := rfl

@[simp] theorem State.modGroup_agenda (s : State) (c g : Nat) (f : Group → Group) : (s.modGroup c g f).agenda = s.agenda := rfl
@[simp] theorem State.modGroup_free (s : State) (c g : Nat) (f : Group → Group) : (s.modGroup c g f).free = s.free := rfl
@[simp] theorem State.modGroup_seq (s : State) (c g : Nat) (f : Group → Group) : (s.modGroup c g f).seq = s.seq := rfl
@[simp] theorem State.modGroup_gtime (s : State) (c g : Nat) (f : Group → Group) : (s.modGroup c g f).gtime = s.gtime := rfl
@[simp] theorem State.modGroup_cur (s : State) (c g : Nat) (f : Group → Group) : (s.modGroup c g f).cur = s.cur := rfl
@[simp] theorem State.modGroup_grids (s : State) (c g : Nat) (f : Group → Group) : (s.modGroup c g f).grids = s.grids := rfl
@[simp] theorem State.modGroup_crews (s : State) (c g : Nat) (f : Group → Group) : (s.modGroup c g f).crews = Map.mod s.crews c fun w => { w with groups := Map.mod w.groups g f } := rfl
@[simp] theorem State.modGroup_nextGrid (s : State) (c g : Nat) (f : Group → Group) : (s.modGroup c g f).nextGrid = s.nextGrid := rfl
@[simp] theorem State.modGroup_nextCrew (s : State) (c g : Nat) (f : Group → Group) : (s.modGroup c g f).nextCrew = s.nextCrew := rfl
@[simp] theorem State.modGroup_ops (s : State) (c g : Nat) (f : Group → Group) : (s.modGroup c g f).ops = s.ops := rfl
@[simp] theorem State.modGroup_nextOp (s : State) (c g : Nat) (f : Group → Group) : (s.modGroup c g f).nextOp = s.nextOp := rfl
@[simp] theorem State.modGroup_cores (s : State) (c g : Nat) (f : Group → Group) : (s.modGroup c g f).cores = s.cores := rfl
@[simp] theorem State.modGroup_ctlb (s : State) (c g : Nat) (f : Group → Group) : (s.modGroup c g f).ctlb = s.ctlb := rfl
@[simp] theorem State.modGroup_engines (s : State) (c g : Nat) (f : Group → Group) : (s.modGroup c g f).engines = s.engines := rfl
@[simp] theorem State.modGroup_slices (s : State) (c g : Nat) (f : Group → Group) : (s.modGroup c g f).slices = s.slices := rfl
@[simp] theorem State.modGroup_channels (s : State) (c g : Nat) (f : Group → Group) : (s.modGroup c g f).channels = s.channels := rfl
@[simp] theorem State.modGroup_wbufs (s : State) (c g : Nat) (f : Group → Group) : (s.modGroup c g f).wbufs = s.wbufs := rfl
@[simp] theorem State.modGroup_hbm (s : State) (c g : Nat) (f : Group → Group) : (s.modGroup c g f).hbm = s.hbm := rfl
@[simp] theorem State.modGroup_lineS (s : State) (c g : Nat) (f : Group → Group) : (s.modGroup c g f).lineS = s.lineS := rfl
@[simp] theorem State.modGroup_frames (s : State) (c g : Nat) (f : Group → Group) : (s.modGroup c g f).frames = s.frames := rfl
@[simp] theorem State.modGroup_host (s : State) (c g : Nat) (f : Group → Group) : (s.modGroup c g f).host = s.host := rfl
@[simp] theorem State.modGroup_store (s : State) (c g : Nat) (f : Group → Group) : (s.modGroup c g f).store = s.store := rfl
@[simp] theorem State.modGroup_vfs (s : State) (c g : Nat) (f : Group → Group) : (s.modGroup c g f).vfs = s.vfs := rfl
@[simp] theorem State.modGroup_bdCopy (s : State) (c g : Nat) (f : Group → Group) : (s.modGroup c g f).bdCopy = s.bdCopy := rfl
@[simp] theorem State.modGroup_batches (s : State) (c g : Nat) (f : Group → Group) : (s.modGroup c g f).batches = s.batches := rfl
@[simp] theorem State.modGroup_hfq (s : State) (c g : Nat) (f : Group → Group) : (s.modGroup c g f).hfq = s.hfq := rfl
@[simp] theorem State.modGroup_htlbi (s : State) (c g : Nat) (f : Group → Group) : (s.modGroup c g f).htlbi = s.htlbi := rfl
@[simp] theorem State.modGroup_fstat (s : State) (c g : Nat) (f : Group → Group) : (s.modGroup c g f).fstat = s.fstat := rfl
@[simp] theorem State.modGroup_rcbuf (s : State) (c g : Nat) (f : Group → Group) : (s.modGroup c g f).rcbuf = s.rcbuf := rfl
@[simp] theorem State.modGroup_rcstat (s : State) (c g : Nat) (f : Group → Group) : (s.modGroup c g f).rcstat = s.rcstat := rfl
@[simp] theorem State.modGroup_rcWanted (s : State) (c g : Nat) (f : Group → Group) : (s.modGroup c g f).rcWanted = s.rcWanted := rfl
@[simp] theorem State.modGroup_rcVict (s : State) (c g : Nat) (f : Group → Group) : (s.modGroup c g f).rcVict = s.rcVict := rfl
@[simp] theorem State.modGroup_pmove (s : State) (c g : Nat) (f : Group → Group) : (s.modGroup c g f).pmove = s.pmove := rfl
@[simp] theorem State.modGroup_pmstat (s : State) (c g : Nat) (f : Group → Group) : (s.modGroup c g f).pmstat = s.pmstat := rfl
@[simp] theorem State.modGroup_pcmd (s : State) (c g : Nat) (f : Group → Group) : (s.modGroup c g f).pcmd = s.pcmd := rfl
@[simp] theorem State.modGroup_poolmask (s : State) (c g : Nat) (f : Group → Group) : (s.modGroup c g f).poolmask = s.poolmask := rfl
@[simp] theorem State.modGroup_poolTurn (s : State) (c g : Nat) (f : Group → Group) : (s.modGroup c g f).poolTurn = s.poolTurn := rfl
@[simp] theorem State.modGroup_capGen (s : State) (c g : Nat) (f : Group → Group) : (s.modGroup c g f).capGen = s.capGen := rfl
@[simp] theorem State.modGroup_nextStamp (s : State) (c g : Nat) (f : Group → Group) : (s.modGroup c g f).nextStamp = s.nextStamp := rfl
@[simp] theorem State.modGroup_clusters (s : State) (c g : Nat) (f : Group → Group) : (s.modGroup c g f).clusters = s.clusters := rfl
@[simp] theorem State.modGroup_sliceU (s : State) (c g : Nat) (f : Group → Group) : (s.modGroup c g f).sliceU = s.sliceU := rfl
@[simp] theorem State.modGroup_channelU (s : State) (c g : Nat) (f : Group → Group) : (s.modGroup c g f).channelU = s.channelU := rfl
@[simp] theorem State.modGroup_routerU (s : State) (c g : Nat) (f : Group → Group) : (s.modGroup c g f).routerU = s.routerU := rfl
@[simp] theorem State.modGroup_chiplets (s : State) (c g : Nat) (f : Group → Group) : (s.modGroup c g f).chiplets = s.chiplets := rfl
@[simp] theorem State.modGroup_topology (s : State) (c g : Nat) (f : Group → Group) : (s.modGroup c g f).topology = s.topology := rfl
@[simp] theorem State.modGroup_links (s : State) (c g : Nat) (f : Group → Group) : (s.modGroup c g f).links = s.links := rfl
@[simp] theorem State.modGroup_manifest (s : State) (c g : Nat) (f : Group → Group) : (s.modGroup c g f).manifest = s.manifest := rfl
@[simp] theorem State.modGroup_bdDer (s : State) (c g : Nat) (f : Group → Group) : (s.modGroup c g f).bdDer = s.bdDer := rfl
@[simp] theorem State.modGroup_bdDown (s : State) (c g : Nat) (f : Group → Group) : (s.modGroup c g f).bdDown = s.bdDown := rfl
@[simp] theorem State.modGroup_pfReady (s : State) (c g : Nat) (f : Group → Group) : (s.modGroup c g f).pfReady = s.pfReady := rfl
@[simp] theorem State.modGroup_osets (s : State) (c g : Nat) (f : Group → Group) : (s.modGroup c g f).osets = s.osets := rfl
@[simp] theorem State.modGroup_prins (s : State) (c g : Nat) (f : Group → Group) : (s.modGroup c g f).prins = s.prins := rfl
@[simp] theorem State.modGroup_pbaddr (s : State) (c g : Nat) (f : Group → Group) : (s.modGroup c g f).pbaddr = s.pbaddr := rfl
@[simp] theorem State.modGroup_pbErr (s : State) (c g : Nat) (f : Group → Group) : (s.modGroup c g f).pbErr = s.pbErr := rfl
@[simp] theorem State.modGroup_osreq (s : State) (c g : Nat) (f : Group → Group) : (s.modGroup c g f).osreq = s.osreq := rfl
@[simp] theorem State.modGroup_osErr (s : State) (c g : Nat) (f : Group → Group) : (s.modGroup c g f).osErr = s.osErr := rfl
@[simp] theorem State.modGroup_osIndex (s : State) (c g : Nat) (f : Group → Group) : (s.modGroup c g f).osIndex = s.osIndex := rfl
@[simp] theorem State.modGroup_piaddr (s : State) (c g : Nat) (f : Group → Group) : (s.modGroup c g f).piaddr = s.piaddr := rfl
@[simp] theorem State.modGroup_piErr (s : State) (c g : Nat) (f : Group → Group) : (s.modGroup c g f).piErr = s.piErr := rfl
@[simp] theorem State.modGroup_pirErr (s : State) (c g : Nat) (f : Group → Group) : (s.modGroup c g f).pirErr = s.pirErr := rfl
@[simp] theorem State.modGroup_gates (s : State) (c g : Nat) (f : Group → Group) : (s.modGroup c g f).gates = s.gates := rfl
@[simp] theorem State.modGroup_eprin (s : State) (c g : Nat) (f : Group → Group) : (s.modGroup c g f).eprin = s.eprin := rfl
@[simp] theorem State.modGroup_chErr (s : State) (c g : Nat) (f : Group → Group) : (s.modGroup c g f).chErr = s.chErr := rfl
@[simp] theorem State.modGroup_chCmd (s : State) (c g : Nat) (f : Group → Group) : (s.modGroup c g f).chCmd = s.chCmd := rfl
@[simp] theorem State.modGroup_doe (s : State) (c g : Nat) (f : Group → Group) : (s.modGroup c g f).doe = s.doe := rfl
@[simp] theorem State.modGroup_trackers (s : State) (c g : Nat) (f : Group → Group) : (s.modGroup c g f).trackers = s.trackers := rfl
@[simp] theorem State.modGroup_nextTrk (s : State) (c g : Nat) (f : Group → Group) : (s.modGroup c g f).nextTrk = s.nextTrk := rfl
@[simp] theorem State.modGroup_sent (s : State) (c g : Nat) (f : Group → Group) : (s.modGroup c g f).sent = s.sent := rfl
@[simp] theorem State.modGroup_ports (s : State) (c g : Nat) (f : Group → Group) : (s.modGroup c g f).ports = s.ports := rfl
@[simp] theorem State.modGroup_ftype (s : State) (c g : Nat) (f : Group → Group) : (s.modGroup c g f).ftype = s.ftype := rfl
@[simp] theorem State.modGroup_fdev (s : State) (c g : Nat) (f : Group → Group) : (s.modGroup c g f).fdev = s.fdev := rfl
@[simp] theorem State.modGroup_islands (s : State) (c g : Nat) (f : Group → Group) : (s.modGroup c g f).islands = s.islands := rfl
@[simp] theorem State.modGroup_banks (s : State) (c g : Nat) (f : Group → Group) : (s.modGroup c g f).banks = s.banks := rfl
@[simp] theorem State.modGroup_traces (s : State) (c g : Nat) (f : Group → Group) : (s.modGroup c g f).traces = s.traces := rfl
@[simp] theorem State.modGroup_pf (s : State) (c g : Nat) (f : Group → Group) : (s.modGroup c g f).pf = s.pf := rfl
@[simp] theorem State.modGroup_msix (s : State) (c g : Nat) (f : Group → Group) : (s.modGroup c g f).msix = s.msix := rfl
@[simp] theorem State.modGroup_readOut (s : State) (c g : Nat) (f : Group → Group) : (s.modGroup c g f).readOut = s.readOut := rfl
@[simp] theorem State.modGroup_firmware (s : State) (c g : Nat) (f : Group → Group) : (s.modGroup c g f).firmware = s.firmware := rfl
@[simp] theorem State.modGroup_errCtr (s : State) (c g : Nat) (f : Group → Group) : (s.modGroup c g f).errCtr = s.errCtr := rfl
@[simp] theorem State.modGroup_peerFlush (s : State) (c g : Nat) (f : Group → Group) : (s.modGroup c g f).peerFlush = s.peerFlush := rfl
@[simp] theorem State.modGroup_flaws (s : State) (c g : Nat) (f : Group → Group) : (s.modGroup c g f).flaws = s.flaws := rfl
@[simp] theorem State.modGroup_found (s : State) (c g : Nat) (f : Group → Group) : (s.modGroup c g f).found = s.found := rfl
@[simp] theorem State.modGroup_booked (s : State) (c g : Nat) (f : Group → Group) : (s.modGroup c g f).booked = s.booked := rfl
@[simp] theorem State.modGroup_walks (s : State) (c g : Nat) (f : Group → Group) : (s.modGroup c g f).walks = s.walks := rfl
@[simp] theorem State.modGroup_cycles (s : State) (c g : Nat) (f : Group → Group) : (s.modGroup c g f).cycles = s.cycles := rfl

@[simp] theorem State.modGrid_agenda (s : State) (g : Nat) (f : Grid → Grid) : (s.modGrid g f).agenda = s.agenda := rfl
@[simp] theorem State.modGrid_free (s : State) (g : Nat) (f : Grid → Grid) : (s.modGrid g f).free = s.free := rfl
@[simp] theorem State.modGrid_seq (s : State) (g : Nat) (f : Grid → Grid) : (s.modGrid g f).seq = s.seq := rfl
@[simp] theorem State.modGrid_gtime (s : State) (g : Nat) (f : Grid → Grid) : (s.modGrid g f).gtime = s.gtime := rfl
@[simp] theorem State.modGrid_cur (s : State) (g : Nat) (f : Grid → Grid) : (s.modGrid g f).cur = s.cur := rfl
@[simp] theorem State.modGrid_grids (s : State) (g : Nat) (f : Grid → Grid) : (s.modGrid g f).grids = Map.mod s.grids g f := rfl
@[simp] theorem State.modGrid_crews (s : State) (g : Nat) (f : Grid → Grid) : (s.modGrid g f).crews = s.crews := rfl
@[simp] theorem State.modGrid_nextGrid (s : State) (g : Nat) (f : Grid → Grid) : (s.modGrid g f).nextGrid = s.nextGrid := rfl
@[simp] theorem State.modGrid_nextCrew (s : State) (g : Nat) (f : Grid → Grid) : (s.modGrid g f).nextCrew = s.nextCrew := rfl
@[simp] theorem State.modGrid_ops (s : State) (g : Nat) (f : Grid → Grid) : (s.modGrid g f).ops = s.ops := rfl
@[simp] theorem State.modGrid_nextOp (s : State) (g : Nat) (f : Grid → Grid) : (s.modGrid g f).nextOp = s.nextOp := rfl
@[simp] theorem State.modGrid_cores (s : State) (g : Nat) (f : Grid → Grid) : (s.modGrid g f).cores = s.cores := rfl
@[simp] theorem State.modGrid_ctlb (s : State) (g : Nat) (f : Grid → Grid) : (s.modGrid g f).ctlb = s.ctlb := rfl
@[simp] theorem State.modGrid_engines (s : State) (g : Nat) (f : Grid → Grid) : (s.modGrid g f).engines = s.engines := rfl
@[simp] theorem State.modGrid_slices (s : State) (g : Nat) (f : Grid → Grid) : (s.modGrid g f).slices = s.slices := rfl
@[simp] theorem State.modGrid_channels (s : State) (g : Nat) (f : Grid → Grid) : (s.modGrid g f).channels = s.channels := rfl
@[simp] theorem State.modGrid_wbufs (s : State) (g : Nat) (f : Grid → Grid) : (s.modGrid g f).wbufs = s.wbufs := rfl
@[simp] theorem State.modGrid_hbm (s : State) (g : Nat) (f : Grid → Grid) : (s.modGrid g f).hbm = s.hbm := rfl
@[simp] theorem State.modGrid_lineS (s : State) (g : Nat) (f : Grid → Grid) : (s.modGrid g f).lineS = s.lineS := rfl
@[simp] theorem State.modGrid_frames (s : State) (g : Nat) (f : Grid → Grid) : (s.modGrid g f).frames = s.frames := rfl
@[simp] theorem State.modGrid_host (s : State) (g : Nat) (f : Grid → Grid) : (s.modGrid g f).host = s.host := rfl
@[simp] theorem State.modGrid_store (s : State) (g : Nat) (f : Grid → Grid) : (s.modGrid g f).store = s.store := rfl
@[simp] theorem State.modGrid_vfs (s : State) (g : Nat) (f : Grid → Grid) : (s.modGrid g f).vfs = s.vfs := rfl
@[simp] theorem State.modGrid_bdCopy (s : State) (g : Nat) (f : Grid → Grid) : (s.modGrid g f).bdCopy = s.bdCopy := rfl
@[simp] theorem State.modGrid_batches (s : State) (g : Nat) (f : Grid → Grid) : (s.modGrid g f).batches = s.batches := rfl
@[simp] theorem State.modGrid_hfq (s : State) (g : Nat) (f : Grid → Grid) : (s.modGrid g f).hfq = s.hfq := rfl
@[simp] theorem State.modGrid_htlbi (s : State) (g : Nat) (f : Grid → Grid) : (s.modGrid g f).htlbi = s.htlbi := rfl
@[simp] theorem State.modGrid_fstat (s : State) (g : Nat) (f : Grid → Grid) : (s.modGrid g f).fstat = s.fstat := rfl
@[simp] theorem State.modGrid_rcbuf (s : State) (g : Nat) (f : Grid → Grid) : (s.modGrid g f).rcbuf = s.rcbuf := rfl
@[simp] theorem State.modGrid_rcstat (s : State) (g : Nat) (f : Grid → Grid) : (s.modGrid g f).rcstat = s.rcstat := rfl
@[simp] theorem State.modGrid_rcWanted (s : State) (g : Nat) (f : Grid → Grid) : (s.modGrid g f).rcWanted = s.rcWanted := rfl
@[simp] theorem State.modGrid_rcVict (s : State) (g : Nat) (f : Grid → Grid) : (s.modGrid g f).rcVict = s.rcVict := rfl
@[simp] theorem State.modGrid_pmove (s : State) (g : Nat) (f : Grid → Grid) : (s.modGrid g f).pmove = s.pmove := rfl
@[simp] theorem State.modGrid_pmstat (s : State) (g : Nat) (f : Grid → Grid) : (s.modGrid g f).pmstat = s.pmstat := rfl
@[simp] theorem State.modGrid_pcmd (s : State) (g : Nat) (f : Grid → Grid) : (s.modGrid g f).pcmd = s.pcmd := rfl
@[simp] theorem State.modGrid_poolmask (s : State) (g : Nat) (f : Grid → Grid) : (s.modGrid g f).poolmask = s.poolmask := rfl
@[simp] theorem State.modGrid_poolTurn (s : State) (g : Nat) (f : Grid → Grid) : (s.modGrid g f).poolTurn = s.poolTurn := rfl
@[simp] theorem State.modGrid_capGen (s : State) (g : Nat) (f : Grid → Grid) : (s.modGrid g f).capGen = s.capGen := rfl
@[simp] theorem State.modGrid_nextStamp (s : State) (g : Nat) (f : Grid → Grid) : (s.modGrid g f).nextStamp = s.nextStamp := rfl
@[simp] theorem State.modGrid_clusters (s : State) (g : Nat) (f : Grid → Grid) : (s.modGrid g f).clusters = s.clusters := rfl
@[simp] theorem State.modGrid_sliceU (s : State) (g : Nat) (f : Grid → Grid) : (s.modGrid g f).sliceU = s.sliceU := rfl
@[simp] theorem State.modGrid_channelU (s : State) (g : Nat) (f : Grid → Grid) : (s.modGrid g f).channelU = s.channelU := rfl
@[simp] theorem State.modGrid_routerU (s : State) (g : Nat) (f : Grid → Grid) : (s.modGrid g f).routerU = s.routerU := rfl
@[simp] theorem State.modGrid_chiplets (s : State) (g : Nat) (f : Grid → Grid) : (s.modGrid g f).chiplets = s.chiplets := rfl
@[simp] theorem State.modGrid_topology (s : State) (g : Nat) (f : Grid → Grid) : (s.modGrid g f).topology = s.topology := rfl
@[simp] theorem State.modGrid_links (s : State) (g : Nat) (f : Grid → Grid) : (s.modGrid g f).links = s.links := rfl
@[simp] theorem State.modGrid_manifest (s : State) (g : Nat) (f : Grid → Grid) : (s.modGrid g f).manifest = s.manifest := rfl
@[simp] theorem State.modGrid_bdDer (s : State) (g : Nat) (f : Grid → Grid) : (s.modGrid g f).bdDer = s.bdDer := rfl
@[simp] theorem State.modGrid_bdDown (s : State) (g : Nat) (f : Grid → Grid) : (s.modGrid g f).bdDown = s.bdDown := rfl
@[simp] theorem State.modGrid_pfReady (s : State) (g : Nat) (f : Grid → Grid) : (s.modGrid g f).pfReady = s.pfReady := rfl
@[simp] theorem State.modGrid_osets (s : State) (g : Nat) (f : Grid → Grid) : (s.modGrid g f).osets = s.osets := rfl
@[simp] theorem State.modGrid_prins (s : State) (g : Nat) (f : Grid → Grid) : (s.modGrid g f).prins = s.prins := rfl
@[simp] theorem State.modGrid_pbaddr (s : State) (g : Nat) (f : Grid → Grid) : (s.modGrid g f).pbaddr = s.pbaddr := rfl
@[simp] theorem State.modGrid_pbErr (s : State) (g : Nat) (f : Grid → Grid) : (s.modGrid g f).pbErr = s.pbErr := rfl
@[simp] theorem State.modGrid_osreq (s : State) (g : Nat) (f : Grid → Grid) : (s.modGrid g f).osreq = s.osreq := rfl
@[simp] theorem State.modGrid_osErr (s : State) (g : Nat) (f : Grid → Grid) : (s.modGrid g f).osErr = s.osErr := rfl
@[simp] theorem State.modGrid_osIndex (s : State) (g : Nat) (f : Grid → Grid) : (s.modGrid g f).osIndex = s.osIndex := rfl
@[simp] theorem State.modGrid_piaddr (s : State) (g : Nat) (f : Grid → Grid) : (s.modGrid g f).piaddr = s.piaddr := rfl
@[simp] theorem State.modGrid_piErr (s : State) (g : Nat) (f : Grid → Grid) : (s.modGrid g f).piErr = s.piErr := rfl
@[simp] theorem State.modGrid_pirErr (s : State) (g : Nat) (f : Grid → Grid) : (s.modGrid g f).pirErr = s.pirErr := rfl
@[simp] theorem State.modGrid_gates (s : State) (g : Nat) (f : Grid → Grid) : (s.modGrid g f).gates = s.gates := rfl
@[simp] theorem State.modGrid_eprin (s : State) (g : Nat) (f : Grid → Grid) : (s.modGrid g f).eprin = s.eprin := rfl
@[simp] theorem State.modGrid_chErr (s : State) (g : Nat) (f : Grid → Grid) : (s.modGrid g f).chErr = s.chErr := rfl
@[simp] theorem State.modGrid_chCmd (s : State) (g : Nat) (f : Grid → Grid) : (s.modGrid g f).chCmd = s.chCmd := rfl
@[simp] theorem State.modGrid_doe (s : State) (g : Nat) (f : Grid → Grid) : (s.modGrid g f).doe = s.doe := rfl
@[simp] theorem State.modGrid_trackers (s : State) (g : Nat) (f : Grid → Grid) : (s.modGrid g f).trackers = s.trackers := rfl
@[simp] theorem State.modGrid_nextTrk (s : State) (g : Nat) (f : Grid → Grid) : (s.modGrid g f).nextTrk = s.nextTrk := rfl
@[simp] theorem State.modGrid_sent (s : State) (g : Nat) (f : Grid → Grid) : (s.modGrid g f).sent = s.sent := rfl
@[simp] theorem State.modGrid_ports (s : State) (g : Nat) (f : Grid → Grid) : (s.modGrid g f).ports = s.ports := rfl
@[simp] theorem State.modGrid_ftype (s : State) (g : Nat) (f : Grid → Grid) : (s.modGrid g f).ftype = s.ftype := rfl
@[simp] theorem State.modGrid_fdev (s : State) (g : Nat) (f : Grid → Grid) : (s.modGrid g f).fdev = s.fdev := rfl
@[simp] theorem State.modGrid_islands (s : State) (g : Nat) (f : Grid → Grid) : (s.modGrid g f).islands = s.islands := rfl
@[simp] theorem State.modGrid_banks (s : State) (g : Nat) (f : Grid → Grid) : (s.modGrid g f).banks = s.banks := rfl
@[simp] theorem State.modGrid_traces (s : State) (g : Nat) (f : Grid → Grid) : (s.modGrid g f).traces = s.traces := rfl
@[simp] theorem State.modGrid_pf (s : State) (g : Nat) (f : Grid → Grid) : (s.modGrid g f).pf = s.pf := rfl
@[simp] theorem State.modGrid_msix (s : State) (g : Nat) (f : Grid → Grid) : (s.modGrid g f).msix = s.msix := rfl
@[simp] theorem State.modGrid_readOut (s : State) (g : Nat) (f : Grid → Grid) : (s.modGrid g f).readOut = s.readOut := rfl
@[simp] theorem State.modGrid_firmware (s : State) (g : Nat) (f : Grid → Grid) : (s.modGrid g f).firmware = s.firmware := rfl
@[simp] theorem State.modGrid_errCtr (s : State) (g : Nat) (f : Grid → Grid) : (s.modGrid g f).errCtr = s.errCtr := rfl
@[simp] theorem State.modGrid_peerFlush (s : State) (g : Nat) (f : Grid → Grid) : (s.modGrid g f).peerFlush = s.peerFlush := rfl
@[simp] theorem State.modGrid_flaws (s : State) (g : Nat) (f : Grid → Grid) : (s.modGrid g f).flaws = s.flaws := rfl
@[simp] theorem State.modGrid_found (s : State) (g : Nat) (f : Grid → Grid) : (s.modGrid g f).found = s.found := rfl
@[simp] theorem State.modGrid_booked (s : State) (g : Nat) (f : Grid → Grid) : (s.modGrid g f).booked = s.booked := rfl
@[simp] theorem State.modGrid_walks (s : State) (g : Nat) (f : Grid → Grid) : (s.modGrid g f).walks = s.walks := rfl
@[simp] theorem State.modGrid_cycles (s : State) (g : Nat) (f : Grid → Grid) : (s.modGrid g f).cycles = s.cycles := rfl

@[simp] theorem State.modVf_agenda (s : State) (v : Nat) (f : Vf → Vf) : (s.modVf v f).agenda = s.agenda := rfl
@[simp] theorem State.modVf_free (s : State) (v : Nat) (f : Vf → Vf) : (s.modVf v f).free = s.free := rfl
@[simp] theorem State.modVf_seq (s : State) (v : Nat) (f : Vf → Vf) : (s.modVf v f).seq = s.seq := rfl
@[simp] theorem State.modVf_gtime (s : State) (v : Nat) (f : Vf → Vf) : (s.modVf v f).gtime = s.gtime := rfl
@[simp] theorem State.modVf_cur (s : State) (v : Nat) (f : Vf → Vf) : (s.modVf v f).cur = s.cur := rfl
@[simp] theorem State.modVf_grids (s : State) (v : Nat) (f : Vf → Vf) : (s.modVf v f).grids = s.grids := rfl
@[simp] theorem State.modVf_crews (s : State) (v : Nat) (f : Vf → Vf) : (s.modVf v f).crews = s.crews := rfl
@[simp] theorem State.modVf_nextGrid (s : State) (v : Nat) (f : Vf → Vf) : (s.modVf v f).nextGrid = s.nextGrid := rfl
@[simp] theorem State.modVf_nextCrew (s : State) (v : Nat) (f : Vf → Vf) : (s.modVf v f).nextCrew = s.nextCrew := rfl
@[simp] theorem State.modVf_ops (s : State) (v : Nat) (f : Vf → Vf) : (s.modVf v f).ops = s.ops := rfl
@[simp] theorem State.modVf_nextOp (s : State) (v : Nat) (f : Vf → Vf) : (s.modVf v f).nextOp = s.nextOp := rfl
@[simp] theorem State.modVf_cores (s : State) (v : Nat) (f : Vf → Vf) : (s.modVf v f).cores = s.cores := rfl
@[simp] theorem State.modVf_ctlb (s : State) (v : Nat) (f : Vf → Vf) : (s.modVf v f).ctlb = s.ctlb := rfl
@[simp] theorem State.modVf_engines (s : State) (v : Nat) (f : Vf → Vf) : (s.modVf v f).engines = s.engines := rfl
@[simp] theorem State.modVf_slices (s : State) (v : Nat) (f : Vf → Vf) : (s.modVf v f).slices = s.slices := rfl
@[simp] theorem State.modVf_channels (s : State) (v : Nat) (f : Vf → Vf) : (s.modVf v f).channels = s.channels := rfl
@[simp] theorem State.modVf_wbufs (s : State) (v : Nat) (f : Vf → Vf) : (s.modVf v f).wbufs = s.wbufs := rfl
@[simp] theorem State.modVf_hbm (s : State) (v : Nat) (f : Vf → Vf) : (s.modVf v f).hbm = s.hbm := rfl
@[simp] theorem State.modVf_lineS (s : State) (v : Nat) (f : Vf → Vf) : (s.modVf v f).lineS = s.lineS := rfl
@[simp] theorem State.modVf_frames (s : State) (v : Nat) (f : Vf → Vf) : (s.modVf v f).frames = s.frames := rfl
@[simp] theorem State.modVf_host (s : State) (v : Nat) (f : Vf → Vf) : (s.modVf v f).host = s.host := rfl
@[simp] theorem State.modVf_store (s : State) (v : Nat) (f : Vf → Vf) : (s.modVf v f).store = s.store := rfl
@[simp] theorem State.modVf_vfs (s : State) (v : Nat) (f : Vf → Vf) : (s.modVf v f).vfs = Map.put s.vfs v (f (s.vf v)) := rfl
@[simp] theorem State.modVf_bdCopy (s : State) (v : Nat) (f : Vf → Vf) : (s.modVf v f).bdCopy = s.bdCopy := rfl
@[simp] theorem State.modVf_batches (s : State) (v : Nat) (f : Vf → Vf) : (s.modVf v f).batches = s.batches := rfl
@[simp] theorem State.modVf_hfq (s : State) (v : Nat) (f : Vf → Vf) : (s.modVf v f).hfq = s.hfq := rfl
@[simp] theorem State.modVf_htlbi (s : State) (v : Nat) (f : Vf → Vf) : (s.modVf v f).htlbi = s.htlbi := rfl
@[simp] theorem State.modVf_fstat (s : State) (v : Nat) (f : Vf → Vf) : (s.modVf v f).fstat = s.fstat := rfl
@[simp] theorem State.modVf_rcbuf (s : State) (v : Nat) (f : Vf → Vf) : (s.modVf v f).rcbuf = s.rcbuf := rfl
@[simp] theorem State.modVf_rcstat (s : State) (v : Nat) (f : Vf → Vf) : (s.modVf v f).rcstat = s.rcstat := rfl
@[simp] theorem State.modVf_rcWanted (s : State) (v : Nat) (f : Vf → Vf) : (s.modVf v f).rcWanted = s.rcWanted := rfl
@[simp] theorem State.modVf_rcVict (s : State) (v : Nat) (f : Vf → Vf) : (s.modVf v f).rcVict = s.rcVict := rfl
@[simp] theorem State.modVf_pmove (s : State) (v : Nat) (f : Vf → Vf) : (s.modVf v f).pmove = s.pmove := rfl
@[simp] theorem State.modVf_pmstat (s : State) (v : Nat) (f : Vf → Vf) : (s.modVf v f).pmstat = s.pmstat := rfl
@[simp] theorem State.modVf_pcmd (s : State) (v : Nat) (f : Vf → Vf) : (s.modVf v f).pcmd = s.pcmd := rfl
@[simp] theorem State.modVf_poolmask (s : State) (v : Nat) (f : Vf → Vf) : (s.modVf v f).poolmask = s.poolmask := rfl
@[simp] theorem State.modVf_poolTurn (s : State) (v : Nat) (f : Vf → Vf) : (s.modVf v f).poolTurn = s.poolTurn := rfl
@[simp] theorem State.modVf_capGen (s : State) (v : Nat) (f : Vf → Vf) : (s.modVf v f).capGen = s.capGen := rfl
@[simp] theorem State.modVf_nextStamp (s : State) (v : Nat) (f : Vf → Vf) : (s.modVf v f).nextStamp = s.nextStamp := rfl
@[simp] theorem State.modVf_clusters (s : State) (v : Nat) (f : Vf → Vf) : (s.modVf v f).clusters = s.clusters := rfl
@[simp] theorem State.modVf_sliceU (s : State) (v : Nat) (f : Vf → Vf) : (s.modVf v f).sliceU = s.sliceU := rfl
@[simp] theorem State.modVf_channelU (s : State) (v : Nat) (f : Vf → Vf) : (s.modVf v f).channelU = s.channelU := rfl
@[simp] theorem State.modVf_routerU (s : State) (v : Nat) (f : Vf → Vf) : (s.modVf v f).routerU = s.routerU := rfl
@[simp] theorem State.modVf_chiplets (s : State) (v : Nat) (f : Vf → Vf) : (s.modVf v f).chiplets = s.chiplets := rfl
@[simp] theorem State.modVf_topology (s : State) (v : Nat) (f : Vf → Vf) : (s.modVf v f).topology = s.topology := rfl
@[simp] theorem State.modVf_links (s : State) (v : Nat) (f : Vf → Vf) : (s.modVf v f).links = s.links := rfl
@[simp] theorem State.modVf_manifest (s : State) (v : Nat) (f : Vf → Vf) : (s.modVf v f).manifest = s.manifest := rfl
@[simp] theorem State.modVf_bdDer (s : State) (v : Nat) (f : Vf → Vf) : (s.modVf v f).bdDer = s.bdDer := rfl
@[simp] theorem State.modVf_bdDown (s : State) (v : Nat) (f : Vf → Vf) : (s.modVf v f).bdDown = s.bdDown := rfl
@[simp] theorem State.modVf_pfReady (s : State) (v : Nat) (f : Vf → Vf) : (s.modVf v f).pfReady = s.pfReady := rfl
@[simp] theorem State.modVf_osets (s : State) (v : Nat) (f : Vf → Vf) : (s.modVf v f).osets = s.osets := rfl
@[simp] theorem State.modVf_prins (s : State) (v : Nat) (f : Vf → Vf) : (s.modVf v f).prins = s.prins := rfl
@[simp] theorem State.modVf_pbaddr (s : State) (v : Nat) (f : Vf → Vf) : (s.modVf v f).pbaddr = s.pbaddr := rfl
@[simp] theorem State.modVf_pbErr (s : State) (v : Nat) (f : Vf → Vf) : (s.modVf v f).pbErr = s.pbErr := rfl
@[simp] theorem State.modVf_osreq (s : State) (v : Nat) (f : Vf → Vf) : (s.modVf v f).osreq = s.osreq := rfl
@[simp] theorem State.modVf_osErr (s : State) (v : Nat) (f : Vf → Vf) : (s.modVf v f).osErr = s.osErr := rfl
@[simp] theorem State.modVf_osIndex (s : State) (v : Nat) (f : Vf → Vf) : (s.modVf v f).osIndex = s.osIndex := rfl
@[simp] theorem State.modVf_piaddr (s : State) (v : Nat) (f : Vf → Vf) : (s.modVf v f).piaddr = s.piaddr := rfl
@[simp] theorem State.modVf_piErr (s : State) (v : Nat) (f : Vf → Vf) : (s.modVf v f).piErr = s.piErr := rfl
@[simp] theorem State.modVf_pirErr (s : State) (v : Nat) (f : Vf → Vf) : (s.modVf v f).pirErr = s.pirErr := rfl
@[simp] theorem State.modVf_gates (s : State) (v : Nat) (f : Vf → Vf) : (s.modVf v f).gates = s.gates := rfl
@[simp] theorem State.modVf_eprin (s : State) (v : Nat) (f : Vf → Vf) : (s.modVf v f).eprin = s.eprin := rfl
@[simp] theorem State.modVf_chErr (s : State) (v : Nat) (f : Vf → Vf) : (s.modVf v f).chErr = s.chErr := rfl
@[simp] theorem State.modVf_chCmd (s : State) (v : Nat) (f : Vf → Vf) : (s.modVf v f).chCmd = s.chCmd := rfl
@[simp] theorem State.modVf_doe (s : State) (v : Nat) (f : Vf → Vf) : (s.modVf v f).doe = s.doe := rfl
@[simp] theorem State.modVf_trackers (s : State) (v : Nat) (f : Vf → Vf) : (s.modVf v f).trackers = s.trackers := rfl
@[simp] theorem State.modVf_nextTrk (s : State) (v : Nat) (f : Vf → Vf) : (s.modVf v f).nextTrk = s.nextTrk := rfl
@[simp] theorem State.modVf_sent (s : State) (v : Nat) (f : Vf → Vf) : (s.modVf v f).sent = s.sent := rfl
@[simp] theorem State.modVf_ports (s : State) (v : Nat) (f : Vf → Vf) : (s.modVf v f).ports = s.ports := rfl
@[simp] theorem State.modVf_ftype (s : State) (v : Nat) (f : Vf → Vf) : (s.modVf v f).ftype = s.ftype := rfl
@[simp] theorem State.modVf_fdev (s : State) (v : Nat) (f : Vf → Vf) : (s.modVf v f).fdev = s.fdev := rfl
@[simp] theorem State.modVf_islands (s : State) (v : Nat) (f : Vf → Vf) : (s.modVf v f).islands = s.islands := rfl
@[simp] theorem State.modVf_banks (s : State) (v : Nat) (f : Vf → Vf) : (s.modVf v f).banks = s.banks := rfl
@[simp] theorem State.modVf_traces (s : State) (v : Nat) (f : Vf → Vf) : (s.modVf v f).traces = s.traces := rfl
@[simp] theorem State.modVf_pf (s : State) (v : Nat) (f : Vf → Vf) : (s.modVf v f).pf = s.pf := rfl
@[simp] theorem State.modVf_msix (s : State) (v : Nat) (f : Vf → Vf) : (s.modVf v f).msix = s.msix := rfl
@[simp] theorem State.modVf_readOut (s : State) (v : Nat) (f : Vf → Vf) : (s.modVf v f).readOut = s.readOut := rfl
@[simp] theorem State.modVf_firmware (s : State) (v : Nat) (f : Vf → Vf) : (s.modVf v f).firmware = s.firmware := rfl
@[simp] theorem State.modVf_errCtr (s : State) (v : Nat) (f : Vf → Vf) : (s.modVf v f).errCtr = s.errCtr := rfl
@[simp] theorem State.modVf_peerFlush (s : State) (v : Nat) (f : Vf → Vf) : (s.modVf v f).peerFlush = s.peerFlush := rfl
@[simp] theorem State.modVf_flaws (s : State) (v : Nat) (f : Vf → Vf) : (s.modVf v f).flaws = s.flaws := rfl
@[simp] theorem State.modVf_found (s : State) (v : Nat) (f : Vf → Vf) : (s.modVf v f).found = s.found := rfl
@[simp] theorem State.modVf_booked (s : State) (v : Nat) (f : Vf → Vf) : (s.modVf v f).booked = s.booked := rfl
@[simp] theorem State.modVf_walks (s : State) (v : Nat) (f : Vf → Vf) : (s.modVf v f).walks = s.walks := rfl
@[simp] theorem State.modVf_cycles (s : State) (v : Nat) (f : Vf → Vf) : (s.modVf v f).cycles = s.cycles := rfl

@[simp] theorem State.modCore_agenda (s : State) (c : Nat) (f : Core → Core) : (s.modCore c f).agenda = s.agenda := rfl
@[simp] theorem State.modCore_free (s : State) (c : Nat) (f : Core → Core) : (s.modCore c f).free = s.free := rfl
@[simp] theorem State.modCore_seq (s : State) (c : Nat) (f : Core → Core) : (s.modCore c f).seq = s.seq := rfl
@[simp] theorem State.modCore_gtime (s : State) (c : Nat) (f : Core → Core) : (s.modCore c f).gtime = s.gtime := rfl
@[simp] theorem State.modCore_cur (s : State) (c : Nat) (f : Core → Core) : (s.modCore c f).cur = s.cur := rfl
@[simp] theorem State.modCore_grids (s : State) (c : Nat) (f : Core → Core) : (s.modCore c f).grids = s.grids := rfl
@[simp] theorem State.modCore_crews (s : State) (c : Nat) (f : Core → Core) : (s.modCore c f).crews = s.crews := rfl
@[simp] theorem State.modCore_nextGrid (s : State) (c : Nat) (f : Core → Core) : (s.modCore c f).nextGrid = s.nextGrid := rfl
@[simp] theorem State.modCore_nextCrew (s : State) (c : Nat) (f : Core → Core) : (s.modCore c f).nextCrew = s.nextCrew := rfl
@[simp] theorem State.modCore_ops (s : State) (c : Nat) (f : Core → Core) : (s.modCore c f).ops = s.ops := rfl
@[simp] theorem State.modCore_nextOp (s : State) (c : Nat) (f : Core → Core) : (s.modCore c f).nextOp = s.nextOp := rfl
@[simp] theorem State.modCore_cores (s : State) (c : Nat) (f : Core → Core) : (s.modCore c f).cores = Map.put s.cores c (f (s.core c)) := rfl
@[simp] theorem State.modCore_ctlb (s : State) (c : Nat) (f : Core → Core) : (s.modCore c f).ctlb = s.ctlb := rfl
@[simp] theorem State.modCore_engines (s : State) (c : Nat) (f : Core → Core) : (s.modCore c f).engines = s.engines := rfl
@[simp] theorem State.modCore_slices (s : State) (c : Nat) (f : Core → Core) : (s.modCore c f).slices = s.slices := rfl
@[simp] theorem State.modCore_channels (s : State) (c : Nat) (f : Core → Core) : (s.modCore c f).channels = s.channels := rfl
@[simp] theorem State.modCore_wbufs (s : State) (c : Nat) (f : Core → Core) : (s.modCore c f).wbufs = s.wbufs := rfl
@[simp] theorem State.modCore_hbm (s : State) (c : Nat) (f : Core → Core) : (s.modCore c f).hbm = s.hbm := rfl
@[simp] theorem State.modCore_lineS (s : State) (c : Nat) (f : Core → Core) : (s.modCore c f).lineS = s.lineS := rfl
@[simp] theorem State.modCore_frames (s : State) (c : Nat) (f : Core → Core) : (s.modCore c f).frames = s.frames := rfl
@[simp] theorem State.modCore_host (s : State) (c : Nat) (f : Core → Core) : (s.modCore c f).host = s.host := rfl
@[simp] theorem State.modCore_store (s : State) (c : Nat) (f : Core → Core) : (s.modCore c f).store = s.store := rfl
@[simp] theorem State.modCore_vfs (s : State) (c : Nat) (f : Core → Core) : (s.modCore c f).vfs = s.vfs := rfl
@[simp] theorem State.modCore_bdCopy (s : State) (c : Nat) (f : Core → Core) : (s.modCore c f).bdCopy = s.bdCopy := rfl
@[simp] theorem State.modCore_batches (s : State) (c : Nat) (f : Core → Core) : (s.modCore c f).batches = s.batches := rfl
@[simp] theorem State.modCore_hfq (s : State) (c : Nat) (f : Core → Core) : (s.modCore c f).hfq = s.hfq := rfl
@[simp] theorem State.modCore_htlbi (s : State) (c : Nat) (f : Core → Core) : (s.modCore c f).htlbi = s.htlbi := rfl
@[simp] theorem State.modCore_fstat (s : State) (c : Nat) (f : Core → Core) : (s.modCore c f).fstat = s.fstat := rfl
@[simp] theorem State.modCore_rcbuf (s : State) (c : Nat) (f : Core → Core) : (s.modCore c f).rcbuf = s.rcbuf := rfl
@[simp] theorem State.modCore_rcstat (s : State) (c : Nat) (f : Core → Core) : (s.modCore c f).rcstat = s.rcstat := rfl
@[simp] theorem State.modCore_rcWanted (s : State) (c : Nat) (f : Core → Core) : (s.modCore c f).rcWanted = s.rcWanted := rfl
@[simp] theorem State.modCore_rcVict (s : State) (c : Nat) (f : Core → Core) : (s.modCore c f).rcVict = s.rcVict := rfl
@[simp] theorem State.modCore_pmove (s : State) (c : Nat) (f : Core → Core) : (s.modCore c f).pmove = s.pmove := rfl
@[simp] theorem State.modCore_pmstat (s : State) (c : Nat) (f : Core → Core) : (s.modCore c f).pmstat = s.pmstat := rfl
@[simp] theorem State.modCore_pcmd (s : State) (c : Nat) (f : Core → Core) : (s.modCore c f).pcmd = s.pcmd := rfl
@[simp] theorem State.modCore_poolmask (s : State) (c : Nat) (f : Core → Core) : (s.modCore c f).poolmask = s.poolmask := rfl
@[simp] theorem State.modCore_poolTurn (s : State) (c : Nat) (f : Core → Core) : (s.modCore c f).poolTurn = s.poolTurn := rfl
@[simp] theorem State.modCore_capGen (s : State) (c : Nat) (f : Core → Core) : (s.modCore c f).capGen = s.capGen := rfl
@[simp] theorem State.modCore_nextStamp (s : State) (c : Nat) (f : Core → Core) : (s.modCore c f).nextStamp = s.nextStamp := rfl
@[simp] theorem State.modCore_clusters (s : State) (c : Nat) (f : Core → Core) : (s.modCore c f).clusters = s.clusters := rfl
@[simp] theorem State.modCore_sliceU (s : State) (c : Nat) (f : Core → Core) : (s.modCore c f).sliceU = s.sliceU := rfl
@[simp] theorem State.modCore_channelU (s : State) (c : Nat) (f : Core → Core) : (s.modCore c f).channelU = s.channelU := rfl
@[simp] theorem State.modCore_routerU (s : State) (c : Nat) (f : Core → Core) : (s.modCore c f).routerU = s.routerU := rfl
@[simp] theorem State.modCore_chiplets (s : State) (c : Nat) (f : Core → Core) : (s.modCore c f).chiplets = s.chiplets := rfl
@[simp] theorem State.modCore_topology (s : State) (c : Nat) (f : Core → Core) : (s.modCore c f).topology = s.topology := rfl
@[simp] theorem State.modCore_links (s : State) (c : Nat) (f : Core → Core) : (s.modCore c f).links = s.links := rfl
@[simp] theorem State.modCore_manifest (s : State) (c : Nat) (f : Core → Core) : (s.modCore c f).manifest = s.manifest := rfl
@[simp] theorem State.modCore_bdDer (s : State) (c : Nat) (f : Core → Core) : (s.modCore c f).bdDer = s.bdDer := rfl
@[simp] theorem State.modCore_bdDown (s : State) (c : Nat) (f : Core → Core) : (s.modCore c f).bdDown = s.bdDown := rfl
@[simp] theorem State.modCore_pfReady (s : State) (c : Nat) (f : Core → Core) : (s.modCore c f).pfReady = s.pfReady := rfl
@[simp] theorem State.modCore_osets (s : State) (c : Nat) (f : Core → Core) : (s.modCore c f).osets = s.osets := rfl
@[simp] theorem State.modCore_prins (s : State) (c : Nat) (f : Core → Core) : (s.modCore c f).prins = s.prins := rfl
@[simp] theorem State.modCore_pbaddr (s : State) (c : Nat) (f : Core → Core) : (s.modCore c f).pbaddr = s.pbaddr := rfl
@[simp] theorem State.modCore_pbErr (s : State) (c : Nat) (f : Core → Core) : (s.modCore c f).pbErr = s.pbErr := rfl
@[simp] theorem State.modCore_osreq (s : State) (c : Nat) (f : Core → Core) : (s.modCore c f).osreq = s.osreq := rfl
@[simp] theorem State.modCore_osErr (s : State) (c : Nat) (f : Core → Core) : (s.modCore c f).osErr = s.osErr := rfl
@[simp] theorem State.modCore_osIndex (s : State) (c : Nat) (f : Core → Core) : (s.modCore c f).osIndex = s.osIndex := rfl
@[simp] theorem State.modCore_piaddr (s : State) (c : Nat) (f : Core → Core) : (s.modCore c f).piaddr = s.piaddr := rfl
@[simp] theorem State.modCore_piErr (s : State) (c : Nat) (f : Core → Core) : (s.modCore c f).piErr = s.piErr := rfl
@[simp] theorem State.modCore_pirErr (s : State) (c : Nat) (f : Core → Core) : (s.modCore c f).pirErr = s.pirErr := rfl
@[simp] theorem State.modCore_gates (s : State) (c : Nat) (f : Core → Core) : (s.modCore c f).gates = s.gates := rfl
@[simp] theorem State.modCore_eprin (s : State) (c : Nat) (f : Core → Core) : (s.modCore c f).eprin = s.eprin := rfl
@[simp] theorem State.modCore_chErr (s : State) (c : Nat) (f : Core → Core) : (s.modCore c f).chErr = s.chErr := rfl
@[simp] theorem State.modCore_chCmd (s : State) (c : Nat) (f : Core → Core) : (s.modCore c f).chCmd = s.chCmd := rfl
@[simp] theorem State.modCore_doe (s : State) (c : Nat) (f : Core → Core) : (s.modCore c f).doe = s.doe := rfl
@[simp] theorem State.modCore_trackers (s : State) (c : Nat) (f : Core → Core) : (s.modCore c f).trackers = s.trackers := rfl
@[simp] theorem State.modCore_nextTrk (s : State) (c : Nat) (f : Core → Core) : (s.modCore c f).nextTrk = s.nextTrk := rfl
@[simp] theorem State.modCore_sent (s : State) (c : Nat) (f : Core → Core) : (s.modCore c f).sent = s.sent := rfl
@[simp] theorem State.modCore_ports (s : State) (c : Nat) (f : Core → Core) : (s.modCore c f).ports = s.ports := rfl
@[simp] theorem State.modCore_ftype (s : State) (c : Nat) (f : Core → Core) : (s.modCore c f).ftype = s.ftype := rfl
@[simp] theorem State.modCore_fdev (s : State) (c : Nat) (f : Core → Core) : (s.modCore c f).fdev = s.fdev := rfl
@[simp] theorem State.modCore_islands (s : State) (c : Nat) (f : Core → Core) : (s.modCore c f).islands = s.islands := rfl
@[simp] theorem State.modCore_banks (s : State) (c : Nat) (f : Core → Core) : (s.modCore c f).banks = s.banks := rfl
@[simp] theorem State.modCore_traces (s : State) (c : Nat) (f : Core → Core) : (s.modCore c f).traces = s.traces := rfl
@[simp] theorem State.modCore_pf (s : State) (c : Nat) (f : Core → Core) : (s.modCore c f).pf = s.pf := rfl
@[simp] theorem State.modCore_msix (s : State) (c : Nat) (f : Core → Core) : (s.modCore c f).msix = s.msix := rfl
@[simp] theorem State.modCore_readOut (s : State) (c : Nat) (f : Core → Core) : (s.modCore c f).readOut = s.readOut := rfl
@[simp] theorem State.modCore_firmware (s : State) (c : Nat) (f : Core → Core) : (s.modCore c f).firmware = s.firmware := rfl
@[simp] theorem State.modCore_errCtr (s : State) (c : Nat) (f : Core → Core) : (s.modCore c f).errCtr = s.errCtr := rfl
@[simp] theorem State.modCore_peerFlush (s : State) (c : Nat) (f : Core → Core) : (s.modCore c f).peerFlush = s.peerFlush := rfl
@[simp] theorem State.modCore_flaws (s : State) (c : Nat) (f : Core → Core) : (s.modCore c f).flaws = s.flaws := rfl
@[simp] theorem State.modCore_found (s : State) (c : Nat) (f : Core → Core) : (s.modCore c f).found = s.found := rfl
@[simp] theorem State.modCore_booked (s : State) (c : Nat) (f : Core → Core) : (s.modCore c f).booked = s.booked := rfl
@[simp] theorem State.modCore_walks (s : State) (c : Nat) (f : Core → Core) : (s.modCore c f).walks = s.walks := rfl
@[simp] theorem State.modCore_cycles (s : State) (c : Nat) (f : Core → Core) : (s.modCore c f).cycles = s.cycles := rfl

@[simp] theorem State.modSlice_agenda (s : State) (k : Nat) (f : Slice → Slice) : (s.modSlice k f).agenda = s.agenda := rfl
@[simp] theorem State.modSlice_free (s : State) (k : Nat) (f : Slice → Slice) : (s.modSlice k f).free = s.free := rfl
@[simp] theorem State.modSlice_seq (s : State) (k : Nat) (f : Slice → Slice) : (s.modSlice k f).seq = s.seq := rfl
@[simp] theorem State.modSlice_gtime (s : State) (k : Nat) (f : Slice → Slice) : (s.modSlice k f).gtime = s.gtime := rfl
@[simp] theorem State.modSlice_cur (s : State) (k : Nat) (f : Slice → Slice) : (s.modSlice k f).cur = s.cur := rfl
@[simp] theorem State.modSlice_grids (s : State) (k : Nat) (f : Slice → Slice) : (s.modSlice k f).grids = s.grids := rfl
@[simp] theorem State.modSlice_crews (s : State) (k : Nat) (f : Slice → Slice) : (s.modSlice k f).crews = s.crews := rfl
@[simp] theorem State.modSlice_nextGrid (s : State) (k : Nat) (f : Slice → Slice) : (s.modSlice k f).nextGrid = s.nextGrid := rfl
@[simp] theorem State.modSlice_nextCrew (s : State) (k : Nat) (f : Slice → Slice) : (s.modSlice k f).nextCrew = s.nextCrew := rfl
@[simp] theorem State.modSlice_ops (s : State) (k : Nat) (f : Slice → Slice) : (s.modSlice k f).ops = s.ops := rfl
@[simp] theorem State.modSlice_nextOp (s : State) (k : Nat) (f : Slice → Slice) : (s.modSlice k f).nextOp = s.nextOp := rfl
@[simp] theorem State.modSlice_cores (s : State) (k : Nat) (f : Slice → Slice) : (s.modSlice k f).cores = s.cores := rfl
@[simp] theorem State.modSlice_ctlb (s : State) (k : Nat) (f : Slice → Slice) : (s.modSlice k f).ctlb = s.ctlb := rfl
@[simp] theorem State.modSlice_engines (s : State) (k : Nat) (f : Slice → Slice) : (s.modSlice k f).engines = s.engines := rfl
@[simp] theorem State.modSlice_slices (s : State) (k : Nat) (f : Slice → Slice) : (s.modSlice k f).slices = Map.put s.slices k (f (s.slice k)) := rfl
@[simp] theorem State.modSlice_channels (s : State) (k : Nat) (f : Slice → Slice) : (s.modSlice k f).channels = s.channels := rfl
@[simp] theorem State.modSlice_wbufs (s : State) (k : Nat) (f : Slice → Slice) : (s.modSlice k f).wbufs = s.wbufs := rfl
@[simp] theorem State.modSlice_hbm (s : State) (k : Nat) (f : Slice → Slice) : (s.modSlice k f).hbm = s.hbm := rfl
@[simp] theorem State.modSlice_lineS (s : State) (k : Nat) (f : Slice → Slice) : (s.modSlice k f).lineS = s.lineS := rfl
@[simp] theorem State.modSlice_frames (s : State) (k : Nat) (f : Slice → Slice) : (s.modSlice k f).frames = s.frames := rfl
@[simp] theorem State.modSlice_host (s : State) (k : Nat) (f : Slice → Slice) : (s.modSlice k f).host = s.host := rfl
@[simp] theorem State.modSlice_store (s : State) (k : Nat) (f : Slice → Slice) : (s.modSlice k f).store = s.store := rfl
@[simp] theorem State.modSlice_vfs (s : State) (k : Nat) (f : Slice → Slice) : (s.modSlice k f).vfs = s.vfs := rfl
@[simp] theorem State.modSlice_bdCopy (s : State) (k : Nat) (f : Slice → Slice) : (s.modSlice k f).bdCopy = s.bdCopy := rfl
@[simp] theorem State.modSlice_batches (s : State) (k : Nat) (f : Slice → Slice) : (s.modSlice k f).batches = s.batches := rfl
@[simp] theorem State.modSlice_hfq (s : State) (k : Nat) (f : Slice → Slice) : (s.modSlice k f).hfq = s.hfq := rfl
@[simp] theorem State.modSlice_htlbi (s : State) (k : Nat) (f : Slice → Slice) : (s.modSlice k f).htlbi = s.htlbi := rfl
@[simp] theorem State.modSlice_fstat (s : State) (k : Nat) (f : Slice → Slice) : (s.modSlice k f).fstat = s.fstat := rfl
@[simp] theorem State.modSlice_rcbuf (s : State) (k : Nat) (f : Slice → Slice) : (s.modSlice k f).rcbuf = s.rcbuf := rfl
@[simp] theorem State.modSlice_rcstat (s : State) (k : Nat) (f : Slice → Slice) : (s.modSlice k f).rcstat = s.rcstat := rfl
@[simp] theorem State.modSlice_rcWanted (s : State) (k : Nat) (f : Slice → Slice) : (s.modSlice k f).rcWanted = s.rcWanted := rfl
@[simp] theorem State.modSlice_rcVict (s : State) (k : Nat) (f : Slice → Slice) : (s.modSlice k f).rcVict = s.rcVict := rfl
@[simp] theorem State.modSlice_pmove (s : State) (k : Nat) (f : Slice → Slice) : (s.modSlice k f).pmove = s.pmove := rfl
@[simp] theorem State.modSlice_pmstat (s : State) (k : Nat) (f : Slice → Slice) : (s.modSlice k f).pmstat = s.pmstat := rfl
@[simp] theorem State.modSlice_pcmd (s : State) (k : Nat) (f : Slice → Slice) : (s.modSlice k f).pcmd = s.pcmd := rfl
@[simp] theorem State.modSlice_poolmask (s : State) (k : Nat) (f : Slice → Slice) : (s.modSlice k f).poolmask = s.poolmask := rfl
@[simp] theorem State.modSlice_poolTurn (s : State) (k : Nat) (f : Slice → Slice) : (s.modSlice k f).poolTurn = s.poolTurn := rfl
@[simp] theorem State.modSlice_capGen (s : State) (k : Nat) (f : Slice → Slice) : (s.modSlice k f).capGen = s.capGen := rfl
@[simp] theorem State.modSlice_nextStamp (s : State) (k : Nat) (f : Slice → Slice) : (s.modSlice k f).nextStamp = s.nextStamp := rfl
@[simp] theorem State.modSlice_clusters (s : State) (k : Nat) (f : Slice → Slice) : (s.modSlice k f).clusters = s.clusters := rfl
@[simp] theorem State.modSlice_sliceU (s : State) (k : Nat) (f : Slice → Slice) : (s.modSlice k f).sliceU = s.sliceU := rfl
@[simp] theorem State.modSlice_channelU (s : State) (k : Nat) (f : Slice → Slice) : (s.modSlice k f).channelU = s.channelU := rfl
@[simp] theorem State.modSlice_routerU (s : State) (k : Nat) (f : Slice → Slice) : (s.modSlice k f).routerU = s.routerU := rfl
@[simp] theorem State.modSlice_chiplets (s : State) (k : Nat) (f : Slice → Slice) : (s.modSlice k f).chiplets = s.chiplets := rfl
@[simp] theorem State.modSlice_topology (s : State) (k : Nat) (f : Slice → Slice) : (s.modSlice k f).topology = s.topology := rfl
@[simp] theorem State.modSlice_links (s : State) (k : Nat) (f : Slice → Slice) : (s.modSlice k f).links = s.links := rfl
@[simp] theorem State.modSlice_manifest (s : State) (k : Nat) (f : Slice → Slice) : (s.modSlice k f).manifest = s.manifest := rfl
@[simp] theorem State.modSlice_bdDer (s : State) (k : Nat) (f : Slice → Slice) : (s.modSlice k f).bdDer = s.bdDer := rfl
@[simp] theorem State.modSlice_bdDown (s : State) (k : Nat) (f : Slice → Slice) : (s.modSlice k f).bdDown = s.bdDown := rfl
@[simp] theorem State.modSlice_pfReady (s : State) (k : Nat) (f : Slice → Slice) : (s.modSlice k f).pfReady = s.pfReady := rfl
@[simp] theorem State.modSlice_osets (s : State) (k : Nat) (f : Slice → Slice) : (s.modSlice k f).osets = s.osets := rfl
@[simp] theorem State.modSlice_prins (s : State) (k : Nat) (f : Slice → Slice) : (s.modSlice k f).prins = s.prins := rfl
@[simp] theorem State.modSlice_pbaddr (s : State) (k : Nat) (f : Slice → Slice) : (s.modSlice k f).pbaddr = s.pbaddr := rfl
@[simp] theorem State.modSlice_pbErr (s : State) (k : Nat) (f : Slice → Slice) : (s.modSlice k f).pbErr = s.pbErr := rfl
@[simp] theorem State.modSlice_osreq (s : State) (k : Nat) (f : Slice → Slice) : (s.modSlice k f).osreq = s.osreq := rfl
@[simp] theorem State.modSlice_osErr (s : State) (k : Nat) (f : Slice → Slice) : (s.modSlice k f).osErr = s.osErr := rfl
@[simp] theorem State.modSlice_osIndex (s : State) (k : Nat) (f : Slice → Slice) : (s.modSlice k f).osIndex = s.osIndex := rfl
@[simp] theorem State.modSlice_piaddr (s : State) (k : Nat) (f : Slice → Slice) : (s.modSlice k f).piaddr = s.piaddr := rfl
@[simp] theorem State.modSlice_piErr (s : State) (k : Nat) (f : Slice → Slice) : (s.modSlice k f).piErr = s.piErr := rfl
@[simp] theorem State.modSlice_pirErr (s : State) (k : Nat) (f : Slice → Slice) : (s.modSlice k f).pirErr = s.pirErr := rfl
@[simp] theorem State.modSlice_gates (s : State) (k : Nat) (f : Slice → Slice) : (s.modSlice k f).gates = s.gates := rfl
@[simp] theorem State.modSlice_eprin (s : State) (k : Nat) (f : Slice → Slice) : (s.modSlice k f).eprin = s.eprin := rfl
@[simp] theorem State.modSlice_chErr (s : State) (k : Nat) (f : Slice → Slice) : (s.modSlice k f).chErr = s.chErr := rfl
@[simp] theorem State.modSlice_chCmd (s : State) (k : Nat) (f : Slice → Slice) : (s.modSlice k f).chCmd = s.chCmd := rfl
@[simp] theorem State.modSlice_doe (s : State) (k : Nat) (f : Slice → Slice) : (s.modSlice k f).doe = s.doe := rfl
@[simp] theorem State.modSlice_trackers (s : State) (k : Nat) (f : Slice → Slice) : (s.modSlice k f).trackers = s.trackers := rfl
@[simp] theorem State.modSlice_nextTrk (s : State) (k : Nat) (f : Slice → Slice) : (s.modSlice k f).nextTrk = s.nextTrk := rfl
@[simp] theorem State.modSlice_sent (s : State) (k : Nat) (f : Slice → Slice) : (s.modSlice k f).sent = s.sent := rfl
@[simp] theorem State.modSlice_ports (s : State) (k : Nat) (f : Slice → Slice) : (s.modSlice k f).ports = s.ports := rfl
@[simp] theorem State.modSlice_ftype (s : State) (k : Nat) (f : Slice → Slice) : (s.modSlice k f).ftype = s.ftype := rfl
@[simp] theorem State.modSlice_fdev (s : State) (k : Nat) (f : Slice → Slice) : (s.modSlice k f).fdev = s.fdev := rfl
@[simp] theorem State.modSlice_islands (s : State) (k : Nat) (f : Slice → Slice) : (s.modSlice k f).islands = s.islands := rfl
@[simp] theorem State.modSlice_banks (s : State) (k : Nat) (f : Slice → Slice) : (s.modSlice k f).banks = s.banks := rfl
@[simp] theorem State.modSlice_traces (s : State) (k : Nat) (f : Slice → Slice) : (s.modSlice k f).traces = s.traces := rfl
@[simp] theorem State.modSlice_pf (s : State) (k : Nat) (f : Slice → Slice) : (s.modSlice k f).pf = s.pf := rfl
@[simp] theorem State.modSlice_msix (s : State) (k : Nat) (f : Slice → Slice) : (s.modSlice k f).msix = s.msix := rfl
@[simp] theorem State.modSlice_readOut (s : State) (k : Nat) (f : Slice → Slice) : (s.modSlice k f).readOut = s.readOut := rfl
@[simp] theorem State.modSlice_firmware (s : State) (k : Nat) (f : Slice → Slice) : (s.modSlice k f).firmware = s.firmware := rfl
@[simp] theorem State.modSlice_errCtr (s : State) (k : Nat) (f : Slice → Slice) : (s.modSlice k f).errCtr = s.errCtr := rfl
@[simp] theorem State.modSlice_peerFlush (s : State) (k : Nat) (f : Slice → Slice) : (s.modSlice k f).peerFlush = s.peerFlush := rfl
@[simp] theorem State.modSlice_flaws (s : State) (k : Nat) (f : Slice → Slice) : (s.modSlice k f).flaws = s.flaws := rfl
@[simp] theorem State.modSlice_found (s : State) (k : Nat) (f : Slice → Slice) : (s.modSlice k f).found = s.found := rfl
@[simp] theorem State.modSlice_booked (s : State) (k : Nat) (f : Slice → Slice) : (s.modSlice k f).booked = s.booked := rfl
@[simp] theorem State.modSlice_walks (s : State) (k : Nat) (f : Slice → Slice) : (s.modSlice k f).walks = s.walks := rfl
@[simp] theorem State.modSlice_cycles (s : State) (k : Nat) (f : Slice → Slice) : (s.modSlice k f).cycles = s.cycles := rfl

@[simp] theorem State.tickSeq_agenda (s : State) : (s.tickSeq).agenda = s.agenda := rfl
@[simp] theorem State.tickSeq_free (s : State) : (s.tickSeq).free = s.free := rfl
@[simp] theorem State.tickSeq_seq (s : State) : (s.tickSeq).seq = s.seq + 1 := rfl
@[simp] theorem State.tickSeq_gtime (s : State) : (s.tickSeq).gtime = s.gtime := rfl
@[simp] theorem State.tickSeq_cur (s : State) : (s.tickSeq).cur = s.cur := rfl
@[simp] theorem State.tickSeq_grids (s : State) : (s.tickSeq).grids = s.grids := rfl
@[simp] theorem State.tickSeq_crews (s : State) : (s.tickSeq).crews = s.crews := rfl
@[simp] theorem State.tickSeq_nextGrid (s : State) : (s.tickSeq).nextGrid = s.nextGrid := rfl
@[simp] theorem State.tickSeq_nextCrew (s : State) : (s.tickSeq).nextCrew = s.nextCrew := rfl
@[simp] theorem State.tickSeq_ops (s : State) : (s.tickSeq).ops = s.ops := rfl
@[simp] theorem State.tickSeq_nextOp (s : State) : (s.tickSeq).nextOp = s.nextOp := rfl
@[simp] theorem State.tickSeq_cores (s : State) : (s.tickSeq).cores = s.cores := rfl
@[simp] theorem State.tickSeq_ctlb (s : State) : (s.tickSeq).ctlb = s.ctlb := rfl
@[simp] theorem State.tickSeq_engines (s : State) : (s.tickSeq).engines = s.engines := rfl
@[simp] theorem State.tickSeq_slices (s : State) : (s.tickSeq).slices = s.slices := rfl
@[simp] theorem State.tickSeq_channels (s : State) : (s.tickSeq).channels = s.channels := rfl
@[simp] theorem State.tickSeq_wbufs (s : State) : (s.tickSeq).wbufs = s.wbufs := rfl
@[simp] theorem State.tickSeq_hbm (s : State) : (s.tickSeq).hbm = s.hbm := rfl
@[simp] theorem State.tickSeq_lineS (s : State) : (s.tickSeq).lineS = s.lineS := rfl
@[simp] theorem State.tickSeq_frames (s : State) : (s.tickSeq).frames = s.frames := rfl
@[simp] theorem State.tickSeq_host (s : State) : (s.tickSeq).host = s.host := rfl
@[simp] theorem State.tickSeq_store (s : State) : (s.tickSeq).store = s.store := rfl
@[simp] theorem State.tickSeq_vfs (s : State) : (s.tickSeq).vfs = s.vfs := rfl
@[simp] theorem State.tickSeq_bdCopy (s : State) : (s.tickSeq).bdCopy = s.bdCopy := rfl
@[simp] theorem State.tickSeq_batches (s : State) : (s.tickSeq).batches = s.batches := rfl
@[simp] theorem State.tickSeq_hfq (s : State) : (s.tickSeq).hfq = s.hfq := rfl
@[simp] theorem State.tickSeq_htlbi (s : State) : (s.tickSeq).htlbi = s.htlbi := rfl
@[simp] theorem State.tickSeq_fstat (s : State) : (s.tickSeq).fstat = s.fstat := rfl
@[simp] theorem State.tickSeq_rcbuf (s : State) : (s.tickSeq).rcbuf = s.rcbuf := rfl
@[simp] theorem State.tickSeq_rcstat (s : State) : (s.tickSeq).rcstat = s.rcstat := rfl
@[simp] theorem State.tickSeq_rcWanted (s : State) : (s.tickSeq).rcWanted = s.rcWanted := rfl
@[simp] theorem State.tickSeq_rcVict (s : State) : (s.tickSeq).rcVict = s.rcVict := rfl
@[simp] theorem State.tickSeq_pmove (s : State) : (s.tickSeq).pmove = s.pmove := rfl
@[simp] theorem State.tickSeq_pmstat (s : State) : (s.tickSeq).pmstat = s.pmstat := rfl
@[simp] theorem State.tickSeq_pcmd (s : State) : (s.tickSeq).pcmd = s.pcmd := rfl
@[simp] theorem State.tickSeq_poolmask (s : State) : (s.tickSeq).poolmask = s.poolmask := rfl
@[simp] theorem State.tickSeq_poolTurn (s : State) : (s.tickSeq).poolTurn = s.poolTurn := rfl
@[simp] theorem State.tickSeq_capGen (s : State) : (s.tickSeq).capGen = s.capGen := rfl
@[simp] theorem State.tickSeq_nextStamp (s : State) : (s.tickSeq).nextStamp = s.nextStamp := rfl
@[simp] theorem State.tickSeq_clusters (s : State) : (s.tickSeq).clusters = s.clusters := rfl
@[simp] theorem State.tickSeq_sliceU (s : State) : (s.tickSeq).sliceU = s.sliceU := rfl
@[simp] theorem State.tickSeq_channelU (s : State) : (s.tickSeq).channelU = s.channelU := rfl
@[simp] theorem State.tickSeq_routerU (s : State) : (s.tickSeq).routerU = s.routerU := rfl
@[simp] theorem State.tickSeq_chiplets (s : State) : (s.tickSeq).chiplets = s.chiplets := rfl
@[simp] theorem State.tickSeq_topology (s : State) : (s.tickSeq).topology = s.topology := rfl
@[simp] theorem State.tickSeq_links (s : State) : (s.tickSeq).links = s.links := rfl
@[simp] theorem State.tickSeq_manifest (s : State) : (s.tickSeq).manifest = s.manifest := rfl
@[simp] theorem State.tickSeq_bdDer (s : State) : (s.tickSeq).bdDer = s.bdDer := rfl
@[simp] theorem State.tickSeq_bdDown (s : State) : (s.tickSeq).bdDown = s.bdDown := rfl
@[simp] theorem State.tickSeq_pfReady (s : State) : (s.tickSeq).pfReady = s.pfReady := rfl
@[simp] theorem State.tickSeq_osets (s : State) : (s.tickSeq).osets = s.osets := rfl
@[simp] theorem State.tickSeq_prins (s : State) : (s.tickSeq).prins = s.prins := rfl
@[simp] theorem State.tickSeq_pbaddr (s : State) : (s.tickSeq).pbaddr = s.pbaddr := rfl
@[simp] theorem State.tickSeq_pbErr (s : State) : (s.tickSeq).pbErr = s.pbErr := rfl
@[simp] theorem State.tickSeq_osreq (s : State) : (s.tickSeq).osreq = s.osreq := rfl
@[simp] theorem State.tickSeq_osErr (s : State) : (s.tickSeq).osErr = s.osErr := rfl
@[simp] theorem State.tickSeq_osIndex (s : State) : (s.tickSeq).osIndex = s.osIndex := rfl
@[simp] theorem State.tickSeq_piaddr (s : State) : (s.tickSeq).piaddr = s.piaddr := rfl
@[simp] theorem State.tickSeq_piErr (s : State) : (s.tickSeq).piErr = s.piErr := rfl
@[simp] theorem State.tickSeq_pirErr (s : State) : (s.tickSeq).pirErr = s.pirErr := rfl
@[simp] theorem State.tickSeq_gates (s : State) : (s.tickSeq).gates = s.gates := rfl
@[simp] theorem State.tickSeq_eprin (s : State) : (s.tickSeq).eprin = s.eprin := rfl
@[simp] theorem State.tickSeq_chErr (s : State) : (s.tickSeq).chErr = s.chErr := rfl
@[simp] theorem State.tickSeq_chCmd (s : State) : (s.tickSeq).chCmd = s.chCmd := rfl
@[simp] theorem State.tickSeq_doe (s : State) : (s.tickSeq).doe = s.doe := rfl
@[simp] theorem State.tickSeq_trackers (s : State) : (s.tickSeq).trackers = s.trackers := rfl
@[simp] theorem State.tickSeq_nextTrk (s : State) : (s.tickSeq).nextTrk = s.nextTrk := rfl
@[simp] theorem State.tickSeq_sent (s : State) : (s.tickSeq).sent = s.sent := rfl
@[simp] theorem State.tickSeq_ports (s : State) : (s.tickSeq).ports = s.ports := rfl
@[simp] theorem State.tickSeq_ftype (s : State) : (s.tickSeq).ftype = s.ftype := rfl
@[simp] theorem State.tickSeq_fdev (s : State) : (s.tickSeq).fdev = s.fdev := rfl
@[simp] theorem State.tickSeq_islands (s : State) : (s.tickSeq).islands = s.islands := rfl
@[simp] theorem State.tickSeq_banks (s : State) : (s.tickSeq).banks = s.banks := rfl
@[simp] theorem State.tickSeq_traces (s : State) : (s.tickSeq).traces = s.traces := rfl
@[simp] theorem State.tickSeq_pf (s : State) : (s.tickSeq).pf = s.pf := rfl
@[simp] theorem State.tickSeq_msix (s : State) : (s.tickSeq).msix = s.msix := rfl
@[simp] theorem State.tickSeq_readOut (s : State) : (s.tickSeq).readOut = s.readOut := rfl
@[simp] theorem State.tickSeq_firmware (s : State) : (s.tickSeq).firmware = s.firmware := rfl
@[simp] theorem State.tickSeq_errCtr (s : State) : (s.tickSeq).errCtr = s.errCtr := rfl
@[simp] theorem State.tickSeq_peerFlush (s : State) : (s.tickSeq).peerFlush = s.peerFlush := rfl
@[simp] theorem State.tickSeq_flaws (s : State) : (s.tickSeq).flaws = s.flaws := rfl
@[simp] theorem State.tickSeq_found (s : State) : (s.tickSeq).found = s.found := rfl
@[simp] theorem State.tickSeq_booked (s : State) : (s.tickSeq).booked = s.booked := rfl
@[simp] theorem State.tickSeq_walks (s : State) : (s.tickSeq).walks = s.walks := rfl
@[simp] theorem State.tickSeq_cycles (s : State) : (s.tickSeq).cycles = s.cycles := rfl

@[simp] theorem Iss.put_agenda (x : Iss) (s : State) : (x.put s).agenda = s.agenda := rfl
@[simp] theorem Iss.put_free (x : Iss) (s : State) : (x.put s).free = s.free := rfl
@[simp] theorem Iss.put_seq (x : Iss) (s : State) : (x.put s).seq = s.seq := rfl
@[simp] theorem Iss.put_gtime (x : Iss) (s : State) : (x.put s).gtime = s.gtime := rfl
@[simp] theorem Iss.put_cur (x : Iss) (s : State) : (x.put s).cur = s.cur := rfl
@[simp] theorem Iss.put_grids (x : Iss) (s : State) : (x.put s).grids = s.grids := rfl
@[simp] theorem Iss.put_crews (x : Iss) (s : State) : (x.put s).crews = Map.put s.crews x.cur.crew { x.crew with groups := Map.put x.crew.groups x.cur.group x.grp } := rfl
@[simp] theorem Iss.put_nextGrid (x : Iss) (s : State) : (x.put s).nextGrid = s.nextGrid := rfl
@[simp] theorem Iss.put_nextCrew (x : Iss) (s : State) : (x.put s).nextCrew = s.nextCrew := rfl
@[simp] theorem Iss.put_ops (x : Iss) (s : State) : (x.put s).ops = s.ops := rfl
@[simp] theorem Iss.put_nextOp (x : Iss) (s : State) : (x.put s).nextOp = s.nextOp := rfl
@[simp] theorem Iss.put_cores (x : Iss) (s : State) : (x.put s).cores = s.cores := rfl
@[simp] theorem Iss.put_ctlb (x : Iss) (s : State) : (x.put s).ctlb = s.ctlb := rfl
@[simp] theorem Iss.put_engines (x : Iss) (s : State) : (x.put s).engines = s.engines := rfl
@[simp] theorem Iss.put_slices (x : Iss) (s : State) : (x.put s).slices = s.slices := rfl
@[simp] theorem Iss.put_channels (x : Iss) (s : State) : (x.put s).channels = s.channels := rfl
@[simp] theorem Iss.put_wbufs (x : Iss) (s : State) : (x.put s).wbufs = s.wbufs := rfl
@[simp] theorem Iss.put_hbm (x : Iss) (s : State) : (x.put s).hbm = s.hbm := rfl
@[simp] theorem Iss.put_lineS (x : Iss) (s : State) : (x.put s).lineS = s.lineS := rfl
@[simp] theorem Iss.put_frames (x : Iss) (s : State) : (x.put s).frames = s.frames := rfl
@[simp] theorem Iss.put_host (x : Iss) (s : State) : (x.put s).host = s.host := rfl
@[simp] theorem Iss.put_store (x : Iss) (s : State) : (x.put s).store = s.store := rfl
@[simp] theorem Iss.put_vfs (x : Iss) (s : State) : (x.put s).vfs = s.vfs := rfl
@[simp] theorem Iss.put_bdCopy (x : Iss) (s : State) : (x.put s).bdCopy = s.bdCopy := rfl
@[simp] theorem Iss.put_batches (x : Iss) (s : State) : (x.put s).batches = s.batches := rfl
@[simp] theorem Iss.put_hfq (x : Iss) (s : State) : (x.put s).hfq = s.hfq := rfl
@[simp] theorem Iss.put_htlbi (x : Iss) (s : State) : (x.put s).htlbi = s.htlbi := rfl
@[simp] theorem Iss.put_fstat (x : Iss) (s : State) : (x.put s).fstat = s.fstat := rfl
@[simp] theorem Iss.put_rcbuf (x : Iss) (s : State) : (x.put s).rcbuf = s.rcbuf := rfl
@[simp] theorem Iss.put_rcstat (x : Iss) (s : State) : (x.put s).rcstat = s.rcstat := rfl
@[simp] theorem Iss.put_rcWanted (x : Iss) (s : State) : (x.put s).rcWanted = s.rcWanted := rfl
@[simp] theorem Iss.put_rcVict (x : Iss) (s : State) : (x.put s).rcVict = s.rcVict := rfl
@[simp] theorem Iss.put_pmove (x : Iss) (s : State) : (x.put s).pmove = s.pmove := rfl
@[simp] theorem Iss.put_pmstat (x : Iss) (s : State) : (x.put s).pmstat = s.pmstat := rfl
@[simp] theorem Iss.put_pcmd (x : Iss) (s : State) : (x.put s).pcmd = s.pcmd := rfl
@[simp] theorem Iss.put_poolmask (x : Iss) (s : State) : (x.put s).poolmask = s.poolmask := rfl
@[simp] theorem Iss.put_poolTurn (x : Iss) (s : State) : (x.put s).poolTurn = s.poolTurn := rfl
@[simp] theorem Iss.put_capGen (x : Iss) (s : State) : (x.put s).capGen = s.capGen := rfl
@[simp] theorem Iss.put_nextStamp (x : Iss) (s : State) : (x.put s).nextStamp = s.nextStamp := rfl
@[simp] theorem Iss.put_clusters (x : Iss) (s : State) : (x.put s).clusters = s.clusters := rfl
@[simp] theorem Iss.put_sliceU (x : Iss) (s : State) : (x.put s).sliceU = s.sliceU := rfl
@[simp] theorem Iss.put_channelU (x : Iss) (s : State) : (x.put s).channelU = s.channelU := rfl
@[simp] theorem Iss.put_routerU (x : Iss) (s : State) : (x.put s).routerU = s.routerU := rfl
@[simp] theorem Iss.put_chiplets (x : Iss) (s : State) : (x.put s).chiplets = s.chiplets := rfl
@[simp] theorem Iss.put_topology (x : Iss) (s : State) : (x.put s).topology = s.topology := rfl
@[simp] theorem Iss.put_links (x : Iss) (s : State) : (x.put s).links = s.links := rfl
@[simp] theorem Iss.put_manifest (x : Iss) (s : State) : (x.put s).manifest = s.manifest := rfl
@[simp] theorem Iss.put_bdDer (x : Iss) (s : State) : (x.put s).bdDer = s.bdDer := rfl
@[simp] theorem Iss.put_bdDown (x : Iss) (s : State) : (x.put s).bdDown = s.bdDown := rfl
@[simp] theorem Iss.put_pfReady (x : Iss) (s : State) : (x.put s).pfReady = s.pfReady := rfl
@[simp] theorem Iss.put_osets (x : Iss) (s : State) : (x.put s).osets = s.osets := rfl
@[simp] theorem Iss.put_prins (x : Iss) (s : State) : (x.put s).prins = s.prins := rfl
@[simp] theorem Iss.put_pbaddr (x : Iss) (s : State) : (x.put s).pbaddr = s.pbaddr := rfl
@[simp] theorem Iss.put_pbErr (x : Iss) (s : State) : (x.put s).pbErr = s.pbErr := rfl
@[simp] theorem Iss.put_osreq (x : Iss) (s : State) : (x.put s).osreq = s.osreq := rfl
@[simp] theorem Iss.put_osErr (x : Iss) (s : State) : (x.put s).osErr = s.osErr := rfl
@[simp] theorem Iss.put_osIndex (x : Iss) (s : State) : (x.put s).osIndex = s.osIndex := rfl
@[simp] theorem Iss.put_piaddr (x : Iss) (s : State) : (x.put s).piaddr = s.piaddr := rfl
@[simp] theorem Iss.put_piErr (x : Iss) (s : State) : (x.put s).piErr = s.piErr := rfl
@[simp] theorem Iss.put_pirErr (x : Iss) (s : State) : (x.put s).pirErr = s.pirErr := rfl
@[simp] theorem Iss.put_gates (x : Iss) (s : State) : (x.put s).gates = s.gates := rfl
@[simp] theorem Iss.put_eprin (x : Iss) (s : State) : (x.put s).eprin = s.eprin := rfl
@[simp] theorem Iss.put_chErr (x : Iss) (s : State) : (x.put s).chErr = s.chErr := rfl
@[simp] theorem Iss.put_chCmd (x : Iss) (s : State) : (x.put s).chCmd = s.chCmd := rfl
@[simp] theorem Iss.put_doe (x : Iss) (s : State) : (x.put s).doe = s.doe := rfl
@[simp] theorem Iss.put_trackers (x : Iss) (s : State) : (x.put s).trackers = s.trackers := rfl
@[simp] theorem Iss.put_nextTrk (x : Iss) (s : State) : (x.put s).nextTrk = s.nextTrk := rfl
@[simp] theorem Iss.put_sent (x : Iss) (s : State) : (x.put s).sent = s.sent := rfl
@[simp] theorem Iss.put_ports (x : Iss) (s : State) : (x.put s).ports = s.ports := rfl
@[simp] theorem Iss.put_ftype (x : Iss) (s : State) : (x.put s).ftype = s.ftype := rfl
@[simp] theorem Iss.put_fdev (x : Iss) (s : State) : (x.put s).fdev = s.fdev := rfl
@[simp] theorem Iss.put_islands (x : Iss) (s : State) : (x.put s).islands = s.islands := rfl
@[simp] theorem Iss.put_banks (x : Iss) (s : State) : (x.put s).banks = s.banks := rfl
@[simp] theorem Iss.put_traces (x : Iss) (s : State) : (x.put s).traces = s.traces := rfl
@[simp] theorem Iss.put_pf (x : Iss) (s : State) : (x.put s).pf = s.pf := rfl
@[simp] theorem Iss.put_msix (x : Iss) (s : State) : (x.put s).msix = s.msix := rfl
@[simp] theorem Iss.put_readOut (x : Iss) (s : State) : (x.put s).readOut = s.readOut := rfl
@[simp] theorem Iss.put_firmware (x : Iss) (s : State) : (x.put s).firmware = s.firmware := rfl
@[simp] theorem Iss.put_errCtr (x : Iss) (s : State) : (x.put s).errCtr = s.errCtr := rfl
@[simp] theorem Iss.put_peerFlush (x : Iss) (s : State) : (x.put s).peerFlush = s.peerFlush := rfl
@[simp] theorem Iss.put_flaws (x : Iss) (s : State) : (x.put s).flaws = s.flaws := rfl
@[simp] theorem Iss.put_found (x : Iss) (s : State) : (x.put s).found = s.found := rfl
@[simp] theorem Iss.put_booked (x : Iss) (s : State) : (x.put s).booked = s.booked := rfl
@[simp] theorem Iss.put_walks (x : Iss) (s : State) : (x.put s).walks = s.walks := rfl
@[simp] theorem Iss.put_cycles (x : Iss) (s : State) : (x.put s).cycles = s.cycles := rfl

end Sys2Proof.Machine
end

