-- ==== Sys2Proof/Laws/Vector.lean ====
section
/-! SUPPORT. What the shared executors of the V class do, said once for any result: with a register destination (`vecBody`) and
with a predicate destination (`predBody`). -/

namespace Sys2Proof.Machine

open Host (Outcome)

/-! ## The issuing context -/

/-- What an issuing context is made of. -/
theorem issuer_inv {s : State} {g : Guard} {x : Iss} (h : issuer s g = some x) :
    s.cur = some x.cur ∧ Map.find? s.crews x.cur.crew = some x.crew ∧ Map.find? x.crew.groups x.cur.group = some x.grp ∧
    Map.find? s.grids x.crew.grid = some x.grid ∧ x.present = x.cur.lanes ∧
    x.active = x.present.filter fun p => guardTrue x.crew g p := by
  unfold issuer at h
  split at h
  · cases h
  · rename_i c hc
    split at h
    · cases h
    · rename_i w hw
      split at h
      · rename_i gr gd hg hd
        simp only [Option.some.injEq] at h
        subst h
        exact ⟨hc, hw, hg, hd, rfl, rfl⟩
      · cases h

theorem Issues.activeMem {s : State} {g : Guard} {x : Iss} (h : Issues s g x) {p : Nat × Nat} (hp : p ∈ x.active) :
    p ∈ x.present := by
  rw [(issuer_inv h.issuer).2.2.2.2.2] at hp
  exact (List.mem_filter.1 hp).1

/-- Threads of a group that share a lane position are one. -/
theorem Issues.lane_inj {s : State} {g : Guard} {x : Iss} (h : Issues s g x) {p q : Nat × Nat} (hp : p ∈ x.active)
    (hq : q ∈ x.active) (e : p.1 = q.1) : p = q :=
  List.inj_on_of_nodup_map h.lanes (h.activeMem hp) (h.activeMem hq) e

theorem Issues.activeNodup {s : State} {g : Guard} {x : Iss} (h : Issues s g x) : x.active.Nodup := by
  rw [(issuer_inv h.issuer).2.2.2.2.2]
  exact (List.Nodup.of_map _ h.lanes).filter _

/-- Where an instruction issues its body runs. -/
theorem issueOp_of {s : State} {g : Guard} {x : Iss} (h : issuer s g = some x) (sets : Iss → List OSet)
    (body : Iss → Except Stop State) : issueOp s g sets body =
      match body x with
      | .ok s' => .next (advance s' x.cur)
      | .error e => settle s x x.active x.cur.index (sets x) e := by
  simp only [issueOp, h] <;> cases body x <;> rfl

/-! ## After the instruction -/

/-- The cells of a context, by its regions and its home sheaves' files. -/
theorem cell_congr {x y : Iss} (hr : y.grp.regions = x.grp.regions)
    (hs : ∀ h, { y.crew.sheaf h with threads := [] } = { x.crew.sheaf h with threads := [] }) (c : Cell) : y.cell c = x.cell c := by
  cases c with
  | slot l i => simp only [Iss.cell, slotOf, regionOf, hr]
  | main h r l =>
    have : (y.crew.sheaf h).main = (x.crew.sheaf h).main := by simpa using congrArg Sheaf.main (hs h)
    simp only [Iss.cell, Sheaf.mainAt, this]
  | k h i =>
    have : (y.crew.sheaf h).k = (x.crew.sheaf h).k := by simpa using congrArg Sheaf.k (hs h)
    simp only [Iss.cell, this]
  | pred h i l =>
    have : (y.crew.sheaf h).p = (x.crew.sheaf h).p := by simpa using congrArg Sheaf.p (hs h)
    have e : (y.crew.sheaf h).pred i l = (x.crew.sheaf h).pred i l := by unfold Sheaf.pred; rw [this]
    simp only [Iss.cell, e]

/-- A state in which register writes (y for x) and sticky flags (c for y's crew) stand in place of the group's own. -/
structure Holds (s s1 : State) (x y : Iss) (c : Crew) : Prop where
  crew : ∃ gs, Map.find? s1.crews x.cur.crew = some { c with groups := gs } ∧ Map.find? gs x.cur.group = some y.grp ∧
    ∀ n, n ≠ x.cur.group → Map.find? gs n = Map.find? x.crew.groups n
  others : ∀ n, n ≠ x.cur.crew → Map.find? s1.crews n = Map.find? s.crews n
  machine : { s1 with crews := [], osets := [] } = { s with crews := [], osets := [] }
  sets : Grows s.osets s1.osets

/-- The context left once the group has moved past the instruction. -/
theorem advance_holds {s s1 : State} {g : Guard} {x y : Iss} {c : Crew} (h : Issues s g x) (hy : Touch x y)
    (hc : Flagged y.crew c) (hs : Holds s s1 x y c) :
    ∃ z, (advance s1 x.cur).context x.cur = some z ∧ Keeps s (advance s1 x.cur) x z ∧ (∀ c, z.cell c = y.cell c) ∧
      ∀ p, (z.crew.thread p).fpx = (c.thread p).fpx := by
  obtain ⟨i1, i2, i3, i4, i5, i6⟩ := issuer_inv h.issuer
  have hcur : y.cur = x.cur := hy.cur
  have hep : y.grp.episode = none := hy.episode.trans h.plain
  obtain ⟨gs, hw, hgr, hgo⟩ := hs.crew
  have ha := advance_spec s1 x.cur { c with groups := gs } y.grp hw hgr hep
  obtain ⟨w', g', a⟩ := ha
  have hmach := hs.machine
  have hoth := hs.others
  have hsets := hs.sets
  generalize advance s1 x.cur = t' at a
  have hgrid : w'.grid = x.crew.grid := by
    have h0 : w'.grid = c.grid := by simpa [Crew.sansRegs] using congrArg Crew.grid a.crew
    have h1 : c.grid = y.crew.grid := by simpa using congrArg Crew.grid hc.crew
    have h2 : y.crew.grid = x.crew.grid := by simpa using congrArg Crew.grid hy.crew
    exact h0.trans (h1.trans h2)
  have hgrids : t'.grids = s.grids := by
    have h1 : t'.grids = s1.grids := by simpa using congrArg State.grids a.machine
    have h2 : s1.grids = s.grids := by simpa using congrArg State.grids hmach
    exact h1.trans h2
  have hregs : g'.regions = y.grp.regions := by simpa using congrArg Group.regions a.group
  have hthread : ∀ p, (w'.thread p).sansPc = (c.thread p).sansPc := fun p => (a.thread p).trans rfl
  have hfile : ∀ i, { w'.sheaf i with threads := [] } = { y.crew.sheaf i with threads := [] } := fun i =>
    ((a.sheaf i).trans rfl).trans (hc.sheaf i)
  have hythread : ∀ p, y.crew.thread p = x.crew.thread p := by
    intro p
    have : (y.crew.sheaf p.2).threads = (x.crew.sheaf p.2).threads := by
      simpa [Sheaf.sansFile] using congrArg Sheaf.threads (hy.sheaf p.2)
    simp only [Crew.thread, this]
  refine ⟨{ cur := x.cur, crew := w', grp := g', grid := x.grid, present := x.cur.lanes,
            active := x.cur.lanes.filter fun p => guardTrue w' gAlways p }, ?_, ⟨?_, ?_, ?_, ?_, ?_, ?_, ?_, ?_, ?_, rfl, ?_⟩, ?_, ?_⟩
  · simp only [State.context, issuer, a.crews, a.groups, hgrids, hgrid, i4]
  · have h1 := congrArg State.sansCrews a.machine
    have h2 := congrArg State.sansCrews hmach
    exact h1.trans h2
  · exact fun n hn => (a.otherCrews n hn).trans (hoth n hn)
  · exact fun n hn => (a.otherGroups n hn).trans (hgo n hn)
  · have h1 := a.crew
    have h2 := congrArg Crew.sansRegs hc.crew
    have h3 := congrArg Crew.sansRegs hy.crew
    exact h1.trans (h2.trans h3)
  · exact a.count.trans (hc.count.trans hy.count)
  · intro i
    have h1 := congrArg Sheaf.sansRegs (hfile i)
    have h2 := congrArg Sheaf.sansRegs (hy.sheaf i)
    exact h1.trans h2
  · have h1 := congrArg (fun q : Group => { q with regions := q.regions.map Region.sansSlots, wHash := 0 }) a.group
    have h2 := congrArg (fun q : Group => { q with active := none, fetched := none, wait := .none }) hy.grp
    have h3 := hy.regions
    simp only [Group.sansSlots]
    simp only at h1 h2
    rw [h3] at h1
    exact h1.trans (by
      have := congrArg (fun q : Group => { q with regions := x.grp.regions.map Region.sansSlots }) h2
      exact this)
  · intro p
    have h1 := congrArg (fun q : Thread => { q with fpx := 0, fpxS := 0 }) (hthread p)
    have h2 := congrArg (fun q : Thread => { q with clause := 0, index := 0, reached := 0 }) (hc.thread p)
    rw [hythread p] at h2
    exact h1.trans h2
  · intro p hp
    have h1 := a.other p fun b hb q => hp (by
      have hact : x.grp.active = some b := by
        have : y.grp.active = x.grp.active := by simpa using congrArg Group.active hy.grp
        rw [← this, hb]
      have hmem : y.grp.members = x.grp.members := by simpa using congrArg Group.members hy.grp
      simp only [Iss.stepping, hact]
      simpa only [Group.homeAt, hmem] using q)
    have h2 := hc.thread p
    rw [hythread p] at h2
    simp only
    rw [h1]
    have h3 : (c.thread p).clause = (x.crew.thread p).clause := by simpa using congrArg Thread.clause h2
    have h4 : (c.thread p).index = (x.crew.thread p).index := by simpa using congrArg Thread.index h2
    exact ⟨h3, h4⟩
  · intro i e he
    have : t'.osets = s1.osets := by simpa using congrArg State.osets a.machine
    rw [this]
    exact hsets i e he
  · exact fun q => cell_congr (x := y) hregs hfile q
  · intro p
    have := congrArg Thread.fpx (hthread p)
    simpa [Thread.sansPc] using this

/-- The writes put into the state. -/
theorem holds_put {s : State} {x y : Iss} {c : Crew} {t : Map OEntry} (hy : Touch x y)
    (hc : Flagged y.crew c) (hg : Grows s.osets t) : Holds s ((y.onCrew c).put { s with osets := t }) x y c := by
  have hcur : y.cur = x.cur := hy.cur
  have hcg : c.groups = x.crew.groups := by
    have h1 : c.groups = y.crew.groups := by simpa using congrArg Crew.groups hc.crew
    have h2 : y.crew.groups = x.crew.groups := by simpa using congrArg Crew.groups hy.crew
    exact h1.trans h2
  refine ⟨⟨Map.put c.groups x.cur.group y.grp, ?_, Map.find?_put_self _ _ _, fun n hn => ?_⟩, fun n hn => ?_, rfl, hg⟩
  · simp only [Iss.put, Iss.onCrew, hcur, Map.find?_put_self]
  · rw [Map.find?_put_other _ _ _ _ hn, hcg]
  · simp only [Iss.put, Iss.onCrew, hcur]
    rw [Map.find?_put_other _ _ _ _ hn]

/-- No write at all. -/
theorem holds_refl {s : State} {g : Guard} {x : Iss} (h : Issues s g x) : Holds s s x x x.crew := by
  obtain ⟨_, i2, i3, _⟩ := issuer_inv h.issuer
  exact ⟨⟨x.crew.groups, i2, i3, fun _ _ => rfl⟩, fun _ _ => rfl, rfl, Grows.refl _⟩

/-! ## Reading an operand's place -/

/-- The place an operand names holds what the operand reads. -/
theorem cell_regCell {x : Iss} {o : Operand} {i : Nat} {p : Nat × Nat} {c : Cell} (h : regCell x o i p = some c) :
    x.cell c = laneReg x o i p := by
  cases o with
  | w n => simp only [regCell, Option.some.injEq] at h; subst h; rfl
  | k n => simp only [regCell, Option.some.injEq] at h; subst h; rfl
  | z => cases h
  | lit w => cases h
  | v n =>
    simp only [regCell] at h
    simp only [laneReg]
    split at h <;> (simp only [Option.some.injEq] at h; subst h; rename_i e; first | rfl | (simp only [e]; rfl))

theorem Operable.check {x : Iss} {os : List (Operand × Nat)} {d : Operand} {n : Nat} (h : Operable x os d n) :
    checkOperands x x.active (os ++ [(d, n)]) = .ok () := by
  unfold checkOperands
  rw [if_pos, if_pos]
  · rw [List.all_eq_true]
    exact fun o ho => List.all_eq_true.2 fun p hp => (h.named o ho p hp).2
  · rw [List.all_eq_true]
    exact fun o ho => List.all_eq_true.2 fun p hp => (h.named o ho p hp).1

theorem Operable.allowed {x : Iss} {os : List (Operand × Nat)} {d : Operand} {n : Nat} (h : Operable x os d n) :
    xregForbidden x d x.active = false := by
  cases d with
  | v r =>
    simp only [xregForbidden, List.any_eq_false]
    intro p hp
    simp [h.writable r p rfl hp]
  | w _ => rfl
  | k _ => rfl
  | z => rfl
  | lit _ => rfl

/-- Two active threads that write one place have one result (03_registers.md R74). -/
theorem repOf_congr {s : State} {g : Guard} {x : Iss} (h : Issues s g x) {d : Operand} {j : Nat} {p q : Nat × Nat} {c : Cell}
    (hp : p ∈ x.active) (hq : q ∈ x.active) (hc : regCell x d j p = some c) (hc' : regCell x d j q = some c) :
    repOf x d p = repOf x d q := by
  cases d with
  | w n =>
    simp only [regCell, Option.some.injEq] at hc hc'
    subst hc
    simp only [Cell.slot.injEq] at hc'
    rw [h.lane_inj hp hq hc'.1.symm]
  | k n =>
    simp only [regCell, Option.some.injEq] at hc hc'
    subst hc
    simp only [Cell.k.injEq] at hc'
    simp only [repOf, hc'.1]
    cases hf : x.active.find? fun r => r.2 == p.2 with
    | some r => rfl
    | none => exact absurd (List.find?_eq_none.1 hf p hp) (by simp)
  | z => cases hc
  | lit w => cases hc
  | v n =>
    simp only [regCell] at hc hc'
    have e : p.1 = q.1 := by
      split at hc <;> split at hc' <;> simp only [Option.some.injEq] at hc hc' <;> subst hc <;>
        simp only [Cell.slot.injEq, Cell.main.injEq, reduceCtorEq] at hc'
      · exact hc'.1.symm
      · exact hc'.2.2.symm
    rw [h.lane_inj hp hq e]

/-! ## A register destination -/

/-- The V instructions with a register destination run: results `f` in the active threads' destinations and sticky flags,
nothing else changed. -/
theorem vecBody_ran {i : Instr} {s : State} {g gs : Guard} {x : Iss} {d : Operand} {n : Nat} {os : List (Operand × Nat)}
    {preds : List Nat} {mode : Bool} {sets : Iss → List OSet} {inv : Iss → Nat × Nat → Bool}
    {f : Iss → Nat × Nat → List Word × Nat} (hx : exec i s = issueOp s g sets (vecBody s d n os preds mode gs inv f))
    (h : Issues s g x) (ho : Operable x os d n) : ∃ t y, VecRan i s x d n (f x) t y := by
  by_cases hempty : x.active.isEmpty
  · have hb : vecBody s d n os preds mode gs inv f x = .ok s := by
      simp only [vecBody, hempty, if_true, idle, h.plain, Option.isSome_none, Bool.false_eq_true, if_false]
    rw [issueOp_of h.issuer, hb] at hx
    obtain ⟨z, hz, hk, hcells, hfpx⟩ := advance_holds h (Touch.refl x) (Flagged.refl _) (holds_refl h)
    have hnone : ∀ p, p ∉ x.active := fun p hp => by rw [List.isEmpty_iff.1 hempty] at hp; cases hp
    exact ⟨_, z, ⟨hx, hz, hk⟩, fun p hp => absurd hp (hnone p), fun c _ => hcells c, fun p hp => absurd hp (hnone p),
      fun p _ => hfpx p⟩
  · obtain ⟨P, hf⟩ := h.joins.fit
    obtain ⟨set, t1, hs, hp1⟩ := hf.joinAll (resultSets x x.active os preds mode gs) s.osets 0 hf.here
    obtain ⟨y, t2, hy, hp2, htouch, hit, miss⟩ := writeRegs_spec hf d n 0 x
      ((vecResults x d f).map fun r => (r.1, r.2.1)) set t1 hp1 h.plain
      (fun v hv => by
        simp only [vecResults, List.map_map, List.mem_map] at hv
        obtain ⟨p, hp, rfl⟩ := hv
        exact h.inLane p (h.activeMem hp))
      (fun v hv => by
        simp only [vecResults, List.map_map, List.mem_map] at hv
        obtain ⟨p, hp, rfl⟩ := hv
        exact h.inSheaf p (h.activeMem hp))
      (fun v hv v' hv' j c hc hc' => by
        simp only [vecResults, List.map_map, List.mem_map] at hv hv'
        obtain ⟨p, hp, rfl⟩ := hv
        obtain ⟨q, hq, rfl⟩ := hv'
        simp only [Function.comp] at hc hc' ⊢
        rw [repOf_congr h hp hq hc hc'])
    have hthreads : ∀ i, (y.crew.sheaf i).threads = (x.crew.sheaf i).threads := fun i => by
      simpa [Sheaf.sansFile] using congrArg Sheaf.threads (htouch.sheaf i)
    obtain ⟨c, t3, hc, hp3, hfl, hset, hkeep⟩ := setFpx_spec hf y ((vecResults x d f).map fun r => (r.1, r.2.2)) set hp2
      (fun v hv => by
        simp only [vecResults, List.map_map, List.mem_map] at hv
        obtain ⟨p, hp, rfl⟩ := hv
        rw [htouch.count]
        exact h.inSheaf p (h.activeMem hp))
      (fun v hv => by
        simp only [vecResults, List.map_map, List.mem_map] at hv
        obtain ⟨p, hp, rfl⟩ := hv
        rw [hthreads]
        exact h.inThread p (h.activeMem hp))
      (by
        have : ((vecResults x d f).map fun r => (r.1, r.2.2)).map (·.1) = x.active := by
          simp [vecResults, Function.comp_def]
        rw [this]
        exact h.activeNodup)
    have hb : vecBody s d n os preds mode gs inv f x = .ok ((y.onCrew c).put { s with osets := t3 }) := by
      have hw : ∀ q, vecWrite x d n (vecResults x d f) gs q set t1 = .ok (y.onCrew c, t3) := fun q => by
        simp only [vecWrite, hy, h.plain, Option.isSome_none, Bool.false_eq_true, if_false]
        exact hc
      simp only [vecBody, hempty, Bool.false_eq_true, if_false, ho.check, ho.allowed, hs, hw]
    rw [issueOp_of h.issuer, hb] at hx
    obtain ⟨z, hz, hk, hcells, hfpx⟩ := advance_holds h htouch hfl (holds_put htouch hfl (hf.grows t3 hp3))
    have hth : ∀ p, y.crew.thread p = x.crew.thread p := fun p => by simp only [Crew.thread, hthreads]
    refine ⟨_, z, ⟨hx, hz, hk⟩, fun p hp j hj c hc => ?_, fun c hc => ?_, fun p hp => ?_, fun p hp => ?_⟩
    · rw [hcells, hit (p, (f x (repOf x d p)).1) (by simp only [vecResults, List.map_map, List.mem_map]; exact ⟨p, hp, rfl⟩) j
        (Nat.zero_le _) (by omega) c hc, cell_regCell hc]
      have hr := (ho.named (d, n) (by simp) p hp).2
      simp only [readable, List.all_eq_true, List.mem_range] at hr
      obtain ⟨v, hv⟩ := Option.isSome_iff_exists.1 (hr j hj)
      rw [hv]
      rfl
    · rw [hcells]
      apply miss
      intro v hv j _ hj
      simp only [vecResults, List.map_map, List.mem_map] at hv
      obtain ⟨p, hp, rfl⟩ := hv
      exact hc p hp j (by omega)
    · rw [hfpx, hset (p, (f x (repOf x d p)).2) (by simp only [vecResults, List.map_map, List.mem_map]; exact ⟨p, hp, rfl⟩), hth]
    · rw [hfpx, hkeep p (by simpa [vecResults, Function.comp_def] using hp), hth]

/-! ## A predicate destination -/

theorem Sheaf.pred_setPred (h : Sheaf) (i l : Nat) (v : Bool) (hl : l < 32) (hi : i ≠ 7) (i' l' : Nat) :
    (h.setPred i l v).pred i' l' = if i' = i ∧ l' = l then v else h.pred i' l' := by
  simp only [Sheaf.pred, Sheaf.setPred, Map.get_put]
  by_cases hr : i' = i
  · subst hr; simp [laneGet_set _ _ _ _ _ hl, hi]
  · simp [hr]

theorem putPredSet_fit {t0 t : Map OEntry} {P : Map OEntry → Prop} (hf : Fit t0 P) (y : Iss) (h r : Nat) (s : OSet)
    (full : Bool) (ht : P t) : ∃ c t', putPredSet y.crew h r s full t = .ok (c, t') ∧ Same y (y.onCrew c) ∧ P t' := by
  unfold putPredSet
  split
  · exact ⟨_, _, rfl, same_modSheaf y h _ (fun _ => rfl) fun _ => ⟨rfl, rfl, rfl⟩, ht⟩
  · obtain ⟨u, t', hu, hp⟩ := hf.join t ((y.crew.sheaf h).predSet r) [s] ht
    have hj : osJoin t ((y.crew.sheaf h).predSet r) s = .ok (u, t') := hu
    rw [hj]
    exact ⟨_, _, rfl, same_modSheaf y h _ (fun _ => rfl) fun _ => ⟨rfl, rfl, rfl⟩, hp⟩

/-- A truth value as a word. -/
def boolWord (b : Bool) : Word := if b then 1 else 0

/-- Writing a predicate. -/
theorem writePred_spec {t0 t : Map OEntry} {P : Map OEntry → Prop} (hf : Fit t0 P) (x : Iss) (i : Nat) (hi : i ≠ 7)
    (vs : List ((Nat × Nat) × Bool)) (s : OSet) (ht : P t)
    (hs : Sound x (fun p => some (.pred p.2 i p.1)) (vs.map fun v => (v.1, boolWord v.2))) :
    ∃ y t', writePred x i vs s t = .ok (y, t') ∧
      Wrote x y (fun p => some (.pred p.2 i p.1)) (vs.map fun v => (v.1, boolWord v.2)) ∧ P t' := by
  have h1 := wrote_fold (fun x v => x.onCrew (x.crew.modSheaf v.1.2 fun h => h.setPred i v.1.1 (v.2 == 1)))
    (fun p => some (.pred p.2 i p.1)) (vs.map fun v => (v.1, boolWord v.2)) (fun x v hv hl hh => by
    obtain ⟨⟨q, b⟩, _, rfl⟩ := List.mem_map.1 hv
    refine ⟨touch_modSheaf x q.2 (fun h => h.setPred i q.1 (boolWord b == 1)) (fun _ => rfl), fun c => ?_⟩
    have hb : (boolWord b == 1) = b := by cases b <;> rfl
    simp only [hb]
    cases c with
    | slot l i => simp [Iss.cell, Iss.onCrew]
    | k j r =>
      have := Crew.sheaf_modSheaf_prop x.crew q.2 j (fun h => h.setPred i q.1 b) (fun z => z.k) fun _ => rfl
      simp [Iss.cell, Iss.onCrew, this]
    | main j r l =>
      have := Crew.sheaf_modSheaf_prop x.crew q.2 j (fun h => h.setPred i q.1 b) (fun z => z.mainAt r l) fun _ => rfl
      simp [Iss.cell, Iss.onCrew, this]
    | pred j r l =>
      simp only [Iss.cell, Iss.onCrew, Crew.sheaf_modSheaf _ _ _ _ hh]
      by_cases hj : j = q.2
      · subst hj
        simp only [if_true, Sheaf.pred_setPred _ _ _ _ hl hi, Option.some.injEq, Cell.pred.injEq, true_and, Option.map_some]
        by_cases hq : i = r ∧ q.1 = l
        · obtain ⟨rfl, rfl⟩ := hq
          simp [boolWord]
        · have hq' : ¬(r = i ∧ l = q.1) := fun k => hq ⟨k.1.symm, k.2.symm⟩
          simp only [hq, hq', if_false]
      · have hj' : ¬q.2 = j := fun e => hj e.symm
        simp [hj, hj']) x hs
  rw [onCrew_fold (fun c v => c.modSheaf v.1.2 fun h => h.setPred i v.1.1 (v.2 == 1)), List.foldl_map] at h1
  have hb : ∀ b : Bool, (boolWord b == 1) = b := fun b => by cases b <;> rfl
  simp only [hb] at h1
  unfold writePred
  simp only
  generalize vs.foldl (fun c v => c.modSheaf v.1.2 fun h => h.setPred i v.1.1 v.2) x.crew = c at h1
  obtain ⟨c', t', h2, h3, hp⟩ := same_foldE (P := P) (x.onCrew c) (homesOf (vs.map (·.1)))
    (fun a h => putPredSet a.1 h i s (allLanes (vs.map (·.1)) h) a.2)
    (fun y u h hu => putPredSet_fit hf y h i s (allLanes (vs.map (·.1)) h) hu) ht
  have h2' : foldE (fun (a : Crew × Map OEntry) h => putPredSet a.1 h i s (allLanes (vs.map (·.1)) h) a.2) (c, t)
      (homesOf (vs.map (·.1))) = .ok (c', t') := h2
  simp only [h2']
  refine ⟨_, t', rfl, (h1.same h3).same ?_, hp⟩
  have := same_noteWrites ((x.onCrew c).onCrew c') (vs.map fun v => boolWord v.2)
  rw [List.foldl_map] at this
  exact this

/-- The V instructions with a predicate destination run: truth `f` in the active threads' predicate, nothing else changed. -/
theorem predBody_ran {i : Instr} {s : State} {g gs : Guard} {x : Iss} {d : Nat} {os : List (Operand × Nat)}
    {preds : List Nat} {sets : Iss → List OSet} {inv f : Iss → Nat × Nat → Bool}
    (hx : exec i s = issueOp s g sets (predBody s d os preds gs inv f)) (hd : d ≠ 7) (h : Issues s g x)
    (ho : Operable x os .z 0) : ∃ t y, PredRan i s x d (f x) t y := by
  by_cases hempty : x.active.isEmpty
  · have hb : predBody s d os preds gs inv f x = .ok s := by
      simp only [predBody, hempty, if_true, h.plain, Option.isSome_none, Bool.false_eq_true, if_false]
    rw [issueOp_of h.issuer, hb] at hx
    obtain ⟨z, hz, hk, hcells, hfpx⟩ := advance_holds h (Touch.refl x) (Flagged.refl _) (holds_refl h)
    have hnone : ∀ p, p ∉ x.active := fun p hp => by rw [List.isEmpty_iff.1 hempty] at hp; cases hp
    exact ⟨_, z, ⟨hx, hz, hk⟩, fun p hp => absurd hp (hnone p), fun c _ => hcells c, hfpx⟩
  · obtain ⟨P, hf⟩ := h.joins.fit
    obtain ⟨set, t1, hs, hp1⟩ := hf.joinAll (resultSets x x.active os preds false gs) s.osets 0 hf.here
    obtain ⟨y, t2, hy, hw, hp2⟩ := writePred_spec hf x d hd (x.active.map fun p => (p, f x p)) set hp1 ⟨fun v hv => by
        simp only [List.map_map, List.mem_map] at hv
        obtain ⟨p, hp, rfl⟩ := hv
        exact h.inLane p (h.activeMem hp), fun v hv => by
        simp only [List.map_map, List.mem_map] at hv
        obtain ⟨p, hp, rfl⟩ := hv
        exact h.inSheaf p (h.activeMem hp), fun v hv v' hv' c hc hc' => by
        simp only [List.map_map, List.mem_map] at hv hv'
        obtain ⟨p, hp, rfl⟩ := hv
        obtain ⟨q, hq, rfl⟩ := hv'
        simp only [Function.comp, Option.some.injEq] at hc hc' ⊢
        subst hc
        simp only [Cell.pred.injEq] at hc'
        rw [h.lane_inj hp hq hc'.2.2.symm]⟩
    have hcheck : checkOperands x x.active os = .ok () := by
      unfold checkOperands
      rw [if_pos, if_pos]
      · rw [List.all_eq_true]
        exact fun o hm => List.all_eq_true.2 fun p hp => (ho.named o (by simp [hm]) p hp).2
      · rw [List.all_eq_true]
        exact fun o hm => List.all_eq_true.2 fun p hp => (ho.named o (by simp [hm]) p hp).1
    have hb : predBody s d os preds gs inv f x = .ok (y.put { s with osets := t2 }) := by
      simp only [predBody, hempty, Bool.false_eq_true, if_false, hcheck, hs, hy, h.plain, Option.isSome_none]
    rw [issueOp_of h.issuer, hb] at hx
    obtain ⟨z, hz, hk, hcells, hfpx⟩ := advance_holds h hw.touch (Flagged.refl _)
      (holds_put (c := y.crew) hw.touch (Flagged.refl _) (hf.grows t2 hp2))
    refine ⟨_, z, ⟨hx, hz, hk⟩, fun p hp => ?_, fun c hc => ?_, fun p => ?_⟩
    · have h1 := hw.hit (p, boolWord (f x p)) (by simp only [List.map_map, List.mem_map]; exact ⟨p, hp, rfl⟩) _ rfl
      have h2 := (hcells (.pred p.2 d p.1)).trans h1
      simp only [Iss.cell, Option.map_some, Option.some.injEq] at h2
      cases hv : (z.crew.sheaf p.2).pred d p.1 <;> cases hw : f x p <;> rw [hv, hw] at h2 <;> first | rfl | exact absurd h2 (by decide)
    · rw [hcells]
      apply hw.miss
      intro v hv q
      simp only [List.map_map, List.mem_map] at hv
      obtain ⟨p, hp, rfl⟩ := hv
      simp only [Option.some.injEq] at q
      exact hc p hp q.symm
    · have hthreads : (y.crew.sheaf p.2).threads = (x.crew.sheaf p.2).threads := by
        simpa [Sheaf.sansFile] using congrArg Sheaf.threads (hw.touch.sheaf p.2)
      rw [hfpx]
      simp only [Crew.thread, hthreads]

end Sys2Proof.Machine
end

