-- ==== Sys2Proof/Tests/Slice0.lean ====
section
/-! SUPPORT. Tests: terms that are not well formed, words written out from the spec's tables, small steps, and for each statement of
Certificates/Slice0/Obligations.lean a state and operands that meet its hypotheses. -/

namespace Sys2Proof.Tests

-- One theorem at a time: a thread for each would pass the memory limit of the check.
set_option Elab.async false

open Sys2Proof.Machine Sys2Proof.Claims

/-! ## Terms that are not instructions -/

/-- Decodes a group in a role of 256 registers. -/
def read (c : Cls) (ws : List Word) : Option Instr :=
  match decodeGroup c ws 256 false with
  | .ok g => some g.instr
  | .error _ => none

/-- The cause a group raises. -/
def fate (c : Cls) (ws : List Word) : Option Cause :=
  match decodeGroup c ws 256 false with
  | .ok _ => none
  | .error e => some e.1

theorem test_wf_refuses_odd_pair : Instr.wf (.iadd64 (.w 1) (.w 2) (.w 4) gAlways) = false := by decide
theorem test_wf_refuses_literal_destination : Instr.wf (.iadd (.lit 1) (.w 2) (.w 4) gAlways) = false := by decide
theorem test_wf_refuses_wide_literal : Instr.wf (.st .b128 CacheP.none none (.lit 1) (.k 4) (.w 4) gAlways) = false := by decide
theorem test_wf_refuses_k_quad_28 : Instr.wf (.ldk .b128 CacheP.none 28 (.k 4) (.k 0) gAlways) = false := by decide
theorem test_wf_refuses_slot_beside_xreg : Instr.wf (.iadd (.w 1) (.v 40) (.w 4) gAlways) = false := by decide
theorem test_wf_refuses_lane_source_under_k : Instr.wf (.iadd (.k 1) (.w 2) (.k 4) gAlways) = false := by decide
theorem test_wf_refuses_lane_uniform_source : Instr.wf (.w2k 1 (.w 2) (.w 4) gAlways) = false := by decide
theorem test_wf_refuses_smod_on_one_source :
    Instr.wf (.frcp { SMod.none with negB := true } (.w 1) (.w 2) gAlways) = false := by decide
theorem test_wf_refuses_load_release :
    Instr.wf (.ld .b32 CacheP.none (some { sem := .rel, scope := .dev }) (.w 1) (.k 4) (.w 2) gAlways) = false := by decide
theorem test_wf_refuses_reduction_exchange : Instr.wf (.red .exchB32 none (.k 4) (.w 2) gAlways) = false := by decide
theorem test_wf_refuses_store_to_w_space : Instr.wf (.stt .W false (.w 1) (.k 4) (.w 2) gAlways) = false := by decide
theorem test_wf_refuses_window_beyond_8 : Instr.wf (.ptld 7 (.k 4) 2 gAlways) = false := by decide
theorem test_wf_refuses_event : Instr.wf (.crewDispatch) = false := by decide
theorem test_wf_accepts : Instr.wf (.iadd (.w 1) (.w 2) (.lit 4) gAlways) = true := by decide

/-! ## Words written out from the tables: Tables 7.2 to 7.11, 7.12, 7.13, 9.5, 12.5 -/

-- V: OP [31:22] 0x0C2, D w2, A w0, B literal, G p1 (Table 9.5).
theorem test_decode_shfl : read .V [0x308203F2, 2] = some (.shfl .down (.w 2) (.w 0) (.lit 2) { pred := 1, neg := false }) := by decide
-- V: OP 0x0CC, D the pair w4:w5, A w0, B w1 (Table 9.5).
theorem test_decode_redmini : read .V [0x33040012] = some (.redminiN (.w 4) (.w 0) (.w 1) { pred := 1, neg := false }) := by decide
-- X: OP 0x100, D tile 3 (Table 12.5).
theorem test_decode_xzero : read .X [0x4003000E] = some (.xzero 3 gAlways) := by decide
-- X: XOSQ k5, a, 3 (Table 12.5).
theorem test_decode_xosq : read .X [0x40A507FE, 3] = some (.xosq 5 .A (.lit 3) gAlways) := by decide
-- S: EXIT (Table 7.13).
theorem test_decode_exit : read .S [0x0040000E] = some (.exit gAlways) := by decide
-- C: OP 0x001 CPYG, A k4.
theorem test_decode_cpyg : read .C [0b0000000001_000000_100100_000000_1110#32] = some (.cpyg CacheP.none (.k 4) gAlways) := by decide
-- M: OP 0x004 LD.B32, D w3, A k4, B w2 (Table 7.13).
theorem test_decode_ld : read .M [0b0000000100_000011_100100_000010_1110#32] =
    some (.ld .b32 CacheP.none none (.w 3) (.k 4) (.w 2) gAlways) := by decide
-- The same bits under two classes (Table 7.12).
theorem test_decode_class : read .V [0x0000070E] = some (.iadd (.w 0) (.w 1) (.k 16) gAlways) ∧ fate .X [0x0000070E] = some .matrixFormat := by
  decide
-- A field that the instruction does not use is not 0 (Table 7.6 row 10).
theorem test_decode_unused_field : fate .S [0x0041000E] = some .illResvField := by decide
-- A literal beyond the clause (row 13), and a prefix that ends it (row 6).
theorem test_decode_literal_missing : fate .V [0x000107FE] = some .illLiteral := by decide
theorem test_decode_prefix_last : fate .V [0xFE400010] = some .illPrefix := by decide
-- An odd pair (row 12): IADD64 w1.
theorem test_decode_odd_pair : fate .V [0b0000001010_000001_000010_000100_1110#32] = some .illAlignReg := by decide
theorem test_encode_iadd : encode (.iadd (.w 1) (.w 1) (.lit 1) gAlways) = [0x000107FE, 1] := by decide
theorem test_table_word : decodeTableWord 32 0x000107FE = some (.iadd (.w 1) (.w 1) (.lit 0) gAlways) := by decide

/-! ## A group of 32 threads before an instruction -/

/-- The state in which exec runs the first instruction of a clause. -/
def before (hdr : Word) (ws : List Word) : State :=
  match pick (putLoaded State.reset hdr ws) with
  | .run _ t => t
  | _ => State.reset

/-- What Issues asks of a context, but for joins. -/
def issuesB (x : Iss) : Bool :=
  x.grp.episode.isNone && decide (lanesIn x.present).Nodup && x.present.all (fun p => decide (p.1 < 32)) &&
    x.present.all (fun p => decide (p.2 < x.crew.sheaves.length)) &&
    x.present.all fun p => decide (p.1 < (x.crew.sheaf p.2).threads.length)

theorem issues_of {s : State} {g : Guard} {x : Iss} (h : issuer s g = some x) (hb : issuesB x = true)
    (hj : s.osets = State.reset.osets) : Issues s g x := by
  simp only [issuesB, Bool.and_eq_true, List.all_eq_true, decide_eq_true_eq, Option.isNone_iff_eq_none] at hb
  obtain ⟨⟨⟨⟨h1, h2⟩, h3⟩, h4⟩, h5⟩ := hb
  exact ⟨h, h1, h2, h3, h4, h5, hj ▸ joinsFit_empty⟩

/-- What Operable asks of a context. -/
def operableB (x : Iss) (os : List (Operand × Nat)) (d : Operand) (n : Nat) : Bool :=
  ((os ++ [(d, n)]).all fun o => x.active.all fun p => inBudget x o.1 o.2 p && readable x o.1 o.2 p) &&
    match d with
    | .v _ => x.active.all fun p => !inRestartable x.grp p.1
    | _ => true

theorem operable_of {x : Iss} {os : List (Operand × Nat)} {d : Operand} {n : Nat} (h : operableB x os d n = true) :
    Operable x os d n := by
  simp only [operableB, Bool.and_eq_true, List.all_eq_true] at h
  refine ⟨fun o ho p hp => h.1 o ho p hp, fun r p hd hp => ?_⟩
  subst hd
  have := List.all_eq_true.mp h.2 p hp
  simpa using this

/-- There is an answer, and it has a property. -/
def okB {ε α : Type} (e : Except ε α) (p : α → Bool) : Bool :=
  match e with
  | .ok r => p r
  | .error _ => false

/-- There is a value, and it has a property. -/
def someB {α : Type} (o : Option α) (p : α → Bool) : Bool :=
  match o with
  | some r => p r
  | none => false

theorem ok_of {ε α : Type} {e : Except ε α} {p : α → Bool} (h : okB e p = true) : ∃ r, e = .ok r ∧ p r = true := by
  cases e with
  | ok r => exact ⟨r, rfl, h⟩
  | error _ => cases h

theorem some_of {α : Type} {o : Option α} {p : α → Bool} (h : someB o p = true) : ∃ r, o = some r ∧ p r = true := by
  cases o with
  | some r => exact ⟨r, rfl, h⟩
  | none => cases h

/-- 32 threads of one home sheaf at a V clause of one word. -/
def vState : State := before (loadHeader .V 1) [0x0001082E]

theorem vState_issues : (issuer vState gAlways).isSome = true := by decide

/-- Their context, as every lane is active. -/
def vIss : Iss := (issuer vState gAlways).get vState_issues

theorem vIss_issues : Issues vState gAlways vIss :=
  issues_of (Option.some_get _).symm (by decide) (by decide)

/-- R215 and its like: sources w1 and w2, destination w3, every lane active. -/
theorem witness_registers : Issues vState gAlways vIss ∧ Operable vIss [(.w 1, 1), (.w 2, 1)] (.w 3) 1 ∧ vIss.active ≠ [] :=
  ⟨vIss_issues, operable_of (by decide), by decide⟩

/-! ## The same group in a grid with memory, a scratchpad, a handler, units and rings -/

/-- A ring of two units, slot 0 in a state. -/
def aRing (first n : Nat) (st : SlotSt) (holders : List Nat) : Ring :=
  { readers := 1, first := first, count := 2, filled0 := 0, free := 1, slots := [(0, { st := st, holders := holders, releases := 0 })],
    rsvCur := 0, pubCur := 0, freeCur := 0, filled := [(n, 1)], claim := [] }

/-- Units 0 to n − 1 of a space, each in its own physical place. -/
def someUnits (n : Nat) : Map TUnit := (List.range n).map fun i => (i, TUnit.init i)

/-- The bytes of a copy descriptor that are not zero: seven extents of which the first are given, and other bytes by offset. -/
def descCells (a : Nat) (es : List Nat) (bs : List (Nat × Byte)) : List (Nat × Byte) :=
  (bs ++ (List.range 7).map fun i => (0x18 + 4 * i, BitVec.ofNat 8 (es.getD i 1))).map fun (p : Nat × Byte) => (a + p.1, p.2)

/-- A scratchpad with a phase word at 0 that 32 arrivals complete, and copy descriptors: CPY
at 1024, CPYG and CPYS at 1280, CPYQ into W unit 6 at 1536, CPY into ring 0 at 1792. -/
def aScratch : Memory :=
  ((0, 32) :: descCells 1024 [4] [(0, 1), (1, 1), (2, 2), (3, 1), (8, 0), (9, 8), (16, 0), (17, 9), (0x38, 4), (0x70, 4)] ++
    descCells 1280 [4, 2] [(0, 1), (1, 1), (2, 2), (3, 2), (9, 8), (17, 9), (0x38, 4), (0x70, 4), (0xA9, 10)] ++
    descCells 1536 [32] [(0, 1), (1, 2), (2, 5), (3, 1), (4, 8), (9, 8), (17, 0xC0), (0x38, 4)] ++
    descCells 1792 [4] [(0, 1), (1, 5), (2, 2), (3, 1), (9, 8), (0x38, 4), (0x70, 4)]).foldl
    (fun m (p : Nat × Byte) => Memory.write m p.1 p.2) []

/-- Barriers with one and two arrivals to come, rings with slot 0 in each state, units, flag cf2 at 1, a deep return stack, the pair
k4:k5 at the highest clause address. -/
def richCrew (n : Nat) (c : Crew) : Crew :=
  { c with
    scratch := aScratch, barriers := [(1, Barrier.init 1), (2, Barrier.init 2), (3, { Barrier.init 2 with arrived := 1, sheaves := [0] }), (4, Barrier.init 0)],
    rings := [(0, aRing 0 n .free []), (1, aRing 2 n (.reserved n) []), (2, aRing 4 n .filled []), (3, aRing 6 n .claimed [n]),
              (8, aRing 0 n .claimed [n])],
    unitsW := someUnits 8, unitsA := someUnits 2, unitsC := someUnits 2,
    sheaves := c.sheaves.map fun h => { h with
      banks := 1, flags := [(2, 1)], k := [(4, 0xFFFFFFFC), (5, 0x01FFFFFF)],
      threads := h.threads.map fun t => { t with ret := List.replicate 15 0x1000 } } }

/-- Pages 0 and 1 at frames 2 and 3, page 2 at a peer. -/
def someExtents : List Extent :=
  [{ va := 0, pages := 2, pa := 0x20000, rights := 7, cls := 0, pcls := [0, 0], oset := 0, mixed := false, dev := 0 },
   { va := 0x20000, pages := 1, pa := 0, rights := 7, cls := 0, pcls := [0], oset := 0, mixed := false, dev := 5 }]

/-- At VA 0x1000 a clause of RGN; at VA 0x2000 a launch descriptor of one crew of one sheaf of one bank. -/
def someCode : Memory :=
  [(0x21000, 0x41), (0x21007, 0x04), (0x22001, 0x10), (0x22010, 1), (0x22014, 1), (0x22018, 1), (0x2201C, 32), (0x2201E, 1),
   (0x22020, 1), (0x22028, 1), (0x22029, 1), (0x22060, 0x40)]

/-- The partition of VF 1: slice 0, one place, room for grids. -/
def someVf : Vf := { Vf.init with state := 1, cfg := { PartCfg.init with quota := 8, slices := [0] }, placeCore := [(0, 0)], placeClu := [(0, 0)],
                                  marken := 1 }

/-- What a launch with more in its descriptor changes of a state. -/
def rich (s : State) : State :=
  { s with
    hbm := someCode, vfs := [(1, someVf)],
    grids := s.grids.map fun p => (p.1, { p.2 with extents := someExtents, desc := { p.2.desc with scratch := 4096, handler := 0x8000 } }),
    crews := s.crews.map fun p => (p.1, richCrew p.1 p.2) }

/-- The same in a restartable region of four slots. -/
def richR (s : State) : State :=
  let s := rich s
  let m : RegionMap := { base := 0, mask := 15, maskSet := 0, restartable := true, nra := false }
  { s with crews := s.crews.map fun p => (p.1,
      match (Map.find? p.2.groups 0).map fun q => openRegion p.2 { q with regions := [] } m (List.range 32) s.osets with
      | some (.ok (c, g, _)) => { c with groups := Map.put c.groups 0 g }
      | _ => p.2) }

/-- The same with threads in the trap handler. -/
def richH (s : State) : State :=
  let s := richR s
  { s with crews := s.crews.map fun p => (p.1, { p.2 with sheaves := p.2.sheaves.map fun h =>
      { h with threads := h.threads.map fun t => { t with handler := true, trapPc := 0x1000, trapRetry := 1, trapNext := (0x1000, 2) } } }) }

/-- The same with a child grid, a window of the permutation table in the scratchpad, a waiting message, a partition whose slice is on die 1. -/
def richC (s : State) : State :=
  let s := rich s
  { s with
    vfs := [(1, { someVf with cfg := { someVf.cfg with slices := [128] } })],
    crews := s.crews.map fun p => (p.1, { p.2 with
      children := [9], scratch := (List.range 31).map fun i => (64 + i, BitVec.ofNat 8 (31 - i)), sheaves := p.2.sheaves.map fun h => { h with flags := [] } }),
    cores := Map.upd s.cores 0 Core.init fun k =>
      { k with msgQ := [{ grid := 1, srcCore := 0, dstCore := 0, tag := 7, payload := [1, 2, 3, 4, 5, 6, 7, 8], set := 0, op := 90 }] } }

/-- The state in which exec runs the first instruction of a clause, after a change. -/
def beforeIn (f : State → State) : State :=
  match pick (f (putLoaded State.reset (loadHeader .M 1) [0x0103902E])) with
  | .run _ t => t
  | _ => State.reset

/-- A guard that no thread meets: p0 reads false. -/
def gNever : Guard := { pred := 0, neg := false }

/-- The group before an instruction, and its contexts. -/
def rState : State := beforeIn rich
def qState : State := beforeIn richR
def hState : State := beforeIn richH
def cState : State := beforeIn richC

theorem rState_issues : (issuer rState gAlways).isSome = true := by decide
theorem nState_issues : (issuer rState gNever).isSome = true := by decide
theorem qState_issues : (issuer qState gAlways).isSome = true := by decide
theorem hState_issues : (issuer hState gAlways).isSome = true := by decide
theorem cState_issues : (issuer cState gAlways).isSome = true := by decide

def rIss : Iss := (issuer rState gAlways).get rState_issues
def nIss : Iss := (issuer rState gNever).get nState_issues
def qIss : Iss := (issuer qState gAlways).get qState_issues
def hIss : Iss := (issuer hState gAlways).get hState_issues
def cIss : Iss := (issuer cState gAlways).get cState_issues

theorem rIss_issues : Issues rState gAlways rIss := issues_of (Option.some_get _).symm (by decide) (by decide)
theorem nIss_issues : Issues rState gNever nIss := issues_of (Option.some_get _).symm (by decide) (by decide)
theorem qIss_issues : Issues qState gAlways qIss := issues_of (Option.some_get _).symm (by decide) (by decide)
theorem hIss_issues : Issues hState gAlways hIss := issues_of (Option.some_get _).symm (by decide) (by decide)
theorem cIss_issues : Issues cState gAlways cIss := issues_of (Option.some_get _).symm (by decide) (by decide)

/-- Who issues. -/
theorem contexts : rIss.active ≠ [] ∧ qIss.active ≠ [] ∧ hIss.active ≠ [] ∧ cIss.active ≠ [] ∧ nIss.active = [] ∧
    nIss.present ≠ [] := by decide

/-- Where a commit instruction's region ends, with something true of what that leaves. -/
theorem commits_of {s : State} {g : Guard} {x : Iss} (h : Issues s g x) {P : Iss → State → Prop} [∀ z t, Decidable (P z t)]
    (he : okB (x.endRegion (lanesIn x.present) s)
      (fun r => decide (r.2.osets = State.reset.osets ∧ P (withReopen x r.1) r.2)) = true) :
    ∃ z s1, Commits s g x z s1 ∧ P z s1 := by
  obtain ⟨⟨y, s1⟩, hy, hq⟩ := ok_of he
  have hq := of_decide_eq_true hq
  exact ⟨withReopen x y, s1, ⟨h, ⟨y, hy, rfl⟩, hq.1 ▸ joinsFit_empty⟩, hq.2⟩

/-- What FlagFree asks. -/
def flagFreeB (c : Crew) (hs : List Nat) (f : Option Nat) : Bool :=
  match f with
  | some k => hs.all fun h => decide ((c.sheaf h).flag k < 63)
  | none => true

theorem flagFree_of {c : Crew} {hs : List Nat} {f : Option Nat} (h : flagFreeB c hs f = true) : FlagFree c hs f := by
  intro k hk i hi
  subst hk
  simpa using List.all_eq_true.mp h i hi

theorem joins_of {s : State} (h : decide (s.osets = State.reset.osets) = true) : JoinsFit s.osets :=
  (of_decide_eq_true h) ▸ joinsFit_empty

/-- A load's checks pass, and there is room for its misses. -/
def loadsB (s : State) (x : Iss) (sp : Space) (n : Nat) (a b : Operand) : Bool :=
  okB (osJoinAll s.osets 0 (resultSets x x.active [(a, 2), (b, 1)] [] false gAlways)) fun r =>
    okB (checkAll { s with osets := r.2 } x sp true n 1 0 none (wants x (addrAt x a b) fun _ => [])) fun q =>
      decide (q.2.osets = State.reset.osets) && !q.1.any Acc.window && flagFreeB x.crew (homesOf x.active) (flagA x.cur.hdr) &&
        okB (startMisses (touchHits q.2 x.crew.core CacheP.none q.1) x.crew.core x.grid.vf x.isH CacheP.none q.1) fun _ => true

/-- What loadsB shows. -/
theorem loads_of {s : State} {x : Iss} {sp : Space} {n : Nat} {a b : Operand} (h : loadsB s x sp n a b = true) : ∃ set tab as s1,
    osJoinAll s.osets 0 (resultSets x x.active [(a, 2), (b, 1)] [] false gAlways) = .ok (set, tab) ∧
    checkAll { s with osets := tab } x sp true n 1 0 none (wants x (addrAt x a b) fun _ => []) = .ok (as, s1) ∧
    JoinsFit s1.osets ∧ (as.any Acc.window = true → windowBusy s1 x = false) ∧
    FlagFree x.crew (homesOf x.active) (flagA x.cur.hdr) ∧
    ∃ s2, startMisses (touchHits s1 x.crew.core CacheP.none as) x.crew.core x.grid.vf x.isH CacheP.none as = .ok s2 := by
  obtain ⟨⟨set, tab⟩, h1, h⟩ := ok_of h
  obtain ⟨⟨as, s1⟩, h2, h⟩ := ok_of h
  simp only [Bool.and_eq_true, Bool.not_eq_true'] at h
  obtain ⟨⟨⟨h3, h4⟩, h5⟩, h6⟩ := h
  obtain ⟨s2, h6, -⟩ := ok_of h6
  exact ⟨set, tab, as, s1, h1, h2, joins_of h3, fun e => by simp [h4] at e, flagFree_of h5, s2, h6⟩

/-- LD, LDS and LDT of the last address that fits. -/
theorem witness_loads : Operable rIss [(.z, 2), (.lit 0x1FFF0, 1)] (.w 4) 4 ∧ loadsB rState rIss .generic 16 .z (.lit 0x1FFF0) = true ∧
    loadsB rState rIss .shared 4 .z (.lit 4092) = true ∧ loadsB rState rIss .spC 16 .z (.lit 32752) = true :=
  ⟨operable_of (by decide), by decide +kernel, by decide +kernel, by decide +kernel⟩

/-- IADD64, IADD, FMA and their like: pairs, accumulators, a k destination, a main register; a guard none meets. -/
theorem witness_registers_wide : Operable rIss [(.w 2, 2), (.w 4, 2), (.w 30, 2)] (.w 30) 2 ∧
    Operable rIss [(.v 127, 1), (.lit 3, 1)] (.k 29) 1 ∧ Operable rIss [(.k 4, 2), (.z, 1)] (.v 0) 1 ∧ Operable rIss [] .z 0 :=
  ⟨operable_of (by decide +kernel), operable_of (by decide +kernel), operable_of (by decide +kernel), operable_of (by decide +kernel)⟩

/-- W2K names lane 31, then a lane that is not there; CVTB permutes by a table in range. -/
theorem witness_uniform : rIss.active.head? = some (0, 0) ∧ (∃ q ∈ rIss.active, q.1 = (val32 rIss (.lit 31) (0, 0)).toNat) ∧
    (∀ q ∈ rIss.active, q.1 ≠ (val32 rIss (.lit 32) (0, 0)).toNat) ∧
    ∀ v j, j < 32 → Map.get rIss.crew.ptab (32 * v + j) j < 32 := by
  refine ⟨by decide +kernel, by decide +kernel, by decide +kernel, fun v j h => ?_⟩
  have : rIss.crew.ptab = [] := by decide +kernel
  simpa [this, Map.get, Map.find?] using h

/-- LDK reads each home sheaf's k4:k5, here by a literal. -/
theorem witness_uniform_load : okB (osJoinAll rState.osets 0 (resultSets rIss rIss.active [(.z, 2), (.lit 0x1000, 1)] [] false gAlways)) (fun r =>
    okB (checkAll { rState with osets := r.2 } rIss .generic true 16 1 0 none
      ((homeReps rIss).map fun p => { who := p, addr := addrAt rIss .z (.lit 0x1000) p, data := [] })) fun q =>
      flagFreeB rIss.crew (homesOf rIss.active) (flagA rIss.cur.hdr) &&
        okB (startMisses (touchHits q.2 rIss.crew.core CacheP.none q.1) rIss.crew.core rIss.grid.vf rIss.isH CacheP.none q.1) fun _ => true) =
    true := by decide +kernel

/-- A store's checks pass. -/
def storesB (s : State) (x : Iss) (sp : Space) (n dn : Nat) (a b d : Operand) : Bool :=
  okB (osJoinAll s.osets 0 (resultSets x x.active [(d, dn), (a, 2), (b, 1)] [] false gAlways)) fun r =>
    okB (checkAll { s with osets := r.2 } x sp true n 2 0 (some r.1) (wants x (addrAt x a b) (storeData x d n))) fun _ => true

/-- ST, STS and STT of the last address that fits, outside a region that restarts, and in one. -/
theorem witness_stores : Operable rIss [(.z, 2), (.lit 4092, 1), (.w 3, 1)] .z 0 ∧ storesB rState rIss .generic 16 4 .z (.lit 0x1FFF0) (.w 4) = true ∧
    storesB rState rIss .shared 4 1 .z (.lit 4092) (.w 3) = true ∧ storesB rState rIss .spA 4 1 .z (.lit 16380) (.w 3) = true ∧
    (∀ p ∈ rIss.active, inRestartable rIss.grp p.1 = false) ∧ FlagFree rIss.crew (homesOf rIss.active) (flagB rIss.cur.hdr) ∧
    Operable qIss [(.z, 2), (.lit 4092, 1), (.w 3, 1)] .z 0 ∧ storesB qState qIss .shared 4 1 .z (.lit 4092) (.w 3) = true ∧
    ∃ r, qIss.grp.regions = [r] ∧ r.map.restartable = true ∧ (∀ p ∈ qIss.active, p.1 ∈ r.lanes) ∧ r.held.length < 16 := by
  refine ⟨operable_of (by decide +kernel), by decide +kernel, by decide +kernel, by decide +kernel, by decide +kernel,
    flagFree_of (by decide +kernel), operable_of (by decide +kernel), by decide +kernel, ?_⟩
  have h : someB qIss.grp.regions.head? (fun r => decide (qIss.grp.regions = [r] ∧ r.map.restartable = true ∧
    (∀ p ∈ qIss.active, p.1 ∈ r.lanes) ∧ r.held.length < 16)) = true := by decide +kernel
  obtain ⟨r, -, hr⟩ := some_of h
  exact ⟨r, of_decide_eq_true hr⟩

/-- A read-modify-write's checks pass after its region has ended. -/
def rmwB (x z : Iss) (s1 : State) (sp : Space) (op : RmwOp) (red : Bool) (d a b : Operand) : Bool :=
  let flag := if red then flagB x.cur.hdr else flagA x.cur.hdr
  okB (osJoinAll s1.osets 0 (resultSets x x.active (rmwOps op d a b) [] false gAlways)) fun r =>
    okB (checkAll { s1 with osets := r.2 } x sp false (rmwBytes op) 3 0 (some r.1) (wants x (fun p => (val64 x a p).toNat) fun _ => [])) fun q =>
      flagFreeB z.crew (homesOf x.active) flag && okB (startMisses q.2 x.crew.core x.grid.vf x.isH CacheP.none
        (q.1.filter fun u => (rmwNeed q.2 x.crew.core .dev q.1).contains u.key)) fun _ => true

/-- ATOM, RED and ATOMS at address 0. -/
theorem witness_rmw : Operable rIss (rmwOps .addN32 (.w 3) .z (.w 2)) (.w 3) RmwOp.addN32.regs ∧ ∃ z s1, Commits rState gAlways rIss z s1 ∧
    rmwB rIss z s1 .generic .addN32 false (.w 3) .z (.w 2) = true ∧ rmwB rIss z s1 .generic .addN32 true .z .z (.w 2) = true ∧
    rmwB rIss z s1 .shared .addN32 false (.w 3) .z (.w 2) = true :=
  ⟨operable_of (by decide +kernel), commits_of rIss_issues (by decide +kernel)⟩

/-- FENCE, acquiring and releasing, at a scope within the die; CMAINT. -/
theorem witness_fence : (∃ z s1, Commits rState gAlways rIss z s1 ∧
    (match release s1 z .crew with | .inl _ => true | .inr _ => false) = true ∧
    threadLoadsDue s1 z.cur.crew s1.seq z.present = false) ∧ FlagFree rIss.crew (homesOf rIss.present) (flagB rIss.cur.hdr) :=
  ⟨commits_of rIss_issues (by decide +kernel), flagFree_of (by decide +kernel)⟩

/-- What PhaseWords asks of address 0 in every lane. -/
theorem phaseWords_of {s1 : State} {z : Iss} (h : ((∀ p ∈ rIss.active, addrAt rIss .z .z p + 4 ≤ rIss.grid.desc.scratch ∧ addrAt rIss .z .z p < 2 ^ 20) ∧
    ∀ p ∈ rIss.active, addrAt rIss .z .z p % 4 = 0) ∧ (∀ w ∈ [true, false], owned s1 (dieOf z.crew.core) s1.seq w
      ((wants rIss (addrAt rIss .z .z) fun _ => []).flatMap fun q => accLocs s1 z.cur.crew (crewAcc .shared 4 q)) = false) ∧
    threadLoadsDue s1 z.cur.crew s1.seq z.present = false) : PhaseWords s1 rIss z .z .z :=
  ⟨h.1.1, h.1.2, fun w => h.2.1 w (by cases w <;> simp), h.2.2⟩

/-- BARPA: 32 arrivals at a word of 32; BARPW: lanes that stay, and lanes that go. -/
theorem witness_phase : Operable rIss [(.z, 2), (.z, 1)] (.w 3) 1 ∧ (∀ q, rIss.grp.wait ≠ .barpw q) ∧ ∃ z s1, Commits rState gAlways rIss z s1 ∧
    PhaseWords s1 rIss z .z .z ∧ Memory.wf z.crew.scratch = true ∧ coreStoresDue s1 z.crew.core s1.seq z.cur.crew (homesOf z.present) = false ∧
    someB (phaseRun (scratchWord z.crew) (rIss.active.map (addrAt rIss .z .z))) (fun _ => true) = true ∧
    FlagFree z.crew (homesOf rIss.active) (flagA rIss.cur.hdr) ∧ threadStoresDue s1 z.cur.crew s1.seq z.present = false ∧
    (∀ p ∈ rIss.active, ((scratchWord z.crew (addrAt rIss .z .z p)).msb == (val32 rIss .z p).getLsbD 0) = true) ∧
    ∀ p ∈ rIss.active, ((scratchWord z.crew (addrAt rIss .z .z p)).msb == (val32 rIss (.lit 1) p).getLsbD 0) = false := by
  refine ⟨operable_of (by decide +kernel), fun q h => ?_, ?_⟩
  · have e : rIss.grp.wait = .none := by decide +kernel
    rw [e] at h; cases h
  · obtain ⟨z, s1, hc, h1, h2, h3, h4, h5, h6, h7, h8⟩ := commits_of rIss_issues (P := fun z s1 =>
      (((∀ p ∈ rIss.active, addrAt rIss .z .z p + 4 ≤ rIss.grid.desc.scratch ∧ addrAt rIss .z .z p < 2 ^ 20) ∧
        ∀ p ∈ rIss.active, addrAt rIss .z .z p % 4 = 0) ∧ (∀ w ∈ [true, false], owned s1 (dieOf z.crew.core) s1.seq w
          ((wants rIss (addrAt rIss .z .z) fun _ => []).flatMap fun q => accLocs s1 z.cur.crew (crewAcc .shared 4 q)) = false) ∧
        threadLoadsDue s1 z.cur.crew s1.seq z.present = false) ∧ Memory.wf z.crew.scratch = true ∧
      coreStoresDue s1 z.crew.core s1.seq z.cur.crew (homesOf z.present) = false ∧
      someB (phaseRun (scratchWord z.crew) (rIss.active.map (addrAt rIss .z .z))) (fun _ => true) = true ∧
      flagFreeB z.crew (homesOf rIss.active) (flagA rIss.cur.hdr) = true ∧ threadStoresDue s1 z.cur.crew s1.seq z.present = false ∧
      (∀ p ∈ rIss.active, ((scratchWord z.crew (addrAt rIss .z .z p)).msb == (val32 rIss .z p).getLsbD 0) = true) ∧
      ∀ p ∈ rIss.active, ((scratchWord z.crew (addrAt rIss .z .z p)).msb == (val32 rIss (.lit 1) p).getLsbD 0) = false) (by decide +kernel)
    exact ⟨z, s1, hc, phaseWords_of h1, h2, h3, h4, flagFree_of h5, h6, h7, h8⟩

/-- BARPW that waits for no lane any more. -/
def passed : State :=
  { rState with crews := rState.crews.map fun p => (p.1, { p.2 with groups := p.2.groups.map fun q => (q.1, { q.2 with wait := .barpw [] }) }) }
theorem passed_issues : (issuer passed gAlways).isSome = true := by decide
def pIss : Iss := (issuer passed gAlways).get passed_issues
theorem witness_phase_over : (∃ z s1, Commits passed gAlways pIss z s1 ∧ pIss.active ≠ []) ∧ Operable pIss [(.z, 1), (.z, 2), (.z, 1)] .z 0 ∧
    pIss.grp.wait = .barpw [] :=
  ⟨commits_of (issues_of (Option.some_get _).symm (by decide) (by decide)) (by decide +kernel), operable_of (by decide +kernel), by decide +kernel⟩

/-- R8: a group without an active lane, its flags' counts below 63. -/
theorem witness_no_lane : nIss.active = [] ∧ FlagFree nIss.crew (homesOf nIss.present) (flagA nIss.cur.hdr) ∧
    FlagFree nIss.crew (homesOf nIss.present) (flagB nIss.cur.hdr) ∧ ∃ z s1, Commits rState gNever nIss z s1 ∧
      flagFreeB z.crew (homesOf nIss.present) (flagA nIss.cur.hdr) = true ∧ flagFreeB z.crew (homesOf nIss.present) (flagB nIss.cur.hdr) = true :=
  ⟨by decide +kernel, flagFree_of (by decide +kernel), flagFree_of (by decide +kernel), commits_of nIss_issues (by decide +kernel)⟩

/-- Table 4.9 has a value of each function at ±0 and ±∞ and for a NaN, and of three at −1.0; the square root's least value. -/
theorem witness_special : (∀ r ∈ specialForms, ∀ n ∈ [0, 0x80000000, 0x7F800000, 0xFF800000, 0x7F800001],
      r.2.2 (f32 (BitVec.ofNat 32 n)) = some (r.2.1 (BitVec.ofNat 32 n))) ∧
    (∀ r ∈ specialForms, ∀ v ∈ (r.2.2 (f32 0xBF800000)).toList, r.2.1 0xBF800000 = v) ∧ f32 1 = .fin false 1 (-149) := by decide +kernel

/-- MARK of a point that is not enabled. -/
theorem witness_mark : markEnabled rState rIss.grid.vf rIss.grid.vf 5 = false ∧ markEnabled rState rIss.grid.vf 0 5 = false ∧ rIss.active ≠ [] ∧
    rIss.grid.vf ≠ 0 := by decide +kernel

/-- R271: words with none, several and one arrival pending. -/
theorem witness_phase_word : (0x00050000#32).toNat % 65536 = 0 ∧ 1 < (0x00050002#32).toNat % 65536 ∧ (0x00050001#32).toNat % 65536 = 1 := by
  decide

/-- XMMA of quarters 0 and 1 of A slot 0, W slot 6 claimed, tile 1; XZERO and XREQ of the same tile; XOSQ. -/
theorem witness_matrix : xmmaHolds rIss 0 6 1 = true ∧ engineRoom (rState.engine (clusterOf rIss.crew.core)) rIss.isH (activeQuarters rIss).length = true ∧
    (∀ f, flagA rIss.cur.hdr = some f → ∀ h, h < 2 → (rIss.crew.sheaf h).flag f + 4 ≤ 63) ∧ Map.has rIss.crew.unitsC 1 = true ∧
    (∀ q ∈ (activeQuarters rIss).map fun q => (0 + q) % 128, Map.has rIss.crew.unitsA (q / 4) = true) ∧ lowActive rIss = some (0, 0) ∧
    okB (osJoinAll rState.osets 0 (resultSets rIss rIss.active [] [] false gAlways ++
      [(rIss.crew.thread (0, 0)).rmodeS, (rIss.crew.thread (0, 0)).ptselS])) (fun r =>
      okB (splitTile rIss { rState with osets := r.2 }) fun q => flagFreeB q.1.crew (homesOf rIss.active) (flagA rIss.cur.hdr)) = true ∧
    owned rState (dieOf rIss.crew.core) rState.seq false (unitLocs rState rIss.cur.crew .C 1) = false := by
  refine ⟨by decide +kernel, by decide +kernel, fun f hf h hh => ?_, by decide +kernel, by decide +kernel, by decide +kernel, by decide +kernel,
    by decide +kernel⟩
  have e : flagA rIss.cur.hdr = some 0 := by decide +kernel
  rw [e] at hf; cases hf
  have : ∀ h, h < 2 → (rIss.crew.sheaf h).flag 0 + 4 ≤ 63 := by decide +kernel
  exact this h hh

/-- A copy's descriptor passes every check. -/
def copyB (x z : Iss) (s1 : State) (form off : Nat) : Bool :=
  let bs := (List.range 192).map fun k => sharedByte z.crew (off + k)
  let d := CDesc.read bs
  let idx := indexList z.crew d form
  let flag := if 2 ≤ d.ds then flagA x.cur.hdr else flagB x.cur.hdr
  decide (off % 64 = 0 ∧ off + 192 ≤ x.grid.desc.scratch ∧ threadStoresDue s1 z.cur.crew s1.seq z.present = false ∧
    threadLoadsDue s1 z.cur.crew s1.seq z.present = false ∧ 1 ≤ d.n ∧ d.n ≤ 7 ∧ descOk d form = true ∧
    listCause x d form = none ∧ readsOwned s1 z (copyReads d form off) = false ∧
    rangeCause s1 x d form idx = none ∧ (2 ≤ d.ds → flag.isSome = true) ∧ copiesOf s1 x.crew.core < 64) &&
  flagFreeB z.crew (homesOf x.active) flag &&
  (d.ds != 5 || !bitOf d.flags 1 && someB (Map.find? z.crew.rings d.ring) fun r => (r.reserve x.cur.crew).isSome)

/-- CPY, CPYG, CPYS, CPYQ, and CPY into a ring. -/
theorem witness_copies : lowActive rIss = some (0, 0) ∧ ∃ z s1, Commits rState gAlways rIss z s1 ∧ copyB rIss z s1 0 1024 = true ∧
    copyB rIss z s1 1 1280 = true ∧ copyB rIss z s1 2 1280 = true ∧ copyB rIss z s1 3 1536 = true ∧ copyB rIss z s1 0 1792 = true :=
  ⟨by decide +kernel, commits_of rIss_issues (by decide +kernel)⟩

/-- RRES of ring 0, RCLM and RCTR of ring 2, RPUB of ring 1, RREL of ring 3. -/
theorem witness_rings : ∃ z s1, Commits rState gAlways rIss z s1 ∧ threadLoadsDue s1 z.cur.crew s1.seq z.present = false ∧
    someB (Map.find? z.crew.rings 0) (fun r => r.free != 0) = true ∧
    someB (Map.find? z.crew.rings 2) (fun r => (r.take rIss.cur.crew).isSome) = true ∧
    someB (Map.find? z.crew.rings 1) (fun r => r.first == 2 && r.count == 2 && (r.slot 0).st == .reserved rIss.cur.crew) = true ∧
    someB (Map.find? z.crew.rings 3) (fun r => (r.slot 0).st == .claimed && (r.slot 0).holders.contains rIss.cur.crew) = true ∧
    (val32 rIss (.lit 2) (0, 0)).toNat = 2 ∧ unitBusy s1 rIss.cur.crew (ringSpace 3) 6 = false ∧
    (match release s1 z .core with | .inl _ => true | .inr _ => false) = true :=
  commits_of rIss_issues (by decide +kernel)

/-- MSGP with no message waiting, and with one that fits; MSGS to the partition's core 0; MSGC of no receive. -/
theorem witness_messages : (∃ z s1, Commits rState gAlways rIss z s1 ∧ (∀ m ∈ (s1.core rIss.crew.core).msgQ, m.fits rIss.crew.grid 0xFFFFFFFF 256 = false) ∧
      (s1.core rIss.crew.core).recvs.length < 64 ∧ flagFreeB z.crew (homesOf rIss.active) (flagB rIss.cur.hdr) = true ∧
      (3832 % 8 = 0 ∧ 3832 + 8 + 256 ≤ rIss.grid.desc.scratch) ∧ coreOfPlace s1 rIss.grid.vf 0 = some 0 ∧
      okB (checkSharedRange rIss.crew rIss.grid.desc.scratch 3840 256) (fun _ => true) = true ∧
      (match release s1 z .dev with
        | .inl t => decide (t.osets = State.reset.osets) && !owned t (dieOf z.crew.core) t.seq false
            ((List.range 256).map fun k => crewLoc t z.cur.crew .shared (3840 + k))
        | .inr _ => false) = true ∧
      Map.wf s1.ops = true) ∧
    ∃ z s1, Commits cState gAlways cIss z s1 ∧ someB ((s1.core cIss.crew.core).msgQ.find? fun m => m.fits cIss.crew.grid 0xFFFFFFFF 8) (fun _ => true) = true ∧
      flagFreeB z.crew (homesOf cIss.active) (flagB cIss.cur.hdr) = true ∧
      Memory.wf z.crew.scratch = true :=
  ⟨commits_of rIss_issues (by decide +kernel), commits_of cIss_issues (by decide +kernel)⟩

/-- PTLD of one window into place 7. -/
theorem witness_table : ∃ z s1, Commits cState gAlways cIss z s1 ∧ 7 + (1 : Fin 64).val ≤ 8 ∧
    okB (checkSharedRange cIss.crew cIss.grid.desc.scratch 64 32) (fun _ => true) = true ∧
    owned s1 (dieOf z.crew.core) s1.seq false ((List.range 32).map fun k => crewLoc s1 z.cur.crew .shared (64 + k)) = false ∧
    windowsOk ((List.range 32).map fun k => sharedByte z.crew (64 + k)) 1 = true :=
  commits_of cIss_issues (by decide +kernel)

/-- WAITF met at its threshold, and not met. -/
theorem witness_waits : rIss.crew.posted = [] ∧ (∀ p ∈ rIss.present, (rIss.crew.sheaf p.2).flag 2 ≤ 1) ∧
    ∃ p ∈ rIss.present, 0 < (rIss.crew.sheaf p.2).flag 2 := by decide +kernel

/-- BRX to the last clause address; BRAU's lead lane. -/
theorem witness_branches : Operable rIss [(.k 4, 2)] .z 0 ∧ (∀ p ∈ rIss.active, (val64 rIss (.k 4) p).toNat = 2 ^ 57 - 4) ∧
    (branchTarget rIss (-4096)).toNat < 2 ^ 57 ∧ (0, 0) ∈ rIss.present ∧ ∀ p ∈ rIss.present, 0 ≤ p.1 := ⟨operable_of (by decide +kernel), by decide +kernel, by decide +kernel, by decide +kernel, by decide +kernel⟩

/-- CALL with room for one return address more; RET to the clause of RGN at 0x1000; EXIT. -/
theorem witness_calls : okB (endOutside rIss rState) (fun r => decide (r.2.osets = State.reset.osets)) = true ∧
    (∀ p ∈ rIss.active, (rIss.crew.thread p).ret.length = 15) ∧
    okB (returnWords rState rIss (dedup (rIss.active.filterMap fun p => (rIss.crew.thread p).ret.head?.map fun a => a.toNat))) (fun r =>
      r.1.all returnOk && okB (endOutside rIss r.2) fun q => decide (q.2.osets = State.reset.osets)) = true := by decide +kernel

/-- TRAP and BRK with a handler. -/
theorem witness_traps : Traps rState gAlways rIss ∧ Traps qState gAlways qIss ∧ ∃ z s1, Commits rState gNever nIss z s1 ∧ nIss.active = [] :=
  ⟨⟨rIss_issues, by decide +kernel, by decide +kernel, by decide +kernel, by decide +kernel⟩,
   ⟨qIss_issues, by decide +kernel, by decide +kernel, by decide +kernel, by decide +kernel⟩, commits_of nIss_issues (by decide +kernel)⟩

/-- A register beyond the budget, an unmapped slot, a main register written in a restartable region, and the second in the handler. -/
theorem witness_operand_traps : (¬∀ p ∈ qIss.active, inBudget qIss (.v 128) 1 p = true) ∧
    ((∀ p ∈ qIss.active, inBudget qIss (.w 4) 1 p = true) ∧ ¬∀ p ∈ qIss.active, readable qIss (.w 4) 1 p = true) ∧
    ((∀ p ∈ qIss.active, inBudget qIss (.v 127) 1 p = true ∧ readable qIss (.v 127) 1 p = true) ∧
      ∃ p ∈ qIss.active, inRestartable qIss.grp p.1 = true) ∧
    (∃ p ∈ hIss.active, (hIss.crew.thread p).handler = true) ∧ (∀ p ∈ hIss.active, inBudget hIss (.w 4) 1 p = true) ∧
    ¬∀ p ∈ hIss.active, readable hIss (.w 4) 1 p = true := by decide +kernel

/-- TRET of a group in the handler. -/
theorem witness_trap_return : (∀ p ∈ hIss.active, (hIss.crew.thread p).handler = true) ∧
    okB (hIss.endRegion (lanesIn hIss.present) hState) (fun _ => true) = true := by decide +kernel

/-- RGN with every slot up to the budget, and with none. -/
theorem witness_regions : rIss.active = rIss.present ∧ (0, 0) ∈ rIss.present ∧ (∀ p ∈ rIss.present, 0 ≤ p.1) ∧
    (∀ p ∈ rIss.present, rIss.grp.homeAt p.1 = p.2) ∧
    (∀ i, i < 32 → (val32 rIss (.lit 0xFFFFFFFF) (0, 0)).getLsbD i = true → 8 * 12 + i < roleBudget rIss.crew rIss.grp.role) ∧
    okB (rIss.endRegion (lanesIn rIss.present) rState) (fun r => decide (r.2.osets = State.reset.osets ∧
      (openedMaps (withReopen rIss r.1).crew (withReopen rIss r.1).grp
        [{ base := 12, mask := 0xFFFFFFFF, maskSet := 0, restartable := rIss.isH, nra := false }]).length ≤
        (buffersHeld (rState.core rIss.crew.core) rIss.cur.crew rIss.grp.family).length)) = true := by decide +kernel

/-- A barrier that expects none, one that expects two, and one that expects one, with an arrival of home sheaf 0. -/
theorem witness_barrier_rule : (Barrier.init 0).expect = 0 ∧ (Barrier.init 2).expect ≠ 0 ∧ 0 ∉ (Barrier.init 2).sheaves ∧
    (Barrier.init 2).drops < (Barrier.init 2).expect ∧ (Barrier.init 2).arrived + 1 ≠ (Barrier.init 2).expect ∧
    (Barrier.init 1).arrived + 1 = (Barrier.init 1).expect ∧
    ({ Barrier.init 2 with arrived := 1, drops := 2 } : Barrier).expect ≤ ({ Barrier.init 2 with arrived := 1, drops := 2 } : Barrier).drops := by decide

/-- A release within the crew changes nothing once nothing of its threads is due. -/
theorem release_crew {s : State} {z : Iss} (h : threadLoadsDue s z.cur.crew s.seq z.present = false)
    (h' : threadStoresDue s z.cur.crew s.seq z.present = false) : release s z .crew = .inl s := by simp [release, h, h', wideScope]

/-- BARA, BARD; BARS that completes its phase, and that waits; BARW that waits, and on a barrier that expects none. -/
theorem witness_barriers : ∃ z s1, Commits rState gAlways rIss z s1 ∧ (∀ p ∈ rIss.active, (rIss.crew.thread p).barWait = none) ∧
    threadStoresDue s1 z.cur.crew s1.seq z.present = false ∧
    okB (arriveThreads z.crew (z.crew.barrier 2) rIss.active true) (fun _ => true) = true ∧
    okB (arriveThreads z.crew (z.crew.barrier 1) rIss.active false) (fun br => decide (∀ p ∈ rIss.active, arrivedTarget (z.crew.barrier 1) br p ≤ br.phases)) = true ∧
    okB (arriveThreads z.crew (z.crew.barrier 2) rIss.active false) (fun br => decide (∃ p ∈ rIss.active, br.phases < arrivedTarget (z.crew.barrier 2) br p)) = true ∧
    (∃ p ∈ rIss.active, (z.crew.barrier 2).phases < waitTarget (z.crew.barrier 2) p) ∧
    threadLoadsDue s1 z.cur.crew s1.seq z.present = false := commits_of rIss_issues (by decide +kernel)

/-- JOINC without children, and with one. -/
theorem witness_join : (rIss.grp.wait = .none ∧ ∃ z s1, Commits rState gAlways rIss z s1 ∧ z.crew.children = [] ∧
      threadLoadsDue s1 z.cur.crew s1.seq z.present = false) ∧
    cIss.grp.wait = .none ∧ ∃ z s1, Commits cState gAlways cIss z s1 ∧ z.crew.children ≠ [] ∧ ∀ p ∈ cIss.present, (z.crew.thread p).joinWait = none :=
  ⟨⟨by decide +kernel, commits_of rIss_issues (by decide +kernel)⟩, by decide +kernel, commits_of cIss_issues (by decide +kernel)⟩

/-- MIGR to a page homed on its own die, to a peer's page, and to a page homed on another die. -/
theorem witness_migration : lowActive cIss = some (0, 0) ∧ soloCrew cIss.crew cIss.grid = true ∧ ∃ z s1, Commits cState gAlways cIss z s1 ∧
    (∀ f ∈ (z.crew.sheaf 0).flags, f.2 = 0) ∧ inHandler z.crew = false ∧
    okB (placeOf s1 cIss.crew.core cIss.grid 0x1FFFF 1 true) (fun r => decide (r.1.dev = 0 ∧ homeDie r.2 cIss.grid.vf r.1.pa ≠ dieOf cIss.crew.core)) = true ∧
    okB (placeOf s1 cIss.crew.core cIss.grid 0x20000 1 true) (fun r => decide (r.1.dev ≠ 0)) = true ∧
    homeDie rState 1 0 = dieOf cIss.crew.core := ⟨by decide +kernel, by decide +kernel, commits_of cIss_issues (by decide +kernel)⟩

/-! ## States for the device's events -/

/-- The group of the file's first states with memory and units, after changes of its grid, its crew and its group. -/
def stood (hdr : Word) (d : Grid → Grid) (c : Crew → Crew) (g : Group → Group) : State :=
  let s := rich (putLoaded State.reset hdr [0x0103902E])
  { s with
    grids := s.grids.map fun p => (p.1, d p.2)
    crews := s.crews.map fun p => (p.1, c { p.2 with groups := p.2.groups.map fun q => (q.1, g q.2) }) }

/-- An M clause of one word, and one that waits for flag cf2. -/
def hdrM : Word := loadHeader .M 1
def hdrW : Word := loadHeader .M 1 + 512

/-- Between clauses. -/
def idle (g : Group) : Group := { g with active := none }

/-- What Trappable asks, but for joins. -/
def trappableB (x : Iss) : Bool :=
  !x.present.isEmpty && decide (lanesIn x.present).Nodup && x.present.all (fun p => decide (p.2 < x.crew.sheaves.length)) &&
    x.present.all (fun p => decide (p.1 < (x.crew.sheaf p.2).threads.length)) && x.grid.desc.handler != 0 &&
    x.present.all (fun p => !(x.crew.thread p).handler) && x.grp.regions.all (fun r => r.held.isEmpty) && x.grp.episode.isNone

theorem trappable_of {s : State} {x : Iss} (h : trappableB x = true) (hj : s.osets = State.reset.osets) : Trappable s x := by
  simp only [trappableB, Bool.and_eq_true, List.all_eq_true, decide_eq_true_eq, Bool.not_eq_true', bne_iff_ne, ne_eq,
    Option.isNone_iff_eq_none, List.isEmpty_iff, List.isEmpty_eq_false_iff] at h
  obtain ⟨⟨⟨⟨⟨⟨⟨h1, h2⟩, h3⟩, h4⟩, h5⟩, h6⟩, h7⟩, h8⟩ := h
  exact ⟨hj ▸ joinsFit_empty, h1, h2, h3, h4, h5, h6, h7, h8⟩

/-- An operation of the crew's first thread under flag cf2. -/
def anOp (k : OpKind) : Op :=
  { kind := k, crew := 1, grid := 1, group := 0, lanes := [(0, 0)], homes := [0], flag := some 2, accs := [], set := 0, sem := .rlx,
    scope := .crew, cache := CacheP.none, clause := 0x4000, index := 1, need := [], missed := false, got := [], seq := 0, batch := none,
    flush := none, named := some 2 }

/-- A load into w3 of lane 0. -/
def aDest : Dest := { d := .w 3, regs := 1, signed := false, commit := false, maps := [(loadMap, List.range 32)] }

/-! ## Witnesses: crews and clauses -/

/-- CLAUSE_FETCH of the entry clause; CLAUSE_START of an M clause; three threads of two home sheaves, two at one lane. -/
theorem witness_clauses :
    (let s := stood hdrM id id fun g => { idle g with fetched := none }
     someB (startIss (s.enterEpisode 1 0) 1 0) (fun x => decide (x.grp.episode = none ∧ x.grp.active = none ∧ x.grp.wait = .none ∧
       x.crew.st = .resident ∧ x.grp.clause x.crew = none) &&
       okB (codeClause (s.enterEpisode 1 0) x.crew.core x.grid x.cur.addr.toNat true) fun _ => true) = true) ∧
    (let s := stood hdrM id id idle
     someB (Map.find? s.crews 1) (fun c => decide (c.st = .resident ∧ (∀ p ∈ c.groups, p.2.episode = none) ∧ roleBusy c 0 = false ∧ c.posted = []) &&
       someB (choose c 0) fun q => someB (startIss s 1 q.1) fun x => someB (x.grp.clause x.crew) fun h =>
         decide (regionHead h.1 h.2 = false ∧ headerCause h.1 = none ∧ ∀ p ∈ c.groups, p.1 ≠ q.1 → standsAt c 0 x.cur.addr p.2 = false ∧
           ∀ m ∈ x.present, m ∉ p.2.members)) = true) ∧
    [(0, 0), (31, 0), (0, 31)].Nodup ∧ ∀ p ∈ [(0, 0), (31, 0), (0, 31)], p.1 < 32 ∧ p.2 < 32 := by decide +kernel

/-- A group at a clause that waits for cf2, and one in a WAITF. -/
def stalled : State := stood hdrW id id idle
def waiting : State := stood hdrM id id fun g => { g with wait := .waitf 2 0 }

/-- What blocks the group at its clause. -/
def stalledB (s : State) (x : Iss) : Bool :=
  trappableB x && decide (x.crew.st = .resident ∧ x.grp.halted = false ∧ copyAwaits s 1 (homesOf x.present) (awaited x) = false ∧
    x.grp.active = none ∧ x.grp.wait = .none) && someB (x.grp.clause x.crew) fun h => !maskMet x.crew x.grp h.1

theorem witness_stalls : (∃ x h, startIss stalled 1 0 = some x ∧ Trappable stalled x ∧ x.grp.active = none ∧ x.grp.wait = .none ∧
      x.grp.clause x.crew = some h ∧ maskMet x.crew x.grp h.1 = false) ∧
    ∃ x a, startIss waiting 1 0 = some x ∧ Trappable waiting (waitingIss x a) ∧ x.grp.active = some a ∧ watched x.grp.wait = true := by
  constructor
  · have h : someB (startIss stalled 1 0) (stalledB stalled) = true := by decide +kernel
    obtain ⟨x, hx, h⟩ := some_of h
    simp only [stalledB, Bool.and_eq_true, decide_eq_true_eq] at h
    obtain ⟨⟨ht, hd⟩, hc⟩ := h
    obtain ⟨c, hc, hm⟩ := some_of hc
    exact ⟨x, c, hx, trappable_of ht (by decide +kernel), hd.2.2.2.1, hd.2.2.2.2, hc, by simpa using hm⟩
  · have h : someB (startIss waiting 1 0) (fun x => someB x.grp.active fun a => trappableB (waitingIss x a) && watched x.grp.wait) = true := by
      decide +kernel
    obtain ⟨x, hx, h⟩ := some_of h
    obtain ⟨a, ha, h⟩ := some_of h
    simp only [Bool.and_eq_true] at h
    exact ⟨x, a, hx, trappable_of h.1 (by decide +kernel), ha, h.2⟩

/-- A clause of no class that waits for flag cf2. -/
def hdrX : Word := loadHeader .M 1 + 512 + 0x40

/-- A load of it that misses holds cf2, in a grid with runahead on; a shadow is free, or none is. -/
def missing (hdr : Word) (sh : Map (Nat × Nat)) : State :=
  { stood hdr (fun d => { d with desc := { d.desc with flags := 2 } }) id idle with
    ops := [(1, { anOp (.load aDest) with missed := true })], cores := [(0, { Core.init with buffers := [(0, (1, 0))], shadows := sh })] }

/-- What lets an episode start. -/
def missingB (s : State) (x : Iss) : Bool :=
  decide (x.crew.st = .resident ∧ x.grp.halted = false ∧ x.grp.episode = none ∧ x.grp.ranWait = false ∧
    x.grp.noShadow = false ∧ bitOf x.grid.desc.flags 1 = true ∧ noRunahead x = false ∧ x.grp.quad = some 0) &&
    missBlocked s x (awaited x)

/-- An episode at its last instruction. -/
def lastEpisode : Episode :=
  { inUse := false, lanes := List.range 32, regions := [], reopen := [], fetched := none, active := none, wait := .none, wHash := 0,
    table := [], sheaves := [], threads := [], slotS := [], invSlot := [], invMain := [], invK := [], invP := [], heldK := [], invSpec := [], count := 512, fault := none, pages := [] }

theorem witness_runahead : someB (startIss (missing hdrW []) 1 0) (fun x => missingB (missing hdrW []) x && shadowFree (missing hdrW []) x &&
      (aheadClause x).isSome && someB x.grp.quad fun q => (freeShadow ((missing hdrW []).core x.crew.core) q).isSome) = true ∧
    someB (startIss (missing hdrX []) 1 0) (fun x => missingB (missing hdrX []) x && shadowFree (missing hdrX []) x && (aheadClause x).isNone) = true ∧
    (let s := missing hdrW [(0, (9, 9)), (1, (9, 9))]
     someB (startIss s 1 0) (fun x => missingB s x && !shadowFree s x) = true) ∧
    (stood hdrM id id fun g => { g with episode := some lastEpisode }).episode 1 0 = some lastEpisode ∧ lastEpisode.inUse = false ∧
    512 ≤ lastEpisode.count := by decide +kernel

/-! ## Witnesses: crews leave, return, are dispatched and retire -/

/-- A crew without memory of its own, its flags down, in a state. -/
def bare (st : CrewSt) (c : Crew) : Crew :=
  { c with st := st, scratch := [], rings := [], unitsW := [], unitsA := [], unitsC := [], sheaves := c.sheaves.map fun h => { h with banks := 0, flags := [] } }

/-- A G group waits for a buffer; buffer 0 is another's. -/
theorem witness_buffer : (let s := stood hdrM id id fun g => { idle g with wait := .buffer, quad := none }
    (freeBufferOf (s.core 0) 0).isSome && someB (leastBy (groupRank s) (bufferWaiters s 0 0)) fun q =>
      decide (q.1 = 1 ∧ q.2.1 = 0)) = true := by decide +kernel

/-- An H crew 1 holds all eight buffers of quad 0, and the G crew 2 waits for one. -/
def crowded : State :=
  let s := stood hdrM (fun d => { d with desc := { d.desc with flags := 9 } }) id idle
  let t := stood hdrM id (fun c => { c with grid := 2 }) fun g => { idle g with wait := .buffer, quad := none }
  { s with grids := s.grids ++ [(2, Map.get t.grids 1 loadGrid)], crews := s.crews ++ [(2, Map.get t.crews 1 (loadCrew 2 2))],
           cores := [(0, { Core.init with buffers := (List.range 8).map fun i => (i, (1, 0)) })] }

theorem witness_recall : freeBufferOf (crowded.core 0) 0 = none ∧
    someB (leastBy (groupRank crowded) ((bufferWaiters crowded 0 0).filter fun q => !crewIsH crowded q.2.2.1)) (fun q => q.1 == 2) = true ∧
    someB (mostBy (groupRank crowded) (recallable crowded 0 0)) (fun v =>
      okB (rollback crowded v.1 ((v.2.2.1.groups.filter fun g => g.2.family == v.2.2.2.family).map Prod.fst)) fun t =>
        (freeBufferOf (t.core 0) 0).isSome) = true := by decide +kernel

/-- An H crew that a resize of another partition turns out, whose spill region lies in a page of its stage 2: entries at 0x10000, 0x20000, 0x30000 and 0x40000 lead to frame 0x1000. -/
def harvested : State :=
  { stood hdrM (fun d => { d with desc := { d.desc with scratch := 0, flags := 9 } }) (bare .resident) idle with
    hbm := [(0x10000, 5), (0x10002, 2), (0x20000, 5), (0x20002, 3), (0x30000, 5), (0x30002, 4), (0x40000, 7), (0x40003, 16)],
    frames := [(0x1000, { FrameInfo.init with owner := 1 })]
    vfs := [(1, { someVf with s2root := 0x10000, cfg := { someVf.cfg with spill := 0, spillN := 1 } })]
    pcmd := { PCmd.init with go := true, vf := 2, op := 2 }, clusters := [(0, { UnitSt.init with vf := 2 })] }

theorem witness_eviction : 1 ∈ cmdVictims harvested ∧ someB (harvested.gridOf 1) (fun p => decide (bitOf p.2.desc.flags 0 = true ∧ p.1.st = .resident) &&
    okB (rollback harvested 1 (Map.keys p.1.groups)) fun t => let u := saveCopies (dropCrewBuffers t 1) 1
      someB (u.gridOf 1) fun q => (saveRoom u 1 q.1 q.2).isSome) = true := by decide +kernel

/-- A pre-empted crew that has come to rest, with a context save area. -/
def drained : State :=
  { stood hdrM (fun d => { d with desc := { d.desc with scratch := 0 } }) (bare .draining) (fun g => { idle g with halted := true, regions := [] }) with
    vfs := [(1, { someVf with csa := 0x100000, csalen := 1 })] }

theorem witness_saving : someB (Map.find? drained.crews 1) (fun w => decide (w.st = .draining)) = true ∧
    crewStill (settleCrew drained 1) 1 = true ∧ (settleCrew drained 1).flaws = [] ∧
    someB ((settleCrew drained 1).gridOf 1) (fun p => (saveRoom (settleCrew drained 1) 1 p.1 p.2).isSome) = true := by decide +kernel

/-- A partition of cluster 0, and of cluster 32 on the next die. -/
def clustered (s : State) : State :=
  { s with vfs := [(1, { someVf with cfg := { someVf.cfg with clusters := 0x100000001 } })],
           clusters := [(0, { UnitSt.init with vf := 1 }), (32, { UnitSt.init with vf := 1 })] }

/-- A crew being spilled; one that waits for a landing slot on die 1, whose core 128 has one. -/
theorem witness_return : (let s := stood hdrM id (bare .spilling) idle
    someB (Map.find? s.crews 1) (fun w => decide (w.st = .spilling)) = true ∧ engineDue s 1 = false) ∧
    (let s := clustered (stood hdrM id (bare .resident) fun g => { idle g with wait := .landing 1 })
     someB (s.gridOf 1) (fun p => decide (landingDie p.1 = some 1 ∧ p.1.st = .resident ∧ dieOf 128 = 1 ∧
       (∀ h ∈ p.1.sheaves, ∀ f ∈ h.flags, f.2 = 0) ∧ inHandler p.1 = false ∧ storesLeft s 1 p.1 = false ∧
       ∀ q ∈ p.1.groups, restsToMove q.2 = true) && (usableClusters s p.2.vf (bitOf p.2.desc.flags 0)).contains (clusterOf 128) &&
       landingFree s 1 p.1 128 && (moveOrder s p.1.core 128).2) = true) ∧
    (let s := clustered (stood hdrM id (bare .resident) fun g => { g with wait := .landing 1 })
     someB (s.gridOf 1) (fun p => decide (landingDie p.1 = some 1 ∧ landingGroups p.1 = [0] ∧ ∀ q ∈ p.1.groups, restsToMove q.2 = true) &&
       someB (Map.find? p.1.groups 0) fun q => q.active.isSome && q.episode.isNone) = true) := by decide +kernel

/-- With one partition among the candidates, what CREW_DISPATCH chooses rests on no free value. -/
theorem chooses {s : State} {cs : List Cand} {v : Nat} {P : Cand × Map Nat → Bool} (h : dedup (cs.map fun c => c.grid.vf) = [v])
    (hp : someB ((pickProc v (s.vf v).deficit (ascending (dedup ((cs.filter fun c => c.grid.vf == v).map fun c => c.grid.proc)))).bind fun q =>
      (bestCand s ((cs.filter fun c => c.grid.vf == v).filter fun c => c.grid.proc == q.1)).map fun c => (c, q.2)) P = true) :
    ∃ r, chooseCand s cs = some r ∧ P r = true := by
  have e : chooseCand s cs = (pickProc v (s.vf v).deficit (ascending (dedup ((cs.filter fun c => c.grid.vf == v).map fun c => c.grid.proc)))).bind
      fun q => (bestCand s ((cs.filter fun c => c.grid.vf == v).filter fun c => c.grid.proc == q.1)).map fun c => (c, q.2) := by
    simp only [chooseCand, h, List.length_singleton, Nat.max_self, Nat.mod_one, List.getElem?_cons_zero]
    cases pickProc v (s.vf v).deficit (ascending (dedup ((cs.filter fun c => c.grid.vf == v).map fun c => c.grid.proc))) <;> rfl
  rw [e]
  exact some_of hp

/-- A grid whose one crew is still to be dispatched, of a process with credit. -/
def ready : State :=
  let s := clustered (stood hdrM (fun d => { d with next := 0, desc := { d.desc with scratch := 0 } }) id id)
  { s with crews := [], vfs := s.vfs.map fun v => (v.1, { v.2 with deficit := [(0, 1)] }), free := 1 }

theorem witness_dispatch : ∃ r, dispatchChoice ready = some r ∧
    (r.1.fresh && someB (chooseCore ready r.1.gid r.1.grid r.1.cores) (fun k => fitsNow ready r.1.n r.1.crew k) && (Map.find? ready.grids r.1.gid).isSome) =
      true :=
  chooses (v := 1) (by decide +kernel) (by decide +kernel)

/-- A saved crew whose turn it is. -/
def resuming : State :=
  let s := clustered (stood hdrM id (fun c => { bare .saved c with requeued := true }) idle)
  { s with vfs := s.vfs.map fun v => (v.1, { v.2 with deficit := [(0, 1)] }), free := 1 }

theorem witness_resume : ∃ r, dispatchChoice resuming = some r ∧ (resumesNext resuming 1 1 r.1 && decide (Map.find? resuming.crews 1 = some r.1.crew) &&
    (moveOrder resuming r.1.crew.core 1).2 && (rebuildExtents (moveOrder resuming r.1.crew.core 1).1 r.1.crew.grid r.1.grid).isSome) = true :=
  chooses (v := 1) (by decide +kernel) (by decide +kernel)

/-- A pool partition's crew; a crew whose threads have left, with nothing in flight, in a grid with another crew to come. -/
theorem witness_ends : (let s := { stood hdrM id (bare .resident) idle with poolTurn := 1 }
    poolPart s s.poolTurn = true ∧ Map.wf s.crews = true ∧ someB (s.gridOf 1) (fun p => decide (p.2.vf = s.poolTurn ∧
      bitOf p.2.desc.flags 0 = false ∧ p.1.st = .resident)) = true) ∧
    (let s := stood hdrM (fun d => { d with crews := 2 }) (fun c => { bare .resident c with sheaves := c.sheaves.map fun h => { h with threads := h.threads.map fun t => { t with exited := true } } })
      fun g => { idle g with members := [] }
     someB (s.gridOf 1) (fun p => crewOver s 1 p.1 && decide ((startFlush s (dieOf p.1.core) false).2 = []) &&
       (settleGrid (retireCrew (startFlush s (dieOf p.1.core) false).1 1 p.1 p.2)).isNone) = true ∧ Map.wf s.crews = true) := by decide +kernel

/-! ## Witnesses: memory, copies, messages and the matrix engines -/

/-- A key that is found is listed. -/
theorem found {α : Type} {m : Map α} {k : Nat} {v : α} (h : Map.find? m k = some v) : (k, v) ∈ m := by
  induction m with
  | nil => simp [Map.find?] at h
  | cons p rest ih =>
    simp only [Map.find?] at h
    split at h
    · simp_all
      try (cases p; simp_all)
    · split at h
      · cases h
      · exact List.mem_cons_of_mem _ (ih h)

/-- A word of the scratchpad, for lane 0. -/
def anAcc : Acc :=
  { lane := 0, sheaf := 0, space := .shared, addr := 4, dev := 0, pa := 0, mixed := false, oset := 0, pcls := 0, n := 4, data := [], who := none,
    done := false }

/-- A group between clauses with no region open, and operations in flight. -/
def flying (ops : Map Op) : State := { stood hdrM id id (fun g => { idle g with regions := [] }) with ops := ops }

/-- What Running asks. -/
def runningB (s : State) (op : Nat) (o : Op) (c : Crew) : Bool :=
  decide (Map.find? s.ops op = some o) && Map.wf s.ops && decide (Map.find? s.crews o.crew = some c ∧ c.st = .resident ∧ o.homes.Nodup) &&
    c.groups.all fun p => p.2.episode.isNone

theorem running_of {s : State} {op : Nat} {o : Op} {c : Crew} (h : runningB s op o c = true) : Running s op o c := by
  simp only [runningB, Bool.and_eq_true, decide_eq_true_eq, List.all_eq_true, Option.isNone_iff_eq_none] at h
  obtain ⟨⟨⟨h1, h2⟩, h3, h4, h5⟩, h6⟩ := h
  exact ⟨h1, h2, h3, h4, h5, fun p hp e he => by simp [h6 p hp] at he⟩

/-- The crew of a state. -/
def itsCrew (s : State) : Crew := Map.get s.crews 1 (loadCrew 1 1)

/-- A load, an LDK, an atomic and a phase arrival in flight. -/
def aLoad : Op := { anOp (.load aDest) with accs := [anAcc] }
def aLoadK : Op := { anOp (.loadK 26 4) with accs := [{ anAcc with addr := 16, n := 16 }] }
def anAtom : Op := { anOp (.atom .addN32 { aDest with commit := true } [1] [0]) with accs := [anAcc] }
def anArrival : Op := { anOp (.barpa { aDest with commit := true }) with accs := [anAcc], got := [(0, 1)] }

theorem witness_delivery : (Running (flying [(1, aLoad)]) 1 aLoad (itsCrew (flying [(1, aLoad)])) ∧ loadReady (flying [(1, aLoad)]) aLoad 0 = true ∧
      opFlaw (flying [(1, aLoad)]) 1 aLoad = none ∧ lostLines (flying [(1, aLoad)]) aLoad 0 = [] ∧ okB (loadResults (flying [(1, aLoad)]) aLoad 0 1 false) (fun r =>
        okB (deliverRegs { flying [(1, aLoad)] with osets := r.2.2 } 1 aDest r.1 r.2.1) fun _ => true) = true) ∧
    (Running (flying [(1, aLoadK)]) 1 aLoadK (itsCrew (flying [(1, aLoadK)])) ∧ loadReady (flying [(1, aLoadK)]) aLoadK 0 = true ∧
      opFlaw (flying [(1, aLoadK)]) 1 aLoadK = none ∧ lostLines (flying [(1, aLoadK)]) aLoadK 0 = [] ∧
      okB (loadResults (flying [(1, aLoadK)]) aLoadK 0 1 false) (fun r => decide (r.1.map fun q => q.1.2).Nodup) = true) ∧
    (Running (flying [(1, anAtom)]) 1 anAtom (itsCrew (flying [(1, anAtom)])) ∧ rmwReady (flying [(1, anAtom)]) 1 anAtom = true ∧
      opFlaw (flying [(1, anAtom)]) 1 anAtom = none ∧
      okB (tryRmw (flying [(1, anAtom)]) anAtom .addN32 [1] [0] (some { aDest with commit := true })) (fun tab0 =>
        match runRmw (withSets (flying [(1, anAtom)]) anAtom tab0) 1 anAtom .addN32 [1] [0] with
        | .done t olds => okB (osJoinAll t.osets anAtom.set (anAtom.accs.map fun a => accSet t 1 a)) fun u =>
            okB (deliverRegs { t with osets := u.2 } 1 { aDest with commit := true }
              ((anAtom.accs.zip olds).map fun q => ((q.1.lane, q.1.sheaf), [lo32 q.2, hi32 q.2])) u.1) fun t2 =>
                someB (Map.find? t2.crews 1) fun c => decide (c.st = .resident) && Map.has t2.ops 1
        | _ => false) = true) ∧
    (Running (flying [(1, anArrival)]) 1 anArrival (itsCrew (flying [(1, anArrival)])) ∧
      okB (deliverRegs (flying [(1, anArrival)]) 1 { aDest with commit := true }
        (anArrival.accs.map fun a => ((a.lane, a.sheaf), [lo32 (Map.get anArrival.got a.lane 0)])) 0) (fun t =>
          someB (Map.find? t.crews 1) fun c => decide (c.st = .resident) && Map.has t.ops 1) = true) :=
  ⟨⟨running_of (by decide +kernel), by decide +kernel⟩, ⟨running_of (by decide +kernel), by decide +kernel⟩,
   ⟨running_of (by decide +kernel), by decide +kernel⟩, running_of (by decide +kernel), by decide +kernel⟩

/-- What Deliverable asks of groups without open regions. -/
theorem deliverable_of {c : Crew} {d : Dest} {vs : List ((Nat × Nat) × List Word)} (h : (Map.wf c.groups = true ∧
    (∀ p ∈ c.groups, ∀ q ∈ c.groups, p.1 ≠ q.1 → ∀ m ∈ p.2.members, m ∉ q.2.members) ∧ (∀ p ∈ c.groups, (lanesIn p.2.members).Nodup) ∧
    (vs.map Prod.fst).Nodup ∧ (∀ q ∈ vs, q.1.1 < 32 ∧ q.1.2 < c.sheaves.length)) ∧
    ((∀ p ∈ c.groups, ∀ q ∈ c.groups, p.1 ≠ q.1 → p.2.family = q.2.family → ∀ l ∈ lanesIn p.2.members, l ∉ lanesIn q.2.members) ∧
      ∀ p ∈ c.groups, p.2.regions = []) ∧
    (∀ q ∈ vs, ∀ i, i < d.regs → ((d.mainReg q.1.1 i).all fun v => decide (v < 256)) = true) ∧
    (∀ q ∈ vs, ∀ i, i < d.regs → ∀ j, j < d.regs → d.mainReg q.1.1 i = d.mainReg q.1.1 j → i = j)) : Deliverable c d vs := by
  obtain ⟨⟨h1, h2, h3, h4, h5⟩, ⟨h9, h6⟩, h7, h8⟩ := h
  refine ⟨h1, fun n n' g g' hn hn' hne m hm => h2 _ (found hn) _ (found hn') hne m hm, fun n g hn => h3 _ (found hn),
    fun n n' g g' hn hn' hne he l hl => h9 _ (found hn) _ (found hn') hne he l hl,
    fun n g hn r hr => absurd (h6 _ (found hn) ▸ hr : r ∈ []) (List.not_mem_nil), h4, h5,
    fun q hq i hi v hv => ?_, fun q hq i j hi hj he _ => h8 q hq i hi j hj he, fun n g hn l v j hx => ?_⟩
  · have := h7 q hq i hi
    simpa [hv] using this
  · have e : g.regions = [] := h6 _ (found hn)
    simp [xregSlot, regionOf, e] at hx

theorem witness_deliverable : Deliverable (itsCrew (flying [(1, aLoad)])) aDest [((0, 0), [5])] ∧
    Map.has (flying [(1, aLoad)]).grids 1 = true ∧ (0, 0) ∈ (Map.get (itsCrew (flying [])).groups 0 (Group.init 0 0 false [])).members :=
  ⟨deliverable_of (by decide +kernel), by decide +kernel, by decide +kernel⟩

/-- A store of a word to the scratchpad, and to memory, at the head of core 0's order. -/
def aStore (a : Acc) : StoreEntry :=
  { crew := 1, grid := 1, group := 0, homes := [0], flag := some 2, accs := [{ a with data := [1, 2, 3, 4] }], set := 0, sem := .rlx, scope := .crew,
    cache := CacheP.none, clause := 0x4000, index := 1, born := 0, seq := 7, flush := none, win := 0, out := none }
def storing (a : Acc) : State := { flying [] with cores := [(0, { Core.init with storeQ := [aStore a] })] }

theorem witness_store_performed : storeTurn (storing anAcc) 0 = some (aStore anAcc) ∧ nextOther (storing anAcc) 0 = none ∧
    storeReady (storing anAcc) 0 (aStore anAcc) = true ∧ ((aStore anAcc).out = none ∧ ∀ a ∈ (aStore anAcc).accs, a.who = none ∧ a.done = false) ∧
    okB (foldE (fun s (a : Acc) => performAcc s 0 (whoActs s 1 1).2.1 (whoActs s 1 1).2.2 (aStore anAcc) a)
      (putHead (storing anAcc) 0 { aStore anAcc with flush := (aStore anAcc).flush }) (aStore anAcc).accs) (fun t =>
        someB (Map.find? t.crews 1) fun c => c.groups.all fun p => p.2.episode.isNone) = true ∧
    (let a := { anAcc with space := .generic, pa := 0x2003C, data := [1, 2, 3, 4] }
     a.data.length = a.n ∧ a.pa % 64 + a.n ≤ 64 ∧ okB (performAcc (storing a) 0 1 false (aStore a) a) (fun _ => true) = true) := by
  refine ⟨by decide +kernel, by decide +kernel, by decide +kernel, by decide +kernel, by decide +kernel, by decide +kernel⟩

/-- A copy of four words in the scratchpad; one from a page no extent holds, whose walk finds no entry; one with an odd source. -/
def copyOp (bs : List Byte) : Op :=
  { anOp (.copy bs [] 0 .rne 0 0 false none) with seq := 5 }
def copyBytes (ss sa : Byte) (page : Byte) : List Byte :=
  (List.range 192).map fun i => if i = 0 then ss else if i = 1 then 1 else if i = 2 then 2 else if i = 3 then 1 else if i = 8 then sa else if i = 10 then page
    else if i = 0x18 then 4 else if i % 4 = 0 && decide (0x1C ≤ i ∧ i < 0x34) then 1 else if i = 0x38 ∨ i = 0x70 then 4 else 0
def copying (bs : List Byte) : State := flying [(1, copyOp bs)]

theorem witness_copy_events :
    (let bs := copyBytes 1 0 0
     someB (copyRun (copying bs) 1 (copyOp bs)) (fun c => decide (c.2.1 = 0 ∧ c.2.2 = false ∧ c.1.ring = none) && copyReady (copying bs) (copyOp bs) c.1.crew &&
       match runCopy (copying bs) c.1 0 with
       | (t, _, _, none) => decide (t.trackers = [] ∧ Map.wf t.ops = true) && someB (Map.find? t.crews 1) fun w => decide (w.st = .resident)
       | _ => false) = true) ∧
    (let bs := copyBytes 0 0 8
     someB (copyRun (copying bs) 1 (copyOp bs)) (fun c => copyReady (copying bs) (copyOp bs) c.1.crew &&
       match runCopy (copying bs) c.1 0 with
       | (t, k, got, some (.bad (.inr x) _ _)) => decide (x ≠ .noMem ∧ x ≠ .rights ∧ (keepCopy t 1 k got false).crews = (copying bs).crews) && (Map.find? t.ops 1).isSome && (Map.find? t.grids 1).isSome
       | _ => false) = true) ∧
    (let bs := copyBytes 0 2 0
     someB (copyRun (copying bs) 1 (copyOp bs)) (fun c => copyReady (copying bs) (copyOp bs) c.1.crew &&
       match runCopy (copying bs) c.1 0 with
       | (t, k, got, some (.bad (.inl x) _ _)) => decide (x ≠ .osetOverflow ∧ x ≠ .dataUncorrectable ∧ c.1.crew.posted = [] ∧
             (keepCopy t 1 k got false).crews = (copying bs).crews) && Map.wf t.ops &&
           (copyOp bs).lanes.any fun p => !(c.1.crew.thread p).exited
       | _ => false) = true) := by decide +kernel

/-- A message for grid 1 at core 0, with a receive that takes it, with none, and with a full overflow queue. -/
def aMsg : Msg := { grid := 1, srcCore := 3, dstCore := 0, tag := 7, payload := [1, 2, 3, 4, 5, 6, 7, 8], set := 0, op := 90 }
def aRecv : Op := anOp (.recv 256 0 0xFFFFFFFF)
def arriving (ops : Map Op) (recvs : List Nat) (q : List Msg) : State :=
  { flying ops with cores := [(0, { Core.init with msgIn := [aMsg], recvs := recvs, msgQ := q })] }

theorem witness_arrivals :
    someB (Map.find? (arriving [] [] []).grids aMsg.grid) (fun g => !g.done && g.stopped.isNone) = true ∧
    (let s := arriving [(1, aRecv)] [1] []
     let s0 := s.modCore 0 fun k => { k with msgIn := [] }
     Running s 1 aRecv (itsCrew s) ∧ recvTaking s0 0 aMsg = some (1, aRecv, 256) ∧ okB (deliverMsg s0 1 256 aMsg 0) (fun _ => true) = true ∧
       Map.find? s.ops aMsg.op = none ∧ Memory.wf (itsCrew s).scratch = true) ∧
    (recvTaking ((arriving [] [] []).modCore 0 fun k => { k with msgIn := [] }) 0 aMsg = none ∧ ((arriving [] [] []).core 0).msgQ.length < 64) ∧
    (let s := arriving [] [] (List.replicate 64 aMsg)
     recvTaking (s.modCore 0 fun k => { k with msgIn := [] }) 0 aMsg = none ∧ 64 ≤ (s.core 0).msgQ.length ∧
       someB (lowCrewOn s aMsg.grid 0) (fun k => (Map.find? s.crews k.1).isSome &&
         ((List.range k.2.sheaves.length).find? fun h => !(liveLanes (k.2.sheaf h)).isEmpty) == some 0) = true) :=
  ⟨by decide +kernel, ⟨running_of (by decide +kernel), by decide +kernel⟩, by decide +kernel, by decide +kernel⟩

/-- A request of the crew for rows 0 to 15 of tile 1, and what a pass of it leaves. -/
def aReq : XReq :=
  { crew := 1, core := 0, h := false, qa := 0, bslot := 6, bphys := 6, tile := 1, rows := 0, wa := 8, wb := 8, zero := true, set := 0, homes := [0],
    lanes := [(0, 0)], flag := 2, group := 0, seq := 3, bad := false, badAt := [], srcSets := [] }
def engaged (e : Engine) : State := { flying [] with engines := [(0, e)] }

theorem witness_matrix_events :
    (let e := { Engine.init with table := [aReq] }
     someB (choosePass (engaged e) e) (fun ps => decide (ps = [aReq])) = true ∧ ((engaged e).engine 0).chosen = []) ∧
    ((engaged { Engine.init with running := [aReq] }).engine 0).running ≠ [] ∧
    (let s := engaged { Engine.init with ended := [[(aReq, List.replicate 1024 0)]] }
     aReq.bad = false ∧ someB ((itsCrew s).unitsC |> fun m => Map.find? m 1) (fun x => Memory.wf x.mem) = true ∧
       (List.replicate 1024 (0 : Word)).length = 1024 ∧ s.osets = State.reset.osets) ∧
    (let o := { anOp (.xzero 1) with seq := 5 }
     let s := flying [(1, o)]
     Map.wf s.ops = true ∧ tileReady s o = true ∧ engineReady s o = true ∧ badUnit s 1 [(.C, 1)] = false ∧ Map.has (itsCrew s).unitsC 1 = true) ∧
    (let o := { anOp (.xreq 1 0 2 [0] .rne 0) with seq := 5 }
     let s := flying [(1, o)]
     Map.wf s.ops = true ∧ tileReady s o = true ∧ engineReady s o = true ∧ badUnit s 1 [(.C, 1)] = false ∧
       okB (foldE (fun s qa => xreqQuarter s o 1 0 2 .rne 0 qa) s [0]) (fun t => Map.wf t.ops) = true) := by decide +kernel

/-! ## Witnesses: caches, frames of peers, scrubs -/

/-- Bits that a device with partition 1 has: slice 0, channel tokens. -/
def sliced : State :=
  { State.reset with vfs := [(1, { someVf with cfg := { someVf.cfg with gShare := 4, hCap := 2, gDepth := 8, hDepth := 4 } })] }

/-- A request of core 0 for the line at PA 0, and a line of its L1 with byte 0 dirty. -/
def aL2Req : L2Req := { core := 0, line := 0, vf := 1, h := false, pcls := 0, noL2 := false, seq := 1, miss := false, back := false, served := false, why := .l1 }
def anL1Line : L1Line :=
  { bytes := [(0, 9)], dirty := 1, h := false, pcls := 0, vf := 1, mark := .none, used := 0, set := 0, noL2 := false, last := FRec.init }
def aHbmReq (n : Nat) (h : Bool) : HbmReq := { slice := 0, line := 4, vf := 1, h := h, seq := n, write := false }

theorem witness_caches :
    (let s := { sliced with slices := [(0, { Slice.init with entries := [{ aL2Req with served := true }] })] }
     (servedReq s 0 0).isSome = true ∧ flawedAt s 1 0 = false) ∧
    (let s := { sliced with cores := [(0, { Core.init with l1 := [(0, anL1Line)] })] }
     l1Line s 0 0 = some anL1Line ∧ anL1Line.dirty ≠ 0 ∧ Map.wf anL1Line.bytes = true ∧ Map.wf (s.core 0).l1 = true ∧ Flaw.l1 0 0 ∉ s.flaws) ∧
    (let s := { sliced with slices := [(0, { Slice.init with held := [aL2Req] })] }
     someB (nextHeld s 0) (fun r => decide (r.1 = aL2Req)) = true ∧ sliceOf (s.vf 1).cfg (keyPa aL2Req.line) = 0 ∧ sliceHit s 1 (keyPa aL2Req.line) = false) ∧
    (let l : L2Line := { way := 0, line := 0, bytes := (List.range 64).map fun i => (i, 0), dirty := 0, h := false, pcls := 0, used := 0, filling := false }
     let s := { sliced with slices := [(0, { Slice.init with held := [aL2Req], lines := [(setOf (sliced.vf 1).cfg 0, [l])] })] }
     someB (nextHeld s 0) (fun r => decide (r.1 = aL2Req)) = true ∧ sliceHit s 1 (keyPa aL2Req.line) = true ∧ (s.slice 0).entries = []) ∧
    (let c := { Channel.init with queue := [aHbmReq 1 true, aHbmReq 2 false] }
     nextServed { sliced with channels := [(0, c)] } c = some (aHbmReq 2 false)) ∧
    (Map.wf sliced.vfs = true ∧ someB (Map.find? sliced.vfs 1) (fun v => v.state != 0) = true) ∧
    (let s := { sliced with slices := [(0, { Slice.init with misses := [(4, false, true)] })] }
     (s.slice 0).misses.find? (fun m => m.1 == 4) = some (4, false, true) ∧ Flaw.hbm 4 ∉ s.flaws) ∧
    (let w : WriteBack := { die := 0, line := 0, bytes := [(0, 9)], h := false, pcls := 0, vf := 1, set := 0, last := FRec.init, noL2 := false, sent := false }
     let s := { sliced with wbufs := [w] }
     s.wbufs.find? (fun w => w.die == 0 && w.line == 0 && !w.sent) = some w ∧ keyDev 0 = 0 ∧ Map.wf w.bytes = true ∧ Memory.wf s.hbm = true) := by
  decide +kernel

/-- The order gate lets a request that is not recorded pass as it is. -/
theorem witness_held : let s := { sliced with slices := [(0, { Slice.init with held := [aL2Req] })] }
    nextHeld s 0 = some (aL2Req, s) := rfl

/-- Port 3 is up, device 5 is known, frame 2 is VF 1's. -/
def peered : State :=
  { sliced with ports := [(3, { Port.init with up := true })], fdev := [(5, 0x123)], frames := [(2, { FrameInfo.init with owner := 1 })] }
def aRead (pa : Nat) : Frame := { port := 3, device := 5, vf := 2, ftype := 0, body := .readReq pa 64 9 }

/-- With one port in use a frame that its gate lets out leaves by it. -/
theorem sends_of {s t : State} {dev vf p n : Nat} {h : Bool} {u : OSet} (body : FrameBody) (hp : usablePorts s = [p]) (hd : Map.get s.fdev dev 0 ≠ 0)
    (hg : gateCheck s p n u (peerDest s dev vf) = some t) : ∃ s1, sendFrame s dev vf h (some (n, u)) body = .ok s1 := by
  have e : portFor s dev = some p := by
    unfold portFor
    rw [if_neg hd]
    simp [hp, Nat.mod_one]
  simp only [sendFrame, e, hg]
  exact ⟨_, rfl⟩

/-- A request of the peer for the last line of frame 2, held at slice 0; and the state in which the slice has accepted it. -/
def peerReq : L2Req := { aL2Req with core := 0, line := lineKey 0 0x2FFC0, noL2 := true, why := .peer (aRead 0x2FFC0) }
def asked : State := { peered with slices := [(0, { Slice.init with held := [peerReq] })] }

/-- The state a step answers. -/
def nextOf (o : Host.Outcome State Fault Refusal) : State :=
  match o with
  | .next t => t
  | _ => State.reset

theorem witness_frames : ((aRead 0).port = 3 ∧ 3 ∉ usablePorts sliced) ∧ 3 ∈ usablePorts peered ∧ (aRead 0).ftype = peered.ftype ∧ (aRead 0).device ≠ 0 ∧
    Map.get peered.fdev 5 0 ≠ 0 ∧ ownerOf peered 0x2FFC0 64 = some 1 ∧ ownerOf peered 0x2FFC1 64 = none ∧
    nextHeld asked 0 = some (peerReq, asked) ∧ flawedAt asked 1 (keyPa peerReq.line) = false ∧
    ∃ s1, l2RequestAccept 0 asked = .next s1 ∧ ownerOf s1 0x2FFC0 64 = some 1 ∧ ∃ u tab s2, rangeSet s1 1 0x2FFC0 64 = .ok (u, tab) ∧
      sendFrame { s1 with osets := tab } 5 2 false (some (64, u)) (.readReply 9 (memBytes s1 1 0x2FFC0 64)) = .ok s2 := by
  refine ⟨by decide +kernel, by decide +kernel, by decide +kernel, by decide +kernel, by decide +kernel, by decide +kernel, by decide +kernel,
    rfl, by decide +kernel, nextOf (l2RequestAccept 0 asked), rfl, by decide +kernel, ?_⟩
  have h : okB (rangeSet (nextOf (l2RequestAccept 0 asked)) 1 0x2FFC0 64) (fun r =>
      let s := { nextOf (l2RequestAccept 0 asked) with osets := r.2 }
      decide (usablePorts s = [3] ∧ Map.get s.fdev 5 0 ≠ 0) && someB (gateCheck s 3 64 r.1 (peerDest s 5 2)) fun _ => true) = true := by decide +kernel
  obtain ⟨⟨u, tab⟩, hu, h⟩ := ok_of h
  simp only [Bool.and_eq_true, decide_eq_true_eq] at h
  obtain ⟨⟨hp, hd⟩, h⟩ := h
  obtain ⟨t, ht, -⟩ := some_of h
  obtain ⟨s2, hs⟩ := sends_of (.readReply 9 (memBytes (nextOf (l2RequestAccept 0 asked)) 1 0x2FFC0 64)) hp hd ht
  exact ⟨u, tab, s2, hu, hs⟩

/-- A port that serves partition 1 before partition 2, its frame of class G first. -/
theorem witness_port : let m : Sent := { port := 3, device := 5, vf := 1, body := .refusal 9, ftype := 0, mac := 1, h := false, units := 1 }
    (({ Port.init with queue := [{ m with vf := 2 }, { m with h := true }, m] } : Port).serve (fun _ => 1) 8).map Prod.fst = some m := by decide +kernel

/-- The time of the corrections before. -/
def s0Time : Nat := 0

/-- A load waits for device 5; scrubs find a first and a sixteenth error of a second. -/
theorem witness_peer_and_scrub :
    (let o := aLoad
     let s := { flying [(1, o)] with trackers := [(0, { device := 5, port := 3, op := some 1, line := none, acc := none })] }
     copyRun s 1 o = none ∧ Map.find? s.ops 1 = some o ∧ (Map.find? s.grids o.grid).isSome = true ∧ (s.trackers.all fun t => t.2.cmd.isNone) = true ∧
       someB (Map.find? s.crews o.crew) (fun c => o.lanes.all fun p => !(c.thread p).handler) = true) ∧
    (∀ t ∈ sliced.trackers, t.2.device ≠ 5) ∧
    (let z : ErrCtr := { count := 0, times := [] }
     ((Map.get sliced.errCtr (pairIsland 0) z).hit sliced.gtime.toNat).times.length < 16 ∧
       let s := { sliced with errCtr := [(pairIsland 0, { count := 20, times := List.replicate 15 s0Time })] }
       16 ≤ ((Map.get s.errCtr (pairIsland 0) z).hit s.gtime.toNat).times.length) := by decide +kernel

/-! ## Witnesses: queues and commands -/

/-- Queue 2 of VF 1 in a state, its ring of two entries at host addresses 0x1000, 0x1100 and 0x1200. -/
def queued (f : Queue → Queue) (s : State) : State :=
  let q := { Queue.init with ctl := 0x30000, desc := 0x1000, avail := 0x1100, used := 0x1200, st := .running }
  { s with vfs := [(1, { someVf with queues := [(2, f q)], s1root := [(0, 0x10000)], s2root := 0x100000, events := [(4095, 7)] })] }

/-- A command of an opcode, on event 4095 and value 7, or of 64 bytes from 0x10000 to 0x10040. -/
def aCmd (op : Nat) : Cmd :=
  { head := 1, opcode := op, overlap := false, event := 4095, value := 7, addr := 0x10000, addr2 := 0x10040, len := 64, size := 8, desc := some loadDesc,
    status := none, st := .pending, result := .complete, first := none, grid := none, time := 0, born := 0 }
def commanded (op : Nat) : State := queued (fun q => { q with cmds := [(0, aCmd op)], nextCmd := 1 }) State.reset

theorem witness_queues :
    (let s := queued id State.reset
     (s.queue 1 2).st = .running ∧ (s.queue 1 2).cmds = [] ∧ Map.wf s.grids = true) ∧
    (let s := queued (fun q => { q with bell := true }) { State.reset with host := [(0x1102, 1)] }
     hostNum s ((s.queue 1 2).avail.toNat + 2) 2 ≠ (s.queue 1 2).availIx ∧ Memory.wf s.host = true) ∧
    (let c := { aCmd 1 with st := .finished, status := some (0x1400, 64) }
     let s := queued (fun q => { q with cmds := [(0, c)] }) State.reset
     let x := s.queue 1 2
     cmdOver s c = true ∧ Map.wf x.cmds = true ∧ 0x1400 + 64 > x.used.toNat ∧ x.used.toNat + 4 + 8 * x.size ≤ 0x1400) ∧
    (let x := (queued (fun q => { q with st := .disabled }) State.reset).queue 1 2
     x.st = .disabled ∧ x.desc.toNat % 16 = 0 ∧ x.avail.toNat % 2 = 0 ∧ x.used.toNat % 4 = 0 ∧ bitsOf (0x180000#32).toNat 20 17 = 12 ∧
       (0x180000#32).getLsbD 21 = false ∧ 12 < bitsOf (0x1A0000#32).toNat 20 17) ∧
    ((queued (fun q => { q with st := .killed }) State.reset).queue 1 2).st = .killed ∧ (0x80000000#32).getLsbD 31 = true ∧
    (let s := queued (fun q => { q with cmds := [(0, { aCmd 2 with st := .begun }), (1, aCmd 1)] }) State.reset
     Map.wf (s.queue 1 2).cmds = true ∧ ∀ p ∈ (s.queue 1 2).cmds, p.2.st = .pending ∨ p.2.opcode = 2 → p.2.grid = none) ∧
    (let s := queued (fun q => { q with st := .killing }) State.reset
     let t : State := { s with vfs := List.map (fun (v : Nat × Vf) => (v.1, { v.2 with masked := [] })) s.vfs }
     (t.queue 1 2).st = .killing ∧ (t.queue 1 2).cmds = [] ∧ t.grids = [] ∧ 0 ∉ (t.vf 1).masked) := by decide +kernel

/-- VA page 1 of process 0 is frame 0x1001, by tables at PA 0x100000 and in frame 0x1000. -/
def paged (s : State) : State :=
  { s with hbm := [(0x100000, 5), (0x100002, 16), (0x100008, 7), (0x10000B, 16), (0x100010, 7), (0x100012, 1), (0x100013, 16), (0x10000000, 5),
                   (0x10000002, 1), (0x10000008, 7), (0x1000000A, 2)],
           frames := [(0x1000, { FrameInfo.init with owner := 1 }), (0x1001, { FrameInfo.init with owner := 1 })] }

/-- A command begins, its queue's commands in form. -/
def beginsB (s : State) (op : Nat) : Bool := decide (beginning s 1 2 op = some (0, aCmd op)) && Map.wf (s.queue 1 2).cmds

theorem witness_commands : (∀ op ∈ [1, 2, 3, 4, 5, 6], beginsB (commanded op) op = true) ∧ gridRoom (commanded 1) 1 = true ∧
    ((aCmd 2).value.toNat ≤ (eventOf (commanded 2) 1 4095).toNat ∧ 4095 < 4096) ∧
    okB (bdWrite (beginCmd (noteCommand (paged (commanded 4)) 1 0x10000) 1 2 0) 1 0 0x10000 (bytesOf 8 7) 0) (fun _ => true) = true ∧
    (let s := paged (commanded 6)
     someB (nextCopy (beginCmd s 1 2 0)) (fun p => decide (p.1 = 1 ∧ p.2.1 = 2 ∧ p.2.2.1 = 0 ∧ p.2.2.2.addr = (aCmd 6).addr ∧ p.2.2.2.addr2 = (aCmd 6).addr2 ∧
       p.2.2.2.len = (aCmd 6).len ∧ p.2.2.2.moved = 0)) = true ∧ (copyBlocks (beginCmd s 1 2 0) 1 0 0x10000 0x10040 1).2 = none ∧
     (copyBlocks (beginCmd s 1 2 0) 1 0 0x10000 0x10040 1).1.trackers = []) := by decide +kernel

/-! ## Witnesses: translation, residency, partitions, the platform -/

/-- A VF's invalidation registers. -/
def invalidating (t : Tlbi) : State := { State.reset with vfs := [(1, { someVf with tlbi := t })] }

theorem witness_invalidations :
    (let s := invalidating { Tlbi.init with addr := 0x10000, n := 1 }
     (s.tlbi 1).busy = false ∧ (s.tlbi 1).n ≠ 0) ∧ ((invalidating Tlbi.init).tlbi 1).n = 0 ∧ (0 : Nat) < 1 ∧
    ((invalidating { Tlbi.init with busy := true }).tlbi 1).busy = true ∧ (State.reset.tlbi 0).busy = false ∧
    (let s := { invalidating { Tlbi.init with busy := true, ops := [1] } with ops := [(1, aLoad)] }
     tlbiDrained s (s.tlbi 1) = false) ∧
    (let s := invalidating { Tlbi.init with busy := true, ops := [1] }
     tlbiDrained s (s.tlbi 1) = true ∧ (s.tlbi 1).flush = none) ∧
    (let s := invalidating { Tlbi.init with busy := true, flush := some [(0, 4)] }
     tlbiDrained s (s.tlbi 1) = true ∧ tlbiFlushed s 1 [(0, 4)] = true) := by decide +kernel

/-- A record that waits in the queue of VF 1, with room for just one; a group's batch with its first or second part unanswered. -/
def reporting : State :=
  { State.reset with vfs := [(1, { someVf with masked := [], fq := { FaultQ.init with base := 0x8000, ctl := 0x10001, head := 0, tail := 1, waiting := [[FRec.init]] } })] }
def batched (p1 p2 : Bool) : State :=
  { stood hdrM id id (fun g => { idle g with wait := .fault (batchKey 1 7) }) with
    batches := [(batchKey 1 7, { vf := 1, grid := 1, crew := 1, group := some 0, op := none, part1 := p1, part2 := p2 })] }

theorem witness_faults :
    ((reporting.faultQ 1).waiting = [[FRec.init]] ∧ (reporting.faultQ 1).ctl.getLsbD 16 = true ∧ [FRec.init].length = (reporting.faultQ 1).room ∧
      0 ∉ (reporting.vf 1).masked ∧ Memory.wf reporting.host = true ∧ (reporting.faultQ 1).written < 2 ^ 32) ∧
    (∀ p ∈ [true, false], let s := batched p !p
      someB (Map.find? s.batches (batchKey 1 (word 7))) (fun b => decide (b.part1 = p ∧ b.part2 = !p ∧ b.group = some 0) &&
        someB (Map.find? s.crews b.crew) fun c => someB (Map.find? c.groups 0) fun g => g.wait == .fault (batchKey 1 (word 7))) = true ∧
      Map.wf s.batches = true ∧ (Map.find? s.grids 1).isSome = true) := by decide +kernel

/-- Frames 0 to 2: of VF 1, of VF 2 and pinned, free; VF 1 may hold one frame, VF 2 two. -/
def framed : State :=
  { State.reset with
    frames := [(0, { FrameInfo.init with owner := 1 }), (1, { FrameInfo.init with owner := 2, pin := true }), (3, { FrameInfo.init with owner := 1 })],
    vfs := [(1, { someVf with bframe := 2, swtrlN := 1 }), (2, { someVf with bframe := 2 })], ports := [(3, { Port.init with up := true })] }

/-- A store port, where one port is in use. -/
theorem storePort_one {s : State} {p : Nat} (h : usablePorts s = [p]) : storePort s = some p := by simp [storePort, h, Nat.mod_one]

/-- A move of frame 0 to store. -/
def aMove : PMove := { src := 0, dst := 0x10000, ctl := 0x80000001 }

theorem witness_frame_moves :
    (frameCount ≤ frameCount ∧ ((framed.frame 1).owner ≠ 1 ∧ (framed.frame 1).pinned = true) ∧ ((framed.frame 2).owner ≠ 1 ∧
      (framed.vf 1).bframe.toNat ≤ heldFrames framed 1) ∧ ¬((framed.frame 2).owner ≠ 2 ∧ ((framed.frame 2).pinned = true ∨
      (2 ≠ 0 ∧ (framed.vf 2).bframe.toNat ≤ heldFrames framed 2)))) ∧
    (framed.rcstat.getLsbD 31 = false ∧ 1 ≤ (4096#32).toNat ∧ (4096#32).toNat ≤ 4096) ∧
    (({ framed with rcstat := 0x80000000, rcWanted := 1 } : State).rcstat.getLsbD 31 = true ∧ framed.rcVict = [] ∧ Memory.wf framed.host = true ∧
      3 < frameCount ∧ (framed.frame 3).owner = 1) ∧
    (let m : PMove := { src := 0, dst := 3, ctl := 0x80000000 }
     m.ctl.getLsbD 31 = true ∧ m.dir = 0 ∧ framed.pmove = none ∧ m.refused framed = false ∧ ({ m with dst := 1 } : PMove).refused framed = true) ∧
    (aMove.dir = 1 ∧ aMove.refused framed = false ∧ ({ aMove with dst := 1 } : PMove).refused framed = true) ∧
    (let m : PMove := { src := 0x10000, dst := 0, ctl := 0x80000002 }
     m.dir = 2 ∧ m.refused framed = false ∧ ({ m with dst := 1 } : PMove).refused framed = true) ∧ Memory.wf framed.hbm = true ∧
    ∀ d ∈ [0, 1, 2], let s := { framed with pmove := some { src := 0, dst := 3, ctl := 0x80000000 + word d } }
      (s.pmove.map fun m => m.dir) = some d ∧ s.pmove.all (moveTurn s) = true := by decide +kernel

theorem witness_sealing : let s := { framed with pmove := some aMove }
    let r := frameRule { s with pmove := none } 1 0
    let us := if r.2 then frameSets { s with pmove := none } 0 r.1 else List.replicate 256 0
    (s.frame aMove.frame).owner = 1 ∧ storePort { s with pmove := none } = some 3 ∧ ∃ y tab, osJoinAll s.osets r.1 us = .ok (y, tab) ∧
      ∃ s1, storeGate { s with pmove := none, osets := tab } 3 1 y = some s1 := by
  have h : okB (let s := { framed with pmove := some aMove }
    let r := frameRule { s with pmove := none } 1 0
    osJoinAll s.osets r.1 (if r.2 then frameSets { s with pmove := none } 0 r.1 else List.replicate 256 0))
    (fun p => someB (storeGate { framed with pmove := none, osets := p.2 } 3 1 p.1) fun _ => true) = true := by decide +kernel
  obtain ⟨⟨y, tab⟩, hy, h⟩ := ok_of h
  obtain ⟨t, ht, -⟩ := some_of h
  exact ⟨by decide +kernel, storePort_one (by decide +kernel), y, tab, hy, t, ht⟩

/-- A descriptor at host address 0x10000: VF 1, cluster 0, slice 0, 4 ways, best effort. -/
def described (v : Vf) (g : Bool) : State :=
  { State.reset with
    host := [(0x10000, 1), (0x10002, 4), (0x10008, 1), (0x10026, 1), (0x10027, 1), (0x10028, 1), (0x10029, 1), (0x1002A, 1)],
    pcmd := { PCmd.init with desc := 0x10000, go := g, vf := 1, op := 3 }, vfs := [(1, v)], pf := { Vf.init with masked := [] } }

theorem witness_partitions :
    (let s := described Vf.init false
     s.pcmd.go = false ∧ checkCmd s 1 true (descBytes s) (readCfg (descBytes s)) = 0 ∧ checkCmd s 1 false (descBytes s) (readCfg (descBytes s)) ≠ 0 ∧
       (s.vf 1).state = 0) ∧
    (let s := described { someVf with state := 2 } false
     checkCmd s 1 true (descBytes s) (readCfg (descBytes s)) ≠ 0 ∧ checkCmd s 1 false (descBytes s) (readCfg (descBytes s)) = 0 ∧
       (s.vf 1).state = 2 ∧ admits s 1 (s.vf 1).cfg = true) ∧
    (let s := described { someVf with state := 2, gframe := 1 } false
     admits s 1 (s.vf 1).cfg = false) ∧
    (let s := described someVf true
     s.pcmd.go = true ∧ cmdReady s = true ∧ 0 ∉ s.pf.masked ∧ Map.wf s.vfs = true ∧ s.pcmd.op = 3 ∧ s.pcmd.fin = 0) ∧
    (∀ p ∈ (described { someVf with cfg := { someVf.cfg with clusters := 1 } } false).vfs, p.2.state = 0 ∨ p.2.cfg.clusters ≠ 0) ∧
    ∃ p ∈ (described someVf false).vfs, p.2.state ≠ 0 ∧ p.2.cfg.clusters = 0 := by decide +kernel

theorem witness_platform : bitsOf (40#32).toNat 7 0 = 40 ∧ bitsOf (84#32).toNat 7 0 = 84 ∧ bitsOf (39#32).toNat 7 0 < 40 ∧ 84 < bitsOf (85#32).toNat 7 0 ∧
    (255 : Nat) < 256 ∧ (0x82 : Nat) % 8 ≠ 0 ∧ 1 ≤ (255 : Nat) := by decide

/-! ## Witnesses: trust and observation -/

/-- Chiplet 1 in a state, with or without the keys of its chain. -/
def chip (st : ChSt) (key : List Byte) : State := { State.reset with bdDown := false, chiplets := [(1, { Chiplet.init with st := st, rsaKey := key })] }

theorem witness_chiplets : chipOk 0 false = false ∧ chipOk 11 false = false ∧ chipOk 24 false = true ∧ chipOk 11 true = true ∧
    ((chip .live []).chiplet 1).st ≠ .quarantined ∧ ((chip .quarantined []).chiplet 1).st = .quarantined ∧
    (spdmAwaited (chip .dark []) 1 = true ∧ ((chip .dark []).chiplet 1).rsaKey = []) ∧
    (spdmAwaited (chip .identified [1]) 1 = true ∧ ((chip .identified [1]).chiplet 1).rsaKey ≠ []) ∧
    (spdmAwaited (chip .attested [1]) 1 = true ∧ ((chip .attested [1]).chiplet 1).st = .attested) := by decide +kernel

/-- The link directions between BD and chiplet 1, in a state. -/
def aLink : Link :=
  { src := 0, dst := 1, prk := [], gen := 0, txKey := [], txCtr := 0, rxGen := 0, rxKey := [], rxNext := none, partialG := [], replay := [], failed := [],
    newSeen := false, rolling := false, acked := false, ackTries := 0, recvd := [] }
def linked (k : Link) : State := { chip .live [1] with links := [(2, k), (3, { aLink with src := 1, dst := 0 })] }

theorem witness_links : (chipOk 1 true = true ∧ ((linked aLink).chiplet 1).st = .live ∧ Map.wf (linked aLink).links = true ∧
      Map.find? (linked aLink).links 2 = some aLink ∧ aLink.joins 1 = true ∧ aLink.joins 2 = false ∧
      aLink.rolling = false ∧ aLink.gen < 65535 ∧ 65535 ≤ ({ aLink with gen := 65535 } : Link).gen) ∧
    (2 ^ 32 ≤ ({ aLink with txCtr := 2 ^ 32 } : Link).txCtr ∧ ({ aLink with txCtr := 2 ^ 32 - 1 } : Link).txCtr < 2 ^ 32) ∧
    (let k := { aLink with rolling := true, rxNext := some (1, [7]), ackTries := 2 }
     Map.find? (linked k).links 2 = some k ∧ k.rolling = true ∧ k.acked = false ∧ k.rxNext = some (1, [7]) ∧ k.ackTries < 3 ∧
       3 ≤ ({ k with ackTries := 3 } : Link).ackTries ∧ (linked k).bdDown = false) ∧
    (let r : LinkGroup := { counter := 5, phase := false, flits := [], tag := 0 }
     let k := { aLink with replay := [r], failed := [(false, 4)] }
     ((r.phase, r.counter) ∉ k.failed ∧ ∃ q ∈ k.replay, q.phase = r.phase ∧ q.counter = r.counter) ∧
       (r.phase, r.counter) ∈ ({ k with failed := [(false, 4), (false, 5)] } : Link).failed ∧ ∀ q ∈ aLink.replay, q.phase = r.phase → q.counter ≠ r.counter) ∧
    (peerLive (linked aLink) 0 = true ∧ peerLive (linked aLink) 1 = true ∧ peerLive (linked aLink) 2 = false ∧ aLink.partialG.length < 15 ∧
      15 ≤ ({ aLink with partialG := List.replicate 15 [1] } : Link).partialG.length) ∧
    ({ aLink with partialG := [[1]] } : Link).partialG ≠ [] := by decide +kernel

/-- Principal 7 of VF 1, whose partition is gone, in two entries of the table. -/
def bindingOf (v : Vf) : State :=
  { State.reset with prins := [{ id := 7, vf := 1, rsa := [], slh := [], raw := [] }], vfs := [(1, v)],
                     osets := [(0, { prins := [], retired := false }), (1, { prins := [7], retired := false }), (2, { prins := [], retired := true })] }

theorem witness_principals :
    (let s := bindingOf Vf.init
     someB (s.prins.find? fun p => p.id == 7) (fun p => p.vf == 1) = true ∧ (s.vf 1).state = 0 ∧ (s.vf 1).changing = false ∧ (∀ p ∈ s.prins, p.id ≠ 8) ∧
       ∀ p ∈ s.grids, p.2.done = true) ∧
    (∃ p ∈ rState.grids, p.2.done = false) ∧
    (someB (requested [7, 0, 0, 0]) (fun ps => ps.all (bound (bindingOf Vf.init)) && okB (osMake (bindingOf Vf.init).osets (ps.map fun p => p.toNat)) fun _ => true) = true ∧
      someB (requested [8, 0, 0, 0]) (fun ps => ps.any fun p => !bound (bindingOf Vf.init) p) = true ∧ requested [0, 7, 0, 0] = none) := by decide +kernel

theorem witness_gates_in_form : ∀ g, Map.wf (Map.get State.reset.gates g []) = true := fun _ => rfl

/-- A vendor-defined request of an empty payload, and one that is none. -/
theorem witness_host : (State.reset.pfReady = false) ∧
    vendorPayload [0x12, 0xFE, 0, 0, 4, 0, 4, 0x5B, 0xEF, 0, 0, 0, 0] = some [] ∧ vendorPayload [] = none ∧
    (let s := { State.reset with bdDown := false, pfReady := true, doe := { Spdm.init with version := true, caps := true, algs := true } }
     s.bdDown = false ∧ s.pfReady = true ∧ s.doe.algs = true) ∧ State.reset.doe.version = false ∧ State.reset.doe.caps = false ∧
    State.reset.doe.algs = false := by decide +kernel

/-- The PF's bank of core 0 selected; a VF with places, units and leases. -/
def leased (v : Vf) : State := { State.reset with vfs := [(1, v)] }
def bank0 : State :=
  { leased { someVf with bsel := 0x10000000 } with
    banks := [{ kind := 1, unit := 0, harvest := false, holder := 1, leased := false, ctrs := [], frozenC := [] }] }

theorem witness_counters :
    (someB (selected bank0 1) (fun b => decide (b.1.kind = 1 ∧ b.2 = false ∧ 15 < bankCounters b.1.kind ∧ bankCounters b.1.kind ≤ 16)) = true ∧
      eventListed 1 (bitsOf (0x000A#32).toNat 15 0) = true ∧ eventListed 1 (bitsOf (0x000B#32).toNat 15 0) = false) ∧
    ((leased { someVf with latch := some (3, 0, 9) }).fn 1).latch = some (3, ((leased { someVf with latch := some (3, 0, 9) }).fn 1).bsel, 9) ∧
    (∀ w, ((leased someVf).fn 1).latch ≠ some (3, ((leased someVf).fn 1).bsel, w)) ∧
    ((grantLease (leased someVf) 1 5 4095).isNone = true ∧ traceUnit (leased someVf) 1 0 = some 0 ∧ Map.has (leased someVf).traces 0 = false ∧
      ((leased someVf).vf 1).trace = none ∧ bankUnit (leased someVf) 1 2 0 = some (0, false) ∧ leasable (leased someVf) 1 (bankAt (leased someVf) 2 0 false) = true ∧
      ((leased someVf).vf 1).trialHeld = false) ∧
    (let s := { leased { someVf with trace := some 0, trialHeld := true } with traces := [(0, { Trace.init with holder := 1 })] }
     (s.vf 1).trace = some 0 ∧ Map.has s.traces 0 = true ∧ Map.wf s.traces = true ∧ (s.vf 1).trialHeld = true) := by
  refine ⟨by decide +kernel, by decide +kernel, fun w h => ?_, by decide +kernel, by decide +kernel⟩
  have e : ((leased someVf).fn 1).latch = none := by decide +kernel
  rw [e] at h; cases h

/-- A trace unit of VF 1 on cluster 0 that takes samples of its logical core 0, with room for one record more. -/
def traced : State :=
  let s := stood hdrM id id id
  { s with traces := [(0, { Trace.init with holder := 1, ctl := 0x10041, head := 0, tail := 1 })],
           cores := [(0, { s.core 0 with latest := some (1, 0, 0x4000, 1) })] }

/-- A crew that DBGCTL names, in a state. -/
def debugged (st : CrewSt) (stop : Bool) : State :=
  let s := stood hdrM id (fun c => { bare st c with stop := stop }) idle
  { s with vfs := [(1, { someVf with dbggrid := 1, dbgdlen := 0xFFFFF000 })] }

theorem witness_samples :
    someB (Map.find? traced.traces 0) (fun u => u.wants 3 && decide (u.follows traced = some 0 ∧ sampled traced u.holder 0 = some (1, 0, 0x4000, 1) ∧
      (u.tail - u.head).toNat < 2 ^ bitsOf u.ctl.toNat 3 0)) = true ∧ Map.find? traced.traces 64 = none ∧
    someB (traced.gridOf 1) (fun p => someB (Map.find? p.1.groups 0) fun g => decide (homesOf (g.live p.1) = [0])) = true ∧ Memory.wf traced.host = true := by
  decide +kernel

theorem witness_debug : debugTarget State.reset 1 0 = none ∧
    (debugTarget (debugged .resident false) 1 0 = some 1 ∧ (itsCrew (debugged .resident false)).st = .resident ∧
      (itsCrew (debugged .resident false)).isStopped = false) ∧
    (debugTarget (debugged .stopped true) 1 0 = some 1 ∧ (itsCrew (debugged .stopped true)).stop = true ∧ (itsCrew (debugged .stopped true)).st = .stopped ∧
      (itsCrew (debugged .stopped true)).isStopped = true ∧ Memory.wf (debugged .stopped true).host = true ∧
      okB (osJoinAll (debugDone (debugged .stopped true) 1 0 false).osets 0 (crewSets (debugDone (debugged .stopped true) 1 0 false) 1 (itsCrew (debugged .stopped true)))) (fun r =>
        (gateCheck { debugDone (debugged .stopped true) 1 0 false with osets := r.2 } hostGate 4096 r.1 (hostDest (debugDone (debugged .stopped true) 1 0 false) 1)).isSome) =
          true) := by decide +kernel

theorem witness_trials :
    (∀ g ∈ State.reset.grids, g.2.vf = 1 → g.2.done = true) ∧ (∃ g ∈ rState.grids, g.2.vf = 1 ∧ g.2.done = false) ∧
    (let v := { someVf with trialHeld := true, trial := { Trial.init with lo := 0, hi := 1 } }
     (v.trialHeld = true ∧ v.trial.busy = false ∧ v.trial.lo.toNat < v.trial.hi.toNat ∧ bitsOf (1#32).toNat 15 0 ≠ 0 ∧ Map.wf v.markc = true) ∧
       bitsOf (0#32).toNat 15 0 = 0 ∧ Trial.init.hi.toNat ≤ Trial.init.lo.toNat) ∧
    (let r := { Trial.init with busy := true, due := 5 }
     r.busy = true ∧ r.due.toNat ≤ (5#64).toNat ∧ (4#64).toNat < r.due.toNat ∧ Trial.init.busy = false) := by decide +kernel

/-! ## Witnesses: the encoding and a step -/

theorem witness_encoding : Instr.wf (.ld .b128 CacheP.none (some { sem := .acq, scope := .dev }) (.w 28) (.k 4) (.lit 0xFFFFFFFF) { pred := 6, neg := true }) = true ∧
    (.ld .b128 CacheP.none (some { sem := .acq, scope := .dev }) (.w 28) (.k 4) (.lit 0xFFFFFFFF) { pred := 6, neg := true } : Instr).cls = some .M ∧
    (match decodeHeader 0xE7F8FFFF with | .ok _ => true | .error _ => false) = false ∧ (match decodeHeader 0x07800012 with | .ok _ => true | .error _ => false) = true := by
  decide +kernel

/-- A step of an issuing group; a step of an event, of the host before the PF is ready, and of time. -/
theorem witness_step : (let s := putLoaded State.reset hdrM [0x0103902E]
    s.agenda = [.issue 1 0] ∧
    let s0 := { s with agenda := [] }
    someB (Map.find? s0.crews 1) (fun c => someB (Map.find? c.groups 0) fun g => canIssue c g && !outranked s0 c g &&
      decide (breakpointAt s0 1 0 = none ∧ s0.episode 1 0 = none) && someB (groupIss s0 1 0) fun x => decide (postedNow x.1 = none) &&
        okB (reopenRegions s0 x.1 s0.seq s0.osets) fun r =>
          okB (decodeGroup ((clsOf (fieldOf x.2.hdr 6 4)).getD .S) (x.2.words.drop (x.2.index - 1)) (roleBudget r.1.crew r.1.grp.role)
            (fieldOf x.2.hdr 22 19 == 15)) fun _ => true) = true) ∧
    fromHost .crewDispatch = false ∧ fromHost (.vfFlr 1) = true ∧ State.reset.pfReady = false := by decide +kernel

theorem reset_memories_in_form : State.reset.memoriesWf = true := by decide +kernel

/-! ## Witnesses: gates, denials, resets of functions, chiplets, leases -/

/-- Two slots of gate 3: the first lets out 63 bytes of principal 7 to class 2, the second 64; entry 1 of the table names it, entry 2 is retired. -/
def gated : State :=
  let p : Policy := { members := [7], kind := 1, dest := 2, expiry := 1, budget := 63, nonce := 0 }
  { bindingOf Vf.init with gates := [(3, [(0, p), (1, { p with budget := 64 })])] }

theorem witness_gates : Map.find? gated.osets 1 = some { prins := [7], retired := false } ∧ Map.find? gated.osets 2 = some { prins := [], retired := true } ∧
    [(7 : Word)].filter (· ≠ 7) = [] ∧ Map.wf (Map.get gated.gates 3 []) = true ∧ gated.gtime.toNat < 1 ∧
    someB (Map.find? (Map.get gated.gates 3 []) 0) (fun p => p.budget == 63) = true ∧
    someB (Map.find? (Map.get gated.gates 3 []) 1) (fun p => decide (p.kind = 1 ∧ p.dest = 2 ∧ p.members = [7] ∧ p.expiry = 1 ∧ p.budget = 64)) = true := by
  decide +kernel

/-- What entry 1 of the table names. -/
def tainted (s : State) : State :=
  { s with osets := [(0, { prins := [], retired := false }), (1, { prins := [7], retired := false })], lineS := [(0, 1)]
           crews := s.crews.map fun p => (p.1, { p.2 with sheaves := p.2.sheaves.map fun h => { h with mainS := [(0, 1)] } }) }

theorem witness_denials :
    (let s := tainted (debugged .stopped true)
     debugTarget s 1 0 = some 1 ∧ (itsCrew s).isStopped = true ∧
       okB (osJoinAll (debugDone s 1 0 false).osets 0 (crewSets (debugDone s 1 0 false) 1 (itsCrew s))) (fun r =>
         (gateCheck { debugDone s 1 0 false with osets := r.2 } hostGate 4096 r.1 (hostDest (debugDone s 1 0 false) 1)).isNone) = true) ∧
    (let s := { tainted framed with pmove := some aMove }
     let s0 := { s with pmove := none }
     let r := frameRule s0 1 0
     moveTurn s aMove = true ∧ moveFlaw s aMove = none ∧ usablePorts s0 = [3] ∧
       okB (osJoinAll s.osets r.1 (if r.2 then frameSets s0 0 r.1 else List.replicate 256 0)) (fun q => (storeGate { s0 with osets := q.2 } 3 1 q.1).isNone) = true) ∧
    (let s := { framed with pmove := some aMove, flaws := [.hbm 0] }
     moveTurn s aMove = true ∧ moveFlaw s aMove = some 0) := by decide +kernel

/-- A VF whose queue runs, and one that waits for no kill; a crew that is to come. -/
theorem witness_resets : killsLeft (State.reset.vf 1) = false ∧ killsLeft ((queued id State.reset).vf 1) = true ∧
    (let s := leased { Vf.init with flr := true }
     (s.vf 1).flr = true ∧ killsLeft (s.vf 1) = false) ∧
    (let s := { stood hdrM (fun d => { d with crews := 2, next := 1 }) id id with vfs := [(1, { someVf with dbggrid := 1 })] }
     debugTarget s 1 1 = none ∧ lateTarget s 1 1 = some (1, 1)) ∧ debugTarget State.reset 1 1 = none ∧ lateTarget State.reset 1 1 = none := by decide +kernel

/-- Chiplet 1 in the exchanges of its bring-up; Live, with a link that waits for fresh keys. -/
theorem witness_exchanges :
    (let s := chip .identified [1]
     spdmAwaited s 1 = true ∧ (s.chiplet 1).challenged = false) ∧
    (let s := { chip .identified [1] with chiplets := [(1, { Chiplet.init with st := .identified, rsaKey := [1], challenged := true })] }
     spdmAwaited s 1 = true ∧ (s.chiplet 1).rsaKey ≠ [] ∧ (s.chiplet 1).st = .identified) ∧
    (let s := chip .attested [1]
     (s.chiplet 1).exch = none ∧ spdmAwaited s 1 = true) ∧
    (let w := kemPayload (List.replicate 1568 (0 : Byte))
     let s := { chip .attested [1] with chiplets := [(1, { Chiplet.init with st := .attested, rsaKey := [1], exch := some ([2], [3], w) })], topology := [(0, (0, 1))] }
     (s.chiplet 1).exch = some ([2], [3], w) ∧ (kemIn w).isSome = true ∧ kemIn ([] : List Byte) = none ∧ Map.wf s.topology = true ∧
       spdmAwaited s 1 = true ∧ peerLive s 0 = true ∧
       let k := { aLink with rolling := true, gen := 65535 }
       let t := { s with chiplets := [(1, { Chiplet.init with st := .live, exch := some ([2], [3], w) })], links := [(2, k)] }
       spdmAwaited t 1 = true ∧ max k.src k.dst = 1 ∧ k.rolling = true ∧ k.acked = false ∧ k.rxNext = none) ∧
    (let s := chip .keyed [1]
     (s.chiplet 1).st = .keyed ∧ s.bdDown = false ∧ spdmAwaited s 1 = false) := by decide +kernel

/-- A bank that VF 1 leases, a frozen trace of it, and its trial, with the hypervisor's trial of another VF. -/
def lending : State :=
  { leased { someVf with trace := some (frozenTrace 1 0), trialHeld := true } with
    banks := [{ kind := 2, unit := 0, harvest := false, holder := 1, leased := true, ctrs := [], frozenC := [] }],
    traces := [(5, { Trace.init with holder := 1 }), (frozenTrace 1 0, { Trace.init with holder := 1, frozen := true })] }

theorem witness_leases : bankUnit lending 1 2 0 = some (0, false) ∧ bankUnit lending 0 2 0 = some (0, false) ∧ (bankAt lending 2 0 false).leased = true ∧
    (bankAt lending 2 0 false).holder = 1 ∧ 1 ≠ pfHolder ∧ leasable lending 1 (bankAt lending 2 0 false) = false ∧ Map.wf lending.traces = true ∧
    traceUnit lending 1 0 = some 0 ∧ (Map.find? lending.traces (frozenTrace 1 0)).isSome = true ∧ Map.find? lending.traces 0 = none ∧
    someB (Map.find? lending.traces 5) (fun k => decide (k.holder = 1)) = true ∧ (lending.vf 1).trialHeld = true ∧ traceUnit lending 1 4095 = none ∧
    trialFn (leased someVf) 1 = 1 ∧ trialFn { leased someVf with pf := { Vf.init with trialHeld := true, trialFor := 1 } } 1 = 0 := by decide +kernel

/-- Two requests of a pass, for rows of their own, with the rows they leave. -/
theorem witness_pass : let p := [(aReq, List.replicate 1024 (1 : Word)), ({ aReq with rows := 16 }, List.replicate 1024 2)]
    let s := engaged { Engine.init with ended := [p] }
    (s.engine 0).ended = [p] ∧ p.Pairwise (fun u v => sameRows u.1 v.1 = false) ∧ s.osets = State.reset.osets ∧
      ∀ v ∈ p, v.1.bad = false ∧ v.2.length = 1024 ∧ v.1.rows % 16 = 0 ∧ someB (Map.find? s.crews v.1.crew) (fun c =>
        someB (Map.find? c.unitsC v.1.tile) fun x => Memory.wf x.mem) = true := by decide +kernel

/-- A word is a finite value other than zero. -/
def finite (n : Nat) : Bool :=
  match unpack fmtF32 n with
  | .fin _ k _ => k != 0
  | _ => false

/-- A special function whose rounded close value is finite has a finite result, whatever the implementation's bits are. -/
theorem bounded_finite {k : Nat} {c : Word} {a : FV} (h : (match unpack fmtF32 (rndFV fmtF32 .rne a).1 with | .fin .. => true | _ => false) = true) :
    ∃ t m d, unpack fmtF32 (boundedR k c a).1 = .fin t m d := by
  have hr : ∃ t m d, unpack fmtF32 (rndFV fmtF32 .rne a).1 = .fin t m d := by
    cases e : unpack fmtF32 (rndFV fmtF32 .rne a).1 <;> simp_all
  unfold boundedR
  dsimp only
  split
  · exact hr
  · split
    · rename_i hw
      cases e : unpack fmtF32 c.toNat <;> simp_all [withinUlp]
    · exact hr

/-- FSIN, FCOS and FTANH of 0.5. -/
theorem witness_trig_bounds : finite 0x3F000000 = true ∧ (∃ t m d, unpack fmtF32 (fTrig true 0x3F000000).1 = .fin t m d) ∧
    (∃ t m d, unpack fmtF32 (fTrig false 0x3F000000).1 = .fin t m d) ∧ ∃ t m d, unpack fmtF32 (fTanh 0x3F000000).1 = .fin t m d := by
  have e : unpack fmtF32 (0x3F000000 : Word).toNat = .fin false 8388608 (-24) := by decide +kernel
  refine ⟨by decide +kernel, ?_, ?_, ?_⟩
  · have h : fTrig true 0x3F000000 = boundedR 2 (Config.specialFn .sin 0x3F000000) (stickyFV (insideOne (trigFx true (toFx false 8388608 (-24)))) (-fxP)) := by
      unfold fTrig
      rw [e]
      rfl
    exact h ▸ bounded_finite (by decide +kernel)
  · have h : fTrig false 0x3F000000 = boundedR 2 (Config.specialFn .cos 0x3F000000) (stickyFV (insideOne (trigFx false (toFx false 8388608 (-24)))) (-fxP)) := by
      unfold fTrig
      rw [e]
      rfl
    exact h ▸ bounded_finite (by decide +kernel)
  · have h : fTanh 0x3F000000 = boundedR 2 (Config.specialFn .tanh 0x3F000000) (tanhFV 8388608 (-24)) := by
      unfold fTanh
      rw [e]
      rfl
    exact h ▸ bounded_finite (by decide +kernel)

/-- FRCP of 2, FRSQ of 4, FEX2 of 3, FLG2 of 8: finite results of finite sources. -/
theorem witness_special_bounds : ∀ p ∈ [(0x40000000, (fRcp 0x40000000).1), (0x40800000, (fRsq 0x40800000).1), (0x40400000, (fEx2 0x40400000).1),
    (0x41000000, (fLg2 0x41000000).1)], finite p.1 = true ∧ finite p.2 = true := by decide +kernel

/-! ## Witnesses: one active lane, main registers that differ, launches, traps of memory -/

/-- The group of rState with p1 true in lane 0 alone, and 4 in lane 0 of main register 100; page 3 of its process is absent. -/
def lone (s : State) : State :=
  let s := { paged (rich s) with vfs := [(1, { someVf with s1root := [(0, 0x10000)], s2root := 0x100000 })] }
  { s with crews := s.crews.map fun p => (p.1, { p.2 with sheaves := p.2.sheaves.map fun h =>
      { h with p := [(1, laneSet (lanesOf false) 0 true)], main := Map.put h.main 100 (laneSet zeroLanes 0 4) } }) }

/-- A guard that lane 0 alone meets. -/
def gOne : Guard := { pred := 1, neg := false }

/-- The same group where both shadow buffers of its quad are taken. -/
def shadowed (s : State) : State := { lone s with cores := Map.upd (lone s).cores 0 Core.init fun k => { k with shadows := [(0, (9, 9)), (1, (9, 9))] } }

def oState : State := beforeIn lone
def dState : State := beforeIn shadowed
theorem oState_issues : (issuer oState gOne).isSome = true := by decide
theorem wState_issues : (issuer oState gAlways).isSome = true := by decide
theorem dState_issues : (issuer dState gOne).isSome = true := by decide
def oIss : Iss := (issuer oState gOne).get oState_issues
def wIss : Iss := (issuer oState gAlways).get wState_issues
def dIss : Iss := (issuer dState gOne).get dState_issues
theorem oIss_issues : Issues oState gOne oIss := issues_of (Option.some_get _).symm (by decide) (by decide)
theorem wIss_issues : Issues oState gAlways wIss := issues_of (Option.some_get _).symm (by decide) (by decide)
theorem dIss_issues : Issues dState gOne dIss := issues_of (Option.some_get _).symm (by decide) (by decide)

/-- Destinations of all kinds, in every lane and in one; an open region that does not map main register 100. -/
theorem witness_result_sets : Issues oState gOne oIss ∧ oIss.active = [(0, 0)] ∧ allLanes oIss.active 0 = false ∧ allLanes rIss.active 0 = true ∧
    (∀ d ∈ [Operand.k 6, .v 100, .w 3], operableB oIss [(.w 1, 1), (.lit 2, 1)] d 1 = true ∧ operableB rIss [(.w 1, 1), (.lit 2, 1)] d 1 = true) ∧
    (∀ p ∈ rIss.active, xregSlot rIss.grp p.1 100 = none) ∧ rIss.grp.regions.length = 1 :=
  ⟨oIss_issues, by decide +kernel, by decide +kernel, by decide +kernel, by decide +kernel, by decide +kernel, by decide +kernel⟩

/-- A branch that lane 0 alone takes, one that all take, one to the next clause; BRX to two addresses. -/
theorem witness_divergence : ((∃ p ∈ oIss.active, ∃ q ∈ oIss.present, q ∉ oIss.active ∧ p ∈ oIss.present ∧ branchTarget oIss 64 ≠ after oIss) ∧
      (branchTarget oIss 64).toNat < 2 ^ 57) ∧ (∀ p ∈ rIss.present, p ∈ rIss.active) ∧ nIss.active = [] ∧ branchTarget oIss 2 = after oIss ∧
    (Operable wIss [(.v 100, 2)] .z 0 ∧ (∀ p ∈ wIss.present, p ∈ wIss.active) ∧
      (∀ p ∈ wIss.active, (val64 wIss (.v 100) p).toNat < 2 ^ 57 ∧ (val64 wIss (.v 100) p).toNat % 4 = 0) ∧
      ∃ p ∈ wIss.active, ∃ q ∈ wIss.active, val64 wIss (.v 100) p ≠ val64 wIss (.v 100) q) :=
  ⟨by decide +kernel, by decide +kernel, by decide +kernel, by decide +kernel, operable_of (by decide +kernel), by decide +kernel, by decide +kernel,
   by decide +kernel⟩

/-- EXIT of a home sheaf's last threads: barriers that expect none, where it has arrived, and where it has not. -/
theorem witness_exit_drops : homesOf rIss.active = [0] ∧
    (∀ l, l < (rIss.crew.sheaf 0).threads.length → (rIss.crew.thread (l, 0)).exited = false → (l, 0) ∈ rIss.active) ∧
    okB (endOutside rIss rState) (fun r => decide ((r.1.crew.barrier 4).expect = 0 ∧ (r.1.crew.barrier 3).expect ≠ 0 ∧ 0 ∈ (r.1.crew.barrier 3).sheaves ∧
      (r.1.crew.barrier 2).expect ≠ 0 ∧ 0 ∉ (r.1.crew.barrier 2).sheaves)) = true := by decide +kernel

/-- A store in a region that holds sixteen. -/
def brimming (s : State) : State :=
  let s := richR s
  { s with crews := s.crews.map fun p => (p.1, { p.2 with groups := p.2.groups.map fun q =>
      (q.1, { q.2 with regions := q.2.regions.map fun r => { r with held := List.replicate 16 (aStore anAcc) } }) }) }
def bState : State := beforeIn brimming
theorem bState_issues : (issuer bState gAlways).isSome = true := by decide
def bIss : Iss := (issuer bState gAlways).get bState_issues

theorem witness_seventeenth_store : Issues bState gAlways bIss ∧ Operable bIss [(.z, 2), (.lit 4092, 1), (.w 3, 1)] .z 0 ∧
    okB (osJoinAll bState.osets 0 (resultSets bIss bIss.active [(.w 3, 1), (.z, 2), (.lit 4092, 1)] [] false gAlways)) (fun r =>
      okB (checkAll { bState with osets := r.2 } bIss .shared true 4 2 0 (some r.1) (wants bIss (addrAt bIss .z (.lit 4092)) (storeData bIss (.w 3) 4)))
        fun q => someB bIss.grp.regions.head? fun r => decide (bIss.grp.regions = [r] ∧ r.map.restartable = true ∧ (∀ p ∈ bIss.active, p.1 ∈ r.lanes) ∧
          (∀ l ∈ r.lanes, l ∈ lanesIn bIss.present) ∧ r.held.length = 16) &&
            okB (Iss.endRegion { bIss with crew := stateChange bIss.crew bIss.grp.role bIss.cur.addr } r.lanes q.2) fun u =>
              decide (u.2.osets = State.reset.osets)) = true :=
  ⟨issues_of (Option.some_get _).symm (by decide) (by decide), operable_of (by decide +kernel), by decide +kernel⟩

/-- Lines of the launch descriptors at VA 0x2000 and 0x2040 in the L1 of core 0. -/
def cachedDesc (s : State) : State :=
  { rich s with cores := Map.upd s.cores 0 Core.init fun k => { k with l1 := [0x22000, 0x22040, 0x22080].map fun a =>
      (lineKey 0 a, { anL1Line with bytes := (List.range 64).map fun i => (i, Memory.read someCode (a + i)), dirty := 0 }) } }

/-- The same in a grid of the greatest depth. -/
def deepest (s : State) : State := { cachedDesc s with grids := (cachedDesc s).grids.map fun p => (p.1, { p.2 with depth := 10 }) }

def lState : State := beforeIn cachedDesc
def eState : State := beforeIn deepest
theorem lState_issues : (issuer lState gAlways).isSome = true := by decide
theorem eState_issues : (issuer eState gAlways).isSome = true := by decide
def lIss : Iss := (issuer lState gAlways).get lState_issues
def eIss : Iss := (issuer eState gAlways).get eState_issues
theorem lIss_issues : Issues lState gAlways lIss := issues_of (Option.some_get _).symm (by decide) (by decide)
theorem eIss_issues : Issues eState gAlways eIss := issues_of (Option.some_get _).symm (by decide) (by decide)

/-- A descriptor can be read: its lines are in the L1. -/
def descB (s1 : State) (z : Iss) (a : Nat) (p : Desc → List Acc → State → Bool) : Bool :=
  lIss.heldDesc.isNone && okB (descAccs s1 lIss (0, 0) a) fun r => decide (missKeys r.2 lIss.crew.core r.1 = []) && someB (gateDesc r.2 lIss.grid.vf r.1) fun v =>
    p (Desc.read (r.1.flatMap fun q => readAcc (z.put v) lIss.cur.crew lIss.crew.core lIss.grid.vf v.seq q)) r.1 v

/-- LAUNCH of the descriptor at 0x2000, with no hint. -/
theorem witness_launch : Operable lIss [(.lit 0x2000, 2), (.z, 1)] (.w 2) 2 ∧ lowActive lIss = some (0, 0) ∧ ∃ z s1, Commits lState gAlways lIss z s1 ∧
    hintOk (val32 lIss .z (0, 0)).toNat = true ∧ lIss.grid.depth ≠ 10 ∧ (val64 lIss (.lit 0x2000) (0, 0)).toNat = 0x2000 ∧
    descB s1 z 0x2000 (fun d as v => childOk lIss d &&
      okB (osJoinAll v.osets 0 (resultSets lIss lIss.active [(.lit 0x2000, 2), (.z, 1)] [] false gAlways ++ as.map fun q => accSet v lIss.cur.crew q))
        fun u => match release { v with osets := u.2 } z .dev with
          | .inl t => decide (t.osets = State.reset.osets) && gridRoom t lIss.grid.vf && decide (t.nextGrid ≠ lIss.crew.grid)
          | .inr _ => false) = true :=
  ⟨operable_of (by decide +kernel), by decide +kernel, commits_of lIss_issues (by decide +kernel)⟩

/-- A malformed hint; the greatest depth; an address that is no multiple of 64; a descriptor of no crews; a hint of no place. -/
theorem witness_launch_refusals : Traps lState gAlways lIss ∧ Traps eState gAlways eIss ∧ (∃ z s1, Commits eState gAlways eIss z s1 ∧ eIss.grid.depth = 10) ∧
    Operable lIss [(.lit 0x2040, 2), (.lit 3, 1)] (.w 2) 2 ∧ (¬((val32 lIss (.lit 3) (0, 0)).toNat = 0 ∨ (val32 lIss (.lit 3) (0, 0)).toNat / 4096 = 1)) ∧
    (val64 lIss (.lit 0x2020) (0, 0)).toNat % 64 ≠ 0 ∧ ((val32 lIss (.lit 0x1005) (0, 0)).toNat / 4096 = 1) ∧ ∃ z s1, Commits lState gAlways lIss z s1 ∧
    descB s1 z 0x2040 (fun d _ _ => !childOk lIss d) = true ∧
    descB s1 z 0x2000 (fun d _ v => childOk lIss d && !Map.has (v.vf lIss.grid.vf).placeClu ((val32 lIss (.lit 0x1005) (0, 0)).toNat % 4096)) = true :=
  ⟨⟨lIss_issues, by decide +kernel, by decide +kernel, by decide +kernel, by decide +kernel⟩,
   ⟨eIss_issues, by decide +kernel, by decide +kernel, by decide +kernel, by decide +kernel⟩,
   commits_of eIss_issues (by decide +kernel), operable_of (by decide +kernel), by decide +kernel, by decide +kernel, by decide +kernel,
   commits_of lIss_issues (by decide +kernel)⟩

/-- A page is absent. -/
def absent {α : Type} (e : Except TErr α) : Bool :=
  match e with
  | .error .absent => true
  | _ => false

/-- Shared accesses past the scratchpad and misaligned; generic ones at 2^57, misaligned, and of an absent page, with a shadow free and with none. -/
theorem witness_memory_traps : (∀ p ∈ rIss.active, addrAt rIss .z (.lit 4096) p < 2 ^ 20 ∧ rIss.grid.desc.scratch < addrAt rIss .z (.lit 4096) p + 4) ∧
    (∀ p ∈ rIss.active, addrAt rIss .z (.lit 2) p + 4 ≤ rIss.grid.desc.scratch ∧ addrAt rIss .z (.lit 2) p % 4 ≠ 0) ∧
    (∀ p ∈ rIss.active, addrAt rIss .z (.lit 0x200000) p = 2 ^ 21) ∧ (∀ p ∈ rIss.active, addrAt rIss (.k 4) (.lit 4) p = 2 ^ 57) ∧
    Operable rIss [(.k 4, 2), (.lit 4, 1)] (.w 3) 1 ∧ Traps oState gOne oIss ∧ Operable oIss [(.z, 2), (.lit 0x30000, 1)] (.w 3) 1 ∧
    okB (osJoinAll oState.osets 0 (resultSets oIss oIss.active [(.z, 2), (.lit 0x1002, 1)] [] false gOne)) (fun r =>
      okB (placeOf { oState with osets := r.2 } oIss.crew.core oIss.grid (addrAt oIss .z (.lit 0x1002) (0, 0)) 1 true) fun _ => true) = true ∧
    (okB (osJoinAll oState.osets 0 (resultSets oIss oIss.active [(.z, 2), (.lit 0x30000, 1)] [] false gOne)) (fun r =>
      absent (placeOf { oState with osets := r.2 } oIss.crew.core oIss.grid (addrAt oIss .z (.lit 0x30000) (0, 0)) 1 true)) = true ∧
      shadowFree oState oIss = true ∧ noRunahead oIss = false) ∧
    Issues dState gOne dIss ∧ dIss.active = [(0, 0)] ∧ shadowFree dState dIss = false :=
  ⟨by decide +kernel, by decide +kernel, by decide +kernel, by decide +kernel, operable_of (by decide +kernel),
   ⟨oIss_issues, by decide +kernel, by decide +kernel, by decide +kernel, by decide +kernel⟩, operable_of (by decide +kernel), by decide +kernel,
   by decide +kernel, dIss_issues, by decide +kernel, by decide +kernel⟩

/-! ## One step of a few instructions -/

/-- What exec leaves in main register or slot i of lane l. -/
def slotAfter (i : Instr) (l n : Nat) : Option Word :=
  match exec i rState with
  | .next t => (t.context rIss.cur).bind fun y => y.cell (.slot l n)
  | _ => none

-- R215: 0xFFFFFFFC + 5 wraps to 1; R217: a shift by 32 gives 0, an arithmetic one by 63 the sign; R215: a sum below −2³¹ saturates.
theorem test_iadd_wraps : slotAfter (.iadd (.w 3) (.k 4) (.lit 5) gAlways) 31 3 = some 1 := by decide +kernel
theorem test_shl_by_width : slotAfter (.shl (.w 3) (.lit 1) (.lit 32) gAlways) 0 3 = some 0 := by decide +kernel
theorem test_sar_by_width : slotAfter (.sar (.w 3) (.k 4) (.lit 63) gAlways) 0 3 = some 0xFFFFFFFF := by decide +kernel
theorem test_isub_saturates : slotAfter (.isubSat (.w 3) (.lit 0x80000000) (.lit 1) gAlways) 0 3 = some 0x80000000 := by decide +kernel
-- R242: 1.0 + 1.0 = 2.0; R243: −0 is below +0.
theorem test_fadd : slotAfter (.fadd SMod.none none (.w 3) (.lit 0x3F800000) (.lit 0x3F800000) gAlways) 0 3 = some 0x40000000 := by decide +kernel
theorem test_fmin_zeros : slotAfter (.fmin SMod.none (.w 3) (.lit 0x80000000) .z gAlways) 0 3 = some 0x80000000 := by decide +kernel
-- A lane whose guard is false writes nothing.
theorem test_unmet_guard_writes_nothing : slotAfter (.mov (.w 3) (.lit 7) gNever) 0 3 = some 0 := by decide +kernel

end Sys2Proof.Tests
end

section
/-! SUPPORT. Instructions that find nothing to do: how a flag with room, a load, store or commit instruction without an active lane,
and a progress point leave the machine; and where the forms that need nothing but their operands complete. -/

namespace Sys2Proof.Machine

/-! ## Folds that may stop -/

/-- What every step of a fold keeps where it succeeds, the fold keeps where it succeeds. -/
theorem foldE_keeps {ε σ α : Type} {f : σ → α → Except ε σ} {P : σ → Prop} (hf : ∀ a y b, f a y = .ok b → P a → P b)
    {ys : List α} {x z : σ} (h : foldE f x ys = .ok z) (hx : P x) : P z := by
  induction ys generalizing x with
  | nil =>
    cases h
    exact hx
  | cons y rest ih =>
    simp only [foldE] at h
    split at h
    · cases h
    · rename_i b hb
      exact ih h (hf x y b hb hx)

/-! ## What the end of regions leaves as it was (02_execution.md R46) -/

/-- A crew but for what the end of its groups' regions changes: home sheaves, sets of slots, the spin detector and the number of
window stores. -/
def Crew.sansRegions (c : Crew) : Crew := { c with sheaves := [], slotS := [], spin := [], demoted := [], winIss := 0 }

theorem Crew.sansRegions_foldl {α : Type} {f : Crew → α → Crew} (hf : ∀ c a, (f c a).sansRegions = c.sansRegions) (xs : List α)
    (c : Crew) : (xs.foldl f c).sansRegions = c.sansRegions := by
  induction xs generalizing c with
  | nil => rfl
  | cons a rest ih => exact (ih (f c a)).trans (hf c a)

theorem writeBackSet_sansRegions {fam i h : Nat} {m : RegionMap} {whole : List Nat} {a b : Crew × Map OEntry}
    (hb : writeBackSet fam m i whole a h = .ok b) : b.1.sansRegions = a.1.sansRegions := by
  simp only [writeBackSet] at hb
  split at hb
  · cases hb; rfl
  · split at hb
    · cases hb
    · cases hb; rfl

theorem writeBackSlot_sansRegions {g : Group} {m : RegionMap} {ls whole : List Nat} {i : Nat} {sl : Slot} {c : Crew}
    {t : Map OEntry} {b : Crew × Map OEntry} (hb : writeBackSlot g m ls whole i sl c t = .ok b) :
    b.1.sansRegions = c.sansRegions :=
  foldE_keeps (P := fun a => a.1.sansRegions = c.sansRegions) (fun _ _ _ hs ha => (writeBackSet_sansRegions hs).trans ha) hb
    (Crew.sansRegions_foldl (fun _ _ => by rfl) _ c)

theorem writeBack_sansRegions {g : Group} {r : Region} {ls : List Nat} {c : Crew} {t : Map OEntry} {b : Crew × Map OEntry}
    (hb : writeBack g r ls c t = .ok b) : b.1.sansRegions = c.sansRegions :=
  foldE_keeps (P := fun a => a.1.sansRegions = c.sansRegions) (fun _ _ _ hs ha => (writeBackSlot_sansRegions hs).trans ha) hb rfl

/-- Outside an episode the end of regions leaves the group outside one. -/
theorem endRegions_keeps {c c' : Crew} {g g' : Group} {ls : List Nat} {t t' : Map OEntry} {es : List StoreEntry}
    (he : g.episode = none) (h : endRegions c g ls t = .ok (c', g', t', es)) :
    c'.sansRegions = c.sansRegions ∧ g'.episode = none := by
  simp only [endRegions, he] at h
  split at h
  · cases h
  · rename_i d u hd
    cases h
    exact ⟨foldE_keeps (P := fun a => a.1.sansRegions = c.sansRegions) (fun _ _ _ hs ha => (writeBack_sansRegions hs).trans ha) hd rfl,
      rfl⟩

theorem numberStores_sansRegions (es : List StoreEntry) (c : Crew) : (numberStores c es).1.sansRegions = c.sansRegions := by
  have step : ∀ (d : Crew) e, (numberStore d e).1.sansRegions = d.sansRegions := fun d e => by
    unfold numberStore
    split <;> rfl
  suffices h : ∀ (a : Crew × List StoreEntry), (es.foldl (fun a e => ((numberStore a.1 e).1, a.2 ++ [(numberStore a.1 e).2]))
      a).1.sansRegions = a.1.sansRegions from h (c, [])
  induction es with
  | nil => exact fun _ => rfl
  | cons e rest ih => exact fun a => (ih _).trans (step a.1 e)

theorem stampRegion_sansRegions (c0 : Crew) (g : Group) (r : Region) (ls : List Nat) (c : Crew) :
    (stampRegion c0 g r ls c).sansRegions = c.sansRegions := by
  unfold stampRegion
  refine Crew.sansRegions_foldl (fun d p => ?_) _ c
  exact (Crew.sansRegions_foldl (fun _ _ => by rfl) _ _).trans (Crew.sansRegions_foldl (fun _ _ => by rfl) _ d)

theorem orderBack_sansRegions (c0 : Crew) (g : Group) (ls : List Nat) (c : Crew) (es : List StoreEntry) :
    (orderBack c0 g ls c es).1.sansRegions = c.sansRegions := by
  simp only [orderBack]
  split
  · exact numberStores_sansRegions es c
  · exact (Crew.sansRegions_foldl (fun d r => stampRegion_sansRegions c0 g r ls d) _ _).trans (numberStores_sansRegions es c)

theorem incFlag_sansRegions {c c' : Crew} {homes : List Nat} {f : Option Nat} (h : incFlag c homes f = .ok c') :
    c'.sansRegions = c.sansRegions := by
  unfold incFlag at h
  split at h
  · cases h; rfl
  · split at h
    · cases h
      exact Crew.sansRegions_foldl (fun _ _ => by rfl) _ c
    · cases h

/-- A machine but for what stores that come out of regions change: origin sets, the order of events and the cores' store orders. -/
def State.sansOrder (s : State) : State := { s with osets := [], seq := 0, cores := [] }

theorem enqueueStores_keeps {s s' : State} {core : Nat} {c c' : Crew} {es : List StoreEntry}
    (h : enqueueStores s core c es = .ok (s', c')) : s'.sansOrder = s.sansOrder ∧ c'.sansRegions = c.sansRegions := by
  unfold enqueueStores at h
  split at h
  · cases h
  · rename_i d q out hd
    cases h
    refine ⟨rfl, ?_⟩
    refine foldE_keeps (P := fun a : Crew × Nat × List StoreEntry => a.1.sansRegions = c.sansRegions) (fun a e b hs ha => ?_) hd rfl
    split at hs
    · cases hs
    · rename_i w hw
      cases hs
      exact (incFlag_sansRegions hw).trans ha

/-- What the end of an issuing group's regions, outside an episode, leaves as it was. -/
structure Ended (x y : Iss) (s s' : State) : Prop where
  cur : y.cur = x.cur
  present : y.present = x.present
  episode : y.grp.episode = none
  crew : y.crew.sansRegions = x.crew.sansRegions
  machine : s'.sansOrder = s.sansOrder

theorem endRegion_ended {x y : Iss} {ls : List Nat} {s s' : State} (he : x.grp.episode = none)
    (h : x.endRegion ls s = .ok (y, s')) : Ended x y s s' := by
  unfold Iss.endRegion at h
  split at h
  · cases h
  · rename_i c g t out hr
    obtain ⟨hc, hg⟩ := endRegions_keeps he hr
    simp only [he, Option.isSome_none, Bool.false_eq_true, if_false] at h
    split at h
    · cases h
    · rename_i s2 c2 hq
      cases h
      obtain ⟨hs, hc2⟩ := enqueueStores_keeps hq
      refine ⟨rfl, rfl, hg, hc2.trans ((orderBack_sansRegions _ _ _ _ _).trans (Eq.trans ?_ hc)), hs⟩
      split <;> rfl

/-- The commit template's first half leaves such a context, from which the issue goes on. -/
theorem Commits.ended_keeps {s s1 : State} {g : Guard} {x z : Iss} (h : Commits s g x z s1) : Ended x z s s1 := by
  obtain ⟨y, hy, rfl⟩ := h.ended
  obtain ⟨hcur, hpresent, hepisode, hcrew, hmachine⟩ := endRegion_ended h.issues.plain hy
  exact ⟨hcur, hpresent, hepisode, hcrew, hmachine⟩

/-! ## After an instruction -/

/-- The context that stands once a group has moved past an instruction. -/
theorem advance_context {s : State} {cu : Cur} {w : Crew} {g : Group} {gd : Grid} (hw : Map.find? s.crews cu.crew = some w)
    (hg : Map.find? w.groups cu.group = some g) (hd : Map.find? s.grids w.grid = some gd) (he : g.episode = none) :
    ∃ y, (advance s cu).context cu = some y ∧ Advanced s (advance s cu) cu w g y.crew y.grp := by
  obtain ⟨w', g', a⟩ := advance_spec s cu w g hw hg he
  have hgrids : (advance s cu).grids = s.grids := (congrArg State.grids a.machine :)
  have hgrid : w'.grid = w.grid := (congrArg Crew.grid a.crew :)
  refine ⟨{ cur := cu, crew := w', grp := g', grid := gd, present := cu.lanes,
            active := cu.lanes.filter fun p => guardTrue w' gAlways p }, ?_, a⟩
  simp only [State.context, issuer, a.crews, a.groups, hgrids, hgrid, hd]

/-- Moving past an instruction changes no register. -/
theorem Advanced.cells {s t : State} {cu : Cur} {w : Crew} {x y : Iss} (a : Advanced s t cu w x.grp y.crew y.grp)
    (hw : ∀ h, w.sheaf h = x.crew.sheaf h) (c : Cell) : y.cell c = x.cell c :=
  cell_congr ((congrArg Group.regions a.group :)) (fun h => by rw [a.sheaf h, hw h]) c

/-- An instruction that only goes past has run, and no register has changed. -/
theorem ran_of_advance {i : Instr} {s : State} {g : Guard} {x : Iss} (h : Issues s g x)
    (hx : exec i s = .next (advance s x.cur)) : ∃ t y, Ran i s t x y ∧ ∀ c, y.cell c = x.cell c := by
  obtain ⟨y, hy, hk, hc, _⟩ := advance_holds h (Touch.refl x) (Flagged.refl _) (holds_refl h)
  exact ⟨_, y, ⟨hx, hy, hk⟩, hc⟩

/-- A V or S instruction whose body leaves the state alone. -/
theorem ran_of_issueOp {i : Instr} {s : State} {g : Guard} {x : Iss} {sets : Iss → List OSet} {body : Iss → Except Stop State}
    (hx : exec i s = issueOp s g sets body) (h : Issues s g x) (hb : body x = .ok s) :
    ∃ t y, Ran i s t x y ∧ ∀ c, y.cell c = x.cell c :=
  ran_of_advance h (by rw [hx, issueOp_of h.issuer, hb])

/-! ## A change of the issue group before it goes past -/

/-- A context with its group changed, as it stands once the group is put back into its crew. -/
def Iss.withGroup (x : Iss) (gr : Group) : Iss :=
  { x with grp := gr, crew := { x.crew with groups := Map.put x.crew.groups x.cur.group gr } }

theorem Issues.put_group {s : State} {g : Guard} {x : Iss} (h : Issues s g x) {gr : Group} (he : gr.episode = none) :
    Issues (({ x with grp := gr } : Iss).put s) g (x.withGroup gr) := by
  obtain ⟨hcur, _, _, hgrid, hpresent, hactive⟩ := issuer_inv h.issuer
  refine ⟨?_, he, h.lanes, h.inLane, h.inSheaf, h.inThread, h.joins⟩
  simp only [Machine.issuer, Iss.put, hcur, Map.find?_put_self, hgrid, Iss.withGroup, hactive, hpresent]
  rfl

/-- What an instruction keeps once its group is put back, it keeps of the state before. -/
theorem Keeps.of_put_group {s t : State} {x y : Iss} {gr : Group}
    (k : Keeps (({ x with grp := gr } : Iss).put s) t (x.withGroup gr) y) : Keeps s t { x with grp := gr } y where
  machine := k.machine
  otherCrews n hn := (k.otherCrews n hn).trans (Map.find?_put_other _ _ _ _ hn)
  otherGroups n hn := (k.otherGroups n hn).trans (Map.find?_put_other _ _ _ _ hn)
  crew := k.crew
  sheafCount := k.sheafCount
  sheaves := k.sheaves
  group := k.group
  threads := k.threads
  pcs := k.pcs
  grid := k.grid
  sets := k.sets

/-- An instruction that changes its issue group alone, and goes past. -/
theorem ran_of_put_group {i : Instr} {s : State} {g : Guard} {x : Iss} {gr : Group} (h : Issues s g x) (he : gr.episode = none)
    (hr : gr.regions = x.grp.regions) (hx : exec i s = .next (advance (({ x with grp := gr } : Iss).put s) x.cur)) :
    ∃ t y, Ran i s t { x with grp := gr } y ∧ ∀ c, y.cell c = x.cell c := by
  obtain ⟨y, hy, hk, hc, _⟩ := advance_holds (h.put_group he) (Touch.refl _) (Flagged.refl _) (holds_refl (h.put_group he))
  exact ⟨_, y, ⟨hx, hy, hk.of_put_group⟩, fun c => (hc c).trans (cell_congr (y := x.withGroup gr) hr (fun _ => rfl) c)⟩

/-! ## WAITF (08_isa_control.md R197) -/

theorem postedAt_of_none {x : Iss} {f : Nat} (h : ∀ q ∈ x.crew.posted, q.flag ≠ some f) : postedAt x (fun i => i == f) = none := by
  simp only [postedAt]
  rw [List.find?_eq_none.2]
  intro q hq
  cases hf : q.flag with
  | none => simp
  | some i =>
    have : i ≠ f := fun e => h q hq (by rw [hf, e])
    simp [this]

theorem flagMet_of_le {c : Crew} {ps : List (Nat × Nat)} {f thr : Nat} (h : ∀ p ∈ ps, (c.sheaf p.2).flag f ≤ thr) :
    flagMet c ps f thr = true := by
  simp only [flagMet, List.all_eq_true, decide_eq_true_eq]
  intro i hi
  obtain ⟨p, hp, rfl⟩ := (mem_homesOf i ps).1 hi
  exact h p hp

/-- WAITF on a flag at its threshold, with no cause posted at the flag, goes past. -/
theorem execWaitf_met {s : State} {x : Iss} {f : Fin 12} {thr : Fin 64} (g : Guard) (h : Issues s gAlways x)
    (hflag : ∀ p ∈ x.present, (x.crew.sheaf p.2).flag f ≤ thr) (hpost : ∀ q ∈ x.crew.posted, q.flag ≠ some f.val) :
    execWaitf f thr g s =
      .next (advance (({ x with grp := { x.grp with ranWait := false, noShadow := false } } : Iss).put s) x.cur) := by
  simp only [execWaitf, h.issuer, h.plain, Option.isSome_none, Bool.false_eq_true, if_false, postedAt_of_none hpost,
    flagMet_of_le hflag, if_true]

/-! ## MARK (08_isa_control.md R209) -/

/-- A state that differs from another in what observes the machine alone: the functions' registers, host memory, trace units and
messages to the host. -/
def Observed (s t : State) : Prop :=
  { t with pf := s.pf, vfs := s.vfs, host := s.host, traces := s.traces, msix := s.msix } = s

theorem Observed.refl (s : State) : Observed s s := rfl

theorem Observed.trans {s t u : State} (h : Observed s t) (k : Observed t u) : Observed s u := by
  have hu := congrArg (fun q : State => { q with pf := s.pf, vfs := s.vfs, host := s.host, traces := s.traces, msix := s.msix }) k
  exact hu.trans h

theorem observed_foldl {α : Type} {f : State → α → State} (hf : ∀ s a, Observed s (f s a)) (xs : List α) (s : State) :
    Observed s (xs.foldl f s) := by
  induction xs generalizing s with
  | nil => exact Observed.refl s
  | cons a rest ih => exact (hf s a).trans (ih (f s a))

theorem observed_modFn (s : State) (fn : Nat) (f : Vf → Vf) : Observed s (s.modFn fn f) := by
  unfold State.modFn
  split <;> rfl

theorem observed_sendMsi (s : State) (fn vec : Nat) : Observed s (sendMsi s fn vec) := by
  unfold sendMsi
  split
  · exact observed_modFn s fn _
  · rfl

theorem observed_traceWrite (s : State) (unit : Nat) (t : Trace) (r : TRec) : Observed s (traceWrite s unit t r) := by
  simp only [traceWrite]
  split
  · rfl
  · exact Observed.trans (by rfl) (observed_sendMsi _ _ _)

theorem observed_traceCore (s : State) (vf core : Nat) (r : TRec) (who : Nat → Bool) : Observed s (traceCore s vf core r who) :=
  observed_foldl (fun q p => by
    split
    · split
      · exact observed_traceWrite q _ _ _
      · exact Observed.refl q
    · exact Observed.refl q) _ s

theorem observed_traceThreads (s : State) (gid : Nat) (g : Grid) (w : Crew) (kind code : Nat) (clause : Dword) (index : Nat)
    (ps : List (Nat × Nat)) (who : Nat → Bool) : Observed s (traceThreads s gid g w kind code clause index ps who) :=
  observed_foldl (fun _ _ => observed_traceCore _ _ _ _ _) _ s

/-- MARK counts and records, and touches nothing that runs. -/
theorem markBody_observed (s : State) (p : Nat) (x : Iss) : ∃ s', markBody s p x = .ok s' ∧ Observed s s' := by
  unfold markBody
  split
  · exact ⟨s, rfl, Observed.refl s⟩
  · exact ⟨_, rfl, (observed_foldl (fun q fn => observed_modFn q fn _) _ s).trans (observed_traceThreads _ _ _ _ _ _ _ _ _ _)⟩

/-- MARK completes and writes no register and no memory of its crew. -/
theorem mark_completes {s : State} {g : Guard} {x : Iss} (n : Fin 64) (h : Issues s g x) : ∃ t y, exec (.mark n g) s = .next t ∧
    t.context x.cur = some y ∧ (∀ c, y.cell c = x.cell c) ∧ y.crew.memories = x.crew.memories := by
  obtain ⟨_, hcrew, hgroup, hgrid, _⟩ := issuer_inv h.issuer
  obtain ⟨s', hb, ho⟩ := markBody_observed s n.val x
  have hx : exec (.mark n g) s = .next (advance s' x.cur) := by
    have : exec (.mark n g) s = issueOp s g (fun x => baseSets x x.active g) (markBody s n.val) := rfl
    rw [this, issueOp_of h.issuer, hb]
  have hcrews : s'.crews = s.crews := (congrArg State.crews ho :)
  have hgrids : s'.grids = s.grids := (congrArg State.grids ho :)
  obtain ⟨y, hy, a⟩ := advance_context (s := s') (by rw [hcrews]; exact hcrew) hgroup (by rw [hgrids]; exact hgrid) h.plain
  exact ⟨_, y, hx, hy, a.cells fun _ => rfl, (congrArg Crew.memories a.crew :)⟩

/-! ## Without an active lane (00_scope.md R8) -/

theorem FlagFree.mono {c : Crew} {hs hs' : List Nat} {f : Option Nat} (h : FlagFree c hs f) (hsub : ∀ i ∈ hs', i ∈ hs) :
    FlagFree c hs' f := fun k hk i hi => h k hk i (hsub i hi)

/-- A flag with room for one more counts up. -/
theorem incFlag_of_free {c : Crew} {homes : List Nat} {f : Option Nat} (h : FlagFree c homes f) :
    ∃ c', incFlag c homes f = .ok c' := by
  cases f with
  | none => exact ⟨c, rfl⟩
  | some k =>
    have hroom : flagRoom c homes k 1 = true := by
      simp only [flagRoom, List.all_eq_true, decide_eq_true_eq]
      exact fun i hi => h k rfl i hi
    exact ⟨_, by rw [incFlag, if_pos hroom]⟩

/-- An instruction without an active lane whose flag has room is complete at once. -/
theorem noLanes_of_free {x : Iss} {f : Option Nat} (s : State) (h : FlagFree x.crew (homesOf x.present) f) :
    noLanes s x f = .ok s := by
  obtain ⟨c, hc⟩ := incFlag_of_free h
  simp only [noLanes, hc, ite_self]

theorem checkOperands_idle {x : Iss} (h : x.active = []) (os : List (Operand × Nat)) : checkOperands x x.active os = .ok () := by
  simp [checkOperands, h]

theorem xregForbidden_idle {x : Iss} (h : x.active = []) (d : Operand) : xregForbidden x d x.active = false := by
  cases d <;> simp [xregForbidden, h]

/-! ## Loads and stores without an active lane -/

/-- A load or store whose body leaves the state alone. -/
theorem ran_of_issueMem {i : Instr} {s : State} {g : Guard} {x : Iss} {sets : Iss → List OSet} {body : Iss → Except Stop State}
    (hx : exec i s = issueMem s g sets body) (h : Issues s g x) (hb : body x = .ok s) :
    ∃ t y, Ran i s t x y ∧ ∀ c, y.cell c = x.cell c :=
  ran_of_advance h (by simp only [hx, issueMem, h.issuer, hb])

theorem idle_plain {x : Iss} (he : x.grp.episode = none) (s : State) (d : Operand) (n : Nat) (g : Guard) : idle s x d n g = s := by
  simp [idle, he]

section
variable {s : State} {x : Iss} (ha : x.active = [])
include ha

theorem loadBody_idle (he : x.grp.episode = none) (hf : FlagFree x.crew (homesOf x.present) (flagA x.cur.hdr)) (sp : Space) (n : Nat)
    (signed : Bool) (c : CacheP) (o : Option Ord) (d : Operand) (dn : Nat) (a b : Operand) (g : Guard) :
    loadBody s sp n signed c o d dn a b g x = .ok s := by
  simp only [loadBody, ha, List.isEmpty_nil, if_true, idle_plain he, noLanes_of_free s hf]

theorem ldkBody_idle (he : x.grp.episode = none) (hf : FlagFree x.crew (homesOf x.present) (flagA x.cur.hdr)) (sz : LdkSize)
    (c : CacheP) (d : Fin 30) (a b : Operand) (g : Guard) : ldkBody s sz c d a b g x = .ok s := by
  simp only [ldkBody, ha, List.isEmpty_nil, if_true, idle_plain he, noLanes_of_free s hf]

/-- A store counts its flag where its lanes stand outside restartable regions, whose homes are among all. -/
theorem storeBody_idle (hf : FlagFree x.crew (homesOf x.present) (flagB x.cur.hdr)) (sp : Space) (n : Nat) (c : CacheP)
    (o : Option Ord) (d : Operand) (dn : Nat) (a b : Operand) (g : Guard) : storeBody s sp n c o d dn a b g x = .ok s := by
  have hsub : FlagFree x.crew (homesOf (x.present.filter fun p => !inRestartable x.grp p.1)) (flagB x.cur.hdr) :=
    hf.mono fun i hi => by
      obtain ⟨p, hp, rfl⟩ := (mem_homesOf i _).1 hi
      exact (mem_homesOf _ _).2 ⟨p, (List.mem_filter.1 hp).1, rfl⟩
  simp only [storeBody, ha, List.isEmpty_nil, if_true]
  exact noLanes_of_free (x := { x with present := x.present.filter fun p => !inRestartable x.grp p.1 }) s hsub
end

/-! ## Commit instructions without an active lane (02_execution.md R47) -/

/-- The bodies of commit instructions leave the second context as it is, but for a switch point of its crew. -/
theorem Commits.filed_of_advance {i : Instr} {s s1 : State} {g : Guard} {x z : Iss} (h : Commits s g x z s1) (r : Map (Nat × Bool))
    (hx : exec i s = .next (advance (({ z with crew := { z.crew with rotate := r } } : Iss).put s1) x.cur)) :
    ∃ t y, Filed i s s1 t x z y [] none := by
  obtain ⟨_, _, _, hgrid, _⟩ := issuer_inv h.issues.issuer
  obtain ⟨hcur, _, hepisode, hcrew, hmachine⟩ := h.ended_keeps
  have hgrids : s1.grids = s.grids := (congrArg State.grids hmachine :)
  have hzgrid : z.crew.grid = x.crew.grid := (congrArg Crew.grid hcrew :)
  obtain ⟨y, hy, a⟩ := advance_context (s := ({ z with crew := { z.crew with rotate := r } } : Iss).put s1) (cu := x.cur) (g := z.grp)
    (gd := x.grid) (by rw [← hcur]; exact Map.find?_put_self _ _ _) (by rw [← hcur]; exact Map.find?_put_self _ _ _)
    (by rw [Iss.put_grids, hgrids]; exact hzgrid ▸ hgrid) hepisode
  refine ⟨_, y, ⟨hx, hy, ⟨?_, ?_, ?_⟩, fun n hn => ?_, ?_, ?_, fun k f => ?_, fun p => ?_⟩⟩
  · exact (congrArg State.hbm a.machine :)
  · exact (congrArg State.host a.machine :)
  · exact (congrArg State.store a.machine :)
  · exact (a.otherCrews n hn).trans (Map.find?_put_other _ _ _ _ (hcur ▸ hn))
  · exact (congrArg Crew.memories a.crew :)
  · exact a.cells fun _ => rfl
  · have hflags : (y.crew.sheaf k).flags = (z.crew.sheaf k).flags := (congrArg Sheaf.flags (a.sheaf k) :)
    simp [Sheaf.flag, hflags]
  · exact (congrArg Thread.fpx (a.thread p) :)

/-- A commit instruction whose checks pass and whose body writes nothing goes past. -/
theorem Commits.filed_of_commitOp {i : Instr} {s s1 : State} {g : Guard} {x z : Iss} {sets : Iss → List OSet}
    {check : Iss → Except Stop Unit} {body : Iss → Iss → State → Except Stop Done} (hx : exec i s = commitOp s g sets check body)
    (h : Commits s g x z s1) (r : Map (Nat × Bool)) (hc : check x = .ok ())
    (hb : body x z s1 = .ok (({ z with crew := { z.crew with rotate := r } } : Iss).put s1, none)) :
    ∃ t y, Filed i s s1 t x z y [] none := by
  obtain ⟨y, hy, rfl⟩ := h.ended
  refine h.filed_of_advance r ?_
  simp only [hx, commitOp, h.issues.issuer, h.issues.plain, Option.isSome_none, Bool.false_eq_true, if_false, hc, hy, hb]

section
variable {x z : Iss} (ha : x.active = [])
include ha

theorem lowActive_idle : lowActive x = none := by simp [lowActive, ha, leastBy]

theorem rmwCheck_idle (op : RmwOp) (d a b : Operand) : rmwCheck op d a b x = .ok () := by
  simp [rmwCheck, checkOperands_idle ha, xregForbidden_idle ha]

/-- A read-modify-write without an active lane leaves its switch point alone (R34). -/
theorem rmwBody_idle (s : State) {red : Bool}
    (hf : FlagFree z.crew (homesOf z.present) (if red then flagB x.cur.hdr else flagA x.cur.hdr)) (sp : Space) (op : RmwOp)
    (o : Option Ord) (dflt : Scope) (d a b : Operand) (g : Guard) :
    rmwBody sp op o dflt red d a b g x z s =
      .ok (({ z with crew := { z.crew with rotate := (switchPoint z.crew z.grp.role).rotate } } : Iss).put s, none) := by
  simp only [rmwBody, ha, List.isEmpty_nil, if_true]
  rw [noLanes_of_free (x := { z with crew := switchPoint z.crew z.grp.role }) _ hf]
  rfl

theorem msgpBody_idle (s : State) (hf : FlagFree z.crew (homesOf z.present) (flagB x.cur.hdr)) (cap : Nat) (a b : Operand) (g : Guard) :
    msgpBody cap a b g x z s = .ok (z.put s, none) := by
  simp only [msgpBody, lowActive_idle ha, noLanes_of_free (z.put s) hf, commitPast]

theorem msgsBody_idle (s : State) (hf : FlagFree z.crew (homesOf z.present) (flagB x.cur.hdr)) (len : Nat) (a b : Operand) (g : Guard) :
    msgsBody len a b g x z s = .ok (z.put s, none) := by
  simp only [msgsBody, lowActive_idle ha, noLanes_of_free (z.put s) hf, commitPast]

theorem barpaBody_idle (s : State) (hf : FlagFree z.crew (homesOf z.present) (flagA x.cur.hdr)) (d a b : Operand) (g : Guard) :
    barpaBody d a b g x z s = .ok (z.put s, none) := by
  simp only [barpaBody, ha, List.isEmpty_nil, if_true, noLanes_of_free (z.put s) hf, commitPast]

theorem barpwBody_idle (s : State) (d a b : Operand) : barpwBody d a b x z s = .ok (z.put s, none) := by
  simp only [barpwBody, ha, List.isEmpty_nil, if_true]
end

/-! ## The forms of the statement -/

/-- A special function runs by its value of A's word. -/
theorem sfn_ran {i : Instr} {s : State} {m : SMod} {d a : Operand} {g : Guard} {x : Iss} {f : Word → Nat × Nat}
    (hx : exec i s = sfn s m d a g f) (h : Issues s g x) (ho : Operable x [(a, 1)] d 1) :
    ∃ t y, Ran i s t x y ∧ (∀ c, (∀ p ∈ x.active, regCell x d 0 p ≠ some c) → y.cell c = x.cell c) ∧
      ∀ p, p ∉ x.active → (y.crew.thread p).fpx = (x.crew.thread p).fpx := by
  obtain ⟨t, y, v⟩ := vecBody_ran hx h ho
  refine ⟨t, y, v.ran, fun c hc => v.others c fun p hp j hj => ?_, v.otherFlags⟩
  obtain rfl : j = 0 := by omega
  exact hc p hp

theorem specialFunctions_complete (s : State) (x : Iss) (m : SMod) (d a : Operand) (g : Guard) (h : Issues s g x)
    (ho : Operable x [(a, 1)] d 1) :
    ∀ i ∈ [Instr.frcp m d a g, .frsq m d a g, .fsqrt m d a g, .fex2 m d a g, .flg2 m d a g, .fsin m d a g, .fcos m d a g, .ftanh m d a g],
    ∃ t y, Ran i s t x y ∧ (∀ c, (∀ p ∈ x.active, regCell x d 0 p ≠ some c) → y.cell c = x.cell c) ∧
      ∀ p, p ∉ x.active → (y.crew.thread p).fpx = (x.crew.thread p).fpx := by
  have run : ∀ {i : Instr} {f : Word → Nat × Nat}, exec i s = sfn s m d a g f → _ := fun hx => sfn_ran hx h ho
  simp only [List.forall_mem_cons, List.not_mem_nil, false_imp_iff, implies_true, and_true]
  exact ⟨run rfl, run rfl, run rfl, run rfl, run rfl, run rfl, run rfl, run rfl⟩

theorem nop_yield_complete (s : State) (x : Iss) (g : Guard) (h : Issues s gAlways x) :
    ∀ i ∈ [Instr.nop g, .yield g], ∃ t y, Ran i s t x y ∧ ∀ c, y.cell c = x.cell c := by
  simp only [List.forall_mem_cons, List.not_mem_nil, false_imp_iff, implies_true, and_true]
  have past : ∀ {i : Instr}, exec i s = issueOp s gAlways (fun _ => []) (fun _ => .ok s) → _ := fun hx => ran_of_issueOp hx h rfl
  exact ⟨past rfl, past rfl⟩

theorem waitf_completes (s : State) (x : Iss) (f : Fin 12) (thr : Fin 64) (g : Guard) (h : Issues s gAlways x)
    (hflag : ∀ p ∈ x.present, (x.crew.sheaf p.2).flag f ≤ thr) (hpost : ∀ q ∈ x.crew.posted, q.flag ≠ some f.val) :
    ∃ t y, Ran (.waitf f thr g) s t { x with grp := { x.grp with ranWait := false, noShadow := false } } y ∧
      ∀ c, y.cell c = x.cell c :=
  ran_of_put_group (gr := { x.grp with ranWait := false, noShadow := false }) h h.plain rfl (execWaitf_met g h hflag hpost)

theorem idle_loads_and_stores_complete (s : State) (x : Iss) (sz : LdSize) (zk : LdkSize) (zs : StSize) (sp : TSpace) (wide : Bool)
    (c : CacheP) (o : Option Ord) (k : Fin 30) (d a b : Operand) (g : Guard) (h : Issues s g x) (ha : x.active = [])
    (hfa : FlagFree x.crew (homesOf x.present) (flagA x.cur.hdr)) (hfb : FlagFree x.crew (homesOf x.present) (flagB x.cur.hdr)) :
    ∀ i ∈ [Instr.ld sz c o d a b g, .lds sz d a b g, .ldt sp wide d a b g, .ldk zk c k a b g, .st zs c o d a b g, .sts zs d a b g,
      .stt sp wide d a b g],
    ∃ t y, Ran i s t x y ∧ ∀ c, y.cell c = x.cell c := by
  simp only [List.forall_mem_cons, List.not_mem_nil, false_imp_iff, implies_true, and_true]
  have load : ∀ {i : Instr} {sp n sg c o d dn}, exec i s = loadOp s sp n sg c o d dn a b g → _ := fun hx =>
    ran_of_issueMem hx h (loadBody_idle ha h.plain hfa _ _ _ _ _ _ _ _ _ _)
  have store : ∀ {i : Instr} {sp n c o d dn}, exec i s = storeOp s sp n c o d dn a b g → _ := fun hx =>
    ran_of_issueMem hx h (storeBody_idle ha hfb _ _ _ _ _ _ _ _ _)
  exact ⟨load rfl, load rfl, load rfl, ran_of_issueMem rfl h (ldkBody_idle ha h.plain hfa _ _ _ _ _ _), store rfl, store rfl, store rfl⟩

theorem idle_commits_complete (s : State) (x z : Iss) (s1 : State) (op : RmwOp) (o : Option Ord) (cap : Fin 32) (len : Fin 64)
    (d a b : Operand) (g : Guard) (h : Commits s g x z s1) (ha : x.active = [])
    (hfa : FlagFree z.crew (homesOf x.present) (flagA x.cur.hdr)) (hfb : FlagFree z.crew (homesOf x.present) (flagB x.cur.hdr)) :
    ∀ i ∈ [Instr.atom op o d a b g, .red op o a b g, .atoms op o d a b g, .msgp cap a b g, .msgs len a b g, .barpa d a b g, .barpw d a b g],
    ∃ t y, Filed i s s1 t x z y [] none := by
  rw [← h.ended_keeps.present] at hfa hfb
  simp only [List.forall_mem_cons, List.not_mem_nil, false_imp_iff, implies_true, and_true]
  refine ⟨?atom, ?red, ?atoms, ?msgp, ?msgs, ?barpa, ?barpw⟩
  case atom => exact h.filed_of_commitOp rfl _ (rmwCheck_idle ha op d a b) (rmwBody_idle ha s1 (red := false) hfa _ _ _ _ _ _ _ _)
  case red => exact h.filed_of_commitOp rfl _ (checkOperands_idle ha _) (rmwBody_idle ha s1 (red := true) hfb _ _ _ _ _ _ _ _)
  case atoms => exact h.filed_of_commitOp rfl _ (rmwCheck_idle ha op d a b) (rmwBody_idle ha s1 (red := false) hfa _ _ _ _ _ _ _ _)
  case msgp => exact h.filed_of_commitOp rfl z.crew.rotate (checkOperands_idle ha _) (msgpBody_idle ha s1 hfb _ _ _ _)
  case msgs => exact h.filed_of_commitOp rfl z.crew.rotate (checkOperands_idle ha _) (msgsBody_idle ha s1 hfb _ _ _ _)
  case barpa =>
    refine h.filed_of_commitOp rfl z.crew.rotate ?_ (barpaBody_idle ha s1 hfa d a b g)
    simp only [checkOperands_idle ha, xregForbidden_idle ha, Bool.false_eq_true, if_false]
  case barpw => exact h.filed_of_commitOp rfl z.crew.rotate (checkOperands_idle ha _) (barpwBody_idle ha s1 d a b)

end Sys2Proof.Machine

namespace Sys2Proof.Proofs

open Sys2Proof.Machine

/-- Settles O59: it holds, each kind of form by the lemma about what its shared executor does. Without an active lane the length of a
message is not looked at. -/
theorem plainFormsComplete : Obligations.PlainFormsComplete :=
  ⟨specialFunctions_complete, nop_yield_complete, waitf_completes, fun _ _ n _ h => mark_completes n h, idle_loads_and_stores_complete,
    fun s x z s1 op o cap len d a b g h ha hfa hfb _ => idle_commits_complete s x z s1 op o cap len d a b g h ha hfa hfb⟩

end Sys2Proof.Proofs
end

section
/-! SUPPORT. What an instruction leaves once its issue group has been put back: a group that goes past, or one that waits where it
stands. -/

namespace Sys2Proof.Machine

/-! ## The context of a group put back -/

/-- The context of a group put back into a state that holds the crew's grid. -/
theorem context_put {s : State} {w : Iss} {gd : Grid} (hd : Map.find? s.grids w.crew.grid = some gd) :
    ∃ y, (w.put s).context w.cur = some y ∧ y.crew = { w.crew with groups := Map.put w.crew.groups w.cur.group w.grp } ∧
      y.grp = w.grp := by
  have hg : Map.find? (w.put s).grids w.crew.grid = some gd := hd
  simp only [State.context, issuer, Iss.put, Map.find?_put_self] at hg ⊢
  simp only [hg]
  exact ⟨_, rfl, rfl, rfl⟩

/-- Where a wait leaves a group outside an episode: it stands in the wait, past its breakpoint. -/
theorem settle_block {s : State} {x : Iss} (he : x.grp.episode = none) (ts : List (Nat × Nat)) (ix : Nat) (sets : List OSet) (w : Wait) :
    settle s x ts ix sets (.block w) =
      .next (({ x with grp := { x.grp with wait := w, brk := x.grp.here } } : Iss).put { s with cur := none }) := by
  simp only [settle, he, Option.isSome_none, Bool.false_eq_true, if_false]

/-- An instruction that changes its issue group alone and goes past leaves every sticky flag. -/
theorem ran_of_put_group_fpx {i : Instr} {s : State} {g : Guard} {x : Iss} {gr : Group} (h : Issues s g x) (he : gr.episode = none)
    (hr : gr.regions = x.grp.regions) (hx : exec i s = .next (advance (({ x with grp := gr } : Iss).put s) x.cur)) :
    ∃ t y, Ran i s t { x with grp := gr } y ∧ (∀ c, y.cell c = x.cell c) ∧
      ∀ p, (y.crew.thread p).fpx = (x.crew.thread p).fpx := by
  obtain ⟨y, hy, hk, hc, hf⟩ := advance_holds (h.put_group he) (Touch.refl _) (Flagged.refl _) (holds_refl (h.put_group he))
  exact ⟨_, y, ⟨hx, hy, hk.of_put_group⟩, fun c => (hc c).trans (cell_congr (y := x.withGroup gr) hr (fun _ => rfl) c), hf⟩

/-! ## WAITF (02_execution.md R39) -/

theorem flagMet_of_lt {c : Crew} {ps : List (Nat × Nat)} {f thr : Nat} (h : ∃ p ∈ ps, thr < (c.sheaf p.2).flag f) :
    flagMet c ps f thr = false := by
  obtain ⟨p, hp, hlt⟩ := h
  simp only [flagMet, List.all_eq_false, decide_eq_true_eq]
  exact ⟨p.2, (mem_homesOf _ _).2 ⟨p, hp, rfl⟩, by omega⟩

/-- What WAITF makes of its group where it waits: the marks of runahead stay where it waited there already. -/
def Group.inWaitf (gr : Group) (f thr : Nat) : Group :=
  { gr with wait := .waitf f thr, brk := gr.active.map fun a => (a.addr, a.index),
            ranWait := decide (gr.wait = .waitf f thr) && gr.ranWait, noShadow := decide (gr.wait = .waitf f thr) && gr.noShadow }

/-- WAITF on a flag above its threshold, with no cause posted at the flag, waits. -/
theorem execWaitf_unmet {s : State} {x : Iss} {f : Fin 12} {thr : Fin 64} (g : Guard) (h : Issues s gAlways x)
    (hflag : ∃ p ∈ x.present, thr < (x.crew.sheaf p.2).flag f) (hpost : ∀ q ∈ x.crew.posted, q.flag ≠ some f.val) :
    execWaitf f thr g s = .next (({ x with grp := x.grp.inWaitf f thr } : Iss).put { s with cur := none }) := by
  have he : ¬x.grp.episode.isSome = true := by simp [h.plain]
  simp only [execWaitf, h.issuer, if_neg he, postedAt_of_none hpost, flagMet_of_lt hflag, Bool.false_eq_true, if_false]
  by_cases hw : x.grp.wait = .waitf f.val thr.val
  · rw [if_pos hw, settle_block h.plain]
    simp only [Group.inWaitf, Group.here, hw, decide_true, Bool.true_and]
  · rw [if_neg hw, settle_block (x := { x with grp := { x.grp with ranWait := false, noShadow := false } }) h.plain]
    simp only [Group.inWaitf, Group.here, hw, decide_false, Bool.false_and]

end Sys2Proof.Machine

namespace Sys2Proof.Proofs

open Sys2Proof.Machine

/-- Settles O53: it holds. Met, WAITF goes past with the marks of its wait gone; unmet, its group is put back in the wait. -/
theorem waitfWaits : Obligations.WaitfWaits := by
  intro flag thr g s x h hpost
  refine ⟨fun hflag => ?_, fun hflag => ?_⟩
  · exact ran_of_put_group_fpx (gr := { x.grp with ranWait := false, noShadow := false }) h h.plain rfl (execWaitf_met g h hflag hpost)
  · obtain ⟨_, _, _, hgrid, _⟩ := issuer_inv h.issuer
    obtain ⟨y, hy, hcrew, hgrp⟩ := context_put (s := { s with cur := none }) (w := { x with grp := x.grp.inWaitf flag thr }) hgrid
    exact ⟨_, y, execWaitf_unmet g h hflag hpost, hy, hgrp, by rw [hcrew], rfl⟩

end Sys2Proof.Proofs
end

section
/-! SUPPORT. Changes of threads and of restart points alone, and what an instruction that puts work in flight leaves when its group goes
past or waits where it stands. -/

namespace Sys2Proof.Machine

/-! ## Lists of numbers -/

theorem dedup_nodup (xs : List Nat) : (dedup xs).Nodup := by
  induction xs with
  | nil => exact List.nodup_nil
  | cons x rest ih =>
    simp only [dedup, List.nodup_cons, List.mem_filter, bne_self_eq_false, Bool.false_eq_true, and_false, not_false_eq_true, true_and]
    exact ih.filter _

theorem homesOf_nodup (ps : List (Nat × Nat)) : (homesOf ps).Nodup := dedup_nodup _

/-! ## Changes of threads -/

/-- A home sheaf but for its threads and what its restart points record of it. -/
def Sheaf.sansThreads (h : Sheaf) : Sheaf := { h with threads := [], ckK := [], ckKS := [], ckHash := 0 }

/-- What a change of threads and restart points alone leaves of a crew. -/
structure OnThreads (c c' : Crew) : Prop where
  crew : { c' with sheaves := [] } = { c with sheaves := [] }
  count : c'.sheaves.length = c.sheaves.length
  sheaf : ∀ h, (c'.sheaf h).sansThreads = (c.sheaf h).sansThreads
  threads : ∀ h, (c'.sheaf h).threads.length = (c.sheaf h).threads.length

theorem OnThreads.refl (c : Crew) : OnThreads c c := ⟨rfl, rfl, fun _ => rfl, fun _ => rfl⟩

theorem OnThreads.trans {a b c : Crew} (h : OnThreads a b) (k : OnThreads b c) : OnThreads a c :=
  ⟨k.crew.trans h.crew, k.count.trans h.count, fun i => (k.sheaf i).trans (h.sheaf i), fun i => (k.threads i).trans (h.threads i)⟩

theorem OnThreads.foldl {α : Type} {f : Crew → α → Crew} (hf : ∀ c a, OnThreads c (f c a)) (xs : List α) (c : Crew) :
    OnThreads c (xs.foldl f c) := by
  induction xs generalizing c with
  | nil => exact OnThreads.refl c
  | cons a rest ih => exact (hf c a).trans (ih (f c a))

/-- A change of one home sheaf that leaves all but its threads, and their number. -/
theorem onThreads_modSheaf (c : Crew) (h : Nat) (f : Sheaf → Sheaf) (hf : ∀ z, (f z).sansThreads = z.sansThreads)
    (hl : ∀ z, (f z).threads.length = z.threads.length) : OnThreads c (c.modSheaf h f) :=
  ⟨rfl, c.modSheaf_length h f, fun j => Crew.sheaf_modSheaf_prop c h j f Sheaf.sansThreads hf,
   fun j => Crew.sheaf_modSheaf_prop c h j f (fun z => z.threads.length) hl⟩

theorem onThreads_modThread (c : Crew) (p : Nat × Nat) (f : Thread → Thread) : OnThreads c (c.modThread p f) :=
  onThreads_modSheaf c p.2 _ (fun _ => rfl) fun _ => by simp

theorem onThreads_modThreads (c : Crew) (ps : List (Nat × Nat)) (f : Nat × Nat → Thread → Thread) : OnThreads c (c.modThreads ps f) :=
  OnThreads.foldl (fun c p => onThreads_modThread c p (f p)) ps c

theorem OnThreads.files {c c' : Crew} (h : OnThreads c c') (i : Nat) : (c'.sheaf i).files = (c.sheaf i).files :=
  (congrArg Sheaf.files (h.sheaf i) :)

theorem OnThreads.flag {c c' : Crew} (h : OnThreads c c') (i k : Nat) : (c'.sheaf i).flag k = (c.sheaf i).flag k :=
  (congrArg (fun z : Sheaf => z.flag k) (h.sheaf i) :)

/-- A thread that a change of several does not name is as it was. -/
theorem Crew.thread_modThreads_other (c : Crew) (ps : List (Nat × Nat)) (f : Nat × Nat → Thread → Thread) (q : Nat × Nat)
    (hq : q ∉ ps) : (c.modThreads ps f).thread q = c.thread q := by
  induction ps generalizing c with
  | nil => rfl
  | cons p rest ih =>
    rw [List.mem_cons, not_or] at hq
    exact (ih (c.modThread p (f p)) hq.2).trans (Crew.thread_modThread_other c p q (f p) hq.1)

/-- A property of threads that a change of several keeps. -/
theorem Crew.thread_modThreads_prop {α : Type} (c : Crew) (ps : List (Nat × Nat)) (f : Nat × Nat → Thread → Thread) (r : Thread → α)
    (hf : ∀ p t, r (f p t) = r t) (q : Nat × Nat) : r ((c.modThreads ps f).thread q) = r (c.thread q) := by
  induction ps generalizing c with
  | nil => rfl
  | cons p rest ih => exact (ih (c.modThread p (f p))).trans (Crew.thread_modThread_prop c p q (f p) r (hf p))

/-- Threads of the crew that a change of several names once are changed. -/
theorem Crew.thread_modThreads_mem (c : Crew) (ps : List (Nat × Nat)) (f : Nat × Nat → Thread → Thread) (hn : ps.Nodup)
    (hs : ∀ p ∈ ps, p.2 < c.sheaves.length) (hl : ∀ p ∈ ps, p.1 < (c.sheaf p.2).threads.length) (q : Nat × Nat) (hq : q ∈ ps) :
    (c.modThreads ps f).thread q = f q (c.thread q) := by
  induction ps generalizing c with
  | nil => cases hq
  | cons p rest ih =>
    have hk := onThreads_modThread c p (f p)
    have hc : (c.modThreads (p :: rest) f) = (c.modThread p (f p)).modThreads rest f := rfl
    have hone := Crew.thread_modThread c p q (f p) (hs p (by simp)) (hl p (by simp))
    rw [List.nodup_cons] at hn
    rcases List.mem_cons.1 hq with rfl | hr
    · rw [hc, Crew.thread_modThreads_other _ _ _ _ hn.1, hone, if_pos rfl]
    · have hne : q ≠ p := fun e => hn.1 (e ▸ hr)
      rw [hc, ih _ hn.2 (fun r hr => hk.count ▸ hs r (by simp [hr])) (fun r hr => hk.threads _ ▸ hl r (by simp [hr])) hr, hone,
        if_neg hne]

/-! ## Restart points (02_execution.md R51) -/

/-- A thread but for the restart point it records. -/
def Thread.sansCk (t : Thread) : Thread := { t with ck := none }

/-- A home sheaf that records what its restart points hold of it. -/
def Sheaf.recorded (z : Sheaf) : Sheaf := { z with ckK := z.k, ckKS := z.kS, ckHash := z.hash }

/-- A thread with its present PC as its restart point. -/
def Crew.restartThread (c : Crew) (m : Nat → Option RegionMap) (n : Nat) (p : Nat × Nat) (t : Thread) : Thread :=
  { t with ck := some (checkpointOf (c.sheaf p.2) p.1 t (m p.1) n) }

theorem restartPoint_eq (c : Crew) (ps : List (Nat × Nat)) (m : Nat → Option RegionMap) (n : Nat) :
    restartPoint c ps m n = (homesOf ps).foldl (fun c h => c.modSheaf h Sheaf.recorded) (c.modThreads ps (c.restartThread m n)) := rfl

theorem onThreads_restartPoint (c : Crew) (ps : List (Nat × Nat)) (m : Nat → Option RegionMap) (n : Nat) :
    OnThreads c (restartPoint c ps m n) :=
  (onThreads_modThreads c ps _).trans
    (OnThreads.foldl (fun c h => onThreads_modSheaf c h Sheaf.recorded (fun _ => rfl) fun _ => rfl) _ _)

/-- A change of home sheaves that leaves their threads leaves every thread. -/
theorem Crew.thread_foldl_modSheaf (f : Sheaf → Sheaf) (hf : ∀ z, (f z).threads = z.threads) (hs : List Nat) (c : Crew)
    (q : Nat × Nat) : (hs.foldl (fun c h => c.modSheaf h f) c).thread q = c.thread q := by
  induction hs generalizing c with
  | nil => rfl
  | cons h rest ih =>
    exact (ih _).trans (Crew.sheaf_modSheaf_prop c h q.2 f (fun z => (z.threads[q.1]?).getD Thread.gone) fun z => by rw [hf])

theorem thread_restartPoint (c : Crew) (ps : List (Nat × Nat)) (m : Nat → Option RegionMap) (n : Nat) (q : Nat × Nat) :
    ((restartPoint c ps m n).thread q).sansCk = (c.thread q).sansCk := by
  rw [restartPoint_eq, Crew.thread_foldl_modSheaf Sheaf.recorded fun _ => rfl]
  exact Crew.thread_modThreads_prop c ps (c.restartThread m n) Thread.sansCk (fun _ _ => rfl) q

theorem thread_restartPoint_other (c : Crew) (ps : List (Nat × Nat)) (m : Nat → Option RegionMap) (n : Nat) (q : Nat × Nat)
    (hq : q ∉ ps) : (restartPoint c ps m n).thread q = c.thread q := by
  rw [restartPoint_eq, Crew.thread_foldl_modSheaf Sheaf.recorded fun _ => rfl]
  exact Crew.thread_modThreads_other c ps (c.restartThread m n) q hq

/-! ## Going past with work done -/

theorem SameMemory.refl (s : State) : SameMemory s s := ⟨rfl, rfl, rfl⟩

theorem SameMemory.trans {a b c : State} (h : SameMemory a b) (k : SameMemory b c) : SameMemory a c :=
  ⟨k.1.trans h.1, k.2.1.trans h.2.1, k.2.2.trans h.2.2⟩

theorem Counted.none {c c' : Crew} (h : ∀ i k, (c'.sheaf i).flag k = (c.sheaf i).flag k) : Counted c c' [] none := by
  intro i k
  simp [h i k]

/-- Cells by the regions of the group and by the main file, k registers and predicates of home sheaves. -/
theorem cell_of_files {x y : Iss} (hr : y.grp.regions = x.grp.regions) (hs : ∀ h, (y.crew.sheaf h).files = (x.crew.sheaf h).files)
    (c : Cell) : y.cell c = x.cell c := by
  have hm : ∀ h, (y.crew.sheaf h).main = (x.crew.sheaf h).main ∧ (y.crew.sheaf h).k = (x.crew.sheaf h).k ∧
      (y.crew.sheaf h).p = (x.crew.sheaf h).p := fun h => by
    have := hs h
    simp only [Sheaf.files, Prod.mk.injEq] at this
    exact ⟨this.1, this.2.2.1, this.2.2.2.2.1⟩
  cases c with
  | slot l i => simp only [Iss.cell, slotOf, regionOf, hr]
  | main h r l => simp only [Iss.cell, Sheaf.mainAt, (hm h).1]
  | k h i => simp only [Iss.cell, (hm h).2.1]
  | pred h i l =>
    have : (y.crew.sheaf h).pred i l = (x.crew.sheaf h).pred i l := by unfold Sheaf.pred; rw [(hm h).2.2]
    simp only [Iss.cell, this]

/-- What work an instruction has done, from the context z in the state s1, leaves in the context w in the state s2: a flag that counts
up, and registers and memories as they were. -/
structure Works (s1 s2 : State) (z w : Iss) (homes : List Nat) (f : Option Nat) : Prop where
  cur : w.cur = z.cur
  episode : w.grp.episode = none
  grid : w.crew.grid = z.crew.grid
  grids : s2.grids = s1.grids
  memory : SameMemory s1 s2
  otherCrews : ∀ n, n ≠ z.cur.crew → Map.find? s2.crews n = Map.find? s1.crews n
  own : w.crew.memories = z.crew.memories
  cells : ∀ c, w.cell c = z.cell c
  flags : Counted z.crew w.crew homes f
  fpx : ∀ p, (w.crew.thread p).fpx = (z.crew.thread p).fpx

/-- Where its group goes past with the work done, an instruction is filed; y is the issue group then. -/
theorem Works.filed {i : Instr} {s s1 s2 : State} {x z w : Iss} {homes : List Nat} {f : Option Nat} {gd : Grid}
    (k : Works s1 s2 z w homes f) (hcur : z.cur = x.cur) (hgd : Map.find? s1.grids z.crew.grid = some gd)
    (hx : exec i s = .next (advance (w.put s2) x.cur)) :
    ∃ y, Filed i s s1 (advance (w.put s2) x.cur) x z y homes f ∧
      Advanced (w.put s2) (advance (w.put s2) x.cur) x.cur { w.crew with groups := Map.put w.crew.groups w.cur.group w.grp } w.grp
        y.crew y.grp := by
  have hw : w.cur = x.cur := k.cur.trans hcur
  obtain ⟨y, hy, a⟩ := advance_context (s := w.put s2) (cu := x.cur) (g := w.grp) (gd := gd)
    (by rw [← hw]; exact Map.find?_put_self _ _ _) (by rw [← hw]; exact Map.find?_put_self _ _ _)
    (by rw [Iss.put_grids, k.grids]; exact k.grid ▸ hgd) k.episode
  have hfile : ∀ h, (y.crew.sheaf h).files = (w.crew.sheaf h).files := fun h => (congrArg Sheaf.files (a.sheaf h) :)
  refine ⟨y, ⟨hx, hy, ?_, fun n hn => ?_, ?_, fun c => ?_, fun h j => ?_, fun p => ?_⟩, a⟩
  · exact k.memory.trans ⟨(congrArg State.hbm a.machine :), (congrArg State.host a.machine :), (congrArg State.store a.machine :)⟩
  · exact (a.otherCrews n hn).trans ((Map.find?_put_other _ _ _ _ (hw ▸ hn)).trans (k.otherCrews n (hcur ▸ hn)))
  · exact (congrArg Crew.memories a.crew : _).trans k.own
  · exact (cell_of_files (x := w) ((congrArg Group.regions a.group :)) hfile c).trans (k.cells c)
  · exact (congrArg (fun q : Sheaf => q.flag j) (a.sheaf h) : _).trans (k.flags h j)
  · exact (congrArg Thread.fpx (a.thread p) : _).trans (k.fpx p)

/-! ## Waiting where the instruction stands -/

/-- The maps that reopen for the lanes of a group, as its restart point records them. -/
def Group.reopenAt (g : Group) (l : Nat) : Option RegionMap := (g.reopen.find? fun p => p.2.contains l).map fun p => p.1

/-- A crew whose group stays in a wait at a commit instruction. -/
def Iss.stayed (w : Iss) (n : Nat) (v : Wait) : Crew :=
  { restartPoint { w.crew with groups := Map.put w.crew.groups w.cur.group w.grp } w.cur.lanes w.grp.reopenAt n with
    groups := Map.put (Map.put w.crew.groups w.cur.group w.grp) w.cur.group { w.grp with wait := v, brk := w.grp.here } }

theorem stayAt_crew (s : State) (w : Iss) (v : Wait) :
    Map.find? (stayAt (w.put s) w.cur v).crews w.cur.crew = some (w.stayed s.seq v) := by
  simp only [stayAt, State.onGroup, State.modCrew, Iss.put]
  rw [Map.find?_mod_self _ _ _ _ (Map.find?_put_self _ _ _)]
  simp only [Map.find?_put_self]
  rfl

/-- A group left at a commit instruction that it waits in: only its wait, and restart points, change. -/
theorem stayAt_spec {s : State} {w : Iss} {gd : Grid} (hgd : Map.find? s.grids w.crew.grid = some gd) (v : Wait) :
    ∃ y, (stayAt (w.put s) w.cur v).context w.cur = some y ∧ y.grp = { w.grp with wait := v, brk := w.grp.here } ∧
      OnThreads { w.crew with groups := [] } { y.crew with groups := [] } ∧
      ∀ p, (y.crew.thread p).sansCk = (w.crew.thread p).sansCk := by
  have hr := onThreads_restartPoint { w.crew with groups := Map.put w.crew.groups w.cur.group w.grp } w.cur.lanes w.grp.reopenAt s.seq
  have ht := thread_restartPoint { w.crew with groups := Map.put w.crew.groups w.cur.group w.grp } w.cur.lanes w.grp.reopenAt s.seq
  have hgrid : (w.stayed s.seq v).grid = w.crew.grid := (congrArg Crew.grid hr.crew :)
  have hg : Map.find? (stayAt (w.put s) w.cur v).grids (w.stayed s.seq v).grid = some gd := hgrid ▸ hgd
  have hk : Map.find? (w.stayed s.seq v).groups w.cur.group = some { w.grp with wait := v, brk := w.grp.here } :=
    Map.find?_put_self _ _ _
  simp only [State.context, issuer, stayAt_crew, hk, hg]
  exact ⟨_, rfl, rfl, ⟨(congrArg (fun c : Crew => { c with groups := [] }) hr.crew :), hr.count, hr.sheaf, hr.threads⟩, ht⟩

end Sys2Proof.Machine
end

section
/-! SUPPORT. What translating an address, and what the requests of a miss, leave of the machine. -/

namespace Sys2Proof.Machine

/-! ## Folds -/

/-- What every step of a fold keeps, the fold keeps. -/
theorem foldl_keeps {α σ β : Type} {f : σ → α → σ} (q : σ → β) (hf : ∀ s a, q (f s a) = q s) (xs : List α) (s : σ) :
    q (xs.foldl f s) = q s := by
  induction xs generalizing s with
  | nil => rfl
  | cons a rest ih => exact (ih (f s a)).trans (hf s a)

/-- What every step of a fold that may stop keeps where it succeeds, the fold keeps. -/
theorem foldE_keeps_eq {ε α σ β : Type} {f : σ → α → Except ε σ} (q : σ → β) (hf : ∀ s a t, f s a = .ok t → q t = q s) {xs : List α}
    {s t : σ} (h : foldE f s xs = .ok t) : q t = q s :=
  foldE_keeps (P := fun u => q u = q s) (fun a y b hb ha => (hf a y b hb).trans ha) h rfl

/-! ## Traffic: lines, requests to slices, frames to peers, counters (05_memory.md R121, R125, R128) -/

/-- A machine but for what misses and their requests change: the cores' caches, counters, slices, gates, ports and trackers. -/
def State.sansTraffic (s : State) : State :=
  { s with cores := [], banks := [], slices := [], trackers := [], ports := [], gates := [], free := 0 }

theorem sendL2_traffic (s : State) (r : L2Req) : (sendL2 s r).sansTraffic = s.sansTraffic := rfl

theorem gateCheck_traffic {s t : State} {gate len : Nat} {y : OSet} {d : GDest} (h : gateCheck s gate len y d = some t) :
    t.sansTraffic = s.sansTraffic := by
  simp only [gateCheck] at h
  split at h
  · cases h
  · split at h
    · cases h; rfl
    · split at h
      · cases h
      · cases h; rfl

theorem countN_banks (s : State) (kind unit vf : Nat) (h : Bool) (code n : Nat) :
    ∃ b, countN s kind unit vf h code n = { s with banks := b } := ⟨_, rfl⟩

theorem sendFrame_traffic {s t : State} {dev vf : Nat} {h : Bool} {gated : Option (Nat × OSet)} {body : FrameBody}
    (k : sendFrame s dev vf h gated body = .ok t) : t.sansTraffic = s.sansTraffic := by
  simp only [sendFrame] at k
  split at k
  · cases k
  · split at k
    · cases k; rfl
    · split at k
      · rename_i u hu
        cases k
        exact Eq.trans (by rfl) (gateCheck_traffic hu)
      · cases k

theorem takeTracker_traffic {s t : State} {q : Tracker} {i : Nat} (h : takeTracker s q = .ok (i, t)) :
    t.sansTraffic = s.sansTraffic := by
  simp only [takeTracker] at h
  split at h
  · cases h
  · split at h
    · cases h
    · cases h; rfl

theorem request_traffic {s t : State} {dev vf : Nat} {h : Bool} {q : Tracker} {gated : Option (Nat × OSet)} {body : Nat → FrameBody}
    (k : request s dev vf h q gated body = .ok t) : t.sansTraffic = s.sansTraffic := by
  simp only [request] at k
  split at k
  · cases k
  · rename_i i u hu
    split at k
    · cases k
    · rename_i v hv
      cases k
      exact Eq.trans (by rfl) ((sendFrame_traffic hv).trans (takeTracker_traffic hu))

theorem missLine_traffic {s t : State} {core vf : Nat} {h : Bool} {pcls : Nat} {c : CacheP} {key : Nat}
    (k : missLine s core vf h pcls c key = .ok t) : t.sansTraffic = s.sansTraffic := by
  simp only [missLine] at k
  split at k
  · cases k; rfl
  · split at k
    · cases k
    · split at k
      · cases k; rfl
      · split at k
        · rename_i u hu
          cases k
          exact (request_traffic hu).trans (by rfl)
        · cases k

theorem startMisses_traffic {s t : State} {core vf : Nat} {h : Bool} {c : CacheP} {as : List Acc}
    (k : startMisses s core vf h c as = .ok t) : t.sansTraffic = s.sansTraffic :=
  foldE_keeps_eq State.sansTraffic (fun _ _ _ => missLine_traffic) k

theorem touchHits_traffic (s : State) (core : Nat) (c : CacheP) (as : List Acc) : (touchHits s core c as).sansTraffic = s.sansTraffic :=
  foldl_keeps State.sansTraffic (fun s k => by split <;> rfl) _ s

/-! ## Translation (15_translation.md R343 to R346) -/

/-- A machine but for what the checks of an access change: what translation reads and caches, its bits in the leaves and frames, and
the note of an unrecorded access. -/
def State.sansLookup (s : State) : State :=
  { s with cores := [], ctlb := [], slices := [], hbm := [], frames := [], walks := [], vfs := [] }

theorem memPut_lookup (s : State) (vf pa : Nat) (b : Byte) : (memPut s vf pa b).sansLookup = s.sansLookup := by
  unfold memPut
  split <;> rfl

theorem touchLeaves_lookup (s : State) (vf : Nat) (e : TlbEntry) (bits : Nat) : (touchLeaves s vf e bits).sansLookup = s.sansLookup := by
  unfold touchLeaves
  split
  · rfl
  · exact (memPut_lookup _ _ _ _).trans (memPut_lookup _ _ _ _)

theorem takeEntry_lookup (s : State) (core : Nat) (e : TlbEntry) (write demand : Bool) :
    (takeEntry s core e write demand).sansLookup = s.sansLookup := by
  simp only [takeEntry]
  refine (touchLeaves_lookup _ _ _ _).trans ?_
  split <;> split <;> rfl

theorem noteEntry_lookup (s : State) (e : WalkEntry) : (noteEntry s e).sansLookup = s.sansLookup := by
  unfold noteEntry touchMissed
  split
  · rfl
  · split <;> rfl

theorem translate_lookup {s t : State} {core vf proc va : Nat} {write demand : Bool} {e : TlbEntry}
    (h : translate s core vf proc va write demand = .ok (e, t)) : t.sansLookup = s.sansLookup := by
  simp only [translate] at h
  split at h
  · split at h
    · cases h
    · cases h; exact takeEntry_lookup _ _ _ _ _
  · split at h
    · cases h
    · split at h
      · cases h
      · cases h
        exact (takeEntry_lookup _ _ _ _ _).trans (foldl_keeps State.sansLookup noteEntry_lookup _ s)

theorem placeOf_lookup {s t : State} {core : Nat} {g : Grid} {va need : Nat} {demand : Bool} {p : Place}
    (h : placeOf s core g va need demand = .ok (p, t)) : t.sansLookup = s.sansLookup := by
  simp only [placeOf] at h
  split at h
  · cases h
  · split at h
    · split at h
      · cases h; rfl
      · cases h
    · split at h
      · cases h
      · rename_i u hu
        cases h
        exact translate_lookup hu

theorem genericOne_lookup {s t : State} {x : Iss} {n need pcls : Nat} {set : Option OSet} {w : Want} {a : Acc}
    (h : genericOne s x n need pcls set w = .ok (a, t)) : t.sansLookup = s.sansLookup ∧ ∃ p, a = accOf t x w n pcls p := by
  simp only [genericOne] at h
  split at h
  · cases h
  · rename_i p u hu
    have hk := placeOf_lookup hu
    split at h
    · cases h
    · split at h
      · cases h
      · split at h
        · split at h
          · cases h
          · cases h; exact ⟨hk, p, rfl⟩
        · cases h; exact ⟨hk, p, rfl⟩

theorem noteUnrecorded_lookup (s : State) (vf : Nat) (g : Grid) (crewIx va : Nat) :
    (noteUnrecorded s vf g crewIx va).sansLookup = s.sansLookup := by
  unfold noteUnrecorded
  split <;> rfl

/-- What an access asks for: its thread, address, bytes, length and space. -/
def Acc.ask (a : Acc) : (Nat × Nat) × Nat × List Byte × Nat × Space := ((a.lane, a.sheaf), a.addr, a.data, a.n, a.space)

/-- One step of the checks of a generic access's lanes. -/
def checkLane (x : Iss) (n need pcls : Nat) (set : Option OSet) (a : List Acc × List Bad × State) (w : Want) :
    List Acc × List Bad × State :=
  match genericOne a.2.2 x n need pcls set w with
  | .ok (c, s) => (a.1 ++ [c], a.2.1, noteUnrecorded s x.grid.vf x.grid x.crew.index w.addr)
  | .error e => (a.1, a.2.1 ++ [(w.who.1, w.addr, e)], a.2.2)

theorem genericAll_eq (s : State) (x : Iss) (n need pcls : Nat) (set : Option OSet) (ws : List Want) :
    genericAll s x n need pcls set ws =
      if (ws.foldl (checkLane x n need pcls set) ([], [], s)).2.1.isEmpty then
        .ok ((ws.foldl (checkLane x n need pcls set) ([], [], s)).1, (ws.foldl (checkLane x n need pcls set) ([], [], s)).2.2)
      else .error (raiseAccess (ws.foldl (checkLane x n need pcls set) ([], [], s)).2.1 (bitOf need 1) false) := rfl

/-- Checks that none of the lanes fails give each lane its access, in order. -/
theorem checkLanes_ask (x : Iss) (n need pcls : Nat) (set : Option OSet) (ws : List Want) (a : List Acc × List Bad × State) :
    (ws.foldl (checkLane x n need pcls set) a).2.2.sansLookup = a.2.2.sansLookup ∧
    ((ws.foldl (checkLane x n need pcls set) a).2.1 = [] → a.2.1 = [] ∧
      (ws.foldl (checkLane x n need pcls set) a).1.map Acc.ask =
        a.1.map Acc.ask ++ ws.map fun w => (w.who, w.addr, w.data, n, Space.generic)) := by
  induction ws generalizing a with
  | nil => exact ⟨rfl, fun h => ⟨h, by simp⟩⟩
  | cons w rest ih =>
    obtain ⟨hk, hq⟩ := ih (checkLane x n need pcls set a w)
    rw [List.foldl_cons]
    cases hw : genericOne a.2.2 x n need pcls set w with
    | ok r =>
      obtain ⟨hl, p, hp⟩ := genericOne_lookup (a := r.1) (t := r.2) hw
      have hs : checkLane x n need pcls set a w = (a.1 ++ [r.1], a.2.1, noteUnrecorded r.2 x.grid.vf x.grid x.crew.index w.addr) := by
        simp only [checkLane, hw]
      rw [hs] at hk hq ⊢
      refine ⟨hk.trans ((noteUnrecorded_lookup _ _ _ _ _).trans hl), fun he => ?_⟩
      obtain ⟨h1, h2⟩ := hq he
      refine ⟨h1, h2.trans ?_⟩
      simp [hp, accOf, Acc.ask]
    | error e =>
      have hs : checkLane x n need pcls set a w = (a.1, a.2.1 ++ [(w.who.1, w.addr, e)], a.2.2) := by simp only [checkLane, hw]
      rw [hs] at hk hq ⊢
      refine ⟨hk, fun he => ?_⟩
      have := (hq he).1
      simp at this

/-- Checks that pass give each lane its access, in order, and leave the machine but for what translation changes. -/
theorem checkAll_spec {s t : State} {x : Iss} {sp : Space} {win : Bool} {n need pcls : Nat} {set : Option OSet} {ws : List Want}
    {as : List Acc} (h : checkAll s x sp win n need pcls set ws = .ok (as, t)) :
    t.sansLookup = s.sansLookup ∧ as.map Acc.ask = ws.map fun w => (w.who, w.addr, w.data, n, sp) := by
  unfold checkAll at h
  split at h
  · rename_i hsp
    rw [genericAll_eq] at h
    obtain ⟨hk, hq⟩ := checkLanes_ask x n need pcls set ws ([], [], s)
    generalize ws.foldl (checkLane x n need pcls set) ([], [], s) = r at h hk hq
    split at h
    · rename_i he
      cases h
      refine ⟨hk, ?_⟩
      rw [(hq (List.isEmpty_iff.1 he)).2, hsp]
      rfl
    · cases h
  · simp only [crewAll] at h
    split at h
    · cases h
    · rename_i bs hb
      cases h
      split at hb
      · cases hb
        refine ⟨rfl, ?_⟩
        rw [List.map_map]
        rfl
      · cases hb

end Sys2Proof.Machine
end

section
/-! SUPPORT. What the end of regions leaves of home sheaves and threads, and how a commit instruction whose region has ended goes on. -/

namespace Sys2Proof.Machine

/-! ## Home sheaves at the end of regions (02_execution.md R46, R72) -/

/-- A home sheaf but for its main file, what is noted of its window stores, and its completion flags. -/
def Sheaf.sansMain (h : Sheaf) : Sheaf := { h with main := [], mainS := [], mainW := [], mainWS := [], flags := [] }

/-- Two crews with as many home sheaves, alike but for what the end of regions changes in them. -/
structure SameSheaves (c c' : Crew) : Prop where
  count : c'.sheaves.length = c.sheaves.length
  sheaf : ∀ h, (c'.sheaf h).sansMain = (c.sheaf h).sansMain

theorem SameSheaves.refl (c : Crew) : SameSheaves c c := ⟨rfl, fun _ => rfl⟩

theorem SameSheaves.trans {a b c : Crew} (h : SameSheaves a b) (k : SameSheaves b c) : SameSheaves a c :=
  ⟨k.count.trans h.count, fun i => (k.sheaf i).trans (h.sheaf i)⟩

theorem SameSheaves.foldl {α : Type} {f : Crew → α → Crew} (hf : ∀ c a, SameSheaves c (f c a)) (xs : List α) (c : Crew) :
    SameSheaves c (xs.foldl f c) := by
  induction xs generalizing c with
  | nil => exact SameSheaves.refl c
  | cons a rest ih => exact (hf c a).trans (ih (f c a))

theorem SameSheaves.foldE {α ε σ : Type} {f : σ → α → Except ε σ} (q : σ → Crew) (hf : ∀ a y b, f a y = .ok b → SameSheaves (q a) (q b))
    {ys : List α} {x z : σ} (h : foldE f x ys = .ok z) : SameSheaves (q x) (q z) :=
  foldE_keeps (P := fun a => SameSheaves (q x) (q a)) (fun a y b hb ha => ha.trans (hf a y b hb)) h (SameSheaves.refl _)

theorem SameSheaves.thread {c c' : Crew} (h : SameSheaves c c') (p : Nat × Nat) : c'.thread p = c.thread p :=
  (congrArg (fun z : Sheaf => (z.threads[p.1]?).getD Thread.gone) (h.sheaf p.2) :)

theorem SameSheaves.threads {c c' : Crew} (h : SameSheaves c c') (i : Nat) : (c'.sheaf i).threads = (c.sheaf i).threads :=
  (congrArg Sheaf.threads (h.sheaf i) :)

theorem sameSheaves_modSheaf (c : Crew) (h : Nat) (f : Sheaf → Sheaf) (hf : ∀ z, (f z).sansMain = z.sansMain) :
    SameSheaves c (c.modSheaf h f) :=
  ⟨c.modSheaf_length h f, fun j => Crew.sheaf_modSheaf_prop c h j f Sheaf.sansMain hf⟩

theorem writeBackSet_sheaves {fam i h : Nat} {m : RegionMap} {whole : List Nat} {a b : Crew × Map OEntry}
    (hb : writeBackSet fam m i whole a h = .ok b) : SameSheaves a.1 b.1 := by
  simp only [writeBackSet] at hb
  split at hb
  · cases hb; exact sameSheaves_modSheaf _ _ _ fun _ => rfl
  · split at hb
    · cases hb
    · rename_i u t' _
      cases hb
      exact SameSheaves.trans (b := a.1.putSlotSets fam m i _) ⟨rfl, fun _ => rfl⟩
        (sameSheaves_modSheaf _ h (fun z => { z with mainS := Map.put z.mainS (mapReg m i) u }) fun _ => rfl)

theorem writeBackSlot_sheaves {g : Group} {m : RegionMap} {ls whole : List Nat} {i : Nat} {sl : Slot} {c : Crew}
    {t : Map OEntry} {b : Crew × Map OEntry} (hb : writeBackSlot g m ls whole i sl c t = .ok b) : SameSheaves c b.1 :=
  (SameSheaves.foldl (fun c l => sameSheaves_modSheaf c (g.homeAt l) (fun h => h.setMain (mapReg m i) l (laneGet sl.vals l 0)) fun _ => rfl)
    (ls.filter fun l => laneGet sl.dirty l false) c).trans
    (SameSheaves.foldE (fun a : Crew × Map OEntry => a.1) (fun _ _ _ hs => writeBackSet_sheaves hs) hb)

theorem endRegions_sheaves {c c' : Crew} {g g' : Group} {ls : List Nat} {t t' : Map OEntry} {es : List StoreEntry}
    (he : g.episode = none) (h : endRegions c g ls t = .ok (c', g', t', es)) : SameSheaves c c' := by
  simp only [endRegions, he] at h
  split at h
  · cases h
  · rename_i d u hd
    cases h
    have hw : SameSheaves c d := SameSheaves.foldE (fun a : Crew × Map OEntry => a.1)
      (fun _ _ _ hs => SameSheaves.foldE (fun a : Crew × Map OEntry => a.1) (fun _ _ _ hp => writeBackSlot_sheaves hp) hs) hd
    exact ⟨hw.count, hw.sheaf⟩

theorem numberStore_sheaves (c : Crew) (e : StoreEntry) : (numberStore c e).1.sheaves = c.sheaves := by
  unfold numberStore
  split <;> rfl

theorem numberStores_sheaves (es : List StoreEntry) (c : Crew) : (numberStores c es).1.sheaves = c.sheaves :=
  foldl_keeps (fun a : Crew × List StoreEntry => a.1.sheaves) (fun a e => numberStore_sheaves a.1 e) es (c, [])

theorem stampRegion_sheaves (c0 : Crew) (g : Group) (r : Region) (ls : List Nat) (c : Crew) :
    SameSheaves c (stampRegion c0 g r ls c) := by
  unfold stampRegion
  refine SameSheaves.foldl (fun c p => ?_) _ c
  refine SameSheaves.trans (SameSheaves.foldl (fun c l => ?_) _ c) (SameSheaves.foldl (fun c h => ?_) _ _)
  · exact sameSheaves_modSheaf c _ (fun z => { z with mainW := Map.put z.mainW (32 * mapReg r.map p.1 + l) c.winIss }) fun _ => rfl
  · exact sameSheaves_modSheaf c h (fun z => { z with mainWS := Map.put z.mainWS (mapReg r.map p.1) c.winIss }) fun _ => rfl

theorem orderBack_sheaves (c0 : Crew) (g : Group) (ls : List Nat) (c : Crew) (es : List StoreEntry) :
    SameSheaves c (orderBack c0 g ls c es).1 := by
  have hn : SameSheaves c (numberStores c es).1 :=
    ⟨by rw [numberStores_sheaves], fun h => by simp only [Crew.sheaf, numberStores_sheaves]⟩
  simp only [orderBack]
  split
  · exact hn
  · exact hn.trans (SameSheaves.foldl (fun c r => stampRegion_sheaves c0 g r ls c) _ _)

theorem incFlag_sheaves {c c' : Crew} {homes : List Nat} {f : Option Nat} (h : incFlag c homes f = .ok c') : SameSheaves c c' := by
  unfold incFlag at h
  split at h
  · cases h; exact SameSheaves.refl c
  · rename_i k
    split at h
    · cases h
      exact SameSheaves.foldl (fun c i => sameSheaves_modSheaf c i (fun z => { z with flags := Map.put z.flags k (z.flag k + 1) })
        fun _ => rfl) _ c
    · cases h

theorem enqueueStores_sheaves {s s' : State} {core : Nat} {c c' : Crew} {es : List StoreEntry}
    (h : enqueueStores s core c es = .ok (s', c')) : SameSheaves c c' := by
  unfold enqueueStores at h
  split at h
  · cases h
  · rename_i d q out hd
    cases h
    refine SameSheaves.foldE (fun a : Crew × Nat × List StoreEntry => a.1) (fun a e b hs => ?_) hd
    split at hs
    · cases hs
    · rename_i w hw
      cases hs
      exact incFlag_sheaves hw

/-- The end of a group's regions leaves every thread, and the other registers of every home sheaf. -/
theorem endRegion_sheaves {x y : Iss} {ls : List Nat} {s s' : State} (he : x.grp.episode = none)
    (h : x.endRegion ls s = .ok (y, s')) : SameSheaves x.crew y.crew := by
  unfold Iss.endRegion at h
  split at h
  · cases h
  · rename_i c g t out hr
    simp only [he, Option.isSome_none, Bool.false_eq_true, if_false] at h
    split at h
    · cases h
    · rename_i s2 c2 hq
      cases h
      refine (endRegions_sheaves he hr).trans (SameSheaves.trans (b := if out.isEmpty then c else stateChange c x.grp.role x.cur.addr) ?_
        ((orderBack_sheaves _ _ _ _ _).trans (enqueueStores_sheaves hq)))
      split
      · exact SameSheaves.refl c
      · exact ⟨rfl, fun _ => rfl⟩

/-! ## Commit instructions (02_execution.md R47) -/

section
variable {s s1 : State} {g : Guard} {x z : Iss} (h : Commits s g x z s1)
include h

theorem Commits.sheaves : SameSheaves x.crew z.crew := by
  obtain ⟨y, hy, rfl⟩ := h.ended
  have hk := endRegion_sheaves h.issues.plain hy
  exact hk

theorem Commits.thread (p : Nat × Nat) : z.crew.thread p = x.crew.thread p := h.sheaves.thread p

/-- The context z stands in a state that holds its grid. -/
theorem Commits.grid : Map.find? s1.grids z.crew.grid = some x.grid := by
  obtain ⟨_, _, _, hgrid, _⟩ := issuer_inv h.issues.issuer
  have hcg : z.crew.grid = x.crew.grid := (congrArg Crew.grid h.ended_keeps.crew :)
  have hg : s1.grids = s.grids := (congrArg State.grids h.ended_keeps.machine :)
  rw [hg, hcg]
  exact hgrid

/-- A commit instruction whose checks pass goes on with its body. -/
theorem Commits.commitOp_eq (sets : Iss → List OSet) {check : Iss → Except Stop Unit} (body : Iss → Iss → State → Except Stop Done)
    (hc : check x = .ok ()) : commitOp s g sets check body =
      match body x z s1 with
      | .error (.block w) => .next (stayAt (z.put s1) x.cur w)
      | .error e => settle s x x.active x.cur.index (sets x) e
      | .ok (t, some w) => .next (stayAt t x.cur w)
      | .ok (t, none) => .next (advance t x.cur) := by
  obtain ⟨y, hy, rfl⟩ := h.ended
  have he : ¬x.grp.episode.isSome = true := by simp [h.issues.plain]
  simp only [commitOp, h.issues.issuer, if_neg he, hc, hy] <;> rfl

/-- A commit instruction whose body does its work and goes past. -/
theorem Commits.filed_of_works {i : Instr} {s2 s3 : State} {w : Iss} {homes : List Nat} {f : Option Nat} {sets : Iss → List OSet}
    {check : Iss → Except Stop Unit} {body : Iss → Iss → State → Except Stop Done} (hx : exec i s = commitOp s g sets check body)
    (hc : check x = .ok ()) (hb : body x z s1 = .ok (w.put s3, none)) (hgd : Map.find? s2.grids z.crew.grid = some x.grid)
    (k : Works s2 s3 z w homes f) :
    ∃ t y, Filed i s s2 t x z y homes f ∧
      Advanced (w.put s3) t x.cur { w.crew with groups := Map.put w.crew.groups w.cur.group w.grp } w.grp y.crew y.grp := by
  rw [h.commitOp_eq sets body hc, hb] at hx
  obtain ⟨y, hy, ha⟩ := k.filed h.ended_keeps.cur hgd hx
  exact ⟨_, y, hy, ha⟩

/-- A commit instruction whose body waits. -/
theorem Commits.stays_of {i : Instr} {s3 : State} {w : Iss} {v : Wait} {sets : Iss → List OSet}
    {check : Iss → Except Stop Unit} {body : Iss → Iss → State → Except Stop Done} (hx : exec i s = commitOp s g sets check body)
    (hc : check x = .ok ()) (hb : body x z s1 = .ok (w.put s3, some v)) (hcur : w.cur = x.cur)
    (hgd : Map.find? s3.grids w.crew.grid = some x.grid) :
    ∃ t y, exec i s = .next t ∧ t.context x.cur = some y ∧ y.grp = { w.grp with wait := v, brk := w.grp.here } ∧
      OnThreads { w.crew with groups := [] } { y.crew with groups := [] } ∧
      ∀ p, (y.crew.thread p).sansCk = (w.crew.thread p).sansCk := by
  rw [h.commitOp_eq sets body hc, hb, ← hcur] at hx
  obtain ⟨y, hy⟩ := stayAt_spec (w := w) hgd v
  exact ⟨_, y, hx, hcur ▸ hy⟩
end

/-- Registers of a group whose threads, restart points and wait alone have changed. -/
theorem cell_of_onThreads {w y : Iss} (hr : y.grp.regions = w.grp.regions)
    (h : OnThreads { w.crew with groups := [] } { y.crew with groups := [] }) (c : Cell) : y.cell c = w.cell c :=
  cell_of_files hr (fun i => h.files i) c

/-! ## MIGR (02_execution.md R58, 08_isa_control.md R202) -/

/-- Operands that can be read pass their check. -/
theorem Operable.check_sources {x : Iss} {os : List (Operand × Nat)} {d : Operand} {n : Nat} (h : Operable x os d n) :
    checkOperands x x.active os = .ok () := by
  unfold checkOperands
  rw [if_pos, if_pos]
  · rw [List.all_eq_true]
    exact fun o hm => List.all_eq_true.2 fun p hp => (h.named o (List.mem_append_left _ hm) p hp).2
  · rw [List.all_eq_true]
    exact fun o hm => List.all_eq_true.2 fun p hp => (h.named o (List.mem_append_left _ hm) p hp).1

theorem Works.self {s1 : State} {z : Iss} (he : z.grp.episode = none) : Works s1 s1 z z [] none :=
  ⟨rfl, he, rfl, rfl, SameMemory.refl _, fun _ _ => rfl, rfl, fun _ => rfl, Counted.none fun _ _ => rfl, fun _ => rfl⟩

theorem anyFlag_false {fs : Map Nat} (h : ∀ f ∈ fs, f.2 = 0) : (fs.any fun f => f.2 != 0) = false := by
  simp only [List.any_eq_false, bne_iff_ne, ne_eq, not_not]
  exact h

/-- The body of MIGR. -/
def migrBody (a : Operand) (x y : Iss) (s : State) : Except Stop Done :=
  match lowActive x with
  | none => .ok (y.put s, none)
  | some l => migrateBody l (val64 x a l) x y s

theorem exec_migr (a : Operand) (g : Guard) (s : State) : exec (.migr a g) s =
    commitOp s g (fun x => trapSets x [(a, 2)] [] g) (fun x => checkOperands x x.active [(a, 2)]) (migrBody a) := rfl

/-- MIGR of a solo crew with no flag up: its address's page decides (R202). -/
theorem migrBody_of {a : Operand} {s1 s2 : State} {x z : Iss} {l : Nat × Nat} {pl : Place} (hl : lowActive x = some l)
    (hs : soloCrew x.crew x.grid = true) (hp : placeOf s1 x.crew.core x.grid (val64 x a l).toNat 1 true = .ok (pl, s2))
    (hf : ∀ f ∈ (z.crew.sheaf l.2).flags, f.2 = 0) : migrBody a x z s1 =
      if pl.dev != 0 || homeDie s2 x.grid.vf pl.pa == dieOf x.crew.core then .ok (z.put s2, none)
      else if inHandler z.crew then .ok (z.put s2, some (.migr (val64 x a l)))
      else .ok (z.put s2, some (.landing (homeDie s2 x.grid.vf pl.pa))) := by
  simp only [migrBody, hl, migrateBody, hs, Bool.not_true, Bool.false_eq_true, if_false, hp, anyFlag_false hf]

end Sys2Proof.Machine

namespace Sys2Proof.Proofs

open Sys2Proof.Machine

/-- Settles O25: it holds, by what the place of the address decides. -/
theorem migration : Obligations.Migration := by
  intro a g s x z s1 s2 l pl h ho hl hs hp hf
  have hgd : Map.find? s2.grids z.crew.grid = some x.grid := by
    have hg : s2.grids = s1.grids := (congrArg State.grids (placeOf_lookup hp) :)
    rw [hg]
    exact h.grid
  have hb := migrBody_of hl hs hp hf
  refine ⟨fun hhome => ?_, fun hdev hdie hh => ?_⟩
  · rw [if_pos (by rcases hhome with hd | hd <;> simp [hd])] at hb
    obtain ⟨t, y, hy, _⟩ := h.filed_of_works (exec_migr a g s) ho.check_sources hb hgd (Works.self h.ended_keeps.episode)
    exact ⟨t, y, hy⟩
  · rw [if_neg (by simp [hdev, hdie]), if_neg (by simp [hh])] at hb
    obtain ⟨t, y, hx, hy, hg, hk, _⟩ := h.stays_of (exec_migr a g s) ho.check_sources hb h.ended_keeps.cur hgd
    exact ⟨t, y, hx, hy, by rw [hg], cell_of_onThreads (by rw [hg]) hk⟩

end Sys2Proof.Proofs
end

section
/-! SUPPORT. Crew barriers: what an arrival counts, and how the instructions of barriers arrive, go past or wait (02_execution.md R41
to R43; 08_isa_control.md R198, R199). -/

namespace Sys2Proof.Machine

/-! ## Arrivals (02_execution.md R42) -/

theorem mem_insertAsc (x a : Nat) (xs : List Nat) : a ∈ insertAsc x xs ↔ a = x ∨ a ∈ xs := by
  induction xs with
  | nil => simp [insertAsc]
  | cons y rest ih =>
    simp only [insertAsc]
    split
    · simp
    · split
      · rename_i e; subst e; simp
      · simp only [List.mem_cons, ih]
        exact or_left_comm

/-- An arrival that does not make the count the expected one. -/
theorem Barrier.count_before {b : Barrier} {h : Nat} {drop : Bool} (k : b.arrived + 1 ≠ b.expect) : b.count h drop =
    { b with sheaves := insertAsc h b.sheaves, arrived := b.arrived + 1, last := Map.put b.last h b.phases,
             drops := if drop then b.drops + 1 else b.drops } := by
  simp only [Barrier.count, if_neg k]

/-- The arrival that makes the count the expected one. -/
theorem Barrier.count_completes {b : Barrier} {h : Nat} {drop : Bool} (k : b.arrived + 1 = b.expect) : b.count h drop =
    { b with sheaves := [], threads := [], arrived := 0, last := Map.put b.last h b.phases, drops := 0, phase := !b.phase,
             phases := b.phases + 1, expect := b.expect - if drop then b.drops + 1 else b.drops } := by
  simp only [Barrier.count, if_pos k, Barrier.complete]

theorem barrierArrivalRule : Sys2Proof.Claims.BarrierArrivalRule := by
  intro b h drop
  have hd : (if drop then b.drops + 1 else b.drops) = b.drops + if drop then 1 else 0 := by cases drop <;> rfl
  refine ⟨fun hbad => ?_, fun he hn hdrop hle => ?_, fun he hn hle => ⟨?_, _, rfl, fun k => ?_, fun k => ?_⟩⟩
  · simp only [Barrier.check]
    rcases hbad with he | hm
    · rw [if_pos he]
    · simp [hm]
  · have hlt : b.expect < b.drops + 1 := by omega
    simp [Barrier.check, he, hn, hdrop, hlt]
  · have hroom : (drop && decide (b.expect < b.drops + 1)) = false := by
      cases drop with
      | false => rfl
      | true => simpa using hle rfl
    simp only [Barrier.check, if_neg he, List.contains_eq_mem, hn, decide_false, Bool.false_eq_true, if_false, hroom]
  · rw [Barrier.count_before k]
    exact ⟨rfl, rfl, rfl, rfl, (mem_insertAsc h h _).2 (.inl rfl), hd⟩
  · rw [Barrier.count_completes k]
    exact ⟨rfl, rfl, rfl, rfl, rfl, by rw [hd]⟩

/-! ## The barriers of a crew -/

theorem Crew.barrier_congr {c c' : Crew} (hb : c'.barriers = c.barriers) (hn : c'.sheaves.length = c.sheaves.length) (k : Nat) :
    c'.barrier k = c.barrier k := by
  simp only [Crew.barrier, hb, hn]

theorem Crew.barrier_put (c : Crew) (b k : Nat) (br : Barrier) :
    ({ c with barriers := Map.put c.barriers b br } : Crew).barrier k = if k = b then br else c.barrier k := by
  simp only [Crew.barrier, Map.get_put]

/-- Moving past an instruction leaves the barriers. -/
theorem Advanced.barrier {s t : State} {cu : Cur} {w w' : Crew} {g g' : Group} (a : Advanced s t cu w g w' g') (k : Nat) :
    w'.barrier k = w.barrier k := by
  have hb : w'.barriers = w.barriers := (congrArg Crew.barriers a.crew :)
  exact Crew.barrier_congr hb a.count k

theorem OnThreads.grid {c c' : Crew} (h : OnThreads c c') : c'.grid = c.grid := (congrArg Crew.grid h.crew :)

theorem OnThreads.barrier {c c' : Crew} (h : OnThreads c c') (k : Nat) : c'.barrier k = c.barrier k := by
  have hb : c'.barriers = c.barriers := (congrArg Crew.barriers h.crew :)
  exact Crew.barrier_congr hb h.count k

theorem Advanced.barWait {s t : State} {cu : Cur} {w w' : Crew} {g g' : Group} (a : Advanced s t cu w g w' g') (p : Nat × Nat) :
    (w'.thread p).barWait = (w.thread p).barWait :=
  (congrArg Thread.barWait (a.thread p) :)

/-! ## A context whose threads, barriers and spin records have changed -/

/-- A crew but for its barriers and the spin detector. -/
def Crew.sansWaits (c : Crew) : Crew := { c with barriers := [], spin := [], demoted := [] }

/-- Work on threads and barriers alone. -/
theorem Works.of_onThreads {s1 : State} {z w : Iss} (he : z.grp.episode = none) (hcur : w.cur = z.cur) (hgrp : w.grp = z.grp)
    (h : OnThreads z.crew.sansWaits w.crew.sansWaits) (hfpx : ∀ p, (w.crew.thread p).fpx = (z.crew.thread p).fpx) :
    Works s1 s1 z w [] none :=
  ⟨hcur, hgrp ▸ he, (congrArg Crew.grid h.crew :), rfl, SameMemory.refl _, fun _ _ => rfl, (congrArg Crew.memories h.crew :),
    fun c => cell_of_files (by rw [hgrp]) (fun i => h.files i) c, Counted.none fun i k => h.flag i k, hfpx⟩

/-! ## BARA and BARD -/

theorem release_inl {s1 s2 : State} {z : Iss} {sc : Scope} (h : release s1 z sc = .inl s2) :
    threadLoadsDue s1 z.cur.crew s1.seq z.present = false := by
  unfold release at h
  split at h
  · cases h
  · rename_i hn
    simp only [Bool.or_eq_true, not_or, Bool.not_eq_true] at hn
    exact hn.1

/-- A context with a barrier of its crew changed. -/
def Iss.withBarrier (z : Iss) (b : Nat) (br : Barrier) : Iss :=
  { z with crew := { z.crew with barriers := Map.put z.crew.barriers b br } }

theorem arriveBody_of {b : Nat} {drop : Bool} {x z : Iss} {s1 : State} {br : Barrier} (ha : x.active ≠ [])
    (hb : arriveThreads z.crew (z.crew.barrier b) x.active drop = .ok br) (hr : release s1 z .crew = .inl s1) :
    arriveBody b drop x z s1 = .ok ((z.withBarrier b br).changed.put s1, none) := by
  have hne : x.active.isEmpty = false := by simpa using ha
  simp only [arriveBody, hne, Bool.false_eq_true, if_false, hb, released, hr]
  rfl

theorem exec_arrive (drop : Bool) (b : Fin 16) (g : Guard) (s : State) : exec (if drop then .bard b g else .bara b g) s =
    commitOp s g (fun x => baseSets x x.active g) (fun _ => .ok ()) (arriveBody b.val drop) := by
  cases drop <;> rfl

theorem arrive_filed {drop : Bool} {b : Fin 16} {g : Guard} {s s1 : State} {x z : Iss} {br : Barrier} (h : Commits s g x z s1)
    (ha : x.active ≠ []) (hb : arriveThreads z.crew (z.crew.barrier b) x.active drop = .ok br) (hr : release s1 z .crew = .inl s1) :
    ∃ t y, Filed (if drop then .bard b g else .bara b g) s s1 t x z y [] none ∧ y.crew.barrier b = br ∧
      ∀ k, k ≠ b.val → y.crew.barrier k = z.crew.barrier k := by
  have hk : Works s1 s1 z (z.withBarrier b br).changed [] none :=
    Works.of_onThreads h.ended_keeps.episode rfl rfl ⟨rfl, rfl, fun _ => rfl, fun _ => rfl⟩ fun _ => rfl
  obtain ⟨t, y, hy, hadv⟩ := h.filed_of_works (exec_arrive drop b g s) rfl (arriveBody_of ha hb hr) h.grid hk
  have hbar : ∀ k, y.crew.barrier k = if k = b.val then br else z.crew.barrier k := fun k =>
    (hadv.barrier k).trans (Crew.barrier_put z.crew b.val k br)
  exact ⟨t, y, hy, by rw [hbar, if_pos rfl], fun k hk => by rw [hbar, if_neg hk]⟩

/-! ## The waits of BARS and BARW -/

/-- A context with waits set at a barrier. -/
def Iss.waiting (z : Iss) (b : Nat) (f : Nat × Nat → Nat) (ps : List (Nat × Nat)) : Iss := { z with crew := setWaits z.crew b f ps }

/-- A context with the waits of threads over. -/
def Iss.waited (z : Iss) (ps : List (Nat × Nat)) : Iss :=
  { z with crew := z.crew.modThreads ps fun _ t => { t with barWait := none } }

theorem newArrivals_all {x : Iss} (b : Nat) (h : ∀ p ∈ x.active, (x.crew.thread p).barWait = none) : newArrivals x b = x.active := by
  simp only [newArrivals, List.filter_eq_self]
  intro p hp
  simp [standing, h p hp]

/-- A wait of several threads of a crew. -/
theorem barWait_waiting {z : Iss} {b : Nat} {f : Nat × Nat → Nat} {ps : List (Nat × Nat)} (hn : ps.Nodup)
    (hs : ∀ p ∈ ps, p.2 < z.crew.sheaves.length) (hl : ∀ p ∈ ps, p.1 < (z.crew.sheaf p.2).threads.length) {p : Nat × Nat}
    (hp : p ∈ ps) : ((z.waiting b f ps).crew.thread p).barWait = some (b, f p) := by
  rw [Iss.waiting, setWaits, Crew.thread_modThreads_mem _ _ _ hn hs hl p hp]

theorem barrier_waiting (z : Iss) (b : Nat) (f : Nat × Nat → Nat) (ps : List (Nat × Nat)) (k : Nat) :
    (z.waiting b f ps).crew.barrier k = z.crew.barrier k :=
  (onThreads_modThreads z.crew ps fun p t => { t with barWait := some (b, f p) }).barrier k

theorem waitOver_waiting {z : Iss} {b : Nat} {f : Nat × Nat → Nat} {ps : List (Nat × Nat)} (hn : ps.Nodup)
    (hs : ∀ p ∈ ps, p.2 < z.crew.sheaves.length) (hl : ∀ p ∈ ps, p.1 < (z.crew.sheaf p.2).threads.length) {p : Nat × Nat}
    (hp : p ∈ ps) : waitOver (z.waiting b f ps).crew p = decide (f p ≤ (z.crew.barrier b).phases) := by
  simp only [waitOver, barWait_waiting hn hs hl hp, barrier_waiting]

/-- The end of waits: past where every thread's phase has completed. -/
theorem barrierDone_over {y : Iss} {b : Nat} {ps : List (Nat × Nat)} {s : State} (ho : ∀ p ∈ ps, waitOver y.crew p = true)
    (hd : threadLoadsDue s y.cur.crew s.seq y.present = false) : barrierDone y b ps s = .ok ((y.waited ps).put s, none) := by
  have hall : (ps.all fun p => waitOver y.crew p) = true := List.all_eq_true.2 ho
  simp only [barrierDone, hall, if_true, acquired, hd, Bool.false_eq_true, if_false]
  rfl

/-- The end of waits: one where a thread's phase has not completed. -/
theorem barrierDone_waits {y : Iss} {b : Nat} {ps : List (Nat × Nat)} {s : State} (ho : ∃ p ∈ ps, waitOver y.crew p = false) :
    barrierDone y b ps s = .ok (y.put s, some (.bar b)) := by
  have hall : (ps.all fun p => waitOver y.crew p) = false := by simpa using ho
  simp only [barrierDone, hall, Bool.false_eq_true, if_false]

section
variable {s s1 : State} {g : Guard} {x z : Iss} (h : Commits s g x z s1)
include h

/-- The active threads stand in the home sheaves of the context whose region has ended. -/
theorem Commits.active_in : (∀ p ∈ x.active, p.2 < z.crew.sheaves.length) ∧
    ∀ p ∈ x.active, p.1 < (z.crew.sheaf p.2).threads.length :=
  ⟨fun p hp => h.sheaves.count ▸ h.issues.inSheaf p (h.issues.activeMem hp),
    fun p hp => h.sheaves.threads p.2 ▸ h.issues.inThread p (h.issues.activeMem hp)⟩

/-- A barrier instruction whose threads' phases have completed goes past; w is z with a barrier, and the spin detector's records. -/
theorem Commits.filed_waited {i : Instr} {sets : Iss → List OSet} {body : Iss → Iss → State → Except Stop Done} {w : Iss} {b : Nat}
    {f : Nat × Nat → Nat} (hx : exec i s = commitOp s g sets (fun _ => .ok ()) body)
    (hb : body x z s1 = barrierDone (w.waiting b f x.active) b x.active s1) (hcur : w.cur = z.cur) (hgrp : w.grp = z.grp)
    (hpresent : w.present = z.present) (hw : OnThreads z.crew.sansWaits w.crew.sansWaits) (hth : ∀ p, w.crew.thread p = z.crew.thread p)
    (hover : ∀ p ∈ x.active, f p ≤ (w.crew.barrier b).phases) (hd : threadLoadsDue s1 z.cur.crew s1.seq z.present = false) :
    ∃ t y, Filed i s s1 t x z y [] none ∧ y.crew.barrier b = w.crew.barrier b ∧ ∀ p ∈ x.active, (y.crew.thread p).barWait = none := by
  obtain ⟨hin, hlt⟩ := h.active_in
  have hin' : ∀ p ∈ x.active, p.2 < w.crew.sheaves.length := fun p hp => (hw.count : w.crew.sheaves.length = _) ▸ hin p hp
  have hlt' : ∀ p ∈ x.active, p.1 < (w.crew.sheaf p.2).threads.length := fun p hp =>
    (hw.threads p.2 : (w.crew.sheaf p.2).threads.length = _) ▸ hlt p hp
  have hn := h.issues.activeNodup
  have k1 := onThreads_modThreads w.crew x.active fun p t => { t with barWait := some (b, f p) }
  have k2 := onThreads_modThreads (w.waiting b f x.active).crew x.active fun _ t => { t with barWait := none }
  have hk : OnThreads z.crew.sansWaits ((w.waiting b f x.active).waited x.active).crew.sansWaits :=
    hw.trans (OnThreads.trans (b := (w.waiting b f x.active).crew.sansWaits)
      ⟨(congrArg Crew.sansWaits k1.crew :), k1.count, k1.sheaf, k1.threads⟩
      ⟨(congrArg Crew.sansWaits k2.crew :), k2.count, k2.sheaf, k2.threads⟩)
  have hfpx : ∀ p, (((w.waiting b f x.active).waited x.active).crew.thread p).fpx = (z.crew.thread p).fpx := fun p =>
    (Crew.thread_modThreads_prop _ _ (fun _ t => { t with barWait := none }) Thread.fpx (fun _ _ => rfl) p).trans
      ((Crew.thread_modThreads_prop _ _ (fun p t => { t with barWait := some (b, f p) }) Thread.fpx (fun _ _ => rfl) p).trans
        (by rw [hth]))
  rw [barrierDone_over (fun p hp => by rw [waitOver_waiting hn hin' hlt' hp]; exact decide_eq_true (hover p hp))
    (by simp only [Iss.waiting, hcur, hpresent, hd])] at hb
  obtain ⟨t, y, hy, hadv⟩ := h.filed_of_works hx rfl hb h.grid
    (Works.of_onThreads h.ended_keeps.episode (w := (w.waiting b f x.active).waited x.active) hcur hgrp hk hfpx)
  refine ⟨t, y, hy, (hadv.barrier b).trans ?_, fun p hp => (hadv.barWait p).trans ?_⟩
  · exact (k2.barrier b).trans (barrier_waiting w b f x.active b)
  · show (((w.waiting b f x.active).waited x.active).crew.thread p).barWait = none
    rw [Iss.waited, Crew.thread_modThreads_mem _ _ _ hn (fun p hp => k1.count ▸ hin' p hp) (fun p hp => k1.threads p.2 ▸ hlt' p hp) p hp]

/-- A barrier instruction with a thread whose phase has not completed waits. -/
theorem Commits.stays_waiting {i : Instr} {sets : Iss → List OSet} {body : Iss → Iss → State → Except Stop Done} {w : Iss} {b : Nat}
    {f : Nat × Nat → Nat} (hx : exec i s = commitOp s g sets (fun _ => .ok ()) body)
    (hb : body x z s1 = barrierDone (w.waiting b f x.active) b x.active s1) (hcur : w.cur = z.cur) (hgrp : w.grp = z.grp)
    (hw : OnThreads z.crew.sansWaits w.crew.sansWaits)
    (hlate : ∃ p ∈ x.active, (w.crew.barrier b).phases < f p) :
    ∃ t y, exec i s = .next t ∧ t.context x.cur = some y ∧ y.grp.wait = .bar b ∧ y.crew.barrier b = w.crew.barrier b ∧
      (∀ c, y.cell c = z.cell c) ∧ ∀ p ∈ x.active, (y.crew.thread p).barWait = some (b, f p) := by
  obtain ⟨hin, hlt⟩ := h.active_in
  have hin' : ∀ p ∈ x.active, p.2 < w.crew.sheaves.length := fun p hp => (hw.count : w.crew.sheaves.length = _) ▸ hin p hp
  have hlt' : ∀ p ∈ x.active, p.1 < (w.crew.sheaf p.2).threads.length := fun p hp =>
    (hw.threads p.2 : (w.crew.sheaf p.2).threads.length = _) ▸ hlt p hp
  have hn := h.issues.activeNodup
  have k1 := onThreads_modThreads w.crew x.active fun p t => { t with barWait := some (b, f p) }
  obtain ⟨q, hq, hqlt⟩ := hlate
  rw [barrierDone_waits ⟨q, hq, by
    rw [waitOver_waiting hn hin' hlt' hq]
    exact decide_eq_false (by omega)⟩] at hb
  have hgrid : (w.waiting b f x.active).crew.grid = z.crew.grid := k1.grid.trans hw.grid
  obtain ⟨t, y, hx', hy, hg, hk, hth⟩ := h.stays_of hx rfl hb (hcur.trans h.ended_keeps.cur) (by rw [hgrid]; exact h.grid)
  refine ⟨t, y, hx', hy, by rw [hg], ?_, fun c => ?_, fun p hp => ?_⟩
  · exact (hk.barrier b).trans (barrier_waiting w b f x.active b)
  · exact (cell_of_onThreads (by rw [hg]) hk c).trans
      (cell_of_files (by show w.grp.regions = _; rw [hgrp]) (fun i => (k1.files i).trans (hw.files i)) c)
  · exact (congrArg Thread.barWait (hth p) :).trans (barWait_waiting hn hin' hlt' hp)

end

theorem exec_bars (b : Fin 16) (g : Guard) (s : State) : exec (.bars b g) s =
    commitOp s g (fun x => baseSets x x.active g) (fun _ => .ok ()) (syncBody b.val) := rfl

theorem exec_barw (b : Fin 16) (g : Guard) (s : State) : exec (.barw b g) s =
    commitOp s g (fun x => baseSets x x.active g) (fun _ => .ok ()) (waitBody b.val) := rfl

/-- BARS by threads that do not stand in its wait: the arrival, then the wait for its phase. -/
theorem syncBody_of {b : Nat} {x z : Iss} {s1 : State} {br : Barrier} (ha : x.active ≠ [])
    (hw : ∀ p ∈ x.active, (x.crew.thread p).barWait = none)
    (hb : arriveThreads z.crew (z.crew.barrier b) x.active false = .ok br) (hr : release s1 z .crew = .inl s1) :
    syncBody b x z s1 =
      barrierDone ((z.withBarrier b br).changed.waiting b (arrivedTarget (z.crew.barrier b) br) x.active) b x.active s1 := by
  have hne : x.active.isEmpty = false := by simpa using ha
  simp only [syncBody, newArrivals_all b hw, hne, Bool.false_eq_true, if_false, hb, released, hr]
  have hcomm : ∀ (c : Crew) f ps r n, stateChange (setWaits c b f ps) r n = setWaits (stateChange c r n) b f ps := fun c f ps r n => by
    unfold setWaits Crew.modThreads
    generalize hh : (fun (c : Crew) p => c.modThread p fun t => { t with barWait := some (b, f p) }) = m
    have hm : ∀ c p, stateChange (m c p) r n = m (stateChange c r n) p := fun c p => by subst hh; rfl
    clear hh
    induction ps generalizing c with
    | nil => rfl
    | cons p rest ih => rw [List.foldl_cons, List.foldl_cons, ih, hm]
  simp only [Iss.waiting, Iss.withBarrier, Iss.changed, hcomm]

theorem waitBody_of {b : Nat} {x z : Iss} {s1 : State} (ha : x.active ≠ []) (hw : ∀ p ∈ x.active, (x.crew.thread p).barWait = none) :
    waitBody b x z s1 = barrierDone (z.waiting b (waitTarget (z.crew.barrier b)) x.active) b x.active s1 := by
  have hne : x.active.isEmpty = false := by simpa using ha
  simp only [waitBody, hne, Bool.false_eq_true, if_false, newArrivals_all b hw]
  rfl

theorem barrier_changed (z : Iss) (b : Nat) (br : Barrier) : (z.withBarrier b br).changed.crew.barrier b = br :=
  (Crew.barrier_put z.crew b b br).trans (if_pos rfl)

theorem barrierInstructions : Sys2Proof.Claims.BarrierInstructions := by
  refine ⟨fun drop b g s x z s1 br h ha hb hr => arrive_filed h ha hb hr, fun b g s x z s1 br h ha hw hb hr => ?_,
    fun b g s x z s1 h ha hw hd => ?_⟩
  · have hbody := syncBody_of (b := b.val) ha hw hb hr
    have hk : OnThreads z.crew.sansWaits (z.withBarrier b br).changed.crew.sansWaits := ⟨rfl, rfl, fun _ => rfl, fun _ => rfl⟩
    refine ⟨fun hover => ?_, fun hlate => ?_⟩
    · obtain ⟨t, y, hy, hbar, hwait⟩ := h.filed_waited (exec_bars b g s) hbody rfl rfl rfl hk (fun _ => rfl)
        (fun p hp => by rw [barrier_changed]; exact hover p hp) (release_inl hr)
      exact ⟨t, y, hy, hbar.trans (barrier_changed z b br), hwait⟩
    · obtain ⟨t, y, hx, hy, hg, hbar, hcells, hwait⟩ := h.stays_waiting (exec_bars b g s) hbody rfl rfl hk
        (by rw [barrier_changed]; exact hlate)
      exact ⟨t, y, hx, hy, hbar.trans (barrier_changed z b br), hg, hcells, hwait⟩
  · have hbody := waitBody_of (b := b.val) (z := z) (s1 := s1) ha hw
    refine ⟨fun hover => ?_, fun hlate => ?_⟩
    · obtain ⟨t, y, hy, hbar, _⟩ := h.filed_waited (exec_barw b g s) hbody rfl rfl rfl (OnThreads.refl _) (fun _ => rfl) hover hd
      exact ⟨t, y, hy, hbar⟩
    · obtain ⟨t, y, hx, hy, hg, hbar, hcells, hwait⟩ := h.stays_waiting (exec_barw b g s) hbody rfl rfl (OnThreads.refl _) hlate
      exact ⟨t, y, hx, hy, hg, hbar, hcells⟩

end Sys2Proof.Machine

namespace Sys2Proof.Proofs

open Sys2Proof.Machine

/-- Settles O23: it holds, the rule of arrivals by the two cases of a count, the instructions by whether every phase waited for has
completed. -/
theorem barriers : Obligations.Barriers := ⟨barrierArrivalRule, barrierInstructions⟩

end Sys2Proof.Proofs
end

section
/-! SUPPORT. Loads and read-modify-writes that go into flight: the flag they count, their misses, the operation that stands in the state
(02_execution.md R37, R47; 11_isa_memory.md R257 to R267). -/

namespace Sys2Proof.Machine

/-! ## Counting a flag up (02_execution.md R37, R38) -/

/-- A home sheaf but for its completion flags. -/
def Sheaf.sansFlags (h : Sheaf) : Sheaf := { h with flags := [] }

/-- What a change of completion flags alone leaves of a crew. -/
structure OnFlags (c c' : Crew) : Prop where
  crew : { c' with sheaves := [] } = { c with sheaves := [] }
  count : c'.sheaves.length = c.sheaves.length
  sheaf : ∀ h, (c'.sheaf h).sansFlags = (c.sheaf h).sansFlags

theorem OnFlags.refl (c : Crew) : OnFlags c c := ⟨rfl, rfl, fun _ => rfl⟩

theorem OnFlags.trans {a b c : Crew} (h : OnFlags a b) (k : OnFlags b c) : OnFlags a c :=
  ⟨k.crew.trans h.crew, k.count.trans h.count, fun i => (k.sheaf i).trans (h.sheaf i)⟩

theorem OnFlags.files {c c' : Crew} (h : OnFlags c c') (i : Nat) : (c'.sheaf i).files = (c.sheaf i).files :=
  (congrArg Sheaf.files (h.sheaf i) :)

theorem OnFlags.thread {c c' : Crew} (h : OnFlags c c') (p : Nat × Nat) : c'.thread p = c.thread p :=
  (congrArg (fun z : Sheaf => (z.threads[p.1]?).getD Thread.gone) (h.sheaf p.2) :)

theorem OnFlags.grid {c c' : Crew} (h : OnFlags c c') : c'.grid = c.grid := (congrArg Crew.grid h.crew :)

theorem onFlags_modSheaf (c : Crew) (h : Nat) (f : Sheaf → Sheaf) (hf : ∀ z, (f z).sansFlags = z.sansFlags) :
    OnFlags c (c.modSheaf h f) :=
  ⟨rfl, c.modSheaf_length h f, fun j => Crew.sheaf_modSheaf_prop c h j f Sheaf.sansFlags hf⟩

theorem OnFlags.foldl {α : Type} {f : Crew → α → Crew} (hf : ∀ c a, OnFlags c (f c a)) (xs : List α) (c : Crew) :
    OnFlags c (xs.foldl f c) := by
  induction xs generalizing c with
  | nil => exact OnFlags.refl c
  | cons a rest ih => exact (hf c a).trans (ih (f c a))

/-- A home sheaf with one more at a flag. -/
def Sheaf.countUp (f : Nat) (z : Sheaf) : Sheaf := { z with flags := Map.put z.flags f (z.flag f + 1) }

theorem Sheaf.flag_countUp (f k : Nat) (z : Sheaf) : (z.countUp f).flag k = z.flag k + if f = k then 1 else 0 := by
  simp only [Sheaf.flag, Sheaf.countUp, Map.get_put]
  by_cases hk : k = f
  · subst hk; simp
  · have hk' : ¬f = k := fun e => hk e.symm
    simp [hk, hk']

/-- A flag counted up in distinct home sheaves of a crew. -/
theorem counted_foldl (f : Nat) (homes : List Nat) (c : Crew) (hn : homes.Nodup) (hs : ∀ h ∈ homes, h < c.sheaves.length) :
    Counted c (homes.foldl (fun c h => c.modSheaf h (Sheaf.countUp f)) c) homes (some f) := by
  induction homes generalizing c with
  | nil => intro h k; simp
  | cons a rest ih =>
    rw [List.nodup_cons] at hn
    intro h k
    have hr := ih (c.modSheaf a (Sheaf.countUp f)) hn.2 (fun b hb => by rw [Crew.modSheaf_length]; exact hs b (by simp [hb])) h k
    have hone := Crew.sheaf_modSheaf c a h (Sheaf.countUp f) (hs a (by simp))
    rw [List.foldl_cons, hr, hone]
    by_cases hh : h = a
    · subst hh
      simp [hn.1, Sheaf.flag_countUp]
    · simp [hh]

/-- A flag with room counts up in the home sheaves, and nothing else of the crew changes. -/
theorem incFlag_spec {c : Crew} {homes : List Nat} {f : Option Nat} (hf : FlagFree c homes f) (hn : homes.Nodup)
    (hs : ∀ h ∈ homes, h < c.sheaves.length) : ∃ c', incFlag c homes f = .ok c' ∧ Counted c c' homes f ∧ OnFlags c c' := by
  cases f with
  | none => exact ⟨c, rfl, fun h k => by simp, OnFlags.refl c⟩
  | some k =>
    have hroom : flagRoom c homes k 1 = true := by
      simp only [flagRoom, List.all_eq_true, decide_eq_true_eq]
      exact fun i hi => hf k rfl i hi
    exact ⟨_, by rw [incFlag, if_pos hroom]; rfl, counted_foldl k homes c hn hs,
      OnFlags.foldl (fun c h => onFlags_modSheaf c h (Sheaf.countUp k) fun _ => rfl) homes c⟩

theorem Issues.homes_in {s : State} {g : Guard} {x : Iss} (h : Issues s g x) : ∀ i ∈ homesOf x.active, i < x.crew.sheaves.length :=
  fun i hi => by
    obtain ⟨p, hp, rfl⟩ := (mem_homesOf i _).1 hi
    exact h.inSheaf p (h.activeMem hp)

/-! ## An operation put in flight -/

/-- What traffic leaves, and the operation that it is for. -/
theorem inFlight_of_put {s1 s2 t : State} {o : Op} {x : Iss} (hk : s2.ops = s1.ops) (hn : s2.nextOp = s1.nextOp) {cu : Cur}
    {v v' : Crew} {g g' : Group} (a : Advanced (x.put (addOp s2 o).tickSeq) t cu v g v' g') : InFlight s1 t o := by
  have hops : t.ops = Map.put s2.ops s2.nextOp o := (congrArg State.ops a.machine :)
  have hnext : t.nextOp = s2.nextOp + 1 := (congrArg State.nextOp a.machine :)
  rw [hk, hn] at hops
  rw [hn] at hnext
  exact ⟨by rw [hops, Map.find?_put_self], fun n hne => by rw [hops, Map.find?_put_other _ _ _ _ hne], hnext⟩

/-- Work that counts a flag and puts an operation in flight after traffic. -/
theorem Works.of_flags {s1 s2 : State} {z : Iss} {c : Crew} {homes : List Nat} {f : Option Nat} {o : Op} (he : z.grp.episode = none)
    (hc : Counted z.crew c homes f) (hk : OnFlags z.crew c) (hs : { s2.sansTraffic with osets := [] } = { s1.sansTraffic with osets := [] }) :
    Works s1 (addOp s2 o).tickSeq z { z with crew := c } homes f where
  cur := rfl
  episode := he
  grid := hk.grid
  grids := (congrArg State.grids hs :)
  memory := ⟨(congrArg State.hbm hs :), (congrArg State.host hs :), (congrArg State.store hs :)⟩
  otherCrews n _ := (congrArg (fun q : State => Map.find? q.crews n) hs :)
  own := (congrArg Crew.memories hk.crew :)
  cells q := cell_of_files (x := z) (y := { z with crew := c }) rfl hk.files q
  flags := hc
  fpx p := by rw [hk.thread]

/-! ## Loads (11_isa_memory.md R257, R261) -/

/-- The operation of a load. -/
def loadOpOf (s : State) (x : Iss) (core : Nat) (k : OpKind) (c : CacheP) (o : Option Ord) (set : OSet) (as : List Acc) (need : List Nat) :
    Op :=
  { opBase x k x.active (flagA x.cur.hdr) s.seq with
    accs := as, set := set, sem := (o.map (·.sem)).getD .rlx, scope := (o.map (·.scope)).getD .dev, cache := c,
    need := need, missed := need.any (fillMissed s core) }

/-- A load whose flag and misses have room stands in flight; no register and no memory changes. -/
theorem putLoad_filed {i : Instr} {s s1 s2 s3 : State} {g : Guard} {x : Iss} {sets : Iss → List OSet}
    {body : Iss → Except Stop State} {k : OpKind} {c : CacheP} {o : Option Ord} {set : OSet} {as : List Acc}
    (h : Issues s g x) (hx : exec i s = issueMem s g sets body) (hb : body x = putLoad s2 x k c o set as)
    (hs : { s2 with osets := [] } = { s1 with osets := [] }) (hgd : s1.grids = s.grids)
    (hf : FlagFree x.crew (homesOf x.active) (flagA x.cur.hdr))
    (hm : startMisses (touchHits s2 x.crew.core c as) x.crew.core x.grid.vf x.isH c as = .ok s3) :
    ∃ t y, Filed i s s1 t x x y (homesOf x.active) (flagA x.cur.hdr) ∧
      InFlight s1 t (loadOpOf s3 x x.crew.core k c o set as (missKeys s2 x.crew.core as)) := by
  obtain ⟨_, _, _, hgrid, _⟩ := issuer_inv h.issuer
  obtain ⟨w, hw, hc, hk⟩ := incFlag_spec hf (homesOf_nodup _) h.homes_in
  have htraffic : s3.sansTraffic = s2.sansTraffic := (startMisses_traffic hm).trans (touchHits_traffic _ _ _ _)
  have hs13 : { s3.sansTraffic with osets := [] } = { s1.sansTraffic with osets := [] } := by
    rw [htraffic]
    exact (congrArg State.sansTraffic hs :)
  have hput : putLoad s2 x k c o set as = .ok (({ x with crew := w } : Iss).put
      (addOp s3 (loadOpOf s3 x x.crew.core k c o set as (missKeys s2 x.crew.core as))).tickSeq) := by
    simp only [putLoad, hw, hm]
    rfl
  have hnext : exec i s = .next (advance (({ x with crew := w } : Iss).put
      (addOp s3 (loadOpOf s3 x x.crew.core k c o set as (missKeys s2 x.crew.core as))).tickSeq) x.cur) := by
    rw [hx]
    simp only [issueMem, h.issuer, hb, hput]
  obtain ⟨y, hy, ha⟩ := (Works.of_flags h.plain hc hk hs13).filed (z := x) rfl (by rw [hgd]; exact hgrid) hnext
  exact ⟨_, y, hy, inFlight_of_put (s2 := s3) ((congrArg State.ops hs13 :)) ((congrArg State.nextOp hs13 :)) ha⟩

/-- Accesses that go by a space other than the generic one miss nothing. -/
theorem missKeys_own {as : List Acc} (h : ∀ a ∈ as, a.space ≠ .generic) (s : State) (core : Nat) :
    missKeys s core as = [] ∧ ∀ c, touchHits s core c as = s := by
  have hc : cached as = [] := by
    simp only [cached, List.filter_eq_nil_iff]
    intro a ha
    simp [h a ha]
  exact ⟨by simp [missKeys, hc, dedup], fun c => by simp [touchHits, hc, dedup]⟩

/-- An access to the register window is one to the shared space. -/
theorem Acc.window_space {a : Acc} (h : a.window = true) : a.space = .shared := by
  simp only [Acc.window, Bool.and_eq_true, beq_iff_eq] at h
  exact h.1

/-- Accesses whose window parts have been read ask for what they asked for, but for their bytes. -/
theorem captureWindow_ask (s : State) (x : Iss) (as : List Acc) :
    (captureWindow s x as).map (fun q => ((q.lane, q.sheaf), q.addr, q.n, q.space)) =
      as.map fun q => ((q.lane, q.sheaf), q.addr, q.n, q.space) := by
  simp only [captureWindow, List.map_map]
  refine List.map_congr_left fun a _ => ?_
  simp only [Function.comp]
  split <;> rfl

theorem captureWindow_space {s : State} {x : Iss} {as : List Acc} {sp : Space} (h : ∀ a ∈ as, a.space = sp) :
    ∀ a ∈ captureWindow s x as, a.space = sp := by
  intro a ha
  obtain ⟨b, hb, rfl⟩ := List.mem_map.1 ha
  split
  · exact h b hb
  · exact h b hb

/-- The accesses of checks that pass lie in the space asked for. -/
theorem space_of_ask {as : List Acc} {ws : List Want} {n : Nat} {sp : Space}
    (h : as.map Acc.ask = ws.map fun w => (w.who, w.addr, w.data, n, sp)) : ∀ a ∈ as, a.space = sp := by
  intro a ha
  have hm := List.mem_map_of_mem (f := Acc.ask) ha
  rw [h, List.mem_map] at hm
  obtain ⟨w, _, hw⟩ := hm
  exact (congrArg (fun q => q.2.2.2.2) hw).symm

/-- What a load body comes to where its checks pass. -/
theorem loadBody_of {s s1 : State} {x : Iss} {g : Guard} {sp : Space} {n : Nat} {signed : Bool} {c : CacheP} {o : Option Ord}
    {d : Operand} {dn : Nat} {a b : Operand} {set : OSet} {tab : Map OEntry} {as : List Acc} (he : x.grp.episode = none)
    (hne : x.active ≠ []) (ho : Operable x [(a, 2), (b, 1)] d dn)
    (hset : osJoinAll s.osets 0 (resultSets x x.active [(a, 2), (b, 1)] [] false g) = .ok (set, tab))
    (hc : checkAll { s with osets := tab } x sp true n 1 c.pcls.val none (Sys2Proof.Claims.wants x (addrAt x a b) fun _ => []) = .ok (as, s1))
    (hbusy : as.any Acc.window = true → windowBusy s1 x = false) :
    loadBody s sp n signed c o d dn a b g x =
      let k := OpKind.load { d := d, regs := dn, signed := signed, commit := false, maps := destMaps x }
      if as.any Acc.window then
        match osJoinAll s1.osets set ((as.filter Acc.window).map fun a => accSet s1 x.cur.crew a) with
        | .error e => .error (.raise e [])
        | .ok (u, t) => putLoad { s1 with osets := t } x k c o u (captureWindow s1 x as)
      else putLoad s1 x k c o set as := by
  have hempty : ¬x.active.isEmpty = true := by simpa using hne
  have hep : ¬x.grp.episode.isSome = true := by simp [he]
  have hcheck : checkOperands x x.active [(a, 2), (b, 1), (d, dn)] = .ok () := ho.check
  have hc' : checkAll { s with osets := tab } x sp true n 1 c.pcls.val none
      (x.active.map fun p => { who := p, addr := addrAt x a b p, data := [] }) = .ok (as, s1) := hc
  simp only [loadBody, if_neg hempty, hcheck, ho.allowed, Bool.false_eq_true, if_false, hset, if_neg hep, issueLoad, hc']
  by_cases hw : as.any Acc.window = true
  · simp only [hw, if_true, hbusy hw, Bool.false_eq_true, if_false] <;> rfl
  · simp only [hw, Bool.false_eq_true, if_false]

theorem sansLookup_grids {s s1 : State} {tab : Map OEntry} (h : s1.sansLookup = ({ s with osets := tab } : State).sansLookup) :
    s1.grids = s.grids := (congrArg State.grids h :)

theorem loadFiles {i : Instr} {sp : Space} {n : Nat} {signed : Bool} {c : CacheP} {o : Option Ord} {d : Operand} {dn : Nat}
    {a b : Operand} {g : Guard} (hx : ∀ s, exec i s = loadOp s sp n signed c o d dn a b g) :
    Sys2Proof.Claims.LoadFiles i sp n signed c o d dn a b g := by
  intro s x set tab as s1 h hne ho hset hc hjoins hbusy hf hm
  obtain ⟨hlook, hask⟩ := checkAll_spec hc
  have hgd := sansLookup_grids hlook
  have hb := loadBody_of (signed := signed) (o := o) h.plain hne ho hset hc hbusy
  have hasked : as.map (fun q => ((q.lane, q.sheaf), q.addr, q.n, q.space)) = x.active.map fun p => (p, addrAt x a b p, n, sp) := by
    have := congrArg (List.map fun q : (Nat × Nat) × Nat × List Byte × Nat × Space => (q.1, q.2.1, q.2.2.2)) hask
    simpa [Acc.ask, Sys2Proof.Claims.wants, Function.comp_def] using this
  by_cases hw : as.any Acc.window = true
  · obtain ⟨P, hfit⟩ := hjoins.fit
    obtain ⟨u, t1, hu, _⟩ := hfit.joinAll ((as.filter Acc.window).map fun a => accSet s1 x.cur.crew a) s1.osets set hfit.here
    simp only [hw, if_true, hu] at hb
    have hsp : sp ≠ .generic := by
      obtain ⟨q, hq, hqw⟩ := List.any_eq_true.1 hw
      rw [← space_of_ask hask q hq, Acc.window_space hqw]
      simp
    have hown : ∀ q ∈ captureWindow s1 x as, q.space ≠ .generic := fun q hq => captureWindow_space (space_of_ask hask) q hq ▸ hsp
    obtain ⟨hmiss, htouch⟩ := missKeys_own hown { s1 with osets := t1 } x.crew.core
    have hstart : startMisses (touchHits { s1 with osets := t1 } x.crew.core c (captureWindow s1 x as)) x.crew.core x.grid.vf x.isH c
        (captureWindow s1 x as) = .ok { s1 with osets := t1 } := by
      rw [htouch, startMisses, hmiss]
      rfl
    obtain ⟨t, y, hy, hfl⟩ := putLoad_filed h (hx s) hb (s1 := s1) rfl hgd hf hstart
    exact ⟨t, y, _, hy, hfl, rfl, rfl, rfl, rfl, rfl, (captureWindow_ask s1 x as).trans hasked, rfl, rfl,
      fun e => absurd hw (by simp [e])⟩
  · simp only [hw, Bool.false_eq_true, if_false] at hb
    obtain ⟨s3, hm⟩ := hm
    obtain ⟨t, y, hy, hfl⟩ := putLoad_filed h (hx s) hb (s1 := s1) rfl hgd hf hm
    exact ⟨t, y, _, hy, hfl, rfl, rfl, rfl, rfl, rfl, hasked, rfl, rfl, fun _ => rfl⟩

/-! ## LDK (11_isa_memory.md R263) -/

theorem ldkBody_of {s s1 : State} {x : Iss} {g : Guard} {sz : LdkSize} {c : CacheP} {d : Fin 30} {a b : Operand} {set : OSet}
    {tab : Map OEntry} {as : List Acc} (he : x.grp.episode = none) (hne : x.active ≠ [])
    (hset : osJoinAll s.osets 0 (resultSets x x.active [(a, 2), (b, 1)] [] false g) = .ok (set, tab))
    (hc : checkAll { s with osets := tab } x .generic true (ldkBytes sz) 1 c.pcls.val none
      ((homeReps x).map fun p => { who := p, addr := addrAt x a b p, data := [] }) = .ok (as, s1)) :
    ldkBody s sz c d a b g x = putLoad s1 x (.loadK d.val sz.regs) c none set as := by
  have hempty : ¬x.active.isEmpty = true := by simpa using hne
  have hep : ¬x.grp.episode.isSome = true := by simp [he]
  have hw : ¬as.any Acc.window = true := by
    intro hw
    obtain ⟨q, hq, hqw⟩ := List.any_eq_true.1 hw
    have := (space_of_ask (checkAll_spec hc).2 q hq).symm.trans (Acc.window_space hqw)
    cases this
  simp only [ldkBody, if_neg hempty, hset, if_neg hep, issueLoad, hc, if_neg hw]

/-- The lowest active thread of a home sheaf stands for it. -/
theorem homeReps_of {x : Iss} {h : Nat} (hh : h ∈ homesOf x.active) : ∃ p ∈ homeReps x, p ∈ x.active ∧ p.2 = h := by
  obtain ⟨q, hq, hqh⟩ := (mem_homesOf h _).1 hh
  cases hf : x.active.find? fun p => p.2 == h with
  | none => exact absurd (List.find?_eq_none.1 hf q hq) (by simp [hqh])
  | some p =>
    exact ⟨p, List.mem_filterMap.2 ⟨h, hh, hf⟩, List.mem_of_find?_eq_some hf, by simpa using List.find?_some hf⟩

theorem uniformLoadGoesIntoFlight : Sys2Proof.Claims.UniformLoadGoesIntoFlight := by
  intro sz c d a b g s x set tab as s1 h hne hset hc hf hm
  obtain ⟨hlook, hask⟩ := checkAll_spec hc
  obtain ⟨s3, hm⟩ := hm
  obtain ⟨t, y, hy, hfl⟩ := putLoad_filed (i := .ldk sz c d a b g) h rfl (ldkBody_of h.plain hne hset hc) (s1 := s1) rfl
    (sansLookup_grids hlook) hf hm
  refine ⟨t, y, _, hy, hfl, rfl, rfl, rfl, rfl, rfl, fun i hi => ?_⟩
  obtain ⟨p, hp, hpa, hpi⟩ := homeReps_of hi
  have hmem : (p, addrAt x a b p, ([] : List Byte), ldkBytes sz, Space.generic) ∈ as.map Acc.ask := by
    rw [hask, List.map_map]
    exact List.mem_map.2 ⟨p, hp, rfl⟩
  obtain ⟨q, hq, hqa⟩ := List.mem_map.1 hmem
  refine ⟨q, hq, ?_, p, hpa, hpi, (congrArg (fun r => r.2.1) hqa :)⟩
  exact (congrArg (fun r => r.1.2) hqa :).trans hpi

/-! ## Read-modify-writes (11_isa_memory.md R265 to R267) -/

theorem askSlices_traffic (s : State) (x : Iss) (n : Nat) (as : List Acc) (ks : List Nat) :
    (askSlices s x n as ks).sansTraffic = s.sansTraffic := foldl_keeps State.sansTraffic (fun s _ => sendL2_traffic s _) ks s

/-- The operation of a read-modify-write. -/
def rmwOpOf (s2 s3 : State) (x : Iss) (k : OpKind) (flag : Option Nat) (sc : Scope) (o : Option Ord) (set : OSet) (as : List Acc) : Op :=
  { opBase x k x.active flag s3.seq with
    accs := as, set := set, sem := (o.map (·.sem)).getD .rlx, scope := sc, need := rmwNeed s2 x.crew.core sc as,
    missed := (as.any fun a => a.dev != 0) || (rmwNeed s2 x.crew.core sc as).any (fillMissed s3 x.crew.core) }

/-- The kind of a read-modify-write in flight: its operation and each lane's operands. -/
def rmwKind (x : Iss) (op : RmwOp) (red : Bool) (d b : Operand) : OpKind :=
  if red then OpKind.red op (x.active.map (valN x b op.regs))
  else OpKind.atom op { d := d, regs := op.regs, signed := false, commit := true, maps := destMaps x } (x.active.map (valN x b op.regs))
    (if isCas op then x.active.map (valN x d op.regs) else x.active.map (valN x b op.regs))

theorem rmwBody_of {s1 s2 s3 : State} {x z : Iss} {g : Guard} {sp : Space} {op : RmwOp} {o : Option Ord} {dflt : Scope} {red : Bool}
    {d a b : Operand} {set : OSet} {tab : Map OEntry} {as : List Acc} {w : Crew} (hne : x.active ≠ [])
    (hset : osJoinAll s1.osets 0 (resultSets x x.active (rmwOps op d a b) [] false g) = .ok (set, tab))
    (hc : checkAll { s1 with osets := tab } x sp false (rmwBytes op) 3 0 (some set) (rmwWants x a) = .ok (as, s2))
    (hw : incFlag (switchPoint z.crew z.grp.role) (homesOf x.active) (if red then flagB x.cur.hdr else flagA x.cur.hdr) = .ok w)
    (hm : startMisses s2 x.crew.core x.grid.vf x.isH CacheP.none
      (as.filter fun q => (rmwNeed s2 x.crew.core ((o.map (·.scope)).getD dflt) as).contains q.key) = .ok s3) :
    rmwBody sp op o dflt red d a b g x z s1 = .ok (({ z with crew := stateChange w z.grp.role z.cur.addr } : Iss).put
      (addOp (askSlices s3 x s3.nextOp as (sliceKeys ((o.map (·.scope)).getD dflt) as))
        (rmwOpOf s2 s3 x (rmwKind x op red d b) (if red then flagB x.cur.hdr else flagA x.cur.hdr) ((o.map (·.scope)).getD dflt) o set
          as)).tickSeq, none) := by
  have hempty : ¬x.active.isEmpty = true := by simpa using hne
  simp only [rmwBody, if_neg hempty, hset, hc, putRmw, hw, hm, commitPast]
  rfl

theorem rmwFiles {i : Instr} {sp : Space} {op : RmwOp} {o : Option Ord} {dflt : Scope} {red : Bool} {d a b : Operand} {g : Guard}
    {sets : Iss → List OSet} {check : Iss → Except Stop Unit} (hx : ∀ s, exec i s = commitOp s g sets check (rmwBody sp op o dflt red d a b g))
    (hcheck : ∀ x, Operable x (rmwOps op d a b) d op.regs → check x = .ok ()) :
    Sys2Proof.Claims.RmwFiles i sp op o dflt red d a b g := by
  intro s x z s1 set tab as s2 h hne ho hset hc flag sc hf hm
  obtain ⟨s3, hm⟩ := hm
  obtain ⟨hlook, _⟩ := checkAll_spec hc
  have hgd : s2.grids = s1.grids := sansLookup_grids hlook
  obtain ⟨w, hw, hcount, hk⟩ := incFlag_spec (c := switchPoint z.crew z.grp.role) hf (homesOf_nodup _)
    fun i hi => (h.sheaves.count : z.crew.sheaves.length = _) ▸ h.issues.homes_in i hi
  have hb := rmwBody_of (z := z) (dflt := dflt) (red := red) (b := b) (o := o) hne hset hc hw hm
  have htraffic : (askSlices s3 x s3.nextOp as (sliceKeys sc as)).sansTraffic = s2.sansTraffic :=
    (askSlices_traffic _ _ _ _ _).trans (startMisses_traffic hm)
  have hworks : Works s2 (addOp (askSlices s3 x s3.nextOp as (sliceKeys sc as))
      (rmwOpOf s2 s3 x (rmwKind x op red d b) flag sc o set as)).tickSeq z { z with crew := stateChange w z.grp.role z.cur.addr }
      (homesOf x.active) flag :=
    { cur := rfl
      episode := h.ended_keeps.episode
      grid := hk.grid
      grids := (congrArg State.grids htraffic :)
      memory := ⟨(congrArg State.hbm htraffic :), (congrArg State.host htraffic :), (congrArg State.store htraffic :)⟩
      otherCrews := fun n _ => (congrArg (fun q : State => Map.find? q.crews n) htraffic :)
      own := (congrArg Crew.memories hk.crew :)
      cells := fun q => cell_of_files (x := z) (y := { z with crew := stateChange w z.grp.role z.cur.addr }) rfl (fun i => hk.files i) q
      flags := hcount
      fpx := fun p => (congrArg Thread.fpx (hk.thread p) :) }
  obtain ⟨t, y, hy, ha⟩ := h.filed_of_works (hx s) (hcheck x ho) hb (by rw [hgd]; exact h.grid) hworks
  refine ⟨t, y, rmwOpOf s2 s3 x (rmwKind x op red d b) flag sc o set as, hy,
    inFlight_of_put (s2 := askSlices s3 x s3.nextOp as (sliceKeys sc as)) ((congrArg State.ops htraffic :))
      ((congrArg State.nextOp htraffic :)) ha, rfl, rfl, rfl, rfl, rfl, rfl, fun e => ?_, fun e => ?_⟩
  · subst e; rfl
  · subst e
    show rmwKind x op false d b = _
    simp only [rmwKind, Bool.false_eq_true, if_false]
    cases isCas op <;> rfl

end Sys2Proof.Machine

namespace Sys2Proof.Proofs

open Sys2Proof.Machine

/-- Settles O51: it holds. The three loads share one executor, and the window's part of an access misses no line. -/
theorem loadsFile : Obligations.LoadsFile :=
  ⟨⟨fun _ _ _ _ _ _ _ => loadFiles fun _ => rfl, fun _ _ _ _ _ => loadFiles fun _ => rfl, fun _ _ _ _ _ _ => loadFiles fun _ => rfl⟩,
    uniformLoadGoesIntoFlight⟩

/-- Settles O7: it holds. ATOM, RED and ATOMS share one body; only a compare-and-swap reads D, which RED has not. -/
theorem readModifyWritesGoIntoFlight : Obligations.ReadModifyWritesGoIntoFlight := by
  have check : ∀ {op d a b} {x : Iss}, Operable x (rmwOps op d a b) d op.regs → rmwCheck op d a b x = .ok () := fun ho => by
    simp only [rmwCheck, ho.check, ho.allowed, Bool.false_eq_true, if_false]
  refine ⟨fun op o d a b g => rmwFiles (fun _ => rfl) fun _ => check, fun op o a b g hcas => rmwFiles (fun _ => rfl) fun x ho => ?_,
    fun op o d a b g => rmwFiles (fun _ => rfl) fun _ => check⟩
  have hops : rmwOps op .z a b = [(a, 2), (b, op.regs)] := by simp [rmwOps, hcas]
  exact hops ▸ ho.check_sources

end Sys2Proof.Proofs
end

section
/-! SUPPORT. What the setting apart of an issue group's parts, its fast buffers and the end of an issue leave, and the entry to the trap
handler and the return from it. -/

namespace Sys2Proof.Machine

/-! ## A crew's threads and home sheaves in a state -/

theorem threadAt_of_find {s : State} {n : Nat} {w : Crew} (h : Map.find? s.crews n = some w) (p : Nat × Nat) :
    s.threadAt n p = w.thread p := by
  simp only [State.threadAt, h, Option.map_some, Option.getD_some]

theorem sheafAt_of_find {s : State} {n : Nat} {w : Crew} (h : Map.find? s.crews n = some w) (i : Nat) :
    s.sheafAt n i = w.sheaf i := by
  simp only [State.sheafAt, h, Option.map_some, Option.getD_some]

/-- The clause after the one that issues, as the statements write it. -/
theorem Iss.next_eq_after (x : Iss) : x.next = Sys2Proof.Claims.after x := by
  simp [Iss.next, nextClause, Sys2Proof.Claims.after, dword, bitsOf]

/-! ## Changes of issue groups alone -/

/-- A crew but for its issue groups. -/
def Crew.sansGroups (c : Crew) : Crew := { c with groups := [] }

/-- What a change of crew n's issue groups and of fast buffers leaves as it was. -/
structure Regrouped (n : Nat) (s t : State) : Prop where
  crew : (Map.find? t.crews n).map Crew.sansGroups = (Map.find? s.crews n).map Crew.sansGroups
  others : ∀ k, k ≠ n → Map.find? t.crews k = Map.find? s.crews k
  grids : t.grids = s.grids
  memory : SameMemory s t

theorem Regrouped.refl (n : Nat) (s : State) : Regrouped n s s := ⟨rfl, fun _ _ => rfl, rfl, SameMemory.refl s⟩

theorem Regrouped.trans {n : Nat} {s t u : State} (h : Regrouped n s t) (k : Regrouped n t u) : Regrouped n s u :=
  ⟨k.crew.trans h.crew, fun i hi => (k.others i hi).trans (h.others i hi), k.grids.trans h.grids, h.memory.trans k.memory⟩

/-- The crew stands in the state with its groups changed, and is alike but for them. -/
theorem Regrouped.find {n : Nat} {s t : State} {w : Crew} (h : Regrouped n s t) (hw : Map.find? s.crews n = some w) :
    ∃ w', Map.find? t.crews n = some w' ∧ w'.sansGroups = w.sansGroups := by
  have hc := h.crew
  rw [hw, Option.map_some, Option.map_eq_some_iff] at hc
  exact hc

theorem regrouped_modCrew {n : Nat} {s : State} {f : Crew → Crew}
    (hf : ∀ c, Map.find? s.crews n = some c → (f c).sansGroups = c.sansGroups) : Regrouped n s (s.modCrew n f) := by
  refine ⟨?_, fun k hk => Map.find?_mod_other _ _ _ _ hk, rfl, SameMemory.refl s⟩
  simp only [State.modCrew, Map.find?_mod, if_true, Option.map_map]
  cases hc : Map.find? s.crews n with
  | none => rfl
  | some c => exact congrArg some (hf c hc)

theorem regrouped_freeFamily (s : State) (n fam : Nat) : Regrouped n s (freeFamily s n fam) := by
  unfold freeFamily
  split
  · exact Regrouped.refl n s
  · rename_i w _
    dsimp only
    generalize (fun k : Core => ({ k with buffers := _ } : Core)) = f
    have hk : Regrouped n s (s.modCore w.core f) := ⟨rfl, fun _ _ => rfl, rfl, SameMemory.refl s⟩
    split
    · exact hk.trans (regrouped_modCrew fun _ _ => rfl)
    · exact hk

theorem regrouped_freeBuffer (s : State) (n grp : Nat) : Regrouped n s (freeBuffer s n grp) := by
  unfold freeBuffer
  split
  · split
    · exact Regrouped.refl n s
    · exact regrouped_freeFamily s n _
  · exact Regrouped.refl n s

theorem sansGroups_splitPart (c : Crew) (grp : Nat) (ps : List (Nat × Nat)) (f : Group → Group) :
    (splitPart c grp ps f).sansGroups = c.sansGroups := by
  unfold splitPart
  split
  · rfl
  · dsimp only
    split <;> rfl

theorem sansGroups_splitByPc (c : Crew) (grp : Nat) (ps : List (Nat × Nat)) : (splitByPc c grp ps).sansGroups = c.sansGroups :=
  foldl_keeps Crew.sansGroups (fun c _ => sansGroups_splitPart c grp _ id) _ c

/-! ## Groups outside an episode -/

/-- A crew's group, where there is one, runs no episode. -/
def Crew.plainAt (c : Crew) (grp : Nat) : Prop := ∀ g, Map.find? c.groups grp = some g → g.episode = none

theorem Crew.plainAt.put {c : Crew} {grp : Nat} (h : c.plainAt grp) {k : Nat} {g : Group} (hg : g.episode = none) :
    ({ c with groups := Map.put c.groups k g } : Crew).plainAt grp := by
  intro q hq
  simp only [Map.find?_put] at hq
  split at hq
  · cases hq; exact hg
  · exact h q hq

theorem plainAt_splitPart {c : Crew} {grp : Nat} (h : c.plainAt grp) (ps : List (Nat × Nat)) {f : Group → Group}
    (hf : ∀ g, (f g).episode = g.episode) : (splitPart c grp ps f).plainAt grp := by
  unfold splitPart
  split
  · exact h
  · rename_i g hg
    dsimp only
    split
    · exact h.put ((hf g).trans (h g hg))
    · exact (h.put (g := g.part _) (h g hg)).put ((hf (g.part ps)).trans (h g hg))

theorem plainAt_splitByPc {c : Crew} {grp : Nat} (h : c.plainAt grp) (ps : List (Nat × Nat)) : (splitByPc c grp ps).plainAt grp := by
  unfold splitByPc
  dsimp only
  generalize (dedup _).drop 1 = as
  generalize hm : (fun (p : Nat × Nat) => (c.thread p).clause.toNat * 16 + (c.thread p).index) = m
  have hm' : ∀ p, m p = (c.thread p).clause.toNat * 16 + (c.thread p).index := fun p => by rw [← hm]
  clear hm
  simp only [← hm']
  clear hm'
  induction as generalizing c with
  | nil => exact h
  | cons a rest ih => exact ih (plainAt_splitPart h _ fun _ => rfl)

/-- No crew n of the state runs an episode in a group. -/
def State.plainAt (s : State) (n grp : Nat) : Prop := ∀ c, Map.find? s.crews n = some c → c.plainAt grp

theorem State.plainAt.episode {s : State} {n grp : Nat} (h : s.plainAt n grp) : s.episode n grp = none := by
  unfold State.episode
  cases hc : Map.find? s.crews n with
  | none => rfl
  | some c =>
    cases hg : Map.find? c.groups grp with
    | none => simp [hg]
    | some g => simp [hg, h c hc g hg]

theorem State.plainAt.modCrew {s : State} {n grp : Nat} (h : s.plainAt n grp) {f : Crew → Crew}
    (hf : ∀ c, c.plainAt grp → (f c).plainAt grp) : (s.modCrew n f).plainAt n grp := by
  intro c hc
  simp only [State.modCrew, Map.find?_mod, if_true, Option.map_eq_some_iff] at hc
  obtain ⟨d, hd, rfl⟩ := hc
  exact hf d (h d hd)

theorem Map.find?_map_values {α : Type} (f : α → α) (m : Map α) (k : Nat) :
    Map.find? (m.map fun p => (p.1, f p.2)) k = (Map.find? m k).map f := by
  induction m with
  | nil => rfl
  | cons p rest ih =>
    simp only [List.map_cons, Map.find?]
    split
    · rfl
    · split
      · rfl
      · exact ih

/-- A group, its quad given back where it is of the family. -/
def Group.sansQuad (fam : Nat) (g : Group) : Group := if g.family = fam then { g with quad := none } else g

theorem episode_sansQuad (fam : Nat) (g : Group) : (g.sansQuad fam).episode = g.episode := by
  unfold Group.sansQuad
  split <;> rfl

theorem plainAt_freeFamily {s : State} {n grp : Nat} (h : s.plainAt n grp) (fam : Nat) : (freeFamily s n fam).plainAt n grp := by
  unfold freeFamily
  split
  · exact h
  · dsimp only
    split
    · refine State.plainAt.modCrew (s := s.modCore _ _) h fun c hc g hg => ?_
      have hf : (fun p : Nat × Group => if p.2.family = fam then (p.1, { p.2 with quad := none }) else p) =
          fun p => (p.1, p.2.sansQuad fam) := funext fun p => by
        unfold Group.sansQuad
        split <;> rfl
      simp only [hf, Map.find?_map_values, Option.map_eq_some_iff] at hg
      obtain ⟨q, hq, rfl⟩ := hg
      exact (episode_sansQuad fam q).trans (hc q hq)
    · exact h

theorem plainAt_freeBuffer {s : State} {n grp : Nat} (h : s.plainAt n grp) : (freeBuffer s n grp).plainAt n grp := by
  unfold freeBuffer
  split
  · split
    · exact h
    · exact plainAt_freeFamily h _
  · exact h

/-- The end of an issue outside an episode changes counters, and the group not at all. -/
theorem regrouped_finishIssue {s : State} {cu : Cur} (h : s.plainAt cu.crew cu.group) : Regrouped cu.crew s (finishIssue s cu) := by
  obtain ⟨b, hb⟩ := countGroup_eq s cu
  have hp : ({ s with banks := b } : State).plainAt cu.crew cu.group := h
  unfold finishIssue
  rw [hb]
  have hstay : ∀ (o : Map OEntry), Regrouped cu.crew s (({ s with banks := b, osets := o } : State).onGroup cu.crew cu.group fun c g =>
      match g.episode with
      | some e => if e.inUse then swapEpisode c g else (c, g)
      | none => (c, g)) ∧ (({ s with banks := b, osets := o } : State).onGroup cu.crew cu.group fun c g =>
      match g.episode with
      | some e => if e.inUse then swapEpisode c g else (c, g)
      | none => (c, g)).plainAt cu.crew cu.group := fun o => by
    refine ⟨Regrouped.trans (t := { s with banks := b, osets := o }) ⟨rfl, fun _ _ => rfl, rfl, SameMemory.refl s⟩
      (regrouped_modCrew fun c hc => ?_), fun c hc => ?_⟩
    · cases hg : Map.find? c.groups cu.group with
      | none => simp only
      | some g =>
        have := h c hc g hg
        simp only [this]
        rfl
    · simp only [State.onGroup, State.modCrew, Map.find?_mod, if_true, Option.map_eq_some_iff] at hc
      obtain ⟨d, hd, rfl⟩ := hc
      cases hg : Map.find? d.groups cu.group with
      | none => exact h d hd
      | some g =>
        have he := h d hd g hg
        simp only [he]
        exact (h d hd).put he
  have hepisode : (({ s with banks := b } : State).exitEpisode cu.crew cu.group).episode cu.crew cu.group = none :=
    (hstay _).2.episode
  simp only [hepisode]
  exact (hstay _).1

/-! ## Threads that leave the handler (02_execution.md R62) -/

theorem Issues.presentNodup {s : State} {g : Guard} {x : Iss} (h : Issues s g x) : x.present.Nodup := List.Nodup.of_map _ h.lanes

/-- The present threads that do not issue. -/
def Iss.resting (x : Iss) : List (Nat × Nat) := x.present.filter fun p => !x.active.contains p

theorem Iss.mem_resting {x : Iss} {p : Nat × Nat} : p ∈ x.resting ↔ p ∈ x.present ∧ p ∉ x.active := by
  simp [Iss.resting]

/-- The crew of y after a TRET of x's active threads, as event n. -/
def Iss.returned (x y : Iss) (retry : Bool) (n : Nat) : Crew :=
  (y.crew.modThreads x.active fun _ t => returnThread retry n t).modThreads x.resting fun _ t =>
    { t with clause := x.next, index := 1, reached := n }

theorem onThreads_returned (x z : Iss) (retry : Bool) (n : Nat) : OnThreads z.crew (x.returned z retry n) :=
  (onThreads_modThreads _ _ _).trans (onThreads_modThreads _ _ _)

/-- What the threads of a TRET, and the others of an H crew, have pending. -/
def Iss.tretReopen (x y : Iss) : List (RegionMap × List Nat) :=
  let out := (lanesIn x.resting ++ lanesIn (x.active.filter fun p => (x.crew.thread p).trapMap.isNone)).filter fun _ => x.isH
  y.grp.reopen ++ tretMaps x ++ if out.isEmpty then [] else [(implicitMap, out)]

/-- The crew of y, with its group, after a TRET of x's active threads. -/
def Iss.tretCrew (x y : Iss) (retry : Bool) (n : Nat) : Crew :=
  let c := if x.cur.hdr.getLsbD 27 || (x.grp.active.map hasYield).getD false then switchPoint (x.returned y retry n) y.grp.role
    else x.returned y retry n
  { c with groups := Map.put c.groups y.cur.group { y.grp.endClause with wait := .none, reopen := x.tretReopen y } }

theorem sheaf_tretCrew (x y : Iss) (retry : Bool) (n i : Nat) : (x.tretCrew y retry n).sheaf i = (x.returned y retry n).sheaf i := by
  simp only [Iss.tretCrew]
  split <;> rfl

section
variable {s s1 : State} {g : Guard} {x z : Iss} (h : Issues s g x) (hz : x.endRegion (lanesIn x.present) s = .ok (z, s1))
include h hz

/-- The crew's home sheaves once the regions have ended hold the present threads. -/
theorem Issues.present_in : (∀ p ∈ x.present, p.2 < z.crew.sheaves.length) ∧ ∀ p ∈ x.present, p.1 < (z.crew.sheaf p.2).threads.length := by
  have hk := endRegion_sheaves h.plain hz
  exact ⟨fun p hp => hk.count ▸ h.inSheaf p hp, fun p hp => by rw [hk.threads]; exact h.inThread p hp⟩

/-- Where the threads of a group stand once some of them have left the handler. -/
theorem thread_returned (retry : Bool) (n : Nat) :
    (∀ p ∈ x.active, (x.returned z retry n).thread p = returnThread retry n (x.crew.thread p)) ∧
    (∀ p ∈ x.present, p ∉ x.active →
      (x.returned z retry n).thread p = { x.crew.thread p with clause := x.next, index := 1, reached := n }) ∧
    ∀ p, p ∉ x.present → (x.returned z retry n).thread p = x.crew.thread p := by
  obtain ⟨hin, hlt⟩ := h.present_in hz
  have hk := endRegion_sheaves h.plain hz
  have k1 := onThreads_modThreads z.crew x.active fun _ t => returnThread retry n t
  refine ⟨fun p hp => ?_, fun p hp ha => ?_, fun p hp => ?_⟩
  · rw [Iss.returned, Crew.thread_modThreads_other _ _ _ _ fun e => (Iss.mem_resting.1 e).2 hp,
      Crew.thread_modThreads_mem _ _ _ h.activeNodup (fun q hq => hin q (h.activeMem hq)) (fun q hq => hlt q (h.activeMem hq)) p hp, hk.thread]
  · rw [Iss.returned, Crew.thread_modThreads_mem _ x.resting _ (h.presentNodup.filter _) (fun q hq => k1.count ▸ hin q (Iss.mem_resting.1 hq).1)
      (fun q hq => k1.threads q.2 ▸ hlt q (Iss.mem_resting.1 hq).1) p (Iss.mem_resting.2 ⟨hp, ha⟩), Crew.thread_modThreads_other _ _ _ _ ha,
      hk.thread]
  · rw [Iss.returned, Crew.thread_modThreads_other _ _ _ _ fun e => hp (Iss.mem_resting.1 e).1,
      Crew.thread_modThreads_other _ _ _ _ fun e => hp (h.activeMem e), hk.thread]

/-- The effect of TRET: the crew but for its groups, and the machine but for the crew. -/
theorem tretBody_spec (retry : Bool) : ∃ t w, tretBody retry s x = .ok t ∧ Map.find? t.crews x.cur.crew = some w ∧
    t.plainAt x.cur.crew x.cur.group ∧ SameMemory s1 t ∧ (∀ i, (w.sheaf i).files = (z.crew.sheaf i).files) ∧
    (∀ p, (w.thread p).sansCk = ((x.returned z retry s1.seq).thread p).sansCk) ∧
    ∀ p, p ∉ x.present → w.thread p = (x.returned z retry s1.seq).thread p := by
  obtain ⟨hcur, _, hepisode, _, _⟩ := endRegion_ended h.plain hz
  have hth : ∀ p, (x.tretCrew z retry s1.seq).thread p = (x.returned z retry s1.seq).thread p := fun p => by
    simp only [Crew.thread, sheaf_tretCrew]
  have hplain : (x.tretCrew z retry s1.seq).plainAt x.cur.group := by
    intro q hq
    simp only [Iss.tretCrew, hcur, Map.find?_put_self, Option.some.injEq] at hq
    exact hq ▸ hepisode
  generalize hm : (fun l => ((x.tretReopen z).find? fun p => p.2.contains l).map fun p => p.1) = m
  have hr := onThreads_restartPoint (x.tretCrew z retry s1.seq) x.present m (s1.seq + 1)
  have hb : tretBody retry s x = .ok ((({ s1 with
      seq := s1.seq + 1, cur := none, crews := Map.put s1.crews z.cur.crew (x.tretCrew z retry s1.seq) } : State).modCrew x.cur.crew
        fun c => restartPoint c x.present m (s1.seq + 1)).modCrew x.cur.crew fun c => splitByPc c x.cur.group x.present) := by
    subst hm
    simp only [tretBody, hz]
    rfl
  have hs := sansGroups_splitByPc (restartPoint (x.tretCrew z retry s1.seq) x.present m (s1.seq + 1)) x.cur.group x.present
  refine ⟨_, splitByPc (restartPoint (x.tretCrew z retry s1.seq) x.present m (s1.seq + 1)) x.cur.group x.present, hb, ?_, ?_,
    ⟨rfl, rfl, rfl⟩, fun i => ?_, fun p => ?_, fun p hp => ?_⟩
  · simp only [State.modCrew, hcur]
    exact Map.find?_mod_self _ _ _ _ (Map.find?_mod_self _ _ _ _ (Map.find?_put_self _ _ _))
  · refine State.plainAt.modCrew (State.plainAt.modCrew (fun c hc => ?_) fun c hc => ?_) fun c hc => plainAt_splitByPc hc x.present
    · rw [hcur, Map.find?_put_self, Option.some.injEq] at hc
      exact hc ▸ hplain
    · have hg : (restartPoint c x.present m (s1.seq + 1)).groups = c.groups := (congrArg Crew.groups (onThreads_restartPoint c _ _ _).crew :)
      exact fun q hq => hc q (hg ▸ hq)
  · refine (congrArg (fun c : Crew => (c.sheaf i).files) hs :).trans ((congrArg Sheaf.files (hr.sheaf i) :).trans ?_)
    rw [sheaf_tretCrew]
    exact (onThreads_returned x z retry s1.seq).files i
  · rw [← hth]
    exact (congrArg (fun c : Crew => (c.thread p).sansCk) hs :).trans (thread_restartPoint _ _ _ _ p)
  · rw [← hth]
    exact (congrArg (fun c : Crew => c.thread p) hs :).trans (thread_restartPoint_other _ _ _ _ p hp)

end

/-- TRET by threads that are all in the handler. -/
theorem exec_tret {s : State} {g : Guard} {x : Iss} (h : Issues s g x) (retry : Bool) (hh : ∀ p ∈ x.active, (x.crew.thread p).handler = true) {t : State} (hb : tretBody retry s x = .ok t) :
    exec (if retry then .tretRetry g else .tretNext g) s = .next (finishIssue (freeBuffer t x.cur.crew x.cur.group) x.cur) := by
  have hop : exec (if retry then .tretRetry g else .tretNext g) s = tretOp retry g s := by cases retry <;> rfl
  have he : ¬x.grp.episode.isSome = true := by simp [h.plain]
  have hout : ¬(x.active.any fun p => !(x.crew.thread p).handler) = true := by simpa using hh
  simp only [hop, tretOp, h.issuer, if_neg he, if_neg hout, hb]

end Sys2Proof.Machine

namespace Sys2Proof.Proofs

open Sys2Proof.Machine

/-- Settles O21: it holds. The threads' PCs are set on the crew whose regions have ended; what follows sets parts of the group apart. -/
theorem trapReturn : Obligations.TrapReturn := by
  intro retry g s x z s1 h hh hz
  obtain ⟨t, w, hb, hw, hplain, hmem, hfiles, hth, hother⟩ := tretBody_spec h hz retry
  obtain ⟨hact, hrest, hout⟩ := thread_returned h hz retry s1.seq
  have hg : Regrouped x.cur.crew t (finishIssue (freeBuffer t x.cur.crew x.cur.group) x.cur) :=
    (regrouped_freeBuffer t _ _).trans (regrouped_finishIssue (plainAt_freeBuffer hplain))
  obtain ⟨w', hw', hk⟩ := hg.find hw
  have hthread : ∀ p, State.threadAt _ x.cur.crew p = w.thread p := fun p =>
    (threadAt_of_find hw' p).trans (congrArg (fun c : Crew => c.thread p) hk :)
  refine ⟨_, exec_tret h retry hh hb, fun p hp => ?_, fun p hp hn => ?_, fun p hp => ?_, fun i => ?_, hmem.trans hg.memory⟩
  · have hp' := hth p
    rw [hact p hp] at hp'
    have e : ((w.thread p).handler, (w.thread p).clause, (w.thread p).index) =
        (false, if retry then ((x.crew.thread p).trapPc, (x.crew.thread p).trapRetry) else (x.crew.thread p).trapNext) := by
      refine (congrArg (fun u : Thread => (u.handler, u.clause, u.index)) hp' :).trans ?_
      cases retry <;> rfl
    simp only [hthread]
    simpa using e
  · have hp' := hth p
    rw [hrest p hp hn] at hp'
    simp only [hthread, ← Iss.next_eq_after]
    exact ⟨(congrArg Thread.clause hp' :), (congrArg Thread.index hp' :)⟩
  · rw [hthread, hother p hp, hout p hp, threadAt_of_find (issuer_inv h.issuer).2.1]
  · rw [sheafAt_of_find hw', ← hfiles i]
    exact (congrArg (fun c : Crew => (c.sheaf i).files) hk :)

end Sys2Proof.Proofs
end

section
/-! SUPPORT. The entry to the trap handler (02_execution.md R61, R63; 08_isa_control.md R203 to R205). -/

namespace Sys2Proof.Machine

/-! ## The end of regions that hold no store -/

theorem writeBack_fits {t0 t : Map OEntry} {P : Map OEntry → Prop} (hf : Fit t0 P) (g : Group) (r : Region) (ls : List Nat) (c : Crew)
    (ht : P t) : ∃ b, writeBack g r ls c t = .ok b ∧ P b.2 :=
  foldE_inv _ (fun a : Crew × Map OEntry => P a.2) _ _ ht fun a _ _ ha =>
    foldE_inv _ (fun a : Crew × Map OEntry => P a.2) _ _ ha fun a h _ ha => by
      simp only [writeBackSet]
      split
      · exact ⟨_, rfl, ha⟩
      · obtain ⟨u, t', hu, hp⟩ := hf.join a.2 ((a.1.sheaf h).mainSet _) [_] ha
        have hj : osJoin a.2 ((a.1.sheaf h).mainSet _) _ = .ok (u, t') := hu
        rw [hj]
        exact ⟨_, rfl, hp⟩

/-- Regions that hold no store end where origin sets join. -/
theorem endRegion_of_unheld {s : State} {x : Iss} (ls : List Nat) (he : x.grp.episode = none) (hj : JoinsFit s.osets)
    (hu : ∀ r ∈ x.grp.regions, r.held = []) : ∃ y s', x.endRegion ls s = .ok (y, s') := by
  obtain ⟨P, hf⟩ := hj.fit
  obtain ⟨⟨c, t⟩, hc, _⟩ := foldE_inv (fun (a : Crew × Map OEntry) r => writeBack x.grp r ls a.1 a.2) (fun a => P a.2) x.grp.regions
    (x.crew, s.osets) hf.here fun a r _ ha => writeBack_fits hf x.grp r ls a.1 ha
  have hreleased : x.grp.regions.flatMap (fun r => releasedBy r ls) = [] := by
    rw [List.flatMap_eq_nil_iff]
    intro r hr
    simp [releasedBy, hu r hr]
  have hback : ∀ c0 g c, (orderBack c0 g ls c []).2 = [] := fun c0 g c => by
    simp only [orderBack]
    split <;> rfl
  have hep : ¬(x.grp.episode.isSome = true) := by simp [he]
  simp only [Iss.endRegion, endRegions, he, hc, hreleased, mergeStores, List.foldl_nil, List.isEmpty_nil, if_true, Option.isSome_none,
    Bool.false_eq_true, if_false, hback, enqueueStores, foldE]
  exact ⟨_, _, rfl⟩

/-! ## Trace records -/

theorem Map.mem_of_find? {α : Type} {m : Map α} {k : Nat} {a : α} (h : Map.find? m k = some a) : (k, a) ∈ m := by
  induction m with
  | nil => cases h
  | cons p rest ih =>
    simp only [Map.find?] at h
    split at h
    · rename_i e
      cases h
      exact e ▸ List.mem_cons_self
    · split at h
      · cases h
      · exact List.mem_cons_of_mem _ (ih h)

/-- Where no trace unit takes a record's kind, no record is written. -/
theorem traceCore_unwanted {s : State} {r : TRec} (h : ∀ u ∈ s.traces, u.2.wants r.kind = false) (vf core : Nat) (who : Nat → Bool) :
    traceCore s vf core r who = s := by
  unfold traceCore
  generalize s.traces = us
  induction us with
  | nil => rfl
  | cons u rest ih =>
    rw [List.foldl_cons]
    split
    · rename_i t ht
      have hw : t.wants r.kind = false := h (u.1, t) (Map.mem_of_find? ht)
      rw [hw, Bool.and_false, Bool.false_and, if_neg Bool.false_ne_true]
      exact ih
    · exact ih

theorem traceThreads_unwanted {s : State} {kind : Nat} (h : ∀ u ∈ s.traces, u.2.wants kind = false) (gid : Nat) (g : Grid) (w : Crew)
    (code : Nat) (clause : Dword) (index : Nat) (ps : List (Nat × Nat)) (who : Nat → Bool) :
    traceThreads s gid g w kind code clause index ps who = s := by
  unfold traceThreads
  generalize dedup _ = hs
  induction hs with
  | nil => rfl
  | cons i rest ih =>
    rw [List.foldl_cons, traceCore_unwanted (by exact h)]
    exact ih

/-- A record of a cause touches nothing that runs, and no memory but the rings of trace units that take causes. -/
theorem traceCause_observed (s : State) (x : Iss) (ts : List (Nat × Nat)) (c : Cause) (ix : Nat) :
    Observed s (traceCause s x ts c ix) ∧ Sys2Proof.Claims.SameButTrace 6 s (traceCause s x ts c ix) := by
  have ho : Observed s (traceCause s x ts c ix) := observed_traceThreads _ _ _ _ _ _ _ _ _ _
  refine ⟨ho, (congrArg State.hbm ho :), (congrArg State.store ho :), fun hw => ?_⟩
  rw [traceCause, traceThreads_unwanted hw]

/-! ## Trap entry (R61, R205) -/

/-- The threads a cause takes stand in the crew, each once, none in the handler of its grid, which has one, and their regions hold
no store. -/
structure Entering (s : State) (x : Iss) : Prop where
  plain : x.grp.episode = none
  issuing : x.active ≠ []
  nodup : x.active.Nodup
  inSheaf : ∀ p ∈ x.active, p.2 < x.crew.sheaves.length
  inThread : ∀ p ∈ x.active, p.1 < (x.crew.sheaf p.2).threads.length
  joins : JoinsFit s.osets
  handler : x.grid.desc.handler ≠ 0
  outside : ∀ p ∈ x.active, (x.crew.thread p).handler = false
  unheld : ∀ r ∈ x.grp.regions, r.held = []
  grid : Map.find? s.grids x.crew.grid = some x.grid

/-- What the entry of threads to the handler does to a thread of the crew. -/
def Iss.trapped (x : Iss) (c : Cause) (ix : Nat) (set : OSet) (fa : List (Nat × Dword)) (n : Nat) (p : Nat × Nat) (t : Thread) : Thread :=
  trapThread (causeCode c) x.cur ix set (faddrOf fa p.1) (laneMap x.grp p.1) x.grid.desc.handler n t

/-- The entry of x's active threads to the handler: their threads, the grid's count and first cause, and nothing else of the machine
but the crew's groups. -/
theorem trapEntry_spec {s : State} {x : Iss} (h : Entering s x) (c : Cause) (ix : Nat) (set : OSet) (fa : List (Nat × Dword)) :
    ∃ t w n, trapEntry s x x.active c ix set fa = .ok t ∧ Map.find? t.crews x.cur.crew = some w ∧ SameMemory s t ∧
      (∀ k, k ≠ x.cur.crew → Map.find? t.crews k = Map.find? s.crews k) ∧
      Map.find? t.grids x.crew.grid = some { x.grid with faults := x.grid.faults + 1, first := some (x.grid.first.getD c) } ∧
      (∀ p ∈ x.active, w.thread p = x.trapped c ix set fa n p (x.crew.thread p)) ∧
      ∀ p, p ∉ x.active → w.thread p = x.crew.thread p := by
  obtain ⟨y, s1, hy⟩ := endRegion_of_unheld (lanesIn x.present) h.plain h.joins h.unheld
  obtain ⟨hcur, _, hepisode, hcrew, hmachine⟩ := endRegion_ended h.plain hy
  have hk := endRegion_sheaves h.plain hy
  have hgrid : (y.crew.modThreads x.active (x.trapped c ix set fa s1.seq)).grid = x.crew.grid :=
    ((congrArg Crew.grid (onThreads_modThreads _ _ _).crew :)).trans (congrArg Crew.grid hcrew :)
  simp only [trapEntry, hy]
  generalize hw : (y.crew.modThreads x.active fun p t => trapThread _ _ _ _ _ _ _ _ t) = w
  have hw' : w = y.crew.modThreads x.active (x.trapped c ix set fa s1.seq) := hw.symm
  clear hw
  generalize ({ y.grp with active := _, wait := .none, reopen := _ } : Group) = gr
  generalize hz : (Iss.put _ _) = u
  generalize (fun g : Group => ({ g with active := none, fetched := none, wait := .none, reopen := _ } : Group)) = f
  have hcrews : u.crews = Map.put s1.crews y.cur.crew { w with groups := Map.put w.groups y.cur.group gr } := by rw [← hz]; rfl
  have hgrids : u.grids = s.grids := by rw [← hz]; exact (congrArg State.grids hmachine :)
  have hmem : SameMemory s u := by
    rw [← hz]
    exact ⟨(congrArg State.hbm hmachine :), (congrArg State.host hmachine :), (congrArg State.store hmachine :)⟩
  have hothers : ∀ k, k ≠ x.cur.crew → Map.find? u.crews k = Map.find? s.crews k := fun k hk => by
    rw [hcrews, hcur, Map.find?_put_other _ _ _ _ hk]
    exact (congrArg (fun q : State => Map.find? q.crews k) hmachine :)
  have hr : Regrouped x.cur.crew u (freeBuffer (u.modCrew x.cur.crew fun c => splitPart c x.cur.group x.active f) x.cur.crew x.cur.group) :=
    (regrouped_modCrew fun c _ => sansGroups_splitPart c _ _ _).trans (regrouped_freeBuffer _ _ _)
  obtain ⟨w', hw1, hw2⟩ := hr.find (w := { w with groups := Map.put w.groups y.cur.group gr }) (by rw [hcrews, hcur]; exact Map.find?_put_self _ _ _)
  have hth : ∀ p, w'.thread p = w.thread p := fun p => (congrArg (fun c : Crew => c.thread p) hw2 :)
  refine ⟨_, w', s1.seq, rfl, hw1, hmem.trans hr.memory, fun k hk => (hr.others k hk).trans (hothers k hk), ?_, fun p hp => ?_, fun p hp => ?_⟩
  · simp only [State.modGrid, hr.grids, hgrids, hw', hgrid]
    exact Map.find?_mod_self _ _ _ _ h.grid
  · rw [hth, hw', Crew.thread_modThreads_mem _ _ _ h.nodup (fun q hq => hk.count ▸ h.inSheaf q hq)
      (fun q hq => by rw [hk.threads]; exact h.inThread q hq) p hp, hk.thread]
  · rw [hth, hw', Crew.thread_modThreads_other _ _ _ _ hp, hk.thread]

/-- A cause that enters the handler, taken by x's active threads. -/
theorem raiseCause_enters {s : State} {x : Iss} {c : Cause} (h : Entering s x) (hc : causeEffect c = .handler) (ix : Nat)
    (sets : List OSet) (fa : List (Nat × Dword)) :
    ∃ t w set n, raiseCause s x x.active c ix sets fa = t ∧ Map.find? t.crews x.cur.crew = some w ∧
      Sys2Proof.Claims.SameButTrace 6 s t ∧ (∀ k, k ≠ x.cur.crew → Map.find? t.crews k = Map.find? s.crews k) ∧
      Map.find? t.grids x.crew.grid = some { x.grid with faults := x.grid.faults + 1, first := some (x.grid.first.getD c) } ∧
      (∀ p ∈ x.active, w.thread p = x.trapped c ix set fa n p (x.crew.thread p)) ∧
      ∀ p, p ∉ x.active → w.thread p = x.crew.thread p := by
  obtain ⟨ho, hm⟩ := traceCause_observed s x x.active c ix
  have hep : ¬x.grp.episode.isSome = true := by simp [h.plain]
  have hnested : ¬(!false && x.active.any fun p => (x.crew.thread p).handler) = true := by simpa using h.outside
  simp only [raiseCause, raiseFrom, if_neg hep, hc, if_neg hnested, if_neg h.handler]
  generalize traceCause s x x.active c ix = s0 at ho hm
  have hosets : s0.osets = s.osets := (congrArg State.osets ho :)
  obtain ⟨P, hf⟩ := h.joins.fit
  obtain ⟨set, tab, hset, htab⟩ := hf.join s.osets 0 sets hf.here
  have h' : Entering { s0 with osets := tab } x :=
    { h with joins := ⟨P, htab, hf.join⟩, grid := (congrArg (fun q : State => Map.find? q.grids x.crew.grid) ho :).trans h.grid }
  obtain ⟨t, w, n, ht, hw, hmem, hothers, hgrid, hact, hrest⟩ := trapEntry_spec h' c ix set fa
  rw [hosets, hset]
  simp only [ht]
  refine ⟨t, w, set, n, rfl, hw, ⟨hmem.1.trans hm.1, hmem.2.2.trans hm.2.1, fun hu => hmem.2.1.trans (hm.2.2 hu)⟩, fun k hk => ?_,
    hgrid, hact, hrest⟩
  exact (hothers k hk).trans (congrArg (fun q : State => Map.find? q.crews k) ho :)

/-! ## TRAP and BRK -/

theorem trapSwitch_eq (x : Iss) : ∃ r, trapSwitch x = { x with crew := { x.crew with rotate := r } } := by
  unfold trapSwitch
  split
  · exact ⟨_, rfl⟩
  · exact ⟨x.crew.rotate, rfl⟩

/-- A trap instruction's active threads take its cause. -/
theorem trapTaken_of_exec {i : Instr} {s : State} {g : Guard} {x : Iss} {c : Cause} {sets : List OSet} (h : Sys2Proof.Claims.Traps s g x)
    (hc : causeEffect c = .handler) (hx : exec i s = .next (raiseCause s (trapSwitch x) x.active c x.cur.index sets [])) :
    Sys2Proof.Claims.TrapTaken i s x c := by
  obtain ⟨_, hcrew, _, hgrid, _⟩ := issuer_inv h.issues.issuer
  have hi := h.issues
  obtain ⟨r, hr⟩ := trapSwitch_eq x
  rw [hr] at hx
  have ht : Entering s { x with crew := { x.crew with rotate := r } } :=
    ⟨hi.plain, h.some, hi.activeNodup, fun p hp => hi.inSheaf p (hi.activeMem hp), fun p hp => hi.inThread p (hi.activeMem hp), hi.joins,
      h.handler, h.outside, h.unheld, hgrid⟩
  obtain ⟨t, w, set, n, e, hw, hmem, hothers, hgr, hact, hrest⟩ := raiseCause_enters ht hc x.cur.index sets []
  refine ⟨t, by rw [hx, ← e], fun p hp => ?_, fun p hp => ?_, ⟨_, hgr, rfl, rfl⟩, hmem, hothers⟩
  · simp only [Sys2Proof.Claims.InHandler, threadAt_of_find hw, hact p hp]
    refine ⟨rfl, ?_, rfl, rfl, rfl, rfl, rfl, rfl, rfl, rfl⟩
    show lo32 (x.cur.addr + dword (4 * x.cur.index)) = _
    exact BitVec.eq_of_toNat_eq (by simp [lo32, dword])
  · rw [threadAt_of_find hw, threadAt_of_find hcrew]
    exact hrest p hp

end Sys2Proof.Machine

namespace Sys2Proof.Proofs

open Sys2Proof.Machine

/-- Settles O19: it holds. Both instructions raise their cause as they issue; without an active thread the one commits, the other only
goes past. -/
theorem trapEntry : Obligations.TrapEntry := by
  refine ⟨fun code g s x h => ?_, fun g s x h => ?_, fun code g s x z s1 h ha => ?_, fun g s x h ha => ?_⟩
  · have he : ¬x.grp.episode.isSome = true := by simp [h.issues.plain]
    have hne : ¬x.active.isEmpty = true := by simpa using h.some
    have hout : ¬(x.active.any fun p => (x.crew.thread p).handler) = true := by simpa using h.outside
    have hin : ¬(x.grid.desc.handler = 0 || x.active.any fun p => (x.crew.thread p).handler) = true := by
      simpa only [decide_eq_false h.handler, Bool.false_or] using hout
    refine trapTaken_of_exec (sets := baseSets x x.active g) h rfl ?_
    show execTrap code g s = _
    simp only [execTrap, h.issues.issuer, if_neg he, if_neg hne, if_neg hin]
  · have he : ¬x.grp.episode.isSome = true := by simp [h.issues.plain]
    have hne : ¬x.active.isEmpty = true := by simpa using h.some
    refine trapTaken_of_exec (sets := baseSets x x.active g) h rfl ?_
    show execBrk g s = _
    simp only [execBrk, h.issues.issuer, if_neg he, if_neg hne]
  · have he : ¬x.grp.episode.isSome = true := by simp [h.issues.plain]
    have hx : exec (.trap code g) s = commitOp s g (fun x => baseSets x x.present g) (fun _ => .ok ()) fun _ y s => .ok (y.put s, none) := by
      show execTrap code g s = _
      simp only [execTrap, h.issues.issuer, if_neg he, ha, List.isEmpty_nil, if_true]
    obtain ⟨t, y, hy, _⟩ := h.filed_of_works hx rfl rfl h.grid (Works.self h.ended_keeps.episode)
    exact ⟨t, y, hy⟩
  · have he : ¬x.grp.episode.isSome = true := by simp [h.plain]
    refine ran_of_advance h ?_
    show execBrk g s = _
    simp only [execBrk, h.issuer, if_neg he, ha, List.isEmpty_nil, if_true]

end Sys2Proof.Proofs
end

section
/-! SUPPORT. Machine states that no run reaches, in which a statement about every state fails: a crew that lists a group number twice,
regions that overlap, and a region without the slots its map names. -/

namespace Sys2Proof.Proofs

open Sys2Proof.Machine Sys2Proof.Tests

/-! ## A group number listed twice (02_execution.md R26, 08_isa_control.md R191) -/

/-- An episode of a group whose lane 0 is live in its copy. -/
def liveEpisode : Episode :=
  { inUse := true, lanes := [], regions := [], reopen := [], fetched := none, active := none, wait := .none, wHash := 0, table := [],
    sheaves := [], threads := [Thread.init 0 0], slotS := [], invSlot := [], invMain := [], invK := [], invP := [], heldK := [], invSpec := [],
    count := 0, fault := none, pages := [] }

/-- 32 threads before an instruction, their group listed again behind itself, there in an episode. -/
def twinned : State :=
  { rState with crews := rState.crews.map fun p => (p.1, { p.2 with groups := p.2.groups ++ p.2.groups.map fun q =>
      (q.1, { q.2 with episode := some liveEpisode }) }) }

theorem twinned_issuer : (issuer twinned gAlways).isSome = true := by decide

def twinnedIss : Iss := (issuer twinned gAlways).get twinned_issuer

theorem twinned_issues : Issues twinned gAlways twinnedIss := issues_of (Option.some_get _).symm (by decide) (by decide)

/-- Once every thread of the first listing has left, the second stands under the number, and the end of the issue exchanges its
episode's copy of lane 0, which is live, for the thread that has exited. -/
theorem exit_twinned : ((after twinned (exec (.exit gAlways) twinned)).threadAt twinnedIss.cur.crew (0, 0)).exited = false := by
  decide +kernel

/-- Refutes O18: a crew that lists its group's number twice, the second time in an episode, has its active lane 0 live after EXIT. -/
theorem not_exit : ¬ Obligations.Exit := by
  intro h
  obtain ⟨⟨z, s1⟩, hz, _⟩ := ok_of (p := fun _ => true) (by decide +kernel : okB (endOutside twinnedIss twinned) (fun _ => true) = true)
  obtain ⟨t, hx, hexited, _⟩ := h gAlways twinned twinnedIss z s1 twinned_issues hz
  have hlive := exit_twinned
  rw [hx] at hlive
  exact Bool.false_ne_true (hlive.symm.trans (hexited (0, 0) (by decide +kernel)))

/-! ## Regions that overlap (02_execution.md R48) -/

/-- An open region of no slots for 32 lanes, that is not restartable. -/
def plainRegion : Region :=
  { map := { base := 0, mask := 0, maskSet := 0, restartable := false, nra := false }, lanes := List.range 32, slots := [], held := [] }

/-- 32 threads in such a region, and at once in a restartable one that holds sixteen stores. -/
def overlapped : State :=
  { bState with crews := bState.crews.map fun p => (p.1, { p.2 with groups := p.2.groups.map fun q =>
      (q.1, { q.2 with regions := plainRegion :: q.2.regions }) }) }

theorem overlapped_issuer : (issuer overlapped gAlways).isSome = true := by decide

def overlappedIss : Iss := (issuer overlapped gAlways).get overlapped_issuer

theorem overlapped_issues : Issues overlapped gAlways overlappedIss := issues_of (Option.some_get _).symm (by decide) (by decide)

/-- The store's checks pass, and the core's store order is empty. -/
theorem overlapped_checks : okB (osJoinAll overlapped.osets 0
      (resultSets overlappedIss overlappedIss.active [(.k 4, 1), (.z, 2), (.lit 4092, 1)] [] false gAlways)) (fun r =>
    okB (checkAll { overlapped with osets := r.2 } overlappedIss .shared true 4 2 0 (some r.1)
      (Sys2Proof.Claims.wants overlappedIss (addrAt overlappedIss .z (.lit 4092)) (storeData overlappedIss (.k 4) 4))) fun q =>
        decide ((q.2.core overlappedIss.crew.core).storeQ.length = 0)) = true := by decide +kernel

theorem overlapped_flagFree : FlagFree overlappedIss.crew (homesOf overlappedIss.active) (flagB overlappedIss.cur.hdr) := by
  intro k hk
  have hflag : flagB overlappedIss.cur.hdr = some 1 := by decide
  rw [hflag, Option.some.injEq] at hk
  subst hk
  decide +kernel

/-- The full region is split although the lanes stand in the first: its stores enter the order before the new one. -/
theorem sts_overlapped : ((after overlapped (exec (.sts .b32 (.k 4) .z (.lit 4092) gAlways) overlapped)).core
    overlappedIss.crew.core).storeQ.length = 2 := by decide +kernel

/-- Refutes O6: where a region that is not restartable overlaps a full restartable one, STS lets the held stores into the store order
too, though none of its lanes stands in a restartable region. -/
theorem not_storesQueue : ¬ Obligations.StoresQueue := by
  intro h
  obtain ⟨⟨set, tab⟩, hset, hc⟩ := ok_of overlapped_checks
  obtain ⟨⟨as, s1⟩, has, hempty⟩ := ok_of hc
  obtain ⟨_, hfree, _⟩ := h.2.1 .b32 (.k 4) .z (.lit 4092) gAlways overlapped overlappedIss set tab as s1 overlapped_issues
    (by decide +kernel) (operable_of (by decide +kernel)) hset has
  obtain ⟨t, y, e, hy, _, hqueue, _⟩ := hfree (by decide +kernel) overlapped_flagFree
  have htwo := sts_overlapped
  rw [hy.next] at htwo
  have hone := congrArg List.length hqueue
  rw [List.length_append, of_decide_eq_true hempty] at hone
  exact absurd (htwo.symm.trans hone) (show ¬2 = 0 + 1 by decide)

/-! ## A region without the slots its map names (02_execution.md R46, 08_isa_control.md R194) -/

/-- A region whose map names slot 0, for a lane that no thread stands in; it has no slots. -/
def bareRegion : Region :=
  { map := { base := 0, mask := 1, maskSet := 0, restartable := false, nra := false }, lanes := [32], slots := [], held := [] }

/-- 32 threads of a group that has such a region open. -/
def unslotted : State :=
  { rState with crews := rState.crews.map fun p => (p.1, { p.2 with groups := p.2.groups.map fun q => (q.1, { q.2 with regions := [bareRegion] }) }) }

theorem unslotted_issuer : (issuer unslotted gAlways).isSome = true := by decide

def unslottedIss : Iss := (issuer unslotted gAlways).get unslotted_issuer

theorem unslotted_issues : Issues unslotted gAlways unslottedIss := issues_of (Option.some_get _).symm (by decide) (by decide)

/-- The map of an RGN with mask 1. -/
def newMap : RegionMap :=
  { base := 0, mask := val32 unslottedIss (.lit 1) (0, 0), maskSet := regSet unslottedIss (.lit 1) 0 (0, 0), restartable := unslottedIss.isH, nra := false }

/-- The open region stays, and with the one that RGN opens, of the same map, asks for one buffer, which the group holds; lane 0 has a
main register 0. -/
theorem unslotted_ends : okB (unslottedIss.endRegion (lanesIn unslottedIss.present) unslotted) (fun r =>
    decide (r.2.osets = State.reset.osets) &&
    decide ((openedMaps r.1.crew r.1.grp [newMap]).length ≤
        (buffersHeld (unslotted.core unslottedIss.crew.core) unslottedIss.cur.crew unslottedIss.grp.family).length) &&
    (r.1.cell (.main 0 0 0)).isSome) = true := by decide +kernel

/-- After RGN lane 0 has no slot 0. -/
theorem rgn_unslotted : someB ((after unslotted (exec (.rgn 0 (.lit 1) false gAlways) unslotted)).context unslottedIss.cur)
    (fun y => (y.cell (.slot 0 0)).isNone) = true := by decide +kernel

/-- Refutes O22: a region with the map of a new one is widened by the new one's lanes, and a slot its map names and it has not, the new
one's lanes have not either. -/
theorem not_regions : ¬ Obligations.Regions := by
  intro h
  obtain ⟨⟨z, s1⟩, hz, hp⟩ := ok_of unslotted_ends
  simp only [Bool.and_eq_true, decide_eq_true_eq] at hp
  have ⟨⟨hosets, hroom⟩, hmain⟩ := hp
  obtain ⟨t, y, hx, hy, hslots, _⟩ := h.1 false 0 (.lit 1) false gAlways unslotted unslottedIss z s1 (0, 0) unslotted_issues
    (by decide +kernel) (by decide +kernel) (by decide +kernel) (by decide +kernel) (by
      have hm : val32 unslottedIss (.lit 1) (0, 0) = 1 := by decide +kernel
      have hb : roleBudget unslottedIss.crew unslottedIss.grp.role = 128 := by decide +kernel
      rw [hm, hb]
      intro i hi
      have : i < 32 := BitVec.lt_of_getLsbD hi
      show 8 * 0 + i < 128
      omega) hz (by rw [hosets]; exact joinsFit_empty) hroom
  have hnone := rgn_unslotted
  have hx' : exec (.rgn 0 (.lit 1) false gAlways) unslotted = .next t := hx
  simp only [hx', after, hy, someB] at hnone
  have hslot := hslots (0, 0) (by decide +kernel) 0 (by decide)
  have hbit : (val32 unslottedIss (.lit 1) (0, 0)).getLsbD 0 = true := by decide +kernel
  rw [if_pos hbit] at hslot
  rw [hslot] at hnone
  have hsame : z.cell (.main 0 (8 * (0 : Fin 32).val + 0) 0) = z.cell (.main 0 0 0) := rfl
  rw [hsame, Option.isNone_iff_eq_none] at hnone
  rw [hnone] at hmain
  exact Bool.false_ne_true hmain

end Sys2Proof.Proofs
end

section
/-! SUPPORT. A machine state that no run reaches, in which a crew that moves has an episode's copy of its registers in use. -/

namespace Sys2Proof.Proofs

open Sys2Proof.Machine Sys2Proof.Tests

/-! ## A migrating crew in an episode (02_execution.md R56, R59) -/

/-- An episode whose copy is in use, and keeps the word 7 for k register 0 of home sheaf 0. -/
def copiedEpisode : Episode :=
  { liveEpisode with threads := [], sheaves := [(0, { k := [(0, 7)], kS := [], p := [], pS := [] })] }

/-- A crew that waits for a landing slot on die 1 as the copy of its group's episode is in use. -/
def copied : State :=
  clustered (stood hdrM id (bare .resident) fun g => { idle g with wait := .landing 1, episode := some copiedEpisode })

/-- What the statement asks of the crew and its grid. -/
theorem copied_migrates : someB (copied.gridOf 1) (fun p => decide (landingDie p.1 = some 1 ∧ p.1.st = .resident ∧ dieOf 128 = 1 ∧
      (∀ h ∈ p.1.sheaves, ∀ f ∈ h.flags, f.2 = 0) ∧ inHandler p.1 = false ∧ storesLeft copied 1 p.1 = false ∧ opsDone copied 1 = true ∧
      ∀ q ∈ p.1.groups, restsToMove q.2 = true) && (usableClusters copied p.2.vf (bitOf p.2.desc.flags 0)).contains (clusterOf 128) &&
    landingFree copied 1 p.1 128 &&
    (moveOrder ((Map.keys p.1.groups).foldl (fun s n => s.leaveEpisode 1 n) copied) p.1.core 128).2) = true := by decide +kernel

/-- Before its move the crew's k register 0 reads 0; the episode discarded, it reads what the episode kept. -/
theorem copied_k0 : Map.get (copied.sheafAt 1 0).k 0 0 ≠ 7 ∧
    Map.get ((after copied (exec (.migrationMove 1 128) copied)).sheafAt 1 0).k 0 0 = 7 := by decide +kernel

/-- Refutes O29: a crew that moves as an episode of its group has its copy in use leaves the episode, and its k registers change. -/
theorem not_crewsAreDispatchedAndRetire : ¬ Obligations.CrewsAreDispatchedAndRetire := by
  intro h
  obtain ⟨⟨w, g⟩, hg, hp⟩ := some_of copied_migrates
  simp only [Bool.and_eq_true, decide_eq_true_eq] at hp
  obtain ⟨⟨⟨⟨hdie, hst, hcore, hflags, hhandler, hstores, hops, hrest⟩, husable⟩, hfree⟩, hmove⟩ := hp
  obtain ⟨t, hx, _, hfiles, _⟩ := h.1 1 128 1 copied w g hg hdie hst hcore (by decide) hflags hhandler hstores hops husable hfree hrest hmove
  obtain ⟨hbefore, hafter⟩ := copied_k0
  rw [hx] at hafter
  exact hbefore ((congrArg (fun f : Map (Lanes Word) × Map OSet × Map Word × Map OSet × Map (Lanes Bool) × Map OSet => Map.get f.2.2.1 0 0)
    (hfiles 1 0) :).symm.trans hafter)

end Sys2Proof.Proofs
end

section
/-! SUPPORT. The watchdog of a blocked group and its runahead episodes (02_execution.md R40, R52, R53, R55). -/

namespace Sys2Proof.Machine

/-! ## Changes that leave every crew but for its groups, and the memories -/

/-- The crews stand as they stood but for their issue groups, and the memories hold what they held. -/
structure Standing (s t : State) : Prop where
  crews : ∀ n, (Map.find? t.crews n).map Crew.sansGroups = (Map.find? s.crews n).map Crew.sansGroups
  memory : SameMemory s t

theorem Standing.refl (s : State) : Standing s s := ⟨fun _ => rfl, SameMemory.refl s⟩

theorem Standing.trans {s t u : State} (h : Standing s t) (k : Standing t u) : Standing s u :=
  ⟨fun n => (k.crews n).trans (h.crews n), h.memory.trans k.memory⟩

theorem Regrouped.standing {n : Nat} {s t : State} (h : Regrouped n s t) : Standing s t := by
  refine ⟨fun k => ?_, h.memory⟩
  by_cases hk : k = n
  · rw [hk, h.crew]
  · rw [h.others k hk]

theorem Standing.threadAt {s t : State} (h : Standing s t) (n : Nat) (p : Nat × Nat) : t.threadAt n p = s.threadAt n p := by
  have hc := congrArg (fun o : Option Crew => (o.map fun c => c.thread p).getD Thread.gone) (h.crews n)
  simp only [Option.map_map] at hc
  exact hc

theorem Standing.sheafAt {s t : State} (h : Standing s t) (n i : Nat) : t.sheafAt n i = s.sheafAt n i := by
  have hc := congrArg (fun o : Option Crew => (o.map fun c => c.sheaf i).getD Sheaf.none) (h.crews n)
  simp only [Option.map_map] at hc
  exact hc

theorem Standing.stand {s t : State} (h : Standing s t) : Sys2Proof.Claims.CrewsStand s t :=
  ⟨h.threadAt, fun n i => congrArg Sheaf.files (h.sheafAt n i)⟩

/-- A change of a crew's group puts the group in its place. -/
theorem groupNow_modGroup {s : State} {n grp : Nat} {w : Crew} {g : Group} {f : Group → Group} {p : Group → Prop}
    (hw : Map.find? s.crews n = some w) (hg : Map.find? w.groups grp = some g) (hp : p (f g)) :
    Sys2Proof.Claims.GroupNow (s.modGroup n grp f) n grp p :=
  ⟨_, Map.find?_mod_self _ _ _ _ hw, _, Map.find?_mod_self _ _ _ _ hg, hp⟩

theorem standing_modGroup (s : State) (n grp : Nat) (f : Group → Group) : Standing s (s.modGroup n grp f) :=
  (regrouped_modCrew (f := fun w => { w with groups := Map.mod w.groups grp f }) fun _ _ => rfl).standing

/-! ## The context of a group that stands at its clause -/

/-- What the context of a group at its clause is made of. -/
theorem startIss_inv {s : State} {n grp : Nat} {x : Iss} (h : startIss s n grp = some x) :
    Map.find? s.crews n = some x.crew ∧ Map.find? x.crew.groups grp = some x.grp ∧ Map.find? s.grids x.crew.grid = some x.grid ∧
      x.cur.crew = n ∧ x.cur.group = grp ∧ x.active = x.present ∧ x.present = x.grp.live x.crew ∧
      ∃ i, x.grp.pc x.crew = some (x.cur.addr, i) := by
  unfold startIss at h
  split at h
  · cases h
  · rename_i w gd hwg
    split at h
    · cases h
    · rename_i g hg
      split at h
      · cases h
      · rename_i a i ha
        cases h
        simp only [State.gridOf, Option.bind_eq_some_iff, Option.map_eq_some_iff, Prod.mk.injEq] at hwg
        obtain ⟨w', hw', gd', hgd', rfl, rfl⟩ := hwg
        exact ⟨hw', hg, hgd', rfl, rfl, rfl, rfl, i, ha⟩

theorem memory_reconvergeAt (s : State) (n grp : Nat) : SameMemory s (reconvergeAt s n grp) := by
  unfold reconvergeAt
  split
  · split <;> exact SameMemory.refl s
  · exact SameMemory.refl s

/-! ## STALL_TIMEOUT -/

/-- The threads of a blocked group take the watchdog's cause: those it traps stand in the handler. -/
theorem stallTimeout_enters {s : State} {x : Iss} (h : Sys2Proof.Claims.Trappable s x) (hact : x.active = x.present)
    (hgrid : Map.find? s.grids x.crew.grid = some x.grid) (ix : Nat) (sets : List OSet) :
    (∀ p ∈ x.present, Sys2Proof.Claims.InHandler (raiseCause s x x.present .stallTimeout ix sets []) x .stallTimeout ix p) ∧
      Sys2Proof.Claims.SameButTrace 6 s (raiseCause s x x.present .stallTimeout ix sets []) := by
  have he : Entering s x :=
    { plain := h.plain, issuing := hact ▸ h.some, nodup := hact ▸ List.Nodup.of_map _ h.lanes, inSheaf := hact ▸ h.inSheaf,
      inThread := hact ▸ h.inThread, joins := h.joins, handler := h.handler, outside := hact ▸ h.outside, unheld := h.unheld,
      grid := hgrid }
  obtain ⟨t, w, set, n, ht, hw, hmem, _, _, hin, _⟩ := raiseCause_enters (c := .stallTimeout) he rfl ix sets []
  rw [hact] at ht hin
  rw [ht]
  refine ⟨fun p hp => ?_, hmem⟩
  simp only [Sys2Proof.Claims.InHandler, threadAt_of_find hw, hin p hp]
  refine ⟨rfl, ?_, rfl, rfl, rfl, rfl, rfl, rfl, rfl, rfl⟩
  show lo32 (x.cur.addr + dword (4 * ix)) = _
  exact BitVec.eq_of_toNat_eq (by simp [lo32, dword])

/-- What holds of a trace's memories after a step holds before a change that leaves them. -/
theorem sameButTrace_of_memory {k : Nat} {s t u : State} (h : SameMemory s t) (ht : t.traces = s.traces)
    (hu : Sys2Proof.Claims.SameButTrace k t u) : Sys2Proof.Claims.SameButTrace k s u :=
  ⟨hu.1.trans h.1, hu.2.1.trans h.2.2, fun hw => (hu.2.2 (ht ▸ hw)).trans h.2.1⟩

theorem traces_reconvergeAt (s : State) (n grp : Nat) : (reconvergeAt s n grp).traces = s.traces := by
  unfold reconvergeAt
  split
  · split <;> rfl
  · rfl

/-! ## RUNAHEAD_START -/

theorem countCore_banks (s : State) (core : Nat) (g : Grid) (code : Nat) : ∃ b, countCore s core g code = { s with banks := b } := ⟨_, rfl⟩

/-- The start of an episode puts it in its group, with the lowest free shadow of its quad. -/
theorem startEpisode_spec {s : State} {x : Iss} {act : Option ActiveClause} {fault : Option FaultStart}
    {pages : List (Bool × Nat × Bool × Bool)} {w : Crew} (hw : Map.find? s.crews x.cur.crew = some w)
    (hk : x.crew.sansGroups = w.sansGroups) :
    ∃ e, Sys2Proof.Claims.GroupNow (startEpisode s x act fault pages) x.cur.crew x.cur.group (· = { x.grp with episode := some e }) ∧
      e.inUse = false ∧ e.count = 0 ∧ e.fault = fault ∧ e.active = act ∧ e.lanes = (act.map (·.lanes)).getD [] ∧
      (∀ i qd, x.grp.quad = some qd → freeShadow (s.core x.crew.core) qd = some i →
        Map.find? ((startEpisode s x act fault pages).core x.crew.core).shadows i = some (x.cur.crew, x.cur.group)) ∧
      Standing s (startEpisode s x act fault pages) := by
  unfold startEpisode
  dsimp only
  generalize hE : Episode.mk _ _ _ _ _ _ _ _ _ _ _ _ _ _ _ _ _ _ _ _ _ = e
  obtain ⟨b, hb⟩ := countCore_banks (({ x with grp := { x.grp with episode := some e } } : Iss).put s) x.crew.core x.grid 0x0004
  rw [hb]
  generalize hu : ({ ({ x with grp := { x.grp with episode := some e } } : Iss).put s with banks := b } : State) = u
  have hcrews : u.crews = Map.put s.crews x.cur.crew
      { x.crew with groups := Map.put x.crew.groups x.cur.group { x.grp with episode := some e } } := by rw [← hu]; rfl
  have hcores : u.core x.crew.core = s.core x.crew.core := by rw [← hu]; rfl
  have hst : Standing s u := by
    refine ⟨fun n => ?_, by rw [← hu]; exact SameMemory.refl s⟩
    rw [hcrews]
    by_cases hn : n = x.cur.crew
    · rw [hn, Map.find?_put_self, hw]
      exact congrArg some hk
    · rw [Map.find?_put_other _ _ _ _ hn]
  have hgroup : ∀ v : State, v.crews = u.crews →
      Sys2Proof.Claims.GroupNow v x.cur.crew x.cur.group (· = { x.grp with episode := some e }) := fun v hv =>
    ⟨_, by rw [hv, hcrews]; exact Map.find?_put_self _ _ _, _, Map.find?_put_self _ _ _, rfl⟩
  refine ⟨e, ?_, by rw [← hE], by rw [← hE], by rw [← hE], by rw [← hE], by rw [← hE], fun i qd hq hi => ?_, ?_⟩
  · split <;> exact hgroup _ rfl
  · rw [hq, Option.bind_some, hcores, hi]
    simp only [State.modCore, State.core, Map.get, Map.find?_put_self, Option.getD_some]
  · split
    · exact hst.trans ⟨fun _ => rfl, SameMemory.refl u⟩
    · exact hst

/-! ## RUNAHEAD_INSTRUCTION_LIMIT -/

theorem episode_eq_some {s : State} {n grp : Nat} {e : Episode} (h : s.episode n grp = some e) :
    ∃ w g, Map.find? s.crews n = some w ∧ Map.find? w.groups grp = some g ∧ g.episode = some e := by
  simp only [State.episode, Option.bind_eq_some_iff] at h
  obtain ⟨w, hw, g, hg, he⟩ := h
  exact ⟨w, g, hw, hg, he⟩

theorem episode_of_find {s : State} {n grp : Nat} {w : Crew} {g : Group} (hw : Map.find? s.crews n = some w)
    (hg : Map.find? w.groups grp = some g) : s.episode n grp = g.episode := by
  simp only [State.episode, hw, hg, Option.bind_some]

/-- An issue group of the state. -/
def State.groupAt (s : State) (n grp : Nat) : Option Group := (Map.find? s.crews n).bind fun c => Map.find? c.groups grp

/-- A group but for its wait and its episode. -/
def Group.still (g : Group) : Group := { g with wait := .none, episode := none }

theorem episode_eq_groupAt (s : State) (n grp : Nat) : s.episode n grp = (s.groupAt n grp).bind Group.episode := by
  simp only [State.episode, State.groupAt, Option.bind_assoc]

theorem groupAt_of_find {s : State} {n : Nat} {w : Crew} (hw : Map.find? s.crews n = some w) (grp : Nat) :
    s.groupAt n grp = Map.find? w.groups grp := by
  simp only [State.groupAt, hw, Option.bind_some]

theorem groupAt_modGroup (s : State) (n grp : Nat) (f : Group → Group) (m k : Nat) :
    (s.modGroup n grp f).groupAt m k = if m = n ∧ k = grp then (s.groupAt m k).map f else s.groupAt m k := by
  simp only [State.groupAt, State.modGroup, State.modCrew, Map.find?_mod]
  by_cases hm : m = n
  · cases Map.find? s.crews m <;> simp [hm, Map.find?_mod]
  · simp [hm]

theorem State.core_modCore (s : State) (c : Nat) (f : Core → Core) (k : Nat) :
    (s.modCore c f).core k = if k = c then f (s.core c) else s.core k := by
  simp only [State.modCore, State.core, Map.get, Map.find?_put]
  split <;> rfl

/-- What the end of episodes that issue nothing leaves: every crew but for the waits and episodes of its groups, the operations in
flight, the memories, and the cores but for their shadow buffers. -/
structure Calm (s t : State) : Prop extends Standing s t where
  groups : ∀ n grp, (t.groupAt n grp).map Group.still = (s.groupAt n grp).map Group.still
  cores : ∀ k, { t.core k with shadows := [] } = { s.core k with shadows := [] }
  ops : t.ops = s.ops

theorem Calm.refl (s : State) : Calm s s := ⟨Standing.refl s, fun _ _ => rfl, fun _ => rfl, rfl⟩

theorem Calm.trans {s t u : State} (h : Calm s t) (k : Calm t u) : Calm s u :=
  ⟨h.toStanding.trans k.toStanding, fun n grp => (k.groups n grp).trans (h.groups n grp), fun i => (k.cores i).trans (h.cores i),
   k.ops.trans h.ops⟩

theorem calm_modGroup (s : State) (n grp : Nat) {f : Group → Group} (hf : ∀ g, (f g).still = g.still) : Calm s (s.modGroup n grp f) := by
  refine ⟨standing_modGroup s n grp f, fun m k => ?_, fun _ => rfl, rfl⟩
  rw [groupAt_modGroup]
  split
  · rw [Option.map_map]
    exact congrArg (fun q => Option.map q _) (funext hf)
  · rfl

/-- No group of a crew issues in an episode. -/
def State.resting (s : State) (n : Nat) : Prop := ∀ grp e, s.episode n grp = some e → e.inUse = false

/-- What a report of records leaves of a state: the queues, a partition's batch numbers and the batches that wait may change. -/
def State.sansReports (s : State) : State := { s with vfs := [], hfq := { s.hfq with waiting := [] }, batches := [] }

theorem sansReports_toDriver (s : State) (vf : Nat) (rs : List FRec) : (s.toDriver vf rs).sansReports = s.sansReports := rfl
theorem sansReports_toHypervisor (s : State) (rs : List FRec) : (s.toHypervisor rs).sansReports = s.sansReports := rfl

theorem sansReports_reportBatch (s : State) (vf : Nat) (c : Cause) (pages : List (Bool × Nat × Bool × Bool)) (flags : Nat) (gpa : Dword)
    (r : FRec) (b : Batch) : (reportBatch s vf c pages flags gpa r b).1.sansReports = s.sansReports := by
  have hkept : ∀ (u : State) (m : Map Batch), ({ u with batches := m } : State).sansReports = u.sansReports := fun _ _ => rfl
  unfold reportBatch
  extract_lets id s1 key s2 p1 p2 s3 s4
  have h1 : s1.sansReports = s.sansReports := rfl
  have h3 : s3.sansReports = s1.sansReports := by
    simp only [s3]
    split
    · rfl
    · exact sansReports_toDriver s1 vf _
  have h4 : s4.sansReports = s3.sansReports := by
    simp only [s4]
    split
    · rfl
    · exact sansReports_toHypervisor s3 _
  split
  · exact (hkept s2 _).trans ((sansReports_toHypervisor s1 _).trans h1)
  · exact (hkept s4 _).trans (h4.trans (h3.trans h1))

/-- The report of an episode's fault changes the wait of its group, and of the machine no crew, core or memory. -/
theorem reportEpisode_spec (s : State) (n grp : Nat) (f : FaultStart) (pages : List (Bool × Nat × Bool × Bool)) :
    Calm s (reportEpisode s n grp f pages) ∧ (∀ k, (reportEpisode s n grp f pages).core k = s.core k) ∧
      ∀ k, (reportEpisode s n grp f pages).episode n k = s.episode n k := by
  unfold reportEpisode
  split
  · exact ⟨Calm.refl s, fun _ => rfl, fun _ => rfl⟩
  · split
    · dsimp only
      generalize crewRec s _ _ _ _ _ _ _ = r
      generalize Batch.mk _ _ _ _ _ _ _ = b
      rename_i w _ _ d _ _
      have hq := sansReports_reportBatch s d.vf f.cause pages f.flags f.gpa r b
      generalize reportBatch s d.vf f.cause pages f.flags f.gpa r b = q at hq ⊢
      have hcrews : q.1.crews = s.crews := (congrArg State.crews hq :)
      have hst : Calm s q.1 :=
        { crews := fun k => by rw [hcrews]
          memory := ⟨(congrArg State.hbm hq :), (congrArg State.host hq :), (congrArg State.store hq :)⟩
          groups := fun _ _ => by simp only [State.groupAt, hcrews]
          cores := fun k => (congrArg (fun q : State => { q.core k with shadows := [] }) hq :)
          ops := (congrArg State.ops hq :) }
      have hwait : Calm q.1 (q.1.modGroup n grp fun g => { g with wait := .fault q.2 }) := calm_modGroup q.1 n grp fun _ => rfl
      refine ⟨(hst.trans hwait).trans ⟨⟨fun _ => rfl, SameMemory.refl _⟩, fun _ _ => rfl, fun _ => rfl, rfl⟩,
        fun k => (congrArg (fun q : State => q.core k) hq :), fun k => ?_⟩
      show (q.1.modGroup n grp fun g => { g with wait := .fault q.2 }).episode n k = _
      simp only [episode_eq_groupAt, groupAt_modGroup]
      simp only [State.groupAt, hcrews]
      split
      · cases (Map.find? s.crews n).bind fun c => Map.find? c.groups k <;> rfl
      · rfl
    · exact ⟨Calm.refl s, fun _ => rfl, fun _ => rfl⟩

/-- The end of an episode whose copy is not in use takes it off its group. -/
theorem endEpisode_eq {s : State} {n grp : Nat} (hu : ∀ e, s.episode n grp = some e → e.inUse = false) (m k : Nat) :
    (Map.find? (s.endEpisode n grp).crews m).map Crew.sansGroups = (Map.find? s.crews m).map Crew.sansGroups ∧
      (s.endEpisode n grp).groupAt m k =
        if m = n ∧ k = grp then (s.groupAt m k).map fun g => { g with episode := none } else s.groupAt m k := by
  simp only [State.endEpisode, State.onGroup, State.modCrew, State.groupAt, Map.find?_mod]
  by_cases hm : m = n
  · subst hm
    cases hw : Map.find? s.crews m with
    | none => simp
    | some w =>
      cases hg : Map.find? w.groups grp with
      | none =>
        simp only [if_true, Option.map_some, Option.bind_some, hg, true_and]
        split
        · rename_i e
          rw [e, hg]
          rfl
        · rfl
      | some g =>
        have hend : endEpisode w g = (w, { g with episode := none }) := by
          cases he : g.episode with
          | none =>
            simp only [endEpisode, he]
            rw [← he]
          | some e => simp [endEpisode, he, hu e ((episode_of_find hw hg).trans he)]
        simp only [if_true, Option.map_some, Option.bind_some, hg, hend, Map.find?_put, true_and]
        refine ⟨rfl, ?_⟩
        split
        · rename_i e
          rw [e, hg]
          rfl
        · rfl
  · simp [hm]

/-- An episode whose copy is not in use leaves its group as it was, without a shadow buffer. -/
theorem leaveEpisode_spec {s : State} {n grp : Nat} (hr : ∀ e, s.episode n grp = some e → e.inUse = false) :
    Calm s (s.leaveEpisode n grp) ∧ (s.resting n → (s.leaveEpisode n grp).resting n) ∧
      ∀ w e, Map.find? s.crews n = some w → s.episode n grp = some e →
        (s.leaveEpisode n grp).episode n grp = none ∧ ∀ p ∈ ((s.leaveEpisode n grp).core w.core).shadows, p.2 ≠ (n, grp) := by
  cases hw : Map.find? s.crews n with
  | none =>
    simp only [State.leaveEpisode, hw]
    exact ⟨Calm.refl s, id, fun w e h => by cases h⟩
  | some w =>
    cases he : s.episode n grp with
    | none =>
      have hb : ((Map.find? w.groups grp).bind fun g => g.episode) = none := by
        simpa only [State.episode, hw, Option.bind_some] using he
      simp only [State.leaveEpisode, hw, hb]
      exact ⟨Calm.refl s, id, fun w e _ h => by cases h⟩
    | some e =>
      have hb : ((Map.find? w.groups grp).bind fun g => g.episode) = some e := by
        simpa only [State.episode, hw, Option.bind_some] using he
      have hend := fun m k => endEpisode_eq (s := { s with cur := none }) (n := n) (grp := grp) hr m k
      simp only [State.leaveEpisode, hw, hb]
      generalize hu : ({ s with cur := none } : State).endEpisode n grp = u at hend
      have hcores : ∀ k, u.core k = s.core k := fun k => by rw [← hu]; rfl
      generalize hv : u.modCore w.core (fun k => freeShadows k n grp) = v
      have hcrews : v.crews = u.crews := by rw [← hv]; rfl
      have hgroups : ∀ m k, v.groupAt m k =
          if m = n ∧ k = grp then (s.groupAt m k).map fun g => { g with episode := none } else s.groupAt m k := fun m k => by
        simp only [State.groupAt, hcrews]
        exact (hend m k).2
      have hcalm : Calm s v :=
        { crews := fun m => by rw [hcrews]; exact (hend m 0).1
          memory := by rw [← hv, ← hu]; exact SameMemory.refl s
          groups := fun m k => by
            rw [hgroups]
            split
            · cases s.groupAt m k <;> rfl
            · rfl
          cores := fun k => by
            rw [← hv, State.core_modCore]
            split
            · rename_i e
              rw [← e, hcores]
              rfl
            · rw [hcores]
          ops := by rw [← hv, ← hu]; rfl }
      have hepisode : ∀ k, v.episode n k = if k = grp then none else s.episode n k := fun k => by
        rw [episode_eq_groupAt, hgroups, episode_eq_groupAt]
        by_cases hk : k = grp
        · cases hg : s.groupAt n k <;> simp [hk]
        · simp [hk]
      have hshadow : ∀ p ∈ (v.core w.core).shadows, p.2 ≠ (n, grp) := by
        rw [← hv]
        intro p hp
        simp only [State.modCore, State.core, Map.get, Map.find?_put_self, Option.getD_some, freeShadows, List.mem_filter, bne_iff_ne] at hp
        exact hp.2
      have hrest : s.resting n → v.resting n := fun hr k e' h => by
        rw [hepisode] at h
        split at h
        · cases h
        · exact hr k e' h
      split
      · rename_i f _
        obtain ⟨hc, hk, hx⟩ := reportEpisode_spec v n grp f e.pages
        refine ⟨hcalm.trans hc, fun hr k e' h => hrest hr k e' (hx k ▸ h), fun w' _ h _ => ?_⟩
        cases h
        exact ⟨by rw [hx, hepisode, if_pos rfl], by rw [hk]; exact hshadow⟩
      · refine ⟨hcalm, hrest, fun w' _ h _ => ?_⟩
        cases h
        exact ⟨by rw [hepisode, if_pos rfl], hshadow⟩

end Sys2Proof.Machine

namespace Sys2Proof.Proofs

open Sys2Proof.Machine

/-- The watchdog of a group that is blocked at its clause raises its cause in the group's threads, at index 0. -/
theorem exec_stallTimeout_clause {s : State} {n grp : Nat} {x : Iss} {h : Word} {ws : List Word}
    (hx : startIss (reconvergeAt s n grp) n grp = some x) (hplain : x.grp.episode = none) (hst : x.crew.st = .resident)
    (hhalt : x.grp.halted = false) (hcopy : copyAwaits (reconvergeAt s n grp) n (homesOf x.present) (awaited x) = false)
    (hact : x.grp.active = none) (hwait : x.grp.wait = .none) (hcl : x.grp.clause x.crew = some (h, ws)) (hmask : maskMet x.crew x.grp h = false) :
    exec (.stallTimeout n grp) s =
      .next (raiseCause (reconvergeAt s n grp) x x.present .stallTimeout 0 (entrySets x.crew x.grp.role x.cur.addr) []) := by
  show execStallTimeout n grp s = _
  have he : ¬x.grp.episode.isSome = true := by simp [hplain]
  simp [execStallTimeout, hx, hst, hhalt, hcopy, hact, hwait, hcl, hmask, if_neg he]

/-- The watchdog of a group that is blocked in an instruction raises its cause there in the group's threads. -/
theorem exec_stallTimeout_instr {s : State} {n grp : Nat} {x : Iss} {a : ActiveClause}
    (hx : startIss (reconvergeAt s n grp) n grp = some x) (hplain : x.grp.episode = none) (hst : x.crew.st = .resident)
    (hhalt : x.grp.halted = false) (hcopy : copyAwaits (reconvergeAt s n grp) n (homesOf x.present) (awaited x) = false)
    (hact : x.grp.active = some a) (hwait : watched x.grp.wait = true) :
    exec (.stallTimeout n grp) s =
      .next (raiseCause (reconvergeAt s n grp) (waitingIss x a) (waitingIss x a).present .stallTimeout (waitingIss x a).cur.index
        (placedSets (waitingIss x a) a.hdr (a.words.drop (a.index - 1))) []) := by
  show execStallTimeout n grp s = _
  have he : ¬x.grp.episode.isSome = true := by simp [hplain]
  simp [execStallTimeout, hx, hst, hhalt, hcopy, hact, hwait, if_neg he]

/-- Settles O27: it holds. -/
theorem stallsAndRunahead : Obligations.StallsAndRunahead := by
  refine ⟨fun n grp s x h ws hx ht hst hhalt hcopy hact hwait hcl hmask => ?_, fun n grp s x a hx ht hst hhalt hcopy hact hwait => ?_,
    fun n grp s x qd hx hst hhalt hep hran hno hfl hnr hqd hmiss => ?_, fun n grp s e he hu hc => ?_⟩
  · obtain ⟨_, _, hgrid, _, _, hall, _⟩ := startIss_inv hx
    obtain ⟨hin, hm⟩ := stallTimeout_enters ht hall hgrid 0 (entrySets x.crew x.grp.role x.cur.addr)
    refine ⟨_, exec_stallTimeout_clause hx ht.plain hst hhalt hcopy hact hwait hcl hmask, hin,
      sameButTrace_of_memory (memory_reconvergeAt s n grp) (traces_reconvergeAt s n grp) hm⟩
  · obtain ⟨_, _, hgrid, _⟩ := startIss_inv hx
    obtain ⟨hin, hm⟩ := stallTimeout_enters (x := waitingIss x a) ht rfl hgrid (waitingIss x a).cur.index
      (placedSets (waitingIss x a) a.hdr (a.words.drop (a.index - 1)))
    refine ⟨_, exec_stallTimeout_instr hx ht.plain hst hhalt hcopy hact hwait, hin,
      sameButTrace_of_memory (memory_reconvergeAt s n grp) (traces_reconvergeAt s n grp) hm⟩
  · obtain ⟨hw, hg, _, rfl, rfl, _⟩ := startIss_inv hx
    have hmay : ¬(!mayRunAhead s x) = true := by simp [mayRunAhead, hst, hep, hhalt, hran, hno, hfl, hnr, hqd, hmiss]
    have hstand : ∀ f, Standing s (s.modGroup x.cur.crew x.cur.group f) := standing_modGroup s _ _
    refine ⟨fun a hfree ha => ?_, fun hfree ha => ?_, fun hfree => ?_⟩
    · obtain ⟨e, hnow, hin, hcount, hfault, hactive, hlanes, hshadow, hs⟩ := startEpisode_spec (s := s)
        (x := { x with grp := { x.grp with ranWait := true } }) (act := some a) (fault := none) (pages := []) hw rfl
      refine ⟨_, ?_, ?_, fun i hi => hshadow i qd hqd hi, hs.stand, hs.memory⟩
      · show execRunaheadStart x.cur.crew x.cur.group s = _
        simp only [execRunaheadStart, hx, if_neg hmay, hfree, Bool.not_true, Bool.false_eq_true, if_false, ha]
      · obtain ⟨w, hw', g, hg', rfl⟩ := hnow
        exact ⟨w, hw', _, hg', rfl, e, rfl, hin, hcount, hfault, hactive, hlanes⟩
    · refine ⟨s.modGroup x.cur.crew x.cur.group fun g => { g with ranWait := true }, ?_, groupNow_modGroup hw hg ⟨hep, rfl⟩, (hstand _).stand,
        (hstand _).memory⟩
      show execRunaheadStart x.cur.crew x.cur.group s = _
      simp only [execRunaheadStart, hx, if_neg hmay, hfree, Bool.not_true, Bool.false_eq_true, if_false, ha]
    · refine ⟨s.modGroup x.cur.crew x.cur.group fun g => { g with noShadow := true }, ?_, groupNow_modGroup hw hg ⟨hep, rfl⟩, (hstand _).stand,
        (hstand _).memory⟩
      show execRunaheadStart x.cur.crew x.cur.group s = _
      simp only [execRunaheadStart, hx, if_neg hmay, hfree, Bool.not_false, if_true]
  · obtain ⟨w, g, hw, _, _⟩ := episode_eq_some he
    obtain ⟨hs, _, hleft⟩ := leaveEpisode_spec (s := s) (n := n) (grp := grp) fun e' h => by rw [he] at h; cases h; exact hu
    obtain ⟨hnone, hshadow⟩ := hleft w e hw he
    refine ⟨s.leaveEpisode n grp, ?_, hnone, hs.stand, hs.memory, fun c hc => ?_⟩
    · show execRunaheadInstructionLimit n grp s = _
      simp only [execRunaheadInstructionLimit, he, if_pos hc]
    · obtain rfl : w = c := by rw [hw] at hc; cases hc; rfl
      exact hshadow

end Sys2Proof.Proofs
end

section
/-! SUPPORT. The fetch and the start of clauses, and the packing of threads (02_execution.md R29, R31, R36; 03_registers.md R85;
07_encoding.md R162). -/

namespace Sys2Proof.Machine

/-! ## Reading code -/

theorem touchMissed_lookup (s : State) (vf pa : Nat) : (touchMissed s vf pa).sansLookup = s.sansLookup := by
  unfold touchMissed
  split <;> rfl

theorem codeWord_lookup {s t : State} {core : Nat} {g : Grid} {va : Nat} {demand : Bool} {w : Word}
    (h : codeWord s core g va demand = .ok (w, t)) : t.sansLookup = s.sansLookup := by
  simp only [codeWord] at h
  split at h
  · cases h
  · rename_i p u hu
    have hk := placeOf_lookup hu
    split at h
    · split at h
      · cases h
      · cases h; exact (touchMissed_lookup _ _ _).trans hk
    · split at h
      · split at h
        · cases h; exact hk
        · cases h
      · split at h
        · cases h
        · split at h <;> cases h

theorem codeWords_lookup {core : Nat} {g : Grid} {demand : Bool} {n : Nat} {s t : State} {va : Nat} {ws : List Word}
    (h : codeWords s core g va n demand = .ok (ws, t)) : t.sansLookup = s.sansLookup := by
  induction n generalizing s va ws with
  | zero => cases h; rfl
  | succ n ih =>
    simp only [codeWords] at h
    split at h
    · cases h
    · rename_i w u hu
      split at h
      · cases h
      · rename_i vs v hv
        cases h
        exact (ih hv).trans (codeWord_lookup hu)

theorem codeClause_lookup {s t : State} {core : Nat} {g : Grid} {addr : Nat} {demand : Bool} {w : Word} {ws : List Word}
    (h : codeClause s core g addr demand = .ok (w, ws, t)) : t.sansLookup = s.sansLookup := by
  simp only [codeClause] at h
  split at h
  · cases h
  · rename_i u hu
    split at h
    · cases h
    · rename_i v hv
      cases h
      exact (codeWords_lookup hv).trans (codeWord_lookup hu)

/-! ## Episodes that a group does not run -/

/-- What a change of a group and its crew leaves where it leaves the crew and the group. -/
theorem onGroup_same {s : State} {n grp : Nat} {w : Crew} {g : Group} {f : Crew → Group → Crew × Group}
    (hw : Map.find? s.crews n = some w) (hg : Map.find? w.groups grp = some g) (hf : f w g = (w, g)) :
    Standing s (s.onGroup n grp f) ∧ Sys2Proof.Claims.GroupNow (s.onGroup n grp f) n grp (· = g) := by
  have hput : Map.find? (s.onGroup n grp f).crews n = some { w with groups := Map.put w.groups grp g } := by
    rw [State.onGroup, State.modCrew, Map.find?_mod_self _ _ _ _ hw]
    simp only [hg, hf]
  refine ⟨⟨fun k => ?_, SameMemory.refl s⟩, _, hput, g, Map.find?_put_self _ _ _, rfl⟩
  by_cases hk : k = n
  · rw [hk, hput, hw]; rfl
  · rw [State.onGroup, State.modCrew, Map.find?_mod_other _ _ _ _ hk]

/-- A group without an episode has no copy to take out. -/
theorem exitEpisode_plain {s : State} {n grp : Nat} {w : Crew} {g : Group} (hw : Map.find? s.crews n = some w)
    (hg : Map.find? w.groups grp = some g) (he : g.episode = none) :
    Standing s (s.exitEpisode n grp) ∧ Sys2Proof.Claims.GroupNow (s.exitEpisode n grp) n grp (· = g) := by
  have hs := onGroup_same (s := { s with osets := s.outerTable n grp }) (n := n) (grp := grp) (f := fun c g =>
    match g.episode with
    | some e => if e.inUse then swapEpisode c g else (c, g)
    | none => (c, g)) hw hg (by rw [he])
  exact ⟨Standing.trans (t := { s with osets := s.outerTable n grp }) ⟨fun _ => rfl, SameMemory.refl s⟩ hs.1, hs.2⟩

/-- Where a group runs no episode after its copy was to come in, it ran none before, and nothing of its crew changed. -/
theorem enterEpisode_plain {s : State} {n grp : Nat} {w : Crew} {g : Group} (hw : Map.find? (s.enterEpisode n grp).crews n = some w)
    (hg : Map.find? w.groups grp = some g) (he : g.episode = none) : Standing s (s.enterEpisode n grp) := by
  cases hc : Map.find? s.crews n with
  | none =>
    rw [State.enterEpisode, State.onGroup, State.modCrew, Map.find?_mod, if_pos rfl, hc] at hw
    cases hw
  | some c =>
    cases hq : Map.find? c.groups grp with
    | none =>
      refine (regrouped_modCrew (n := n) fun d hd => ?_).standing
      obtain rfl : c = d := by rw [hc] at hd; cases hd; rfl
      simp only [hq]
    | some q =>
      cases hep : q.episode with
      | none => exact (onGroup_same hc hq (by simp only [hep])).1
      | some e =>
        rw [State.enterEpisode, State.onGroup, State.modCrew, Map.find?_mod_self _ _ _ _ hc] at hw
        simp only [hq, hep] at hw
        cases hw
        rw [Map.find?_put_self] at hg
        cases hg
        split at he
        · rw [hep] at he; cases he
        · simp [swapEpisode] at he

/-! ## Threads that stand where they stood -/

/-- Where a thread stands, and whether it is live. -/
def Thread.place (t : Thread) : Dword × Nat × Bool := (t.clause, t.index, t.exited)

/-- A change of a crew that moves none of its threads and leaves its registers, its grid and the causes posted to it. -/
structure Unmoved (c c' : Crew) : Prop where
  place : ∀ p, (c'.thread p).place = (c.thread p).place
  files : ∀ i, (c'.sheaf i).files = (c.sheaf i).files
  grid : c'.grid = c.grid
  posted : c'.posted = c.posted

theorem Unmoved.refl (c : Crew) : Unmoved c c := ⟨fun _ => rfl, fun _ => rfl, rfl, rfl⟩

theorem Unmoved.trans {a b c : Crew} (h : Unmoved a b) (k : Unmoved b c) : Unmoved a c :=
  ⟨fun p => (k.place p).trans (h.place p), fun i => (k.files i).trans (h.files i), k.grid.trans h.grid, k.posted.trans h.posted⟩

theorem place_popDiv (id : Nat) (t : Thread) : (popDiv id t).place = t.place := by
  unfold popDiv
  dsimp only
  split
  · split <;> rfl
  · rfl

theorem unmoved_reconverge (fuel : Nat) (c : Crew) (role : Nat) (a : Dword) :
    Unmoved c (reconverge fuel c role a) ∧ (reconverge fuel c role a).groups = c.groups := by
  induction fuel generalizing c with
  | zero => exact ⟨Unmoved.refl c, rfl⟩
  | succ n ih =>
    simp only [reconverge]
    split
    · exact ⟨Unmoved.refl c, rfl⟩
    · rename_i i _ _
      have ho := onThreads_modThreads c (divThreads c role i) fun _ => popDiv i
      obtain ⟨hu, hg⟩ := ih (c.modThreads (divThreads c role i) fun _ => popDiv i)
      exact ⟨Unmoved.trans ⟨Crew.thread_modThreads_prop c _ (fun _ => popDiv i) Thread.place fun _ => place_popDiv i, ho.files, ho.grid,
        (congrArg Crew.posted ho.crew :)⟩ hu, hg.trans (congrArg Crew.groups ho.crew :)⟩

section
variable {c c' : Crew} (h : Unmoved c c')
include h

theorem Unmoved.clause (p : Nat × Nat) : (c'.thread p).clause = (c.thread p).clause := (congrArg (·.1) (h.place p) :)

theorem Unmoved.index (p : Nat × Nat) : (c'.thread p).index = (c.thread p).index := (congrArg (·.2.1) (h.place p) :)

theorem Unmoved.goesOn (g : Group) : g.goesOn c' = g.goesOn c := by
  funext p
  have he : (c'.thread p).exited = (c.thread p).exited := (congrArg (·.2.2) (h.place p) :)
  simp only [Group.goesOn, he]

theorem Unmoved.live (g : Group) : g.live c' = g.live c := by simp only [Group.live, h.goesOn]

theorem Unmoved.pc (g : Group) : g.pc c' = g.pc c := by simp only [Group.pc, Group.first, h.goesOn, h.clause, h.index]

theorem Unmoved.standsAt (role : Nat) (a : Dword) (g : Group) : standsAt c' role a g = standsAt c role a g := by
  simp only [Machine.standsAt, h.pc]

end

/-! ## The choice of the selector -/

theorem mem_of_leastBy {α : Type} {f : α → Nat} {xs : List α} {a : α} (h : leastBy f xs = some a) : a ∈ xs := by
  induction xs generalizing a with
  | nil => cases h
  | cons x rest ih =>
    simp only [leastBy] at h
    split at h
    · cases h; exact List.mem_cons_self
    · rename_i y hy
      split at h
      · cases h; exact List.mem_cons_of_mem _ (ih hy)
      · cases h; exact List.mem_cons_self

theorem mem_of_bestOf {c : Crew} {role : Nat} {cs : List (Nat × Group × Nat)} {q : Nat × Group × Nat} (h : bestOf c role cs = some q) :
    q ∈ cs := by
  simp only [bestOf] at h
  split at h
  · cases h
  · have hm := List.mem_of_mem_filter (mem_of_leastBy h)
    split at hm
    · exact List.mem_of_mem_filter hm
    · exact hm

theorem mem_of_choose {c : Crew} {role : Nat} {q : Nat × Group × Nat} (h : choose c role = some q) : (q.1, q.2.1) ∈ c.groups := by
  have hc : q ∈ candidates c role := by
    unfold choose at h
    extract_lets all cs at h
    have hstep : ∀ q ∈ cs, q ∈ all := fun q hm => by
      simp only [cs] at hm
      split at hm
      · exact List.mem_of_mem_filter hm
      · exact hm
    split at h
    · have hm := mem_of_bestOf h
      split at hm
      · exact hstep q hm
      · exact hstep q (List.mem_of_mem_filter hm)
    · exact hstep q (mem_of_bestOf h)
  simp only [candidates, List.mem_filterMap] at hc
  obtain ⟨p, hp, hq⟩ := hc
  split at hq
  · rw [Option.map_eq_some_iff] at hq
    obtain ⟨a, _, rfl⟩ := hq
    exact hp
  · cases hq

/-! ## The joining of a group's parts -/

theorem Map.mem_put {α : Type} {m : Map α} {k : Nat} {a : α} {p : Nat × α} (h : p ∈ Map.put m k a) : p = (k, a) ∨ p ∈ m := by
  induction m with
  | nil => exact .inl (by simpa [Map.put] using h)
  | cons q rest ih =>
    simp only [Map.put] at h
    split at h
    · exact (List.mem_cons.1 h).imp id id
    · split at h
      · exact (List.mem_cons.1 h).imp id (List.mem_cons_of_mem _)
      · rcases List.mem_cons.1 h with h | h
        · exact .inr (h ▸ List.mem_cons_self)
        · exact (ih h).imp id (List.mem_cons_of_mem _)

/-- A crew's groups are put again as they were: under each key the same, and none but group n's entry new. -/
structure Reput (c : Crew) (n : Nat) (gs : Map Group) : Prop where
  find : ∀ k, Map.find? gs k = Map.find? c.groups k
  mem : ∀ p ∈ gs, p.1 ≠ n → p ∈ c.groups

/-- Where only entries under one key stand at a clause, no parts join. -/
theorem joinParts_alone {c : Crew} {role n : Nat} {a : Dword} (h : Word)
    (ha : ∀ p ∈ c.groups, p.1 ≠ n → standsAt c role a p.2 = false) :
    ∃ gs, joinParts c role a h = { c with groups := gs } ∧ Reput c n gs := by
  unfold joinParts
  refine List.foldlRecOn (motive := fun d => ∃ gs, d = { c with groups := gs } ∧ Reput c n gs) _ _
    ⟨c.groups, rfl, fun _ => rfl, fun _ hp _ => hp⟩ fun d hd p hp => ?_
  obtain ⟨gs, rfl, hgs⟩ := hd
  obtain ⟨hm, hj⟩ := List.mem_filter.1 hp
  have hpn : p.1 = n := by
    by_contra hn
    simp [mayJoin, ha p hm hn] at hj
  rw [hpn]
  split
  · exact ⟨gs, rfl, hgs⟩
  · rename_i g hg
    have hothers : (gs.filter fun q => q.1 != n && q.2.family == g.family && mayJoin { c with groups := gs } role a h q.2) = [] := by
      rw [List.filter_eq_nil_iff]
      intro q hq hj
      simp only [Bool.and_eq_true, bne_iff_ne] at hj
      obtain ⟨⟨hn, _⟩, hj⟩ := hj
      have hs : standsAt { c with groups := gs } role a q.2 = false := ha q (hgs.mem q hq hn) hn
      simp [mayJoin, hs] at hj
    simp only [hothers, List.foldl_nil, List.any_nil, Bool.not_false, List.filter_true]
    refine ⟨_, rfl, fun k => ?_, fun q hq hn => ?_⟩
    · rw [Map.find?_put]
      split
      · rename_i e
        rw [e, ← hgs.find, hg]
      · exact hgs.find k
    · rcases Map.mem_put hq with rfl | hq
      · exact absurd rfl hn
      · exact hgs.mem q hq hn

/-! ## CLAUSE_START -/

/-- The context of a group whose crew has changed but for where its threads stand. -/
theorem startIss_of_unmoved {s t : State} {n grp : Nat} {x : Iss} {w : Crew} (hx : startIss s n grp = some x)
    (hw : Map.find? t.crews n = some w) (hu : Unmoved x.crew w)
    (hg : Map.find? w.groups grp = some x.grp) (hgrids : t.grids = s.grids) : startIss t n grp = some { x with crew := w } := by
  have hpc : x.grp.pc w = x.grp.pc x.crew := hu.pc x.grp
  have hlive : x.grp.live w = x.grp.live x.crew := hu.live x.grp
  obtain ⟨hxw, hxg, hxgrid, _⟩ := startIss_inv hx
  simp only [startIss, State.gridOf, hxw, hxgrid, Option.bind_some, Option.map_some, hxg] at hx
  split at hx
  · cases hx
  · rename_i a i ha
    simp only [startIss, State.gridOf, hw, hgrids, hu.grid, hxgrid, Option.bind_some, Option.map_some, hg, hpc, hlive, ha]
    rw [← Option.some.inj hx]

/-- A crew whose selector has chosen an entry: its divergences reconverged and the parts of its groups that meet there joined. -/
def Crew.meeting (c : Crew) (role : Nat) (a : Dword) (h : Word) : Crew :=
  joinParts (reconverge 512 (chosen c role a.toNat) role a) role a h

theorem unmoved_chosen (c : Crew) (role a : Nat) : Unmoved c (chosen c role a) ∧ (chosen c role a).groups = c.groups := by
  unfold chosen
  split <;> exact ⟨⟨fun _ => rfl, fun _ => rfl, rfl, rfl⟩, rfl⟩

/-- Where only entries under one key stand at the entry, its threads stand and its groups are as they were. -/
theorem meeting_alone {c : Crew} {role n : Nat} {a : Dword} (h : Word) (ha : ∀ p ∈ c.groups, p.1 ≠ n → standsAt c role a p.2 = false) :
    Unmoved c (c.meeting role a h) ∧ Reput c n (c.meeting role a h).groups := by
  obtain ⟨hu1, hg1⟩ := unmoved_chosen c role a.toNat
  obtain ⟨hu2, hg2⟩ := unmoved_reconverge 512 (chosen c role a.toNat) role a
  have hu := hu1.trans hu2
  have hg := hg2.trans hg1
  obtain ⟨gs, hgs, hr⟩ := joinParts_alone (c := reconverge 512 (chosen c role a.toNat) role a) (n := n) (role := role) (a := a) h
    fun p hp hn => (hu.standsAt role a p.2).trans (ha p (hg ▸ hp) hn)
  rw [Crew.meeting, hgs]
  exact ⟨hu.trans ⟨fun _ => rfl, fun _ => rfl, rfl, rfl⟩, fun k => by rw [hr.find, hg], fun p hp hn => hg ▸ hr.mem p hp hn⟩

/-- The start of an entry that is no region head: the parts that meet are joined, and the clause of their group starts. -/
theorem startEntry_eq {s : State} {n role grp : Nat} {x y : Iss} {h : Word} {ws : List Word} (hx : startIss s n grp = some x)
    (hcl : x.grp.clause x.crew = some (h, ws)) (hhead : regionHead h ws = false)
    (hy : startIss (s.modCrew n fun c => c.meeting role x.cur.addr h) n
      (joinedGroup (s.modCrew n fun c => c.meeting role x.cur.addr h) x) = some y) :
    startEntry s n role grp = startClause (s.modCrew n fun c => c.meeting role x.cur.addr h) y h ws := by
  simp only [Crew.meeting] at hy ⊢
  simp only [startEntry, hx, hcl, hhead, Bool.false_and, Bool.false_eq_true, if_false, hy]

/-- A crew without episodes has none whose wait has become met. -/
theorem endMet_plain {s : State} {n : Nat} {c : Crew} (hc : Map.find? s.crews n = some c) (he : ∀ p ∈ c.groups, p.2.episode = none) :
    endMet s n = s := by
  have hm : metEpisodes c = [] := by
    rw [metEpisodes, List.map_eq_nil_iff, List.filter_eq_nil_iff]
    intro p hp
    simp [episodeMet, he p hp]
  simp only [endMet, hc, hm, List.foldl_nil]

/-- The clause that a group's issuing threads start, at the index they stand at. -/
def Iss.starting (x : Iss) (h : Word) (ws : List Word) : ActiveClause :=
  { addr := x.cur.addr, hdr := h, words := ws, lanes := lanesIn x.present,
    index := ((x.present.head?).map fun p => (x.crew.thread p).index).getD 1 }

/-- A group's clause starts where its header is well formed, it runs no episode and no cause is posted. -/
theorem startClause_spec {s : State} {x : Iss} {h : Word} {ws : List Word} (hw : Map.find? s.crews x.cur.crew = some x.crew)
    (hg : Map.find? x.crew.groups x.cur.group = some x.grp) (hh : headerCause h = none) (he : x.grp.episode = none)
    (hp : x.crew.posted = []) :
    Standing s (startClause s x h ws) ∧
      Sys2Proof.Claims.GroupNow (startClause s x h ws) x.cur.crew x.cur.group (·.active = some (x.starting h ws)) := by
  have hep : ¬x.grp.episode.isSome = true := by simp [he]
  have hposted : ∀ f, postedAt x f = none := fun f => by simp [postedAt, hp]
  have hfind : (x.present.find? fun p => (lanesIn x.present).contains p.1) = x.present.head? := by
    cases x.present <;> simp [lanesIn]
  simp only [startClause, hh, if_neg hep, hposted]
  refine ⟨standing_modGroup _ _ _ _, groupNow_modGroup hw hg ?_⟩
  simp only [he, hfind]
  rfl

/-- Where no other group stands at a group's clause or holds one of its threads, the parts that meet there are that group. -/
theorem joinedGroup_alone {s : State} {x : Iss} {c w : Crew} {n : Nat} (hw : Map.find? s.crews x.cur.crew = some w)
    (hr : Reput c n w.groups) (hg : Map.find? w.groups n = some x.grp) (hcur : x.cur.group = n) (hmem : ∀ p ∈ x.present, p ∈ x.grp.members)
    (ha : ∀ p ∈ c.groups, p.1 ≠ n → ∀ m ∈ x.present, m ∉ p.2.members) : joinedGroup s x = n := by
  simp only [joinedGroup, hw, Option.bind_some]
  cases hp : x.present.head? with
  | none => simpa using hcur
  | some p =>
    have hpm : p ∈ x.present := List.mem_of_head? hp
    rw [Option.bind_some]
    cases hq : List.find? (fun q : Nat × Group => q.2.members.contains p) w.groups with
    | none =>
      have := List.find?_eq_none.1 hq (n, x.grp) (Map.mem_of_find? hg)
      simp [hmem p hpm] at this
    | some q =>
      have hin := List.find?_some hq
      have hqm := List.mem_of_find?_eq_some hq
      simp only [Option.map_some, Option.getD_some]
      by_contra hn
      exact ha q (hr.mem q hqm hn) hn p hpm (by simpa using hin)

theorem mem_members_of_live {c : Crew} {g : Group} {p : Nat × Nat} (h : p ∈ g.live c) : p ∈ g.members := by
  simp only [Group.live, List.mem_filterMap] at h
  obtain ⟨l, _, hl⟩ := h
  exact List.mem_of_mem_filter (List.mem_of_find?_eq_some hl)

/-! ## Packing -/

theorem mem_ascending (a : Nat) (xs : List Nat) : a ∈ ascending xs ↔ a ∈ xs := by
  induction xs with
  | nil => rfl
  | cons x rest ih =>
    show a ∈ insertAsc x (ascending rest) ↔ _
    rw [mem_insertAsc, ih, List.mem_cons]

theorem pairwise_insertAsc {x : Nat} {xs : List Nat} (h : xs.Pairwise (· < ·)) : (insertAsc x xs).Pairwise (· < ·) := by
  induction xs with
  | nil => simp [insertAsc]
  | cons y rest ih =>
    obtain ⟨hy, hrest⟩ := List.pairwise_cons.1 h
    simp only [insertAsc]
    split
    · rename_i hlt
      exact List.pairwise_cons.2 ⟨fun a ha => (List.mem_cons.1 ha).elim (fun e => e ▸ hlt) fun ha => hlt.trans (hy a ha), h⟩
    · split
      · exact h
      · refine List.pairwise_cons.2 ⟨fun a ha => ((mem_insertAsc x a rest).1 ha).elim (fun e => ?_) (hy a), ih hrest⟩
        omega

theorem nodup_ascending (xs : List Nat) : (ascending xs).Nodup := by
  suffices h : (ascending xs).Pairwise (· < ·) from h.imp Nat.ne_of_lt
  induction xs with
  | nil => exact List.Pairwise.nil
  | cons x rest ih => exact pairwise_insertAsc ih

/-- The home sheaves of the threads at a lane position, in ascending order. -/
def homesAt (ps : List (Nat × Nat)) (l : Nat) : List Nat := ascending ((ps.filter fun p => p.1 == l).map (·.2))

theorem mem_homesAt {ps : List (Nat × Nat)} {l h : Nat} : h ∈ homesAt ps l ↔ (l, h) ∈ ps := by
  simp [homesAt, mem_ascending]

theorem length_homesAt {ps : List (Nat × Nat)} (hb : ∀ p ∈ ps, p.2 < 32) (l : Nat) : (homesAt ps l).length ≤ 32 := by
  have hsub : (homesAt ps l).toFinset ⊆ Finset.range 32 := fun h hh => Finset.mem_range.2 (hb _ (mem_homesAt.1 (List.mem_toFinset.1 hh)))
  calc (homesAt ps l).length = (homesAt ps l).toFinset.card := (List.toFinset_card_of_nodup (nodup_ascending _)).symm
    _ ≤ (Finset.range 32).card := Finset.card_le_card hsub
    _ = 32 := Finset.card_range 32

theorem mem_formedSheaf {ps : List (Nat × Nat)} {j : Nat} {p : Nat × Nat} :
    p ∈ formedSheaf ps j ↔ p.1 < 32 ∧ (homesAt ps p.1)[j]? = some p.2 := by
  simp only [formedSheaf, List.mem_filterMap, List.mem_range, Option.map_eq_some_iff]
  constructor
  · rintro ⟨l, hl, h, hh, rfl⟩
    exact ⟨hl, hh⟩
  · exact fun h => ⟨p.1, h.1, p.2, h.2, rfl⟩

/-- A formed sheaf holds one thread at most of each lane position. -/
theorem lanes_formedSheaf (ps : List (Nat × Nat)) (j : Nat) : (lanesIn (formedSheaf ps j)).Nodup := by
  have hs : lanesIn (formedSheaf ps j) = (List.range 32).filter fun l => ((homesAt ps l)[j]?).isSome := by
    have hf : formedSheaf ps j = (List.range 32).filterMap fun l => ((homesAt ps l)[j]?).map fun h => (l, h) := rfl
    rw [lanesIn, hf, List.map_filterMap, ← List.filterMap_eq_filter]
    refine List.filterMap_congr fun l _ => ?_
    show ((homesAt ps l)[j]?.map fun h => (l, h)).map (·.1) = Option.guard _ l
    cases hh : (homesAt ps l)[j]? <;> simp [hh, Option.guard]
  rw [hs]
  exact List.nodup_range.filter _

/-- Two formed sheaves have no thread in common. -/
theorem disjoint_formedSheaf {ps : List (Nat × Nat)} {i j : Nat} (hij : i ≠ j) : ∀ p ∈ formedSheaf ps i, p ∉ formedSheaf ps j := by
  intro p hi hj
  obtain ⟨_, hi⟩ := mem_formedSheaf.1 hi
  obtain ⟨_, hj⟩ := mem_formedSheaf.1 hj
  obtain ⟨hlt, _⟩ := List.getElem?_eq_some_iff.1 hi
  exact hij ((List.getElem?_inj hlt (nodup_ascending _)).1 (hi.trans hj.symm))

end Sys2Proof.Machine

namespace Sys2Proof.Proofs

open Sys2Proof.Machine

/-- Packing puts every thread into exactly one formed sheaf, at its own lane position. -/
theorem formSheaves_packs (ps : List (Nat × Nat)) (hb : ∀ p ∈ ps, p.1 < 32 ∧ p.2 < 32) :
    (∀ p ∈ ps, ∃ m ∈ formSheaves ps, p ∈ m) ∧ (∀ m ∈ formSheaves ps, (lanesIn m).Nodup ∧ ∀ p ∈ m, p ∈ ps) ∧
      (formSheaves ps).Pairwise fun a b => ∀ p ∈ a, p ∉ b := by
  refine ⟨fun p hp => ?_, fun m hm => ?_, ?_⟩
  · obtain ⟨j, hj, he⟩ := List.getElem_of_mem (mem_homesAt.2 (show (p.1, p.2) ∈ ps from hp))
    have hin : p ∈ formedSheaf ps j := mem_formedSheaf.2 ⟨(hb p hp).1, by rw [List.getElem?_eq_getElem hj, he]⟩
    have hj32 : j < 32 := lt_of_lt_of_le hj (length_homesAt (fun p hp => (hb p hp).2) p.1)
    refine ⟨formedSheaf ps j, List.mem_filter.2 ⟨List.mem_map_of_mem (List.mem_range.2 hj32), ?_⟩, hin⟩
    simpa using List.ne_nil_of_mem hin
  · obtain ⟨j, _, rfl⟩ := List.mem_map.1 (List.mem_of_mem_filter hm)
    refine ⟨lanes_formedSheaf ps j, fun p hp => ?_⟩
    obtain ⟨_, hh⟩ := mem_formedSheaf.1 hp
    exact mem_homesAt.1 (List.mem_of_getElem? hh)
  · refine List.Pairwise.filter _ (List.pairwise_map.2 ?_)
    exact List.nodup_range.imp fun hij => disjoint_formedSheaf hij

/-- CLAUSE_FETCH reads the clause its group stands at. -/
theorem clauseFetch_reads {n grp : Nat} {s s1 : State} {x : Iss} {h : Word} {ws : List Word}
    (hx : startIss ((reconvergeAt s n grp).enterEpisode n grp) n grp = some x) (he : x.grp.episode = none) (ha : x.grp.active = none)
    (hwait : x.grp.wait = .none) (hst : x.crew.st = .resident) (hcl : x.grp.clause x.crew = none)
    (hcode : codeClause ((reconvergeAt s n grp).enterEpisode n grp) x.crew.core x.grid x.cur.addr.toNat true = .ok (h, ws, s1)) :
    Sys2Proof.Claims.Gives (.clauseFetch n grp x.cur.addr) s fun t =>
      Sys2Proof.Claims.GroupNow t n grp (fun g => g.fetched = some (x.cur.addr, h :: ws) ∧ g.active = none) ∧
        Sys2Proof.Claims.CrewsStand (reconvergeAt s n grp) t ∧ SameMemory s1 t := by
  obtain ⟨hw, hg, _, hcrew, hgroup, _⟩ := startIss_inv hx
  have hstood := enterEpisode_plain hw hg he
  have hexec : execClauseFetch n grp x.cur.addr s = .next ((fetchClause ((reconvergeAt s n grp).enterEpisode n grp) x).exitEpisode n grp) := by
    simp [execClauseFetch, hx, ha, hwait, hst, hcl]
  generalize (reconvergeAt s n grp).enterEpisode n grp = u at hcode hw hstood hexec
  have hlook := codeClause_lookup hcode
  have hcrews : s1.crews = u.crews := (congrArg State.crews hlook :)
  rw [← hcrews] at hw
  obtain ⟨w, hw', g, hg', hfetched⟩ := groupNow_modGroup (s := s1) (f := fun g => { g with fetched := some (x.cur.addr, h :: ws) })
    (p := (· = { x.grp with fetched := some (x.cur.addr, h :: ws) })) hw hg rfl
  obtain ⟨hexit, v, hv, q, hq, rfl⟩ := exitEpisode_plain hw' hg' (by rw [hfetched]; exact he)
  have hmod := standing_modGroup s1 n grp fun g => { g with fetched := some (x.cur.addr, h :: ws) }
  have hlast := hmod.trans hexit
  have hthread : ∀ k p, s1.threadAt k p = u.threadAt k p := fun k p => by simp only [State.threadAt, hcrews]
  have hsheaf : ∀ k i, s1.sheafAt k i = u.sheafAt k i := fun k i => by simp only [State.sheafAt, hcrews]
  refine ⟨_, ?_, ⟨v, hv, q, hq, by rw [hfetched]; exact ⟨rfl, ha⟩⟩, ⟨fun k p => ?_, fun k i => ?_⟩, hlast.memory⟩
  · show execClauseFetch n grp x.cur.addr s = _
    simp only [hexec, fetchClause, he, Option.isNone_none, hcode, hcrew, hgroup]
  · exact (hlast.threadAt k p).trans ((hthread k p).trans (hstood.threadAt k p))
  · rw [hlast.sheafAt, hsheaf, hstood.sheafAt]

/-- CLAUSE_START starts the clause of the group that the selector chooses, where that group's threads stand. -/
theorem clauseStart_starts {n role : Nat} {s : State} {c : Crew} {q : Nat × Group × Nat} {x : Iss} {h : Word} {ws : List Word}
    (hc : Map.find? s.crews n = some c) (hst : c.st = .resident) (he : ∀ p ∈ c.groups, p.2.episode = none) (hbusy : roleBusy c role = false)
    (hq : choose c role = some q) (hx : startIss s n q.1 = some x) (hcl : x.grp.clause x.crew = some (h, ws))
    (hhead : regionHead h ws = false) (hh : headerCause h = none) (hp : c.posted = [])
    (ha : ∀ p ∈ c.groups, p.1 ≠ q.1 → standsAt c role x.cur.addr p.2 = false ∧ ∀ m ∈ x.present, m ∉ p.2.members) :
    Sys2Proof.Claims.Gives (.clauseStart n role) s fun t =>
      Sys2Proof.Claims.GroupNow t n q.1 (fun g => g.active = some
        { addr := x.cur.addr, hdr := h, words := ws, lanes := lanesIn x.present,
          index := ((x.present.head?).map fun p => (x.crew.thread p).index).getD 1 }) ∧
      (∀ k i, (t.sheafAt k i).files = (s.sheafAt k i).files) ∧
      (∀ k p, (t.threadAt k p).clause = (s.threadAt k p).clause ∧ (t.threadAt k p).index = (s.threadAt k p).index) ∧ SameMemory s t := by
  obtain ⟨hw, hg, _, hcrew, hgroup, _, hlive, _⟩ := startIss_inv hx
  obtain rfl : x.crew = c := by rw [hc] at hw; cases hw; rfl
  have hepisode : ¬q.2.1.episode.isSome = true := by simpa using he _ (mem_of_choose hq)
  have hgo : ¬(x.crew.st ≠ .resident ∨ roleBusy x.crew role = true) := by simp [hst, hbusy]
  obtain ⟨hu, hr⟩ := meeting_alone h fun p hp hn => (ha p hp hn).1
  have hgrids : (s.modCrew n fun c => c.meeting role x.cur.addr h).grids = s.grids := rfl
  have hothers : ∀ k, k ≠ n → Map.find? (s.modCrew n fun c => c.meeting role x.cur.addr h).crews k = Map.find? s.crews k :=
    fun k hk => Map.find?_mod_other _ _ _ _ hk
  have hnow : Map.find? (s.modCrew n fun c => c.meeting role x.cur.addr h).crews n = some (x.crew.meeting role x.cur.addr h) :=
    Map.find?_mod_self _ _ _ _ hc
  have hstart := startEntry_eq (role := role) (y := { x with crew := x.crew.meeting role x.cur.addr h }) hx hcl hhead
  have hmem : SameMemory s (s.modCrew n fun c => c.meeting role x.cur.addr h) := SameMemory.refl s
  generalize (s.modCrew n fun c => c.meeting role x.cur.addr h) = u at hgrids hothers hnow hstart hmem
  generalize x.crew.meeting role x.cur.addr h = w at hu hr hnow hstart
  have hgw : Map.find? w.groups q.1 = some x.grp := (hr.find q.1).trans hg
  have hjoined : joinedGroup u x = q.1 :=
    joinedGroup_alone (hcrew ▸ hnow) hr hgw hgroup (fun p hp => mem_members_of_live (hlive ▸ hp)) fun p hp hn => (ha p hp hn).2
  obtain ⟨hs, hg'⟩ := startClause_spec (s := u) (x := { x with crew := w }) (ws := ws) (hcrew ▸ hnow) (hgroup ▸ hgw) hh
    (he _ (Map.mem_of_find? hg)) (hu.posted.trans hp)
  have hthread : ∀ k p, (u.threadAt k p).place = (s.threadAt k p).place := fun k p => by
    by_cases hk : k = n
    · rw [hk, threadAt_of_find hnow, threadAt_of_find hc, hu.place]
    · simp only [State.threadAt, hothers k hk]
  refine ⟨startClause u { x with crew := w } h ws, ?_, ?_, fun k i => ?_, fun k p => ?_, hmem.trans hs.memory⟩
  · show execClauseStart n role s = _
    simp only [execClauseStart, endMet_plain hc he, hc, if_neg hgo, hq, if_neg hepisode]
    rw [hstart (by rw [hjoined]; exact startIss_of_unmoved hx hnow hu hgw hgrids)]
  · obtain ⟨v, hv, g, hgv, hact⟩ := hg'
    refine ⟨v, hcrew ▸ hv, g, hgroup ▸ hgv, ?_⟩
    simp only [hact, Iss.starting, hu.index]
  · rw [hs.sheafAt]
    by_cases hk : k = n
    · rw [hk, sheafAt_of_find hnow, sheafAt_of_find hc, hu.files]
    · simp only [State.sheafAt, hothers k hk]
  · rw [hs.threadAt]
    exact ⟨(congrArg (·.1) (hthread k p) :), (congrArg (·.2.1) (hthread k p) :)⟩

/-- Settles O26: it holds. -/
theorem clausesAreFetchedAndStarted : Obligations.ClausesAreFetchedAndStarted :=
  ⟨fun _ _ _ _ _ _ _ hx he ha hwait hst hcl hcode => clauseFetch_reads hx he ha hwait hst hcl hcode,
   fun _ _ _ _ _ _ _ _ hc hst he hbusy hq hx hcl hhead hh hp ha => clauseStart_starts hc hst he hbusy hq hx hcl hhead hh hp ha,
   fun ps _ hb => formSheaves_packs ps hb⟩

end Sys2Proof.Proofs
end

section
/-! SUPPORT. How crews leave their cores and come back: fast buffers, evictions, saves and resumption (02_execution.md R30, R50, R71;
14_scheduling.md R334, R335; 16_partitions.md R370; 19_platform.md R429). -/

namespace Sys2Proof.Machine

open Sys2Proof.Claims (CrewsStand CrewNow GroupNow Gives)

/-! ## Changes that leave threads and registers -/

/-- A change of a crew that leaves its threads and its registers. -/
def Crew.SameStand (c c' : Crew) : Prop :=
  ∀ i, (c'.sheaf i).threads = (c.sheaf i).threads ∧ (c'.sheaf i).files = (c.sheaf i).files

theorem Crew.SameStand.refl (c : Crew) : c.SameStand c := fun _ => ⟨rfl, rfl⟩

theorem Crew.SameStand.trans {a b c : Crew} (h : a.SameStand b) (k : b.SameStand c) : a.SameStand c := fun i =>
  ⟨(k i).1.trans (h i).1, (k i).2.trans (h i).2⟩

theorem Crew.sameStand_of_sheaves {c c' : Crew} (h : c'.sheaves = c.sheaves) : c.SameStand c' := fun i => by
  simp only [Crew.sheaf, h, and_self]

theorem Crew.SameStand.thread {c c' : Crew} (h : c.SameStand c') (p : Nat × Nat) : c'.thread p = c.thread p := by
  simp only [Crew.thread, (h p.2).1]

theorem sameStand_decFlag (c : Crew) (homes : List Nat) (f : Option Nat) : c.SameStand (freeSheaves (decFlag c homes f)) := by
  have hd : c.SameStand (decFlag c homes f) := by
    unfold decFlag
    split
    · exact Crew.SameStand.refl c
    · refine List.foldlRecOn (motive := fun d => c.SameStand d) _ _ (Crew.SameStand.refl c) fun d hd h _ => hd.trans fun i => ?_
      exact ⟨Crew.sheaf_modSheaf_prop d h i _ Sheaf.threads fun _ => rfl, Crew.sheaf_modSheaf_prop d h i _ Sheaf.files fun _ => rfl⟩
  refine hd.trans fun i => ?_
  simp only [Crew.sheaf, freeSheaves, List.getElem?_map]
  cases (decFlag c homes f).sheaves[i]? with
  | none => exact ⟨rfl, rfl⟩
  | some z =>
    simp only [Option.map_some, Option.getD_some]
    split <;> exact ⟨rfl, rfl⟩

theorem crewsStand_refl (s : State) : CrewsStand s s := ⟨fun _ _ => rfl, fun _ _ => rfl⟩

theorem crewsStand_trans {s t u : State} (h : CrewsStand s t) (k : CrewsStand t u) : CrewsStand s u :=
  ⟨fun n p => (k.1 n p).trans (h.1 n p), fun n i => (k.2 n i).trans (h.2 n i)⟩

theorem crewsStand_of_crews {s t : State} (h : t.crews = s.crews) : CrewsStand s t :=
  ⟨fun _ _ => by simp only [State.threadAt, h], fun _ _ => by simp only [State.sheafAt, h]⟩

/-- A change of every crew that leaves threads and registers. -/
theorem crewsStand_of_find {s t : State} {f : Nat → Crew → Crew} (h : ∀ n, Map.find? t.crews n = (Map.find? s.crews n).map (f n))
    (hf : ∀ n c, Map.find? s.crews n = some c → c.SameStand (f n c)) : CrewsStand s t := by
  refine ⟨fun n p => ?_, fun n i => ?_⟩
  · simp only [State.threadAt, h n]
    cases hc : Map.find? s.crews n with
    | none => rfl
    | some c => exact (hf n c hc).thread p
  · simp only [State.sheafAt, h n]
    cases hc : Map.find? s.crews n with
    | none => rfl
    | some c => exact (hf n c hc i).2

theorem crewsStand_modCrew {s : State} {n : Nat} {f : Crew → Crew} (hf : ∀ c : Crew, c.SameStand (f c)) : CrewsStand s (s.modCrew n f) :=
  crewsStand_of_find (f := fun k c => if k = n then f c else c)
    (fun k => by
      simp only [State.modCrew, Map.find?_mod]
      split <;> simp)
    fun k c _ => by
      split
      · exact hf c
      · exact Crew.SameStand.refl c

/-- A value under a key of a map whose entries each change by their key. -/
theorem Map.find?_map_keyed {α β : Type} (f : Nat → α → β) (m : Map α) (k : Nat) :
    Map.find? (m.map fun p => (p.1, f p.1 p.2)) k = (Map.find? m k).map (f k) := by
  induction m with
  | nil => rfl
  | cons p rest ih =>
    simp only [List.map_cons, Map.find?]
    split
    · rename_i e
      rw [← e]
      rfl
    · split
      · rfl
      · exact ih

/-- A value under a key of a map whose entries change but for their keys. -/
theorem Map.find?_map_of_key {α β : Type} {f : Nat × α → Nat × β} (hf : ∀ p, (f p).1 = p.1) (m : Map α) (k : Nat) :
    Map.find? (m.map f) k = (Map.find? m k).map fun a => (f (k, a)).2 := by
  have hkeyed : f = fun p => (p.1, (fun k a => (f (k, a)).2) p.1 p.2) := funext fun p => Prod.ext (hf p) rfl
  rw [hkeyed]
  exact Map.find?_map_keyed (fun k a => (f (k, a)).2) m k

/-! ## Fast buffers (R30, R71, R429) -/

/-- A group of a crew, given a buffer of its quad where it is of the family. -/
def Group.given (quad fam grp k : Nat) (g : Group) : Group :=
  if g.family = fam then { g with quad := some quad, wait := if k = grp then .none else g.wait } else g

theorem giveBuffer_spec (s : State) (core quad i : Nat) (q : Nat × Nat × Crew × Group) :
    Standing s (giveBuffer s core quad i q) ∧ Map.find? ((giveBuffer s core quad i q).core core).buffers i = some (q.1, q.2.2.2.family) ∧
      (Map.find? s.crews q.1 = some q.2.2.1 → Map.find? q.2.2.1.groups q.2.1 = some q.2.2.2 →
        GroupNow (giveBuffer s core quad i q) q.1 q.2.1 fun g => g.wait = .none ∧ g.quad = some quad) := by
  have hf : (fun p : Nat × Group => if p.2.family = q.2.2.2.family then
      (p.1, { p.2 with quad := some quad, wait := if p.1 = q.2.1 then .none else p.2.wait }) else p) =
      fun p => (p.1, p.2.given quad q.2.2.2.family q.2.1 p.1) := funext fun p => by
    unfold Group.given
    split <;> rfl
  simp only [giveBuffer, hf]
  generalize hu : (s.modCore core fun k => { k with buffers := Map.put k.buffers i (q.1, q.2.2.2.family) }) = u
  have hcrews : u.crews = s.crews := by rw [← hu]; rfl
  have hbuf : Map.find? (u.core core).buffers i = some (q.1, q.2.2.2.family) := by
    rw [← hu]
    simp only [State.modCore, State.core, Map.get, Map.find?_put_self, Option.getD_some]
  have hst : Standing s u := by rw [← hu]; exact ⟨fun _ => rfl, SameMemory.refl s⟩
  refine ⟨hst.trans (regrouped_modCrew (f := fun c => { c with groups := c.groups.map fun p => (p.1, p.2.given quad q.2.2.2.family q.2.1 p.1) })
    fun _ _ => rfl).standing, hbuf, fun hc hg =>
    ⟨_, Map.find?_mod_self _ _ _ _ (hcrews ▸ hc), q.2.2.2.given quad q.2.2.2.family q.2.1 q.2.1, ?_, ?_⟩⟩
  · exact (Map.find?_map_keyed (fun k g => Group.given quad q.2.2.2.family q.2.1 k g) _ _).trans (by rw [hg]; rfl)
  · simp [Group.given]

theorem fastBufferAssign_gives {core quad i : Nat} {s : State} {q : Nat × Nat × Crew × Group} (hq : quad < 4)
    (hi : freeBufferOf (s.core core) quad = some i) (hl : leastBy (groupRank s) (bufferWaiters s core quad) = some q)
    (hc : Map.find? s.crews q.1 = some q.2.2.1) (hg : Map.find? q.2.2.1.groups q.2.1 = some q.2.2.2) :
    Gives (.fastBufferAssign core quad) s fun t => Map.find? (t.core core).buffers i = some (q.1, q.2.2.2.family) ∧
      GroupNow t q.1 q.2.1 (fun g => g.wait = .none ∧ g.quad = some quad) ∧ CrewsStand s t ∧ SameMemory s t := by
  obtain ⟨hs, hb, hnow⟩ := giveBuffer_spec s core quad i q
  refine ⟨giveBuffer s core quad i q, ?_, hb, hnow hc hg, hs.stand, hs.memory⟩
  show execFastBufferAssign core quad s = _
  have hlt : ¬4 ≤ quad := by omega
  simp only [execFastBufferAssign, if_neg hlt, hi, hl]

theorem fastBufferRecall_gives {core quad i : Nat} {s s1 : State} {q v : Nat × Nat × Crew × Group}
    (hnone : freeBufferOf (s.core core) quad = none)
    (hl : leastBy (groupRank s) ((bufferWaiters s core quad).filter fun q => !crewIsH s q.2.2.1) = some q)
    (hm : mostBy (groupRank s) (recallable s core quad) = some v)
    (hr : rollback s v.1 ((v.2.2.1.groups.filter fun g => g.2.family == v.2.2.2.family).map Prod.fst) = .ok s1)
    (hi : freeBufferOf (s1.core core) quad = some i) :
    Gives (.fastBufferRecall core quad) s fun t => Map.find? (t.core core).buffers i = some (q.1, q.2.2.2.family) ∧ CrewsStand s1 t ∧
      SameMemory s1 t := by
  obtain ⟨hs, hb, _⟩ := giveBuffer_spec s1 core quad i q
  refine ⟨giveBuffer s1 core quad i q, ?_, hb, hs.stand, hs.memory⟩
  show execFastBufferRecall core quad s = _
  simp only [execFastBufferRecall, hnone, hl, hm, hr, hi]

/-! ## What a crew's leaving of its core leaves -/

/-- What the stopping of a crew and the writing of its record leave of a state: no thread has moved, no register of a crew has changed,
and every crew stands in it with its record's place. -/
structure Kept (s t : State) : Prop where
  stand : CrewsStand s t
  place : ∀ n, (Map.find? t.crews n).map Crew.saveAt = (Map.find? s.crews n).map Crew.saveAt

theorem Kept.refl (s : State) : Kept s s := ⟨crewsStand_refl s, fun _ => rfl⟩

theorem Kept.trans {s t u : State} (h : Kept s t) (k : Kept t u) : Kept s u :=
  ⟨crewsStand_trans h.stand k.stand, fun n => (k.place n).trans (h.place n)⟩

theorem kept_of_crews {s t : State} (h : t.crews = s.crews) : Kept s t := ⟨crewsStand_of_crews h, fun _ => by rw [h]⟩

theorem Kept.find {s t : State} (h : Kept s t) {n : Nat} {w : Crew} (hw : Map.find? s.crews n = some w) :
    ∃ w', Map.find? t.crews n = some w' ∧ w'.saveAt = w.saveAt := by
  have hp := h.place n
  rw [hw, Option.map_some, Option.map_eq_some_iff] at hp
  exact hp

theorem kept_of_find {s t : State} {f : Nat → Crew → Crew} (h : ∀ n, Map.find? t.crews n = (Map.find? s.crews n).map (f n))
    (hf : ∀ n c, Map.find? s.crews n = some c → c.SameStand (f n c) ∧ (f n c).saveAt = c.saveAt) : Kept s t := by
  refine ⟨crewsStand_of_find h fun n c hc => (hf n c hc).1, fun n => ?_⟩
  rw [h n]
  cases hc : Map.find? s.crews n with
  | none => rfl
  | some c => exact congrArg some (hf n c hc).2

theorem kept_modCrew {s : State} {n : Nat} {f : Crew → Crew} (hf : ∀ c, c.SameStand (f c) ∧ (f c).saveAt = c.saveAt) :
    Kept s (s.modCrew n f) :=
  kept_of_find (f := fun k c => if k = n then f c else c)
    (fun k => by
      simp only [State.modCrew, Map.find?_mod]
      split <;> simp)
    fun k c _ => by
      split
      · exact hf c
      · exact ⟨Crew.SameStand.refl c, rfl⟩

/-- A machine but for its crews, cores, operations and counters. -/
def State.sansWork (s : State) : State := { s with crews := [], cores := [], ops := [], banks := [] }

theorem memory_of_sansWork {s t : State} (h : t.sansWork = s.sansWork) : SameMemory s t :=
  ⟨(congrArg State.hbm h :), (congrArg State.host h :), (congrArg State.store h :)⟩

theorem kept_dropCrewBuffers (s : State) (n : Nat) :
    Kept s (dropCrewBuffers s n) ∧ (dropCrewBuffers s n).sansWork = s.sansWork := by
  unfold dropCrewBuffers
  split
  · exact ⟨Kept.refl s, rfl⟩
  · refine ⟨Kept.trans ?_ (kept_modCrew fun c => ⟨Crew.sameStand_of_sheaves rfl, rfl⟩), rfl⟩
    exact kept_of_crews rfl

theorem saveAt_decFlag (c : Crew) (homes : List Nat) (f : Option Nat) : (freeSheaves (decFlag c homes f)).saveAt = c.saveAt := by
  unfold decFlag
  split
  · rfl
  · exact foldl_keeps (f := fun (c : Crew) h => c.modSheaf h _) Crew.saveAt (fun _ _ => rfl) homes c

theorem kept_decFlag (s : State) (n : Nat) (homes : List Nat) (f : Option Nat) : Kept s (s.decFlag n homes f) :=
  kept_modCrew fun c => ⟨sameStand_decFlag c homes f, saveAt_decFlag c homes f⟩

theorem kept_saveCopies (s : State) (n : Nat) : Kept s (saveCopies s n) ∧ (saveCopies s n).sansWork = s.sansWork := by
  unfold saveCopies
  refine List.foldlRecOn (motive := fun t => Kept s t ∧ t.sansWork = s.sansWork) _ _ ⟨Kept.refl s, rfl⟩ fun t ht o _ => ?_
  split
  · refine ⟨ht.1.trans (Kept.trans ?_ (kept_decFlag _ n o.2.homes o.2.flag)), ht.2⟩
    exact kept_of_crews rfl
  · exact ht

theorem putPieces_crews (s : State) (vf : Nat) (ps : List (Nat × Nat)) (bs : List Byte) : (putPieces s vf ps bs).crews = s.crews := by
  have hputs : ∀ (bs : List Byte) (s : State) (pa : Nat), (memPuts s vf pa bs).crews = s.crews := fun bs => by
    induction bs with
    | nil => exact fun _ _ => rfl
    | cons b rest ih => exact fun s pa => (ih _ _).trans (congrArg State.crews (memPut_lookup s vf pa b) :)
  induction ps generalizing s bs with
  | nil => rfl
  | cons p rest ih => exact (ih _ _).trans (hputs _ _ _)

theorem kept_writeImage (s : State) (n : Nat) : Kept s (writeImage s n) := by
  unfold writeImage
  split
  · exact Kept.refl s
  · split
    · exact Kept.refl s
    · split
      · exact (kept_of_crews (putPieces_crews _ _ _ _)).trans (kept_modCrew fun c => ⟨Crew.sameStand_of_sheaves rfl, rfl⟩)
      · exact Kept.refl s

/-- A change of every crew under its number that leaves its threads, its registers and its record's place. -/
theorem kept_mapCrews {s : State} {f : Nat × Crew → Nat × Crew}
    (hf : ∀ p, (f p).1 = p.1 ∧ p.2.SameStand (f p).2 ∧ (f p).2.saveAt = p.2.saveAt) : Kept s { s with crews := s.crews.map f } :=
  kept_of_find (fun k => Map.find?_map_of_key (fun p => (hf p).1) s.crews k) fun k c _ => (hf (k, c)).2

theorem kept_vacate (s : State) (n : Nat) : Kept s (vacate s n) := by
  unfold vacate
  split
  · exact Kept.refl s
  · refine kept_mapCrews fun p => ?_
    split
    · exact ⟨rfl, Crew.sameStand_of_sheaves rfl, rfl⟩
    · exact ⟨rfl, Crew.SameStand.refl p.2, rfl⟩

/-! ## Eviction, spills and saves -/

theorem gridOf_inv {s : State} {n : Nat} {w : Crew} {g : Grid} (h : s.gridOf n = some (w, g)) :
    Map.find? s.crews n = some w ∧ Map.find? s.grids w.grid = some g := by
  simp only [State.gridOf, Option.bind_eq_some_iff, Option.map_eq_some_iff, Prod.mk.injEq] at h
  obtain ⟨w', hw, g', hg, rfl, rfl⟩ := h
  exact ⟨hw, hg⟩

theorem hSheafEviction_gives {n : Nat} {s s1 : State} {w w1 : Crew} {g g1 : Grid} {r : Nat × Nat} (hgrid : s.gridOf n = some (w, g))
    (hv : dispatchVictim s = some n ∨ n ∈ cmdVictims s) (hh : bitOf g.desc.flags 0 = true)
    (hst : w.st = .resident ∨ w.st = .stopping ∨ w.st = .stopped) (hr : rollback s n (Map.keys w.groups) = .ok s1)
    (hgrid1 : (saveCopies (dropCrewBuffers s1 n) n).gridOf n = some (w1, g1))
    (hroom : saveRoom (saveCopies (dropCrewBuffers s1 n) n) n w1 g1 = some r) :
    Gives (.hSheafEviction n) s fun t => CrewNow t n (fun c => c.st = .spilling ∧ c.requeued = true ∧ c.saveAt = some r) ∧
      (∃ e, t.hfq.waiting = s1.hfq.waiting ++ [[e]] ∧ e.cause = 0x183 ∧ e.vf = g1.vf) ∧ CrewsStand s1 t ∧ SameMemory s1 t := by
  obtain ⟨hk1, hs1⟩ := kept_dropCrewBuffers s1 n
  obtain ⟨hk2, hs2⟩ := kept_saveCopies (dropCrewBuffers s1 n) n
  have hk := hk1.trans hk2
  have hs := hs2.trans hs1
  have hgo : ¬(!(bitOf g.desc.flags 0 && (w.st == .resident || w.st == .stopping || w.st == .stopped))) = true := by
    rcases hst with h | h | h <;> simp [hh, h]
  have hexec : exec (.hSheafEviction n) s = .next (evictCrew s n) := by
    show execHSheafEviction n s = _
    have hc : (dispatchVictim s == some n || (cmdVictims s).contains n) = true := by simpa using hv
    simp only [execHSheafEviction, if_pos hc]
  simp only [evictCrew, hgrid, if_neg hgo, hr, hgrid1, hroom] at hexec
  generalize saveCopies (dropCrewBuffers s1 n) n = u at hk hs hgrid1 hexec
  obtain ⟨hw1, _⟩ := gridOf_inv hgrid1
  refine ⟨_, hexec, ⟨_, Map.find?_mod_self _ _ _ _ hw1, rfl, rfl, rfl⟩, ⟨{ crewNote u n with kind := 3, cause := causeCode .evicted, vf := g1.vf }, ?_, rfl, rfl⟩, ?_, ?_⟩
  · show u.hfq.waiting ++ _ = _
    rw [show u.hfq = s1.hfq from (congrArg State.hfq hs :)]
  · exact crewsStand_trans hk.stand (crewsStand_trans (t := countCore (u.notice g1.vf .evicted (crewNote u n)) w1.core g1 0x000A)
      (crewsStand_of_crews rfl) (crewsStand_modCrew fun c => Crew.sameStand_of_sheaves rfl))
  · exact memory_of_sansWork (t := u) hs

theorem medlarSpillDone_gives {n : Nat} {s : State} {w : Crew} (hw : Map.find? s.crews n = some w) (hst : w.st = .spilling)
    (he : engineDue s n = false) (hb : badImage s n = false) :
    Gives (.medlarSpillDone n) s fun t => CrewNow t n (fun c => c.st = .evicted ∧ c.landed = false) ∧ CrewsStand s t := by
  have hk : Kept s (vacate (writeImage { s with free := s.free + 1 } n) n) :=
    Kept.trans (t := { s with free := s.free + 1 }) (kept_of_crews rfl) ((kept_writeImage _ n).trans (kept_vacate _ n))
  obtain ⟨w', hw', _⟩ := hk.find hw
  refine ⟨(vacate (writeImage { s with free := s.free + 1 } n) n).modCrew n fun c => { c with st := .evicted, landed := false }, ?_,
    ⟨_, Map.find?_mod_self _ _ _ _ hw', rfl, rfl⟩, crewsStand_trans hk.stand (crewsStand_modCrew fun c => Crew.sameStand_of_sheaves rfl)⟩
  show execMedlarSpillDone n s = _
  simp [execMedlarSpillDone, hw, hst, he, hb, State.modCrew]

theorem preemptionSaveDone_gives {n : Nat} {s : State} {w w1 : Crew} {g1 : Grid} {r : Nat × Nat} (hw : Map.find? s.crews n = some w)
    (hst : w.st = .draining) (hstill : crewStill (settleCrew s n) n = true) (hgrid : (settleCrew s n).gridOf n = some (w1, g1))
    (hb : badImage (settleCrew s n) n = false) (hroom : saveRoom (settleCrew s n) n w1 g1 = some r) :
    Gives (.preemptionSaveDone n) s fun t =>
      CrewNow t n (fun c => c.st = .saved ∧ c.requeued = true ∧ c.saveAt = some r ∧ c.landed = false) ∧ CrewsStand (settleCrew s n) t := by
  have hexec : exec (.preemptionSaveDone n) s = .next (saveCrew (settleCrew s n) n) := by
    show execPreemptionSaveDone n s = _
    simp [execPreemptionSaveDone, hw, hst, hstill]
  have hbad : ¬badImage (settleCrew s n) n = true := by simp [hb]
  simp only [saveCrew, hgrid, if_neg hbad, hroom] at hexec
  generalize settleCrew s n = u at hgrid hexec
  obtain ⟨hw1, _⟩ := gridOf_inv hgrid
  generalize hv : ({ u with free := u.free + 1 } : State).modCrew n (fun c => { c with saveAt := some r }) = v at hexec
  have hwv : Map.find? v.crews n = some { w1 with saveAt := some r } := by rw [← hv]; exact Map.find?_mod_self _ _ _ _ hw1
  have huv : CrewsStand u v := by
    rw [← hv]
    exact crewsStand_trans (t := { u with free := u.free + 1 }) (crewsStand_of_crews rfl) (crewsStand_modCrew fun c => Crew.sameStand_of_sheaves rfl)
  have hk : Kept v (vacate (dropCrewBuffers (writeImage v n) n) n) :=
    (kept_writeImage v n).trans ((kept_dropCrewBuffers _ n).1.trans (kept_vacate _ n))
  obtain ⟨w', hw', hat⟩ := hk.find hwv
  exact ⟨_, hexec, ⟨_, Map.find?_mod_self _ _ _ _ hw', rfl, rfl, hat, rfl⟩,
    crewsStand_trans huv (crewsStand_trans hk.stand (crewsStand_modCrew fun c => Crew.sameStand_of_sheaves rfl))⟩

/-! ## Resumption -/

theorem placeCrew_spec (s : State) (n : Nat) (w : Crew) (core : Nat) (fresh : Bool) :
    (placeCrew s n w core fresh).sheaves = w.sheaves ∧ (placeCrew s n w core fresh).core = core ∧
      (placeCrew s n w core fresh).st = .resident ∧ (placeCrew s n w core fresh).requeued = false := by
  refine ⟨?_, rfl, rfl, rfl⟩
  show (adoptShared s n w (clusterOf core) fresh).sheaves = w.sheaves
  unfold adoptShared
  refine foldl_keeps Crew.sheaves (fun c id => ?_) _ w
  split
  · rfl
  · split <;> rfl

theorem readBack_sansWork (s : State) (n : Nat) (w : Crew) (g : Grid) : (readBack s n w g).1.sansWork = s.sansWork := by
  unfold readBack
  split <;> rfl

/-- The crews that follow a shared ring's are others. -/
theorem followShared_spec {s : State} {n : Nat} {w : Crew} (hw : Map.find? s.crews n = some w) (old : Nat) :
    Map.find? (followShared s n old).crews n = some w ∧ (followShared s n old).sansWork = s.sansWork := by
  simp only [followShared, hw]
  refine ⟨(Map.find?_map_of_key (fun p => ?_) s.crews n).trans ?_, rfl⟩
  · split <;> rfl
  · simp [hw]

/-- A crew restored on a core stands there as its record gives it, at rest. -/
theorem resumeOn_spec {s s1 : State} {n : Nat} {w : Crew} {g : Grid} {core : Nat} (hm : (moveOrder s w.core core).2 = true)
    (hb : badRecord (moveOrder s w.core core).1 w g = false) (hx : rebuildExtents (moveOrder s w.core core).1 w.grid g = some s1) :
    ∃ c, Map.find? (resumeOn s n w g core).crews n = some c ∧ (resumeOn s n w g core).sansWork = s1.sansWork ∧ c.st = .resident ∧
      c.core = core ∧ c.saveAt = none ∧ c.requeued = false ∧ c.sheaves = (readBack s1 n w g).2.sheaves ∧
      ∀ p ∈ c.groups, p.2.halted = false ∧ p.2.active = none ∧ p.2.fetched = none := by
  have hgo : ¬(!(moveOrder s w.core core).2) = true := by simp [hm]
  have hok : ¬badRecord (moveOrder s w.core core).1 w g = true := by simp [hb]
  simp only [resumeOn, if_neg hgo, if_neg hok, hx]
  obtain ⟨hsheaves, hcore, hst, hre⟩ := placeCrew_spec (readBack s1 n w g).1 n (readBack s1 n w g).2 core false
  have hs := readBack_sansWork s1 n w g
  generalize placeCrew (readBack s1 n w g).1 n (readBack s1 n w g).2 core false = v at hsheaves hcore hst hre
  generalize (readBack s1 n w g).1 = u at hs
  generalize hc : ({ v with saveAt := none, savedW := [], landed := false, groups := v.groups.map fun p => (p.1, p.2.resumed) } : Crew) = c
  obtain ⟨hf, hfs⟩ := followShared_spec (s := { u with crews := Map.put u.crews n c }) (Map.find?_put_self _ _ _) (clusterOf w.core)
  refine ⟨c, hf, hfs.trans hs, ?_, ?_, ?_, ?_, ?_, fun p hp => ?_⟩
  · rw [← hc]; exact hst
  · rw [← hc]; exact hcore
  · rw [← hc]
  · rw [← hc]; exact hre
  · rw [← hc]; exact hsheaves
  · rw [← hc] at hp
    obtain ⟨q, _, rfl⟩ := List.mem_map.1 hp
    exact ⟨rfl, rfl, rfl⟩

theorem crewResume_gives {n core : Nat} {s s0 s1 : State} {c : Cand} {d : Map Nat} (h0 : s0 = { s with free := s.free + 1 })
    (hd : dispatchChoice s0 = some (c, d)) (hn : resumesNext s0 n core c = true) (hm : (moveOrder s0 c.crew.core core).2 = true)
    (hb : badRecord (moveOrder s0 c.crew.core core).1 c.crew c.grid = false)
    (hx : rebuildExtents (moveOrder s0 c.crew.core core).1 c.crew.grid c.grid = some s1) :
    Gives (.crewResume n core) s fun t =>
      CrewNow t n (fun w => w.st = .resident ∧ w.core = core ∧ w.saveAt = none ∧ w.requeued = false ∧
        ∀ p ∈ w.groups, p.2.halted = false ∧ p.2.active = none ∧ p.2.fetched = none) ∧
      (∀ p, t.threadAt n p = (readBack s1 n c.crew c.grid).2.thread p) ∧
      (∀ h, (t.sheafAt n h).files = ((readBack s1 n c.crew c.grid).2.sheaf h).files) ∧ Sys2Proof.Claims.SameButTrace 1 s1 t := by
  have hexec : exec (.crewResume n core) s = .next (putCrew s0 c d core) := by
    show execCrewResume n core s = _
    simp only [execCrewResume, ← h0, hd, hn, if_true]
  have hcn : c.n = n ∧ c.fresh = false := by
    simp only [resumesNext, Bool.and_eq_true, beq_iff_eq, Bool.not_eq_true'] at hn
    exact ⟨hn.1.1.1, hn.1.1.2⟩
  obtain ⟨rfl, hfresh⟩ := hcn
  obtain ⟨w, hw, hs, hst, hcore, hat, hre, hsheaves, hgroups⟩ := resumeOn_spec (n := c.n) hm hb hx
  have hnotfresh : ¬c.fresh = true := by simp [hfresh]
  simp only [putCrew, if_neg hnotfresh] at hexec
  generalize resumeOn s0 c.n c.crew c.grid core = u at hw hs hexec
  have hwu : Map.find? (u.modCrew c.n fun w => if w.st = .resident then { w with order := s0.seq } else w).crews c.n =
      some { w with order := s0.seq } := by
    rw [State.modCrew, Map.find?_mod_self _ _ _ _ hw, if_pos hst]
  have hres : ¬({ w with order := s0.seq } : Crew).st ≠ .resident := by simp [hst]
  have hmod : (u.modCrew c.n fun w => if w.st = .resident then { w with order := s0.seq } else w).sansWork = s1.sansWork := hs
  generalize (u.modCrew c.n fun w => if w.st = .resident then { w with order := s0.seq } else w) = v at hwu hmod hexec
  rw [hwu] at hexec
  simp only [if_neg hres] at hexec
  generalize hz : ({ State.modQueue _ _ _ _ with booked := _ } : State) = z at hexec
  have hzc : z.crews = v.crews := by rw [← hz]; rfl
  have hzm : SameMemory v z := by rw [← hz]; exact ⟨rfl, rfl, rfl⟩
  have hzt : z.traces = s1.traces := by rw [← hz]; exact (congrArg State.traces hmod :)
  have hm1 := (memory_of_sansWork hmod).trans hzm
  have ho := observed_traceCore z c.grid.vf core (TRec.ofCrew 1 c.gid c.grid { w with order := s0.seq }) (fun _ => true)
  have hnow : Map.find? (traceCore z c.grid.vf core (TRec.ofCrew 1 c.gid c.grid { w with order := s0.seq })).crews c.n =
      some { w with order := s0.seq } :=
    (congrArg (fun q : State => Map.find? q.crews c.n) ho :).trans (hzc ▸ hwu)
  refine ⟨_, hexec, ⟨_, hnow, hst, hcore, hat, hre, hgroups⟩, fun p => ?_, fun h => ?_, ?_, ?_, fun hu => ?_⟩
  · rw [threadAt_of_find hnow]
    simp only [Crew.thread, Crew.sheaf, hsheaves]
  · rw [sheafAt_of_find hnow]
    simp only [Crew.sheaf, hsheaves]
  · exact (congrArg State.hbm ho :).trans hm1.1
  · exact (congrArg State.store ho :).trans hm1.2.2
  · rw [traceCore_unwanted (by rw [hzt]; exact hu)]
    exact hm1.2.1

end Sys2Proof.Machine
namespace Sys2Proof.Proofs

open Sys2Proof.Machine

/-- Settles O28: it holds. -/
theorem crewsLeaveAndReturn : Obligations.CrewsLeaveAndReturn :=
  ⟨fun _ _ _ _ _ hq hi hl hc hg => fastBufferAssign_gives hq hi hl hc hg,
   fun _ _ _ _ _ _ _ hnone hl hm hr hi => fastBufferRecall_gives hnone hl hm hr hi,
   fun _ _ _ _ _ _ _ _ hgrid hv hh hst hr hgrid1 hroom => hSheafEviction_gives hgrid hv hh hst hr hgrid1 hroom,
   fun _ _ _ hw hst he hb => medlarSpillDone_gives hw hst he hb,
   fun _ _ _ _ _ _ hw hst hstill hgrid hb hroom => preemptionSaveDone_gives hw hst hstill hgrid hb hroom,
   fun _ _ _ _ _ _ hd hn _ hm hb hx => crewResume_gives rfl hd hn hm hb hx⟩

end Sys2Proof.Proofs
end

section
/-! SUPPORT. The end of what is in flight: its flag counts down, and the episodes whose wait is over end (02_execution.md R37, R47, R55). -/

namespace Sys2Proof.Machine

open Sys2Proof.Claims (CrewsStand CrewNow GroupNow Gives Running Over CountedDown)

/-! ## The end of episodes -/

/-- The end of a crew's episodes whose wait is over, where none of its groups issues in one. -/
theorem calm_endMet {s : State} {n : Nat} (hr : s.resting n) : Calm s (endMet s n) := by
  unfold endMet
  split
  · refine (List.foldlRecOn (motive := fun t => Calm s t ∧ t.resting n) _ _ ⟨Calm.refl s, hr⟩ fun t ht g _ => ?_).1
    obtain ⟨hc, hrest, _⟩ := leaveEpisode_spec (s := t) (n := n) (grp := g) (ht.2 g)
    exact ⟨ht.1.trans hc, hrest ht.2⟩
  · exact Calm.refl s

theorem resting_of_groups {s : State} {n : Nat} {c : Crew} (hc : Map.find? s.crews n = some c)
    (h : ∀ p ∈ c.groups, ∀ e, p.2.episode = some e → e.inUse = false) : s.resting n := by
  intro grp e he
  obtain ⟨w, g, hw, hg, hge⟩ := episode_eq_some he
  obtain rfl : c = w := by rw [hc] at hw; cases hw; rfl
  exact h _ (Map.mem_of_find? hg) e hge

theorem resting_of_groupAt {s t : State} {n : Nat} (hr : s.resting n) (h : ∀ grp, (t.groupAt n grp).map Group.episode = (s.groupAt n grp).map Group.episode) :
    t.resting n := by
  intro grp e he
  refine hr grp e ?_
  have hg := h grp
  rw [episode_eq_groupAt] at he ⊢
  cases ht : t.groupAt n grp <;> cases hs : s.groupAt n grp <;> simp_all

/-! ## The count down of a flag -/

/-- A home sheaf's flags as one count down of a flag leaves them. -/
theorem flag_decFlag (c : Crew) {homes : List Nat} (hn : homes.Nodup) (f : Option Nat) (h k : Nat) :
    ((freeSheaves (decFlag c homes f)).sheaf h).flag k = (c.sheaf h).flag k - if f = some k ∧ h ∈ homes then 1 else 0 := by
  have hfree : ((freeSheaves (decFlag c homes f)).sheaf h).flag k = ((decFlag c homes f).sheaf h).flag k := by
    simp only [Crew.sheaf, freeSheaves, List.getElem?_map]
    cases (decFlag c homes f).sheaves[h]? with
    | none => rfl
    | some z =>
      simp only [Option.map_some, Option.getD_some]
      split <;> rfl
  rw [hfree]
  clear hfree
  cases f with
  | none => simp [decFlag]
  | some f =>
    simp only [decFlag, Option.some.injEq]
    induction homes generalizing c with
    | nil => simp
    | cons i rest ih =>
      obtain ⟨hi, hrest⟩ := List.nodup_cons.1 hn
      rw [List.foldl_cons, ih _ hrest]
      by_cases hil : i < c.sheaves.length
      · rw [Crew.sheaf_modSheaf c i h _ hil]
        by_cases hh : h = i
        · subst hh
          by_cases hf : f = k
          · simp [hf, hi, Sheaf.flag]
          · simp [hf, Sheaf.flag, Map.get_put, Ne.symm hf]
        · simp [hh]
      · have hsame : c.modSheaf i (fun z => { z with flags := Map.put z.flags f (z.flag f - 1) }) = c := by
          simp only [Crew.modSheaf, List.modify_eq_self (Nat.le_of_not_lt hil)]
        have hzero : ∀ k, i = h → (c.sheaf h).flag k = 0 := fun k e => by
          rw [← e, Crew.sheaf, List.getElem?_eq_none (Nat.le_of_not_lt hil)]
          rfl
        rw [hsame]
        by_cases hh : h = i
        · simp [hzero k hh.symm]
        · simp [hh]

/-! ## What a count down leaves -/

/-- A crew but for its home sheaves and issue groups. -/
def Crew.frame (c : Crew) : Crew := { c with sheaves := [], groups := [] }

/-- A flag of a crew's home sheaves has counted down, and of the machine only that has changed, and waits and episodes of groups that
were over. -/
structure CameDown (s t : State) (n : Nat) (homes : List Nat) (f : Option Nat) : Prop where
  counted : CountedDown s t n homes f
  stand : CrewsStand s t
  frame : ∀ k, (Map.find? t.crews k).map Crew.frame = (Map.find? s.crews k).map Crew.frame
  groups : ∀ k grp, (t.groupAt k grp).map Group.still = (s.groupAt k grp).map Group.still
  cores : ∀ k, { t.core k with shadows := [] } = { s.core k with shadows := [] }
  ops : t.ops = s.ops
  memory : SameMemory s t

theorem frame_decFlag (c : Crew) (homes : List Nat) (f : Option Nat) :
    (freeSheaves (decFlag c homes f)).frame = c.frame ∧ (freeSheaves (decFlag c homes f)).groups = c.groups := by
  have hd : (decFlag c homes f).frame = c.frame ∧ (decFlag c homes f).groups = c.groups := by
    unfold decFlag
    split
    · exact ⟨rfl, rfl⟩
    · exact List.foldlRecOn (motive := fun d => Crew.frame d = c.frame ∧ d.groups = c.groups) _ _ ⟨rfl, rfl⟩ fun d hd h _ => hd
  exact hd

theorem cameDown_endMet {s : State} {n : Nat} {homes : List Nat} {f : Option Nat} (hn : homes.Nodup) (hr : s.resting n) :
    CameDown s (endMet (s.decFlag n homes f) n) n homes f := by
  have hfind : ∀ k, Map.find? (s.decFlag n homes f).crews k =
      if k = n then (Map.find? s.crews k).map fun c => freeSheaves (decFlag c homes f) else Map.find? s.crews k :=
    fun k => Map.find?_mod _ _ _ _
  have hgroupAt : ∀ k grp, (s.decFlag n homes f).groupAt k grp = s.groupAt k grp := fun k grp => by
    simp only [State.groupAt, hfind]
    split
    · cases Map.find? s.crews k with
      | none => rfl
      | some c => simp only [Option.map_some, Option.bind_some, (frame_decFlag c homes f).2]
    · rfl
  have hframe : ∀ k, (Map.find? (s.decFlag n homes f).crews k).map Crew.frame = (Map.find? s.crews k).map Crew.frame := fun k => by
    rw [hfind]
    split
    · cases Map.find? s.crews k with
      | none => rfl
      | some c => simp only [Option.map_some, (frame_decFlag c homes f).1]
    · rfl
  have hflag : CountedDown s (s.decFlag n homes f) n homes f := fun h k => by
    simp only [State.sheafAt, hfind, if_true]
    cases Map.find? s.crews n with
    | none =>
      show 0 = 0 - _
      omega
    | some c => exact flag_decFlag c hn f h k
  have hcalm := calm_endMet (resting_of_groupAt (t := s.decFlag n homes f) hr fun grp => by rw [hgroupAt])
  have hstand := (kept_decFlag s n homes f).stand
  have hsheaf := hcalm.sheafAt
  exact
    { counted := fun h k => by rw [hsheaf]; exact hflag h k
      stand := crewsStand_trans hstand hcalm.stand
      frame := fun k => by
        have hg := congrArg (Option.map fun c : Crew => ({ c with sheaves := [] } : Crew)) (hcalm.crews k)
        simp only [Option.map_map] at hg
        exact Eq.trans hg (hframe k)
      groups := fun k grp => by rw [hcalm.groups, hgroupAt]
      cores := hcalm.cores
      ops := hcalm.ops
      memory := hcalm.memory }

section
variable {s t : State} {n : Nat} {homes : List Nat} {f : Option Nat} (h : CameDown s t n homes f)
include h

/-- A crew of the state as the count down leaves it. -/
theorem CameDown.find {k : Nat} {c : Crew} (hc : Map.find? s.crews k = some c) : ∃ w, Map.find? t.crews k = some w ∧ w.frame = c.frame := by
  have hf := h.frame k
  rw [hc, Option.map_some, Option.map_eq_some_iff] at hf
  exact hf

theorem CameDown.files (k i : Nat) : (t.sheafAt k i).files = (s.sheafAt k i).files := h.stand.2 k i

theorem CameDown.storeQ (k : Nat) : (t.core k).storeQ = (s.core k).storeQ := (congrArg Core.storeQ (h.cores k) :)
theorem CameDown.msgIn (k : Nat) : (t.core k).msgIn = (s.core k).msgIn := (congrArg Core.msgIn (h.cores k) :)
theorem CameDown.msgQ (k : Nat) : (t.core k).msgQ = (s.core k).msgQ := (congrArg Core.msgQ (h.cores k) :)
theorem CameDown.recvs (k : Nat) : (t.core k).recvs = (s.core k).recvs := (congrArg Core.recvs (h.cores k) :)

end

/-! ## The end of an operation -/

theorem Map.find?_below {α : Type} {m : Map α} {k : Nat} (h : ∀ p ∈ m, k < p.1) : Map.find? m k = none := by
  cases m with
  | nil => rfl
  | cons p rest =>
    have hp := h p List.mem_cons_self
    simp only [Map.find?, if_neg (Nat.ne_of_gt hp), if_pos hp]

theorem Map.wf_cons {α : Type} {p : Nat × α} {m : Map α} (h : Map.wf (p :: m) = true) : (∀ q ∈ m, p.1 < q.1) ∧ Map.wf m = true := by
  simpa [Map.wf] using h

theorem Map.find?_del {α : Type} {m : Map α} (h : Map.wf m = true) (k j : Nat) :
    Map.find? (Map.del m k) j = if j = k then none else Map.find? m j := by
  induction m with
  | nil => simp [Map.del, Map.find?]
  | cons p rest ih =>
    obtain ⟨hlt, hrest⟩ := Map.wf_cons h
    simp only [Map.del]
    split
    · rename_i e
      subst e
      split
      · rename_i e
        exact Map.find?_below (e ▸ hlt)
      · rename_i hj
        simp only [Map.find?, if_neg (Ne.symm hj)]
        split
        · rename_i hlow
          exact Map.find?_below fun q hq => hlow.trans (hlt q hq)
        · rfl
    · rename_i hk
      split
      · rename_i hlow
        split
        · rename_i e
          rw [e]
          exact Map.find?_below fun q hq => (List.mem_cons.1 hq).elim (fun e => e ▸ hlow) fun hq => hlow.trans (hlt q hq)
        · rfl
      · simp only [Map.find?, ih hrest]
        split
        · rename_i e
          rw [if_neg (fun e' => hk (e.trans e'))]
        · split
          · split <;> rfl
          · rfl

theorem Map.keys_mod {α : Type} (m : Map α) (k : Nat) (f : α → α) : Map.keys (Map.mod m k f) = Map.keys m := by
  induction m with
  | nil => rfl
  | cons p rest ih =>
    simp only [Map.mod]
    split
    · rfl
    · simp only [Map.keys, List.map_cons] at ih ⊢
      rw [ih]

theorem Map.wf_of_keys {α β : Type} {m : Map α} {q : Map β} (h : Map.keys q = Map.keys m) : Map.wf q = Map.wf m := by
  induction m generalizing q with
  | nil =>
    cases q with
    | nil => rfl
    | cons p rest => simp [Map.keys] at h
  | cons a rest ih =>
    cases q with
    | nil => simp [Map.keys] at h
    | cons b tail =>
      simp only [Map.keys, List.map_cons, List.cons.injEq] at h
      have hall : (tail.all fun p => decide (b.1 < p.1)) = rest.all fun p => decide (a.1 < p.1) := by
        have ha := List.all_map (f := Prod.fst) (l := tail) (p := fun k => decide (b.1 < k))
        have hb := List.all_map (f := Prod.fst) (l := rest) (p := fun k => decide (a.1 < k))
        exact ha.symm.trans ((by rw [h.2, h.1] : _ = _).trans hb)
      simp only [Map.wf, hall, ih h.2]

theorem Map.wf_mod {α : Type} (m : Map α) (k : Nat) (f : α → α) : Map.wf (Map.mod m k f) = Map.wf m := Map.wf_of_keys (Map.keys_mod m k f)

/-- The end of an operation of a crew that stands on its core: it is gone and its flag has counted down. -/
theorem cameDown_finishOp {s : State} {op : Nat} {o : Op} {c : Crew} (hc : Map.find? s.crews o.crew = some c) (hst : c.st = .resident)
    (hn : o.homes.Nodup) (hr : s.resting o.crew) :
    CameDown { s with ops := Map.del s.ops op } (finishOp s op o) o.crew o.homes o.flag := by
  have hd : CameDown { s with ops := Map.del s.ops op } _ o.crew o.homes o.flag := cameDown_endMet hn hr
  unfold finishOp
  generalize endMet (({ s with ops := Map.del s.ops op } : State).decFlag o.crew o.homes o.flag) o.crew = u at hd ⊢
  obtain ⟨w, hw, hf⟩ := hd.find hc
  have hstw : ¬w.st = .evicted := by
    rw [show w.st = c.st from (congrArg Crew.st hf :), hst]
    decide
  simpa only [refreshImage, hw, if_neg hstw] using hd

theorem over_of_cameDown {s t : State} {op : Nat} {o : Op} (hwf : Map.wf s.ops = true)
    (h : CameDown { s with ops := Map.del s.ops op } t o.crew o.homes o.flag) : Over s t op o := by
  refine ⟨?_, h.counted⟩
  rw [h.ops]
  exact (Map.find?_del hwf op op).trans (if_pos rfl)

theorem resting_of_running {s : State} {op : Nat} {o : Op} {c : Crew} (h : Running s op o c) : s.resting o.crew :=
  resting_of_groups h.crew h.outside

theorem finished_of_running {s : State} {op : Nat} {o : Op} {c : Crew} (h : Running s op o c) :
    CameDown { s with ops := Map.del s.ops op } (finishOp s op o) o.crew o.homes o.flag ∧ Over s (finishOp s op o) op o :=
  have hd := cameDown_finishOp (op := op) h.crew h.resident h.homes (resting_of_running h)
  ⟨hd, over_of_cameDown h.ops hd⟩

end Sys2Proof.Machine
end

section
/-! SUPPORT. Copies and messages come about (05_memory.md R117; 06_ordering.md R152; 11_isa_memory.md R281, R286). -/

namespace Sys2Proof.Machine

open Sys2Proof.Claims (CrewsStand CrewNow GroupNow Gives Running Over CountedDown)

/-! ## Copies -/

theorem copyRun_inv {s : State} {op : Nat} {o : Op} {c : CopyRun} {k : Nat} {sent : Bool} (h : copyRun s op o = some (c, k, sent)) :
    c.n = op ∧ c.op = o ∧ Map.find? s.crews o.crew = some c.crew ∧ Map.find? s.grids c.crew.grid = some c.grid ∧
      ∃ b idx form m w r, o.kind = .copy b idx form m w k sent r := by
  unfold copyRun at h
  split at h
  · rename_i b idx form m w k' sent' r w' g hkind hgrid
    cases h
    obtain ⟨hw, hg⟩ := gridOf_inv hgrid
    exact ⟨rfl, rfl, hw, hg, b, idx, form, m, w, r, hkind⟩
  · cases h

theorem copyComplete_gives {op k k1 : Nat} {s s1 : State} {o : Op} {c : CopyRun} {c1 : Crew} {got : List Acc}
    (ho : Map.find? s.ops op = some o) (hc : copyRun s op o = some (c, k, false)) (hready : copyReady s o c.crew = true)
    (hrun : runCopy s c k = (s1, k1, got, none)) (hring : c.ring = none) (htr : ∀ t ∈ s1.trackers, t.2.op ≠ some op)
    (hwf : Map.wf s1.ops = true) (hc1 : Map.find? s1.crews o.crew = some c1) (hst : c1.st = .resident) (hn : o.homes.Nodup)
    (hout : ∀ p ∈ c1.groups, ∀ e, p.2.episode = some e → e.inUse = false) :
    Gives (.copyComplete op) s fun t => Map.find? t.ops op = none ∧ CountedDown s1 t o.crew o.homes o.flag ∧ SameMemory s1 t := by
  obtain ⟨hcn, hco, _⟩ := copyRun_inv hc
  have hnone : ¬(s1.trackers.any fun t => t.2.op == some op) = true := by
    rw [List.any_eq_true]
    rintro ⟨t, ht, hop⟩
    exact htr t ht (by simpa using hop)
  have hexec : exec (.copyComplete op) s = .next (finishCopy (keepCopy s1 op k1 [] true) c) := by
    show execCopyComplete op s = _
    have hgo : ¬(!copyReady s c.op c.crew) = true := by simp [hco, hready]
    have htr' : ¬((keepCopy s1 op k1 [] true).trackers.any fun t => t.2.op == some op) = true := hnone
    simp only [execCopyComplete, ho, Option.bind_some, hc, if_neg hgo, Bool.false_eq_true, if_false, hrun, if_neg htr']
  have hwf' : Map.wf (keepCopy s1 op k1 [] true).ops = true := (Map.wf_mod _ _ _).trans hwf
  have hd := cameDown_finishOp (s := keepCopy s1 op k1 [] true) (op := op) (o := o) hc1 hst hn (resting_of_groups (s := keepCopy s1 op k1 [] true) hc1 hout)
  obtain ⟨hgone, hcount⟩ := over_of_cameDown hwf' hd
  simp only [finishCopy, hring, hcn, hco] at hexec
  exact ⟨_, hexec, hgone, hcount, hd.memory⟩

section
variable {op k k1 : Nat} {s s1 : State} {o : Op} {c : CopyRun} {got : List Acc} {e : Cause ⊕ TErr} {va : Nat} {w : Bool}
  (ho : Map.find? s.ops op = some o) (hc : copyRun s op o = some (c, k, false)) (hready : copyReady s o c.crew = true)
  (hrun : runCopy s c k = (s1, k1, got, some (.bad e va w)))
include ho hc hready hrun

/-- A copy whose access fails for another reason than bad data stands before no flaw. -/
theorem exec_copyFault (he : e ≠ .inl .dataUncorrectable) : exec (.copyFault op) s = copyFault op s := by
  obtain ⟨_, hco, _⟩ := copyRun_inv hc
  have hgo : ¬(!copyReady s c.op c.crew || false) = true := by simp [hco, hready]
  have hnoflaw : copyFlaw s op = none := by
    simp only [copyFlaw, ho, Option.bind_some, hc, if_neg hgo, hrun]
    split
    · rename_i h
      cases h
      exact absurd rfl he
    · rfl
  show execCopyFault op s = _
  simp only [execCopyFault, hnoflaw]

/-- A copy that meets an absent page is suspended. -/
theorem copyFault_suspends {x : TErr} (hx : e = .inr x) (h1 : x ≠ .noMem) (h2 : x ≠ .rights) (h3 : ∀ line, x ≠ .flawed line) :
    exec (.copyFault op) s = .next (suspendCopy (keepCopy s1 op k1 got false) c x va w) := by
  subst hx
  obtain ⟨_, hco, _⟩ := copyRun_inv hc
  have hgo : ¬(!copyReady s c.op c.crew || false) = true := by simp [hco, hready]
  rw [exec_copyFault ho hc hready hrun (by simp)]
  simp only [copyFault, ho, Option.bind_some, hc, if_neg hgo, hrun]

/-- A copy that meets another cause stops. -/
theorem copyFault_stops {x : Cause} (hx : e = .inl x) (h1 : x ≠ .osetOverflow) (h2 : x ≠ .dataUncorrectable) :
    exec (.copyFault op) s = .next (stopCopy (keepCopy s1 op k1 got false) c x va) := by
  subst hx
  obtain ⟨_, hco, _⟩ := copyRun_inv hc
  have hgo : ¬(!copyReady s c.op c.crew || false) = true := by simp [hco, hready]
  rw [exec_copyFault ho hc hready hrun (by simpa using h2)]
  simp only [copyFault, ho, Option.bind_some, hc, if_neg hgo, hrun]

end

/-- The key that a report answers is a batch's. -/
theorem has_reportBatch (s : State) (vf : Nat) (c : Cause) (pages : List (Bool × Nat × Bool × Bool)) (flags : Nat) (gpa : Dword)
    (r : FRec) (b : Batch) : Map.has (reportBatch s vf c pages flags gpa r b).1.batches (reportBatch s vf c pages flags gpa r b).2 = true := by
  unfold reportBatch
  extract_lets id s1 key s2 p1 p2 s3 s4
  split <;> simp only [Map.has, Map.find?_put, if_true, Option.isSome_some]

/-- A copy whose progress is kept is the same operation. -/
theorem keepCopy_find {s : State} {op k : Nat} {o : Op} {got : List Acc} {sent : Bool} (ho : Map.find? s.ops op = some o) :
    ∃ q, Map.find? (keepCopy s op k got sent).ops op = some q ∧ q.flag = o.flag := by
  refine ⟨_, Map.find?_mod_self _ _ _ _ ho, ?_⟩
  split <;> rfl

/-- A copy suspended at an absent page awaits a batch, and its grid counts a fault. -/
theorem suspendCopy_spec {s : State} {c : CopyRun} {e : TErr} {va : Nat} {w : Bool} {q : Op} {g : Grid} (hq : Map.find? s.ops c.n = some q)
    (hg : Map.find? s.grids c.op.grid = some g) :
    (∃ key p, Map.find? (suspendCopy s c e va w).ops c.n = some p ∧ p.batch = some key ∧ p.flag = q.flag ∧
      Map.has (suspendCopy s c e va w).batches key = true) ∧
    (∃ d, Map.find? (suspendCopy s c e va w).grids c.op.grid = some d ∧ d.faults = g.faults + 1) ∧ SameMemory s (suspendCopy s c e va w) := by
  unfold suspendCopy
  dsimp only
  generalize ({ c.op.rec_ s va with va := dword va } : FRec) = r
  generalize Batch.mk _ _ _ _ _ _ _ = b
  have hs := sansReports_reportBatch s c.grid.vf e.cause [e.page va w false] e.flags e.gpa r b
  have hkey := has_reportBatch s c.grid.vf e.cause [e.page va w false] e.flags e.gpa r b
  generalize reportBatch s c.grid.vf e.cause [e.page va w false] e.flags e.gpa r b = u at hs hkey ⊢
  have hops : u.1.ops = s.ops := (congrArg State.ops hs :)
  have hgrids : u.1.grids = s.grids := (congrArg State.grids hs :)
  refine ⟨⟨u.2, _, Map.find?_mod_self _ _ _ _ (hops ▸ hq), rfl, rfl, hkey⟩, ⟨_, Map.find?_mod_self _ _ _ _ (hgrids ▸ hg), rfl⟩,
    (congrArg State.hbm hs :), (congrArg State.host hs :), (congrArg State.store hs :)⟩

/-- Causes that wait for live threads go on waiting. -/
theorem exitPosted_live {s : State} {n : Nat} {w : Crew} (hw : Map.find? s.crews n = some w)
    (hl : ∀ p ∈ w.posted, ∃ q ∈ p.threads, (w.thread q).exited = false) :
    (exitPosted s n).ops = s.ops ∧ (∀ k i, (exitPosted s n).sheafAt k i = s.sheafAt k i) ∧ CrewNow (exitPosted s n) n (·.posted = w.posted) := by
  unfold exitPosted
  split
  · exact ⟨rfl, fun _ _ => rfl, w, hw, rfl⟩
  · rename_i w' g hgrid
    obtain ⟨hw', _⟩ := gridOf_inv hgrid
    obtain rfl : w = w' := by rw [hw] at hw'; cases hw'; rfl
    have hlive : ∀ p ∈ w.posted, (p.threads.any fun q => !(w.thread q).exited) = true := fun p hp => by
      obtain ⟨q, hq, he⟩ := hl p hp
      exact List.any_eq_true.2 ⟨q, hq, by simp [he]⟩
    have hgone : (w.posted.filter fun p => !p.threads.any fun q => !(w.thread q).exited) = [] := by
      rw [List.filter_eq_nil_iff]
      intro p hp
      simp [hlive p hp]
    simp only [hgone, List.foldl_nil]
    refine ⟨rfl, fun k i => ?_, _, Map.find?_mod_self _ _ _ _ hw, List.filter_eq_self.2 hlive⟩
    simp only [State.sheafAt, State.modCrew, Map.find?_mod]
    split
    · rw [Option.map_map]; rfl
    · rfl

/-- A copy stopped at a cause is over, and its cause waits for its threads. -/
theorem stopCopy_spec {s : State} {c : CopyRun} {cause : Cause} {va : Nat} {w : Crew} (hwf : Map.wf s.ops = true) (hn : c.op.homes.Nodup)
    (hw : Map.find? s.crews c.op.crew = some w) (hst : w.st = .resident)
    (hout : ∀ p ∈ w.groups, ∀ e, p.2.episode = some e → e.inUse = false) (hlive : ∃ p ∈ c.op.lanes, (w.thread p).exited = false)
    (hposted : w.posted = []) :
    Map.find? (stopCopy s c cause va).ops c.n = none ∧ CountedDown s (stopCopy s c cause va) c.op.crew c.op.homes c.op.flag ∧
      CrewNow (stopCopy s c cause va) c.op.crew fun y =>
        y.posted = [{ flag := some (c.op.named.getD 15), cause := cause, faddr := dword va, threads := c.op.lanes }] := by
  unfold stopCopy
  dsimp only
  generalize hp : ({ flag := some (c.op.named.getD 15), cause := cause, faddr := dword va, threads := c.op.lanes } : Posted) = p
  have hthreads : p.threads = c.op.lanes := by rw [← hp]
  generalize hu : (s.modCrew c.op.crew fun w => { w with posted := w.posted ++ [p] }) = u
  have huw : Map.find? u.crews c.op.crew = some { w with posted := [p] } := by
    rw [← hu, State.modCrew, Map.find?_mod_self _ _ _ _ hw, hposted]
    rfl
  have hops : u.ops = s.ops := by rw [← hu]; rfl
  have hflags : ∀ i, u.sheafAt c.op.crew i = s.sheafAt c.op.crew i := fun i => by
    rw [sheafAt_of_find huw, sheafAt_of_find hw]
    rfl
  have hd := cameDown_finishOp (op := c.n) huw hst hn (resting_of_groups huw hout)
  obtain ⟨hgone, hcount⟩ := over_of_cameDown (hops ▸ hwf) hd
  obtain ⟨v, hv, hf⟩ := hd.find huw
  have hvp : v.posted = [p] := (congrArg Crew.posted hf :)
  have hvt : ∀ q, v.thread q = w.thread q := fun q => by
    have h := hd.stand.1 c.op.crew q
    rw [threadAt_of_find hv, threadAt_of_find (s := { u with ops := Map.del u.ops c.n }) huw] at h
    exact h
  obtain ⟨heops, hesheaf, hepost⟩ := exitPosted_live hv fun q hq => by
    rw [hvp, List.mem_singleton] at hq
    rw [hq, hthreads]
    simpa only [hvt] using hlive
  refine ⟨heops ▸ hgone, fun h k => ?_, hvp ▸ hepost⟩
  rw [hesheaf, hcount h k, hflags]

theorem copyFault_gives {op k k1 : Nat} {s s1 : State} {o : Op} {c : CopyRun} {got : List Acc} {e : Cause ⊕ TErr} {va : Nat} {w : Bool}
    (ho : Map.find? s.ops op = some o) (hc : copyRun s op o = some (c, k, false)) (hready : copyReady s o c.crew = true)
    (hrun : runCopy s c k = (s1, k1, got, some (.bad e va w))) (hcrews : (keepCopy s1 op k1 got false).crews = s.crews)
    (ho1 : Map.find? s1.ops op = some o) (hg : Map.find? s1.grids o.grid = some c.grid) :
    (∀ x, e = .inr x → x ≠ .noMem → x ≠ .rights → (∀ line, x ≠ .flawed line) →
      Gives (.copyFault op) s fun t =>
        (∃ key q, Map.find? t.ops op = some q ∧ q.batch = some key ∧ q.flag = o.flag ∧ Map.has t.batches key = true) ∧
          (∃ g, Map.find? t.grids o.grid = some g ∧ g.faults = c.grid.faults + 1) ∧ SameMemory s1 t) ∧
    ∀ x, e = .inl x → x ≠ .osetOverflow → x ≠ .dataUncorrectable → Map.wf s1.ops = true → o.homes.Nodup → c.crew.st = .resident →
      (∀ p ∈ c.crew.groups, ∀ y, p.2.episode = some y → y.inUse = false) → (∃ p ∈ o.lanes, (c.crew.thread p).exited = false) →
      c.crew.posted = [] →
      Gives (.copyFault op) s fun t => Map.find? t.ops op = none ∧ CountedDown s t o.crew o.homes o.flag ∧
        CrewNow t o.crew fun y =>
          y.posted = [{ flag := some (o.named.getD 15), cause := x, faddr := BitVec.ofNat 64 va, threads := o.lanes }] := by
  obtain ⟨rfl, hco, hcrew, _⟩ := copyRun_inv hc
  refine ⟨fun x hx h1 h2 h3 => ?_, fun x hx h1 h2 hwf hn hst hout hlive hposted => ?_⟩
  · obtain ⟨q, hq, hflag⟩ := keepCopy_find (k := k1) (got := got) (sent := false) ho1
    obtain ⟨⟨key, p, hp, hbatch, hpf, hhas⟩, hfaults, hmem⟩ :=
      suspendCopy_spec (s := keepCopy s1 c.n k1 got false) (c := c) (e := x) (va := va) (w := w) hq (hco ▸ hg)
    exact ⟨_, copyFault_suspends ho hc hready hrun hx h1 h2 h3, ⟨key, p, hp, hbatch, hpf.trans hflag, hhas⟩, hco ▸ hfaults, hmem⟩
  · have hwf' : Map.wf (keepCopy s1 c.n k1 got false).ops = true := (Map.wf_mod _ _ _).trans hwf
    have hw : Map.find? (keepCopy s1 c.n k1 got false).crews c.op.crew = some c.crew := by rw [hcrews, hco, hcrew]
    obtain ⟨hgone, hcount, hpost⟩ := stopCopy_spec (cause := x) (va := va) hwf' (hco ▸ hn) hw hst hout (hco ▸ hlive) hposted
    refine ⟨_, copyFault_stops ho hc hready hrun hx h1 h2, hgone, ?_, ?_⟩
    · intro h i
      have hi := hcount h i
      simp only [hco, State.sheafAt] at hi ⊢
      rw [← hcrews]
      exact hi
    · simp only [hco, dword] at hpost
      exact hpost

/-! ## Messages -/

/-- A core but for the lines of its L1. -/
def Core.sansLines (k : Core) : Core := { k with l1 := [] }

theorem sansLines_acquireLine (k : Core) (key : Nat) : (acquireLine k key).sansLines = k.sansLines := by
  unfold acquireLine
  split
  · rfl
  · split <;> rfl

/-- An acquire at dev scope drops lines of L1s, and does nothing else. -/
theorem acquireAct_dev (s : State) (die : Nat) :
    (acquireAct s die .dev).sansTraffic = s.sansTraffic ∧ ∀ k, ((acquireAct s die .dev).core k).sansLines = (s.core k).sansLines := by
  have hdev : acquireAct s die .dev =
      ((dieLines s die).filter fun p => actsOn false p.2).foldl (fun s p => s.modCore p.1 fun k => acquireLine k p.2) s := rfl
  rw [hdev]
  refine List.foldlRecOn (motive := fun t : State => t.sansTraffic = s.sansTraffic ∧ ∀ k, (t.core k).sansLines = (s.core k).sansLines) _ _
    ⟨rfl, fun _ => rfl⟩ fun t ht p _ => ⟨ht.1, fun k => ?_⟩
  rw [State.core_modCore]
  split
  · rename_i e
    rw [sansLines_acquireLine, ← e, ht.2]
  · exact ht.2 k

/-- A home sheaf but for its main registers, their origin sets and their places among window stores. -/
def Sheaf.besideMain (h : Sheaf) : Sheaf := { h with main := [], mainS := [], mainW := [], mainWS := [] }

/-- Two crews whose home sheaves are alike but for their main registers. -/
def Crew.SameButRegs (c c' : Crew) : Prop := ∀ i, (c'.sheaf i).besideMain = (c.sheaf i).besideMain

theorem Crew.SameButRegs.trans {a b c : Crew} (h : a.SameButRegs b) (k : b.SameButRegs c) : a.SameButRegs c := fun i => (k i).trans (h i)

theorem Crew.sameButRegs_of_sheaves {c c' : Crew} (h : c'.sheaves = c.sheaves) : c.SameButRegs c' := fun i => by simp only [Crew.sheaf, h]

theorem Crew.sameButRegs_modSheaf (c : Crew) (h : Nat) {f : Sheaf → Sheaf} (hf : ∀ z, (f z).besideMain = z.besideMain) :
    c.SameButRegs (c.modSheaf h f) := fun i => Crew.sheaf_modSheaf_prop c h i f Sheaf.besideMain hf

theorem Crew.SameButRegs.flag {c c' : Crew} (h : c.SameButRegs c') (i k : Nat) : (c'.sheaf i).flag k = (c.sheaf i).flag k :=
  (congrArg (fun z : Sheaf => z.flag k) (h i) :)

/-- A crew but for its shared space's origin sets and its home sheaves. -/
def Crew.sansShare (c : Crew) : Crew := { c with sheaves := [], scratchS := [] }

theorem sansShare_modSheaf (c : Crew) (h : Nat) (f : Sheaf → Sheaf) : (c.modSheaf h f).sansShare = c.sansShare := rfl

theorem joinShared_spec {c c' : Crew} {t t' : Map OEntry} {off : Nat} {set : OSet} (h : joinShared c t off set = .ok (c', t')) :
    c.SameButRegs c' ∧ c'.sansShare = c.sansShare := by
  unfold joinShared at h
  split at h
  · cases h
  · rename_i u t1 _
    by_cases hlow : off < winBase
    · rw [if_pos hlow] at h
      obtain ⟨rfl, _⟩ := Prod.mk.inj (Except.ok.inj h)
      exact ⟨Crew.sameButRegs_of_sheaves rfl, rfl⟩
    · rw [if_neg hlow] at h
      obtain ⟨rfl, _⟩ := Prod.mk.inj (Except.ok.inj h)
      exact ⟨Crew.sameButRegs_modSheaf c _ fun _ => rfl, sansShare_modSheaf c _ _⟩

theorem episode_wakePhases (c : Crew) (grp : Nat) :
    (Map.find? (wakePhases c).groups grp).map Group.episode = (Map.find? c.groups grp).map Group.episode := by
  simp only [wakePhases]
  rw [Map.find?_map_of_key (fun p => by split <;> rfl), Option.map_map]
  refine congrArg (fun f => Option.map f _) (funext fun g => ?_)
  simp only [Function.comp_apply]
  split <;> rfl

/-- What the delivery of a message leaves: its bytes in the buffer, and of the crew and the machine nothing but origin sets, phase
waits and lines of L1s changed. -/
theorem deliverMsg_spec {s t : State} {n buf : Nat} {m : Msg} {set : OSet} {c : Crew} (hc : Map.find? s.crews n = some c)
    (h : deliverMsg s n buf m set = .ok t) :
    ∃ w, Map.find? t.crews n = some w ∧ w.scratch = Memory.writeN c.scratch buf (bytesOf 8 (statusOf m) ++ m.payload) ∧ w.st = c.st ∧
      c.SameButRegs w ∧ (∀ grp, (Map.find? w.groups grp).map Group.episode = (Map.find? c.groups grp).map Group.episode) ∧
      t.ops = s.ops ∧ SameMemory s t ∧ ∀ k, (t.core k).sansLines = (s.core k).sansLines := by
  simp only [deliverMsg, hc] at h
  split at h
  · cases h
  · split at h
    · cases h
    · rename_i d t' hf
      cases h
      obtain ⟨hs, hk⟩ := foldE_keeps (P := fun a : Crew × Map OEntry => c.SameButRegs a.1 ∧ a.1.sansShare = c.sansShare)
        (fun a y b hb ha => ⟨ha.1.trans (joinShared_spec hb).1, (joinShared_spec hb).2.trans ha.2⟩) hf ⟨Crew.sameButRegs_of_sheaves rfl, rfl⟩
      have hgroups : d.groups = c.groups := (congrArg Crew.groups hk :)
      have hscratch : d.scratch = c.scratch := (congrArg Crew.scratch hk :)
      generalize hw : wakePhases { d with scratch := Memory.writeN d.scratch buf (bytesOf 8 (statusOf m) ++ m.payload) } = w
      obtain ⟨hacq, hcores⟩ := acquireAct_dev { s with osets := t', crews := Map.put s.crews n w } (dieOf d.core)
      refine ⟨w, ?_, ?_, ?_, ?_, fun grp => ?_, (congrArg State.ops hacq :), ?_, hcores⟩
      · exact (congrArg (fun q : State => Map.find? q.crews n) hacq :).trans (Map.find?_put_self _ _ _)
      · rw [← hw, ← hscratch]; rfl
      · rw [← hw]; exact (congrArg Crew.st hk :)
      · rw [← hw]; exact hs
      · rw [← hw, episode_wakePhases, ← hgroups]
      · exact ⟨(congrArg State.hbm hacq :), (congrArg State.host hacq :), (congrArg State.store hacq :)⟩

theorem read_writeN_below {bs : List Byte} {m : Memory} {a b : Nat} (h : Memory.wf m = true) (hb : b < a) :
    Memory.read (Memory.writeN m a bs) b = Memory.read m b := by
  induction bs generalizing m a with
  | nil => rfl
  | cons x rest ih =>
    rw [Memory.writeN, ih (Memory.wf_write m a x h) (by omega), Memory.read_write m a b x h, if_neg (by omega)]

theorem read_writeN {bs : List Byte} {m : Memory} {a i : Nat} (h : Memory.wf m = true) (hi : i < bs.length) :
    Memory.read (Memory.writeN m a bs) (a + i) = (bs[i]?).getD 0 := by
  induction bs generalizing m a i with
  | nil => cases hi
  | cons x rest ih =>
    cases i with
    | zero =>
      rw [Memory.writeN, read_writeN_below (Memory.wf_write m a x h) (show a + 0 < a + 1 by omega), Nat.add_zero, Memory.read_write m a a x h, if_pos rfl]
      rfl
    | succ j =>
      rw [Memory.writeN, show a + (j + 1) = a + 1 + j by omega]
      exact ih (Memory.wf_write m a x h) (Nat.lt_of_succ_lt_succ hi)

/-- A message's send that is over already ends nothing. -/
theorem sendOver_gone {s : State} {m : Msg} (h : Map.find? s.ops m.op = none) : sendOver s m = s := by simp only [sendOver, h]

section
variable {core : Nat} {s : State} {m : Msg} {rest : List Msg} {g : Grid} (hin : (s.core core).msgIn = m :: rest)
  (hg : Map.find? s.grids m.grid = some g) (hdone : g.done = false) (hstop : g.stopped = none)
include hin hg hdone hstop

/-- The first message on its way to a core, of a grid that goes on. -/
theorem exec_messageArrival : exec (.messageArrival core) s = .next (sendOver
    (match recvTaking (s.modCore core fun k => { k with msgIn := rest }) core m with
      | some (n, o, buf) => receiveMsg (s.modCore core fun k => { k with msgIn := rest }) core m n o buf
      | none =>
        if ((s.modCore core fun k => { k with msgIn := rest }).core core).msgQ.length < 64 then
          (s.modCore core fun k => { k with msgIn := rest }).modCore core fun k => { k with msgQ := k.msgQ ++ [m] }
        else dropMsg (s.modCore core fun k => { k with msgIn := rest }) core m) m) := by
  show execMessageArrival core s = _
  have hg' : Map.find? (s.modCore core fun k => { k with msgIn := rest }).grids m.grid = some g := hg
  have hover : ¬(g.done || g.stopped.isSome) = true := by simp [hdone, hstop]
  simp only [execMessageArrival, hin, hg', if_neg hover]
  cases recvTaking (s.modCore core fun k => { k with msgIn := rest }) core m with
  | some r => rfl
  | none =>
    dsimp only
    split <;> rfl

theorem messageArrival_receives {n buf : Nat} {o : Op} {c : Crew} {s1 : State} (hop : Map.find? s.ops m.op = none)
    (hr : recvTaking (s.modCore core fun k => { k with msgIn := rest }) core m = some (n, o, buf))
    (hd : deliverMsg (s.modCore core fun k => { k with msgIn := rest }) o.crew buf m o.set = .ok s1) (hne : m.op ≠ n)
    (hrun : Running s n o c) (hwf : Memory.wf c.scratch = true) :
    Gives (.messageArrival core) s fun t => (t.core core).msgIn = rest ∧ Over s t n o ∧
      (CrewNow t o.crew fun w => ∀ i, i < 8 + m.payload.length →
        Memory.read w.scratch (buf + i) = ((bytesOf 8 (statusOf m) ++ m.payload)[i]?).getD 0) ∧ n ∉ (t.core core).recvs ∧ SameMemory s t := by
  have hexec := exec_messageArrival hin hg hdone hstop
  rw [hr] at hexec
  simp only [receiveMsg, hd] at hexec
  obtain ⟨w, hw, hscratch, hst, hregs, hep, hops, hmem, hcores⟩ := deliverMsg_spec (s := s.modCore core fun k => { k with msgIn := rest }) hrun.crew hd
  generalize hu : s1.modCore core (fun k => { k with recvs := k.recvs.filter (· != n) }) = u at hexec
  have huw : Map.find? u.crews o.crew = some w := by rw [← hu]; exact hw
  have huo : u.ops = s.ops := by rw [← hu]; exact hops
  have hum : SameMemory s u := by rw [← hu]; exact hmem
  have hcore : (u.core core).sansLines = { ((s.core core).sansLines) with msgIn := rest, recvs := (s.core core).recvs.filter (· != n) } := by
    have hc := hcores core
    rw [← hu, State.core_modCore, if_pos rfl]
    rw [State.core_modCore, if_pos rfl] at hc
    have hrecvs : (s1.core core).recvs = (s.core core).recvs := (congrArg Core.recvs hc :)
    rw [hrecvs]
    exact (congrArg (fun k : Core => { k with recvs := (s.core core).recvs.filter (· != n) }) hc :)
  have hflag : ∀ i k, (u.sheafAt o.crew i).flag k = (s.sheafAt o.crew i).flag k := fun i k => by
    rw [sheafAt_of_find huw, sheafAt_of_find hrun.crew, hregs.flag]
  have hrest : u.resting o.crew := resting_of_groupAt (resting_of_running hrun) fun grp => by
    rw [groupAt_of_find huw, groupAt_of_find hrun.crew, hep]
  have hdown := cameDown_finishOp (op := n) huw (hst.trans hrun.resident) hrun.homes hrest
  obtain ⟨hgone, hcount⟩ := over_of_cameDown (huo ▸ hrun.ops) hdown
  have hsent : Map.find? (finishOp u n o).ops m.op = none := by
    rw [hdown.ops]
    show Map.find? (Map.del u.ops n) m.op = none
    rw [huo, Map.find?_del hrun.ops, if_neg hne, hop]
  rw [sendOver_gone hsent] at hexec
  obtain ⟨v, hv, hf⟩ := hdown.find (s := { u with ops := Map.del u.ops n }) huw
  refine ⟨_, hexec, ?_, ⟨hgone, fun h k => ?_⟩, ⟨v, hv, fun i hi => ?_⟩, ?_, hum.trans hdown.memory⟩
  · exact (hdown.msgIn core).trans (congrArg Core.msgIn hcore :)
  · rw [hcount h k, hflag]
  · rw [show v.scratch = w.scratch from (congrArg Crew.scratch hf :), hscratch]
    refine read_writeN hwf ?_
    simp only [bytesOf, List.length_append, List.length_cons, List.length_nil]
    omega
  · rw [hdown.recvs core]
    show n ∉ (u.core core).recvs
    rw [show (u.core core).recvs = (s.core core).recvs.filter (· != n) from (congrArg Core.recvs hcore :)]
    simp

theorem messageArrival_queues (hop : Map.find? s.ops m.op = none)
    (hr : recvTaking (s.modCore core fun k => { k with msgIn := rest }) core m = none) (hq : (s.core core).msgQ.length < 64) :
    Gives (.messageArrival core) s fun t => (t.core core).msgIn = rest ∧ (t.core core).msgQ = (s.core core).msgQ ++ [m] ∧ t.ops = s.ops ∧
      CrewsStand s t ∧ SameMemory s t := by
  have hexec := exec_messageArrival hin hg hdone hstop
  have hcore : ((s.modCore core fun k => { k with msgIn := rest }).core core) = { s.core core with msgIn := rest } := by
    rw [State.core_modCore, if_pos rfl]
  have hq' : ((s.modCore core fun k => { k with msgIn := rest }).core core).msgQ.length < 64 := by rw [hcore]; exact hq
  rw [hr] at hexec
  simp only [if_pos hq'] at hexec
  rw [sendOver_gone (by exact hop)] at hexec
  refine ⟨_, hexec, ?_, ?_, rfl, crewsStand_of_crews rfl, SameMemory.refl s⟩
  · rw [State.core_modCore, if_pos rfl, hcore]
  · rw [State.core_modCore, if_pos rfl, hcore]

theorem messageArrival_drops {k h : Nat} {c : Crew} (hop : Map.find? s.ops m.op = none)
    (hr : recvTaking (s.modCore core fun k => { k with msgIn := rest }) core m = none) (hq : 64 ≤ (s.core core).msgQ.length)
    (hlow : lowCrewOn s m.grid core = some (k, c)) (hc : Map.find? s.crews k = some c)
    (hlive : (List.range c.sheaves.length).find? (fun h => !(liveLanes (c.sheaf h)).isEmpty) = some h) :
    Gives (.messageArrival core) s fun t => (t.core core).msgIn = rest ∧ (t.core core).msgQ = (s.core core).msgQ ∧ SameMemory s t ∧
      CrewNow t k fun w => w.posted = c.posted ++
        [{ flag := none, cause := .msgOverflow, faddr := 0, threads := (liveLanes (c.sheaf h)).map fun l => (l, h) }] := by
  have hexec := exec_messageArrival hin hg hdone hstop
  have hcore : ((s.modCore core fun k => { k with msgIn := rest }).core core) = { s.core core with msgIn := rest } := by
    rw [State.core_modCore, if_pos rfl]
  have hq' : ¬((s.modCore core fun k => { k with msgIn := rest }).core core).msgQ.length < 64 := by rw [hcore]; exact Nat.not_lt.2 hq
  have hlow' : lowCrewOn (s.modCore core fun k => { k with msgIn := rest }) m.grid core = some (k, c) := hlow
  rw [hr] at hexec
  simp only [if_neg hq', dropMsg, hlow', Option.bind_some, hlive, Option.map_some] at hexec
  rw [sendOver_gone (by exact hop)] at hexec
  refine ⟨_, hexec, ?_, ?_, SameMemory.refl s, _, Map.find?_mod_self _ _ _ _ hc, rfl⟩
  · exact (congrArg Core.msgIn hcore :)
  · exact (congrArg Core.msgQ hcore :)

end

theorem copiesAndMessagesComeAbout : Sys2Proof.Claims.CopiesAndMessagesComeAbout :=
  ⟨fun _ _ _ _ _ _ _ _ _ ho hc hready hrun hring htr hwf hc1 hst hn hout =>
      copyComplete_gives ho hc hready hrun hring htr hwf hc1 hst hn hout,
   fun _ _ _ _ _ _ _ _ _ _ _ ho hc hready hrun hcrews ho1 hg => copyFault_gives ho hc hready hrun hcrews ho1 hg,
   fun _ _ _ _ _ hin hg hdone hstop hop =>
     ⟨fun _ _ _ _ _ hr hd hne hrun hwf => messageArrival_receives hin hg hdone hstop hop hr hd hne hrun hwf,
      fun hr hq => messageArrival_queues hin hg hdone hstop hop hr hq,
      fun _ _ _ hr hq hlow hc hlive => messageArrival_drops hin hg hdone hstop hop hr hq hlow hc hlive⟩⟩

end Sys2Proof.Machine
end

section
/-! SUPPORT. LDKs, atomics and phase arrivals come about (02_execution.md R37, R47; 11_isa_memory.md R258, R263). -/

namespace Sys2Proof.Machine

open Sys2Proof.Claims (CrewsStand CrewNow GroupNow Gives Running Over CountedDown)

/-! ## Loads -/

/-- A relaxed load all of which may be delivered ends with its result. -/
theorem deliverLoad_whole {s s1 : State} {n : Nat} {o : Op} {c : Crew} {signed : Bool}
    {put : State → List ((Nat × Nat) × List Word) → OSet → Except Stop State} {vs : List ((Nat × Nat) × List Word)} {u : OSet} {tab : Map OEntry}
    (hsem : o.sem = .rlx) (hready : loadReady s o c.core = true) (hlost : lostLines s o c.core = [])
    (hres : loadResults s o c.core (whoActs s o.crew o.grid).2.1 signed = .ok (vs, u, tab)) (hput : put { s with osets := tab } vs u = .ok s1) :
    deliverLoad s n o c signed put = finishOp s1 n o := by
  have hgo : ¬(!loadReady s o c.core) = true := by simp [hready]
  have hsc : ¬(!(scLines o).isEmpty) = true := by simp [scLines, hsem]
  have hlo : ¬(!(lostLines s o c.core).isEmpty) = true := by simp [hlost]
  have hread : scRead s o c.core = s := by simp [scRead, hsem]
  have hacq : opAcquire s1 o c.core = s1 := by simp [opAcquire, hsem, semAcq]
  simp only [deliverLoad, if_neg hgo, if_neg hsc, if_neg hlo, hread, hres, hput, hacq]

theorem exec_loadDelivery {s : State} {op : Nat} {o : Op} (ho : Map.find? s.ops op = some o) (hflaw : opFlaw s op o = none) :
    exec (.loadDelivery op) s = loadDelivery op s := by
  show execLoadDelivery op s = _
  simp only [execLoadDelivery, ho, hflaw]

/-- The home sheaf that one of several changes of distinct home sheaves names. -/
theorem sheaf_foldl_modSheaf {α : Type} (key : α → Nat) (f : α → Sheaf → Sheaf) {vs : List α} (hn : (vs.map key).Nodup) (c : Crew) {a : α}
    (ha : a ∈ vs) (hl : key a < c.sheaves.length) :
    (vs.foldl (fun c a => c.modSheaf (key a) (f a)) c).sheaf (key a) = f a (c.sheaf (key a)) := by
  have hother : ∀ (vs : List α) (c : Crew) (i : Nat), i ∉ vs.map key →
      (vs.foldl (fun c a => c.modSheaf (key a) (f a)) c).sheaf i = c.sheaf i := fun vs => by
    induction vs with
    | nil => exact fun _ _ _ => rfl
    | cons b rest ih =>
      intro c i hi
      rw [List.map_cons, List.mem_cons, not_or] at hi
      rw [List.foldl_cons, ih _ _ hi.2]
      by_cases hb : key b < c.sheaves.length
      · rw [Crew.sheaf_modSheaf c _ _ _ hb, if_neg hi.1]
      · simp only [Crew.modSheaf, List.modify_eq_self (Nat.le_of_not_lt hb)]
  induction vs generalizing c with
  | nil => cases ha
  | cons b rest ih =>
    obtain ⟨hb, hrest⟩ := List.nodup_cons.1 hn
    rw [List.foldl_cons]
    rcases List.mem_cons.1 ha with rfl | ha
    · rw [hother rest _ _ hb, Crew.sheaf_modSheaf c _ _ _ hl, if_pos rfl]
    · have hne : key a ≠ key b := fun e => hb (e ▸ List.mem_map_of_mem ha)
      have hlen : key a < (c.modSheaf (key b) (f b)).sheaves.length := by simpa using hl
      rw [ih hrest _ ha hlen]
      by_cases hbl : key b < c.sheaves.length
      · rw [Crew.sheaf_modSheaf c _ _ _ hbl, if_neg hne]
      · simp only [Crew.modSheaf, List.modify_eq_self (Nat.le_of_not_lt hbl)]

/-- A home sheaf with the words of a load in its k registers, from one on. -/
def Sheaf.putK (d : Nat) (set : OSet) (z : Sheaf) (q : Word × Nat) : Sheaf :=
  { z with k := Map.put z.k (d + q.2) q.1, kS := Map.put z.kS (d + q.2) set }

theorem k_foldl_putK (d : Nat) (set : OSet) {zs : List (Word × Nat)} (hn : (zs.map Prod.snd).Nodup) (z : Sheaf) {q : Word × Nat} (hq : q ∈ zs) :
    Map.get (zs.foldl (Sheaf.putK d set) z).k (d + q.2) 0 = q.1 := by
  have hother : ∀ (zs : List (Word × Nat)) (z : Sheaf), q.2 ∉ zs.map Prod.snd →
      Map.get (zs.foldl (Sheaf.putK d set) z).k (d + q.2) 0 = Map.get z.k (d + q.2) 0 := fun zs => by
    induction zs with
    | nil => exact fun _ _ => rfl
    | cons b rest ih =>
      intro z hi
      rw [List.map_cons, List.mem_cons, not_or] at hi
      have hne : ¬d + q.2 = d + b.2 := fun e => hi.1 (Nat.add_left_cancel e)
      rw [List.foldl_cons, ih _ hi.2, Sheaf.putK, Map.get_put, if_neg hne]
  induction zs generalizing z with
  | nil => cases hq
  | cons b rest ih =>
    obtain ⟨hb, hrest⟩ := List.nodup_cons.1 hn
    rw [List.foldl_cons]
    rcases List.mem_cons.1 hq with rfl | hq
    · rw [hother rest _ hb, Sheaf.putK, Map.get_put, if_pos rfl]
    · exact ih hrest _ hq

/-- Noting the values delivered to threads changes the hash alone. -/
theorem noteValues_eq (g : Group) (vs : List ((Nat × Nat) × List Word)) : ∃ n, noteValues g vs = { g with wHash := n } := by
  unfold noteValues
  generalize vs.filter (fun q => g.members.contains q.1) = qs
  induction qs generalizing g with
  | nil => exact ⟨g.wHash, rfl⟩
  | cons q rest ih =>
    obtain ⟨m, hm⟩ := noteWrites_eq q.2 g
    obtain ⟨n, hn⟩ := ih { g with wHash := m }
    exact ⟨n, by rw [List.foldl_cons, hm, hn]⟩

theorem episode_noteValues (g : Group) (vs : List ((Nat × Nat) × List Word)) : (noteValues g vs).episode = g.episode := by
  obtain ⟨n, h⟩ := noteValues_eq g vs
  rw [h]

/-- The delivery of an LDK's words: they stand in the k registers of their home sheaves. -/
theorem deliverK_spec {s : State} {n d : Nat} {vs : List ((Nat × Nat) × List Word)} {set : OSet} {c : Crew}
    (hc : Map.find? s.crews n = some c) :
    ∃ w, Map.find? (deliverK s n d vs set).crews n = some w ∧ w.st = c.st ∧ (∀ i k, (w.sheaf i).flag k = (c.sheaf i).flag k) ∧
      (∀ grp, (Map.find? w.groups grp).map Group.episode = (Map.find? c.groups grp).map Group.episode) ∧
      ((vs.map fun q => q.1.2).Nodup → ∀ q ∈ vs, q.1.2 < c.sheaves.length → ∀ i, i < q.2.length →
        Map.get (w.sheaf q.1.2).k (d + i) 0 = (q.2[i]?).getD 0) := by
  refine ⟨_, Map.find?_mod_self _ _ _ _ hc, ?_, fun i k => ?_, fun grp => ?_, fun hn q hq hl i hi => ?_⟩
  · exact foldl_keeps (f := fun (c : Crew) (v : (Nat × Nat) × List Word) => c.modSheaf v.1.2 _) Crew.st (fun _ _ => rfl) vs c
  · refine List.foldlRecOn (motive := fun b : Crew => (b.sheaf i).flag k = (c.sheaf i).flag k) vs _ rfl fun b hb v _ => ?_
    refine (Crew.sheaf_modSheaf_prop b v.1.2 i _ (fun z => z.flag k) fun z => ?_).trans hb
    exact foldl_keeps (f := Sheaf.putK d set) (fun z : Sheaf => z.flag k) (fun _ _ => rfl) _ z
  · have hgroups : (vs.foldl (fun c v => c.modSheaf v.1.2 fun z => (v.2.zip (List.range v.2.length)).foldl (fun (z : Sheaf) q =>
        { z with k := Map.put z.k (d + q.2) q.1, kS := Map.put z.kS (d + q.2) set }) z) c).groups = c.groups :=
      foldl_keeps (f := fun (c : Crew) (v : (Nat × Nat) × List Word) => c.modSheaf v.1.2 _) Crew.groups (fun _ _ => rfl) vs c
    simp only [hgroups]
    rw [Map.find?_map_values (fun g => noteValues g vs), Option.map_map]
    exact congrArg (fun f => Option.map f _) (funext fun g => episode_noteValues g vs)
  · have hs := sheaf_foldl_modSheaf (fun v : (Nat × Nat) × List Word => v.1.2)
      (fun v z => (v.2.zip (List.range v.2.length)).foldl (Sheaf.putK d set) z) hn c hq hl
    have hnodup : ((q.2.zip (List.range q.2.length)).map Prod.snd).Nodup := by
      rw [List.map_snd_zip (by simp)]
      exact List.nodup_range
    have hmem : (q.2[i], i) ∈ q.2.zip (List.range q.2.length) := by
      rw [List.mem_iff_getElem]
      exact ⟨i, by simpa using hi, by simp⟩
    refine (congrArg (fun z : Sheaf => Map.get z.k (d + i) 0) hs).trans ?_
    rw [List.getElem?_eq_getElem hi]
    exact k_foldl_putK d set hnodup _ hmem

theorem loadDelivery_loadK {op k n : Nat} {s : State} {o : Op} {c : Crew} {vs : List ((Nat × Nat) × List Word)} {u : OSet} {tab : Map OEntry}
    (hrun : Running s op o c) (hkind : o.kind = .loadK k n) (hsem : o.sem = .rlx) (hflaw : opFlaw s op o = none)
    (hready : loadReady s o c.core = true) (hlost : lostLines s o c.core = [])
    (hres : loadResults s o c.core (whoActs s o.crew o.grid).2.1 false = .ok (vs, u, tab)) (hn : (vs.map fun q => q.1.2).Nodup) :
    Gives (.loadDelivery op) s fun t => Over s t op o ∧ SameMemory s t ∧
      ∀ q ∈ vs, q.1.2 < c.sheaves.length → ∀ i, i < q.2.length →
        Map.get (t.sheafAt o.crew q.1.2).k (k + i) 0 = (q.2[i]?).getD 0 := by
  have hc : Map.find? ({ s with osets := tab } : State).crews o.crew = some c := hrun.crew
  obtain ⟨w, hw, hst, hflag, hep, hk⟩ := deliverK_spec (d := k) (vs := vs) (set := u) hc
  have hexec := exec_loadDelivery hrun.here hflaw
  simp only [loadDelivery, hrun.here, hkind, hrun.crew] at hexec
  rw [deliverLoad_whole hsem hready hlost hres rfl] at hexec
  have hops : (deliverK { s with osets := tab } o.crew k vs u).ops = s.ops := rfl
  have hmem : SameMemory s (deliverK { s with osets := tab } o.crew k vs u) := SameMemory.refl s
  generalize deliverK { s with osets := tab } o.crew k vs u = v at hw hexec hops hmem
  have hrest : v.resting o.crew := resting_of_groupAt (resting_of_running hrun) fun grp => by
    rw [groupAt_of_find hw, groupAt_of_find hrun.crew, hep]
  have hd := cameDown_finishOp (op := op) hw (hst.trans hrun.resident) hrun.homes hrest
  obtain ⟨hgone, hcount⟩ := over_of_cameDown (hops ▸ hrun.ops) hd
  refine ⟨_, hexec, ⟨hgone, fun h i => ?_⟩, hmem.trans hd.memory, fun q hq hl i hi => ?_⟩
  · rw [hcount h i, sheafAt_of_find hw, sheafAt_of_find hrun.crew, hflag]
  · have hfile := hd.files o.crew q.1.2
    rw [sheafAt_of_find (s := { v with ops := Map.del v.ops op }) hw] at hfile
    rw [show ((finishOp v op o).sheafAt o.crew q.1.2).k = (w.sheaf q.1.2).k from (congrArg (·.2.2.1) hfile :)]
    exact hk hn q hq hl i hi

/-! ## Atomics and phase arrivals -/

theorem loadDelivery_atom {op : Nat} {s s1 s2 : State} {o : Op} {c c1 : Crew} {r : RmwOp} {d : Dest} {vs cs olds : List Dword} {u : OSet}
    {tab0 tab : Map OEntry} (hrun : Running s op o c) (hkind : o.kind = .atom r d vs cs) (hsem : o.sem = .rlx) (hflaw : opFlaw s op o = none)
    (hready : rmwReady s op o = true) (htry : tryRmw s o r vs cs (some d) = .ok tab0)
    (hrmw : runRmw (withSets s o tab0) op o r vs cs = .done s1 olds)
    (hjoin : osJoinAll s1.osets o.set (o.accs.map fun a => accSet s1 o.crew a) = .ok (u, tab))
    (hput : deliverRegs { s1 with osets := tab } o.crew d ((o.accs.zip olds).map fun q => ((q.1.lane, q.1.sheaf), [lo32 q.2, hi32 q.2])) u =
      .ok s2) (hrun2 : Running s2 op o c1) :
    Gives (.loadDelivery op) s fun t => Over s2 t op o ∧ SameMemory s2 t ∧
      ∀ h, (t.sheafAt o.crew h).files = (s2.sheafAt o.crew h).files := by
  obtain ⟨hd, hover⟩ := finished_of_running hrun2
  have hgo : ¬(!rmwReady s op o) = true := by simp [hready]
  have hacq : opAcquire s2 o c1.core = s2 := by simp [opAcquire, hsem, semAcq]
  refine ⟨finishOp s2 op o, ?_, hover, hd.memory, fun h => hd.files o.crew h⟩
  rw [exec_loadDelivery hrun.here hflaw]
  simp only [loadDelivery, hrun.here, hkind, deliverAtom, if_neg hgo, htry, hrmw, hjoin, hput, hrun2.crew, hacq]

theorem loadDelivery_phase {op : Nat} {s s1 : State} {o : Op} {c c1 : Crew} {d : Dest} (hrun : Running s op o c) (hkind : o.kind = .barpa d)
    (hput : deliverRegs s o.crew d (o.accs.map fun a => ((a.lane, a.sheaf), [lo32 (Map.get o.got a.lane 0)])) o.set = .ok s1)
    (hrun1 : Running s1 op o c1) :
    Gives (.loadDelivery op) s fun t => Over s1 t op o ∧ SameMemory s1 t ∧
      ∀ h, (t.sheafAt o.crew h).files = (s1.sheafAt o.crew h).files := by
  obtain ⟨hd, hover⟩ := finished_of_running hrun1
  have hflaw : opFlaw s op o = none := by simp [opFlaw, hrun.crew, hkind]
  refine ⟨finishOp s1 op o, ?_, hover, hd.memory, fun h => hd.files o.crew h⟩
  rw [exec_loadDelivery hrun.here hflaw]
  simp only [loadDelivery, hrun.here, hkind, hrun.crew, deliverPhase, hput]

end Sys2Proof.Machine
end

section
/-! SUPPORT. Stores come about, and what a core reads of its store (06_ordering.md R136, R146; 11_isa_memory.md R258). -/

namespace Sys2Proof.Machine

open Sys2Proof.Claims (CrewsStand CrewNow Gives CountedDown)

/-! ## What performing an access leaves: the grids -/

theorem grids_cleanLine (s : State) (core key : Nat) : (cleanLine s core key).grids = s.grids := by
  unfold cleanLine
  split
  · rfl
  · split
    · rfl
    · split <;> rfl

theorem grids_l1Room (s : State) (core key : Nat) : (l1Room s core key).grids = s.grids := by
  unfold l1Room
  dsimp only
  split
  · rfl
  · split
    · exact grids_cleanLine s core _
    · rfl

theorem grids_haveLine (s : State) (core key vf : Nat) (h : Bool) (pcls policy : Nat) : (haveLine s core key vf h pcls policy).grids = s.grids := by
  unfold haveLine
  split
  · rfl
  · exact grids_l1Room s core key

theorem grids_dropOthers (s : State) (core key : Nat) : (dropOthers s core key).grids = s.grids :=
  foldl_keeps (f := fun (s : State) c => s.modCore c fun k => { k with l1 := Map.del k.l1 key }) State.grids (fun _ _ => rfl) _ s

theorem grids_modUnit (s : State) (crew : Nat) (sp : TSpace) (u : Nat) (f : TUnit → TUnit) : (modUnit s crew sp u f).grids = s.grids := by
  unfold modUnit
  split
  · rfl
  · split <;> rfl

theorem grids_putTypeds (s : State) (crew : Nat) (sp : TSpace) (a : Nat) (bs : List Byte) : (putTypeds s crew sp a bs).grids = s.grids := by
  induction bs generalizing s a with
  | nil => rfl
  | cons b rest ih =>
    rw [putTypeds, ih, putTyped]
    split
    · rfl
    · exact grids_modUnit s crew sp _ _

theorem grids_joinUnit {s t : State} {crew u : Nat} {sp : TSpace} {set : OSet} (h : joinUnit s crew sp u set = .ok t) : t.grids = s.grids := by
  unfold joinUnit at h
  split at h
  · cases h; rfl
  · split at h
    · cases h
    · cases h
      exact grids_modUnit _ crew sp u _

theorem grids_joinGranule {s t : State} {dev pa : Nat} {mixed : Bool} {pageSet set : OSet} (h : joinGranule s dev pa mixed pageSet set = .ok t) :
    t.grids = s.grids := by
  unfold joinGranule at h
  split at h
  · split at h <;> cases h
    rfl
  · cases h; rfl

theorem grids_performAcc {s t : State} {core vf : Nat} {h : Bool} {e : StoreEntry} {a : Acc} (hsem : e.sem ≠ .sc)
    (hp : performAcc s core vf h e a = .ok t) : t.grids = s.grids := by
  have hside : ¬(e.sem == .sc && wideScope e.scope && a.dev == 0) = true := by simp [hsem]
  unfold performAcc at hp
  split at hp
  · split at hp <;> cases hp
    rename_i u hu
    exact (grids_putTypeds u _ _ _ _).trans (grids_joinUnit hu)
  · split at hp
    · split at hp
      · cases hp; rfl
      · split at hp <;> cases hp
        rfl
    · split at hp
      · cases hp
      · rename_i u hu
        cases hp
        exact (grids_haveLine _ _ _ _ _ _ _).trans ((grids_dropOthers u _ _).trans (grids_joinGranule hu))

/-! ## A store is performed -/

/-- Two folds whose steps agree wherever a kept property holds. -/
theorem foldE_congr {ε σ α : Type} {f g : σ → α → Except ε σ} {P : σ → Prop} {ys : List α} (hg : ∀ x, ∀ y ∈ ys, P x → g x y = f x y)
    (hP : ∀ x, ∀ y ∈ ys, ∀ z, f x y = .ok z → P x → P z) {x : σ} (hx : P x) : foldE g x ys = foldE f x ys := by
  induction ys generalizing x with
  | nil => rfl
  | cons y rest ih =>
    simp only [foldE, hg x y List.mem_cons_self hx]
    split
    · rfl
    · rename_i z hz
      exact ih (fun x y hy => hg x y (List.mem_cons_of_mem _ hy)) (fun x y hy => hP x y (List.mem_cons_of_mem _ hy))
        (hP x y List.mem_cons_self z hz hx)

theorem sendDue_unrecorded {as : List Acc} (h : ∀ a ∈ as, a.who = none) (s : State) (core vf : Nat) (hc : Bool) (c : CacheP)
    (why : Nat → ReqFor) : sendDue s core vf hc c why as = s := by
  refine List.foldlRecOn (motive := fun t => t = s) _ _ rfl fun t ht p hp => ?_
  have hw : p.1.who = none := h p.1 (List.of_mem_zip hp).1
  rw [if_neg (by simp [hw]), ht]

/-- A relaxed store none of whose accesses is recorded is performed at once. -/
theorem runStore_relaxed {s s1 : State} {core : Nat} {e : StoreEntry} (hsem : e.sem = .rlx) (hout : e.out = none)
    (hacc : ∀ a ∈ e.accs, a.who = none ∧ a.done = false)
    (hput : foldE (fun s (a : Acc) => performAcc s core (whoActs s e.crew e.grid).2.1 (whoActs s e.crew e.grid).2.2 e a)
      (putHead s core { e with flush := e.flush }) e.accs = .ok s1) :
    runStore s core e = endStore (e.accs.foldl (fun s a => putHash s e.crew a a.data) s1) core e := by
  obtain ⟨who, vf, h, hw⟩ : ∃ who vf h, whoActs s e.crew e.grid = (who, vf, h) := ⟨_, _, _, rfl⟩
  have hwho : ∀ t : State, t.grids = s.grids → (whoActs t e.crew e.grid).2 = (vf, h) := fun t ht => by
    rw [show (vf, h) = (whoActs s e.crew e.grid).2 from (congrArg Prod.snd hw).symm]
    simp only [whoActs, ht]
  have hstep : ∀ (x : State) (a : Acc) (z : State),
      performAcc x core (whoActs x e.crew e.grid).2.1 (whoActs x e.crew e.grid).2.2 e a = .ok z → x.grids = s.grids → z.grids = s.grids :=
    fun x a z hz hx => (grids_performAcc (by simp [hsem]) hz).trans hx
  have htry : tryStore (putHead s core { e with flush := e.flush }) core vf h e = .ok s1.osets := by
    have hfold := foldE_congr (g := fun s (a : Acc) => if a.done then .ok s else performAcc s core vf h e { a with who := none })
      (ys := e.accs) (x := putHead s core { e with flush := e.flush })
      (fun x a ha (hx : x.grids = s.grids) => by
        obtain ⟨haw, had⟩ := hacc a ha
        rw [if_neg (by simp [had]), ← haw, hwho x hx])
      (fun x a _ z => hstep x a z) rfl
    simp only [tryStore, hfold, hput]
  have hrun := foldE_congr (g := fun s (a : Acc) => if a.who.isSome then .ok s else performAcc s core vf h e a)
    (ys := e.accs) (x := putHead s core { e with flush := e.flush })
    (fun x a ha (hx : x.grids = s.grids) => by rw [if_neg (by simp [(hacc a ha).1]), hwho x hx])
    (fun x a _ z => hstep x a z) rfl
  obtain ⟨fl, hfl, hrel⟩ : ∃ fl, fl = e.flush ∧ releaseOver s (some core) e.sem e.scope e.flush = (s, fl, true) :=
    ⟨_, rfl, by simp [releaseOver, hsem, semRel]⟩
  have hhead : putHead s core { e with out := none, flush := fl } = putHead s core e := by rw [hfl, ← hout]
  have hany : ¬(e.accs.any fun a => a.who.isSome) = true := by simp; exact fun a ha => (hacc a ha).1
  have hall : ¬(!allRecorded e.accs) = true := by simp [allRecorded]; exact fun a ha h => absurd (hacc a ha).1 h
  have hsc : (scKeys e).isEmpty = true := by simp [scKeys, hsem]
  simp only [runStore, hout, hw, hrel, hhead, Bool.not_true, Bool.false_eq_true, if_false, htry, if_neg hany,
    sendDue_unrecorded (fun a ha => (hacc a ha).1), if_neg hall, hrun, hput, if_pos hsc]

/-! ## The hash of what is stored -/

/-- A home sheaf but for its hash of stores. -/
def Sheaf.besideHash (z : Sheaf) : Sheaf := { z with hash := 0, ckHash := 0 }

theorem besideHash_put (z : Sheaf) (a b : Dword) : ({ z with hash := a, ckHash := b } : Sheaf).besideHash = z.besideHash := rfl

/-- A crew but for its home sheaves. -/
def Crew.besideSheaves (c : Crew) : Crew := { c with sheaves := [] }

/-- A machine in which only hashes of stores have changed. -/
structure Hashed (s t : State) : Prop where
  rest : ({ t with crews := [] } : State) = { s with crews := [] }
  crews : ∀ n, (Map.find? t.crews n).map Crew.besideSheaves = (Map.find? s.crews n).map Crew.besideSheaves
  sheaves : ∀ n h, (t.sheafAt n h).besideHash = (s.sheafAt n h).besideHash

theorem hashed_putHash (s : State) (n : Nat) (a : Acc) (bs : List Byte) : Hashed s (putHash s n a bs) := by
  refine ⟨rfl, fun k => ?_, fun k h => ?_⟩
  · simp only [putHash, State.modCrew, Map.find?_mod]
    split
    · cases Map.find? s.crews k <;> rfl
    · rfl
  · simp only [State.sheafAt, putHash, State.modCrew, Map.find?_mod]
    split
    · cases Map.find? s.crews k with
      | none => rfl
      | some c => exact Crew.sheaf_modSheaf_prop c _ h _ Sheaf.besideHash fun z => besideHash_put z _ _
    · rfl

theorem hashed_putHashes (s : State) (n : Nat) (as : List Acc) : Hashed s (as.foldl (fun s a => putHash s n a a.data) s) := by
  refine List.foldlRecOn (motive := Hashed s) _ _ ⟨rfl, fun _ => rfl, fun _ _ => rfl⟩ fun t ht a _ => ?_
  have hstep := hashed_putHash t n a a.data
  exact ⟨hstep.rest.trans ht.rest, fun k => (hstep.crews k).trans (ht.crews k), fun k h => (hstep.sheaves k h).trans (ht.sheaves k h)⟩

/-- A core without the store of a number. -/
def Core.sansStore (seq : Nat) (k : Core) : Core := { k with storeQ := k.storeQ.filter fun f => f.seq != seq }

theorem storePerformed_gives {core : Nat} {s s1 : State} {e : StoreEntry} {c1 : Crew} (hturn : storeTurn s core = some e)
    (hother : nextOther s core = none) (hready : storeReady s core e = true) (hsem : e.sem = .rlx) (hout : e.out = none)
    (hacc : ∀ a ∈ e.accs, a.who = none ∧ a.done = false) (hn : e.homes.Nodup)
    (hput : foldE (fun s (a : Acc) => performAcc s core (whoActs s e.crew e.grid).2.1 (whoActs s e.crew e.grid).2.2 e a)
      (putHead s core { e with flush := e.flush }) e.accs = .ok s1)
    (hc : Map.find? s1.crews e.crew = some c1) (hep : ∀ p ∈ c1.groups, ∀ x, p.2.episode = some x → x.inUse = false) :
    Gives (.storePerformed core) s fun t => CountedDown s1 t e.crew e.homes e.flag ∧ SameMemory s1 t ∧
      (∀ f ∈ (t.core core).storeQ, f.seq ≠ e.seq) ∧
      (∀ w, Map.find? s1.crews e.crew = some w → CrewNow t e.crew fun c => c.scratch = w.scratch) ∧
      ∀ h, (t.sheafAt e.crew h).files = (s1.sheafAt e.crew h).files := by
  have hexec : exec (.storePerformed core) s = .next (runStore s core e) := by
    show execStorePerformed core s = _
    simp only [execStorePerformed, hturn, hother, hready, if_true]
  rw [runStore_relaxed hsem hout hacc hput] at hexec
  have hh := hashed_putHashes s1 e.crew e.accs
  generalize e.accs.foldl (fun s a => putHash s e.crew a a.data) s1 = v at hexec hh
  have hrest : (v.modCore core (Core.sansStore e.seq)).resting e.crew := by
    refine resting_of_groupAt (resting_of_groups hc hep) fun grp => congrArg (Option.map Group.episode) ?_
    have hg := congrArg (fun o => Option.bind o fun c : Crew => Map.find? c.groups grp) (hh.crews e.crew)
    simp only [Option.bind_map] at hg
    exact hg
  have hd : CameDown (v.modCore core (Core.sansStore e.seq)) (endStore v core e) e.crew e.homes e.flag := cameDown_endMet hn hrest
  refine ⟨_, hexec, fun h k => ?_, ?_, fun f hf => ?_, fun w hw => ?_, fun h => ?_⟩
  · rw [hd.counted h k]
    exact congrArg (· - _) (congrArg (fun z : Sheaf => z.flag k) (hh.sheaves e.crew h) :)
  · have hm : SameMemory s1 v := ⟨(congrArg State.hbm hh.rest :), (congrArg State.host hh.rest :), (congrArg State.store hh.rest :)⟩
    exact hm.trans hd.memory
  · have hq : ((v.modCore core (Core.sansStore e.seq)).core core).storeQ = (v.core core).storeQ.filter fun f => f.seq != e.seq := by
      rw [State.core_modCore, if_pos rfl]
      rfl
    rw [hd.storeQ, hq] at hf
    simpa using (List.mem_filter.1 hf).2
  · have hk := hh.crews e.crew
    rw [hw, Option.map_some, Option.map_eq_some_iff] at hk
    obtain ⟨y, hy, hyw⟩ := hk
    obtain ⟨x, hx, hxy⟩ := hd.find (c := y) hy
    exact ⟨x, hx, (congrArg Crew.scratch hxy :).trans (congrArg Crew.scratch hyw :)⟩
  · exact (hd.files e.crew h).trans (congrArg Sheaf.files (hh.sheaves e.crew h) :)

/-! ## What a core reads of its store -/

theorem l1_keepCap (k : Core) (key : Nat) : Map.find? (keepCap k key).l1 key = Map.find? k.l1 key := by
  unfold keepCap
  dsimp only
  split
  · rfl
  · split
    · rename_i p hp
      have hne : p.1 ≠ key := by simpa using (List.mem_filter.1 (mem_of_leastBy hp)).2
      exact Map.find?_mod_other _ _ _ _ (Ne.symm hne)
    · rfl

theorem l1Line_haveLine (s : State) (core key vf : Nat) (h : Bool) (pcls policy : Nat) :
    ∃ l, l1Line (haveLine s core key vf h pcls policy) core key = some l := by
  unfold haveLine
  split <;>
  · simp only [l1Line, State.core_modCore, if_true, l1_keepCap]
    exact ⟨_, Map.find?_put_self _ _ _⟩

theorem bytes_putDirty {bs : Map Byte} (hn : (bs.map Prod.fst).Nodup) (l : L1Line) {k : Nat} {b : Byte} (hk : (k, b) ∈ bs) :
    Map.find? (putDirty l bs).bytes k = some b := by
  have hother : ∀ (bs : Map Byte) (l : L1Line), k ∉ bs.map Prod.fst → Map.find? (putDirty l bs).bytes k = Map.find? l.bytes k := fun bs => by
    induction bs with
    | nil => exact fun _ _ => rfl
    | cons p rest ih =>
      intro l hk
      rw [List.map_cons, List.mem_cons, not_or] at hk
      refine (ih _ hk.2).trans ?_
      exact Map.find?_put_other _ _ _ _ hk.1
  induction bs generalizing l with
  | nil => cases hk
  | cons p rest ih =>
    obtain ⟨hp, hrest⟩ := List.nodup_cons.1 hn
    rcases List.mem_cons.1 hk with rfl | hk
    · exact (hother rest _ hp).trans (Map.find?_put_self _ _ _)
    · exact ih hrest _ hk

theorem nodup_byteMap (off : Nat) (bs : List Byte) : ((byteMap off bs).map Prod.fst).Nodup := by
  have hk : (byteMap off bs).map Prod.fst = (List.range bs.length).map (off + ·) := by
    refine List.ext_getElem (by simp [byteMap]) fun i h1 h2 => ?_
    simp [byteMap]
  rw [hk]
  exact List.nodup_range.map fun a b h => Nat.add_left_cancel h

/-- A core reads the bytes of its own store into its L1. -/
theorem dieRead_l1Store (s : State) (core vf : Nat) (h : Bool) (pcls policy dev pa : Nat) (bs : List Byte) (set : OSet) (noL2 : Bool)
    (last : FRec) (vf' : Nat) {i : Nat} (hi : i < bs.length) (hline : pa % 64 + bs.length ≤ 64) :
    dieRead (l1Store s core vf h pcls policy dev pa bs set noL2 last) core vf' dev (pa + i) = bs[i] := by
  have hkey : lineKey dev (pa + i) = lineKey dev pa := by
    simp only [lineKey]
    omega
  have hoff : (pa + i) % 64 = pa % 64 + i := by omega
  obtain ⟨l, hl⟩ := l1Line_haveLine (dropOthers s core (lineKey dev pa)) core (lineKey dev pa) vf h pcls policy
  have hmem : (pa % 64 + i, bs[i]) ∈ byteMap (pa % 64) bs :=
    List.mem_mapIdx.2 ⟨i, hi, rfl⟩
  have hbyte := bytes_putDirty (nodup_byteMap (pa % 64) bs) (putDirty l (othersDirty s core (lineKey dev pa))) hmem
  have hread : (l1Line (l1Store s core vf h pcls policy dev pa bs set noL2 last) core (lineKey dev pa)).bind
      (fun l => Map.find? l.bytes (pa % 64 + i)) = some bs[i] := by
    simp only [l1Line, l1Store, State.core_modCore, if_true] at hl ⊢
    rw [Map.find?_mod_self _ _ _ _ hl, Option.bind_some]
    exact hbyte
  simp only [dieRead, hkey, hoff, hread]

theorem dieRead_performAcc {s t : State} {core vf : Nat} {h : Bool} {e : StoreEntry} {a : Acc} (hsp : a.space = .generic) (hsem : e.sem ≠ .sc)
    (hlen : a.data.length = a.n) (hline : a.pa % 64 + a.n ≤ 64) (hp : performAcc s core vf h e a = .ok t) {i : Nat} (hi : i < a.n) :
    dieRead t core vf a.dev (a.pa + i) = (a.data[i]?).getD 0 := by
  have hside : ¬(e.sem == .sc && wideScope e.scope && a.dev == 0) = true := by simp [hsem]
  have hshared : ¬Space.generic = Space.shared := by decide
  simp only [performAcc, hsp, Space.typed, if_neg hshared, if_neg hside] at hp
  split at hp <;> cases hp
  have hi' : i < a.data.length := hlen ▸ hi
  rw [List.getElem?_eq_getElem hi', Option.getD_some]
  exact dieRead_l1Store _ core vf h _ _ _ _ _ _ _ _ vf hi' (hlen ▸ hline)

end Sys2Proof.Machine
end

section
/-! SUPPORT. What the registers of a result hold once it has come, whatever sets it is joined with (02_execution.md R47; 03_registers.md R73,
R83). -/

namespace Sys2Proof.Machine

/-! ## Contexts that differ in origin sets -/

theorem Touch.symm {x y : Iss} (h : Touch x y) : Touch y x :=
  ⟨h.cur.symm, h.grid.symm, h.present.symm, h.active.symm, h.crew.symm, h.count.symm, fun i => (h.sheaf i).symm, h.grp.symm, h.regions.symm⟩

theorem Same.symm {x y : Iss} (h : Same x y) : Same y x := ⟨h.touch.symm, fun c => (h.cells c).symm⟩

/-- Nothing but the sets of a crew's slots changes. -/
theorem same_slotS (x : Iss) (ss : List RegionSets) : Same x (x.onCrew { x.crew with slotS := ss }) := by
  refine ⟨⟨rfl, rfl, rfl, rfl, rfl, rfl, fun _ => rfl, rfl, rfl⟩, fun c => ?_⟩
  cases c <;> rfl

/-! ## What writes leave of the sets -/

theorem putSlotSet_slotS {fam i h : Nat} {m : RegionMap} {s : OSet} {full whole : Bool} {a b : Crew × Map OEntry}
    (hp : putSlotSet fam m i s full whole a h = .ok b) : ∃ ss, b.1 = { a.1 with slotS := ss } := by
  unfold putSlotSet at hp
  dsimp only at hp
  split at hp
  · cases hp; exact ⟨_, rfl⟩
  · split at hp <;> cases hp
    exact ⟨_, rfl⟩

theorem putSlotSet_folds {fam i : Nat} {m : RegionMap} {s : OSet} {full whole : Nat → Bool} {hs : List Nat} {a b : Crew × Map OEntry}
    (hp : foldE (fun a h => putSlotSet fam m i s (full h) (whole h) a h) a hs = .ok b) : ∃ ss, b.1 = { a.1 with slotS := ss } := by
  refine foldE_keeps (P := fun b : Crew × Map OEntry => ∃ ss, b.1 = { a.1 with slotS := ss }) (fun y h z hz hy => ?_) hp ⟨a.1.slotS, rfl⟩
  obtain ⟨ss, hss⟩ := putSlotSet_slotS hz
  obtain ⟨ss', hss'⟩ := hy
  exact ⟨ss, by rw [hss, hss']⟩

theorem putSlotSets_slotS {c c' : Crew} {g : Group} {i : Nat} {ps all : List (Nat × Nat)} {s : OSet} {t t' : Map OEntry}
    (hp : putSlotSets c g i ps all s t = .ok (c', t')) : ∃ ss, c' = { c with slotS := ss } := by
  refine foldE_keeps (P := fun b : Crew × Map OEntry => ∃ ss, b.1 = { c with slotS := ss }) (fun y r z hz hy => ?_) hp ⟨c.slotS, rfl⟩
  unfold putRegionSets at hz
  split at hz
  · cases hz; exact hy
  · obtain ⟨ss, hss⟩ := putSlotSet_folds hz
    obtain ⟨ss', hss'⟩ := hy
    exact ⟨ss, by rw [hss, hss']⟩

theorem writeSlotOf_values {x y : Iss} {i : Nat} {vs : List ((Nat × Nat) × Word)} {all : List (Nat × Nat)} {s : OSet} {t t' : Map OEntry}
    (hp : writeSlotOf x i vs all s t = .ok (y, t')) :
    ∃ ss, y = { x with crew := { x.crew with slotS := ss }, grp := vs.foldl (fun g v => putSlotLane g v.1.1 i v.2) x.grp } := by
  unfold writeSlotOf at hp
  dsimp only at hp
  split at hp
  · cases hp
  · rename_i hs
    cases hp
    obtain ⟨ss, rfl⟩ := putSlotSets_slotS hs
    exact ⟨ss, rfl⟩

/-! ## Main registers -/

/-- A crew with the values of some threads in their main register. -/
def Crew.putMains (c : Crew) (r : Nat) (vs : List ((Nat × Nat) × Word)) : Crew :=
  vs.foldl (fun c v => c.modSheaf v.1.2 fun h => h.setMain r v.1.1 v.2) c

theorem putMains_slotS (r : Nat) (vs : List ((Nat × Nat) × Word)) (c : Crew) (ss : List RegionSets) :
    ({ c with slotS := ss } : Crew).putMains r vs = { c.putMains r vs with slotS := ss } := by
  induction vs generalizing c with
  | nil => rfl
  | cons v rest ih => exact ih (c.modSheaf v.1.2 fun h => h.setMain r v.1.1 v.2)

theorem touch_putMains (r : Nat) (vs : List ((Nat × Nat) × Word)) (x : Iss) : Touch x (x.onCrew (x.crew.putMains r vs)) := by
  induction vs generalizing x with
  | nil => exact Touch.refl x
  | cons v rest ih =>
    exact (touch_modSheaf x v.1.2 (fun h => h.setMain r v.1.1 v.2) fun _ => rfl).trans
      (ih (x.onCrew (x.crew.modSheaf v.1.2 fun h => h.setMain r v.1.1 v.2)))

theorem putMainSet_same {x : Iss} {c : Crew} {h r : Nat} {s : OSet} {full : Bool} {t t' : Map OEntry}
    (hp : putMainSet x.crew h r s full t = .ok (c, t')) : Same x (x.onCrew c) := by
  unfold putMainSet at hp
  split at hp
  · cases hp
    exact same_modSheaf x h _ (fun _ => rfl) fun _ => ⟨rfl, rfl, rfl⟩
  · split at hp <;> cases hp
    exact same_modSheaf x h _ (fun _ => rfl) fun _ => ⟨rfl, rfl, rfl⟩

theorem writeMainOf_same {x y : Iss} {r : Nat} {vs : List ((Nat × Nat) × Word)} {all : List (Nat × Nat)} {s : OSet} {t t' : Map OEntry}
    (he : x.grp.episode = none) (hp : writeMainOf x r vs all s t = .ok (y, t')) : Same (x.onCrew (x.crew.putMains r vs)) y := by
  unfold writeMainOf at hp
  rw [he] at hp
  dsimp only at hp
  split at hp
  · cases hp
  · rename_i c u hf
    cases hp
    have hsets : Same (x.onCrew (x.crew.putMains r vs)) (x.onCrew c) :=
      foldE_keeps (P := fun a : Crew × Map OEntry => Same (x.onCrew (x.crew.putMains r vs)) (x.onCrew a.1))
        (fun a h b hb ha => ha.trans (putMainSet_same (x := x.onCrew a.1) (t' := b.2) hb)) hf (Same.refl _)
    have hnote := same_noteWrites (x.onCrew (stampDirect c r (vs.map (·.1)))) (vs.map (·.2))
    rw [List.foldl_map] at hnote
    have hstamp := same_stampDirect (x.onCrew c) r (vs.map (·.1))
    exact (hsets.trans hstamp).trans hnote

theorem writeMainOf_wrote {x y : Iss} {r : Nat} {vs : List ((Nat × Nat) × Word)} {all : List (Nat × Nat)} {s : OSet} {t t' : Map OEntry}
    (he : x.grp.episode = none) (hs : Sound x (fun p => some (.main p.2 r p.1)) vs) (hp : writeMainOf x r vs all s t = .ok (y, t')) :
    Wrote x y (fun p => some (.main p.2 r p.1)) vs := by
  obtain ⟨P, hfit⟩ := JoinsFit.fit joinsFit_empty
  obtain ⟨y0, t0, h0, hw, _⟩ := writeMainOf_spec hfit x r vs all s hfit.here he hs
  exact hw.same ((writeMainOf_same he h0).symm.trans (writeMainOf_same he hp))

/-! ## Registers under the window -/

/-- A group with the values of some threads in the slots that map their register. -/
def Group.putMapped (f : Nat × Nat → Option Nat) (vs : List ((Nat × Nat) × Word)) (js : List Nat) (g : Group) : Group :=
  js.foldl (fun g j => (vs.filter fun q => f q.1 == some j).foldl (fun g v => putSlotLane g v.1.1 j v.2) g) g

/-- A context with the values of some threads in a register named directly. -/
def Iss.putXreg (x : Iss) (v : Nat) (vs : List ((Nat × Nat) × Word)) : Iss :=
  let mapped := vs.filter fun q => (xregSlot x.grp q.1.1 v).isSome
  let direct := vs.filter fun q => (xregSlot x.grp q.1.1 v).isNone
  { x with grp := Group.putMapped (fun p => xregSlot x.grp p.1 v) mapped (dedup (mapped.filterMap fun q => xregSlot x.grp q.1.1 v)) x.grp,
           crew := if direct.isEmpty then x.crew else x.crew.putMains v direct }

theorem writeMapped_values {f : Nat × Nat → Option Nat} {vs : List ((Nat × Nat) × Word)} {all : List (Nat × Nat)} {s : OSet} {js : List Nat}
    {x y : Iss} {t t' : Map OEntry}
    (hp : foldE (fun (a : Iss × Map OEntry) j => writeSlotOf a.1 j (vs.filter fun q => f q.1 == some j) all s a.2) (x, t) js = .ok (y, t')) :
    ∃ ss, y = { x with crew := { x.crew with slotS := ss }, grp := Group.putMapped f vs js x.grp } := by
  induction js generalizing x t with
  | nil => cases hp; exact ⟨y.crew.slotS, rfl⟩
  | cons j rest ih =>
    simp only [foldE] at hp
    split at hp
    · cases hp
    · rename_i a ha
      obtain ⟨ss, hss⟩ := writeSlotOf_values (t' := a.2) ha
      obtain ⟨ss', hy⟩ := ih (x := a.1) hp
      exact ⟨ss', by rw [hy, hss]; rfl⟩

theorem putMapped_sans (f : Nat × Nat → Option Nat) (vs : List ((Nat × Nat) × Word)) (js : List Nat) (g : Group) :
    (Group.putMapped f vs js g).regions.map Region.sansSlots = g.regions.map Region.sansSlots ∧
    ({ Group.putMapped f vs js g with regions := [], wHash := 0 } : Group) = { g with regions := [], wHash := 0 } := by
  induction js generalizing g with
  | nil => exact ⟨rfl, rfl⟩
  | cons j rest ih =>
    obtain ⟨h1, h2⟩ := putSlotLanes_sans j (vs.filter fun q => f q.1 == some j) g
    obtain ⟨k1, k2⟩ := ih ((vs.filter fun q => f q.1 == some j).foldl (fun g v => putSlotLane g v.1.1 j v.2) g)
    exact ⟨k1.trans h1, k2.trans h2⟩

theorem touch_putXreg (x : Iss) (v : Nat) (vs : List ((Nat × Nat) × Word)) : Touch x (x.putXreg v vs) := by
  obtain ⟨hr, hg⟩ := putMapped_sans (fun p => xregSlot x.grp p.1 v) (vs.filter fun q => (xregSlot x.grp q.1.1 v).isSome)
    (dedup ((vs.filter fun q => (xregSlot x.grp q.1.1 v).isSome).filterMap fun q => xregSlot x.grp q.1.1 v)) x.grp
  have hc : Touch x (x.onCrew (x.putXreg v vs).crew) := by
    unfold Iss.putXreg
    dsimp only
    split
    · exact Touch.refl x
    · exact touch_putMains v _ x
  exact ⟨rfl, rfl, rfl, rfl, hc.crew, hc.count, hc.sheaf, hg, hr⟩

theorem writeXreg_same {x y : Iss} {v : Nat} {vs : List ((Nat × Nat) × Word)} {all : List (Nat × Nat)} {s : OSet} {t t' : Map OEntry}
    (he : x.grp.episode = none) (hp : writeXreg x v vs all s t = .ok (y, t')) : Same (x.putXreg v vs) y := by
  unfold writeXreg at hp
  dsimp only at hp
  split at hp
  · cases hp
  · rename_i z u hz
    obtain ⟨ss, hzx⟩ := writeMapped_values (f := fun p => xregSlot x.grp p.1 v) hz
    have hep : z.grp.episode = none := by
      rw [hzx]
      exact (congrArg Group.episode (putMapped_sans _ _ _ x.grp).2 :).trans he
    split at hp
    · rename_i hd
      cases hp
      have hput : (x.putXreg v vs).crew = x.crew := if_pos hd
      have := same_slotS (x.putXreg v vs) ss
      rw [hput] at this
      rw [hzx]
      exact this
    · rename_i hd
      have hput : (x.putXreg v vs).crew = x.crew.putMains v _ := if_neg hd
      have := same_slotS (x.putXreg v vs) ss
      rw [hput, ← putMains_slotS] at this
      refine this.trans ?_
      have hm := writeMainOf_same hep hp
      rw [hzx] at hm
      exact hm

theorem writeXreg_wrote {x y : Iss} {v : Nat} {vs : List ((Nat × Nat) × Word)} {all : List (Nat × Nat)} {s : OSet} {t t' : Map OEntry}
    (hv : v < 256) (he : x.grp.episode = none) (hs : Sound x (regCell x (.v ⟨v, hv⟩) 0) vs) (hp : writeXreg x v vs all s t = .ok (y, t')) :
    Wrote x y (regCell x (.v ⟨v, hv⟩) 0) vs := by
  obtain ⟨P, hfit⟩ := JoinsFit.fit joinsFit_empty
  obtain ⟨y0, t0, h0, hw, _⟩ := writeReg_spec hfit x (.v ⟨v, hv⟩) 0 vs s hfit.here he hs
  exact hw.same ((writeXreg_same he h0).symm.trans (writeXreg_same he hp))

/-! ## The clean lanes of open slots -/

theorem foldE_regions {one : List Region × Crew × Map OEntry → Region → Except Cause (List Region × Crew × Map OEntry)}
    (hone : ∀ a r b, one a r = .ok b → ∃ r' ss, b.1 = a.1 ++ [r'] ∧ r'.sansSlots = r.sansSlots ∧ b.2.1 = { a.2.1 with slotS := ss })
    {rs : List Region} {a b : List Region × Crew × Map OEntry} (h : foldE one a rs = .ok b) :
    ∃ rs' ss, b.1 = a.1 ++ rs' ∧ rs'.map Region.sansSlots = rs.map Region.sansSlots ∧ b.2.1 = { a.2.1 with slotS := ss } := by
  induction rs generalizing a with
  | nil => cases h; exact ⟨[], b.2.1.slotS, by simp, rfl, rfl⟩
  | cons r rest ih =>
    simp only [foldE] at h
    split at h
    · cases h
    · rename_i z hz
      obtain ⟨r', ss, h1, h2, h3⟩ := hone a r z hz
      obtain ⟨rs', ss', k1, k2, k3⟩ := ih h
      exact ⟨r' :: rs', ss', by simp [k1, h1], by simp [h2, k2], by rw [k3, h3]⟩

theorem putClean_values {x y : Iss} {v : Nat} {vs : List ((Nat × Nat) × Word)} {set : OSet} {t t' : Map OEntry}
    (hp : putClean x v vs set t = .ok (y, t')) :
    ∃ rs ss, y = { x with crew := { x.crew with slotS := ss }, grp := { x.grp with regions := rs } } ∧
      rs.map Region.sansSlots = x.grp.regions.map Region.sansSlots := by
  unfold putClean at hp
  dsimp only at hp
  split at hp
  · cases hp
  · rename_i rs c u hf
    cases hp
    obtain ⟨rs', ss, h1, h2, h3⟩ := foldE_regions (fun a r b hb => by
      split at hb
      · cases hb
        exact ⟨r, a.2.1.slotS, rfl, rfl, rfl⟩
      · split at hb <;> cases hb
        rename_i hs
        obtain ⟨ss, hss⟩ := putSlotSet_folds hs
        exact ⟨_, ss, rfl, rfl, hss⟩) hf
    simp only [List.nil_append] at h1 h3
    exact ⟨rs, ss, by rw [h3], by rw [h1, h2]⟩

/-! ## One register of a result -/

/-- The place that a register of a result takes its value in: the main register for a commit instruction's, else the place that the register's
name reaches. -/
def resultCell (g : Group) (commit : Bool) (v : Nat) (p : Nat × Nat) : Cell :=
  if commit then .main p.2 v p.1
  else match xregSlot g p.1 v with
    | some j => .slot p.1 j
    | none => .main p.2 v p.1

theorem regCell_direct (x : Iss) {v : Nat} (hv : v < 256) (p : Nat × Nat) :
    regCell x (.v ⟨v, hv⟩) 0 p = some (resultCell x.grp false v p) := by
  cases h : xregSlot x.grp p.1 v <;> simp [regCell, resultCell, h]

theorem resultCell_congr {g g' : Group} (h : g'.regions.map Region.sansSlots = g.regions.map Region.sansSlots) (commit : Bool) (v : Nat)
    (p : Nat × Nat) : resultCell g' commit v p = resultCell g commit v p := by
  simp only [resultCell, xregSlot_congr h]

/-- A register of a thread and one of another lane, or another register, are different places. -/
theorem resultCell_inj {g : Group} {commit : Bool} {v v' : Nat} {p p' : Nat × Nat}
    (h : resultCell g commit v p = resultCell g commit v' p') : p.1 = p'.1 ∧ v = v' := by
  cases commit with
  | true =>
    simp only [resultCell, if_true, Cell.main.injEq] at h
    exact ⟨h.2.2, h.2.1⟩
  | false =>
    simp only [resultCell, Bool.false_eq_true, if_false] at h
    split at h
    · rename_i j hj
      split at h
      · rename_i j' hj'
        obtain ⟨hl, rfl⟩ := Cell.slot.inj h
        refine ⟨hl, ?_⟩
        rw [← hl] at hj'
        simp only [xregSlot, Option.bind_eq_some_iff] at hj hj'
        obtain ⟨r, hr, hm⟩ := hj
        obtain ⟨r', hr', hm'⟩ := hj'
        rw [hr] at hr'
        cases hr'
        simp only [mapSlot] at hm hm'
        split at hm <;> split at hm' <;> simp_all
        omega
      · cases h
    · split at h
      · cases h
      · simp only [Cell.main.injEq] at h
        exact ⟨h.2.2, h.2.1⟩

/-- A place that holds what a result's register is to read: any, or for a commit instruction a main register. -/
def Cell.takes (commit : Bool) (c : Cell) : Prop := commit = true → ∃ h r l, c = .main h r l

theorem takes_resultCell (g : Group) (commit : Bool) (v : Nat) (p : Nat × Nat) : (resultCell g commit v p).takes commit := by
  rintro rfl
  exact ⟨_, _, _, rfl⟩

theorem resultReg_touch {x y : Iss} {commit : Bool} {v : Nat} {vs : List ((Nat × Nat) × Word)} {all : List (Nat × Nat)} {set : OSet}
    {t t' : Map OEntry} (he : x.grp.episode = none) (hp : resultReg x commit v vs all set t = .ok (y, t')) : Touch x y := by
  unfold resultReg at hp
  split at hp
  · split at hp
    · cases hp
    · rename_i z u hz
      have hm := writeMainOf_same he hz
      obtain ⟨rs, ss, rfl, hr⟩ := putClean_values hp
      exact ((touch_putMains v vs x).trans hm.touch).trans ⟨rfl, rfl, rfl, rfl, rfl, rfl, fun _ => rfl, rfl, hr⟩
  · exact (touch_putXreg x v vs).trans (writeXreg_same he hp).touch

/-- Threads of distinct lanes that take a register of a result each. -/
structure InLanes {α : Type} (c : Crew) (vs : List ((Nat × Nat) × α)) : Prop where
  here : ∀ q ∈ vs, q.1.1 < 32 ∧ q.1.2 < c.sheaves.length
  apart : ∀ q ∈ vs, ∀ q' ∈ vs, q.1.1 = q'.1.1 → q = q'

theorem resultReg_wrote {x y : Iss} {commit : Bool} {v : Nat} {vs : List ((Nat × Nat) × Word)} {all : List (Nat × Nat)} {set : OSet}
    {t t' : Map OEntry} (hv : v < 256) (he : x.grp.episode = none) (hl : InLanes x.crew vs)
    (hp : resultReg x commit v vs all set t = .ok (y, t')) {c : Cell} (hc : c.takes commit) :
    (∀ q ∈ vs, resultCell x.grp commit v q.1 = c → y.cell c = (x.cell c).map fun _ => q.2) ∧
    ((∀ q ∈ vs, resultCell x.grp commit v q.1 ≠ c) → y.cell c = x.cell c) := by
  unfold resultReg at hp
  cases commit with
  | true =>
    simp only [if_true] at hp
    split at hp
    · cases hp
    · rename_i z u hz
      have hw := writeMainOf_wrote he ⟨fun q hq => (hl.here q hq).1, fun q hq => (hl.here q hq).2, fun q hq q' hq' c h h' => by
        cases h
        simp only [Option.some.injEq, Cell.main.injEq] at h'
        rw [hl.apart q hq q' hq' h'.2.2.symm]⟩ hz
      obtain ⟨rs, ss, rfl, -⟩ := putClean_values hp
      obtain ⟨h, r, l, rfl⟩ := hc rfl
      exact ⟨fun q hq e => hw.hit q hq _ (congrArg some e), fun hn => hw.miss _ fun q hq e => hn q hq (Option.some.inj e)⟩
  | false =>
    have hw := writeXreg_wrote hv he ⟨fun q hq => (hl.here q hq).1, fun q hq => (hl.here q hq).2, fun q hq q' hq' c h h' => by
      rw [regCell_direct, Option.some.injEq] at h h'
      rw [hl.apart q hq q' hq' (resultCell_inj (h.trans h'.symm)).1]⟩ hp
    exact ⟨fun q hq e => hw.hit q hq c (by rw [regCell_direct, e]),
      fun hn => hw.miss c fun q hq e => hn q hq (by rw [regCell_direct] at e; exact Option.some.inj e)⟩

/-! ## The registers of a result -/

/-- What the steps of a fold that may stop keep for its elements, the fold keeps. -/
theorem foldE_keeps_mem {ε σ α : Type} {f : σ → α → Except ε σ} {P : σ → Prop} {ys : List α} (hP : ∀ y ∈ ys, ∀ x z, f x y = .ok z → P x → P z)
    {x z : σ} (h : foldE f x ys = .ok z) (hx : P x) : P z := by
  induction ys generalizing x with
  | nil => cases h; exact hx
  | cons y rest ih =>
    simp only [foldE] at h
    split at h
    · cases h
    · rename_i w hw
      exact ih (fun y hy => hP y (List.mem_cons_of_mem _ hy)) h (hP y List.mem_cons_self x w hw hx)

/-- What one element of a fold settles and the others keep stands at its end. -/
theorem foldE_settles {ε σ α : Type} {f : σ → α → Except ε σ} {P Q : σ → Prop} {ys : List α} {a : α}
    (hP : ∀ y ∈ ys, ∀ x z, f x y = .ok z → P x → P z) (hset : ∀ x z, f x a = .ok z → P x → Q z)
    (hkeep : ∀ y ∈ ys, ∀ x z, y ≠ a → f x y = .ok z → P x → Q x → Q z) {x z : σ} (h : foldE f x ys = .ok z) (hx : P x)
    (ha : a ∈ ys ∨ Q x) : Q z := by
  induction ys generalizing x with
  | nil =>
    cases h
    exact ha.resolve_left (fun h => nomatch h)
  | cons y rest ih =>
    simp only [foldE] at h
    split at h
    · cases h
    · rename_i w hw
      refine ih (fun y hy => hP y (List.mem_cons_of_mem _ hy)) (fun y hy => hkeep y (List.mem_cons_of_mem _ hy)) h
        (hP y List.mem_cons_self x w hw hx) ?_
      by_cases hya : y = a
      · subst hya
        exact .inr (hset x w hw hx)
      · exact ha.imp (fun hmem => (List.mem_cons.1 hmem).resolve_left (Ne.symm hya)) (hkeep y List.mem_cons_self x w hya hw hx)

theorem resultRegs_touch {x y : Iss} {d : Dest} {vs : List ((Nat × Nat) × List Word)} {all : List (Nat × Nat)} {set : OSet}
    {t t' : Map OEntry} (he : x.grp.episode = none) (hp : resultRegs x d vs all set t = .ok (y, t')) : Touch x y := by
  refine foldE_keeps (P := fun a : Iss × Map OEntry => Touch x a.1) (fun a i b hb ha => ?_) hp (Touch.refl x)
  exact foldE_keeps (P := fun a : Iss × Map OEntry => Touch x a.1)
    (fun a v b hb ha => ha.trans (resultReg_touch (t' := b.2) (ha.episode.trans he) hb)) hb ha

section
variable {x : Iss} {d : Dest} {vs : List ((Nat × Nat) × List Word)} {all : List (Nat × Nat)} {set : OSet} (he : x.grp.episode = none)
  (hl : InLanes x.crew vs) (hregs : ∀ q ∈ vs, ∀ i, i < d.regs → ∀ v, d.mainReg q.1.1 i = some v → v < 256)

/-- One register of a result, for one of the main registers that it stands in. -/
def resultStep (d : Dest) (vs : List ((Nat × Nat) × List Word)) (all : List (Nat × Nat)) (set : OSet) (i : Nat) (b : Iss × Map OEntry) (v : Nat) :
    Except Stop (Iss × Map OEntry) :=
  resultReg b.1 d.commit v ((vs.filter fun q => d.mainReg q.1.1 i == some v).map fun q => (q.1, (q.2[i]?).getD 0))
    (all.filter fun q => d.mainReg q.1 i == some v) set b.2

/-- A place of a context that still holds a value where it held one. -/
structure Pending (x : Iss) (c : Cell) (u : Word) (a : Iss × Map OEntry) : Prop where
  touch : Touch x a.1
  place : (a.1.cell c).map (fun _ => u) = (x.cell c).map fun _ => u

/-- A place of a context that has taken a word where it held a value. -/
def Landed (x : Iss) (c : Cell) (u : Word) (a : Iss × Map OEntry) : Prop := a.1.cell c = (x.cell c).map fun _ => u

include he

theorem resultStep_touch {k w : Nat} {a b : Iss × Map OEntry} (ha : Touch x a.1) (hb : resultStep d vs all set k a w = .ok b) :
    Touch x b.1 := ha.trans (resultReg_touch (t' := b.2) (ha.episode.trans he) hb)

include hl hregs

theorem resultStep_wrote {a b : Iss × Map OEntry} {i v : Nat} (ha : Touch x a.1) (hi : i < d.regs)
    (hv : v ∈ dedup (vs.filterMap fun q => d.mainReg q.1.1 i)) (hb : resultStep d vs all set i a v = .ok b) {c : Cell}
    (hc : c.takes d.commit) :
    (∀ q ∈ vs, d.mainReg q.1.1 i = some v → resultCell x.grp d.commit v q.1 = c →
      b.1.cell c = (a.1.cell c).map fun _ => (q.2[i]?).getD 0) ∧
    ((∀ q ∈ vs, d.mainReg q.1.1 i = some v → resultCell x.grp d.commit v q.1 ≠ c) → b.1.cell c = a.1.cell c) := by
  obtain ⟨q0, hq0, hm0⟩ := List.mem_filterMap.1 ((mem_dedup v _).1 hv)
  have hin : InLanes a.1.crew ((vs.filter fun q => d.mainReg q.1.1 i == some v).map fun q => (q.1, (q.2[i]?).getD 0)) := by
    refine ⟨fun r hr => ?_, fun r hr r' hr' hrr => ?_⟩
    · obtain ⟨q, hq, rfl⟩ := List.mem_map.1 hr
      rw [ha.count]
      exact hl.here q (List.mem_filter.1 hq).1
    · obtain ⟨q, hq, rfl⟩ := List.mem_map.1 hr
      obtain ⟨q', hq', rfl⟩ := List.mem_map.1 hr'
      rw [hl.apart q (List.mem_filter.1 hq).1 q' (List.mem_filter.1 hq').1 hrr]
  obtain ⟨hit, miss⟩ := resultReg_wrote (t' := b.2) (hregs q0 hq0 i hi v hm0) (ha.episode.trans he) hin hb hc
  refine ⟨fun q hq hm e => hit (q.1, (q.2[i]?).getD 0) ?_ (by rw [resultCell_congr ha.regions, e]), fun hn => miss fun r hr => ?_⟩
  · exact List.mem_map.2 ⟨q, List.mem_filter.2 ⟨hq, by simp [hm]⟩, rfl⟩
  · obtain ⟨q, hq, rfl⟩ := List.mem_map.1 hr
    obtain ⟨hqv, hqm⟩ := List.mem_filter.1 hq
    rw [resultCell_congr ha.regions]
    exact hn q hqv (by simpa using hqm)

/-- A result leaves a place that is none of its registers'. -/
theorem resultRegs_miss {y : Iss} {t t' : Map OEntry} (hp : resultRegs x d vs all set t = .ok (y, t')) {c : Cell} (hc : c.takes d.commit)
    (hn : ∀ q ∈ vs, ∀ v, resultCell x.grp d.commit v q.1 ≠ c) : y.cell c = x.cell c := by
  refine (foldE_keeps_mem (P := fun a : Iss × Map OEntry => Touch x a.1 ∧ a.1.cell c = x.cell c) (fun i hi a b hb ha => ?_) hp
    ⟨Touch.refl x, rfl⟩).2
  refine foldE_keeps_mem (f := resultStep d vs all set i) (P := fun a : Iss × Map OEntry => Touch x a.1 ∧ a.1.cell c = x.cell c)
    (fun v hv a b hb ha => ⟨resultStep_touch he ha.1 hb, ?_⟩) hb ha
  exact ((resultStep_wrote he hl hregs ha.1 (List.mem_range.1 hi) hv hb hc).2 fun q hq _ => hn q hq v).trans ha.2

variable {q : (Nat × Nat) × List Word} (hq : q ∈ vs)
  (hdist : ∀ i j, i < d.regs → j < d.regs → d.mainReg q.1.1 i = d.mainReg q.1.1 j → d.mainReg q.1.1 i ≠ none → i = j)
  {i v : Nat} (hi : i < d.regs) (hv : d.mainReg q.1.1 i = some v)
include hq hv

/-- A thread's register takes its word with the register's own step. -/
theorem resultStep_own {a b : Iss × Map OEntry} (hi : i < d.regs) (ha : Touch x a.1) (hb : resultStep d vs all set i a v = .ok b) :
    b.1.cell (resultCell x.grp d.commit v q.1) = (a.1.cell (resultCell x.grp d.commit v q.1)).map fun _ => (q.2[i]?).getD 0 :=
  (resultStep_wrote he hl hregs ha hi ((mem_dedup _ _).2 (List.mem_filterMap.2 ⟨q, hq, hv⟩)) hb (takes_resultCell _ _ _ _)).1 q hq hv rfl

include hdist hi

/-- The steps of other registers leave a thread's register. -/
theorem resultStep_other {k w : Nat} {a b : Iss × Map OEntry} (hk : k < d.regs) (hw : w ∈ dedup (vs.filterMap fun q => d.mainReg q.1.1 k))
    (hne : ¬(k = i ∧ w = v)) (ha : Touch x a.1) (hb : resultStep d vs all set k a w = .ok b) :
    b.1.cell (resultCell x.grp d.commit v q.1) = a.1.cell (resultCell x.grp d.commit v q.1) :=
  (resultStep_wrote he hl hregs ha hk hw hb (takes_resultCell _ _ _ _)).2 fun r hr hm e => by
    obtain ⟨hlane, rfl⟩ := resultCell_inj e
    obtain rfl := hl.apart r hr q hq hlane
    exact hne ⟨hdist k i hk hi (hm.trans hv.symm) (by simp [hm]), rfl⟩

theorem resultStep_pending {k w : Nat} {a b : Iss × Map OEntry} (hk : k < d.regs)
    (hw : w ∈ dedup (vs.filterMap fun q => d.mainReg q.1.1 k)) (hb : resultStep d vs all set k a w = .ok b)
    (ha : Pending x (resultCell x.grp d.commit v q.1) ((q.2[i]?).getD 0) a) :
    Pending x (resultCell x.grp d.commit v q.1) ((q.2[i]?).getD 0) b := by
  refine ⟨resultStep_touch he ha.touch hb, ?_⟩
  by_cases e : k = i ∧ w = v
  · obtain ⟨rfl, rfl⟩ := e
    rw [resultStep_own he hl hregs hq hv hi ha.touch hb, Option.map_map]
    exact ha.place
  · rw [resultStep_other he hl hregs hq hdist hi hv hk hw e ha.touch hb]
    exact ha.place

/-- A result's registers hold its words. -/
theorem resultRegs_hit {y : Iss} {t t' : Map OEntry} (hp : resultRegs x d vs all set t = .ok (y, t')) :
    y.cell (resultCell x.grp d.commit v q.1) = (x.cell (resultCell x.grp d.commit v q.1)).map fun _ => (q.2[i]?).getD 0 := by
  have hpending : ∀ k < d.regs, ∀ a b : Iss × Map OEntry,
      foldE (resultStep d vs all set k) a (dedup (vs.filterMap fun q => d.mainReg q.1.1 k)) = .ok b →
      Pending x (resultCell x.grp d.commit v q.1) ((q.2[i]?).getD 0) a → Pending x (resultCell x.grp d.commit v q.1) ((q.2[i]?).getD 0) b :=
    fun k hk _ _ hb ha => foldE_keeps_mem (fun w hw _ _ hb ha => resultStep_pending he hl hregs hq hdist hi hv hk hw hb ha) hb ha
  refine foldE_settles (P := Pending x (resultCell x.grp d.commit v q.1) ((q.2[i]?).getD 0))
    (Q := Landed x (resultCell x.grp d.commit v q.1) ((q.2[i]?).getD 0)) (a := i) (fun k hk => hpending k (List.mem_range.1 hk))
    (fun a b hb ha => ?_) (fun k hk a b hne hb ha hQ => ?_) hp ⟨Touch.refl x, rfl⟩ (.inl (List.mem_range.2 hi))
  · refine foldE_settles (a := v) (fun w hw a b hb ha => resultStep_pending he hl hregs hq hdist hi hv hi hw hb ha)
      (fun a b hb ha => (resultStep_own he hl hregs hq hv hi ha.touch hb).trans ha.place)
      (fun w hw a b hne hb ha hQ => (resultStep_other he hl hregs hq hdist hi hv hi hw (fun e => hne e.2) ha.touch hb).trans hQ) hb ha
      (.inl ((mem_dedup _ _).2 (List.mem_filterMap.2 ⟨q, hq, hv⟩)))
  · have hkept := foldE_keeps_mem (f := resultStep d vs all set k)
      (P := fun a => Touch x a.1 ∧ Landed x (resultCell x.grp d.commit v q.1) ((q.2[i]?).getD 0) a) (fun w hw a b hb ha =>
        ⟨resultStep_touch he ha.1 hb,
          (resultStep_other he hl hregs hq hdist hi hv (List.mem_range.1 hk) hw (fun e => hne e.1) ha.1 hb).trans ha.2⟩) hb ⟨ha.touch, hQ⟩
    exact hkept.2

end

end Sys2Proof.Machine
end

section
/-! SUPPORT. A result comes to the threads of one issue group, its parts together, and to those of every issue group of its crew
(02_execution.md R37, R47; 03_registers.md R84; 11_isa_memory.md R258). -/

namespace Sys2Proof.Machine

open Sys2Proof.Claims (wordNow Deliverable)

/-! ## Maps in form -/

theorem Map.nodup_keys {α : Type} {m : Map α} (h : Map.wf m = true) : (m.map Prod.fst).Nodup := by
  induction m with
  | nil => exact List.nodup_nil
  | cons p rest ih =>
    obtain ⟨hlt, hrest⟩ := Map.wf_cons h
    refine List.nodup_cons.2 ⟨fun hmem => ?_, ih hrest⟩
    obtain ⟨q, hq, e⟩ := List.mem_map.1 hmem
    exact absurd (hlt q hq) (by omega)

theorem Map.find?_of_mem {α : Type} {m : Map α} (h : Map.wf m = true) {k : Nat} {a : α} (hk : (k, a) ∈ m) : Map.find? m k = some a := by
  induction m with
  | nil => cases hk
  | cons p rest ih =>
    obtain ⟨hlt, hrest⟩ := Map.wf_cons h
    rcases List.mem_cons.1 hk with rfl | hk
    · simp [Map.find?]
    · have hp := hlt _ hk
      simp only [Map.find?, if_neg (Nat.ne_of_lt hp), if_neg (Nat.not_lt_of_lt hp)]
      exact ih hrest hk

theorem Map.wf_put {α : Type} {m : Map α} (h : Map.wf m = true) (k : Nat) (a : α) : Map.wf (Map.put m k a) = true := by
  induction m with
  | nil => rfl
  | cons p rest ih =>
    obtain ⟨hlt, hrest⟩ := Map.wf_cons h
    simp only [Map.put]
    split
    · rename_i hk
      simp only [Map.wf, List.all_cons, Bool.and_eq_true, decide_eq_true_eq, List.all_eq_true]
      exact ⟨⟨hk, fun q hq => hk.trans (hlt q hq)⟩, hlt, hrest⟩
    · split
      · rename_i hk
        simp only [Map.wf, Bool.and_eq_true, decide_eq_true_eq, List.all_eq_true]
        exact ⟨fun q hq => hk ▸ hlt q hq, hrest⟩
      · simp only [Map.wf, Bool.and_eq_true, decide_eq_true_eq, List.all_eq_true]
        refine ⟨fun q hq => ?_, ih hrest⟩
        rcases Map.mem_put hq with rfl | hq
        · show p.1 < k
          omega
        · exact hlt q hq

/-- Several values put into a map. -/
def Map.puts {α : Type} (m : Map α) (gs : List (Nat × α)) : Map α := gs.foldl (fun m q => Map.put m q.1 q.2) m

theorem Map.wf_puts {α : Type} {m : Map α} (h : Map.wf m = true) (gs : List (Nat × α)) : Map.wf (m.puts gs) = true :=
  List.foldlRecOn (motive := fun m => Map.wf m = true) _ _ h fun _ hm q _ => Map.wf_put hm q.1 q.2

theorem Map.mem_puts {α : Type} {m : Map α} {gs : List (Nat × α)} {p : Nat × α} (h : p ∈ m.puts gs) : p ∈ gs ∨ p ∈ m := by
  induction gs generalizing m with
  | nil => exact .inr h
  | cons q rest ih =>
    rcases ih (m := Map.put m q.1 q.2) h with h | h
    · exact .inl (List.mem_cons_of_mem _ h)
    · exact (Map.mem_put h).imp (fun e => by rw [e]; exact List.mem_cons_self) id

theorem Map.find?_puts_other {α : Type} (m : Map α) {gs : List (Nat × α)} {n : Nat} (h : n ∉ gs.map Prod.fst) :
    Map.find? (m.puts gs) n = Map.find? m n := by
  induction gs generalizing m with
  | nil => rfl
  | cons q rest ih =>
    rw [List.map_cons, List.mem_cons, not_or] at h
    exact (ih _ h.2).trans (Map.find?_put_other _ _ _ _ h.1)

theorem Map.find?_puts_mem {α : Type} (m : Map α) {gs : List (Nat × α)} (hn : (gs.map Prod.fst).Nodup) {n : Nat} {a : α} (h : (n, a) ∈ gs) :
    Map.find? (m.puts gs) n = some a := by
  induction gs generalizing m with
  | nil => cases h
  | cons q rest ih =>
    obtain ⟨hq, hrest⟩ := List.nodup_cons.1 hn
    rcases List.mem_cons.1 h with rfl | h
    · exact (Map.find?_puts_other _ hq).trans (Map.find?_put_self _ _ _)
    · exact ih _ hrest h

/-! ## The parts of an issue group -/

theorem keys_splitRegions (ps : List (Nat × Group)) (rs : List Region) : (splitRegions ps rs).map Prod.fst = ps.map Prod.fst := by
  induction ps generalizing rs with
  | nil => rfl
  | cons p rest ih => simp [splitRegions, ih]

theorem splitRegions_self (ps : List (Nat × Group)) : splitRegions ps (ps.flatMap fun p => p.2.regions) = ps := by
  induction ps with
  | nil => rfl
  | cons p rest ih => simp [splitRegions, ih]

theorem mem_splitRegions {ps : List (Nat × Group)} {rs : List Region} {q : Nat × Group} (h : q ∈ splitRegions ps rs) :
    ∃ p ∈ ps, p.1 = q.1 ∧ ∃ seg, q.2 = { p.2 with regions := seg } := by
  induction ps generalizing rs with
  | nil => cases h
  | cons p rest ih =>
    rcases List.mem_cons.1 h with rfl | h
    · exact ⟨p, List.mem_cons_self, rfl, _, rfl⟩
    · obtain ⟨p', hp', hs⟩ := ih h
      exact ⟨p', List.mem_cons_of_mem _ hp', hs⟩

/-- No region of some parts is open for a lane. -/
theorem find?_region_none {rs : List Region} {ps : List (Nat × Group)}
    (hr : rs.map Region.sansSlots = (ps.flatMap fun p => p.2.regions).map Region.sansSlots) {l : Nat}
    (hl : ∀ p ∈ ps, ∀ r ∈ p.2.regions, l ∉ r.lanes) : (rs.find? fun r => r.lanes.contains l) = none := by
  refine List.find?_eq_none.2 fun r hmem => ?_
  have hs : r.sansSlots ∈ (ps.flatMap fun p => p.2.regions).map Region.sansSlots := hr ▸ List.mem_map_of_mem hmem
  obtain ⟨r', hr', e⟩ := List.mem_map.1 hs
  obtain ⟨p, hp, hpr⟩ := List.mem_flatMap.1 hr'
  have hlanes : r.lanes = r'.lanes := (congrArg Region.lanes e :).symm
  rw [hlanes]
  simpa using hl p hp r' hpr

/-- The regions that a part of an issue group takes of those of the whole: where no other part is open for a lane, its region is the
whole's. -/
theorem splitRegions_part {ps : List (Nat × Group)} {rs : List Region} (hn : (ps.map Prod.fst).Nodup)
    (hr : rs.map Region.sansSlots = (ps.flatMap fun p => p.2.regions).map Region.sansSlots) {n : Nat} {g : Group} (h : (n, g) ∈ ps) :
    ∃ seg, (n, { g with regions := seg }) ∈ splitRegions ps rs ∧ seg.map Region.sansSlots = g.regions.map Region.sansSlots ∧
      ∀ l, (∀ p ∈ ps, p.1 ≠ n → ∀ r ∈ p.2.regions, l ∉ r.lanes) →
        (seg.find? fun r => r.lanes.contains l) = rs.find? fun r => r.lanes.contains l := by
  induction ps generalizing rs with
  | nil => cases h
  | cons p rest ih =>
    obtain ⟨hp, hrest⟩ := List.nodup_cons.1 hn
    simp only [List.flatMap_cons, List.map_append] at hr
    obtain ⟨as, bs, rfl, ha, hb⟩ := List.map_eq_append_iff.1 hr
    have hlen : as.length = p.2.regions.length := by simpa using congrArg List.length ha
    have hsplit : splitRegions (p :: rest) (as ++ bs) = (p.1, { p.2 with regions := as }) :: splitRegions rest bs := by
      simp [splitRegions, ← hlen]
    rw [hsplit]
    rcases List.mem_cons.1 h with rfl | h
    · refine ⟨as, List.mem_cons_self, ha, fun l hl => ?_⟩
      have hne : ∀ q ∈ rest, q.1 ≠ n := fun q hq e => hp (List.mem_map.2 ⟨q, hq, e⟩)
      rw [List.find?_append, find?_region_none hb fun q hq => hl q (List.mem_cons_of_mem _ hq) (hne q hq), Option.or_none]
    · obtain ⟨seg, h1, h2, h3⟩ := ih hrest hb h
      refine ⟨seg, List.mem_cons_of_mem _ h1, h2, fun l hl => ?_⟩
      have hne : p.1 ≠ n := fun e => hp (e ▸ List.mem_map_of_mem h)
      have hnone : (as.find? fun r => r.lanes.contains l) = none :=
        find?_region_none (ps := [p]) (by simpa using ha) fun q hq => by
          obtain rfl := List.mem_singleton.1 hq
          exact hl q List.mem_cons_self hne
      rw [List.find?_append, hnone, Option.none_or]
      exact h3 l fun q hq => hl q (List.mem_cons_of_mem _ hq)

/-! ## A result and its crew -/

/-- What the i-th main register of a result is to read in a thread of a group: the main register for a commit instruction's, else what its
name reads. -/
def Crew.reads (c : Crew) (g : Group) (commit : Bool) (v : Nat) (p : Nat × Nat) : Option Word :=
  if commit then some ((c.sheaf p.2).mainAt v p.1) else wordNow c g v p

/-- A context in which a thread's lane stands in the region it stands in in its group. -/
theorem cell_resultCell {x : Iss} {g : Group} {p : Nat × Nat} (h : regionOf x.grp p.1 = regionOf g p.1) (commit : Bool) (v : Nat) :
    x.cell (resultCell x.grp commit v p) = x.crew.reads g commit v p := by
  have hx : xregSlot x.grp p.1 v = xregSlot g p.1 v := by simp only [xregSlot, h]
  have hs : ∀ j, slotOf x.grp p.1 j = slotOf g p.1 j := fun j => by simp only [slotOf, h]
  cases commit with
  | true => rfl
  | false =>
    simp only [resultCell, Crew.reads, wordNow, Bool.false_eq_true, if_false, hx]
    cases xregSlot g p.1 v with
    | none => rfl
    | some j => simp only [Iss.cell, hs]

/-- A group but for what its regions' slots hold and its hash of values. -/
def Group.shape (g : Group) : Group := { g with regions := g.regions.map Region.sansSlots, wHash := 0 }

/-- A crew as a result leaves it: but for the registers of its threads, as it was. -/
structure Brought (c c' : Crew) : Prop where
  rest : { c' with sheaves := [], slotS := [], groups := [] } = { c with sheaves := [], slotS := [], groups := [] }
  count : c'.sheaves.length = c.sheaves.length
  sheaf : ∀ i, (c'.sheaf i).sansFile = (c.sheaf i).sansFile
  episodes : ∀ p ∈ c'.groups, ∃ q ∈ c.groups, p.2.episode = q.2.episode

theorem Brought.refl (c : Crew) : Brought c c := ⟨rfl, rfl, fun _ => rfl, fun p hp => ⟨p, hp, rfl⟩⟩

theorem Brought.trans {a b c : Crew} (h : Brought a b) (k : Brought b c) : Brought a c :=
  ⟨k.rest.trans h.rest, k.count.trans h.count, fun i => (k.sheaf i).trans (h.sheaf i), fun p hp => by
    obtain ⟨q, hq, e⟩ := k.episodes p hp
    obtain ⟨r, hr, e'⟩ := h.episodes q hq
    exact ⟨r, hr, e.trans e'⟩⟩

/-- A result is delivered to places that the groups of a crew hold, each thread to its own. -/
structure Placed (c : Crew) (d : Dest) (vs : List ((Nat × Nat) × List Word)) : Prop where
  groups : Map.wf c.groups = true
  apart : ∀ n n' g g', Map.find? c.groups n = some g → Map.find? c.groups n' = some g' → n ≠ n' → ∀ p ∈ g.members, p ∉ g'.members
  lanes : ∀ n g, Map.find? c.groups n = some g → (lanesIn g.members).Nodup
  parts : ∀ n n' g g', Map.find? c.groups n = some g → Map.find? c.groups n' = some g' → n ≠ n' → g.family = g'.family →
    ∀ l ∈ lanesIn g.members, l ∉ lanesIn g'.members
  own : ∀ n g, Map.find? c.groups n = some g → ∀ r ∈ g.regions, ∀ l ∈ r.lanes, l ∈ lanesIn g.members
  threads : (vs.map Prod.fst).Nodup
  inLane : ∀ q ∈ vs, q.1.1 < 32 ∧ q.1.2 < c.sheaves.length
  regs : ∀ q ∈ vs, ∀ i, i < d.regs → ∀ v, d.mainReg q.1.1 i = some v → v < 256
  distinct : ∀ q ∈ vs, ∀ i j, i < d.regs → j < d.regs → d.mainReg q.1.1 i = d.mainReg q.1.1 j → d.mainReg q.1.1 i ≠ none → i = j

theorem placed_of_deliverable {c : Crew} {d : Dest} {vs : List ((Nat × Nat) × List Word)} (h : Deliverable c d vs) : Placed c d vs :=
  ⟨h.groups, h.apart, h.lanes, h.parts, h.own, h.threads, h.inLane, h.regs, h.distinct⟩

/-- The groups of a crew with the shape they had. -/
structure SameShape (c c' : Crew) : Prop where
  wf : Map.wf c.groups = true → Map.wf c'.groups = true
  groups : Map.wf c.groups = true → ∀ n, (Map.find? c'.groups n).map Group.shape = (Map.find? c.groups n).map Group.shape
  count : c'.sheaves.length = c.sheaves.length

theorem SameShape.refl (c : Crew) : SameShape c c := ⟨id, fun _ _ => rfl, rfl⟩

theorem SameShape.trans {a b c : Crew} (h : SameShape a b) (k : SameShape b c) : SameShape a c :=
  ⟨fun w => k.wf (h.wf w), fun w n => (k.groups (h.wf w) n).trans (h.groups w n), k.count.trans h.count⟩

theorem SameShape.find {c c' : Crew} (h : SameShape c c') (hwf : Map.wf c.groups = true) {n : Nat} {g : Group}
    (hg : Map.find? c'.groups n = some g) : ∃ g0, Map.find? c.groups n = some g0 ∧ g0.shape = g.shape := by
  have hs := h.groups hwf n
  rw [hg, Option.map_some, eq_comm, Option.map_eq_some_iff] at hs
  exact hs

theorem Placed.of_shape {c c' : Crew} {d : Dest} {vs : List ((Nat × Nat) × List Word)} (h : Placed c d vs) (k : SameShape c c') :
    Placed c' d vs := by
  have members : ∀ {g g' : Group}, g.shape = g'.shape → g'.members = g.members := fun e => (congrArg Group.members e :).symm
  have family : ∀ {g g' : Group}, g.shape = g'.shape → g'.family = g.family := fun e => (congrArg Group.family e :).symm
  refine ⟨k.wf h.groups, fun n n' g g' hg hg' => ?_, fun n g hg => ?_, fun n n' g g' hg hg' => ?_, fun n g hg r hr => ?_, h.threads,
    fun q hq => k.count ▸ h.inLane q hq, h.regs, h.distinct⟩
  · obtain ⟨g0, h0, e0⟩ := k.find h.groups hg
    obtain ⟨g1, h1, e1⟩ := k.find h.groups hg'
    rw [members e0, members e1]
    exact h.apart n n' g0 g1 h0 h1
  · obtain ⟨g0, h0, e0⟩ := k.find h.groups hg
    rw [members e0]
    exact h.lanes n g0 h0
  · obtain ⟨g0, h0, e0⟩ := k.find h.groups hg
    obtain ⟨g1, h1, e1⟩ := k.find h.groups hg'
    rw [members e0, members e1, family e0, family e1]
    exact h.parts n n' g0 g1 h0 h1
  · obtain ⟨g0, h0, e0⟩ := k.find h.groups hg
    have hregions : g0.regions.map Region.sansSlots = g.regions.map Region.sansSlots := congrArg Group.regions e0
    have hmem : r.sansSlots ∈ g0.regions.map Region.sansSlots := hregions ▸ List.mem_map_of_mem hr
    obtain ⟨r0, hr0, e⟩ := List.mem_map.1 hmem
    rw [members e0, show r.lanes = r0.lanes from (congrArg Region.lanes e :).symm]
    exact h.own n g0 h0 r0 hr0

/-! ## A result comes to an issue group -/

/-- The parts of an issue group. -/
def Crew.partsOf (w : Crew) (fam : Nat) : List (Nat × Group) := w.groups.filter fun p => p.2.family == fam

/-- What of a result comes to the threads of some parts. -/
def resultOf (ps : List (Nat × Group)) (vs : List ((Nat × Nat) × List Word)) : List ((Nat × Nat) × List Word) :=
  vs.filter fun q => ps.any fun p => p.2.members.contains q.1

/-- A crew with the registers of a result that has come to the parts of an issue group. -/
def Crew.delivered (ps : List (Nat × Group)) (mine : List ((Nat × Nat) × List Word)) (y : Iss) : Crew :=
  { y.crew with groups := y.crew.groups.puts ((splitRegions ps y.grp.regions).map fun q => (q.1, noteValues q.2 mine)) }

theorem mem_partsOf {w : Crew} {fam : Nat} {p : Nat × Group} : p ∈ w.partsOf fam ↔ p ∈ w.groups ∧ p.2.family = fam := by
  simp [Crew.partsOf, List.mem_filter]

theorem mem_resultOf {ps : List (Nat × Group)} {vs : List ((Nat × Nat) × List Word)} {q : (Nat × Nat) × List Word} :
    q ∈ resultOf ps vs ↔ q ∈ vs ∧ ∃ p ∈ ps, q.1 ∈ p.2.members := by
  simp [resultOf, List.mem_filter]

/-- A result that comes to an issue group: either nothing of it is for its threads, or they have its registers. -/
theorem deliverFamily_inv {s s' : State} {crew fam : Nat} {d : Dest} {vs : List ((Nat × Nat) × List Word)} {set : OSet} {w : Crew} {gd : Grid}
    (hw : s.gridOf crew = some (w, gd)) (hp : deliverFamily s crew d vs set fam = .ok s') :
    (s' = s ∧ resultOf (w.partsOf fam) vs = []) ∨
    ∃ x y t, x.crew = w ∧ x.grp.regions = (w.partsOf fam).flatMap (fun p => p.2.regions) ∧ x.grp.episode = none ∧
      resultRegs x d (resultOf (w.partsOf fam) vs) (vs.map Prod.fst) set s.osets = .ok (y, t) ∧
      s' = { s with osets := t, crews := Map.put s.crews crew (Crew.delivered (w.partsOf fam) (resultOf (w.partsOf fam) vs) y) } := by
  unfold deliverFamily at hp
  simp only [hw] at hp
  split at hp
  · rename_i hps
    have hnil : w.partsOf fam = [] := hps
    cases hp
    refine .inl ⟨rfl, ?_⟩
    rw [hnil]
    simp [resultOf]
  · split at hp
    · rename_i hempty
      cases hp
      exact .inl ⟨rfl, List.isEmpty_iff.1 hempty⟩
    · split at hp
      · cases hp
      · rename_i y t hr
        cases hp
        exact .inr ⟨_, y, t, rfl, rfl, rfl, hr, rfl⟩

theorem brought_delivered {w : Crew} {ps : List (Nat × Group)} {mine : List ((Nat × Nat) × List Word)} {x y : Iss} (hx : x.crew = w)
    (hps : ∀ p ∈ ps, p ∈ w.groups) (h : Touch x y) : Brought w (Crew.delivered ps mine y) := by
  subst hx
  refine ⟨(congrArg (fun c : Crew => { c with groups := [] }) h.crew :), h.count, h.sheaf, fun p hp => ?_⟩
  rcases Map.mem_puts hp with hp | hp
  · obtain ⟨q, hq, rfl⟩ := List.mem_map.1 hp
    obtain ⟨r, hr, _, seg, hseg⟩ := mem_splitRegions hq
    exact ⟨r, hps r hr, (episode_noteValues q.2 mine).trans (by rw [hseg])⟩
  · have hg : y.crew.groups = x.crew.groups := (congrArg Crew.groups h.crew :)
    exact ⟨p, hg ▸ hp, rfl⟩

section
variable {w : Crew} {d : Dest} {vs : List ((Nat × Nat) × List Word)} {fam n : Nat} {x y : Iss} {g : Group}
  (hx : x.crew = w) (hr : x.grp.regions = (w.partsOf fam).flatMap fun p => p.2.regions)

theorem nodup_partsOf (hwf : Map.wf w.groups = true) : ((w.partsOf fam).map Prod.fst).Nodup :=
  (List.filter_sublist.map Prod.fst).nodup (Map.nodup_keys hwf)

theorem part_of_find (hg : Map.find? w.groups n = some g) (hf : g.family = fam) : (n, g) ∈ w.partsOf fam :=
  mem_partsOf.2 ⟨Map.mem_of_find? hg, hf⟩

include hx

theorem groups_delivered (h : Touch x y) (mine : List ((Nat × Nat) × List Word)) : (Crew.delivered (w.partsOf fam) mine y).groups =
    w.groups.puts ((splitRegions (w.partsOf fam) y.grp.regions).map fun q => (q.1, noteValues q.2 mine)) := by
  subst hx
  rw [← show y.crew.groups = x.crew.groups from (congrArg Crew.groups h.crew :)]
  rfl

/-- A group of another issue group is as it was. -/
theorem find?_delivered_other (h : Touch x y) (mine : List ((Nat × Nat) × List Word)) (hn : ∀ g, (n, g) ∉ w.partsOf fam) :
    Map.find? (Crew.delivered (w.partsOf fam) mine y).groups n = Map.find? w.groups n := by
  rw [groups_delivered hx h]
  refine Map.find?_puts_other _ fun hmem => ?_
  have hkeys := keys_splitRegions (w.partsOf fam) y.grp.regions
  rw [List.map_map] at hmem
  have hk : n ∈ (w.partsOf fam).map Prod.fst := hkeys ▸ hmem
  obtain ⟨⟨k, g⟩, hg, rfl⟩ := List.mem_map.1 hk
  exact hn g hg

include hr

/-- A part of the issue group has its regions of the whole's. -/
theorem find?_delivered_part (hwf : Map.wf w.groups = true) (h : Touch x y) (mine : List ((Nat × Nat) × List Word))
    (hg : Map.find? w.groups n = some g) (hf : g.family = fam) :
    ∃ g', Map.find? (Crew.delivered (w.partsOf fam) mine y).groups n = some g' ∧ g'.shape = g.shape ∧
      ∀ l, (∀ p ∈ w.partsOf fam, p.1 ≠ n → ∀ r ∈ p.2.regions, l ∉ r.lanes) → regionOf y.grp l = regionOf g' l := by
  obtain ⟨seg, h1, h2, h3⟩ := splitRegions_part (rs := y.grp.regions) (nodup_partsOf hwf) (by rw [h.regions, hr]) (part_of_find hg hf)
  obtain ⟨k, hk⟩ := noteValues_eq { g with regions := seg } mine
  refine ⟨noteValues { g with regions := seg } mine, ?_, ?_, fun l hl => ?_⟩
  · rw [groups_delivered hx h]
    refine Map.find?_puts_mem _ ?_ (List.mem_map.2 ⟨_, h1, rfl⟩)
    rw [List.map_map]
    exact (keys_splitRegions (w.partsOf fam) y.grp.regions).symm ▸ nodup_partsOf hwf
  · rw [hk]
    simp only [Group.shape, h2]
  · rw [hk]
    exact (h3 l hl).symm

theorem sameShape_delivered (h : Touch x y) (mine : List ((Nat × Nat) × List Word)) : SameShape w (Crew.delivered (w.partsOf fam) mine y) := by
  refine ⟨fun hwf => groups_delivered hx h mine ▸ Map.wf_puts hwf _, fun hwf n => ?_, hx ▸ h.count⟩
  by_cases hn : ∃ g, (n, g) ∈ w.partsOf fam
  · obtain ⟨g, hg⟩ := hn
    obtain ⟨hmem, hf⟩ := mem_partsOf.1 hg
    have hfind := Map.find?_of_mem hwf hmem
    obtain ⟨g', h1, h2, -⟩ := find?_delivered_part hx hr hwf h mine hfind hf
    rw [h1, hfind, Option.map_some, Option.map_some, h2]
  · rw [find?_delivered_other hx h mine fun g hg => hn ⟨g, hg⟩]

omit hx in
/-- A part of an issue group stands in the region of the whole. -/
theorem regionOf_part (hwf : Map.wf w.groups = true) (hg : Map.find? w.groups n = some g) (hf : g.family = fam) {l : Nat}
    (hl : ∀ p ∈ w.partsOf fam, p.1 ≠ n → ∀ r ∈ p.2.regions, l ∉ r.lanes) : regionOf x.grp l = regionOf g l := by
  obtain ⟨seg, h1, -, h3⟩ := splitRegions_part (rs := x.grp.regions) (nodup_partsOf hwf) (by rw [hr]) (part_of_find hg hf)
  rw [hr, splitRegions_self] at h1
  have hsame := Map.find?_of_mem hwf (mem_partsOf.1 h1).1
  rw [hg] at hsame
  have hseg : g.regions = seg := (congrArg Group.regions (Option.some.inj hsame) :)
  rw [regionOf, regionOf, hseg]
  exact (h3 l hl).symm

end

theorem lane_of_main {g : Group} {commit : Bool} {v h r l : Nat} {p : Nat × Nat} (e : resultCell g commit v p = .main h r l) : p = (l, h) := by
  have hmain : ∀ {v'}, Cell.main p.2 v' p.1 = .main h r l → p = (l, h) := fun e => by
    obtain ⟨hh, -, hl⟩ := Cell.main.inj e
    exact Prod.ext hl hh
  unfold resultCell at e
  split at e
  · exact hmain e
  · split at e
    · cases e
    · exact hmain e

/-- What a crew's group reads of a register, the group by its number. -/
def Crew.readsAt (c : Crew) (n : Nat) (commit : Bool) (v : Nat) (p : Nat × Nat) : Option Word :=
  (Map.find? c.groups n).bind fun g => c.reads g commit v p

section
variable {w : Crew} {d : Dest} {vs : List ((Nat × Nat) × List Word)} {fam n : Nat} {g : Group} (hpl : Placed w d vs)
include hpl

/-- No region of another part of an issue group is open for a thread's lane. -/
theorem Placed.alone (hg : Map.find? w.groups n = some g) (hf : g.family = fam) {p : Nat × Nat} (hp : p ∈ g.members) :
    ∀ q ∈ w.partsOf fam, q.1 ≠ n → ∀ r ∈ q.2.regions, p.1 ∉ r.lanes := fun q hq hn r hr hl => by
  obtain ⟨hmem, hqf⟩ := mem_partsOf.1 hq
  have hfind : Map.find? w.groups q.1 = some q.2 := Map.find?_of_mem hpl.groups hmem
  exact hpl.parts n q.1 g q.2 hg hfind (Ne.symm hn) (hf.trans hqf.symm) p.1 (List.mem_map_of_mem hp) (hpl.own q.1 q.2 hfind r hr p.1 hl)

theorem Placed.inLanes : InLanes w (resultOf (w.partsOf fam) vs) := by
  refine ⟨fun q hq => hpl.inLane q (mem_resultOf.1 hq).1, fun q hq q' hq' hlane => ?_⟩
  obtain ⟨hv, p, hp, hm⟩ := mem_resultOf.1 hq
  obtain ⟨hv', p', hp', hm'⟩ := mem_resultOf.1 hq'
  obtain ⟨hmem, hf⟩ := mem_partsOf.1 hp
  obtain ⟨hmem', hf'⟩ := mem_partsOf.1 hp'
  have hfind : Map.find? w.groups p.1 = some p.2 := Map.find?_of_mem hpl.groups hmem
  have hfind' : Map.find? w.groups p'.1 = some p'.2 := Map.find?_of_mem hpl.groups hmem'
  have hsame : p'.1 = p.1 := by
    by_contra hne
    exact hpl.parts p'.1 p.1 p'.2 p.2 hfind' hfind hne (hf'.trans hf.symm) q.1.1 (hlane ▸ List.mem_map_of_mem hm') (List.mem_map_of_mem hm)
  rw [hsame, hfind, Option.some.injEq] at hfind'
  have hthread : q.1 = q'.1 := List.inj_on_of_nodup_map (hpl.lanes p.1 p.2 hfind) hm (hfind' ▸ hm') hlane
  exact List.inj_on_of_nodup_map hpl.threads hv hv' hthread

variable {x y : Iss} {all : List (Nat × Nat)} {set : OSet} {t t' : Map OEntry} (hx : x.crew = w)
  (hr : x.grp.regions = (w.partsOf fam).flatMap fun p => p.2.regions) (he : x.grp.episode = none)
  (hres : resultRegs x d (resultOf (w.partsOf fam) vs) all set t = .ok (y, t'))
include hx hr he hres

/-- The threads of the issue group have a result's words in its registers. -/
theorem readsAt_delivered_part (hg : Map.find? w.groups n = some g) (hf : g.family = fam) {q : (Nat × Nat) × List Word} (hq : q ∈ vs)
    (hm : q.1 ∈ g.members) {i v : Nat} (hi : i < d.regs) (hv : d.mainReg q.1.1 i = some v) :
    (Crew.delivered (w.partsOf fam) (resultOf (w.partsOf fam) vs) y).readsAt n d.commit v q.1 =
      (w.readsAt n d.commit v q.1).map fun _ => (q.2[i]?).getD 0 := by
  have ht := resultRegs_touch he hres
  have hl := hpl.alone hg hf hm
  have hmine : q ∈ resultOf (w.partsOf fam) vs := mem_resultOf.2 ⟨hq, (n, g), part_of_find hg hf, hm⟩
  have hit := resultRegs_hit he (hx ▸ hpl.inLanes) (fun q hq => hpl.regs q (mem_resultOf.1 hq).1) hmine (hpl.distinct q hq) hi hv hres
  obtain ⟨g', hg', -, hregion⟩ := find?_delivered_part hx hr hpl.groups ht (resultOf (w.partsOf fam) vs) hg hf
  have hbefore := cell_resultCell (regionOf_part hr hpl.groups hg hf hl) d.commit v
  have hafter := cell_resultCell (hregion q.1.1 hl) d.commit v
  rw [resultCell_congr ht.regions] at hafter
  rw [hx] at hbefore
  have hreads : (Crew.delivered (w.partsOf fam) (resultOf (w.partsOf fam) vs) y).reads g' d.commit v q.1 = y.crew.reads g' d.commit v q.1 := rfl
  simp only [Crew.readsAt, hg', hg, Option.bind_some, hreads]
  rw [← hafter, hit, hbefore]

omit hr in
/-- A thread of another issue group reads what it read. -/
theorem readsAt_delivered_other (hg : Map.find? w.groups n = some g) (hf : g.family ≠ fam) {p : Nat × Nat} (hm : p ∈ g.members) (v : Nat) :
    (Crew.delivered (w.partsOf fam) (resultOf (w.partsOf fam) vs) y).readsAt n d.commit v p = w.readsAt n d.commit v p := by
  have ht := resultRegs_touch he hres
  have hother : ∀ g, (n, g) ∉ w.partsOf fam := fun g' hg' => by
    obtain ⟨hmem, hf'⟩ := mem_partsOf.1 hg'
    rw [Map.find?_of_mem hpl.groups hmem, Option.some.injEq] at hg
    exact hf (hg ▸ hf')
  have hmain : (y.crew.sheaf p.2).mainAt v p.1 = (w.sheaf p.2).mainAt v p.1 := by
    have hmiss := resultRegs_miss he (hx ▸ hpl.inLanes) (fun q hq => hpl.regs q (mem_resultOf.1 hq).1) hres (c := .main p.2 v p.1)
      (fun _ => ⟨_, _, _, rfl⟩) fun q hq v' e => by
        obtain ⟨-, r, hr', hm'⟩ := mem_resultOf.1 hq
        obtain ⟨hmem, hf'⟩ := mem_partsOf.1 hr'
        have hne : n ≠ r.1 := fun e => hother r.2 (e ▸ hr')
        have hp : q.1 = p := lane_of_main e
        exact hpl.apart n r.1 g r.2 hg (Map.find?_of_mem hpl.groups hmem) hne p hm (hp ▸ hm')
    rw [← hx]
    exact Option.some.inj hmiss
  simp only [Crew.readsAt, find?_delivered_other hx ht _ hother, hg, Option.bind_some, Crew.reads, wordNow]
  split
  · exact congrArg some hmain
  · split
    · rfl
    · exact congrArg some hmain

end

/-! ## A result comes to a crew -/

/-- A machine but for its crews and origin sets. -/
def State.sansResult (s : State) : State := { s with osets := [], crews := [] }

theorem deliverFamily_spec {s s' : State} {crew fam : Nat} {d : Dest} {vs : List ((Nat × Nat) × List Word)} {set : OSet} {w : Crew} {gd : Grid}
    (hc : Map.find? s.crews crew = some w) (hw : s.gridOf crew = some (w, gd)) (hp : deliverFamily s crew d vs set fam = .ok s') :
    ∃ w', Map.find? s'.crews crew = some w' ∧ s'.sansResult = s.sansResult ∧ Brought w w' ∧ SameShape w w' ∧
      (Placed w d vs → ∀ n g, Map.find? w.groups n = some g → ∀ q ∈ vs, q.1 ∈ g.members → ∀ v,
        (g.family ≠ fam → w'.readsAt n d.commit v q.1 = w.readsAt n d.commit v q.1) ∧
        ∀ i, i < d.regs → d.mainReg q.1.1 i = some v → g.family = fam →
          w'.readsAt n d.commit v q.1 = (w.readsAt n d.commit v q.1).map fun _ => (q.2[i]?).getD 0) := by
  rcases deliverFamily_inv hw hp with ⟨rfl, hnone⟩ | ⟨x, y, t, hx, hr, he, hres, rfl⟩
  · refine ⟨w, hc, rfl, Brought.refl w, SameShape.refl w, fun _ n g hg q hq hm v => ⟨fun _ => rfl, fun i _ _ hf => ?_⟩⟩
    have hmem : q ∈ resultOf (w.partsOf fam) vs := mem_resultOf.2 ⟨hq, (n, g), part_of_find hg hf, hm⟩
    rw [hnone] at hmem
    cases hmem
  · have ht := resultRegs_touch he hres
    exact ⟨_, Map.find?_put_self _ _ _, rfl, brought_delivered hx (fun p hp => (mem_partsOf.1 hp).1) ht,
      sameShape_delivered hx hr ht (resultOf (w.partsOf fam) vs), fun hpl n g hg q hq hm v =>
        ⟨fun hf => readsAt_delivered_other hpl hx he hres hg hf hm v,
          fun i hi hv hf => readsAt_delivered_part hpl hx hr he hres hg hf hq hm hi hv⟩⟩

theorem gridOf_of_find {s : State} {n : Nat} {w : Crew} {gd : Grid} (hc : Map.find? s.crews n = some w)
    (hg : Map.find? s.grids w.grid = some gd) : s.gridOf n = some (w, gd) := by
  simp [State.gridOf, hc, hg]

/-- A state in which a crew stands whose threads have had a part of a result. -/
structure Bringing (crew : Nat) (s t : State) (c w : Crew) : Prop where
  find : Map.find? t.crews crew = some w
  rest : t.sansResult = s.sansResult
  brought : Brought c w
  shape : SameShape c w

section
variable {s : State} {crew : Nat} {c : Crew} {gd : Grid}

theorem Bringing.refl (hc : Map.find? s.crews crew = some c) : Bringing crew s s c c := ⟨hc, rfl, Brought.refl c, SameShape.refl c⟩

theorem Bringing.gridOf {t : State} {w : Crew} (h : Bringing crew s t c w) (hgd : Map.find? s.grids c.grid = some gd) :
    t.gridOf crew = some (w, gd) := by
  refine gridOf_of_find h.find ?_
  rw [show t.grids = s.grids from (congrArg State.grids h.rest :), show w.grid = c.grid from (congrArg Crew.grid h.brought.rest :)]
  exact hgd

variable {s1 : State} {d : Dest} {vs : List ((Nat × Nat) × List Word)} {set : OSet}

theorem deliverFamily_brings {t t' : State} {w : Crew} {fam : Nat} (h : Bringing crew s t c w) (hgd : Map.find? s.grids c.grid = some gd)
    (hp : deliverFamily t crew d vs set fam = .ok t') : ∃ w', Bringing crew s t' c w' := by
  obtain ⟨w', hw', hrest, hb, hs, -⟩ := deliverFamily_spec h.find (h.gridOf hgd) hp
  exact ⟨w', hw', hrest.trans h.rest, h.brought.trans hb, h.shape.trans hs⟩

/-- The delivery of a result changes a crew's registers and origin sets alone. -/
theorem deliverRegs_brings (hc : Map.find? s.crews crew = some c) (hp : deliverRegs s crew d vs set = .ok s1) :
    ∃ w, Bringing crew s s1 c w := by
  unfold deliverRegs at hp
  cases hg : Map.find? s.grids c.grid with
  | none =>
    have hnone : s.gridOf crew = none := by simp [State.gridOf, hc, hg]
    simp only [hnone] at hp
    cases hp
    exact ⟨c, Bringing.refl hc⟩
  | some gd =>
    simp only [gridOf_of_find hc hg] at hp
    exact foldE_keeps (P := fun t => ∃ w, Bringing crew s t c w) (fun t fam t' ht' ⟨_, hw⟩ => deliverFamily_brings hw hg ht') hp
      ⟨c, Bringing.refl hc⟩

variable (hgd : Map.find? s.grids c.grid = some gd) (hpl : Placed c d vs) {n : Nat} {g : Group} (hg : Map.find? c.groups n = some g)
  {q : (Nat × Nat) × List Word} (hq : q ∈ vs) (hm : q.1 ∈ g.members) {i v : Nat} (hi : i < d.regs) (hv : d.mainReg q.1.1 i = some v)
include hgd hpl hg hq hm hi hv

/-- A thread reads its word of a result once its issue group has it, and otherwise what it read. -/
theorem deliverFamily_reads {t t' : State} {w : Crew} {fam : Nat} (h : Bringing crew s t c w) (hp : deliverFamily t crew d vs set fam = .ok t') :
    ∃ w', Bringing crew s t' c w' ∧ (g.family ≠ fam → w'.readsAt n d.commit v q.1 = w.readsAt n d.commit v q.1) ∧
      (g.family = fam → w'.readsAt n d.commit v q.1 = (w.readsAt n d.commit v q.1).map fun _ => (q.2[i]?).getD 0) := by
  obtain ⟨w', hw', hrest, hb, hs, hreads⟩ := deliverFamily_spec h.find (h.gridOf hgd) hp
  have hshape := h.shape.groups hpl.groups n
  rw [hg, Option.map_some, Option.map_eq_some_iff] at hshape
  obtain ⟨g1, hg1, e1⟩ := hshape
  have hm1 : g1.members = g.members := (congrArg Group.members e1 :)
  have hf1 : g1.family = g.family := (congrArg Group.family e1 :)
  obtain ⟨hkeep, hset⟩ := hreads (hpl.of_shape h.shape) n g1 hg1 q hq (hm1 ▸ hm) v
  exact ⟨w', ⟨hw', hrest.trans h.rest, h.brought.trans hb, h.shape.trans hs⟩, fun hf => hkeep (hf1 ▸ hf), fun hf => hset i hi hv (hf1.trans hf)⟩

/-- The delivery of a result leaves its words in its registers. -/
theorem deliverRegs_reads (hc : Map.find? s.crews crew = some c) (hp : deliverRegs s crew d vs set = .ok s1) :
    ∃ w, Bringing crew s s1 c w ∧ w.readsAt n d.commit v q.1 = (c.readsAt n d.commit v q.1).map fun _ => (q.2[i]?).getD 0 := by
  unfold deliverRegs at hp
  simp only [gridOf_of_find hc hgd] at hp
  have hfam : g.family ∈ dedup (c.groups.map fun p => p.2.family) :=
    (mem_dedup _ _).2 (List.mem_map.2 ⟨_, Map.mem_of_find? hg, rfl⟩)
  refine foldE_settles (a := g.family)
    (P := fun t => ∃ w, Bringing crew s t c w ∧
      (w.readsAt n d.commit v q.1).map (fun _ => (q.2[i]?).getD 0) = (c.readsAt n d.commit v q.1).map fun _ => (q.2[i]?).getD 0)
    (Q := fun t => ∃ w, Bringing crew s t c w ∧ w.readsAt n d.commit v q.1 = (c.readsAt n d.commit v q.1).map fun _ => (q.2[i]?).getD 0)
    (fun fam _ t t' ht' ⟨w, hw, hr⟩ => ?_) (fun t t' ht' ⟨w, hw, hr⟩ => ?_) (fun fam _ t t' hne ht' _ ⟨w, hw, hr⟩ => ?_)
    hp ⟨c, Bringing.refl hc, rfl⟩ (.inl hfam)
  all_goals obtain ⟨w', hw', hkeep, hset⟩ := deliverFamily_reads hgd hpl hg hq hm hi hv hw ht'
  · refine ⟨w', hw', ?_⟩
    by_cases hf : g.family = fam
    · rw [hset hf, Option.map_map]
      exact hr
    · rw [hkeep hf]
      exact hr
  · exact ⟨w', hw', (hset rfl).trans hr⟩
  · exact ⟨w', hw', (hkeep (Ne.symm hne)).trans hr⟩

end

end Sys2Proof.Machine
end

section
/-! SUPPORT. Loads, atomics, phase arrivals and stores come about (02_execution.md R37, R47; 06_ordering.md R136; 11_isa_memory.md R258). -/

namespace Sys2Proof.Machine

open Sys2Proof.Claims (CrewNow Gives Running Over Deliverable wordNow)

theorem resting_of_brought {s : State} {n : Nat} {c w : Crew} (hw : Map.find? s.crews n = some w) (h : Brought c w)
    (hc : ∀ p ∈ c.groups, ∀ e, p.2.episode = some e → e.inUse = false) : s.resting n :=
  resting_of_groups hw fun p hp e he => by
    obtain ⟨q, hq, hqe⟩ := h.episodes p hp
    exact hc q hq e (hqe ▸ he)

/-- A group's register reads the same where its regions and the crew's main registers are the same. -/
theorem reads_congr {c c' : Crew} {g g' : Group} (hr : g'.regions = g.regions) (hf : ∀ i, (c'.sheaf i).files = (c.sheaf i).files) (commit : Bool)
    (v : Nat) (p : Nat × Nat) : c'.reads g' commit v p = c.reads g commit v p := by
  have hmain : (c'.sheaf p.2).mainAt v p.1 = (c.sheaf p.2).mainAt v p.1 := by
    simp only [Sheaf.mainAt, show (c'.sheaf p.2).main = (c.sheaf p.2).main from (congrArg Prod.fst (hf p.2) :)]
  simp only [Crew.reads, wordNow, xregSlot, slotOf, regionOf, hr, hmain]

theorem reads_eq_some {c : Crew} {g : Group} {commit : Bool} {v : Nat} {p : Nat × Nat} {x : Word} : c.reads g commit v p = some x ↔
    if commit then (c.sheaf p.2).mainAt v p.1 = x else wordNow c g v p = some x := by
  cases commit <;> simp [Crew.reads]

theorem word_of_readsAt {c : Crew} {n : Nat} {commit : Bool} {v : Nat} {p : Nat × Nat} {x : Word} (h : c.readsAt n commit v p = some x) :
    ∃ g, Map.find? c.groups n = some g ∧ c.reads g commit v p = some x := Option.bind_eq_some_iff.1 h

/-- A register of a thread that a result may be delivered to reads a word. -/
theorem readsAt_mapped {c : Crew} {d : Dest} {vs : List ((Nat × Nat) × List Word)} (h : Deliverable c d vs) {n : Nat} {g : Group}
    (hg : Map.find? c.groups n = some g) (commit : Bool) (v : Nat) (p : Nat × Nat) : ∃ x, c.readsAt n commit v p = some x := by
  simp only [Crew.readsAt, hg, Option.bind_some, Crew.reads]
  split
  · exact ⟨_, rfl⟩
  · unfold wordNow
    split
    · rename_i j hj
      obtain ⟨sl, hsl⟩ := Option.ne_none_iff_exists'.1 (h.mapped n g hg p.1 v j hj)
      exact ⟨_, by rw [hsl, Option.map_some]⟩
    · exact ⟨_, rfl⟩

theorem loadDelivery_load {op : Nat} {s s1 : State} {o : Op} {c : Crew} {d : Dest} {vs : List ((Nat × Nat) × List Word)} {u : OSet}
    {tab : Map OEntry} (hrun : Running s op o c) (hkind : o.kind = .load d) (hsem : o.sem = .rlx) (hflaw : opFlaw s op o = none)
    (hready : loadReady s o c.core = true) (hlost : lostLines s o c.core = [])
    (hres : loadResults s o c.core (whoActs s o.crew o.grid).2.1 d.signed = .ok (vs, u, tab))
    (hput : deliverRegs { s with osets := tab } o.crew d vs u = .ok s1) :
    Gives (.loadDelivery op) s fun t => Over s t op o ∧ SameMemory s t ∧
      (Deliverable c d vs → Map.has s.grids c.grid = true → ∀ n g, Map.find? c.groups n = some g → ∀ q ∈ vs, q.1 ∈ g.members → ∀ i, i < d.regs →
        ∀ v, d.mainReg q.1.1 i = some v → CrewNow t o.crew fun w => ∃ g', Map.find? w.groups n = some g' ∧
          if d.commit then (w.sheaf q.1.2).mainAt v q.1.1 = (q.2[i]?).getD 0 else wordNow w g' v q.1 = some ((q.2[i]?).getD 0)) := by
  have hc : Map.find? ({ s with osets := tab } : State).crews o.crew = some c := hrun.crew
  have hexec := exec_loadDelivery hrun.here hflaw
  simp only [loadDelivery, hrun.here, hkind, hrun.crew] at hexec
  rw [deliverLoad_whole hsem hready hlost hres hput] at hexec
  obtain ⟨w, hw⟩ := deliverRegs_brings hc hput
  have hops : s1.ops = s.ops := (congrArg State.ops hw.rest :)
  have hmem : SameMemory s s1 := ⟨(congrArg State.hbm hw.rest :), (congrArg State.host hw.rest :), (congrArg State.store hw.rest :)⟩
  have hst : w.st = c.st := (congrArg Crew.st hw.brought.rest :)
  have hd := cameDown_finishOp (op := op) hw.find (hst.trans hrun.resident) hrun.homes (resting_of_brought hw.find hw.brought hrun.outside)
  obtain ⟨hgone, hcount⟩ := over_of_cameDown (hops ▸ hrun.ops) hd
  refine ⟨_, hexec, ⟨hgone, fun h k => ?_⟩, hmem.trans hd.memory, fun hdel hgrid n g hg q hq hm i hi v hv => ?_⟩
  · rw [hcount h k, sheafAt_of_find hw.find, sheafAt_of_find hrun.crew]
    exact congrArg (· - _) (congrArg (fun z : Sheaf => z.flag k) (hw.brought.sheaf h) :)
  · obtain ⟨gd, hgd⟩ := Option.isSome_iff_exists.1 hgrid
    obtain ⟨w', hw', hreads⟩ := deliverRegs_reads (s := { s with osets := tab }) hgd (placed_of_deliverable hdel) hg hq hm hi hv hc hput
    obtain ⟨x, hx⟩ := readsAt_mapped hdel hg d.commit v q.1
    rw [hx, Option.map_some] at hreads
    obtain ⟨g1, hg1, hword⟩ := word_of_readsAt hreads
    obtain ⟨y, hy, -⟩ := hd.find (c := w') hw'.find
    have hstill := hd.groups o.crew n
    rw [groupAt_of_find hy, groupAt_of_find (s := { s1 with ops := Map.del s1.ops op }) hw'.find, hg1, Option.map_some,
      Option.map_eq_some_iff] at hstill
    obtain ⟨g2, hg2, e⟩ := hstill
    have hfiles : ∀ i, (y.sheaf i).files = (w'.sheaf i).files := fun i => by
      have hf := hd.files o.crew i
      rwa [sheafAt_of_find hy, sheafAt_of_find (s := { s1 with ops := Map.del s1.ops op }) hw'.find] at hf
    have hregions : g2.regions = g1.regions := (congrArg Group.regions e :)
    exact ⟨y, hy, g2, hg2, reads_eq_some.1 ((reads_congr hregions hfiles _ _ _).trans hword)⟩

theorem loadsAndStoresComeAbout : Sys2Proof.Claims.LoadsAndStoresComeAbout :=
  ⟨fun _ _ _ _ _ _ _ _ _ hrun hkind hsem hflaw hready hlost hres hput => loadDelivery_load hrun hkind hsem hflaw hready hlost hres hput,
    fun _ _ _ _ _ _ _ _ _ hrun hkind hsem hflaw hready hlost hres hn => loadDelivery_loadK hrun hkind hsem hflaw hready hlost hres hn,
    fun _ _ _ _ _ _ _ _ _ _ _ _ _ _ _ hrun hkind hsem hflaw hready htry hrmw hjoin hput hrun2 =>
      loadDelivery_atom hrun hkind hsem hflaw hready htry hrmw hjoin hput hrun2,
    fun _ _ _ _ _ _ _ hrun hkind hput hrun1 => loadDelivery_phase hrun hkind hput hrun1,
    fun _ _ _ _ _ hturn hother hready hsem hout hacc hn hput hc hep =>
      storePerformed_gives hturn hother hready hsem hout hacc hn hput hc hep,
    fun _ _ _ _ _ _ _ hsp hsem hlen hline hp _ hi => dieRead_performAcc hsp hsem hlen hline hp hi⟩

end Sys2Proof.Machine

namespace Sys2Proof.Proofs

open Sys2Proof.Machine

/-- Settles O56: it holds. A result's words are followed through the writes of registers to the places that each thread's name reaches; a
count down leaves files, groups and memories; an access performed leaves its bytes in its core's line. -/
theorem operationsComeAbout : Obligations.OperationsComeAbout := ⟨loadsAndStoresComeAbout, copiesAndMessagesComeAbout⟩

end Sys2Proof.Proofs
end

section
/-! SUPPORT. Predicates as results: compares, votes, SEL and the predicate word (03_registers.md R75; 09_isa_integer.md R222 to R226, R231;
10_isa_float.md R244). -/

namespace Sys2Proof.Machine

open Sys2Proof.Claims (icmp predOf psetForms fsetForms smA smB f32)

/-! ## Truths (R75, R222, R231, R244) -/

/-- A predicate source, as the statements write it. -/
theorem predOf_eq_pred (x : Iss) (i : Fin 8) (p : Nat × Nat) : predOf x i p = (x.crew.sheaf p.2).pred i p.1 := by
  simp only [predOf, Sheaf.pred, Fin.ext_iff]
  rfl

theorem icmpHolds_eq_icmp (cc : ICmp) (x y : Word) : icmpHolds cc x y = icmp cc x y := by
  cases cc with
  | eq => exact Bool.beq_eq_decide_eq x y
  | ne => simp only [icmpHolds, icmp, bne, Bool.beq_eq_decide_eq, decide_not]
  | ltS => rfl
  | leS => rfl
  | ltN => rfl
  | leN => rfl

/-- FSETP.NE is true of a NaN: no NaN equals anything. -/
theorem not_eqFV_eq (x y : FV) : (!eqFV x y) = (x.isNaN || y.isNaN || !eqFV x y) := by
  unfold eqFV
  cases x.isNaN <;> cases y.isNaN <;> rfl

theorem all_voteOf (x : Iss) (a : Fin 8) : x.active.all (voteOf x a) = decide (∀ q ∈ x.active, predOf x a q = true) := by
  rw [Bool.eq_iff_iff, List.all_eq_true, decide_eq_true_iff]
  simp only [predOf_eq_pred, voteOf]

theorem any_voteOf (x : Iss) (a : Fin 8) : x.active.any (voteOf x a) = decide (∃ q ∈ x.active, predOf x a q = true) := by
  rw [Bool.eq_iff_iff, List.any_eq_true, decide_eq_true_iff]
  simp only [predOf_eq_pred, voteOf]

/-- Where no register is named nothing can fail to be named. -/
theorem operable_none (x : Iss) : Operable x [] .z 0 := by
  refine ⟨fun o ho p _ => ?_, fun _ _ hd => ?_⟩
  · rw [List.nil_append, List.mem_singleton] at ho
    subst ho
    exact ⟨rfl, rfl⟩
  · cases hd

section
variable {i : Instr} {s : State} {g : Guard} {x : Iss} {d : Fin 7} (h : Issues s g x)
include h

/-- A compare runs by its truth. -/
theorem cmpOp_ran {a b : Operand} {f : Word → Word → Bool} (hx : exec i s = cmpOp s d a b g f) (ho : Operable x [(a, 1), (b, 1)] .z 0) :
    ∃ t y, PredRan i s x d (fun p => f (val32 x a p) (val32 x b p)) t y :=
  predBody_ran hx (by omega) h ho

/-- FSETP runs by the truth of its modified operands. -/
theorem fsetp_ran {m : SMod} {a b : Operand} {f : FV → FV → Bool} (hx : exec i s = fsetp s m d a b g f)
    (ho : Operable x [(a, 1), (b, 1)] .z 0) :
    ∃ t y, PredRan i s x d (fun p => f (smA m (f32 (val32 x a p))) (smB m (f32 (val32 x b p)))) t y := cmpOp_ran h hx ho

/-- A combination of predicates runs by its truth. -/
theorem psetOp_ran {a b : Fin 8} {f : Bool → Bool → Bool} (hx : exec i s = psetOp s d a b g f) :
    ∃ t y, PredRan i s x d (fun p => f (predOf x a p) (predOf x b p)) t y := by
  simp only [predOf_eq_pred]
  exact predBody_ran hx (by omega) h (operable_none x)

end

theorem comparisonsAndVotes : Sys2Proof.Claims.ComparisonsAndVotes := by
  refine ⟨fun s x cc d a b g h ho => ?isetp, ?psetp, ?fsetp, fun s x d a g h => ?all, fun s x d a g h => ?any⟩
  case isetp =>
    simp only [← icmpHolds_eq_icmp]
    exact cmpOp_ran h rfl ho
  case psetp =>
    simp only [psetForms, List.forall_mem_cons, List.not_mem_nil, false_imp_iff, implies_true, and_true]
    exact ⟨fun _ _ _ _ _ _ h => psetOp_ran h rfl, fun _ _ _ _ _ _ h => psetOp_ran h rfl, fun _ _ _ _ _ _ h => psetOp_ran h rfl,
      fun _ _ _ _ _ _ h => psetOp_ran h (f := fun p q => p && !q) rfl⟩
  case fsetp =>
    simp only [fsetForms, List.forall_mem_cons, List.not_mem_nil, false_imp_iff, implies_true, and_true, ← not_eqFV_eq]
    exact ⟨fun _ _ _ _ _ _ _ h ho => fsetp_ran h rfl ho, fun _ _ _ _ _ _ _ h ho => fsetp_ran h (f := fun u v => !eqFV u v) rfl ho,
      fun _ _ _ _ _ _ _ h ho => fsetp_ran h rfl ho, fun _ _ _ _ _ _ _ h ho => fsetp_ran h (f := fun u v => ltFV u v || eqFV u v) rfl ho,
      fun _ _ _ _ _ _ _ h ho => fsetp_ran h (f := fun u v => u.isNaN || v.isNaN) rfl ho⟩
  case all =>
    simp only [← all_voteOf]
    exact predBody_ran (f := fun x _ => x.active.all (voteOf x a)) rfl (by omega) h (operable_none x)
  case any =>
    simp only [← any_voteOf]
    exact predBody_ran (f := fun x _ => x.active.any (voteOf x a)) rfl (by omega) h (operable_none x)

/-! ## SEL and PRDW (R225, R226) -/

/-- Every present thread is active under the guard "always". -/
theorem Issues.active_always {s : State} {x : Iss} (h : Issues s gAlways x) : x.active = x.present := by
  obtain ⟨_, _, _, _, _, hactive⟩ := issuer_inv h.issuer
  rw [hactive, List.filter_eq_self]
  exact fun _ _ => rfl

/-- The powers of two of some bits below n add up to the number with these bits. -/
theorem testBit_bitSum (f : Nat → Bool) (n : Nat) :
    let m := (List.range n).foldl (fun acc i => acc + (if f i then 2 ^ i else 0)) 0
    m < 2 ^ n ∧ ∀ i, m.testBit i = (decide (i < n) && f i) := by
  induction n with
  | zero => exact ⟨Nat.one_pos, fun i => by simp⟩
  | succ n ih =>
    obtain ⟨hlt, hbit⟩ := ih
    simp only [List.range_succ, List.foldl_append, List.foldl_cons, List.foldl_nil]
    generalize (List.range n).foldl (fun acc i => acc + (if f i then 2 ^ i else 0)) 0 = m at hlt hbit
    by_cases hf : f n
    · refine ⟨by rw [if_pos hf]; omega, fun i => ?_⟩
      have hor := Nat.two_pow_add_eq_or_of_lt hlt 1
      rw [Nat.mul_one] at hor
      rw [if_pos hf, Nat.add_comm, hor, Nat.testBit_or, Nat.testBit_two_pow, hbit]
      by_cases hi : i = n
      · simp [hi, hf]
      · simp [show (i < n + 1) = (i < n) by apply propext; omega, Ne.symm hi]
    · refine ⟨by rw [if_neg hf]; omega, fun i => ?_⟩
      rw [if_neg hf, Nat.add_zero, hbit]
      by_cases hi : i = n
      · simp [hi, hf]
      · simp [show (i < n + 1) = (i < n) by apply propext; omega]

/-- Bit i of the predicate word is predicate i. -/
theorem getLsbD_predWord (z : Sheaf) (l i : Nat) : (predWord z l).getLsbD i = (decide (i < 7) && z.pred i l) := by
  have hbit := (testBit_bitSum (fun i => z.pred i l) 7).2 i
  simp only [predWord, word, BitVec.getLsbD_ofNat, hbit]
  by_cases hi : i < 7
  · simp [hi, show i < 32 by omega]
  · simp [hi]

theorem selectAndPredicateWord : Sys2Proof.Claims.SelectAndPredicateWord := by
  refine ⟨fun s x d a b g h ho => ⟨h.active_always, ?sel⟩,
    fun s x d g h ho => ⟨fun p => predWord (x.crew.sheaf p.2) p.1, fun p i => ?bits, ?ran⟩⟩
  case bits =>
    rw [getLsbD_predWord]
    by_cases hi : i < 7
    · simp only [Sheaf.pred, if_neg (show i ≠ 7 by omega)]
    · simp only [hi, decide_false, Bool.false_and]
  case ran => exact vecBody_ran (f := fun x p => ([predWord (x.crew.sheaf p.2) p.1], 0)) rfl h ho
  case sel =>
    simp only [predOf_eq_pred]
    exact vecBody_ran (f := fun x p => ([if guardTrue x.crew g p then val32 x a p else val32 x b p], 0)) rfl h ho

/-! ## PWRW (R226) -/

/-- What a predicate's place holds. -/
theorem cell_pred (x : Iss) (h i l : Nat) : x.cell (.pred h i l) = some (boolWord ((x.crew.sheaf h).pred i l)) := rfl

theorem boolWord_inj {a b : Bool} (h : boolWord a = boolWord b) : a = b := by
  cases a <;> cases b <;> first | rfl | exact absurd h (by decide)

theorem pred_of_cell {x y : Iss} {h i l : Nat} (hc : y.cell (.pred h i l) = x.cell (.pred h i l)) :
    (y.crew.sheaf h).pred i l = (x.crew.sheaf h).pred i l := boolWord_inj (Option.some.inj hc)

/-- Writing bits of words to several predicates: each holds its bit, and every other place what it held. -/
theorem writePreds_spec {t0 t : Map OEntry} {P : Map OEntry → Prop} (hf : Fit t0 P) (is : List Nat) (h7 : ∀ i ∈ is, i ≠ 7)
    (vs : List ((Nat × Nat) × Word)) (s : OSet) (x : Iss) (ht : P t) (hl : ∀ v ∈ vs, v.1.1 < 32)
    (hh : ∀ v ∈ vs, v.1.2 < x.crew.sheaves.length) (hone : ∀ v ∈ vs, ∀ v' ∈ vs, v.1 = v'.1 → v.2 = v'.2) :
    ∃ y t', writePreds x is vs s t = .ok (y, t') ∧ P t' ∧ Touch x y ∧
      (∀ v ∈ vs, ∀ i ∈ is, (y.crew.sheaf v.1.2).pred i v.1.1 = v.2.getLsbD i) ∧
      ∀ c, (∀ v ∈ vs, ∀ i ∈ is, c ≠ .pred v.1.2 i v.1.1) → y.cell c = x.cell c := by
  induction is generalizing x t with
  | nil => exact ⟨x, t, rfl, ht, Touch.refl x, fun _ _ _ hi => absurd hi (by simp), fun _ _ => rfl⟩
  | cons j rest ih =>
    obtain ⟨z, t1, hz, hw, hp⟩ := writePred_spec hf x j (h7 j (by simp)) (vs.map fun v => (v.1, v.2.getLsbD j)) s ht ⟨fun v hv => by
        simp only [List.map_map, List.mem_map] at hv
        obtain ⟨u, hu, rfl⟩ := hv
        exact hl u hu, fun v hv => by
        simp only [List.map_map, List.mem_map] at hv
        obtain ⟨u, hu, rfl⟩ := hv
        exact hh u hu, fun v hv v' hv' c hc hc' => by
        simp only [List.map_map, List.mem_map] at hv hv'
        obtain ⟨u, hu, rfl⟩ := hv
        obtain ⟨u', hu', rfl⟩ := hv'
        have e := hc.trans hc'.symm
        simp only [Function.comp, Option.some.injEq, Cell.pred.injEq, true_and] at e
        simp only [Function.comp, hone u hu u' hu' (Prod.ext e.2 e.1)]⟩
    obtain ⟨y, t', hy, hp', htouch, hit, miss⟩ := ih (fun i hi => h7 i (by simp [hi])) z hp fun v hv => by
      rw [hw.touch.count]
      exact hh v hv
    refine ⟨y, t', ?_, hp', hw.touch.trans htouch, fun v hv i hi => ?_, fun c hc => ?_⟩
    · have hy' : foldE (fun (a : Iss × Map OEntry) i => writePred a.1 i (vs.map fun v => (v.1, v.2.getLsbD i)) s a.2) (z, t1) rest =
          .ok (y, t') := hy
      simp only [writePreds, foldE, hz, hy']
    · by_cases hr : i ∈ rest
      · exact hit v hv i hr
      · obtain rfl : i = j := by simpa [hr] using hi
        have hkeep := miss (.pred v.1.2 i v.1.1) fun v' _ k hk e => hr ((Cell.pred.inj e).2.1 ▸ hk)
        have hbit := hw.hit (v.1, boolWord (v.2.getLsbD i))
          (by simp only [List.map_map, List.mem_map]; exact ⟨v, hv, rfl⟩) _ rfl
        exact (pred_of_cell hkeep).trans (boolWord_inj (Option.some.inj hbit))
    · rw [miss c fun v hv i hi => hc v hv i (by simp [hi])]
      refine hw.miss c fun v hv e => ?_
      simp only [List.map_map, List.mem_map] at hv
      obtain ⟨u, hu, rfl⟩ := hv
      exact hc u hu j (by simp) (Option.some.inj e).symm

/-- An instruction whose body leaves writes of registers and predicates alone has run. -/
theorem ran_of_holds {i : Instr} {s s1 : State} {g : Guard} {x y : Iss} {sets : Iss → List OSet} {body : Iss → Except Stop State}
    (hx : exec i s = issueOp s g sets body) (h : Issues s g x) (hy : Touch x y) (hb : body x = .ok s1) (hs : Holds s s1 x y y.crew) :
    ∃ t z, Ran i s t x z ∧ (∀ c, z.cell c = y.cell c) ∧ ∀ p, (z.crew.thread p).fpx = (x.crew.thread p).fpx := by
  rw [issueOp_of h.issuer, hb] at hx
  obtain ⟨z, hz, hk, hcells, hfpx⟩ := advance_holds h hy (Flagged.refl _) hs
  refine ⟨_, z, ⟨hx, hz, hk⟩, hcells, fun p => (hfpx p).trans ?_⟩
  have hthreads : (y.crew.sheaf p.2).threads = (x.crew.sheaf p.2).threads := (congrArg Sheaf.threads (hy.sheaf p.2) :)
  simp only [Crew.thread, hthreads]

/-- PWRW without an active lane leaves the state to the move past it. -/
theorem pwrwBody_idle {s : State} {x : Iss} (he : x.grp.episode = none) (ha : x.active = []) (a : Operand) (g : Guard) :
    pwrwBody s a g x = .ok s := by
  simp only [pwrwBody, ha, List.isEmpty_nil, if_true, he, Option.isSome_none, Bool.false_eq_true, if_false]

theorem predicateWordWrite : Sys2Proof.Claims.PredicateWordWrite := by
  intro s x a g h ho
  have hx : exec (.pwrw a g) s = issueOp s g (fun x => trapSets x [(a, 1)] [] g) (pwrwBody s a g) := rfl
  by_cases hempty : x.active = []
  · obtain ⟨t, z, hran, hcells, hfpx⟩ := ran_of_holds hx h (Touch.refl x) (pwrwBody_idle h.plain hempty a g) (holds_refl h)
    exact ⟨t, z, hran, by simp [hempty], fun c _ => hcells c, hfpx⟩
  · obtain ⟨P, hf⟩ := h.joins.fit
    obtain ⟨set, t1, hs, hp1⟩ := hf.joinAll (resultSets x x.active [(a, 1)] [] false g) s.osets 0 hf.here
    obtain ⟨y, t2, hy, hp2, htouch, hit, miss⟩ := writePreds_spec hf allPreds (by decide) (x.active.map fun p => (p, val32 x a p)) set x hp1
      (List.forall_mem_map.2 fun p hp => h.inLane p (h.activeMem hp)) (List.forall_mem_map.2 fun p hp => h.inSheaf p (h.activeMem hp))
      (by
        simp only [List.forall_mem_map]
        rintro p _ q _ rfl
        rfl)
    have hb : pwrwBody s a g x = .ok (y.put { s with osets := t2 }) := by
      simp only [pwrwBody, List.isEmpty_iff, hempty, if_false, ho.check_sources, hs, hy, h.plain, Option.isSome_none, Bool.false_eq_true]
    obtain ⟨t, z, hran, hcells, hfpx⟩ := ran_of_holds hx h htouch hb (holds_put (c := y.crew) htouch (Flagged.refl _) (hf.grows t2 hp2))
    simp only [List.forall_mem_map] at hit miss
    have mem7 : ∀ i, i < 7 → i ∈ allPreds := fun i hi => List.mem_range.2 hi
    refine ⟨t, z, hran, fun p hp i hi => (pred_of_cell (hcells _)).trans (hit p hp i (mem7 i hi)), fun c hc => ?_, hfpx⟩
    exact (hcells c).trans (miss c fun p hp i hi => hc p hp i (List.mem_range.1 hi))

end Sys2Proof.Machine

namespace Sys2Proof.Proofs

open Sys2Proof.Machine

/-- Settles O1: it holds, by what the executors of predicate and register destinations do with each form's truth or word. -/
theorem predicateResults : Obligations.PredicateResults := ⟨comparisonsAndVotes, selectAndPredicateWord, predicateWordWrite⟩

end Sys2Proof.Proofs
end

section
/-! SUPPORT. What an instruction's body leaves once its issue group has gone past it, origin sets included, and the write of one word to
the destination of each active thread (03_registers.md R74, R83). -/

namespace Sys2Proof.Machine

/-! ## Past an instruction -/

theorem advanceGroup_slotS {s : State} {cu : Cur} {w w' : Crew} {g : Group} (hw : Map.find? s.crews cu.crew = some w)
    (hg : Map.find? w.groups cu.group = some g) (hw' : Map.find? (advanceGroup s cu).crews cu.crew = some w') : w'.slotS = w.slotS := by
  have hthreads : ∀ ps f, (w.modThreads ps f).slotS = w.slotS := fun ps f => (congrArg Crew.slotS (onThreads_modThreads w ps f).crew :)
  simp only [advanceGroup, hw, hg] at hw'
  split at hw'
  · cases hw.symm.trans hw'
    rfl
  · split at hw'
    · cases (Map.find?_put_self _ _ _).symm.trans hw'
      exact hthreads _ _
    · cases (Map.find?_put_self _ _ _).symm.trans hw'
      dsimp only
      split <;> exact hthreads _ _

/-- Moving past an instruction leaves the sets of the crew's slots. -/
theorem advance_slotS {s : State} {cu : Cur} {w w' : Crew} {g : Group} (hw : Map.find? s.crews cu.crew = some w)
    (hg : Map.find? w.groups cu.group = some g) (he : g.episode = none) (hw' : Map.find? (advance s cu).crews cu.crew = some w') :
    w'.slotS = w.slotS := by
  obtain ⟨w1, g1, a⟩ := advanceGroup_spec s cu w g hw hg he
  have he1 : g1.episode = none := (congrArg Group.episode a.group : _).trans he
  have k := finishIssue_spec (advanceGroup s cu) cu w1 g1 a.crews a.groups he1
  cases k.crews.symm.trans hw'
  exact (advanceGroup_slotS (w' := w1) hw hg a.crews :)

/-- An instruction has gone past with the context w in the state s1 that its body leaves: t is the next state, z the issue group in it. -/
structure Passed (i : Instr) (s s1 t : State) (x w z : Iss) : Prop where
  next : exec i s = .next t
  context : t.context x.cur = some z
  memory : SameMemory s1 t
  osets : t.osets = s1.osets
  sheaf : ∀ h, { z.crew.sheaf h with threads := [] } = { w.crew.sheaf h with threads := [] }
  slots : z.crew.slotS = w.crew.slotS
  thread : ∀ p, (z.crew.thread p).sansPc = (w.crew.thread p).sansPc
  group : { z.grp with active := none, fetched := none, wait := .none } = { w.grp with active := none, fetched := none, wait := .none }

section
variable {i : Instr} {s s1 t : State} {g : Guard} {x w y z : Iss} {sets : Iss → List OSet} {body : Iss → Except Stop State}

theorem Passed.cells (h : Passed i s s1 t x w z) (c : Cell) : z.cell c = w.cell c :=
  cell_congr ((congrArg Group.regions h.group :)) h.sheaf c

/-- What has run has gone past in one way. -/
theorem Passed.ran {t' : State} {z' : Iss} (h : Passed i s s1 t x w z) (hr : Ran i s t' x z') : Ran i s t x z := by
  cases h.next.symm.trans hr.next
  cases h.context.symm.trans hr.context
  exact hr

/-- Where the body leaves the crew with its group in it, the group goes past. -/
theorem passed_of_crew {c : Crew} (hx : exec i s = issueOp s g sets body) (h : Issues s g x) (hb : body x = .ok s1)
    (hc : Map.find? s1.crews x.cur.crew = some c) (hg : Map.find? c.groups x.cur.group = some w.grp) (hd : s1.grids = s.grids)
    (hgrid : c.grid = x.crew.grid) (he : w.grp.episode = none) (hsheaves : c.sheaves = w.crew.sheaves) (hslots : c.slotS = w.crew.slotS) :
    ∃ z, Passed i s s1 (advance s1 x.cur) x w z := by
  obtain ⟨_, _, _, hgd, _⟩ := issuer_inv h.issuer
  obtain ⟨z, hz, a⟩ := advance_context hc hg (by rw [hd, hgrid]; exact hgd) he
  have hsheaf : ∀ k, c.sheaf k = w.crew.sheaf k := fun k => by simp only [Crew.sheaf, hsheaves]
  refine ⟨z, by rw [hx, issueOp_of h.issuer, hb], hz, ⟨(congrArg State.hbm a.machine :), (congrArg State.host a.machine :),
    (congrArg State.store a.machine :)⟩, (congrArg State.osets a.machine :), fun k => (a.sheaf k).trans (by rw [hsheaf]),
    (advance_slotS hc hg he a.crews).trans hslots, fun p => (a.thread p).trans (by simp only [Crew.thread, hsheaf]), a.group⟩

/-- A body that leaves the state as it is. -/
theorem passed_of_idle (hx : exec i s = issueOp s g sets body) (h : Issues s g x) (hb : body x = .ok s) :
    ∃ z, Passed i s s (advance s x.cur) x x z := by
  obtain ⟨_, hcrew, hgroup, _⟩ := issuer_inv h.issuer
  exact passed_of_crew hx h hb hcrew hgroup rfl rfl h.plain rfl rfl

/-- A body that puts a context of the group back. -/
theorem passed_of_put {tab : Map OEntry} (hx : exec i s = issueOp s g sets body) (h : Issues s g x)
    (hb : body x = .ok (w.put { s with osets := tab })) (hcur : w.cur = x.cur) (hgrid : w.crew.grid = x.crew.grid)
    (he : w.grp.episode = none) :
    ∃ z, Passed i s (w.put { s with osets := tab }) (advance (w.put { s with osets := tab }) x.cur) x w z := by
  refine passed_of_crew (c := { w.crew with groups := Map.put w.crew.groups w.cur.group w.grp }) hx h hb ?_ ?_ rfl hgrid he rfl rfl
  · rw [← hcur]
    exact Map.find?_put_self _ _ _
  · rw [← hcur]
    exact Map.find?_put_self _ _ _

end

/-! ## One word to each active thread -/

/-- Flags that are all 0 change nothing. -/
theorem setFpx_zero (x : Iss) (ps : List (Nat × Nat)) (s : OSet) (t : Map OEntry) :
    setFpx x (ps.map fun p => (p, 0)) s t = .ok (x, t) := by
  have hfold : foldE (fpxStep s) (x.crew, t) (ps.map fun p => (p, 0)) = .ok (x.crew, t) := by
    induction ps with
    | nil => rfl
    | cons p rest ih => exact ih
  simp only [setFpx, hfold]

/-- The words that the active threads give a destination (R74). -/
def Iss.wordsFor (x : Iss) (d : Operand) (f : Nat × Nat → Word) : List ((Nat × Nat) × Word) :=
  x.active.map fun p => (p, f (repOf x d p))

/-- A result of one word and no flag is the write of one register. -/
theorem vecWrite_word {x : Iss} (he : x.grp.episode = none) (d : Operand) (f : Iss → Nat × Nat → Word) (g : Guard)
    (inv : Iss → Nat × Nat → Bool) (s : OSet) (t : Map OEntry) :
    vecWrite x d 1 (vecResults x d fun x p => ([f x p], 0)) g inv s t = writeReg x d 0 (x.wordsFor d (f x)) s t := by
  have hwords : ((vecResults x d fun x p => ([f x p], 0)).map fun r => (r.1, r.2.1)).map (fun v => (v.1, (v.2[0]?).getD 0)) =
      x.wordsFor d (f x) := by
    simp [vecResults, Iss.wordsFor]
  have hflags : (vecResults x d fun x p => ([f x p], 0)).map (fun r => (r.1, r.2.2)) = x.active.map fun p => (p, 0) := by
    simp [vecResults]
  simp only [vecWrite, writeRegs, hwords, hflags, he, Option.isSome_none, Bool.false_eq_true, if_false]
  cases writeReg x d 0 (x.wordsFor d (f x)) s t with
  | error e => rfl
  | ok a => exact setFpx_zero a.1 x.active s a.2

section
variable {s : State} {g : Guard} {x : Iss} {os : List (Operand × Nat)} {d : Operand} (h : Issues s g x)
include h

/-- Where the operands can be named the words are written: each active thread's place holds its word, and every other what it held. -/
theorem writeWords_spec (ho : Operable x os d 1) (f : Nat × Nat → Word) {t0 t : Map OEntry} {P : Map OEntry → Prop} (hf : Fit t0 P)
    (ht : P t) (set : OSet) : ∃ y t', writeReg x d 0 (x.wordsFor d f) set t = .ok (y, t') ∧ P t' ∧ Touch x y ∧
      (∀ p ∈ x.active, ∀ c, regCell x d 0 p = some c → y.cell c = some (f (repOf x d p))) ∧
      ∀ c, (∀ p ∈ x.active, regCell x d 0 p ≠ some c) → y.cell c = x.cell c := by
  obtain ⟨y, t', hy, hw, hp⟩ := writeReg_spec hf x d 0 (x.wordsFor d f) set ht h.plain
    ⟨List.forall_mem_map.2 fun p hp => h.inLane p (h.activeMem hp), List.forall_mem_map.2 fun p hp => h.inSheaf p (h.activeMem hp), by
      simp only [Iss.wordsFor, List.forall_mem_map]
      exact fun p hp q hq c hc hc' => by rw [repOf_congr h hp hq hc hc']⟩
  refine ⟨y, t', hy, hp, hw.touch, fun p hp c hc => ?_, fun c hc => hw.miss c (List.forall_mem_map.2 hc)⟩
  obtain ⟨v, hv⟩ : ∃ v, laneReg x d 0 p = some v := Option.isSome_iff_exists.1 (by
    simpa [readable] using (ho.named (d, 1) (by simp) p hp).2)
  rw [hw.hit _ (List.mem_map.2 ⟨p, hp, rfl⟩) c hc, cell_regCell hc, hv]
  rfl

end

end Sys2Proof.Machine
end

section
/-! SUPPORT. Special registers: RDSR and WRSR (03_registers.md R77, R78; 08_isa_control.md R207, R208). -/

namespace Sys2Proof.Machine

/-- A thread's special registers that an instruction may write. -/
def Thread.writables (t : Thread) : BitVec 5 × RMode × Fin 8 := (t.fpx, t.rmode, t.ptsel)

theorem writables_of_sansPc {t u : Thread} (h : t.sansPc = u.sansPc) : t.writables = u.writables := (congrArg Thread.writables h :)

theorem Touch.thread {x y : Iss} (h : Touch x y) (p : Nat × Nat) : y.crew.thread p = x.crew.thread p := by
  have hthreads : (y.crew.sheaf p.2).threads = (x.crew.sheaf p.2).threads := (congrArg Sheaf.threads (h.sheaf p.2) :)
  simp only [Crew.thread, hthreads]

/-- A context with its active threads changed. -/
def Iss.onActive (x y : Iss) (f : Nat × Nat → Thread → Thread) : Iss := { y with crew := y.crew.modThreads x.active f }

theorem cell_onActive (x y : Iss) (f : Nat × Nat → Thread → Thread) (c : Cell) : (x.onActive y f).cell c = y.cell c :=
  cell_of_files (x := y) (y := x.onActive y f) rfl (fun i => (onThreads_modThreads y.crew x.active f).files i) c

theorem grid_onActive (x y : Iss) (f : Nat × Nat → Thread → Thread) : (x.onActive y f).crew.grid = y.crew.grid :=
  (onThreads_modThreads y.crew x.active f).grid

/-! ## RDSR -/

theorem writables_latch (s : State) (core n : Nat) (t : Thread) : (latch s core n t).writables = t.writables := by
  unfold latch
  split <;> rfl

/-- RDSR without an active lane leaves the state to the move past it. -/
theorem rdsrBody_idle {s : State} {x : Iss} (he : x.grp.episode = none) (ha : x.active = []) (d : Operand) (n : Nat) (g : Guard) :
    rdsrBody s d n g x = .ok s := by
  simp only [rdsrBody, ha, List.isEmpty_nil, if_true, idle_plain he]

theorem specialRegisterRead : Sys2Proof.Claims.SpecialRegisterRead := by
  intro d n g s x h ho
  have hx : exec (.rdsr d n g) s = issueOp s g (fun x => trapSets x [] [] g) (rdsrBody s d n.val g) := rfl
  obtain ⟨P, hf⟩ := h.joins.fit
  obtain ⟨oc, tab, hoc, hp⟩ := hf.joinAll (entrySets x.crew x.grp.role x.cur.addr) s.osets 0 hf.here
  refine ⟨oc, tab, hoc, ?_⟩
  by_cases hempty : x.active = []
  · obtain ⟨z, hz⟩ := passed_of_idle hx h (rdsrBody_idle h.plain hempty d n g)
    refine ⟨_, z, hz.next, hz.context, by simp [hempty], fun c _ => hz.cells c, fun p => ?_, hz.memory⟩
    simpa [Thread.writables] using writables_of_sansPc (hz.thread p)
  · obtain ⟨set, t1, hset, hp1⟩ := hf.joinAll
      (resultSets x x.active [] [] false g ++ dedup (x.active.map fun p => specialSet n (x.crew.thread p))) tab 0 hp
    obtain ⟨y, t2, hy, _, htouch, hit, miss⟩ := writeWords_spec h ho (specialValue s x oc n) hf hp1 set
    have hb : rdsrBody s d n g x = .ok ((x.onActive y fun _ => latch s x.crew.core n).put { s with osets := t2 }) := by
      have hw := fun inv => (vecWrite_word h.plain d (fun x => specialValue s x oc n) g inv set t1).trans hy
      have hoc' : octxOf x s.osets = .ok (oc, tab) := hoc
      have hcheck : checkOperands x x.active [(d, 1)] = .ok () := ho.check
      simp only [rdsrBody, List.isEmpty_iff, hempty, if_false, hcheck, ho.allowed, Bool.false_eq_true, hoc', hset, hw, Iss.onActive]
    obtain ⟨z, hz⟩ := passed_of_put hx h hb htouch.cur ((grid_onActive x y _).trans ((congrArg Crew.grid htouch.crew :)))
      (htouch.episode.trans h.plain)
    have hcells : ∀ c, z.cell c = y.cell c := fun c => (hz.cells c).trans (cell_onActive x y _ c)
    refine ⟨_, z, hz.next, hz.context, fun p hp c hc => (hcells c).trans (hit p hp c hc), fun c hc => (hcells c).trans (miss c hc),
      fun p => ?_, hz.memory⟩
    have hth := (writables_of_sansPc (hz.thread p)).trans (Crew.thread_modThreads_prop y.crew x.active _ Thread.writables
      (fun _ => writables_latch s x.crew.core n) p)
    rw [htouch.thread] at hth
    simpa [Thread.writables] using hth

/-! ## WRSR -/

theorem rmodeOf_eq_none {n : Nat} (h : ¬n < 6) : rmodeOf n = none := by
  obtain ⟨m, rfl⟩ := Nat.exists_eq_add_of_le (Nat.le_of_not_lt h)
  rw [Nat.add_comm]
  rfl

/-- What WRSR writes of a thread's special registers; a value out of range leaves the register. -/
theorem writables_writeSpecial {n : Fin 33} (hn : n = 22 ∨ n = 28 ∨ n = 32) (v : Word) (set : OSet) (t : Thread) :
    let w := writeSpecial n v set t
    w.rmode = (if n = 22 ∧ v.toNat < 6 then (rmodeOf v.toNat).getD t.rmode else t.rmode) ∧
    (w.ptsel : Nat) = (if n = 28 ∧ v.toNat < 8 then v.toNat else t.ptsel) ∧
    w.fpx = (if n = 32 then v.truncate 5 else t.fpx) := by
  rcases hn with rfl | rfl | rfl
  · refine ⟨?_, rfl, rfl⟩
    by_cases hv : v.toNat < 6
    · rw [if_pos ⟨rfl, hv⟩]
      rfl
    · rw [if_neg fun e => hv e.2]
      show (rmodeOf v.toNat).getD t.rmode = t.rmode
      rw [rmodeOf_eq_none hv]
      rfl
  · refine ⟨rfl, ?_, rfl⟩
    show ((if h : v.toNat < 8 then ⟨v.toNat, h⟩ else t.ptsel : Fin 8) : Nat) = _
    by_cases hv : v.toNat < 8 <;> simp [hv]
  · exact ⟨rfl, rfl, rfl⟩

/-- WRSR without an active lane leaves the state to the move past it. -/
theorem wrsrBody_idle {s : State} {x : Iss} (he : x.grp.episode = none) (ha : x.active = []) (n : Nat) (b : Operand) (g : Guard) :
    wrsrBody s n b g x = .ok s := by
  simp only [wrsrBody, ha, List.isEmpty_nil, if_true, he, Option.isSome_none, Bool.false_eq_true, if_false]

theorem exec_wrsr {n : Fin 33} (hn : n = 22 ∨ n = 28 ∨ n = 32) (b : Operand) (g : Guard) (s : State) :
    exec (.wrsr n b g) s = issueOp s g (fun x => trapSets x [(b, 1)] [] g) (wrsrBody s n.val b g) := by
  rcases hn with rfl | rfl | rfl <;> rfl

theorem specialRegisterWrite : Sys2Proof.Claims.SpecialRegisterWrite := by
  intro n b g s x hn h ho
  by_cases hempty : x.active = []
  · obtain ⟨z, hz⟩ := passed_of_idle (exec_wrsr hn b g s) h (wrsrBody_idle h.plain hempty n b g)
    refine ⟨_, z, hz.next, hz.context, hz.cells, hz.memory, by simp [hempty], fun p _ => ?_⟩
    have hth := writables_of_sansPc (hz.thread p)
    simp only [Thread.writables, Prod.mk.injEq] at hth
    exact ⟨hth.2.1, hth.2.2, hth.1⟩
  · obtain ⟨P, hf⟩ := h.joins.fit
    obtain ⟨set, tab, hset, _⟩ := hf.joinAll (resultSets x x.active [(b, 1)] [] false g) s.osets 0 hf.here
    have hb : wrsrBody s n b g x =
        .ok ((x.onActive x fun p => writeSpecial n (val32 x b p) set).put { s with osets := tab }) := by
      simp only [wrsrBody, List.isEmpty_iff, hempty, if_false, ho.check_sources, hset, h.plain, Option.isSome_none, Bool.false_eq_true,
        Iss.onActive]
    obtain ⟨z, hz⟩ := passed_of_put (exec_wrsr hn b g s) h hb rfl (grid_onActive x x _) h.plain
    refine ⟨_, z, hz.next, hz.context, fun c => (hz.cells c).trans (cell_onActive x x _ c), hz.memory, fun p hp => ?_, fun p hp => ?_⟩
    · have hth := writables_of_sansPc (hz.thread p)
      rw [Iss.onActive, Crew.thread_modThreads_mem _ _ _ h.activeNodup (fun q hq => h.inSheaf q (h.activeMem hq))
        (fun q hq => h.inThread q (h.activeMem hq)) p hp] at hth
      simp only [Thread.writables, Prod.mk.injEq] at hth
      obtain ⟨hfpx, hrmode, hptsel⟩ := hth
      simp only [hfpx, hrmode, hptsel]
      exact writables_writeSpecial hn (val32 x b p) set (x.crew.thread p)
    · have hth := writables_of_sansPc (hz.thread p)
      rw [Iss.onActive, Crew.thread_modThreads_other _ _ _ _ hp] at hth
      simp only [Thread.writables, Prod.mk.injEq] at hth
      exact ⟨hth.2.1, hth.2.2, hth.1⟩

end Sys2Proof.Machine

namespace Sys2Proof.Proofs

open Sys2Proof.Machine

/-- Settles O52: it holds. RDSR writes one word to each active thread's place and sets latches alone; WRSR changes its active threads. -/
theorem specialRegisters : Obligations.SpecialRegisters := ⟨specialRegisterRead, specialRegisterWrite⟩

end Sys2Proof.Proofs
end

section
/-! SUPPORT. Divergences: what a branch leaves in the threads it sends on (03_registers.md R85; 08_isa_control.md R187, R189). -/

namespace Sys2Proof.Machine

/-! ## A branch sends its threads on -/

/-- The crew of x once each thread of a branch stands at its target. -/
def Iss.branched (x : Iss) (dest : Nat × Nat → Dword) (u : Option OSet) (n : Nat) : Crew :=
  x.crew.modThreads x.present fun p th => branchThread n (dest p) u th

theorem sheaves_spinStep (c : Crew) (role addr k : Nat) : (spinStep c role addr k).sheaves = c.sheaves := by
  simp only [spinStep]
  exact (apply_ite Crew.sheaves _ _ _).trans (ite_self _)

section
variable {s : State} {g : Guard} {x : Iss} (h : Issues s g x)
include h

theorem Issues.thread_branched (dest : Nat × Nat → Dword) (u : Option OSet) (n : Nat) {p : Nat × Nat} (hp : p ∈ x.present) :
    (x.branched dest u n).thread p = branchThread n (dest p) u (x.crew.thread p) :=
  Crew.thread_modThreads_mem _ _ _ h.presentNodup h.inSheaf h.inThread p hp

/-- Outside an episode a branch leaves its threads as `branched` does: the spin detector and the switch point keep the home sheaves. -/
theorem branchTo_spec (dest : Nat × Nat → Dword) (sets : List OSet) {u : Option OSet} {t : Map OEntry}
    (hset : branchSet x s.osets (dedup (x.present.map fun p => (dest p).toNat)).length sets = .ok (u, t)) :
    ∃ s' w, branchTo s x dest sets = .ok s' ∧ Map.find? s'.crews x.cur.crew = some w ∧ s'.plainAt x.cur.crew x.cur.group ∧
      w.sheaves = (x.branched dest u s.seq).sheaves := by
  have he : x.grp.endClause.episode = none := h.plain
  simp only [branchTo, hset, countEpisode, he]
  refine ⟨_, _, rfl, Map.find?_mod_self _ _ _ _ (Map.find?_put_self _ _ _), ?_, (congrArg Crew.sheaves (sansGroups_splitByPc _ _ _) :).trans ?_⟩
  · refine State.plainAt.modCrew (fun c hc q hq => ?_) fun c hc => plainAt_splitByPc hc x.present
    cases (Map.find?_put_self _ _ _).symm.trans hc
    cases (Map.find?_put_self _ _ _).symm.trans hq
    dsimp only
    split <;> rfl
  · have hfold := foldl_keeps (f := fun c d => spinStep c x.grp.endClause.role d x.grp.endClause.wHash) Crew.sheaves
      (fun c d => sheaves_spinStep c _ d _)
    dsimp only
    split <;> exact hfold _ _

/-- A branch goes past with its threads sent on. -/
theorem branchOp_spec {i : Instr} {set : Iss → List OSet} {body : Iss → Except Stop State} {dest : Nat × Nat → Dword} {sets : List OSet}
    {u : Option OSet} {t : Map OEntry} (hx : exec i s = branchOp s g set body) (hb : body x = branchTo s x dest sets)
    (hset : branchSet x s.osets (dedup (x.present.map fun p => (dest p).toNat)).length sets = .ok (u, t)) :
    ∃ t, exec i s = .next t ∧ ∀ p ∈ x.present, t.threadAt x.cur.crew p = branchThread s.seq (dest p) u (x.crew.thread p) := by
  obtain ⟨s', w, hs, hw, hplain, hsheaves⟩ := branchTo_spec h dest sets hset
  have hr := (regrouped_freeBuffer s' x.cur.crew x.cur.group).trans (regrouped_finishIssue (cu := x.cur) (plainAt_freeBuffer hplain))
  obtain ⟨w', hw', hk⟩ := hr.find hw
  refine ⟨finishIssue (freeBuffer s' x.cur.crew x.cur.group) x.cur, by simp only [hx, branchOp, h.issuer, hb, hs], fun p hp => ?_⟩
  have hsheaves' : w'.sheaves = (x.branched dest u s.seq).sheaves := (congrArg Crew.sheaves hk :).trans hsheaves
  rw [threadAt_of_find hw', ← h.thread_branched dest u s.seq hp]
  simp only [Crew.thread, Crew.sheaf, hsheaves']

end

/-! ## Divergences -/

theorem one_lt_length_dedup {xs : List Nat} {a b : Nat} (ha : a ∈ xs) (hb : b ∈ xs) (hab : a ≠ b) : 1 < (dedup xs).length :=
  (Finset.one_lt_card.2 ⟨a, List.mem_toFinset.2 ((mem_dedup a xs).2 ha), b, List.mem_toFinset.2 ((mem_dedup b xs).2 hb), hab⟩).trans_le
    (List.toFinset_card_le _)

theorem length_dedup_le_one {xs : List Nat} (h : ∀ a ∈ xs, ∀ b ∈ xs, a = b) : (dedup xs).length ≤ 1 := by
  rw [← List.toFinset_card_of_nodup (dedup_nodup xs), Finset.card_le_one]
  simpa [mem_dedup] using h

/-- Targets that differ are a divergence. -/
theorem branchSet_of_ne {x : Iss} {t tab : Map OEntry} {dest : Nat × Nat → Dword} {sets : List OSet} {u : OSet} {p q : Nat × Nat}
    (hp : p ∈ x.present) (hq : q ∈ x.present) (hne : dest p ≠ dest q)
    (hj : osJoinAll t 0 (entrySets x.crew x.grp.role x.cur.addr ++ sets) = .ok (u, tab)) :
    branchSet x t (dedup (x.present.map fun p => (dest p).toNat)).length sets = .ok (some u, tab) := by
  have hlen := one_lt_length_dedup (xs := x.present.map fun p => (dest p).toNat) (List.mem_map_of_mem hp) (List.mem_map_of_mem hq)
    fun e => hne (BitVec.eq_of_toNat_eq e)
  simp only [branchSet, if_neg (Nat.not_le.2 hlen), hj]

/-- One target for all is no divergence. -/
theorem branchSet_of_const {x : Iss} {t : Map OEntry} {dest : Nat × Nat → Dword} {sets : List OSet} {a : Dword}
    (hd : ∀ p ∈ x.present, dest p = a) :
    branchSet x t (dedup (x.present.map fun p => (dest p).toNat)).length sets = .ok (none, t) := by
  refine if_pos (length_dedup_le_one ?_)
  simp only [List.forall_mem_map]
  exact fun p hp q hq => by rw [hd p hp, hd q hq]

section
variable {s : State} {g : Guard} {x : Iss} (h : Issues s g x)
include h

/-- Outside an episode a guard's active threads all take the branch. -/
theorem Issues.takers_eq (g' : Guard) : takers x g' = x.active := by
  simp [takers, predInv, h.plain]

end

theorem checkTarget_ok {a : Dword} {ts : List (Nat × Nat)} (ht : ts ≠ [] → a.toNat < 2 ^ 57) : checkTarget a ts = .ok () := by
  by_cases ha : ts = []
  · simp [checkTarget, ha]
  · simp only [checkTarget, Nat.div_eq_of_lt (ht ha), bne_self_eq_false, Bool.and_false, Bool.false_eq_true, if_false]

section
variable {s : State} {g : Guard} {x : Iss} (h : Issues s g x)
include h

/-- BRA to an address that may be a target. -/
theorem bra_spec {off : BitVec 22} (ht : x.active ≠ [] → (Sys2Proof.Claims.branchTarget x off).toNat < 2 ^ 57) {u : Option OSet}
    {t : Map OEntry} (hset : branchSet x s.osets (dedup (x.present.map fun p => (takenOr x.active (x.target off) x p).toNat)).length
      (predSets x x.present g.pred) = .ok (u, t)) :
    ∃ t, exec (.bra off g) s = .next t ∧ ∀ p ∈ x.present,
      t.threadAt x.cur.crew p = branchThread s.seq (takenOr x.active (x.target off) x p) u (x.crew.thread p) := by
  have hcheck : checkTarget (x.target off) x.active = .ok () := checkTarget_ok ht
  exact branchOp_spec h rfl (by simp only [h.takers_eq, hcheck]) hset

/-- BRA with its taken lanes apart from the others diverges. -/
theorem bra_diverges {off : BitVec 22} (ht : x.active ≠ [] → (Sys2Proof.Claims.branchTarget x off).toNat < 2 ^ 57) {p q : Nat × Nat}
    (hp : p ∈ x.active) (hq : q ∈ x.present) (hqa : q ∉ x.active) (hne : x.target off ≠ x.next) :
    ∃ u tab t, osJoinAll s.osets 0 (entrySets x.crew x.grp.role x.cur.addr ++ predSets x x.present g.pred) = .ok (u, tab) ∧
      exec (.bra off g) s = .next t ∧ ∀ p ∈ x.present, let th := t.threadAt x.cur.crew p
        th.octx = u ∧ th.divs = (({ id := s.seq, saved := (x.crew.thread p).octx } : DivRec) :: (x.crew.thread p).divs).take 16 := by
  obtain ⟨P, hf⟩ := h.joins.fit
  obtain ⟨u, tab, hu, _⟩ := hf.joinAll (entrySets x.crew x.grp.role x.cur.addr ++ predSets x x.present g.pred) s.osets 0 hf.here
  obtain ⟨t, ht, hth⟩ := bra_spec h ht
    (branchSet_of_ne (h.activeMem hp) hq (dest := takenOr x.active (x.target off) x) (by simpa [takenOr, hp, hqa] using hne) hu)
  refine ⟨u, tab, t, hu, ht, fun p hp => ?_⟩
  rw [hth p hp]
  exact ⟨rfl, rfl⟩

/-- BRA that sends all its threads to one clause keeps their control sets and divergences. -/
theorem bra_together {off : BitVec 22} (ht : x.active ≠ [] → (Sys2Proof.Claims.branchTarget x off).toNat < 2 ^ 57) {a : Dword}
    (hd : ∀ p ∈ x.present, takenOr x.active (x.target off) x p = a) :
    ∃ t, exec (.bra off g) s = .next t ∧ ∀ p ∈ x.present, (t.threadAt x.cur.crew p).octx = (x.crew.thread p).octx ∧
      (t.threadAt x.cur.crew p).divs = (x.crew.thread p).divs := by
  obtain ⟨t, ht, hth⟩ := bra_spec h ht (branchSet_of_const hd)
  refine ⟨t, ht, fun p hp => ?_⟩
  rw [hth p hp]
  exact ⟨rfl, rfl⟩

/-- No checked lane of a BRX fails where each pair holds an address that may be a target. -/
theorem brxBad_eq_nil {a : Operand} (ha : ∀ p ∈ x.active, (val64 x a p).toNat < 2 ^ 57 ∧ (val64 x a p).toNat % 4 = 0) : brxBad x a = [] := by
  simp only [brxBad, h.takers_eq, List.filterMap_eq_nil_iff]
  intro p hp
  simp only [Nat.div_eq_of_lt (ha p hp).1, (ha p hp).2, bne_self_eq_false, Bool.false_eq_true, if_false]

/-- BRX by active threads whose pairs differ diverges. -/
theorem brx_diverges {a : Operand} (ho : Operable x [(a, 2)] .z 0)
    (ha : ∀ p ∈ x.active, (val64 x a p).toNat < 2 ^ 57 ∧ (val64 x a p).toNat % 4 = 0) {p q : Nat × Nat} (hp : p ∈ x.active)
    (hq : q ∈ x.active) (hne : val64 x a p ≠ val64 x a q) :
    ∃ u tab t, osJoinAll s.osets 0 (entrySets x.crew x.grp.role x.cur.addr ++ predSets x x.present g.pred ++ opSets x x.present (a, 2)) =
        .ok (u, tab) ∧ exec (.brx a g) s = .next t ∧ ∀ p ∈ x.present, (t.threadAt x.cur.crew p).octx = u := by
  obtain ⟨P, hf⟩ := h.joins.fit
  obtain ⟨u, tab, hu, _⟩ := hf.joinAll (entrySets x.crew x.grp.role x.cur.addr ++ predSets x x.present g.pred ++ opSets x x.present (a, 2))
    s.osets 0 hf.here
  have hinv : (x.active.any fun p => opInv x (a, 2) p) = false := by simp [opInv, regInv, h.plain]
  obtain ⟨t, ht, hth⟩ := branchOp_spec h (i := .brx a g) (dest := fun p => if x.active.contains p then val64 x a p else x.next)
    (sets := predSets x x.present g.pred ++ opSets x x.present (a, 2)) rfl
    (by simp only [h.takers_eq, ho.check_sources, hinv, Bool.false_eq_true, if_false, brxBad_eq_nil h ha,
      List.isEmpty_nil, Bool.not_true])
    (branchSet_of_ne (h.activeMem hp) (h.activeMem hq) (by simpa [hp, hq] using hne) (by rw [← List.append_assoc]; exact hu))
  refine ⟨u, tab, t, hu, ht, fun p hp => ?_⟩
  rw [hth p hp]
  rfl

end

/-! ## The statement -/

theorem divergencesJoin : Sys2Proof.Claims.DivergencesJoin := by
  refine ⟨fun off g s x h ht => ⟨?_, fun hone => ?_⟩, ?_⟩
  · rintro ⟨p, hp, q, hq, hqa, _, hne⟩
    exact bra_diverges h ht hp hq hqa (by rwa [Iss.next_eq_after])
  · rcases hone with hall | hnone | heq
    · exact bra_together h ht (a := x.target off) fun p hp => by simp [takenOr, hall p hp]
    · exact bra_together h ht (a := x.next) fun p _ => by simp [takenOr, hnone]
    · have heq' : x.target off = x.next := heq.trans x.next_eq_after.symm
      exact bra_together h ht (a := x.next) fun p _ => by simp [takenOr, heq']
  · rintro a g s x h ho _ ha ⟨p, hp, q, hq, hne⟩
    exact brx_diverges h ho ha hp hq hne

end Sys2Proof.Machine
end

section
/-! SUPPORT. The origin sets that registers, predicates and slots take from a result (03_registers.md R82, R83). -/

namespace Sys2Proof.Machine

open Sys2Proof.Claims (SetWritten)

/-! ## One set -/

/-- The set u that a place of set old takes from a result of set s, with the table before and after (R83). -/
def Takes (full : Bool) (old s u : OSet) (t t' : Map OEntry) : Prop := if full then u = s ∧ t' = t else osJoin t old s = .ok (u, t')

section
variable {full : Bool} {old s u : OSet} {t t' t0 t1 : Map OEntry}

theorem Takes.grows (h : Takes full old s u t t') : Grows t t' := by
  cases full with
  | true => exact h.2 ▸ Grows.refl t
  | false => exact osJoinAll_grows h

theorem Takes.setWritten (h : Takes full old s u t t') : SetWritten full old s u t t' := by
  cases full with
  | true => exact h.1
  | false => exact ⟨t, t', h, Grows.refl t, Grows.refl t'⟩

/-- A set stays written between a smaller table before and a larger one after. -/
theorem setWritten_mono (h : SetWritten full old s u t t') (hbefore : Grows t0 t) (hafter : Grows t' t1) : SetWritten full old s u t0 t1 := by
  cases full with
  | true => exact h
  | false =>
    obtain ⟨a, b, hj, ha, hb⟩ := h
    exact ⟨a, b, hj, hbefore.trans ha, Grows.trans hb hafter⟩

end

/-! ## The sets of several home sheaves -/

/-- From a to b, crews with tables, place r of each home sheaf of hs takes the set s; `get` reads the set of a place. -/
structure SetsPut (get : Crew → Nat → Nat → OSet) (r : Nat) (s : OSet) (full : Nat → Bool) (hs : List Nat) (a b : Crew × Map OEntry) :
    Prop where
  grows : Grows a.2 b.2
  hit : ∀ h ∈ hs, SetWritten (full h) (get a.1 h r) s (get b.1 h r) a.2 b.2
  miss : ∀ h i, i ≠ r ∨ h ∉ hs → get b.1 h i = get a.1 h i

section
variable {get : Crew → Nat → Nat → OSet} {r : Nat} {s : OSet} {full : Nat → Bool} {hs : List Nat} {a b c : Crew × Map OEntry}

/-- One home sheaf's place. -/
theorem setsPut_of_takes {h : Nat} {u : OSet} (ht : Takes (full h) (get a.1 h r) s u a.2 b.2)
    (hget : ∀ k i, get b.1 k i = if k = h ∧ i = r then u else get a.1 k i) : SetsPut get r s full [h] a b := by
  refine ⟨ht.grows, fun k hk => ?_, fun k i hi => ?_⟩
  · cases List.mem_singleton.1 hk
    rw [hget, if_pos ⟨rfl, rfl⟩]
    exact ht.setWritten
  · rw [hget, if_neg]
    rintro ⟨rfl, rfl⟩
    simp at hi

theorem SetsPut.cons {k : Nat} (hk : k ∉ hs) (h1 : SetsPut get r s full [k] a b) (h2 : SetsPut get r s full hs b c) :
    SetsPut get r s full (k :: hs) a c := by
  refine ⟨h1.grows.trans h2.grows, fun h hh => ?_, fun h i hi => ?_⟩
  · by_cases hr : h ∈ hs
    · rw [← h1.miss h r (.inr fun e => hk (List.mem_singleton.1 e ▸ hr))]
      exact setWritten_mono (h2.hit h hr) h1.grows (Grows.refl _)
    · rw [h2.miss h r (.inr hr)]
      exact setWritten_mono (h1.hit h (by simpa [hr] using hh)) (Grows.refl _) h2.grows
  · rw [h2.miss h i (hi.imp_right fun e m => e (List.mem_cons_of_mem k m)),
      h1.miss h i (hi.imp_right fun e m => e (List.mem_cons.2 (.inl (List.mem_singleton.1 m))))]

/-- Home sheaf by home sheaf. -/
theorem setsPut_foldE {step : Crew × Map OEntry → Nat → Except Cause (Crew × Map OEntry)} {Q : Crew → Prop}
    (hstep : ∀ h ∈ hs, ∀ a b, Q a.1 → step a h = .ok b → Q b.1 ∧ SetsPut get r s full [h] a b) (hn : hs.Nodup) (hQ : Q a.1)
    (hf : foldE step a hs = .ok b) : SetsPut get r s full hs a b := by
  induction hs generalizing a with
  | nil =>
    cases hf
    exact ⟨Grows.refl _, fun _ h => absurd h (by simp), fun _ _ _ => rfl⟩
  | cons k rest ih =>
    obtain ⟨hk, hrest⟩ := List.nodup_cons.1 hn
    simp only [foldE] at hf
    split at hf
    · cases hf
    · rename_i z hz
      obtain ⟨hQz, h1⟩ := hstep k List.mem_cons_self a z hQ hz
      exact h1.cons hk (ih (fun h hh => hstep h (List.mem_cons_of_mem k hh)) hrest hQz hf)

end

/-! ## Main registers and predicates -/

section
variable {c : Crew} {b : Crew × Map OEntry} {h r : Nat} {s : OSet} {t : Map OEntry}

theorem putMainSet_ok {full : Bool} (hp : putMainSet c h r s full t = .ok b) : ∃ u, Takes full ((c.sheaf h).mainSet r) s u t b.2 ∧
    b.1 = c.modSheaf h fun z => { z with mainS := Map.put z.mainS r u } := by
  unfold putMainSet at hp
  split at hp
  · next hfull =>
    cases hp
    exact ⟨s, by simp [Takes, hfull], rfl⟩
  · next hfull =>
    split at hp <;> cases hp
    next u t' hj => exact ⟨u, by simp [Takes, hfull, hj], rfl⟩

theorem putPredSet_ok {full : Bool} (hp : putPredSet c h r s full t = .ok b) : ∃ u, Takes full ((c.sheaf h).predSet r) s u t b.2 ∧
    b.1 = c.modSheaf h fun z => { z with pS := Map.put z.pS r u } := by
  unfold putPredSet at hp
  split at hp
  · next hfull =>
    cases hp
    exact ⟨s, by simp [Takes, hfull], rfl⟩
  · next hfull =>
    split at hp <;> cases hp
    next u t' hj => exact ⟨u, by simp [Takes, hfull, hj], rfl⟩

theorem length_modSheaf (f : Sheaf → Sheaf) : (c.modSheaf h f).sheaves.length = c.sheaves.length := List.length_modify ..

variable {full : Nat → Bool} {hs : List Nat}

/-- The sets of a main register in several home sheaves. -/
theorem setsPut_mainSets (hn : hs.Nodup) (hh : ∀ h ∈ hs, h < c.sheaves.length)
    (hf : foldE (fun (a : Crew × Map OEntry) h => putMainSet a.1 h r s (full h) a.2) (c, t) hs = .ok b) :
    SetsPut (fun c h i => (c.sheaf h).mainSet i) r s full hs (c, t) b := by
  refine setsPut_foldE (Q := fun d => d.sheaves.length = c.sheaves.length) (fun h hm a b hQ hp => ?_) hn rfl hf
  obtain ⟨u, hu, hb⟩ := putMainSet_ok hp
  refine ⟨by rw [hb, length_modSheaf, hQ], setsPut_of_takes hu fun k i => ?_⟩
  rw [hb, Crew.sheaf_modSheaf _ _ _ _ (hQ ▸ hh h hm)]
  by_cases hk : k = h
  · subst hk
    simp [Sheaf.mainSet, Map.get_put]
  · simp [hk]

/-- The sets of a predicate in several home sheaves. -/
theorem setsPut_predSets (hr : r ≠ 7) (hn : hs.Nodup) (hh : ∀ h ∈ hs, h < c.sheaves.length)
    (hf : foldE (fun (a : Crew × Map OEntry) h => putPredSet a.1 h r s (full h) a.2) (c, t) hs = .ok b) :
    SetsPut (fun c h i => (c.sheaf h).predSet i) r s full hs (c, t) b := by
  refine setsPut_foldE (Q := fun d => d.sheaves.length = c.sheaves.length) (fun h hm a b hQ hp => ?_) hn rfl hf
  obtain ⟨u, hu, hb⟩ := putPredSet_ok hp
  refine ⟨by rw [hb, length_modSheaf, hQ], setsPut_of_takes hu fun k i => ?_⟩
  rw [hb, Crew.sheaf_modSheaf _ _ _ _ (hQ ▸ hh h hm)]
  by_cases hk : k = h
  · subst hk
    by_cases hi : i = r
    · simp [Sheaf.predSet, hi, hr]
    · simp [Sheaf.predSet, Map.get_put, hi]
  · simp [hk]

end

/-! ## Slots -/

theorem regionSets_putRegionSets (c : Crew) (fam : Nat) (m : RegionMap) (ss : Map SlotSets) :
    (c.putRegionSets fam m ss).regionSets fam m = ss := by
  have hnone : (c.slotS.filter fun r => !(r.family == fam && r.map == m)).find? (fun r => r.family == fam && r.map == m) = none := by
    rw [List.find?_eq_none]
    intro r hr
    simpa [imp_iff_not_or] using (List.mem_filter.1 hr).2
  simp only [Crew.regionSets, Crew.putRegionSets, List.find?_append, hnone]
  simp

theorem slotSets_putSlotSets (c : Crew) (fam : Nat) (m : RegionMap) (i j : Nat) (ss : SlotSets) :
    (c.putSlotSets fam m i ss).slotSets fam m j = if j = i then ss else c.slotSets fam m j := by
  simp only [Crew.slotSets, Crew.putSlotSets, regionSets_putRegionSets, Map.get_put]

/-- The set of a slot of a region in a home sheaf. -/
def Crew.slotSetIn (fam : Nat) (m : RegionMap) (c : Crew) (h i : Nat) : OSet := Map.get (c.slotSets fam m i).sets h 0

theorem putSlotSet_ok {fam i h : Nat} {m : RegionMap} {s : OSet} {full whole : Bool} {a b : Crew × Map OEntry}
    (hp : putSlotSet fam m i s full whole a h = .ok b) : ∃ u rep, Takes full (a.1.slotSetIn fam m h i) s u a.2 b.2 ∧
      b.1 = a.1.putSlotSets fam m i { sets := Map.put (a.1.slotSets fam m i).sets h u, replaced := rep } := by
  unfold putSlotSet at hp
  dsimp only at hp
  split at hp
  · next hfull =>
    cases hp
    exact ⟨s, _, by simp [Takes, hfull], rfl⟩
  · next hfull =>
    split at hp <;> cases hp
    next u t' hj => exact ⟨u, _, by simpa [Takes, hfull, Crew.slotSetIn] using hj, rfl⟩

/-- The sets of a slot in several home sheaves. -/
theorem setsPut_slotSets {fam i : Nat} {m : RegionMap} {s : OSet} {full whole : Nat → Bool} {hs : List Nat} {a b : Crew × Map OEntry}
    (hn : hs.Nodup) (hf : foldE (fun a h => putSlotSet fam m i s (full h) (whole h) a h) a hs = .ok b) :
    SetsPut (Crew.slotSetIn fam m) i s full hs a b := by
  refine setsPut_foldE (Q := fun _ => True) (fun h _ a b _ hp => ?_) hn trivial hf
  obtain ⟨u, rep, hu, hb⟩ := putSlotSet_ok hp
  refine ⟨trivial, setsPut_of_takes hu fun k j => ?_⟩
  simp only [Crew.slotSetIn, hb, slotSets_putSlotSets]
  by_cases hj : j = i
  · subst hj
    simp [Map.get_put]
  · simp [hj]

end Sys2Proof.Machine
end

section
/-! SUPPORT. The sets of a destination after the write of one register (03_registers.md R73, R74, R83). -/

namespace Sys2Proof.Machine

open Sys2Proof.Claims (SetWritten)

/-! ## What writes leave of a home sheaf's sets -/

/-- The origin sets of a home sheaf's registers and predicates. -/
def Sheaf.originSets (z : Sheaf) : Map OSet × Map OSet × Map OSet := (z.mainS, z.kS, z.pS)

theorem originSets_putMains (r : Nat) (vs : List ((Nat × Nat) × Word)) (c : Crew) (h : Nat) :
    ((c.putMains r vs).sheaf h).originSets = (c.sheaf h).originSets := by
  unfold Crew.putMains
  refine foldl_keeps (fun c : Crew => (c.sheaf h).originSets) (fun d v => ?_) vs c
  exact Crew.sheaf_modSheaf_prop d v.1.2 h _ Sheaf.originSets fun _ => rfl

theorem originSets_stampDirect (r : Nat) (ps : List (Nat × Nat)) (c : Crew) (h : Nat) :
    ((stampDirect c r ps).sheaf h).originSets = (c.sheaf h).originSets := by
  unfold stampDirect
  split
  · rfl
  · refine (foldl_keeps (fun c : Crew => (c.sheaf h).originSets) (fun d k => ?_) _ _).trans
      (foldl_keeps (fun c : Crew => (c.sheaf h).originSets) (fun d p => ?_) ps c)
    · split
      · exact Crew.sheaf_modSheaf_prop d k h _ Sheaf.originSets fun _ => rfl
      · rfl
    · exact Crew.sheaf_modSheaf_prop d p.2 h _ Sheaf.originSets fun _ => rfl

/-- A direct write: the values, then the sets, then the notes of window stores. -/
theorem writeMainOf_ok {x y : Iss} {r : Nat} {vs : List ((Nat × Nat) × Word)} {all : List (Nat × Nat)} {s : OSet} {t t' : Map OEntry}
    (he : x.grp.episode = none) (hp : writeMainOf x r vs all s t = .ok (y, t')) :
    ∃ c, foldE (fun (a : Crew × Map OEntry) h => putMainSet a.1 h r s (allLanes all h) a.2) (x.crew.putMains r vs, t)
      (homesOf (vs.map (·.1))) = .ok (c, t') ∧ y.crew = stampDirect c r (vs.map (·.1)) := by
  unfold writeMainOf at hp
  rw [he] at hp
  dsimp only at hp
  split at hp
  · cases hp
  · rename_i c u hf
    cases hp
    exact ⟨c, hf, rfl⟩

theorem writeSlotOf_ok {x y : Iss} {i : Nat} {vs : List ((Nat × Nat) × Word)} {all : List (Nat × Nat)} {s : OSet} {t t' : Map OEntry}
    (hp : writeSlotOf x i vs all s t = .ok (y, t')) : putSlotSets x.crew y.grp i (vs.map (·.1)) all s t = .ok (y.crew, t') := by
  unfold writeSlotOf at hp
  dsimp only at hp
  split at hp
  · cases hp
  · next hs =>
    cases hp
    exact hs

/-- A direct write leaves the sets of k registers and of predicates. -/
theorem writeMainOf_sideSets {x y : Iss} {r : Nat} {vs : List ((Nat × Nat) × Word)} {all : List (Nat × Nat)} {s : OSet} {t t' : Map OEntry}
    (he : x.grp.episode = none) (hp : writeMainOf x r vs all s t = .ok (y, t')) (h : Nat) :
    (y.crew.sheaf h).originSets.2 = (x.crew.sheaf h).originSets.2 := by
  obtain ⟨c, hf, hy⟩ := writeMainOf_ok he hp
  have hfold := foldE_keeps_eq (fun a : Crew × Map OEntry => (a.1.sheaf h).originSets.2) (fun a k b hb => by
    obtain ⟨u, _, hb⟩ := putMainSet_ok hb
    rw [hb]
    exact Crew.sheaf_modSheaf_prop a.1 k h _ (fun z => z.originSets.2) fun _ => rfl) hf
  rw [hy, originSets_stampDirect]
  exact hfold.trans (by rw [originSets_putMains])

/-- So does a write of a register named directly, whatever lanes the window maps it for. -/
theorem writeXreg_sideSets {x y : Iss} {v : Nat} {vs : List ((Nat × Nat) × Word)} {all : List (Nat × Nat)} {s : OSet} {t t' : Map OEntry}
    (he : x.grp.episode = none) (hp : writeXreg x v vs all s t = .ok (y, t')) (h : Nat) :
    (y.crew.sheaf h).originSets.2 = (x.crew.sheaf h).originSets.2 := by
  unfold writeXreg at hp
  dsimp only at hp
  split at hp
  · cases hp
  · rename_i z u hz
    obtain ⟨ss, rfl⟩ := writeMapped_values (f := fun p => xregSlot x.grp p.1 v) hz
    split at hp
    · cases hp
      rfl
    · exact writeMainOf_sideSets ((congrArg Group.episode (putMapped_sans _ _ _ x.grp).2 :).trans he) hp h

/-- Where no lane's region maps the register, a write of it is a direct write. -/
theorem writeXreg_direct {x : Iss} {v : Nat} {vs : List ((Nat × Nat) × Word)} (hv : ∀ q ∈ vs, xregSlot x.grp q.1.1 v = none) (hne : vs ≠ [])
    (all : List (Nat × Nat)) (s : OSet) (t : Map OEntry) : writeXreg x v vs all s t = writeMainOf x v vs all s t := by
  have hmapped : (vs.filter fun q => (xregSlot x.grp q.1.1 v).isSome) = [] := by
    rw [List.filter_eq_nil_iff]
    exact fun q hq => by simp [hv q hq]
  have hdirect : (vs.filter fun q => (xregSlot x.grp q.1.1 v).isNone) = vs := by
    rw [List.filter_eq_self]
    exact fun q hq => by simp [hv q hq]
  simp only [writeXreg, hmapped, hdirect, List.filterMap_nil, dedup, foldE, List.isEmpty_iff, hne, if_false]

/-- The sets of k register i after a write in some home sheaves: replaced in each, every other as it was. -/
theorem kSteps_kS {i : Nat} {vs : List ((Nat × Nat) × Word)} {s : OSet} {hs : List Nat} {x : Iss} (hh : ∀ h ∈ hs, h < x.crew.sheaves.length)
    (hv : ∀ h ∈ hs, ∃ v, vs.find? (fun v => v.1.2 == h) = some v) (k j : Nat) :
    Map.get ((hs.foldl (kStep i vs s) x).crew.sheaf k).kS j 0 = if k ∈ hs ∧ j = i then s else Map.get (x.crew.sheaf k).kS j 0 := by
  induction hs generalizing x with
  | nil => simp
  | cons a rest ih =>
    obtain ⟨v, hva⟩ := hv a List.mem_cons_self
    have hx : (kStep i vs s x a).crew = x.crew.modSheaf a fun z => { z with k := Map.put z.k i v.2, kS := Map.put z.kS i s } := by
      simp only [kStep, hva]
    rw [List.foldl_cons, ih (fun h hm => by rw [hx, length_modSheaf]; exact hh h (List.mem_cons_of_mem a hm))
      (fun h hm => hv h (List.mem_cons_of_mem a hm)), hx, Crew.sheaf_modSheaf _ _ _ _ (hh a List.mem_cons_self)]
    by_cases hk : k = a
    · subst hk
      by_cases hj : j = i <;> simp [hj, Map.get_put]
    · simp [hk]

theorem kSteps_pS (i : Nat) (vs : List ((Nat × Nat) × Word)) (s : OSet) (hs : List Nat) (x : Iss) (h : Nat) :
    ((hs.foldl (kStep i vs s) x).crew.sheaf h).pS = (x.crew.sheaf h).pS :=
  foldl_keeps (fun x : Iss => (x.crew.sheaf h).pS) (fun x k => by
    unfold kStep
    split
    · rfl
    · exact Crew.sheaf_modSheaf_prop x.crew k h _ Sheaf.pS fun _ => rfl) hs x

theorem predSet_congr {z z' : Sheaf} (h : z'.pS = z.pS) (i : Nat) : z'.predSet i = z.predSet i := by
  simp only [Sheaf.predSet, h]

/-! ## A group of one region -/

section
variable {g : Group} {rg : Region} (hg : g.regions = [rg])
include hg

theorem regionOf_single (l : Nat) : regionOf g l = if rg.lanes.contains l then some rg else none := by
  simp only [regionOf, hg, List.find?_cons, List.find?_nil]
  cases rg.lanes.contains l <;> rfl

theorem slotSetAt_single (c : Crew) (l i h : Nat) :
    slotSetAt c g l i h = if rg.lanes.contains l then c.slotSetIn g.family rg.map h i else 0 := by
  simp only [slotSetAt, regionOf_single hg]
  cases rg.lanes.contains l <;> rfl

theorem slotOf_single {l i : Nat} (h : (slotOf g l i).isSome) : rg.lanes.contains l = true ∧ (Map.find? rg.slots i).isSome := by
  simp only [slotOf, regionOf_single hg] at h
  split at h
  · next hl => exact ⟨hl, h⟩
  · simp at h

/-- The write of a slot by threads of the one region sets the slot's sets in their home sheaves. -/
theorem setsPut_putSlotSets {c c' : Crew} {i : Nat} {ps all : List (Nat × Nat)} {s : OSet} {t t' : Map OEntry}
    (hs : ∀ p ∈ ps, (slotOf g p.1 i).isSome) (hne : ps ≠ []) (hp : putSlotSets c g i ps all s t = .ok (c', t')) :
    SetsPut (Crew.slotSetIn g.family rg.map) i s (allLanes all) (homesOf ps) (c, t) (c', t') := by
  obtain ⟨p, hmem⟩ := List.exists_mem_of_ne_nil ps hne
  have hmine : (ps.filter fun p => rg.lanes.contains p.1) = ps := List.filter_eq_self.2 fun p hp => (slotOf_single hg (hs p hp)).1
  have hslot : (Map.find? rg.slots i).isNone = false := by
    simpa using (slotOf_single hg (hs p hmem)).2
  simp only [putSlotSets, hg, foldE, putRegionSets, hslot, Bool.false_eq_true, if_false, hmine] at hp
  split at hp
  · cases hp
  · next hf =>
    cases hp
    exact setsPut_slotSets (homesOf_nodup ps) hf

end

end Sys2Proof.Machine
end

section
/-! SUPPORT. Registers and predicates take the result set of their instruction (03_registers.md R74, R82, R83). -/

namespace Sys2Proof.Machine

open Sys2Proof.Claims (SetWritten twoSource psetForms)

/-! ## A destination of one register -/

/-- From x to y the sets follow a result of set `set` in the 32-bit destination d, and no other set changes; `tab` and `after` are the tables
before and after. -/
structure SetsFollow (x y : Iss) (d : Operand) (set : OSet) (tab after : Map OEntry) : Prop where
  kOthers : ∀ h i, (∀ k, d = .k k → i = k.val → h ∉ homesOf x.active) → Map.get (y.crew.sheaf h).kS i 0 = Map.get (x.crew.sheaf h).kS i 0
  preds : ∀ h i, (y.crew.sheaf h).predSet i = (x.crew.sheaf h).predSet i
  ofK : ∀ k, d = .k k → ∀ h ∈ homesOf x.active, Map.get (y.crew.sheaf h).kS k 0 = set
  ofV : ∀ n, d = .v n → (∀ p ∈ x.active, xregSlot x.grp p.1 n = none) →
    (∀ h ∈ homesOf x.active, SetWritten (allLanes x.active h) ((x.crew.sheaf h).mainSet n) set ((y.crew.sheaf h).mainSet n) tab after) ∧
    ∀ h i, i ≠ n.val ∨ h ∉ homesOf x.active → (y.crew.sheaf h).mainSet i = (x.crew.sheaf h).mainSet i
  ofW : ∀ n rg, d = .w n → x.grp.regions = [rg] →
    (∀ p ∈ x.active, SetWritten (allLanes x.active p.2) (slotSetAt x.crew x.grp p.1 n p.2) set (slotSetAt y.crew y.grp p.1 n p.2) tab after) ∧
    (∀ l i h, i ≠ n.val ∨ h ∉ homesOf x.active → slotSetAt y.crew y.grp l i h = slotSetAt x.crew x.grp l i h) ∧
    ∀ h i, (y.crew.sheaf h).mainSet i = (x.crew.sheaf h).mainSet i

section
variable {s : State} {g : Guard} {x y : Iss} {os : List (Operand × Nat)} {set : OSet} {tab after : Map OEntry} {vs : List ((Nat × Nat) × Word)}

/-- Without an active lane no home sheaf takes a set. -/
theorem setsFollow_idle (ha : x.active = []) (d : Operand) : SetsFollow x x d set tab after := by
  have hnone : ∀ h, h ∉ homesOf x.active := fun h hm => by
    obtain ⟨p, hp, _⟩ := (mem_homesOf h x.active).1 hm
    simp [ha] at hp
  exact ⟨fun _ _ _ => rfl, fun _ _ => rfl, fun _ _ h hm => absurd hm (hnone h),
    fun _ _ _ => ⟨fun h hm => absurd hm (hnone h), fun _ _ _ => rfl⟩,
    fun _ _ _ _ => ⟨fun p hp => by simp [ha] at hp, fun _ _ _ _ => rfl, fun _ _ => rfl⟩⟩

theorem setsFollow_w {n : Fin 32} (hvs : vs.map (·.1) = x.active) (hne : x.active ≠ []) (hy : Touch x y)
    (hslot : ∀ p ∈ x.active, (slotOf y.grp p.1 n).isSome) (hp : writeSlotOf x n vs x.active set tab = .ok (y, after)) :
    SetsFollow x y (.w n) set tab after := by
  obtain ⟨ss, hyx⟩ := writeSlotOf_values hp
  have hsheaf : ∀ k, y.crew.sheaf k = x.crew.sheaf k := fun k => by rw [hyx]; rfl
  refine ⟨fun k i _ => by rw [hsheaf], fun k i => by rw [hsheaf], nofun, nofun, fun m rg e hrg => ?_⟩
  cases e
  obtain ⟨rg', hrg', hsans⟩ := List.map_eq_singleton_iff.1 (hy.regions.trans (by rw [hrg]; rfl))
  have hlanes : rg'.lanes = rg.lanes := (congrArg Region.lanes hsans :)
  have hmap : rg'.map = rg.map := (congrArg Region.map hsans :)
  have hfam : y.grp.family = x.grp.family := (congrArg Group.family hy.grp :)
  have hput := setsPut_putSlotSets hrg' hslot hne (hvs ▸ writeSlotOf_ok hp)
  simp only [slotSetAt_single hrg, slotSetAt_single hrg', hlanes, hfam, hmap] at hput ⊢
  refine ⟨fun p hp => ?_, fun l i k hk => ?_, fun k i => by rw [hsheaf]⟩
  · have hl : rg.lanes.contains p.1 = true := hlanes ▸ (slotOf_single hrg' (hslot p hp)).1
    rw [if_pos hl, if_pos hl]
    exact hput.hit p.2 ((mem_homesOf _ _).2 ⟨p, hp, rfl⟩)
  · rw [hput.miss k i hk]

variable (h : Issues s g x)
include h

theorem Issues.homes_lt {k : Nat} (hk : k ∈ homesOf x.active) : k < x.crew.sheaves.length := by
  obtain ⟨p, hp, rfl⟩ := (mem_homesOf _ _).1 hk
  exact h.inSheaf p (h.activeMem hp)

theorem setsFollow_k {n : Fin 30} (hvs : vs.map (·.1) = x.active) : SetsFollow x (writeK x n vs set) (.k n) set tab tab := by
  have hkS : ∀ k j, Map.get ((writeK x n vs set).crew.sheaf k).kS j 0 =
      if k ∈ homesOf x.active ∧ j = n then set else Map.get (x.crew.sheaf k).kS j 0 := by
    rw [writeK_eq, hvs]
    refine kSteps_kS (fun k hk => h.homes_lt hk) fun k hk => ?_
    obtain ⟨p, hp, rfl⟩ := (mem_homesOf _ _).1 hk
    obtain ⟨v, hv, rfl⟩ := List.mem_map.1 (hvs ▸ hp)
    exact Option.isSome_iff_exists.1 (List.find?_isSome.2 ⟨v, hv, beq_self_eq_true _⟩)
  exact
    { kOthers := fun k i hi => by
        rw [hkS, if_neg]
        rintro ⟨hk, rfl⟩
        exact hi n rfl rfl hk
      preds := fun k i => predSet_congr (kSteps_pS _ _ _ _ x k) i
      ofK := fun m e k hk => by
        cases e
        rw [hkS, if_pos ⟨hk, rfl⟩]
      ofV := nofun
      ofW := nofun }

theorem setsFollow_v {n : Fin 256} (hvs : vs.map (·.1) = x.active) (hne : x.active ≠ [])
    (hp : writeXreg x n vs x.active set tab = .ok (y, after)) : SetsFollow x y (.v n) set tab after := by
  have hside : ∀ k, (y.crew.sheaf k).originSets.2 = (x.crew.sheaf k).originSets.2 := writeXreg_sideSets h.plain hp
  refine ⟨fun k i _ => ?_, fun k i => predSet_congr (congrArg Prod.snd (hside k) :) i, nofun, fun m e hnone => ?_, nofun⟩
  · have hk : (y.crew.sheaf k).kS = (x.crew.sheaf k).kS := (congrArg Prod.fst (hside k) :)
    rw [hk]
  · cases e
    have hmem : ∀ q ∈ vs, q.1 ∈ x.active := fun q hq => hvs ▸ List.mem_map_of_mem hq
    rw [writeXreg_direct (fun q hq => hnone q.1 (hmem q hq)) fun e => hne (by rw [← hvs, e]; rfl)] at hp
    obtain ⟨c, hf, hy⟩ := writeMainOf_ok h.plain hp
    rw [hvs] at hf
    have hput := setsPut_mainSets (homesOf_nodup x.active)
      (fun k hk => (touch_putMains n vs x).count.symm ▸ h.homes_lt hk) hf
    have hbefore : ∀ k i, ((x.crew.putMains n vs).sheaf k).mainSet i = (x.crew.sheaf k).mainSet i := fun k i =>
      (congrArg (fun q => Map.get q.1 i 0) (originSets_putMains n vs x.crew k) :)
    have hafter : ∀ k i, (y.crew.sheaf k).mainSet i = (c.sheaf k).mainSet i := fun k i => by
      rw [hy]
      exact (congrArg (fun q => Map.get q.1 i 0) (originSets_stampDirect n (vs.map (·.1)) c k) :)
    simp only [← hbefore, hafter]
    exact ⟨hput.hit, hput.miss⟩

/-- The write of a result of one word. -/
theorem setsFollow_write (d : Operand) (hvs : vs.map (·.1) = x.active) (hne : x.active ≠ []) (hy : Touch x y)
    (hit : ∀ p ∈ x.active, ∀ c, regCell x d 0 p = some c → (y.cell c).isSome) (hp : writeReg x d 0 vs set tab = .ok (y, after)) :
    SetsFollow x y d set tab after := by
  cases d with
  | w n =>
    refine setsFollow_w hvs hne hy (fun p hp => ?_) (hvs ▸ hp)
    simpa [Iss.cell] using hit p hp (.slot p.1 n) rfl
  | k n =>
    cases hp
    exact setsFollow_k h hvs
  | v n => exact setsFollow_v h hvs hne (hvs ▸ hp)
  | z =>
    cases hp
    exact ⟨fun _ _ _ => rfl, fun _ _ => rfl, nofun, nofun, nofun⟩
  | lit w =>
    cases hp
    exact ⟨fun _ _ _ => rfl, fun _ _ => rfl, nofun, nofun, nofun⟩

end

theorem slotSetAt_congr {c c' : Crew} {g g' : Group} (hc : c'.slotS = c.slotS) (hr : g'.regions = g.regions) (hf : g'.family = g.family)
    (l i h : Nat) : slotSetAt c' g' l i h = slotSetAt c g l i h := by
  simp only [slotSetAt, regionOf, hr, hf, Crew.slotSets, Crew.regionSets, hc]

section
variable {i : Instr} {s s1 t : State} {g gs : Guard} {x w z : Iss} {sets : Iss → List OSet}

theorem Passed.originSets (hz : Passed i s s1 t x w z) (h : Nat) : (z.crew.sheaf h).originSets = (w.crew.sheaf h).originSets :=
  (congrArg Sheaf.originSets (hz.sheaf h) :)

/-- The move past an instruction keeps the sets. -/
theorem SetsFollow.passed {x' : Iss} {d : Operand} {set : OSet} {tab after : Map OEntry} (hw : SetsFollow x w d set tab after)
    (hz : Passed i s s1 t x' w z) : SetsFollow x z d set tab after := by
  have hslots : ∀ l j h, slotSetAt z.crew z.grp l j h = slotSetAt w.crew w.grp l j h :=
    slotSetAt_congr hz.slots (congrArg Group.regions hz.group :) (congrArg Group.family hz.group :)
  have hmain : ∀ h j, (z.crew.sheaf h).mainSet j = (w.crew.sheaf h).mainSet j := fun h j =>
    (congrArg (fun q => Map.get q.1 j 0) (hz.originSets h) :)
  have hk : ∀ h, (z.crew.sheaf h).kS = (w.crew.sheaf h).kS := fun h => (congrArg (fun q => q.2.1) (hz.originSets h) :)
  have hpred : ∀ h j, (z.crew.sheaf h).predSet j = (w.crew.sheaf h).predSet j := fun h j =>
    predSet_congr (congrArg (fun q => q.2.2) (hz.originSets h) :) j
  exact ⟨by simpa only [hk] using hw.kOthers, by simpa only [hpred] using hw.preds, by simpa only [hk] using hw.ofK,
    by simpa only [hmain] using hw.ofV, by simpa only [hslots, hmain] using hw.ofW⟩

/-- A V instruction of one word without sticky flags: its destination takes the result set of its sources (R82). -/
theorem vecWord_sets {d : Operand} {os : List (Operand × Nat)} {preds : List Nat} {mode : Bool} {inv : Iss → Nat × Nat → Bool}
    {f : Iss → Nat × Nat → Word} (hx : exec i s = issueOp s g sets (vecBody s d 1 os preds mode gs inv fun x p => ([f x p], 0)))
    (h : Issues s g x) (ho : Operable x os d 1) :
    ∃ set tab t y, osJoinAll s.osets 0 (resultSets x x.active os preds mode gs) = .ok (set, tab) ∧ Ran i s t x y ∧
      SetsFollow x y d set tab t.osets := by
  obtain ⟨P, hf⟩ := h.joins.fit
  obtain ⟨set, tab, hset, hp⟩ := hf.joinAll (resultSets x x.active os preds mode gs) s.osets 0 hf.here
  obtain ⟨_, _, hv⟩ := vecBody_ran hx h ho
  by_cases hempty : x.active = []
  · obtain ⟨z, hz⟩ := passed_of_idle hx h (by simp only [vecBody, hempty, List.isEmpty_nil, if_true, idle_plain h.plain])
    exact ⟨set, tab, _, z, hset, hz.ran hv.ran, (setsFollow_idle hempty d).passed hz⟩
  · obtain ⟨y, t2, hy, _, htouch, hit, _⟩ := writeWords_spec h ho (f x) hf hp set
    obtain ⟨z, hz⟩ := passed_of_put (w := y) (tab := t2) hx h
      (by simp only [vecBody, List.isEmpty_iff, hempty, if_false, ho.check, ho.allowed, Bool.false_eq_true, hset, vecWrite_word h.plain, hy])
      htouch.cur (congrArg Crew.grid htouch.crew :) (htouch.episode.trans h.plain)
    refine ⟨set, tab, _, z, hset, hz.ran hv.ran, SetsFollow.passed ?_ hz⟩
    rw [hz.osets]
    exact setsFollow_write h d (by simp [Iss.wordsFor, Function.comp_def]) hempty htouch (fun p hp c hc => by simp [hit p hp c hc]) hy

end

/-! ## Predicates -/

/-- A crew with the truths of some threads in their predicate. -/
def Crew.putPreds (c : Crew) (r : Nat) (vs : List ((Nat × Nat) × Bool)) : Crew :=
  vs.foldl (fun c v => c.modSheaf v.1.2 fun h => h.setPred r v.1.1 v.2) c

theorem length_putPreds (r : Nat) (vs : List ((Nat × Nat) × Bool)) (c : Crew) : (c.putPreds r vs).sheaves.length = c.sheaves.length := by
  unfold Crew.putPreds
  exact foldl_keeps (fun c : Crew => c.sheaves.length) (fun c v => length_modSheaf _) vs c

theorem pS_putPreds (r : Nat) (vs : List ((Nat × Nat) × Bool)) (c : Crew) (k : Nat) :
    ((c.putPreds r vs).sheaf k).pS = (c.sheaf k).pS := by
  unfold Crew.putPreds
  refine foldl_keeps (fun c : Crew => (c.sheaf k).pS) (fun d v => ?_) vs c
  exact Crew.sheaf_modSheaf_prop d v.1.2 k _ Sheaf.pS fun _ => rfl

theorem writePred_ok {x y : Iss} {r : Nat} {vs : List ((Nat × Nat) × Bool)} {s : OSet} {t t' : Map OEntry}
    (hp : writePred x r vs s t = .ok (y, t')) :
    foldE (fun (a : Crew × Map OEntry) h => putPredSet a.1 h r s (allLanes (vs.map (·.1)) h) a.2)
      (x.crew.putPreds r vs, t) (homesOf (vs.map (·.1))) = .ok (y.crew, t') := by
  unfold writePred at hp
  dsimp only at hp
  split at hp
  · cases hp
  · next hf =>
    cases hp
    exact hf

/-- From x to y the sets follow a result of set `set` in predicate d, and no other predicate's set changes. -/
structure PredSetsFollow (x y : Iss) (d : Nat) (set : OSet) (tab after : Map OEntry) : Prop where
  written : ∀ h ∈ homesOf x.active,
    SetWritten (allLanes x.active h) ((x.crew.sheaf h).predSet d) set ((y.crew.sheaf h).predSet d) tab after
  others : ∀ h i, i ≠ d ∨ h ∉ homesOf x.active → (y.crew.sheaf h).predSet i = (x.crew.sheaf h).predSet i

section
variable {i : Instr} {s s1 t : State} {g gs : Guard} {x w z : Iss} {sets : Iss → List OSet}

/-- The move past an instruction keeps the predicates' sets. -/
theorem PredSetsFollow.passed {d : Nat} {x' : Iss} {set : OSet} {tab after : Map OEntry} (hw : PredSetsFollow x w d set tab after)
    (hz : Passed i s s1 t x' w z) : PredSetsFollow x z d set tab after := by
  have hpred : ∀ h j, (z.crew.sheaf h).predSet j = (w.crew.sheaf h).predSet j := fun h j =>
    predSet_congr (congrArg (fun q => q.2.2) (hz.originSets h) :) j
  exact ⟨by simpa only [hpred] using hw.written, by simpa only [hpred] using hw.others⟩

section
variable (h : Issues s g x)
include h

theorem Issues.sound_pred (d : Nat) (f : Nat × Nat → Bool) :
    Sound x (fun p => some (.pred p.2 d p.1)) ((x.active.map fun p => (p, f p)).map fun v => (v.1, boolWord v.2)) := by
  simp only [List.map_map]
  refine ⟨List.forall_mem_map.2 fun p hp => h.inLane p (h.activeMem hp), List.forall_mem_map.2 fun p hp => h.inSheaf p (h.activeMem hp), ?_⟩
  simp only [List.forall_mem_map, Function.comp, Option.some.injEq]
  rintro p hp q hq c rfl hc
  rw [h.lane_inj hp hq (Cell.pred.inj hc).2.2.symm]

theorem predSetsFollow_write {y : Iss} {d : Nat} {f : Nat × Nat → Bool} {set : OSet} {tab after : Map OEntry} (hd : d ≠ 7)
    (hp : writePred x d (x.active.map fun p => (p, f p)) set tab = .ok (y, after)) : PredSetsFollow x y d set tab after := by
  have hps : (x.active.map fun p => (p, f p)).map (·.1) = x.active := by simp [Function.comp_def]
  have hf := writePred_ok hp
  rw [hps] at hf
  obtain ⟨_, hit, miss⟩ := setsPut_predSets hd (homesOf_nodup x.active) (fun k hk => by rw [length_putPreds]; exact h.homes_lt hk) hf
  simp only [predSet_congr (pS_putPreds _ _ _ _)] at hit miss
  exact ⟨hit, miss⟩

/-- An instruction with a predicate destination: the predicate takes the result set of its sources (R82). -/
theorem predBody_sets {d : Nat} {os : List (Operand × Nat)} {preds : List Nat} {inv f : Iss → Nat × Nat → Bool}
    (hx : exec i s = issueOp s g sets (predBody s d os preds gs inv f)) (hd : d ≠ 7) (ho : Operable x os .z 0) :
    ∃ set tab t y, osJoinAll s.osets 0 (resultSets x x.active os preds false gs) = .ok (set, tab) ∧ Ran i s t x y ∧
      PredSetsFollow x y d set tab t.osets := by
  obtain ⟨P, hf⟩ := h.joins.fit
  obtain ⟨set, tab, hset, hp⟩ := hf.joinAll (resultSets x x.active os preds false gs) s.osets 0 hf.here
  obtain ⟨_, _, hv⟩ := predBody_ran hx hd h ho
  by_cases hempty : x.active = []
  · obtain ⟨z, hz⟩ := passed_of_idle hx h
      (by simp only [predBody, hempty, List.isEmpty_nil, if_true, h.plain, Option.isSome_none, Bool.false_eq_true, if_false])
    have hnone : PredSetsFollow x x d set tab s.osets := ⟨fun k hk => by simp [hempty, homesOf, dedup] at hk, fun _ _ _ => rfl⟩
    exact ⟨set, tab, _, z, hset, hz.ran hv.ran, hz.osets ▸ hnone.passed hz⟩
  · obtain ⟨y, t2, hy, hw, _⟩ := writePred_spec hf x d hd (x.active.map fun p => (p, f x p)) set hp (h.sound_pred d (f x))
    obtain ⟨z, hz⟩ := passed_of_put (w := y) (tab := t2) hx h
      (by simp only [predBody, List.isEmpty_iff, hempty, if_false, ho.check_sources, hset, hy, h.plain, Option.isSome_none,
        Bool.false_eq_true]) hw.touch.cur (congrArg Crew.grid hw.touch.crew :) (hw.touch.episode.trans h.plain)
    exact ⟨set, tab, _, z, hset, hz.ran hv.ran, hz.osets ▸ (predSetsFollow_write h hd hy).passed hz⟩

end

end

/-! ## The statement -/

/-- Every form of two sources is `intOp2` of some function. -/
theorem exec_twoSource : ∀ r ∈ twoSource, ∃ f : Word → Word → Word, ∀ (d a b : Operand) (g : Guard) (s : State),
    exec (r.1 d a b g) s = intOp2 s d a b g f := by
  simp only [twoSource, List.forall_mem_cons, List.not_mem_nil, false_imp_iff, implies_true, and_true]
  exact ⟨⟨fun x y => x + y, fun _ _ _ _ _ => rfl⟩, ⟨fun x y => wordI (clamp32 (x.toInt + y.toInt)), fun _ _ _ _ _ => rfl⟩,
    ⟨fun x y => x - y, fun _ _ _ _ _ => rfl⟩, ⟨fun x y => wordI (clamp32 (x.toInt - y.toInt)), fun _ _ _ _ _ => rfl⟩,
    ⟨fun x y => x * y, fun _ _ _ _ _ => rfl⟩, ⟨fun x y => wordI (x.toInt * y.toInt / 2 ^ 32), fun _ _ _ _ _ => rfl⟩,
    ⟨fun x y => word (x.toNat * y.toNat / 2 ^ 32), fun _ _ _ _ _ => rfl⟩,
    ⟨fun x y => if y.slt x then y else x, fun _ _ _ _ _ => rfl⟩, ⟨fun x y => if y.ult x then y else x, fun _ _ _ _ _ => rfl⟩,
    ⟨fun x y => if x.slt y then y else x, fun _ _ _ _ _ => rfl⟩, ⟨fun x y => if x.ult y then y else x, fun _ _ _ _ _ => rfl⟩,
    ⟨fun x y => x + y * 2, fun _ _ _ _ _ => rfl⟩, ⟨fun x y => x + y * 4, fun _ _ _ _ _ => rfl⟩,
    ⟨fun x y => x + y * 8, fun _ _ _ _ _ => rfl⟩, ⟨fun x y => x + y * 16, fun _ _ _ _ _ => rfl⟩,
    ⟨fun x y => x &&& y, fun _ _ _ _ _ => rfl⟩, ⟨fun x y => x ||| y, fun _ _ _ _ _ => rfl⟩,
    ⟨fun x y => x ^^^ y, fun _ _ _ _ _ => rfl⟩, ⟨fun x y => x &&& ~~~y, fun _ _ _ _ _ => rfl⟩,
    ⟨fun x y => x ||| ~~~y, fun _ _ _ _ _ => rfl⟩, ⟨fun x y => x <<< shCount y, fun _ _ _ _ _ => rfl⟩,
    ⟨fun x y => x >>> shCount y, fun _ _ _ _ _ => rfl⟩, ⟨fun x y => x.sshiftRight (shCount y), fun _ _ _ _ _ => rfl⟩⟩

/-- Every combination of predicates is `psetOp` of some function. -/
theorem exec_psetForms : ∀ r ∈ psetForms, ∃ f : Bool → Bool → Bool, ∀ (d : Fin 7) (a b : Fin 8) (g : Guard) (s : State),
    exec (r.1 d a b g) s = psetOp s d a b g f := by
  simp only [psetForms, List.forall_mem_cons, List.not_mem_nil, false_imp_iff, implies_true, and_true]
  exact ⟨⟨and, fun _ _ _ _ _ => rfl⟩, ⟨or, fun _ _ _ _ _ => rfl⟩, ⟨xor, fun _ _ _ _ _ => rfl⟩,
    ⟨fun p q => p && !q, fun _ _ _ _ _ => rfl⟩⟩

theorem resultSetsAreWritten : Sys2Proof.Claims.ResultSetsAreWritten := by
  refine ⟨fun r hr s x d a b g h ho => ?_, fun r hr s x d a b g h => ?_⟩
  · obtain ⟨f, hx⟩ := exec_twoSource r hr
    obtain ⟨set, tab, t, y, hset, hran, hs⟩ :=
      vecWord_sets (f := fun x p => f (lo32 (zx (val32 x a p))) (lo32 (zx (val32 x b p)))) (hx d a b g s) h ho
    exact ⟨set, tab, t, y, hset, hran, hs.kOthers, hs.preds, hs.ofK, hs.ofV, hs.ofW⟩
  · obtain ⟨f, hx⟩ := exec_psetForms r hr
    obtain ⟨set, tab, t, y, hset, hran, hs⟩ := predBody_sets h (hx d a b g s) (show (d : Nat) ≠ 7 by omega) (operable_none x)
    exact ⟨set, tab, t, y, hset, hran, hs.written, hs.others⟩

end Sys2Proof.Machine

namespace Sys2Proof.Proofs

open Sys2Proof.Machine

/-- Settles O50: it holds. A write's fold over home sheaves sets each one's place once; a branch joins once for all its threads. -/
theorem originSetsFollowResults : Obligations.OriginSetsFollowResults := ⟨resultSetsAreWritten, divergencesJoin⟩

end Sys2Proof.Proofs
end

section
/-! SUPPORT. The real numbers that exact values denote, what f32 bits encode, and how far a value rounded by RNE lies from the exact one
(04_numbers.md R89, R93). -/

namespace Sys2Proof.Machine

/-! ## Real values -/

/-- The real number of a sign, a magnitude and an exponent. -/
noncomputable def realFV (s : Bool) (n : Nat) (e : Int) : ℝ := (if s then -1 else 1) * n * (2 : ℝ) ^ e

theorem realFV_eq_sgnInt (s : Bool) (n : Nat) (e : Int) : realFV s n e = (sgnInt s n : ℝ) * 2 ^ e := by
  cases s <;> simp [realFV, sgnInt]

theorem abs_realFV (s : Bool) (n : Nat) (e : Int) : |realFV s n e| = n * 2 ^ e := by
  have hpos : (0 : ℝ) ≤ n * 2 ^ e := by positivity
  cases s <;> simp [realFV, abs_of_nonneg hpos]

/-- Two values of one sign are as far apart as their magnitudes. -/
theorem abs_realFV_sub (s : Bool) (n k : Nat) (e d : Int) :
    |realFV s n e - realFV s k d| = |(n : ℝ) * 2 ^ e - k * 2 ^ d| := by
  cases s
  · simp [realFV]
  · rw [← abs_neg]
    congr 1
    simp only [realFV, if_true]
    ring

/-- A power of two of a difference, as a natural number. -/
theorem two_zpow_toNat {a b : Int} (h : b ≤ a) : ((2 ^ (a - b).toNat : Nat) : ℝ) = 2 ^ a / 2 ^ b := by
  rw [← zpow_sub₀ two_ne_zero, Nat.cast_pow, Nat.cast_ofNat, ← zpow_natCast, Int.toNat_of_nonneg (by omega)]

/-- The binade of a value. -/
theorem log_of_dyadic {n : Nat} (hn : n ≠ 0) (e : Int) : Int.log 2 ((n : ℝ) * 2 ^ e) = (Nat.log2 n : Int) + e := by
  have hlo : ((2 ^ n.log2 : Nat) : ℝ) ≤ n := by exact_mod_cast Nat.log2_self_le hn
  have hhi : (n : ℝ) < ((2 ^ (n.log2 + 1) : Nat) : ℝ) := by exact_mod_cast Nat.lt_log2_self
  have hpos : (0 : ℝ) < n * 2 ^ e := by positivity
  push_cast at hlo hhi
  refine le_antisymm (Int.lt_add_one_iff.1 ?_) ?_
  · rw [← Int.lt_zpow_iff_log_lt Nat.one_lt_two hpos, add_right_comm, zpow_add₀ (by norm_num)]
    exact_mod_cast mul_lt_mul_of_pos_right hhi (by positivity)
  · rw [← Int.zpow_le_iff_le_log Nat.one_lt_two hpos, zpow_add₀ (by norm_num)]
    exact_mod_cast mul_le_mul_of_nonneg_right hlo (by positivity)

/-! ## Rounding to a multiple by RNE (Table 4.4) -/

/-- Where a value is rounded to nearest, twice the distance is at most the unit. -/
theorem roundShift_rne_near (s : Bool) (n d : Nat) :
    2 * n ≤ 2 * (roundShift .rne s n d).1 * 2 ^ d + 2 ^ d ∧ 2 * (roundShift .rne s n d).1 * 2 ^ d ≤ 2 * n + 2 ^ d := by
  have hdiv := Nat.div_add_mod n (2 ^ d)
  have hmod := Nat.mod_lt n (Nat.two_pow_pos d)
  generalize hq : n / 2 ^ d = q at *
  generalize hr : n % 2 ^ d = r at *
  rw [Nat.mul_comm] at hdiv
  simp only [roundShift, hq, hr]
  split
  · dsimp only
    rw [Nat.mul_assoc]
    omega
  · simp only [Bool.or_eq_true, Bool.and_eq_true, decide_eq_true_eq]
    split <;> simp only [Nat.mul_add, Nat.add_mul, Nat.mul_one, Nat.mul_assoc] <;> omega

/-- A multiple of 2^q by RNE lies within half of 2^q. -/
theorem roundTo_rne_near (s : Bool) (n : Nat) (e q : Int) :
    |((roundTo .rne s n e q).1 : ℝ) * 2 ^ q - n * 2 ^ e| ≤ 2 ^ q / 2 := by
  unfold roundTo
  split
  case isTrue h =>
    rw [Nat.cast_mul, two_zpow_toNat h, mul_assoc, div_mul_cancel₀ _ (by positivity), sub_self, abs_zero]
    positivity
  case isFalse h =>
    have hd : ((2 ^ (q - e).toNat : Nat) : ℝ) = 2 ^ q / 2 ^ e := two_zpow_toNat (by omega)
    have key : ∀ m : Nat, 2 * n ≤ 2 * m * 2 ^ (q - e).toNat + 2 ^ (q - e).toNat ∧ 2 * m * 2 ^ (q - e).toNat ≤ 2 * n + 2 ^ (q - e).toNat →
        |(m : ℝ) * 2 ^ q - n * 2 ^ e| ≤ 2 ^ q / 2 := by
      rintro m ⟨h1, h2⟩
      have h1' : 2 * (n : ℝ) ≤ 2 * m * (2 ^ q / 2 ^ e) + 2 ^ q / 2 ^ e := by rw [← hd]; exact_mod_cast h1
      have h2' : 2 * (m : ℝ) * (2 ^ q / 2 ^ e) ≤ 2 * n + 2 ^ q / 2 ^ e := by rw [← hd]; exact_mod_cast h2
      have hpos : (0 : ℝ) < 2 ^ e := by positivity
      have hq : (2 : ℝ) ^ q = 2 ^ q / 2 ^ e * 2 ^ e := by field_simp
      rw [abs_le, hq]
      generalize (2 : ℝ) ^ q / 2 ^ e = u at *
      constructor <;> nlinarith
    dsimp only
    split
    case isTrue hsmall =>
      refine key 0 ⟨?_, by rw [Nat.mul_zero, Nat.zero_mul]; exact Nat.zero_le _⟩
      have hlt : n < 2 ^ (n.log2 + 1) := Nat.lt_log2_self
      have hle : 2 ^ (n.log2 + 1 + 1) ≤ 2 ^ (q - e).toNat := Nat.pow_le_pow_right (by omega) (by omega)
      rw [Nat.pow_succ] at hle
      rw [Nat.mul_zero, Nat.zero_mul, Nat.zero_add]
      exact (by omega : 2 * n ≤ 2 ^ (n.log2 + 1) * 2).trans hle
    case isFalse => exact key _ (roundShift_rne_near s n _)

/-- A value below 2^k × 2^q rounds to at most 2^k. -/
theorem roundTo_rne_le {s : Bool} {n k : Nat} {e q : Int} (h : (n : ℝ) * 2 ^ e < 2 ^ k * 2 ^ q) : (roundTo .rne s n e q).1 ≤ 2 ^ k := by
  have hnear := (abs_le.1 (roundTo_rne_near s n e q)).2
  have hpos : (0 : ℝ) < 2 ^ q := by positivity
  by_contra hlt
  have : (2 : ℝ) ^ k + 1 ≤ (roundTo .rne s n e q).1 := by exact_mod_cast Nat.lt_of_not_le hlt
  nlinarith

/-- A value of at least 2^k × 2^q rounds to at least 2^k. -/
theorem le_roundTo_rne {s : Bool} {n k : Nat} {e q : Int} (h : 2 ^ k * 2 ^ q ≤ (n : ℝ) * 2 ^ e) : 2 ^ k ≤ (roundTo .rne s n e q).1 := by
  have hnear := (abs_le.1 (roundTo_rne_near s n e q)).1
  have hpos : (0 : ℝ) < 2 ^ q := by positivity
  by_contra hlt
  have : ((roundTo .rne s n e q).1 : ℝ) + 1 ≤ 2 ^ k := by exact_mod_cast Nat.lt_of_not_le hlt
  nlinarith

/-! ## The bits of f32 (R89) -/

theorem unpack_f32 (x : Nat) : unpack fmtF32 x =
    if x / 2 ^ 23 % 2 ^ 8 = 255 then (if x % 2 ^ 23 = 0 then .inf (x.testBit 31) else .nan)
    else if x / 2 ^ 23 % 2 ^ 8 = 0 then .fin (x.testBit 31) (x % 2 ^ 23) (-149)
    else .fin (x.testBit 31) (2 ^ 23 + x % 2 ^ 23) ((x / 2 ^ 23 % 2 ^ 8 : Nat) - 150) := by
  simp only [unpack, fmtF32, fBias, fEmin, Bool.false_eq_true, if_false]
  norm_num
  split
  · rfl
  · split
    · rfl
    · simp only [FV.fin.injEq, true_and]
      omega

/-- A finite f32 value has at most 24 bits and an exponent of at least −149. -/
theorem unpack_f32_fin {x n : Nat} {s : Bool} {e : Int} (h : unpack fmtF32 x = .fin s n e) : n < 2 ^ 24 ∧ -149 ≤ e ∧ e ≤ 104 := by
  have hm := Nat.mod_lt x (show 0 < 2 ^ 23 by decide)
  have he := Nat.mod_lt (x / 2 ^ 23) (show 0 < 2 ^ 8 by decide)
  rw [unpack_f32] at h
  split at h
  · split at h <;> cases h
  · split at h <;> cases h <;> omega

/-- Bits below the sign that are no infinity and no NaN encode a finite value of the sign set on them. -/
theorem unpack_f32_signed (s : Bool) {b : Nat} (hb : b < 255 * 2 ^ 23) : unpack fmtF32 ((if s then fSignBit fmtF32 else 0) + b) =
    if b / 2 ^ 23 = 0 then .fin s (b % 2 ^ 23) (-149) else .fin s (2 ^ 23 + b % 2 ^ 23) ((b / 2 ^ 23 : Nat) - 150) := by
  have hbit : ((if s then fSignBit fmtF32 else 0) + b).testBit 31 = s := by
    cases s
    · simp only [Bool.false_eq_true, if_false, Nat.zero_add]
      exact Nat.testBit_lt_two_pow (by omega)
    · simp only [if_true, show fSignBit fmtF32 = 2 ^ 31 from rfl, Nat.testBit_two_pow_add_eq]
      rw [Nat.testBit_lt_two_pow (by omega)]
      rfl
  have hexp : ((if s then fSignBit fmtF32 else 0) + b) / 2 ^ 23 % 2 ^ 8 = b / 2 ^ 23 := by
    cases s <;> simp only [Bool.false_eq_true, if_false, if_true, show fSignBit fmtF32 = 2 ^ 31 from rfl] <;> omega
  have hfrac : ((if s then fSignBit fmtF32 else 0) + b) % 2 ^ 23 = b % 2 ^ 23 := by
    cases s <;> simp only [Bool.false_eq_true, if_false, if_true, show fSignBit fmtF32 = 2 ^ 31 from rfl] <;> omega
  rw [unpack_f32, hbit, hexp, hfrac, if_neg (by omega)]

/-- The infinities of f32. -/
theorem unpack_f32_inf (s : Bool) : unpack fmtF32 ((if s then fSignBit fmtF32 else 0) + fInfBits fmtF32) = .inf s := by
  cases s <;> decide

/-- A significand of at most 2^23 above an exponent field, or of the field 0, encodes its value: a carry into the exponent included. -/
theorem unpack_f32_mag {s t : Bool} {b mag m : Nat} {d : Int} (hmag : mag ≤ 2 ^ 24) (hlow : 2 ^ 23 ≤ mag ∨ b = 0)
    (hfin : b * 2 ^ 23 + mag < 255 * 2 ^ 23)
    (h : unpack fmtF32 ((if s then fSignBit fmtF32 else 0) + (b * 2 ^ 23 + mag)) = .fin t m d) :
    realFV t m d = realFV s mag (b - 149) := by
  rw [unpack_f32_signed s hfin] at h
  have hz : ∀ k : Nat, k = b + 1 → ((k : Int) - 150) = (b : Int) - 149 := fun k hk => by omega
  split at h
  case isTrue h0 =>
    cases h
    have hb : b = 0 := by omega
    have hm : (b * 2 ^ 23 + mag) % 2 ^ 23 = mag := by omega
    rw [hm, hb]
    rfl
  case isFalse h0 =>
    cases h
    by_cases htop : mag = 2 ^ 24
    · have hm : (b * 2 ^ 23 + mag) % 2 ^ 23 = 0 := by omega
      have he : (((b * 2 ^ 23 + mag) / 2 ^ 23 : Nat) : Int) - 150 = (b : Int) - 149 + 1 := by omega
      rw [hm, he, htop, realFV, realFV, zpow_add₀ two_ne_zero]
      push_cast
      ring
    · have hm : 2 ^ 23 + (b * 2 ^ 23 + mag) % 2 ^ 23 = mag := by omega
      have he : (((b * 2 ^ 23 + mag) / 2 ^ 23 : Nat) : Int) - 150 = (b : Int) - 149 := by omega
      rw [hm, he]

/-! ## Rounding to f32 by RNE (R93) -/

/-- The unit in the last place of f32 in the binade of a magnitude. -/
noncomputable def ulpF32 (v : ℝ) : ℝ := 2 ^ (max (Int.log 2 v) (-126) - 23)

theorem ulpF32_mono {v w : ℝ} (hv : 0 < v) (h : v ≤ w) : ulpF32 v ≤ ulpF32 w :=
  zpow_le_zpow_right₀ one_le_two (by have := Int.log_mono_right (b := 2) hv h; omega)

theorem ulpF32_pos (v : ℝ) : 0 < ulpF32 v := by unfold ulpF32; positivity

/-- A magnitude is below 2^24 of its units. -/
theorem lt_ulpF32 (v : ℝ) : v < 2 ^ 24 * ulpF32 v := by
  calc v < 2 ^ (Int.log 2 v + 1) := Int.lt_zpow_succ_log_self Nat.one_lt_two v
    _ ≤ 2 ^ ((24 : Int) + (max (Int.log 2 v) (-126) - 23)) := zpow_le_zpow_right₀ one_le_two (by omega)
    _ = 2 ^ 24 * ulpF32 v := by rw [zpow_add₀ two_ne_zero, ulpF32]; norm_cast

theorem ulpF32_dyadic {n : Nat} (hn : n ≠ 0) (e : Int) : ulpF32 (n * 2 ^ e) = 2 ^ (max ((Nat.log2 n : Int) + e) (-126) - 23) := by
  rw [ulpF32, log_of_dyadic hn]

/-- A finite value rounded to f32 by RNE lies within half a unit in the last place. -/
theorem rndFV_f32_near {s t : Bool} {n m : Nat} {e d : Int} (hn : n ≠ 0)
    (h : unpack fmtF32 (rndFV fmtF32 .rne (.fin s n e)).1 = .fin t m d) :
    |realFV t m d - realFV s n e| ≤ ulpF32 (n * 2 ^ e) / 2 := by
  have hr : rndFV fmtF32 .rne (.fin s n e) = rndNZ fmtF32 .rne s n e := by
    cases n with
    | zero => exact absurd rfl hn
    | succ n => rfl
  have hinf : unpack fmtF32 ((if s then fSignBit fmtF32 else 0) + overflowMag fmtF32 .rne s) ≠ .fin t m d := by
    rw [overflowMag, if_neg (show ¬fmtF32.e4 = true from Bool.false_ne_true), unpack_f32_inf]
    nofun
  rw [hr, rndNZ] at h
  dsimp only at h
  split at h
  · exact absurd h hinf
  · split at h
    · exact absurd h hinf
    · rename_i htop hmax
      rw [ulpF32_dyadic hn]
      have hmin : fEmin fmtF32 = -126 := rfl
      have hfb : fmtF32.fb = 23 := rfl
      have hfm : fMaxBits fmtF32 = 255 * 2 ^ 23 - 1 := by decide
      rw [hmin, hfb, hfm] at hmax
      rw [hmin, hfb] at h
      have hlt : (n : ℝ) * 2 ^ e < 2 ^ ((Nat.log2 n : Int) + e + 1) := by
        rw [← log_of_dyadic hn]
        exact_mod_cast Int.lt_zpow_succ_log_self Nat.one_lt_two ((n : ℝ) * 2 ^ e)
      have hge : (2 : ℝ) ^ ((Nat.log2 n : Int) + e) ≤ n * 2 ^ e := by
        rw [← log_of_dyadic hn]
        exact_mod_cast Int.zpow_log_le_self Nat.one_lt_two (show (0 : ℝ) < n * 2 ^ e by positivity)
      generalize (Nat.log2 n : Int) + e = top at *
      simp only [Nat.cast_ofNat] at h hmax
      generalize hq : max top (-126) - 23 = q at *
      have hmag : (roundTo .rne s n e q).1 ≤ 2 ^ 24 := roundTo_rne_le <| by
        rw [← zpow_natCast, ← zpow_add₀ two_ne_zero]
        exact hlt.trans_le (zpow_le_zpow_right₀ one_le_two (by omega))
      have hlow : 2 ^ 23 ≤ (roundTo .rne s n e q).1 ∨ (q - (-126 - 23)).toNat = 0 := by
        by_cases hn' : top < -126
        · exact .inr (by omega)
        · refine .inl (le_roundTo_rne ?_)
          rw [← zpow_natCast, ← zpow_add₀ two_ne_zero]
          exact (zpow_le_zpow_right₀ one_le_two (by omega)).trans hge
      have hval := unpack_f32_mag hmag hlow (by omega) h
      rw [show ((q - (-126 - 23)).toNat : Int) - 149 = q by omega] at hval
      rw [hval, abs_realFV_sub]
      exact roundTo_rne_near s n e q

end Sys2Proof.Machine
end

section
/-! SUPPORT. A special function's result lies within its bound of an exact value that its close value lies near (04_numbers.md R107;
assumption 5). -/

namespace Sys2Proof.Machine

open Sys2Proof.Claims (BoundMet)

/-- The distance that `withinUlp` compares, in units of its lower exponent. -/
theorem sgnInt_dyadic (s : Bool) (n : Nat) {e lo : Int} (h : lo ≤ e) :
    ((sgnInt s (n * 2 ^ (e - lo).toNat) : Int) : ℝ) * 2 ^ lo = realFV s n e := by
  have hpow := two_zpow_toNat h
  push_cast at hpow
  cases s <;> simp only [realFV, sgnInt, Bool.false_eq_true, if_false, if_true] <;> push_cast <;> rw [hpow] <;> field_simp

/-- A candidate that meets the bound lies within k units of the close value, less a 2^-16th of one. -/
theorem withinUlp_near {k n j : Nat} {s t : Bool} {e d : Int} (hk : 1 ≤ k) (hj : j ≠ 0) (h : withinUlp k (.fin s n e) (.fin t j d) = true) :
    |realFV s n e - realFV t j d| ≤ (k - 2 ^ (-16 : Int)) * ulpF32 (j * 2 ^ d) := by
  unfold withinUlp at h
  dsimp only at h
  rw [ulpF32_dyadic hj]
  generalize max ((Nat.log2 j : Int) + d) (-126) - 23 = u at *
  generalize hlo : min e d = lo at *
  generalize hD : sgnInt s (n * 2 ^ (e - lo).toNat) - sgnInt t (j * 2 ^ (d - lo).toNat) = D at *
  have hdist : |realFV s n e - realFV t j d| = D.natAbs * 2 ^ lo := by
    rw [← sgnInt_dyadic s n (show lo ≤ e by omega), ← sgnInt_dyadic t j (show lo ≤ d by omega), ← sub_mul, abs_mul,
      abs_of_pos (show (0 : ℝ) < 2 ^ lo by positivity), ← Int.cast_sub, hD, Nat.cast_natAbs, Int.cast_abs]
  have hlim : ((k * 2 ^ 16 - 1 : Nat) : ℝ) = (k - 2 ^ (-16 : Int)) * 2 ^ (16 : Int) := by
    rw [Nat.cast_sub (by omega)]
    push_cast
    norm_num [sub_mul]
  have hunit : (k - 2 ^ (-16 : Int)) * (2 : ℝ) ^ u = ((k * 2 ^ 16 - 1 : Nat) : ℝ) * 2 ^ (u - 16) := by
    rw [hlim, mul_assoc, ← zpow_add₀ two_ne_zero, add_sub_cancel]
  rw [hdist, hunit]
  split at h
  case isTrue hsh =>
    have hle : ((D.natAbs : Nat) : ℝ) ≤ (k * 2 ^ 16 - 1 : Nat) * (2 ^ (u - 16) / 2 ^ lo) := by
      rw [← two_zpow_toNat (by omega)]
      exact_mod_cast of_decide_eq_true h
    calc _ ≤ ((k * 2 ^ 16 - 1 : Nat) : ℝ) * (2 ^ (u - 16) / 2 ^ lo) * 2 ^ lo := by gcongr
      _ = _ := by field_simp
  case isFalse hsh =>
    have hle : ((D.natAbs : Nat) : ℝ) * (2 ^ lo / 2 ^ (u - 16)) ≤ (k * 2 ^ 16 - 1 : Nat) := by
      rw [← two_zpow_toNat (by omega), show lo - (u - 16) = -(u - 16 - lo) by omega]
      exact_mod_cast of_decide_eq_true h
    calc _ = ((D.natAbs : Nat) : ℝ) * (2 ^ lo / 2 ^ (u - 16)) * 2 ^ (u - 16) := by field_simp
      _ ≤ _ := by gcongr

/-- A nonzero exact value lies near a real number: within 2^-40 of it in its own size. -/
def Near (a : FV) (w : ℝ) : Prop :=
  match a with
  | .fin s n e => n ≠ 0 ∧ |realFV s n e - w| ≤ 2 ^ (-40 : Int) * |w|
  | _ => False

/-- The unit of the bounds of Table 4.9 at an exact value (assumption 5). -/
noncomputable def ulpAt (w : ℝ) : ℝ := ulpF32 (|w| * (1 + 2 ^ (-40 : Int)))

theorem near_le_ulpAt (w : ℝ) : 2 ^ (-40 : Int) * |w| ≤ 2 ^ (-16 : Int) * ulpAt w := by
  have hlt := lt_ulpF32 (|w| * (1 + 2 ^ (-40 : Int)))
  have hw := abs_nonneg w
  norm_num at hlt ⊢
  unfold ulpAt
  norm_num at hlt ⊢
  nlinarith

/-- The unit of a value near w is at most the unit at w. -/
theorem Near.ulp_le {s : Bool} {n : Nat} {e : Int} {w : ℝ} (h : Near (.fin s n e) w) : ulpF32 (n * 2 ^ e) ≤ ulpAt w := by
  obtain ⟨hn, hnear⟩ := h
  refine ulpF32_mono (by positivity) ?_
  have := abs_sub_abs_le_abs_sub (realFV s n e) w
  rw [abs_realFV] at this
  linarith

/-- A result meets a bound of k units at an exact value: where it is finite it lies within them. -/
def Meets (k : Nat) (w : ℝ) (r : Nat × Nat) : Prop :=
  ∀ t m d, unpack fmtF32 r.1 = .fin t m d → |realFV t m d - w| ≤ k * ulpAt w

theorem meets_nan {k fl : Nat} {w : ℝ} : Meets k w (fNaN fmtF32, fl) := fun t m d h => by
  rw [show unpack fmtF32 (fNaN fmtF32) = .nan by decide] at h
  cases h

theorem boundMet_of_meets {fn : Word → Nat × Nat} {want : ℝ → ℝ} {k : Nat} {lim : Option Nat}
    (h : ∀ x s n e, unpack fmtF32 x.toNat = .fin s n e → n ≠ 0 → (∀ l, lim = some l → |realFV s n e| ≤ l) →
      Meets k (want (realFV s n e)) (fn x)) : BoundMet fn want k lim :=
  fun x s t n m e d hx hn hr hlim => h x s n e hx hn hlim t m d hr

section
variable {a : FV} {w : ℝ} {k : Nat} (h : Near a w) (hk : 1 ≤ k)
include h hk

/-- A near value rounded by RNE meets the bound. -/
theorem Near.meets_rndFV : Meets k w (rndFV fmtF32 .rne a) := by
  intro t m d hr
  match a, h with
  | .fin s n e, h =>
    have hround := rndFV_f32_near h.1 hr
    have hulp := h.ulp_le
    have hclose := near_le_ulpAt w
    have hpos : 0 < ulpAt w := ulpF32_pos _
    have hk' : ulpAt w ≤ k * ulpAt w := le_mul_of_one_le_left hpos.le (by exact_mod_cast hk)
    have htri := abs_sub_le (realFV t m d) (realFV s n e) w
    have := h.2
    norm_num at *
    linarith

/-- So does whatever an implementation answers, as the model takes it. -/
theorem Near.meets_boundedR {c : Word} : Meets k w (boundedR k c a) := by
  unfold boundedR
  dsimp only
  split
  · exact h.meets_rndFV hk
  split
  case isFalse => exact h.meets_rndFV hk
  case isTrue hw =>
    intro t m d hr
    match a, h with
    | .fin s n e, h =>
      rw [hr] at hw
      have hcand := withinUlp_near hk h.1 hw
      have hulp : ((k : ℝ) - 2 ^ (-16 : Int)) * ulpF32 (n * 2 ^ e) ≤ (k - 2 ^ (-16 : Int)) * ulpAt w :=
        mul_le_mul_of_nonneg_left h.ulp_le <| by
          have : (1 : ℝ) ≤ k := by exact_mod_cast hk
          norm_num
          linarith
      have hclose := near_le_ulpAt w
      have htri := abs_sub_le (realFV t m d) (realFV s n e) w
      have := h.2
      linarith

/-- And a result that takes the rounded value where that is exact. -/
theorem Near.meets_exact_or_boundedR {c : Word} :
    Meets k w (if (rndFV fmtF32 .rne a).2 = 0 then rndFV fmtF32 .rne a else boundedR k c a) := by
  split
  · exact h.meets_rndFV hk
  · exact h.meets_boundedR hk

end

end Sys2Proof.Machine
end

section
/-! SUPPORT. Reciprocals and square roots: whole results with a sticky bit (04_numbers.md R107; 10_isa_float.md R248). -/

namespace Sys2Proof.Machine

open Sys2Proof.Claims (f32 BoundMet)

/-! ## Square roots -/

/-- Where the root lies in [r, r + 2^k), it is found. -/
theorem isqrtGo_spec (k n r : Nat) (hlo : r * r ≤ n) (hhi : n < (r + 2 ^ k) * (r + 2 ^ k)) :
    isqrtGo k n r * isqrtGo k n r ≤ n ∧ n < (isqrtGo k n r + 1) * (isqrtGo k n r + 1) := by
  induction k generalizing r with
  | zero => exact ⟨hlo, hhi⟩
  | succ k ih =>
    rw [isqrtGo]
    split
    case isTrue h =>
      refine ih _ h ?_
      rwa [Nat.add_assoc, ← Nat.mul_two, ← Nat.pow_succ]
    case isFalse h => exact ih _ hlo (Nat.lt_of_not_le h)

/-- The square root of a positive f32 value: its floor r in steps of 2^k, with a sticky bit. -/
theorem sqrtFV_spec {n : Nat} (hn : n ≠ 0) (hlt : n < 2 ^ 24) (e : Int) : ∃ (r j : Nat) (k : Int), 2 ^ 40 ≤ r ∧ r < 2 ^ 53 ∧ 2 * k = e - j ∧
    r * r ≤ n * 2 ^ j ∧ n * 2 ^ j < (r + 1) * (r + 1) ∧
    sqrtFV n e = .fin false (2 * r + if r * r = n * 2 ^ j then 0 else 1) (k - 1) := by
  have key : ∀ j, 80 ≤ j → j ≤ 81 → (isqrtGo 60 (n * 2 ^ j) 0 * isqrtGo 60 (n * 2 ^ j) 0 ≤ n * 2 ^ j ∧
      n * 2 ^ j < (isqrtGo 60 (n * 2 ^ j) 0 + 1) * (isqrtGo 60 (n * 2 ^ j) 0 + 1)) ∧
      2 ^ 40 ≤ isqrtGo 60 (n * 2 ^ j) 0 ∧ isqrtGo 60 (n * 2 ^ j) 0 < 2 ^ 53 := by
    intro j h80 h81
    have hj : 2 ^ 80 ≤ 2 ^ j ∧ 2 ^ j ≤ 2 ^ 81 := ⟨Nat.pow_le_pow_right (by decide) h80, Nat.pow_le_pow_right (by decide) h81⟩
    have hlo : 2 ^ 80 ≤ n * 2 ^ j := hj.1.trans (Nat.le_mul_of_pos_left _ (Nat.pos_of_ne_zero hn))
    have hhi : n * 2 ^ j < 2 ^ 24 * 2 ^ 81 := Nat.mul_lt_mul_of_lt_of_le hlt hj.2 (by decide)
    have hroot := isqrtGo_spec 60 (n * 2 ^ j) 0 (Nat.zero_le _) (hhi.trans (by decide))
    refine ⟨hroot, ?_, ?_⟩ <;> generalize isqrtGo 60 (n * 2 ^ j) 0 = r at *
    · by_contra h
      have : (r + 1) * (r + 1) ≤ 2 ^ 40 * 2 ^ 40 := Nat.mul_le_mul (by omega) (by omega)
      omega
    · by_contra h
      have : 2 ^ 53 * 2 ^ 53 ≤ r * r := Nat.mul_le_mul (by omega) (by omega)
      omega
  by_cases hodd : e % 2 = 1
  · obtain ⟨⟨h1, h2⟩, h3, h4⟩ := key 81 (by decide) (by decide)
    refine ⟨_, 81, (e - 1) / 2 - 40, h3, h4, by omega, h1, h2, ?_⟩
    have hbig : 2 * n * 2 ^ 80 = n * 2 ^ 81 := by omega
    simp only [sqrtFV, hodd, if_true, hbig, FV.fin.injEq, true_and]
    omega
  · obtain ⟨⟨h1, h2⟩, h3, h4⟩ := key 80 (by decide) (by decide)
    refine ⟨_, 80, e / 2 - 40, h3, h4, by omega, h1, h2, ?_⟩
    simp only [sqrtFV, hodd, if_false, FV.fin.injEq, true_and]
    omega

theorem fSqrt_of_pos {w : Word} {n : Nat} {e : Int} (h : f32 w = .fin false n e) (hn : n ≠ 0) : fSqrt w = rndFV fmtF32 .rne (sqrtFV n e) := by
  simp only [fSqrt, show unpack fmtF32 w.toNat = .fin false n e from h]

/-- R107, R248: FSQRT rounds the root's floor with a sticky bit, once. -/
theorem fSqrt_rounds_root (w : Word) (n : Nat) (e : Int) (h : f32 w = .fin false n e) (hn : n ≠ 0) : ∃ (r j : Nat) (k : Int), 2 ^ 25 ≤ r ∧
    2 * k = e - j ∧ r * r ≤ n * 2 ^ j ∧ n * 2 ^ j < (r + 1) * (r + 1) ∧
    fSqrt w = rndFV fmtF32 .rne (.fin false (2 * r + if r * r = n * 2 ^ j then 0 else 1) (k - 1)) := by
  obtain ⟨r, j, k, hlo, _, hk, h1, h2, h3⟩ := sqrtFV_spec hn (unpack_f32_fin h).1 e
  exact ⟨r, j, k, (by decide : 2 ^ 25 ≤ 2 ^ 40).trans hlo, hk, h1, h2, (fSqrt_of_pos h hn).trans (by rw [h3])⟩

/-- A floor with a sticky bit lies within half a step of the root. -/
theorem stickyFloor_near {r m : Nat} (hlo : r * r ≤ m) (hhi : m < (r + 1) * (r + 1)) :
    |((2 * r + if r * r = m then 0 else 1 : Nat) : ℝ) - 2 * √m| ≤ 1 := by
  have h1 : (r : ℝ) ≤ √m := Real.le_sqrt_of_sq_le (by rw [sq]; exact_mod_cast hlo)
  have h2 : √(m : ℝ) ≤ r + 1 := Real.sqrt_le_iff.2 ⟨by positivity, by rw [sq]; exact_mod_cast hhi.le⟩
  split
  case isTrue h =>
    have h3 : √(m : ℝ) = r := by rw [← h, Nat.cast_mul, Real.sqrt_mul_self (Nat.cast_nonneg r)]
    rw [h3]
    norm_num
  case isFalse h =>
    push_cast
    rw [abs_le]
    constructor <;> linarith

/-! ## Quotients -/

/-- A quotient with a sticky bit set only where it is not exact lies within half a step of it. -/
theorem sticky_div_near {a b : Nat} {exact : Prop} [Decidable exact] (hb : b ≠ 0) (hexact : exact → a % b = 0) :
    |((2 * (a / b) + if exact then 0 else 1 : Nat) : ℝ) - 2 * (a / b)| ≤ 1 := by
  have hpos : (0 : ℝ) < b := by exact_mod_cast Nat.pos_of_ne_zero hb
  have hdiv : (a : ℝ) = b * (a / b : Nat) + (a % b : Nat) := by exact_mod_cast (Nat.div_add_mod a b).symm
  have hmod : ((a % b : Nat) : ℝ) ≤ b := by exact_mod_cast (Nat.mod_lt a (Nat.pos_of_ne_zero hb)).le
  have hq : (a : ℝ) / b = (a / b : Nat) + (a % b : Nat) / b := by rw [hdiv]; field_simp
  have hfrac : ((a % b : Nat) : ℝ) / b ≤ 1 := (div_le_one hpos).2 hmod
  have hfrac0 : (0 : ℝ) ≤ ((a % b : Nat) : ℝ) / b := by positivity
  rw [hq]
  push_cast
  split
  case isTrue h =>
    rw [hexact h]
    norm_num
  case isFalse =>
    rw [abs_le]
    constructor <;> linarith

/-! ## FRCP and FRSQ -/

theorem rcpFV_near {n : Nat} (hn : n ≠ 0) (hlt : n < 2 ^ 24) (s : Bool) (e : Int) : Near (rcpFV s n e) (realFV s n e)⁻¹ := by
  have hn0 : (0 : ℝ) < n := by exact_mod_cast Nat.pos_of_ne_zero hn
  have hn1 : (n : ℝ) < 2 ^ 24 := by exact_mod_cast hlt
  have hq : 2 ^ 76 ≤ 2 ^ 100 / n := by
    rw [Nat.le_div_iff_mul_le (Nat.pos_of_ne_zero hn)]
    calc 2 ^ 76 * n ≤ 2 ^ 76 * 2 ^ 24 := Nat.mul_le_mul_left _ hlt.le
      _ = _ := by decide
  have hnear := sticky_div_near (a := 2 ^ 100) hn id
  unfold rcpFV Near
  dsimp only
  generalize hc : (2 * (2 ^ 100 / n) + if 2 ^ 100 % n = 0 then 0 else 1) = c at *
  have hsign : (realFV s n e)⁻¹ = realFV s 1 (-e) * (n : ℝ)⁻¹ := by
    cases s <;> simp [realFV]
  refine ⟨by omega, ?_⟩
  have hval : realFV s c (-e - 101) = realFV s 1 (-e) * (c * 2 ^ (-101 : Int)) := by
    rw [realFV, realFV, sub_eq_add_neg, zpow_add₀ two_ne_zero]
    push_cast
    ring
  rw [hval, hsign, ← mul_sub, abs_mul, abs_mul, mul_left_comm, abs_of_pos (inv_pos.2 hn0)]
  refine mul_le_mul_of_nonneg_left ?_ (abs_nonneg _)
  have hc' : (c : ℝ) * 2 ^ (-101 : Int) - (n : ℝ)⁻¹ = (c - 2 * (2 ^ 100 / n)) * 2 ^ (-101 : Int) := by
    rw [div_eq_mul_inv]
    norm_num
    ring
  rw [hc', abs_mul, abs_of_pos (show (0 : ℝ) < 2 ^ (-101 : Int) by positivity)]
  have hinv : (2 ^ 24 : ℝ)⁻¹ ≤ (n : ℝ)⁻¹ := inv_anti₀ hn0 hn1.le
  push_cast at hnear
  norm_num at hnear hinv ⊢
  linarith

theorem frsq_near {n r : Nat} {e k : Int} {j : Nat} (hn : n ≠ 0) (hr0 : 2 ^ 40 ≤ r) (hr1 : r < 2 ^ 53) (hk : 2 * k = e - j)
    (hlo : r * r ≤ n * 2 ^ j) (hhi : n * 2 ^ j < (r + 1) * (r + 1)) {b : Nat} (hb : b = 2 * r + if r * r = n * 2 ^ j then 0 else 1) :
    Near (.fin false (2 * (2 ^ 140 / b) + if b % 2 = 0 ∧ 2 ^ 140 % b = 0 then 0 else 1) (-(k - 1) - 141)) (√(realFV false n e))⁻¹ := by
  have hroot := stickyFloor_near hlo hhi
  have hb0 : 2 ^ 41 ≤ b := by omega
  have hb1 : b < 2 ^ 55 := by split at hb <;> omega
  rw [← hb] at hroot
  have hnear := sticky_div_near (a := 2 ^ 140) (b := b) (exact := b % 2 = 0 ∧ 2 ^ 140 % b = 0) (by omega) And.right
  have hq : 1 ≤ 2 ^ 140 / b := by
    rw [Nat.le_div_iff_mul_le (by omega), Nat.one_mul]
    exact hb1.le.trans (by decide)
  have hreal : √(realFV false n e) = √((n * 2 ^ j : Nat) : ℝ) * 2 ^ k := by
    have h : realFV false n e = ((n * 2 ^ j : Nat) : ℝ) * (2 ^ k) ^ 2 := by
      rw [← zpow_natCast, ← zpow_mul, mul_comm k]
      push_cast
      rw [hk, mul_assoc, ← zpow_natCast, ← zpow_add₀ two_ne_zero]
      simp [realFV]
    rw [h, Real.sqrt_mul (by positivity), Real.sqrt_sq (by positivity)]
  refine ⟨by omega, ?_⟩
  rw [hreal]
  have hb0' : (2 ^ 41 : ℝ) ≤ b := by exact_mod_cast hb0
  have hb1' : (b : ℝ) < 2 ^ 55 := by exact_mod_cast hb1
  generalize √((n * 2 ^ j : Nat) : ℝ) = q at *
  generalize (2 * (2 ^ 140 / b) + if b % 2 = 0 ∧ 2 ^ 140 % b = 0 then 0 else 1) = z at *
  rw [Nat.cast_pow, Nat.cast_ofNat] at hnear
  have hval : realFV false z (-(k - 1) - 141) = (z * 2 ^ (-140 : Int)) * 2 ^ (-k) := by
    rw [realFV, show -(k - 1) - 141 = -140 + -k by ring, zpow_add₀ two_ne_zero]
    simp only [Bool.false_eq_true, if_false, one_mul]
    ring
  have hq0 : (2 ^ 40 : ℝ) - 1 ≤ q := by
    have := (abs_le.1 hroot).2
    linarith
  have hqpos : 0 < q := by norm_num at hq0; linarith
  have hbpos : (0 : ℝ) < b := by linarith
  rw [hval, mul_inv, ← zpow_neg, ← sub_mul, abs_mul, abs_mul, ← mul_assoc]
  refine mul_le_mul_of_nonneg_right ?_ (abs_nonneg _)
  rw [abs_of_pos (inv_pos.2 hqpos)]
  have hfirst : |(z : ℝ) * 2 ^ (-140 : Int) - 2 / b| ≤ 2 ^ (-140 : Int) := by
    have : (z : ℝ) * 2 ^ (-140 : Int) - 2 / b = (z - 2 * (2 ^ 140 / b)) * 2 ^ (-140 : Int) := by
      norm_num
      ring
    rw [this, abs_mul, abs_of_pos (show (0 : ℝ) < 2 ^ (-140 : Int) by positivity)]
    exact mul_le_of_le_one_left (by positivity) hnear
  have hsecond : |2 / b - q⁻¹| ≤ 2 ^ (-41 : Int) * q⁻¹ := by
    have : 2 / b - q⁻¹ = -((b - 2 * q) * (b : ℝ)⁻¹) * q⁻¹ := by field_simp; ring
    rw [this, abs_mul, abs_of_pos (inv_pos.2 hqpos), abs_neg, abs_mul, abs_of_pos (inv_pos.2 hbpos)]
    refine mul_le_mul_of_nonneg_right ?_ (inv_pos.2 hqpos).le
    calc _ ≤ 1 * (b : ℝ)⁻¹ := mul_le_mul_of_nonneg_right hroot (inv_pos.2 hbpos).le
      _ ≤ 1 * (2 ^ 41 : ℝ)⁻¹ := by gcongr
      _ = _ := by norm_num
  have hq1 : (2 ^ 55 : ℝ)⁻¹ ≤ q⁻¹ := inv_anti₀ hqpos (by
    have := (abs_le.1 hroot).1
    linarith)
  have := abs_sub_le ((z : ℝ) * 2 ^ (-140 : Int)) (2 / b) q⁻¹
  norm_num at *
  linarith

theorem fRcp_boundMet : BoundMet fRcp (fun v => v⁻¹) 1 none := by
  refine boundMet_of_meets fun x s n e hx hn _ => ?_
  have hnear := rcpFV_near hn (unpack_f32_fin hx).1 s e
  simp only [fRcp, hx]
  exact hnear.meets_exact_or_boundedR le_rfl

theorem fRsq_boundMet : BoundMet fRsq (fun v => (√v)⁻¹) 1 none := by
  refine boundMet_of_meets fun x s n e hx hn _ => ?_
  cases s with
  | true =>
    simp only [fRsq, hx]
    exact meets_nan
  | false =>
    obtain ⟨r, j, k, hr0, hr1, hk, hlo, hhi, hroot⟩ := sqrtFV_spec hn (unpack_f32_fin hx).1 e
    generalize hb : (2 * r + if r * r = n * 2 ^ j then 0 else 1) = b at hroot
    have hnear := frsq_near hn hr0 hr1 hk hlo hhi hb.symm
    simp only [fRsq, hx, hroot]
    exact hnear.meets_exact_or_boundedR le_rfl

end Sys2Proof.Machine
end

section
/-! SUPPORT. The exponential in fixed point: its series, ln 2 and powers of 2 (04_numbers.md R107; 10_isa_float.md R248). -/

namespace Sys2Proof.Machine

open Sys2Proof.Claims (BoundMet)

/-! ## Fixed point -/

/-- Division of integers lies less than 1 below the quotient. -/
theorem cast_ediv_near (a : Int) {b : Int} (hb : 0 < b) : |((a / b : Int) : ℝ) - a / b| ≤ 1 := by
  have hb' : (0 : ℝ) < b := by exact_mod_cast hb
  have hdiv : (a : ℝ) = b * (a / b : Int) + (a % b : Int) := by exact_mod_cast (Int.mul_ediv_add_emod a b).symm
  have h0 : (0 : ℝ) ≤ (a % b : Int) := by exact_mod_cast Int.emod_nonneg a hb.ne'
  have h1 : ((a % b : Int) : ℝ) ≤ b := by exact_mod_cast (Int.emod_lt_of_pos a hb).le
  have hq : ((a / b : Int) : ℝ) - a / b = -((a % b : Int) / b) := by
    conv_lhs => rw [hdiv]
    field_simp
    ring
  rw [hq, abs_neg, abs_of_nonneg (by positivity)]
  exact (div_le_one hb').2 h1

theorem cast_div_near (a : Nat) {b : Nat} (hb : 0 < b) : |((a / b : Nat) : ℝ) - a / b| ≤ 1 := by
  have h := cast_ediv_near a (b := b) (by exact_mod_cast hb)
  rwa [← Int.natCast_ediv, Int.cast_natCast, Int.cast_natCast, Int.cast_natCast] at h

/-- A distance in units of fixed point, as one of real numbers. -/
theorem fx_near {t c d : ℝ} (h : |t - 2 ^ 200 * c| ≤ d) : |t / 2 ^ 200 - c| ≤ d * 2 ^ (-200 : Int) := by
  have hF : (0 : ℝ) < 2 ^ 200 := by positivity
  have hsub : t / 2 ^ 200 - c = (t - 2 ^ 200 * c) / 2 ^ 200 := by field_simp
  rw [hsub, abs_div, abs_of_pos hF, show (2 : ℝ) ^ (-200 : Int) = (2 ^ 200)⁻¹ by norm_num, ← div_eq_mul_inv]
  exact div_le_div_of_nonneg_right h hF.le

/-- An f32 value in fixed point is exact. -/
theorem toFx_exact (s : Bool) (n : Nat) {e : Int} (he : -149 ≤ e) : (toFx s n e : ℝ) / 2 ^ 200 = realFV s n e := by
  have hfx : (fxP : Int) = 200 := rfl
  have h := sgnInt_dyadic s n (show (-200 : Int) ≤ e by omega)
  rw [toFx, hfx, if_pos (by omega), ← h, show e - -200 = e + 200 by ring]
  norm_num
  ring

/-- A sticky bit moves a value by half a step. -/
theorem stickyFV_eq (x e : Int) : ∃ s n, stickyFV x e = .fin s n (e - 1) ∧ n ≠ 0 ∧ |realFV s n (e - 1) - x * 2 ^ e| ≤ 2 ^ (e - 1) := by
  refine ⟨_, _, rfl, by omega, ?_⟩
  have hx : (x : ℝ) * 2 ^ e = realFV (decide (x < 0)) (2 * x.natAbs) (e - 1) := by
    have h : (sgnInt (decide (x < 0)) (2 * x.natAbs) : ℝ) = 2 * x := by
      have : sgnInt (decide (x < 0)) (2 * x.natAbs) = 2 * x := by
        unfold sgnInt
        split <;> simp only [decide_eq_true_eq] at * <;> omega
      exact_mod_cast this
    rw [realFV_eq_sgnInt, h, zpow_sub_one₀ two_ne_zero]
    ring
  rw [hx, abs_realFV_sub, ← sub_mul]
  push_cast
  rw [add_sub_cancel_left, one_mul, abs_of_pos (by positivity)]

/-- A mantissa near a value in a step below 2^-41 of it makes a close value. -/
theorem stickyFV_near {x e : Int} {w : ℝ} (h : |(x : ℝ) * 2 ^ e - w| + 2 ^ (e - 1) ≤ 2 ^ (-40 : Int) * |w|) : Near (stickyFV x e) w := by
  obtain ⟨s, n, heq, hn, hnear⟩ := stickyFV_eq x e
  rw [heq]
  exact ⟨hn, (abs_sub_le _ _ _).trans (by linarith)⟩

/-! ## The series of exp -/

/-- What `expSeries` adds up, as a multiple of its first term. -/
noncomputable def expSum : Nat → Nat → ℝ → ℝ
  | 0, _, _ => 1
  | n + 1, k, x => 1 + x / (k + 1) * expSum n (k + 1) x

theorem expSum_bounds (n k : Nat) {x : ℝ} (h0 : 0 ≤ x) (h1 : x ≤ 3 / 4) : 0 ≤ expSum n k x ∧ expSum n k x ≤ 4 := by
  induction n generalizing k with
  | zero => norm_num [expSum]
  | succ n ih =>
    obtain ⟨hlo, hhi⟩ := ih (k + 1)
    have hx : x / (k + 1) ≤ 3 / 4 := (div_le_self h0 (by linarith [k.cast_nonneg (α := ℝ)])).trans h1
    have hx0 : 0 ≤ x / (k + 1) := by positivity
    rw [expSum]
    constructor <;> nlinarith

theorem expSum_eq (n k : Nat) (x : ℝ) :
    x ^ k / k.factorial * expSum n k x = ∑ i ∈ Finset.range (n + 1), x ^ (k + i) / (k + i).factorial := by
  induction n generalizing k with
  | zero => simp [expSum]
  | succ n ih =>
    have hstep := ih (k + 1)
    have hsucc : expSum (n + 1) k x = 1 + x / (k + 1) * expSum n (k + 1) x := rfl
    have hshift : ∀ i, k + (i + 1) = k + 1 + i := fun i => by omega
    rw [Finset.sum_range_succ', hsucc, Finset.sum_congr rfl fun i _ => by rw [hshift], ← hstep, Nat.factorial_succ, pow_succ]
    simp only [Nat.add_zero]
    push_cast
    field_simp
    ring

/-- The series in fixed point: each term is a unit off at most. -/
theorem expSeries_near (n k : Nat) {t term : Int} (h0 : 0 ≤ t) (h1 : (t : ℝ) / 2 ^ 200 ≤ 3 / 4) :
    |(expSeries n k t term : ℝ) - term * expSum n k (t / 2 ^ 200)| ≤ 4 * n := by
  induction n generalizing k term with
  | zero => simp [expSeries, expSum]
  | succ n ih =>
    have ht0 : (0 : ℝ) ≤ (t : ℝ) / 2 ^ 200 := by positivity
    obtain ⟨hlo, hhi⟩ := expSum_bounds n (k + 1) ht0 h1
    rw [expSeries, expSum]
    have hfloor : (term * t / 2 ^ fxP / (k + 1 : Nat) : Int) = term * t / (2 ^ fxP * (k + 1 : Nat)) := Int.ediv_ediv_of_nonneg (by positivity)
    have hterm := cast_ediv_near (term * t) (b := 2 ^ fxP * (k + 1 : Nat)) (by positivity)
    have hs := ih (k + 1) (term := term * t / 2 ^ fxP / (k + 1 : Nat))
    rw [hfloor] at hs ⊢
    generalize (term * t / (2 ^ fxP * (k + 1 : Nat)) : Int) = u at *
    have hquot : ((term * t : Int) : ℝ) / ((2 ^ fxP * (k + 1 : Nat) : Int) : ℝ) = term * (t / 2 ^ 200 / (k + 1)) := by
      push_cast
      rw [fxP]
      field_simp
    rw [hquot] at hterm
    generalize (t : ℝ) / 2 ^ 200 / (k + 1) = y at *
    generalize expSum n (k + 1) (t / 2 ^ 200) = c at *
    push_cast
    calc |(term : ℝ) + expSeries n (k + 1) t u - term * (1 + y * c)|
        = |(expSeries n (k + 1) t u - u * c) + (u - term * y) * c| := by ring_nf
      _ ≤ |(expSeries n (k + 1) t u : ℝ) - u * c| + |(u : ℝ) - term * y| * |c| := by rw [← abs_mul]; exact abs_add_le _ _
      _ ≤ 4 * n + 1 * 4 := by rw [abs_of_nonneg hlo]; gcongr
      _ = 4 * (n + 1) := by ring

/-- Forty-six terms of the series give exp within 2^-190. -/
theorem expSeries_exp {t : Int} (h0 : 0 ≤ t) (h1 : (t : ℝ) / 2 ^ 200 ≤ 3 / 4) :
    |(expSeries 45 0 t (2 ^ fxP) : ℝ) / 2 ^ 200 - Real.exp (t / 2 ^ 200)| ≤ 2 ^ (-190 : Int) := by
  have hx0 : (0 : ℝ) ≤ (t : ℝ) / 2 ^ 200 := by positivity
  have hser := expSeries_near 45 0 (term := 2 ^ fxP) h0 h1
  have hsum := expSum_eq 45 0 ((t : ℝ) / 2 ^ 200)
  have hexp := Real.exp_bound (x := (t : ℝ) / 2 ^ 200) (by rw [abs_of_nonneg hx0]; linarith) (n := 46) (by norm_num)
  simp only [pow_zero, Nat.factorial_zero, Nat.cast_one, div_one, one_mul, Nat.zero_add] at hsum
  rw [← hsum, abs_of_nonneg hx0] at hexp
  have hpow : ((t : ℝ) / 2 ^ 200) ^ 46 ≤ 1 := pow_le_one₀ hx0 (by linarith)
  have hone : (((2 ^ fxP : Int)) : ℝ) = 2 ^ 200 := by norm_num [fxP]
  rw [hone] at hser
  have htail : ((t : ℝ) / 2 ^ 200) ^ 46 * ((Nat.succ 46 : ℕ) / ((Nat.factorial 46 : ℕ) * (46 : ℕ))) ≤ 1 * 2 ^ (-191 : Int) := by
    refine mul_le_mul hpow ?_ (by positivity) zero_le_one
    norm_num [Nat.factorial]
  generalize ((t : ℝ) / 2 ^ 200) ^ 46 * ((Nat.succ 46 : ℕ) / ((Nat.factorial 46 : ℕ) * (46 : ℕ))) = tail at *
  generalize Real.exp _ = ex at *
  generalize expSum 45 0 _ = c at *
  have hser' := fx_near hser
  rw [abs_sub_comm] at hexp
  have := abs_sub_le ((expSeries 45 0 t (2 ^ fxP) : ℝ) / 2 ^ 200) c ex
  norm_num at *
  linarith

/-! ## ln 2 -/

/-- A ratio near 1 has a logarithm near 0. -/
theorem abs_log_le {y d : ℝ} (hd : d ≤ 1 / 2) (h : |y - 1| ≤ d) : |Real.log y| ≤ 2 * d := by
  obtain ⟨h1, h2⟩ := abs_le.1 h
  have hpos : 0 < y := by linarith
  have hhi := Real.log_le_sub_one_of_pos hpos
  have hlo := Real.one_sub_inv_le_log_of_pos hpos
  have hinv : y⁻¹ ≤ 1 + 2 * d := by
    rw [inv_le_iff_one_le_mul₀ hpos]
    nlinarith
  rw [abs_le]
  constructor <;> linarith

theorem fxLn2_near : |(fxLn2 : ℝ) / 2 ^ 200 - Real.log 2| ≤ 2 ^ (-188 : Int) := by
  have heval : expSeries 45 0 fxLn2 (2 ^ fxP) = 2 * 2 ^ 200 - 21 := by decide +kernel
  have hexp := expSeries_exp (t := fxLn2) (by positivity) (by norm_num [fxLn2])
  rw [heval, Int.cast_natCast] at hexp
  generalize (fxLn2 : ℝ) / 2 ^ 200 = x at *
  have hx : x - Real.log 2 = Real.log (Real.exp x / 2) := by
    rw [Real.log_div (Real.exp_ne_zero x) two_ne_zero, Real.log_exp]
  have hratio : |Real.exp x / 2 - 1| ≤ 2 ^ (-189 : Int) := by
    obtain ⟨h1, h2⟩ := abs_le.1 hexp
    rw [abs_le]
    push_cast at h1 h2
    norm_num at *
    constructor <;> linarith
  rw [hx]
  exact (abs_log_le (by norm_num) hratio).trans (by norm_num)

/-! ## Powers of 2 -/

/-- Exponentials of near exponents are near in their own size. -/
theorem exp_near {x y d : ℝ} (hd : d ≤ 1) (h : |x - y| ≤ d) : |Real.exp x - Real.exp y| ≤ 2 * d * Real.exp y := by
  have hfac : Real.exp x - Real.exp y = (Real.exp (x - y) - 1) * Real.exp y := by
    rw [sub_mul, ← Real.exp_add, sub_add_cancel, one_mul]
  rw [hfac, abs_mul, abs_of_pos (Real.exp_pos y)]
  refine mul_le_mul_of_nonneg_right ((Real.abs_exp_sub_one_le (h.trans hd)).trans ?_) (Real.exp_pos y).le
  linarith

theorem exp2Fx_snd (x : Int) : (exp2Fx x).2 = x / 2 ^ 200 - 200 := rfl

/-- A power of 2 in fixed point. -/
theorem exp2Fx_near (x : Int) :
    |((exp2Fx x).1 : ℝ) * 2 ^ (exp2Fx x).2 - 2 ^ ((x : ℝ) / 2 ^ 200)| ≤ 2 ^ (-185 : Int) * 2 ^ ((x : ℝ) / 2 ^ 200) := by
  have hx : (x : ℝ) = 2 ^ 200 * ((x / 2 ^ 200 : Int) : ℝ) + ((x % 2 ^ 200 : Int) : ℝ) := by
    have h := congrArg (Int.cast (R := ℝ)) (Int.mul_ediv_add_emod x (2 ^ 200)).symm
    rwa [Int.cast_add, Int.cast_mul, Int.cast_pow, Int.cast_ofNat] at h
  have hf0 : 0 ≤ x % 2 ^ 200 := Int.emod_nonneg x (by norm_num)
  have hf1 : x % 2 ^ 200 < 2 ^ 200 := Int.emod_lt_of_pos x (by norm_num)
  have hm : (exp2Fx x).1 = expSeries 45 0 (x % 2 ^ 200 * fxLn2 / 2 ^ 200) (2 ^ fxP) := rfl
  rw [hm, exp2Fx_snd]
  generalize x / 2 ^ 200 = i at *
  generalize x % 2 ^ 200 = f at *
  have hfr0 : (0 : ℝ) ≤ f / 2 ^ 200 := by positivity
  have hfr1 : (f : ℝ) / 2 ^ 200 ≤ 1 := (div_le_one (by positivity)).2 (by exact_mod_cast hf1.le)
  have hsplit : (2 : ℝ) ^ ((x : ℝ) / 2 ^ 200) = Real.exp (f / 2 ^ 200 * Real.log 2) * 2 ^ i := by
    have : (x : ℝ) / 2 ^ 200 = f / 2 ^ 200 + i := by rw [hx]; field_simp; ring
    rw [this, Real.rpow_add two_pos, Real.rpow_intCast, Real.rpow_def_of_pos two_pos, mul_comm (Real.log 2)]
  have hfloor := cast_ediv_near (f * fxLn2) (b := 2 ^ 200) (by norm_num)
  have ht0 : 0 ≤ f * fxLn2 / 2 ^ 200 := Int.ediv_nonneg (by positivity) (by norm_num)
  have ht1 : f * fxLn2 / 2 ^ 200 ≤ fxLn2 := by
    refine Int.ediv_le_of_le_mul (by norm_num) ?_
    rw [mul_comm]
    exact mul_le_mul_of_nonneg_left hf1.le (by positivity)
  generalize f * fxLn2 / 2 ^ 200 = t at *
  have ht : |(t : ℝ) / 2 ^ 200 - f / 2 ^ 200 * Real.log 2| ≤ 2 ^ (-187 : Int) := by
    have hln := mul_le_mul_of_nonneg_left fxLn2_near hfr0
    rw [← abs_of_nonneg hfr0, ← abs_mul, mul_sub, abs_of_nonneg hfr0] at hln
    have hone : (f : ℝ) / 2 ^ 200 * 2 ^ (-188 : Int) ≤ 1 * 2 ^ (-188 : Int) := by gcongr
    have hprod : ((f * fxLn2 : Int) : ℝ) / ((2 ^ 200 : Int) : ℝ) = 2 ^ 200 * (f / 2 ^ 200 * (fxLn2 / 2 ^ 200)) := by
      rw [Int.cast_mul, Int.cast_natCast, Int.cast_pow, Int.cast_ofNat]
      field_simp
    rw [hprod] at hfloor
    have hfl := fx_near hfloor
    have := abs_sub_le ((t : ℝ) / 2 ^ 200) ((f : ℝ) / 2 ^ 200 * (fxLn2 / 2 ^ 200)) (f / 2 ^ 200 * Real.log 2)
    norm_num at *
    linarith
  have ht1' : (t : ℝ) ≤ fxLn2 := by exact_mod_cast ht1
  have hser := expSeries_exp ht0 ((div_le_div_of_nonneg_right ht1' (by positivity)).trans (by norm_num [fxLn2]))
  have hexp := exp_near (by norm_num) ht
  have hE : 1 ≤ Real.exp (f / 2 ^ 200 * Real.log 2) := Real.one_le_exp (mul_nonneg hfr0 (Real.log_nonneg one_le_two))
  rw [hsplit]
  generalize Real.exp (f / 2 ^ 200 * Real.log 2) = E at *
  generalize (expSeries 45 0 t (2 ^ fxP) : ℝ) = m at *
  have hmE := abs_sub_le (m / 2 ^ 200) (Real.exp ((t : ℝ) / 2 ^ 200)) E
  have hscale : m * 2 ^ (i - 200) - E * 2 ^ i = (m / 2 ^ 200 - E) * 2 ^ i := by
    rw [zpow_sub₀ two_ne_zero]
    norm_cast
    ring
  rw [hscale, abs_mul, abs_of_pos (show (0 : ℝ) < 2 ^ i by positivity), ← mul_assoc]
  refine mul_le_mul_of_nonneg_right (hmE.trans ?_) (by positivity)
  norm_num at *
  linarith

end Sys2Proof.Machine
end

section
/-! SUPPORT. FEX2 and FTANH: their close values lie near the exact ones (04_numbers.md R107; 10_isa_float.md R248). -/

namespace Sys2Proof.Machine

open Sys2Proof.Claims (BoundMet)

/-! ## FEX2 -/

/-- The exponent's power of 2 is a value of one bit. -/
theorem near_two_pow (i : Int) : Near (.fin false 1 i) (2 ^ ((i : Int) : ℝ)) := by
  refine ⟨one_ne_zero, ?_⟩
  rw [realFV, Real.rpow_intCast]
  norm_num
  positivity

/-- A whole value towards zero is itself. -/
theorem toIntFV_integral {n : Nat} {e : Int} (hn : n ≠ 0) (s : Bool) (h : isIntegral n e = true) :
    (((toIntFV .rtz s n e).1 : Int) : ℝ) = realFV s n e := by
  have hsgn : (toIntFV .rtz s n e).1 = sgnInt s (roundTo .rtz s n e 0).1 := by rw [toIntFV, if_neg hn]
  have hmag : ((roundTo .rtz s n e 0).1 : ℝ) = n * 2 ^ e := by
    unfold isIntegral at h
    unfold roundTo
    split
    case isTrue he => rw [Nat.cast_mul, two_zpow_toNat he, zpow_zero, div_one]
    case isFalse he =>
      simp only [he, decide_false, Bool.false_or, decide_eq_true_eq] at h
      have hle := Nat.le_of_dvd (Nat.pos_of_ne_zero hn) (Nat.dvd_of_mod_eq_zero h)
      have hlog : ¬n.log2 + 2 < (0 - e).toNat := by
        have := (Nat.le_log2 hn).2 hle
        rw [Int.zero_sub]
        omega
      have hdiv : (n : ℝ) = 2 ^ (-e) * (n / 2 ^ (-e).toNat : Nat) := by
        have h2 := two_zpow_toNat (show 0 ≤ -e by omega)
        rw [zpow_zero, div_one, Int.sub_zero] at h2
        rw [← h2, ← Nat.cast_mul, Nat.mul_div_cancel' (Nat.dvd_of_mod_eq_zero h)]
      have hshift : roundShift .rtz s n (0 - e).toNat = (n / 2 ^ (-e).toNat, false) := by
        rw [roundShift, Int.zero_sub]
        exact if_pos h
      dsimp only
      rw [if_neg hlog, hshift]
      conv_rhs => rw [hdiv]
      rw [mul_right_comm, ← zpow_add₀ two_ne_zero, neg_add_cancel, zpow_zero, one_mul]
  rw [hsgn, realFV_eq_sgnInt]
  cases s <;> simp [sgnInt, hmag]

/-- The unit is at least the spacing of the subnormals. -/
theorem le_ulpAt (w : ℝ) : 2 ^ (-149 : Int) ≤ ulpAt w := zpow_le_zpow_right₀ one_le_two (by omega)

/-- A binade's lower end. -/
theorem zpow_le_of_log2 {n : Nat} {e k : Int} (hn : n ≠ 0) (h : k ≤ (Nat.log2 n : Int) + e) : (2 : ℝ) ^ k ≤ n * 2 ^ e := by
  have hle := Int.zpow_log_le_self Nat.one_lt_two (show (0 : ℝ) < n * 2 ^ e by positivity)
  rw [log_of_dyadic hn] at hle
  exact (zpow_le_zpow_right₀ one_le_two h).trans (by exact_mod_cast hle)

/-- A binade's upper end. -/
theorem lt_zpow_of_log2 {n : Nat} {e k : Int} (hn : n ≠ 0) (h : (Nat.log2 n : Int) + e < k) : (n : ℝ) * 2 ^ e < 2 ^ k := by
  have hlt := Int.lt_zpow_succ_log_self Nat.one_lt_two ((n : ℝ) * 2 ^ e)
  rw [log_of_dyadic hn] at hlt
  exact lt_of_lt_of_le (by exact_mod_cast hlt) (zpow_le_zpow_right₀ one_le_two (by omega))

/-- 2^x beyond every exponent of f32: an infinity, or zero. -/
theorem exp2_far_meets {n : Nat} {e : Int} (s : Bool) (hn : n ≠ 0) (h : (Nat.log2 n : Int) + e ≥ 9) :
    Meets 2 (2 ^ realFV s n e) (rndFV fmtF32 .rne (.fin false 1 (if s then -1000 else 1000))) := by
  intro t m d hr
  have hbig := zpow_le_of_log2 hn h
  cases s with
  | false =>
    rw [show unpack fmtF32 (rndFV fmtF32 .rne (.fin false 1 (if false = true then -1000 else 1000))).1 = .inf false by decide +kernel] at hr
    cases hr
  | true =>
    rw [show unpack fmtF32 (rndFV fmtF32 .rne (.fin false 1 (if true = true then -1000 else 1000))).1 = .fin false 0 (-149) by
      decide +kernel] at hr
    cases hr
    have hsmall : (2 : ℝ) ^ realFV true n e ≤ 2 ^ (-149 : Int) := by
      rw [← Real.rpow_intCast]
      refine Real.rpow_le_rpow_of_exponent_le one_le_two ?_
      simp only [realFV, if_true]
      norm_num at hbig ⊢
      linarith
    have hpos : (0 : ℝ) < 2 ^ realFV true n e := by positivity
    have hunit := le_ulpAt (2 ^ realFV true n e)
    rw [show realFV false 0 (-149) = 0 by simp [realFV], zero_sub, abs_neg, abs_of_pos hpos]
    push_cast
    linarith [ulpF32_pos (|2 ^ realFV true n e| * (1 + 2 ^ (-40 : Int)))]

/-- The close value of 2^x. -/
theorem exp2FV_near (s : Bool) (n : Nat) {e : Int} (he : -149 ≤ e) : Near (exp2FV s n e) (2 ^ realFV s n e) := by
  have h := exp2Fx_near (toFx s n e)
  have hexp : (exp2Fx (toFx s n e)).2 = _ := exp2Fx_snd _
  have hfx := toFx_exact s n he
  rw [hfx] at h
  refine stickyFV_near (x := (exp2Fx (toFx s n e)).1) (e := (exp2Fx (toFx s n e)).2) ?_
  have hstep : (2 : ℝ) ^ ((exp2Fx (toFx s n e)).2 - 1) ≤ 2 ^ (-201 : Int) * 2 ^ realFV s n e := by
    rw [hexp, show toFx s n e / 2 ^ 200 - 200 - 1 = -201 + toFx s n e / 2 ^ 200 by ring, zpow_add₀ two_ne_zero]
    refine mul_le_mul_of_nonneg_left ?_ (by positivity)
    rw [← Real.rpow_intCast, ← hfx]
    refine Real.rpow_le_rpow_of_exponent_le one_le_two ?_
    rw [le_div_iff₀ (by positivity)]
    exact_mod_cast Int.ediv_mul_le (toFx s n e) (show (2 : Int) ^ 200 ≠ 0 by norm_num)
  rw [abs_of_pos (show (0 : ℝ) < 2 ^ realFV s n e by positivity)]
  generalize (2 : ℝ) ^ realFV s n e = w at *
  have hw : 0 ≤ w := nonneg_of_mul_nonneg_right ((by positivity : (0 : ℝ) ≤ _).trans hstep) (by positivity)
  norm_num at *
  linarith

theorem fEx2_boundMet : BoundMet fEx2 (fun v => 2 ^ v) 2 none := by
  refine boundMet_of_meets fun x s n e hx hn _ => ?_
  simp only [fEx2, hx]
  split
  case isTrue h => exact exp2_far_meets s hn h
  case isFalse =>
    split
    case isTrue h =>
      rw [← toIntFV_integral hn s h]
      exact (near_two_pow _).meets_rndFV one_le_two
    case isFalse => exact (exp2FV_near s n (unpack_f32_fin hx).2.1).meets_boundedR one_le_two

/-! ## x − x³/d -/

/-- Two terms of an odd series near 0 are a close value. -/
theorem cubicFV_near {n d : Nat} {e : Int} (s : Bool) {w : ℝ} (hn : n ≠ 0) (hd : 3 ≤ d) (hsmall : (Nat.log2 n : Int) + e < -12)
    (hw : |w - (realFV s n e - realFV s n e ^ 3 / d)| ≤ |realFV s n e| ^ 5) : Near (cubicFV s n e d) w := by
  have hv := lt_zpow_of_log2 hn hsmall
  have hd' : (3 : ℝ) ≤ d := by exact_mod_cast hd
  have hn1 : (1 : ℝ) ≤ n := by exact_mod_cast Nat.one_le_iff_ne_zero.2 hn
  have he0 : (0 : ℝ) < 2 ^ e := by positivity
  have hone : (2 : ℝ) ^ e ≤ n * 2 ^ e := le_mul_of_one_le_left he0.le hn1
  have hpow : ((2 ^ (-2 * e).toNat : Nat) : ℝ) * (2 ^ e) ^ 2 = 1 := by
    have h := two_zpow_toNat (show 0 ≤ -2 * e by omega)
    rw [Int.sub_zero, zpow_zero, div_one] at h
    rw [h, ← zpow_natCast, ← zpow_mul, ← zpow_add₀ two_ne_zero, show -2 * e + e * ((2 : Nat) : Int) = 0 by push_cast; ring, zpow_zero]
  obtain ⟨σ, hσ, hreal⟩ : ∃ σ : ℝ, |σ| = 1 ∧ ∀ k f, realFV s k f = σ * (k * 2 ^ f) := by
    refine ⟨if s then -1 else 1, by cases s <;> simp, fun k f => mul_assoc _ _ _⟩
  have hσ3 : σ ^ 3 = σ := by
    rw [pow_succ, ← sq_abs, hσ]
    ring
  have hunit : (2 : ℝ) ^ (3 * e - 64) = (2 ^ e) ^ 3 * 2 ^ (-64 : Int) := by
    rw [sub_eq_add_neg, zpow_add₀ two_ne_zero, mul_comm 3 e, zpow_mul]
    norm_cast
  have hle : n ^ 2 ≤ d * 2 ^ (-2 * e).toNat := by
    have : (n : ℝ) ^ 2 ≤ d * (2 ^ (-2 * e).toNat : Nat) := by
      refine le_of_mul_le_mul_right ?_ (show (0 : ℝ) < (2 ^ e) ^ 2 by positivity)
      rw [mul_assoc, hpow, ← mul_pow]
      exact (pow_le_one₀ (by positivity) (hv.le.trans (by norm_num))).trans (by linarith)
    exact_mod_cast this
  have hfloor := cast_div_near (n * (d * 2 ^ (-2 * e).toNat - n ^ 2) * 2 ^ 64) (show 0 < d by omega)
  rw [Nat.cast_mul, Nat.cast_mul, Nat.cast_sub hle, Nat.cast_mul, Nat.cast_pow n, Nat.cast_pow 2 64, Nat.cast_ofNat] at hfloor
  unfold cubicFV
  generalize n * (d * 2 ^ (-2 * e).toNat - n ^ 2) * 2 ^ 64 / d = c at *
  generalize ((2 ^ (-2 * e).toNat : Nat) : ℝ) = p at *
  rw [abs_realFV, hreal, mul_pow, hσ3, show ∀ a b : ℝ, σ * a - σ * b / d = σ * (a - b / d) from fun a b => by ring] at hw
  have hvalue : |(c : ℝ) * 2 ^ (3 * e - 64) - (n * 2 ^ e - (n * 2 ^ e) ^ 3 / d)| ≤ 2 ^ (3 * e - 64) := by
    have hexact : (n : ℝ) * 2 ^ e - (n * 2 ^ e) ^ 3 / d = n * (d * p - n ^ 2) * 2 ^ 64 / d * 2 ^ (3 * e - 64) := by
      have hd0 : (d : ℝ) ≠ 0 := by positivity
      rw [hunit]
      norm_num
      field_simp
      linear_combination (-(d : ℝ)) * hpow
    rw [hexact, ← sub_mul, abs_mul, abs_of_pos (show (0 : ℝ) < 2 ^ (3 * e - 64) by positivity)]
    exact mul_le_of_le_one_left (by positivity) hfloor
  have hstep : (2 : ℝ) ^ (3 * e - 64) ≤ 2 ^ (-64 : Int) * (n * 2 ^ e) := by
    rw [hunit, mul_comm]
    refine mul_le_mul_of_nonneg_left ?_ (by positivity)
    have he1 : (2 : ℝ) ^ e ≤ 1 := hone.trans (hv.le.trans (by norm_num))
    calc ((2 : ℝ) ^ e) ^ 3 ≤ (2 ^ e) ^ 1 := pow_le_pow_of_le_one he0.le he1 (by norm_num)
      _ ≤ n * 2 ^ e := by rwa [pow_one]
  have hm0 : (0 : ℝ) < n * 2 ^ e := by positivity
  generalize (n : ℝ) * 2 ^ e = m at *
  have hcube : m ^ 3 / d ≤ m / 4 := by
    rw [div_le_iff₀ (by positivity)]
    norm_num at hv
    nlinarith [mul_pos hm0 hm0, pow_pos hm0 3]
  have hfive : m ^ 5 ≤ 2 ^ (-48 : Int) * m := by
    have : m ^ 4 ≤ (2 ^ (-12 : Int)) ^ 4 := pow_le_pow_left₀ hm0.le hv.le 4
    norm_num at this ⊢
    nlinarith
  have hcube0 : 0 ≤ m ^ 3 / d := by positivity
  refine ⟨?_, ?_⟩
  · rintro rfl
    rw [Nat.cast_zero, zero_mul, zero_sub, abs_neg] at hvalue
    have := le_abs_self (m - m ^ 3 / d)
    norm_num at *
    linarith
  · rw [hreal]
    have hdist : |σ * (c * 2 ^ (3 * e - 64)) - σ * (m - m ^ 3 / d)| ≤ 2 ^ (3 * e - 64) := by
      rwa [← mul_sub, abs_mul, hσ, one_mul]
    have hsize : m - m ^ 3 / d ≤ |σ * (m - m ^ 3 / d)| := by
      rw [abs_mul, hσ, one_mul]
      exact le_abs_self _
    rw [abs_sub_comm] at hw
    have htri := abs_sub_le (σ * ((c : ℝ) * 2 ^ (3 * e - 64))) (σ * (m - m ^ 3 / d)) w
    have hback := abs_sub_abs_le_abs_sub (σ * (m - m ^ 3 / d)) w
    norm_num at *
    linarith

end Sys2Proof.Machine
end

section
/-! SUPPORT. FTANH: its close value lies near tanh (04_numbers.md R107; 10_isa_float.md R248). -/

namespace Sys2Proof.Machine

open Sys2Proof.Claims (BoundMet)

/-! ## tanh -/

/-- The polynomial x − x³/3 lies within |x|^5 of tanh x. -/
theorem tanh_near_cubic {x : ℝ} (hx : |x| ≤ 1) : |Real.tanh x - (x - x ^ 3 / (3 : Nat))| ≤ |x| ^ 5 := by
  have hpos := Real.exp_bound hx (n := 5) (by norm_num)
  have hneg := Real.exp_bound (x := -x) (by rwa [abs_neg]) (n := 5) (by norm_num)
  rw [abs_neg] at hneg
  simp only [Finset.sum_range_succ, Finset.sum_range_zero] at hpos hneg
  norm_num [Nat.factorial] at hpos hneg
  have hc := Real.one_le_cosh x
  have hc0 : 0 < Real.cosh x := by linarith
  have hx5 : |x ^ 5| = |x| ^ 5 := abs_pow x 5
  have hquot : Real.tanh x - (x - x ^ 3 / (3 : Nat)) = (Real.sinh x - (x - x ^ 3 / 3) * Real.cosh x) / Real.cosh x := by
    rw [Real.tanh_eq_sinh_div_cosh]
    push_cast
    field_simp
  rw [hquot, abs_div, abs_of_pos hc0, div_le_iff₀ hc0]
  refine le_trans ?_ (le_mul_of_one_le_right (by positivity) hc)
  have hS : |Real.sinh x - (x + x ^ 3 / 6)| ≤ |x| ^ 5 / 100 := by
    rw [Real.sinh_eq, abs_le]
    constructor <;> linarith [(abs_le.1 hpos).1, (abs_le.1 hpos).2, (abs_le.1 hneg).1, (abs_le.1 hneg).2]
  have hC : |Real.cosh x - (1 + x ^ 2 / 2 + x ^ 4 / 24)| ≤ |x| ^ 5 / 100 := by
    rw [Real.cosh_eq, abs_le]
    constructor <;> linarith [(abs_le.1 hpos).1, (abs_le.1 hpos).2, (abs_le.1 hneg).1, (abs_le.1 hneg).2]
  have hp : |x - x ^ 3 / 3| ≤ 1 := by
    have hsq : x ^ 2 ≤ 1 := (sq_le_one_iff_abs_le_one x).2 hx
    rw [show x - x ^ 3 / 3 = x * (1 - x ^ 2 / 3) by ring, abs_mul]
    refine mul_le_one₀ hx (abs_nonneg _) ?_
    rw [abs_le]
    constructor <;> linarith [sq_nonneg x]
  have hrest : |x ^ 5 * (1 / 8 + x ^ 2 / 72)| ≤ |x| ^ 5 * (1 / 7) := by
    have hsq : x ^ 2 ≤ 1 := (sq_le_one_iff_abs_le_one x).2 hx
    rw [abs_mul, hx5, abs_of_nonneg (show 0 ≤ 1 / 8 + x ^ 2 / 72 by positivity)]
    refine mul_le_mul_of_nonneg_left ?_ (pow_nonneg (abs_nonneg x) 5)
    linarith
  calc |Real.sinh x - (x - x ^ 3 / 3) * Real.cosh x|
      = |(Real.sinh x - (x + x ^ 3 / 6)) - (x - x ^ 3 / 3) * (Real.cosh x - (1 + x ^ 2 / 2 + x ^ 4 / 24)) + x ^ 5 * (1 / 8 + x ^ 2 / 72)| := by
        ring_nf
    _ ≤ |Real.sinh x - (x + x ^ 3 / 6)| + |x - x ^ 3 / 3| * |Real.cosh x - (1 + x ^ 2 / 2 + x ^ 4 / 24)| +
        |x ^ 5 * (1 / 8 + x ^ 2 / 72)| := by
      rw [← abs_mul]
      exact (abs_add_le _ _).trans (add_le_add_left (abs_sub _ _) _)
    _ ≤ |x| ^ 5 / 100 + 1 * (|x| ^ 5 / 100) + |x| ^ 5 * (1 / 7) := by gcongr
    _ ≤ _ := by nlinarith [pow_nonneg (abs_nonneg x) 5]

theorem tanh_eq_exp (x : ℝ) : Real.tanh x = (Real.exp (2 * x) - 1) / (Real.exp (2 * x) + 1) := by
  have h : Real.exp (2 * x) = Real.exp x * Real.exp x := by rw [← Real.exp_add, two_mul]
  rw [Real.tanh_eq, h, Real.exp_neg]
  have := Real.exp_pos x
  field_simp

theorem Near.flip {a : FV} {w : ℝ} (h : Near a w) : Near a.flip (-w) := by
  match a, h with
  | .fin s n e, ⟨hn, h⟩ =>
    refine ⟨hn, ?_⟩
    have hneg : realFV (!s) n e = -realFV s n e := by cases s <;> simp [realFV]
    rwa [hneg, neg_sub_neg, abs_sub_comm, abs_neg]

/-- From 16 on tanh is nearly 1. -/
theorem one_near_tanh {x : ℝ} (hx : 16 ≤ x) : Near (.fin false (2 ^ 60 - 1) (-60)) (Real.tanh x) := by
  have hexp : (2 : ℝ) ^ 43 ≤ Real.exp (2 * x) := by
    have h1 : (2.7 : ℝ) ^ 32 ≤ Real.exp 1 ^ 32 := pow_le_pow_left₀ (by norm_num) (by linarith [Real.exp_one_gt_d9]) 32
    rw [← Real.exp_nat_mul] at h1
    refine le_trans ?_ (h1.trans (Real.exp_le_exp.2 (by push_cast; linarith)))
    norm_num
  rw [tanh_eq_exp]
  generalize Real.exp (2 * x) = E at *
  have hE : (E - 1) / (E + 1) = 1 - 2 / (E + 1) := by field_simp; ring
  have hsmall : 2 / (E + 1) ≤ 2 ^ (-42 : Int) := by
    rw [div_le_iff₀ (by linarith)]
    norm_num at *
    linarith
  have hpos : 0 ≤ 2 / (E + 1) := by positivity
  have hval : realFV false (2 ^ 60 - 1) (-60) = 1 - 2 ^ (-60 : Int) := by norm_num [realFV]
  refine ⟨by decide, ?_⟩
  rw [hE, hval]
  generalize 2 / (E + 1) = δ at *
  rw [abs_of_nonneg (show 0 ≤ 1 - δ by norm_num at hsmall; linarith), abs_le]
  norm_num at hsmall ⊢
  constructor <;> linarith

/-- The quotient that `tanhFV` takes: a value near e^2x gives one near tanh x. -/
theorem tanh_quotient_near {U E d : ℝ} (hU0 : 0 < U) (hE0 : 0 < E) (h : |U - E| ≤ d * E) :
    |(U - 1) / (U + 1) - (E - 1) / (E + 1)| ≤ 2 * d := by
  have hsub : (U - 1) / (U + 1) - (E - 1) / (E + 1) = 2 * (U - E) / ((U + 1) * (E + 1)) := by field_simp; ring
  have hd : 0 ≤ d := nonneg_of_mul_nonneg_left ((abs_nonneg _).trans h) hE0
  rw [hsub, abs_div, abs_mul, abs_two, abs_of_pos (show 0 < (U + 1) * (E + 1) by positivity), div_le_iff₀ (by positivity)]
  have h1 : E ≤ (U + 1) * (E + 1) := by nlinarith
  nlinarith

/-- tanh of a positive value is no less than half of it up to 1, and so at least 2^-13 from 2^-12 on. -/
theorem le_tanh {x : ℝ} (hx : 2 ^ (-12 : Int) ≤ x) : 2 ^ (-13 : Int) ≤ Real.tanh x := by
  have hE := Real.add_one_le_exp (2 * x)
  rw [tanh_eq_exp, le_div_iff₀ (by positivity)]
  norm_num at *
  linarith

/-- The whole power of 2 that `tanhFV` scales by, and what it makes: e^2x in fixed point. -/
theorem tanh_exp_near {X : Int} (h0 : 0 ≤ X) (h1 : X < 16 * 2 ^ 200) :
    |((exp2Fx (2 * X * 2 ^ fxP / fxLn2)).1 : ℝ) * 2 ^ (exp2Fx (2 * X * 2 ^ fxP / fxLn2)).2 - Real.exp (2 * (X / 2 ^ 200))| ≤
      2 ^ (-170 : Int) * Real.exp (2 * (X / 2 ^ 200)) := by
  have hnear := exp2Fx_near (2 * X * 2 ^ fxP / fxLn2)
  have hfloor := cast_ediv_near (2 * X * 2 ^ fxP) (b := fxLn2) (by decide)
  generalize 2 * X * 2 ^ fxP / (fxLn2 : Int) = y at *
  have hx0 : (0 : ℝ) ≤ X / 2 ^ 200 := by positivity
  have hx1 : (X : ℝ) / 2 ^ 200 ≤ 16 := by
    rw [div_le_iff₀ (by positivity)]
    exact_mod_cast h1.le
  have hln := fxLn2_near
  have hquot : ((2 * X * 2 ^ fxP : Int) : ℝ) / ((fxLn2 : Int) : ℝ) = 2 ^ 200 * (2 * (X / 2 ^ 200) / (fxLn2 / 2 ^ 200)) := by
    push_cast
    rw [fxP]
    field_simp
  have hL : (2⁻¹ : ℝ) ≤ fxLn2 / 2 ^ 200 := by norm_num [fxLn2]
  rw [hquot] at hfloor
  generalize (X : ℝ) / 2 ^ 200 = x at *
  generalize (fxLn2 : ℝ) / 2 ^ 200 = L at *
  have hlog1 : Real.log 2 ≤ 1 := by linarith [Real.log_two_lt_d9]
  have hlog0 : 0 ≤ Real.log 2 := Real.log_nonneg one_le_two
  have hL0 : 0 < L := by linarith
  have hy := fx_near hfloor
  have hexponent : |Real.log 2 * (y / 2 ^ 200) - 2 * x| ≤ 2 ^ (-180 : Int) := by
    have hsplit : Real.log 2 * (y / 2 ^ 200) - 2 * x = Real.log 2 * (y / 2 ^ 200 - 2 * x / L) - 2 * x / L * (L - Real.log 2) := by
      field_simp
      ring
    have hfac : 2 * x / L ≤ 64 := by
      rw [div_le_iff₀ hL0]
      linarith
    rw [hsplit]
    calc _ ≤ Real.log 2 * |y / 2 ^ 200 - 2 * x / L| + 2 * x / L * |L - Real.log 2| := by
          refine (abs_sub _ _).trans_eq ?_
          rw [abs_mul, abs_mul, abs_of_nonneg hlog0, abs_of_nonneg (show 0 ≤ 2 * x / L by positivity)]
      _ ≤ 1 * (1 * 2 ^ (-200 : Int)) + 64 * 2 ^ (-188 : Int) := by gcongr
      _ ≤ _ := by norm_num
  rw [Real.rpow_def_of_pos two_pos] at hnear
  have hexp := exp_near (by norm_num) hexponent
  generalize Real.exp (Real.log 2 * (y / 2 ^ 200)) = P at *
  have hE := Real.exp_pos (2 * x)
  generalize Real.exp (2 * x) = E at *
  have htri := abs_sub_le (((exp2Fx y).1 : ℝ) * 2 ^ (exp2Fx y).2) P E
  have hP := (abs_le.1 hexp).2
  norm_num at *
  linarith

/-- The close value of tanh x between 2^-12 and 16. -/
theorem tanh_mid_near {X : Int} (h0 : 2 ^ 188 ≤ X) (h1 : X < 16 * 2 ^ 200) {m k : Int} (hmk : exp2Fx (2 * X * 2 ^ fxP / fxLn2) = (m, k)) :
    Near (stickyFV ((m * 2 ^ (k + fxP).toNat - 2 ^ fxP) * 2 ^ fxP / (m * 2 ^ (k + fxP).toNat + 2 ^ fxP)) (-fxP)) (Real.tanh (X / 2 ^ 200)) := by
  have hX : 0 ≤ X := (show (0 : Int) ≤ 2 ^ 188 by norm_num).trans h0
  have hnear := tanh_exp_near hX h1
  have hk := exp2Fx_snd (2 * X * 2 ^ fxP / fxLn2)
  rw [hmk] at hnear hk
  have hx : 2 ^ (-12 : Int) ≤ (X : ℝ) / 2 ^ 200 := by
    rw [le_div_iff₀ (by positivity)]
    have : (2 ^ 188 : ℝ) ≤ X := by exact_mod_cast h0
    norm_num at *
    linarith
  have hk0 : 0 ≤ k + 200 := by
    dsimp only at hk
    rw [hk, sub_add_cancel]
    exact Int.ediv_nonneg (Int.ediv_nonneg (by positivity) (by positivity)) (by norm_num)
  have hu : ((m * 2 ^ (k + fxP).toNat : Int) : ℝ) = 2 ^ 200 * (m * 2 ^ k) := by
    have h := two_zpow_toNat (show (0 : Int) ≤ k + 200 from hk0)
    rw [Int.sub_zero, zpow_zero, div_one, zpow_add₀ two_ne_zero] at h
    push_cast at h ⊢
    rw [show ((fxP : Nat) : Int) = 200 from rfl, h]
    norm_cast
    ring
  have htanh := le_tanh hx
  have hE : 1 ≤ Real.exp (2 * (X / 2 ^ 200)) := Real.one_le_exp (by positivity)
  rw [tanh_eq_exp] at htanh ⊢
  dsimp only at hnear
  generalize m * 2 ^ (k + fxP).toNat = u at *
  generalize Real.exp (2 * ((X : ℝ) / 2 ^ 200)) = E at *
  generalize (m : ℝ) * 2 ^ k = U at *
  have hU : 0 < U := by
    have := (abs_le.1 hnear).1
    norm_num at *
    linarith
  have hupos : 0 < u + 2 ^ fxP := by
    have : (0 : ℝ) < u := by rw [hu]; positivity
    have : 0 < u := by exact_mod_cast this
    positivity
  have hquot := tanh_quotient_near hU (by linarith) hnear
  have hfloor := cast_ediv_near ((u - 2 ^ fxP) * 2 ^ fxP) hupos
  have hratio : (((u - 2 ^ fxP) * 2 ^ fxP : Int) : ℝ) / ((u + 2 ^ fxP : Int) : ℝ) = 2 ^ 200 * ((U - 1) / (U + 1)) := by
    push_cast
    rw [hu, fxP]
    field_simp
  rw [hratio] at hfloor
  refine stickyFV_near ?_
  generalize (u - 2 ^ fxP) * 2 ^ fxP / (u + 2 ^ fxP) = T at *
  rw [show (-(fxP : Nat) : Int) = -200 from rfl, abs_of_pos (show 0 < (E - 1) / (E + 1) by norm_num at *; linarith)]
  generalize (U - 1) / (U + 1) = Q at *
  generalize (E - 1) / (E + 1) = R at *
  have hTQ := fx_near hfloor
  have htri := abs_sub_le ((T : ℝ) / 2 ^ 200) Q R
  rw [show (T : ℝ) * 2 ^ (-200 : Int) = T / 2 ^ 200 by norm_num; ring]
  norm_num at *
  linarith

/-- The close value of tanh of a positive value from 2^-12 on. -/
theorem tanhFV_near {n : Nat} {e : Int} (hn : n ≠ 0) (he : -149 ≤ e) (h : -12 ≤ (Nat.log2 n : Int) + e) :
    Near (tanhFV n e) (Real.tanh (n * 2 ^ e)) := by
  have hlo := zpow_le_of_log2 hn h
  unfold tanhFV
  split
  case isTrue hbig =>
    have hx := zpow_le_of_log2 hn hbig
    exact one_near_tanh (by norm_num at hx ⊢; exact hx)
  case isFalse hbig =>
    have hhi := lt_zpow_of_log2 hn (Int.lt_of_not_ge hbig)
    have hfx := toFx_exact false n he
    rw [realFV, if_neg Bool.false_ne_true, one_mul] at hfx
    rw [← hfx] at hlo hhi ⊢
    refine tanh_mid_near ?_ ?_ rfl
    · rw [le_div_iff₀ (by positivity)] at hlo
      norm_num at hlo ⊢
      exact_mod_cast hlo
    · rw [div_lt_iff₀ (by positivity)] at hhi
      norm_num at hhi ⊢
      exact_mod_cast hhi

theorem fTanh_boundMet : BoundMet fTanh Real.tanh 2 none := by
  refine boundMet_of_meets fun x s n e hx hn _ => ?_
  obtain ⟨_, he, _⟩ := unpack_f32_fin hx
  simp only [fTanh, hx]
  split
  case isTrue h =>
    refine (cubicFV_near s hn le_rfl h (tanh_near_cubic ?_)).meets_boundedR one_le_two
    rw [abs_realFV]
    exact (lt_zpow_of_log2 hn h).le.trans (by norm_num)
  case isFalse h =>
    have hnear := tanhFV_near hn he (Int.le_of_not_gt h)
    cases s with
    | false =>
      rw [realFV, if_neg Bool.false_ne_true, one_mul]
      exact hnear.meets_boundedR one_le_two
    | true =>
      rw [show realFV true n e = -(n * 2 ^ e) by simp [realFV], Real.tanh_neg]
      exact hnear.flip.meets_boundedR one_le_two

end Sys2Proof.Machine
end

section
/-! SUPPORT. FLG2: the logarithm by repeated squaring (04_numbers.md R107; 10_isa_float.md R248). -/

namespace Sys2Proof.Machine

open Sys2Proof.Claims (BoundMet)

/-! ## Repeated squaring -/

/-- A mantissa cut off below 2^-256 has nearly its logarithm. -/
theorem logb_cut_near {y z : ℝ} (hz : 1 ≤ z) (h0 : z ≤ y) (h1 : y ≤ z + 2 ^ (-256 : Int)) :
    0 ≤ Real.logb 2 y - Real.logb 2 z ∧ Real.logb 2 y - Real.logb 2 z ≤ 2 ^ (-250 : Int) := by
  have hz0 : 0 < z := by linarith
  refine ⟨sub_nonneg.2 (Real.logb_le_logb_of_le one_lt_two hz0 h0), ?_⟩
  have hratio : y / z ≤ 1 + 2 ^ (-256 : Int) := by
    rw [div_le_iff₀ hz0]
    refine h1.trans ?_
    rw [add_mul, one_mul]
    exact add_le_add_right (le_mul_of_one_le_right (by positivity) hz) z
  have hlog := Real.log_le_sub_one_of_pos (div_pos (hz0.trans_le h0) hz0)
  have htwo : (1 / 2 : ℝ) ≤ Real.log 2 := by linarith [Real.log_two_gt_d9]
  rw [← Real.logb_div (by linarith) hz0.ne', Real.logb, div_le_iff₀ (by linarith)]
  norm_num at *
  linarith

/-- b is the whole part of a mantissa's logarithm in steps of 2^-k, but for what the cuts of its squares leave. -/
def LogBits (k m b : Nat) : Prop :=
  0 ≤ 2 ^ k * Real.logb 2 (m / 2 ^ 256) - b ∧ 2 ^ k * Real.logb 2 (m / 2 ^ 256) - b ≤ 1 + 2 ^ k * 2 ^ (-250 : Int)

/-- A bit of the logarithm: where the square halved so often has the bits b, the mantissa has the bit above them. -/
theorem LogBits.square {k m s b bit : Nat} (hm : m ≠ 0) (hs0 : 2 ^ 256 ≤ s) (hs : s = m * m / 2 ^ (256 + bit)) (h : LogBits k s b) :
    LogBits (k + 1) m (bit * 2 ^ k + b) := by
  obtain ⟨hb0, hb1⟩ := h
  have hm0 : (m : ℝ) ≠ 0 := by exact_mod_cast hm
  have hS1 : 1 ≤ (s : ℝ) / 2 ^ 256 := (one_le_div (by positivity)).2 (by exact_mod_cast hs0)
  have hsquare : (m / 2 ^ 256 : ℝ) ^ 2 / 2 ^ bit = m * m / 2 ^ (256 + bit) / 2 ^ 256 := by
    rw [pow_add]
    field_simp
  have hdiv := cast_div_near (m * m) (b := 2 ^ (256 + bit)) (by positivity)
  have hfloor : (s : ℝ) * 2 ^ (256 + bit) ≤ m * m := by
    rw [hs]
    exact_mod_cast Nat.div_mul_le_self (m * m) (2 ^ (256 + bit))
  rw [← hs, Nat.cast_mul, Nat.cast_pow, Nat.cast_ofNat] at hdiv
  have hlo : (s : ℝ) / 2 ^ 256 ≤ (m / 2 ^ 256) ^ 2 / 2 ^ bit := by
    rw [hsquare]
    exact div_le_div_of_nonneg_right ((le_div_iff₀ (by positivity)).2 hfloor) (by positivity)
  have hhi : (m / 2 ^ 256 : ℝ) ^ 2 / 2 ^ bit ≤ s / 2 ^ 256 + 2 ^ (-256 : Int) := by
    have := (abs_le.1 hdiv).1
    rw [hsquare]
    generalize (m : ℝ) * m / 2 ^ (256 + bit) = q at *
    norm_num at *
    linarith
  obtain ⟨hc0, hc1⟩ := logb_cut_near hS1 hlo hhi
  have hlog : Real.logb 2 ((m / 2 ^ 256) ^ 2 / 2 ^ bit) = 2 * Real.logb 2 (m / 2 ^ 256) - bit := by
    rw [Real.logb_div (by positivity) (by positivity), Real.logb_pow, Real.logb_pow, Real.logb_self_eq_one one_lt_two]
    push_cast
    ring
  rw [hlog] at hc0 hc1
  unfold LogBits
  generalize Real.logb 2 (m / 2 ^ 256) = L at *
  generalize Real.logb 2 (s / 2 ^ 256) = L' at *
  have hk : (0 : ℝ) < 2 ^ k := by positivity
  have h0 := mul_nonneg hk.le hc0
  have h1 := mul_le_mul_of_nonneg_left hc1 hk.le
  push_cast
  rw [pow_succ]
  constructor <;> linarith

/-- The bits by repeated squaring. -/
theorem log2Bits_near (k acc : Nat) {m : Nat} (hlo : 2 ^ 256 ≤ m) (hhi : m < 2 ^ 257) :
    ∃ b : Nat, log2Bits k m acc = acc * 2 ^ k + b ∧ LogBits k m b := by
  induction k generalizing acc m with
  | zero =>
    have hM1 : 1 ≤ (m : ℝ) / 2 ^ 256 := (one_le_div (by positivity)).2 (by exact_mod_cast hlo)
    have hM2 : (m : ℝ) / 2 ^ 256 ≤ 2 := by
      rw [div_le_iff₀ (by positivity), mul_comm, ← pow_succ]
      exact (show (m : ℝ) < ((2 ^ 257 : Nat) : ℝ) from Nat.cast_lt.2 hhi).le.trans_eq (by rw [Nat.cast_pow, Nat.cast_ofNat])
    have := Real.logb_le_logb_of_le one_lt_two (by linarith) hM2
    rw [Real.logb_self_eq_one one_lt_two] at this
    refine ⟨0, by simp [log2Bits], by simpa using Real.logb_nonneg one_lt_two hM1, ?_⟩
    norm_num
    linarith
  | succ k ih =>
    have hm : m ≠ 0 := ((Nat.two_pow_pos 256).trans_le hlo).ne'
    have hs0 : 2 ^ 256 ≤ m * m / 2 ^ 256 := (Nat.le_div_iff_mul_le (Nat.two_pow_pos 256)).2 (Nat.mul_le_mul hlo hlo)
    have hhalf : m * m / 2 ^ 256 / 2 = m * m / 2 ^ 257 := by rw [Nat.div_div_eq_div_mul, ← pow_succ]
    by_cases hbit : 2 ^ 257 ≤ m * m / 2 ^ 256
    · have hs1 : m * m / 2 ^ 257 < 2 ^ 257 := (Nat.div_lt_iff_lt_mul (Nat.two_pow_pos 257)).2 <| by gcongr
      have hs2 : 2 ^ 256 ≤ m * m / 2 ^ 257 := by rwa [← hhalf, Nat.le_div_iff_mul_le two_pos, ← pow_succ]
      obtain ⟨b, hb, hnear⟩ := ih (2 * acc + 1) hs2 hs1
      refine ⟨1 * 2 ^ k + b, ?_, hnear.square hm hs2 rfl⟩
      simp only [log2Bits, hbit, if_true, hhalf, hb]
      ring
    · obtain ⟨b, hb, hnear⟩ := ih (2 * acc) hs0 (Nat.lt_of_not_le hbit)
      refine ⟨0 * 2 ^ k + b, ?_, hnear.square hm hs0 rfl⟩
      simp only [log2Bits, hbit, if_false, hb]
      ring

/-! ## Logarithms of f32 values -/

theorem logb_two_zpow (e : Int) : Real.logb 2 (2 ^ e) = e := by
  rw [← Real.rpow_intCast, Real.logb_rpow two_pos (by norm_num)]

/-- A ratio apart from 1 has a logarithm apart from 0. -/
theorem le_abs_logb {v d : ℝ} (hv : 0 < v) (hd0 : 0 ≤ d) (hd1 : d ≤ 1) (h : d ≤ |v - 1|) : d / 2 ≤ |Real.logb 2 v| := by
  have htwo : Real.log 2 ≤ 1 := by linarith [Real.log_two_lt_d9]
  have hlog : d / 2 ≤ |Real.log v| := by
    rcases le_abs.1 h with h | h
    · refine le_trans ?_ ((Real.one_sub_inv_le_log_of_pos hv).trans (le_abs_self _))
      have : v⁻¹ ≤ 1 - d / 2 := by
        rw [inv_le_iff_one_le_mul₀ hv]
        nlinarith
      linarith
    · refine le_trans ?_ ((neg_le_neg (Real.log_le_sub_one_of_pos hv)).trans (neg_le_abs _))
      linarith
  rw [Real.logb, abs_div, abs_of_pos (Real.log_pos one_lt_two), le_div_iff₀ (Real.log_pos one_lt_two)]
  nlinarith [abs_nonneg (Real.log v)]

/-- An f32 value that is no power of 2 lies apart from 1. -/
theorem f32_apart_one {n : Nat} {e : Int} (hlt : n < 2 ^ 24) (hpow : n ≠ 2 ^ Nat.log2 n) : 2 ^ (-24 : Int) ≤ |(n : ℝ) * 2 ^ e - 1| := by
  have hne : ∀ k : Nat, n ≠ 2 ^ k := fun k h => hpow (by rw [h, Nat.log2_two_pow])
  rcases le_or_gt 0 e with he | he
  · have h : (n : ℝ) * 2 ^ e - 1 = ((n * 2 ^ e.toNat : Nat) - 1 : Int) := by
      have := two_zpow_toNat he
      rw [Int.sub_zero, zpow_zero, div_one] at this
      rw [← this]
      push_cast
      ring
    have hint : (1 : Int) ≤ |((n * 2 ^ e.toNat : Nat) - 1 : Int)| := by
      refine Int.one_le_abs fun h1 => hne 0 ?_
      exact Nat.eq_one_of_mul_eq_one_right (by omega : n * 2 ^ e.toNat = 1)
    rw [h, ← Int.cast_abs]
    refine le_trans ?_ (by exact_mod_cast hint : (1 : ℝ) ≤ _)
    norm_num
  · have h : (n : ℝ) * 2 ^ e - 1 = ((n : Int) - (2 ^ (-e).toNat : Nat) : Int) * 2 ^ e := by
      have := two_zpow_toNat (show 0 ≤ -e by omega)
      rw [Int.sub_zero, zpow_zero, div_one, zpow_neg] at this
      push_cast at this ⊢
      rw [this]
      field_simp
    have hint : (1 : Int) ≤ |(n : Int) - (2 ^ (-e).toNat : Nat)| := Int.one_le_abs fun h1 => hne (-e).toNat (by omega)
    by_cases hsmall : -24 ≤ e
    · rw [h, abs_mul, abs_of_pos (show (0 : ℝ) < 2 ^ e by positivity), ← Int.cast_abs]
      calc (2 : ℝ) ^ (-24 : Int) ≤ 1 * 2 ^ e := by rw [one_mul]; exact zpow_le_zpow_right₀ one_le_two hsmall
        _ ≤ _ := mul_le_mul_of_nonneg_right (by exact_mod_cast hint) (by positivity)
    · have hn : (n : ℝ) ≤ 2 ^ 24 := by exact_mod_cast hlt.le
      have he' : (2 : ℝ) ^ e ≤ 2 ^ (-25 : Int) := zpow_le_zpow_right₀ one_le_two (by omega)
      have hv : (n : ℝ) * 2 ^ e ≤ 2 ^ 24 * 2 ^ (-25 : Int) := by gcongr
      rw [abs_sub_comm]
      refine le_trans ?_ (le_abs_self _)
      norm_num at *
      linarith

/-! ## FLG2 -/

theorem log2FV_near {n : Nat} {e : Int} (hn : n ≠ 0) (hlt : n < 2 ^ 24) (hpow : n ≠ 2 ^ Nat.log2 n) :
    Near (log2FV n e) (Real.logb 2 (n * 2 ^ e)) := by
  have hlow := Nat.log2_self_le hn
  have hhigh := Nat.lt_log2_self (n := n)
  have hlog : n.log2 ≤ 23 := Nat.le_of_lt_succ ((Nat.log2_lt hn).2 hlt)
  have happ := le_abs_logb (v := n * 2 ^ e) (by positivity) (by positivity) (by norm_num) (f32_apart_one (e := e) hlt hpow)
  unfold log2FV
  dsimp only
  rw [if_pos (by omega)]
  have hpow256 : 2 ^ n.log2 * 2 ^ (256 - n.log2) = 2 ^ 256 := by rw [← pow_add, Nat.add_sub_cancel' (by omega)]
  obtain ⟨b, hb, hnear⟩ := log2Bits_near 110 0 (m := n * 2 ^ (256 - n.log2))
    (by rw [← hpow256]; exact Nat.mul_le_mul_right _ hlow)
    (by
      rw [pow_succ 2 256, ← hpow256, mul_right_comm, ← pow_succ]
      exact Nat.mul_lt_mul_of_pos_right hhigh (by positivity))
  have hmant : Real.logb 2 ((n * 2 ^ (256 - n.log2) : Nat) / 2 ^ 256) = Real.logb 2 (n * 2 ^ e) - ((n.log2 : Int) + e : Int) := by
    have hn0 : (n : ℝ) ≠ 0 := by exact_mod_cast hn
    rw [Real.logb_mul hn0 (by positivity), logb_two_zpow]
    have : ((n * 2 ^ (256 - n.log2) : Nat) / 2 ^ 256 : ℝ) = n / 2 ^ n.log2 := by
      rw [div_eq_div_iff (by positivity) (by positivity), ← Nat.cast_ofNat (R := ℝ), ← Nat.cast_pow, ← Nat.cast_pow, ← hpow256]
      push_cast
      ring
    rw [this, Real.logb_div hn0 (by positivity), Real.logb_pow, Real.logb_self_eq_one one_lt_two]
    push_cast
    ring
  rw [hb, Nat.zero_mul, Nat.zero_add]
  rw [LogBits, hmant] at hnear
  obtain ⟨hb0, hb1⟩ := hnear
  refine stickyFV_near ?_
  generalize Real.logb 2 (n * 2 ^ e) = L at *
  have hx : |(((n.log2 : Int) + e) * 2 ^ 110 + (b : Int) : Int) * 2 ^ (-110 : Int) - L| ≤ 2 ^ (-109 : Int) := by
    push_cast at hb0 hb1 ⊢
    rw [abs_le]
    norm_num at *
    constructor <;> linarith
  norm_num at *
  linarith

/-- A whole number other than zero is a value of its own. -/
theorem ofInt_near {i : Int} (hi : i ≠ 0) : Near (ofInt i) i := by
  have hval : realFV (decide (i < 0)) i.natAbs 0 = i := by
    have : sgnInt (decide (i < 0)) i.natAbs = i := by
      unfold sgnInt
      split <;> simp only [decide_eq_true_eq] at * <;> omega
    rw [realFV_eq_sgnInt, this, zpow_zero, mul_one]
  refine ⟨by omega, ?_⟩
  rw [hval, sub_self, abs_zero]
  positivity

theorem fLg2_boundMet : BoundMet fLg2 (Real.logb 2) 2 none := by
  refine boundMet_of_meets fun x s n e hx hn _ => ?_
  cases s with
  | true =>
    simp only [fLg2, hx]
    exact meets_nan
  | false =>
    obtain ⟨hlt, _, _⟩ := unpack_f32_fin hx
    rw [realFV, if_neg Bool.false_ne_true, one_mul]
    simp only [fLg2, hx]
    split
    case isFalse h => exact (log2FV_near hn hlt h).meets_boundedR one_le_two
    case isTrue h =>
      have hlog : Real.logb 2 (n * 2 ^ e) = ((n.log2 : Int) + e : Int) := by
        conv_lhs => rw [h]
        rw [Nat.cast_pow, Nat.cast_ofNat, ← zpow_natCast, ← zpow_add₀ two_ne_zero, logb_two_zpow]
      rw [hlog]
      by_cases hzero : (n.log2 : Int) + e = 0
      · rw [hzero]
        intro t m d hr
        rw [show unpack fmtF32 (rndFV fmtF32 .rne (ofInt 0)).1 = .fin false 0 (-149) by decide] at hr
        cases hr
        have := (ulpF32_pos (|((0 : Int) : ℝ)| * (1 + 2 ^ (-40 : Int)))).le
        simp only [realFV, Nat.cast_zero, mul_zero, zero_mul, Int.cast_zero, sub_zero, abs_zero] at this ⊢
        exact mul_nonneg (Nat.cast_nonneg 2) (ulpF32_pos _).le
      · exact (ofInt_near hzero).meets_rndFV one_le_two

end Sys2Proof.Machine
end

section
/-! SUPPORT. FSIN and FCOS: the series of sin and cos in fixed point, π/2, the reduction by quarters, and how near an f32 value comes to a
multiple of π/2 (04_numbers.md R107; 10_isa_float.md R248). -/

namespace Sys2Proof.Machine

open Sys2Proof.Claims (BoundMet)

/-! ## The series -/

/-- What `trigSeries` adds up, as a multiple of its first term. -/
noncomputable def trigSum : Nat → Nat → ℝ → ℝ
  | 0, _, _ => 1
  | n + 1, k, y => 1 - y / ((k + 1) * (k + 2)) * trigSum n (k + 2) y

/-- A term's factor is at most 1/2. -/
theorem trig_factor {y : ℝ} (k : Nat) (h0 : 0 ≤ y) : 0 ≤ y / ((k + 1) * (k + 2)) ∧ y / ((k + 1) * (k + 2)) ≤ y / 2 := by
  have hk : (2 : ℝ) ≤ (k + 1) * (k + 2) := by nlinarith [k.cast_nonneg (α := ℝ)]
  exact ⟨by positivity, div_le_div_of_nonneg_left h0 two_pos hk⟩

theorem trigSum_bounds (n k : Nat) {y : ℝ} (h0 : 0 ≤ y) (h1 : y ≤ 1) : 0 ≤ trigSum n k y ∧ trigSum n k y ≤ 1 := by
  induction n generalizing k with
  | zero => norm_num [trigSum]
  | succ n ih =>
    obtain ⟨hlo, hhi⟩ := ih (k + 2)
    obtain ⟨ha0, ha1⟩ := trig_factor k h0
    rw [trigSum]
    constructor <;> nlinarith

/-- The sum moves no more than its argument. -/
theorem trigSum_lipschitz (n k : Nat) {y z : ℝ} (hy0 : 0 ≤ y) (hy1 : y ≤ 1) (hz0 : 0 ≤ z) (hz1 : z ≤ 1) :
    |trigSum n k y - trigSum n k z| ≤ |y - z| := by
  induction n generalizing k with
  | zero => simp [trigSum]
  | succ n ih =>
    have h := ih (k + 2)
    obtain ⟨hlo, hhi⟩ := trigSum_bounds n (k + 2) hz0 hz1
    have hc : (2 : ℝ) ≤ (k + 1) * (k + 2) := by nlinarith [k.cast_nonneg (α := ℝ)]
    rw [trigSum, trigSum]
    generalize trigSum n (k + 2) y = u at *
    generalize trigSum n (k + 2) z = v at *
    generalize ((k : ℝ) + 1) * (k + 2) = c at *
    have hsplit : 1 - y / c * u - (1 - z / c * v) = -(y * (u - v) + (y - z) * v) / c := by field_simp; ring
    rw [hsplit, abs_div, abs_neg, abs_of_pos (show 0 < c by linarith), div_le_iff₀ (by linarith)]
    calc |y * (u - v) + (y - z) * v| ≤ |y| * |u - v| + |y - z| * |v| := by
          rw [← abs_mul, ← abs_mul]
          exact abs_add_le _ _
      _ ≤ 1 * |y - z| + |y - z| * 1 := by rw [abs_of_nonneg hy0, abs_of_nonneg hlo]; gcongr
      _ ≤ |y - z| * c := by nlinarith [abs_nonneg (y - z)]

/-- The series in fixed point: each term is a unit off at most. -/
theorem trigSeries_near (n k : Nat) {y term : Int} (h0 : 0 ≤ y) (h1 : (y : ℝ) / 2 ^ 200 ≤ 1) :
    |(trigSeries n k y term : ℝ) - term * trigSum n k (y / 2 ^ 200)| ≤ n := by
  induction n generalizing k term with
  | zero => simp [trigSeries, trigSum]
  | succ n ih =>
    obtain ⟨hlo, hhi⟩ := trigSum_bounds n (k + 2) (show (0 : ℝ) ≤ y / 2 ^ 200 by positivity) h1
    rw [trigSeries, trigSum]
    have hfloor : (term * y / 2 ^ fxP / ((k + 1) * (k + 2) : Nat) : Int) = term * y / (2 ^ fxP * ((k + 1) * (k + 2) : Nat)) :=
      Int.ediv_ediv_of_nonneg (by positivity)
    have hterm := cast_ediv_near (term * y) (b := 2 ^ fxP * ((k + 1) * (k + 2) : Nat)) (by positivity)
    have hs := ih (k + 2) (term := -(term * y / 2 ^ fxP / ((k + 1) * (k + 2) : Nat)))
    rw [hfloor] at hs ⊢
    generalize (term * y / (2 ^ fxP * ((k + 1) * (k + 2) : Nat)) : Int) = u at *
    have hquot : ((term * y : Int) : ℝ) / ((2 ^ fxP * ((k + 1) * (k + 2) : Nat) : Int) : ℝ) = term * (y / 2 ^ 200 / ((k + 1) * (k + 2))) := by
      push_cast
      rw [fxP]
      field_simp
    rw [hquot] at hterm
    generalize (y : ℝ) / 2 ^ 200 / ((k + 1) * (k + 2)) = z at *
    generalize trigSum n (k + 2) (y / 2 ^ 200) = c at *
    push_cast at hs ⊢
    calc |(term : ℝ) + trigSeries n (k + 2) y (-u) - term * (1 - z * c)|
        = |(trigSeries n (k + 2) y (-u) - -u * c) - (u - term * z) * c| := by ring_nf
      _ ≤ |(trigSeries n (k + 2) y (-u) : ℝ) - -u * c| + |(u : ℝ) - term * z| * |c| := by rw [← abs_mul]; exact abs_sub _ _
      _ ≤ n + 1 * 1 := by rw [abs_of_nonneg hlo]; gcongr
      _ = n + 1 := by ring

/-- The sums for cos and sin are the real and imaginary parts of the series of exp at ir. -/
theorem trigSum_eq (n k : Nat) (r : ℝ) :
    (r * Complex.I) ^ k / k.factorial * trigSum n k (r ^ 2) + (r * Complex.I) ^ (k + 1) / (k + 1).factorial * trigSum n (k + 1) (r ^ 2) =
      ∑ i ∈ Finset.range (2 * n + 2), (r * Complex.I) ^ (k + i) / ((k + i).factorial : ℂ) := by
  induction n generalizing k with
  | zero => simp [trigSum, Finset.sum_range_succ]
  | succ n ih =>
    have hshift : ∀ i, k + (i + 1 + 1) = k + 2 + i := fun i => by omega
    have hfac : ∀ j, trigSum (n + 1) j (r ^ 2) = 1 - r ^ 2 / ((j + 1) * (j + 2)) * trigSum n (j + 2) (r ^ 2) := fun _ => rfl
    have hstep : ∀ j : Nat, ((r : ℂ) * Complex.I) ^ (j + 2) / ((j + 2).factorial : ℂ) =
        (r * Complex.I) ^ j / j.factorial * -(r ^ 2 / ((j + 1) * (j + 2))) := by
      intro j
      rw [Nat.factorial_succ, Nat.factorial_succ, pow_add, mul_pow _ _ 2, Complex.I_sq]
      push_cast
      have h1 : (j : ℂ) + 1 ≠ 0 := by exact_mod_cast Nat.succ_ne_zero j
      have h2 : (j : ℂ) + 1 + 1 ≠ 0 := by exact_mod_cast Nat.succ_ne_zero (j + 1)
      have h3 : (j : ℂ) + 2 ≠ 0 := by exact_mod_cast Nat.succ_ne_zero (j + 1)
      have h4 : (j.factorial : ℂ) ≠ 0 := by exact_mod_cast j.factorial_ne_zero
      field_simp
      ring
    rw [show 2 * (n + 1) + 2 = 2 * n + 2 + 1 + 1 by ring, Finset.sum_range_succ', Finset.sum_range_succ',
      Finset.sum_congr rfl fun i _ => by rw [hshift], ← ih (k + 2), hstep, show k + 2 + 1 = k + 1 + 2 by ring, hstep (k + 1), hfac, hfac]
    simp only [Nat.zero_add, Nat.add_zero]
    push_cast
    ring

/-- Forty-one terms of each give cos and sin. -/
theorem trigSum_near {r : ℝ} (hr : |r| ≤ 1) :
    |Real.cos r - trigSum 40 0 (r ^ 2)| ≤ 2 ^ (-200 : Int) ∧ |Real.sin r - r * trigSum 40 1 (r ^ 2)| ≤ 2 ^ (-200 : Int) := by
  have hnorm : ‖(r : ℂ) * Complex.I‖ = |r| := by rw [norm_mul, Complex.norm_I, mul_one, Complex.norm_real, Real.norm_eq_abs]
  have hexp := Complex.exp_bound (x := r * Complex.I) (by rwa [hnorm]) (n := 82) (by norm_num)
  have hsum := trigSum_eq 40 0 r
  simp only [pow_zero, Nat.factorial_zero, Nat.cast_one, div_one, one_mul, Nat.zero_add, Nat.factorial_one, pow_one, Nat.reduceMul,
    Nat.reduceAdd] at hsum
  have htail : |r| ^ 82 * ((Nat.succ 82 : ℕ) * ((Nat.factorial 82 : ℕ) * (82 : ℕ) : ℝ)⁻¹) ≤ 1 * 2 ^ (-200 : Int) := by
    refine mul_le_mul (pow_le_one₀ (abs_nonneg r) hr) ?_ (by positivity) zero_le_one
    norm_num [Nat.factorial]
  rw [hnorm, ← hsum, Complex.exp_mul_I] at hexp
  have hbound := hexp.trans htail
  rw [one_mul] at hbound
  have hre := (Complex.abs_re_le_norm _).trans hbound
  have him := (Complex.abs_im_le_norm _).trans hbound
  simp [← Complex.ofReal_cos, ← Complex.ofReal_sin] at hre him
  rw [show (2 : ℝ) ^ (-200 : Int) = (2 ^ 200)⁻¹ by norm_num]
  exact ⟨hre, him⟩

/-- The two series of `trigFx`, for an argument in fixed point. -/
theorem trigSeries_sincos {r : Int} (hr : |(r : ℝ) / 2 ^ 200| ≤ 1) :
    |(trigSeries 40 1 (r * r / 2 ^ fxP) r : ℝ) / 2 ^ 200 - Real.sin (r / 2 ^ 200)| ≤ 2 ^ (-190 : Int) ∧
    |(trigSeries 40 0 (r * r / 2 ^ fxP) (2 ^ fxP) : ℝ) / 2 ^ 200 - Real.cos (r / 2 ^ 200)| ≤ 2 ^ (-190 : Int) := by
  have hF : (0 : ℝ) < 2 ^ 200 := by positivity
  have hfloor := cast_ediv_near (r * r) (b := 2 ^ fxP) (by positivity)
  have hle : ((r * r / 2 ^ fxP : Int) : ℝ) ≤ r * r / 2 ^ 200 := by
    rw [le_div_iff₀ hF]
    have := Int.ediv_mul_le (r * r) (show (2 : Int) ^ fxP ≠ 0 by positivity)
    rw [fxP] at this ⊢
    exact_mod_cast this
  have hy0 : 0 ≤ r * r / 2 ^ fxP := Int.ediv_nonneg (mul_self_nonneg r) (by positivity)
  obtain ⟨hcos, hsin⟩ := trigSum_near hr
  have hone : ((2 ^ fxP : Int) : ℝ) = 2 ^ 200 := by norm_num [fxP]
  rw [hone, Int.cast_mul] at hfloor
  generalize r * r / 2 ^ fxP = y at *
  have hsq : ((r : ℝ) / 2 ^ 200) ^ 2 ≤ 1 := (sq_le_one_iff_abs_le_one _).2 hr
  have hrr : (r : ℝ) * r / 2 ^ 200 = 2 ^ 200 * (r / 2 ^ 200) ^ 2 := by field_simp
  rw [hrr] at hfloor hle
  have hy1 : (y : ℝ) / 2 ^ 200 ≤ 1 := by
    rw [div_le_one hF]
    exact hle.trans (mul_le_of_le_one_right hF.le hsq)
  have hdist := fx_near hfloor
  have key : ∀ (k : Nat) (t : Int), |(t : ℝ) / 2 ^ 200| ≤ 1 →
      |(trigSeries 40 k y t : ℝ) / 2 ^ 200 - t / 2 ^ 200 * trigSum 40 k ((r / 2 ^ 200) ^ 2)| ≤ 41 * 2 ^ (-200 : Int) := by
    intro k t ht
    have hser := trigSeries_near 40 k (term := t) hy0 hy1
    have hlip := (trigSum_lipschitz 40 k (div_nonneg (by exact_mod_cast hy0) hF.le) hy1 (sq_nonneg _) hsq).trans hdist
    generalize trigSum 40 k ((y : ℝ) / 2 ^ 200) = u at *
    generalize trigSum 40 k (((r : ℝ) / 2 ^ 200) ^ 2) = v at *
    have hsplit : (trigSeries 40 k y t : ℝ) / 2 ^ 200 - t / 2 ^ 200 * v =
        (trigSeries 40 k y t - t * u) * 2 ^ (-200 : Int) + t / 2 ^ 200 * (u - v) := by
      rw [show (2 : ℝ) ^ (-200 : Int) = (2 ^ 200)⁻¹ by norm_num]
      field_simp
      ring
    rw [hsplit]
    calc _ ≤ |(trigSeries 40 k y t : ℝ) - t * u| * 2 ^ (-200 : Int) + |(t : ℝ) / 2 ^ 200| * |u - v| := by
          refine (abs_add_le _ _).trans_eq ?_
          rw [abs_mul, abs_mul, abs_of_pos (show (0 : ℝ) < 2 ^ (-200 : Int) by positivity)]
      _ ≤ (40 : Nat) * 2 ^ (-200 : Int) + 1 * (1 * 2 ^ (-200 : Int)) := by gcongr
      _ = _ := by norm_num
  have hs := key 1 r hr
  have hc := key 0 (2 ^ fxP) (by rw [hone, div_self hF.ne', abs_one])
  rw [hone, div_self hF.ne', one_mul] at hc
  have htri1 := abs_sub_le ((trigSeries 40 1 y r : ℝ) / 2 ^ 200) (r / 2 ^ 200 * trigSum 40 1 ((r / 2 ^ 200) ^ 2)) (Real.sin (r / 2 ^ 200))
  have htri2 := abs_sub_le ((trigSeries 40 0 y (2 ^ fxP) : ℝ) / 2 ^ 200) (trigSum 40 0 ((r / 2 ^ 200) ^ 2)) (Real.cos (r / 2 ^ 200))
  rw [abs_sub_comm] at hsin hcos
  norm_num at *
  constructor <;> linarith

/-! ## π/2 -/

theorem fxPi2_near : |(fxPi2 : ℝ) / 2 ^ 200 - Real.pi / 2| ≤ 2 ^ (-186 : Int) := by
  have heval : |trigSeries 40 1 ((fxPi2 / 2 : Nat) * (fxPi2 / 2 : Nat) / 2 ^ fxP) (fxPi2 / 2 : Nat) -
      trigSeries 40 0 ((fxPi2 / 2 : Nat) * (fxPi2 / 2 : Nat) / 2 ^ fxP) (2 ^ fxP)| ≤ 1024 := by decide +kernel
  have hcast : (((fxPi2 / 2 : Nat) : Int) : ℝ) / 2 ^ 200 = fxPi2 / 2 ^ 200 / 2 := by norm_num [fxPi2]
  have hlo := Real.pi_gt_d4
  have hhi := Real.pi_lt_d4
  have hc0 : (1.57 : ℝ) ≤ fxPi2 / 2 ^ 200 := by norm_num [fxPi2]
  have hc1 : (fxPi2 : ℝ) / 2 ^ 200 ≤ 1.58 := by norm_num [fxPi2]
  obtain ⟨hs, hc⟩ := trigSeries_sincos (r := (fxPi2 / 2 : Nat)) (by
    rw [hcast, abs_of_nonneg (by positivity)]
    linarith)
  rw [hcast] at hs hc
  have heval' : |(trigSeries 40 1 ((fxPi2 / 2 : Nat) * (fxPi2 / 2 : Nat) / 2 ^ fxP) (fxPi2 / 2 : Nat) : ℝ) / 2 ^ 200 -
      trigSeries 40 0 ((fxPi2 / 2 : Nat) * (fxPi2 / 2 : Nat) / 2 ^ fxP) (2 ^ fxP) / 2 ^ 200| ≤ 1024 / 2 ^ 200 := by
    rw [← sub_div, abs_div, abs_of_pos (show (0 : ℝ) < 2 ^ 200 by positivity)]
    exact div_le_div_of_nonneg_right (by exact_mod_cast heval) (by positivity)
  generalize (trigSeries 40 1 ((fxPi2 / 2 : Nat) * (fxPi2 / 2 : Nat) / 2 ^ fxP) (fxPi2 / 2 : Nat) : ℝ) / 2 ^ 200 = u at *
  generalize (trigSeries 40 0 ((fxPi2 / 2 : Nat) * (fxPi2 / 2 : Nat) / 2 ^ fxP) (2 ^ fxP) : ℝ) / 2 ^ 200 = v at *
  generalize (fxPi2 : ℝ) / 2 ^ 200 = c at *
  have hdiff : |Real.sin (c / 2) - Real.cos (c / 2)| ≤ 2 ^ (-188 : Int) := by
    have h1 := abs_sub_le (Real.sin (c / 2)) u (Real.cos (c / 2))
    have h2 := abs_sub_le u v (Real.cos (c / 2))
    rw [abs_sub_comm] at hs
    norm_num at *
    linarith
  -- sin (c/2 − π/4) is a multiple of the difference of sin and cos at c/2
  have hsub : Real.sin (c / 2 - Real.pi / 4) = √2 / 2 * (Real.sin (c / 2) - Real.cos (c / 2)) := by
    rw [Real.sin_sub, Real.cos_pi_div_four, Real.sin_pi_div_four]
    ring
  have hroot : |√2 / 2| ≤ 1 := by
    rw [abs_of_nonneg (by positivity), div_le_one two_pos]
    exact (Real.sqrt_le_left two_pos.le).2 (by norm_num)
  have hsmall : |Real.sin (c / 2 - Real.pi / 4)| ≤ 2 ^ (-188 : Int) := by
    rw [hsub, abs_mul]
    exact (mul_le_of_le_one_left (abs_nonneg _) hroot).trans hdiff
  have hlow := Real.mul_abs_le_abs_sin (x := c / 2 - Real.pi / 4) (by rw [abs_le]; constructor <;> linarith)
  have hpi : (1 / 2 : ℝ) ≤ 2 / Real.pi := by rw [div_le_div_iff₀ two_pos Real.pi_pos]; linarith
  have hhalf := (mul_le_mul_of_nonneg_right hpi (abs_nonneg (c / 2 - Real.pi / 4))).trans (hlow.trans hsmall)
  rw [show c - Real.pi / 2 = 2 * (c / 2 - Real.pi / 4) by ring, abs_mul, abs_two]
  norm_num at *
  linarith

end Sys2Proof.Machine
end

section
/-! SUPPORT. FSIN and FCOS: the reduction by quarters, and how near an f32 value comes to a multiple of π/2 (04_numbers.md R107;
10_isa_float.md R248). -/

namespace Sys2Proof.Machine

open Sys2Proof.Claims (BoundMet)

/-! ## Quarters -/

/-- sin after k quarters, from sin and cos. -/
def quarter {α : Type} [Neg α] (k : Int) (a b : α) : α :=
  match k % 4 with
  | 0 => a
  | 1 => b
  | 2 => -a
  | _ => -b

/-- The cases of a quarter. -/
theorem quarter_cases {α : Type} [Neg α] (k : Int) (a b : α) : (k % 4 = 0 ∧ quarter k a b = a) ∨ (k % 4 = 1 ∧ quarter k a b = b) ∨
    (k % 4 = 2 ∧ quarter k a b = -a) ∨ (k % 4 = 3 ∧ quarter k a b = -b) := by
  have : k % 4 = 0 ∨ k % 4 = 1 ∨ k % 4 = 2 ∨ k % 4 = 3 := by omega
  unfold quarter
  rcases this with h | h | h | h <;> simp [h]

theorem sin_add_quarters (ρ : ℝ) (k : Int) : Real.sin (ρ + k * (Real.pi / 2)) = quarter k (Real.sin ρ) (Real.cos ρ) := by
  have hdiv := congrArg (Int.cast (R := ℝ)) (Int.mul_ediv_add_emod k 4)
  push_cast at hdiv
  have hturn : ρ + k * (Real.pi / 2) = ρ + ((k % 4 : Int) : ℝ) * (Real.pi / 2) + (k / 4 : Int) * (2 * Real.pi) := by
    rw [← hdiv]
    ring
  rw [hturn, Real.sin_add_int_mul_two_pi]
  rcases quarter_cases k (Real.sin ρ) (Real.cos ρ) with ⟨h, e⟩ | ⟨h, e⟩ | ⟨h, e⟩ | ⟨h, e⟩ <;> rw [e, h]
  · simp
  · rw [Int.cast_one, one_mul, Real.sin_add_pi_div_two]
  · rw [show ((2 : Int) : ℝ) * (Real.pi / 2) = Real.pi by push_cast; ring, Real.sin_add_pi]
  · rw [show ρ + ((3 : Int) : ℝ) * (Real.pi / 2) = ρ + Real.pi / 2 + Real.pi by push_cast; ring, Real.sin_add_pi, Real.sin_add_pi_div_two]

/-- FSIN and FCOS as sin after quarters. -/
noncomputable def sinOrCos (s : Bool) (v : ℝ) : ℝ := if s then Real.sin v else Real.cos v

theorem sinOrCos_quarters (s : Bool) (ρ : ℝ) (q : Int) :
    sinOrCos s (ρ + q * (Real.pi / 2)) = quarter (q + if s then 0 else 1) (Real.sin ρ) (Real.cos ρ) := by
  rw [← sin_add_quarters, sinOrCos]
  cases s
  · rw [if_neg Bool.false_ne_true, if_neg Bool.false_ne_true, ← Real.sin_add_pi_div_two]
    push_cast
    ring_nf
  · simp

/-- The nearest multiple of π/2, in fixed point. -/
def quarterOf (x : Int) : Int := (2 * x + fxPi2) / (2 * fxPi2)

theorem trigFx_eq (s : Bool) (x : Int) : trigFx s x = quarter (quarterOf x + if s then 0 else 1)
    (trigSeries 40 1 ((x - quarterOf x * fxPi2) * (x - quarterOf x * fxPi2) / 2 ^ fxP) (x - quarterOf x * fxPi2))
    (trigSeries 40 0 ((x - quarterOf x * fxPi2) * (x - quarterOf x * fxPi2) / 2 ^ fxP) (2 ^ fxP)) := rfl

/-- What the reduction leaves is at most π/4, about. -/
theorem quarterOf_rest (x : Int) : |((x - quarterOf x * fxPi2 : Int) : ℝ) / 2 ^ 200| ≤ 0.79 := by
  have hP : (0 : Int) < fxPi2 := by decide
  have h1 := Int.mul_ediv_add_emod (2 * x + fxPi2) (2 * fxPi2)
  have h2 := Int.emod_nonneg (2 * x + fxPi2) (show (2 * fxPi2 : Int) ≠ 0 by omega)
  have h3 := Int.emod_lt_of_pos (2 * x + fxPi2) (show (0 : Int) < 2 * fxPi2 by omega)
  have hrest : |x - quarterOf x * fxPi2| ≤ (fxPi2 : Int) / 2 := by
    have hmul : 2 * (fxPi2 : Int) * ((2 * x + fxPi2) / (2 * fxPi2)) = 2 * (quarterOf x * fxPi2) := by rw [quarterOf]; ring
    rw [hmul] at h1
    generalize quarterOf x * (fxPi2 : Int) = y at *
    rw [abs_le]
    omega
  rw [abs_div, abs_of_pos (show (0 : ℝ) < 2 ^ 200 by positivity), div_le_iff₀ (by positivity), ← Int.cast_abs]
  refine (Int.cast_le.2 hrest).trans ?_
  norm_num [fxPi2]

/-- Up to 2^16 the quarters are fewer than 2^16. -/
theorem quarterOf_le {x : Int} (hx : |(x : ℝ) / 2 ^ 200| ≤ 65536) : |quarterOf x| < 65536 := by
  have hrest := quarterOf_rest x
  have hP : (1.57 : ℝ) ≤ fxPi2 / 2 ^ 200 := by norm_num [fxPi2]
  have hsplit : (x : ℝ) / 2 ^ 200 = ((x - quarterOf x * fxPi2 : Int) : ℝ) / 2 ^ 200 + quarterOf x * (fxPi2 / 2 ^ 200) := by
    push_cast
    ring
  rw [hsplit] at hx
  have hback := abs_sub_abs_le_abs_sub ((quarterOf x : ℝ) * (fxPi2 / 2 ^ 200)) (-(((x - quarterOf x * fxPi2 : Int) : ℝ) / 2 ^ 200))
  rw [abs_neg, sub_neg_eq_add, add_comm (_ * _), abs_mul, abs_of_pos (show (0 : ℝ) < fxPi2 / 2 ^ 200 by linarith)] at hback
  have habs := abs_nonneg (quarterOf x : ℝ)
  have : |(quarterOf x : ℝ)| < 65536 := by
    norm_num at hP hrest hx hback
    by_contra hge
    nlinarith
  exact_mod_cast this

section
variable {x : Int} (hx : |(x : ℝ) / 2 ^ 200| ≤ 65536)
include hx

/-- The rest by the fixed point's π/2 and the rest by π/2 are near. -/
theorem quarterOf_rest_near :
    |((x - quarterOf x * fxPi2 : Int) : ℝ) / 2 ^ 200 - (x / 2 ^ 200 - quarterOf x * (Real.pi / 2))| ≤ 2 ^ (-170 : Int) := by
  have hq : |(quarterOf x : ℝ)| ≤ 65536 := by exact_mod_cast (quarterOf_le hx).le
  have hsub : ((x - quarterOf x * fxPi2 : Int) : ℝ) / 2 ^ 200 - (x / 2 ^ 200 - quarterOf x * (Real.pi / 2)) =
      -(quarterOf x * (fxPi2 / 2 ^ 200 - Real.pi / 2)) := by
    push_cast
    ring
  rw [hsub, abs_neg, abs_mul]
  calc _ ≤ 65536 * (2 : ℝ) ^ (-186 : Int) := mul_le_mul hq fxPi2_near (abs_nonneg _) (by norm_num)
    _ ≤ _ := by norm_num

/-- sin and cos in fixed point. -/
theorem trigFx_near (s : Bool) : |(trigFx s x : ℝ) / 2 ^ 200 - sinOrCos s (x / 2 ^ 200)| ≤ 2 ^ (-160 : Int) := by
  have hnear := quarterOf_rest_near hx
  obtain ⟨hsin, hcos⟩ := trigSeries_sincos ((quarterOf_rest x).trans (by norm_num))
  have hs := Real.abs_sin_sub_sin_le (((x - quarterOf x * fxPi2 : Int) : ℝ) / 2 ^ 200) (x / 2 ^ 200 - quarterOf x * (Real.pi / 2))
  have hc := Real.abs_cos_sub_cos_le (((x - quarterOf x * fxPi2 : Int) : ℝ) / 2 ^ 200) (x / 2 ^ 200 - quarterOf x * (Real.pi / 2))
  have hw := sinOrCos_quarters s (x / 2 ^ 200 - quarterOf x * (Real.pi / 2)) (quarterOf x)
  rw [sub_add_cancel] at hw
  rw [trigFx_eq, hw]
  generalize (x : ℝ) / 2 ^ 200 - quarterOf x * (Real.pi / 2) = ρ at *
  generalize x - quarterOf x * fxPi2 = r at *
  generalize trigSeries 40 1 (r * r / 2 ^ fxP) r = a at *
  generalize trigSeries 40 0 (r * r / 2 ^ fxP) (2 ^ fxP) = b at *
  generalize (quarterOf x + if s then 0 else 1) = k at *
  have ha : |(a : ℝ) / 2 ^ 200 - Real.sin ρ| ≤ 2 ^ (-160 : Int) :=
    (abs_sub_le _ (Real.sin (r / 2 ^ 200)) _).trans ((add_le_add hsin (hs.trans hnear)).trans (by norm_num))
  have hb : |(b : ℝ) / 2 ^ 200 - Real.cos ρ| ≤ 2 ^ (-160 : Int) :=
    (abs_sub_le _ (Real.cos (r / 2 ^ 200)) _).trans ((add_le_add hcos (hc.trans hnear)).trans (by norm_num))
  have hneg : ∀ (c : Int) (w : ℝ), ((-c : Int) : ℝ) / 2 ^ 200 - -w = -(c / 2 ^ 200 - w) := fun c w => by push_cast; ring
  rcases quarter_cases k a b with ⟨h, e⟩ | ⟨h, e⟩ | ⟨h, e⟩ | ⟨h, e⟩ <;> rw [e] <;> simp only [quarter, h]
  · exact ha
  · exact hb
  · rw [hneg, abs_neg]
    exact ha
  · rw [hneg, abs_neg]
    exact hb

/-- A value apart from every multiple of π/2 but 0 has a sine and a cosine apart from 0. -/
theorem le_abs_sinOrCos {s : Bool} {d : ℝ} (hd : d ≤ 1)
    (h : quarterOf x ≠ 0 ∨ s = true → d ≤ |x / 2 ^ 200 - quarterOf x * (Real.pi / 2)|) : d / 2 ≤ |sinOrCos s (x / 2 ^ 200)| := by
  have hnear := quarterOf_rest_near hx
  have hrest := quarterOf_rest x
  have hw := sinOrCos_quarters s (x / 2 ^ 200 - quarterOf x * (Real.pi / 2)) (quarterOf x)
  rw [sub_add_cancel] at hw
  rw [hw]
  generalize (x : ℝ) / 2 ^ 200 - quarterOf x * (Real.pi / 2) = ρ at *
  have hρ : |ρ| ≤ 0.8 := by
    have := abs_sub_abs_le_abs_sub ρ (((x - quarterOf x * fxPi2 : Int) : ℝ) / 2 ^ 200)
    rw [abs_sub_comm] at hnear
    norm_num at *
    linarith
  have hcos : d / 2 ≤ |Real.cos ρ| := by
    refine le_trans ?_ (Real.one_sub_sq_div_two_le_cos.trans (le_abs_self _))
    rw [← sq_abs]
    nlinarith [abs_nonneg ρ]
  have hsin : quarterOf x ≠ 0 ∨ s = true → d / 2 ≤ |Real.sin ρ| := fun hq => by
    have hlow := Real.mul_abs_le_abs_sin (x := ρ) (by linarith [Real.pi_gt_three])
    have hpi : (1 / 2 : ℝ) ≤ 2 / Real.pi := by rw [div_le_div_iff₀ two_pos Real.pi_pos]; linarith [Real.pi_lt_four]
    have := mul_le_mul_of_nonneg_right hpi (abs_nonneg ρ)
    linarith [h hq]
  by_cases hq : quarterOf x ≠ 0 ∨ s = true
  · rcases quarter_cases (quarterOf x + if s then 0 else 1) (Real.sin ρ) (Real.cos ρ) with ⟨_, e⟩ | ⟨_, e⟩ | ⟨_, e⟩ | ⟨_, e⟩ <;> rw [e]
    · exact hsin hq
    · exact hcos
    · rw [abs_neg]
      exact hsin hq
    · rw [abs_neg]
      exact hcos
  · obtain ⟨h0, hs⟩ : quarterOf x = 0 ∧ s = false := by simpa using hq
    rw [h0, hs]
    exact hcos

end

/-! ## Multiples of π/2 -/

/-- A whole number of 2^-24 lies apart from q quarters: 2^24 π/2 has a convergent of denominator 123689. -/
theorem quarters_apart {q N : Int} (hq0 : q ≠ 0) (hq : |q| < 65536) : 2 ^ (-42 : Int) ≤ |(N : ℝ) / 2 ^ 24 - q * (Real.pi / 2)| := by
  have hpi : |2 ^ 24 * (Real.pi / 2) - 3259649102802 / 123689| ≤ (2 : ℝ) ^ (-34 : Int) := by
    have h1 := Real.pi_gt_d20
    have h2 := Real.pi_lt_d20
    rw [abs_le]
    norm_num at *
    constructor <;> linarith
  have hint : 1 ≤ |123689 * N - 3259649102802 * q| := by
    refine Int.one_le_abs fun h => hq0 ?_
    obtain ⟨h1, h2⟩ := abs_lt.1 hq
    omega
  have hint' : (1 : ℝ) / 123689 ≤ |(N : ℝ) - 3259649102802 / 123689 * q| := by
    have : (N : ℝ) - 3259649102802 / 123689 * q = ((123689 * N - 3259649102802 * q : Int) : ℝ) / 123689 := by
      push_cast
      ring
    rw [this, abs_div, abs_of_pos (show (0 : ℝ) < 123689 by norm_num), ← Int.cast_abs]
    exact div_le_div_of_nonneg_right (by exact_mod_cast hint) (by norm_num)
  have hq' : |(q : ℝ)| ≤ 65536 := by exact_mod_cast hq.le
  have herr : |(2 ^ 24 * (Real.pi / 2) - 3259649102802 / 123689) * q| ≤ 2 ^ (-34 : Int) * 65536 := by
    rw [abs_mul]
    gcongr
  have hsub : (N : ℝ) / 2 ^ 24 - q * (Real.pi / 2) = (N - 2 ^ 24 * (Real.pi / 2) * q) / 2 ^ 24 := by field_simp
  have htri := abs_sub_abs_le_abs_sub ((N : ℝ) - 3259649102802 / 123689 * q) ((2 ^ 24 * (Real.pi / 2) - 3259649102802 / 123689) * q)
  have heq : (N : ℝ) - 3259649102802 / 123689 * q - (2 ^ 24 * (Real.pi / 2) - 3259649102802 / 123689) * q = N - 2 ^ 24 * (Real.pi / 2) * q := by
    ring
  rw [heq] at htri
  rw [hsub, abs_div, abs_of_pos (show (0 : ℝ) < 2 ^ 24 by positivity), le_div_iff₀ (by positivity)]
  norm_num at *
  linarith

/-! ## FSIN and FCOS -/

theorem insideOne_near {x : Int} {w d : ℝ} (hw : |w| ≤ 1) (hd : 2 ^ (-200 : Int) ≤ d) (h : |(x : ℝ) / 2 ^ 200 - w| ≤ d) :
    |(insideOne x : ℝ) / 2 ^ 200 - w| ≤ d := by
  obtain ⟨h1, h2⟩ := abs_le.1 h
  obtain ⟨hw1, hw2⟩ := abs_le.1 hw
  have hF : (0 : ℝ) < 2 ^ 200 := by positivity
  have hunit : (0 : ℝ) < 2 ^ (-200 : Int) := by positivity
  unfold insideOne
  split
  case isTrue hbig =>
    have : (1 : ℝ) ≤ x / 2 ^ 200 := (one_le_div hF).2 (by exact_mod_cast hbig)
    rw [show ((2 ^ fxP - 1 : Int) : ℝ) / 2 ^ 200 = 1 - 2 ^ (-200 : Int) by norm_num [fxP], abs_le]
    constructor <;> linarith
  case isFalse =>
    split
    case isTrue hsmall =>
      have : (x : ℝ) / 2 ^ 200 ≤ -1 := by
        rw [div_le_iff₀ hF]
        have h' : (x : ℝ) ≤ ((-(2 ^ fxP) : Int) : ℝ) := by exact_mod_cast hsmall
        push_cast [fxP] at h'
        linarith
      rw [show ((1 - 2 ^ fxP : Int) : ℝ) / 2 ^ 200 = -(1 - 2 ^ (-200 : Int)) by norm_num [fxP], abs_le]
      constructor <;> linarith
    case isFalse => exact h

/-- Where a quarter is taken away the value is no less than 1/2. -/
theorem le_abs_of_quarterOf {x : Int} (hq : quarterOf x ≠ 0) : 1 / 2 ≤ |(x : ℝ) / 2 ^ 200| := by
  have hP : (0 : Int) < 2 * fxPi2 := by decide
  have hx : (fxPi2 : Int) / 2 ≤ |x| := by
    by_contra hlt
    obtain ⟨h1, h2⟩ := abs_lt.1 (lt_of_not_ge hlt)
    exact hq (Int.ediv_eq_zero_of_lt (by omega) (by omega))
  rw [abs_div, abs_of_pos (show (0 : ℝ) < 2 ^ 200 by positivity), le_div_iff₀ (by positivity), ← Int.cast_abs]
  refine le_trans ?_ (Int.cast_le.2 hx)
  norm_num [fxPi2]

/-- An f32 value of at least 1/2 is a whole number of 2^-24. -/
theorem f32_whole {n : Nat} {e : Int} (z : Bool) (hn : n ≠ 0) (hlt : n < 2 ^ 24) (h : 1 / 2 ≤ |realFV z n e|) :
    ∃ N : Int, realFV z n e = N / 2 ^ 24 := by
  have hlog : n.log2 ≤ 23 := Nat.le_of_lt_succ ((Nat.log2_lt hn).2 hlt)
  have he : -24 ≤ e := by
    by_contra hlow
    have hv := lt_zpow_of_log2 hn (show (n.log2 : Int) + e < -1 by omega)
    rw [abs_realFV] at h
    norm_num at hv h
    linarith
  refine ⟨sgnInt z (n * 2 ^ (e - -24).toNat), ?_⟩
  rw [← sgnInt_dyadic z n he]
  norm_num
  ring

/-- The close value of sin and cos of an f32 value up to 2^16. -/
theorem trig_near (s z : Bool) {n : Nat} {e : Int} (hn : n ≠ 0) (hlt : n < 2 ^ 24) (he : -149 ≤ e) (hlim : |realFV z n e| ≤ 65536)
    (hsmall : s = true → -12 ≤ (Nat.log2 n : Int) + e) :
    Near (stickyFV (insideOne (trigFx s (toFx z n e))) (-fxP)) (sinOrCos s (realFV z n e)) := by
  have hfx := toFx_exact z n he
  generalize toFx z n e = X at *
  rw [← hfx] at hlim
  have hapart : quarterOf X ≠ 0 ∨ s = true → 2 ^ (-42 : Int) ≤ |(X : ℝ) / 2 ^ 200 - quarterOf X * (Real.pi / 2)| := by
    intro hq
    by_cases h0 : quarterOf X = 0
    · have hs := hq.resolve_left (not_not.2 h0)
      rw [h0, Int.cast_zero, zero_mul, sub_zero, hfx, abs_realFV]
      exact le_trans (by norm_num) (zpow_le_of_log2 hn (hsmall hs))
    · obtain ⟨N, hN⟩ := f32_whole z hn hlt (hfx ▸ le_abs_of_quarterOf h0)
      rw [hfx, hN]
      exact quarters_apart h0 (quarterOf_le hlim)
  have hbig := le_abs_sinOrCos hlim (by norm_num) hapart
  have hw : |sinOrCos s ((X : ℝ) / 2 ^ 200)| ≤ 1 := by
    cases s
    · exact Real.abs_cos_le_one _
    · exact Real.abs_sin_le_one _
  have hnear := insideOne_near hw (by norm_num) (trigFx_near hlim s)
  rw [← hfx]
  refine stickyFV_near ?_
  rw [show (-(fxP : Nat) : Int) = -200 from rfl,
    show ((insideOne (trigFx s X) : Int) : ℝ) * 2 ^ (-200 : Int) = insideOne (trigFx s X) / 2 ^ 200 by norm_num; ring]
  norm_num at *
  linarith

/-- sin near 0. -/
theorem sin_near_cubic {x : ℝ} (hx : |x| ≤ 1) : |Real.sin x - (x - x ^ 3 / (6 : Nat))| ≤ |x| ^ 5 := by
  rw [Nat.cast_ofNat]
  exact (Real.sin_bound hx).trans (div_le_self (by positivity) (by norm_num))

/-- Up to 2^16 the special functions' range holds. -/
theorem ltFV_limit {n : Nat} {e : Int} {z : Bool} (hlim : |realFV z n e| ≤ 65536) : ltFV (.fin false 1 16) (.fin false n e) = false := by
  rw [abs_realFV] at hlim
  simp only [ltFV, ltFin]
  rw [decide_eq_false_iff_not, not_lt]
  have h1 := sgnInt_dyadic false n (show min 16 e ≤ e by omega)
  have h2 := sgnInt_dyadic false 1 (show min 16 e ≤ 16 by omega)
  simp only [realFV, Bool.false_eq_true, if_false] at h1 h2
  have : ((sgnInt false (n * 2 ^ (e - min 16 e).toNat) : Int) : ℝ) ≤ (sgnInt false (1 * 2 ^ (16 - min 16 e).toNat) : Int) := by
    refine le_of_mul_le_mul_right ?_ (show (0 : ℝ) < 2 ^ min 16 e by positivity)
    rw [h1, h2]
    norm_num at hlim ⊢
    exact hlim
  exact_mod_cast this

theorem fTrig_boundMet (s : Bool) : BoundMet (fTrig s) (sinOrCos s) 2 (some 65536) := by
  refine boundMet_of_meets fun x z n e hx hn hlim => ?_
  obtain ⟨hlt, he, _⟩ := unpack_f32_fin hx
  have hlim' : |realFV z n e| ≤ 65536 := by exact_mod_cast hlim 65536 rfl
  simp only [fTrig, hx, ltFV_limit hlim', Bool.false_eq_true, if_false]
  split
  case isTrue h =>
    obtain ⟨rfl, hsmall⟩ := h
    refine (cubicFV_near z hn (by norm_num) hsmall (sin_near_cubic ?_)).meets_boundedR one_le_two
    rw [abs_realFV]
    exact (lt_zpow_of_log2 hn hsmall).le.trans (by norm_num)
  case isFalse h =>
    exact (trig_near s z hn hlt he hlim' fun hs => Int.le_of_not_gt fun hsmall => h ⟨hs, hsmall⟩).meets_boundedR one_le_two

end Sys2Proof.Machine

namespace Sys2Proof.Proofs

open Sys2Proof.Machine

/-- Settles O17: it holds. Each close value lies within 2^-40 of the exact one in its own size, what `boundedR` allows for. -/
theorem specialFunctionBounds : Obligations.SpecialFunctionBounds :=
  ⟨fRcp_boundMet, fRsq_boundMet, fEx2_boundMet, fLg2_boundMet, fTrig_boundMet true, fTrig_boundMet false, fTanh_boundMet⟩

end Sys2Proof.Proofs
end

section
/-! SUPPORT. The special functions as instructions: what they write, and the special values of Table 4.9 (04_numbers.md R107;
10_isa_float.md R240, R248). -/

namespace Sys2Proof.Machine

open Sys2Proof.Claims (f32 specialForms tableRow)

theorem lo32_zx (v : Word) : lo32 (zx v) = v := by
  have := v.isLt
  apply BitVec.eq_of_toNat_eq
  simp only [lo32, zx, BitVec.toNat_ofNat]
  omega

/-- A special function writes one value of A after SMOD, with its flags. -/
theorem sfn_vecRan {i : Instr} {s : State} {m : SMod} {d a : Operand} {g : Guard} {f : Word → Nat × Nat} {x : Iss}
    (hx : exec i s = sfn s m d a g f) (h : Issues s g x) (ho : Operable x [(a, 1)] d 1) :
    ∃ t y, VecRan i s x d 1
      (fun p =>
        let z := satR m.sat fmtF32 (f (modWord m (val32 x a p)))
        ([BitVec.ofNat 32 z.1], z.2)) t y := by
  obtain ⟨t, y, hr⟩ := vecBody_ran hx h ho
  simp only [readSrcs, List.map_cons, List.map_nil, if_true, lo32_zx] at hr
  exact ⟨t, y, hr⟩

/-- Every special function is `sfn` of its function of a word. -/
theorem exec_specialForms : ∀ r ∈ specialForms, ∀ (m : SMod) (d a : Operand) (g : Guard) (s : State),
    exec (r.1 m d a g) s = sfn s m d a g r.2.1 := by
  simp only [specialForms, List.forall_mem_cons, List.not_mem_nil, false_imp_iff, implies_true, and_true]
  exact ⟨fun _ _ _ _ _ => rfl, fun _ _ _ _ _ => rfl, fun _ _ _ _ _ => rfl, fun _ _ _ _ _ => rfl, fun _ _ _ _ _ => rfl,
    fun _ _ _ _ _ => rfl, fun _ _ _ _ _ => rfl, fun _ _ _ _ _ => rfl⟩

section
variable {fn : Word → Nat × Nat} {w : Word}

/-- A row of Table 4.9 holds of a function that has its values at NaN, the infinities, the zeros, and the negative values where the row
names one. -/
theorem tableRow_holds {ninf nz pz pinf : Nat × Nat} {neg : Option (Nat × Nat)}
    (hnan : unpack fmtF32 w.toNat = .nan → fn w = (0x7FC00000, 0))
    (hinf : ∀ s, unpack fmtF32 w.toNat = .inf s → fn w = if s then ninf else pinf)
    (hzero : ∀ s e, unpack fmtF32 w.toNat = .fin s 0 e → fn w = if s then nz else pz)
    (hneg : ∀ n e, unpack fmtF32 w.toNat = .fin true (n + 1) e → ∀ u ∈ neg, fn w = u) (v : Nat × Nat)
    (h : tableRow ninf neg nz pz pinf (f32 w) = some v) : fn w = v := by
  unfold f32 at h
  cases hw : unpack fmtF32 w.toNat with
  | nan => exact (hnan hw).trans (Option.some.inj (hw ▸ h :))
  | inf s => cases s <;> exact (hinf _ hw).trans (Option.some.inj (hw ▸ h :))
  | fin s n e =>
    match s, n with
    | true, 0 => exact (hzero _ e hw).trans (Option.some.inj (hw ▸ h :))
    | false, 0 => exact (hzero _ e hw).trans (Option.some.inj (hw ▸ h :))
    | true, n + 1 => exact hneg n e hw v (hw ▸ h :)
    | false, n + 1 => cases (hw ▸ h :)

end

/-! ## The rows of Table 4.9 -/

section
variable {w : Word}

theorem fRcp_specials (v : Nat × Nat) :
    tableRow (0x80000000, 0) none (0xFF800000, flDZ) (0x7F800000, flDZ) (0, 0) (f32 w) = some v → fRcp w = v := by
  refine tableRow_holds (fun h => ?_) (fun s h => ?_) (fun s e h => ?_) (fun _ _ _ _ => Option.not_mem_none _ |>.elim) v <;> simp only [fRcp, h]
  · decide
  · cases s <;> decide
  · cases s <;> decide

theorem fRsq_specials (v : Nat × Nat) :
    tableRow (0x7FC00000, flNV) (some (0x7FC00000, flNV)) (0xFF800000, flDZ) (0x7F800000, flDZ) (0, 0) (f32 w) = some v → fRsq w = v := by
  refine tableRow_holds (fun h => ?_) (fun s h => ?_) (fun s e h => ?_) (fun n e h u hu => Option.some.inj hu ▸ ?_) v <;> simp only [fRsq, h]
  · decide
  · cases s <;> decide
  · cases s <;> decide
  · decide

theorem fSqrt_specials (v : Nat × Nat) :
    tableRow (0x7FC00000, flNV) (some (0x7FC00000, flNV)) (0x80000000, 0) (0, 0) (0x7F800000, 0) (f32 w) = some v → fSqrt w = v := by
  refine tableRow_holds (fun h => ?_) (fun s h => ?_) (fun s e h => ?_) (fun n e h u hu => Option.some.inj hu ▸ ?_) v <;> simp only [fSqrt, h]
  · decide
  · cases s <;> decide
  · cases s <;> decide
  · decide

theorem fEx2_specials (v : Nat × Nat) :
    tableRow (0, 0) none (0x3F800000, 0) (0x3F800000, 0) (0x7F800000, 0) (f32 w) = some v → fEx2 w = v := by
  refine tableRow_holds (fun h => ?_) (fun s h => ?_) (fun s e h => ?_) (fun _ _ _ _ => Option.not_mem_none _ |>.elim) v <;> simp only [fEx2, h]
  · decide
  · cases s <;> decide
  · cases s <;> decide

theorem fLg2_specials (v : Nat × Nat) :
    tableRow (0x7FC00000, flNV) (some (0x7FC00000, flNV)) (0xFF800000, flDZ) (0xFF800000, flDZ) (0x7F800000, 0) (f32 w) = some v → fLg2 w = v := by
  refine tableRow_holds (fun h => ?_) (fun s h => ?_) (fun s e h => ?_) (fun n e h u hu => Option.some.inj hu ▸ ?_) v <;> simp only [fLg2, h]
  · decide
  · cases s <;> decide
  · cases s <;> decide
  · decide

theorem fSin_specials (v : Nat × Nat) :
    tableRow (0x7FC00000, flNV) none (0x80000000, 0) (0, 0) (0x7FC00000, flNV) (f32 w) = some v → fTrig true w = v := by
  refine tableRow_holds (fun h => ?_) (fun s h => ?_) (fun s e h => ?_) (fun _ _ _ _ => Option.not_mem_none _ |>.elim) v <;> simp only [fTrig, h]
  · decide
  · cases s <;> decide
  · cases s <;> decide

theorem fCos_specials (v : Nat × Nat) :
    tableRow (0x7FC00000, flNV) none (0x3F800000, 0) (0x3F800000, 0) (0x7FC00000, flNV) (f32 w) = some v → fTrig false w = v := by
  refine tableRow_holds (fun h => ?_) (fun s h => ?_) (fun s e h => ?_) (fun _ _ _ _ => Option.not_mem_none _ |>.elim) v <;> simp only [fTrig, h]
  · decide
  · cases s <;> decide
  · cases s <;> decide

theorem fTanh_specials (v : Nat × Nat) :
    tableRow (0xBF800000, 0) none (0x80000000, 0) (0, 0) (0x3F800000, 0) (f32 w) = some v → fTanh w = v := by
  refine tableRow_holds (fun h => ?_) (fun s h => ?_) (fun s e h => ?_) (fun _ _ _ _ => Option.not_mem_none _ |>.elim) v <;> simp only [fTanh, h]
  · decide
  · cases s <;> decide
  · cases s <;> decide

end

theorem specialValues : ∀ r ∈ specialForms, ∀ (w : Word) (v : Nat × Nat), r.2.2 (f32 w) = some v → r.2.1 w = v := by
  simp only [specialForms, List.forall_mem_cons, List.not_mem_nil, false_imp_iff, implies_true, and_true]
  exact ⟨fun _ => fRcp_specials, fun _ => fRsq_specials, fun _ => fSqrt_specials, fun _ => fEx2_specials, fun _ => fLg2_specials,
    fun _ => fSin_specials, fun _ => fCos_specials, fun _ => fTanh_specials⟩

end Sys2Proof.Machine

namespace Sys2Proof.Proofs

open Sys2Proof.Machine

/-- Settles O5: it holds. Every special function is `sfn` of a function of one word. -/
theorem specialFunctionResults : Obligations.SpecialFunctionResults :=
  ⟨fun r hr s _ m d a g h ho => sfn_vecRan (exec_specialForms r hr m d a g s) h ho, specialValues, fSqrt_rounds_root⟩

end Sys2Proof.Proofs
end

section
/-! SUPPORT. Cross-lane forms and reductions over the active lanes (09_isa_integer.md R229 to R233; 10_isa_float.md R254; 04_numbers.md
R108). -/

namespace Sys2Proof.Machine

open Sys2Proof.Claims (shflFrom shflVal laneVals reduceForms pairLe pairGe indexForms predOf sat32 positionVal sumTree)

/-! ## SHFL (R230) -/

theorem shflLane_eq_shflFrom (m : ShflMode) {l : Nat} (hl : l < 32) (b : Nat) : shflLane m l b = shflFrom m l b := by
  have hin : ∀ (s : Int) (c : Prop) [Decidable c] (n : Nat), (0 ≤ s ∧ s ≤ 31 ↔ c) → (c → s.toNat = n) →
      (if 0 ≤ s ∧ s ≤ 31 then some s.toNat else none) = if c then some n else none := by
    intro s c _ n hc hn
    by_cases h : c
    · rw [if_pos (hc.2 h), if_pos h, hn h]
    · rw [if_neg (mt hc.1 h), if_neg h]
  cases m with
  | idx => exact hin b _ _ (by omega) (by omega)
  | up => exact hin ((l : Int) - b) _ _ (by omega) (by omega)
  | down => exact hin ((l : Int) + b) _ _ (by omega) (by omega)
  | xor => exact hin (l ^^^ b : Nat) _ _ (by omega) (by omega)

/-- The value a SHFL delivers in an active thread. -/
theorem val_shflSrc {s : State} {g : Guard} {x : Iss} (h : Issues s g x) (m : ShflMode) (a b : Operand) {p : Nat × Nat} (hp : p ∈ x.active) :
    val32 x a (shflSrc x m b p) = shflVal x m a b p := by
  rw [shflSrc, shflLane_eq_shflFrom m (h.inLane p (h.activeMem hp)), shflVal]
  cases shflFrom m p.1 (val32 x b p).toNat with
  | none => rfl
  | some l => cases hf : x.active.find? fun q => q.1 == l <;> simp only [hf, Option.getD]

theorem repOf_active {x : Iss} {d : Operand} {p : Nat × Nat} (hp : p ∈ x.active) : repOf x d p ∈ x.active := by
  cases d with
  | k n =>
    simp only [repOf]
    cases hf : x.active.find? fun q => q.2 == p.2 with
    | none => exact hp
    | some q => exact List.mem_of_find?_eq_some hf
  | w n => exact hp
  | v n => exact hp
  | z => exact hp
  | lit w => exact hp

/-- Results that agree in the active threads are one. -/
theorem VecRan.congr {i : Instr} {s t : State} {x y : Iss} {d : Operand} {n : Nat} {r r' : Nat × Nat → List Word × Nat}
    (h : VecRan i s x d n r t y) (hr : ∀ p ∈ x.active, r p = r' p) : VecRan i s x d n r' t y := by
  have hrep : ∀ p ∈ x.active, r (repOf x d p) = r' (repOf x d p) := fun p hp => hr _ (repOf_active hp)
  exact ⟨h.ran, fun p hp => hrep p hp ▸ h.written p hp, h.others, fun p hp => hrep p hp ▸ h.flags p hp, h.otherFlags⟩

/-! ## VOTE.BAL (R231) -/

/-- The bits of a sum of different powers of two. -/
theorem getLsbD_powSum (ls : List Nat) (acc : Nat) (hls : ls.Nodup) (hacc : ∀ n ∈ ls, (word acc).getLsbD n = false) (i : Nat) :
    (word (ls.foldl (fun acc n => acc + 2 ^ n) acc)).getLsbD i = ((word acc).getLsbD i || (decide (i < 32) && decide (i ∈ ls))) := by
  induction ls generalizing acc with
  | nil => simp
  | cons n ls ih =>
    obtain ⟨hn, hnd⟩ := List.nodup_cons.1 hls
    have hzero : word acc &&& BitVec.twoPow 32 n = 0#32 := BitVec.eq_of_getLsbD_eq fun k _ => by
      rw [BitVec.getLsbD_and, BitVec.getLsbD_twoPow]
      by_cases hk : n = k
      · simp [← hk, hacc n (by simp)]
      · simp [hk]
    have hadd : word (acc + 2 ^ n) = word acc ||| BitVec.twoPow 32 n := by
      rw [← BitVec.add_eq_or_of_and_eq_zero _ _ hzero]
      apply BitVec.eq_of_toNat_eq
      simp [word, BitVec.toNat_twoPow]
    have hbit : ∀ k, (word (acc + 2 ^ n)).getLsbD k = ((word acc).getLsbD k || (decide (k < 32) && decide (k = n))) := fun k => by
      rw [hadd, BitVec.getLsbD_or, BitVec.getLsbD_twoPow]
      by_cases hk : k = n
      · simp [hk]
      · simp [hk, Ne.symm hk]
    rw [List.foldl_cons, ih _ hnd fun k hk => ?_, hbit]
    · simp only [List.mem_cons, Bool.or_assoc, ← Bool.and_or_distrib_left, Bool.decide_or]
    · rw [hbit, hacc k (by simp [hk])]
      have : k ≠ n := fun h => hn (h ▸ hk)
      simp [this]

/-- The ballot's bits are the active lanes whose predicate is true. -/
theorem getLsbD_ballot {s : State} {g : Guard} {x : Iss} (h : Issues s g x) (a : Fin 8) (l : Nat) :
    (ballot x a).getLsbD l = x.active.any fun q => q.1 == l && predOf x a q := by
  have hnd : ((x.active.filter (voteOf x a)).map Prod.fst).Nodup :=
    List.Nodup.map_on (fun p hp q hq => h.lane_inj (List.mem_filter.1 hp).1 (List.mem_filter.1 hq).1) (h.activeNodup.filter _)
  have hsum := getLsbD_powSum _ 0 hnd (by simp [word]) l
  rw [List.foldl_map] at hsum
  rw [ballot, hsum, Bool.eq_iff_iff]
  simp only [List.any_eq_true, predOf_eq_pred, voteOf, List.mem_map, List.mem_filter, word, BitVec.getLsbD_zero, Bool.false_or, Bool.and_eq_true,
    decide_eq_true_eq, beq_iff_eq]
  constructor
  · rintro ⟨_, p, ⟨hp, hv⟩, rfl⟩
    exact ⟨p, hp, rfl, hv⟩
  · rintro ⟨p, hp, rfl, hv⟩
    exact ⟨h.inLane p (h.activeMem hp), p, ⟨hp, hv⟩, rfl⟩

/-! ## Folds that keep the better of two -/

/-- A fold that keeps one of two no worse than either ends with one no worse than any. -/
theorem foldl_best {α : Type} {le : α → α → Prop} {pick : α → α → α} (hrefl : ∀ a, le a a) (htrans : ∀ a b c, le a b → le b c → le a c)
    (hpick : ∀ a b, (pick a b = a ∨ pick a b = b) ∧ le (pick a b) a ∧ le (pick a b) b) (xs : List α) (a : α) :
    (xs.foldl pick a = a ∨ xs.foldl pick a ∈ xs) ∧ le (xs.foldl pick a) a ∧ ∀ b ∈ xs, le (xs.foldl pick a) b := by
  induction xs generalizing a with
  | nil => exact ⟨.inl rfl, hrefl a, nofun⟩
  | cons b xs ih =>
    obtain ⟨hmem, hle, hall⟩ := ih (pick a b)
    obtain ⟨hone, ha, hb⟩ := hpick a b
    rw [List.foldl_cons]
    refine ⟨?_, htrans _ _ _ hle ha, List.forall_mem_cons.2 ⟨htrans _ _ _ hle hb, hall⟩⟩
    rcases hmem with h | h
    · rw [h]
      rcases hone with h' | h' <;> simp [h']
    · exact .inr (List.mem_cons_of_mem b h)

/-- The extreme of some words under a measure. -/
theorem extremeBy_spec {lt : Word → Word → Bool} {k : Word → Int} (hlt : ∀ u v, lt u v = decide (k u < k v)) {xs : List Word} (hxs : xs ≠ []) :
    extremeBy lt xs ∈ xs ∧ ∀ v ∈ xs, k (extremeBy lt xs) ≤ k v := by
  cases xs with
  | nil => exact absurd rfl hxs
  | cons x xs =>
    obtain ⟨hmem, hle, hall⟩ := foldl_best (le := fun u v => k u ≤ k v) (pick := fun m y => if lt y m then y else m) (fun _ => le_rfl)
      (fun _ _ _ => le_trans) (fun u v => by
        rw [hlt]
        by_cases h : k v < k u
        · simp [h, h.le]
        · simp [h, not_lt.1 h]) xs x
    exact ⟨List.mem_cons.2 hmem, List.forall_mem_cons.2 ⟨hle, hall⟩⟩

/-! ## Reductions (R232, R233) -/

section
variable {i : Instr} {s : State} {g : Guard} {x : Iss} {d a b : Operand} (h : Issues s g x)
include h

theorem reduce_ran {f : List Word → Word × Nat} (hx : exec i s = reduce s d a g f) (ho : Operable x [(a, 1)] d 1) :
    ∃ t y, VecRan i s x d 1 (fun _ => ([(f (laneVals x a)).1], (f (laneVals x a)).2)) t y := vecBody_ran hx h ho

/-- A reduction to the extreme under a measure. -/
theorem extreme_ran {lt : Word → Word → Bool} {k : Word → Int} (hlt : ∀ u v, lt u v = decide (k u < k v))
    (hx : exec i s = reduce s d a g fun xs => (extremeBy lt xs, 0)) (ho : Operable x [(a, 1)] d 1) : ∃ w : Word,
    (x.active ≠ [] → w ∈ laneVals x a ∧ ∀ v ∈ laneVals x a, k w ≤ k v) ∧ ∃ t y, VecRan i s x d 1 (fun _ => ([w], 0)) t y :=
  ⟨_, fun hne => extremeBy_spec hlt (by simpa [laneVals] using hne), reduce_ran h hx ho⟩

/-- A reduction with an index: the best of its starting pair and the lanes' pairs. -/
theorem reduceIdx_ran {le : Word × Word → Word × Word → Prop} {better : Word → Word → Bool} {v0 : Word} (hrefl : ∀ p, le p p)
    (htrans : ∀ p q r, le p q → le q r → le p r)
    (hbest : ∀ p q, if better q.1 p.1 || (q.1 == p.1 && q.2.ult p.2) then le q p else le p q)
    (hx : exec i s = reduceIdx s d a b g better v0) (ho : Operable x [(a, 1), (b, 1)] d 2) :
    ∃ v j : Word, ((v, j) = (v0, 0xFFFFFFFF) ∨ ∃ p ∈ x.active, (v, j) = (val32 x a p, val32 x b p)) ∧
      (le (v, j) (v0, 0xFFFFFFFF) ∧ ∀ p ∈ x.active, le (v, j) (val32 x a p, val32 x b p)) ∧
      ∃ t y, VecRan i s x d 2 (fun _ => ([v, j], 0)) t y := by
  obtain ⟨hmem, hle, hall⟩ := foldl_best (pick := fun p q => if better q.1 p.1 || (q.1 == p.1 && q.2.ult p.2) then q else p) hrefl htrans
    (fun p q => by
      have := hbest p q
      split at this
      · rename_i hb
        rw [if_pos hb]
        exact ⟨.inr rfl, this, hrefl q⟩
      · rename_i hb
        rw [if_neg hb]
        exact ⟨.inl rfl, hrefl p, this⟩) (x.active.map fun p => (val32 x a p, val32 x b p)) (v0, 0xFFFFFFFF)
  obtain ⟨t, y, hr⟩ := vecBody_ran hx h ho
  refine ⟨_, _, hmem.imp id fun hm => ?_, ⟨hle, List.forall_mem_map.1 hall⟩, t, y, hr⟩
  obtain ⟨p, hp, he⟩ := List.mem_map.1 hm
  exact ⟨p, hp, he.symm⟩

end

theorem slt_eq_toInt (u v : Word) : u.slt v = decide (u.toInt < v.toInt) := rfl

theorem ult_eq_toNat (u v : Word) : u.ult v = decide ((u.toNat : Int) < v.toNat) := by
  simp only [BitVec.ult, Nat.cast_lt]

/-- The exact sum, clamped once. -/
theorem redaddS_value (xs : List Word) :
    wordI (max (-2147483648) (min 2147483647 (xs.foldl (fun acc x => acc + x.toInt) 0))) = sat32 (xs.map fun v => v.toInt).sum := by
  have hsum : xs.foldl (fun acc x => acc + x.toInt) 0 = (xs.map fun v => v.toInt).sum := by rw [List.sum_eq_foldl, List.foldl_map]
  rw [hsum, wordI, sat32]
  congr 1
  split
  · omega
  · split <;> omega

theorem integerReductions {s : State} {g : Guard} {x : Iss} (h : Issues s g x) (d a : Operand) (ho : Operable x [(a, 1)] d 1) :
    ∀ r ∈ reduceForms, ∃ w : Word, (x.active ≠ [] → r.2 (laneVals x a) w) ∧ ∃ t y, VecRan (r.1 d a g) s x d 1 (fun _ => ([w], 0)) t y := by
  simp only [reduceForms, List.forall_mem_cons, List.not_mem_nil, false_imp_iff, implies_true, and_true]
  refine ⟨?addS, extreme_ran h slt_eq_toInt rfl ho, ?minN, ?maxS, ?maxN⟩
  case addS =>
    have hx : exec (.redaddS d a g) s = reduce s d a g fun xs =>
      (wordI (max (-2147483648) (min 2147483647 (xs.foldl (fun acc x => acc + x.toInt) 0))), 0) := rfl
    exact ⟨_, fun _ => redaddS_value (laneVals x a), reduce_ran h hx ho⟩
  case minN =>
    obtain ⟨w, hw, hr⟩ := extreme_ran h ult_eq_toNat (i := .redminN d a g) rfl ho
    exact ⟨w, by exact_mod_cast hw, hr⟩
  case maxS =>
    obtain ⟨w, hw, hr⟩ := extreme_ran h (k := fun v => -v.toInt) (i := .redmaxS d a g) (fun u v => by simp [slt_eq_toInt]) rfl ho
    exact ⟨w, by simpa using hw, hr⟩
  case maxN =>
    obtain ⟨w, hw, hr⟩ := extreme_ran h (k := fun v => -(v.toNat : Int)) (i := .redmaxN d a g) (fun u v => by simp [ult_eq_toNat]) rfl ho
    exact ⟨w, by simpa using hw, hr⟩

/-! ## Pairs of a value and an index -/

theorem pairLe_iff (p q : Word × Word) :
    pairLe p q ↔ p.1.toNat < q.1.toNat ∨ p.1.toNat = q.1.toNat ∧ p.2.toNat ≤ q.2.toNat := by rw [pairLe, BitVec.toNat_inj]

theorem pairGe_iff (p q : Word × Word) :
    pairGe p q ↔ q.1.toNat < p.1.toNat ∨ p.1.toNat = q.1.toNat ∧ p.2.toNat ≤ q.2.toNat := by rw [pairGe, BitVec.toNat_inj]

theorem indexReductions {s : State} {g : Guard} {x : Iss} (h : Issues s g x) (d a b : Operand) (ho : Operable x [(a, 1), (b, 1)] d 2) :
    ∀ r ∈ indexForms, ∃ v i : Word, ((v, i) = r.2.1 ∨ ∃ p ∈ x.active, (v, i) = (val32 x a p, val32 x b p)) ∧
      (r.2.2 (v, i) r.2.1 ∧ ∀ p ∈ x.active, r.2.2 (v, i) (val32 x a p, val32 x b p)) ∧
      ∃ t y, VecRan (r.1 d a b g) s x d 2 (fun _ => ([v, i], 0)) t y := by
  simp only [indexForms, List.forall_mem_cons, List.not_mem_nil, false_imp_iff, implies_true, and_true]
  refine ⟨reduceIdx_ran h (le := pairLe) (better := fun x v => x.ult v) ?_ ?_ ?_ rfl ho,
    reduceIdx_ran h (le := pairGe) (better := fun x v => v.ult x) ?_ ?_ ?_ rfl ho⟩
  all_goals simp only [pairLe_iff, pairGe_iff, BitVec.ult, Bool.or_eq_true, Bool.and_eq_true, decide_eq_true_eq, beq_iff_eq, ← BitVec.toNat_inj]
  · simp
  · intro p q r hpq hqr
    omega
  · intro p q
    split <;> omega
  · simp
  · intro p q r hpq hqr
    omega
  · intro p q
    split <;> omega

/-! ## The tree of R108 -/

/-- What a node of the tree makes of two. -/
def treeNode (p q : Nat × Nat) : Nat × Nat :=
  ((fAdd fmtF32 .rne (unpack fmtF32 p.1) (unpack fmtF32 q.1)).1,
    (fAdd fmtF32 .rne (unpack fmtF32 p.1) (unpack fmtF32 q.1)).2 ||| p.2 ||| q.2)

theorem sumTree_succ (v : Nat → Nat) (k i : Nat) : sumTree v (k + 1) i = treeNode (sumTree v k (2 * i)) (sumTree v k (2 * i + 1)) := rfl

/-- One level halves the positions. -/
theorem treeLevel_range (f : Nat → Nat × Nat) (n : Nat) :
    treeLevel ((List.range (2 * n)).map f) = (List.range n).map fun i => treeNode (f (2 * i)) (f (2 * i + 1)) := by
  induction n generalizing f with
  | zero => rfl
  | succ n ih =>
    have hrest := ih (fun i => f (i + 2))
    rw [show 2 * (n + 1) = 2 * n + 1 + 1 by ring, List.range_succ_eq_map, List.range_succ_eq_map, List.range_succ_eq_map (n := n)]
    simp only [List.map_cons, List.map_map, treeLevel]
    exact congrArg (_ :: ·) hrest

theorem treeSum_eq_sumTree (v : Nat → Nat) : treeSum ((List.range 32).map v) = sumTree v 5 0 := by
  have hlevel : ∀ k n, treeLevel ((List.range (2 * n)).map (sumTree v k)) = (List.range n).map (sumTree v (k + 1)) := fun k n => by
    rw [treeLevel_range]
    rfl
  have h0 : ((List.range 32).map v).map (fun x => (x, 0)) = (List.range (2 * 16)).map (sumTree v 0) := by
    rw [List.map_map]
    rfl
  rw [treeSum, h0, hlevel, hlevel 1 8, hlevel 2 4, hlevel 3 2, hlevel 4 1]
  rfl

theorem crossLaneResults : Sys2Proof.Claims.CrossLaneResults := by
  refine ⟨fun s x m d a b g h ho => ?shfl, fun s x d a g h ho => ⟨ballot x a, getLsbD_ballot h a, vecBody_ran (i := .voteBal d a g) rfl h ho⟩,
    fun r hr s x d a g h ho => integerReductions h d a ho r hr, fun r hr s x d a b g h ho => indexReductions h d a b ho r hr⟩
  case shfl =>
    obtain ⟨t, y, hr⟩ := vecBody_ran (i := .shfl m d a b g) rfl h ho
    exact ⟨t, y, hr.congr fun p hp => by rw [val_shflSrc h m a b hp]⟩

theorem floatReductions : Sys2Proof.Claims.FloatReductions := by
  intro s x d a g h ho
  simp only [← treeSum_eq_sumTree]
  exact ⟨vecBody_ran (i := .redaddF32 d a g) rfl h ho, vecBody_ran (i := .redminF32 d a g) rfl h ho, vecBody_ran (i := .redmaxF32 d a g) rfl h ho⟩

end Sys2Proof.Machine

namespace Sys2Proof.Proofs

open Sys2Proof.Machine

/-- Settles O58: it holds. The executors of cross-lane forms run; what remains is what each computes of the active lanes' values. -/
theorem crossLane : Obligations.CrossLane := ⟨crossLaneResults, floatReductions⟩

end Sys2Proof.Proofs
end

section
/-! SUPPORT. PTLD: the origin sets of the tables in effect, and the places of the permutation table (04_numbers.md R103; 11_isa_memory.md
R288). -/

namespace Sys2Proof.Machine

/-- Entries written one after another: each place from the first on holds its entry, and every other place what it held. -/
theorem Map.get_putRange {α : Type} (v : Nat → α) (b n : Nat) (m : Map α) (k : Nat) (e : α) :
    Map.get ((List.range n).foldl (fun m i => Map.put m (b + i) (v i)) m) k e = if b ≤ k ∧ k < b + n then v (k - b) else Map.get m k e := by
  induction n with
  | zero => rw [if_neg (by omega)]; rfl
  | succ n ih =>
    rw [List.range_succ, List.foldl_append, List.foldl_cons, List.foldl_nil, Map.get_put, ih]
    by_cases hk : k = b + n
    · rw [if_pos hk, if_pos (by omega), hk, Nat.add_sub_cancel_left]
    · rw [if_neg hk]
      exact if_congr (by omega) rfl rfl

/-- The origin set of the table in effect in a thread joined with that of what is loaded (R288). -/
def ptselJoin (set : OSet) (q : Crew × Map OEntry) (p : Nat × Nat) : Except Cause (Crew × Map OEntry) :=
  match osJoin q.2 (q.1.thread p).ptselS set with
  | .error e => .error e
  | .ok (u, t) => .ok (q.1.modThread p fun th => { th with ptselS := u }, t)

theorem ptselJoin_fold {t0 t : Map OEntry} {P : Map OEntry → Prop} (hf : Fit t0 P) (ht : P t) (set : OSet) (c : Crew) (ps : List (Nat × Nat)) :
    ∃ c' t', foldE (ptselJoin set) (c, t) ps = .ok (c', t') ∧ OnThreads c c' ∧ ∀ p, (c'.thread p).fpx = (c.thread p).fpx := by
  obtain ⟨⟨c', t'⟩, hfold, _, hc, hfpx⟩ := foldE_inv (ptselJoin set)
    (fun q => P q.2 ∧ OnThreads c q.1 ∧ ∀ p, (q.1.thread p).fpx = (c.thread p).fpx) ps (c, t) ⟨ht, OnThreads.refl c, fun _ => rfl⟩
    (fun q p _ ⟨hP, hq, hfpx⟩ => by
      obtain ⟨u, t1, hu, hP1⟩ := hf.join q.2 (q.1.thread p).ptselS [set] hP
      have hj : osJoin q.2 (q.1.thread p).ptselS set = .ok (u, t1) := hu
      refine ⟨(q.1.modThread p fun th => { th with ptselS := u }, t1), by simp only [ptselJoin, hj], hP1, hq.trans (onThreads_modThread _ _ _), fun r => ?_⟩
      exact (Crew.thread_modThread_prop q.1 p r (fun th => { th with ptselS := u }) Thread.fpx fun _ => rfl).trans (hfpx r))
  exact ⟨c', t', hfold, hc, hfpx⟩

/-- A permutation table with bytes written one after another from a place on (R288). -/
def loadTable (pt : Map Nat) (base n : Nat) (bs : List Byte) : Map Nat :=
  (List.range n).foldl (fun m i => Map.put m (base + i) ((bs[i]?).getD 0).toNat) pt

theorem get_loadTable (f : Nat → Byte) (pt : Map Nat) (base n k e : Nat) : Map.get (loadTable pt base n ((List.range n).map f)) k e =
    if base ≤ k ∧ k < base + n then (f (k - base)).toNat else Map.get pt k e := by
  refine (Map.get_putRange _ base n pt k e).trans ?_
  split
  · rename_i hk
    rw [List.getElem?_map, List.getElem?_range (by omega)]
    rfl
  · rfl

/-- A context with a crew whose permutation table is loaded from a place on with n bytes of the scratchpad (R288). -/
def Iss.loaded (z : Iss) (c : Crew) (base off n : Nat) : Iss :=
  { z with crew := { c with ptab := loadTable c.ptab base n ((List.range n).map fun k => sharedByte z.crew (off + k)) } }

theorem ptab_loaded (z : Iss) (c : Crew) (base off n k : Nat) (e : Nat) : Map.get (z.loaded c base off n).crew.ptab k e =
    if base ≤ k ∧ k < base + n then (sharedByte z.crew (off + (k - base))).toNat else Map.get c.ptab k e :=
  get_loadTable (fun k => sharedByte z.crew (off + k)) c.ptab base n k e

/-- The load changes the threads of the crew and its table alone. -/
theorem works_loaded {s1 : State} {z : Iss} {c : Crew} (base off n : Nat) (t : Map OEntry) (he : z.grp.episode = none) (hc : OnThreads z.crew c)
    (hfpx : ∀ p, (c.thread p).fpx = (z.crew.thread p).fpx) : Works s1 { s1 with osets := t } z (z.loaded c base off n) [] none where
  cur := rfl
  episode := he
  grid := (congrArg Crew.grid hc.crew :)
  grids := rfl
  memory := SameMemory.refl _
  otherCrews := fun _ _ => rfl
  own := (congrArg Crew.memories hc.crew :)
  cells := cell_of_files rfl hc.files
  flags := Counted.none hc.flag
  fpx := hfpx

/-- Where a PTLD's checks pass it loads its windows. -/
theorem ptldBody_loads {first count off : Nat} {a : Operand} {g : Guard} {x z : Iss} {s1 : State} {l : Nat × Nat} (hl : lowActive x = some l)
    (hoff : off = (val32 x a l).toNat) (hcount : 1 ≤ count) (hfit : first + count ≤ 8)
    (hrange : checkSharedRange x.crew x.grid.desc.scratch off (32 * count) = .ok ())
    (hstores : threadStoresDue s1 z.cur.crew s1.seq z.present = false) (hloads : threadLoadsDue s1 z.cur.crew s1.seq z.present = false)
    (howned : owned s1 (dieOf z.crew.core) s1.seq false ((List.range (32 * count)).map fun k => crewLoc s1 z.cur.crew .shared (off + k)) = false)
    (hok : windowsOk ((List.range (32 * count)).map fun k => sharedByte z.crew (off + k)) count = true) (hj : JoinsFit s1.osets) :
    ∃ c t, ptldBody first a count g x z s1 = .ok ((z.loaded c (32 * first) off (32 * count)).put { s1 with osets := t }, none) ∧
      OnThreads z.crew c ∧ ∀ p, (c.thread p).fpx = (z.crew.thread p).fpx := by
  obtain ⟨P, hf⟩ := hj.fit
  obtain ⟨set, t1, hset, hp1⟩ :=
    hf.joinAll (resultSets x x.active [(a, 1)] [] false g ++ sharedSets z.crew off (32 * count)) s1.osets 0 hf.here
  obtain ⟨c, t2, hfold, hc, hfpx⟩ := ptselJoin_fold hf hp1 set z.crew
    ((List.range z.crew.sheaves.length).flatMap fun h => (List.range 32).map fun l => (l, h))
  refine ⟨c, t2, ?_, hc, hfpx⟩
  have hin : ¬(8 < first + count ∨ count = 0) := by omega
  subst hoff
  simp only [ptldBody, hl, if_neg hin, hrange, hstores, hloads, howned, Bool.or_self, Bool.false_eq_true, if_false, hok, Bool.not_true, hset]
  split
  · rename_i e he
    cases he.symm.trans hfold
  · rename_i q he
    cases he.symm.trans hfold
    rfl

end Sys2Proof.Machine

namespace Sys2Proof.Proofs

open Sys2Proof.Machine

/-- Settles O14: it holds. Once its checks pass PTLD changes the table and the sets of the tables in effect alone. -/
theorem permutationTableLoaded : Obligations.PermutationTableLoaded := by
  intro first a count g s x z s1 l h ho hl off n hcount hfit hrange hstores hloads howned hok
  obtain ⟨c, t2, hb, hc, hfpx⟩ := ptldBody_loads (g := g) hl rfl hcount hfit hrange hstores hloads howned hok h.joins
  have hx : exec (.ptld first a count g) s = commitOp s g (fun x => trapSets x [(a, 1)] [] g) (fun x => checkOperands x x.active [(a, 1)])
    (ptldBody first.val a count.val g) := rfl
  obtain ⟨t, y, hy, hadv⟩ := h.filed_of_works hx ho.check_sources hb h.grid (works_loaded (32 * first.val) off n t2 h.ended_keeps.episode hc hfpx)
  have hptab : ∀ k e, Map.get y.crew.ptab k e =
      if 32 * first.val ≤ k ∧ k < 32 * first.val + n then (sharedByte z.crew (off + (k - 32 * first.val))).toNat else Map.get z.crew.ptab k e := by
    intro k e
    have hy' : y.crew.ptab = (z.loaded c (32 * first.val) off n).crew.ptab := (congrArg Crew.ptab hadv.crew :)
    have hc' : c.ptab = z.crew.ptab := (congrArg Crew.ptab hc.crew :)
    rw [hy', ptab_loaded, hc']
  refine ⟨t, y, hy.next, hy.context, fun k hk e => ?_, fun k hk e => ?_, hy.cells, hy.memory, hy.own⟩
  · rw [hptab, if_pos (by omega), Nat.add_sub_cancel_left]
  · rw [hptab, if_neg (by omega)]

end Sys2Proof.Proofs
end

section
/-! SUPPORT. The arithmetic of a matrix pass: the bits of a K row, the exact sum of a block and one rounding a block (04_numbers.md R99 to
R101, R105, R106). -/

namespace Sys2Proof.Machine

open Sys2Proof.Claims (f32 rounded unitBit rowElem passCell)

/-! ## Bits of bytes in order -/

theorem testBit_ofBytes (bs : List Byte) (i : Nat) : (ofBytes bs).testBit i = ((bs[i / 8]?).getD 0).getLsbD (i % 8) := by
  induction bs generalizing i with
  | nil => simp [ofBytes]
  | cons b rest ih =>
    have hcons : ofBytes (b :: rest) = 2 ^ 8 * ofBytes rest + b.toNat := by simp only [ofBytes]; omega
    rw [hcons, Nat.testBit_two_pow_mul_add _ b.isLt]
    split
    · rename_i hi
      rw [Nat.div_eq_of_lt hi, Nat.mod_eq_of_lt hi]
      rfl
    · rename_i hi
      obtain ⟨j, rfl⟩ : ∃ j, i = j + 8 := ⟨i - 8, by omega⟩
      rw [Nat.add_sub_cancel, ih, Nat.add_div_right _ (by decide), Nat.add_mod_right]
      rfl

/-- A bit of the number that bytes of a unit hold. -/
theorem testBit_num (m : Memory) {a n i : Nat} (hi : i < 8 * n) : (Memory.num m a n).testBit i = unitBit m a i := by
  rw [Memory.num, testBit_ofBytes, Memory.readN, List.getElem?_map, List.getElem?_range (by omega)]
  rfl

/-- The bits of a number below w, each with its weight, sum to its remainder by 2^w. -/
theorem foldl_bits (x w : Nat) :
    (List.range w).foldl (fun (v : Int) i => if x.testBit i then v + 2 ^ i else v) 0 = ((x % 2 ^ w : Nat) : Int) := by
  induction w with
  | zero => simp [Nat.mod_one]
  | succ w ih =>
    rw [List.range_succ, List.foldl_append, ih, List.foldl_cons, List.foldl_nil, Nat.mod_pow_succ, ← Nat.toNat_testBit]
    cases x.testBit w <;> simp

/-- A function folded over a list, where two agree on what the list holds. -/
theorem foldl_congr_mem {α σ : Type} {f g : σ → α → σ} (xs : List α) (s : σ) (h : ∀ s, ∀ a ∈ xs, f s a = g s a) : xs.foldl f s = xs.foldl g s := by
  induction xs generalizing s with
  | nil => rfl
  | cons a rest ih => rw [List.foldl_cons, List.foldl_cons, h s a List.mem_cons_self, ih _ fun s b hb => h s b (List.mem_cons_of_mem a hb)]

/-- A mantissa of a K row is the element its bits encode in two's complement (R99, R101). -/
theorem mant_kRow (m : Memory) (mant ex blocks : Nat) {w k : Nat} (hw : 1 ≤ w) (hk : (k + 1) * w ≤ 768) :
    (kRow m mant ex blocks).mant w k = rowElem m mant w k := by
  have hbit : ∀ i, i < w → ((kRow m mant ex blocks).bits / 2 ^ (k * w)).testBit i = unitBit m mant (k * w + i) := fun i hi => by
    rw [Nat.testBit_div_two_pow, Nat.add_comm]
    exact testBit_num m (show k * w + i < 8 * 96 by rw [Nat.add_mul] at hk; omega)
  have hsum : (List.range w).foldl (fun (v : Int) i => if unitBit m mant (k * w + i) then v + 2 ^ i else v) 0 =
      (((kRow m mant ex blocks).bits / 2 ^ (k * w) % 2 ^ w : Nat) : Int) := by
    rw [← foldl_bits]
    exact foldl_congr_mem _ _ fun v i hi => by rw [hbit i (List.mem_range.1 hi)]
  rw [rowElem, hsum, KRow.mant, sextOf, hbit (w - 1) (by omega)]
  split
  · push_cast
    rfl
  · exact (Int.sub_zero _).symm

/-! ## Outputs -/

theorem getD_exps_kRow (m : Memory) (mant ex : Nat) {blocks i : Nat} (hi : i < blocks) :
    (kRow m mant ex blocks).exps.getD i 0 = (Memory.read m (ex + i)).toNat := by
  rw [kRow, List.getD_eq_getElem?_getD, List.getElem?_map, List.getElem?_range hi]
  rfl

theorem any_exps_kRow (m : Memory) (mant ex blocks : Nat) :
    ((kRow m mant ex blocks).exps.any fun e => e == 255) = true ↔ ∃ i ∈ List.range blocks, (Memory.read m (ex + i)).toNat = 255 := by
  simp [kRow, List.any_eq_true]

theorem isNaN32_iff (c : Nat) : isNaN32 c = true ↔ unpack fmtF32 c = .nan := by
  rw [unpack_f32, isNaN32]
  split
  · split <;> simp_all
  · split <;> simp_all

/-- Bits past the word do not tell in the value that f32 bits encode. -/
theorem f32_word (x : Nat) : f32 (word x) = unpack fmtF32 x := by
  have h31 : (x % 2 ^ 32).testBit 31 = x.testBit 31 := by rw [Nat.testBit_mod_two_pow]; rfl
  have hexp : x % 2 ^ 32 / 2 ^ 23 % 2 ^ 8 = x / 2 ^ 23 % 2 ^ 8 := by omega
  have hfrac : x % 2 ^ 32 % 2 ^ 23 = x % 2 ^ 23 := by omega
  rw [f32, word, BitVec.toNat_ofNat, unpack_f32, unpack_f32, h31, hexp, hfrac]

theorem f32_zero : f32 0 ≠ .nan := by decide +kernel

/-- A block's step is the one rounding of R106. -/
theorem accStep_eq_rounded (c : Nat) (d e : Int) :
    accStep c d e = (rounded fmtF32 .rne false [unpack fmtF32 c] (addFV .rne (unpack fmtF32 c) (ofDyadic d e false))).1 := by
  unfold accStep
  generalize unpack fmtF32 c = x
  by_cases hx : x = .nan
  · subst hx
    rfl
  · have hnan : [x].any FV.isNaN = false := by cases x <;> simp_all [FV.isNaN]
    unfold rounded
    rw [hnan]
    cases addFV .rne x (ofDyadic d e false) <;> rfl

/-- The blocks of an output in turn: the word that the steps leave is each block's one rounding of the word before. -/
theorem word_foldl_accStep {d e d' e' : Nat → Int} (xs : List Nat) (hd : ∀ i ∈ xs, d i = d' i) (he : ∀ i ∈ xs, e i = e' i) (c : Nat) :
    word (xs.foldl (fun c i => accStep c (d i) (e i)) c) = xs.foldl (fun c i =>
      BitVec.ofNat 32 (rounded fmtF32 .rne false [f32 c] (addFV .rne (f32 c) (ofDyadic (d' i) (e' i) false))).1) (word c) := by
  induction xs generalizing c with
  | nil => rfl
  | cons i rest ih =>
    rw [List.foldl_cons, List.foldl_cons, ih (fun j hj => hd j (List.mem_cons_of_mem i hj)) fun j hj => he j (List.mem_cons_of_mem i hj),
      f32_word, hd i List.mem_cons_self, he i List.mem_cons_self, accStep_eq_rounded]
    rfl

/-- The elements of a row's blocks lie within its 96 bytes. -/
theorem passBlocks_fit {wa wb i j : Nat} (hi : i < passBlocks wa wb) (hj : j < 32) : (32 * i + j + 1) * wa ≤ 768 ∧ (32 * i + j + 1) * wb ≤ 768 := by
  have hmax : (i + 1) * max wa wb ≤ 24 := (Nat.mul_le_mul_right _ hi).trans (Nat.div_mul_le_self 24 _)
  have hrow : (32 * i + j + 1) * max wa wb ≤ 768 := by
    calc (32 * i + j + 1) * max wa wb ≤ (32 * (i + 1)) * max wa wb := Nat.mul_le_mul_right _ (by omega)
      _ = 32 * ((i + 1) * max wa wb) := Nat.mul_assoc _ _ _
      _ ≤ 768 := by omega
  exact ⟨(Nat.mul_le_mul_left _ (le_max_left wa wb)).trans hrow, (Nat.mul_le_mul_left _ (le_max_right wa wb)).trans hrow⟩

section
variable {wa wb : Nat} (ha : 2 ≤ wa) (hb : 2 ≤ wb)
include ha hb

/-- The exact sum of a block by the elements of its A row and B column. -/
theorem blockDot_kRow (a b : Memory) (ma mb xa xb : Nat) {i : Nat} (hi : i < passBlocks wa wb) :
    blockDot (kRow a ma xa (passBlocks wa wb)) (kRow b mb xb (passBlocks wa wb)) wa wb i =
      (List.range 32).foldl (fun s j => s + rowElem a ma wa (32 * i + j) * rowElem b mb wb (32 * i + j)) 0 :=
  foldl_congr_mem _ _ fun s j hj => by
    obtain ⟨hfa, hfb⟩ := passBlocks_fit hi (List.mem_range.1 hj)
    rw [mant_kRow a ma xa _ (by omega) hfa, mant_kRow b mb xb _ (by omega) hfb]

/-- An output of a pass is what R106 gives of its A row and B column. -/
theorem passOut_eq_passCell (zero : Bool) (a b : Memory) (q m n : Nat) (c : Word) :
    passOut wa wb zero (aRow a q m (passBlocks wa wb)) (bCol b n (passBlocks wa wb)) c = passCell wa wb zero a q b c m n := by
  have hc : unpack fmtF32 (if zero then 0 else c.toNat) = f32 (if zero then 0 else c) := by cases zero <;> rfl
  have hw : word (if zero then 0 else c.toNat) = if zero then 0 else c := by cases zero <;> simp [word]
  have hnan : ((((aRow a q m (passBlocks wa wb)).exps.any fun e => e == 255) || ((bCol b n (passBlocks wa wb)).exps.any fun e => e == 255) ||
      isNaN32 (if zero then 0 else c.toNat)) = true) ↔ (∃ i ∈ List.range (24 / max wa wb),
        (Memory.read a (2048 * q + 1536 + 12 * m + i)).toNat = 255 ∨ (Memory.read b (6144 + 12 * n + i)).toNat = 255) ∨
        f32 (if zero then 0 else c) = .nan := by
    rw [Bool.or_eq_true, Bool.or_eq_true, isNaN32_iff, hc, aRow, bCol, any_exps_kRow, any_exps_kRow, ← exists_or, passBlocks]
    simp only [← and_or_left]
  unfold passOut passCell
  refine ite_congr (propext hnan) (fun _ => rfl) fun _ => ?_
  rw [← hw]
  refine word_foldl_accStep _ (fun i hi => ?_) (fun i hi => ?_) _
  · exact blockDot_kRow ha hb a b _ _ _ _ (List.mem_range.1 hi)
  · rw [aRow, bCol, getD_exps_kRow _ _ _ (List.mem_range.1 hi), getD_exps_kRow _ _ _ (List.mem_range.1 hi)]

end

/-! ## The rows of a request -/

theorem length_grid {α : Type} (f : Nat → Nat → α) (k w : Nat) : ((List.range k).flatMap fun i => (List.range w).map (f i)).length = k * w := by
  simp [List.length_flatMap]

/-- An entry of a grid listed row by row. -/
theorem getElem?_grid {α : Type} (f : Nat → Nat → α) {k w m n : Nat} (hm : m < k) (hn : n < w) :
    ((List.range k).flatMap fun i => (List.range w).map (f i))[w * m + n]? = some (f m n) := by
  induction k with
  | zero => omega
  | succ k ih =>
    rw [List.range_succ, List.flatMap_append]
    rcases Nat.lt_or_eq_of_le (Nat.le_of_lt_succ hm) with hm | rfl
    · have hlt : w * m + n < k * w := by
        calc w * m + n < w * (m + 1) := by rw [Nat.mul_succ]; omega
          _ ≤ k * w := by rw [Nat.mul_comm]; exact Nat.mul_le_mul_right w hm
      rw [List.getElem?_append_left (by rw [length_grid]; exact hlt), ih hm]
    · rw [List.getElem?_append_right (by rw [length_grid, Nat.mul_comm]; omega), length_grid, Nat.mul_comm m w, Nat.add_sub_cancel_left]
      simp [hn]

/-- A request's result: 16 rows of 64 outputs, each as R106 gives it. -/
theorem passRows_outputs {wa wb : Nat} (q : Nat) (zero : Bool) (a b : Memory) (c : List Word) (ha : 2 ≤ wa) (hb : 2 ≤ wb) :
    (passRows wa wb zero a q b c).length = 1024 ∧ ∀ m n, m < 16 → n < 64 →
      (passRows wa wb zero a q b c).getD (64 * m + n) 0 = passCell wa wb zero a q b (c.getD (64 * m + n) 0) m n := by
  refine ⟨length_grid _ 16 64, fun m n hm hn => ?_⟩
  rw [List.getD_eq_getElem?_getD, passRows, getElem?_grid _ hm hn]
  exact passOut_eq_passCell ha hb zero a b q m n _

end Sys2Proof.Machine
end

section
/-! SUPPORT. The pass an engine chooses, and how a decision and an end of a pass leave the engine (12_isa_matrix.md R296, R297). -/

namespace Sys2Proof.Machine

open Sys2Proof.Claims (Gives)

theorem le_of_leastBy {α : Type} {f : α → Nat} {xs : List α} {a : α} (h : leastBy f xs = some a) : ∀ b ∈ xs, f a ≤ f b := by
  induction xs generalizing a with
  | nil => cases h
  | cons x rest ih =>
    intro b hb
    unfold leastBy at h
    split at h
    · rename_i hnone
      cases h
      cases rest with
      | nil => exact (List.mem_singleton.1 hb) ▸ Nat.le_refl _
      | cons y ys =>
        unfold leastBy at hnone
        split at hnone
        · cases hnone
        · split at hnone <;> cases hnone
    · rename_i y hy
      have hrest := ih hy
      split at h <;> cases h <;> rcases List.mem_cons.1 hb with rfl | hb
      · omega
      · exact hrest b hb
      · exact Nat.le_refl _
      · have := hrest b hb
        omega

/-! ## The choice of a pass -/

/-- A candidate that may join a pass: it shares the B slot and the widths of the first (R297). -/
def XReq.shares (r f : XReq) : Prop := r.bphys = f.bphys ∧ r.wa = f.wa ∧ r.wb = f.wb

/-- What a pass has as candidates join it: it goes on from its first members, has at most four, each a candidate or one of the first
that shares their B slot and widths, and no two on the same rows. -/
structure Fused (first : XReq) (cs ps : List XReq) : Prop where
  start : ∃ rest, ps = first :: rest
  few : ps.length ≤ 4
  shares : ∀ r ∈ ps, (r = first ∨ r ∈ cs) ∧ r.shares first
  apart : ps.Pairwise fun a b => sameRows a b = false

theorem fused_fuse {first : XReq} {all : List XReq} (cs : List XReq) (hcs : ∀ r ∈ cs, r ∈ all) (pass : List XReq) (h : Fused first all pass) :
    Fused first all (fuse pass first cs) := by
  induction cs generalizing pass with
  | nil => exact h
  | cons c rest ih =>
    have hrest : ∀ r ∈ rest, r ∈ all := fun r hr => hcs r (List.mem_cons_of_mem c hr)
    unfold fuse
    split
    · rename_i hjoin
      obtain ⟨hlen, hphys, hwa, hwb, hrows⟩ := hjoin
      refine ih hrest _ ⟨?_, ?_, fun r hr => ?_, ?_⟩
      · obtain ⟨tail, rfl⟩ := h.start
        exact ⟨tail ++ [c], rfl⟩
      · rw [List.length_append, List.length_singleton]
        omega
      · rcases List.mem_append.1 hr with hr | hr
        · exact h.shares r hr
        · rw [List.mem_singleton.1 hr]
          exact ⟨.inr (hcs c List.mem_cons_self), hphys, hwa, hwb⟩
      · refine List.pairwise_append.2 ⟨h.apart, List.pairwise_singleton _ c, fun a ha b hb => ?_⟩
        rw [List.mem_singleton.1 hb]
        simpa using (List.any_eq_false.1 (by simpa using hrows)) a ha
    · exact ih hrest pass h

/-- The candidates of the class that goes first: those of class G where there are any (R297). -/
def firstClass (cands : List XReq) : List XReq := if cands.any fun c => !c.h then cands.filter fun c => !c.h else cands

theorem mem_of_firstClass {cands : List XReq} {r : XReq} (h : r ∈ firstClass cands) : r ∈ cands := by
  unfold firstClass at h
  split at h
  · exact List.mem_of_mem_filter h
  · exact h

/-- The class that goes first is one class, of which no candidate stays out; where it is H no candidate is of class G. -/
structure OneClass (cands cls : List XReq) (f : XReq) : Prop where
  same : ∀ r ∈ cls, r.h = f.h
  whole : ∀ r ∈ cands, r.h = f.h → r ∈ cls
  last : f.h = true → ∀ r ∈ cands, r.h = true

theorem oneClass_firstClass {cands : List XReq} {f : XReq} (hf : f ∈ firstClass cands) : OneClass cands (firstClass cands) f := by
  unfold firstClass at hf ⊢
  split
  · rename_i hany
    rw [if_pos hany] at hf
    have hfh : f.h = false := by simpa using (List.mem_filter.1 hf).2
    exact { same := fun r hr => by simpa [hfh] using (List.mem_filter.1 hr).2
            whole := fun r hr hh => List.mem_filter.2 ⟨hr, by simp [hh, hfh]⟩
            last := fun h => by rw [hfh] at h; cases h }
  · rename_i hany
    rw [if_neg hany] at hf
    have hall : ∀ c ∈ cands, c.h = true := by simpa using hany
    exact { same := fun r hr => (hall r hr).trans (hall f hf).symm, whole := fun r hr _ => hr, last := fun _ => hall }

theorem choosePass_inv {s : State} {e : Engine} {ps : List XReq} (h : choosePass s e = some ps) :
    ∃ f ∈ firstClass (e.table.filter (eligible s e)), (∀ r ∈ firstClass (e.table.filter (eligible s e)), f.seq ≤ r.seq) ∧
      Fused f (firstClass (e.table.filter (eligible s e))) ps := by
  have hc : choosePass s e = match leastBy (fun r : XReq => r.seq) (firstClass (e.table.filter (eligible s e))) with
    | none => none
    | some f => some (fuse [f] f ((firstClass (e.table.filter (eligible s e))).filter fun r => r != f)) := rfl
  rw [hc] at h
  split at h
  · cases h
  · rename_i f hf
    cases h
    refine ⟨f, mem_of_leastBy hf, le_of_leastBy hf, fused_fuse _ (fun r hr => List.mem_of_mem_filter hr) _ ?_⟩
    exact ⟨⟨[], rfl⟩, by simp, fun r hr => List.mem_singleton.1 hr ▸ ⟨.inl rfl, rfl, rfl, rfl⟩, List.pairwise_singleton _ f⟩

/-- R297: the oldest request of the class that goes first begins a pass, which others that share its B slot and widths join. -/
theorem choosePass_chooses {s : State} {e : Engine} {ps : List XReq} (h : choosePass s e = some ps) :
    ∃ f rest, ps = f :: rest ∧ ps.length ≤ 4 ∧
      (∀ r ∈ ps, r ∈ e.table ∧ eligible s e r = true ∧ r.bphys = f.bphys ∧ r.wa = f.wa ∧ r.wb = f.wb ∧ r.h = f.h) ∧
      (∀ r ∈ e.table, eligible s e r = true → r.h = f.h → f.seq ≤ r.seq) ∧ (f.h = true → ∀ r ∈ e.table, eligible s e r = true → r.h = true) ∧
      ps.Pairwise fun a b => sameRows a b = false := by
  obtain ⟨f, hf, hleast, hp⟩ := choosePass_inv h
  obtain ⟨rest, hps⟩ := hp.start
  have hcand : ∀ {r}, r ∈ e.table → eligible s e r = true → r ∈ e.table.filter (eligible s e) := fun hr he => List.mem_filter.2 ⟨hr, he⟩
  have hone := oneClass_firstClass hf
  refine ⟨f, rest, hps, hp.few, fun r hr => ?_, fun r hr he hh => hleast r (hone.whole r (hcand hr he) hh),
    fun hh r hr he => hone.last hh r (hcand hr he), hp.apart⟩
  obtain ⟨hmem, hphys, hwa, hwb⟩ := hp.shares r hr
  have hin : r ∈ firstClass (e.table.filter (eligible s e)) := hmem.elim (fun h => h ▸ hf) id
  obtain ⟨htable, helig⟩ := List.mem_filter.1 (mem_of_firstClass hin)
  exact ⟨htable, helig, hphys, hwa, hwb, hone.same r hin⟩

/-! ## Decisions and ends -/

theorem engine_modEngine (s : State) (k j : Nat) (f : Engine → Engine) :
    (s.modEngine k f).engine j = if j = k then f (s.engine k) else s.engine j := Map.get_put _ _ _ _ _

theorem matrixPassDecision_gives {cluster : Nat} {s : State} {ps : List XReq} (hch : (s.engine cluster).chosen = [])
    (hp : choosePass s (s.engine cluster) = some ps) :
    Gives (.matrixPassDecision cluster) s fun t =>
      (t.engine cluster).table = ((s.engine cluster).table.filter fun r => !ps.contains r) ∧
      (if (s.engine cluster).running = [] then (t.engine cluster).running = ps ∧ (t.engine cluster).chosen = []
       else (t.engine cluster).running = (s.engine cluster).running ∧ (t.engine cluster).chosen = ps) ∧
      (∀ k, k ≠ cluster → t.engine k = s.engine k) ∧ t.crews = s.crews ∧ SameMemory s t := by
  have hx : exec (.matrixPassDecision cluster) s = execMatrixPassDecision cluster s := rfl
  unfold execMatrixPassDecision at hx
  simp only [hch, hp, List.isEmpty_nil, Bool.not_true, Bool.false_eq_true, if_false] at hx
  refine ⟨_, hx, ?_, ?_, fun k hk => ?_, rfl, SameMemory.refl s⟩
  · rw [engine_modEngine, if_pos rfl]
    split <;> rfl
  · rw [engine_modEngine, if_pos rfl]
    by_cases hr : (s.engine cluster).running = []
    · simp only [hr, List.isEmpty_nil, if_true, and_self]
    · simp only [hr, List.isEmpty_iff, if_false, and_self]
  · rw [engine_modEngine, if_neg hk]

theorem matrixPassEnd_gives {cluster : Nat} {s : State} (hr : (s.engine cluster).running ≠ []) :
    Gives (.matrixPassEnd cluster) s fun t =>
      (t.engine cluster).running = (s.engine cluster).chosen ∧ (t.engine cluster).chosen = [] ∧
      (t.engine cluster).ended = (s.engine cluster).ended ++ [(s.engine cluster).running.map fun r =>
        (r.passed s (dedup ((s.engine cluster).running.flatMap (badReq s (s.engine cluster)))), reqResult s (s.engine cluster) r)] ∧
      t.crews = s.crews ∧ SameMemory s t := by
  have hx : exec (.matrixPassEnd cluster) s = execMatrixPassEnd cluster s := rfl
  unfold execMatrixPassEnd at hx
  simp only [List.isEmpty_iff, if_neg hr] at hx
  refine ⟨_, hx, ?_, ?_, ?_, rfl, SameMemory.refl s⟩ <;> rw [engine_modEngine, if_pos rfl]

end Sys2Proof.Machine
end

section
/-! SUPPORT. The rows of a pass, and the tile operations XZERO and XREQ, written (12_isa_matrix.md R295, R298, R300, R301). -/

namespace Sys2Proof.Machine

open Sys2Proof.Claims (Gives Over CountedDown CrewNow)

/-! ## Words in bytes -/

theorem length_bytesOf (n x : Nat) : (bytesOf n x).length = n := by
  induction n generalizing x with
  | zero => rfl
  | succ n ih => rw [bytesOf, List.length_cons, ih]

theorem getElem?_bytesOf {n i : Nat} (x : Nat) (hi : i < n) : (bytesOf n x)[i]? = some (BitVec.ofNat 8 (x / 256 ^ i)) := by
  induction n generalizing x i with
  | zero => omega
  | succ n ih =>
    rw [bytesOf]
    cases i with
    | zero => 
      rw [List.getElem?_cons_zero, Nat.pow_zero, Nat.div_one]
      exact congrArg some (BitVec.eq_of_toNat_eq (by simp))
    | succ i => rw [List.getElem?_cons_succ, ih _ (by omega), Nat.div_div_eq_div_mul, Nat.pow_succ']

/-- The bytes of words in turn. -/
def rowsBytes (ws : List Word) : List Byte := ws.flatMap fun w => bytesOf 4 w.toNat

theorem length_rowsBytes (ws : List Word) : (rowsBytes ws).length = 4 * ws.length := by
  simp [rowsBytes, List.length_flatMap, length_bytesOf, Nat.mul_comm]

theorem getD_rowsBytes {ws : List Word} {i : Nat} (hi : i < 4 * ws.length) :
    ((rowsBytes ws)[i]?).getD 0 = BitVec.ofNat 8 ((ws.getD (i / 4) 0).toNat / 256 ^ (i % 4)) := by
  induction ws generalizing i with
  | nil => cases hi
  | cons w rest ih =>
    rw [rowsBytes, List.flatMap_cons]
    by_cases hlow : i < 4
    · rw [List.getElem?_append_left (by rwa [length_bytesOf]), getElem?_bytesOf _ hlow, Nat.div_eq_of_lt hlow, Nat.mod_eq_of_lt hlow]
      rfl
    · obtain ⟨j, rfl⟩ : ∃ j, i = j + 4 := ⟨i - 4, by omega⟩
      rw [List.getElem?_append_right (by rw [length_bytesOf]; omega), length_bytesOf, Nat.add_sub_cancel,
        Nat.add_div_right _ (by decide), Nat.add_mod_right, List.getD_cons_succ]
      exact ih (by rw [List.length_cons] at hi; omega)

/-! ## What a count down leaves of a state -/

theorem find?_decFlag (s : State) (n : Nat) (homes : List Nat) (f : Option Nat) (k : Nat) : Map.find? (s.decFlag n homes f).crews k =
    if k = n then (Map.find? s.crews k).map fun c => freeSheaves (decFlag c homes f) else Map.find? s.crews k := Map.find?_mod _ _ _ _

theorem countedDown_decFlag (s : State) (n : Nat) {homes : List Nat} (f : Option Nat) (hn : homes.Nodup) :
    CountedDown s (s.decFlag n homes f) n homes f := fun h k => by
  simp only [State.sheafAt, find?_decFlag, if_true]
  cases Map.find? s.crews n with
  | none => exact (Nat.zero_sub _).symm
  | some c => exact flag_decFlag c hn f h k

/-- A crew counts a flag down with the rest of it as it was. -/
theorem find_decFlag {s : State} {n k : Nat} {c : Crew} (homes : List Nat) (f : Option Nat) (hc : Map.find? s.crews k = some c) :
    ∃ w, Map.find? (s.decFlag n homes f).crews k = some w ∧ w.frame = c.frame := by
  rw [find?_decFlag, hc]
  split
  · exact ⟨_, rfl, (frame_decFlag c homes f).1⟩
  · exact ⟨c, rfl, rfl⟩

/-! ## Tiles -/

/-- The tile that a crew holds under a number, if it holds one. -/
def State.tileAt (s : State) (n k : Nat) : Option TUnit := (Map.find? s.crews n).bind fun c => Map.find? c.unitsC k

theorem tileAt_of_find {s : State} {n k : Nat} {c : Crew} {x : TUnit} (hc : Map.find? s.crews n = some c) (hx : Map.find? c.unitsC k = some x) :
    s.tileAt n k = some x := by rw [State.tileAt, hc, Option.bind_some, hx]

theorem crewNow_of_tileAt {t : State} {n k : Nat} {y : TUnit} {Q : TUnit → Prop} (hy : t.tileAt n k = some y) (hq : Q y) :
    CrewNow t n fun w => ∃ y, Map.find? w.unitsC k = some y ∧ Q y := by
  obtain ⟨w, hw, hu⟩ := Option.bind_eq_some_iff.1 hy
  exact ⟨w, hw, y, hu, hq⟩

theorem tileAt_decFlag (s : State) (m : Nat) (homes : List Nat) (f : Option Nat) (n k : Nat) :
    (s.decFlag m homes f).tileAt n k = s.tileAt n k := by
  rw [State.tileAt, State.tileAt, find?_decFlag]
  split
  · cases Map.find? s.crews n with
    | none => rfl
    | some c => exact (congrArg (fun d : Crew => Map.find? d.unitsC k) (frame_decFlag c homes f).1 :)
  · rfl

theorem tileAt_none {s : State} {n : Nat} (hc : Map.find? s.crews n = none) (k : Nat) : s.tileAt n k = none := by rw [State.tileAt, hc, Option.bind_none]

/-- A change of a tile changes it in its crew alone. -/
theorem tileAt_modUnit (s : State) (crew u : Nat) (f : TUnit → TUnit) (n k : Nat) : (modUnit s crew .C u f).tileAt n k =
    if n = crew ∧ k = u then (s.tileAt n k).map f else s.tileAt n k := by
  cases hc : Map.find? s.crews crew with
  | none =>
    have hsame : modUnit s crew .C u f = s := by simp only [modUnit, hc]
    rw [hsame]
    by_cases hn : n = crew
    · rw [hn, tileAt_none hc, Option.map_none, ite_self]
    · rw [if_neg fun h => hn h.1]
  | some c =>
    simp only [modUnit, hc, State.tileAt, State.modCrew_crews, Map.find?_mod]
    by_cases hn : n = crew
    · subst hn
      simp only [if_true, hc, Option.map_some, Option.bind_some, true_and]
      exact Map.find?_mod _ _ _ _
    · rw [if_neg hn, if_neg fun h => hn h.1]

/-- A machine but for its crews and its table of origin sets. -/
def State.sansUnits (s : State) : State := { s with crews := [], osets := [] }

theorem memory_of_sansUnits {s t : State} (h : t.sansUnits = s.sansUnits) : SameMemory s t :=
  ⟨(congrArg State.hbm h :), (congrArg State.host h :), (congrArg State.store h :)⟩

theorem sansUnits_modUnit (s : State) (crew : Nat) (sp : TSpace) (u : Nat) (f : TUnit → TUnit) : (modUnit s crew sp u f).sansUnits = s.sansUnits := by
  unfold modUnit
  split
  · rfl
  · split <;> rfl

theorem osets_modUnit (s : State) (crew : Nat) (sp : TSpace) (u : Nat) (f : TUnit → TUnit) : (modUnit s crew sp u f).osets = s.osets := by
  unfold modUnit
  split
  · rfl
  · split <;> rfl

/-- A change of a tile leaves the flags of every crew. -/
theorem sheafAt_modUnit (s : State) (crew u : Nat) (f : TUnit → TUnit) (n h : Nat) : (modUnit s crew .C u f).sheafAt n h = s.sheafAt n h := by
  unfold modUnit
  split
  · rfl
  · simp only [State.sheafAt, State.modCrew_crews, Map.find?_mod]
    split
    · cases Map.find? s.crews n <;> rfl
    · rfl

theorem read_writeN_above {bs : List Byte} {m : Memory} {a b : Nat} (h : Memory.wf m = true) (hb : a + bs.length ≤ b) :
    Memory.read (Memory.writeN m a bs) b = Memory.read m b := by
  induction bs generalizing m a with
  | nil => rfl
  | cons x rest ih =>
    rw [List.length_cons] at hb
    rw [Memory.writeN, ih (Memory.wf_write m a x h) (by omega), Memory.read_write m a b x h, if_neg (by omega)]

/-! ## The rows of a request written (R295, R298) -/

/-- A tile with a request's rows written. -/
def TUnit.withRows (r : XReq) (ws : List Word) (set : OSet) (x : TUnit) : TUnit :=
  { x with mem := Memory.writeN x.mem (256 * r.rows) (rowsBytes ws), set := set }

/-- What the writing of a request's rows leaves, joins in tables with a property fitting. -/
structure RowsWritten (P : Map OEntry → Prop) (s t : State) (r : XReq) (ws : List Word) : Prop where
  fits : P t.osets
  rest : t.sansUnits = s.sansUnits
  tiles : ∃ set, ∀ n k, t.tileAt n k = if n = r.crew ∧ k = r.tile then (s.tileAt n k).map (TUnit.withRows r ws set) else s.tileAt n k
  counted : r.homes.Nodup → CountedDown s t r.crew r.homes (some r.flag)

theorem writeRows_written {t0 : Map OEntry} {P : Map OEntry → Prop} (hf : Fit t0 P) {s : State} (hP : P s.osets) (r : XReq) (ws : List Word) :
    RowsWritten P s (writeRows s r ws) r ws := by
  cases hc : Map.find? s.crews r.crew with
  | none =>
    have hsame : writeRows s r ws = s := by simp only [writeRows, hc]
    rw [hsame]
    refine ⟨hP, rfl, ⟨0, fun n k => ?_⟩, fun _ h k => ?_⟩
    · by_cases hn : n = r.crew
      · rw [hn, tileAt_none hc, Option.map_none, ite_self]
      · rw [if_neg fun h => hn h.1]
    · rw [State.sheafAt, hc]
      exact (Nat.zero_sub _).symm
  | some c =>
    obtain ⟨u, tb, hu, hPu⟩ := hf.joinAll (r.srcSets ++ [r.set]) s.osets (Map.get c.unitsC r.tile (TUnit.init 0)).set hP
    simp only [writeRows, hc, hu]
    generalize hv : modUnit { s with osets := tb } r.crew .C r.tile _ = v
    refine ⟨?_, ?_, ⟨u, fun n k => ?_⟩, fun hn h k => ?_⟩
    · show P v.osets
      rw [← hv, osets_modUnit]
      exact hPu
    · exact (show v.sansUnits = s.sansUnits by rw [← hv, sansUnits_modUnit]; rfl)
    · rw [tileAt_decFlag, ← hv, tileAt_modUnit]
      rfl
    · rw [countedDown_decFlag v r.crew (some r.flag) hn, ← hv, sheafAt_modUnit]
      rfl

/-- The rows of two requests lie apart: other tiles, or 16 rows or more between them. -/
def XReq.apart (a b : XReq) : Prop := a.crew = b.crew → a.tile = b.tile → a.rows + 16 ≤ b.rows ∨ b.rows + 16 ≤ a.rows

/-- Whether a byte of a tile lies outside the rows of a request. -/
def XReq.spares (r : XReq) (i : Nat) : Prop := i < 256 * r.rows ∨ 256 * r.rows + 4096 ≤ i

theorem XReq.apart.spares {a b : XReq} (h : a.apart b) (hc : a.crew = b.crew) (ht : a.tile = b.tile) {i : Nat} (hi : i < 4096) :
    b.spares (256 * a.rows + i) := by
  have := h hc ht
  unfold XReq.spares
  omega

section
variable {r : XReq} {ws : List Word} {x : TUnit} (set : OSet) (hx : Memory.wf x.mem = true) (hws : ws.length = 1024)
include hx hws

theorem read_withRows {i : Nat} (hi : i < 4096) :
    Memory.read (x.withRows r ws set).mem (256 * r.rows + i) = BitVec.ofNat 8 ((ws.getD (i / 4) 0).toNat / 256 ^ (i % 4)) := by
  have hlen : i < (rowsBytes ws).length := by rw [length_rowsBytes, hws]; exact hi
  exact (read_writeN hx hlen).trans (getD_rowsBytes (by rw [hws]; exact hi))

theorem read_withRows_spared {i : Nat} (hi : r.spares i) : Memory.read (x.withRows r ws set).mem i = Memory.read x.mem i := by
  rcases hi with hi | hi
  · exact read_writeN_below hx hi
  · exact read_writeN_above hx (by rw [length_rowsBytes, hws]; exact hi)

end

/-- What the writing of rows in turn leaves of a tile: those of each request on it, and every other byte as it was. -/
structure Rewritten (p : List (XReq × List Word)) (n k : Nat) (x y : TUnit) : Prop where
  wf : Memory.wf y.mem = true
  rows : ∀ v ∈ p, v.1.crew = n → v.1.tile = k → ∀ i, i < 4096 →
    Memory.read y.mem (256 * v.1.rows + i) = BitVec.ofNat 8 ((v.2.getD (i / 4) 0).toNat / 256 ^ (i % 4))
  others : ∀ i, (∀ v ∈ p, v.1.crew = n → v.1.tile = k → v.1.spares i) → Memory.read y.mem i = Memory.read x.mem i

theorem rewritten_cons {v : XReq × List Word} {p : List (XReq × List Word)} {n k : Nat} {x y : TUnit} {set : OSet} (hx : Memory.wf x.mem = true)
    (hws : v.2.length = 1024) (hap : ∀ u ∈ p, v.1.apart u.1)
    (h : Rewritten p n k (if n = v.1.crew ∧ k = v.1.tile then x.withRows v.1 v.2 set else x) y) : Rewritten (v :: p) n k x y := by
  refine ⟨h.wf, fun u hu hn hk i hi => ?_, fun i hi => ?_⟩
  · rcases List.mem_cons.1 hu with rfl | hu
    · rw [h.others _ fun w hw hwn hwk => (hap w hw).spares (hn.trans hwn.symm) (hk.trans hwk.symm) hi, if_pos ⟨hn.symm, hk.symm⟩]
      exact read_withRows set hx hws hi
    · exact h.rows u hu hn hk i hi
  · rw [h.others i fun w hw => hi w (List.mem_cons_of_mem v hw)]
    split
    · rename_i hv
      exact read_withRows_spared set hx hws (hi v List.mem_cons_self hv.1.symm hv.2.symm)
    · rfl

/-- The rows of a pass written in turn. -/
theorem writeRows_fold {t0 : Map OEntry} {P : Map OEntry → Prop} (hf : Fit t0 P) (p : List (XReq × List Word)) {s : State} (hP : P s.osets)
    (hap : p.Pairwise fun u v => u.1.apart v.1) (hws : ∀ v ∈ p, v.2.length = 1024) :
    (p.foldl (fun s q => writeRows s q.1 q.2) s).sansUnits = s.sansUnits ∧
      ∀ n k x, s.tileAt n k = some x → Memory.wf x.mem = true →
        ∃ y, (p.foldl (fun s q => writeRows s q.1 q.2) s).tileAt n k = some y ∧ Rewritten p n k x y := by
  induction p generalizing s with
  | nil => exact ⟨rfl, fun n k x hx hwf => ⟨x, hx, { wf := hwf, rows := fun _ hv => absurd hv List.not_mem_nil, others := fun _ _ => rfl }⟩⟩
  | cons v rest ih =>
    have hv := writeRows_written hf hP v.1 v.2
    obtain ⟨set, htiles⟩ := hv.tiles
    obtain ⟨hapart, hrest⟩ := List.pairwise_cons.1 hap
    have hlen := hws v List.mem_cons_self
    obtain ⟨hsans, htile⟩ := ih hv.fits hrest fun u hu => hws u (List.mem_cons_of_mem v hu)
    refine ⟨hsans.trans hv.rest, fun n k x hx hwf => ?_⟩
    obtain ⟨y, hy, hrw⟩ := htile n k (if n = v.1.crew ∧ k = v.1.tile then x.withRows v.1 v.2 set else x)
      (by rw [htiles, hx]; split <;> rfl) (by split; exacts [Memory.wf_writeN _ _ _ hwf, hwf])
    exact ⟨y, hy, rewritten_cons hwf hlen hapart hrw⟩

/-! ## Rows of ended passes -/

/-- A machine whose engine has only some ended passes left to write. -/
def State.leaveEnded (s : State) (cluster : Nat) (rest : List (List (XReq × List Word))) : State :=
  s.modEngine cluster fun e => { e with ended := rest }

theorem exec_matrixRowsWritten {cluster : Nat} {s : State} {p : List (XReq × List Word)} {rest : List (List (XReq × List Word))}
    (he : (s.engine cluster).ended = p :: rest) (hbad : ∀ v ∈ p, v.1.bad = false) : exec (.matrixRowsWritten cluster) s =
      .next (p.foldl (fun s q => writeRows s q.1 q.2) (s.leaveEnded cluster rest)) := by
  have hx : exec (.matrixRowsWritten cluster) s = execMatrixRowsWritten cluster s := rfl
  have hany : ¬(p.any fun q => q.1.bad) = true := by simpa using hbad
  rw [hx]
  simp only [execMatrixRowsWritten, matrixRowsWritten, he, if_neg hany, State.leaveEnded]

theorem ended_of_sansUnits {s t : State} {cluster : Nat} {rest : List (List (XReq × List Word))}
    (h : t.sansUnits = (s.leaveEnded cluster rest).sansUnits) : (t.engine cluster).ended = rest := by
  have he : t.engines = (s.leaveEnded cluster rest).engines := (congrArg State.engines h :)
  have hk : t.engine cluster = (s.leaveEnded cluster rest).engine cluster := by rw [State.engine, he, State.engine]
  rw [hk, State.leaveEnded, engine_modEngine, if_pos rfl]

/-- R295, R298: the rows of one request are written, its flag counting down. -/
theorem matrixRowsWritten_one {cluster : Nat} {s : State} {r : XReq} {ws : List Word} {rest : List (List (XReq × List Word))} {c : Crew} {x : TUnit}
    (he : (s.engine cluster).ended = [(r, ws)] :: rest) (hbad : r.bad = false) (hc : Map.find? s.crews r.crew = some c)
    (hx : Map.find? c.unitsC r.tile = some x) (hwf : Memory.wf x.mem = true) (hws : ws.length = 1024) (hn : r.homes.Nodup)
    (hj : JoinsFit s.osets) :
    Gives (.matrixRowsWritten cluster) s fun t =>
      (t.engine cluster).ended = rest ∧ CountedDown s t r.crew r.homes (some r.flag) ∧
      (CrewNow t r.crew fun w => ∃ y, Map.find? w.unitsC r.tile = some y ∧
        (∀ i, i < 4096 → Memory.read y.mem (256 * r.rows + i) = BitVec.ofNat 8 ((ws.getD (i / 4) 0).toNat / 256 ^ (i % 4))) ∧
        (∀ a, a < 256 * r.rows ∨ 256 * r.rows + 4096 ≤ a → Memory.read y.mem a = Memory.read x.mem a)) ∧ SameMemory s t := by
  obtain ⟨P, hf⟩ := hj.fit
  have hw := writeRows_written hf (s := s.leaveEnded cluster rest) hf.here r ws
  obtain ⟨set, htiles⟩ := hw.tiles
  have hat : (s.leaveEnded cluster rest).tileAt r.crew r.tile = some x := tileAt_of_find (s := s) hc hx
  have hbads : ∀ v ∈ [(r, ws)], v.1.bad = false := fun v hv => List.mem_singleton.1 hv ▸ hbad
  refine ⟨_, exec_matrixRowsWritten he hbads, ended_of_sansUnits hw.rest, hw.counted hn, crewNow_of_tileAt (y := x.withRows r ws set) ?_ ⟨fun i hi => ?_, fun a ha => ?_⟩,
    memory_of_sansUnits (s := s.leaveEnded cluster rest) hw.rest⟩
  · exact (htiles r.crew r.tile).trans (by rw [if_pos ⟨rfl, rfl⟩, hat]; rfl)
  · exact read_withRows set hwf hws hi
  · exact read_withRows_spared set hwf hws ha

/-- Requests on quarters of tiles whose rows differ lie apart. -/
theorem apart_of_sameRows {a b : XReq} (h : sameRows a b = false) (ha : a.rows % 16 = 0) (hb : b.rows % 16 = 0) : a.apart b := fun hc ht => by
  have hne : a.rows ≠ b.rows := fun he => by simp [sameRows, hc, ht, he] at h
  omega

/-- R298: the rows of every request of a pass are written at once. -/
theorem matrixRowsWritten_all {cluster : Nat} {s : State} {p : List (XReq × List Word)} {rest : List (List (XReq × List Word))}
    (he : (s.engine cluster).ended = p :: rest) (hap : p.Pairwise fun u v => sameRows u.1 v.1 = false) (hj : JoinsFit s.osets)
    (hp : ∀ v ∈ p, v.1.bad = false ∧ v.2.length = 1024 ∧ v.1.rows % 16 = 0 ∧ ∃ c x, Map.find? s.crews v.1.crew = some c ∧
      Map.find? c.unitsC v.1.tile = some x ∧ Memory.wf x.mem = true) :
    Gives (.matrixRowsWritten cluster) s fun t => (t.engine cluster).ended = rest ∧ SameMemory s t ∧
      (∀ v ∈ p, CrewNow t v.1.crew fun w => ∃ y, Map.find? w.unitsC v.1.tile = some y ∧
        ∀ i, i < 4096 → Memory.read y.mem (256 * v.1.rows + i) = BitVec.ofNat 8 ((v.2.getD (i / 4) 0).toNat / 256 ^ (i % 4))) ∧
      ∀ n c k x, Map.find? s.crews n = some c → Map.find? c.unitsC k = some x → Memory.wf x.mem = true →
        CrewNow t n fun w => ∃ y, Map.find? w.unitsC k = some y ∧
          ∀ i, (∀ v ∈ p, v.1.crew = n → v.1.tile = k → i < 256 * v.1.rows ∨ 256 * v.1.rows + 4096 ≤ i) → Memory.read y.mem i = Memory.read x.mem i := by
  obtain ⟨P, hf⟩ := hj.fit
  choose hbad hlen hquarter htiles using hp
  have hrows : p.Pairwise fun u v => u.1.apart v.1 := hap.imp_of_mem fun hu hv h => apart_of_sameRows h (hquarter _ hu) (hquarter _ hv)
  obtain ⟨hrest, htile⟩ := writeRows_fold hf p (s := s.leaveEnded cluster rest) hf.here hrows hlen
  refine ⟨_, exec_matrixRowsWritten he hbad, ended_of_sansUnits hrest, memory_of_sansUnits (s := s.leaveEnded cluster rest) hrest,
    fun v hv => ?_, fun n c k x hc hx hwf => ?_⟩
  · obtain ⟨c, x, hc, hx, hwf⟩ := htiles v hv
    obtain ⟨y, hy, hrw⟩ := htile v.1.crew v.1.tile x (tileAt_of_find (s := s) hc hx) hwf
    exact crewNow_of_tileAt hy (hrw.rows v hv rfl rfl)
  · obtain ⟨y, hy, hrw⟩ := htile n k x (tileAt_of_find (s := s) hc hx) hwf
    exact crewNow_of_tileAt hy hrw.others

/-! ## XZERO and XREQ (R300, R301) -/

/-- R300: an XZERO leaves its tile zero with its set. -/
theorem xzeroDone_gives {op tile : Nat} {s : State} {o : Op} {c : Crew} {x : TUnit} (ho : Map.find? s.ops op = some o) (hops : Map.wf s.ops = true)
    (hkind : o.kind = .xzero tile) (htile : tileReady s o = true) (heng : engineReady s o = true) (hbad : badUnit s o.crew [(.C, tile)] = false)
    (hc : Map.find? s.crews o.crew = some c) (hx : Map.find? c.unitsC tile = some x) (hn : o.homes.Nodup) :
    Gives (.xzeroDone op) s fun t => Over s t op o ∧ SameMemory s t ∧
      CrewNow t o.crew fun w => ∃ y, Map.find? w.unitsC tile = some y ∧ y.mem = [] ∧ y.set = o.set := by
  have hexec : exec (.xzeroDone op) s = execXzeroDone op s := rfl
  simp only [execXzeroDone, xzeroDone, ho, hkind, htile, heng, hbad, Bool.and_false, Bool.false_eq_true, if_false, Bool.not_true, Bool.or_self] at hexec
  generalize hv : modUnit { s with ops := Map.del s.ops op } o.crew .C tile _ = v at hexec
  have hrest : v.sansUnits = ({ s with ops := Map.del s.ops op } : State).sansUnits := by rw [← hv, sansUnits_modUnit]
  have hopsv : v.ops = Map.del s.ops op := (congrArg State.ops hrest :)
  refine ⟨_, hexec, ⟨?_, fun h k => ?_⟩, memory_of_sansUnits (s := { s with ops := Map.del s.ops op }) hrest,
    crewNow_of_tileAt (y := { x with mem := [], set := o.set }) ?_ ⟨rfl, rfl⟩⟩
  · show Map.find? v.ops op = none
    rw [hopsv, Map.find?_del hops, if_pos rfl]
  · rw [countedDown_decFlag v o.crew o.flag hn, ← hv, sheafAt_modUnit]
    rfl
  · rw [tileAt_decFlag, ← hv, tileAt_modUnit, if_pos ⟨rfl, rfl⟩]
    exact congrArg (Option.map _) (tileAt_of_find (s := s) hc hx)

theorem xreqQuarter_rest {s t : State} {o : Op} {tile aq w v qa : Nat} {m : RMode} (h : xreqQuarter s o tile aq w m v qa = .ok t) :
    t.sansUnits = s.sansUnits := by
  unfold xreqQuarter at h
  split at h
  · cases h; rfl
  · simp only at h
    split at h
    · cases h
    · cases h
      exact sansUnits_modUnit _ _ _ _ _

/-- R301: an XREQ leaves its quarters as its steps write them. -/
theorem xreqDone_gives {op tile aq w v : Nat} {qs : List Nat} {m : RMode} {s s1 : State} {o : Op} (ho : Map.find? s.ops op = some o)
    (hops : Map.wf s1.ops = true) (hkind : o.kind = .xreq tile aq w qs m v) (htile : tileReady s o = true) (heng : engineReady s o = true)
    (hbad : badUnit s o.crew [(.C, tile)] = false) (hfold : foldE (fun s qa => xreqQuarter s o tile aq w m v qa) s qs = .ok s1)
    (hn : o.homes.Nodup) :
    Gives (.xreqDone op) s fun t => Over s1 t op o ∧ SameMemory s t ∧
      ∀ c, Map.find? s1.crews o.crew = some c → CrewNow t o.crew fun w => w.unitsA = c.unitsA ∧ w.unitsC = c.unitsC := by
  have hexec : exec (.xreqDone op) s = execXreqDone op s := rfl
  simp only [execXreqDone, xreqDone, ho, hkind, htile, heng, hbad, Bool.and_false, Bool.false_eq_true, if_false, Bool.not_true, Bool.or_self,
    hfold] at hexec
  have hrest : s1.sansUnits = s.sansUnits := foldE_keeps_eq State.sansUnits (fun _ _ _ => xreqQuarter_rest) hfold
  refine ⟨_, hexec, ⟨?_, countedDown_decFlag { s1 with ops := Map.del s1.ops op } o.crew o.flag hn⟩, memory_of_sansUnits (t := s1) hrest, fun c hc => ?_⟩
  · exact (Map.find?_del hops op op).trans (if_pos rfl)
  · obtain ⟨w, hw, hframe⟩ := find_decFlag (s := { s1 with ops := Map.del s1.ops op }) (n := o.crew) o.homes o.flag hc
    exact ⟨w, hw, (congrArg Crew.unitsA hframe :), (congrArg Crew.unitsC hframe :)⟩

end Sys2Proof.Machine

namespace Sys2Proof.Proofs

open Sys2Proof.Machine

/-- Settles O30: it holds. Each clause is its event's own lemma; an output of a pass is the word its blocks' roundings leave in turn. -/
theorem matrixWorkComesAbout : Obligations.MatrixWorkComesAbout :=
  ⟨fun _ _ _ h => choosePass_chooses h,
   fun _ _ _ hch hp => matrixPassDecision_gives hch hp,
   fun _ _ hr => matrixPassEnd_gives hr,
   fun _ _ _ _ _ _ _ he hbad hc hx hwf hws hn hj => matrixRowsWritten_one he hbad hc hx hwf hws hn hj,
   fun _ _ q zero a b c ha _ hb _ => passRows_outputs q zero a b c ha hb,
   fun _ _ _ _ he hap hj hp => matrixRowsWritten_all he hap hj hp,
   fun _ _ _ _ _ _ ho hops hkind htile heng hbad hc hx hn => xzeroDone_gives ho hops hkind htile heng hbad hc hx hn,
   fun _ _ _ _ _ _ _ _ _ _ ho hops hkind htile heng hbad hfold hn => xreqDone_gives ho hops hkind htile heng hbad hfold hn⟩

end Sys2Proof.Proofs
end

section
/-! SUPPORT. Every step keeps the three memories in canonical form: per function of the model that answers a state, that the state
it answers is in form where the one it is given is. -/

set_option Elab.async false -- one proof at a time: side by side they hold more memory than the check allows

namespace Sys2Proof.Machine

open Host (Outcome)

/-- The three memories of a state are in canonical form. -/
def State.InForm (s : State) : Prop := s.memoriesWf = true

theorem State.inForm_iff (s : State) :
    s.InForm ↔ Memory.wf s.hbm = true ∧ Memory.wf s.host = true ∧ Memory.wf s.store = true := by
  simp [State.InForm, State.memoriesWf, and_assoc]

/-- The states that a pick answers are in form. -/
def Pick.InForm : Pick → Prop
  | .run _ s => s.InForm
  | .done s => s.InForm
  | .stop _ => True

/-- The state of a read-modify-write's outcome is in form. -/
def Run.InForm : Run → Prop
  | .wait s => s.InForm
  | .done s _ => s.InForm
  | .bad s _ => s.InForm

/-- The state a copy waits or is denied with is in form. -/
def Halt.InForm : Halt → Prop
  | .wait s => s.InForm
  | .bad .. => True
  | .denied s .. => s.InForm

/-- The state a command waits with is in form. -/
def CmdHalt.InForm : CmdHalt → Prop
  | .wait s => s.InForm
  | .denied .. => True
  | .bad _ => True

/-- The state a fetch of code waits with is in form. -/
def NoCode.InForm : NoCode → Prop
  | .wait s => s.InForm
  | .bad .. => True

theorem foldl_inForm {α : Type} {f : State → α → State} {xs : List α} {s : State} (hs : s.InForm)
    (hf : ∀ s a, s.InForm → (f s a).InForm) : (xs.foldl f s).InForm :=
  List.foldlRecOn _ _ hs fun s hs a _ => hf s a hs

theorem foldE_inForm {ε α : Type} {f : State → α → Except ε State} {xs : List α} {s t : State}
    (e : foldE f s xs = .ok t) (hs : s.InForm) (hf : ∀ s a t, f s a = .ok t → s.InForm → t.InForm) : t.InForm :=
  foldE_keeps hf e hs

theorem Memory.wf_foldl_write {α : Type} {p : α → Prop} [DecidablePred p] {a : α → Nat} {b : α → Byte} {xs : List α}
    {m : Memory} (h : Memory.wf m = true) :
    Memory.wf (xs.foldl (fun m x => if p x then Memory.write m (a x) (b x) else m) m) = true := by
  induction xs generalizing m with
  | nil => exact h
  | cons x xs ih =>
    refine ih ?_
    dsimp only
    split
    · exact Memory.wf_write _ _ _ h
    · exact h

theorem foldStop_inForm {ε α : Type} {f : State → α → Except ε State} {xs : List α} {s : State} (h : s.InForm)
    (hf : ∀ s a t, f s a = .ok t → s.InForm → t.InForm) : (foldStop f s xs).1.InForm := by
  induction xs generalizing s with
  | nil => exact h
  | cons x xs ih =>
    unfold foldStop
    split
    · exact h
    · exact ih (hf _ _ _ ‹_› h)

/-- What a fold stops with, its function stopped with at a state in form. -/
theorem foldStop_halt_of {ε α : Type} {f : State → α → Except ε State} {xs : List α} {s : State} {x : ε}
    (e : (foldStop f s xs).2 = some x) (h : s.InForm) (hf : ∀ s a t, f s a = .ok t → s.InForm → t.InForm) :
    ∃ s a, s.InForm ∧ f s a = .error x := by
  induction xs generalizing s with
  | nil => cases e
  | cons y xs ih =>
    unfold foldStop at e
    split at e
    · cases e
      exact ⟨_, _, h, ‹_›⟩
    · exact ih e (hf _ _ _ ‹_› h)

theorem writeRecs_wf {rs : List FRec} {m : Memory} {q : FaultQ} (h : Memory.wf m = true) :
    Memory.wf (writeRecs m q rs).1 = true := by
  induction rs generalizing m q with
  | nil => exact h
  | cons r rest ih => exact ih (Memory.wf_writeN _ _ _ h)

theorem State.InForm.setHbm {s : State} {m : Memory} (hs : s.InForm) (hm : Memory.wf m = true) : State.InForm { s with hbm := m } := by
  obtain ⟨_, hh, hd⟩ := s.inForm_iff.1 hs
  exact (State.inForm_iff _).2 ⟨hm, hh, hd⟩

theorem State.InForm.setHost {s : State} {m : Memory} (hs : s.InForm) (hm : Memory.wf m = true) : State.InForm { s with host := m } := by
  obtain ⟨hb, _, hd⟩ := s.inForm_iff.1 hs
  exact (State.inForm_iff _).2 ⟨hb, hm, hd⟩

theorem State.InForm.setStore {s : State} {m : Memory} (hs : s.InForm) (hm : Memory.wf m = true) : State.InForm { s with store := m } := by
  obtain ⟨hb, hh, _⟩ := s.inForm_iff.1 hs
  exact (State.inForm_iff _).2 ⟨hb, hh, hm⟩

theorem State.InForm.hbm {s : State} (hs : s.InForm) : Memory.wf s.hbm = true := (s.inForm_iff.1 hs).1

theorem State.InForm.host {s : State} (hs : s.InForm) : Memory.wf s.host = true := (s.inForm_iff.1 hs).2.1

theorem State.InForm.store {s : State} (hs : s.InForm) : Memory.wf s.store = true := (s.inForm_iff.1 hs).2.2

/-- What holds of both of an `if`'s answers, holds of its answer. -/
theorem ite_inv {α : Type} {P : α → Prop} {p : Prop} [Decidable p] {r : α} {a o : Option α}
    (e : (if p then a else o) = some r) (ha : a = some r → P r) (ho : o = some r → P r) : P r := by
  split at e
  · exact ha e
  · exact ho e

theorem ite_some_inv {α : Type} {P : α → Prop} {p : Prop} [Decidable p] {a r : α} {o : Option α}
    (e : (if p then some a else o) = some r) (ha : P a) (ho : o = some r → P r) : P r :=
  ite_inv e (fun e => by cases e; exact ha) ho

theorem orKeep_inForm {s t : State} {b : Bool} (hs : s.InForm) (ht : t.InForm) : (if b then t else s).InForm := by
  split
  · exact ht
  · exact hs

variable {s t : State}

/-! ## Observe -/

theorem putBank_inForm {b : Bank} (hs : s.InForm) : (putBank s b).InForm := by
  unfold putBank
  split
  · exact hs
  · exact hs

theorem countN_inForm {kind : Nat} {unit : Nat} {vf : Nat} {x4 : Bool} {code : Nat} {n : Nat} (hs : s.InForm) :
    (countN s kind unit vf x4 code n).InForm :=
  hs

theorem countEvent_inForm {kind : Nat} {unit : Nat} {vf : Nat} {x4 : Bool} {code : Nat} (hs : s.InForm) :
    (countEvent s kind unit vf x4 code).InForm :=
  hs

theorem countCore_inForm {core : Nat} {g : Grid} {code : Nat} (hs : s.InForm) : (countCore s core g code).InForm := hs

theorem State.modFn_inForm {fn : Nat} {f : Vf → Vf} (hs : s.InForm) : (State.modFn s fn f).InForm := by
  unfold State.modFn
  split
  · exact hs
  · exact hs

theorem sendMsi_inForm {fn : Nat} {vec : Nat} (hs : s.InForm) : (sendMsi s fn vec).InForm := by
  grind [sendMsi, State.modFn_inForm, State.inForm_iff]

theorem traceWrite_inForm {unit : Nat} {x2 : Trace} {x3 : TRec} (hs : s.InForm) : (traceWrite s unit x2 x3).InForm := by
  unfold traceWrite
  dsimp only
  split
  · exact hs
  · exact sendMsi_inForm (s := { s with host := _, traces := _ }) (hs.setHost (Memory.wf_writeN _ _ _ hs.host))

theorem traceCore_inForm {vf : Nat} {core : Nat} {x3 : TRec} {who : Nat → Bool} (hs : s.InForm) :
    (traceCore s vf core x3 who).InForm := by
  grind [traceCore, traceWrite_inForm, foldl_inForm]

theorem traceThreads_inForm {gid : Nat} {g : Grid} {w : Crew} {kind : Nat} {code : Nat} {clause : Dword} {index : Nat}
    {ps : List (Nat × Nat)} {who : Nat → Bool} (hs : s.InForm) : (traceThreads s gid g w kind code clause index ps who).InForm
    := by
  grind [traceThreads, traceCore_inForm, foldl_inForm]

/-! ## Ops -/

theorem Iss.put_inForm {x : Iss} (hs : s.InForm) : (Iss.put x s).InForm := hs

theorem State.modCrew_inForm {c : Nat} {f : Crew → Crew} (hs : s.InForm) : (State.modCrew s c f).InForm := hs

theorem State.modGroup_inForm {c : Nat} {g : Nat} {f : Group → Group} (hs : s.InForm) : (State.modGroup s c g f).InForm := hs

theorem State.modGrid_inForm {g : Nat} {f : Grid → Grid} (hs : s.InForm) : (State.modGrid s g f).InForm := hs

theorem State.modVf_inForm {v : Nat} {f : Vf → Vf} (hs : s.InForm) : (State.modVf s v f).InForm := hs

theorem State.modCore_inForm {c : Nat} {f : Core → Core} (hs : s.InForm) : (State.modCore s c f).InForm := hs

theorem State.tickSeq_inForm (hs : s.InForm) : (State.tickSeq s).InForm := hs

theorem noLanes_inForm {x : Iss} {f : Option Nat} (e : noLanes s x f = .ok t) (hs : s.InForm) : t.InForm := by
  grind [noLanes]

theorem State.decFlag_inForm {crew : Nat} {homes : List Nat} {f : Option Nat} (hs : s.InForm) :
    (State.decFlag s crew homes f).InForm :=
  hs

theorem enqueueStores_inForm {core : Nat} {c : Crew} {es : List StoreEntry} {u : Crew}
    (e : enqueueStores s core c es = .ok (t, u)) (hs : s.InForm) : t.InForm := by
  grind [enqueueStores, State.modCore_inForm, State.inForm_iff]

theorem Iss.endRegion_inForm {x : Iss} {ls : List Nat} {u : Iss} (e : Iss.endRegion x ls s = .ok (u, t)) (hs : s.InForm) :
    t.InForm := by
  unfold Iss.endRegion at e
  split at e
  · cases e
  dsimp only at e
  split at e
  · cases e
  · rename_i hq
    cases e
    exact enqueueStores_inForm hq hs

theorem State.onGroup_inForm {crew : Nat} {grp : Nat} {f : Crew → Group → Crew × Group} (hs : s.InForm) :
    (State.onGroup s crew grp f).InForm :=
  hs

theorem State.endEpisode_inForm {crew : Nat} {grp : Nat} (hs : s.InForm) : (State.endEpisode s crew grp).InForm := hs

theorem State.enterEpisode_inForm {crew : Nat} {grp : Nat} (hs : s.InForm) : (State.enterEpisode s crew grp).InForm := hs

theorem State.exitEpisode_inForm {crew : Nat} {grp : Nat} (hs : s.InForm) : (State.exitEpisode s crew grp).InForm := hs

theorem advanceGroup_inForm {cu : Cur} (hs : s.InForm) : (advanceGroup s cu).InForm := by
  grind [advanceGroup, State.inForm_iff]

theorem State.toDriver_inForm {vf : Nat} {rs : List FRec} (hs : s.InForm) : (State.toDriver s vf rs).InForm := hs

theorem State.toHypervisor_inForm {rs : List FRec} (hs : s.InForm) : (State.toHypervisor s rs).InForm := hs

theorem State.notice_inForm {vf : Nat} {c : Cause} {x3 : FRec} (hs : s.InForm) : (State.notice s vf c x3).InForm := by
  grind [State.notice, countEvent_inForm, State.toHypervisor_inForm, State.toDriver_inForm]

theorem stopCrews_inForm {gid : Nat} (hs : s.InForm) : (stopCrews s gid).InForm := hs

theorem failGrid_inForm {gid : Nat} {c : Cause} {x3 : FRec} (hs : s.InForm) : (failGrid s gid c x3).InForm := by
  grind [failGrid, stopCrews_inForm, State.modGrid_inForm, State.notice_inForm]

theorem countCause_inForm {grid : Nat} (hs : s.InForm) : (countCause s grid).InForm := hs

theorem freeFamily_inForm {crew : Nat} {fam : Nat} (hs : s.InForm) : (freeFamily s crew fam).InForm := by
  grind [freeFamily, State.modCore_inForm, State.modCrew_inForm]

theorem freeBuffer_inForm {crew : Nat} {grp : Nat} (hs : s.InForm) : (freeBuffer s crew grp).InForm := by
  grind [freeBuffer, freeFamily_inForm]

theorem trapEntry_inForm {x : Iss} {ts : List (Nat × Nat)} {c : Cause} {ix : Nat} {set : OSet} {fa : List (Nat × Dword)}
    (e : trapEntry s x ts c ix set fa = .ok t) (hs : s.InForm) : t.InForm := by
  grind [trapEntry, → Iss.endRegion_inForm, Iss.put_inForm, State.modCrew_inForm, freeBuffer_inForm, State.modGrid_inForm,
    State.inForm_iff]

theorem reportBatch_inForm {vf : Nat} {c : Cause} {pages : List (Bool × Nat × Bool × Bool)} {flags : Nat} {gpa : Dword}
    {x6 : FRec} {b : Batch} (hs : s.InForm) : (reportBatch s vf c pages flags gpa x6 b).1.InForm := by
  grind [reportBatch, State.modVf_inForm, State.toHypervisor_inForm, State.toDriver_inForm, State.inForm_iff]

theorem startEpisode_inForm {x : Iss} {act : Option ActiveClause} {fault : Option FaultStart}
    {pages : List (Bool × Nat × Bool × Bool)} (hs : s.InForm) : (startEpisode s x act fault pages).InForm := by
  grind [startEpisode, countCore_inForm, Iss.put_inForm, State.modCore_inForm]

theorem haltForService_inForm {x : Iss} {c : Cause} {pages : List (Bool × Nat × Bool × Bool)} {flags : Nat} {gpa : Dword}
    {fa : List (Nat × Dword)} {ix : Nat} (hs : s.InForm) : (haltForService s x c pages flags gpa fa ix).InForm :=
  reportBatch_inForm hs

theorem reportEpisode_inForm {crew : Nat} {grp : Nat} {f : FaultStart} {pages : List (Bool × Nat × Bool × Bool)} (hs : s.InForm)
    : (reportEpisode s crew grp f pages).InForm := by
  grind [reportEpisode, reportBatch_inForm, State.modGrid_inForm, State.modGroup_inForm]

theorem State.leaveEpisode_inForm {crew : Nat} {grp : Nat} (hs : s.InForm) : (State.leaveEpisode s crew grp).InForm := by
  unfold State.leaveEpisode
  split
  all_goals grind [State.modCore_inForm, State.endEpisode_inForm, reportEpisode_inForm, State.inForm_iff]

theorem countGroup_inForm {cu : Cur} (hs : s.InForm) : (countGroup s cu).InForm := by
  unfold countGroup
  split
  · exact hs
  · exact hs

theorem finishIssue_inForm {cu : Cur} (hs : s.InForm) : (finishIssue s cu).InForm := by
  grind [finishIssue, State.exitEpisode_inForm, countGroup_inForm, State.leaveEpisode_inForm]

theorem advance_inForm {cu : Cur} (hs : s.InForm) : (advance s cu).InForm := by
  grind [advance, finishIssue_inForm, advanceGroup_inForm]

theorem traceCause_inForm {x : Iss} {ts : List (Nat × Nat)} {c : Cause} {ix : Nat} (hs : s.InForm) :
    (traceCause s x ts c ix).InForm :=
  traceThreads_inForm hs

theorem raiseFrom_inForm {tret : Bool} {x : Iss} {ts : List (Nat × Nat)} {c : Cause} {ix : Nat} {sets : List OSet}
    {fa : List (Nat × Dword)} (hs : s.InForm) : (raiseFrom tret s x ts c ix sets fa).InForm := by
  have hc : (traceCause s x ts c ix).InForm := traceCause_inForm hs
  unfold raiseFrom
  split
  · exact State.leaveEpisode_inForm hs
  dsimp only
  split
  · split
    · exact failGrid_inForm (State.modGrid_inForm hc)
    split
    · exact stopCrews_inForm (State.modGrid_inForm (State.toDriver_inForm (State.modGrid_inForm hc)))
    split
    · exact failGrid_inForm (State.modGrid_inForm hc)
    split
    · rename_i hq
      exact trapEntry_inForm hq hc
    · exact Iss.put_inForm hc
    · exact failGrid_inForm (State.modGrid_inForm hc)
    · exact failGrid_inForm (State.modGrid_inForm hc)
  · split
    · exact failGrid_inForm (State.modGrid_inForm hc)
    · exact failGrid_inForm (State.modGrid_inForm hc)

theorem raiseCause_inForm {x : Iss} {ts : List (Nat × Nat)} {c : Cause} {ix : Nat} {sets : List OSet} {fa : List (Nat × Dword)}
    (hs : s.InForm) : (raiseCause s x ts c ix sets fa).InForm :=
  raiseFrom_inForm hs

theorem settle_inForm {x : Iss} {ts : List (Nat × Nat)} {ix : Nat} {sets : List OSet} {x5 : Stop}
    (e : settle s x ts ix sets x5 = .next t) (hs : s.InForm) : t.InForm := by
  unfold settle at e
  split at e
  all_goals grind [raiseCause_inForm, State.leaveEpisode_inForm, Iss.put_inForm, haltForService_inForm, State.inForm_iff]

/-! ## Operands -/

theorem idle_inForm {x : Iss} {o : Operand} {n : Nat} {g : Guard} (hs : s.InForm) : (idle s x o n g).InForm := by
  unfold idle
  split
  · exact hs
  · exact hs

/-! ## Vector -/

theorem issueOp_inForm {g : Guard} {sets : Iss → List OSet} {body : Iss → Except Stop State}
    (e : issueOp s g sets body = .next t) (hs : s.InForm) (hb : ∀ x r, body x = .ok r → r.InForm) : t.InForm := by
  grind [issueOp, advance_inForm, settle_inForm]

theorem vecBody_inForm {d : Operand} {dn : Nat} {os : List (Operand × Nat)} {preds : List Nat} {mode : Bool} {g : Guard}
    {inv : Iss → Nat × Nat → Bool} {f : Iss → Nat × Nat → List Word × Nat} {x : Iss}
    (e : vecBody s d dn os preds mode g inv f x = .ok t) (hs : s.InForm) : t.InForm := by
  grind [vecBody, idle_inForm, Iss.put_inForm, State.inForm_iff]

theorem vecLane_inForm {d : Operand} {dn : Nat} {os : List (Operand × Nat)} {mode : Bool} {g : Guard}
    {f : Thread → List Dword → List Word × Nat} (e : vecLane s d dn os mode g f = .next t) (hs : s.InForm) : t.InForm := by
  grind [vecLane, issueOp_inForm, vecBody_inForm]

theorem intOp2_inForm {d : Operand} {a : Operand} {b : Operand} {g : Guard} {f : Word → Word → Word}
    (e : intOp2 s d a b g f = .next t) (hs : s.InForm) : t.InForm :=
  vecLane_inForm e hs

theorem intOp1_inForm {d : Operand} {a : Operand} {g : Guard} {f : Word → Word} (e : intOp1 s d a g f = .next t) (hs : s.InForm)
    : t.InForm :=
  vecLane_inForm e hs

theorem intOp3_inForm {d : Operand} {a : Operand} {b : Operand} {g : Guard} {f : Word → Word → Word → Word}
    (e : intOp3 s d a b g f = .next t) (hs : s.InForm) : t.InForm :=
  vecLane_inForm e hs

theorem intOp64_inForm {d : Operand} {os : List (Operand × Nat)} {g : Guard} {f : List Dword → Dword}
    (e : intOp64 s d os g f = .next t) (hs : s.InForm) : t.InForm :=
  vecLane_inForm e hs

theorem predBody_inForm {d : Nat} {os : List (Operand × Nat)} {preds : List Nat} {g : Guard} {inv : Iss → Nat × Nat → Bool}
    {f : Iss → Nat × Nat → Bool} {x : Iss} (e : predBody s d os preds g inv f x = .ok t) (hs : s.InForm) : t.InForm := by
  grind [predBody, Iss.put_inForm, State.inForm_iff]

theorem cmpOp_inForm {d : Nat} {a : Operand} {b : Operand} {g : Guard} {f : Word → Word → Bool}
    (e : cmpOp s d a b g f = .next t) (hs : s.InForm) : t.InForm := by
  grind [cmpOp, issueOp_inForm, predBody_inForm]

theorem psetOp_inForm {d : Nat} {a : Nat} {b : Nat} {g : Guard} {f : Bool → Bool → Bool} (e : psetOp s d a b g f = .next t)
    (hs : s.InForm) : t.InForm := by
  grind [psetOp, issueOp_inForm, predBody_inForm]

/-! ## Issue -/

theorem State.restartPoint_inForm {crew : Nat} {grp : Nat} {ps : List (Nat × Nat)} (hs : s.InForm) :
    (State.restartPoint s crew grp ps).InForm :=
  hs

theorem settlePick_inForm {x : Iss} {ix : Nat} {sets : List OSet} {p : Stop} (hs : s.InForm) : (settlePick s x ix sets p).InForm
    := by
  unfold settlePick
  split
  · rename_i hq
    exact settle_inForm hq hs
  · trivial
  · exact hs

theorem noteIssued_inForm {x : Iss} {ix : Nat} (hs : s.InForm) : (noteIssued s x ix).InForm := by
  unfold noteIssued
  split
  · exact hs
  · exact hs

theorem issueNext.issueGroup_inForm {crew grp : Nat} (hs : s.InForm) : (issueNext.issueGroup s crew grp).InForm := by
  unfold issueNext.issueGroup
  split
  · exact State.exitEpisode_inForm hs
  split
  · exact raiseCause_inForm (Iss.put_inForm hs)
  split
  · exact settlePick_inForm hs
  dsimp only
  split
  · exact settlePick_inForm (Iss.put_inForm hs)
  split
  · exact raiseFrom_inForm (Iss.put_inForm hs)
  · exact noteIssued_inForm (Iss.put_inForm hs)

theorem issueNext_inForm {crew grp : Nat} (hs : s.InForm) : (issueNext s crew grp).InForm := by
  unfold issueNext
  split
  · split
    · exact State.leaveEpisode_inForm hs
    · exact issueNext.issueGroup_inForm (State.enterEpisode_inForm hs)
  · exact issueNext.issueGroup_inForm hs

/-! ## Translate -/

theorem modL2_inForm {vf : Nat} {pa : Nat} {f : L2Line → L2Line} (hs : s.InForm) : (modL2 s vf pa f).InForm := hs

theorem memPut_inForm {vf : Nat} {pa : Nat} {b : Byte} (hs : s.InForm) : (memPut s vf pa b).InForm := by
  unfold memPut
  split
  · exact modL2_inForm hs
  · exact hs.setHbm (Memory.wf_write _ _ _ hs.hbm)

theorem memPuts_inForm {vf : Nat} {pa : Nat} {bs : List Byte} (hs : s.InForm) : (memPuts s vf pa bs).InForm := by
  induction bs generalizing s pa with
  | nil => exact hs
  | cons b rest ih => exact ih (memPut_inForm hs)

theorem tlbFill_inForm {core : Nat} {x2 : TlbEntry} (hs : s.InForm) : (tlbFill s core x2).InForm := hs

theorem orEntry_inForm {vf : Nat} {a : Nat} {bits : Nat} (hs : s.InForm) : (orEntry s vf a bits).InForm := memPut_inForm hs

theorem touchLeaves_inForm {vf : Nat} {x2 : TlbEntry} {bits : Nat} (hs : s.InForm) : (touchLeaves s vf x2 bits).InForm := by
  grind [touchLeaves, orEntry_inForm]

theorem touchFrame_inForm {pa : Nat} (hs : s.InForm) : (touchFrame s pa).InForm := hs

theorem touchMissed_inForm {vf : Nat} {pa : Nat} (hs : s.InForm) : (touchMissed s vf pa).InForm := by
  unfold touchMissed
  split
  · exact hs
  · exact hs

theorem noteEntry_inForm {x1 : WalkEntry} (hs : s.InForm) : (noteEntry s x1).InForm := by
  grind [noteEntry, touchMissed_inForm, State.inForm_iff]

theorem noteWalk_inForm {vf : Nat} {proc : Nat} {va : Nat} (hs : s.InForm) : (noteWalk s vf proc va).InForm := by
  grind [noteWalk, noteEntry_inForm, foldl_inForm]

theorem takeEntry_inForm {core : Nat} {x2 : TlbEntry} {write : Bool} {demand : Bool} (hs : s.InForm) :
    (takeEntry s core x2 write demand).InForm := by
  grind [takeEntry, touchFrame_inForm, tlbFill_inForm, touchLeaves_inForm]

theorem translate_inForm {core : Nat} {vf : Nat} {proc : Nat} {va : Nat} {write : Bool} {demand : Bool} {u : TlbEntry}
    (e : translate s core vf proc va write demand = .ok (u, t)) (hs : s.InForm) : t.InForm := by
  grind [translate, takeEntry_inForm, noteWalk_inForm]

theorem placeOf_inForm {core : Nat} {g : Grid} {va : Nat} {need : Nat} {demand : Bool} {u : Place}
    (e : placeOf s core g va need demand = .ok (u, t)) (hs : s.InForm) : t.InForm := by
  grind [placeOf, → translate_inForm]

/-! ## Fabric -/

theorem gateCheck_inForm {gate : Nat} {len : Nat} {y : OSet} {d : GDest} (e : gateCheck s gate len y d = some t) (hs : s.InForm)
    : t.InForm := by
  grind [gateCheck, State.inForm_iff]

theorem queueFrame_inForm {p : Nat} {m : Sent} (hs : s.InForm) : (queueFrame s p m).InForm := hs

theorem sendFrame_inForm {dev : Nat} {vf : Nat} {x3 : Bool} {gated : Option (Nat × OSet)} {body : FrameBody}
    (e : sendFrame s dev vf x3 gated body = .ok t) (hs : s.InForm) : t.InForm := by
  unfold sendFrame at e
  split at e
  all_goals grind [queueFrame_inForm, countN_inForm, gateCheck_inForm, State.inForm_iff]

theorem departFrame_inForm {p : Nat} (hs : s.InForm) : (departFrame s p).InForm := by
  grind [departFrame, State.inForm_iff]

theorem takeTracker_inForm {x1 : Tracker} {u : Nat} (e : takeTracker s x1 = .ok (u, t)) (hs : s.InForm) : t.InForm := by
  grind [takeTracker, State.inForm_iff]

theorem request_inForm {dev : Nat} {vf : Nat} {x3 : Bool} {x4 : Tracker} {gated : Option (Nat × OSet)} {body : Nat → FrameBody}
    (e : request s dev vf x3 x4 gated body = .ok t) (hs : s.InForm) : t.InForm := by
  unfold request at e
  split at e
  · cases e
  rename_i hq
  split at e
  · cases e
  · rename_i hf
    have ht := sendFrame_inForm hf (takeTracker_inForm hq hs)
    cases e
    exact ht

theorem requestMore_inForm {i : Nat} {x2 : Tracker} {x3 : Bool} {gated : Option (Nat × OSet)} {body : Nat → FrameBody}
    (e : requestMore s i x2 x3 gated body = .ok t) (hs : s.InForm) : t.InForm := by
  unfold requestMore at e
  split at e
  · cases e
  · rename_i hq
    have ht := sendFrame_inForm hq hs
    cases e
    exact ht

/-! ## Memory -/

theorem cleanLine_inForm {core : Nat} {key : Nat} (hs : s.InForm) : (cleanLine s core key).InForm := by
  grind [cleanLine, State.modCore_inForm, State.inForm_iff]

theorem dropLine_inForm {core : Nat} {key : Nat} (hs : s.InForm) : (dropLine s core key).InForm := cleanLine_inForm hs

theorem l1Room_inForm {core : Nat} {key : Nat} (hs : s.InForm) : (l1Room s core key).InForm := by
  grind [l1Room, dropLine_inForm]

theorem haveLine_inForm {core : Nat} {key : Nat} {vf : Nat} {x4 : Bool} {pcls : Nat} {policy : Nat} (hs : s.InForm) :
    (haveLine s core key vf x4 pcls policy).InForm := by
  grind [haveLine, State.modCore_inForm, l1Room_inForm]

theorem dropOthers_inForm {core : Nat} {key : Nat} (hs : s.InForm) : (dropOthers s core key).InForm := by
  grind [dropOthers, State.modCore_inForm, foldl_inForm]

theorem l1Store_inForm {core : Nat} {vf : Nat} {x3 : Bool} {pcls : Nat} {policy : Nat} {dev : Nat} {pa : Nat} {bs : List Byte}
    {set : OSet} {noL2 : Bool} {last : FRec} (hs : s.InForm) : (l1Store s core vf x3 pcls policy dev pa bs set noL2 last).InForm
    := by
  grind [l1Store, haveLine_inForm, dropOthers_inForm, State.modCore_inForm]

theorem recallLine_inForm {die : Nat} {key : Nat} (hs : s.InForm) : (recallLine s die key).InForm := by
  grind [recallLine, dropLine_inForm, foldl_inForm]

theorem cleanDie_inForm {die : Nat} {dom : Bool} (hs : s.InForm) : (cleanDie s die dom).InForm := by
  grind [cleanDie, cleanLine_inForm, foldl_inForm]

theorem acquireAct_inForm {die : Nat} {sc : Scope} (hs : s.InForm) : (acquireAct s die sc).InForm := by
  unfold acquireAct
  split
  all_goals grind [State.modCore_inForm, foldl_inForm]

theorem outdateLine_inForm {dies : List Nat} {key : Nat} (hs : s.InForm) : (outdateLine s dies key).InForm := by
  grind [outdateLine, State.modCore_inForm, recallLine_inForm, foldl_inForm]

theorem countSpill_inForm {k : Nat} {vf : Nat} {l : L2Line} (hs : s.InForm) : (countSpill s k vf l).InForm := by
  grind [countSpill, countEvent_inForm, countN_inForm]

theorem queueHbm_inForm {k : Nat} {line : Nat} {vf : Nat} {x4 : Bool} {write : Bool} (hs : s.InForm) :
    (queueHbm s k line vf x4 write).InForm :=
  hs

theorem spillLine_inForm {k : Nat} {vf : Nat} {l : L2Line} (hs : s.InForm) : (spillLine s k vf l).InForm := by
  unfold spillLine
  split
  · exact hs
  split
  · exact hs
  · exact (queueHbm_inForm (countSpill_inForm hs)).setHbm (Memory.wf_foldl_write (queueHbm_inForm (countSpill_inForm hs)).hbm)

theorem l2Alloc_inForm {vf : Nat} {pa : Nat} {x3 : Bool} {pcls : Nat} (e : l2Alloc s vf pa x3 pcls = some t) (hs : s.InForm) :
    t.InForm := by
  grind [l2Alloc, spillLine_inForm, State.inForm_iff]

theorem touchL2_inForm {vf : Nat} {pa : Nat} (hs : s.InForm) : (touchL2 s vf pa).InForm := by
  unfold touchL2
  split
  · exact hs
  · exact hs

theorem l2Merge_inForm {w : WriteBack} (hs : s.InForm) : (l2Merge s w).InForm := by
  grind [l2Merge, l2Alloc_inForm, queueHbm_inForm, countEvent_inForm, touchL2_inForm, memPut_inForm, foldl_inForm]

theorem joinGranule_inForm {dev : Nat} {pa : Nat} {mixed : Bool} {pageSet : OSet} {set : OSet}
    (e : joinGranule s dev pa mixed pageSet set = .ok t) (hs : s.InForm) : t.InForm := by
  grind [joinGranule, State.inForm_iff]

theorem sideWrite_inForm {vf : Nat} {pa : Nat} {bs : List Byte} (hs : s.InForm) : (sideWrite s vf pa bs).InForm :=
  memPuts_inForm hs

/-! ## Spaces -/

theorem modUnit_inForm {crew : Nat} {sp : TSpace} {x3 : Nat} {f : TUnit → TUnit} (hs : s.InForm) :
    (modUnit s crew sp x3 f).InForm := by
  grind [modUnit, State.modCrew_inForm, State.inForm_iff]

theorem putTyped_inForm {crew : Nat} {sp : TSpace} {a : Nat} {x : Byte} (hs : s.InForm) : (putTyped s crew sp a x).InForm := by
  grind [putTyped, modUnit_inForm]

theorem putTypeds_inForm {crew : Nat} {sp : TSpace} {a : Nat} {bs : List Byte} (hs : s.InForm) :
    (putTypeds s crew sp a bs).InForm := by
  induction bs generalizing s a with
  | nil => exact hs
  | cons b rest ih => exact ih (putTyped_inForm hs)

theorem joinUnit_inForm {crew : Nat} {sp : TSpace} {x3 : Nat} {set : OSet} (e : joinUnit s crew sp x3 set = .ok t)
    (hs : s.InForm) : t.InForm := by
  grind [joinUnit, modUnit_inForm, State.inForm_iff]

/-! ## Engines -/

theorem State.since_inForm {seq : Nat} (hs : s.InForm) : (State.since s seq).InForm := hs

/-! ## Access -/

theorem noteUnrecorded_inForm {vf : Nat} {g : Grid} {crewIx : Nat} {va : Nat} (hs : s.InForm) :
    (noteUnrecorded s vf g crewIx va).InForm := by
  unfold noteUnrecorded
  split
  · exact hs
  · exact hs

theorem genericOne_inForm {x : Iss} {n : Nat} {need : Nat} {pcls : Nat} {set : Option OSet} {w : Want} {u : Acc}
    (e : genericOne s x n need pcls set w = .ok (u, t)) (hs : s.InForm) : t.InForm := by
  grind [genericOne, → placeOf_inForm]

theorem genericAll_inForm {x : Iss} {n : Nat} {need : Nat} {pcls : Nat} {set : Option OSet} {ws : List Want} {u : List Acc}
    (e : genericAll s x n need pcls set ws = .ok (u, t)) (hs : s.InForm) : t.InForm := by
  unfold genericAll at e
  dsimp only at e
  split at e
  · cases e
    refine List.foldlRecOn (motive := fun p : List Acc × List Bad × State => p.2.2.InForm) _ _ hs fun p hp w _ => ?_
    split
    · rename_i hq
      exact noteUnrecorded_inForm (genericOne_inForm hq hp)
    · exact hp
  · cases e

theorem checkAll_inForm {x : Iss} {sp : Space} {win : Bool} {n : Nat} {need : Nat} {pcls : Nat} {set : Option OSet}
    {ws : List Want} {u : List Acc} (e : checkAll s x sp win n need pcls set ws = .ok (u, t)) (hs : s.InForm) : t.InForm := by
  grind [checkAll, → genericAll_inForm]

theorem sendL2_inForm {x1 : L2Req} (hs : s.InForm) : (sendL2 s x1).InForm := hs

theorem askPeer_inForm {core : Nat} {vf : Nat} {x3 : Bool} {op : Option Nat} {key : Nat}
    (e : askPeer s core vf x3 op key = .ok t) (hs : s.InForm) : t.InForm :=
  request_inForm e hs

theorem missLine_inForm {core : Nat} {vf : Nat} {x3 : Bool} {pcls : Nat} {c : CacheP} {key : Nat}
    (e : missLine s core vf x3 pcls c key = .ok t) (hs : s.InForm) : t.InForm := by
  grind [missLine, countEvent_inForm, State.modCore_inForm, sendL2_inForm, askPeer_inForm]

theorem startMisses_inForm {core : Nat} {vf : Nat} {x3 : Bool} {c : CacheP} {as : List Acc}
    (e : startMisses s core vf x3 c as = .ok t) (hs : s.InForm) : t.InForm := by
  grind [startMisses, missLine_inForm, foldE_inForm]

theorem touchHits_inForm {core : Nat} {c : CacheP} {as : List Acc} (hs : s.InForm) : (touchHits s core c as).InForm := by
  grind [touchHits, State.modCore_inForm, foldl_inForm]

theorem sendDue_inForm {core : Nat} {vf : Nat} {x3 : Bool} {c : CacheP} {why : Nat → ReqFor} {as : List Acc} (hs : s.InForm) :
    (sendDue s core vf x3 c why as).InForm := by
  grind [sendDue, sendL2_inForm, foldl_inForm]

theorem addOp_inForm {o : Op} (hs : s.InForm) : (addOp s o).InForm := hs

/-! ## MemOps -/

theorem settleLoadStore_inForm {x : Iss} {sets : List OSet} {x3 : Stop} (e : settleLoadStore s x sets x3 = .next t)
    (hs : s.InForm) : t.InForm := by
  unfold settleLoadStore at e
  split at e
  all_goals grind [startEpisode_inForm, settle_inForm, State.inForm_iff]

theorem issueMem_inForm {g : Guard} {sets : Iss → List OSet} {body : Iss → Except Stop State}
    (e : issueMem s g sets body = .next t) (hs : s.InForm) (hb : ∀ x r, body x = .ok r → r.InForm) : t.InForm := by
  grind [issueMem, advance_inForm, settleLoadStore_inForm]

theorem putLoad_inForm {x : Iss} {k : OpKind} {c : CacheP} {o : Option Ord} {set : OSet} {as : List Acc}
    (e : putLoad s x k c o set as = .ok t) (hs : s.InForm) : t.InForm := by
  grind [putLoad, startMisses_inForm, touchHits_inForm, Iss.put_inForm, State.tickSeq_inForm, addOp_inForm]

theorem issueLoad_inForm {x : Iss} {k : OpKind} {sp : Space} {n : Nat} {c : CacheP} {o : Option Ord} {set : OSet}
    {ws : List Want} (e : issueLoad s x k sp n c o set ws = .ok t) (hs : s.InForm) : t.InForm := by
  unfold issueLoad at e
  split at e
  · cases e
  rename_i hq
  have hc := checkAll_inForm hq hs
  split at e
  · split at e
    · cases e
    split at e
    · cases e
    · exact putLoad_inForm e hc
  · exact putLoad_inForm e hc

theorem prefetchLine_inForm {core : Nat} {vf : Nat} {x3 : Bool} {c : CacheP} {pcls : Nat} {l2 : Bool} {key : Nat}
    (hs : s.InForm) : (prefetchLine s core vf x3 c pcls l2 key).InForm := by
  grind [prefetchLine, sendL2_inForm, missLine_inForm]

theorem aheadLane_inForm {x : Iss} {g : Group} {sp : Space} {n : Nat} {c : CacheP} {w : Want} (hs : s.InForm) :
    (aheadLane s x g sp n c w).2.1.InForm := by
  grind [aheadLane, → placeOf_inForm, prefetchLine_inForm, State.since_inForm]

theorem aheadLanes_inForm {x : Iss} {sp : Space} {n : Nat} {c : CacheP} {bad : Nat × Nat → Bool} {ws : List Want}
    (hs : s.InForm) : (aheadLanes s x sp n c bad ws).2.1.InForm := by
  refine List.foldlRecOn (motive := fun p : List ((Nat × Nat) × Option (List Byte × List OSet)) × State × Group => p.2.1.InForm)
    _ _ hs fun p hp w _ => ?_
  dsimp only
  split
  · exact hp
  · exact aheadLane_inForm hp

theorem aheadWrite_inForm {x : Iss} {d : Operand} {dn : Nat} {signed : Bool} {g : Guard}
    {vs : List ((Nat × Nat) × Option (List Byte × List OSet))} {set : OSet} (e : aheadWrite s x d dn signed g vs set = .ok t)
    (hs : s.InForm) : t.InForm := by
  grind [aheadWrite, Iss.put_inForm, State.inForm_iff]

theorem loadBody_inForm {sp : Space} {n : Nat} {signed : Bool} {c : CacheP} {o : Option Ord} {d : Operand} {dn : Nat}
    {a : Operand} {b : Operand} {g : Guard} {x : Iss} (e : loadBody s sp n signed c o d dn a b g x = .ok t) (hs : s.InForm) :
    t.InForm := by
  unfold loadBody at e
  split at e
  · exact noLanes_inForm e (idle_inForm hs)
  split at e
  · cases e
  split at e
  · cases e
  split at e
  · cases e
  dsimp only at e
  split at e
  · exact aheadWrite_inForm e (aheadLanes_inForm hs)
  · exact issueLoad_inForm e hs

theorem loadOp_inForm {sp : Space} {n : Nat} {signed : Bool} {c : CacheP} {o : Option Ord} {d : Operand} {dn : Nat}
    {a : Operand} {b : Operand} {g : Guard} (e : loadOp s sp n signed c o d dn a b g = .next t) (hs : s.InForm) : t.InForm := by
  grind [loadOp, issueMem_inForm, loadBody_inForm]

theorem execLd_inForm {sz : LdSize} {c : CacheP} {o : Option Ord} {d : Operand} {a : Operand} {b : Operand} {g : Guard}
    (e : execLd sz c o d a b g s = .next t) (hs : s.InForm) : t.InForm :=
  loadOp_inForm e hs

theorem execLds_inForm {sz : LdSize} {d : Operand} {a : Operand} {b : Operand} {g : Guard} (e : execLds sz d a b g s = .next t)
    (hs : s.InForm) : t.InForm :=
  loadOp_inForm e hs

theorem execLdt_inForm {sp : TSpace} {wide : Bool} {d : Operand} {a : Operand} {b : Operand} {g : Guard}
    (e : execLdt sp wide d a b g s = .next t) (hs : s.InForm) : t.InForm :=
  loadOp_inForm e hs

theorem ldkBody_inForm {sz : LdkSize} {c : CacheP} {d : Fin 30} {a : Operand} {b : Operand} {g : Guard} {x : Iss}
    (e : ldkBody s sz c d a b g x = .ok t) (hs : s.InForm) : t.InForm := by
  unfold ldkBody at e
  split at e
  · exact noLanes_inForm e (idle_inForm hs)
  split at e
  · cases e
  dsimp only at e
  split at e
  · exact aheadWrite_inForm e (aheadLanes_inForm hs)
  · exact issueLoad_inForm e hs

theorem execLdk_inForm {sz : LdkSize} {c : CacheP} {d : Fin 30} {a : Operand} {b : Operand} {g : Guard}
    (e : execLdk sz c d a b g s = .next t) (hs : s.InForm) : t.InForm := by
  grind [execLdk, issueMem_inForm, ldkBody_inForm]

theorem splitRegion_inForm {x : Iss} {x2 : Region} {u : Iss} (e : splitRegion s x x2 = .ok (t, u)) (hs : s.InForm) : t.InForm := by
  grind [splitRegion, → Iss.endRegion_inForm, State.inForm_iff]

theorem holdAll_inForm {x : Iss} {x2 : StoreEntry} {u : Iss} (e : holdAll s x x2 = .ok (t, u)) (hs : s.InForm) : t.InForm := by
  refine foldE_keeps (P := fun a : State × Iss => a.1.InForm) (fun a q b hb ha => ?_) e hs
  dsimp only at hb
  split at hb
  · cases hb
    exact ha
  split at hb
  · cases hb
  · rename_i hq
    cases hb
    split at hq
    · exact splitRegion_inForm hq ha
    · cases hq
      exact ha

theorem putStore_inForm {x : Iss} {x2 : StoreEntry} (e : putStore s x x2 = .ok t) (hs : s.InForm) : t.InForm := by
  grind [putStore, → holdAll_inForm, → enqueueStores_inForm, Iss.put_inForm, State.tickSeq_inForm]

theorem storeBody_inForm {sp : Space} {n : Nat} {c : CacheP} {o : Option Ord} {d : Operand} {dn : Nat} {a : Operand}
    {b : Operand} {g : Guard} {x : Iss} (e : storeBody s sp n c o d dn a b g x = .ok t) (hs : s.InForm) : t.InForm := by
  unfold storeBody at e
  split at e
  · exact noLanes_inForm e hs
  split at e
  · cases e
  split at e
  · cases e
    exact hs
  split at e
  · cases e
  split at e
  · cases e
  · rename_i hq
    exact putStore_inForm e (checkAll_inForm hq hs)

theorem storeOp_inForm {sp : Space} {n : Nat} {c : CacheP} {o : Option Ord} {d : Operand} {dn : Nat} {a : Operand} {b : Operand}
    {g : Guard} (e : storeOp s sp n c o d dn a b g = .next t) (hs : s.InForm) : t.InForm := by
  grind [storeOp, issueMem_inForm, storeBody_inForm]

theorem execSt_inForm {sz : StSize} {c : CacheP} {o : Option Ord} {d : Operand} {a : Operand} {b : Operand} {g : Guard}
    (e : execSt sz c o d a b g s = .next t) (hs : s.InForm) : t.InForm :=
  storeOp_inForm e hs

theorem execSts_inForm {sz : StSize} {d : Operand} {a : Operand} {b : Operand} {g : Guard} (e : execSts sz d a b g s = .next t)
    (hs : s.InForm) : t.InForm :=
  storeOp_inForm e hs

theorem execStt_inForm {sp : TSpace} {wide : Bool} {d : Operand} {a : Operand} {b : Operand} {g : Guard}
    (e : execStt sp wide d a b g s = .next t) (hs : s.InForm) : t.InForm :=
  storeOp_inForm e hs

theorem prefLane_inForm {x : Iss} {l2 : Bool} {c : CacheP} {addr : Nat} (hs : s.InForm) : (prefLane s x l2 c addr).InForm := by
  grind [prefLane, → placeOf_inForm, prefetchLine_inForm]

theorem execPref_inForm {lvl : Fin 2} {c : CacheP} {a : Operand} {b : Operand} {g : Guard}
    (e : execPref lvl c a b g s = .next t) (hs : s.InForm) : t.InForm := by
  grind [execPref, issueOp_inForm, prefLane_inForm, foldl_inForm]

/-! ## Commit -/

theorem stayAt_inForm {cu : Cur} {w : Wait} (hs : s.InForm) : (stayAt s cu w).InForm := hs

theorem commitOp_inForm {g : Guard} {sets : Iss → List OSet} {check : Iss → Except Stop Unit}
    {body : Iss → Iss → State → Except Stop Done} (e : commitOp s g sets check body = .next t) (hs : s.InForm)
    (hb : ∀ x y s t w, s.InForm → body x y s = .ok (t, w) → t.InForm) : t.InForm := by
  unfold commitOp at e
  split at e
  all_goals grind [State.leaveEpisode_inForm, settle_inForm, → Iss.endRegion_inForm, stayAt_inForm, Iss.put_inForm,
    advance_inForm]

theorem commitPast_inForm {r : Except Stop State} {w : Option Wait} (e : commitPast r = .ok (t, w))
    (h : ∀ t, r = .ok t → t.InForm) : t.InForm := by
  unfold commitPast at e
  split at e
  all_goals grind []

theorem startFlush_inForm {die : Nat} {dom : Bool} (hs : s.InForm) : (startFlush s die dom).1.InForm := cleanDie_inForm hs

theorem release_inForm {y : Iss} {sc : Scope} (e : release s y sc = .inl t) (hs : s.InForm) : t.InForm := by
  grind [release, startFlush_inForm]

theorem release_inr_inForm {y : Iss} {sc : Scope} {w : Wait} (e : release s y sc = .inr (t, w)) (hs : s.InForm) : t.InForm := by
  grind [release, startFlush_inForm]

theorem released_inForm {y : Iss} {sc : Scope} {act : State → Except Stop Done} {w : Option Wait}
    (e : released s y sc act = .ok (t, w)) (hs : s.InForm) (ha : ∀ s t w, s.InForm → act s = .ok (t, w) → t.InForm) : t.InForm
    := by
  grind [released, release_inForm, → release_inr_inForm, Iss.put_inForm]

theorem acquired_inForm {y : Iss} {sc : Scope} {act : State → Except Stop Done} {w : Option Wait}
    (e : acquired s y sc act = .ok (t, w)) (hs : s.InForm) (ha : ∀ s t w, s.InForm → act s = .ok (t, w) → t.InForm) : t.InForm
    := by
  grind [acquired, acquireAct_inForm]

/-! ## Atomics -/

theorem askSlices_inForm {x : Iss} {n : Nat} {as : List Acc} {ks : List Nat} (hs : s.InForm) : (askSlices s x n as ks).InForm := by
  grind [askSlices, sendL2_inForm, foldl_inForm]

theorem putRmw_inForm {x : Iss} {y : Iss} {k : OpKind} {flag : Option Nat} {o : Option Ord} {dflt : Scope} {set : OSet}
    {as : List Acc} (e : putRmw s x y k flag o dflt set as = .ok t) (hs : s.InForm) : t.InForm := by
  grind [putRmw, startMisses_inForm, Iss.put_inForm, State.tickSeq_inForm, addOp_inForm, askSlices_inForm]

theorem rmwBody_inForm {sp : Space} {op : RmwOp} {o : Option Ord} {dflt : Scope} {red : Bool} {d : Operand} {a : Operand}
    {b : Operand} {g : Guard} {x : Iss} {y : Iss} {u : Option Wait} (e : rmwBody sp op o dflt red d a b g x y s = .ok (t, u))
    (hs : s.InForm) : t.InForm := by
  unfold rmwBody at e
  dsimp only at e
  split at e
  · exact commitPast_inForm e fun t ht => noLanes_inForm ht (Iss.put_inForm hs)
  split at e
  · cases e
  split at e
  · cases e
  · rename_i hq
    exact commitPast_inForm e fun t ht => putRmw_inForm ht (checkAll_inForm hq hs)

theorem execAtom_inForm {op : RmwOp} {o : Option Ord} {d : Operand} {a : Operand} {b : Operand} {g : Guard}
    (e : execAtom op o d a b g s = .next t) (hs : s.InForm) : t.InForm := by
  grind [execAtom, commitOp_inForm, → rmwBody_inForm]

theorem execRed_inForm {op : RmwOp} {o : Option Ord} {a : Operand} {b : Operand} {g : Guard}
    (e : execRed op o a b g s = .next t) (hs : s.InForm) : t.InForm := by
  grind [execRed, commitOp_inForm, → rmwBody_inForm]

theorem execAtoms_inForm {op : RmwOp} {o : Option Ord} {d : Operand} {a : Operand} {b : Operand} {g : Guard}
    (e : execAtoms op o d a b g s = .next t) (hs : s.InForm) : t.InForm := by
  grind [execAtoms, commitOp_inForm, → rmwBody_inForm]

theorem fenceBody_inForm {sc : Scope} {sem : Sem} {y : Iss} {u : Option Wait} (e : fenceBody sc sem y s = .ok (t, u))
    (hs : s.InForm) : t.InForm := by
  have ha : ∀ s t w, State.InForm s →
      (if semAcq sem then acquired s y sc fun s => .ok (y.put s, none) else .ok (y.put s, none)) = .ok (t, w) → t.InForm := by
    intro s t w hs hd
    split at hd
    · exact acquired_inForm hd hs fun s t w hs hd => by cases hd; exact Iss.put_inForm hs
    · cases hd
      exact Iss.put_inForm hs
  unfold fenceBody at e
  dsimp only at e
  split at e
  · exact released_inForm e hs ha
  · exact ha _ _ _ hs e

theorem execFence_inForm {sc : Scope} {sem : Sem} {g : Guard} (e : execFence sc sem g s = .next t) (hs : s.InForm) : t.InForm := by
  grind [execFence, commitOp_inForm, → fenceBody_inForm]

theorem cmaintAct_inForm {core : Nat} {act : CmAction} {dom : Bool} (hs : s.InForm) : (cmaintAct s core act dom).InForm := by
  unfold cmaintAct
  split
  all_goals grind [cleanLine_inForm, dropLine_inForm, foldl_inForm]

theorem cmaintBody_inForm {act : CmAction} {sc : Scope} {x : Iss} (e : cmaintBody s act sc x = .ok t) (hs : s.InForm) : t.InForm
    := by
  grind [cmaintBody, cmaintAct_inForm, Iss.put_inForm, State.tickSeq_inForm, addOp_inForm]

theorem execCmaint_inForm {act : CmAction} {sc : Scope} {g : Guard} (e : execCmaint act sc g s = .next t) (hs : s.InForm) :
    t.InForm := by
  grind [execCmaint, issueOp_inForm, cmaintBody_inForm]

theorem barpaBody_inForm {d : Operand} {a : Operand} {b : Operand} {g : Guard} {x : Iss} {y : Iss} {u : Option Wait}
    (e : barpaBody d a b g x y s = .ok (t, u)) (hs : s.InForm) : t.InForm := by
  unfold barpaBody at e
  repeat' split at e
  all_goals grind [→ commitPast_inForm, noLanes_inForm, Iss.put_inForm, → placeOf_inForm, State.since_inForm,
    State.tickSeq_inForm, addOp_inForm, State.inForm_iff]

theorem execBarpa_inForm {d : Operand} {a : Operand} {b : Operand} {g : Guard} (e : execBarpa d a b g s = .next t)
    (hs : s.InForm) : t.InForm := by
  grind [execBarpa, commitOp_inForm, → barpaBody_inForm]

theorem barpwBody_inForm {d : Operand} {a : Operand} {b : Operand} {x : Iss} {y : Iss} {u : Option Wait}
    (e : barpwBody d a b x y s = .ok (t, u)) (hs : s.InForm) : t.InForm := by
  grind [barpwBody, Iss.put_inForm, → placeOf_inForm, State.since_inForm]

theorem execBarpw_inForm {d : Operand} {a : Operand} {b : Operand} {g : Guard} (e : execBarpw d a b g s = .next t)
    (hs : s.InForm) : t.InForm := by
  grind [execBarpw, commitOp_inForm, → barpwBody_inForm]

/-! ## Code -/

theorem codeWord_inForm {core : Nat} {g : Grid} {va : Nat} {demand : Bool} {u : Word}
    (e : codeWord s core g va demand = .ok (u, t)) (hs : s.InForm) : t.InForm := by
  grind [codeWord, → placeOf_inForm, touchMissed_inForm, missLine_inForm]

theorem codeWord_error_inForm {core : Nat} {g : Grid} {va : Nat} {demand : Bool} {h : NoCode}
    (e : codeWord s core g va demand = .error h) (hs : s.InForm) : h.InForm := by
  unfold codeWord at e
  split at e
  · cases e
    trivial
  rename_i hq
  have hp := placeOf_inForm hq hs
  split at e
  · split at e
    · cases e
      trivial
    · cases e
  dsimp only at e
  split at e
  · split at e
    · cases e
    · cases e
      exact hp
  split at e
  · cases e
    trivial
  split at e
  · rename_i hm
    cases e
    exact missLine_inForm hm hp
  · cases e
    exact hp

theorem codeWords_inForm {core : Nat} {g : Grid} {va : Nat} {n : Nat} {demand : Bool} {u : List Word}
    (e : codeWords s core g va n demand = .ok (u, t)) (hs : s.InForm) : t.InForm := by
  induction n generalizing s va u t with
  | zero =>
    cases e
    exact hs
  | succ n ih =>
    unfold codeWords at e
    split at e
    · cases e
    rename_i h1
    split at e
    · cases e
    · rename_i h2
      cases e
      exact ih h2 (codeWord_inForm h1 hs)

theorem codeWords_error_inForm {core : Nat} {g : Grid} {va : Nat} {n : Nat} {demand : Bool} {h : NoCode}
    (e : codeWords s core g va n demand = .error h) (hs : s.InForm) : h.InForm := by
  induction n generalizing s va h with
  | zero => cases e
  | succ n ih =>
    unfold codeWords at e
    split at e
    · rename_i h1
      cases e
      exact codeWord_error_inForm h1 hs
    rename_i h1
    split at e
    · rename_i h2
      cases e
      exact ih h2 (codeWord_inForm h1 hs)
    · cases e

theorem codeClause_inForm {core : Nat} {g : Grid} {addr : Nat} {demand : Bool} {u : Word} {v1 : List Word}
    (e : codeClause s core g addr demand = .ok (u, v1, t)) (hs : s.InForm) : t.InForm := by
  grind [codeClause, → codeWord_inForm, codeWord_error_inForm, → codeWords_inForm, codeWords_error_inForm]

theorem codeClause_error_inForm {core : Nat} {g : Grid} {addr : Nat} {demand : Bool} {h : NoCode}
    (e : codeClause s core g addr demand = .error h) (hs : s.InForm) : h.InForm := by
  grind [codeClause, → codeWord_inForm, codeWord_error_inForm, → codeWords_inForm, codeWords_error_inForm]

/-! ## Grids -/

theorem State.modQueue_inForm {vf : Nat} {q : Nat} {f : Queue → Queue} (hs : s.InForm) : (State.modQueue s vf q f).InForm := hs

theorem State.modCmd_inForm {vf : Nat} {q : Nat} {n : Nat} {f : Cmd → Cmd} (hs : s.InForm) : (State.modCmd s vf q n f).InForm :=
  hs

theorem finishCmd_inForm {vf : Nat} {q : Nat} {n : Nat} {x4 : Status} {c : Option Cause} (hs : s.InForm) :
    (finishCmd s vf q n x4 c).InForm :=
  hs

theorem ackCmd_inForm {k : Nat × Nat × Nat} (hs : s.InForm) : (ackCmd s k).InForm := by
  grind [ackCmd, finishCmd_inForm]

theorem failCmd_inForm {k : Nat × Nat × Nat} {c : Cause} (hs : s.InForm) : (failCmd s k c).InForm := by
  unfold failCmd
  split
  · exact hs
  · exact hs

theorem State.noteFound_inForm {fs : List Found} (hs : s.InForm) : (State.noteFound s fs).InForm := hs

theorem bdPage_inForm {vf : Nat} {proc : Nat} {va : Nat} {write : Bool} {u : TlbEntry}
    (e : bdPage s vf proc va write = .ok (u, t)) (hs : s.InForm) : t.InForm := by
  grind [bdPage, touchLeaves_inForm, noteWalk_inForm, touchFrame_inForm]

theorem bdPlace_inForm {vf : Nat} {proc : Nat} {va : Nat} {write : Bool} {u : TlbEntry}
    (e : bdPlace s vf proc va write = .ok (u, t)) (hs : s.InForm) : t.InForm := by
  grind [bdPlace, → bdPage_inForm]

theorem bdRead_inForm {fuel : Nat} {vf : Nat} {proc : Nat} {va : Nat} {n : Nat} {u : List Byte} {v1 : List OSet}
    (e : bdRead fuel s vf proc va n = .ok (u, v1, t)) (hs : s.InForm) : t.InForm := by
  induction fuel generalizing s va n u v1 t with
  | zero =>
    cases e
    exact hs
  | succ fuel ih =>
    unfold bdRead at e
    split at e
    · cases e
      exact hs
    split at e
    · cases e
    rename_i hp
    dsimp only at e
    split at e
    · cases e
    split at e
    · cases e
    · rename_i hr
      cases e
      exact ih hr (touchMissed_inForm (bdPlace_inForm hp hs))

theorem bdBytes_inForm {vf : Nat} {proc : Nat} {va : Nat} {n : Nat} {u : List Byte} {v1 : List OSet}
    (e : bdBytes s vf proc va n = .ok (u, v1, t)) (hs : s.InForm) : t.InForm :=
  bdRead_inForm e hs

theorem bdWrite_inForm {vf : Nat} {proc : Nat} {va : Nat} {bs : List Byte} {set : OSet}
    (e : bdWrite s vf proc va bs set = .ok t) (hs : s.InForm) : t.InForm := by
  grind [bdWrite, → bdPlace_inForm, joinGranule_inForm, sideWrite_inForm]

theorem pageExtent_inForm {vf : Nat} {proc : Nat} {x3 : Range} {va : Nat} {u : Extent}
    (e : pageExtent s vf proc x3 va = some (u, t)) (hs : s.InForm) : t.InForm := by
  grind [pageExtent, touchLeaves_inForm, noteWalk_inForm, touchFrame_inForm]

theorem rangeExtents_inForm {vf : Nat} {proc : Nat} {x3 : Range} {i : Nat} {n : Nat} {es : List Extent} {u : List Extent}
    (e : rangeExtents s vf proc x3 i n es = some (u, t)) (hs : s.InForm) : t.InForm := by
  induction n generalizing s i es with
  | zero =>
    cases e
    exact hs
  | succ n ih =>
    unfold rangeExtents at e
    split at e
    · cases e
    · rename_i hp
      exact ih e (pageExtent_inForm hp hs)

theorem buildExtents_inForm {vf : Nat} {proc : Nat} {rs : List Range} {u : List Extent}
    (e : buildExtents s vf proc rs = some (u, t)) (hs : s.InForm) : t.InForm := by
  have hr : ∀ es t, rs.foldl (fun (a : Option (List Extent × State)) r => a.bind fun q => rangeExtents q.2 vf proc r 0 r.pages q.1)
      (some ([], s)) = some (es, t) → t.InForm := by
    refine List.foldlRecOn (motive := fun o : Option (List Extent × State) => ∀ es t, o = some (es, t) → t.InForm) rs _
      (fun es t e => ?_) (fun o ho r _ es t e => ?_)
    · cases e
      exact hs
    · cases o with
      | none => cases e
      | some q => exact rangeExtents_inForm e (ho q.1 q.2 rfl)
  unfold buildExtents at e
  split at e
  · rename_i hq
    split at e
    · cases e
      exact hr _ _ hq
    · cases e
  · cases e

theorem pinFrames_inForm {add : Bool} {fs : List Nat} (hs : s.InForm) : (pinFrames s add fs).InForm := hs

theorem readCount_inForm {g : Grid} {u : Grid} (e : readCount s g = .ok (u, t)) (hs : s.InForm) : t.InForm := by
  grind [readCount, → bdBytes_inForm]

theorem readRings_inForm {g : Grid} {u : Grid} (e : readRings s g = .ok (u, t)) (hs : s.InForm) : t.InForm := by
  grind [readRings, → bdBytes_inForm]

theorem readRanges_inForm {g : Grid} {u : Grid} (e : readRanges s g = .ok (u, t)) (hs : s.InForm) : t.InForm := by
  grind [readRanges, → bdBytes_inForm, → buildExtents_inForm, pinFrames_inForm]

theorem readParams_inForm {g : Grid} {u : Grid} (e : readParams s g = .ok (u, t)) (hs : s.InForm) : t.InForm := by
  grind [readParams, → bdBytes_inForm]

theorem beginGrid_inForm {gid : Nat} (hs : s.InForm) : (beginGrid s gid).InForm := by
  unfold beginGrid
  split
  all_goals grind [State.modGrid_inForm, State.noteFound_inForm, → readCount_inForm, → readRings_inForm, →
    readRanges_inForm, → readParams_inForm]

theorem writeRecord_inForm {gid : Nat} {g : Grid} (hs : s.InForm) : (writeRecord s gid g).InForm := by
  grind [writeRecord, bdWrite_inForm, State.toHypervisor_inForm, State.noteFound_inForm]

theorem completeGrid_inForm {gid : Nat} (hs : s.InForm) : (completeGrid s gid).InForm := by
  grind [completeGrid, pinFrames_inForm, writeRecord_inForm, State.modGrid_inForm, State.modCrew_inForm, State.inForm_iff]

/-! ## Branch -/

theorem branchTo_inForm {x : Iss} {dest : Nat × Nat → Dword} {sets : List OSet} (e : branchTo s x dest sets = .ok t)
    (hs : s.InForm) : t.InForm := by
  grind [branchTo, Iss.put_inForm, countCore_inForm, State.modCrew_inForm, State.inForm_iff]

theorem branchOp_inForm {g : Guard} {sets : Iss → List OSet} {body : Iss → Except Stop State}
    (e : branchOp s g sets body = .next t) (hs : s.InForm) (hb : ∀ x r, body x = .ok r → r.InForm) : t.InForm := by
  grind [branchOp, finishIssue_inForm, freeBuffer_inForm, settle_inForm]

theorem execBra_inForm {off : BitVec 22} {g : Guard} (e : execBra off g s = .next t) (hs : s.InForm) : t.InForm := by
  grind [execBra, branchOp_inForm, branchTo_inForm]

theorem execBrau_inForm {off : BitVec 22} {g : Guard} (e : execBrau off g s = .next t) (hs : s.InForm) : t.InForm := by
  grind [execBrau, branchOp_inForm, branchTo_inForm]

theorem execBrx_inForm {a : Operand} {g : Guard} (e : execBrx a g s = .next t) (hs : s.InForm) : t.InForm := by
  grind [execBrx, branchOp_inForm, branchTo_inForm]

theorem endOutside_inForm {x : Iss} {u : Iss} (e : endOutside x s = .ok (u, t)) (hs : s.InForm) : t.InForm := by
  grind [endOutside, → Iss.endRegion_inForm]

theorem restartNext_inForm {x : Iss} (hs : s.InForm) : (restartNext s x).InForm := hs

theorem execCall_inForm {off : BitVec 22} {g : Guard} (e : execCall off g s = .next t) (hs : s.InForm) : t.InForm := by
  unfold execCall at e
  grind [branchOp_inForm, → endOutside_inForm, branchTo_inForm, restartNext_inForm]

theorem returnWords_inForm {x : Iss} {as : List Nat} {u : List (Word × Word)} (e : returnWords s x as = .ok (u, t))
    (hs : s.InForm) : t.InForm := by
  induction as generalizing s u t with
  | nil =>
    cases e
    exact hs
  | cons a rest ih =>
    unfold returnWords at e
    dsimp only at e
    split at e
    · cases e
    rename_i h1
    split at e
    · cases e
    rename_i h2
    split at e
    · cases e
    · rename_i h3
      cases e
      exact ih h3 (codeWord_inForm h2 (codeWord_inForm h1 hs))

theorem returnWords_error_inForm {x : Iss} {as : List Nat} {h : NoCode} (e : returnWords s x as = .error h) (hs : s.InForm) :
    h.InForm := by
  induction as generalizing s h with
  | nil => cases e
  | cons a rest ih =>
    unfold returnWords at e
    dsimp only at e
    split at e
    · rename_i h1
      cases e
      exact codeWord_error_inForm h1 hs
    rename_i h1
    split at e
    · rename_i h2
      cases e
      exact codeWord_error_inForm h2 (codeWord_inForm h1 hs)
    rename_i h2
    split at e
    · rename_i h3
      cases e
      exact ih h3 (codeWord_inForm h2 (codeWord_inForm h1 hs))
    · cases e

theorem returnAll_inForm {x : Iss} {ts : List (Nat × Nat)} {g : Guard} (e : returnAll s x ts g = .ok t) (hs : s.InForm) :
    t.InForm := by
  grind [returnAll, → endOutside_inForm, branchTo_inForm, restartNext_inForm]

theorem execRet_inForm {g : Guard} (e : execRet g s = .next t) (hs : s.InForm) : t.InForm := by
  unfold execRet at e
  split at e
  · cases e
  dsimp only at e
  split at e
  · rename_i hw
    exact settle_inForm e (returnWords_error_inForm hw hs)
  · exact settle_inForm e hs
  rename_i hw
  split at e
  · rename_i hr
    cases e
    split at hr
    · cases hr
    split at hr
    · cases hr
    · exact finishIssue_inForm (freeBuffer_inForm (returnAll_inForm hr (returnWords_inForm hw hs)))
  · exact settle_inForm e hs

theorem exitPosted_inForm {crew : Nat} (hs : s.InForm) : (exitPosted s crew).InForm := by
  grind [exitPosted, State.modCrew_inForm, State.modGrid_inForm, State.toDriver_inForm, foldl_inForm]

theorem execExit_inForm {g : Guard} (e : execExit g s = .next t) (hs : s.InForm) : t.InForm := by
  grind [execExit, State.leaveEpisode_inForm, → endOutside_inForm, settle_inForm, restartNext_inForm, advanceGroup_inForm,
    Iss.put_inForm, State.modCrew_inForm, freeFamily_inForm, finishIssue_inForm, exitPosted_inForm]

theorem execTrap_inForm {code : Fin 32} {g : Guard} (e : execTrap code g s = .next t) (hs : s.InForm) : t.InForm := by
  grind [execTrap, State.leaveEpisode_inForm, commitOp_inForm, Iss.put_inForm, → Iss.endRegion_inForm, settle_inForm,
    raiseCause_inForm]

theorem execBrk_inForm {g : Guard} (e : execBrk g s = .next t) (hs : s.InForm) : t.InForm := by
  grind [execBrk, State.leaveEpisode_inForm, advance_inForm, raiseCause_inForm]

theorem tretBody_inForm {retry : Bool} {x : Iss} (e : tretBody retry s x = .ok t) (hs : s.InForm) : t.InForm := by
  grind [tretBody, → Iss.endRegion_inForm, Iss.put_inForm, State.modCrew_inForm, State.inForm_iff]

theorem tretOp_inForm {retry : Bool} {g : Guard} (e : tretOp retry g s = .next t) (hs : s.InForm) : t.InForm := by
  grind [tretOp, State.leaveEpisode_inForm, raiseFrom_inForm, tretBody_inForm, finishIssue_inForm, freeBuffer_inForm,
    settle_inForm]

theorem execTretNext_inForm {g : Guard} (e : execTretNext g s = .next t) (hs : s.InForm) : t.InForm := tretOp_inForm e hs

theorem execTretRetry_inForm {g : Guard} (e : execTretRetry g s = .next t) (hs : s.InForm) : t.InForm := tretOp_inForm e hs

theorem openHead_inForm {x : Iss} {y : Iss} {m : RegionMap} {doubt : Bool} (e : openHead s x y m doubt = .ok t) (hs : s.InForm)
    : t.InForm := by
  grind [openHead, countCore_inForm, Iss.put_inForm, State.inForm_iff]

theorem headBody_inForm {restart : Bool} {base : Fin 32} {mask : Operand} {nra : Bool} {x : Iss}
    (e : headBody s restart base mask nra x = .ok t) (hs : s.InForm) : t.InForm := by
  grind [headBody, → Iss.endRegion_inForm, openHead_inForm]

theorem execRgn_inForm {base : Fin 32} {mask : Operand} {nra : Bool} {g : Guard} (e : execRgn base mask nra g s = .next t)
    (hs : s.InForm) : t.InForm := by
  grind [execRgn, issueOp_inForm, headBody_inForm]

theorem execRgnr_inForm {base : Fin 32} {mask : Operand} {nra : Bool} {g : Guard} (e : execRgnr base mask nra g s = .next t)
    (hs : s.InForm) : t.InForm := by
  grind [execRgnr, issueOp_inForm, headBody_inForm]

theorem execRgne_inForm {g : Guard} (e : execRgne g s = .next t) (hs : s.InForm) : t.InForm := by
  grind [execRgne, → endOutside_inForm, settle_inForm, finishIssue_inForm, restartNext_inForm, freeBuffer_inForm,
    advanceGroup_inForm, Iss.put_inForm]

theorem execNop_inForm {g : Guard} (e : execNop g s = .next t) (hs : s.InForm) : t.InForm := by
  grind [execNop, issueOp_inForm]

theorem execYield_inForm {g : Guard} (e : execYield g s = .next t) (hs : s.InForm) : t.InForm := by
  grind [execYield, issueOp_inForm]

/-! ## Streams -/

theorem closeChunk_inForm {vf : Nat} {j : Nat} (hs : s.InForm) : (closeChunk s vf j).InForm := by
  unfold closeChunk
  dsimp only
  split
  · exact hs
  · exact State.modVf_inForm (hs.setHost (Memory.wf_writeN _ _ _ hs.host))

theorem recordAccess_inForm {vf : Nat} {j : Nat} {who : Nat} (hs : s.InForm) : (recordAccess s vf j who).InForm := by
  grind [recordAccess, State.modVf_inForm, closeChunk_inForm]

theorem passGate_inForm {vf : Nat} {slice : Nat} {who : Nat} (e : passGate s vf slice who = some t) (hs : s.InForm) : t.InForm
    := by
  grind [passGate, recordAccess_inForm, State.modVf_inForm]

/-! ## Control -/

theorem execWaitf_inForm {flag : Fin 12} {thr : Fin 64} {g : Guard} (e : execWaitf flag thr g s = .next t) (hs : s.InForm) :
    t.InForm := by
  grind [execWaitf, advance_inForm, raiseCause_inForm, Iss.put_inForm, settle_inForm]

theorem barrierDone_inForm {y : Iss} {b : Nat} {ps : List (Nat × Nat)} {u : Option Wait} (e : barrierDone y b ps s = .ok (t, u))
    (hs : s.InForm) : t.InForm := by
  grind [barrierDone, → acquired_inForm, Iss.put_inForm]

theorem arriveBody_inForm {b : Nat} {drop : Bool} {x : Iss} {y : Iss} {u : Option Wait}
    (e : arriveBody b drop x y s = .ok (t, u)) (hs : s.InForm) : t.InForm := by
  grind [arriveBody, Iss.put_inForm, → released_inForm]

theorem syncBody_inForm {b : Nat} {x : Iss} {y : Iss} {u : Option Wait} (e : syncBody b x y s = .ok (t, u)) (hs : s.InForm) :
    t.InForm := by
  grind [syncBody, Iss.put_inForm, → barrierDone_inForm, → released_inForm]

theorem waitBody_inForm {b : Nat} {x : Iss} {y : Iss} {u : Option Wait} (e : waitBody b x y s = .ok (t, u)) (hs : s.InForm) :
    t.InForm := by
  grind [waitBody, Iss.put_inForm, → barrierDone_inForm]

theorem barrierOp_inForm {g : Guard} {body : Iss → Iss → State → Except Stop Done} (e : barrierOp g body s = .next t)
    (hs : s.InForm) (hb : ∀ x y s t w, s.InForm → body x y s = .ok (t, w) → t.InForm) : t.InForm := by
  grind [barrierOp, commitOp_inForm]

theorem execBars_inForm {b : Fin 16} {g : Guard} (e : execBars b g s = .next t) (hs : s.InForm) : t.InForm := by
  grind [execBars, barrierOp_inForm, → syncBody_inForm]

theorem execBara_inForm {b : Fin 16} {g : Guard} (e : execBara b g s = .next t) (hs : s.InForm) : t.InForm := by
  grind [execBara, barrierOp_inForm, → arriveBody_inForm]

theorem execBarw_inForm {b : Fin 16} {g : Guard} (e : execBarw b g s = .next t) (hs : s.InForm) : t.InForm := by
  grind [execBarw, barrierOp_inForm, → waitBody_inForm]

theorem execBard_inForm {b : Fin 16} {g : Guard} (e : execBard b g s = .next t) (hs : s.InForm) : t.InForm := by
  grind [execBard, barrierOp_inForm, → arriveBody_inForm]

theorem descAccs_inForm {x : Iss} {p : Nat × Nat} {va : Nat} {u : List Acc} (e : descAccs s x p va = .ok (u, t)) (hs : s.InForm)
    : t.InForm :=
  genericAll_inForm e hs

theorem gateDesc_inForm {vf : Nat} {as : List Acc} (e : gateDesc s vf as = some t) (hs : s.InForm) : t.InForm := by
  refine List.foldlRecOn (motive := fun o : Option State => ∀ t, o = some t → t.InForm) as _ (fun t e => ?_) (fun o ho a _ t e => ?_) t e
  · cases e
    exact hs
  · cases o with
    | none => cases e
    | some s =>
      have hs := ho s rfl
      dsimp only [Option.bind_some] at e
      split at e
      · exact passGate_inForm e hs
      · cases e
        exact hs

theorem acceptChild_inForm {y : Iss} {d : Desc} {hint : Nat} {set : OSet} (hs : s.InForm) :
    (acceptChild s y d hint set).1.InForm :=
  beginGrid_inForm hs

theorem launchGo_inForm {x : Iss} {y : Iss} {o : Operand} {d : Desc} {hint : Nat} {set : OSet} {u : Option Wait}
    (e : launchGo x y o d hint set s = .ok (t, u)) (hs : s.InForm) : t.InForm := by
  grind [launchGo, → released_inForm, Iss.put_inForm, acceptChild_inForm, State.inForm_iff]

theorem readDesc_inForm {x y : Iss} {l : Nat × Nat} {va : Nat} {u : List Byte × List OSet}
    (e : readDesc s x y l va = .ok (.inl (u, t))) (hs : s.InForm) : t.InForm := by
  grind [readDesc, → descAccs_inForm, startMisses_inForm, gateDesc_inForm, Iss.put_inForm]

theorem readDesc_inr_inForm {x y : Iss} {l : Nat × Nat} {va : Nat} {w : Wait} (e : readDesc s x y l va = .ok (.inr (t, w)))
    (hs : s.InForm) : t.InForm := by
  grind [readDesc, → descAccs_inForm, startMisses_inForm, gateDesc_inForm, Iss.put_inForm]

theorem launchBody_inForm {d : Operand} {a : Operand} {b : Operand} {g : Guard} {x : Iss} {y : Iss} {u : Option Wait}
    (e : launchBody d a b g x y s = .ok (t, u)) (hs : s.InForm) : t.InForm := by
  unfold launchBody at e
  split at e
  · cases e
    exact Iss.put_inForm hs
  dsimp only at e
  split at e
  · cases e
  split at e
  · cases e
  split at e
  · cases e
  split at e
  · cases e
  · rename_i hd
    cases e
    exact Iss.put_inForm (readDesc_inr_inForm hd hs)
  rename_i hd
  have ht := readDesc_inForm hd hs
  split at e
  · cases e
  split at e
  · cases e
  split at e
  · cases e
  · exact launchGo_inForm e ht

theorem execLaunch_inForm {d : Operand} {a : Operand} {b : Operand} {g : Guard} (e : execLaunch d a b g s = .next t)
    (hs : s.InForm) : t.InForm := by
  grind [execLaunch, commitOp_inForm, → launchBody_inForm]

theorem joinBody_inForm {y : Iss} {u : Option Wait} (e : joinBody y s = .ok (t, u)) (hs : s.InForm) : t.InForm := by
  grind [joinBody, → acquired_inForm, Iss.put_inForm]

theorem execJoinc_inForm {g : Guard} (e : execJoinc g s = .next t) (hs : s.InForm) : t.InForm := by
  grind [execJoinc, commitOp_inForm, → joinBody_inForm]

theorem migrateBody_inForm {l : Nat × Nat} {va : Dword} {x : Iss} {y : Iss} {u : Option Wait}
    (e : migrateBody l va x y s = .ok (t, u)) (hs : s.InForm) : t.InForm := by
  grind [migrateBody, → placeOf_inForm, Iss.put_inForm]

theorem execMigr_inForm {a : Operand} {g : Guard} (e : execMigr a g s = .next t) (hs : s.InForm) : t.InForm := by
  grind [execMigr, commitOp_inForm, Iss.put_inForm, → migrateBody_inForm]

theorem rdsrBody_inForm {d : Operand} {n : Nat} {g : Guard} {x : Iss} (e : rdsrBody s d n g x = .ok t) (hs : s.InForm) :
    t.InForm := by
  unfold rdsrBody at e
  repeat' split at e
  all_goals grind [idle_inForm, Iss.put_inForm, State.inForm_iff]

theorem execRdsr_inForm {d : Operand} {n : Fin 33} {g : Guard} (e : execRdsr d n g s = .next t) (hs : s.InForm) : t.InForm := by
  grind [execRdsr, issueOp_inForm, rdsrBody_inForm]

theorem wrsrBody_inForm {n : Nat} {b : Operand} {g : Guard} {x : Iss} (e : wrsrBody s n b g x = .ok t) (hs : s.InForm) :
    t.InForm := by
  grind [wrsrBody, Iss.put_inForm, State.inForm_iff]

theorem execWrsr_inForm {n : Fin 33} {b : Operand} {g : Guard} (e : execWrsr n b g s = .next t) (hs : s.InForm) : t.InForm := by
  grind [execWrsr, issueOp_inForm, wrsrBody_inForm, raiseCause_inForm]

theorem markBody_inForm {p : Nat} {x : Iss} (e : markBody s p x = .ok t) (hs : s.InForm) : t.InForm := by
  grind [markBody, State.modFn_inForm, traceThreads_inForm]

theorem execMark_inForm {p : Fin 64} {g : Guard} (e : execMark p g s = .next t) (hs : s.InForm) : t.InForm := by
  grind [execMark, issueOp_inForm, markBody_inForm]

/-! ## Rings -/

theorem modRing_inForm {crew : Nat} {id : Nat} {f : Ring → Ring} (hs : s.InForm) : (modRing s crew id f).InForm := by
  grind [modRing, State.modCrew_inForm, State.inForm_iff]

theorem clearUnits_inForm {crew : Nat} {id : Nat} {us : List Nat} (hs : s.InForm) : (clearUnits s crew id us).InForm := by
  grind [clearUnits, modUnit_inForm, foldl_inForm]

theorem ringResult_inForm {x : Iss} {y : Iss} {g : Guard} {d : Operand} {id : Nat} {x6 : Option Nat} {w : Word}
    {f : Ring → Ring} {u : Option Wait} (e : ringResult s x y g d id x6 w f = .ok (t, u)) (hs : s.InForm) : t.InForm := by
  grind [ringResult, modRing_inForm, Iss.put_inForm, State.inForm_iff]

theorem ringAcquire_inForm {y : Iss} {act : State → Except Stop Done} {w : Option Wait} (e : ringAcquire y s act = .ok (t, w))
    (hs : s.InForm) (ha : ∀ s t w, s.InForm → act s = .ok (t, w) → t.InForm) : t.InForm := by
  grind [ringAcquire, → acquired_inForm, Iss.put_inForm]

theorem rresBody_inForm {d : Operand} {id : Nat} {g : Guard} {x : Iss} {y : Iss} {u : Option Wait}
    (e : rresBody d id g x y s = .ok (t, u)) (hs : s.InForm) : t.InForm := by
  grind [rresBody, Iss.put_inForm, → ringAcquire_inForm, → ringResult_inForm]

theorem rclmBody_inForm {d : Operand} {id : Nat} {g : Guard} {x : Iss} {y : Iss} {u : Option Wait}
    (e : rclmBody d id g x y s = .ok (t, u)) (hs : s.InForm) : t.InForm := by
  grind [rclmBody, Iss.put_inForm, → ringAcquire_inForm, → ringResult_inForm]

theorem rctrBody_inForm {d : Operand} {id : Nat} {g : Guard} {x : Iss} {y : Iss} {u : Option Wait}
    (e : rctrBody d id g x y s = .ok (t, u)) (hs : s.InForm) : t.InForm := by
  grind [rctrBody, Iss.put_inForm, → ringAcquire_inForm, → ringResult_inForm]

theorem rpubBody_inForm {id : Nat} {b : Operand} {x : Iss} {y : Iss} {u : Option Wait} (e : rpubBody id b x y s = .ok (t, u))
    (hs : s.InForm) : t.InForm := by
  grind [rpubBody, Iss.put_inForm, → released_inForm, modRing_inForm]

theorem rrelBody_inForm {id : Nat} {b : Operand} {x : Iss} {y : Iss} {u : Option Wait} (e : rrelBody id b x y s = .ok (t, u))
    (hs : s.InForm) : t.InForm := by
  grind [rrelBody, Iss.put_inForm, → released_inForm, clearUnits_inForm, modRing_inForm]

theorem execRres_inForm {d : Operand} {ring : Fin 64} {g : Guard} (e : execRres d ring g s = .next t) (hs : s.InForm) : t.InForm
    := by
  grind [execRres, commitOp_inForm, → rresBody_inForm]

theorem execRpub_inForm {ring : Fin 64} {b : Operand} {g : Guard} (e : execRpub ring b g s = .next t) (hs : s.InForm) : t.InForm
    := by
  grind [execRpub, commitOp_inForm, → rpubBody_inForm]

theorem execRclm_inForm {d : Operand} {ring : Fin 64} {g : Guard} (e : execRclm d ring g s = .next t) (hs : s.InForm) : t.InForm
    := by
  grind [execRclm, commitOp_inForm, → rclmBody_inForm]

theorem execRrel_inForm {ring : Fin 64} {b : Operand} {g : Guard} (e : execRrel ring b g s = .next t) (hs : s.InForm) : t.InForm
    := by
  grind [execRrel, commitOp_inForm, → rrelBody_inForm]

theorem execRctr_inForm {d : Operand} {ring : Fin 64} {g : Guard} (e : execRctr d ring g s = .next t) (hs : s.InForm) : t.InForm
    := by
  grind [execRctr, commitOp_inForm, → rctrBody_inForm]

theorem ptldBody_inForm {first : Nat} {a : Operand} {count : Nat} {g : Guard} {x : Iss} {y : Iss} {u : Option Wait}
    (e : ptldBody first a count g x y s = .ok (t, u)) (hs : s.InForm) : t.InForm := by
  unfold ptldBody at e
  split at e
  all_goals grind [Iss.put_inForm, → placeOf_inForm, State.since_inForm, State.inForm_iff]

theorem execPtld_inForm {first : Fin 8} {a : Operand} {count : Fin 64} {g : Guard} (e : execPtld first a count g s = .next t)
    (hs : s.InForm) : t.InForm := by
  grind [execPtld, commitOp_inForm, → ptldBody_inForm]

/-! ## Copy -/

theorem putCopy_inForm {x : Iss} {y : Iss} {l : Nat × Nat} {bs : List Byte} {d : CDesc} {form : Nat} {x7 : Option RMode}
    {c : CacheP} {idx : List Nat} {flag : Option Nat} {set : OSet} {u : Option Wait}
    (e : putCopy s x y l bs d form x7 c idx flag set = .ok (t, u)) (hs : s.InForm) : t.InForm := by
  grind [putCopy, Iss.put_inForm, State.tickSeq_inForm, addOp_inForm, modRing_inForm]

theorem copyIssue_inForm {form : Nat} {x1 : Option RMode} {c : CacheP} {a : Operand} {g : Guard} {x : Iss} {y : Iss}
    {l : Nat × Nat} {off : Nat} {u : Option Wait} (e : copyIssue form x1 c a g x y l off s = .ok (t, u)) (hs : s.InForm) :
    t.InForm := by
  unfold copyIssue at e
  extract_lets bs d idx typed flag sets at e
  split at e
  · cases e
    exact Iss.put_inForm hs
  split at e
  · cases e
  split at e
  · cases e
  split at e
  · cases e
  split at e
  · cases e
    exact Iss.put_inForm hs
  split at e
  · cases e
  split at e
  · cases e
  split at e
  · cases e
    exact Iss.put_inForm hs
  split at e
  · cases e
  · exact putCopy_inForm e hs

theorem copyBody_inForm {form : Nat} {x1 : Option RMode} {c : CacheP} {a : Operand} {g : Guard} {x : Iss} {y : Iss}
    {u : Option Wait} (e : copyBody form x1 c a g x y s = .ok (t, u)) (hs : s.InForm) : t.InForm := by
  grind [copyBody, Iss.put_inForm, → copyIssue_inForm]

theorem copyOp_inForm {form : Nat} {x1 : Option RMode} {c : CacheP} {a : Operand} {g : Guard}
    (e : copyOp form x1 c a g s = .next t) (hs : s.InForm) : t.InForm := by
  grind [copyOp, commitOp_inForm, → copyBody_inForm]

theorem execCpy_inForm {c : CacheP} {a : Operand} {g : Guard} (e : execCpy c a g s = .next t) (hs : s.InForm) : t.InForm :=
  copyOp_inForm e hs

theorem execCpyg_inForm {c : CacheP} {a : Operand} {g : Guard} (e : execCpyg c a g s = .next t) (hs : s.InForm) : t.InForm :=
  copyOp_inForm e hs

theorem execCpys_inForm {c : CacheP} {a : Operand} {g : Guard} (e : execCpys c a g s = .next t) (hs : s.InForm) : t.InForm :=
  copyOp_inForm e hs

theorem execCpyq_inForm {c : CacheP} {x1 : Option RMode} {a : Operand} {g : Guard} (e : execCpyq c x1 a g s = .next t)
    (hs : s.InForm) : t.InForm :=
  copyOp_inForm e hs

/-! ## Message -/

theorem deliverMsg_inForm {crew : Nat} {buf : Nat} {m : Msg} {set : OSet} (e : deliverMsg s crew buf m set = .ok t)
    (hs : s.InForm) : t.InForm := by
  unfold deliverMsg at e
  split at e
  all_goals grind [acquireAct_inForm, State.inForm_iff]

theorem postRecv_inForm {x : Iss} {y : Iss} {buf : Nat} {cap : Nat} {mtch : Nat} {set : OSet} {u : Option Wait}
    (e : postRecv s x y buf cap mtch set = .ok (t, u)) (hs : s.InForm) : t.InForm := by
  unfold postRecv at e
  dsimp only at e
  split at e
  · split at e
    · cases e
    · rename_i hd
      exact commitPast_inForm e fun t ht => noLanes_inForm ht (deliverMsg_inForm hd (Iss.put_inForm (State.modCore_inForm hs)))
  split at e
  · cases e
    exact Iss.put_inForm hs
  split at e
  · cases e
  · cases e
    exact State.modCore_inForm (State.tickSeq_inForm (Iss.put_inForm (addOp_inForm hs)))

theorem msgpBody_inForm {cap : Nat} {a : Operand} {b : Operand} {g : Guard} {x : Iss} {y : Iss} {u : Option Wait}
    (e : msgpBody cap a b g x y s = .ok (t, u)) (hs : s.InForm) : t.InForm := by
  unfold msgpBody at e
  split at e
  · exact commitPast_inForm e fun t ht => noLanes_inForm ht (Iss.put_inForm hs)
  dsimp only at e
  split at e
  · cases e
  split at e
  · cases e
  · exact postRecv_inForm e hs

theorem execMsgp_inForm {cap : Fin 32} {a : Operand} {b : Operand} {g : Guard} (e : execMsgp cap a b g s = .next t)
    (hs : s.InForm) : t.InForm := by
  grind [execMsgp, commitOp_inForm, → msgpBody_inForm]

theorem sendMsg_inForm {x : Iss} {y : Iss} {off : Nat} {n : Nat} {tag : Nat} {dst : Nat} {sets : List OSet} {u : Option Wait}
    (e : sendMsg s x y off n tag dst sets = .ok (t, u)) (hs : s.InForm) : t.InForm := by
  grind [sendMsg, → placeOf_inForm, State.since_inForm, Iss.put_inForm, State.tickSeq_inForm, addOp_inForm,
    State.modCore_inForm, State.inForm_iff]

theorem msgsBody_inForm {len : Nat} {a : Operand} {b : Operand} {g : Guard} {x : Iss} {y : Iss} {u : Option Wait}
    (e : msgsBody len a b g x y s = .ok (t, u)) (hs : s.InForm) : t.InForm := by
  grind [msgsBody, → commitPast_inForm, noLanes_inForm, Iss.put_inForm, → released_inForm, → sendMsg_inForm]

theorem execMsgs_inForm {len : Fin 64} {a : Operand} {b : Operand} {g : Guard} (e : execMsgs len a b g s = .next t)
    (hs : s.InForm) : t.InForm := by
  grind [execMsgs, commitOp_inForm, → msgsBody_inForm]

theorem msgcBody_inForm {d : Operand} {a : Operand} {g : Guard} {x : Iss} {y : Iss} {u : Option Wait}
    (e : msgcBody d a g x y s = .ok (t, u)) (hs : s.InForm) : t.InForm := by
  unfold msgcBody at e
  split at e
  all_goals grind [Iss.put_inForm, State.modCore_inForm, State.inForm_iff]

theorem execMsgc_inForm {d : Operand} {a : Operand} {g : Guard} (e : execMsgc d a g s = .next t) (hs : s.InForm) : t.InForm := by
  grind [execMsgc, commitOp_inForm, → msgcBody_inForm]

/-! ## Matrix -/

theorem State.modEngine_inForm {k : Nat} {f : Engine → Engine} (hs : s.InForm) : (State.modEngine s k f).InForm := hs

theorem splitTile_inForm {x : Iss} {u : Iss} (e : splitTile x s = .ok (u, t)) (hs : s.InForm) : t.InForm := by
  grind [splitTile, → Iss.endRegion_inForm]

theorem issueTile_inForm {g : Guard} {body : Iss → Except Stop Done} (e : issueTile s g body = .next t) (hs : s.InForm)
    (hb : ∀ x t w, body x = .ok (t, w) → t.InForm) : t.InForm := by
  grind [issueTile, stayAt_inForm, advance_inForm, settle_inForm]

theorem xmmaFile_inForm {x : Iss} {aq : Nat} {bs : Nat} {ct : Nat} {wa : Nat} {wb : Nat} {zero : Bool} {g : Guard}
    {u : Option Wait} (e : xmmaFile x s aq bs ct wa wb zero g = .ok (t, u)) (hs : s.InForm) : t.InForm := by
  unfold xmmaFile at e
  dsimp only at e
  split at e
  · cases e
  split at e
  · cases e
  split at e
  · cases e
  rename_i hq
  have hy := splitTile_inForm hq hs
  split at e
  · cases e
    exact Iss.put_inForm hy
  split at e
  · cases e
    exact Iss.put_inForm hy
  · cases e
    exact Iss.put_inForm hy

theorem tileAhead_inForm {x : Iss} {u : Option Wait} (e : tileAhead x s = .ok (t, u)) (hs : s.InForm) : t.InForm := by
  grind [tileAhead, → splitTile_inForm, Iss.put_inForm]

theorem execXmma_inForm {aq : Fin 128} {bs : Fin 256} {ct : Fin 16} {wa : Fin 7} {wb : Fin 7} {zero : Bool} {g : Guard}
    (e : execXmma aq bs ct wa wb zero g s = .next t) (hs : s.InForm) : t.InForm := by
  grind [execXmma, issueTile_inForm, → tileAhead_inForm, → xmmaFile_inForm]

theorem putTile_inForm {x : Iss} {k : OpKind} {set : OSet} {u : Option Wait} (e : putTile x s k set = .ok (t, u))
    (hs : s.InForm) : t.InForm := by
  grind [putTile, → splitTile_inForm, Iss.put_inForm, State.tickSeq_inForm, addOp_inForm]

theorem execXzero_inForm {x0 : Fin 16} {g : Guard} (e : execXzero x0 g s = .next t) (hs : s.InForm) : t.InForm := by
  refine issueTile_inForm e hs fun x t w hd => ?_
  split at hd
  · cases hd
    exact hs
  split at hd
  · exact tileAhead_inForm hd hs
  split at hd
  · cases hd
  split at hd
  · cases hd
  · exact putTile_inForm hd hs

theorem xreqBody_inForm {x1 : Option RMode} {x2 : Nat} {aq : Nat} {w : Nat} {g : Guard} {x : Iss} {u : Option Wait}
    (e : xreqBody s x1 x2 aq w g x = .ok (t, u)) (hs : s.InForm) : t.InForm := by
  unfold xreqBody at e
  split at e
  · cases e
    exact hs
  dsimp only at e
  split at e
  · cases e
  split at e
  · cases e
  · exact putTile_inForm e hs

theorem execXreq_inForm {x0 : Option RMode} {x1 : Fin 16} {aq : Fin 64} {c : Fin 7} {g : Guard}
    (e : execXreq x0 x1 aq c g s = .next t) (hs : s.InForm) : t.InForm := by
  grind [execXreq, issueTile_inForm, → tileAhead_inForm, → xreqBody_inForm]

theorem xosqBody_inForm {d : Fin 30} {sp : TSpace} {b : Operand} {g : Guard} {x : Iss} (e : xosqBody s d sp b g x = .ok t)
    (hs : s.InForm) : t.InForm := by
  grind [xosqBody, idle_inForm, Iss.put_inForm, → placeOf_inForm, State.since_inForm, State.inForm_iff]

theorem execXosq_inForm {d : Fin 30} {sp : TSpace} {b : Operand} {g : Guard} (e : execXosq d sp b g s = .next t) (hs : s.InForm)
    : t.InForm := by
  grind [execXosq, issueOp_inForm, xosqBody_inForm]

theorem execMatrixPassDecision_inForm {cluster : Nat} (e : execMatrixPassDecision cluster s = .next t) (hs : s.InForm) :
    t.InForm := by
  grind [execMatrixPassDecision, State.modEngine_inForm]

theorem execMatrixPassEnd_inForm {cluster : Nat} (e : execMatrixPassEnd cluster s = .next t) (hs : s.InForm) : t.InForm := by
  grind [execMatrixPassEnd, State.modEngine_inForm]

theorem failCrew_inForm {crew : Nat} {c : Cause} {x3 : FRec} (hs : s.InForm) : (failCrew s crew c x3).InForm := by
  grind [failCrew, failGrid_inForm, countCause_inForm]

theorem writeRows_inForm {x1 : XReq} {ws : List Word} (hs : s.InForm) : (writeRows s x1 ws).InForm := by
  grind [writeRows, failCrew_inForm, modUnit_inForm, State.decFlag_inForm, State.inForm_iff]

theorem matrixRowsWritten_inForm {cluster : Nat} (e : matrixRowsWritten cluster s = .next t) (hs : s.InForm) : t.InForm := by
  grind [matrixRowsWritten, writeRows_inForm, State.modEngine_inForm, foldl_inForm]

theorem xzeroDone_inForm {op : Nat} (e : xzeroDone op s = .next t) (hs : s.InForm) : t.InForm := by
  grind [xzeroDone, modUnit_inForm, State.decFlag_inForm, State.inForm_iff]

theorem xreqQuarter_inForm {o : Op} {x2 : Nat} {aq : Nat} {w : Nat} {m : RMode} {v : Nat} {qa : Nat}
    (e : xreqQuarter s o x2 aq w m v qa = .ok t) (hs : s.InForm) : t.InForm := by
  grind [xreqQuarter, modUnit_inForm, State.inForm_iff]

theorem xreqDone_inForm {op : Nat} (e : xreqDone op s = .next t) (hs : s.InForm) : t.InForm := by
  unfold xreqDone at e
  split at e
  · split at e
    · split at e
      · cases e
        exact hs
      split at e
      · cases e
        exact failCrew_inForm hs
      · rename_i hq
        have ht := foldE_inForm hq hs fun s a t e hs => xreqQuarter_inForm e hs
        cases e
        exact State.decFlag_inForm ht
    · cases e
      exact hs
  · cases e
    exact hs

/-! ## Clauses -/

theorem reconvergeAt_inForm {crew : Nat} {grp : Nat} (hs : s.InForm) : (reconvergeAt s crew grp).InForm := by
  grind [reconvergeAt, State.modCrew_inForm]

theorem fetchClause_inForm {x : Iss} (hs : s.InForm) : (fetchClause s x).InForm := by
  unfold fetchClause
  split
  · rename_i hq
    exact State.modGroup_inForm (codeClause_inForm hq hs)
  · rename_i hq
    exact codeClause_error_inForm hq hs
  dsimp only
  split
  · rename_i hq
    exact settle_inForm hq hs
  · exact hs

theorem execClauseFetch_inForm {crew : Nat} {group : Nat} {addr : Dword} (e : execClauseFetch crew group addr s = .next t)
    (hs : s.InForm) : t.InForm := by
  grind [execClauseFetch, reconvergeAt_inForm, State.enterEpisode_inForm, State.exitEpisode_inForm, fetchClause_inForm]

theorem packOne_inForm {crew : Nat} {grp : Nat} (e : packOne s crew grp = .ok t) (hs : s.InForm) : t.InForm := by
  grind [packOne, → Iss.endRegion_inForm, Iss.put_inForm]

theorem packEntry_inForm {crew : Nat} {role : Nat} {a : Dword} {words : List Word} (e : packEntry s crew role a words = .ok t)
    (hs : s.InForm) : t.InForm := by
  unfold packEntry at e
  split at e
  all_goals grind [State.leaveEpisode_inForm, packOne_inForm, freeBuffer_inForm, State.modCrew_inForm, countN_inForm,
    State.inForm_iff, foldl_inForm, foldE_inForm]

theorem startClause_inForm {x : Iss} {x2 : Word} {ws : List Word} (hs : s.InForm) : (startClause s x x2 ws).InForm := by
  grind [startClause, raiseCause_inForm, Iss.put_inForm, State.modGroup_inForm]

theorem startEntry_inForm {crew : Nat} {role : Nat} {grp : Nat} (hs : s.InForm) : (startEntry s crew role grp).InForm := by
  unfold startEntry
  dsimp only
  repeat' split
  all_goals grind [State.modCrew_inForm, packEntry_inForm, failCrew_inForm, startClause_inForm]

theorem startAhead_inForm {crew : Nat} {grp : Nat} (hs : s.InForm) : (startAhead s crew grp).InForm := by
  grind [startAhead, State.enterEpisode_inForm, State.leaveEpisode_inForm, State.exitEpisode_inForm, startClause_inForm]

theorem endMet_inForm {crew : Nat} (hs : s.InForm) : (endMet s crew).InForm := by
  grind [endMet, State.leaveEpisode_inForm, foldl_inForm]

theorem execClauseStart_inForm {crew : Nat} {role : Nat} (e : execClauseStart crew role s = .next t) (hs : s.InForm) : t.InForm
    := by
  grind [execClauseStart, endMet_inForm, startAhead_inForm, startEntry_inForm]

theorem execRunaheadStart_inForm {crew : Nat} {group : Nat} (e : execRunaheadStart crew group s = .next t) (hs : s.InForm) :
    t.InForm := by
  grind [execRunaheadStart, → placeOf_inForm, State.modGroup_inForm, startEpisode_inForm]

theorem execRunaheadInstructionLimit_inForm {crew : Nat} {group : Nat} (e : execRunaheadInstructionLimit crew group s = .next t)
    (hs : s.InForm) : t.InForm := by
  grind [execRunaheadInstructionLimit, State.leaveEpisode_inForm]

theorem execStallTimeout_inForm {crew : Nat} {group : Nat} (e : execStallTimeout crew group s = .next t) (hs : s.InForm) :
    t.InForm := by
  grind [execStallTimeout, reconvergeAt_inForm, State.leaveEpisode_inForm, raiseCause_inForm]

/-! ## Image -/

theorem putPieces_inForm {vf : Nat} {ps : List (Nat × Nat)} {bs : List Byte} (hs : s.InForm) : (putPieces s vf ps bs).InForm := by
  induction ps generalizing s bs with
  | nil => exact hs
  | cons p rest ih => exact ih (sideWrite_inForm hs)

theorem writeImage_inForm {n : Nat} (hs : s.InForm) : (writeImage s n).InForm := by
  grind [writeImage, State.modCrew_inForm, putPieces_inForm]

theorem refreshImage_inForm {n : Nat} (hs : s.InForm) : (refreshImage s n).InForm := by
  grind [refreshImage, writeImage_inForm, State.inForm_iff]

/-! ## Deliver -/

theorem putHash_inForm {crew : Nat} {a : Acc} {bs : List Byte} (hs : s.InForm) : (putHash s crew a bs).InForm := hs

theorem takeBack_inForm {die : Nat} {key : Nat} (hs : s.InForm) : (takeBack s die key).InForm := by
  grind [takeBack, recallLine_inForm, l2Merge_inForm, State.inForm_iff, foldl_inForm]

theorem takeBackFor_inForm {core : Option Nat} {key : Nat} (hs : s.InForm) : (takeBackFor s core key).InForm := by
  unfold takeBackFor
  split
  all_goals grind [takeBack_inForm]

theorem deliverFamily_inForm {crew : Nat} {d : Dest} {vs : List ((Nat × Nat) × List Word)} {set : OSet} {fam : Nat}
    (e : deliverFamily s crew d vs set fam = .ok t) (hs : s.InForm) : t.InForm := by
  grind [deliverFamily, State.inForm_iff]

theorem deliverRegs_inForm {crew : Nat} {d : Dest} {vs : List ((Nat × Nat) × List Word)} {set : OSet}
    (e : deliverRegs s crew d vs set = .ok t) (hs : s.InForm) : t.InForm := by
  grind [deliverRegs, deliverFamily_inForm, foldE_inForm]

theorem deliverK_inForm {crew : Nat} {d : Nat} {vs : List ((Nat × Nat) × List Word)} {set : OSet} (hs : s.InForm) :
    (deliverK s crew d vs set).InForm :=
  hs

theorem rmwWrite_inForm {o : Op} {core : Option Nat} {vf : Nat} {x4 : Bool} {a : Acc} {bs : List Byte}
    (e : rmwWrite s o core vf x4 a bs = .ok t) (hs : s.InForm) : t.InForm := by
  grind [rmwWrite, joinGranule_inForm, sideWrite_inForm, l1Store_inForm, State.inForm_iff]

theorem rmwLane_inForm {o : Op} {core : Option Nat} {vf : Nat} {x4 : Bool} {op : RmwOp} {a : Acc} {v : Dword} {c : Dword}
    {u : Dword} (e : rmwLane s o core vf x4 op a v c = .ok (u, t)) (hs : s.InForm) : t.InForm := by
  grind [rmwLane, takeBackFor_inForm, rmwWrite_inForm]

theorem sendRemote_inForm {n : Nat} {vf : Nat} {x3 : Bool} {o : Op} {core : Option Nat} {op : RmwOp}
    {ls : List (Acc × Dword × Dword)} (hs : s.InForm) : (sendRemote s n vf x3 o core op ls).1.InForm := by
  refine foldStop_inForm hs fun s q t e hs => ?_
  split at e
  · cases e
    exact hs
  dsimp only at e
  split at e
  · cases e
    exact outdateLine_inForm hs
  · exact request_inForm e (outdateLine_inForm hs)

theorem localLanes_inForm {o : Op} {core : Option Nat} {vf : Nat} {x4 : Bool} {op : RmwOp} {ls : List (Acc × Dword × Dword)}
    {u : Map Dword} (e : localLanes s o core vf x4 op ls = .ok (u, t)) (hs : s.InForm) : t.InForm := by
  refine foldE_keeps (P := fun a : Map Dword × State => a.2.InForm) (fun a q b hb ha => ?_) e hs
  split at hb
  · cases hb
    exact ha
  split at hb
  · cases hb
  · rename_i hq
    cases hb
    exact rmwLane_inForm hq ha

theorem withSets_inForm {o : Op} {x2 : Map OEntry} (hs : s.InForm) : (withSets s o x2).InForm := by
  unfold withSets
  split
  · exact hs
  · exact hs

theorem hashRmw_inForm {o : Op} {op : RmwOp} {ls : List (Acc × Dword × Dword)} {olds : Map Dword} (hs : s.InForm) :
    (hashRmw s o op ls olds).InForm := by
  grind [hashRmw, putHash_inForm, foldl_inForm]

theorem releaseOver_inForm {core : Option Nat} {sem : Sem} {sc : Scope} {flush : Option (List Nat)} (hs : s.InForm) :
    (releaseOver s core sem sc flush).1.InForm := by
  unfold releaseOver
  split
  all_goals grind [startFlush_inForm]

theorem runRmw_inForm {n : Nat} {o : Op} {op : RmwOp} {vs cs : List Dword} (hs : s.InForm) : (runRmw s n o op vs cs).InForm := by
  unfold runRmw
  split
  rename_i core vf h _
  split
  rename_i s' fl past hq
  have hr : (releaseOver s core o.sem o.scope o.flush).1.InForm := releaseOver_inForm hs
  rw [hq] at hr
  extract_lets s2 ls
  have h2 : s2.InForm := hr
  have hn : (sendRemote s2 n vf h o core op ls).1.InForm := sendRemote_inForm h2
  split
  · exact h2
  split
  · rename_i hq
    rw [hq] at hn
    exact hn
  · rename_i hq
    rw [hq] at hn
    exact hn
  · rename_i hq
    rw [hq] at hn
    exact State.notice_inForm hn
  rename_i hq
  rw [hq] at hn
  dsimp only
  split
  · exact sendDue_inForm hn
  split
  · exact sendDue_inForm hn
  · rename_i hl
    exact hashRmw_inForm (localLanes_inForm hl (sendDue_inForm hn))

theorem failOp_inForm {n : Nat} {o : Op} {c : Cause} {va : Nat} (hs : s.InForm) : (failOp s n o c va).InForm := by
  grind [failOp, countCause_inForm, stopCrews_inForm, State.modGrid_inForm, State.notice_inForm, State.inForm_iff]

theorem finishOp_inForm {n : Nat} {o : Op} (hs : s.InForm) : (finishOp s n o).InForm := by
  grind [finishOp, refreshImage_inForm, endMet_inForm, State.decFlag_inForm, State.inForm_iff]

theorem forgetLines_inForm {core : Nat} {ks : List Nat} (hs : s.InForm) : (forgetLines s core ks).InForm := hs

theorem askAgain_inForm {n : Nat} {o : Op} {core : Nat} {vf : Nat} {x5 : Bool} {ks : List Nat} (hs : s.InForm) :
    (askAgain s n o core vf x5 ks).InForm := by
  unfold askAgain
  split
  · rename_i hq
    have ht := foldE_inForm hq hs fun s k t e hs => missLine_inForm e hs
    exact ht
  · exact failOp_inForm hs
  · exact hs

theorem fetchAnew_inForm {n : Nat} {o : Op} {core : Nat} {vf : Nat} {x5 : Bool} (hs : s.InForm) :
    (fetchAnew s n o core vf x5).InForm :=
  askAgain_inForm hs

theorem opAcquire_inForm {o : Op} {core : Nat} (hs : s.InForm) : (opAcquire s o core).InForm := by
  grind [opAcquire, acquireAct_inForm]

theorem scRead_inForm {o : Op} {core : Nat} (hs : s.InForm) : (scRead s o core).InForm := by
  grind [scRead, acquireAct_inForm]

theorem renumber_inForm {f : ReqFor → Option ReqFor} (hs : s.InForm) : (renumber s f).InForm := hs

theorem renumberOp_inForm {n : Nat} {keep : List Nat} (hs : s.InForm) : (renumberOp s n keep).InForm := hs

theorem sendLoad_inForm {n : Nat} {o : Op} {core : Nat} {vf : Nat} {x5 : Bool} (hs : s.InForm) :
    (sendLoad s n o core vf x5).InForm :=
  sendDue_inForm hs

theorem deliverPart_inForm {n : Nat} {o : Op} {c : Crew} {signed : Bool} {ls : List Nat}
    {put : State → List ((Nat × Nat) × List Word) → OSet → Except Stop State} (hs : s.InForm)
    (hp : ∀ s vs u t, s.InForm → put s vs u = .ok t → t.InForm) : (deliverPart s n o c signed ls put).InForm := by
  grind [deliverPart, scRead_inForm, failOp_inForm, opAcquire_inForm, renumberOp_inForm, endMet_inForm,
    State.decFlag_inForm, State.inForm_iff]

theorem deliverLoad_inForm {n : Nat} {o : Op} {c : Crew} {signed : Bool}
    {put : State → List ((Nat × Nat) × List Word) → OSet → Except Stop State} (hs : s.InForm)
    (hp : ∀ s vs u t, s.InForm → put s vs u = .ok t → t.InForm) : (deliverLoad s n o c signed put).InForm := by
  grind [deliverLoad, → placeOf_inForm, State.since_inForm, sendLoad_inForm, deliverPart_inForm, fetchAnew_inForm,
    askAgain_inForm, scRead_inForm, failOp_inForm, finishOp_inForm, opAcquire_inForm, State.inForm_iff]

theorem deliverAtom_inForm {n : Nat} {o : Op} {op : RmwOp} {d : Dest} {vs : List Dword} {cs : List Dword} (hs : s.InForm) :
    (deliverAtom s n o op d vs cs).InForm := by
  unfold deliverAtom
  split
  · exact hs
  split
  · exact failOp_inForm hs
  have hr : (runRmw (withSets s o ‹_›) n o op vs cs).InForm := runRmw_inForm (withSets_inForm hs)
  split
  · rename_i hq
    rw [hq] at hr
    exact hr
  · rename_i hq
    rw [hq] at hr
    exact failOp_inForm hr
  rename_i hq
  rw [hq] at hr
  split
  · exact failOp_inForm hr
  dsimp only
  split
  · exact failOp_inForm hr
  · exact hr
  · rename_i hd
    have ht := deliverRegs_inForm hd hr
    split
    · exact finishOp_inForm (opAcquire_inForm ht)
    · exact finishOp_inForm ht

theorem deliverPhase_inForm {n : Nat} {o : Op} {d : Dest} (hs : s.InForm) : (deliverPhase s n o d).InForm := by
  grind [deliverPhase, deliverRegs_inForm, failOp_inForm, finishOp_inForm]

theorem loadDelivery_inForm {op : Nat} (e : loadDelivery op s = .next t) (hs : s.InForm) : t.InForm := by
  grind [loadDelivery, deliverLoad_inForm, deliverRegs_inForm, deliverK_inForm, deliverAtom_inForm, deliverPhase_inForm,
    State.inForm_iff]

theorem performAcc_inForm {core : Nat} {vf : Nat} {x3 : Bool} {x4 : StoreEntry} {a : Acc}
    (e : performAcc s core vf x3 x4 a = .ok t) (hs : s.InForm) : t.InForm := by
  grind [performAcc, joinUnit_inForm, putTypeds_inForm, joinGranule_inForm, sideWrite_inForm, takeBack_inForm,
    l1Store_inForm, State.inForm_iff]

theorem putHead_inForm {core : Nat} {x2 : StoreEntry} (hs : s.InForm) : (putHead s core x2).InForm := hs

theorem failStore_inForm {x1 : StoreEntry} {c : Cause} (hs : s.InForm) : (failStore s x1 c).InForm := failGrid_inForm hs

theorem endStorePart_inForm {core : Nat} {x2 : StoreEntry} {x3 : List Nat} (hs : s.InForm) : (endStorePart s core x2 x3).InForm
    := by
  grind [endStorePart, putHash_inForm, renumber_inForm, putHead_inForm, endMet_inForm, State.decFlag_inForm, foldl_inForm]

theorem endStore_inForm {core : Nat} {x2 : StoreEntry} (hs : s.InForm) : (endStore s core x2).InForm := endMet_inForm hs

theorem runStore_inForm {core : Nat} {x2 : StoreEntry} (hs : s.InForm) : (runStore s core x2).InForm := by
  unfold runStore
  repeat' split
  all_goals grind [endStore_inForm, endStorePart_inForm, releaseOver_inForm, putHead_inForm, performAcc_inForm,
    failStore_inForm, sendDue_inForm, putHash_inForm, cleanLine_inForm, State.inForm_iff, foldl_inForm, foldE_inForm]

theorem endRedPart_inForm {n : Nat} {op : RmwOp} {vs : List Dword} (hs : s.InForm) : (endRedPart s n op vs).InForm := by
  grind [endRedPart, hashRmw_inForm, renumberOp_inForm, endMet_inForm, State.decFlag_inForm, State.inForm_iff]

theorem runRed_inForm {n : Nat} {o : Op} {op : RmwOp} {vs : List Dword} (hs : s.InForm) : (runRed s n o op vs).InForm := by
  unfold runRed
  split
  · exact hs
  split
  · exact failOp_inForm hs
  have hr : (runRmw (withSets s o ‹_›) n o op vs vs).InForm := runRmw_inForm (withSets_inForm hs)
  split
  · rename_i hq
    rw [hq] at hr
    exact endRedPart_inForm hr
  · rename_i hq
    rw [hq] at hr
    exact failOp_inForm hr
  · rename_i hq
    rw [hq] at hr
    exact finishOp_inForm hr

theorem runOther_inForm {p : Nat × Op} (hs : s.InForm) : (runOther s p).InForm := by
  grind [runOther, runRed_inForm, finishOp_inForm]

theorem execStorePerformed_inForm {core : Nat} (e : execStorePerformed core s = .next t) (hs : s.InForm) : t.InForm := by
  grind [execStorePerformed, → placeOf_inForm, State.since_inForm, runStore_inForm, runOther_inForm]

/-! ## Recorded -/

theorem performOpAcc_inForm {n : Nat} {i : Nat} (hs : s.InForm) : (performOpAcc s n i).InForm := by
  unfold performOpAcc
  split
  all_goals grind [takeBackFor_inForm, → rmwLane_inForm, failOp_inForm, State.inForm_iff]

theorem performStoreAcc_inForm {core : Nat} {seq : Nat} {i : Nat} (hs : s.InForm) : (performStoreAcc s core seq i).InForm := by
  unfold performStoreAcc
  split
  all_goals grind [joinGranule_inForm, failStore_inForm, putHead_inForm, sideWrite_inForm, takeBack_inForm]

theorem performFor_inForm {x1 : L2Req} (hs : s.InForm) : (performFor s x1).InForm := by
  grind [performFor, performOpAcc_inForm, performStoreAcc_inForm, State.inForm_iff]

theorem closeStreams_inForm {vf : Nat} (hs : s.InForm) : (closeStreams s vf).InForm := by
  grind [closeStreams, closeChunk_inForm, foldl_inForm]

/-! ## Complete -/

theorem atSlice_inForm {c : CopyRun} {va : Nat} {write : Bool} {p : Place} (e : atSlice s c va write p = .ok t) (hs : s.InForm)
    : t.InForm := by
  grind [atSlice, noteUnrecorded_inForm, sendL2_inForm]

theorem atSlice_error_inForm {c : CopyRun} {va : Nat} {write : Bool} {p : Place} {h : State}
    (e : atSlice s c va write p = .error h) (hs : s.InForm) : h.InForm := by
  grind [atSlice, noteUnrecorded_inForm, sendL2_inForm]

theorem srcElem_inForm {c : CopyRun} {va : Nat} {u : List Byte} {v1 : OSet} (e : srcElem s c va = .ok (u, v1, t))
    (hs : s.InForm) : t.InForm := by
  grind [srcElem, → placeOf_inForm, atSlice_inForm, atSlice_error_inForm, dropLine_inForm, missLine_inForm]

theorem srcElem_error_inForm {c : CopyRun} {va : Nat} {h : Halt} (e : srcElem s c va = .error h) (hs : s.InForm) : h.InForm := by
  unfold srcElem at e
  dsimp only at e
  split at e
  · split at e
    · cases e
      trivial
    rename_i hq
    have hp := placeOf_inForm hq hs
    split at e
    · cases e
      trivial
    split at e
    · cases e
      trivial
    split at e
    · split at e
      · rename_i ha
        cases e
        exact atSlice_error_inForm ha hp
      · cases e
    split at e
    · split at e
      · cases e
      · cases e
        exact dropLine_inForm hp
    split at e
    · rename_i hm
      cases e
      exact missLine_inForm hm hp
    · cases e
      trivial
    · cases e
      exact hp
  split at e
  · cases e
    exact hs
  split at e
  · split at e
    · cases e
      trivial
    · cases e
  · cases e

theorem readElems_inForm {c : CopyRun} {got : List Acc} {vas : List Nat} (hs : s.InForm) : (readElems s c got vas).1.InForm := by
  induction vas generalizing s got with
  | nil => exact hs
  | cons va rest ih =>
    unfold readElems
    split
    · rename_i hq
      exact srcElem_error_inForm hq hs
    · exact hs
    · rename_i hq
      exact ih (srcElem_inForm hq hs)

theorem readElems_halt_inForm {c : CopyRun} {got : List Acc} {vas : List Nat} {h : Halt}
    (e : (readElems s c got vas).2.2 = some h) (hs : s.InForm) : h.InForm := by
  induction vas generalizing s got with
  | nil => cases e
  | cons va rest ih =>
    unfold readElems at e
    split at e
    · rename_i hq
      cases e
      exact srcElem_error_inForm hq hs
    · rename_i hq
      cases e
      exact srcElem_error_inForm hq hs
    · rename_i hq
      exact ih e (srcElem_inForm hq hs)

theorem crewWrite_inForm {crew : Nat} {sp : Space} {a : Nat} {bs : List Byte} {set : OSet}
    (e : crewWrite s crew sp a bs set = .ok t) (hs : s.InForm) : t.InForm := by
  grind [crewWrite, joinUnit_inForm, putTypeds_inForm, State.inForm_iff]

theorem sendElem_inForm {c : CopyRun} {dev : Nat} {pa : Nat} {bs : List Byte} {set : OSet}
    (e : sendElem s c dev pa bs set = .ok t) (hs : s.InForm) : t.InForm := by
  grind [sendElem, requestMore_inForm, request_inForm]

theorem sideElem_inForm {c : CopyRun} {va : Nat} {bs : List Byte} {set : OSet} (e : sideElem s c va bs set = .ok t)
    (hs : s.InForm) : t.InForm := by
  unfold sideElem at e
  split at e
  · cases e
  rename_i hq
  have hp := placeOf_inForm hq hs
  split at e
  · cases e
  split at e
  · split at e
    · cases e
    rename_i ha
    split at e
    · cases e
    · rename_i hj
      cases e
      exact sideWrite_inForm (takeBack_inForm (joinGranule_inForm hj (atSlice_inForm ha hp)))
  split at e
  · cases e
  split at e
  · rename_i hq
    cases e
    exact sendElem_inForm hq hp
  · cases e
  · cases e
  · cases e

theorem sideElem_error_inForm {c : CopyRun} {va : Nat} {bs : List Byte} {set : OSet} {h : Halt}
    (e : sideElem s c va bs set = .error h) (hs : s.InForm) : h.InForm := by
  unfold sideElem at e
  split at e
  · cases e
    trivial
  rename_i hq
  have hp := placeOf_inForm hq hs
  split at e
  · cases e
    trivial
  split at e
  · split at e
    · rename_i ha
      cases e
      exact atSlice_error_inForm ha hp
    split at e
    · cases e
      trivial
    · cases e
  split at e
  · cases e
    exact outdateLine_inForm hp
  split at e
  · cases e
  · cases e
    exact hp
  · cases e
    trivial
  · cases e
    exact hp

theorem dstElem_inForm {c : CopyRun} {va : Nat} {bs : List Byte} {set : OSet} (e : dstElem s c va bs set = .ok t)
    (hs : s.InForm) : t.InForm := by
  grind [dstElem, sideElem_inForm, sideElem_error_inForm, crewWrite_inForm]

theorem dstElem_error_inForm {c : CopyRun} {va : Nat} {bs : List Byte} {set : OSet} {h : Halt}
    (e : dstElem s c va bs set = .error h) (hs : s.InForm) : h.InForm := by
  unfold dstElem at e
  split at e
  · exact sideElem_error_inForm e hs
  dsimp only at e
  split at e
  · cases e
    trivial
  · cases e

theorem makeWrite_inForm {c : CopyRun} {set : OSet} {w : Nat × List Byte} (e : makeWrite c set s w = .ok t) (hs : s.InForm) :
    t.InForm := by
  unfold makeWrite at e
  split at e
  · cases e
  · rename_i hq
    have ht := dstElem_inForm hq hs
    cases e
    exact ht

theorem makeWrite_error_inForm {c : CopyRun} {set : OSet} {w : Nat × List Byte} {h : Halt} (e : makeWrite c set s w = .error h)
    (hs : s.InForm) : h.InForm := by
  unfold makeWrite at e
  split at e
  · rename_i hq
    cases e
    exact dstElem_error_inForm hq hs
  · cases e

theorem writeStep_inForm {c : CopyRun} {k : Nat} {da : Nat} {got : List Acc} (hs : s.InForm) : (writeStep s c k da got).1.InForm
    := by
  unfold writeStep
  split
  · exact hs
  split
  · rename_i hf
    obtain ⟨s', a, hs', ha⟩ := foldStop_halt_of (congrArg Prod.snd hf) hs fun s a t e hs => makeWrite_inForm e hs
    exact makeWrite_error_inForm ha hs'
  · exact foldStop_inForm hs fun s a t e hs => makeWrite_inForm e hs

theorem writeStep_halt_inForm {c : CopyRun} {k : Nat} {da : Nat} {got : List Acc} {h : Halt}
    (e : (writeStep s c k da got).2 = some h) (hs : s.InForm) : h.InForm := by
  unfold writeStep at e
  split at e
  · cases e
    trivial
  split at e
  · rename_i hf
    cases e
    obtain ⟨s', a, hs', ha⟩ := foldStop_halt_of (congrArg Prod.snd hf) hs fun s a t e hs => makeWrite_inForm e hs
    exact makeWrite_error_inForm ha hs'
  · obtain ⟨s', a, hs', ha⟩ := foldStop_halt_of e hs fun s a t e hs => makeWrite_inForm e hs
    exact makeWrite_error_inForm ha hs'

theorem runSteps_inForm {c : CopyRun} {k : Nat} {got : List Acc} {ps : List (List Nat × Nat)} (hs : s.InForm) :
    (runSteps s c k got ps).1.InForm := by
  induction ps generalizing s c k got with
  | nil => exact hs
  | cons p rest ih =>
    unfold runSteps
    have hr : (readElems s c got (p.1.drop got.length)).1.InForm := readElems_inForm hs
    split
    · rename_i hq
      rw [hq] at hr
      exact hr
    rename_i s' got' hq
    rw [hq] at hr
    have hw : (writeStep s' c k p.2 got').1.InForm := writeStep_inForm hr
    split
    · rename_i hq
      rw [hq] at hw
      exact hw
    · rename_i hq
      rw [hq] at hw
      exact ih hw

theorem runSteps_halt_inForm {c : CopyRun} {k : Nat} {got : List Acc} {ps : List (List Nat × Nat)} {h : Halt}
    (e : (runSteps s c k got ps).2.2.2 = some h) (hs : s.InForm) : h.InForm := by
  induction ps generalizing s c k got with
  | nil => cases e
  | cons p rest ih =>
    unfold runSteps at e
    have hr : (readElems s c got (p.1.drop got.length)).1.InForm := readElems_inForm hs
    split at e
    · rename_i hq
      cases e
      exact readElems_halt_inForm (congrArg (fun r => r.2.2) hq) hs
    rename_i s' got' hq
    rw [hq] at hr
    have hw : (writeStep s' c k p.2 got').1.InForm := writeStep_inForm hr
    split at e
    · rename_i hq
      cases e
      exact writeStep_halt_inForm (congrArg Prod.snd hq) hr
    · rename_i hq
      rw [hq] at hw
      exact ih e hw

theorem runCopy_inForm {c : CopyRun} {k : Nat} (hs : s.InForm) : (runCopy s c k).1.InForm := runSteps_inForm hs

theorem runCopy_halt_inForm {c : CopyRun} {k : Nat} {h : Halt} (e : (runCopy s c k).2.2.2 = some h) (hs : s.InForm) : h.InForm
    :=
  runSteps_halt_inForm e hs

theorem keepCopy_inForm {n : Nat} {k : Nat} {got : List Acc} {sent : Bool} (hs : s.InForm) : (keepCopy s n k got sent).InForm :=
  hs

theorem finishCopy_inForm {c : CopyRun} (hs : s.InForm) : (finishCopy s c).InForm := by
  grind [finishCopy, modRing_inForm, finishOp_inForm]

theorem denyCopy_inForm {c : CopyRun} {gate : Nat} {d : GDest} {set : OSet} (hs : s.InForm) : (denyCopy s c gate d set).InForm
    := by
  grind [denyCopy, failOp_inForm, State.notice_inForm]

theorem execCopyComplete_inForm {op : Nat} (e : execCopyComplete op s = .next t) (hs : s.InForm) : t.InForm := by
  grind [execCopyComplete, finishCopy_inForm, runCopy_inForm, runCopy_halt_inForm, keepCopy_inForm, denyCopy_inForm]

theorem suspendCopy_inForm {c : CopyRun} {x2 : TErr} {va : Nat} {write : Bool} (hs : s.InForm) :
    (suspendCopy s c x2 va write).InForm :=
  reportBatch_inForm hs

theorem stopCopy_inForm {c : CopyRun} {cause : Cause} {va : Nat} (hs : s.InForm) : (stopCopy s c cause va).InForm := by
  grind [stopCopy, State.modCrew_inForm, exitPosted_inForm, finishOp_inForm]

theorem copyFault_inForm {op : Nat} (e : copyFault op s = .next t) (hs : s.InForm) : t.InForm := by
  unfold copyFault at e
  split at e
  all_goals grind [runCopy_inForm, runCopy_halt_inForm, keepCopy_inForm, stopCopy_inForm, suspendCopy_inForm, failOp_inForm,
    State.inForm_iff]

theorem dropMsg_inForm {core : Nat} {m : Msg} (hs : s.InForm) : (dropMsg s core m).InForm := by
  grind [dropMsg, State.modCrew_inForm, exitPosted_inForm]

theorem sendOver_inForm {m : Msg} (hs : s.InForm) : (sendOver s m).InForm := by
  grind [sendOver, finishOp_inForm]

theorem receiveMsg_inForm {core : Nat} {m : Msg} {n : Nat} {o : Op} {buf : Nat} (hs : s.InForm) :
    (receiveMsg s core m n o buf).InForm := by
  grind [receiveMsg, deliverMsg_inForm, failOp_inForm, finishOp_inForm, State.modCore_inForm]

theorem execMessageArrival_inForm {core : Nat} (e : execMessageArrival core s = .next t) (hs : s.InForm) : t.InForm := by
  grind [execMessageArrival, State.modCore_inForm, sendOver_inForm, receiveMsg_inForm, dropMsg_inForm]

/-! ## Caches -/

theorem State.modSlice_inForm {k : Nat} {f : Slice → Slice} (hs : s.InForm) : (State.modSlice s k f).InForm := hs

theorem gateReq_inForm {k : Nat} {x2 : L2Req} (e : gateReq s k x2 = some t) (hs : s.InForm) : t.InForm := by
  grind [gateReq, passGate_inForm]

theorem nextHeld_inForm {k : Nat} {u : L2Req} (e : nextHeld s k = some (u, t)) (hs : s.InForm) : t.InForm := by
  have ho : ∀ h, (if entryRoom (s.slice k) h then
        ((s.slice k).held.filter fun r => r.h == h).findSome? fun r => (gateReq s k r).map fun t => (r, t) else none) = some (u, t) →
      t.InForm := by
    intro h eh
    split at eh
    · obtain ⟨r, _, er⟩ := List.exists_of_findSome?_eq_some eh
      obtain ⟨t', et, eq⟩ := Option.map_eq_some_iff.1 er
      cases eq
      exact gateReq_inForm et hs
    · cases eh
  unfold nextHeld at e
  dsimp only at e
  split at e
  · rename_i hq
    cases e
    exact ho _ hq
  · exact ho _ e

theorem markMissed_inForm {x1 : L2Req} (hs : s.InForm) : (markMissed s x1).InForm := hs

theorem serveEntries_inForm {k : Nat} (hs : s.InForm) : (serveEntries s k).InForm := hs

theorem queueMiss_inForm {k : Nat} {x2 : L2Req} (hs : s.InForm) : (queueMiss s k x2).InForm := by
  grind [queueMiss, State.modSlice_inForm, queueHbm_inForm, touchFrame_inForm]

theorem allocMiss_inForm {k : Nat} {x2 : L2Req} (hs : s.InForm) : (allocMiss s k x2).InForm := by
  grind [allocMiss, modL2_inForm, l2Alloc_inForm]

theorem admitReq_inForm {k : Nat} {x2 : L2Req} (hs : s.InForm) : (admitReq s k x2).InForm := by
  grind [admitReq, countEvent_inForm, State.tickSeq_inForm, touchL2_inForm, queueMiss_inForm, allocMiss_inForm,
    markMissed_inForm, serveEntries_inForm, State.modSlice_inForm]

theorem l2RequestAccept_inForm {slice : Nat} (e : l2RequestAccept slice s = .next t) (hs : s.InForm) : t.InForm := by
  grind [l2RequestAccept, → nextHeld_inForm, performFor_inForm, admitReq_inForm, State.modSlice_inForm]

theorem State.modChannel_inForm {c : Nat} {f : Channel → Channel} (hs : s.InForm) : (State.modChannel s c f).InForm := hs

theorem execHbmChannelServe_inForm {channel : Nat} (e : execHbmChannelServe channel s = .next t) (hs : s.InForm) : t.InForm := by
  grind [execHbmChannelServe, State.modChannel_inForm, countEvent_inForm, State.modSlice_inForm]

theorem execHbmTokenRefill_inForm {channel : Nat} (e : execHbmTokenRefill channel s = .next t) (hs : s.InForm) : t.InForm := by
  grind [execHbmTokenRefill, State.modChannel_inForm, foldl_inForm]

theorem l2Fill_inForm {slice : Nat} {line : Nat} (e : l2Fill slice line s = .next t) (hs : s.InForm) : t.InForm := by
  grind [l2Fill, serveEntries_inForm, State.modSlice_inForm]

theorem landLine_inForm {core : Nat} {key : Nat} {vf : Nat} {x4 : Bool} {pcls : Nat} {bs : List Byte} (hs : s.InForm) :
    (landLine s core key vf x4 pcls bs).InForm :=
  haveLine_inForm hs

theorem l1FillLand_inForm {core : Nat} {line : Nat} (e : l1FillLand core line s = .next t) (hs : s.InForm) : t.InForm := by
  grind [l1FillLand, State.modSlice_inForm, landLine_inForm]

theorem execL1DirtyWriteback_inForm {core : Nat} {line : Nat} (e : execL1DirtyWriteback core line s = .next t) (hs : s.InForm) :
    t.InForm := by
  cases e
  exact cleanLine_inForm hs

theorem execL1LineExpiry_inForm {core : Nat} {line : Nat} (e : execL1LineExpiry core line s = .next t) (hs : s.InForm) :
    t.InForm := by
  grind [execL1LineExpiry, dropLine_inForm]

theorem sendRun_inForm {w : WriteBack} {x2 : Nat × List Byte} (e : sendRun s w x2 = .ok t) (hs : s.InForm) : t.InForm := by
  grind [sendRun, requestMore_inForm, request_inForm]

theorem sendWb_inForm {w : WriteBack} (hs : s.InForm) : (sendWb s w).1.InForm :=
  foldStop_inForm hs fun _ _ _ e hs => sendRun_inForm e hs

theorem loseWb_inForm {w : WriteBack} {x2 : NoSend} (hs : s.InForm) : (loseWb s w x2).InForm := by
  unfold loseWb
  split
  all_goals grind [failGrid_inForm, countCause_inForm, State.inForm_iff]

theorem answerFlush_inForm (hs : s.InForm) : (answerFlush s).InForm := by
  refine foldl_inForm hs fun s q hs => ?_
  split
  · exact hs
  dsimp only
  split
  · rename_i hq
    exact sendFrame_inForm hq hs
  · exact hs

theorem flushPeer_inForm {dev : Nat} {vf : Nat} {trk : Nat} (hs : s.InForm) : (flushPeer s dev vf trk).InForm := by
  grind [flushPeer, dropLine_inForm, answerFlush_inForm, State.inForm_iff, foldl_inForm]

theorem execWriteBackAcknowledgement_inForm {die : Nat} {line : Nat} (e : execWriteBackAcknowledgement die line s = .next t)
    (hs : s.InForm) : t.InForm := by
  grind [execWriteBackAcknowledgement, State.tickSeq_inForm, l2Merge_inForm, sendWb_inForm, answerFlush_inForm,
    loseWb_inForm, State.inForm_iff]

/-! ## FloatOps -/

theorem fOp2_inForm {m : SMod} {x2 : Option RMode} {d : Operand} {a : Operand} {b : Operand} {g : Guard}
    {f : RMode → FV → FV → Nat × Nat} (e : fOp2 s m x2 d a b g f = .next t) (hs : s.InForm) : t.InForm :=
  vecLane_inForm e hs

theorem fOp3_inForm {m : SMod} {x2 : Option RMode} {d : Operand} {a : Operand} {b : Operand} {g : Guard}
    {f : RMode → FV → FV → FV → Nat × Nat} (e : fOp3 s m x2 d a b g f = .next t) (hs : s.InForm) : t.InForm :=
  vecLane_inForm e hs

theorem execFadd_inForm {m : SMod} {x1 : Option RMode} {d : Operand} {a : Operand} {b : Operand} {g : Guard}
    (e : execFadd m x1 d a b g s = .next t) (hs : s.InForm) : t.InForm :=
  fOp2_inForm e hs

theorem execFsub_inForm {m : SMod} {x1 : Option RMode} {d : Operand} {a : Operand} {b : Operand} {g : Guard}
    (e : execFsub m x1 d a b g s = .next t) (hs : s.InForm) : t.InForm :=
  fOp2_inForm e hs

theorem execFmul_inForm {m : SMod} {x1 : Option RMode} {d : Operand} {a : Operand} {b : Operand} {g : Guard}
    (e : execFmul m x1 d a b g s = .next t) (hs : s.InForm) : t.InForm :=
  fOp2_inForm e hs

theorem execFfma_inForm {m : SMod} {x1 : Option RMode} {d : Operand} {a : Operand} {b : Operand} {g : Guard}
    (e : execFfma m x1 d a b g s = .next t) (hs : s.InForm) : t.InForm :=
  fOp3_inForm e hs

theorem fExact2_inForm {m : SMod} {d : Operand} {a : Operand} {b : Operand} {g : Guard} {f : FV → FV → Nat × Nat}
    (e : fExact2 s m d a b g f = .next t) (hs : s.InForm) : t.InForm :=
  vecLane_inForm e hs

theorem execFmin_inForm {m : SMod} {d : Operand} {a : Operand} {b : Operand} {g : Guard} (e : execFmin m d a b g s = .next t)
    (hs : s.InForm) : t.InForm :=
  fExact2_inForm e hs

theorem execFmax_inForm {m : SMod} {d : Operand} {a : Operand} {b : Operand} {g : Guard} (e : execFmax m d a b g s = .next t)
    (hs : s.InForm) : t.InForm :=
  fExact2_inForm e hs

theorem fsetp_inForm {m : SMod} {d : Fin 7} {a : Operand} {b : Operand} {g : Guard} {f : FV → FV → Bool}
    (e : fsetp s m d a b g f = .next t) (hs : s.InForm) : t.InForm :=
  cmpOp_inForm e hs

theorem execFsetpEq_inForm {m : SMod} {d : Fin 7} {a : Operand} {b : Operand} {g : Guard}
    (e : execFsetpEq m d a b g s = .next t) (hs : s.InForm) : t.InForm :=
  fsetp_inForm e hs

theorem execFsetpNe_inForm {m : SMod} {d : Fin 7} {a : Operand} {b : Operand} {g : Guard}
    (e : execFsetpNe m d a b g s = .next t) (hs : s.InForm) : t.InForm :=
  fsetp_inForm e hs

theorem execFsetpLt_inForm {m : SMod} {d : Fin 7} {a : Operand} {b : Operand} {g : Guard}
    (e : execFsetpLt m d a b g s = .next t) (hs : s.InForm) : t.InForm :=
  fsetp_inForm e hs

theorem execFsetpLe_inForm {m : SMod} {d : Fin 7} {a : Operand} {b : Operand} {g : Guard}
    (e : execFsetpLe m d a b g s = .next t) (hs : s.InForm) : t.InForm :=
  fsetp_inForm e hs

theorem execFsetpNan_inForm {m : SMod} {d : Fin 7} {a : Operand} {b : Operand} {g : Guard}
    (e : execFsetpNan m d a b g s = .next t) (hs : s.InForm) : t.InForm :=
  fsetp_inForm e hs

theorem execFrnd_inForm {m : SMod} {x1 : Option RMode} {d : Operand} {a : Operand} {g : Guard}
    (e : execFrnd m x1 d a g s = .next t) (hs : s.InForm) : t.InForm :=
  vecLane_inForm e hs

theorem execFldexp_inForm {m : SMod} {x1 : Option RMode} {d : Operand} {a : Operand} {b : Operand} {g : Guard}
    (e : execFldexp m x1 d a b g s = .next t) (hs : s.InForm) : t.InForm :=
  vecLane_inForm e hs

theorem execFldxa_inForm {m : SMod} {x1 : Option RMode} {d : Operand} {a : Operand} {b : Operand} {g : Guard}
    (e : execFldxa m x1 d a b g s = .next t) (hs : s.InForm) : t.InForm :=
  vecLane_inForm e hs

theorem pOp2_inForm {fm : FFmt} {mode : Bool} {m : SMod} {x4 : Option RMode} {d : Operand} {a : Operand} {b : Operand}
    {g : Guard} {f : RMode → FV → FV → Nat × Nat} (e : pOp2 s fm mode m x4 d a b g f = .next t) (hs : s.InForm) : t.InForm :=
  vecLane_inForm e hs

theorem pOp3_inForm {fm : FFmt} {m : SMod} {x3 : Option RMode} {d : Operand} {a : Operand} {b : Operand} {g : Guard}
    (e : pOp3 s fm m x3 d a b g = .next t) (hs : s.InForm) : t.InForm :=
  vecLane_inForm e hs

theorem execFaddH2_inForm {m : SMod} {x1 : Option RMode} {d : Operand} {a : Operand} {b : Operand} {g : Guard}
    (e : execFaddH2 m x1 d a b g s = .next t) (hs : s.InForm) : t.InForm :=
  pOp2_inForm e hs

theorem execFmulH2_inForm {m : SMod} {x1 : Option RMode} {d : Operand} {a : Operand} {b : Operand} {g : Guard}
    (e : execFmulH2 m x1 d a b g s = .next t) (hs : s.InForm) : t.InForm :=
  pOp2_inForm e hs

theorem execFfmaH2_inForm {m : SMod} {x1 : Option RMode} {d : Operand} {a : Operand} {b : Operand} {g : Guard}
    (e : execFfmaH2 m x1 d a b g s = .next t) (hs : s.InForm) : t.InForm :=
  pOp3_inForm e hs

theorem execFminH2_inForm {m : SMod} {d : Operand} {a : Operand} {b : Operand} {g : Guard}
    (e : execFminH2 m d a b g s = .next t) (hs : s.InForm) : t.InForm :=
  pOp2_inForm e hs

theorem execFmaxH2_inForm {m : SMod} {d : Operand} {a : Operand} {b : Operand} {g : Guard}
    (e : execFmaxH2 m d a b g s = .next t) (hs : s.InForm) : t.InForm :=
  pOp2_inForm e hs

theorem execFaddB2_inForm {m : SMod} {x1 : Option RMode} {d : Operand} {a : Operand} {b : Operand} {g : Guard}
    (e : execFaddB2 m x1 d a b g s = .next t) (hs : s.InForm) : t.InForm :=
  pOp2_inForm e hs

theorem execFmulB2_inForm {m : SMod} {x1 : Option RMode} {d : Operand} {a : Operand} {b : Operand} {g : Guard}
    (e : execFmulB2 m x1 d a b g s = .next t) (hs : s.InForm) : t.InForm :=
  pOp2_inForm e hs

theorem execFfmaB2_inForm {m : SMod} {x1 : Option RMode} {d : Operand} {a : Operand} {b : Operand} {g : Guard}
    (e : execFfmaB2 m x1 d a b g s = .next t) (hs : s.InForm) : t.InForm :=
  pOp3_inForm e hs

theorem fdp2_inForm {fm : FFmt} {m : SMod} {x3 : Option RMode} {d : Operand} {a : Operand} {b : Operand} {g : Guard}
    (e : fdp2 s fm m x3 d a b g = .next t) (hs : s.InForm) : t.InForm :=
  vecLane_inForm e hs

theorem execFdp2H2_inForm {m : SMod} {x1 : Option RMode} {d : Operand} {a : Operand} {b : Operand} {g : Guard}
    (e : execFdp2H2 m x1 d a b g s = .next t) (hs : s.InForm) : t.InForm :=
  fdp2_inForm e hs

theorem execFdp2B2_inForm {m : SMod} {x1 : Option RMode} {d : Operand} {a : Operand} {b : Operand} {g : Guard}
    (e : execFdp2B2 m x1 d a b g s = .next t) (hs : s.InForm) : t.InForm :=
  fdp2_inForm e hs

theorem sfn_inForm {m : SMod} {d : Operand} {a : Operand} {g : Guard} {f : Word → Nat × Nat} (e : sfn s m d a g f = .next t)
    (hs : s.InForm) : t.InForm :=
  vecLane_inForm e hs

theorem execFrcp_inForm {m : SMod} {d : Operand} {a : Operand} {g : Guard} (e : execFrcp m d a g s = .next t) (hs : s.InForm) :
    t.InForm :=
  sfn_inForm e hs

theorem execFrsq_inForm {m : SMod} {d : Operand} {a : Operand} {g : Guard} (e : execFrsq m d a g s = .next t) (hs : s.InForm) :
    t.InForm :=
  sfn_inForm e hs

theorem execFsqrt_inForm {m : SMod} {d : Operand} {a : Operand} {g : Guard} (e : execFsqrt m d a g s = .next t) (hs : s.InForm)
    : t.InForm :=
  sfn_inForm e hs

theorem execFex2_inForm {m : SMod} {d : Operand} {a : Operand} {g : Guard} (e : execFex2 m d a g s = .next t) (hs : s.InForm) :
    t.InForm :=
  sfn_inForm e hs

theorem execFlg2_inForm {m : SMod} {d : Operand} {a : Operand} {g : Guard} (e : execFlg2 m d a g s = .next t) (hs : s.InForm) :
    t.InForm :=
  sfn_inForm e hs

theorem execFsin_inForm {m : SMod} {d : Operand} {a : Operand} {g : Guard} (e : execFsin m d a g s = .next t) (hs : s.InForm) :
    t.InForm :=
  sfn_inForm e hs

theorem execFcos_inForm {m : SMod} {d : Operand} {a : Operand} {g : Guard} (e : execFcos m d a g s = .next t) (hs : s.InForm) :
    t.InForm :=
  sfn_inForm e hs

theorem execFtanh_inForm {m : SMod} {d : Operand} {a : Operand} {g : Guard} (e : execFtanh m d a g s = .next t) (hs : s.InForm)
    : t.InForm :=
  sfn_inForm e hs

/-! ## Moves -/

theorem execIsetp_inForm {cc : ICmp} {d : Fin 7} {a : Operand} {b : Operand} {g : Guard} (e : execIsetp cc d a b g s = .next t)
    (hs : s.InForm) : t.InForm :=
  cmpOp_inForm e hs

theorem execPsetpAnd_inForm {d : Fin 7} {a : Fin 8} {b : Fin 8} {g : Guard} (e : execPsetpAnd d a b g s = .next t)
    (hs : s.InForm) : t.InForm :=
  psetOp_inForm e hs

theorem execPsetpOr_inForm {d : Fin 7} {a : Fin 8} {b : Fin 8} {g : Guard} (e : execPsetpOr d a b g s = .next t) (hs : s.InForm)
    : t.InForm :=
  psetOp_inForm e hs

theorem execPsetpXor_inForm {d : Fin 7} {a : Fin 8} {b : Fin 8} {g : Guard} (e : execPsetpXor d a b g s = .next t)
    (hs : s.InForm) : t.InForm :=
  psetOp_inForm e hs

theorem execPsetpAndn_inForm {d : Fin 7} {a : Fin 8} {b : Fin 8} {g : Guard} (e : execPsetpAndn d a b g s = .next t)
    (hs : s.InForm) : t.InForm :=
  psetOp_inForm e hs

theorem execSel_inForm {d : Operand} {a : Operand} {b : Operand} {g : Guard} (e : execSel d a b g s = .next t) (hs : s.InForm) :
    t.InForm := by
  grind [execSel, issueOp_inForm, vecBody_inForm]

theorem execMov_inForm {d : Operand} {a : Operand} {g : Guard} (e : execMov d a g s = .next t) (hs : s.InForm) : t.InForm :=
  intOp1_inForm e hs

theorem execPrdw_inForm {d : Operand} {g : Guard} (e : execPrdw d g s = .next t) (hs : s.InForm) : t.InForm := by
  grind [execPrdw, issueOp_inForm, vecBody_inForm]

theorem pwrwBody_inForm {a : Operand} {g : Guard} {x : Iss} (e : pwrwBody s a g x = .ok t) (hs : s.InForm) : t.InForm := by
  grind [pwrwBody, Iss.put_inForm, State.inForm_iff]

theorem execPwrw_inForm {a : Operand} {g : Guard} (e : execPwrw a g s = .next t) (hs : s.InForm) : t.InForm := by
  grind [execPwrw, issueOp_inForm, pwrwBody_inForm]

theorem w2kBody_inForm {d : Fin 30} {a : Operand} {b : Operand} {g : Guard} {x : Iss} (e : w2kBody s d a b g x = .ok t)
    (hs : s.InForm) : t.InForm := by
  grind [w2kBody, idle_inForm, Iss.put_inForm, State.inForm_iff]

theorem execW2k_inForm {d : Fin 30} {a : Operand} {b : Operand} {g : Guard} (e : execW2k d a b g s = .next t) (hs : s.InForm) :
    t.InForm := by
  grind [execW2k, issueOp_inForm, w2kBody_inForm]

theorem osqBody_inForm {d : Fin 30} {a : Operand ⊕ Fin 8} {g : Guard} {x : Iss} (e : osqBody s d a g x = .ok t) (hs : s.InForm)
    : t.InForm := by
  grind [osqBody, idle_inForm, Iss.put_inForm, State.inForm_iff]

theorem execOsq_inForm {d : Fin 30} {a : Operand ⊕ Fin 8} {g : Guard} (e : execOsq d a g s = .next t) (hs : s.InForm) : t.InForm
    := by
  grind [execOsq, issueOp_inForm, osqBody_inForm]

/-! ## Convert -/

theorem cvt1_inForm {d : Operand} {a : Operand} {g : Guard} {f : Word → Nat × Nat} (e : cvt1 s d a g f = .next t)
    (hs : s.InForm) : t.InForm :=
  vecLane_inForm e hs

theorem execCvtF32I32_inForm {x0 : Option RMode} {d : Operand} {a : Operand} {g : Guard}
    (e : execCvtF32I32 x0 d a g s = .next t) (hs : s.InForm) : t.InForm :=
  cvt1_inForm e hs

theorem execCvtF32N32_inForm {x0 : Option RMode} {d : Operand} {a : Operand} {g : Guard}
    (e : execCvtF32N32 x0 d a g s = .next t) (hs : s.InForm) : t.InForm :=
  cvt1_inForm e hs

theorem execCvtI32F32_inForm {x0 : Option RMode} {d : Operand} {a : Operand} {g : Guard}
    (e : execCvtI32F32 x0 d a g s = .next t) (hs : s.InForm) : t.InForm :=
  cvt1_inForm e hs

theorem execCvtN32F32_inForm {x0 : Option RMode} {d : Operand} {a : Operand} {g : Guard}
    (e : execCvtN32F32 x0 d a g s = .next t) (hs : s.InForm) : t.InForm :=
  cvt1_inForm e hs

theorem cvtPair_inForm {fm : FFmt} {w : Nat} {x3 : Option RMode} {d : Operand} {a : Operand} {b : Operand} {g : Guard}
    (e : cvtPair s fm w x3 d a b g = .next t) (hs : s.InForm) : t.InForm :=
  vecLane_inForm e hs

theorem execCvtH2F32_inForm {x0 : Option RMode} {d : Operand} {a : Operand} {b : Operand} {g : Guard}
    (e : execCvtH2F32 x0 d a b g s = .next t) (hs : s.InForm) : t.InForm :=
  cvtPair_inForm e hs

theorem execCvtB2F32_inForm {x0 : Option RMode} {d : Operand} {a : Operand} {b : Operand} {g : Guard}
    (e : execCvtB2F32 x0 d a b g s = .next t) (hs : s.InForm) : t.InForm :=
  cvtPair_inForm e hs

theorem execCvtE4X2F32_inForm {x0 : Option RMode} {d : Operand} {a : Operand} {b : Operand} {g : Guard}
    (e : execCvtE4X2F32 x0 d a b g s = .next t) (hs : s.InForm) : t.InForm :=
  cvtPair_inForm e hs

theorem execCvtE5X2F32_inForm {x0 : Option RMode} {d : Operand} {a : Operand} {b : Operand} {g : Guard}
    (e : execCvtE5X2F32 x0 d a b g s = .next t) (hs : s.InForm) : t.InForm :=
  cvtPair_inForm e hs

theorem execCvtF32HL_inForm {d : Operand} {a : Operand} {g : Guard} (e : execCvtF32HL d a g s = .next t) (hs : s.InForm) :
    t.InForm :=
  cvt1_inForm e hs

theorem execCvtF32HH_inForm {d : Operand} {a : Operand} {g : Guard} (e : execCvtF32HH d a g s = .next t) (hs : s.InForm) :
    t.InForm :=
  cvt1_inForm e hs

theorem execCvtF32BL_inForm {d : Operand} {a : Operand} {g : Guard} (e : execCvtF32BL d a g s = .next t) (hs : s.InForm) :
    t.InForm :=
  cvt1_inForm e hs

theorem execCvtF32BH_inForm {d : Operand} {a : Operand} {g : Guard} (e : execCvtF32BH d a g s = .next t) (hs : s.InForm) :
    t.InForm :=
  cvt1_inForm e hs

theorem cvtByte_inForm {fm : FFmt} {d : Operand} {a : Operand} {b : Operand} {g : Guard} (e : cvtByte s fm d a b g = .next t)
    (hs : s.InForm) : t.InForm :=
  vecLane_inForm e hs

theorem execCvtF32E4_inForm {d : Operand} {a : Operand} {b : Operand} {g : Guard} (e : execCvtF32E4 d a b g s = .next t)
    (hs : s.InForm) : t.InForm :=
  cvtByte_inForm e hs

theorem execCvtF32E5_inForm {d : Operand} {a : Operand} {b : Operand} {g : Guard} (e : execCvtF32E5 d a b g s = .next t)
    (hs : s.InForm) : t.InForm :=
  cvtByte_inForm e hs

theorem cvtbBody_inForm {c : Nat} {x2 : Option RMode} {d : Operand} {a : Operand} {b : Fin 30} {g : Guard} {x : Iss}
    (e : cvtbBody s c x2 d a b g x = .ok t) (hs : s.InForm) : t.InForm := by
  grind [cvtbBody, idle_inForm, Iss.put_inForm, State.inForm_iff]

theorem execCvtb_inForm {c : Fin 7} {x1 : Option RMode} {d : Operand} {a : Operand} {b : Fin 30} {g : Guard}
    (e : execCvtb c x1 d a b g s = .next t) (hs : s.InForm) : t.InForm := by
  grind [execCvtb, issueOp_inForm, cvtbBody_inForm]

theorem execDqb_inForm {d : Operand} {a : Operand} {b : Operand} {g : Guard} (e : execDqb d a b g s = .next t) (hs : s.InForm) :
    t.InForm :=
  vecLane_inForm e hs

theorem execBpack_inForm {c : Fin 7} {d : Operand} {a : Operand} {g : Guard} (e : execBpack c d a g s = .next t) (hs : s.InForm)
    : t.InForm := by
  grind [execBpack, issueOp_inForm, vecBody_inForm]

theorem execBunpk_inForm {c : Fin 7} {d : Operand} {a : Operand} {g : Guard} (e : execBunpk c d a g s = .next t) (hs : s.InForm)
    : t.InForm := by
  grind [execBunpk, issueOp_inForm, vecBody_inForm]

/-! ## CrossLane -/

theorem execShfl_inForm {m : ShflMode} {d : Operand} {a : Operand} {b : Operand} {g : Guard}
    (e : execShfl m d a b g s = .next t) (hs : s.InForm) : t.InForm := by
  grind [execShfl, issueOp_inForm, vecBody_inForm]

theorem execVoteAll_inForm {d : Fin 7} {a : Fin 8} {g : Guard} (e : execVoteAll d a g s = .next t) (hs : s.InForm) : t.InForm := by
  grind [execVoteAll, issueOp_inForm, predBody_inForm]

theorem execVoteAny_inForm {d : Fin 7} {a : Fin 8} {g : Guard} (e : execVoteAny d a g s = .next t) (hs : s.InForm) : t.InForm := by
  grind [execVoteAny, issueOp_inForm, predBody_inForm]

theorem execVoteBal_inForm {d : Operand} {a : Fin 8} {g : Guard} (e : execVoteBal d a g s = .next t) (hs : s.InForm) : t.InForm
    := by
  grind [execVoteBal, issueOp_inForm, vecBody_inForm]

theorem reduce_inForm {d : Operand} {a : Operand} {g : Guard} {f : List Word → Word × Nat} (e : reduce s d a g f = .next t)
    (hs : s.InForm) : t.InForm := by
  grind [reduce, issueOp_inForm, vecBody_inForm]

theorem execRedaddS_inForm {d : Operand} {a : Operand} {g : Guard} (e : execRedaddS d a g s = .next t) (hs : s.InForm) :
    t.InForm :=
  reduce_inForm e hs

theorem execRedminS_inForm {d : Operand} {a : Operand} {g : Guard} (e : execRedminS d a g s = .next t) (hs : s.InForm) :
    t.InForm :=
  reduce_inForm e hs

theorem execRedminN_inForm {d : Operand} {a : Operand} {g : Guard} (e : execRedminN d a g s = .next t) (hs : s.InForm) :
    t.InForm :=
  reduce_inForm e hs

theorem execRedmaxS_inForm {d : Operand} {a : Operand} {g : Guard} (e : execRedmaxS d a g s = .next t) (hs : s.InForm) :
    t.InForm :=
  reduce_inForm e hs

theorem execRedmaxN_inForm {d : Operand} {a : Operand} {g : Guard} (e : execRedmaxN d a g s = .next t) (hs : s.InForm) :
    t.InForm :=
  reduce_inForm e hs

theorem reduceIdx_inForm {d : Operand} {a : Operand} {b : Operand} {g : Guard} {better : Word → Word → Bool} {v0 : Word}
    (e : reduceIdx s d a b g better v0 = .next t) (hs : s.InForm) : t.InForm := by
  grind [reduceIdx, issueOp_inForm, vecBody_inForm]

theorem execRedminiN_inForm {d : Operand} {a : Operand} {b : Operand} {g : Guard} (e : execRedminiN d a b g s = .next t)
    (hs : s.InForm) : t.InForm :=
  reduceIdx_inForm e hs

theorem execRedmaxiN_inForm {d : Operand} {a : Operand} {b : Operand} {g : Guard} (e : execRedmaxiN d a b g s = .next t)
    (hs : s.InForm) : t.InForm :=
  reduceIdx_inForm e hs

theorem reduceF_inForm {d : Operand} {a : Operand} {g : Guard} {other : Nat} {f : List Nat → Nat × Nat}
    (e : reduceF s d a g other f = .next t) (hs : s.InForm) : t.InForm := by
  grind [reduceF, issueOp_inForm, vecBody_inForm]

theorem execRedaddF32_inForm {d : Operand} {a : Operand} {g : Guard} (e : execRedaddF32 d a g s = .next t) (hs : s.InForm) :
    t.InForm :=
  reduceF_inForm e hs

theorem execRedminF32_inForm {d : Operand} {a : Operand} {g : Guard} (e : execRedminF32 d a g s = .next t) (hs : s.InForm) :
    t.InForm :=
  reduceF_inForm e hs

theorem execRedmaxF32_inForm {d : Operand} {a : Operand} {g : Guard} (e : execRedmaxF32 d a g s = .next t) (hs : s.InForm) :
    t.InForm :=
  reduceF_inForm e hs

/-! ## Frames -/

theorem reply_inForm {f : Frame} {trk : Nat} {gated : Option (Nat × OSet)} {body : FrameBody} (hs : s.InForm) :
    (reply s f trk gated body).InForm := by
  grind [reply, sendFrame_inForm, State.notice_inForm]

theorem refuse_inForm {f : Frame} {trk : Nat} (hs : s.InForm) : (refuse s f trk).InForm := reply_inForm hs

theorem peerRead_inForm {f : Frame} {pa : Nat} {n : Nat} {trk : Nat} (hs : s.InForm) : (peerRead s f pa n trk).InForm := by
  grind [peerRead, refuse_inForm, reply_inForm, State.inForm_iff]

theorem peerPut_inForm {f : Frame} {vf : Nat} {pa : Nat} {bs : List Byte} (e : peerPut s f vf pa bs = some t) (hs : s.InForm) :
    t.InForm := by
  unfold peerPut at e
  split at e
  · cases e
  dsimp only at e
  split at e
  · cases e
  split at e
  · cases e
  · rename_i hj
    cases e
    exact sideWrite_inForm (foldE_inForm hj hs fun s i t e hs => joinGranule_inForm e hs)

theorem peerWrite_inForm {f : Frame} {pa : Nat} {bs : List Byte} {trk : Nat} (hs : s.InForm) : (peerWrite s f pa bs trk).InForm
    := by
  unfold peerWrite
  split
  · exact refuse_inForm hs
  · rename_i hq
    obtain ⟨vf, _, hp⟩ := Option.bind_eq_some_iff.1 hq
    exact reply_inForm (peerPut_inForm hp hs)

theorem peerRmw_inForm {f : Frame} {op : RmwOp} {pa : Nat} {v : Dword} {c : Dword} {trk : Nat} (hs : s.InForm) :
    (peerRmw s f op pa v c trk).InForm := by
  unfold peerRmw
  dsimp only
  split
  · exact refuse_inForm hs
  split
  · exact refuse_inForm hs
  split
  · split
    · exact refuse_inForm hs
    · rename_i hp
      exact reply_inForm (peerPut_inForm hp hs)
  · exact reply_inForm hs

theorem peerAsk_inForm {f : Frame} (hs : s.InForm) : (peerAsk s f).InForm := by
  grind [peerAsk, refuse_inForm, sendL2_inForm]

theorem peerServe_inForm {f : Frame} (hs : s.InForm) : (peerServe s f).InForm := by
  grind [peerServe, peerRead_inForm, peerWrite_inForm, peerRmw_inForm]

theorem freeTracker_inForm {i : Nat} (hs : s.InForm) : (freeTracker s i).InForm := by
  unfold freeTracker
  split
  · exact hs
  · exact hs

theorem blankTracker_inForm {i : Nat} (hs : s.InForm) : (blankTracker s i).InForm := hs

theorem outdateWritten_inForm {x1 : Tracker} (hs : s.InForm) : (outdateWritten s x1).InForm := by
  grind [outdateWritten, outdateLine_inForm]

theorem ackWb_inForm {a : Acc} (hs : s.InForm) : (ackWb s a).InForm := by
  grind [ackWb, State.modCore_inForm, answerFlush_inForm, State.inForm_iff, foldl_inForm]

theorem peerAck_inForm {i : Nat} {x2 : Tracker} (hs : s.InForm) : (peerAck s i x2).InForm := by
  grind [peerAck, freeTracker_inForm, ackCmd_inForm, ackWb_inForm, outdateWritten_inForm]

theorem peerOld_inForm {i : Nat} {x2 : Tracker} {old : Dword} (hs : s.InForm) : (peerOld s i x2 old).InForm := by
  grind [peerOld, outdateWritten_inForm, freeTracker_inForm, State.inForm_iff]

theorem stopWaiting_inForm {core : Nat} {key : Nat} (hs : s.InForm) : (stopWaiting s core key).InForm := by
  unfold stopWaiting
  grind [→ placeOf_inForm, stopCopy_inForm, foldl_inForm]

theorem failWaiting_inForm {core : Nat} {key : Nat} (hs : s.InForm) : (failWaiting s core key).InForm := by
  grind [failWaiting, failOp_inForm, foldl_inForm]

theorem failFetches_inForm {core : Nat} {key : Nat} (hs : s.InForm) : (failFetches s core key).InForm := by
  grind [failFetches, → placeOf_inForm, raiseCause_inForm, foldl_inForm]

theorem loseRequest_inForm {i : Nat} {x2 : Tracker} (hs : s.InForm) : (loseRequest s i x2).InForm := by
  unfold loseRequest
  split
  all_goals grind [blankTracker_inForm, freeTracker_inForm, failCmd_inForm, State.modCore_inForm, failFetches_inForm,
    stopWaiting_inForm, failWaiting_inForm, stopCopy_inForm, failOp_inForm, answerFlush_inForm, loseWb_inForm]

theorem peerData_inForm {i : Nat} {x2 : Tracker} {bs : List Byte} (hs : s.InForm) : (peerData s i x2 bs).InForm := by
  grind [peerData, State.modCmd_inForm, freeTracker_inForm, State.modCore_inForm, sendFrame_inForm, loseRequest_inForm,
    landLine_inForm]

theorem onReply_inForm {f : Frame} {i : Nat} {act : Tracker → State} (hs : s.InForm) (ha : ∀ t, (act t).InForm) :
    (onReply s f i act).InForm := by
  grind [onReply]

theorem execFabricFrameReceive_inForm {f : Frame} (e : execFabricFrameReceive f s = .next t) (hs : s.InForm) : t.InForm := by
  grind [execFabricFrameReceive, peerAsk_inForm, onReply_inForm, peerData_inForm, peerAck_inForm, peerOld_inForm,
    loseRequest_inForm, flushPeer_inForm]

theorem execPeerTimeout_inForm {device : Nat} (e : execPeerTimeout device s = .next t) (hs : s.InForm) : t.InForm := by
  grind [execPeerTimeout, loseRequest_inForm, State.inForm_iff, foldl_inForm]

/-! ## Fit -/

theorem syncShared_inForm {n : Nat} (hs : s.InForm) : (syncShared s n).InForm := by
  grind [syncShared, modRing_inForm, foldl_inForm]

/-! ## Restore -/

theorem savedCopies_inForm {n : Nat} {w : Crew} {g : Grid} (hs : s.InForm) : (savedCopies s n w g).InForm := hs

/-! ## Residency -/

theorem duePoints_inForm {crew : Nat} {grps : List Nat} (hs : s.InForm) : (duePoints s crew grps).InForm := hs

theorem abandonLoad_inForm {n : Nat} {o : Op} {gone : List (Nat × Nat)} (hs : s.InForm) : (abandonLoad s n o gone).InForm := by
  grind [abandonLoad, State.decFlag_inForm, renumberOp_inForm, State.inForm_iff]

theorem abandonLoads_inForm {crew : Nat} {c : Crew} {ps : List (Nat × Nat)} (hs : s.InForm) : (abandonLoads s crew c ps).InForm
    := by
  grind [abandonLoads, abandonLoad_inForm, foldl_inForm]

theorem dropBuffers_inForm {crew : Nat} {c : Crew} {grps : List Nat} (hs : s.InForm) : (dropBuffers s crew c grps).InForm := hs

theorem discardEpisodes_inForm {crew : Nat} {grps : List Nat} (hs : s.InForm) : (discardEpisodes s crew grps).InForm := by
  grind [discardEpisodes, State.endEpisode_inForm, foldl_inForm]

theorem rollback_inForm {crew : Nat} {grps : List Nat} (e : rollback s crew grps = .ok t) (hs : s.InForm) : t.InForm := by
  grind [rollback, duePoints_inForm, discardEpisodes_inForm, dropBuffers_inForm, abandonLoads_inForm, State.inForm_iff]

theorem vacate_inForm {n : Nat} (hs : s.InForm) : (vacate s n).InForm := by
  unfold vacate
  split
  · exact hs
  · exact hs

theorem dropCrewBuffers_inForm {n : Nat} (hs : s.InForm) : (dropCrewBuffers s n).InForm := by
  unfold dropCrewBuffers
  split
  · exact hs
  · exact hs

theorem saveCopies_inForm {n : Nat} (hs : s.InForm) : (saveCopies s n).InForm := by
  grind [saveCopies, State.decFlag_inForm, State.inForm_iff, foldl_inForm]

theorem evictCrew_inForm {n : Nat} (hs : s.InForm) : (evictCrew s n).InForm := by
  unfold evictCrew
  split
  all_goals grind [rollback_inForm, failCrew_inForm, saveCopies_inForm, dropCrewBuffers_inForm, failGrid_inForm,
    State.notice_inForm, countCore_inForm, State.modCrew_inForm]

theorem execMedlarSpillDone_inForm {crew : Nat} (e : execMedlarSpillDone crew s = .next t) (hs : s.InForm) : t.InForm := by
  grind [execMedlarSpillDone, failGrid_inForm, writeImage_inForm, State.modCrew_inForm, vacate_inForm, State.inForm_iff]

theorem haltCrew_inForm {n : Nat} {st : CrewSt} (hs : s.InForm) : (haltCrew s n st).InForm := by
  grind [haltCrew, discardEpisodes_inForm, State.modCore_inForm, State.modCrew_inForm, saveCopies_inForm]

theorem preemptCrew_inForm {n : Nat} (hs : s.InForm) : (preemptCrew s n).InForm := by
  grind [preemptCrew, evictCrew_inForm, State.modCrew_inForm, haltCrew_inForm]

theorem preemptCrews_inForm {ns : List Nat} (hs : s.InForm) : (preemptCrews s ns).InForm := by
  grind [preemptCrews, State.notice_inForm, preemptCrew_inForm, foldl_inForm]

theorem closeGroup_inForm {n : Nat} {grp : Nat} (e : closeGroup s n grp = .ok t) (hs : s.InForm) : t.InForm := by
  grind [closeGroup, → Iss.endRegion_inForm, dropBuffers_inForm, Iss.put_inForm]

theorem closeGroups_inForm {n : Nat} {grps : List Nat} (hs : s.InForm) : (closeGroups s n grps).InForm := by
  induction grps generalizing s with
  | nil => exact hs
  | cons g rest ih =>
    unfold closeGroups
    split
    · rename_i hq
      exact ih (closeGroup_inForm hq hs)
    · exact failCrew_inForm hs
    · exact hs

theorem settleCrew_inForm {n : Nat} (hs : s.InForm) : (settleCrew s n).InForm := by
  grind [settleCrew, closeGroups_inForm]

theorem saveCrew_inForm {n : Nat} (hs : s.InForm) : (saveCrew s n).InForm := by
  grind [saveCrew, failGrid_inForm, writeImage_inForm, State.modCrew_inForm, vacate_inForm, dropCrewBuffers_inForm,
    State.inForm_iff]

theorem execPreemptionSaveDone_inForm {crew : Nat} (e : execPreemptionSaveDone crew s = .next t) (hs : s.InForm) : t.InForm := by
  grind [execPreemptionSaveDone, settleCrew_inForm, saveCrew_inForm]

theorem moveOrder_inForm {src : Nat} {dst : Nat} (hs : s.InForm) : (moveOrder s src dst).1.InForm := by
  grind [moveOrder, startFlush_inForm, acquireAct_inForm]

theorem rebuildExtents_inForm {gid : Nat} {g : Grid} (e : rebuildExtents s gid g = some t) (hs : s.InForm) : t.InForm := by
  grind [rebuildExtents, → readRanges_inForm, pinFrames_inForm, State.modGrid_inForm]

theorem followShared_inForm {n : Nat} {old : Nat} (hs : s.InForm) : (followShared s n old).InForm := by
  unfold followShared
  split
  · exact hs
  · exact hs

theorem readBack_inForm {n : Nat} {w : Crew} {g : Grid} (hs : s.InForm) : (readBack s n w g).1.InForm := by
  unfold readBack
  split
  · exact hs
  · exact hs

theorem resumeOn_inForm {n : Nat} {w : Crew} {g : Grid} {core : Nat} (hs : s.InForm) : (resumeOn s n w g core).InForm := by
  grind [resumeOn, moveOrder_inForm, failGrid_inForm, rebuildExtents_inForm, stopCrews_inForm, State.modGrid_inForm,
    readBack_inForm, followShared_inForm, State.inForm_iff]

theorem passMigr_inForm {crew : Nat} {grps : List Nat} (hs : s.InForm) : (passMigr s crew grps).InForm := by
  grind [passMigr, advance_inForm, foldl_inForm]

theorem execMigrationMove_inForm {crew : Nat} {core : Nat} (e : execMigrationMove crew core s = .next t) (hs : s.InForm) :
    t.InForm := by
  grind [execMigrationMove, State.leaveEpisode_inForm, closeGroups_inForm, moveOrder_inForm, dropCrewBuffers_inForm,
    State.modCore_inForm, passMigr_inForm, State.modCrew_inForm, foldl_inForm]

theorem giveBuffer_inForm {core : Nat} {quad : Nat} {i : Nat} {q : Nat × Nat × Crew × Group} (hs : s.InForm) :
    (giveBuffer s core quad i q).InForm :=
  hs

theorem execFastBufferAssign_inForm {core : Nat} {quad : Nat} (e : execFastBufferAssign core quad s = .next t) (hs : s.InForm) :
    t.InForm := by
  grind [execFastBufferAssign, giveBuffer_inForm]

theorem execFastBufferRecall_inForm {core : Nat} {quad : Nat} (e : execFastBufferRecall core quad s = .next t) (hs : s.InForm) :
    t.InForm := by
  unfold execFastBufferRecall at e
  grind [rollback_inForm, failCrew_inForm, giveBuffer_inForm]

/-! ## Queues -/

theorem execVectorUnmask_inForm {fn : Nat} {vec : Nat} (e : execVectorUnmask fn vec s = .next t) (hs : s.InForm) : t.InForm := by
  grind [execVectorUnmask, State.modVf_inForm, sendMsi_inForm, State.inForm_iff]

theorem enableQueue_inForm {vf : Nat} {n : Nat} (hs : s.InForm) : (enableQueue s vf n).InForm := by
  grind [enableQueue, State.modQueue_inForm]

theorem hostPut_inForm {a : Nat} {n : Nat} {x : Nat} (hs : s.InForm) : (hostPut s a n x).InForm :=
  hs.setHost (Memory.wf_writeN _ _ _ hs.host)

theorem execQueueDoorbell_inForm {vf : Nat} {q : Nat} (e : execQueueDoorbell vf q s = .next t) (hs : s.InForm) : t.InForm := by
  grind [execQueueDoorbell, State.modQueue_inForm]

theorem execAvailEntryRead_inForm {vf : Nat} {q : Nat} (e : execAvailEntryRead vf q s = .next t) (hs : s.InForm) : t.InForm := by
  grind [execAvailEntryRead, hostPut_inForm, State.modQueue_inForm]

theorem beginCmd_inForm {vf : Nat} {q : Nat} {n : Nat} (hs : s.InForm) : (beginCmd s vf q n).InForm := hs

theorem execLaunchCommand_inForm {vf : Nat} {q : Nat} (e : execLaunchCommand vf q s = .next t) (hs : s.InForm) : t.InForm := by
  grind [execLaunchCommand, beginCmd_inForm, State.modQueue_inForm, State.modCmd_inForm, beginGrid_inForm, State.inForm_iff]

theorem evalQueue_inForm {vf : Nat} {q : Nat} (hs : s.InForm) : (evalQueue s vf q).InForm := hs

theorem evalWaits_inForm {vf : Nat} (hs : s.InForm) : (evalWaits s vf).InForm := by
  grind [evalWaits, evalQueue_inForm, foldl_inForm]

theorem execWaitCommand_inForm {vf : Nat} {q : Nat} (e : execWaitCommand vf q s = .next t) (hs : s.InForm) : t.InForm := by
  grind [execWaitCommand, evalQueue_inForm, beginCmd_inForm]

theorem execSignalCommand_inForm {vf : Nat} {q : Nat} (e : execSignalCommand vf q s = .next t) (hs : s.InForm) : t.InForm := by
  grind [execSignalCommand, State.modVf_inForm, evalWaits_inForm, finishCmd_inForm, beginCmd_inForm]

theorem execEventWrite_inForm {vf : Nat} {x1 : Nat} {x : Dword} (e : execEventWrite vf x1 x s = .next t) (hs : s.InForm) :
    t.InForm := by
  grind [execEventWrite, evalWaits_inForm, State.modVf_inForm]

theorem noteCommand_inForm {vf : Nat} {va : Nat} (hs : s.InForm) : (noteCommand s vf va).InForm := by
  unfold noteCommand
  split
  · exact hs
  · exact hs

theorem cmdNoSend_inForm {set : OSet} {x : NoSend} (hs : s.InForm) : (cmdNoSend s set x).InForm := by
  cases x with
  | busy => exact hs
  | unreachable => trivial
  | denied g d => trivial

theorem cmdPut_inForm {k : Nat × Nat × Nat} {proc : Nat} {va : Nat} {bs : List Byte} {set : OSet}
    (e : cmdPut s k proc va bs set = .ok t) (hs : s.InForm) : t.InForm := by
  grind [cmdPut, → bdPage_inForm, bdWrite_inForm, request_inForm, cmdNoSend_inForm]

theorem cmdPut_error_inForm {k : Nat × Nat × Nat} {proc : Nat} {va : Nat} {bs : List Byte} {set : OSet} {h : CmdHalt}
    (e : cmdPut s k proc va bs set = .error h) (hs : s.InForm) : h.InForm := by
  unfold cmdPut at e
  split at e
  · cases e
    trivial
  rename_i hq
  split at e
  · split at e
    · cases e
    · cases e
      trivial
  split at e
  · cases e
    trivial
  split at e
  · cases e
  · cases e
    exact cmdNoSend_inForm hs

theorem cmdGet_inForm {k : Nat × Nat × Nat} {proc : Nat} {va : Nat} {c : Cmd} {u : List Byte} {v1 : OSet}
    (e : cmdGet s k proc va c = .ok (u, v1, t)) (hs : s.InForm) : t.InForm := by
  grind [cmdGet, → bdPage_inForm, → bdBytes_inForm, request_inForm, State.modCmd_inForm, cmdNoSend_inForm]

theorem cmdGet_error_inForm {k : Nat × Nat × Nat} {proc : Nat} {va : Nat} {c : Cmd} {h : CmdHalt}
    (e : cmdGet s k proc va c = .error h) (hs : s.InForm) : h.InForm := by
  unfold cmdGet at e
  split at e
  · cases e
    trivial
  rename_i hq
  have ht := bdPage_inForm hq hs
  split at e
  · split at e
    · cases e
    · cases e
      trivial
  split at e
  · cases e
  split at e
  · cases e
    exact hs
  split at e
  · rename_i hr
    cases e
    exact State.modCmd_inForm (request_inForm hr ht)
  · cases e
    exact cmdNoSend_inForm hs

theorem haltCmd_inForm {k : Nat × Nat × Nat} {x : CmdHalt} (e : haltCmd s k x = .next t) (hh : x.InForm) (hs : s.InForm) :
    t.InForm := by
  unfold haltCmd at e
  split at e
  · cases e
    exact hh
  · cases e
    exact finishCmd_inForm (State.notice_inForm hs)
  · cases e
  · cases e
    exact finishCmd_inForm (State.noteFound_inForm hs)

theorem execWriteCommand_inForm {vf : Nat} {q : Nat} (e : execWriteCommand vf q s = .next t) (hs : s.InForm) : t.InForm := by
  grind [execWriteCommand, beginCmd_inForm, noteCommand_inForm, bdWrite_inForm, finishCmd_inForm, cmdPut_inForm,
    cmdPut_error_inForm, haltCmd_inForm, State.noteFound_inForm]

theorem execFenceCommand_inForm {vf : Nat} {q : Nat} (e : execFenceCommand vf q s = .next t) (hs : s.InForm) : t.InForm := by
  grind [execFenceCommand, finishCmd_inForm, beginCmd_inForm]

theorem copyBlocks_inForm {vf : Nat} {proc : Nat} {src : Nat} {dst : Nat} {n : Nat} (hs : s.InForm) :
    (copyBlocks s vf proc src dst n).1.InForm := by
  induction n generalizing s src dst with
  | zero => exact hs
  | succ n ih =>
    have hn : (noteCommand (noteCommand s vf src) vf dst).InForm := noteCommand_inForm (noteCommand_inForm hs)
    unfold copyBlocks
    dsimp only
    split
    · exact hn
    rename_i hb
    split
    · exact hn
    · rename_i hw
      exact ih (bdWrite_inForm hw (bdBytes_inForm hb hn))

theorem copyBlock_inForm {k : Nat × Nat × Nat} {proc : Nat} {c : Cmd} (e : copyBlock s k proc c = .ok t) (hs : s.InForm) :
    t.InForm := by
  grind [copyBlock, → cmdGet_inForm, cmdGet_error_inForm, cmdPut_inForm, cmdPut_error_inForm, State.modCmd_inForm]

theorem copyBlock_error_inForm {k : Nat × Nat × Nat} {proc : Nat} {c : Cmd} {h : CmdHalt} (e : copyBlock s k proc c = .error h)
    (hs : s.InForm) : h.InForm := by
  unfold copyBlock at e
  dsimp only at e
  split at e
  · rename_i hg
    cases e
    exact cmdGet_error_inForm hg hs
  rename_i hg
  split at e
  · cases e
    exact hs
  · rename_i hp
    cases e
    exact cmdPut_error_inForm hp (cmdGet_inForm hg hs)
  · cases e

theorem copyPeer_inForm {k : Nat × Nat × Nat} {proc : Nat} {n : Nat} (hs : s.InForm) : (copyPeer s k proc n).1.InForm := by
  induction n generalizing s with
  | zero => exact hs
  | succ n ih =>
    unfold copyPeer
    split
    · exact hs
    rename_i c _
    have hn : (noteCommand (noteCommand s k.1 (c.addr.toNat + 64 * c.moved)) k.1 (c.addr2.toNat + 64 * c.moved)).InForm :=
      noteCommand_inForm (noteCommand_inForm hs)
    dsimp only
    split
    · exact hn
    · rename_i hb
      exact ih (copyBlock_inForm hb hn)

theorem copyPeer_halt_inForm {k : Nat × Nat × Nat} {proc : Nat} {n : Nat} {h : CmdHalt} (e : (copyPeer s k proc n).2 = some h)
    (hs : s.InForm) : h.InForm := by
  induction n generalizing s with
  | zero => cases e
  | succ n ih =>
    unfold copyPeer at e
    split at e
    · cases e
    rename_i c _
    have hn : (noteCommand (noteCommand s k.1 (c.addr.toNat + 64 * c.moved)) k.1 (c.addr2.toNat + 64 * c.moved)).InForm :=
      noteCommand_inForm (noteCommand_inForm hs)
    dsimp only at e
    split at e
    · rename_i hb
      cases e
      exact copyBlock_error_inForm hb hn
    · rename_i hb
      exact ih e (copyBlock_inForm hb hn)

theorem copyOver_inForm {k : Nat × Nat × Nat} (hs : s.InForm) : (copyOver s k).InForm := by
  unfold copyOver
  split
  · exact hs
  · exact hs

theorem serveCopy_inForm {k : Nat × Nat × Nat} {c : Cmd} (e : serveCopy s k c = .next t) (hs : s.InForm) : t.InForm := by
  unfold serveCopy at e
  extract_lets proc n at e
  have hb : (copyBlocks s k.1 proc (c.addr.toNat + 64 * c.moved) (c.addr2.toNat + 64 * c.moved) n).1.InForm := copyBlocks_inForm hs
  have hp : (copyPeer s k proc n).1.InForm := copyPeer_inForm hs
  split at e
  · split at e
    · rename_i hq
      rw [hq] at hp
      cases e
      exact copyOver_inForm hp
    · rename_i hq
      rw [hq] at hp
      exact haltCmd_inForm e (copyPeer_halt_inForm (congrArg Prod.snd hq) hs) hp
  · rename_i hq
    rw [hq] at hb
    exact haltCmd_inForm e trivial hb
  · rename_i hq
    rw [hq] at hb
    cases e
    exact copyOver_inForm hb

theorem beginCopy_inForm {vf : Nat} {q : Nat} (hs : s.InForm) : (beginCopy s vf q).InForm := by
  unfold beginCopy
  split
  · exact hs
  · exact hs

theorem execCopyCommand_inForm {vf : Nat} {q : Nat} (e : execCopyCommand vf q s = .next t) (hs : s.InForm) : t.InForm := by
  grind [execCopyCommand, beginCopy_inForm, serveCopy_inForm]

theorem writeNoGrid_inForm {vf : Nat} {proc : Nat} {c : Cmd} (hs : s.InForm) : (writeNoGrid s vf proc c).InForm := by
  grind [writeNoGrid, bdWrite_inForm, State.toHypervisor_inForm, State.noteFound_inForm]

theorem useEntry_inForm {vf : Nat} {q : Nat} {n : Nat} {c : Cmd} (hs : s.InForm) : (useEntry s vf q n c).InForm := by
  unfold useEntry
  extract_lets x s1 a s2 new s3 want s4
  have h1 : s1.InForm := by
    dsimp only [s1]
    split
    · exact hs.setHost (Memory.wf_writeN _ _ _ hs.host)
    · exact hs
  have h3 : s3.InForm := hostPut_inForm (hostPut_inForm (hostPut_inForm h1))
  have h4 : s4.InForm := State.modQueue_inForm h3
  split
  · exact sendMsi_inForm h4
  · exact h4

theorem completeCmd_inForm {vf : Nat} {q : Nat} {n : Nat} {c : Cmd} (hs : s.InForm) : (completeCmd s vf q n c).InForm := by
  grind [completeCmd, writeNoGrid_inForm, useEntry_inForm, State.inForm_iff]

theorem execCommandCompletion_inForm {vf : Nat} {q : Nat} {cmd : Nat} (e : execCommandCompletion vf q cmd s = .next t)
    (hs : s.InForm) : t.InForm := by
  grind [execCommandCompletion, completeCmd_inForm]

theorem killGrid_inForm {gid : Nat} (hs : s.InForm) : (killGrid s gid).InForm := by
  grind [killGrid, State.notice_inForm, pinFrames_inForm, stopCrews_inForm, State.modGrid_inForm]

theorem killQueue_inForm {vf : Nat} {q : Nat} (hs : s.InForm) : (killQueue s vf q).InForm := by
  grind [killQueue, State.modQueue_inForm, completeCmd_inForm, killGrid_inForm, foldl_inForm]

theorem execQueueKill_inForm {vf : Nat} {q : Nat} (e : execQueueKill vf q s = .next t) (hs : s.InForm) : t.InForm := by
  cases e
  exact killQueue_inForm hs

theorem execQueueKillFinish_inForm {vf : Nat} {q : Nat} (e : execQueueKillFinish vf q s = .next t) (hs : s.InForm) : t.InForm := by
  grind [execQueueKillFinish, sendMsi_inForm, State.modQueue_inForm]

theorem writeQctl_inForm {vf : Nat} {q : Nat} {w : Word} (hs : s.InForm) : (writeQctl s vf q w).InForm := by
  grind [writeQctl, State.modQueue_inForm, enableQueue_inForm, killQueue_inForm]

theorem execQueueEnable_inForm {vf : Nat} {q : Nat} {ctl : Word} (e : execQueueEnable vf q ctl s = .next t) (hs : s.InForm) :
    t.InForm := by
  cases e
  exact writeQctl_inForm hs

theorem execQueueDisable_inForm {vf : Nat} {q : Nat} {ctl : Word} (e : execQueueDisable vf q ctl s = .next t) (hs : s.InForm) :
    t.InForm := by
  cases e
  exact writeQctl_inForm hs

/-! ## Placement -/

theorem startCrew_inForm {c : Cand} {core : Nat} (hs : s.InForm) : (startCrew s c core).InForm := by
  grind [startCrew, State.modGrid_inForm, acquireAct_inForm, syncShared_inForm, State.inForm_iff]

theorem putCrew_inForm {c : Cand} {d : Map Nat} {core : Nat} (hs : s.InForm) : (putCrew s c d core).InForm := by
  grind [putCrew, startCrew_inForm, State.modCrew_inForm, resumeOn_inForm, State.modVf_inForm, State.modQueue_inForm,
    traceCore_inForm, State.inForm_iff]

theorem bookCore_inForm {c : Cand} {core : Nat} (hs : s.InForm) : (bookCore s c core).InForm := hs

theorem dispatchCand_inForm {c : Cand} {d : Map Nat} (hs : s.InForm) : (dispatchCand s c d).InForm := by
  grind [dispatchCand, putCrew_inForm, evictCrew_inForm, bookCore_inForm, preemptCrews_inForm, foldl_inForm]

theorem execCrewDispatch_inForm (e : execCrewDispatch s = .next t) (hs : s.InForm) : t.InForm := by
  grind [execCrewDispatch, dispatchCand_inForm, State.inForm_iff]

theorem execCrewResume_inForm {crew : Nat} {core : Nat} (e : execCrewResume crew core s = .next t) (hs : s.InForm) : t.InForm := by
  grind [execCrewResume, putCrew_inForm, State.inForm_iff]

theorem execTimeSliceEnd_inForm (e : execTimeSliceEnd s = .next t) (hs : s.InForm) : t.InForm := by
  cases e
  exact preemptCrews_inForm hs

theorem flushDies_inForm {dies : List Nat} (hs : s.InForm) : (flushDies s dies).1.InForm :=
  List.foldlRecOn (motive := fun r : State × List (Nat × Nat) => r.1.InForm) _ _ hs fun _ hr _ _ => startFlush_inForm hr

theorem finishGrid_inForm {gid : Nat} (hs : s.InForm) : (finishGrid s gid).InForm := by
  grind [finishGrid, flushDies_inForm, State.modGrid_inForm, completeGrid_inForm, closeStreams_inForm]

theorem settleGrid_inForm (e : settleGrid s = some t) (hs : s.InForm) : t.InForm := by
  grind [settleGrid, finishGrid_inForm]

theorem passCopies_inForm {n : Nat} {w : Crew} (hs : s.InForm) : (passCopies s n w).InForm := hs

theorem retireCrew_inForm {n : Nat} {w : Crew} {g : Grid} (hs : s.InForm) : (retireCrew s n w g).InForm := by
  grind [retireCrew, passCopies_inForm, traceCore_inForm, dropCrewBuffers_inForm, State.modCore_inForm,
    State.modGrid_inForm, State.inForm_iff]

theorem execCrewRetire_inForm {crew : Nat} (e : execCrewRetire crew s = .next t) (hs : s.InForm) : t.InForm := by
  have hc : ∀ {s : State}, s.InForm → ((settleGrid s).getD s).InForm := fun {s} hs => by
    cases hg : settleGrid s with
    | none => exact hs
    | some t => exact settleGrid_inForm hg hs
  cases e
  refine hc ?_
  split
  · split
    · dsimp only
      split
      · exact retireCrew_inForm (startFlush_inForm hs)
      · exact startFlush_inForm hs
    · exact hs
  · exact hs

/-! ## Paging -/

theorem startTlbi_inForm {vf : Nat} {x2 : Tlbi} (hs : s.InForm) : (startTlbi s vf x2).1.InForm := hs

theorem State.putTlbi_inForm {vf : Nat} {x2 : Tlbi} (hs : s.InForm) : (State.putTlbi s vf x2).InForm := by
  unfold State.putTlbi
  split
  · exact hs
  · exact hs

theorem writeTlbic_inForm {vf : Nat} {x : Word} (hs : s.InForm) : (writeTlbic s vf x).InForm := by
  grind [writeTlbic, State.putTlbi_inForm, startTlbi_inForm]

theorem execTlbiRange_inForm {vf : Nat} {proc : Nat} (e : execTlbiRange vf proc s = .next t) (hs : s.InForm) : t.InForm := by
  cases e
  exact writeTlbic_inForm hs

theorem execTlbiProcess_inForm {vf : Nat} {proc : Nat} (e : execTlbiProcess vf proc s = .next t) (hs : s.InForm) : t.InForm := by
  cases e
  exact writeTlbic_inForm hs

theorem execTlbiPartition_inForm {vf : Nat} (e : execTlbiPartition vf s = .next t) (hs : s.InForm) : t.InForm := by
  cases e
  exact writeTlbic_inForm hs

theorem execHtlbiRange_inForm {vf : Nat} (e : execHtlbiRange vf s = .next t) (hs : s.InForm) : t.InForm := by
  cases e
  exact writeTlbic_inForm hs

theorem execHtlbiVf_inForm {vf : Nat} (e : execHtlbiVf vf s = .next t) (hs : s.InForm) : t.InForm := by
  cases e
  exact writeTlbic_inForm hs

theorem execHtlbiAllVfs_inForm (e : execHtlbiAllVfs s = .next t) (hs : s.InForm) : t.InForm := by
  cases e
  exact writeTlbic_inForm hs

theorem flushPeers_inForm (e : flushPeers s = some t) (hs : s.InForm) : t.InForm := by
  refine List.foldlRecOn (motive := fun o : Option State => ∀ t, o = some t → t.InForm) s.fdev _ (fun t e => ?_)
    (fun o ho a _ t e => ?_) t e
  · cases e
    exact hs
  · cases o with
    | none => cases e
    | some s =>
      have hs := ho s rfl
      dsimp only at e
      split at e
      · cases e
        exact hs
      split at e
      · rename_i hr
        cases e
        exact request_inForm hr hs
      · cases e
      · cases e
        exact hs

theorem flushTlbi_inForm {vf : Nat} {x2 : Tlbi} (hs : s.InForm) : (flushTlbi s vf x2).1.InForm := by
  grind [flushTlbi, flushPeers_inForm, dropLine_inForm, cleanLine_inForm, foldl_inForm]

theorem execTlbiComplete_inForm {vf : Nat} (e : execTlbiComplete vf s = .next t) (hs : s.InForm) : t.InForm := by
  grind [execTlbiComplete, flushTlbi_inForm, State.putTlbi_inForm]

theorem State.putFaultQ_inForm {vf : Nat} {q : FaultQ} (hs : s.InForm) : (State.putFaultQ s vf q).InForm := by
  unfold State.putFaultQ
  split
  · exact hs
  · exact hs

theorem execFaultRecordWrite_inForm {vf : Nat} (e : execFaultRecordWrite vf s = .next t) (hs : s.InForm) : t.InForm := by
  unfold execFaultRecordWrite at e
  dsimp only at e
  split at e
  · cases e
    exact hs
  split at e
  · cases e
    exact hs
  · cases e
    exact sendMsi_inForm (State.putFaultQ_inForm (hs.setHost (writeRecs_wf hs.host)))

theorem resumeBatch_inForm {key : Nat} {b : Batch} (hs : s.InForm) : (resumeBatch s key b).InForm := by
  grind [resumeBatch, State.modGroup_inForm, State.inForm_iff]

theorem failBatch_inForm {b : Batch} {c : Cause} (hs : s.InForm) : (failBatch s b c).InForm := hs

theorem answerPart_inForm {vf : Nat} {id : Nat} {cause : Nat} {second : Bool} (hs : s.InForm) :
    (answerPart s vf id cause second).InForm := by
  grind [answerPart, resumeBatch_inForm, failBatch_inForm, State.inForm_iff]

theorem execFresume_inForm {vf : Nat} {x : Dword} (e : execFresume vf x s = .next t) (hs : s.InForm) : t.InForm := by
  cases e
  exact answerPart_inForm hs

theorem execHresume_inForm {x : Dword} (e : execHresume x s = .next t) (hs : s.InForm) : t.InForm := by
  cases e
  exact answerPart_inForm hs

theorem spillFrame_inForm {vf : Nat} {f : Nat} (hs : s.InForm) : (spillFrame s vf f).InForm := by
  grind [spillFrame, spillLine_inForm, State.modSlice_inForm, foldl_inForm]

theorem execFown_inForm {x : Dword} (e : execFown x s = .next t) (hs : s.InForm) : t.InForm := by
  grind [execFown, spillFrame_inForm, State.inForm_iff]

theorem passHand_inForm {vf : Nat} {fs : List Nat} (hs : s.InForm) : (passHand s vf fs).1.InForm := by
  induction fs generalizing s with
  | nil => exact hs
  | cons f rest ih =>
    unfold passHand
    have hm : (s.modVf vf fun v => { v with hand := f }).InForm := State.modVf_inForm hs
    dsimp only
    split
    · exact ih hm
    split
    · exact ih hm
    · exact hm

theorem sweep_inForm {fuel : Nat} {dropped : List Nat} (hs : s.InForm) : (sweep s fuel dropped).InForm := by
  induction fuel generalizing s dropped with
  | zero => exact hs
  | succ fuel ih =>
    unfold sweep
    split
    · exact hs
    split
    · exact hs
    dsimp only
    rename_i v _
    have hp : (passHand s v (handOrder s v ++ handOrder s v)).1.InForm := passHand_inForm hs
    split
    · rename_i hq
      rw [hq] at hp
      exact ih hp
    · rename_i hq
      rw [hq] at hp
      exact ih hp

theorem execReclaimSweep_inForm {n : Word} (e : execReclaimSweep n s = .next t) (hs : s.InForm) : t.InForm := by
  grind [execReclaimSweep, State.inForm_iff]

theorem execReclaimSweepEnd_inForm (e : execReclaimSweepEnd s = .next t) (hs : s.InForm) : t.InForm := by
  unfold execReclaimSweepEnd at e
  split at e
  · cases e
    exact hs
  · cases e
    exact (sweep_inForm hs).setHost (Memory.wf_writeN _ _ _ (sweep_inForm hs).host)

theorem holdMove_inForm {m : PMove} (hs : s.InForm) : (holdMove s m).InForm := hs

theorem startMove_inForm {m : PMove} (hs : s.InForm) : (startMove s m).InForm := by
  grind [startMove, holdMove_inForm, State.inForm_iff]

theorem execPageMoveFrame_inForm {src : Dword} {dst : Dword} {ctl : Word} (e : execPageMoveFrame src dst ctl s = .next t)
    (hs : s.InForm) : t.InForm := by
  grind [execPageMoveFrame, startMove_inForm]

theorem execPageMoveToStore_inForm {src : Dword} {dst : Dword} {ctl : Word} (e : execPageMoveToStore src dst ctl s = .next t)
    (hs : s.InForm) : t.InForm := by
  grind [execPageMoveToStore, startMove_inForm]

theorem execPageMoveFromStore_inForm {src : Dword} {dst : Dword} {ctl : Word}
    (e : execPageMoveFromStore src dst ctl s = .next t) (hs : s.InForm) : t.InForm := by
  grind [execPageMoveFromStore, startMove_inForm]

theorem putFrameSets_inForm {f : Nat} {us : List OSet} (hs : s.InForm) : (putFrameSets s f us).InForm := hs

theorem storeGate_inForm {gate : Nat} {vf : Nat} {y : OSet} (e : storeGate s gate vf y = some t) (hs : s.InForm) : t.InForm := by
  grind [storeGate, State.inForm_iff]

theorem sealOut_inForm {m : PMove} {vf : Nat} {x3 : OSet × Bool} {us : List OSet} (hs : s.InForm) :
    (sealOut s m vf x3 us).InForm := by
  unfold sealOut
  extract_lets v nonce out trailer s'
  have h' : s'.InForm := State.modVf_inForm hs
  simp only [State.inForm_iff]
  exact ⟨h'.hbm, Memory.wf_writeN _ _ _ h'.host, Memory.wf_writeN _ _ _ h'.store⟩

theorem moveOut_inForm {m : PMove} (hs : s.InForm) : (moveOut s m).InForm := by
  unfold moveOut
  dsimp only
  split
  · split
    · rename_i hg
      have ht := storeGate_inForm hg hs
      exact sealOut_inForm ht
    · exact State.notice_inForm hs
  · exact hs

theorem moveIn_inForm {m : PMove} (hs : s.InForm) : (moveIn s m).InForm := by
  grind [moveIn, memPuts_inForm, putFrameSets_inForm, State.inForm_iff]

theorem moveFrame_inForm {m : PMove} (hs : s.InForm) : (moveFrame s m).InForm := by
  grind [moveFrame, memPuts_inForm, putFrameSets_inForm]

theorem pageMoveDone_inForm (e : pageMoveDone s = .next t) (hs : s.InForm) : t.InForm := by
  grind [pageMoveDone, moveFrame_inForm, moveOut_inForm, moveIn_inForm, State.inForm_iff]

/-! ## Partition -/

theorem demote_inForm {fuel : Nat} (hs : s.InForm) : (demote fuel s).InForm := by
  induction fuel generalizing s with
  | zero => exact hs
  | succ fuel ih =>
    unfold demote
    split
    · exact hs
    split
    · exact hs
    · exact ih (State.notice_inForm (State.modVf_inForm hs))

theorem loseClusters_inForm (hs : s.InForm) : (loseClusters s).InForm := by
  grind [loseClusters, State.modVf_inForm, foldl_inForm]

theorem recompute_inForm (hs : s.InForm) : (recompute s).InForm := by
  grind [recompute, demote_inForm, loseClusters_inForm, State.inForm_iff]

theorem clearClusters_inForm {cs : List Nat} (hs : s.InForm) : (clearClusters s cs).InForm := preemptCrews_inForm hs

theorem spillLines_inForm {k : Nat} {vf : Nat} {ls : List L2Line} (hs : s.InForm) : (spillLines s k vf ls).InForm := by
  grind [spillLines, spillLine_inForm, foldl_inForm]

theorem emptySlice_inForm {k : Nat} (hs : s.InForm) : (emptySlice s k).InForm := spillLines_inForm hs

theorem loseData_inForm {line : Nat} (hs : s.InForm) : (loseData s line).InForm := by
  grind [loseData, State.notice_inForm, failGrid_inForm, foldl_inForm]

theorem dropL2_inForm {line : Nat} (hs : s.InForm) : (dropL2 s line).InForm := hs

theorem staleLine_inForm {line : Nat} (hs : s.InForm) : (staleLine s line).InForm := hs.setHbm (Memory.wf_writeN _ _ _ hs.hbm)

theorem loseFlaw_inForm {l2 : Bool} {line : Nat} (hs : s.InForm) : (loseFlaw s l2 line).InForm := by
  grind [loseFlaw, loseData_inForm, dropL2_inForm, staleLine_inForm, State.inForm_iff]

theorem loseFlaws_inForm {i : Nat} (hs : s.InForm) : (loseFlaws s i).InForm := by
  grind [loseFlaws, loseFlaw_inForm, foldl_inForm]

theorem fenceCluster_inForm {c : Nat} (hs : s.InForm) : (fenceCluster s c).InForm := clearClusters_inForm hs

theorem fencePort_inForm {p : Nat} (hs : s.InForm) : (fencePort s p).InForm := by
  grind [fencePort, queueFrame_inForm, State.inForm_iff, foldl_inForm]

theorem noteWhole_inForm (hs : s.InForm) : (noteWhole s).InForm := hs

theorem fenceIsland_inForm {i : Nat} (hs : s.InForm) : (fenceIsland s i).InForm := by
  grind [fenceIsland, loseFlaws_inForm, State.notice_inForm, fenceCluster_inForm, emptySlice_inForm, fencePort_inForm,
    recompute_inForm, noteWhole_inForm, State.inForm_iff]

theorem fenceOnce_inForm {i : Nat} (hs : s.InForm) : (fenceOnce s i).InForm := by
  grind [fenceOnce, fenceIsland_inForm]

theorem dropBanks_inForm {kind : Nat} {us : List Nat} (hs : s.InForm) : (dropBanks s kind us).InForm := hs

theorem fillPlaces_inForm {vf : Nat} (hs : s.InForm) : (fillPlaces s vf).InForm := hs

theorem setPlace_inForm {vf : Nat} {id : Nat} {cluster : Option Nat} (hs : s.InForm) : (setPlace s vf id cluster).InForm := by
  unfold setPlace
  split
  · exact hs
  · exact hs

theorem takeUnits_inForm {vf : Nat} {c : PartCfg} {cs : List Nat} {ks : List Nat} (hs : s.InForm) :
    (takeUnits s vf c cs ks).InForm :=
  hs

theorem freeClusters_inForm {cs : List Nat} (hs : s.InForm) : (freeClusters s cs).InForm := hs

theorem freeSlices_inForm {ks : List Nat} (hs : s.InForm) : (freeSlices s ks).InForm := hs

theorem settleTurn_inForm (hs : s.InForm) : (settleTurn s).InForm := by
  unfold settleTurn
  split
  · exact hs
  · exact hs

theorem startCmd_inForm {vf op : Nat} {run : State → State × Nat × Option PartCfg} (hs : s.InForm)
    (hr : ∀ s, s.InForm → (run s).1.InForm) : (startCmd s vf op run).InForm := by
  grind [startCmd, State.modVf_inForm, State.inForm_iff]

theorem createPart_inForm {vf : Nat} {c : PartCfg} (hs : s.InForm) : (createPart s vf c).InForm := by
  grind [createPart, takeUnits_inForm, State.modVf_inForm, settleTurn_inForm, fillPlaces_inForm, State.inForm_iff]

theorem execPartitionCreate_inForm {vf : Nat} (e : execPartitionCreate vf s = .next t) (hs : s.InForm) : t.InForm := by
  grind [execPartitionCreate, startCmd_inForm, State.modVf_inForm, createPart_inForm]

theorem evictToFloor_inForm {fuel : Nat} {core : Nat} (hs : s.InForm) : (evictToFloor fuel s core).InForm := by
  induction fuel generalizing s with
  | zero => exact hs
  | succ fuel ih =>
    unfold evictToFloor
    split
    · exact hs
    split
    · exact ih (evictCrew_inForm hs)
    · exact hs

theorem evictAll_inForm {fuel : Nat} {core : Nat} (hs : s.InForm) : (evictAll fuel s core).InForm := by
  induction fuel generalizing s with
  | zero => exact hs
  | succ fuel ih =>
    unfold evictAll
    split
    · exact ih (evictCrew_inForm hs)
    · exact hs

theorem evictClusters_inForm {cs : List Nat} (hs : s.InForm) : (evictClusters s cs).InForm := by
  grind [evictClusters, evictAll_inForm, foldl_inForm]

theorem turnOut_inForm {vf : Nat} (hs : s.InForm) : (turnOut s vf).InForm := by
  grind [turnOut, evictClusters_inForm, evictToFloor_inForm, foldl_inForm]

theorem clearRemoved_inForm {vf : Nat} {cs : List Nat} (hs : s.InForm) : (clearRemoved s vf cs).InForm := preemptCrews_inForm hs

theorem beginResize_inForm {vf : Nat} {c : PartCfg} (hs : s.InForm) : (beginResize s vf c).InForm := by
  grind [beginResize, takeUnits_inForm, State.modVf_inForm, fillPlaces_inForm, turnOut_inForm, clearRemoved_inForm,
    State.inForm_iff]

theorem execPartitionResize_inForm {vf : Nat} (e : execPartitionResize vf s = .next t) (hs : s.InForm) : t.InForm := by
  grind [execPartitionResize, startCmd_inForm, State.modVf_inForm, beginResize_inForm]

theorem execPartitionDestroy_inForm {vf : Nat} (e : execPartitionDestroy vf s = .next t) (hs : s.InForm) : t.InForm := by
  grind [execPartitionDestroy, startCmd_inForm, killQueue_inForm, foldl_inForm]

theorem execPartitionPromote_inForm {vf : Nat} (e : execPartitionPromote vf s = .next t) (hs : s.InForm) : t.InForm := by
  grind [execPartitionPromote, startCmd_inForm, State.modVf_inForm, State.inForm_iff]

theorem rehash_inForm {vf : Nat} {c : PartCfg} (hs : s.InForm) : (rehash s vf c).InForm := by
  grind [rehash, State.modSlice_inForm, State.inForm_iff, foldl_inForm]

theorem changeSlices_inForm {vf : Nat} {c : PartCfg} (hs : s.InForm) : (changeSlices s vf c).InForm := by
  grind [changeSlices, emptySlice_inForm, freeSlices_inForm, rehash_inForm, foldl_inForm]

theorem changeWays_inForm {vf : Nat} {old : PartCfg} {c : PartCfg} (hs : s.InForm) : (changeWays s vf old c).InForm := by
  grind [changeWays, State.modSlice_inForm, spillLines_inForm, foldl_inForm]

theorem endResize_inForm {vf : Nat} {c : PartCfg} (hs : s.InForm) : (endResize s vf c).InForm := by
  grind [endResize, changeWays_inForm, changeSlices_inForm, settleTurn_inForm, fillPlaces_inForm, State.modVf_inForm]

theorem endDestroy_inForm {vf : Nat} (hs : s.InForm) : (endDestroy s vf).InForm := by
  grind [endDestroy, freeSlices_inForm, emptySlice_inForm, freeClusters_inForm, settleTurn_inForm, State.modVf_inForm,
    foldl_inForm]

theorem pushCmd_inForm (hs : s.InForm) : (pushCmd s).InForm := by
  grind [pushCmd, turnOut_inForm, evictClusters_inForm, State.modVf_inForm]

theorem execPartitionCommandEnd_inForm (e : execPartitionCommandEnd s = .next t) (hs : s.InForm) : t.InForm := by
  grind [execPartitionCommandEnd, pushCmd_inForm, endResize_inForm, freeClusters_inForm, endDestroy_inForm,
    State.modVf_inForm, loseClusters_inForm, recompute_inForm, sendMsi_inForm, State.inForm_iff]

theorem execHSheafEviction_inForm {crew : Nat} (e : execHSheafEviction crew s = .next t) (hs : s.InForm) : t.InForm := by
  grind [execHSheafEviction, evictCrew_inForm]

theorem execPoolmaskWrite_inForm {x : Dword} (e : execPoolmaskWrite x s = .next t) (hs : s.InForm) : t.InForm := by
  grind [execPoolmaskWrite, State.inForm_iff]

theorem countError_inForm {island : Nat} (hs : s.InForm) : (countError s island).InForm := by
  grind [countError, fenceOnce_inForm, State.inForm_iff]

theorem execPatrolScrub_inForm {l2 : Bool} {line : Nat} {x2 : ScrubResult} (e : execPatrolScrub l2 line x2 s = .next t)
    (hs : s.InForm) : t.InForm := by
  unfold execPatrolScrub at e
  split at e
  all_goals grind [countError_inForm, fenceOnce_inForm, loseFlaw_inForm, foldl_inForm]

/-! ## Trust -/

theorem setUnits_inForm {c : Nat} {ret : Bool} (hs : s.InForm) : (setUnits s c ret).InForm := hs

theorem unfence_inForm {c : Nat} (hs : s.InForm) : (unfence s c).InForm := hs

theorem State.modChiplet_inForm {c : Nat} {f : Chiplet → Chiplet} (hs : s.InForm) : (State.modChiplet s c f).InForm := hs

theorem loseLine_inForm {cause : Cause} {core : Nat} {key : Nat} (hs : s.InForm) : (loseLine s cause core key).InForm := by
  grind [loseLine, State.modCore_inForm, failOp_inForm, foldl_inForm]

theorem loseReq_inForm {cause : Cause} {x2 : L2Req} (hs : s.InForm) : (loseReq cause s x2).InForm := by
  grind [loseReq, loseLine_inForm, failOp_inForm, failStore_inForm, stopCopy_inForm, refuse_inForm]

theorem loseTracker_inForm {i : Nat} {x2 : Tracker} (hs : s.InForm) : (loseTracker s i x2).InForm := by
  grind [loseTracker, failCmd_inForm, loseLine_inForm, failOp_inForm, failGrid_inForm, countCause_inForm, State.inForm_iff]

theorem loseAccesses_inForm {c : Nat} (hs : s.InForm) : (loseAccesses s c).InForm := by
  grind [loseAccesses, loseReq_inForm, failGrid_inForm, countCause_inForm, loseTracker_inForm, State.inForm_iff, foldl_inForm]

theorem failVfs_inForm {vs : List Nat} (hs : s.InForm) : (failVfs s vs).InForm := by
  grind [failVfs, failGrid_inForm, foldl_inForm]

theorem loseCaches_inForm {c : Nat} (hs : s.InForm) : (loseCaches s c).InForm := failVfs_inForm hs

theorem quarantine_inForm {c : Nat} {why : Nat} (hs : s.InForm) : (quarantine s c why).InForm := by
  grind [quarantine, State.modChiplet_inForm, loseCaches_inForm, loseAccesses_inForm, State.notice_inForm, recompute_inForm,
    clearClusters_inForm, setUnits_inForm, State.inForm_iff, foldl_inForm]

theorem chipCmd_inForm {c op : Nat} {ok : Bool} {act : State → State} (hs : s.InForm) (ha : ∀ s, s.InForm → (act s).InForm) :
    (chipCmd s c op ok act).InForm := by
  grind [chipCmd, State.inForm_iff]

theorem execChipletQuarantine_inForm {c : Nat} (e : execChipletQuarantine c s = .next t) (hs : s.InForm) : t.InForm := by
  grind [execChipletQuarantine, chipCmd_inForm, quarantine_inForm]

theorem clearChiplet_inForm {c : Nat} (hs : s.InForm) : (clearChiplet s c).InForm :=
  (unfence_inForm hs).setHbm (Memory.wf_filter _ _ hs.hbm)

theorem resetChiplet_inForm {c : Nat} (hs : s.InForm) : (resetChiplet s c).InForm := by
  grind [resetChiplet, clearChiplet_inForm, failGrid_inForm, State.modChiplet_inForm, quarantine_inForm, foldl_inForm]

theorem execChipletReset_inForm {c : Nat} (e : execChipletReset c s = .next t) (hs : s.InForm) : t.InForm := by
  grind [execChipletReset, chipCmd_inForm, resetChiplet_inForm]

theorem execChipletSelfReset_inForm {c : Nat} (e : execChipletSelfReset c s = .next t) (hs : s.InForm) : t.InForm := by
  grind [execChipletSelfReset, resetChiplet_inForm]

theorem execAttestationRetry_inForm {c : Nat} (e : execAttestationRetry c s = .next t) (hs : s.InForm) : t.InForm := by
  grind [execAttestationRetry, chipCmd_inForm, State.modChiplet_inForm]

theorem failAttempt_inForm {c : Nat} {why : Nat} (hs : s.InForm) : (failAttempt s c why).InForm := by
  grind [failAttempt, State.modChiplet_inForm, quarantine_inForm]

theorem finishBringup_inForm (hs : s.InForm) : (finishBringup s).InForm := by
  unfold finishBringup
  split
  · exact hs
  · exact hs

theorem enable_inForm {c : Nat} (hs : s.InForm) : (enable s c).InForm := by
  grind [enable, setUnits_inForm, State.modChiplet_inForm, State.inForm_iff]

theorem enableKeyed_inForm {c : Nat} (hs : s.InForm) : (enableKeyed s c).InForm := by
  grind [enableKeyed, finishBringup_inForm, enable_inForm]

theorem takeCerts_inForm {c : Nat} {algsOk : Bool} {rsaChain : List Byte} {slhChain : List Byte} (hs : s.InForm) :
    (takeCerts s c algsOk rsaChain slhChain).InForm := by
  unfold takeCerts
  split
  all_goals grind [State.modChiplet_inForm, failAttempt_inForm]

theorem takeChallenge_inForm {c : Nat} {rsaSig : List Byte} {vendor : List Byte} (hs : s.InForm) :
    (takeChallenge s c rsaSig vendor).InForm := by
  grind [takeChallenge, State.modChiplet_inForm, failAttempt_inForm]

theorem takeMeasure_inForm {c : Nat} {digest : List Byte} {rsaSig : List Byte} {vendor : List Byte} (hs : s.InForm) :
    (takeMeasure s c digest rsaSig vendor).InForm := by
  grind [takeMeasure, failAttempt_inForm, State.modChiplet_inForm]

theorem failExchange_inForm {c : Nat} (hs : s.InForm) : (failExchange s c).InForm := by
  grind [failExchange, quarantine_inForm, failAttempt_inForm]

theorem takeExchange_inForm {c : Nat} {share : List Byte} {vendor : List Byte} (hs : s.InForm) :
    (takeExchange s c share vendor).InForm := by
  grind [takeExchange, failExchange_inForm, State.modChiplet_inForm, State.inForm_iff]

theorem freshKeys_inForm {c : Nat} {prk : List Byte} (hs : s.InForm) : (freshKeys s c prk).InForm := by
  grind [freshKeys, State.inForm_iff, foldl_inForm]

theorem nextKeys_inForm {c : Nat} {prk : List Byte} (hs : s.InForm) : (nextKeys s c prk).InForm := hs

theorem takeFinish_inForm {c : Nat} {rsaSig : List Byte} {vendor : List Byte} (hs : s.InForm) :
    (takeFinish s c rsaSig vendor).InForm := by
  grind [takeFinish, failExchange_inForm, State.modChiplet_inForm, nextKeys_inForm, freshKeys_inForm]

theorem takeResponse_inForm {c : Nat} {x2 : SpdmResponse} (hs : s.InForm) : (takeResponse s c x2).InForm := by
  unfold takeResponse
  grind [takeExchange_inForm, takeFinish_inForm, failExchange_inForm, takeCerts_inForm, failAttempt_inForm,
    takeChallenge_inForm, takeMeasure_inForm]

theorem execSpdmResponse_inForm {c : Nat} {x1 : SpdmResponse} (e : execSpdmResponse c x1 s = .next t) (hs : s.InForm) : t.InForm
    := by
  grind [execSpdmResponse, finishBringup_inForm, takeResponse_inForm]

theorem State.modLink_inForm {l : Nat} {f : Link → Link} (hs : s.InForm) : (State.modLink s l f).InForm := hs

theorem startRoll_inForm {l : Nat} (hs : s.InForm) : (startRoll s l).InForm := by
  grind [startRoll, State.modLink_inForm]

theorem execKeyRoll_inForm {c : Nat} (e : execKeyRoll c s = .next t) (hs : s.InForm) : t.InForm := by
  grind [execKeyRoll, chipCmd_inForm, startRoll_inForm, foldl_inForm]

theorem execKeyRolloverForced_inForm {link : Nat} (e : execKeyRolloverForced link s = .next t) (hs : s.InForm) : t.InForm := by
  grind [execKeyRolloverForced, startRoll_inForm]

theorem execInstallAcknowledgement_inForm {link : Nat} (e : execInstallAcknowledgement link s = .next t) (hs : s.InForm) :
    t.InForm := by
  grind [execInstallAcknowledgement, State.modLink_inForm]

theorem execRolloverAckTimeout_inForm {link : Nat} (e : execRolloverAckTimeout link s = .next t) (hs : s.InForm) : t.InForm := by
  grind [execRolloverAckTimeout, State.modLink_inForm, quarantine_inForm]

theorem countReplay_inForm {c : Nat} (hs : s.InForm) : (countReplay s c).InForm := by
  grind [countReplay, countEvent_inForm, foldl_inForm]

theorem execLinkGroupReceive_inForm {link : Nat} {g : LinkGroup} (e : execLinkGroupReceive link g s = .next t) (hs : s.InForm) :
    t.InForm := by
  grind [execLinkGroupReceive, State.modLink_inForm, quarantine_inForm, countReplay_inForm]

theorem sealGroup_inForm {link : Nat} (hs : s.InForm) : (sealGroup s link).InForm := hs

theorem addFlit_inForm {link : Nat} {bytes : List Byte} (hs : s.InForm) : (addFlit s link bytes).InForm := by
  grind [addFlit, State.modLink_inForm, sealGroup_inForm]

theorem execPartialGroupClose_inForm {link : Nat} (e : execPartialGroupClose link s = .next t) (hs : s.InForm) : t.InForm := by
  grind [execPartialGroupClose, sealGroup_inForm]

theorem execPrincipalBind_inForm (e : execPrincipalBind s = .next t) (hs : s.InForm) : t.InForm := by
  grind [execPrincipalBind, State.modVf_inForm, State.inForm_iff]

theorem execPrincipalUnbind_inForm {pid : Word} (e : execPrincipalUnbind pid s = .next t) (hs : s.InForm) : t.InForm := by
  grind [execPrincipalUnbind, State.modVf_inForm, State.inForm_iff]

theorem execOsetReclaim_inForm (e : execOsetReclaim s = .next t) (hs : s.InForm) : t.InForm := by
  grind [execOsetReclaim, State.inForm_iff]

theorem execOsetRequest_inForm (e : execOsetRequest s = .next t) (hs : s.InForm) : t.InForm := by
  grind [execOsetRequest, State.inForm_iff]

theorem execPolicyInstall_inForm {ctl : Word} (e : execPolicyInstall ctl s = .next t) (hs : s.InForm) : t.InForm := by
  grind [execPolicyInstall, State.inForm_iff]

theorem execPolicyRemove_inForm {ctl : Word} (e : execPolicyRemove ctl s = .next t) (hs : s.InForm) : t.InForm := by
  cases e
  exact hs

theorem doeReply_inForm {x1 : List Byte} (hs : s.InForm) : (doeReply s x1).InForm := hs

theorem doe_inForm {act : State → State} (hs : s.InForm) (ha : ∀ s, s.InForm → (act s).InForm) : (doe s act).InForm := by
  grind [doe, doeReply_inForm]

theorem unexpected_inForm (hs : s.InForm) : (unexpected s).InForm := hs

theorem execGetVersion_inForm {req : List Byte} (e : execGetVersion req s = .next t) (hs : s.InForm) : t.InForm := by
  grind [execGetVersion, doe_inForm, State.inForm_iff]

theorem execGetCapabilities_inForm {req : List Byte} (e : execGetCapabilities req s = .next t) (hs : s.InForm) : t.InForm := by
  grind [execGetCapabilities, doe_inForm, unexpected_inForm, State.inForm_iff]

theorem execNegotiateAlgorithms_inForm {req : List Byte} (e : execNegotiateAlgorithms req s = .next t) (hs : s.InForm) :
    t.InForm := by
  grind [execNegotiateAlgorithms, doe_inForm, unexpected_inForm, State.inForm_iff]

theorem execGetDigests_inForm {req : List Byte} (e : execGetDigests req s = .next t) (hs : s.InForm) : t.InForm := by
  grind [execGetDigests, doe_inForm, unexpected_inForm, State.inForm_iff]

theorem execGetCertificate_inForm {req : List Byte} (e : execGetCertificate req s = .next t) (hs : s.InForm) : t.InForm := by
  grind [execGetCertificate, doe_inForm, unexpected_inForm, State.inForm_iff]

theorem execChallenge_inForm {req : List Byte} (e : execChallenge req s = .next t) (hs : s.InForm) : t.InForm := by
  grind [execChallenge, doe_inForm, unexpected_inForm, State.inForm_iff]

theorem execGetMeasurements_inForm {req : List Byte} (e : execGetMeasurements req s = .next t) (hs : s.InForm) : t.InForm := by
  grind [execGetMeasurements, doe_inForm, unexpected_inForm, State.inForm_iff]

theorem execVendorDefinedRequest_inForm {req : List Byte} (e : execVendorDefinedRequest req s = .next t) (hs : s.InForm) :
    t.InForm := by
  grind [execVendorDefinedRequest, doe_inForm, doeReply_inForm]

theorem execKeyExchange_inForm {req : List Byte} (e : execKeyExchange req s = .next t) (hs : s.InForm) : t.InForm := by
  grind [execKeyExchange, doe_inForm, doeReply_inForm]

theorem execPskExchange_inForm {req : List Byte} (e : execPskExchange req s = .next t) (hs : s.InForm) : t.InForm := by
  grind [execPskExchange, doe_inForm, doeReply_inForm]

theorem execSpdmOtherRequest_inForm {req : List Byte} (e : execSpdmOtherRequest req s = .next t) (hs : s.InForm) : t.InForm := by
  grind [execSpdmOtherRequest, doe_inForm, doeReply_inForm]

/-! ## Observation -/

theorem execCselWrite_inForm {fn : Nat} {n : Nat} {x : Word} (e : execCselWrite fn n x s = .next t) (hs : s.InForm) : t.InForm
    := by
  grind [execCselWrite, putBank_inForm]

theorem execCounterClear_inForm {fn : Nat} {n : Nat} (e : execCounterClear fn n s = .next t) (hs : s.InForm) : t.InForm := by
  grind [execCounterClear, putBank_inForm]

theorem execCntloRead_inForm {fn : Nat} {n : Nat} (e : execCntloRead fn n s = .next t) (hs : s.InForm) : t.InForm := by
  cases e
  exact State.modFn_inForm hs

theorem execCnthiRead_inForm {fn : Nat} {n : Nat} (e : execCnthiRead fn n s = .next t) (hs : s.InForm) : t.InForm := by
  grind [execCnthiRead, State.modFn_inForm, State.inForm_iff]

theorem leaseDone_inForm {fn : Nat} {x : Word} {grant : Bool} {err : Bool} (hs : s.InForm) : (leaseDone s fn x grant err).InForm
    :=
  State.modFn_inForm hs

theorem tellRevoked_inForm {vf : Nat} {kind : Nat} {unit : Nat × Bool} (hs : s.InForm) : (tellRevoked s vf kind unit).InForm :=
  sendMsi_inForm hs

theorem revokeBank_inForm {b : Bank} (hs : s.InForm) : (revokeBank s b).InForm := by
  grind [revokeBank, putBank_inForm, tellRevoked_inForm]

theorem revokeTrace_inForm {unit : Nat} (hs : s.InForm) : (revokeTrace s unit).InForm := by
  grind [revokeTrace, traceWrite_inForm, tellRevoked_inForm, State.modVf_inForm, State.inForm_iff]

theorem revokeTrial_inForm {vf : Nat} (hs : s.InForm) : (revokeTrial s vf).InForm := by
  grind [revokeTrial, tellRevoked_inForm, State.modVf_inForm, State.inForm_iff]

theorem takeFor_inForm {kind : Nat} {unit : Nat} (hs : s.InForm) : (takeFor s kind unit).InForm := by
  grind [takeFor, revokeTrace_inForm, revokeTrial_inForm, revokeBank_inForm, State.inForm_iff]

theorem execLeaseRevoke_inForm {kind : Nat} {unit : Nat} (e : execLeaseRevoke kind unit s = .next t) (hs : s.InForm) : t.InForm
    := by
  cases e
  exact takeFor_inForm hs

theorem grantLease_inForm {vf : Nat} {kind : Nat} {unit : Nat} (e : grantLease s vf kind unit = some t) (hs : s.InForm) :
    t.InForm := by
  grind [grantLease, State.modVf_inForm, putBank_inForm, State.inForm_iff]

theorem execLeaseRequest_inForm {fn : Nat} {x : Word} (e : execLeaseRequest fn x s = .next t) (hs : s.InForm) : t.InForm := by
  grind [execLeaseRequest, leaseDone_inForm, takeFor_inForm, grantLease_inForm]

theorem returnBank_inForm {b : Bank} (hs : s.InForm) : (returnBank s b).InForm := by
  grind [returnBank, putBank_inForm]

theorem dropLease_inForm {fn : Nat} {kind : Nat} {unit : Nat} (e : dropLease s fn kind unit = some t) (hs : s.InForm) : t.InForm
    := by
  grind [dropLease, State.modFn_inForm, returnBank_inForm, putBank_inForm, State.inForm_iff]

theorem execLeaseRelease_inForm {fn : Nat} {x : Word} (e : execLeaseRelease fn x s = .next t) (hs : s.InForm) : t.InForm := by
  grind [execLeaseRelease, dropLease_inForm, leaseDone_inForm]

theorem sampleUnit_inForm {unit : Nat} {x2 : Trace} {core : Nat} (hs : s.InForm) : (sampleUnit s unit x2 core).InForm := by
  unfold sampleUnit
  split
  all_goals grind [traceWrite_inForm, foldl_inForm]

theorem execTracePcSample_inForm {cluster : Nat} (e : execTracePcSample cluster s = .next t) (hs : s.InForm) : t.InForm := by
  grind [execTracePcSample, sampleUnit_inForm]

theorem stopCrew_inForm {n : Nat} {code : Nat} {grp : Option Nat} (hs : s.InForm) : (stopCrew s n code grp).InForm := by
  grind [stopCrew, State.modCrew_inForm, traceThreads_inForm, haltCrew_inForm]

theorem hitBreakpoint_inForm {crew : Nat} {grp : Nat} {i : Nat} (hs : s.InForm) : (hitBreakpoint s crew grp i).InForm :=
  stopCrew_inForm hs

theorem debugDone_inForm {vf : Nat} {ctl : Word} {refused : Bool} (hs : s.InForm) : (debugDone s vf ctl refused).InForm := hs

theorem execDebugStop_inForm {vf : Nat} {ctl : Word} (e : execDebugStop vf ctl s = .next t) (hs : s.InForm) : t.InForm := by
  grind [execDebugStop, stopCrew_inForm, debugDone_inForm, State.modGrid_inForm]

theorem releaseCrew_inForm {n : Nat} (hs : s.InForm) : (releaseCrew s n).InForm := hs

theorem execDebugResume_inForm {vf : Nat} {ctl : Word} (e : execDebugResume vf ctl s = .next t) (hs : s.InForm) : t.InForm := by
  grind [execDebugResume, releaseCrew_inForm, debugDone_inForm]

theorem dumpCrew_inForm {vf : Nat} {ctl : Word} {n : Nat} {w : Crew} {g : Grid} (hs : s.InForm) :
    (dumpCrew s vf ctl n w g).InForm := by
  have hn : (debugDone s vf ctl false).InForm := debugDone_inForm hs
  unfold dumpCrew
  dsimp only
  split
  · exact debugDone_inForm hs
  split
  · exact State.notice_inForm hn
  split
  · exact State.notice_inForm hn
  · rename_i hg
    have ht := gateCheck_inForm hg hn
    exact ht.setHost (Memory.wf_writeN _ _ _ ht.host)

theorem execDebugDump_inForm {vf : Nat} {ctl : Word} (e : execDebugDump vf ctl s = .next t) (hs : s.InForm) : t.InForm := by
  grind [execDebugDump, dumpCrew_inForm, debugDone_inForm]

theorem writeRrctl_inForm {vf : Nat} {mode : Nat} (hs : s.InForm) : (writeRrctl s vf mode).InForm := by
  unfold writeRrctl
  split
  · exact hs
  · exact hs

theorem execReplayOff_inForm {vf : Nat} (e : execReplayOff vf s = .next t) (hs : s.InForm) : t.InForm := by
  cases e
  exact writeRrctl_inForm hs

theorem execRecordMode_inForm {vf : Nat} (e : execRecordMode vf s = .next t) (hs : s.InForm) : t.InForm := by
  cases e
  exact writeRrctl_inForm hs

theorem execReplayMode_inForm {vf : Nat} (e : execReplayMode vf s = .next t) (hs : s.InForm) : t.InForm := by
  cases e
  exact writeRrctl_inForm hs

theorem execTrialStart_inForm {fn : Nat} {ctl : Word} (e : execTrialStart fn ctl s = .next t) (hs : s.InForm) : t.InForm := by
  grind [execTrialStart, State.modFn_inForm]

theorem execTrialEnd_inForm {fn : Nat} (e : execTrialEnd fn s = .next t) (hs : s.InForm) : t.InForm := by
  grind [execTrialEnd, State.modFn_inForm]

/-! ## Platform -/

theorem clearVf_inForm {vf : Nat} (hs : s.InForm) : (clearVf s vf).InForm := by
  grind [clearVf, returnBank_inForm, State.modVf_inForm, State.inForm_iff, foldl_inForm]

theorem endFlr_inForm {vf : Nat} (hs : s.InForm) : (endFlr s vf).InForm := by
  grind [endFlr, clearVf_inForm]

theorem flrVf_inForm {vf : Nat} (hs : s.InForm) : (flrVf s vf).InForm := by
  grind [flrVf, killQueue_inForm, endFlr_inForm, State.modVf_inForm, foldl_inForm]

theorem execVfFlr_inForm {vf : Nat} (e : execVfFlr vf s = .next t) (hs : s.InForm) : t.InForm := by
  cases e
  exact flrVf_inForm hs

theorem execPfFlr_inForm (e : execPfFlr s = .next t) (hs : s.InForm) : t.InForm := by
  grind [execPfFlr, flrVf_inForm, State.inForm_iff, foldl_inForm]

theorem execPackageReset_inForm (e : execPackageReset s = .next t) (hs : s.InForm) : t.InForm := by
  cases e
  exact (State.inForm_iff _).2 ⟨rfl, hs.host, hs.store⟩

theorem execIslandFreqWrite_inForm {i : Nat} {x : Word} (e : execIslandFreqWrite i x s = .next t) (hs : s.InForm) : t.InForm := by
  grind [execIslandFreqWrite, State.inForm_iff]

theorem execPowerManagerStep_inForm (e : execPowerManagerStep s = .next t) (hs : s.InForm) : t.InForm := by
  grind [execPowerManagerStep, State.inForm_iff]

theorem execFirmwareImageWrite_inForm {img : List Byte} {rsaSig : List Byte} {slhSig : List Byte}
    (e : execFirmwareImageWrite img rsaSig slhSig s = .next t) (hs : s.InForm) : t.InForm := by
  grind [execFirmwareImageWrite, State.inForm_iff]

theorem execFabricPortLinkChange_inForm {port : Nat} {up : Bool} (e : execFabricPortLinkChange port up s = .next t)
    (hs : s.InForm) : t.InForm := by
  grind [execFabricPortLinkChange, State.inForm_iff]

theorem countRetx_inForm {p : Nat} (hs : s.InForm) : (countRetx s p).InForm := hs

theorem countFec_inForm {p : Nat} (hs : s.InForm) : (countFec s p).InForm := hs

theorem after_inForm {o : Outcome State Fault Refusal} (hs : s.InForm) (ho : ∀ t, o = .next t → t.InForm) : (after s o).InForm
    := by
  unfold after
  split
  all_goals grind []

theorem putQueueAddr_inForm {vf : Nat} {q : Nat} {f : Queue → Queue} (hs : s.InForm) : (putQueueAddr s vf q f).InForm := by
  unfold putQueueAddr
  split
  · exact hs
  · exact hs

theorem putTrace_inForm {fn : Nat} {f : Trace → Trace} (hs : s.InForm) : (putTrace s fn f).InForm := by
  grind [putTrace, State.inForm_iff]

theorem obsReg8_inForm {fn off : Nat} {r : Reg8} (e : obsReg8 s fn off = some r) (hs : s.InForm) (v : Dword) : (r.2 v).InForm := by
  have hm : ∀ f : Vf → Vf, (s.modFn fn f).InForm := fun _ => State.modFn_inForm hs
  unfold obsReg8 at e
  refine ite_some_inv (P := fun r : Reg8 => (r.2 v).InForm) e (hm _) fun e => ?_
  refine ite_some_inv (P := fun r : Reg8 => (r.2 v).InForm) e (putTrace_inForm hs) fun e => ?_
  refine ite_some_inv (P := fun r : Reg8 => (r.2 v).InForm) e (hm _) fun e => ?_
  refine ite_some_inv (P := fun r : Reg8 => (r.2 v).InForm) e (hm _) fun e => ?_
  refine ite_some_inv (P := fun r : Reg8 => (r.2 v).InForm) e (hm _) fun e => ?_
  refine ite_some_inv (P := fun r : Reg8 => (r.2 v).InForm) e (hm _) fun e => ?_
  refine ite_some_inv (P := fun r : Reg8 => (r.2 v).InForm) e (hm _) fun e => ?_
  refine ite_some_inv (P := fun r : Reg8 => (r.2 v).InForm) e (hm _) fun e => ?_
  refine ite_some_inv (P := fun r : Reg8 => (r.2 v).InForm) e (hm _) fun e => ?_
  refine ite_some_inv (P := fun r : Reg8 => (r.2 v).InForm) e (hm _) fun e => ?_
  cases e

theorem writeLsreq_inForm {fn : Nat} {x : Word} (hs : s.InForm) : (writeLsreq s fn x).InForm := by
  grind [writeLsreq, State.modFn_inForm, after_inForm, execLeaseRequest_inForm, execLeaseRelease_inForm, leaseDone_inForm]

theorem writeDbgctl_inForm {vf : Nat} {x : Word} (hs : s.InForm) : (writeDbgctl s vf x).InForm := by
  grind [writeDbgctl, State.modVf_inForm, after_inForm, execDebugStop_inForm, execDebugResume_inForm, execDebugDump_inForm,
    debugDone_inForm]

theorem writeCtctl_inForm {fn : Nat} {x : Word} (hs : s.InForm) : (writeCtctl s fn x).InForm := by
  grind [writeCtctl, after_inForm, execTrialStart_inForm, State.modFn_inForm]

theorem writeObs4_inForm {fn : Nat} {off : Nat} {x : Word} (e : writeObs4 s fn off x = some t) (hs : s.InForm) : t.InForm := by
  unfold writeObs4 at e
  refine ite_some_inv e (State.modFn_inForm hs) fun e => ?_
  refine ite_some_inv e (after_inForm hs fun t e => execCselWrite_inForm e hs) fun e => ?_
  refine ite_some_inv e (writeLsreq_inForm hs) fun e => ?_
  refine ite_some_inv e (putTrace_inForm hs) fun e => ?_
  refine ite_some_inv e (putTrace_inForm hs) fun e => ?_
  refine ite_some_inv e (putTrace_inForm hs) fun e => ?_
  refine ite_some_inv e (writeCtctl_inForm hs) fun e => ?_
  split at e
  · cases e
  refine ite_some_inv e (writeDbgctl_inForm hs) fun e => ?_
  refine ite_some_inv e (State.modVf_inForm hs) fun e => ?_
  refine ite_some_inv e (writeRrctl_inForm hs) fun e => ?_
  refine ite_some_inv e (State.modVf_inForm hs) fun e => ?_
  refine ite_some_inv e (State.modVf_inForm hs) fun e => ?_
  cases e

theorem vfReg8_inForm {vf off : Nat} {r : Reg8} (e : vfReg8 s vf off = some r) (hs : s.InForm) (v : Dword) : (r.2 v).InForm := by
  grind [vfReg8, putQueueAddr_inForm, State.modVf_inForm, after_inForm, execEventWrite_inForm, obsReg8_inForm]

theorem writeVf4_inForm {vf : Nat} {off : Nat} {x : Word} (e : writeVf4 s vf off x = some t) (hs : s.InForm) : t.InForm := by
  grind [writeVf4, after_inForm, execQueueDoorbell_inForm, writeQctl_inForm, State.modVf_inForm, writeTlbic_inForm,
    writeObs4_inForm]

theorem pfHeld_inForm {off : Nat} (hs : s.InForm) (v : Dword) : ((pfHeld s off).2 v).InForm := hs

theorem pfReg8_inForm {off : Nat} {r : Reg8} (e : pfReg8 s off = some r) (hs : s.InForm) (v : Dword) : (r.2 v).InForm := by
  have hm : ∀ i f, (s.modVf i f).InForm := fun _ _ => State.modVf_inForm hs
  unfold pfReg8 at e
  refine ite_inv (P := fun r : Reg8 => (r.2 v).InForm) e (fun e => ?_) fun e => ?_
  · split at e
    · cases e
      exact hm _ _
    · cases e
      exact hm _ _
    · cases e
  refine ite_some_inv (P := fun r : Reg8 => (r.2 v).InForm) e hs fun e => ?_
  refine ite_some_inv (P := fun r : Reg8 => (r.2 v).InForm) e hs fun e => ?_
  refine ite_some_inv (P := fun r : Reg8 => (r.2 v).InForm) e hs fun e => ?_
  refine ite_some_inv (P := fun r : Reg8 => (r.2 v).InForm) e (pfHeld_inForm hs v) fun e => ?_
  refine ite_some_inv (P := fun r : Reg8 => (r.2 v).InForm) e hs fun e => ?_
  refine ite_some_inv (P := fun r : Reg8 => (r.2 v).InForm) e (after_inForm hs fun t e => execPoolmaskWrite_inForm e hs) fun e => ?_
  refine ite_some_inv (P := fun r : Reg8 => (r.2 v).InForm) e hs fun e => ?_
  refine ite_some_inv (P := fun r : Reg8 => (r.2 v).InForm) e hs fun e => ?_
  refine ite_some_inv (P := fun r : Reg8 => (r.2 v).InForm) e (hm _ _) fun e => ?_
  refine ite_some_inv (P := fun r : Reg8 => (r.2 v).InForm) e hs fun e => ?_
  exact obsReg8_inForm e hs v

theorem writePcmd_inForm {x : Word} (hs : s.InForm) : (writePcmd s x).InForm := by
  grind [writePcmd, after_inForm, execPartitionCreate_inForm, execPartitionResize_inForm, execPartitionDestroy_inForm,
    execPartitionPromote_inForm, startCmd_inForm, State.inForm_iff]

theorem writeChcmd_inForm {x : Word} (hs : s.InForm) : (writeChcmd s x).InForm := by
  grind [writeChcmd, after_inForm, execChipletQuarantine_inForm, execChipletReset_inForm, execAttestationRetry_inForm,
    execKeyRoll_inForm, chipCmd_inForm, State.inForm_iff]

theorem writePbcmd_inForm {x : Word} (hs : s.InForm) : (writePbcmd s x).InForm := by
  grind [writePbcmd, after_inForm, execPrincipalBind_inForm, execPrincipalUnbind_inForm, execOsetReclaim_inForm,
    State.inForm_iff]

theorem writePmctl_inForm {x : Word} (hs : s.InForm) : (writePmctl s x).InForm := startMove_inForm hs

theorem writePf4_inForm {off : Nat} {x : Word} (e : writePf4 s off x = some t) (hs : s.InForm) : t.InForm := by
  unfold writePf4 at e
  refine ite_inv e (fun e => ?_) fun e => ?_
  · split at e
    · cases e
      exact State.modVf_inForm hs
    · cases e
      exact State.modVf_inForm hs
    · cases e
      exact State.modVf_inForm hs
    · cases e
  refine ite_some_inv e hs fun e => ?_
  refine ite_some_inv e (writeTlbic_inForm hs) fun e => ?_
  refine ite_some_inv e hs fun e => ?_
  refine ite_some_inv e hs fun e => ?_
  refine ite_some_inv e (after_inForm hs fun t e => execReclaimSweep_inForm e hs) fun e => ?_
  refine ite_some_inv e (writePmctl_inForm hs) fun e => ?_
  refine ite_some_inv e (writePcmd_inForm hs) fun e => ?_
  refine ite_some_inv e (writeChcmd_inForm hs) fun e => ?_
  refine ite_some_inv e (writePbcmd_inForm hs) fun e => ?_
  refine ite_some_inv e (orKeep_inForm hs (after_inForm hs fun t e => execPolicyInstall_inForm e hs)) fun e => ?_
  refine ite_some_inv e (orKeep_inForm hs (after_inForm hs fun t e => execPolicyRemove_inForm e hs)) fun e => ?_
  refine ite_some_inv e hs fun e => ?_
  refine ite_some_inv e (orKeep_inForm hs (after_inForm hs fun t e => execOsetRequest_inForm e hs)) fun e => ?_
  refine ite_some_inv e (State.modVf_inForm hs) fun e => ?_
  refine ite_some_inv e ?_ fun e => ?_
  · split
    · exact hs
    · exact hs
  refine ite_some_inv e hs fun e => ?_
  refine ite_some_inv e (after_inForm hs fun t e => execIslandFreqWrite_inForm e hs) fun e => ?_
  exact writeObs4_inForm e hs

theorem writeAct8_inForm {fn : Nat} {off : Nat} {x : Dword} (e : writeAct8 s fn off x = some t) (hs : s.InForm) : t.InForm := by
  grind [writeAct8, after_inForm, execFresume_inForm, execHresume_inForm, execFown_inForm]

theorem writeWord_inForm {fn : Nat} {off : Nat} {x : Word} (hs : s.InForm) : (writeWord s fn off x).InForm := by
  unfold writeWord
  split
  · rename_i hq
    split at hq
    · exact writePf4_inForm hq hs
    · exact writeVf4_inForm hq hs
  split
  · rename_i hq
    split at hq
    · exact pfReg8_inForm hq hs _
    · exact vfReg8_inForm hq hs _
  · exact hs

theorem writeDword_inForm {fn : Nat} {off : Nat} {x : Dword} (hs : s.InForm) : (writeDword s fn off x).InForm := by
  unfold writeDword
  split
  · rename_i hq
    exact writeAct8_inForm hq hs
  split
  · rename_i hq
    split at hq
    · exact pfReg8_inForm hq hs _
    · exact vfReg8_inForm hq hs _
  · exact writeWord_inForm (writeWord_inForm hs)

theorem execRegisterWrite_inForm {fn : Nat} {off : Nat} {size : Nat} {x : Dword}
    (e : execRegisterWrite fn off size x s = .next t) (hs : s.InForm) : t.InForm := by
  grind [execRegisterWrite, writeDword_inForm, writeWord_inForm]

/-! ## Errors -/

theorem fenceLine_inForm {l2 : Bool} {line : Nat} (hs : s.InForm) : (fenceLine s l2 line).InForm := by
  grind [fenceLine, fenceOnce_inForm, dropL2_inForm, staleLine_inForm, State.inForm_iff, foldl_inForm]

theorem unfill_inForm {k : Nat} {line : Nat} (hs : s.InForm) : (unfill s k line).InForm := spillLines_inForm hs

theorem failRequests_inForm {k : Nat} {line : Nat} (hs : s.InForm) : (failRequests s k line).InForm := by
  grind [failRequests, serveEntries_inForm, State.modSlice_inForm, loseReq_inForm, loseData_inForm, foldl_inForm]

theorem execL2Fill_inForm {slice : Nat} {line : Nat} (e : execL2Fill slice line s = .next t) (hs : s.InForm) : t.InForm := by
  grind [execL2Fill, State.modSlice_inForm, fenceLine_inForm, failRequests_inForm, unfill_inForm, l2Fill_inForm]

theorem execL1FillLand_inForm {core : Nat} {line : Nat} (e : execL1FillLand core line s = .next t) (hs : s.InForm) : t.InForm := by
  grind [execL1FillLand, State.modSlice_inForm, fenceLine_inForm, loseReq_inForm, l1FillLand_inForm]

theorem execL2RequestAccept_inForm {slice : Nat} (e : execL2RequestAccept slice s = .next t) (hs : s.InForm) : t.InForm := by
  grind [execL2RequestAccept, → nextHeld_inForm, State.modSlice_inForm, fenceLine_inForm, loseReq_inForm,
    l2RequestAccept_inForm, peerServe_inForm]

theorem execLoadDelivery_inForm {op : Nat} (e : execLoadDelivery op s = .next t) (hs : s.InForm) : t.InForm := by
  grind [execLoadDelivery, → placeOf_inForm, State.since_inForm, fenceOnce_inForm, failOp_inForm, loadDelivery_inForm]

theorem execCopyFault_inForm {op : Nat} (e : execCopyFault op s = .next t) (hs : s.InForm) : t.InForm := by
  grind [execCopyFault, runCopy_inForm, runCopy_halt_inForm, copyFault_inForm, fenceOnce_inForm]

theorem execPageMoveDone_inForm (e : execPageMoveDone s = .next t) (hs : s.InForm) : t.InForm := by
  grind [execPageMoveDone, fenceLine_inForm, loseData_inForm, pageMoveDone_inForm, State.inForm_iff]

theorem fenceFound_inForm {f : Found} (hs : s.InForm) : (fenceFound s f).InForm := by
  unfold fenceFound
  split
  all_goals grind [fenceLine_inForm, fenceOnce_inForm, loseData_inForm, quarantine_inForm]

theorem postBad_inForm {crew : Nat} {homes : List Nat} {flag : Option Nat} (hs : s.InForm) : (postBad s crew homes flag).InForm
    :=
  exitPosted_inForm hs

theorem execMatrixRowsWritten_inForm {cluster : Nat} (e : execMatrixRowsWritten cluster s = .next t) (hs : s.InForm) : t.InForm
    := by
  grind [execMatrixRowsWritten, postBad_inForm, State.modEngine_inForm, fenceOnce_inForm, matrixRowsWritten_inForm,
    foldl_inForm]

theorem endBad_inForm {n : Nat} {o : Op} (hs : s.InForm) : (endBad s n o).InForm := by
  grind [endBad, postBad_inForm, fenceOnce_inForm, State.inForm_iff]

theorem execXzeroDone_inForm {op : Nat} (e : execXzeroDone op s = .next t) (hs : s.InForm) : t.InForm := by
  grind [execXzeroDone, endBad_inForm, xzeroDone_inForm]

theorem execXreqDone_inForm {op : Nat} (e : execXreqDone op s = .next t) (hs : s.InForm) : t.InForm := by
  grind [execXreqDone, endBad_inForm, xreqDone_inForm]

/-! ## Integer -/

theorem execIadd_inForm {d : Operand} {a : Operand} {b : Operand} {g : Guard} (e : execIadd d a b g s = .next t) (hs : s.InForm)
    : t.InForm :=
  intOp2_inForm e hs

theorem execIaddSat_inForm {d : Operand} {a : Operand} {b : Operand} {g : Guard} (e : execIaddSat d a b g s = .next t)
    (hs : s.InForm) : t.InForm :=
  intOp2_inForm e hs

theorem execIsub_inForm {d : Operand} {a : Operand} {b : Operand} {g : Guard} (e : execIsub d a b g s = .next t) (hs : s.InForm)
    : t.InForm :=
  intOp2_inForm e hs

theorem execIsubSat_inForm {d : Operand} {a : Operand} {b : Operand} {g : Guard} (e : execIsubSat d a b g s = .next t)
    (hs : s.InForm) : t.InForm :=
  intOp2_inForm e hs

theorem execImul_inForm {d : Operand} {a : Operand} {b : Operand} {g : Guard} (e : execImul d a b g s = .next t) (hs : s.InForm)
    : t.InForm :=
  intOp2_inForm e hs

theorem execImulhS_inForm {d : Operand} {a : Operand} {b : Operand} {g : Guard} (e : execImulhS d a b g s = .next t)
    (hs : s.InForm) : t.InForm :=
  intOp2_inForm e hs

theorem execImulhN_inForm {d : Operand} {a : Operand} {b : Operand} {g : Guard} (e : execImulhN d a b g s = .next t)
    (hs : s.InForm) : t.InForm :=
  intOp2_inForm e hs

theorem execImad_inForm {d : Operand} {a : Operand} {b : Operand} {g : Guard} (e : execImad d a b g s = .next t) (hs : s.InForm)
    : t.InForm :=
  intOp3_inForm e hs

theorem execImadwN_inForm {d : Operand} {a : Operand} {b : Operand} {g : Guard} (e : execImadwN d a b g s = .next t)
    (hs : s.InForm) : t.InForm :=
  intOp64_inForm e hs

theorem execImadwS_inForm {d : Operand} {a : Operand} {b : Operand} {g : Guard} (e : execImadwS d a b g s = .next t)
    (hs : s.InForm) : t.InForm :=
  intOp64_inForm e hs

theorem execIadd64_inForm {d : Operand} {a : Operand} {b : Operand} {g : Guard} (e : execIadd64 d a b g s = .next t)
    (hs : s.InForm) : t.InForm :=
  intOp64_inForm e hs

theorem execIsub64_inForm {d : Operand} {a : Operand} {b : Operand} {g : Guard} (e : execIsub64 d a b g s = .next t)
    (hs : s.InForm) : t.InForm :=
  intOp64_inForm e hs

theorem execIminS_inForm {d : Operand} {a : Operand} {b : Operand} {g : Guard} (e : execIminS d a b g s = .next t)
    (hs : s.InForm) : t.InForm :=
  intOp2_inForm e hs

theorem execIminN_inForm {d : Operand} {a : Operand} {b : Operand} {g : Guard} (e : execIminN d a b g s = .next t)
    (hs : s.InForm) : t.InForm :=
  intOp2_inForm e hs

theorem execImaxS_inForm {d : Operand} {a : Operand} {b : Operand} {g : Guard} (e : execImaxS d a b g s = .next t)
    (hs : s.InForm) : t.InForm :=
  intOp2_inForm e hs

theorem execImaxN_inForm {d : Operand} {a : Operand} {b : Operand} {g : Guard} (e : execImaxN d a b g s = .next t)
    (hs : s.InForm) : t.InForm :=
  intOp2_inForm e hs

theorem execIabs_inForm {d : Operand} {a : Operand} {g : Guard} (e : execIabs d a g s = .next t) (hs : s.InForm) : t.InForm :=
  intOp1_inForm e hs

theorem execLea1_inForm {d : Operand} {a : Operand} {b : Operand} {g : Guard} (e : execLea1 d a b g s = .next t) (hs : s.InForm)
    : t.InForm :=
  intOp2_inForm e hs

theorem execLea2_inForm {d : Operand} {a : Operand} {b : Operand} {g : Guard} (e : execLea2 d a b g s = .next t) (hs : s.InForm)
    : t.InForm :=
  intOp2_inForm e hs

theorem execLea3_inForm {d : Operand} {a : Operand} {b : Operand} {g : Guard} (e : execLea3 d a b g s = .next t) (hs : s.InForm)
    : t.InForm :=
  intOp2_inForm e hs

theorem execLea4_inForm {d : Operand} {a : Operand} {b : Operand} {g : Guard} (e : execLea4 d a b g s = .next t) (hs : s.InForm)
    : t.InForm :=
  intOp2_inForm e hs

theorem execLea64_inForm {d : Operand} {a : Operand} {b : Operand} {g : Guard} (e : execLea64 d a b g s = .next t)
    (hs : s.InForm) : t.InForm :=
  intOp64_inForm e hs

theorem execIdp4S_inForm {d : Operand} {a : Operand} {b : Operand} {g : Guard} (e : execIdp4S d a b g s = .next t)
    (hs : s.InForm) : t.InForm :=
  intOp3_inForm e hs

theorem execIdp4N_inForm {d : Operand} {a : Operand} {b : Operand} {g : Guard} (e : execIdp4N d a b g s = .next t)
    (hs : s.InForm) : t.InForm :=
  intOp3_inForm e hs

theorem execIdp2S_inForm {d : Operand} {a : Operand} {b : Operand} {g : Guard} (e : execIdp2S d a b g s = .next t)
    (hs : s.InForm) : t.InForm :=
  intOp3_inForm e hs

/-! ## Logic -/

theorem execAnd_inForm {d : Operand} {a : Operand} {b : Operand} {g : Guard} (e : execAnd d a b g s = .next t) (hs : s.InForm) :
    t.InForm :=
  intOp2_inForm e hs

theorem execOr_inForm {d : Operand} {a : Operand} {b : Operand} {g : Guard} (e : execOr d a b g s = .next t) (hs : s.InForm) :
    t.InForm :=
  intOp2_inForm e hs

theorem execXor_inForm {d : Operand} {a : Operand} {b : Operand} {g : Guard} (e : execXor d a b g s = .next t) (hs : s.InForm) :
    t.InForm :=
  intOp2_inForm e hs

theorem execAndn_inForm {d : Operand} {a : Operand} {b : Operand} {g : Guard} (e : execAndn d a b g s = .next t) (hs : s.InForm)
    : t.InForm :=
  intOp2_inForm e hs

theorem execOrn_inForm {d : Operand} {a : Operand} {b : Operand} {g : Guard} (e : execOrn d a b g s = .next t) (hs : s.InForm) :
    t.InForm :=
  intOp2_inForm e hs

theorem execNot_inForm {d : Operand} {a : Operand} {g : Guard} (e : execNot d a g s = .next t) (hs : s.InForm) : t.InForm :=
  intOp1_inForm e hs

theorem execShl_inForm {d : Operand} {a : Operand} {b : Operand} {g : Guard} (e : execShl d a b g s = .next t) (hs : s.InForm) :
    t.InForm :=
  intOp2_inForm e hs

theorem execShr_inForm {d : Operand} {a : Operand} {b : Operand} {g : Guard} (e : execShr d a b g s = .next t) (hs : s.InForm) :
    t.InForm :=
  intOp2_inForm e hs

theorem execSar_inForm {d : Operand} {a : Operand} {b : Operand} {g : Guard} (e : execSar d a b g s = .next t) (hs : s.InForm) :
    t.InForm :=
  intOp2_inForm e hs

theorem execFshl_inForm {d : Operand} {a : Operand} {b : Operand} {g : Guard} (e : execFshl d a b g s = .next t) (hs : s.InForm)
    : t.InForm :=
  intOp3_inForm e hs

theorem execFshr_inForm {d : Operand} {a : Operand} {b : Operand} {g : Guard} (e : execFshr d a b g s = .next t) (hs : s.InForm)
    : t.InForm :=
  intOp3_inForm e hs

theorem execBfeN_inForm {d : Operand} {a : Operand} {b : Operand} {g : Guard} (e : execBfeN d a b g s = .next t) (hs : s.InForm)
    : t.InForm :=
  intOp2_inForm e hs

theorem execBfeS_inForm {d : Operand} {a : Operand} {b : Operand} {g : Guard} (e : execBfeS d a b g s = .next t) (hs : s.InForm)
    : t.InForm :=
  intOp2_inForm e hs

theorem execBfi_inForm {d : Operand} {a : Operand} {b : Operand} {g : Guard} (e : execBfi d a b g s = .next t) (hs : s.InForm) :
    t.InForm :=
  intOp3_inForm e hs

theorem execBrev_inForm {d : Operand} {a : Operand} {g : Guard} (e : execBrev d a g s = .next t) (hs : s.InForm) : t.InForm :=
  intOp1_inForm e hs

theorem execPopc_inForm {d : Operand} {a : Operand} {g : Guard} (e : execPopc d a g s = .next t) (hs : s.InForm) : t.InForm :=
  intOp1_inForm e hs

theorem execClz_inForm {d : Operand} {a : Operand} {g : Guard} (e : execClz d a g s = .next t) (hs : s.InForm) : t.InForm :=
  intOp1_inForm e hs

theorem execCtz_inForm {d : Operand} {a : Operand} {g : Guard} (e : execCtz d a g s = .next t) (hs : s.InForm) : t.InForm :=
  intOp1_inForm e hs

theorem execPrmt_inForm {d : Operand} {a : Operand} {b : Operand} {g : Guard} (e : execPrmt d a b g s = .next t) (hs : s.InForm)
    : t.InForm :=
  intOp3_inForm e hs

/-! ## Select -/

theorem pickIssue_inForm {crew grp : Nat} (hs : s.InForm) : (pickIssue s crew grp).InForm := by
  unfold pickIssue
  split
  · exact hs
  split
  · exact hs
  split
  · exact hs
  split
  · exact hitBreakpoint_inForm hs
  split
  · exact stopCrew_inForm hs
  · exact issueNext_inForm hs

theorem settleStops_inForm (hs : s.InForm) : (settleStops s).InForm := by
  grind [settleStops, settleCrew_inForm, State.modCrew_inForm, foldl_inForm]

theorem forgetGrids_inForm (hs : s.InForm) : (forgetGrids s).InForm := hs

theorem passTime_inForm (hs : s.InForm) : (passTime s).InForm := settleStops_inForm hs

theorem pickItem_inForm {a : AgendaItem} (hs : s.InForm) : (pickItem s a).InForm := by
  cases a with
  | event i =>
    simp only [pickItem]
    split
    · exact hs
    · exact hs
  | issue c g => exact pickIssue_inForm hs
  | time => exact passTime_inForm hs
  | place vf id c => exact setPlace_inForm hs
  | depart p => exact departFrame_inForm hs
  | retransmit p => exact countRetx_inForm hs
  | fecError p => exact countFec_inForm hs
  | corrected u => exact countError_inForm hs
  | spoil f => exact hs
  | flrEnd vf => exact endFlr_inForm hs
  | enable c => exact enableKeyed_inForm hs
  | flit l b => exact addFlit_inForm hs

theorem pick_inForm (hs : s.InForm) : (pick s).InForm := by
  unfold pick
  split
  · exact fenceFound_inForm hs
  split
  · exact pickItem_inForm hs
  split
  · rename_i hq
    exact settleGrid_inForm hq hs
  split
  · exact pickItem_inForm hs
  · exact hs

/-! ## The step -/

theorem exec_inForm {i : Instr} (e : exec i s = .next t) (hs : s.InForm) : t.InForm := by
  cases i with
  | iadd => exact execIadd_inForm e hs
  | iaddSat => exact execIaddSat_inForm e hs
  | isub => exact execIsub_inForm e hs
  | isubSat => exact execIsubSat_inForm e hs
  | imul => exact execImul_inForm e hs
  | imulhS => exact execImulhS_inForm e hs
  | imulhN => exact execImulhN_inForm e hs
  | imad => exact execImad_inForm e hs
  | imadwN => exact execImadwN_inForm e hs
  | imadwS => exact execImadwS_inForm e hs
  | iadd64 => exact execIadd64_inForm e hs
  | isub64 => exact execIsub64_inForm e hs
  | iminS => exact execIminS_inForm e hs
  | iminN => exact execIminN_inForm e hs
  | imaxS => exact execImaxS_inForm e hs
  | imaxN => exact execImaxN_inForm e hs
  | iabs => exact execIabs_inForm e hs
  | lea1 => exact execLea1_inForm e hs
  | lea2 => exact execLea2_inForm e hs
  | lea3 => exact execLea3_inForm e hs
  | lea4 => exact execLea4_inForm e hs
  | lea64 => exact execLea64_inForm e hs
  | idp4S => exact execIdp4S_inForm e hs
  | idp4N => exact execIdp4N_inForm e hs
  | idp2S => exact execIdp2S_inForm e hs
  | and => exact execAnd_inForm e hs
  | or => exact execOr_inForm e hs
  | xor => exact execXor_inForm e hs
  | andn => exact execAndn_inForm e hs
  | orn => exact execOrn_inForm e hs
  | not => exact execNot_inForm e hs
  | shl => exact execShl_inForm e hs
  | shr => exact execShr_inForm e hs
  | sar => exact execSar_inForm e hs
  | fshl => exact execFshl_inForm e hs
  | fshr => exact execFshr_inForm e hs
  | bfeN => exact execBfeN_inForm e hs
  | bfeS => exact execBfeS_inForm e hs
  | bfi => exact execBfi_inForm e hs
  | brev => exact execBrev_inForm e hs
  | popc => exact execPopc_inForm e hs
  | clz => exact execClz_inForm e hs
  | ctz => exact execCtz_inForm e hs
  | prmt => exact execPrmt_inForm e hs
  | isetp => exact execIsetp_inForm e hs
  | psetpAnd => exact execPsetpAnd_inForm e hs
  | psetpOr => exact execPsetpOr_inForm e hs
  | psetpXor => exact execPsetpXor_inForm e hs
  | psetpAndn => exact execPsetpAndn_inForm e hs
  | sel => exact execSel_inForm e hs
  | mov => exact execMov_inForm e hs
  | prdw => exact execPrdw_inForm e hs
  | pwrw => exact execPwrw_inForm e hs
  | w2k => exact execW2k_inForm e hs
  | osq => exact execOsq_inForm e hs
  | shfl => exact execShfl_inForm e hs
  | voteAll => exact execVoteAll_inForm e hs
  | voteAny => exact execVoteAny_inForm e hs
  | voteBal => exact execVoteBal_inForm e hs
  | redaddS => exact execRedaddS_inForm e hs
  | redminS => exact execRedminS_inForm e hs
  | redminN => exact execRedminN_inForm e hs
  | redmaxS => exact execRedmaxS_inForm e hs
  | redmaxN => exact execRedmaxN_inForm e hs
  | redminiN => exact execRedminiN_inForm e hs
  | redmaxiN => exact execRedmaxiN_inForm e hs
  | redaddF32 => exact execRedaddF32_inForm e hs
  | redminF32 => exact execRedminF32_inForm e hs
  | redmaxF32 => exact execRedmaxF32_inForm e hs
  | fadd => exact execFadd_inForm e hs
  | fsub => exact execFsub_inForm e hs
  | fmul => exact execFmul_inForm e hs
  | ffma => exact execFfma_inForm e hs
  | fmin => exact execFmin_inForm e hs
  | fmax => exact execFmax_inForm e hs
  | fsetpEq => exact execFsetpEq_inForm e hs
  | fsetpNe => exact execFsetpNe_inForm e hs
  | fsetpLt => exact execFsetpLt_inForm e hs
  | fsetpLe => exact execFsetpLe_inForm e hs
  | fsetpNan => exact execFsetpNan_inForm e hs
  | frnd => exact execFrnd_inForm e hs
  | fldexp => exact execFldexp_inForm e hs
  | fldxa => exact execFldxa_inForm e hs
  | faddH2 => exact execFaddH2_inForm e hs
  | fmulH2 => exact execFmulH2_inForm e hs
  | ffmaH2 => exact execFfmaH2_inForm e hs
  | fminH2 => exact execFminH2_inForm e hs
  | fmaxH2 => exact execFmaxH2_inForm e hs
  | faddB2 => exact execFaddB2_inForm e hs
  | fmulB2 => exact execFmulB2_inForm e hs
  | ffmaB2 => exact execFfmaB2_inForm e hs
  | fdp2H2 => exact execFdp2H2_inForm e hs
  | fdp2B2 => exact execFdp2B2_inForm e hs
  | frcp => exact execFrcp_inForm e hs
  | frsq => exact execFrsq_inForm e hs
  | fsqrt => exact execFsqrt_inForm e hs
  | fex2 => exact execFex2_inForm e hs
  | flg2 => exact execFlg2_inForm e hs
  | fsin => exact execFsin_inForm e hs
  | fcos => exact execFcos_inForm e hs
  | ftanh => exact execFtanh_inForm e hs
  | cvtF32I32 => exact execCvtF32I32_inForm e hs
  | cvtF32N32 => exact execCvtF32N32_inForm e hs
  | cvtI32F32 => exact execCvtI32F32_inForm e hs
  | cvtN32F32 => exact execCvtN32F32_inForm e hs
  | cvtH2F32 => exact execCvtH2F32_inForm e hs
  | cvtB2F32 => exact execCvtB2F32_inForm e hs
  | cvtF32HL => exact execCvtF32HL_inForm e hs
  | cvtF32HH => exact execCvtF32HH_inForm e hs
  | cvtF32BL => exact execCvtF32BL_inForm e hs
  | cvtF32BH => exact execCvtF32BH_inForm e hs
  | cvtE4X2F32 => exact execCvtE4X2F32_inForm e hs
  | cvtE5X2F32 => exact execCvtE5X2F32_inForm e hs
  | cvtF32E4 => exact execCvtF32E4_inForm e hs
  | cvtF32E5 => exact execCvtF32E5_inForm e hs
  | cvtb => exact execCvtb_inForm e hs
  | dqb => exact execDqb_inForm e hs
  | bpack => exact execBpack_inForm e hs
  | bunpk => exact execBunpk_inForm e hs
  | ld => exact execLd_inForm e hs
  | st => exact execSt_inForm e hs
  | lds => exact execLds_inForm e hs
  | sts => exact execSts_inForm e hs
  | ldk => exact execLdk_inForm e hs
  | ldt => exact execLdt_inForm e hs
  | stt => exact execStt_inForm e hs
  | atom => exact execAtom_inForm e hs
  | red => exact execRed_inForm e hs
  | atoms => exact execAtoms_inForm e hs
  | fence => exact execFence_inForm e hs
  | pref => exact execPref_inForm e hs
  | cmaint => exact execCmaint_inForm e hs
  | barpa => exact execBarpa_inForm e hs
  | barpw => exact execBarpw_inForm e hs
  | xmma => exact execXmma_inForm e hs
  | xzero => exact execXzero_inForm e hs
  | xreq => exact execXreq_inForm e hs
  | xosq => exact execXosq_inForm e hs
  | cpy => exact execCpy_inForm e hs
  | cpyg => exact execCpyg_inForm e hs
  | cpys => exact execCpys_inForm e hs
  | cpyq => exact execCpyq_inForm e hs
  | rres => exact execRres_inForm e hs
  | rpub => exact execRpub_inForm e hs
  | rclm => exact execRclm_inForm e hs
  | rrel => exact execRrel_inForm e hs
  | rctr => exact execRctr_inForm e hs
  | msgp => exact execMsgp_inForm e hs
  | msgs => exact execMsgs_inForm e hs
  | msgc => exact execMsgc_inForm e hs
  | ptld => exact execPtld_inForm e hs
  | nop g => exact execNop_inForm (g := g) e hs
  | exit => exact execExit_inForm e hs
  | ret => exact execRet_inForm e hs
  | brx => exact execBrx_inForm e hs
  | yield g => exact execYield_inForm (g := g) e hs
  | trap => exact execTrap_inForm e hs
  | brk => exact execBrk_inForm e hs
  | tretNext => exact execTretNext_inForm e hs
  | tretRetry => exact execTretRetry_inForm e hs
  | rgn _ _ _ g => exact execRgn_inForm (g := g) e hs
  | rgnr _ _ _ g => exact execRgnr_inForm (g := g) e hs
  | rgne g => exact execRgne_inForm (g := g) e hs
  | waitf _ _ g => exact execWaitf_inForm (g := g) e hs
  | bars => exact execBars_inForm e hs
  | bara => exact execBara_inForm e hs
  | barw => exact execBarw_inForm e hs
  | bard => exact execBard_inForm e hs
  | launch => exact execLaunch_inForm e hs
  | joinc g => exact execJoinc_inForm (g := g) e hs
  | migr => exact execMigr_inForm e hs
  | rdsr => exact execRdsr_inForm e hs
  | wrsr => exact execWrsr_inForm e hs
  | mark => exact execMark_inForm e hs
  | bra => exact execBra_inForm e hs
  | call => exact execCall_inForm e hs
  | brau => exact execBrau_inForm e hs
  | clauseFetch => exact execClauseFetch_inForm e hs
  | clauseStart => exact execClauseStart_inForm e hs
  | stallTimeout => exact execStallTimeout_inForm e hs
  | fastBufferAssign => exact execFastBufferAssign_inForm e hs
  | fastBufferRecall => exact execFastBufferRecall_inForm e hs
  | hSheafEviction => exact execHSheafEviction_inForm e hs
  | medlarSpillDone => exact execMedlarSpillDone_inForm e hs
  | crewResume => exact execCrewResume_inForm e hs
  | runaheadStart => exact execRunaheadStart_inForm e hs
  | runaheadInstructionLimit => exact execRunaheadInstructionLimit_inForm e hs
  | migrationMove => exact execMigrationMove_inForm e hs
  | loadDelivery => exact execLoadDelivery_inForm e hs
  | storePerformed => exact execStorePerformed_inForm e hs
  | l1FillLand => exact execL1FillLand_inForm e hs
  | l1DirtyWriteback => exact execL1DirtyWriteback_inForm e hs
  | l1LineExpiry => exact execL1LineExpiry_inForm e hs
  | l2RequestAccept => exact execL2RequestAccept_inForm e hs
  | hbmChannelServe => exact execHbmChannelServe_inForm e hs
  | hbmTokenRefill => exact execHbmTokenRefill_inForm e hs
  | l2Fill => exact execL2Fill_inForm e hs
  | patrolScrub => exact execPatrolScrub_inForm e hs
  | fabricFrameReceive => exact execFabricFrameReceive_inForm e hs
  | peerTimeout => exact execPeerTimeout_inForm e hs
  | copyComplete => exact execCopyComplete_inForm e hs
  | copyFault => exact execCopyFault_inForm e hs
  | matrixPassDecision => exact execMatrixPassDecision_inForm e hs
  | matrixRowsWritten => exact execMatrixRowsWritten_inForm e hs
  | matrixPassEnd => exact execMatrixPassEnd_inForm e hs
  | writeBackAcknowledgement => exact execWriteBackAcknowledgement_inForm e hs
  | xzeroDone => exact execXzeroDone_inForm e hs
  | xreqDone => exact execXreqDone_inForm e hs
  | messageArrival => exact execMessageArrival_inForm e hs
  | queueDoorbell => exact execQueueDoorbell_inForm e hs
  | availEntryRead => exact execAvailEntryRead_inForm e hs
  | launchCommand => exact execLaunchCommand_inForm e hs
  | waitCommand => exact execWaitCommand_inForm e hs
  | signalCommand => exact execSignalCommand_inForm e hs
  | writeCommand => exact execWriteCommand_inForm e hs
  | fenceCommand => exact execFenceCommand_inForm e hs
  | copyCommand => exact execCopyCommand_inForm e hs
  | commandCompletion => exact execCommandCompletion_inForm e hs
  | crewDispatch => exact execCrewDispatch_inForm e hs
  | timeSliceEnd => exact execTimeSliceEnd_inForm e hs
  | trialEnd => exact execTrialEnd_inForm e hs
  | preemptionSaveDone => exact execPreemptionSaveDone_inForm e hs
  | crewRetire => exact execCrewRetire_inForm e hs
  | queueEnable => exact execQueueEnable_inForm e hs
  | queueDisable => exact execQueueDisable_inForm e hs
  | queueKill => exact execQueueKill_inForm e hs
  | queueKillFinish => exact execQueueKillFinish_inForm e hs
  | eventWrite => exact execEventWrite_inForm e hs
  | tlbiRange => exact execTlbiRange_inForm e hs
  | tlbiProcess => exact execTlbiProcess_inForm e hs
  | tlbiPartition => exact execTlbiPartition_inForm e hs
  | htlbiRange => exact execHtlbiRange_inForm e hs
  | htlbiVf => exact execHtlbiVf_inForm e hs
  | htlbiAllVfs => exact execHtlbiAllVfs_inForm e hs
  | tlbiComplete => exact execTlbiComplete_inForm e hs
  | faultRecordWrite => exact execFaultRecordWrite_inForm e hs
  | fresume => exact execFresume_inForm e hs
  | hresume => exact execHresume_inForm e hs
  | fown => exact execFown_inForm e hs
  | reclaimSweep => exact execReclaimSweep_inForm e hs
  | reclaimSweepEnd => exact execReclaimSweepEnd_inForm e hs
  | pageMoveFrame => exact execPageMoveFrame_inForm e hs
  | pageMoveToStore => exact execPageMoveToStore_inForm e hs
  | pageMoveFromStore => exact execPageMoveFromStore_inForm e hs
  | pageMoveDone => exact execPageMoveDone_inForm e hs
  | partitionCreate => exact execPartitionCreate_inForm e hs
  | partitionResize => exact execPartitionResize_inForm e hs
  | partitionDestroy => exact execPartitionDestroy_inForm e hs
  | partitionPromote => exact execPartitionPromote_inForm e hs
  | partitionCommandEnd => exact execPartitionCommandEnd_inForm e hs
  | poolmaskWrite => exact execPoolmaskWrite_inForm e hs
  | chipletQuarantine => exact execChipletQuarantine_inForm e hs
  | chipletReset => exact execChipletReset_inForm e hs
  | chipletSelfReset => exact execChipletSelfReset_inForm e hs
  | attestationRetry => exact execAttestationRetry_inForm e hs
  | keyRoll => exact execKeyRoll_inForm e hs
  | spdmResponse => exact execSpdmResponse_inForm e hs
  | keyRolloverForced => exact execKeyRolloverForced_inForm e hs
  | rolloverAckTimeout => exact execRolloverAckTimeout_inForm e hs
  | linkGroupReceive => exact execLinkGroupReceive_inForm e hs
  | partialGroupClose => exact execPartialGroupClose_inForm e hs
  | principalBind => exact execPrincipalBind_inForm e hs
  | principalUnbind => exact execPrincipalUnbind_inForm e hs
  | osetReclaim => exact execOsetReclaim_inForm e hs
  | osetRequest => exact execOsetRequest_inForm e hs
  | policyInstall => exact execPolicyInstall_inForm e hs
  | policyRemove => exact execPolicyRemove_inForm e hs
  | getVersion => exact execGetVersion_inForm e hs
  | getCapabilities => exact execGetCapabilities_inForm e hs
  | negotiateAlgorithms => exact execNegotiateAlgorithms_inForm e hs
  | getDigests => exact execGetDigests_inForm e hs
  | getCertificate => exact execGetCertificate_inForm e hs
  | challenge => exact execChallenge_inForm e hs
  | getMeasurements => exact execGetMeasurements_inForm e hs
  | vendorDefinedRequest => exact execVendorDefinedRequest_inForm e hs
  | keyExchange req => exact execKeyExchange_inForm (req := req) e hs
  | pskExchange req => exact execPskExchange_inForm (req := req) e hs
  | spdmOtherRequest req => exact execSpdmOtherRequest_inForm (req := req) e hs
  | cselWrite => exact execCselWrite_inForm e hs
  | counterClear => exact execCounterClear_inForm e hs
  | cntloRead => exact execCntloRead_inForm e hs
  | cnthiRead => exact execCnthiRead_inForm e hs
  | leaseRequest => exact execLeaseRequest_inForm e hs
  | leaseRelease => exact execLeaseRelease_inForm e hs
  | leaseRevoke => exact execLeaseRevoke_inForm e hs
  | tracePcSample => exact execTracePcSample_inForm e hs
  | debugStop => exact execDebugStop_inForm e hs
  | debugResume => exact execDebugResume_inForm e hs
  | debugDump => exact execDebugDump_inForm e hs
  | replayOff => exact execReplayOff_inForm e hs
  | recordMode => exact execRecordMode_inForm e hs
  | replayMode => exact execReplayMode_inForm e hs
  | trialStart => exact execTrialStart_inForm e hs
  | vfFlr => exact execVfFlr_inForm e hs
  | pfFlr => exact execPfFlr_inForm e hs
  | packageReset => exact execPackageReset_inForm e hs
  | islandFreqWrite => exact execIslandFreqWrite_inForm e hs
  | powerManagerStep => exact execPowerManagerStep_inForm e hs
  | firmwareImageWrite => exact execFirmwareImageWrite_inForm e hs
  | registerWrite => exact execRegisterWrite_inForm e hs
  | vectorUnmask => exact execVectorUnmask_inForm e hs
  | installAcknowledgement => exact execInstallAcknowledgement_inForm e hs
  | fabricPortLinkChange => exact execFabricPortLinkChange_inForm e hs

theorem step_inForm (e : step s = .next t) (hs : s.InForm) : t.InForm := by
  have hp : (pick s).InForm := pick_inForm hs
  unfold step at e
  split at e
  · rename_i hq
    rw [hq] at hp
    exact exec_inForm e hp
  · rename_i hq
    rw [hq] at hp
    cases e
    exact hp
  · cases e

end Sys2Proof.Machine

namespace Sys2Proof.Proofs

open Sys2Proof.Machine

/-- Settles O48: every function that a step runs keeps the three memories in form, so the step does. -/
theorem memoriesStayInForm : Obligations.MemoriesStayInForm := by
  unfold Obligations.MemoriesStayInForm
  exact fun _ _ hs e => step_inForm e hs

end Sys2Proof.Proofs
end

section
/-! SUPPORT. What a channel serves next (05_memory.md R122; 16_partitions.md R371), as lemmas for O55. -/

set_option Elab.async false -- one proof at a time: side by side they hold more memory than the check allows

namespace Sys2Proof.Machine

open Host (Outcome)
open Sys2Proof.Claims (Gives)

/-! ## The request a channel serves next (R371) -/

theorem leastBy_none {α : Type} {f : α → Nat} {xs : List α} (h : leastBy f xs = none) : xs = [] := by
  cases xs with
  | nil => rfl
  | cons x rest =>
    simp only [leastBy] at h
    split at h
    · cases h
    · split at h <;> cases h

theorem leastBy_le {α : Type} {f : α → Nat} {xs : List α} {a : α} (h : leastBy f xs = some a) : ∀ b ∈ xs, f a ≤ f b := by
  induction xs generalizing a with
  | nil => cases h
  | cons x rest ih =>
    simp only [leastBy] at h
    split at h
    · rename_i hr
      cases h
      simp [leastBy_none hr]
    · rename_i y hy
      have hall := ih hy
      split at h <;> cases h <;> intro b hb <;> rcases List.mem_cons.1 hb with rfl | hb
      · omega
      · exact hall b hb
      · exact le_rfl
      · have := hall b hb
        omega

/-- The oldest of the requests of a queue that pass a test. -/
theorem oldest_iff {c : Channel} {f : HbmReq → Bool} {q : HbmReq} (h : leastBy (fun q : HbmReq => q.seq) (c.queue.filter f) = some q) :
    q ∈ c.queue ∧ f q = true ∧ ∀ r ∈ c.queue, f r = true → q.seq ≤ r.seq := by
  have hm := List.mem_filter.1 (mem_of_leastBy h)
  exact ⟨hm.1, hm.2, fun r hr hf => leastBy_le h r (List.mem_filter.2 ⟨hr, hf⟩)⟩

theorem oldest_none {c : Channel} {f : HbmReq → Bool} (h : leastBy (fun q : HbmReq => q.seq) (c.queue.filter f) = none) :
    ∀ r ∈ c.queue, f r = false := by
  intro r hr
  have := leastBy_none h
  simpa using (List.filter_eq_nil_iff.1 this) r hr

theorem nextServed_spec {s : State} {c : Channel} {q : HbmReq} (h : nextServed s c = some q) :
    q ∈ c.queue ∧ ((∃ r ∈ c.queue, r.h = false) → q.h = false) ∧
    (q.h = true → hasToken c q = true) ∧ (q.h = false → (∃ r ∈ c.queue, r.h = false ∧ hasToken c r = true) → hasToken c q = true) ∧
    ∀ r ∈ c.queue, r.h = q.h → hasToken c r = hasToken c q → guaranteed s r.vf = guaranteed s q.vf → q.seq ≤ r.seq := by
  unfold nextServed at h
  dsimp only at h
  cases h1 : leastBy (fun q : HbmReq => q.seq) (c.queue.filter fun q => !q.h && hasToken c q && guaranteed s q.vf) with
  | some a =>
    rw [h1] at h
    cases h
    obtain ⟨hm, hf, hle⟩ := oldest_iff h1
    grind
  | none =>
  have n1 := oldest_none h1
  cases h2 : leastBy (fun q : HbmReq => q.seq) (c.queue.filter fun q => !q.h && hasToken c q) with
  | some a =>
    rw [h1, h2] at h
    cases h
    obtain ⟨hm, hf, hle⟩ := oldest_iff h2
    grind
  | none =>
  have n2 := oldest_none h2
  cases h3 : leastBy (fun q : HbmReq => q.seq) (c.queue.filter fun q => !q.h && guaranteed s q.vf) with
  | some a =>
    rw [h1, h2, h3] at h
    cases h
    obtain ⟨hm, hf, hle⟩ := oldest_iff h3
    grind
  | none =>
  have n3 := oldest_none h3
  cases h4 : leastBy (fun q : HbmReq => q.seq) (c.queue.filter fun q => !q.h) with
  | some a =>
    rw [h1, h2, h3, h4] at h
    cases h
    obtain ⟨hm, hf, hle⟩ := oldest_iff h4
    grind
  | none =>
  have n4 := oldest_none h4
  rw [h1, h2, h3, h4] at h
  obtain ⟨hm, hf, hle⟩ := oldest_iff (h : leastBy _ _ = _)
  grind

/-! ## Slices and channels -/

@[simp] theorem State.slice_modSlice (s : State) (k j : Nat) (f : Slice → Slice) :
    (s.modSlice k f).slice j = if j = k then f (s.slice k) else s.slice j := Map.get_put _ _ _ _ _

@[simp] theorem State.channel_modChannel (s : State) (k j : Nat) (f : Channel → Channel) :
    (s.modChannel k f).channel j = if j = k then f (s.channel k) else s.channel j := Map.get_put _ _ _ _ _

theorem hbmChannelServe_gives {channel : Nat} {s : State} {q : HbmReq} (h : nextServed s (s.channel channel) = some q) :
    Gives (.hbmChannelServe channel) s fun t => (t.channel channel).queue = (s.channel channel).queue.erase q ∧
      (q.write = false → ∀ m ∈ (t.slice q.slice).misses, m.1 = q.line → m.2.2 = true) ∧
      (q.write = true → t.slices = s.slices) ∧ (t.slice q.slice).misses.map Prod.fst = (s.slice q.slice).misses.map Prod.fst ∧
      t.crews = s.crews ∧ SameMemory s t := by
  have hx : exec (.hbmChannelServe channel) s = execHbmChannelServe channel s := rfl
  unfold Gives
  rw [hx, execHbmChannelServe, h]
  dsimp only
  cases hw : q.write with
  | true =>
    refine ⟨_, rfl, ?_, nofun, fun _ => rfl, rfl, rfl, .refl _⟩
    rw [State.channel_modChannel, if_pos rfl]
  | false =>
    refine ⟨_, rfl, ?_, fun _ m hm hq => ?_, nofun, ?_, rfl, rfl, rfl, rfl⟩
    · have : (s.modChannel channel fun c => { spendToken c q with queue := c.queue.erase q }).channel channel = _ :=
        (State.channel_modChannel _ _ _ _).trans (if_pos rfl)
      exact (congrArg Channel.queue this :)
    · rw [State.slice_modSlice, if_pos rfl] at hm
      obtain ⟨m', _, rfl⟩ := List.mem_map.1 hm
      grind
    · rw [State.slice_modSlice, if_pos rfl, List.map_map]
      refine List.map_congr_left fun m _ => ?_
      grind

end Sys2Proof.Machine
end

section
/-! SUPPORT. The refill of the channels' buckets (16_partitions.md R371), as lemmas for O55. -/

set_option Elab.async false -- one proof at a time: side by side they hold more memory than the check allows

namespace Sys2Proof.Machine

open Host (Outcome)
open Sys2Proof.Claims (Gives)

/-! ## Buckets (R371) -/

/-- A channel after the buckets of one VF have refilled. -/
def Channel.refill (c : Channel) (p : Nat × Vf) : Channel :=
  if p.2.state = 0 then c
  else
    { c with gTok := Map.put c.gTok p.1 (min p.2.cfg.gDepth (Map.get c.gTok p.1 0 + p.2.cfg.gShare)),
             hTok := Map.put c.hTok p.1 (min p.2.cfg.hDepth (Map.get c.hTok p.1 0 + p.2.cfg.hCap)) }

/-- A machine whose channel has refilled the buckets of one VF. -/
def State.refill (channel : Nat) (s : State) (p : Nat × Vf) : State :=
  if p.2.state = 0 then s else s.modChannel channel fun c => c.refill p

theorem exec_hbmTokenRefill (channel : Nat) (s : State) :
    exec (.hbmTokenRefill channel) s = .next (s.vfs.foldl (State.refill channel) s) := by
  refine congrArg Outcome.next (foldl_congr_mem _ _ fun s p _ => ?_)
  unfold State.refill Channel.refill
  split
  · rfl
  · rfl

theorem channel_refills (channel : Nat) (ps : List (Nat × Vf)) (s : State) :
    (ps.foldl (State.refill channel) s).channel channel = ps.foldl Channel.refill (s.channel channel) := by
  induction ps generalizing s with
  | nil => rfl
  | cons p rest ih =>
    rw [List.foldl_cons, List.foldl_cons, ih]
    unfold State.refill
    split
    · rw [Channel.refill, if_pos ‹_›]
    · rw [State.channel_modChannel, if_pos rfl]

theorem queue_refill (c : Channel) (p : Nat × Vf) : (c.refill p).queue = c.queue := by
  unfold Channel.refill
  split
  · rfl
  · rfl

theorem tokens_refill_other {c : Channel} {p : Nat × Vf} {vf : Nat} (h : p.1 ≠ vf) :
    Map.get (c.refill p).gTok vf 0 = Map.get c.gTok vf 0 ∧ Map.get (c.refill p).hTok vf 0 = Map.get c.hTok vf 0 := by
  unfold Channel.refill
  split
  · exact ⟨rfl, rfl⟩
  · simp only [Map.get_put, if_neg (Ne.symm h), and_self]

theorem tokens_refills_other {ps : List (Nat × Vf)} {vf : Nat} (h : vf ∉ ps.map Prod.fst) (c : Channel) :
    Map.get (ps.foldl Channel.refill c).gTok vf 0 = Map.get c.gTok vf 0 ∧
      Map.get (ps.foldl Channel.refill c).hTok vf 0 = Map.get c.hTok vf 0 := by
  induction ps generalizing c with
  | nil => exact ⟨rfl, rfl⟩
  | cons p rest ih =>
    rw [List.map_cons, List.mem_cons, not_or] at h
    obtain ⟨hg, hh⟩ := tokens_refill_other (c := c) (Ne.symm h.1)
    obtain ⟨ig, ihh⟩ := ih h.2 (c.refill p)
    exact ⟨ig.trans hg, ihh.trans hh⟩

theorem tokens_refills {ps : List (Nat × Vf)} {vf : Nat} {v : Vf} (hn : (ps.map Prod.fst).Nodup) (hm : (vf, v) ∈ ps) (hv : v.state ≠ 0)
    (c : Channel) :
    Map.get (ps.foldl Channel.refill c).gTok vf 0 = min v.cfg.gDepth (Map.get c.gTok vf 0 + v.cfg.gShare) ∧
      Map.get (ps.foldl Channel.refill c).hTok vf 0 = min v.cfg.hDepth (Map.get c.hTok vf 0 + v.cfg.hCap) := by
  induction ps generalizing c with
  | nil => cases hm
  | cons p rest ih =>
    obtain ⟨hp, hrest⟩ := List.nodup_cons.1 hn
    rw [List.foldl_cons]
    rcases List.mem_cons.1 hm with rfl | hm
    · obtain ⟨hg, hh⟩ := tokens_refills_other hp (c.refill (vf, v))
      rw [hg, hh]
      simp only [Channel.refill, if_neg hv, Map.get_put_self, and_self]
    · have hne : p.1 ≠ vf := fun e => hp (e ▸ List.mem_map_of_mem hm)
      obtain ⟨hg, hh⟩ := tokens_refill_other (c := c) hne
      rw [← hg, ← hh]
      exact ih hrest hm (c.refill p)

theorem memory_refills (channel : Nat) (ps : List (Nat × Vf)) (s : State) : SameMemory s (ps.foldl (State.refill channel) s) := by
  have hk : ∀ s p, SameMemory s (State.refill channel s p) := fun s p => by
    unfold State.refill
    split
    · exact .refl s
    · exact ⟨rfl, rfl, rfl⟩
  exact ⟨foldl_keeps State.hbm (fun s p => (hk s p).1) ps s, foldl_keeps State.host (fun s p => (hk s p).2.1) ps s,
    foldl_keeps State.store (fun s p => (hk s p).2.2) ps s⟩

theorem hbmTokenRefill_gives {channel vf : Nat} {s : State} {v : Vf} (hw : Map.wf s.vfs = true) (hf : Map.find? s.vfs vf = some v)
    (hv : v.state ≠ 0) :
    Gives (.hbmTokenRefill channel) s fun t =>
      Map.get (t.channel channel).gTok vf 0 = min v.cfg.gDepth (Map.get (s.channel channel).gTok vf 0 + v.cfg.gShare) ∧
      Map.get (t.channel channel).hTok vf 0 = min v.cfg.hDepth (Map.get (s.channel channel).hTok vf 0 + v.cfg.hCap) ∧
      (t.channel channel).queue = (s.channel channel).queue ∧ SameMemory s t := by
  refine ⟨_, exec_hbmTokenRefill channel s, ?_⟩
  beta_reduce
  rw [channel_refills]
  obtain ⟨hg, hh⟩ := tokens_refills (Map.nodup_keys hw) (Map.mem_of_find? hf) hv (s.channel channel)
  exact ⟨hg, hh, foldl_keeps Channel.queue queue_refill s.vfs _, memory_refills channel s.vfs s⟩

end Sys2Proof.Machine
end

section
/-! SUPPORT. Write-backs and expiry of L1 lines (05_memory.md R121, R122), as lemmas for O55. -/

set_option Elab.async false -- one proof at a time: side by side they hold more memory than the check allows

namespace Sys2Proof.Machine

open Host (Outcome)
open Sys2Proof.Claims (Gives)

/-! ## The memory side (R123 to R125) -/

/-- The memory side reads the same where the partitions, the lines of the slices and HBM are the same. -/
theorem memByte_congr {s t : State} (hv : t.vfs = s.vfs) (hl : ∀ k, (t.slice k).lines = (s.slice k).lines) (hh : t.hbm = s.hbm)
    (vf pa : Nat) : memByte t vf pa = memByte s vf pa := by
  have hf : l2Find t vf pa = l2Find s vf pa := by
    have hk := hl (sliceOf (s.vf vf).cfg pa)
    simp only [State.slice] at hk
    simp only [l2Find, State.vf, hv] at hk ⊢
    rw [hk]
  rw [memByte, memByte, hf, hh]

theorem sliceHit_congr {s t : State} (hv : t.vfs = s.vfs) (hl : ∀ k, (t.slice k).lines = (s.slice k).lines)
    (vf pa : Nat) : sliceHit t vf pa = sliceHit s vf pa := by
  have hf : l2Find t vf pa = l2Find s vf pa := by
    have hk := hl (sliceOf (s.vf vf).cfg pa)
    simp only [State.slice] at hk
    simp only [l2Find, State.vf, hv] at hk ⊢
    rw [hk]
  rw [sliceHit, sliceHit, hf]

/-- A core reads the same where the L1s, the write-backs and the memory side are the same. -/
theorem dieRead_congr {s t : State} (hc : t.cores = s.cores) (hcy : t.cycles = s.cycles) (hw : t.wbufs = s.wbufs)
    (hm : ∀ vf pa, memByte t vf pa = memByte s vf pa) (core vf dev pa : Nat) : dieRead t core vf dev pa = dieRead s core vf dev pa := by
  simp only [dieRead, l1Line, State.core, dieDirty, dieCores, wbByte, hc, hcy, hw, hm]

/-! ## Lines of L1s (R121, R122) -/

section
variable {s : State} {core line : Nat}

theorem l1Line_modCore (s : State) (core : Nat) (f : Core → Core) (c key : Nat) :
    l1Line (s.modCore core f) c key = if c = core then Map.find? (f (s.core core)).l1 key else l1Line s c key := by
  rw [l1Line, State.core_modCore]
  split
  · rfl
  · rfl

theorem cleanLine_eq {l : L1Line} (hl : l1Line s core line = some l) (hf : Flaw.l1 core line ∉ s.flaws) (hd : l.dirty ≠ 0) :
    cleanLine s core line = { s.modCore core fun k => { k with l1 := Map.put k.l1 line { l with dirty := 0 } } with
      wbufs := s.wbufs ++ [wbOf core line l] } := by
  simp only [cleanLine, hl, if_neg hd, List.contains_eq_mem, hf, decide_false, Bool.false_eq_true, if_false]

theorem keys_put_listed {α : Type} {m : Map α} {k : Nat} {x : α} (a : α) (h : Map.find? m k = some x) :
    Map.keys (Map.put m k a) = Map.keys m := by
  induction m with
  | nil => cases h
  | cons p rest ih =>
    obtain ⟨j, y⟩ := p
    simp only [Map.find?] at h
    simp only [Map.put]
    by_cases hj : j = k
    · rw [if_neg (by omega), if_pos hj]
      simp [Map.keys, hj]
    · rw [if_neg hj] at h
      by_cases hlt : k < j
      · rw [if_pos hlt] at h
        cases h
      · rw [if_neg hlt] at h
        rw [if_neg hlt, if_neg hj]
        simp only [Map.keys, List.map_cons, List.cons.injEq, true_and]
        exact ih h

/-- A line is held by a core that the machine lists. -/
theorem core_listed {l : L1Line} (hl : l1Line s core line = some l) : ∃ k, Map.find? s.cores core = some k := by
  cases h : Map.find? s.cores core with
  | some k => exact ⟨k, rfl⟩
  | none =>
    simp [l1Line, State.core, Map.get, h, Core.init, Map.find?] at hl

theorem Map.find?_filter {α : Type} {m : Map α} (hw : Map.wf m = true) (f : Nat × α → Bool) (k : Nat) :
    Map.find? (m.filter f) k = (Map.find? m k).filter fun a => f (k, a) := by
  induction m with
  | nil => rfl
  | cons p rest ih =>
    obtain ⟨j, x⟩ := p
    obtain ⟨hlt, hrest⟩ := Map.wf_cons hw
    have hbelow : ∀ q ∈ rest.filter f, j < q.1 := fun q hq => hlt q (List.mem_of_mem_filter hq)
    by_cases hj : j = k
    · subst hj
      by_cases hx : f (j, x) = true
      · simp [hx, Map.find?, Option.filter]
      · simp [hx, Map.find?, Map.find?_below hbelow, Option.filter]
    · have hf : Map.find? (((j, x) :: rest).filter f) k = if k < j then none else Map.find? (rest.filter f) k := by
        by_cases hx : f (j, x) = true
        · rw [List.filter_cons_of_pos hx, Map.find?, if_neg hj]
        · rw [List.filter_cons_of_neg hx]
          split
          · exact Map.find?_below fun q hq => Nat.lt_trans ‹_› (hbelow q hq)
          · rfl
      rw [hf, Map.find?, if_neg hj, ih hrest]
      split <;> rfl

theorem find?_dirtyBytes {l : L1Line} {off : Nat} (hw : Map.wf l.bytes = true) (h : Map.find? l.bytes off = none) :
    Map.find? (dirtyBytes l) off = none := by
  rw [dirtyBytes, Map.find?_filter hw, h]
  rfl

/-- A core's read turns on its own line, on what its die holds dirty and has written back, and on the memory side. -/
theorem dieRead_keeps {t : State} {vf dev pa : Nat}
    (ho : ((l1Line t core (lineKey dev pa)).bind fun l => Map.find? l.bytes (pa % 64)) =
      (l1Line s core (lineKey dev pa)).bind fun l => Map.find? l.bytes (pa % 64))
    (hd : ((l1Line s core (lineKey dev pa)).bind fun l => Map.find? l.bytes (pa % 64)) = none →
      dieDirty t (dieOf core) (lineKey dev pa) (pa % 64) = dieDirty s (dieOf core) (lineKey dev pa) (pa % 64) ∧
        wbByte t (dieOf core) (lineKey dev pa) (pa % 64) = wbByte s (dieOf core) (lineKey dev pa) (pa % 64))
    (hm : memByte t vf pa = memByte s vf pa) : dieRead t core vf dev pa = dieRead s core vf dev pa := by
  unfold dieRead
  dsimp only
  rw [ho]
  split
  · rfl
  · obtain ⟨h1, h2⟩ := hd ‹_›
    rw [h1, h2, hm]

theorem l1Line_cleanLine {l : L1Line} (hl : l1Line s core line = some l) (hf : Flaw.l1 core line ∉ s.flaws) (hd : l.dirty ≠ 0) (c key : Nat) :
    l1Line (cleanLine s core line) c key = if c = core ∧ key = line then some { l with dirty := 0 } else l1Line s c key := by
  rw [cleanLine_eq hl hf hd]
  refine (l1Line_modCore s core (fun k => { k with l1 := Map.put k.l1 line { l with dirty := 0 } }) c key).trans ?_
  by_cases hc : c = core
  · subst hc
    simp only [true_and, if_true, Map.find?_put]
    rfl
  · simp only [hc, false_and, if_false]

/-- What a core reads, the write-back of its own line leaves. -/
theorem dieRead_cleanLine {l : L1Line} (hl : l1Line s core line = some l) (hf : Flaw.l1 core line ∉ s.flaws) (hd : l.dirty ≠ 0)
    (hw : Map.wf l.bytes = true) (vf dev pa : Nat) : dieRead (cleanLine s core line) core vf dev pa = dieRead s core vf dev pa := by
  have hline := l1Line_cleanLine hl hf hd
  have hbufs : (cleanLine s core line).wbufs = s.wbufs ++ [wbOf core line l] := by rw [cleanLine_eq hl hf hd]
  have hdie : dieCores (cleanLine s core line) (dieOf core) = dieCores s (dieOf core) := by
    rw [cleanLine_eq hl hf hd]
    exact congrArg (List.filter fun c => dieOf c == dieOf core) (keys_put_listed _ (core_listed hl).choose_spec)
  have hmem : memByte (cleanLine s core line) vf pa = memByte s vf pa := by
    rw [cleanLine_eq hl hf hd]
    exact memByte_congr rfl (fun _ => rfl) rfl vf pa
  refine dieRead_keeps ?_ (fun hn => ⟨?_, ?_⟩) hmem
  · rw [hline]
    split
    · rw [‹core = core ∧ lineKey dev pa = line›.2, hl]
      rfl
    · rfl
  · rw [dieDirty, dieDirty, hdie]
    congr 1
    funext c
    rw [hline]
    split
    · obtain ⟨rfl, hk⟩ := ‹c = core ∧ lineKey dev pa = line›
      rw [hk, hl] at hn ⊢
      simp only [Option.bind_some] at hn ⊢
      simp [hn]
    · rfl
  · rw [wbByte, hbufs, List.foldl_append, ← wbByte]
    simp only [List.foldl_cons, List.foldl_nil, wbOf]
    split
    · rename_i hb
      have hk : line = lineKey dev pa := by simpa using hb
      rw [← hk, hl] at hn
      rw [find?_dirtyBytes hw hn]
    · rfl

theorem l1DirtyWriteback_wbufs {l : L1Line} (hl : l1Line s core line = some l) (hd : l.dirty ≠ 0) (hf : Flaw.l1 core line ∉ s.flaws) :
    Gives (.l1DirtyWriteback core line) s fun t => t.wbufs = s.wbufs ++ [wbOf core line l] :=
  ⟨cleanLine s core line, rfl, by rw [cleanLine_eq hl hf hd]⟩

theorem l1DirtyWriteback_gives {l : L1Line} (hl : l1Line s core line = some l) (hd : l.dirty ≠ 0) (hf : Flaw.l1 core line ∉ s.flaws)
    (hw : Map.wf l.bytes = true) :
    Gives (.l1DirtyWriteback core line) s fun t => t.wbufs = s.wbufs ++ [wbOf core line l] ∧
      l1Line t core line = some { l with dirty := 0 } ∧ (∀ vf dev pa, dieRead t core vf dev pa = dieRead s core vf dev pa) ∧ SameMemory s t := by
  refine ⟨cleanLine s core line, rfl, ?_, ?_, dieRead_cleanLine hl hf hd hw, ?_⟩
  · rw [cleanLine_eq hl hf hd]
  · rw [l1Line_cleanLine hl hf hd, if_pos ⟨rfl, rfl⟩]
  · rw [cleanLine_eq hl hf hd]
    exact ⟨rfl, rfl, rfl⟩

theorem l1LineExpiry_gives {l : L1Line} (hl : l1Line s core line = some l) (hf : Flaw.l1 core line ∉ s.flaws)
    (hw : Map.wf (s.core core).l1 = true) :
    Gives (.l1LineExpiry core line) s fun t => l1Line t core line = none ∧ SameMemory s t ∧
      t.wbufs = if l.dirty = 0 then s.wbufs else s.wbufs ++ [wbOf core line l] := by
  have hx : exec (.l1LineExpiry core line) s = .next (dropLine s core line) := by
    show execL1LineExpiry core line s = _
    rw [execL1LineExpiry, hl]
    rfl
  refine ⟨_, hx, ?_⟩
  by_cases hd : l.dirty = 0
  · have hc : cleanLine s core line = s := by simp only [cleanLine, hl, if_pos hd]
    rw [dropLine, hc, if_pos hd]
    refine ⟨?_, ⟨rfl, rfl, rfl⟩, rfl⟩
    rw [l1Line_modCore, if_pos rfl, Map.find?_del hw, if_pos rfl]
  · rw [dropLine, cleanLine_eq hl hf hd, if_neg hd]
    refine ⟨?_, ⟨rfl, rfl, rfl⟩, rfl⟩
    have hk : (cleanLine s core line).core core = { s.core core with l1 := Map.put (s.core core).l1 line { l with dirty := 0 } } := by
      rw [cleanLine_eq hl hf hd]
      exact (State.core_modCore s core (fun k => { k with l1 := Map.put k.l1 line { l with dirty := 0 } }) core).trans (if_pos rfl)
    rw [cleanLine_eq hl hf hd] at hk
    refine (l1Line_modCore _ _ _ _ _).trans ?_
    rw [if_pos rfl, hk, Map.find?_del (Map.wf_put hw _ _), if_pos rfl]

end

end Sys2Proof.Machine
end

section
/-! SUPPORT. A served line that lands in its L1 (13_programs_user.md R310, R311), as lemmas for O55. -/

set_option Elab.async false -- one proof at a time: side by side they hold more memory than the check allows

namespace Sys2Proof.Machine

open Host (Outcome)
open Sys2Proof.Claims (Gives)

/-! ## A line that lands (R310, R311) -/

/-- A machine but for the lines of its L1s, what they have written back, and the errors found there. -/
def State.sansL1s (s : State) : State := { s with cores := [], flaws := [], found := [], wbufs := [] }

/-- What lines coming into L1s and leaving them change: the L1s, what is written back, and the errors found there. -/
structure LinesOnly (s t : State) : Prop where
  rest : t.sansL1s = s.sansL1s
  cores : ∀ k, (t.core k).sansLines = (s.core k).sansLines

theorem LinesOnly.trans {a b c : State} (h : LinesOnly a b) (k : LinesOnly b c) : LinesOnly a c :=
  ⟨k.rest.trans h.rest, fun i => (k.cores i).trans (h.cores i)⟩

theorem linesOnly_modCore {s : State} {core : Nat} {f : Core → Core} (hf : ∀ k, (f k).sansLines = k.sansLines) :
    LinesOnly s (s.modCore core f) := by
  refine ⟨rfl, fun k => ?_⟩
  rw [State.core_modCore]
  split
  · rw [hf, ‹k = core›]
  · rfl

theorem linesOnly_cleanLine (s : State) (core key : Nat) : LinesOnly s (cleanLine s core key) := by
  have hm : ∀ (f : Core → Core), (∀ k, (f k).sansLines = k.sansLines) → LinesOnly s (s.modCore core f) := fun f hf => linesOnly_modCore hf
  unfold cleanLine
  split
  · exact ⟨rfl, fun _ => rfl⟩
  split
  · exact ⟨rfl, fun _ => rfl⟩
  split
  · have h := hm (fun k => { k with l1 := Map.del k.l1 key }) fun _ => rfl
    exact ⟨h.rest, h.cores⟩
  · rename_i l _ _ _
    have h := hm (fun k => { k with l1 := Map.put k.l1 key { l with dirty := 0 } }) fun _ => rfl
    exact ⟨h.rest, h.cores⟩

theorem linesOnly_dropLine (s : State) (core key : Nat) : LinesOnly s (dropLine s core key) :=
  (linesOnly_cleanLine s core key).trans (linesOnly_modCore fun _ => rfl)

theorem sansLines_keepCap (k : Core) (key : Nat) : (keepCap k key).sansLines = k.sansLines := by
  unfold keepCap
  dsimp only
  split
  · rfl
  · split <;> rfl

theorem linesOnly_haveLine (s : State) (core key vf : Nat) (h : Bool) (pcls policy : Nat) :
    LinesOnly s (haveLine s core key vf h pcls policy) := by
  have hroom : LinesOnly s (l1Room s core key) := by
    unfold l1Room
    dsimp only
    split
    · exact ⟨rfl, fun _ => rfl⟩
    · split
      · exact linesOnly_dropLine s core _
      · exact ⟨rfl, fun _ => rfl⟩
  unfold haveLine
  split
  · exact linesOnly_modCore fun k => sansLines_keepCap _ key
  · exact hroom.trans (linesOnly_modCore fun k => sansLines_keepCap _ key)

/-- Puts a fill's bytes, each with its place, where the line is not dirty. -/
def fillBytes (dirty : BitVec 64) (m : Map Byte) (qs : List (Byte × Nat)) : Map Byte :=
  qs.foldl (fun m q => if dirty.getLsbD q.2 then m else Map.put m q.2 q.1) m

theorem find?_fillBytes_other {dirty : BitVec 64} {i : Nat} {qs : List (Byte × Nat)} (h : i ∉ qs.map Prod.snd) (m : Map Byte) :
    Map.find? (fillBytes dirty m qs) i = Map.find? m i := by
  induction qs generalizing m with
  | nil => rfl
  | cons q rest ih =>
    rw [List.map_cons, List.mem_cons, not_or] at h
    refine (ih h.2 _).trans ?_
    beta_reduce
    split
    · rfl
    · exact Map.find?_put_other _ _ _ _ h.1

theorem find?_fillBytes {dirty : BitVec 64} {b : Byte} {i : Nat} {qs : List (Byte × Nat)} (hn : (qs.map Prod.snd).Nodup) (hm : (b, i) ∈ qs)
    (hd : dirty.getLsbD i = false) (m : Map Byte) : Map.find? (fillBytes dirty m qs) i = some b := by
  induction qs generalizing m with
  | nil => cases hm
  | cons q rest ih =>
    obtain ⟨hq, hrest⟩ := List.nodup_cons.1 hn
    rcases List.mem_cons.1 hm with rfl | hm
    · refine (find?_fillBytes_other hq _).trans ?_
      simp only [hd, Bool.false_eq_true, if_false, Map.find?_put_self]
    · exact ih hrest hm _

theorem landLine_bytes {dirty : BitVec 64} {bs : List Byte} {i : Nat} (hi : i < bs.length) (hd : dirty.getLsbD i = false) (m : Map Byte) :
    Map.find? (fillBytes dirty m (bs.zip (List.range bs.length))) i = some bs[i] := by
  refine find?_fillBytes ?_ ?_ hd m
  · rw [List.map_snd_zip (by simp)]
    exact List.nodup_range
  · exact List.mem_iff_getElem.2 ⟨i, by simpa using hi, by simp⟩

theorem core_landLine (s : State) (core key vf : Nat) (h : Bool) (pcls : Nat) (bs : List Byte) :
    (landLine s core key vf h pcls bs).core core =
      { ((haveLine s core key vf h pcls (Map.get (s.core core).fillP key 0)).core core).endFill key with
        l1 := Map.mod ((haveLine s core key vf h pcls (Map.get (s.core core).fillP key 0)).core core).l1 key fun l =>
          { l with bytes := fillBytes l.dirty l.bytes (bs.zip (List.range bs.length)) } } :=
  (State.core_modCore (haveLine s core key vf h pcls (Map.get (s.core core).fillP key 0)).tickSeq core
    (fun k => { k.endFill key with
      l1 := Map.mod k.l1 key fun l => { l with bytes := fillBytes l.dirty l.bytes (bs.zip (List.range bs.length)) } }) core).trans (if_pos rfl)

/-- A machine but for what a line changes that lands in an L1. -/
def State.sansLanding (s : State) : State := { s.sansL1s with ops := [], seq := 0 }

theorem sansLanding_landLine (s : State) (core key vf : Nat) (h : Bool) (pcls : Nat) (bs : List Byte) :
    (landLine s core key vf h pcls bs).sansLanding = s.sansLanding :=
  (congrArg (fun t : State => { t with ops := [], seq := 0 })
    (linesOnly_haveLine s core key vf h pcls (Map.get (s.core core).fillP key 0)).rest :)

/-- No operation of a core waits for a line that has landed there. -/
theorem need_landLine {s : State} {core key vf : Nat} {h : Bool} {pcls : Nat} {bs : List Byte} {p : Nat × Op}
    (hp : p ∈ (landLine s core key vf h pcls bs).ops) (hc : p.2.onCore (landLine s core key vf h pcls bs) core = true) : key ∉ p.2.need := by
  obtain ⟨q, _, rfl⟩ := List.mem_map.1 hp
  split at hc
  · rw [if_pos ‹_›]
    simp
  · exact absurd hc ‹_›

theorem l1FillLand_gives {core line k : Nat} {s : State} {r : L2Req} (hr : servedReq s core line = some (k, r))
    (hf : flawedAt s r.vf (keyPa line) = false) :
    Gives (.l1FillLand core line) s fun t => line ∉ (t.core core).fills ∧ SameMemory s t ∧
      (∀ p ∈ t.ops, p.2.onCore t core = true → line ∉ p.2.need) ∧ (t.slice k).entries = (s.slice k).entries.erase r ∧
      ∃ l, l1Line t core line = some l ∧
        ∀ i, i < 64 → l.dirty.getLsbD i = false → Map.find? l.bytes i = some (dieRead s core r.vf 0 (keyPa line + i)) := by
  set s1 := s.modSlice k fun z => { z with entries := z.entries.erase r } with hs1
  have hread : ∀ i, dieRead s1 core r.vf 0 (keyPa line + i) = dieRead s core r.vf 0 (keyPa line + i) := fun i => by
    refine dieRead_congr (s := s) (t := s1) rfl rfl rfl (memByte_congr rfl (fun j => ?_) rfl) _ _ _ _
    rw [hs1, State.slice_modSlice]
    split
    · rw [‹j = k›]
    · rfl
  have hx : exec (.l1FillLand core line) s =
      .next (landLine s1 core line r.vf r.h r.pcls (dieReads s1 core r.vf 0 (keyPa line) 64)) := by
    show execL1FillLand core line s = _
    simp only [execL1FillLand, hr, hf, Bool.false_eq_true, if_false, l1FillLand]
    rfl
  have hrest := sansLanding_landLine s1 core line r.vf r.h r.pcls (dieReads s1 core r.vf 0 (keyPa line) 64)
  have hcore := core_landLine s1 core line r.vf r.h r.pcls (dieReads s1 core r.vf 0 (keyPa line) 64)
  refine ⟨_, hx, ?_, ⟨(congrArg State.hbm hrest :), (congrArg State.host hrest :), (congrArg State.store hrest :)⟩,
    fun p hp hc => need_landLine hp hc, ?_, ?_⟩
  · rw [hcore]
    simp [Core.endFill]
  · have hslices : (landLine s1 core line r.vf r.h r.pcls (dieReads s1 core r.vf 0 (keyPa line) 64)).slices = s1.slices :=
      (congrArg State.slices hrest :)
    rw [State.slice, hslices]
    exact congrArg Slice.entries (Map.get_put_self s.slices k _ _)
  · obtain ⟨l, hl⟩ := l1Line_haveLine s1 core line r.vf r.h r.pcls (Map.get (s1.core core).fillP line 0)
    rw [l1Line, hcore]
    refine ⟨_, Map.find?_mod_self _ _ _ _ hl, fun i hi hd => ?_⟩
    rw [← hread]
    refine (landLine_bytes (by simpa [dieReads] using hi) hd _).trans ?_
    simp [dieReads]

end Sys2Proof.Machine
end

section
/-! SUPPORT. A fill of a slice and the order of its answers (05_memory.md R124, R126), as lemmas for O55. -/

set_option Elab.async false -- one proof at a time: side by side they hold more memory than the check allows

namespace Sys2Proof.Machine

open Host (Outcome)
open Sys2Proof.Claims (Gives)

/-! ## The order of a slice's answers (R126) -/

section
variable {set : L2Req → Nat} {behind : List (Bool × Nat)} {rs : List L2Req} {r : L2Req}

theorem serveInOrder_cons (set : L2Req → Nat) (behind : List (Bool × Nat)) (q : L2Req) (rest : List L2Req) :
    ∃ b, serveInOrder set behind (q :: rest) =
      { q with served := q.served || (q.back && !behind.contains (q.h, set q)) } :: serveInOrder set b rest ∧
      (∀ p ∈ b, p ∈ behind ∨ (p = (q.h, set q) ∧ q.served = false ∧ (q.back = false ∨ (q.h, set q) ∈ behind))) := by
  obtain ⟨core, line, vf, h, pcls, noL2, seq, miss, back, served, why⟩ := q
  simp only [serveInOrder]
  cases served with
  | true => exact ⟨behind, rfl, fun p hp => .inl hp⟩
  | false =>
    split
    · cases ‹false = true›
    split
    · rename_i hb
      exact ⟨behind, by rw [hb]; rfl, fun p hp => .inl hp⟩
    · rename_i hb
      refine ⟨_, by rw [Bool.not_eq_true _ |>.mp hb]; rfl, fun p hp => ?_⟩
      rcases List.mem_cons.1 hp with rfl | hp
      · exact .inr ⟨rfl, rfl, by simpa [or_iff_not_imp_left] using hb⟩
      · exact .inl hp

/-- What an answered list holds, the list held, answered or not. -/
theorem mem_serveInOrder (h : r ∈ serveInOrder set behind rs) : ∃ q ∈ rs, r = { q with served := r.served } := by
  induction rs generalizing behind with
  | nil => cases h
  | cons q rest ih =>
    obtain ⟨b, he, _⟩ := serveInOrder_cons set behind q rest
    rw [he] at h
    rcases List.mem_cons.1 h with rfl | h
    · exact ⟨q, List.mem_cons_self, rfl⟩
    · obtain ⟨p, hp, e⟩ := ih h
      exact ⟨p, List.mem_cons_of_mem _ hp, e⟩

theorem serveInOrder_mem (h : r ∈ rs) : ∃ b, { r with served := b } ∈ serveInOrder set behind rs := by
  induction rs generalizing behind with
  | nil => cases h
  | cons q rest ih =>
    obtain ⟨b, he, _⟩ := serveInOrder_cons set behind q rest
    rw [he]
    rcases List.mem_cons.1 h with rfl | h
    · exact ⟨_, List.mem_cons_self⟩
    · obtain ⟨c, hc⟩ := ih (behind := b) h
      exact ⟨c, List.mem_cons_of_mem _ hc⟩

/-- Where every request of a class and set has its data or its answer, all are answered. -/
theorem served_serveInOrder (hset : ∀ q b, set { q with served := b } = set q) {c : Bool} {n : Nat} (hb : (c, n) ∉ behind)
    (hall : ∀ q ∈ rs, q.h = c → set q = n → q.served = true ∨ q.back = true) (h : r ∈ serveInOrder set behind rs) (hc : r.h = c)
    (hn : set r = n) : r.served = true := by
  induction rs generalizing behind with
  | nil => cases h
  | cons q rest ih =>
    obtain ⟨b, he, hbeh⟩ := serveInOrder_cons set behind q rest
    rw [he] at h
    have hq := hall q List.mem_cons_self
    rcases List.mem_cons.1 h with rfl | h
    · rw [hset] at hn
      have hc : q.h = c := hc
      rcases hq hc hn with h | h
      · simp [h]
      · simp [h, hc, hn, hb]
    · refine ih (behind := b) (fun hm => ?_) (fun p hp => hall p (List.mem_cons_of_mem _ hp)) h
      rcases hbeh _ hm with h | ⟨e, hs, h⟩
      · exact hb h
      · have e1 : q.h = c := (congrArg Prod.fst e).symm
        have e2 : set q = n := (congrArg Prod.snd e).symm
        rcases hq e1 e2 with h' | h'
        · rw [hs] at h'
          cases h'
        · rcases h with h | h
          · rw [h] at h'
            cases h'
          · exact hb (e ▸ h)

end

/-! ## A line's data that has returned (R124) -/

/-- Puts into a table the bytes of some places that it does not list. -/
def fillGaps (f : Nat → Byte) (m : Map Byte) (is_ : List Nat) : Map Byte :=
  is_.foldl (fun m i => if Map.has m i then m else Map.put m i (f i)) m

theorem find?_fillGaps (f : Nat → Byte) (is_ : List Nat) (m : Map Byte) (i : Nat) :
    Map.find? (fillGaps f m is_) i = if i ∈ is_ then some ((Map.find? m i).getD (f i)) else Map.find? m i := by
  induction is_ generalizing m with
  | nil => rfl
  | cons j rest ih =>
    rw [fillGaps, List.foldl_cons, ← fillGaps, ih]
    have hj : Map.find? (if Map.has m j then m else Map.put m j (f j)) i =
        if i = j then some ((Map.find? m i).getD (f i)) else Map.find? m i := by
      by_cases hij : i = j
      · subst hij
        cases h : Map.find? m i with
        | some b => simp [Map.has, h]
        | none => simp [Map.has, h]
      · rw [if_neg hij]
        split
        · rfl
        · exact Map.find?_put_other _ _ _ _ hij
    rw [hj]
    by_cases hij : i = j
    · simp [hij]
    · simp [hij]

@[simp] theorem line_fillLine (hbm : Memory) (l : L2Line) : (fillLine hbm l).line = l.line := by simp only [fillLine]

@[simp] theorem filling_fillLine (hbm : Memory) (l : L2Line) : (fillLine hbm l).filling = false := by simp only [fillLine]

theorem find?_fillLine (hbm : Memory) (l : L2Line) (i : Nat) :
    Map.find? (fillLine hbm l).bytes i =
      if i < 256 then some ((Map.find? l.bytes i).getD (Memory.read hbm (256 * l.line + i))) else Map.find? l.bytes i := by
  have hb : (fillLine hbm l).bytes = fillGaps (fun i => Memory.read hbm (256 * l.line + i)) l.bytes (List.range 256) := by
    simp only [fillLine, fillGaps]
  rw [hb, find?_fillGaps]
  simp only [List.mem_range]

section
variable {slice line : Nat} {s : State}

/-- A slice whose line's data has returned, before it answers. -/
def Slice.takeFill (hbm : Memory) (line : Nat) (z : Slice) : Slice :=
  { z with misses := z.misses.filter fun m => m.1 != line,
           lines := z.lines.map fun p => (p.1, p.2.map fun l => if l.line == line then fillLine hbm l else l),
           entries := z.entries.map fun r => if keyPa r.line / 256 == line then { r with back := true } else r }

theorem exec_l2Fill {h : Bool} (hm : (s.slice slice).misses.find? (fun m => m.1 == line) = some (line, h, true))
    (hf : Flaw.hbm line ∉ s.flaws) :
    exec (.l2Fill slice line) s = .next (serveEntries (s.modSlice slice (Slice.takeFill s.hbm line)) slice) := by
  have hno : ¬(((s.slice slice).misses.any fun m => m.1 == line && m.2.2) && s.flaws.contains (.hbm line)) = true := by
    simp [hf]
  show execL2Fill slice line s = _
  rw [execL2Fill]
  dsimp only
  rw [if_neg hno, l2Fill, hm]
  rfl

/-- The slice that a fill leaves. -/
theorem slice_filled (slice line : Nat) (s : State) :
    (serveEntries (s.modSlice slice (Slice.takeFill s.hbm line)) slice).slice slice =
      { Slice.takeFill s.hbm line (s.slice slice) with
        entries := (serveInOrder (reqSet s) [] (Slice.takeFill s.hbm line (s.slice slice)).entries).filter
          fun r => !(r.served && r.why != .l1) } := by
  rw [serveEntries, State.slice_modSlice, if_pos rfl, State.slice_modSlice, if_pos rfl]
  rfl

theorem slice_filled_other {k : Nat} (hk : k ≠ slice) :
    (serveEntries (s.modSlice slice (Slice.takeFill s.hbm line)) slice).slice k = s.slice k := by
  rw [serveEntries, State.slice_modSlice, if_neg hk, State.slice_modSlice, if_neg hk]

theorem l2Find_filled (slice line : Nat) (s : State) (vf pa : Nat) :
    l2Find (serveEntries (s.modSlice slice (Slice.takeFill s.hbm line)) slice) vf pa = l2Find s vf pa ∨
      (line = pa / 256 ∧ l2Find (serveEntries (s.modSlice slice (Slice.takeFill s.hbm line)) slice) vf pa =
        (l2Find s vf pa).map (fillLine s.hbm)) := by
  set t := serveEntries (s.modSlice slice (Slice.takeFill s.hbm line)) slice with ht
  have hfind : ∀ u : State, u.vfs = s.vfs → l2Find u vf pa =
      (Map.get (u.slice (sliceOf (s.vf vf).cfg pa)).lines (setOf (s.vf vf).cfg pa) []).find? fun l => l.line == pa / 256 := fun u hu => by
    simp only [l2Find, State.vf, hu, State.slice]
  rw [hfind t rfl, hfind s rfl]
  by_cases hk : sliceOf (s.vf vf).cfg pa = slice
  · rw [hk, ht, slice_filled]
    have hget : Map.get (Slice.takeFill s.hbm line (s.slice slice)).lines (setOf (s.vf vf).cfg pa) [] =
        (Map.get (s.slice slice).lines (setOf (s.vf vf).cfg pa) []).map fun l => if l.line == line then fillLine s.hbm l else l := by
      simp only [Slice.takeFill, Map.get, Map.find?_map_values]
      cases Map.find? (s.slice slice).lines (setOf (s.vf vf).cfg pa) <;> rfl
    have hcomp : ((fun l : L2Line => l.line == pa / 256) ∘ fun l => if l.line == line then fillLine s.hbm l else l) =
        fun l => l.line == pa / 256 := by
      funext l
      simp only [Function.comp_apply]
      split
      · rw [line_fillLine]
      · rfl
    simp only [hget, List.find?_map, hcomp]
    cases hl : (Map.get (s.slice slice).lines (setOf (s.vf vf).cfg pa) []).find? fun l => l.line == pa / 256 with
    | none => exact .inl rfl
    | some l =>
      have hline : l.line = pa / 256 := by simpa using List.find?_some hl
      by_cases hp : line = pa / 256
      · exact .inr ⟨hp, by simp [hline, hp]⟩
      · exact .inl (by simp [hline, Ne.symm hp])
  · rw [ht, slice_filled_other hk]
    exact .inl rfl

/-- A fill changes no byte of the memory side. -/
theorem memByte_filled (slice line : Nat) (s : State) (vf pa : Nat) :
    memByte (serveEntries (s.modSlice slice (Slice.takeFill s.hbm line)) slice) vf pa = memByte s vf pa := by
  have hhbm : (serveEntries (s.modSlice slice (Slice.takeFill s.hbm line)) slice).hbm = s.hbm := rfl
  rcases l2Find_filled slice line s vf pa with h | ⟨hl, h⟩
  · rw [memByte, memByte, h, hhbm]
  · rw [memByte, memByte, h, hhbm]
    cases hf : l2Find s vf pa with
    | none => rfl
    | some l =>
      have hline : l.line = pa / 256 := by
        have := List.find?_some hf
        simpa using this
      have ha : 256 * l.line + pa % 256 = pa := by omega
      simp only [Option.map_some, Option.bind_some, find?_fillLine, if_pos (Nat.mod_lt pa (by omega : 0 < 256)), ha]
      cases Map.find? l.bytes (pa % 256) <;> rfl

theorem l2Fill_gives {h : Bool} (hm : (s.slice slice).misses.find? (fun m => m.1 == line) = some (line, h, true))
    (hf : Flaw.hbm line ∉ s.flaws) :
    Gives (.l2Fill slice line) s fun t => (∀ m ∈ (t.slice slice).misses, m.1 ≠ line) ∧
      (∀ ls ∈ (t.slice slice).lines, ∀ l ∈ ls.2, l.line = line → l.filling = false ∧ ∀ i, i < 256 → Map.has l.bytes i = true) ∧
      (∀ r ∈ (t.slice slice).entries, keyPa r.line / 256 = line → r.back = true ∧
        ((∀ q ∈ (s.slice slice).entries, q.h = r.h → reqSet s q = reqSet s r →
          q.served = true ∨ q.back = true ∨ keyPa q.line / 256 = line) → r.served = true)) ∧
      (∀ vf pa, memByte t vf pa = memByte s vf pa) ∧ SameMemory s t := by
  refine ⟨_, exec_l2Fill hm hf, ?_, ?_, ?_, memByte_filled slice line s, ⟨rfl, rfl, rfl⟩⟩
  · rw [slice_filled]
    intro m hm
    simpa using (List.mem_filter.1 hm).2
  · rw [slice_filled]
    rintro ls hls l hl he
    obtain ⟨p, _, rfl⟩ := List.mem_map.1 hls
    obtain ⟨l', _, rfl⟩ := List.mem_map.1 hl
    have hl' : l'.line = line := by
      split at he
      · rwa [line_fillLine] at he
      · exact he
    rw [if_pos (by simpa using hl')]
    refine ⟨filling_fillLine _ _, fun i hi => ?_⟩
    rw [Map.has, find?_fillLine, if_pos hi]
    rfl
  · rw [slice_filled]
    intro r hr he
    have hr := List.mem_of_mem_filter hr
    obtain ⟨q, hq, hrq⟩ := mem_serveInOrder hr
    obtain ⟨q0, hq0, rfl⟩ := List.mem_map.1 hq
    have hline : keyPa q0.line / 256 = line := by
      rw [hrq] at he
      split at he
      · exact he
      · exact he
    refine ⟨by rw [hrq, if_pos (by simpa using hline)], fun hall => ?_⟩
    refine served_serveInOrder (fun _ _ => rfl) (List.not_mem_nil) (fun q hq hh hs => ?_) hr rfl rfl
    obtain ⟨q', hq', rfl⟩ := List.mem_map.1 hq
    by_cases hk : keyPa q'.line / 256 = line
    · rw [if_pos (by simpa using hk)]
      exact .inr rfl
    · rw [if_neg (by simpa using hk)] at hh hs ⊢
      rcases hall q' hq' hh hs with h | h | h
      · exact .inl h
      · exact .inr h
      · exact absurd h hk

end

end Sys2Proof.Machine
end

section
/-! SUPPORT. Bytes written back to the memory side (05_memory.md R124; 06_ordering.md R147), as lemmas for O55. -/

set_option Elab.async false -- one proof at a time: side by side they hold more memory than the check allows

namespace Sys2Proof.Machine

open Host (Outcome)
open Sys2Proof.Claims (Gives)

/-! ## What the slices' lines and their spills change (R124) -/

/-- A machine but for the memory side: slices, channels, HBM, counters, errors and the order of events. -/
def State.sansSide (s : State) : State :=
  { s with slices := [], channels := [], banks := [], hbm := [], flaws := [], found := [], seq := 0 }

/-- A slice but for its lines. -/
def Slice.sansLines (z : Slice) : Slice := { z with lines := [] }

/-- What lines coming into slices and leaving them change. -/
structure L2LinesOnly (s t : State) : Prop where
  rest : t.sansSide = s.sansSide
  slices : ∀ k, (t.slice k).sansLines = (s.slice k).sansLines
  hbm : Memory.wf s.hbm = true → Memory.wf t.hbm = true

theorem L2LinesOnly.refl (s : State) : L2LinesOnly s s := ⟨rfl, fun _ => rfl, id⟩

theorem L2LinesOnly.trans {a b c : State} (h : L2LinesOnly a b) (k : L2LinesOnly b c) : L2LinesOnly a c :=
  ⟨k.rest.trans h.rest, fun i => (k.slices i).trans (h.slices i), fun hw => k.hbm (h.hbm hw)⟩

section
variable (s : State) (vf pa : Nat)

theorem linesOnly_modL2 (f : L2Line → L2Line) : L2LinesOnly s (modL2 s vf pa f) := by
  refine ⟨rfl, fun k => ?_, id⟩
  have hk : (modL2 s vf pa f).slice k = _ := Map.get_put _ _ _ _ _
  rw [hk]
  split
  · rw [‹k = _›]
    rfl
  · rfl

theorem linesOnly_touchL2 : L2LinesOnly s (touchL2 s vf pa) := by
  unfold touchL2
  split
  · exact linesOnly_modL2 s vf pa _
  · exact .refl s

theorem linesOnly_memPut (b : Byte) : L2LinesOnly s (memPut s vf pa b) := by
  unfold memPut
  split
  · exact linesOnly_modL2 s vf pa _
  · exact ⟨rfl, fun _ => rfl, fun h => Memory.wf_write _ _ _ h⟩

theorem linesOnly_queueHbm (k line : Nat) (h write : Bool) : L2LinesOnly s (queueHbm s k line vf h write) := ⟨rfl, fun _ => rfl, id⟩

theorem linesOnly_countN (kind unit : Nat) (h : Bool) (code n : Nat) : L2LinesOnly s (countN s kind unit vf h code n) :=
  ⟨rfl, fun _ => rfl, id⟩

theorem linesOnly_spillLine (k : Nat) (l : L2Line) : L2LinesOnly s (spillLine s k vf l) := by
  have hcount : L2LinesOnly s (countSpill s k vf l) := by
    unfold countSpill
    dsimp only
    split
    · exact .refl s
    · exact (linesOnly_countN s vf _ _ _ _ _).trans (linesOnly_countN _ vf _ _ _ _ _)
  unfold spillLine
  split
  · exact ⟨rfl, fun _ => rfl, id⟩
  split
  · exact .refl s
  · have hq := hcount.trans (linesOnly_queueHbm (countSpill s k vf l) vf k l.line l.h true)
    exact ⟨hq.rest, hq.slices, fun h => Memory.wf_foldl_write (hq.hbm h)⟩

theorem linesOnly_l2Alloc {t : State} {h : Bool} {pcls : Nat} (e : l2Alloc s vf pa h pcls = some t) : L2LinesOnly s t := by
  unfold l2Alloc at e
  extract_lets c k ls at e
  split at e
  · cases e
  rename_i w _
  extract_lets s1 new sl sl2 at e
  have h1 : L2LinesOnly s s1 := by
    dsimp only [s1]
    split
    · exact linesOnly_spillLine s vf k _
    · exact .refl s
  cases e
  refine h1.trans ⟨rfl, fun j => ?_, id⟩
  have hj : ({ s1 with slices := Map.put s1.slices k sl2 } : State).slice j = _ := Map.get_put _ _ _ _ _
  rw [hj]
  split
  · rw [‹j = k›]
    rfl
  · rfl

end

/-! ## Bytes written back (R124, R147) -/

section
variable {s : State} {vf : Nat}

theorem sliceOf_congr (c : PartCfg) {a b : Nat} (h : a / 256 = b / 256) : sliceOf c a = sliceOf c b := by rw [sliceOf, sliceOf, h]

theorem setOf_congr (c : PartCfg) {a b : Nat} (h : a / 256 = b / 256) : setOf c a = setOf c b := by rw [setOf, setOf, h]

/-- The search for a line, among lines that some change but no line's number. -/
theorem find?_line_map {g : L2Line → L2Line} (hg : ∀ l, (g l).line = l.line) (xs : List L2Line) (n : Nat) :
    (xs.map g).find? (fun l => l.line == n) = (xs.find? fun l => l.line == n).map g := by
  rw [List.find?_map]
  congr 2
  funext l
  simp [hg]

theorem lines_modL2 (s : State) (vf pa : Nat) (f : L2Line → L2Line) (k n : Nat) :
    Map.get ((modL2 s vf pa f).slice k).lines n [] =
      if k = sliceOf (s.vf vf).cfg pa ∧ n = setOf (s.vf vf).cfg pa then
        (Map.get (s.slice k).lines n []).map fun l => if l.line == pa / 256 then f l else l
      else Map.get (s.slice k).lines n [] := by
  have hk : (modL2 s vf pa f).slice k = _ := Map.get_put _ _ _ _ _
  rw [hk]
  by_cases h : k = sliceOf (s.vf vf).cfg pa
  · subst h
    simp only [true_and, if_true, Map.get_put]
    split
    · rw [‹n = _›]
      rfl
    · rfl
  · simp only [h, false_and, if_false]
    rfl

theorem l2Find_modL2 {f : L2Line → L2Line} (hf : ∀ l, (f l).line = l.line) (s : State) (vf pa a : Nat) :
    l2Find (modL2 s vf pa f) vf a = if a / 256 = pa / 256 then (l2Find s vf a).map f else l2Find s vf a := by
  have hg : ∀ l : L2Line, (if l.line == pa / 256 then f l else l).line = l.line := fun l => by
    split
    · exact hf l
    · rfl
  have hfind : ∀ u : State, l2Find u vf a =
      (Map.get (u.slice (sliceOf (u.vf vf).cfg a)).lines (setOf (u.vf vf).cfg a) []).find? fun l => l.line == a / 256 := fun _ => rfl
  have hvf : (modL2 s vf pa f).vf vf = s.vf vf := rfl
  rw [hfind, hfind, hvf, lines_modL2]
  by_cases h : a / 256 = pa / 256
  · rw [if_pos ⟨sliceOf_congr _ h, setOf_congr _ h⟩, if_pos h, find?_line_map hg]
    cases hl : (Map.get (s.slice (sliceOf (s.vf vf).cfg a)).lines (setOf (s.vf vf).cfg a) []).find? fun l => l.line == a / 256 with
    | none => rfl
    | some l =>
      have hline : l.line = a / 256 := by simpa using List.find?_some hl
      simp [hline, h]
  · rw [if_neg h]
    split
    · rw [find?_line_map hg]
      cases hl : (Map.get (s.slice (sliceOf (s.vf vf).cfg a)).lines (setOf (s.vf vf).cfg a) []).find? fun l => l.line == a / 256 with
      | none => rfl
      | some l =>
        have hline : l.line = a / 256 := by simpa using List.find?_some hl
        simp [hline, h]
    · rfl

/-- A line with a byte written. -/
def L2Line.putByte (pa : Nat) (b : Byte) (l : L2Line) : L2Line :=
  { l with bytes := Map.put l.bytes (pa % 256) b, dirty := l.dirty ||| BitVec.ofNat 4 (2 ^ (pa % 256 / 64)) }

theorem memByte_memPut (hw : Memory.wf s.hbm = true) (pa : Nat) (b : Byte) (a : Nat) :
    memByte (memPut s vf pa b) vf a = if a = pa then b else memByte s vf a := by
  unfold memPut
  split
  · rename_i h
    obtain ⟨l, hl⟩ := Option.isSome_iff_exists.1 h
    show memByte (modL2 s vf pa (L2Line.putByte pa b)) vf a = _
    have hfind := l2Find_modL2 (f := L2Line.putByte pa b) (fun _ => rfl) s vf pa a
    have hhbm : ∀ f, (modL2 s vf pa f).hbm = s.hbm := fun _ => rfl
    simp only [memByte, hfind, hhbm]
    by_cases ha : a = pa
    · subst ha
      simp [hl, L2Line.putByte]
    · rw [if_neg ha]
      by_cases hq : a / 256 = pa / 256
      · simp only [if_pos hq]
        have hmod : a % 256 ≠ pa % 256 := by omega
        cases hl2 : l2Find s vf a with
        | none => rfl
        | some l2 => simp [L2Line.putByte, Map.find?_put_other _ _ _ _ hmod]
      · simp only [if_neg hq]
  · rename_i h
    have hn : l2Find s vf pa = none := by simpa using h
    have hfind : l2Find { s with hbm := Memory.write s.hbm pa b } vf a = l2Find s vf a := rfl
    simp only [memByte, hfind]
    rw [Memory.read_write _ _ _ _ hw]
    by_cases ha : a = pa
    · subst ha
      simp [hn]
    · simp [ha]

theorem memByte_memPuts_other {m : Map Byte} (hw : Memory.wf s.hbm = true) (pa : Nat) {a : Nat} (ha : ∀ p ∈ m, a ≠ pa + p.1) :
    memByte (m.foldl (fun s p => memPut s vf (pa + p.1) p.2) s) vf a = memByte s vf a := by
  induction m generalizing s with
  | nil => rfl
  | cons q rest ih =>
    rw [List.foldl_cons, ih ((linesOnly_memPut s vf _ _).hbm hw) fun p hp => ha p (List.mem_cons_of_mem _ hp), memByte_memPut hw,
      if_neg (ha q List.mem_cons_self)]

theorem memByte_memPuts {m : Map Byte} (hw : Memory.wf s.hbm = true) (hn : (m.map Prod.fst).Nodup) (pa : Nat) {p : Nat × Byte} (hp : p ∈ m) :
    memByte (m.foldl (fun s p => memPut s vf (pa + p.1) p.2) s) vf (pa + p.1) = p.2 := by
  induction m generalizing s with
  | nil => cases hp
  | cons q rest ih =>
    obtain ⟨hq, hrest⟩ := List.nodup_cons.1 hn
    rw [List.foldl_cons]
    rcases List.mem_cons.1 hp with rfl | hp
    · rw [memByte_memPuts_other ((linesOnly_memPut s vf _ _).hbm hw), memByte_memPut hw, if_pos rfl]
      intro r hr he
      exact hq (List.mem_map.2 ⟨r, hr, by omega⟩)
    · exact ih ((linesOnly_memPut s vf _ _).hbm hw) hrest hp

end

/-- A line's bytes are put one by one into the memory side, once its line has been counted and touched there. -/
theorem l2Merge_eq (s : State) (w : WriteBack) : ∃ u, L2LinesOnly s u ∧
    l2Merge s w = w.bytes.foldl (fun s p => memPut s w.vf (keyPa w.line + p.1) p.2) u := by
  unfold l2Merge
  extract_lets pa s1 s2
  have h1 : L2LinesOnly s s1 := by
    dsimp only [s1]
    split
    · exact .refl s
    split
    · rename_i hq
      split at hq
      · cases hq
      · exact linesOnly_l2Alloc s _ _ hq
    · exact (linesOnly_countN s w.vf _ _ _ _ _).trans (linesOnly_queueHbm _ _ _ _ _ _)
  exact ⟨s2, h1.trans (linesOnly_touchL2 s1 w.vf pa), rfl⟩

theorem l2Merge_sansSide (s : State) (w : WriteBack) : (l2Merge s w).sansSide = s.sansSide := by
  obtain ⟨u, hu, he⟩ := l2Merge_eq s w
  rw [he]
  exact (foldl_keeps State.sansSide (fun s p => (linesOnly_memPut s w.vf _ p.2).rest) w.bytes u).trans hu.rest

/-- Written-back bytes of a line reach the memory side. -/
theorem memByte_l2Merge {s : State} {w : WriteBack} (hn : Map.wf w.bytes = true) (hw : Memory.wf s.hbm = true) :
    ∀ p ∈ w.bytes, memByte (l2Merge s w) w.vf (keyPa w.line + p.1) = p.2 := by
  obtain ⟨u, hu, he⟩ := l2Merge_eq s w
  rw [he]
  exact fun p hp => memByte_memPuts (hu.hbm hw) (Map.nodup_keys hn) _ hp

section
variable {die line : Nat} {s : State} {w : WriteBack}

theorem exec_writeBackAcknowledgement (hf : s.wbufs.find? (fun w => w.die == die && w.line == line && !w.sent) = some w)
    (hd : keyDev line = 0) :
    exec (.writeBackAcknowledgement die line) s = .next (l2Merge { s with wbufs := s.wbufs.erase w } w).tickSeq := by
  show execWriteBackAcknowledgement die line s = _
  simp only [execWriteBackAcknowledgement, hf, if_pos hd]

theorem writeBackAcknowledgement_wbufs (hf : s.wbufs.find? (fun w => w.die == die && w.line == line && !w.sent) = some w)
    (hd : keyDev line = 0) : Gives (.writeBackAcknowledgement die line) s fun t => t.wbufs = s.wbufs.erase w :=
  ⟨_, exec_writeBackAcknowledgement hf hd, (congrArg State.wbufs (l2Merge_sansSide { s with wbufs := s.wbufs.erase w } w) :)⟩

theorem writeBackAcknowledgement_gives (hf : s.wbufs.find? (fun w => w.die == die && w.line == line && !w.sent) = some w)
    (hd : keyDev line = 0) (hn : Map.wf w.bytes = true) (hw : Memory.wf s.hbm = true) :
    Gives (.writeBackAcknowledgement die line) s fun t => t.wbufs = s.wbufs.erase w ∧
      (∀ p ∈ w.bytes, memByte t w.vf (keyPa line + p.1) = p.2) ∧ t.crews = s.crews := by
  have hline : w.line = line := by
    have := List.find?_some hf
    simp only [Bool.and_eq_true, beq_iff_eq] at this
    exact this.1.2
  have hrest := l2Merge_sansSide { s with wbufs := s.wbufs.erase w } w
  refine ⟨_, exec_writeBackAcknowledgement hf hd, (congrArg State.wbufs hrest :), fun p hp => ?_, (congrArg State.crews hrest :)⟩
  rw [← hline]
  exact memByte_l2Merge (s := { s with wbufs := s.wbufs.erase w }) hn hw p hp

end

end Sys2Proof.Machine
end

section
/-! SUPPORT. A request that a slice takes into an entry (05_memory.md R126), as lemmas for O55. -/

set_option Elab.async false -- one proof at a time: side by side they hold more memory than the check allows

namespace Sys2Proof.Machine

open Host (Outcome)
open Sys2Proof.Claims (Gives)

/-! ## A request that a slice takes into an entry (R126) -/

/-- What a slice's taking of a request leaves: the partitions, the crews, and what each slice holds and has admitted. -/
structure Admits (s t : State) : Prop where
  vfs : t.vfs = s.vfs
  crews : t.crews = s.crews
  held : ∀ k, (t.slice k).held = (s.slice k).held
  entries : ∀ k, (t.slice k).entries = (s.slice k).entries

theorem Admits.refl (s : State) : Admits s s := ⟨rfl, rfl, fun _ => rfl, fun _ => rfl⟩

theorem Admits.trans {a b c : State} (h : Admits a b) (k : Admits b c) : Admits a c :=
  ⟨k.vfs.trans h.vfs, k.crews.trans h.crews, fun i => (k.held i).trans (h.held i), fun i => (k.entries i).trans (h.entries i)⟩

theorem L2LinesOnly.admits {s t : State} (h : L2LinesOnly s t) : Admits s t :=
  ⟨(congrArg State.vfs h.rest :), (congrArg State.crews h.rest :), fun k => (congrArg Slice.held (h.slices k) :),
    fun k => (congrArg Slice.entries (h.slices k) :)⟩

theorem admits_modSlice {s : State} {k : Nat} {f : Slice → Slice} (hh : ∀ z, (f z).held = z.held) (he : ∀ z, (f z).entries = z.entries) :
    Admits s (s.modSlice k f) := by
  refine ⟨rfl, rfl, fun j => ?_, fun j => ?_⟩
  · rw [State.slice_modSlice]
    split
    · rw [hh, ‹j = k›]
    · rfl
  · rw [State.slice_modSlice]
    split
    · rw [he, ‹j = k›]
    · rfl

section
variable (s : State) (k : Nat) (r : L2Req)

theorem admits_allocMiss : Admits s (allocMiss s k r) := by
  unfold allocMiss
  dsimp only
  split
  · exact (linesOnly_modL2 s _ _ _).admits
  split
  · exact .refl s
  split
  · exact (linesOnly_l2Alloc s _ _ ‹_›).admits.trans (linesOnly_modL2 _ _ _ _).admits
  · exact .refl s

theorem admits_queueMiss : Admits s (queueMiss s k r) := by
  unfold queueMiss
  dsimp only
  split
  · exact .refl s
  · have h : Admits s (s.modSlice k fun z => { z with misses := z.misses ++ [(keyPa r.line / 256, r.h, false)] }) :=
      admits_modSlice (fun _ => rfl) fun _ => rfl
    exact ⟨h.vfs, h.crews, h.held, h.entries⟩

theorem misses_queueMiss : ∃ m ∈ ((queueMiss s k r).slice k).misses, m.1 = keyPa r.line / 256 := by
  unfold queueMiss
  dsimp only
  split
  · obtain ⟨m, hm, he⟩ := List.any_eq_true.1 ‹_›
    exact ⟨m, hm, by simpa using he⟩
  · refine ⟨(keyPa r.line / 256, r.h, false), ?_, rfl⟩
    have hz : ((s.modSlice k fun z => { z with misses := z.misses ++ [(keyPa r.line / 256, r.h, false)] }).slice k).misses =
        (s.slice k).misses ++ [(keyPa r.line / 256, r.h, false)] := by
      rw [State.slice_modSlice, if_pos rfl]
    exact hz ▸ List.mem_append_right _ (List.mem_singleton_self _)

/-- A machine that has looked a request up in its slice: a hit is touched, a miss allocated and queued. -/
def lookReq : State :=
  let pa := keyPa r.line
  let s := countEvent s 2 k r.vf r.h 0x0101
  if sliceHit s r.vf pa then (touchL2 s r.vf pa).tickSeq
  else queueMiss (allocMiss (markMissed (countEvent s 2 k r.vf r.h 0x0102) r) k r) k r

theorem admits_lookReq : Admits s (lookReq s k r) := by
  unfold lookReq
  dsimp only
  split
  · exact ((linesOnly_countN s _ _ _ _ _ _).trans (linesOnly_touchL2 _ _ _)).admits.trans ⟨rfl, rfl, fun _ => rfl, fun _ => rfl⟩
  · refine Admits.trans ?_ ((admits_allocMiss _ k r).trans (admits_queueMiss _ k r))
    exact ⟨rfl, rfl, fun _ => rfl, fun _ => rfl⟩

theorem misses_lookReq (h : sliceHit s r.vf (keyPa r.line) = false) :
    ∃ m ∈ ((lookReq s k r).slice k).misses, m.1 = keyPa r.line / 256 := by
  have hc : sliceHit (countEvent s 2 k r.vf r.h 0x0101) r.vf (keyPa r.line) = false := h
  unfold lookReq
  dsimp only
  rw [if_neg (by simp [hc])]
  exact misses_queueMiss _ k r

theorem admitReq_eq : admitReq s k r =
    serveEntries ((lookReq s k r).modSlice k fun z =>
      { z with entries := z.entries ++ [{ r with miss := !sliceHit s r.vf (keyPa r.line), back := sliceHit s r.vf (keyPa r.line) }] }) k := rfl

/-- The slice that has taken a request into an entry. -/
theorem slice_admitReq : (admitReq s k r).slice k =
    { (lookReq s k r).slice k with
      entries := (serveInOrder (reqSet s) []
        ((s.slice k).entries ++ [{ r with miss := !sliceHit s r.vf (keyPa r.line), back := sliceHit s r.vf (keyPa r.line) }])).filter
          fun r => !(r.served && r.why != .l1) } := by
  have hl := admits_lookReq s k r
  have hset : reqSet ((lookReq s k r).modSlice k fun z =>
      { z with entries := z.entries ++ [{ r with miss := !sliceHit s r.vf (keyPa r.line), back := sliceHit s r.vf (keyPa r.line) }] }) =
      reqSet s := by
    funext q
    have hv : ((lookReq s k r).modSlice k fun z =>
        { z with entries := z.entries ++ [{ r with miss := !sliceHit s r.vf (keyPa r.line), back := sliceHit s r.vf (keyPa r.line) }] }).vf =
        s.vf := by
      funext v
      exact congrArg (fun m => Map.get m v Vf.init) hl.vfs
    rw [reqSet, reqSet, hv]
  rw [admitReq_eq, serveEntries, State.slice_modSlice, if_pos rfl, State.slice_modSlice, if_pos rfl, hset, ← hl.entries k]

end

theorem l2RequestAccept_gives {slice : Nat} {s : State} {r : L2Req} (hn : nextHeld s slice = some (r, s)) (hw : r.why = .l1) :
    Gives (.l2RequestAccept slice) s fun t => (t.slice slice).held = (s.slice slice).held.erase r ∧
      (∃ e ∈ (t.slice slice).entries, e.core = r.core ∧ e.line = r.line ∧ e.miss = !sliceHit s r.vf (keyPa r.line) ∧
        e.back = sliceHit s r.vf (keyPa r.line) ∧
        (sliceHit s r.vf (keyPa r.line) = true →
          (∀ q ∈ (s.slice slice).entries, q.h = r.h → reqSet s q = reqSet s r → q.served = true) → e.served = true)) ∧
      (sliceHit s r.vf (keyPa r.line) = false → ∃ m ∈ (t.slice slice).misses, m.1 = keyPa r.line / 256) ∧ t.crews = s.crews := by
  have hx : exec (.l2RequestAccept slice) s = .next (admitReq (s.modSlice slice fun z => { z with held := z.held.erase r }) slice r) := by
    show execL2RequestAccept slice s = _
    simp only [execL2RequestAccept, hn, hw, l2RequestAccept, performFor]
    rfl
  set u := s.modSlice slice fun z => { z with held := z.held.erase r } with hu
  have hz : u.slice slice = { s.slice slice with held := (s.slice slice).held.erase r } := by
    rw [hu, State.slice_modSlice, if_pos rfl]
  have hhit : sliceHit u r.vf (keyPa r.line) = sliceHit s r.vf (keyPa r.line) := by
    refine sliceHit_congr (s := s) (t := u) rfl (fun j => ?_) _ _
    rw [hu, State.slice_modSlice]
    split
    · rw [‹j = slice›]
    · rfl
  have hslice := slice_admitReq u slice r
  have hl := admits_lookReq u slice r
  rw [hhit] at hslice
  refine ⟨_, hx, ?_, ?_, fun h => ?_, hl.crews⟩
  · rw [hslice]
    exact (hl.held slice).trans (by rw [hz])
  · rw [hslice, hz]
    set e0 : L2Req := { r with miss := !sliceHit s r.vf (keyPa r.line), back := sliceHit s r.vf (keyPa r.line) } with he0
    obtain ⟨b, hb⟩ := serveInOrder_mem (set := reqSet u) (behind := []) (rs := (s.slice slice).entries ++ [e0]) (r := e0) (by simp)
    refine ⟨_, List.mem_filter.2 ⟨hb, by simp [he0, hw]⟩, rfl, rfl, rfl, rfl, fun h hall => ?_⟩
    refine served_serveInOrder (fun _ _ => rfl) List.not_mem_nil (fun q hq hh hs => ?_) hb rfl rfl
    rcases List.mem_append.1 hq with hq | hq
    · exact .inl (hall q hq hh hs)
    · rw [List.mem_singleton.1 hq]
      exact .inr h
  · rw [hslice]
    exact misses_lookReq u slice r (hhit.trans h)

end Sys2Proof.Machine
end

section
/-! SUPPORT. Frames that come and leave (05_memory.md R128; 16_partitions.md R372; 19_platform.md R421), as lemmas for O55. -/

set_option Elab.async false -- one proof at a time: side by side they hold more memory than the check allows

namespace Sys2Proof.Machine

open Host (Outcome)
open Sys2Proof.Claims (Gives QueuedAt)

/-! ## Frames that come and leave (R128, R372, R421) -/

theorem Port.firstOf_eq_some {p : Port} {vf : Nat} {m : Sent} (h : p.firstOf vf = some m) :
    m ∈ p.queue ∧ m.vf = vf ∧ (m.h = true → ∀ k ∈ p.queue, k.vf = vf → k.h = true) := by
  rw [Port.firstOf] at h
  cases hg : p.queue.find? fun m => m.vf == vf && !m.h with
  | some g =>
    rw [hg] at h
    cases h
    have hm := List.find?_some hg
    rw [Bool.and_eq_true, beq_iff_eq] at hm
    exact ⟨List.mem_of_find?_eq_some hg, hm.1, fun hh => by simp [hh] at hm⟩
  | none =>
    rw [hg] at h
    have hf : p.queue.find? (fun m => m.vf == vf) = some m := h
    refine ⟨List.mem_of_find?_eq_some hf, by simpa using List.find?_some hf, fun _ k hk hv => ?_⟩
    simpa [hv] using List.find?_eq_none.1 hg k hk

theorem Port.serve_spec {weight : Nat → Nat} {fuel : Nat} {p q : Port} {m : Sent} (h : p.serve weight fuel = some (m, q)) :
    m ∈ p.queue ∧ q.queue = p.queue.erase m ∧ (m.h = true → ∀ k ∈ p.queue, k.vf = m.vf → k.h = true) := by
  induction fuel generalizing p with
  | zero => cases h
  | succ fuel ih =>
    simp only [Port.serve] at h
    split at h
    · split at h
      · cases h
        obtain ⟨hmem, hvf, hh⟩ := Port.firstOf_eq_some ‹_›
        exact ⟨hmem, rfl, fun hm k hk hv => hh hm k hk (hv.trans hvf)⟩
      · exact ih (p := p.advance weight) h
    · split at h
      · cases h
      · exact ih (p := p.advance weight) h

theorem gateCheck_gates {s t : State} {gate len : Nat} {y : OSet} {d : GDest} (h : gateCheck s gate len y d = some t) :
    ∃ g, t = { s with gates := g } := by
  simp only [gateCheck] at h
  split at h
  · cases h
  split at h
  · cases h
    exact ⟨_, rfl⟩
  split at h
  · cases h
  · cases h
    exact ⟨_, rfl⟩

section
variable {s t : State}

/-- A frame that leaves stands last at its port. -/
theorem sendFrame_queued {dev vf : Nat} {h : Bool} {gated : Option (Nat × OSet)} {body : FrameBody}
    (e : sendFrame s dev vf h gated body = .ok t) :
    ∃ port, QueuedAt s t port
      { port := port, device := dev, vf := vf, body := body, ftype := s.ftype, mac := Map.get s.fdev dev 0, h := h,
        units := max 1 (((gated.map (·.1)).getD 0 + 255) / 256) } := by
  simp only [sendFrame] at e
  split at e
  · cases e
  rename_i p _
  refine ⟨p, ?_⟩
  split at e
  · cases e
    exact congrArg Port.queue (Map.get_put_self s.ports p _ _)
  split at e
  · obtain ⟨g, rfl⟩ := gateCheck_gates ‹_›
    cases e
    exact congrArg Port.queue (Map.get_put_self s.ports p _ _)
  · cases e

theorem portFor_isSome {dev port : Nat} (hd : Map.get s.fdev dev 0 ≠ 0) (hp : port ∈ usablePorts s) : ∃ p, portFor s dev = some p := by
  rw [portFor, if_neg hd]
  split
  · rename_i h
    rw [h] at hp
    cases hp
  · rename_i p rest _
    exact ⟨_, List.getElem?_eq_getElem (Nat.mod_lt _ (by rw [List.length_cons]; omega))⟩

theorem refuse_sends {f : Frame} (hd : Map.get s.fdev f.device 0 ≠ 0) (hp : f.port ∈ usablePorts s) (trk : Nat) :
    sendFrame s f.device f.vf f.h none (.refusal trk) = .ok (refuse s f trk) := by
  obtain ⟨p, hp⟩ := portFor_isSome hd hp
  simp only [refuse, reply, sendFrame, hp]

/-- What a frame leaves that is sent. -/
theorem sendFrame_sameMemory {dev vf : Nat} {h : Bool} {gated : Option (Nat × OSet)} {body : FrameBody}
    (e : sendFrame s dev vf h gated body = .ok t) : SameMemory s t :=
  have hk := sendFrame_traffic e
  ⟨(congrArg State.hbm hk :), (congrArg State.host hk :), (congrArg State.store hk :)⟩

variable {f : Frame}

theorem exec_frameIgnored (h : f.port ∉ usablePorts s ∨ f.ftype ≠ s.ftype ∨ f.device = 0 ∨ Map.get s.fdev f.device 0 = 0) :
    exec (.fabricFrameReceive f) s = .next s := by
  show execFabricFrameReceive f s = _
  rw [execFabricFrameReceive, if_pos]
  simpa [or_assoc] using h

/-- A request of a peer that this device knows goes to its home slice. -/
theorem exec_peerReadReq {pa n trk : Nat} (hp : f.port ∈ usablePorts s) (ht : f.ftype = s.ftype) (hd : f.device ≠ 0)
    (hm : Map.get s.fdev f.device 0 ≠ 0) (hb : f.body = .readReq pa n trk) :
    exec (.fabricFrameReceive f) s = .next (peerAsk s f) := by
  have hno : ¬(!(usablePorts s).contains f.port || f.ftype != s.ftype || f.device = 0 || Map.get s.fdev f.device 0 = 0) = true := by
    simpa [hp, ht, hd] using hm
  show execFabricFrameReceive f s = _
  rw [execFabricFrameReceive, if_neg hno, hb]

theorem fabricFrameReceive_held {pa n trk vf : Nat} (hp : f.port ∈ usablePorts s) (ht : f.ftype = s.ftype) (hd : f.device ≠ 0)
    (hm : Map.get s.fdev f.device 0 ≠ 0) (hb : f.body = .readReq pa n trk) (ho : ownerOf s pa n = some vf) :
    Gives (.fabricFrameReceive f) s fun t =>
      (∃ r, (Map.get t.slices (sliceOf (s.vf vf).cfg (keyPa (lineKey 0 pa))) Slice.init).held =
        (Map.get s.slices (sliceOf (s.vf vf).cfg (keyPa (lineKey 0 pa))) Slice.init).held ++ [r] ∧ r.why = .peer f ∧
        r.line = lineKey 0 pa ∧ r.vf = vf ∧ r.h = f.h ∧ r.noL2 = true) ∧ t.crews = s.crews ∧ SameMemory s t := by
  have ha : peerAsk s f = sendL2 s (l2Request 0 vf (lineKey 0 pa) f.h 0 true s.seq (.peer f)) := by
    simp only [peerAsk, hb, bodyAsks, ho]
  refine ⟨_, exec_peerReadReq hp ht hd hm hb, ?_⟩
  rw [ha]
  exact ⟨⟨_, congrArg Slice.held (Map.get_put_self s.slices _ _ _), rfl, rfl, rfl, rfl, rfl⟩, rfl, rfl, rfl, rfl⟩

theorem fabricFrameReceive_refused {pa n trk : Nat} (hp : f.port ∈ usablePorts s) (ht : f.ftype = s.ftype) (hd : f.device ≠ 0)
    (hm : Map.get s.fdev f.device 0 ≠ 0) (hb : f.body = .readReq pa n trk) (ho : ownerOf s pa n = none) :
    Gives (.fabricFrameReceive f) s fun t =>
      (∃ port, QueuedAt s t port
        { port := port, device := f.device, vf := f.vf, body := .refusal trk, ftype := s.ftype,
          mac := Map.get s.fdev f.device 0, h := f.h, units := 1 }) ∧ SameMemory s t := by
  have ha : peerAsk s f = refuse s f trk := by
    simp only [peerAsk, hb, bodyAsks, ho]
  have hs := refuse_sends hm hp trk
  refine ⟨_, exec_peerReadReq hp ht hd hm hb, ?_⟩
  rw [ha]
  exact ⟨sendFrame_queued hs, sendFrame_sameMemory hs⟩

/-- A slice that has accepted a peer's read answers it. -/
theorem l2RequestAccept_peerRead {slice : Nat} {s1 s2 : State} {r : L2Req} {pa n trk vf : Nat} {u : OSet} {tab : Map OEntry}
    (hn : nextHeld s slice = some (r, s)) (hw : r.why = .peer f) (hf : flawedAt s r.vf (keyPa r.line) = false)
    (hb : f.body = .readReq pa n trk) (ha : l2RequestAccept slice s = .next s1) (ho : ownerOf s1 pa n = some vf)
    (hu : rangeSet s1 vf pa n = .ok (u, tab))
    (hs : sendFrame { s1 with osets := tab } f.device f.vf f.h (some (n, u)) (.readReply trk (memBytes s1 vf pa n)) = .ok s2) :
    Gives (.l2RequestAccept slice) s fun t =>
      (∃ port, QueuedAt s1 t port
        { port := port, device := f.device, vf := f.vf, body := .readReply trk (memBytes s1 vf pa n),
          ftype := s1.ftype, mac := Map.get s1.fdev f.device 0, h := f.h, units := max 1 ((n + 255) / 256) }) ∧
      t.crews = s1.crews ∧ SameMemory s1 t := by
  have hx : exec (.l2RequestAccept slice) s = .next s2 := by
    show execL2RequestAccept slice s = _
    simp only [execL2RequestAccept, hn, hf, Bool.and_false, Bool.false_eq_true, if_false, hw, ha, peerServe, hb, peerRead, ho, hu, reply, hs]
  have hm := sendFrame_sameMemory hs
  exact ⟨s2, hx, sendFrame_queued hs, (congrArg State.crews (sendFrame_traffic hs) :), hm⟩

theorem exec_peerTimeout_nothing {device : Nat} (h : ∀ t ∈ s.trackers, t.2.device ≠ device) : exec (.peerTimeout device) s = .next s := by
  have hn : (s.trackers.filter fun t => t.2.device == device) = [] := by
    simpa [List.filter_eq_nil_iff] using h
  show execPeerTimeout device s = _
  rw [execPeerTimeout, hn]
  rfl

end

end Sys2Proof.Machine
end

section
/-! SUPPORT. Accesses that a peer does not answer (19_platform.md R421), as lemmas for O55. -/

set_option Elab.async false -- one proof at a time: side by side they hold more memory than the check allows

namespace Sys2Proof.Machine

open Host (Outcome)
open Sys2Proof.Claims (Gives)

/-! ## Peers that do not answer (R65, R356, R421) -/

section
variable {s : State}

/-- A cause met after the issue by threads of which none is in its handler. -/
theorem nestedAs_plain {crew : Nat} {ps : List (Nat × Nat)} (h : ∀ w, Map.find? s.crews crew = some w → ∀ p ∈ ps, (w.thread p).handler = false)
    (c : Cause) : nestedAs s crew ps c = c := by
  unfold nestedAs
  split
  · rename_i w hw
    rw [if_neg]
    simpa using h w hw
  · rfl

theorem failOp_plain {n : Nat} {o : Op} {c : Cause}
    (hh : ∀ w, Map.find? s.crews o.crew = some w → ∀ p ∈ o.lanes, (w.thread p).handler = false) (hc : c ≠ .egressDenied) (va : Nat) :
    failOp s n o c va = failGrid (countCause { s with ops := Map.del s.ops n } o.grid) o.grid c
      (o.rec_ (countCause { s with ops := Map.del s.ops n } o.grid) va) := by
  have hn : nestedAs (countCause { s with ops := Map.del s.ops n } o.grid) o.crew o.lanes c = c := nestedAs_plain hh c
  simp only [failOp, failGrid, hn, if_neg hc]

/-- A machine but for what a notice changes: the fault queues and the counters. -/
def State.sansNotices (s : State) : State := { s with vfs := [], hfq := FaultQ.init, banks := [] }

theorem notice_sansNotices (s : State) (vf : Nat) (c : Cause) (r : FRec) : (s.notice vf c r).sansNotices = s.sansNotices := by
  unfold State.notice
  dsimp only
  split
  · split <;> rfl
  · split <;> rfl

/-- A grid that fails keeps the first cause it met and the state it stopped in. -/
theorem grids_failGrid {gid : Nat} {g : Grid} (hg : Map.find? s.grids gid = some g) (c : Cause) (r : FRec) :
    ∃ g', Map.find? (failGrid s gid c r).grids gid = some g' ∧ g'.stopped = some (g.stopped.getD .failed) ∧ g'.first = some (g.first.getD c) := by
  have hn : (s.notice g.vf c r).grids = s.grids := (congrArg State.grids (notice_sansNotices s g.vf c r) :)
  have h1 : Map.find? ((s.notice g.vf c r).modGrid gid fun g => g.stop .failed c).grids gid = some (g.stop .failed c) :=
    Map.find?_mod_self _ _ _ _ (by rw [hn, hg])
  simp only [failGrid, hg]
  exact ⟨_, Map.find?_mod_self _ _ _ _ h1, rfl, rfl⟩

theorem crews_failGrid {gid : Nat} {g : Grid} (hg : Map.find? s.grids gid = some g) (c : Cause) (r : FRec) :
    ∀ p ∈ (failGrid s gid c r).crews, p.2.grid ≠ gid := by
  intro p hp
  simp only [failGrid, hg] at hp
  simpa using (List.mem_filter.1 hp).2

/-- A machine but for what goes with the crews of a grid that stop. -/
def State.sansStopped (s : State) : State :=
  { s with grids := [], crews := [], ops := [], batches := [], engines := [], cores := [], booked := [], cur := none }

/-- A machine but for what the failure of a grid changes. -/
def State.sansFailure (s : State) : State := s.sansNotices.sansStopped

theorem failGrid_sansFailure (s : State) (gid : Nat) (c : Cause) (r : FRec) : (failGrid s gid c r).sansFailure = s.sansFailure := by
  unfold failGrid
  split
  · rfl
  · rename_i g _
    exact (congrArg State.sansStopped (notice_sansNotices s g.vf c r) :)

/-- An operation whose only request a peer does not answer fails its grid. -/
theorem exec_peerTimeout_op {device i n : Nat} {r : Tracker} {o : Op} (ht : s.trackers = [(i, r)]) (hd : r.device = device)
    (hl : r.line = none) (hc : r.cmd = none) (hr : r.op = some n) (ho : Map.find? s.ops n = some o) (hk : copyRun s n o = none) :
    exec (.peerTimeout device) s =
      .next (failOp { s with trackers := [] } n o .remoteUnreachable ((r.acc.map fun a => a.addr).getD 0)) := by
  have hput : Map.put [(i, r)] i { r with left := 1 } = [(i, { r with left := 1 })] := by simp [Map.put]
  have hfree : blankTracker (freeTracker { s with trackers := [(i, { r with left := 1 })] } i) i = { s with trackers := [] } := by
    simp [freeTracker, Map.find?, blankTracker, Map.del, Map.mod]
  have hk' : copyRun { s with trackers := [] } n o = none := hk
  have hlose : loseRequest { s with trackers := [(i, { r with left := 1 })] } i r =
      failOp { s with trackers := [] } n o .remoteUnreachable ((r.acc.map fun a => a.addr).getD 0) := by
    rw [loseRequest, hfree]
    simp only [hl, hc, hr, ho, hk']
  have hfilter : (s.trackers.filter fun t => t.2.device == device) = [(i, r)] := by simp [ht, hd]
  have hfind : Map.find? s.trackers i = some r := by simp [ht, Map.find?]
  show execPeerTimeout device s = _
  rw [execPeerTimeout, hfilter, List.foldl_cons, List.foldl_nil]
  simp only [hfind]
  rw [ht, hput, hlose]

theorem peerTimeout_gives {device i n : Nat} {r : Tracker} {o : Op} {g : Grid} (ht : s.trackers = [(i, r)]) (hd : r.device = device)
    (hl : r.line = none) (hc : r.cmd = none) (hr : r.op = some n) (ho : Map.find? s.ops n = some o) (hk : copyRun s n o = none)
    (hg : Map.find? s.grids o.grid = some g)
    (hh : ∀ c, Map.find? s.crews o.crew = some c → ∀ p ∈ o.lanes, (c.thread p).handler = false) :
    Gives (.peerTimeout device) s fun t => t.trackers = [] ∧ SameMemory s t ∧
      (∃ g', Map.find? t.grids o.grid = some g' ∧ g'.stopped = some (g.stopped.getD .failed) ∧
        g'.first = some (g.first.getD .remoteUnreachable)) ∧ ∀ p ∈ t.crews, p.2.grid ≠ o.grid := by
  have hx := exec_peerTimeout_op ht hd hl hc hr ho hk
  rw [failOp_plain (s := { s with trackers := [] }) hh (by decide)] at hx
  set u := countCause { { s with trackers := [] } with ops := Map.del s.ops n } o.grid with hu
  have hg1 : Map.find? u.grids o.grid = some { g with faults := g.faults + 1 } := Map.find?_mod_self _ _ _ _ hg
  have hrest := failGrid_sansFailure u o.grid .remoteUnreachable (o.rec_ u ((r.acc.map fun a => a.addr).getD 0))
  exact ⟨_, hx, (congrArg State.trackers hrest :),
    ⟨(congrArg State.hbm hrest :), (congrArg State.host hrest :), (congrArg State.store hrest :)⟩,
    grids_failGrid hg1 _ _, crews_failGrid hg1 _ _⟩

end

end Sys2Proof.Machine
end

section
/-! SUPPORT. The scrubber's visits and the fences that follow (19_platform.md R422 to R424), and O55. -/

set_option Elab.async false -- one proof at a time: side by side they hold more memory than the check allows

namespace Sys2Proof.Machine

open Host (Outcome)
open Sys2Proof.Claims (Gives)

/-! ## Lines the scrubber visits (R422 to R424) -/

theorem ErrCtr.mem_times_hit (c : ErrCtr) (now t : Nat) : t ∈ (c.hit now).times ↔ t = now ∨ t ∈ c.times ∧ now < t + 1000000000 := by
  simp [ErrCtr.hit, or_comm]

section
variable {s : State}

/-- What losing data leaves: the flaws that are not of lost lines, and the channels. -/
theorem loseData_sansFailure (s : State) (line : Nat) : (loseData s line).sansFailure = s.sansFailure := by
  have hn : (s.notice (lineOwner s line) .dataUncorrectable { FRec.init with gpa := dword (256 * line) }).sansFailure = s.sansFailure :=
    congrArg State.sansStopped (notice_sansNotices s _ _ _)
  unfold loseData
  dsimp only
  split
  · exact hn
  · exact (foldl_keeps State.sansFailure (fun s g => failGrid_sansFailure s g _ _) _ _).trans hn

theorem flaws_loseFlaw (s : State) (l2 : Bool) (line : Nat) :
    (loseFlaw s l2 line).flaws = s.flaws.filter fun f => f != (if l2 then .l2 line else .hbm line) := by
  unfold loseFlaw
  dsimp only
  refine (congrArg State.flaws (loseData_sansFailure _ line) :).trans ?_
  cases l2
  · rfl
  · rfl

theorem loseFlaws_flaws_subset (s : State) (i : Nat) : (loseFlaws s i).flaws ⊆ s.flaws := by
  have hstep : ∀ (u : State) (l2 : Bool) (line : Nat), u.flaws ⊆ s.flaws → (loseFlaw u l2 line).flaws ⊆ s.flaws := fun u l2 line hu => by
    rw [flaws_loseFlaw]
    exact fun f hf => hu (List.mem_of_mem_filter hf)
  unfold loseFlaws
  refine List.foldlRecOn s.flaws _ (motive := fun u : State => u.flaws ⊆ s.flaws) (List.Subset.refl _) fun u hu f _ => ?_
  split
  · split
    · exact hstep u true _ hu
    · exact hu
  · split
    · exact hstep u false _ hu
    · exact hu
  · exact hu

/-- A machine but for what partitions that lose their guarantee change. -/
def State.sansDemotion (s : State) : State := { s.sansNotices with capGen := 0 }

theorem demote_sansNotices (fuel : Nat) (s : State) : (demote fuel s).sansNotices = s.sansNotices := by
  induction fuel generalizing s with
  | zero => rfl
  | succ fuel ih =>
    unfold demote
    split
    · rfl
    split
    · rfl
    · exact (ih _).trans ((notice_sansNotices _ _ _ _).trans rfl)

theorem recompute_sansDemotion (s : State) : (recompute s).sansDemotion = s.sansDemotion := by
  have hl : (loseClusters s).sansNotices = s.sansNotices :=
    foldl_keeps State.sansNotices (fun s p => by split <;> rfl) _ s
  have hd : (demote 256 (loseClusters s)).sansNotices = s.sansNotices := (demote_sansNotices 256 _).trans hl
  unfold recompute
  split
  · rfl
  · exact (congrArg (fun t : State => { t with capGen := 0 }) hd :)

theorem State.flaws_sansDemotion (s : State) : s.sansDemotion.flaws = s.flaws := rfl

theorem flaws_recompute (s : State) : (recompute s).flaws = s.flaws := by
  rw [← State.flaws_sansDemotion, recompute_sansDemotion, State.flaws_sansDemotion]

/-- A machine with a pair of channels fenced. -/
def State.fencePair (s : State) (i : Nat) : State :=
  { s with channelU := fenceIn (fenceIn s.channelU (2 * (i - 576))) (2 * (i - 576) + 1) }

/-- A pair of channels that is fenced loses its lines first; the sums are recomputed after. -/
theorem fenceIsland_channels {i : Nat} (h1 : 576 ≤ i) (h2 : i < 768) (s : State) :
    fenceIsland s i = recompute (noteWhole ((loseFlaws (s.notice 0 .unitFenced (unitRec i)) i).fencePair i)) := by
  have e1 : ¬ i < 256 := by omega
  have e2 : ¬ i < 320 := by omega
  have e3 : ¬ i < 576 := by omega
  rw [fenceIsland]
  dsimp only
  rw [if_neg e1, if_neg e2, if_neg e3, if_pos h2]
  rfl

theorem channelU_fenceIsland {i : Nat} (h1 : 576 ≤ i) (h2 : i < 768) (s : State) :
    (fenceIsland s i).channelU =
      fenceIn (fenceIn (loseFlaws (s.notice 0 .unitFenced (unitRec i)) i).channelU (2 * (i - 576))) (2 * (i - 576) + 1) := by
  rw [fenceIsland_channels h1 h2]
  exact (congrArg State.channelU (recompute_sansDemotion _) :)

theorem flaws_fenceIsland {i : Nat} (h1 : 576 ≤ i) (h2 : i < 768) (s : State) :
    (fenceIsland s i).flaws = (loseFlaws (s.notice 0 .unitFenced (unitRec i)) i).flaws := by
  rw [fenceIsland_channels h1 h2]
  exact flaws_recompute _

theorem islandFenced_channels {i : Nat} (h1 : 576 ≤ i) (h2 : i < 768) (s : State) :
    islandFenced s i = (Map.get s.channelU (2 * (i - 576)) UnitSt.init).fen := by
  have e1 : ¬ i < 256 := by omega
  have e2 : ¬ i < 320 := by omega
  have e3 : ¬ i < 576 := by omega
  simp only [islandFenced, e1, e2, e3, h2, if_true, if_false]

theorem fenceOnce_fenced {i : Nat} (h1 : 576 ≤ i) (h2 : i < 768) (s : State) : islandFenced (fenceOnce s i) i = true := by
  unfold fenceOnce
  split
  · assumption
  · rw [islandFenced_channels h1 h2, channelU_fenceIsland h1 h2]
    simp only [fenceIn]
    rw [Map.get_put, if_neg (by omega), Map.get_put_self]

theorem fenceOnce_flaws_subset {i : Nat} (h1 : 576 ≤ i) (h2 : i < 768) (s : State) : (fenceOnce s i).flaws ⊆ s.flaws := by
  unfold fenceOnce
  split
  · exact List.Subset.refl _
  · rw [flaws_fenceIsland h1 h2]
    have hn : (s.notice 0 .unitFenced (unitRec i)).flaws = s.flaws := (congrArg State.flaws (notice_sansNotices s 0 .unitFenced (unitRec i)) :)
    exact hn ▸ loseFlaws_flaws_subset _ i

theorem pairIsland_bounds (line : Nat) : 576 ≤ pairIsland line ∧ pairIsland line < 768 := by
  unfold pairIsland channelOf stackOf
  omega

theorem exec_patrolScrub_corrected (line : Nat) (s : State) :
    exec (.patrolScrub false line .corrected) s = .next (countError s (pairIsland line)) := rfl

theorem patrolScrub_corrected (line : Nat) (s : State) :
    let c := (Map.get s.errCtr (pairIsland line) { count := 0, times := [] }).hit s.gtime.toNat
    (c.times.length < 16 →
      exec (.patrolScrub false line .corrected) s = .next { s with errCtr := Map.put s.errCtr (pairIsland line) c }) ∧
    (16 ≤ c.times.length → Gives (.patrolScrub false line .corrected) s fun t => islandFenced t (pairIsland line) = true) := by
  intro c
  obtain ⟨h1, h2⟩ := pairIsland_bounds line
  rw [exec_patrolScrub_corrected]
  refine ⟨fun h => ?_, fun h => ⟨countError s (pairIsland line), exec_patrolScrub_corrected line s, ?_⟩⟩
  · simp only [countError, if_pos h, c]
  · simp only [countError]
    rw [if_neg (Nat.not_lt.2 h)]
    exact fenceOnce_fenced h1 h2 _

theorem patrolScrub_uncorrectable (line : Nat) (s : State) : Gives (.patrolScrub false line .uncorrectable) s fun t =>
    islandFenced t (pairIsland line) = true ∧ Flaw.hbm line ∉ t.flaws := by
  obtain ⟨h1, h2⟩ := pairIsland_bounds line
  refine ⟨fenceOnce (loseFlaw s false line) (pairIsland line), rfl, fenceOnce_fenced h1 h2 _, fun hf => ?_⟩
  have := fenceOnce_flaws_subset h1 h2 _ hf
  rw [flaws_loseFlaw] at this
  simp at this

end

end Sys2Proof.Machine

namespace Sys2Proof.Proofs

open Sys2Proof.Machine
open Sys2Proof.Claims

theorem cachesMoveLines : CachesMoveLines :=
  ⟨fun _ _ _ _ _ hr hf => l1FillLand_gives hr hf,
    fun _ _ _ _ hl hd hf hw => l1DirtyWriteback_gives hl hd hf hw,
    fun _ _ _ _ hl hf hw => l1LineExpiry_gives hl hf hw,
    fun _ _ _ hn hw _ => l2RequestAccept_gives hn hw,
    fun _ _ _ h => nextServed_spec h,
    fun _ _ _ h => hbmChannelServe_gives h,
    fun _ _ _ _ hw hv h0 => hbmTokenRefill_gives hw hv h0,
    fun _ _ _ _ hm hf => l2Fill_gives hm hf,
    fun _ _ _ _ hf hd hn hw => writeBackAcknowledgement_gives hf hd hn hw⟩

theorem framesAndScrubs : FramesAndScrubs :=
  ⟨fun _ _ h => exec_frameIgnored h,
    fun _ _ _ _ _ _ hp ht hd hm hb ho => fabricFrameReceive_held hp ht hd hm hb ho,
    fun _ _ _ _ _ _ _ _ _ _ _ _ hn hw hf hb ha ho hu hs => l2RequestAccept_peerRead hn hw hf hb ha ho hu hs,
    fun _ _ _ _ _ hp ht hd hm hb ho => fabricFrameReceive_refused hp ht hd hm hb ho,
    fun _ _ _ _ _ h => Port.serve_spec h,
    fun _ _ _ _ _ _ _ ht hd hl hc hr ho hk hg hh => peerTimeout_gives ht hd hl hc hr ho hk hg hh,
    fun _ _ h => exec_peerTimeout_nothing h,
    fun _ _ _ => rfl,
    fun c now => ⟨rfl, fun t => c.mem_times_hit now t⟩,
    fun line s => patrolScrub_corrected line s,
    fun line s => patrolScrub_uncorrectable line s⟩

/-- Settles O55: each move of a line, frame or scrub keeps all but what it names; a fill and a write-back change no value that is read. -/
theorem cachesAndFramesMove : Obligations.CachesAndFramesMove := ⟨cachesMoveLines, framesAndScrubs⟩

end Sys2Proof.Proofs
end

section
/-! SUPPORT. Frames, reclaim and page moves (15_translation.md R358 to R362), as lemmas for O60. -/

set_option Elab.async false -- one proof at a time: side by side they hold more memory than the check allows

namespace Sys2Proof.Machine

open Host (Outcome)
open Sys2Proof.Claims (Gives)

/-! ## Frames and reclaim (15_translation.md R358, R360) -/

/-- A machine with a frame given to an owner. -/
def State.giveFrame (s : State) (f vf : Nat) (pin : Bool) : State :=
  let i : FrameInfo := { owner := vf, pin := pin, pins := (s.frame f).pins, accessed := if vf = 0 then (s.frame f).accessed else false }
  { s with fstat := false, frames := Map.put s.frames f i }

theorem fown_gives {f vf pin : Nat} {s : State} (hf : f < frameCount) (hv : vf < 256) (hp : pin < 2) (ho : (s.frame f).owner = vf) :
    Gives (.fown (dword (f + vf * 2 ^ 24 + pin * 2 ^ 32))) s fun t =>
      t.fstat = false ∧ (t.frame f).owner = vf ∧ (t.frame f).pin = decide (pin = 1) := by
  have hf' : f < 12582912 := hf
  have hx : (dword (f + vf * 2 ^ 24 + pin * 2 ^ 32)).toNat = f + vf * 2 ^ 24 + pin * 2 ^ 32 := by
    rw [dword, BitVec.toNat_ofNat]
    omega
  have h1 : bitsOf (dword (f + vf * 2 ^ 24 + pin * 2 ^ 32)).toNat 23 0 = f := by
    rw [hx, bitsOf]
    omega
  have h2 : bitsOf (dword (f + vf * 2 ^ 24 + pin * 2 ^ 32)).toNat 31 24 = vf := by
    rw [hx, bitsOf]
    omega
  have h3 : (dword (f + vf * 2 ^ 24 + pin * 2 ^ 32)).getLsbD 32 = decide (pin = 1) := by
    rw [BitVec.getLsbD, hx, Nat.testBit, Nat.shiftRight_eq_div_pow, Nat.one_and_eq_mod_two]
    have : (f + vf * 2 ^ 24 + pin * 2 ^ 32) / 2 ^ 32 % 2 = pin := by omega
    rw [this]
    interval_cases pin <;> rfl
  have hgo : ¬(decide (frameCount ≤ f) || ((s.frame f).owner != vf &&
      ((s.frame f).pinned || (vf != 0 && decide ((s.vf vf).bframe.toNat ≤ heldFrames s vf))))) = true := by
    simp [ho, hf]
  have hget : (s.giveFrame f vf (decide (pin = 1))).frame f = _ := Map.get_put_self s.frames f _ _
  refine ⟨s.giveFrame f vf (decide (pin = 1)), ?_, rfl, congrArg FrameInfo.owner hget, congrArg FrameInfo.pin hget⟩
  show execFown _ s = _
  simp only [execFown, h1, h2, h3, if_neg hgo, if_pos (Or.inr ho : (s.frame f).owner = 0 ∨ (s.frame f).owner = vf)]
  rfl

theorem reclaimSweep_gives {n : Word} {s : State} (hs : s.rcstat.getLsbD 31 = false) (h1 : 1 ≤ n.toNat) (h2 : n.toNat ≤ 4096) :
    Gives (.reclaimSweep n) s fun t => t.rcstat = word (2 ^ 31) ∧ t.rcWanted = n.toNat := by
  have hgo : ¬(s.rcstat.getLsbD 31 || n.toNat = 0 || 4096 < n.toNat) = true := by
    simp only [hs, Bool.false_or, Bool.or_eq_true, decide_eq_true_eq, not_or]
    omega
  refine ⟨{ s with rcstat := word (2 ^ 31), rcWanted := n.toNat, rcVict := [] }, ?_, rfl, rfl⟩
  show execReclaimSweep n s = _
  rw [execReclaimSweep, if_neg hgo]

/-- The hand proposes one frame at most, and no other count changes. -/
theorem passHand_spec (vf : Nat) (fs : List Nat) (s : State) :
    (passHand s vf fs).1.rcWanted = s.rcWanted ∧
      (passHand s vf fs).1.rcVict.length = s.rcVict.length + if (passHand s vf fs).2 then 1 else 0 := by
  induction fs generalizing s with
  | nil => exact ⟨rfl, rfl⟩
  | cons f rest ih =>
    rw [passHand]
    split
    · exact ih _
    split
    · exact ih _
    · exact ⟨rfl, by simp [State.modVf]⟩

/-- A sweep proposes no more frames than are wanted. -/
theorem sweep_spec {s : State} (fuel : Nat) (dropped : List Nat) (h : s.rcVict.length ≤ s.rcWanted) :
    (sweep s fuel dropped).rcVict.length ≤ s.rcWanted := by
  induction fuel generalizing s dropped with
  | zero => exact h
  | succ fuel ih =>
    rw [sweep]
    split
    · exact h
    split
    · exact h
    · rename_i hlt v _
      obtain ⟨hw, hl⟩ := passHand_spec v (handOrder s v ++ handOrder s v) s
      dsimp only
      split
      · rename_i t hp
        rw [hp] at hw hl
        simp only [if_true] at hw hl
        rw [← hw]
        exact ih _ (by omega)
      · rename_i t hp
        rw [hp] at hw hl
        simp only [Bool.false_eq_true, if_false] at hw hl
        rw [← hw]
        exact ih _ (by omega)

/-- A machine whose sweep has ended: the victims' numbers stand in the buffer, and their count in RCSTAT. -/
def State.endSweep (s : State) : State :=
  let host := Memory.writeN s.host (s.rcbuf.toNat / 64 * 64) (s.rcVict.flatMap fun f => bytesOf 4 f)
  { s with host := host, rcstat := word s.rcVict.length, rcWanted := 0, rcVict := [] }

theorem reclaimSweepEnd_gives {s : State} (hs : s.rcstat.getLsbD 31 = true) (hv : s.rcVict = []) (hw : s.rcWanted ≤ 4096) :
    Gives .reclaimSweepEnd s fun t => t.rcstat.getLsbD 31 = false ∧ t.rcstat.toNat ≤ s.rcWanted := by
  have hlen := sweep_spec (s := s) (s.rcWanted + 256) [] (by simp [hv])
  have hx : exec .reclaimSweepEnd s = .next (sweep s (s.rcWanted + 256) []).endSweep := by
    show execReclaimSweepEnd s = _
    rw [execReclaimSweepEnd, hs]
    rfl
  set t := (sweep s (s.rcWanted + 256) []).endSweep with ht
  have hn : t.rcstat.toNat = (sweep s (s.rcWanted + 256) []).rcVict.length := by
    have hr : t.rcstat = word (sweep s (s.rcWanted + 256) []).rcVict.length := rfl
    rw [hr, word, BitVec.toNat_ofNat]
    omega
  refine ⟨t, hx, ?_, by omega⟩
  rw [BitVec.getLsbD, hn]
  exact Nat.testBit_lt_two_pow (by omega)

/-! ## Page moves (15_translation.md R362; 17_trust.md R400) -/

theorem startMove_spec {s : State} {m : PMove} (hg : m.ctl.getLsbD 31 = true) (hn : s.pmove = none) (hr : m.refused s = false) :
    (startMove s m).pmove = some { m with born := s.seq } ∧ (startMove s m).pmstat = 0 := by
  have h1 : ¬(!m.ctl.getLsbD 31 || (holdMove s m).pmove.isSome) = true := by simp [hg, holdMove, hn]
  have h2 : ¬m.refused (holdMove s m) = true := by
    have : m.refused (holdMove s m) = m.refused s := rfl
    simp [this, hr]
  rw [startMove]
  rw [if_neg h1, if_neg h2]
  exact ⟨rfl, rfl⟩

theorem pageMoves_start {src dst : Dword} {ctl : Word} {s : State} (hg : ctl.getLsbD 31 = true) (hn : s.pmove = none) :
    let m : PMove := { src := src, dst := dst, ctl := ctl }
    m.refused s = false → ∀ q ∈ [(Instr.pageMoveFrame src dst ctl, 0), (.pageMoveToStore src dst ctl, 1), (.pageMoveFromStore src dst ctl, 2)],
      bitsOf ctl.toNat 1 0 = q.2 → Gives q.1 s fun t => t.pmove = some { m with born := s.seq } ∧ t.pmstat = 0 := by
  intro m hr q hq hd
  refine ⟨startMove s m, ?_, startMove_spec (m := m) hg hn hr⟩
  simp only [List.mem_cons, List.not_mem_nil, or_false] at hq
  rcases hq with rfl | rfl | rfl
  · show execPageMoveFrame src dst ctl s = _
    rw [execPageMoveFrame, if_pos hd]
  · show execPageMoveToStore src dst ctl s = _
    rw [execPageMoveToStore, if_pos hd]
  · show execPageMoveFromStore src dst ctl s = _
    rw [execPageMoveFromStore, if_pos hd]

theorem memPuts_lookup (s : State) (vf pa : Nat) (bs : List Byte) : (memPuts s vf pa bs).sansLookup = s.sansLookup := by
  induction bs generalizing s pa with
  | nil => rfl
  | cons b rest ih => exact (ih _ _).trans (memPut_lookup s vf pa b)

theorem pmove_memPuts (s : State) (vf pa : Nat) (bs : List Byte) : (memPuts s vf pa bs).pmove = s.pmove :=
  (congrArg State.pmove (memPuts_lookup s vf pa bs) :)

theorem pmove_putFrameSets (s : State) (f : Nat) (us : List OSet) : (putFrameSets s f us).pmove = s.pmove := rfl

theorem pmove_moveFrame (s : State) (m : PMove) : (moveFrame s m).pmove = s.pmove := by
  unfold moveFrame
  dsimp only
  split
  · rw [pmove_putFrameSets, pmove_memPuts]
  · rw [pmove_memPuts]

theorem pageMoveDone_frame {s : State} {m : PMove} (hm : s.pmove = some m) (hd : m.dir = 0) (ht : moveTurn s m = true)
    (hf : moveFlaw s m = none) : Gives .pageMoveDone s fun t => t.pmove = none := by
  refine ⟨moveFrame { s with pmove := none } m, ?_, pmove_moveFrame _ m⟩
  show execPageMoveDone s = _
  simp only [execPageMoveDone, hm, ht, if_true, hf, pageMoveDone, hd, Bool.not_true, Bool.false_eq_true, if_false]

end Sys2Proof.Machine
end

section
/-! SUPPORT. What fences leave of a page move (19_platform.md R423, R424), as lemmas for O60. -/

set_option Elab.async false -- one proof at a time: side by side they hold more memory than the check allows

namespace Sys2Proof.Machine

open Host (Outcome)
open Sys2Proof.Claims (Gives)

/-! ## Fences leave the page move's registers (19_platform.md R423, R424) -/

/-- The page move in progress, and its status. -/
def State.moveRegs (s : State) : Option PMove × BitVec 2 := (s.pmove, s.pmstat)

section
variable (s : State)

theorem moveRegs_of_sansNotices {s t : State} (h : t.sansNotices = s.sansNotices) : t.moveRegs = s.moveRegs :=
  (congrArg State.moveRegs h :)

theorem moveRegs_of_sansFailure {s t : State} (h : t.sansFailure = s.sansFailure) : t.moveRegs = s.moveRegs :=
  (congrArg State.moveRegs h :)

theorem moveRegs_notice (vf : Nat) (c : Cause) (r : FRec) : (s.notice vf c r).moveRegs = s.moveRegs :=
  moveRegs_of_sansNotices (notice_sansNotices s vf c r)

theorem moveRegs_failGrid (gid : Nat) (c : Cause) (r : FRec) : (failGrid s gid c r).moveRegs = s.moveRegs :=
  moveRegs_of_sansFailure (failGrid_sansFailure s gid c r)

theorem moveRegs_discardEpisodes (crew : Nat) (grps : List Nat) : (discardEpisodes s crew grps).moveRegs = s.moveRegs :=
  foldl_keeps State.moveRegs (fun s n => (rfl : (s.endEpisode crew n).moveRegs = s.moveRegs)) grps s

theorem moveRegs_saveCopies (n : Nat) : (saveCopies s n).moveRegs = s.moveRegs :=
  (congrArg State.moveRegs (kept_saveCopies s n).2 :)

theorem moveRegs_renumberOp (n : Nat) (keep : List Nat) : (renumberOp s n keep).moveRegs = s.moveRegs := rfl

theorem moveRegs_abandonLoad (n : Nat) (o : Op) (gone : List (Nat × Nat)) : (abandonLoad s n o gone).moveRegs = s.moveRegs := by
  unfold abandonLoad
  dsimp only
  split
  · rfl
  · rfl

theorem moveRegs_abandonLoads (crew : Nat) (c : Crew) (ps : List (Nat × Nat)) : (abandonLoads s crew c ps).moveRegs = s.moveRegs := by
  refine foldl_keeps State.moveRegs (fun s q => ?_) s.ops s
  dsimp only
  split
  · rfl
  split
  · exact moveRegs_abandonLoad s _ _ _
  · exact moveRegs_abandonLoad s _ _ _
  · rfl

theorem moveRegs_rollback {s t : State} {crew : Nat} {grps : List Nat} (h : rollback s crew grps = .ok t) : t.moveRegs = s.moveRegs := by
  have hdue : (duePoints (discardEpisodes s crew grps) crew grps).moveRegs = s.moveRegs := moveRegs_discardEpisodes s crew grps
  unfold rollback at h
  dsimp only at h
  split at h
  · cases h
    exact hdue
  split at h
  · cases h
    exact (moveRegs_abandonLoads _ _ _ _).trans hdue
  split at h
  · cases h
  · cases h
    exact (moveRegs_abandonLoads _ _ _ _).trans hdue

theorem moveRegs_evictCrew (n : Nat) : (evictCrew s n).moveRegs = s.moveRegs := by
  unfold evictCrew
  split
  · rfl
  split
  · rfl
  split
  · unfold failCrew
    split
    · exact moveRegs_failGrid _ _ _ _
    · rfl
  · rename_i u hu
    have hd : (dropCrewBuffers u n).moveRegs = u.moveRegs := (congrArg State.moveRegs (kept_dropCrewBuffers u n).2 :)
    have hs : (saveCopies (dropCrewBuffers u n) n).moveRegs = s.moveRegs :=
      (moveRegs_saveCopies _ n).trans (hd.trans (moveRegs_rollback hu))
    dsimp only
    split
    · exact hs
    split
    · exact (moveRegs_failGrid _ _ _ _).trans hs
    · exact (moveRegs_notice _ _ _ _).trans hs

theorem moveRegs_haltCrew (n : Nat) (st : CrewSt) : (haltCrew s n st).moveRegs = s.moveRegs := by
  unfold haltCrew
  split
  · rfl
  · exact (moveRegs_saveCopies _ n).trans (moveRegs_discardEpisodes s n _)

theorem moveRegs_preemptCrew (n : Nat) : (preemptCrew s n).moveRegs = s.moveRegs := by
  unfold preemptCrew
  split
  · rfl
  split
  · exact moveRegs_evictCrew s n
  split
  · exact moveRegs_haltCrew s n .draining
  · rfl

theorem moveRegs_preemptCrews (ns : List Nat) : (preemptCrews s ns).moveRegs = s.moveRegs := by
  unfold preemptCrews
  dsimp only
  refine (foldl_keeps State.moveRegs moveRegs_preemptCrew ns _).trans ?_
  refine foldl_keeps State.moveRegs (fun s gid => ?_) _ s
  split
  · exact moveRegs_notice s _ _ _
  · rfl

theorem moveRegs_fenceCluster (c : Nat) : (fenceCluster s c).moveRegs = s.moveRegs := moveRegs_preemptCrews _ _

theorem moveRegs_of_linesOnly {s t : State} (h : L2LinesOnly s t) : t.moveRegs = s.moveRegs := (congrArg State.moveRegs h.rest :)

theorem moveRegs_emptySlice (k : Nat) : (emptySlice s k).moveRegs = s.moveRegs :=
  foldl_keeps State.moveRegs (fun s l => moveRegs_of_linesOnly (linesOnly_spillLine s _ k l)) (sliceLines s k) s

theorem moveRegs_fencePort (p : Nat) : (fencePort s p).moveRegs = s.moveRegs := by
  unfold fencePort
  dsimp only
  exact foldl_keeps State.moveRegs (fun s m => by split <;> rfl) _ _

theorem moveRegs_loseData (line : Nat) : (loseData s line).moveRegs = s.moveRegs := moveRegs_of_sansFailure (loseData_sansFailure s line)

theorem moveRegs_loseFlaw (l2 : Bool) (line : Nat) : (loseFlaw s l2 line).moveRegs = s.moveRegs := by
  unfold loseFlaw
  dsimp only
  refine (moveRegs_loseData _ line).trans ?_
  cases l2
  · rfl
  · rfl

theorem moveRegs_loseFlaws (i : Nat) : (loseFlaws s i).moveRegs = s.moveRegs := by
  refine foldl_keeps State.moveRegs (fun s f => ?_) s.flaws s
  split
  · split
    · exact moveRegs_loseFlaw s true _
    · rfl
  · split
    · exact moveRegs_loseFlaw s false _
    · rfl
  · rfl

theorem State.moveRegs_sansDemotion : s.sansDemotion.moveRegs = s.moveRegs := rfl

theorem moveRegs_recompute : (recompute s).moveRegs = s.moveRegs := by
  rw [← State.moveRegs_sansDemotion, recompute_sansDemotion, State.moveRegs_sansDemotion]

theorem moveRegs_noteWhole : (noteWhole s).moveRegs = s.moveRegs := rfl

theorem moveRegs_fenceIsland (i : Nat) : (fenceIsland s i).moveRegs = s.moveRegs := by
  have hlose : (loseFlaws (s.notice 0 .unitFenced (unitRec i)) i).moveRegs = s.moveRegs :=
    (moveRegs_loseFlaws _ i).trans (moveRegs_notice s _ _ _)
  unfold fenceIsland
  dsimp only
  rw [moveRegs_recompute, moveRegs_noteWhole, ← hlose]
  split
  · exact moveRegs_fenceCluster _ _
  split
  · exact moveRegs_fenceCluster _ _
  split
  · exact moveRegs_emptySlice _ _
  split
  · rfl
  split
  · exact moveRegs_fencePort _ _
  · exact moveRegs_fenceCluster _ _

theorem moveRegs_fenceOnce (i : Nat) : (fenceOnce s i).moveRegs = s.moveRegs := by
  unfold fenceOnce
  split
  · rfl
  · exact moveRegs_fenceIsland s i

theorem moveRegs_fenceLine (l2 : Bool) (line : Nat) : (fenceLine s l2 line).moveRegs = s.moveRegs := by
  unfold fenceLine
  dsimp only
  refine (foldl_keeps State.moveRegs moveRegs_fenceOnce _ _).trans ?_
  cases l2
  · rfl
  · rfl

end

theorem pageMoveDone_flawed {s : State} {m : PMove} {line : Nat} (hm : s.pmove = some m) (ht : moveTurn s m = true)
    (hf : moveFlaw s m = some line) : Gives .pageMoveDone s fun t => t.pmove = none ∧ t.pmstat = 1 := by
  have hx : exec .pageMoveDone s =
      .next (fenceLine (loseData { s with pmove := none, pmstat := 1 } line) (s.flaws.contains (.l2 line)) line) := by
    show execPageMoveDone s = _
    simp only [execPageMoveDone, hm, ht, if_true, hf]
  have hr := (moveRegs_fenceLine _ (s.flaws.contains (.l2 line)) line).trans (moveRegs_loseData { s with pmove := none, pmstat := 1 } line)
  exact ⟨_, hx, congrArg Prod.fst hr, congrArg Prod.snd hr⟩

end Sys2Proof.Machine
end

section
/-! SUPPORT. BD's conversation, counters, leases, replay and trials (17_trust.md R391, R392; 18_observation.md R402 to R417), as lemmas for O60. -/

set_option Elab.async false -- one proof at a time: side by side they hold more memory than the check allows

namespace Sys2Proof.Machine

open Host (Outcome)
open Sys2Proof.Claims (Gives lsWord CrewNow)

/-! ## BD's conversation with the host (17_trust.md R383, R391, R392) -/

/-- BD serves a request where its own check has passed and the PF is ready. -/
theorem doe_ready {s : State} (h1 : s.bdDown = false) (h2 : s.pfReady = true) (act : State → State) : doe s act = act s := by
  simp [doe, h1, h2]

section
variable {req : List Byte} {s : State} (h1 : s.bdDown = false) (h2 : s.pfReady = true)
include h1 h2

theorem gives_doe {i : Instr} {act : State → State} {Q : State → Prop} (hx : exec i s = .next (doe s act)) (hq : Q (act s)) : Gives i s Q :=
  ⟨act s, hx.trans (congrArg Outcome.next (doe_ready h1 h2 act)), hq⟩

theorem getVersion_gives : Gives (.getVersion req) s fun t => t.doe.version = true := gives_doe h1 h2 rfl rfl

theorem getCapabilities_gives (h : s.doe.version = true) : Gives (.getCapabilities req) s fun t => t.doe.caps = true :=
  gives_doe h1 h2 rfl (by simp only [h, Bool.not_true, Bool.false_eq_true, if_false])

theorem negotiateAlgorithms_gives (h : s.doe.caps = true) : Gives (.negotiateAlgorithms req) s fun t => t.doe.algs = true :=
  gives_doe h1 h2 rfl (by simp only [h, Bool.not_true, Bool.false_eq_true, if_false])

theorem certificates_give (h : s.doe.algs = true) : ∀ i ∈ [Instr.getDigests req, .getCertificate req], Gives i s fun t =>
    ∃ r, t.doe.certs = s.doe.certs ++ req ++ r ∧ t.doe.reply = r := by
  intro i hi
  simp only [List.mem_cons, List.not_mem_nil, or_false] at hi
  rcases hi with rfl | rfl
  · refine gives_doe h1 h2 rfl ?_
    simp only [h, Bool.not_true, Bool.false_eq_true, if_false]
    exact ⟨_, rfl, rfl⟩
  · refine gives_doe h1 h2 rfl ?_
    simp only [h, Bool.not_true, Bool.false_eq_true, if_false]
    exact ⟨_, rfl, rfl⟩

theorem challenge_gives (h : s.doe.algs = true) : Gives (.challenge req) s fun t =>
    t.doe.challengeT = s.doe.vca ++ s.doe.certs ++ req ++ Config.spdmReply 0x83 req :=
  gives_doe h1 h2 rfl (by simp only [h, Bool.not_true, Bool.false_eq_true, if_false])

theorem getMeasurements_gives (h : s.doe.algs = true) : Gives (.getMeasurements req) s fun t =>
    ∃ r, t.doe.measT = s.doe.vca ++ req ++ r ∧ t.doe.reply = r ++ Config.bdRsaSign (Config.sha384 t.doe.measT) := by
  refine gives_doe h1 h2 rfl ?_
  simp only [h, Bool.not_true, Bool.false_eq_true, if_false]
  exact ⟨_, rfl, rfl⟩

theorem vendorDefinedRequest_gives {p : List Byte} (hp : vendorPayload req = some p) :
    Gives (.vendorDefinedRequest req) s fun t => t.doe = { s.doe with reply := vendorAnswer s p } :=
  gives_doe h1 h2 rfl (by simp only [hp, doeReply])

theorem sessions_give : ∀ i ∈ [Instr.keyExchange req, .pskExchange req, .spdmOtherRequest req],
    Gives i s fun t => t.doe = { s.doe with reply := spdmError 0x07 } := by
  intro i hi
  simp only [List.mem_cons, List.not_mem_nil, or_false] at hi
  rcases hi with rfl | rfl | rfl
  · exact gives_doe h1 h2 rfl rfl
  · exact gives_doe h1 h2 rfl rfl
  · exact gives_doe h1 h2 rfl rfl

end

/-! ## The registers of a function -/

section
variable {s : State}

theorem State.fn_modFn (s : State) (fn : Nat) (f : Vf → Vf) : (s.modFn fn f).fn fn = f (s.fn fn) := by
  unfold State.modFn State.fn
  split
  · rfl
  · exact Map.get_put_self _ _ _ _

theorem State.fn_of_pos (s : State) {fn : Nat} (h : 0 < fn) : s.fn fn = s.vf fn := if_neg (by omega)

theorem State.vf_modFn (s : State) {fn : Nat} (h : 0 < fn) (f : Vf → Vf) : (s.modFn fn f).vf fn = f (s.vf fn) := by
  rw [← State.fn_of_pos _ h, State.fn_modFn, State.fn_of_pos _ h]

theorem State.vf_modVf (s : State) (v : Nat) (f : Vf → Vf) : (s.modVf v f).vf v = f (s.vf v) := Map.get_put_self _ _ _ _

/-! ## Counters (18_observation.md R402 to R404) -/

theorem named_bankAt (s : State) (kind unit : Nat) (h : Bool) : (bankAt s kind unit h).named kind unit h = true := by
  unfold bankAt
  split
  · rename_i b hb
    exact List.find?_some (p := fun b : Bank => b.named kind unit h) hb
  · simp [bankFresh, Bank.named]

theorem Bank.named_iff (b : Bank) (kind unit : Nat) (h : Bool) : b.named kind unit h = true ↔ b.kind = kind ∧ b.unit = unit ∧ b.harvest = h := by
  simp [Bank.named, and_assoc]

/-- A bank that has been replaced. -/
theorem bankAt_putBank {b : Bank} {kind unit : Nat} {h : Bool} (hb : b.named kind unit h = true) : bankAt (putBank s b) kind unit h = b := by
  obtain ⟨rfl, rfl, rfl⟩ := (Bank.named_iff _ _ _ _).1 hb
  unfold putBank
  split
  · rename_i hany
    have hcomp : ((fun c : Bank => c.named b.kind b.unit b.harvest) ∘ fun c => if c.named b.kind b.unit b.harvest then b else c) =
        fun c => c.named b.kind b.unit b.harvest := by
      funext c
      simp only [Function.comp_apply]
      split
      · rw [hb, ‹c.named _ _ _ = true›]
      · rfl
    simp only [bankAt, List.find?_map, hcomp]
    cases hf : s.banks.find? fun c => c.named b.kind b.unit b.harvest with
    | none =>
      obtain ⟨c, hc, hn⟩ := List.any_eq_true.1 hany
      exact absurd hn (List.find?_eq_none.1 hf c hc)
    | some c =>
      have hn := List.find?_some (p := fun c : Bank => c.named b.kind b.unit b.harvest) hf
      simp [hn]
  · rename_i hany
    have hnone : (s.banks.find? fun c => c.named b.kind b.unit b.harvest) = none := by
      simpa [List.find?_eq_none] using hany
    simp [bankAt, List.find?_append, hnone, hb]

theorem bankUnit_putBank (b : Bank) (fn kind idx : Nat) : bankUnit (putBank s b) fn kind idx = bankUnit s fn kind idx := by
  unfold putBank
  split <;> rfl

theorem fn_putBank (b : Bank) (fn : Nat) : (putBank s b).fn fn = s.fn fn := by
  unfold putBank
  split <;> rfl

/-- A function's bank whose counters have changed. -/
theorem selected_putBank {fn : Nat} {b : Bank} (hs : selected s fn = some (b, false)) (m : Map Counter) :
    selected (putBank s { b with ctrs := m }) fn = some ({ b with ctrs := m }, false) := by
  unfold selected at hs ⊢
  dsimp only at hs ⊢
  rw [bankUnit_putBank, fn_putBank]
  split at hs
  · cases hs
  rename_i u h _
  have hn := named_bankAt s (bitsOf (s.fn fn).bsel.toNat 31 28) u h
  split at hs
  · rename_i hh
    cases hs
    have hput := bankAt_putBank (s := s) (b := { bankAt s (bitsOf (s.fn fn).bsel.toNat 31 28) u h with ctrs := m }) hn
    rw [hput]
    exact if_pos hh
  · split at hs <;> cases hs

theorem counterRead_of_selected {fn n : Nat} {b : Bank} (hs : selected s fn = some (b, false)) :
    counterRead s fn n = Map.get b.ctrs n Counter.init := by
  simp only [counterRead, hs]

theorem cselWrite_gives {fn n : Nat} {x : Word} {b : Bank} (hs : selected s fn = some (b, false)) (hn : n < bankCounters b.kind)
    (he : eventListed b.kind (bitsOf x.toNat 15 0) = true) :
    Gives (.cselWrite fn n x) s fun t => (counterRead t fn n).sel = selOf x := by
  have hgo : ¬(decide (bankCounters b.kind ≤ n) || !eventListed b.kind (bitsOf x.toNat 15 0)) = true := by simp [he, hn]
  have hx : exec (.cselWrite fn n x) s = execCselWrite fn n x s := rfl
  simp only [execCselWrite, hs, if_neg hgo] at hx
  refine ⟨_, hx, ?_⟩
  beta_reduce
  rw [counterRead_of_selected (selected_putBank hs _)]
  dsimp only
  rw [Map.get_put_self]
  split <;> rfl

theorem counterClear_gives {fn n : Nat} {b : Bank} (hs : selected s fn = some (b, false)) :
    Gives (.counterClear fn n) s fun t => (counterRead t fn n).count = 0 ∧ (counterRead t fn n).ovf = false := by
  have hx : exec (.counterClear fn n) s = execCounterClear fn n s := rfl
  simp only [execCounterClear, hs] at hx
  refine ⟨_, hx, ?_⟩
  beta_reduce
  rw [counterRead_of_selected (selected_putBank hs _)]
  dsimp only
  cases hf : Map.find? b.ctrs n with
  | none => simp [Map.get, Map.find?_mod, hf, Counter.init]
  | some c => simp [Map.get, Map.find?_mod, hf]

theorem cntloRead_gives (fn n : Nat) (s : State) :
    Gives (.cntloRead fn n) s fun t => t.readOut.toNat = (counterRead s fn n).count.toNat % 2 ^ 32 := by
  refine ⟨_, rfl, ?_⟩
  beta_reduce
  have hr : ∀ (u : State) (f : Vf → Vf), (u.modFn fn f).readOut = u.readOut := fun u f => by
    unfold State.modFn
    split <;> rfl
  rw [hr]
  simp only [dword, BitVec.toNat_ofNat]
  omega

theorem cnthiRead_gives {fn n : Nat} {w : Word} (h : (s.fn fn).latch = some (n, (s.fn fn).bsel, w)) :
    Gives (.cnthiRead fn n) s fun t => t.readOut = zx w := by
  have hx : exec (.cnthiRead fn n) s = execCnthiRead fn n s := rfl
  simp only [execCnthiRead, h, and_self, if_true] at hx
  refine ⟨_, hx, ?_⟩
  unfold State.modFn
  split <;> rfl

/-! ## Leases of the trial (18_observation.md R405, R406) -/

theorem lsWord_fields : bitsOf (lsWord 6 0).toNat 24 21 = 6 ∧ bitsOf (lsWord 6 0).toNat 11 0 = 0 := by decide

theorem trialHeld_leaseDone {fn : Nat} (h : 0 < fn) (x : Word) (grant err : Bool) :
    ((leaseDone s fn x grant err).vf fn).trialHeld = (s.vf fn).trialHeld := by
  rw [leaseDone, State.vf_modFn s h]

theorem leaseRequest_trial {fn : Nat} (h : 0 < fn) (hh : (s.vf fn).trialHeld = false) (ht : trialFn s fn = fn) :
    Gives (.leaseRequest fn (lsWord 6 0)) s fun t => (t.vf fn).trialHeld = true := by
  have hg : grantLease s fn 6 0 = some (s.modVf fn fun v => { v with trialHeld := true }) := by
    have hne : fn ≠ 0 := by omega
    simp [grantLease, hh, ht, hne]
  have hx : exec (.leaseRequest fn (lsWord 6 0)) s = execLeaseRequest fn (lsWord 6 0) s := rfl
  simp only [execLeaseRequest, lsWord_fields.1, lsWord_fields.2, if_neg (by omega : ¬fn = 0), hg] at hx
  refine ⟨_, hx, ?_⟩
  beta_reduce
  rw [trialHeld_leaseDone h, State.vf_modVf]

theorem leaseRelease_trial {fn : Nat} (h : 0 < fn) (hh : (s.vf fn).trialHeld = true) :
    Gives (.leaseRelease fn (lsWord 6 0)) s fun t => (t.vf fn).trialHeld = false := by
  have hne : fn ≠ 0 := by omega
  have hg : dropLease s fn 6 0 =
      some (s.modFn fn fun v => { v with trialHeld := false, trialFor := 0, trial := { v.trial with busy := false } }) := by
    simp [dropLease, State.fn_of_pos s h, hh, hne]
  have hx : exec (.leaseRelease fn (lsWord 6 0)) s = execLeaseRelease fn (lsWord 6 0) s := rfl
  simp only [execLeaseRelease, lsWord_fields.1, lsWord_fields.2, hg] at hx
  refine ⟨_, hx, ?_⟩
  beta_reduce
  rw [trialHeld_leaseDone h, State.vf_modFn s h]

/-- A message to a function changes no VF but for what its masked vectors hold. -/
theorem vf_sendMsi (s : State) (fn vec v : Nat) : ∃ p, (sendMsi s fn vec).vf v = { s.vf v with pendMsi := p } := by
  unfold sendMsi
  split
  · unfold State.modFn
    split
    · exact ⟨_, rfl⟩
    · by_cases hv : v = fn
      · subst hv
        exact ⟨_, Map.get_put_self _ _ _ _⟩
      · exact ⟨(s.vf v).pendMsi, (Map.get_put _ _ _ _ _).trans (if_neg hv)⟩
  · exact ⟨_, rfl⟩

theorem leaseRevoke_trial {fn : Nat} (hh : (s.vf fn).trialHeld = true) :
    Gives (.leaseRevoke 6 fn) s fun t => (t.vf fn).trialHeld = false := by
  refine ⟨revokeTrial s fn, rfl, ?_⟩
  have hvf : ({ s with pf := { s.pf with trialHeld := true, trialFor := fn } } : State).vf fn = s.vf fn := rfl
  simp only [revokeTrial, hvf, hh, if_true, tellRevoked]
  generalize ({ s with pf := { s.pf with trialHeld := true, trialFor := fn } } : State) = u
  obtain ⟨p, hp⟩ := vf_sendMsi ((u.modVf fn fun v => { v with trialHeld := false, trial := { v.trial with busy := false } }).modVf fn fun v =>
    { v with lsreq := (if lsNames (u.modVf fn fun v => { v with trialHeld := false, trial := { v.trial with busy := false } }) fn 6 (0, false)
        then v.lsreq &&& ~~~word (2 ^ 30) else v.lsreq) ||| word (2 ^ 29) }) fn 0 fn
  rw [hp, State.vf_modVf, State.vf_modVf]

/-! ## Replay and trials (18_observation.md R412, R416, R417) -/

theorem replayModes_give {vf : Nat} (h : ∀ g ∈ s.grids, g.2.vf = vf → g.2.done = true) :
    ∀ p ∈ [(Instr.replayOff vf, 0), (.recordMode vf, 1), (.replayMode vf, 2)], Gives p.1 s fun t => (t.vf vf).replay.mode = p.2 := by
  have hno : (s.grids.any fun p => p.2.vf == vf && !p.2.done) = false := by
    simpa using h
  have hmode : ∀ mode, mode ≠ 3 → ((writeRrctl s vf mode).vf vf).replay.mode = mode := fun mode hm => by
    simp only [writeRrctl, hno, Bool.or_false, decide_eq_true_eq, if_neg hm]
    rw [State.vf_modVf]
  intro p hp
  simp only [List.mem_cons, List.not_mem_nil, or_false] at hp
  rcases hp with rfl | rfl | rfl
  · exact ⟨_, rfl, hmode 0 (by decide)⟩
  · exact ⟨_, rfl, hmode 1 (by decide)⟩
  · exact ⟨_, rfl, hmode 2 (by decide)⟩

theorem trialStart_gives {fn : Nat} {ctl : Word} (hh : (s.fn fn).trialHeld = true) (hb : (s.fn fn).trial.busy = false)
    (hl : (s.fn fn).trial.lo.toNat < (s.fn fn).trial.hi.toNat) (hd : bitsOf ctl.toNat 15 0 ≠ 0) :
    Gives (.trialStart fn ctl) s fun t => (t.fn fn).trial.busy = true := by
  have hgo : ¬(!(s.fn fn).trialHeld || (s.fn fn).trial.busy || decide ((s.fn fn).trial.hi.toNat ≤ (s.fn fn).trial.lo.toNat) ||
      bitsOf ctl.toNat 15 0 = 0) = true := by
    simp [hh, hb, hl, hd]
  have hx : exec (.trialStart fn ctl) s = execTrialStart fn ctl s := rfl
  simp only [execTrialStart, if_neg hgo] at hx
  refine ⟨_, hx, ?_⟩
  beta_reduce
  rw [State.fn_modFn]

theorem trialEnd_gives {fn : Nat} (hb : (s.fn fn).trial.busy = true) (hd : (s.fn fn).trial.due.toNat ≤ s.gtime.toNat) :
    Gives (.trialEnd fn) s fun t => (t.fn fn).trial.busy = false := by
  have hx : exec (.trialEnd fn) s = execTrialEnd fn s := rfl
  simp only [execTrialEnd, hb, hd, decide_true, Bool.and_self, if_true] at hx
  refine ⟨_, hx, ?_⟩
  beta_reduce
  rw [State.fn_modFn]

end

end Sys2Proof.Machine
end

section
/-! SUPPORT. Program-counter samples and precise stops (18_observation.md R409 to R411), as lemmas for O60. -/

set_option Elab.async false -- one proof at a time: side by side they hold more memory than the check allows

namespace Sys2Proof.Machine

open Host (Outcome)
open Sys2Proof.Claims (Gives CrewNow)

/-! ## Samples of a program counter (18_observation.md R409) -/

section
variable {s : State}

theorem traces_sendMsi (s : State) (fn vec : Nat) : (sendMsi s fn vec).traces = s.traces := by
  unfold sendMsi State.modFn
  split
  · split <;> rfl
  · rfl

/-- A record that a ring has room for moves its tail on. -/
theorem traceWrite_tail {unit : Nat} {u : Trace} (r : TRec) (h : (u.tail - u.head).toNat < 2 ^ bitsOf u.ctl.toNat 3 0) :
    ∃ u', Map.find? (traceWrite s unit u r).traces unit = some u' ∧ u'.tail = u.tail + 1 := by
  rw [traceWrite]
  dsimp only
  rw [if_neg (by omega), traces_sendMsi]
  exact ⟨_, Map.find?_put_self _ _ _, rfl⟩

theorem tracePcSample_gives {cluster crew grp a ix core h : Nat} {u : Trace} {w : Crew} {g : Grid} {gr : Group}
    (hu : Map.find? s.traces cluster = some u) (hw : u.wants 3 = true) (hf : u.follows s = some core)
    (hs : sampled s u.holder core = some (crew, grp, dword a, ix)) (hg : s.gridOf crew = some (w, g))
    (hgr : Map.find? w.groups grp = some gr) (hh : homesOf (gr.live w) = [h]) (hr : (u.tail - u.head).toNat < 2 ^ bitsOf u.ctl.toNat 3 0) :
    Gives (.tracePcSample cluster) s fun t => ∃ u', Map.find? t.traces cluster = some u' ∧ u'.tail = u.tail + 1 := by
  have hx : exec (.tracePcSample cluster) s = execTracePcSample cluster s := rfl
  simp only [execTracePcSample, hu, hw, hf, Bool.not_true, Bool.false_eq_true, if_false, sampleUnit, hs, hg, hgr, hh, List.foldl_cons,
    List.foldl_nil] at hx
  exact ⟨_, hx, traceWrite_tail _ hr⟩

/-! ## Precise stops (18_observation.md R410, R411) -/

theorem dbgstat_sendMsi (s : State) (fn vec v : Nat) : ((sendMsi s fn vec).vf v).dbgstat = (s.vf v).dbgstat := by
  obtain ⟨p, hp⟩ := vf_sendMsi s fn vec v
  rw [hp]

theorem dbgstat_traceWrite (s : State) (unit : Nat) (u : Trace) (r : TRec) (v : Nat) :
    ((traceWrite s unit u r).vf v).dbgstat = (s.vf v).dbgstat := by
  rw [traceWrite]
  dsimp only
  split
  · rfl
  · rw [dbgstat_sendMsi, State.vf, State.vf]

theorem dbgstat_traceCore (s : State) (vf core : Nat) (r : TRec) (who : Nat → Bool) (v : Nat) :
    ((traceCore s vf core r who).vf v).dbgstat = (s.vf v).dbgstat := by
  unfold traceCore
  refine foldl_keeps (fun s : State => (s.vf v).dbgstat) (fun s p => ?_) s.traces s
  split
  · split
    · exact dbgstat_traceWrite s _ _ _ v
    · rfl
  · rfl

theorem dbgstat_traceThreads (s : State) (gid : Nat) (g : Grid) (w : Crew) (kind code : Nat) (clause : Dword) (index : Nat)
    (ps : List (Nat × Nat)) (who : Nat → Bool) (v : Nat) :
    ((traceThreads s gid g w kind code clause index ps who).vf v).dbgstat = (s.vf v).dbgstat := by
  unfold traceThreads
  exact foldl_keeps (fun s : State => (s.vf v).dbgstat) (fun s h => dbgstat_traceCore s _ _ _ _ v) _ s

theorem crewNow_traceThreads {n : Nat} {p : Crew → Prop} (h : CrewNow s n p) (gid : Nat) (g : Grid) (w : Crew) (kind code : Nat)
    (clause : Dword) (index : Nat) (ps : List (Nat × Nat)) (who : Nat → Bool) :
    CrewNow (traceThreads s gid g w kind code clause index ps who) n p := by
  obtain ⟨c, hc, hp⟩ := h
  have ho := observed_traceThreads s gid g w kind code clause index ps who
  exact ⟨c, (congrArg (fun q : State => Map.find? q.crews n) ho :).trans hc, hp⟩

/-- A change of a crew that leaves whether it is to stop. -/
theorem stops_modCrew {n k : Nat} {f : Crew → Crew} (hf : ∀ c, (f c).stop = c.stop) (h : CrewNow s n fun c => c.stop = true) :
    CrewNow (s.modCrew k f) n fun c => c.stop = true := by
  obtain ⟨c, hc, hs⟩ := h
  refine ⟨if n = k then f c else c, ?_, ?_⟩
  · simp only [State.modCrew, Map.find?_mod, hc]
    split <;> simp
  · split
    · exact (hf c).trans hs
    · exact hs

theorem stop_swapEpisode (c : Crew) (g : Group) : (swapEpisode c g).1.stop = c.stop := by
  unfold swapEpisode
  split
  · rfl
  · rename_i e _
    dsimp only
    refine (foldl_keeps (f := fun (c : Crew) p => c.modThread _ _) Crew.stop (fun _ _ => rfl) (g.members.zip e.threads) _).trans ?_
    exact foldl_keeps (f := fun (c : Crew) q => c.modSheaf _ _) Crew.stop (fun _ _ => rfl) e.sheaves c

theorem stop_endEpisode (c : Crew) (g : Group) : (endEpisode c g).1.stop = c.stop := by
  unfold endEpisode
  split
  · rfl
  · dsimp only
    split
    · exact stop_swapEpisode c g
    · rfl

theorem stops_discardEpisodes {n : Nat} (crew : Nat) (grps : List Nat) (h : CrewNow s n fun c => c.stop = true) :
    CrewNow (discardEpisodes s crew grps) n fun c => c.stop = true := by
  refine List.foldlRecOn (motive := fun t : State => CrewNow t n fun c => c.stop = true) grps _ h fun t ht k _ => ?_
  refine stops_modCrew (s := { t with osets := t.outerTable crew k }) (fun c => ?_) ht
  split
  · exact stop_endEpisode c _
  · rfl

theorem stop_decFlag (c : Crew) (homes : List Nat) (f : Option Nat) : (freeSheaves (decFlag c homes f)).stop = c.stop := by
  unfold decFlag
  split
  · rfl
  · exact foldl_keeps (f := fun (c : Crew) h => c.modSheaf h _) Crew.stop (fun _ _ => rfl) homes c

theorem stops_saveCopies {n : Nat} (k : Nat) (h : CrewNow s n fun c => c.stop = true) :
    CrewNow (saveCopies s k) n fun c => c.stop = true := by
  refine List.foldlRecOn (motive := fun t : State => CrewNow t n fun c => c.stop = true) s.ops _ h fun t ht q _ => ?_
  split
  · exact stops_modCrew (s := { t with ops := Map.mod t.ops q.1 fun o => { o with flag := none } }) (fun c => stop_decFlag c _ _) ht
  · exact ht

theorem stops_haltCrew {n : Nat} (k : Nat) (st : CrewSt) (h : CrewNow s n fun c => c.stop = true) :
    CrewNow (haltCrew s k st) n fun c => c.stop = true := by
  unfold haltCrew
  split
  · exact h
  · rename_i w _
    refine stops_saveCopies k (stops_modCrew (fun _ => rfl) ?_)
    exact stops_discardEpisodes k (Map.keys w.groups) h

theorem vfs_haltCrew (s : State) (n : Nat) (st : CrewSt) : (haltCrew s n st).vfs = s.vfs := by
  unfold haltCrew
  split
  · rfl
  · refine (congrArg State.vfs (kept_saveCopies _ n).2 :).trans ?_
    exact foldl_keeps State.vfs (fun s k => (rfl : (s.endEpisode n k).vfs = s.vfs)) _ s

theorem dbgstat_debugDone (s : State) (vf : Nat) (ctl : Word) (refused : Bool) :
    ((debugDone s vf ctl refused).vf vf).dbgstat = if refused then 1 else 0 := by
  rw [debugDone, State.vf_modVf]

variable {vf n : Nat} {ctl : Word} {w : Crew} {g : Grid}

theorem debugStop_gives (ht : debugTarget s vf ctl = some n) (hg : s.gridOf n = some (w, g)) (hst : w.st = .resident) :
    Gives (.debugStop vf ctl) s fun t => (t.vf vf).dbgstat = 0 ∧ CrewNow t n fun c => c.stop = true := by
  have hx : exec (.debugStop vf ctl) s = .next (stopCrew (debugDone s vf ctl false) n 0 none) := by
    show execDebugStop vf ctl s = _
    simp only [execDebugStop, ht]
  have hg' : (debugDone s vf ctl false).gridOf n = some (w, g) := hg
  have hst' : ¬w.st ≠ .resident := by simp [hst]
  simp only [stopCrew, hg', if_neg hst'] at hx
  refine ⟨_, hx, ?_, stops_haltCrew n .stopping ?_⟩
  · rw [State.vf, vfs_haltCrew, ← State.vf, dbgstat_traceThreads]
    exact dbgstat_debugDone s vf ctl false
  · obtain ⟨hw, _⟩ := gridOf_inv hg
    have hnow : CrewNow ((debugDone s vf ctl false).modCrew n fun c => { c with stop := true }) n fun c => c.stop = true :=
      ⟨_, Map.find?_mod_self _ _ _ _ hw, rfl⟩
    exact crewNow_traceThreads hnow _ _ _ _ _ _ _ _ _

theorem debugResume_gives (ht : debugTarget s vf ctl = some n) (hg : s.gridOf n = some (w, g)) (hs : w.stop = true) (hst : w.st = .stopped) :
    Gives (.debugResume vf ctl) s fun t => (t.vf vf).dbgstat = 0 ∧ CrewNow t n fun c => c.stop = false := by
  obtain ⟨hw, _⟩ := gridOf_inv hg
  have hstop : w.isStopped = true := by simp [Crew.isStopped, hs, hst]
  have hx : exec (.debugResume vf ctl) s = .next (releaseCrew (debugDone s vf ctl false) n) := by
    show execDebugResume vf ctl s = _
    simp only [execDebugResume, ht, Option.bind_some, hw, Option.map_some, hstop, if_true]
  exact ⟨_, hx, dbgstat_debugDone s vf ctl false, _, Map.find?_mod_self _ _ _ _ hw, rfl⟩

theorem readN_writeN {m : Memory} (h : Memory.wf m = true) (a : Nat) (bs : List Byte) :
    Memory.readN (Memory.writeN m a bs) a bs.length = bs := by
  refine List.ext_getElem (by simp [Memory.readN]) fun i hi _ => ?_
  have hi : i < bs.length := by simpa [Memory.readN] using hi
  simp only [Memory.readN, List.getElem_map, List.getElem_range, read_writeN h hi, List.getElem?_eq_getElem hi, Option.getD_some]

/-- A machine with bytes written into host memory. -/
def State.putHost (s : State) (a : Nat) (bs : List Byte) : State := { s with host := Memory.writeN s.host a bs }

theorem readN_putHost (h : Memory.wf s.host = true) (a : Nat) (bs : List Byte) : Memory.readN (s.putHost a bs).host a bs.length = bs :=
  readN_writeN h a bs

theorem vf_putHost (s : State) (a : Nat) (bs : List Byte) (v : Nat) : (s.putHost a bs).vf v = s.vf v := rfl

theorem debugDump_gives {y : OSet} {tab : Map OEntry} {s1 : State} (ht : debugTarget s vf ctl = some n) (hg : s.gridOf n = some (w, g))
    (hw : w.isStopped = true) (hl : (saveRecord s n w g).length ≤ (s.vf vf).dbgdlen.toNat / 4096 * 4096)
    (hj : osJoinAll (debugDone s vf ctl false).osets 0 (crewSets (debugDone s vf ctl false) n w) = .ok (y, tab))
    (hc : gateCheck { debugDone s vf ctl false with osets := tab } hostGate (saveRecord s n w g).length y
      (hostDest (debugDone s vf ctl false) vf) = some s1)
    (hh : Memory.wf s.host = true) :
    Gives (.debugDump vf ctl) s fun t => (t.vf vf).dbgstat = 0 ∧
      Memory.readN t.host ((s.vf vf).dbgdump.toNat / 4096 * 4096) (saveRecord s n w g).length = saveRecord s n w g := by
  have hgo : ¬(s.vf vf).dbgdlen.toNat / 4096 * 4096 < (saveRecord s n w g).length := Nat.not_lt.2 hl
  have hx : exec (.debugDump vf ctl) s = .next (s1.putHost ((s.vf vf).dbgdump.toNat / 4096 * 4096) (saveRecord s n w g)) := by
    show execDebugDump vf ctl s = _
    simp only [execDebugDump, ht, Option.bind_some, hg, Option.map_some, hw, if_true, dumpCrew, if_neg hgo, hj, hc]
    rfl
  obtain ⟨gates, h1⟩ := gateCheck_gates hc
  have hhost : s1.host = s.host := by rw [h1]; rfl
  have hvf : s1.vf vf = (debugDone s vf ctl false).vf vf := by rw [h1]; rfl
  refine ⟨_, hx, ?_, readN_putHost (hhost ▸ hh) _ _⟩
  rw [vf_putHost, hvf]
  exact dbgstat_debugDone s vf ctl false

end

end Sys2Proof.Machine
end

section
/-! SUPPORT. Where events complete: O60. -/

set_option Elab.async false -- one proof at a time: side by side they hold more memory than the check allows

namespace Sys2Proof.Machine

open Sys2Proof.Claims (Gives)

/-- A step that gives a state of some kind gives one of a wider kind. -/
theorem gives_mono {i : Instr} {s : State} {P Q : State → Prop} (h : Gives i s P) (hq : ∀ t, P t → Q t) : Gives i s Q := by
  obtain ⟨t, hx, hp⟩ := h
  exact ⟨t, hx, hq t hp⟩

end Sys2Proof.Machine

namespace Sys2Proof.Proofs

open Sys2Proof.Machine
open Sys2Proof.Claims (Gives)

/-- Settles O60: what each event completes with is part of what its own law says it leaves. -/
theorem eventsComplete : Obligations.EventsComplete :=
  ⟨fun _ _ _ _ _ hr hf => gives_mono (l1FillLand_gives hr hf) fun _ ⟨hfills, _, _, _, _, hl, _⟩ => ⟨hfills, Option.isSome_of_eq_some hl⟩,
    fun _ _ _ _ hl hd hf => l1DirtyWriteback_wbufs hl hd hf,
    fun _ _ _ _ hl hf hw => gives_mono (l1LineExpiry_gives hl hf hw) fun _ ⟨hn, _⟩ => hn,
    fun _ _ _ hn hw _ => gives_mono (l2RequestAccept_gives hn hw) fun _ ⟨_, ⟨e, he, hc, hl, _⟩, _⟩ => ⟨e, he, hc, hl⟩,
    fun _ _ _ hq => gives_mono (hbmChannelServe_gives hq) fun _ ⟨h, _⟩ => h,
    fun _ _ _ _ hw hv h0 => gives_mono (hbmTokenRefill_gives hw hv h0) fun _ ⟨h, _⟩ => h,
    fun _ _ _ _ hm hf => gives_mono (l2Fill_gives hm hf) fun _ ⟨h, _⟩ => h,
    fun _ _ _ _ hf hd => writeBackAcknowledgement_wbufs hf hd,
    fun line s => gives_mono (patrolScrub_uncorrectable line s) fun _ ⟨h, _⟩ => h,
    fun _ _ _ _ _ _ hp ht hd hm hb ho => gives_mono (fabricFrameReceive_held hp ht hd hm hb ho) fun _ ⟨⟨r, hr, hw, hl, _⟩, _⟩ =>
      ⟨r, hr ▸ List.mem_append_right _ (List.mem_singleton_self r), hw, hl⟩,
    fun _ _ _ _ _ _ _ ht hd hl hc hr ho hk hg hh => gives_mono (peerTimeout_gives ht hd hl hc hr ho hk hg hh)
      fun _ ⟨htr, _, ⟨g', hg', _, hf⟩, _⟩ => ⟨htr, g', hg', hf⟩,
    fun _ _ _ _ hf hv hp ho => fown_gives hf hv hp ho,
    fun _ _ hs h1 h2 => reclaimSweep_gives hs h1 h2,
    fun _ hs hv hw => reclaimSweepEnd_gives hs hv hw,
    fun _ _ _ _ hg hn => pageMoves_start hg hn,
    fun _ _ hm hd ht hf => pageMoveDone_frame hm hd ht hf,
    fun _ _ _ hm ht hf => pageMoveDone_flawed hm ht hf,
    fun _ _ h1 h2 => ⟨getVersion_gives h1 h2, getCapabilities_gives h1 h2, negotiateAlgorithms_gives h1 h2, certificates_give h1 h2,
      challenge_gives h1 h2, getMeasurements_gives h1 h2, fun _ => vendorDefinedRequest_gives h1 h2, sessions_give h1 h2⟩,
    fun _ _ _ _ _ hs => ⟨fun hn he => cselWrite_gives hs hn he, counterClear_gives hs⟩,
    cntloRead_gives,
    fun _ _ _ _ h => cnthiRead_gives h,
    fun _ _ h => ⟨leaseRequest_trial h, leaseRelease_trial h, leaseRevoke_trial⟩,
    fun _ _ _ _ _ _ _ _ _ _ _ _ hu hw hf hs hg hgr hh hr => tracePcSample_gives hu hw hf hs hg hgr hh hr,
    fun _ _ _ _ _ _ ht hg => ⟨debugStop_gives ht hg, debugResume_gives ht hg,
      fun _ _ _ hw hl hj hc hh => debugDump_gives ht hg hw hl hj hc hh⟩,
    fun _ _ h => replayModes_give h,
    fun _ _ _ => ⟨trialStart_gives, trialEnd_gives⟩⟩

end Sys2Proof.Proofs
end

section
/-! SUPPORT. What a commit instruction writes to its destination, the same word in every active lane (02_execution.md R47), and how an
issue goes on past a body that leaves its crew in the state. -/

set_option Elab.async false -- one proof at a time: side by side they hold more memory than the check allows

namespace Sys2Proof.Machine

/-! ## The destination's registers -/

/-- A word written straight to main registers, each in the lanes that map it. -/
theorem writeMains_spec {t0 t : Map OEntry} {P : Map OEntry → Prop} (hf : Fit t0 P) (f : Nat × Nat → Option Nat)
    (ps : List (Nat × Nat)) (w : Word) (set : OSet) (rs : List Nat) (y : Iss) (ht : P t) (he : y.grp.episode = none)
    (hl : ∀ p ∈ ps, p.1 < 32) (hh : ∀ p ∈ ps, p.2 < y.crew.sheaves.length) :
    ∃ u t', foldE (fun (a : Iss × Map OEntry) r => writeMain a.1 r ((ps.map fun p => (p, w)).filter fun q => f q.1 == some r) set a.2)
        (y, t) rs = .ok (u, t') ∧ P t' ∧ Touch y u ∧
      (∀ p ∈ ps, ∀ r ∈ rs, f p = some r → u.cell (.main p.2 r p.1) = some w) ∧
      (∀ c, (∀ p ∈ ps, ∀ r ∈ rs, f p = some r → c ≠ .main p.2 r p.1) → u.cell c = y.cell c) := by
  induction rs generalizing y t with
  | nil => exact ⟨y, t, rfl, ht, Touch.refl y, fun _ _ _ h => absurd h (by simp), fun _ _ => rfl⟩
  | cons r rest ih =>
    have hmem : ∀ v, v ∈ ((ps.map fun p => (p, w)).filter fun q => f q.1 == some r) ↔ v.1 ∈ ps ∧ v.2 = w ∧ f v.1 = some r := by
      rintro ⟨p, w'⟩
      simp only [List.mem_filter, List.mem_map, Prod.mk.injEq, beq_iff_eq]
      grind
    have hsound : Sound y (fun p => some (.main p.2 r p.1)) ((ps.map fun p => (p, w)).filter fun q => f q.1 == some r) :=
      ⟨fun v hv => hl _ ((hmem v).1 hv).1, fun v hv => hh _ ((hmem v).1 hv).1,
        fun v hv v' hv' _ _ _ => ((hmem v).1 hv).2.1.trans ((hmem v').1 hv').2.1.symm⟩
    obtain ⟨z, t1, hz, hw, hp⟩ := writeMainOf_spec hf y r _ _ set ht he hsound
    obtain ⟨u, t', hu, hp', htouch, hhit, hmiss⟩ := ih z hp (hw.touch.episode.trans he) fun p hp => hw.touch.count ▸ hh p hp
    refine ⟨u, t', ?_, hp', hw.touch.trans htouch, fun p hp k hk hfk => ?_, fun c hc => ?_⟩
    · have hz' : writeMain y r ((ps.map fun p => (p, w)).filter fun q => f q.1 == some r) set t = .ok (z, t1) := hz
      simp only [foldE, hz', hu]
    · by_cases hr : ∃ q ∈ ps, ∃ j ∈ rest, f q = some j ∧ Cell.main p.2 k p.1 = .main q.2 j q.1
      · obtain ⟨q, hq, j, hj, hfq, hcell⟩ := hr
        rw [hcell]
        exact hhit q hq j hj hfq
      · have hkr : k = r := (List.mem_cons.1 hk).resolve_right fun hk => hr ⟨p, hp, k, hk, hfk, rfl⟩
        subst hkr
        rw [hmiss _ fun q hq j hj hfq hcell => hr ⟨q, hq, j, hj, hfq, hcell⟩]
        exact hw.hit (p, w) ((hmem _).2 ⟨hp, rfl, hfk⟩) _ rfl
    · rw [hmiss c fun p hp k hk hfk => hc p hp k (by simp [hk]) hfk]
      exact hw.miss c fun v hv hcell => hc v.1 ((hmem v).1 hv).1 r (by simp) ((hmem v).1 hv).2.2 (Option.some.inj hcell).symm

section
variable {s s1 : State} {g : Guard} {x z : Iss}

/-- Writes that touch registers alone leave such a context. -/
theorem Touch.committed {d : Operand} {w : Word} {u : Iss} (htouch : Touch z u)
    (hit : ∀ p ∈ x.active, ∀ c, commitCell x d 0 p = some c → u.cell c = some w)
    (miss : ∀ c, (∀ p ∈ x.active, commitCell x d 0 p ≠ some c) → u.cell c = z.cell c) : Committed x z u d [w] where
  written p hp i hi c hc := by
    have hi0 : i = 0 := by simpa using hi
    subst hi0
    exact hit p hp c hc
  others c hc := miss c fun p hp => hc p hp 0 (by simp)
  fpx p := by rw [htouch.thread p]

/-- A commit instruction's word goes to its destination in every active lane, and to no other register. -/
theorem Commits.commitRegs_spec (h : Commits s g x z s1) {t0 t : Map OEntry} {P : Map OEntry → Prop} (hf : Fit t0 P) (d : Operand)
    (w : Word) (set : OSet) (ht : P t) :
    ∃ u t', commitRegs x z d [w] set t = .ok (u, t') ∧ Touch z u ∧ Committed x z u d [w] := by
  have hl : ∀ p ∈ x.active, p.1 < 32 := fun p hp => h.issues.inLane p (h.issues.activeMem hp)
  have hh := h.active_in.1
  have hmem : ∀ v, v ∈ (x.active.map fun p => (p, w)) ↔ v.1 ∈ x.active ∧ v.2 = w := by
    rintro ⟨p, w'⟩
    simp only [List.mem_map, Prod.mk.injEq]
    grind
  have hsound : ∀ f, Sound z f (x.active.map fun p => (p, w)) := fun f =>
    ⟨fun v hv => hl _ ((hmem v).1 hv).1, fun v hv => hh _ ((hmem v).1 hv).1,
      fun v hv v' hv' _ _ _ => ((hmem v).1 hv).2.trans ((hmem v').1 hv').2.symm⟩
  have hone : ∀ {u t'}, commitReg x z d 0 (x.active.map fun p => (p, w)) set t = .ok (u, t') →
      commitRegs x z d [w] set t = .ok (u, t') := fun {u t'} e => by
    have e' : commitReg x z d 0 (x.active.map fun p => (p, (([w] : List Word)[0]?).getD 0)) set t = .ok (u, t') := e
    simp only [commitRegs, List.length_cons, List.length_nil, Nat.zero_add, List.range_one, foldE, e']
  have hnone : commitReg x z d 0 (x.active.map fun p => (p, w)) set t = .ok (z, t) → (∀ p, commitCell x d 0 p = none) →
      ∃ u t', commitRegs x z d [w] set t = .ok (u, t') ∧ Touch z u ∧ Committed x z u d [w] := fun e hc =>
    ⟨z, t, hone e, Touch.refl z, (Touch.refl z).committed (fun p _ c hpc => by simp [hc p] at hpc) fun _ _ => rfl⟩
  cases d with
  | z => exact hnone rfl fun _ => rfl
  | lit v => exact hnone rfl fun _ => rfl
  | k n =>
    have hw := writeK_spec z (n.val + 0) (x.active.map fun p => (p, w)) set (hsound _)
    refine ⟨_, t, hone rfl, hw.touch, hw.touch.committed (fun p hp c hc => ?_) fun c hc => hw.miss c fun v hv => hc v.1 ((hmem v).1 hv).1⟩
    cases hc
    exact hw.hit (p, w) ((hmem _).2 ⟨hp, rfl⟩) _ rfl
  | v n =>
    obtain ⟨u, t', hu, hw, _⟩ := writeMainOf_spec hf z (n.val + 0) (x.active.map fun p => (p, w)) _ set ht h.ended_keeps.episode (hsound _)
    refine ⟨u, t', hone hu, hw.touch, hw.touch.committed (fun p hp c hc => ?_) fun c hc => hw.miss c fun v hv => hc v.1 ((hmem v).1 hv).1⟩
    cases hc
    exact hw.hit (p, w) ((hmem _).2 ⟨hp, rfl⟩) _ rfl
  | w n =>
    obtain ⟨u, t', hu, _, htouch, hit, miss⟩ := writeMains_spec hf (fun p => issueMain x p.1 (n.val + 0)) x.active w set
      (dedup ((x.active.map fun p => (p, w)).filterMap fun q => issueMain x q.1.1 (n.val + 0))) z ht h.ended_keeps.episode hl hh
    have hrs : ∀ p ∈ x.active, ∀ r, issueMain x p.1 (n.val + 0) = some r →
        r ∈ dedup ((x.active.map fun p => (p, w)).filterMap fun q => issueMain x q.1.1 (n.val + 0)) := fun p hp r hr =>
      (mem_dedup _ _).2 (List.mem_filterMap.2 ⟨(p, w), (hmem _).2 ⟨hp, rfl⟩, hr⟩)
    refine ⟨u, t', hone hu, htouch, htouch.committed (fun p hp c hc => ?_) fun c hc => miss c fun p hp r _ hr hcell => hc p hp ?_⟩
    · obtain ⟨r, hr, rfl⟩ := Option.map_eq_some_iff.1 hc
      exact hit p hp r (hrs p hp r hr) hr
    · simp only [commitCell, hr, hcell, Option.map_some]

/-! ## Past a commit instruction -/

/-- A commit instruction whose body leaves a crew goes past it. -/
theorem Commits.goes_past (h : Commits s g x z s1) {i : Instr} {sets : Iss → List OSet} {check : Iss → Except Stop Unit}
    {body : Iss → Iss → State → Except Stop Done} {s2 : State} {c : Crew} {gr : Group} (hx : exec i s = commitOp s g sets check body)
    (hc : check x = .ok ()) (hb : body x z s1 = .ok (s2, none)) (hcrew : Map.find? s2.crews x.cur.crew = some c)
    (hgr : Map.find? c.groups x.cur.group = some gr) (he : gr.episode = none) (hgrids : s2.grids = s1.grids)
    (hgrid : c.grid = z.crew.grid) :
    ∃ t y, exec i s = .next t ∧ t.context x.cur = some y ∧ Advanced s2 t x.cur c gr y.crew y.grp := by
  rw [h.commitOp_eq sets body hc, hb] at hx
  obtain ⟨y, hy, ha⟩ := advance_context hcrew hgr (by rw [hgrids, hgrid]; exact h.grid) he
  exact ⟨_, y, hx, hy, ha⟩

/-- What a commit instruction has written still stands once its group has moved past. -/
theorem Committed.of_advanced {d : Operand} {ws : List Word} {u y : Iss} (hu : Committed x z u d ws)
    (hcells : ∀ c, y.cell c = u.cell c) (hfpx : ∀ p, (y.crew.thread p).fpx = (u.crew.thread p).fpx) : Committed x z y d ws where
  written p hp i hi c hc := (hcells c).trans (hu.written p hp i hi c hc)
  others c hc := (hcells c).trans (hu.others c hc)
  fpx p := (hfpx p).trans (hu.fpx p)

end

end Sys2Proof.Machine
end

section
/-! SUPPORT. The ring commands (05_memory.md R117 to R119, 11_isa_memory.md R283): what a change of a ring and the clearing of the units
that become free leave, what the bodies of the commands leave, and the theorem that settles the obligation about them. -/

set_option Elab.async false -- one proof at a time: side by side they hold more memory than the check allows

namespace Sys2Proof.Machine

open Host (Outcome)

/-! ## A ring changed -/

/-- The crew that names a ring holds it changed, whether it shares the ring or not. -/
theorem modRing_own {s : State} {crew id : Nat} {f : Ring → Ring} {c : Crew} {r : Ring} (hc : Map.find? s.crews crew = some c)
    (hr : Map.find? c.rings id = some r) :
    Map.find? (modRing s crew id f).crews crew = some { c with rings := Map.put c.rings id (f r) } := by
  unfold modRing
  simp only [hc, hr]
  by_cases hs : sharedRing id r = true
  · rw [if_pos hs]
    rw [Map.find?_map_of_key (fun p => by split <;> rfl), hc]
    simp [Map.has, hr]
  · rw [if_neg hs]
    exact Map.find?_mod_self _ _ _ _ hc

/-- A change of a ring changes crews alone. -/
theorem modRing_machine (s : State) (crew id : Nat) (f : Ring → Ring) : { modRing s crew id f with crews := [] } = { s with crews := [] } := by
  unfold modRing
  split
  · rfl
  · split
    · rfl
    · dsimp only
      split <;> rfl

/-! ## Units cleared -/

/-- A unit that reads zero, with the empty set. -/
def TUnit.Cleared (v : TUnit) : Prop := v.mem = [] ∧ v.set = 0

/-- A unit with its bytes and its set cleared. -/
def TUnit.clear (v : TUnit) : TUnit := { v with mem := [], set := 0 }

theorem TUnit.cleared_clear (v : TUnit) : v.clear.Cleared := ⟨rfl, rfl⟩

@[simp] theorem Crew.units_setUnits (c : Crew) (sp : TSpace) (m : Map TUnit) : (c.setUnits sp m).units sp = m := by
  cases sp <;> rfl

@[simp] theorem Crew.setUnits_setUnits (c : Crew) (sp : TSpace) (m m' : Map TUnit) :
    (c.setUnits sp m).setUnits sp m' = c.setUnits sp m' := by
  cases sp <;> rfl

@[simp] theorem Crew.setUnits_units (c : Crew) (sp : TSpace) : c.setUnits sp (c.units sp) = c := by
  cases sp <;> rfl

/-- The units m' are the units m, some of them cleared, those of us among them. -/
def ClearedIn (m m' : Map TUnit) (us : List Nat) : Prop :=
  ∀ k v, Map.find? m' k = some v → (∃ w, Map.find? m k = some w ∧ (v = w ∨ v.Cleared)) ∧ (k ∈ us → v.Cleared)

/-- The crew that clears a unit holds its units with that one cleared. -/
theorem modUnit_clear_own {s : State} {crew u : Nat} {sp : TSpace} {c : Crew} (hc : Map.find? s.crews crew = some c) :
    ∃ m, Map.find? (modUnit s crew sp u TUnit.clear).crews crew = some (c.setUnits sp m) ∧ ClearedIn (c.units sp) m [u] := by
  have hmod : ∀ m : Map TUnit, ClearedIn m (Map.mod m u TUnit.clear) [u] := fun m k v hv => by
    rw [Map.find?_mod] at hv
    split at hv
    · obtain ⟨w, hw, rfl⟩ := Option.map_eq_some_iff.1 hv
      exact ⟨⟨w, hw, .inr w.cleared_clear⟩, fun _ => w.cleared_clear⟩
    · next hk => exact ⟨⟨v, hv, .inl rfl⟩, fun h => absurd (by simpa using h) hk⟩
  cases sp with
  | A => exact ⟨_, by simp only [modUnit, hc]; exact Map.find?_mod_self _ _ _ _ hc, hmod _⟩
  | C => exact ⟨_, by simp only [modUnit, hc]; exact Map.find?_mod_self _ _ _ _ hc, hmod _⟩
  | W =>
    refine ⟨c.unitsW.map fun q => (q.1, if q.2.phys = (Map.get c.unitsW u (TUnit.init 0)).phys then q.2.clear else q.2), ?_, fun k v hv => ?_⟩
    · simp only [modUnit, hc]
      rw [Map.find?_map_of_key (fun p => by split <;> rfl), hc]
      simp only [beq_self_eq_true, Bool.and_self, if_true, Option.map_some, Crew.setUnits, Option.some.injEq, Crew.mk.injEq, true_and,
        and_true]
      refine List.map_congr_left fun q _ => ?_
      by_cases hq : q.2.phys = (Map.get c.unitsW u (TUnit.init 0)).phys <;> simp [hq]
    · rw [Map.find?_map_values (fun q : TUnit => if q.phys = (Map.get c.unitsW u (TUnit.init 0)).phys then q.clear else q)] at hv
      obtain ⟨w, hw, rfl⟩ := Option.map_eq_some_iff.1 hv
      refine ⟨⟨w, hw, ?_⟩, fun hk => ?_⟩
      · split
        · exact .inr w.cleared_clear
        · exact .inl rfl
      · obtain rfl : k = u := by simpa using hk
        have hw' : Map.get c.unitsW k (TUnit.init 0) = w := congrArg (fun o => Option.getD o (TUnit.init 0)) hw
        rw [hw', if_pos rfl]
        exact w.cleared_clear

/-- The crew that clears units holds them cleared, and nothing else of it changes. -/
theorem clearUnits_own {crew id : Nat} (us : List Nat) {s : State} {c : Crew} (hc : Map.find? s.crews crew = some c) :
    ∃ m, Map.find? (clearUnits s crew id us).crews crew = some (c.setUnits (ringSpace id) m) ∧ ClearedIn (c.units (ringSpace id)) m us := by
  induction us generalizing s c with
  | nil => exact ⟨c.units _, by simpa [clearUnits] using hc, fun k v hv => ⟨⟨v, hv, .inl rfl⟩, fun h => absurd h (by simp)⟩⟩
  | cons u rest ih =>
    obtain ⟨m1, hc1, hcl1⟩ := modUnit_clear_own (u := u) (sp := ringSpace id) hc
    obtain ⟨m, hm, hcl⟩ := ih hc1
    refine ⟨m, hm.trans (by simp), fun k v hv => ?_⟩
    obtain ⟨⟨w1, hw1, h1⟩, hrest⟩ := hcl k v hv
    rw [Crew.units_setUnits] at hw1
    obtain ⟨⟨w, hw, h2⟩, hu⟩ := hcl1 k w1 hw1
    refine ⟨⟨w, hw, ?_⟩, fun hk => ?_⟩
    · rcases h1 with rfl | h1
      · exact h2
      · exact .inr h1
    · rcases List.mem_cons.1 hk with rfl | hk
      · rcases h1 with rfl | h1
        · exact hu (by simp)
        · exact h1
      · exact hrest hk

theorem modUnit_machine (s : State) (crew : Nat) (sp : TSpace) (u : Nat) (f : TUnit → TUnit) :
    { modUnit s crew sp u f with crews := [] } = { s with crews := [] } := by
  unfold modUnit
  split
  · rfl
  · split <;> rfl

/-- Clearing units changes crews alone. -/
theorem clearUnits_machine (s : State) (crew id : Nat) (us : List Nat) :
    { clearUnits s crew id us with crews := [] } = { s with crews := [] } := by
  induction us generalizing s with
  | nil => rfl
  | cons u rest ih => exact (ih _).trans (modUnit_machine s crew _ u _)

/-! ## A ring command goes past -/

/-- A context put back with a ring of its crew changed. -/
def Iss.putRing (u : Iss) (s : State) (id : Nat) (f : Ring → Ring) : State := modRing (u.changed.put s) u.cur.crew id f

/-- The crew of a context, with a ring changed and its issue group put back. -/
def Iss.ringCrew (u : Iss) (id : Nat) (r : Ring) : Crew :=
  { u.changed.crew with groups := Map.put u.crew.groups u.cur.group u.grp, rings := Map.put u.crew.rings id r }

theorem Iss.putRing_own {u : Iss} {id : Nat} {r : Ring} (s : State) (f : Ring → Ring) (hr : Map.find? u.crew.rings id = some r) :
    Map.find? (u.putRing s id f).crews u.cur.crew = some (u.ringCrew id (f r)) :=
  modRing_own (s := u.changed.put s) (f := f) (c := { u.changed.crew with groups := Map.put u.crew.groups u.cur.group u.grp })
    (Map.find?_put_self _ _ _) hr

theorem Iss.putRing_machine (u : Iss) (s : State) (id : Nat) (f : Ring → Ring) :
    { u.putRing s id f with crews := [] } = { s with crews := [] } := modRing_machine _ _ _ _

theorem sameMemory_of_machine {s s2 t : State} {cu : Cur} {c c' : Crew} {gr gr' : Group} (h : { s2 with crews := [] } = { s with crews := [] })
    (ha : Advanced s2 t cu c gr c' gr') : SameMemory s t :=
  ⟨(congrArg State.hbm ha.machine :).trans (congrArg State.hbm h :), (congrArg State.host ha.machine :).trans (congrArg State.host h :),
    (congrArg State.store ha.machine :).trans (congrArg State.store h :)⟩

section
variable {s s1 : State} {g : Guard} {x z : Iss} (h : Commits s g x z s1)
include h

/-- Past a ring command that leaves the context u, its crew's ring changed: the ring, the registers, the memories. -/
theorem Commits.past_ring {i : Instr} {sets : Iss → List OSet} {check : Iss → Except Stop Unit}
    {body : Iss → Iss → State → Except Stop Done} {u : Iss} {tab : Map OEntry} {id : Nat} {r : Ring} {f : Ring → Ring}
    (hx : exec i s = commitOp s g sets check body) (hc : check x = .ok ()) (htouch : Touch z u)
    (hr : Map.find? z.crew.rings id = some r) (hb : body x z s1 = .ok (u.putRing { s1 with osets := tab } id f, none)) :
    ∃ t y, exec i s = .next t ∧ t.context x.cur = some y ∧ Map.find? y.crew.rings id = some (f r) ∧ (∀ c, y.cell c = u.cell c) ∧
      (∀ p, (y.crew.thread p).fpx = (u.crew.thread p).fpx) ∧ SameMemory s1 t ∧ y.crew.memories = z.crew.memories := by
  have hcur : u.cur = x.cur := htouch.cur.trans h.ended_keeps.cur
  have hru : Map.find? u.crew.rings id = some r :=
    (congrArg (Map.find? · id) (congrArg Crew.rings htouch.crew :) :).trans hr
  have hown := Iss.putRing_own { s1 with osets := tab } f hru
  have hmach := u.putRing_machine { s1 with osets := tab } id f
  rw [hcur] at hown
  obtain ⟨t, y, hxt, hy, ha⟩ := h.goes_past hx hc hb hown (gr := u.grp) (by rw [← hcur]; exact Map.find?_put_self _ _ _)
    (htouch.episode.trans h.ended_keeps.episode) (congrArg State.grids hmach :) (congrArg Crew.grid htouch.crew :)
  refine ⟨t, y, hxt, hy, ?_, fun c => ha.cells (fun _ => rfl) c, fun p => (congrArg Thread.fpx (ha.thread p) :), ?_, ?_⟩
  · have hrings : y.crew.rings = (u.ringCrew id (f r)).rings := (congrArg Crew.rings ha.crew :)
    rw [hrings]
    exact Map.find?_put_self _ _ _
  · obtain ⟨h1, h2, h3⟩ := sameMemory_of_machine hmach ha
    exact ⟨h1, h2, h3⟩
  · exact (congrArg Crew.memories ha.crew :).trans (congrArg Crew.memories htouch.crew :)

/-- A ring command's result: the origin sets join, and the word goes to the destination. -/
theorem Commits.ringResult_spec (d : Operand) (id : Nat) (un : Option Nat) (w : Word) (f : Ring → Ring) :
    ∃ u tab, ringResult s1 x z g d id un w f = .ok (u.putRing { s1 with osets := tab } id f, none) ∧ Touch z u ∧ Committed x z u d [w] := by
  obtain ⟨P, hf⟩ := h.joins.fit
  obtain ⟨set, tab, hset, hp⟩ : ∃ set tab, ringSet s1 x g [] z.crew id un = .ok (set, tab) ∧ P tab := by
    unfold ringSet
    dsimp only
    generalize resultSets x x.active [] [] false g ++ _ = us
    obtain ⟨set, tab, hj, hp⟩ := hf.join s1.osets 0 us hf.here
    exact ⟨set, tab, by rw [hj], hp⟩
  obtain ⟨u, tab', hu, htouch, hcom⟩ := h.commitRegs_spec hf d w set hp
  refine ⟨u, tab', ?_, htouch, hcom⟩
  simp only [ringResult, hset, hu]
  rfl

/-- A ring command whose body gives a word and a changed ring. -/
theorem Commits.gives_ring {i : Instr} {sets : Iss → List OSet} {body : Iss → Iss → State → Except Stop Done} {d : Operand} {id : Nat}
    {un : Option Nat} {w : Word} {r : Ring} {f : Ring → Ring} (hx : exec i s = commitOp s g sets (ringCheck d) body)
    (ho : Operable x [] d 1) (hr : Map.find? z.crew.rings id = some r)
    (hb : body x z s1 = ringAcquire z s1 fun s => ringResult s x z g d id un w f)
    (hd : threadLoadsDue s1 z.cur.crew s1.seq z.present = false) :
    ∃ t y, exec i s = .next t ∧ t.context x.cur = some y ∧ Committed x z y d [w] ∧ Map.find? y.crew.rings id = some (f r) ∧
      SameMemory s1 t ∧ y.crew.memories = z.crew.memories := by
  obtain ⟨u, tab, hres, htouch, hcom⟩ := h.ringResult_spec d id un w f
  have hb' : body x z s1 = .ok (u.putRing { s1 with osets := tab } id f, none) := by
    simp only [hb, ringAcquire, acquired, hd, Bool.false_eq_true, if_false, acquireAct, hres]
  have hc : ringCheck d x = .ok () := by
    have := ho.check
    simp only [List.nil_append] at this
    simp only [ringCheck, this, ho.allowed, Bool.false_eq_true, if_false]
  obtain ⟨t, y, hxt, hy, hring, hcells, hfpx, hmem, hown⟩ := h.past_ring hx hc htouch hr hb'
  exact ⟨t, y, hxt, hy, hcom.of_advanced hcells hfpx, hring, hmem, hown⟩

end

/-! ## The bodies -/

theorem ringNamed_of {c : Crew} {id : Nat} {r : Ring} (hid : id < 20) (hr : Map.find? c.rings id = some r) : ringNamed c id = .ok r := by
  simp only [ringNamed, if_pos hid, hr]

section
variable {s : State} {x z : Iss} {id : Nat} {r : Ring}

theorem rresBody_of {d : Operand} {g : Guard} {u : Nat} {r' : Ring} (ha : x.active ≠ []) (hid : id < 20)
    (hr : Map.find? z.crew.rings id = some r) (hq : r.reserve z.cur.crew = some (u, r')) :
    rresBody d id g x z s = ringAcquire z s fun s => ringResult s x z g d id (some u) (word u) fun _ => r' := by
  simp only [rresBody, List.isEmpty_iff, if_neg ha, ringNamed_of hid hr, hq]

theorem rclmBody_of {d : Operand} {g : Guard} {u : Nat} {r' : Ring} (ha : x.active ≠ []) (hid : id < 20)
    (hr : Map.find? z.crew.rings id = some r) (hq : r.take z.cur.crew = some (u, r')) :
    rclmBody d id g x z s = ringAcquire z s fun s => ringResult s x z g d id (some u) (word u) fun _ => r' := by
  simp only [rclmBody, List.isEmpty_iff, if_neg ha, ringNamed_of hid hr, hq]

theorem rctrBody_of {d : Operand} {g : Guard} (ha : x.active ≠ []) (hid : id < 20) (hr : Map.find? z.crew.rings id = some r) :
    rctrBody d id g x z s = ringAcquire z s fun s =>
      ringResult s x z g d id none (word (r.free % 65536 + 65536 * Map.get r.filled z.cur.crew 0)) fun r => r := by
  simp only [rctrBody, List.isEmpty_iff, if_neg ha, ringNamed_of hid hr]

theorem active_of_lowActive {l : Nat × Nat} (h : lowActive x = some l) : x.active ≠ [] := fun ha => by
  rw [lowActive_idle ha] at h
  cases h

/-- The slot of the unit that the lowest active lane names. -/
theorem indexOf_unitNamed {b : Operand} {l : Nat × Nat} {i : Nat} (hl : lowActive x = some l) (hu : (val32 x b l).toNat = r.first + i)
    (hi : i < r.count) : r.indexOf (unitNamed x b) = some i := by
  simp only [unitNamed, hl, hu, Ring.indexOf]
  rw [if_pos ⟨by omega, by omega⟩]
  simp

/-- A release at core scope waits, or is performed with nothing done. -/
theorem release_core {s2 : State} (h : release s z .core = .inl s2) : s2 = s := by
  unfold release at h
  split at h
  · cases h
  · cases h; rfl

theorem rpubBody_of {b : Operand} {i : Nat} (ha : x.active ≠ []) (hid : id < 20) (hr : Map.find? z.crew.rings id = some r)
    (hi : r.indexOf (unitNamed x b) = some i) (hst : (r.slot i).st = .reserved z.cur.crew) (hrel : release s z .core = .inl s) :
    rpubBody id b x z s = .ok (z.putRing s id fun r => r.publish i, none) := by
  simp only [rpubBody, List.isEmpty_iff, if_neg ha, ringNamed_of hid hr, hi, if_pos hst, released, hrel]
  rfl

theorem rrelBody_of {b : Operand} {i : Nat} (ha : x.active ≠ []) (hid : id < 20) (hr : Map.find? z.crew.rings id = some r)
    (hi : r.indexOf (unitNamed x b) = some i) (hst : (r.slot i).st = .claimed) (hh : (r.slot i).holders.contains z.cur.crew = true)
    (hbusy : unitBusy s z.cur.crew (ringSpace id) (unitNamed x b) = false) (hrel : release s z .core = .inl s) :
    rrelBody id b x z s = .ok (clearUnits (z.putRing s id fun _ => (r.release i z.cur.crew).1) z.cur.crew id
      (r.release i z.cur.crew).2, none) := by
  simp only [rrelBody, List.isEmpty_iff, if_neg ha, ringNamed_of hid hr, hi, hst, hh, and_self, if_true, hbusy, Bool.false_eq_true, if_false,
    released, hrel]
  rfl

end

/-! ## A unit released -/

section
variable {s s1 : State} {g : Guard} {x z : Iss} (h : Commits s g x z s1)
include h

/-- Past a release of a unit: the ring, the registers, the memories of the machine, and the units that become free. -/
theorem Commits.past_release {i : Instr} {sets : Iss → List OSet} {check : Iss → Except Stop Unit}
    {body : Iss → Iss → State → Except Stop Done} {id : Nat} {r r' : Ring} {us : List Nat}
    (hx : exec i s = commitOp s g sets check body) (hc : check x = .ok ()) (hr : Map.find? z.crew.rings id = some r)
    (hb : body x z s1 = .ok (clearUnits (z.putRing s1 id fun _ => r') z.cur.crew id us, none)) :
    ∃ t y, exec i s = .next t ∧ t.context x.cur = some y ∧ Map.find? y.crew.rings id = some r' ∧ (∀ c, y.cell c = z.cell c) ∧
      SameMemory s1 t ∧ ∀ u ∈ us, ∀ v, Map.find? (y.crew.units (ringSpace id)) u = some v → v.Cleared := by
  have hcur : z.cur = x.cur := h.ended_keeps.cur
  obtain ⟨m, hown, hcl⟩ := clearUnits_own (id := id) us (Iss.putRing_own s1 (fun _ => r') hr)
  have hmach := (clearUnits_machine _ z.cur.crew id us).trans (z.putRing_machine s1 id fun _ => r')
  have hkeeps : ((z.ringCrew id r').setUnits (ringSpace id) m).groups = Map.put z.crew.groups z.cur.group z.grp ∧
      ((z.ringCrew id r').setUnits (ringSpace id) m).grid = z.crew.grid ∧
      ((z.ringCrew id r').setUnits (ringSpace id) m).sheaves = z.crew.sheaves ∧
      ((z.ringCrew id r').setUnits (ringSpace id) m).rings = Map.put z.crew.rings id r' := by
    cases ringSpace id <;> exact ⟨rfl, rfl, rfl, rfl⟩
  obtain ⟨hgroups, hgrid, hsheaves, hrings⟩ := hkeeps
  have hunits := Crew.units_setUnits (z.ringCrew id r') (ringSpace id) m
  generalize (z.ringCrew id r').setUnits (ringSpace id) m = c at hown hgroups hgrid hsheaves hrings hunits
  rw [hcur] at hown hmach hb
  obtain ⟨t, y, hxt, hy, ha⟩ := h.goes_past hx hc hb hown (gr := z.grp) (by rw [hgroups, hcur]; exact Map.find?_put_self _ _ _)
    h.ended_keeps.episode (congrArg State.grids hmach :) hgrid
  have hyr : y.crew.rings = c.rings := (congrArg Crew.rings ha.crew :)
  have hyu : y.crew.units (ringSpace id) = c.units (ringSpace id) := by
    cases ringSpace id
    · exact (congrArg Crew.unitsW ha.crew :)
    · exact (congrArg Crew.unitsA ha.crew :)
    · exact (congrArg Crew.unitsC ha.crew :)
  refine ⟨t, y, hxt, hy, ?_, fun k => ha.cells (fun j => by simp only [Crew.sheaf, hsheaves]) k, sameMemory_of_machine hmach ha, fun u hu v hv => ?_⟩
  · rw [hyr, hrings]
    exact Map.find?_put_self _ _ _
  · rw [hyu, hunits] at hv
    exact (hcl u v hv).2 hu

end

end Sys2Proof.Machine

namespace Sys2Proof.Proofs

open Machine Claims Host

theorem exec_rpub (ring : Fin 64) (b : Operand) (g : Guard) (s : State) : exec (.rpub ring b g) s =
    commitOp s g (fun x => trapSets x [(b, 1)] [] g) (fun _ => .ok ()) (rpubBody ring.val b) := rfl

theorem exec_rrel (ring : Fin 64) (b : Operand) (g : Guard) (s : State) : exec (.rrel ring b g) s =
    commitOp s g (fun x => trapSets x [(b, 1)] [] g) (fun _ => .ok ()) (rrelBody ring.val b) := rfl

theorem rresActs (d : Operand) (ring : Fin 64) (g : Guard) : RingActs (.rres d ring g) ring d g fun r crew =>
    if r.free = 0 then none
    else some (BitVec.ofNat 32 (r.first + r.rsvCur), { r.modSlot r.rsvCur (fun q => { q with st := .reserved crew }) with
      free := r.free - 1, rsvCur := (r.rsvCur + 1) % r.count }) := by
  intro s x z s1 r r' w h ha ho hid hr hact hd
  rw [← h.ended_keeps.cur] at hact
  beta_reduce at hact
  by_cases hfree : r.free = 0
  · rw [if_pos hfree] at hact
    cases hact
  · rw [if_neg hfree] at hact
    cases hact
    exact h.gives_ring (i := .rres d ring g) rfl ho hr (rresBody_of ha hid hr (if_neg hfree)) hd

theorem rclmActs (d : Operand) (ring : Fin 64) (g : Guard) : RingActs (.rclm d ring g) ring d g fun r crew =>
    (r.take crew).map fun q => (BitVec.ofNat 32 q.1, q.2) := by
  intro s x z s1 r r' w h ha ho hid hr hact hd
  rw [← h.ended_keeps.cur] at hact
  obtain ⟨⟨u, r2⟩, htake, hw⟩ := Option.map_eq_some_iff.1 hact
  cases hw
  exact h.gives_ring (i := .rclm d ring g) rfl ho hr (rclmBody_of ha hid hr htake) hd

theorem rctrActs (d : Operand) (ring : Fin 64) (g : Guard) : RingActs (.rctr d ring g) ring d g fun r crew =>
    some (BitVec.ofNat 32 (r.free % 65536 + 65536 * Map.get r.filled crew 0), r) := by
  intro s x z s1 r r' w h ha ho hid hr hact hd
  rw [← h.ended_keeps.cur] at hact
  cases hact
  exact h.gives_ring (i := .rctr d ring g) rfl ho hr (rctrBody_of ha hid hr) hd

/-- Settles O12: a command's word goes to its destination and its changed ring to its crew, and the units a release frees are cleared. -/
theorem ringCommands : Obligations.RingCommands := by
  unfold Obligations.RingCommands
  refine ⟨rresActs, rclmActs, rctrActs, ?_, ?_⟩
  · intro ring b g s x z s1 s2 l r i h hl hid hr hu hi hst hrel
    obtain rfl := release_core hrel
    rw [← h.ended_keeps.cur] at hst
    obtain ⟨t, y, hxt, hy, hring, hcells, _, hmem, hown⟩ := h.past_ring (tab := s2.osets) (exec_rpub ring b g s) rfl (Touch.refl z) hr
      (rpubBody_of (active_of_lowActive hl) hid hr (indexOf_unitNamed hl hu hi) hst hrel)
    exact ⟨t, y, hxt, hy, hring, hcells, hmem, hown⟩
  · intro ring b g s x z s1 s2 l r i h hl hid hr hu hi hst hh hbusy hrel
    obtain rfl := release_core hrel
    rw [← h.ended_keeps.cur] at hh hbusy ⊢
    have hnamed : unitNamed x b = r.first + i := by simp only [unitNamed, hl, hu]
    have hp := h.past_release (exec_rrel ring b g s) rfl hr
      (rrelBody_of (active_of_lowActive hl) hid hr (indexOf_unitNamed hl hu hi) hst hh (hnamed ▸ hbusy) hrel)
    rw [← h.ended_keeps.cur] at hp
    exact hp

end Sys2Proof.Proofs
end
